-- ==== Sys2Proof/Word.lean ====
section
/-! DEFINITION. The word types of the SM940 and the key-value list that its sparse state is held in. -/

namespace Sys2Proof

/-- A 64-bit word: an x register, a control register, a GV address (R22, R143). -/
abbrev Word := BitVec 64

/-- A byte of memory. -/
abbrev Byte := BitVec 8

/-- The image of a vector register's data bytes: 2,048 bytes, little-endian (R3, R60). -/
abbrev VImage := BitVec 16384

/-- The scale sidecar of a vector register: one byte for each 8 data bytes (R120). -/
abbrev VSide := BitVec 2048

/-- A mask: one bit for each element index from 0 to 4,095 (R271). -/
abbrev MaskBits := BitVec 4096

/-- A 128-byte tile row (R185). -/
abbrev TileRow := BitVec 1024

/-- The 16 sidecar bytes of a tile row (R120, R185). -/
abbrev TileSide := BitVec 128

/-- x0 to x63 (R22). -/
abbrev XReg := BitVec 6

/-- v0 to v31 (R22). -/
abbrev VReg := BitVec 5

/-- k0 to k7 (R96). -/
abbrev KReg := BitVec 3

/-- b0 to b7 (R93). -/
abbrev BReg := BitVec 3

/-- m0 to m7 (R22). -/
abbrev MReg := BitVec 3

/-- Package core number, 0 to 95 (R12). -/
abbrev CoreNo := BitVec 7

/-- Hart of a core: 0 to 3 are h0 to h3, 4 and 5 are f0 and f1 (R14, R228). -/
abbrev HartNo := BitVec 3

/-- Die number, 0 to 3 (R12). -/
abbrev DieNo := BitVec 2

/-- Values by key, in rising key order. -/
abbrev AMap (α : Type) := List (Nat × α)

end Sys2Proof
end

