-- ==== Sys2Proof/Config.lean ====
section
/-! DEFINITION. What an implementation fixes, and the free values: constants without a body, of which nothing can be
proved. -/

namespace Sys2Proof.Config

/-- Cores of a package and of a die (R12). -/
def cores : Nat := 96
def coresPerDie : Nat := 24
def dies : Nat := 4

/-- Bytes of near memory of one die: 1.5 GiB (R143). -/
def nmDie : Nat := 0x60000000

/-- Near memory of the package. -/
def nmSize : Nat := 4 * nmDie

/-- Bytes of an LS: 4 MiB (R14). Its top 64 KiB is the Wharf's staging buffer (R209). -/
def lsSize : Nat := 0x400000
def lsArena : Nat := lsSize - 0x10000

/-- Entries of the VIQ, of the VIQ of a handler, of the return queue and of the scalar store queue (R53, R220, R276). -/
def viqSize : Nat := 64
def handlerViqSize : Nat := 8
def returnQueue : Nat := 16
def storeQueue : Nat := 16

/-- Landing entries reserved for each user hart, and shared (R82). -/
def landingReserve : Nat := 48
def landingShared : Nat := 64

/-- Physical rows of a lane slice beyond the 32 architectural registers (R54). -/
def spareRows : Nat := 16

/-- Free value: the address of the default fill handler of a class, which the firmware build fixes (R87). -/
opaque defaultHandler : Nat → BitVec 48

/-- Free value: the address of the ferry firmware's loop (R84). -/
opaque ferryEntry : BitVec 48

/-- Bytes of far memory that can be mapped: 64 TiB (R17, R143). -/
def fmSize : Nat := 0x400000000000

/-- CXL ports of a die, and the first number of its four peer links among its SerDes (R11, R13). -/
def cxlPorts : Nat := 6
def peerBase : Nat := 8

/-- Blocks of an instruction cache, and lines of a constant cache, of 64 bytes: 128 KiB and 16 KiB (R14). -/
def icacheBlocks : Nat := 2048
def ccacheLines : Nat := 256

/-- Free value: the far-memory port of a die that serves a physical address, as die and port (R143). -/
opaque fmPort : Nat → DieNo × Fin 6

/-- Free value: the peer link that reaches a pod number (R238). -/
opaque peerLink : BitVec 6 → BitVec 4

/-- Free value: whether the device lacks an event of its counters (R250). -/
opaque lacksEvent : BitVec 63 → Bool

/-- Free value: the bytes of the certificate chain (R244). -/
opaque certificate : Nat → Byte

/-- Free value: the thermal status of a die that the host reads (R237), by die and number of the reading. -/
opaque thermalStatus : DieNo → Nat → Word

/-- Free values of attestation (R244): the digest of the certificate chain, a signature over bytes, and a measurement
of the firmware. -/
opaque chainDigest : BitVec 512
opaque signature : List Byte → BitVec 4096
opaque measurement : BitVec 8 → List Byte

/-- Free value: what an accumulator column that does not exist reads as, when a drain's N lies beyond the 128 columns (R188,
R196). -/
opaque beyondColumn : Nat → BitVec 32

/-- Free value: a value that the spec leaves open, by the number of its use, which the state counts (log entry 10). -/
opaque freeValue : Nat → Word

end Sys2Proof.Config
end

