-- ==== Sys2Proof/Syntax.lean ====
section
/-! DEFINITION. The instructions and steps of the machine: one constructor for every row of the opcode table.
A row with an encoding carries its operand fields, named and ordered as the table has them. A row without one is a
step of another agent of the package, and its operands are an `Input`, which the machine's state holds. CHGET's three
rows beside CHGET_GET share its word, and take their operands from the `Input` too; HINT keeps no operand, because
none of its bits has an effect (R48). -/

namespace Sys2Proof

/-- Who uses the register window or claims a counter bank: the hypervisor through the physical function, or a
guest through its virtual function (R236, R250). -/
inductive WindowUser where
  | physical
  | virtual (vf : BitVec 6)
  deriving DecidableEq, Repr

/-- The writable registers of the register window that have no opcode-table row of their own (R237). -/
inductive WindowReg where
  /-- WGT[t] (R208) -/
  | wgt (t : BitVec 6)
  /-- DEF[t] (R208) -/
  | deficit (t : BitVec 6)
  /-- The scope policy of tenant t (R178) -/
  | lim (t : BitVec 6)
  /-- The save-area base of tenant t (R216) -/
  | saveBase (t : BitVec 6)
  /-- The TBASE reset value of tenant t (R219) -/
  | tbase (t : BitVec 6)
  /-- The PTBASE loaded at admission (R163) -/
  | ptbase (t : BitVec 6)
  /-- The ASID loaded at admission (R163) -/
  | asid (t : BitVec 6)
  /-- PODID (R238) -/
  | podid
  /-- DBGCTL.CLAIM of a hart (R245) -/
  | claim (core : CoreNo) (hart : HartNo)
  /-- Breakpoint n of a core: address in [47:0], kind in [48], hart mask in [55:52] (R246) -/
  | breakpoint (core : CoreNo) (n : BitVec 2)
  /-- STATUS of a bank (R228) -/
  | bankStatus (core : CoreNo) (bank : BitVec 4)
  /-- CTL of a bank (R228) -/
  | bankCtl (core : CoreNo) (bank : BitVec 4)
  /-- Base of a core's profiling ring (R248) -/
  | ringBase (core : CoreNo)
  /-- Size of a core's profiling ring (R248) -/
  | ringSize (core : CoreNo)
  /-- The sampling exponent s of a core (R248) -/
  | sample (core : CoreNo)
  /-- Event code of a counter, with sampling enable in [63] (R249) -/
  | counterEvent (core : CoreNo) (bank : BitVec 2) (ctr : BitVec 3)
  /-- The count of a counter, which a migrated session brings (R250) -/
  | counterValue (core : CoreNo) (bank : BitVec 2) (ctr : BitVec 3)
  /-- The guest of a counter bank, which a migrated session brings: tenant in [5:0], PREEMPTED in [62], present in [63]
  (R250) -/
  | counterSession (core : CoreNo) (bank : BitVec 2)
  /-- PREEMPTED of a counter bank, cleared by its guest (R250) -/
  | counterStatus (core : CoreNo) (bank : BitVec 2)
  /-- Returning a core to service after a failed self-test (R234) -/
  | service (core : CoreNo)
  /-- The pointer pair of a stopped hart: front PC and VCP, and its VSTART (R245) -/
  | frontPc (core : CoreNo) (hart : HartNo)
  | vcp (core : CoreNo) (hart : HartNo)
  | vstart (core : CoreNo) (hart : HartNo)
  /-- Word k of the 64-byte image of entry n of a stopped hart's VIQ, the entries that a trap holds first (R220, R245; log
  entry 58) -/
  | viq (core : CoreNo) (hart : HartNo) (n : BitVec 7) (k : BitVec 3)
  deriving DecidableEq, Repr

/-- What a peer package asks of this package's near memory (R143, R159). -/
inductive PeerAccess where
  | read (len : BitVec 7)
  | write (bytes : List Byte)
  | amo (op : BitVec 4) (operand expected : Word)
  deriving DecidableEq, Repr

/-- A collective command of a participant in another package (R239): its rank, its words 0 and 3 and the bytes of
its source. -/
structure RemoteCmd where
  rank : Nat
  word0 : Word
  word3 : Word
  source : List Byte
  deriving DecidableEq, Repr

/-- A hardware error as a checker reports it to a bank (R228, R229). `core` is a package core number; for banks 8 to
15 its die is taken. -/
structure ErrorReport where
  core : CoreNo
  bank : BitVec 4
  source : BitVec 8
  syndrome : BitVec 16
  addr : Option Word
  /-- MISC.HART: 7 when no hart met the error. -/
  hart : BitVec 3
  pc : BitVec 48
  /-- The user hart from which the faulty entry of the Landing or of the accumulation RAM originates (R230); 7 for none. -/
  origin : BitVec 3 := 7
  deriving DecidableEq, Repr

/-- The operands of a step that has no encoding: each row reads the fields it needs, and the others stay as they are. -/
structure Input where
  /-- Core and hart that the step concerns. -/
  core : CoreNo := 0
  hart : HartNo := 0
  /-- Target register of TARGET_PREFETCH_DONE (R94). -/
  bt : BReg := 0
  /-- Landing entry of REPLAY_COMPLETE (R83). -/
  entry : BitVec 8 := 0
  /-- FIFO position of the command that COPY and COPY_FILL execute (R157). -/
  pos : BitVec 4 := 0
  /-- Tag of a collective operation, and the commands of its participants in other packages (R239). -/
  tag : BitVec 8 := 0
  remote : List RemoteCmd := []
  die : DieNo := 0
  /-- Tenant, or the virtual function of the same number (R204). -/
  tenant : BitVec 6 := 0
  /-- First address of a page, and the level of its leaf, of HEAT_THRESHOLD (R170). -/
  page : BitVec 48 := 0
  size : BitVec 3 := 0
  /-- Offset and bytes of a store to a launch window (R204), the bytes of a write to the register window (R3), or the part that a
  certificate request names (R244). -/
  off : BitVec 16 := 0
  len : BitVec 16 := 0
  bytes : List Byte := []
  prio : BitVec 2 := 0
  /-- Resident or saved group (R211). -/
  group : Nat := 0
  /-- Launch of WQRY_ANSWER (R213). -/
  launch : Nat := 0
  report : ErrorReport := ⟨0, 0, 0, 0, none, 7, 0, 7⟩
  /-- Peer link, or port of a die (R241). -/
  link : BitVec 4 := 0
  /-- Sequence number and signature of a self-test (R234). -/
  seqNo : BitVec 16 := 0
  signature : BitVec 32 := 0
  /-- Requested core power state, and the S state of a port or link (R241). -/
  req : BitVec 3 := 0
  st : BitVec 2 := 0
  /-- READY bit (R242). -/
  bit : BitVec 6 := 0
  user : WindowUser := .physical
  reg : WindowReg := .podid
  value : Word := 0
  /-- Physical near-memory address (R235, R143). -/
  pa : BitVec 40 := 0
  access : PeerAccess := .read 0
  nonce : BitVec 256 := 0
  /-- Measurement block, or code of an unsupported request (R244). -/
  code : BitVec 8 := 0
  bank : BitVec 4 := 0
  ctr : BitVec 3 := 0
  /-- Bits and length of an illegal encoding (R38). -/
  enc : Word := 0
  encLen : BitVec 4 := 0
  /-- ASID and page of a TLBINV (R168). -/
  asid : BitVec 16 := 0
  va : BitVec 36 := 0
  /-- Destination, argument register and channel of CHGET (R152). -/
  d : XReg := 0
  a : XReg := 0
  n : BitVec 4 := 0
  deriving DecidableEq, Repr

/-- The instructions and steps of the SM940: the rows of the opcode table. -/
inductive Instr where
  /-- ADD (R257): Adds two x registers modulo 2^64. -/
  | add (d : XReg) (a : XReg) (b : XReg)
  /-- ADD_C (R42): Compressed add xd, xd, xb on x0-x15. -/
  | addC (d : BitVec 4) (b : BitVec 4)
  /-- SUB (R257): Subtracts two x registers modulo 2^64. -/
  | sub (d : XReg) (a : XReg) (b : XReg)
  /-- AND (R257): Bitwise and of two x registers. -/
  | and (d : XReg) (a : XReg) (b : XReg)
  /-- OR (R257): Bitwise or of two x registers. -/
  | or (d : XReg) (a : XReg) (b : XReg)
  /-- XOR (R257): Bitwise xor of two x registers. -/
  | xor (d : XReg) (a : XReg) (b : XReg)
  /-- SHL (R257): Shifts an x register left by x[b][5:0]. -/
  | shl (d : XReg) (a : XReg) (b : XReg)
  /-- SHR (R257): Logical right shift by x[b][5:0]. -/
  | shr (d : XReg) (a : XReg) (b : XReg)
  /-- SHRA (R257): Arithmetic right shift by x[b][5:0]. -/
  | shra (d : XReg) (a : XReg) (b : XReg)
  /-- MIN (R257): Signed minimum of two x registers. -/
  | min (d : XReg) (a : XReg) (b : XReg)
  /-- MAX (R257): Signed maximum of two x registers. -/
  | max (d : XReg) (a : XReg) (b : XReg)
  /-- MINN (R257): Natural minimum of two x registers. -/
  | minn (d : XReg) (a : XReg) (b : XReg)
  /-- MAXN (R257): Natural maximum of two x registers. -/
  | maxn (d : XReg) (a : XReg) (b : XReg)
  /-- SLT (R257): Sets 1 when x[a] < x[b] signed. -/
  | slt (d : XReg) (a : XReg) (b : XReg)
  /-- SLTN (R257): Sets 1 when x[a] < x[b] natural. -/
  | sltn (d : XReg) (a : XReg) (b : XReg)
  /-- CLZ (R257): Counts leading zero bits of x[a]. -/
  | clz (d : XReg) (a : XReg)
  /-- POPC (R257): Counts set bits of x[a]. -/
  | popc (d : XReg) (a : XReg)
  /-- MV (R257): Copies x[a] to x[d]. -/
  | mv (d : XReg) (a : XReg)
  /-- MV_C (R42): Compressed mv on x0-x15. -/
  | mvC (d : BitVec 4) (a : BitVec 4)
  /-- ADDI (R257): Adds a sign-extended 12-bit immediate. -/
  | addi (d : XReg) (a : XReg) (imm : BitVec 12)
  /-- ADDI_C (R42): Compressed addi xd, xd, imm6. -/
  | addiC (j : BitVec 1) (d : BitVec 4) (imm : BitVec 5)
  /-- ANDI (R257): Ands a zero-extended 12-bit immediate. -/
  | andi (d : XReg) (a : XReg) (imm : BitVec 12)
  /-- ORI (R257): Ors a zero-extended 12-bit immediate. -/
  | ori (d : XReg) (a : XReg) (imm : BitVec 12)
  /-- XORI (R257): Xors a zero-extended 12-bit immediate. -/
  | xori (d : XReg) (a : XReg) (imm : BitVec 12)
  /-- SHLI (R274): Shifts left by an immediate amount. -/
  | shli (d : XReg) (a : XReg) (n : BitVec 6)
  /-- SHRI (R274): Logical right shift by an immediate amount. -/
  | shri (d : XReg) (a : XReg) (n : BitVec 6)
  /-- SHRAI (R274): Arithmetic right shift by an immediate amount. -/
  | shrai (d : XReg) (a : XReg) (n : BitVec 6)
  /-- LIH (R41): Loads sext(imm18) << 12 into x[d]. -/
  | lih (d : XReg) (imm : BitVec 18)
  /-- MUL (R263): Low 64 bits of the product. -/
  | mul (d : XReg) (a : XReg) (b : XReg)
  /-- MULH (R263): High 64 bits of the signed product. -/
  | mulh (d : XReg) (a : XReg) (b : XReg)
  /-- MULHN (R263): High 64 bits of the natural product. -/
  | mulhn (d : XReg) (a : XReg) (b : XReg)
  /-- DIV (R263): Signed quotient truncated toward zero. -/
  | div (d : XReg) (a : XReg) (b : XReg)
  /-- DIVN (R263): Natural quotient. -/
  | divn (d : XReg) (a : XReg) (b : XReg)
  /-- REM (R263): Signed remainder. -/
  | rem (d : XReg) (a : XReg) (b : XReg)
  /-- REMN (R263): Natural remainder. -/
  | remn (d : XReg) (a : XReg) (b : XReg)
  /-- FADD_FP64 (R265): Scalar FP64 addition. -/
  | faddFp64 (d : XReg) (a : XReg) (b : XReg)
  /-- FSUB_FP64 (R265): Scalar FP64 subtraction. -/
  | fsubFp64 (d : XReg) (a : XReg) (b : XReg)
  /-- FMUL_FP64 (R265): Scalar FP64 multiplication. -/
  | fmulFp64 (d : XReg) (a : XReg) (b : XReg)
  /-- FDIV_FP64 (R265): Scalar FP64 division. -/
  | fdivFp64 (d : XReg) (a : XReg) (b : XReg)
  /-- FMA_FP64 (R265): Scalar FP64 fused multiply-add into x[d]. -/
  | fmaFp64 (d : XReg) (a : XReg) (b : XReg)
  /-- FMIN_FP64 (R265): Scalar FP64 minimum. -/
  | fminFp64 (d : XReg) (a : XReg) (b : XReg)
  /-- FMAX_FP64 (R265): Scalar FP64 maximum. -/
  | fmaxFp64 (d : XReg) (a : XReg) (b : XReg)
  /-- FSQRT_FP64 (R265): Scalar FP64 square root. -/
  | fsqrtFp64 (d : XReg) (a : XReg)
  /-- FCVT_FP64 (R266): Converts between FP64 and the coded type. -/
  | fcvtFp64 (d : XReg) (a : XReg) (c : BitVec 5)
  /-- FADD_FP32 (R265): Scalar FP32 addition. -/
  | faddFp32 (d : XReg) (a : XReg) (b : XReg)
  /-- FSUB_FP32 (R265): Scalar FP32 subtraction. -/
  | fsubFp32 (d : XReg) (a : XReg) (b : XReg)
  /-- FMUL_FP32 (R265): Scalar FP32 multiplication. -/
  | fmulFp32 (d : XReg) (a : XReg) (b : XReg)
  /-- FDIV_FP32 (R265): Scalar FP32 division. -/
  | fdivFp32 (d : XReg) (a : XReg) (b : XReg)
  /-- FMA_FP32 (R265): Scalar FP32 fused multiply-add. -/
  | fmaFp32 (d : XReg) (a : XReg) (b : XReg)
  /-- FMIN_FP32 (R265): Scalar FP32 minimum. -/
  | fminFp32 (d : XReg) (a : XReg) (b : XReg)
  /-- FMAX_FP32 (R265): Scalar FP32 maximum. -/
  | fmaxFp32 (d : XReg) (a : XReg) (b : XReg)
  /-- FSQRT_FP32 (R265): Scalar FP32 square root. -/
  | fsqrtFp32 (d : XReg) (a : XReg)
  /-- FCVT_FP32 (R266): Converts between FP32 and the coded type. -/
  | fcvtFp32 (d : XReg) (a : XReg) (c : BitVec 5)
  /-- CMP (R97): Integer compare into a condition register. -/
  | cmp (k : KReg) (a : XReg) (b : XReg) (c : BitVec 3)
  /-- FCMP_FP64 (R97): FP64 compare into a condition register. -/
  | fcmpFp64 (k : KReg) (a : XReg) (b : XReg) (c : BitVec 3)
  /-- FCMP_FP32 (R97): FP32 compare into a condition register. -/
  | fcmpFp32 (k : KReg) (a : XReg) (b : XReg) (c : BitVec 3)
  /-- KAND (R97): And of two condition registers. -/
  | kand (k : KReg) (a : KReg) (b : KReg)
  /-- KOR (R97): Or of two condition registers. -/
  | kor (k : KReg) (a : KReg) (b : KReg)
  /-- KXOR (R97): Xor of two condition registers. -/
  | kxor (k : KReg) (a : KReg) (b : KReg)
  /-- KNOT (R97): Negates a condition register. -/
  | knot (k : KReg) (a : KReg)
  /-- KFROMX (R97): Sets kd to x[a] nonzero. -/
  | kfromx (k : KReg) (a : XReg)
  /-- KTOX (R97): Copies a condition register into x[d]. -/
  | ktox (d : XReg) (k : KReg)
  /-- PREP (R95): Prepares a target register with a PC-relative address and starts its prefetch. -/
  | prep (bt : BReg) (o : BitVec 21)
  /-- PREP_C (R42): Compressed PREP with a 10-bit offset. -/
  | prepC (h : BitVec 4) (bt : BReg) (o : BitVec 6)
  /-- PREPR (R95): Prepares a target register from x[a]. -/
  | prepr (bt : BReg) (a : XReg)
  /-- MVB (R95): Reads a target address into x[d]. -/
  | mvb (bt : BReg) (d : XReg)
  /-- JMP (R98): Transfers through a target register. -/
  | jmp (bt : BReg)
  /-- JMP_C (R42): Compressed JMP. -/
  | jmpC (bt : BReg)
  /-- BR (R98): Transfers when the condition register is 1. -/
  | br (bt : BReg) (k : KReg)
  /-- BR_C (R42): Compressed BR. -/
  | brC (bt : BReg) (k : KReg)
  /-- BRN (R98): Transfers when the condition register is 0. -/
  | brn (bt : BReg) (k : KReg)
  /-- BRN_C (R42): Compressed BRN. -/
  | brnC (bt : BReg) (k : KReg)
  /-- CALL (R98): Writes the return address to b7 and transfers. -/
  | call (bt : BReg)
  /-- INVB (R95): Invalidates a target register. -/
  | invb (bt : BReg)
  /-- TRAP (R225): Raises TRAPI with the given code. -/
  | trap (n : BitVec 6)
  /-- WAIT (R305): Waits until a GV word differs from x[b]. -/
  | wait (a : XReg) (b : XReg)
  /-- FENCE (R177): Orders the hart's accesses at a scope by kind. -/
  | fence (kind : BitVec 2) (scope : BitVec 3)
  /-- LD (R268): Loads from GV into x[d]. -/
  | ld (d : XReg) (a : XReg) (z : BitVec 3) (imm : BitVec 9)
  /-- ST (R275): Queues a store to GV. -/
  | st (xs : XReg) (a : XReg) (z : BitVec 3) (imm : BitVec 9)
  /-- LDL (R268): Loads from LS into x[d]. -/
  | ldl (d : XReg) (a : XReg) (z : BitVec 3) (imm : BitVec 9)
  /-- LDL_C (R42): Compressed 64-bit LDL from x0 + 8·imm5. -/
  | ldlC (d : BitVec 4) (imm : BitVec 5)
  /-- STL (R275): Queues a store to LS. -/
  | stl (xs : XReg) (a : XReg) (z : BitVec 3) (imm : BitVec 9)
  /-- STL_C (R42): Compressed 64-bit STL to x0 + 8·imm5. -/
  | stlC (xs : BitVec 4) (imm : BitVec 5)
  /-- AMO_ADD (R159): Atomic add at the owning controller. -/
  | amoAdd (d : XReg) (a : XReg) (b : XReg) (o : BitVec 2)
  /-- AMO_AND (R159): Atomic and. -/
  | amoAnd (d : XReg) (a : XReg) (b : XReg) (o : BitVec 2)
  /-- AMO_OR (R159): Atomic or. -/
  | amoOr (d : XReg) (a : XReg) (b : XReg) (o : BitVec 2)
  /-- AMO_XOR (R159): Atomic xor. -/
  | amoXor (d : XReg) (a : XReg) (b : XReg) (o : BitVec 2)
  /-- AMO_MIN (R159): Atomic signed minimum. -/
  | amoMin (d : XReg) (a : XReg) (b : XReg) (o : BitVec 2)
  /-- AMO_MAX (R159): Atomic signed maximum. -/
  | amoMax (d : XReg) (a : XReg) (b : XReg) (o : BitVec 2)
  /-- AMO_MINN (R159): Atomic natural minimum. -/
  | amoMinn (d : XReg) (a : XReg) (b : XReg) (o : BitVec 2)
  /-- AMO_MAXN (R159): Atomic natural maximum. -/
  | amoMaxn (d : XReg) (a : XReg) (b : XReg) (o : BitVec 2)
  /-- AMO_SWAP (R159): Atomic swap. -/
  | amoSwap (d : XReg) (a : XReg) (b : XReg) (o : BitVec 2)
  /-- AMO_CAS (R159): Atomic compare-and-swap. -/
  | amoCas (d : XReg) (a : XReg) (b : XReg) (o : BitVec 2)
  /-- CRD (R258): Reads a control register. -/
  | crd (d : XReg) (c : BitVec 12)
  /-- CRD_SYNC (R197): Reads AMAXn after earlier drains of that accumulator complete. -/
  | crdSync (d : XReg) (c : BitVec 12)
  /-- CWR (R258): Writes a control register, the general row for registers without their own. -/
  | cwr (xs : XReg) (c : BitVec 12)
  /-- CSET (R258): Sets bits of a control register. -/
  | cset (xs : XReg) (c : BitVec 12)
  /-- CCLR (R258): Clears bits of a control register. -/
  | cclr (xs : XReg) (c : BitVec 12)
  /-- ENQ (R154): Pushes one command word to an engine FIFO. -/
  | enq (a : XReg) (u : BitVec 4)
  /-- DEQ (R262): Pops the next completion token, waiting for it. -/
  | deq (d : XReg) (u : BitVec 4)
  /-- DEQT (R154): Pops a token if present and sets k0. -/
  | deqt (d : XReg) (u : BitVec 4)
  /-- LAUNCH (R205): Checks and enqueues a launch record. -/
  | launch (a : XReg)
  /-- WQRY (R213): Requests the next Y-level index into a channel. -/
  | wqry (n : BitVec 4)
  /-- GBAR (R214): Barrier with full fence at group, gang or launch scope. -/
  | gbar (scope : BitVec 4)
  /-- SDEF (R146): Loads a stream descriptor into a slot. -/
  | sdef (a : XReg) (n : BitVec 3)
  /-- SBIND (R146): Binds a vector register to a stream slot. -/
  | sbind (v : VReg) (n : BitVec 3)
  /-- SUNB (R146): Unbinds a stream slot. -/
  | sunb (n : BitVec 3)
  /-- CHDEF (R261): Defines a channel ring in the arena. -/
  | chdef (a : XReg) (n : BitVec 4)
  /-- CHPUT (R152): Writes word 0 of a slot and fills it. -/
  | chput (a : XReg) (n : BitVec 4)
  /-- CHGET_GET (R152): Reads word 0 of the head slot and takes it. -/
  | chgetGet (d : XReg) (a : XReg) (n : BitVec 4)
  /-- RDEF (R107): Checks and loads a recursion object. -/
  | rdef (a : XReg)
  /-- RRUN (R108): Runs or resumes a recursion on the Pontoon. -/
  | rrun (a : XReg)
  /-- RFLD (R110): Reads a frame word of each active frame. -/
  | rfld (v : VReg) (a : XReg)
  /-- RPUT (R110): Writes a frame word of child c. -/
  | rput (v : VReg) (a : XReg) (c : BitVec 3)
  /-- RSPAWN (R110): Declares child counts and allocates child cells. -/
  | rspawn (v : VReg)
  /-- RRES (R110): Writes a result word of each active frame. -/
  | rres (v : VReg) (a : XReg)
  /-- RKID (R110): Reads a result word of child c. -/
  | rkid (v : VReg) (a : XReg) (c : BitVec 3)
  /-- LNGET (R85): Ferry takes a ready Landing entry into eight registers. -/
  | lnget (d : XReg)
  /-- FILL (R86): Ferry completes or poisons its held entry. -/
  | fill (xs : XReg) (a : XReg)
  /-- FTLOAD (R87): Writes a fill-table handler address. -/
  | ftload (xs : XReg) (a : XReg)
  /-- PRES (R77): Copies element presence into a mask. -/
  | pres (m : MReg) (v : VReg)
  /-- VSETL (R58): Sets VTYPE and VL. -/
  | vsetl (d : XReg) (a : XReg) (t2 : BitVec 4) (sc : BitVec 1) (ty : BitVec 4)
  /-- VGRANT (R61): Changes the number of lanes the hart holds. -/
  | vgrant (d : XReg) (a : XReg)
  /-- VFORK (R63): Hands half the lanes to a free hart of the group. -/
  | vfork (d : XReg) (bt : BReg)
  /-- VJOIN (R64): Ends a child or collects a child's lanes. -/
  | vjoin (a : XReg)
  /-- LOOP (R65): Captures the next n instructions as a loop run without the front. -/
  | loop (a : XReg) (n : BitVec 4)
  /-- VEXIT (R67): Ends the captured loop after this iteration on a mask condition. -/
  | vexit (m : MReg) (c : BitVec 1)
  /-- VREL (R298): Releases a vector register's rows, zeroing it. -/
  | vrel (v : VReg)
  /-- SETTLE (R89): Waits for holes and reports the oldest poisoned root. -/
  | settle (v : VReg) (w : VReg) (n : BitVec 4)
  /-- VTEST (R97): Tests a mask into a condition register. -/
  | vtest (k : KReg) (m : MReg) (c : BitVec 4)
  /-- VADD (R279): Element-wise integer add. -/
  | vadd (d : VReg) (a : VReg) (b : VReg) (m : MReg)
  /-- VSUB (R279): Element-wise integer subtract. -/
  | vsub (d : VReg) (a : VReg) (b : VReg) (m : MReg)
  /-- VRSUB (R279): Element-wise reverse subtract. -/
  | vrsub (d : VReg) (a : VReg) (b : VReg) (m : MReg)
  /-- VMUL (R279): Element-wise low product. -/
  | vmul (d : VReg) (a : VReg) (b : VReg) (m : MReg)
  /-- VMULH (R279): Element-wise signed high product. -/
  | vmulh (d : VReg) (a : VReg) (b : VReg) (m : MReg)
  /-- VMULHN (R279): Element-wise natural high product. -/
  | vmulhn (d : VReg) (a : VReg) (b : VReg) (m : MReg)
  /-- VAND (R279): Element-wise and. -/
  | vand (d : VReg) (a : VReg) (b : VReg) (m : MReg)
  /-- VOR (R279): Element-wise or. -/
  | vor (d : VReg) (a : VReg) (b : VReg) (m : MReg)
  /-- VXOR (R279): Element-wise xor. -/
  | vxor (d : VReg) (a : VReg) (b : VReg) (m : MReg)
  /-- VSHL (R279): Element-wise left shift. -/
  | vshl (d : VReg) (a : VReg) (b : VReg) (m : MReg)
  /-- VSHR (R279): Element-wise logical right shift. -/
  | vshr (d : VReg) (a : VReg) (b : VReg) (m : MReg)
  /-- VSHRA (R279): Element-wise arithmetic right shift. -/
  | vshra (d : VReg) (a : VReg) (b : VReg) (m : MReg)
  /-- VMIN (R279): Element-wise signed minimum. -/
  | vmin (d : VReg) (a : VReg) (b : VReg) (m : MReg)
  /-- VMAX (R279): Element-wise signed maximum. -/
  | vmax (d : VReg) (a : VReg) (b : VReg) (m : MReg)
  /-- VMINN (R279): Element-wise natural minimum. -/
  | vminn (d : VReg) (a : VReg) (b : VReg) (m : MReg)
  /-- VMAXN (R279): Element-wise natural maximum. -/
  | vmaxn (d : VReg) (a : VReg) (b : VReg) (m : MReg)
  /-- VMERGE (R294): Selects vb or va per element under the mask. -/
  | vmerge (d : VReg) (a : VReg) (b : VReg) (m : MReg)
  /-- VADC (R251): Add with carry through a carry mask. -/
  | vadc (d : VReg) (a : VReg) (b : VReg) (m : MReg)
  /-- VSBC (R251): Subtract with borrow through a carry mask. -/
  | vsbc (d : VReg) (a : VReg) (b : VReg) (m : MReg)
  /-- VWMUL (R303): Widening integer multiply. -/
  | vwmul (d : VReg) (a : VReg) (b : VReg) (m : MReg)
  /-- VADD_X (R279): Element-wise add of a scalar. -/
  | vaddX (d : VReg) (a : VReg) (b : XReg) (m : MReg)
  /-- VSUB_X (R279): Element-wise subtract of a scalar. -/
  | vsubX (d : VReg) (a : VReg) (b : XReg) (m : MReg)
  /-- VRSUB_X (R279): Scalar minus element. -/
  | vrsubX (d : VReg) (a : VReg) (b : XReg) (m : MReg)
  /-- VMUL_X (R279): Low product with a scalar. -/
  | vmulX (d : VReg) (a : VReg) (b : XReg) (m : MReg)
  /-- VMULH_X (R279): Signed high product with a scalar. -/
  | vmulhX (d : VReg) (a : VReg) (b : XReg) (m : MReg)
  /-- VMULHN_X (R279): Natural high product with a scalar. -/
  | vmulhnX (d : VReg) (a : VReg) (b : XReg) (m : MReg)
  /-- VAND_X (R279): And with a scalar. -/
  | vandX (d : VReg) (a : VReg) (b : XReg) (m : MReg)
  /-- VOR_X (R279): Or with a scalar. -/
  | vorX (d : VReg) (a : VReg) (b : XReg) (m : MReg)
  /-- VXOR_X (R279): Xor with a scalar. -/
  | vxorX (d : VReg) (a : VReg) (b : XReg) (m : MReg)
  /-- VSHL_X (R279): Left shift by a scalar. -/
  | vshlX (d : VReg) (a : VReg) (b : XReg) (m : MReg)
  /-- VSHR_X (R279): Logical right shift by a scalar. -/
  | vshrX (d : VReg) (a : VReg) (b : XReg) (m : MReg)
  /-- VSHRA_X (R279): Arithmetic right shift by a scalar. -/
  | vshraX (d : VReg) (a : VReg) (b : XReg) (m : MReg)
  /-- VMIN_X (R279): Signed minimum with a scalar. -/
  | vminX (d : VReg) (a : VReg) (b : XReg) (m : MReg)
  /-- VMAX_X (R279): Signed maximum with a scalar. -/
  | vmaxX (d : VReg) (a : VReg) (b : XReg) (m : MReg)
  /-- VMINN_X (R279): Natural minimum with a scalar. -/
  | vminnX (d : VReg) (a : VReg) (b : XReg) (m : MReg)
  /-- VMAXN_X (R279): Natural maximum with a scalar. -/
  | vmaxnX (d : VReg) (a : VReg) (b : XReg) (m : MReg)
  /-- VMERGE_X (R294): Selects the scalar or va per element. -/
  | vmergeX (d : VReg) (a : VReg) (b : XReg) (m : MReg)
  /-- VADC_X (R251): Add scalar with carry. -/
  | vadcX (d : VReg) (a : VReg) (b : XReg) (m : MReg)
  /-- VSBC_X (R251): Subtract scalar with borrow. -/
  | vsbcX (d : VReg) (a : VReg) (b : XReg) (m : MReg)
  /-- VWMUL_X (R303): Widening multiply by a scalar. -/
  | vwmulX (d : VReg) (a : VReg) (b : XReg) (m : MReg)
  /-- VFADD (R284): Element-wise floating add. -/
  | vfadd (d : VReg) (a : VReg) (b : VReg) (m : MReg)
  /-- VFSUB (R284): Element-wise floating subtract. -/
  | vfsub (d : VReg) (a : VReg) (b : VReg) (m : MReg)
  /-- VFMUL (R284): Element-wise floating multiply. -/
  | vfmul (d : VReg) (a : VReg) (b : VReg) (m : MReg)
  /-- VFMA (R284): Element-wise fused multiply-add into vd. -/
  | vfma (d : VReg) (a : VReg) (b : VReg) (m : MReg)
  /-- VFMIN (R284): Element-wise floating minimum. -/
  | vfmin (d : VReg) (a : VReg) (b : VReg) (m : MReg)
  /-- VFMAX (R284): Element-wise floating maximum. -/
  | vfmax (d : VReg) (a : VReg) (b : VReg) (m : MReg)
  /-- VFDIV (R284): Element-wise floating divide. -/
  | vfdiv (d : VReg) (a : VReg) (b : VReg) (m : MReg)
  /-- VFRCP (R284): Element-wise reciprocal. -/
  | vfrcp (d : VReg) (a : VReg) (m : MReg)
  /-- VFRSQ (R284): Element-wise reciprocal square root. -/
  | vfrsq (d : VReg) (a : VReg) (m : MReg)
  /-- VFSQRT (R284): Element-wise square root. -/
  | vfsqrt (d : VReg) (a : VReg) (m : MReg)
  /-- VFEXP (R284): Element-wise exponential, FP32 only. -/
  | vfexp (d : VReg) (a : VReg) (m : MReg)
  /-- VFLOG (R284): Element-wise natural logarithm, FP32 only. -/
  | vflog (d : VReg) (a : VReg) (m : MReg)
  /-- VFSIN (R284): Element-wise sine, FP32 only. -/
  | vfsin (d : VReg) (a : VReg) (m : MReg)
  /-- VFCOS (R284): Element-wise cosine, FP32 only. -/
  | vfcos (d : VReg) (a : VReg) (m : MReg)
  /-- VFCVT (R285): Converts elements to the target type. -/
  | vfcvt (d : VReg) (a : VReg) (g : BitVec 5) (m : MReg)
  /-- VFWMUL (R287): Widening floating multiply. -/
  | vfwmul (d : VReg) (a : VReg) (b : VReg) (m : MReg)
  /-- VFADD_X (R284): Floating add of a scalar. -/
  | vfaddX (d : VReg) (a : VReg) (b : XReg) (m : MReg)
  /-- VFSUB_X (R284): Floating subtract of a scalar. -/
  | vfsubX (d : VReg) (a : VReg) (b : XReg) (m : MReg)
  /-- VFMUL_X (R284): Floating multiply by a scalar. -/
  | vfmulX (d : VReg) (a : VReg) (b : XReg) (m : MReg)
  /-- VFMA_X (R284): Fused multiply-add with a scalar. -/
  | vfmaX (d : VReg) (a : VReg) (b : XReg) (m : MReg)
  /-- VFMIN_X (R284): Floating minimum with a scalar. -/
  | vfminX (d : VReg) (a : VReg) (b : XReg) (m : MReg)
  /-- VFMAX_X (R284): Floating maximum with a scalar. -/
  | vfmaxX (d : VReg) (a : VReg) (b : XReg) (m : MReg)
  /-- VFDIV_X (R284): Floating divide by a scalar. -/
  | vfdivX (d : VReg) (a : VReg) (b : XReg) (m : MReg)
  /-- VCMP (R281): Integer compare of vectors into a mask. -/
  | vcmp (d : MReg) (a : VReg) (b : VReg) (m : MReg) (c : BitVec 3)
  /-- VFCMP (R281): Floating compare of vectors into a mask. -/
  | vfcmp (d : MReg) (a : VReg) (b : VReg) (m : MReg) (c : BitVec 3)
  /-- VCMP_X (R281): Integer compare with a scalar into a mask. -/
  | vcmpX (d : MReg) (a : VReg) (b : XReg) (m : MReg) (c : BitVec 3)
  /-- VFCMP_X (R281): Floating compare with a scalar into a mask. -/
  | vfcmpX (d : MReg) (a : VReg) (b : XReg) (m : MReg) (c : BitVec 3)
  /-- MAND (R271): Mask and. -/
  | mand (d : MReg) (a : MReg) (b : MReg)
  /-- MOR (R271): Mask or. -/
  | mor (d : MReg) (a : MReg) (b : MReg)
  /-- MXOR (R271): Mask xor. -/
  | mxor (d : MReg) (a : MReg) (b : MReg)
  /-- MNOT (R271): Mask not. -/
  | mnot (d : MReg) (a : MReg)
  /-- MSHL (R252): Shifts a mask up by n elements. -/
  | mshl (d : MReg) (a : MReg) (n : BitVec 5)
  /-- MPOP (R253): Counts set mask bits into x[d]. -/
  | mpop (d : BitVec 5) (a : MReg)
  /-- MFIRST (R253): Lowest set mask index into x[d]. -/
  | mfirst (d : BitVec 5) (a : MReg)
  /-- MLAST (R253): Highest set mask index into x[d]. -/
  | mlast (d : BitVec 5) (a : MReg)
  /-- MSET (R271): Sets mask bits below VL. -/
  | mset (d : MReg)
  /-- MCLR (R271): Clears mask bits below VL. -/
  | mclr (d : MReg)
  /-- VGATH (R288): Gathers elements of va by index. -/
  | vgath (d : VReg) (a : VReg) (b : VReg) (m : MReg)
  /-- VCOMP (R282): Packs selected elements to the front. -/
  | vcomp (d : VReg) (a : VReg) (m : MReg)
  /-- VXPND (R304): Expands leading elements to selected positions. -/
  | vxpnd (d : VReg) (a : VReg) (m : MReg)
  /-- VRED (R297): Tree reduction into element 0 of vd. -/
  | vred (d : VReg) (a : VReg) (k : BitVec 3) (m : MReg)
  /-- VRED_XD (R297): Tree reduction into an x register via the return queue. -/
  | vredXd (d : BitVec 5) (a : VReg) (k : BitVec 3) (m : MReg)
  /-- VSCAN (R299): Inclusive scan. -/
  | vscan (d : VReg) (a : VReg) (k : BitVec 3) (m : MReg)
  /-- VSLIDEUP_ZERO (R301): Slides up, filling with zero. -/
  | vslideupZero (d : VReg) (a : VReg) (b : XReg) (m : MReg)
  /-- VSLIDEUP_ONE (R301): Slides up, filling with one. -/
  | vslideupOne (d : VReg) (a : VReg) (b : XReg) (m : MReg)
  /-- VSLIDEUP_KEEP (R301): Slides up, keeping unfilled elements. -/
  | vslideupKeep (d : VReg) (a : VReg) (b : XReg) (m : MReg)
  /-- VSLIDEDN_ZERO (R301): Slides down, filling with zero. -/
  | vslidednZero (d : VReg) (a : VReg) (b : XReg) (m : MReg)
  /-- VSLIDEDN_ONE (R301): Slides down, filling with one. -/
  | vslidednOne (d : VReg) (a : VReg) (b : XReg) (m : MReg)
  /-- VSLIDEDN_KEEP (R301): Slides down, keeping unfilled elements. -/
  | vslidednKeep (d : VReg) (a : VReg) (b : XReg) (m : MReg)
  /-- VMVX (R295): Moves one vector element to an x register. -/
  | vmvx (d : BitVec 5) (a : VReg) (b : XReg)
  /-- VMVS (R295): Moves a scalar into element 0. -/
  | vmvs (d : VReg) (b : XReg) (m : MReg)
  /-- VSPLAT (R295): Writes a scalar into every active element. -/
  | vsplat (d : VReg) (b : XReg) (m : MReg)
  /-- VLD (R291): Unit-stride vector load. -/
  | vld (v : VReg) (a : XReg) (m : MReg) (o : BitVec 2)
  /-- VLDS (R291): Strided vector load. -/
  | vlds (v : VReg) (a : XReg) (b : XReg) (m : MReg) (o : BitVec 2)
  /-- VLDX (R291): Indexed vector load. -/
  | vldx (v : VReg) (a : XReg) (b : VReg) (m : MReg) (o : BitVec 2)
  /-- VST (R302): Unit-stride vector store. -/
  | vst (v : VReg) (a : XReg) (m : MReg) (o : BitVec 2)
  /-- VSTS (R302): Strided vector store. -/
  | vsts (v : VReg) (a : XReg) (b : XReg) (m : MReg) (o : BitVec 2)
  /-- VSTX (R302): Indexed vector store. -/
  | vstx (v : VReg) (a : XReg) (b : VReg) (m : MReg) (o : BitVec 2)
  /-- AWIN (R160): Opens an accumulation window. -/
  | awin (d : XReg) (a : XReg) (o : BitVec 4)
  /-- VAMO (R161): Updates private window copies by index. -/
  | vamo (v : VReg) (w : VReg)
  /-- VRAND (R296): Fills active elements with counter-based random bits. -/
  | vrand (d : VReg) (m : MReg)
  /-- TSETL (R188): Grants a tile shape, optionally for the crew. -/
  | tsetl (crew : BitVec 1) (fmtA : BitVec 4) (d : XReg) (a : XReg) (b : XReg)
  /-- TCLAIM (R186): Claims tiles and accumulators from the group's reservation. -/
  | tclaim (a : XReg) (b : XReg)
  /-- TLD (R194): Loads tile rows from LS or CLS. -/
  | tld (td : BitVec 3) (a : XReg) (b : XReg)
  /-- TST (R194): Stores tile rows to LS or CLS. -/
  | tst (ta : BitVec 3) (a : XReg) (b : XReg)
  /-- TLDP (R194): Loads ni8 rows plane-major. -/
  | tldp (td : BitVec 3) (a : XReg) (b : XReg)
  /-- TZERO (R194): Zeroes a tile and its sidecars. -/
  | tzero (td : BitVec 3)
  /-- TMVR (R195): Moves vector elements into a tile row. -/
  | tmvr (td : BitVec 3) (v : VReg) (a : XReg)
  /-- TMVC (R195): Moves a tile column into a vector. -/
  | tmvc (ta : BitVec 3) (v : VReg) (a : XReg)
  /-- MMA (R190): Matrix multiply-accumulate into an accumulator. -/
  | mma (ta : BitVec 3) (tb : BitVec 3) (ad : BitVec 2) (fmtA : BitVec 4) (fmtB : BitVec 4)
  /-- MMA_C (R191): Crew-form MMA across four members. -/
  | mmaC (ta : BitVec 3) (tb : BitVec 3) (ad : BitVec 2) (fmtA : BitVec 4) (fmtB : BitVec 4)
  /-- MMAN (R192): Nested-plane integer multiply-accumulate. -/
  | mman (ta : BitVec 3) (tb : BitVec 3) (ad : BitVec 2) (pA : BitVec 3) (pB : BitVec 3)
  /-- MDRAIN (R196): Converts accumulator words into a tile with block scales. -/
  | mdrain (td : BitVec 3) (ad : BitVec 2) (fmtA : BitVec 4) (sync : BitVec 1)
  /-- AZERO (R198): Zeroes an accumulator and clears its kind. -/
  | azero (ad : BitVec 2)
  /-- NOP (R272): Does nothing. -/
  | nop
  /-- NOP_C (R272): Compressed NOP halfword 0x0002. -/
  | nopC
  /-- ERET (R225): Returns from a trap, releasing held VIQ entries. -/
  | eret
  /-- HALT (R267): Settles, stops the hart and interrupts the host until DBGCTL.RUN. -/
  | halt
  /-- ISYNC (R99): Settles, drains stores, invalidates the instruction cache and stales prefetch buffers. -/
  | isync
  /-- BKPT (R225): Raises BKPT or stops under a debug session. -/
  | bkpt
  /-- TLBINV_VA (R168): TLBINV kind 0 invalidates one VA in an ASID, with global entries. -/
  | tlbinvVa
  /-- TLBINV_ASID (R168): TLBINV kind 1 invalidates all of an ASID except global entries. -/
  | tlbinvAsid
  /-- TLBINV_ALL_NONGLOBAL (R168): TLBINV kind 2 invalidates all entries except global ones. -/
  | tlbinvAllNonglobal
  /-- TLBINV_ALL (R168): TLBINV kind 3 invalidates every entry. -/
  | tlbinvAll
  /-- RSTAT_STOP_CLEAR (R105): Writing 1 to RSTAT.STOP abandons a stopped recursion. -/
  | rstatStopClear
  /-- MC_STATUS_CLEAR (R228): Writing 1 to STATUS.V clears the held machine-check record. -/
  | mcStatusClear
  /-- NOTECH_WRITE (R172): Writes the notification target; EN = 0 discards waiting notifications. -/
  | notechWrite
  /-- EXIT (R215): Settles, drains and ends the hart. -/
  | exit
  /-- CHGET_PEEK (R152): Returns the head slot offset once filled. -/
  | chgetPeek
  /-- CHGET_TAKE (R152): Takes the filled head slot and returns its offset. -/
  | chgetTake
  /-- CHGET_TAIL (R152): Reserves the tail slot for the hart. -/
  | chgetTail
  /-- RDONE (R109): Ends a batch; the Pontoon updates headers and picks the next batch. -/
  | rdone
  /-- AMERGE (R162): Folds window copies into memory and closes the window. -/
  | amerge
  /-- HINT (R48): Executes as NOP. -/
  | hint
  /-- ILLEGAL_ENCODING (R47): A bit pattern that is not an instruction raises ILLEGAL at the front. -/
  | illegalEncoding
  /-- TFREE (R186): Releases the hart's tile claim. -/
  | tfree
  /-- TARGET_PREFETCH_DONE (R94): A target register's 64-byte prefetch completes or fails, becoming ready. -/
  | targetPrefetchDone
  /-- STORE_ELEMENT_COMMIT (R80): A waiting store element commits once present, in order. -/
  | storeElementCommit
  /-- REPLAY_COMPLETE (R83): The replay pipe computes a waiting entry whose producers are filled. -/
  | replayComplete
  /-- COPY (R155): Copy engine executes a copy command and posts its token. -/
  | copy
  /-- COPY_FILL (R155): Copy engine executes a pattern-fill command. -/
  | copyFill
  /-- REDUCE (R240): Collective reduce over the fixed tree to the root. -/
  | reduce
  /-- ALL_REDUCE (R240): Collective reduce written to every participant. -/
  | allReduce
  /-- ALL_GATHER (R240): Collective gather of all ranks' sources. -/
  | allGather
  /-- BROADCAST (R240): Collective broadcast of the root's source. -/
  | broadcast
  /-- HEAT_THRESHOLD (R170): A page's heat count reaches HEATTH, resets and notifies. -/
  | heatThreshold
  /-- HEAT_NOTIFICATION_SEND (R172): A waiting heat notification fills a slot of the target channel. -/
  | heatNotificationSend
  /-- WAIT_WAKEUP (R305): A store to the watched line wakes WAIT to reread. -/
  | waitWakeup
  /-- WAIT_TIMEOUT (R305): 4,096 cycles pass and WAIT rereads its word. -/
  | waitTimeout
  /-- LAUNCH_WINDOW_STORE (R204): A host store to a tenant launch window is checked and accepted or rejected. -/
  | launchWindowStore
  /-- HYPERVISOR_LAUNCH_STORE (R255): A record stored through the physical function keeps its tenant and admits at S. -/
  | hypervisorLaunchStore
  /-- WHARF_ADMIT (R208): The Wharf admits the next unit of a chosen tenant. -/
  | wharfAdmit
  /-- WAIT_COUNTER_READ (R206): The Wharf reads a queued record's wait counter at least every 1,024 cycles. -/
  | waitCounterRead
  /-- USAGE_CHARGE (R208): Every 2^16 cycles a resident group's use is charged to its tenant. -/
  | usageCharge
  /-- GROUP_END (R207): A group ends once its harts exit or abort and its commands complete. -/
  | groupEnd
  /-- WQRY_ANSWER (R213): The Wharf fills a channel slot with the next index or end token. -/
  | wqryAnswer
  /-- HOST_PREEMPT (R216): A host command names a group for pre-emption. -/
  | hostPreempt
  /-- PREEMPT (R216): Stops a group's harts, settles and saves them to the save area. -/
  | preempt
  /-- RESTORE (R216): Restores a pre-empted group when a core can take it. -/
  | restore
  /-- CORRECTED_ERROR (R229): A corrected error is counted and possibly logged. -/
  | correctedError
  /-- CE_THRESHOLD (R228): CECNT reaches THRESH and the host is interrupted once. -/
  | ceThreshold
  /-- CONTAINED_ERROR (R231): A contained error aborts one group. -/
  | containedError
  /-- FATAL_ERROR (R233): A fatal error stops the package. -/
  | fatalError
  /-- UCIE_LINK_DOWN (R229): A UCIe link goes down, a fatal error. -/
  | ucieLinkDown
  /-- PEER_LINK_DOWN (R229): A peer link goes down; later PM accesses are contained errors. -/
  | peerLinkDown
  /-- SELF_TEST_REQUEST (R234): The host asks for a test of a named core. -/
  | selfTestRequest
  /-- SELF_TEST_COMPLETE (R234): After 2 ms the test group writes its records to banks 0-3. -/
  | selfTestComplete
  /-- PCTL_REQUEST (R241): The host requests a core power state. -/
  | pctlRequest
  /-- POWER_STATE_CHANGE (R241): The requested power state takes effect within 10 µs. -/
  | powerStateChange
  /-- PCTL_TRIP_CLEAR (R241): Clearing TRIP releases the core from P3. -/
  | pctlTripClear
  /-- THERMAL_TRIP (R241): A die over its trip temperature moves all cores to P3. -/
  | thermalTrip
  /-- SERDES_STATE_SET (R241): The host sets a port or link to S0, S1 or S2. -/
  | serdesStateSet
  /-- DEVICE_RESET (R242): Resets the device to its reset values. -/
  | deviceReset
  /-- FUNCTION_READY (R242): A function finishes bring-up and sets its READY bit. -/
  | functionReady
  /-- REGISTER_WINDOW_WRITE (R237): A host write to a window register with no row of its own. -/
  | registerWindowWrite
  /-- HOST_NM_READ (R235): Host CXL.mem read of near memory. -/
  | hostNmRead
  /-- HOST_NM_WRITE (R235): Host CXL.mem write of near memory. -/
  | hostNmWrite
  /-- GET_VERSION (R244): SPDM GET_VERSION request. -/
  | getVersion
  /-- GET_CAPABILITIES (R244): SPDM GET_CAPABILITIES request. -/
  | getCapabilities
  /-- NEGOTIATE_ALGORITHMS (R244): SPDM NEGOTIATE_ALGORITHMS request. -/
  | negotiateAlgorithms
  /-- GET_DIGESTS (R244): SPDM GET_DIGESTS request. -/
  | getDigests
  /-- GET_CERTIFICATE (R244): SPDM GET_CERTIFICATE request. -/
  | getCertificate
  /-- CHALLENGE (R244): SPDM CHALLENGE request. -/
  | challenge
  /-- GET_MEASUREMENTS (R244): SPDM GET_MEASUREMENTS request, including the signed manifest. -/
  | getMeasurements
  /-- SPDM_UNSUPPORTED_REQUEST (R244): A key-exchange or session request receives UnsupportedRequest. -/
  | spdmUnsupportedRequest
  /-- DBGCTL_STOP (R245): Writing STOP stops a claimed hart. -/
  | dbgctlStop
  /-- DBGCTL_RUN (R245): Writing RUN resumes a stopped or halted hart. -/
  | dbgctlRun
  /-- COUNTER_BANK_CLAIM (R250): The hypervisor or a guest claims a counter bank. -/
  | counterBankClaim
  /-- COUNTER_BANK_RELEASE (R250): The hypervisor releases a bank and guest counters resume. -/
  | counterBankRelease
  /-- COUNTER_OVERFLOW (R249): A sampling counter passes 2^48 − 1 and records an overflow sample. -/
  | counterOverflow
  /-- PC_REASON_CYCLE_COUNT (R247): In every cycle each running user hart adds 1 to the hashed-table entry of its front PC and stall reason, spilling an entry that holds another key. -/
  | pcReasonCycleCount
  /-- PEER_ACCESS_TO_NEAR_MEMORY (R143): A read, write or AMO from another package of the pod arrives over a peer link and is served by this package's near-memory controller. -/
  | peerAccessToNearMemory
  deriving DecidableEq, Repr

end Sys2Proof
end

