-- ==== Sys2Proof/Machine/State.lean ====
section
/-! DEFINITION. The state of the machine as plain data: harts, cores, dies and the package, the state after reset, and
the reasons for which a step stops. -/

namespace Sys2Proof.Machine

/-! Memory -/

/-- The bytes of every memory of the package, by place, in rising order and with no byte equal to 0, which is what an
unlisted place reads as (R144, R242; log entry 3). A place is `memory * 2^56 + address`, where the memory is the MT code
of NM, FM, HM or PM (R164), or 4 + c for the LS of package core c. -/
abbrev Memory := List Host.Cell

/-! Translations -/

/-- A translation held in a TLB (R167). -/
structure TlbEntry where
  asid : BitVec 16
  /-- First virtual address of the page, log2 of its size, level of the leaf, the leaf PTE. -/
  base : Nat
  bits : Nat
  level : Nat
  pte : Word
  deriving DecidableEq, Repr

/-- A translation that an access holds until it has completed (R167): the leaf, and the number of TLBINVs that the package
had seen when it was made (model's own; R168). -/
structure Pin where
  leaf : TlbEntry
  born : Nat
  deriving DecidableEq, Repr

/-! What a vector instruction leaves behind: Landing entries and uncommitted stores -/

/-- What one element of an instruction computes, as the replay pipe computes it again (R83). -/
inductive LaneFn where
  | add | sub | rsub | mul | mulh | mulhn | and | or | xor | shl | shr | shra | min | max | minn | maxn | wmul
  | fadd | fsub | fmul | fma | fmin | fmax | fdiv | frcp | frsq | fsqrt | fexp | flog | fsin | fcos | fcvt | fwmul
  /-- VFCVT of a scaled source: operand b is the scale byte of its block (R119). -/
  | fcvtS
  /-- VMERGE, a permute, or a carried element: the value is the first operand. -/
  | copy
  deriving DecidableEq, Repr

/-- State of a Landing entry (R83). -/
inductive LState where
  | waiting
  | ready
  /-- Held by ferry f0 (false) or f1 (true). -/
  | inFerry (f1 : Bool)
  /-- Poisoned through a producer, CAUSE 0. -/
  | inherited
  /-- Poisoned by its own cause. -/
  | poisoned
  deriving DecidableEq, Repr

/-- A producer entry of a waiting entry: bits [src + n - 1 : src] of the producer's value become bits
[dst + n - 1 : dst] of operand `operand` (R81 LINK0 to LINK2). An entry of an operation has at most one for each of its three
operands, over the whole of it (log entry 32). -/
structure Link where
  entry : Nat
  operand : Nat
  src : Nat
  dst : Nat
  n : Nat
  deriving DecidableEq, Repr

/-- The physical row that a gather entry holds (R288): its image, the bits of it that entries still owe, the element width,
and the captured VL. -/
structure GatherRow where
  img : VImage
  holes : List Link
  n : Nat
  vl : Nat
  deriving DecidableEq, Repr

/-- An entry of the Landing (R81). -/
structure LEntry where
  hart : BitVec 2
  seq : BitVec 32
  pc : BitVec 48
  cls : BitVec 6
  ty : BitVec 4
  tgt : BitVec 4
  index : BitVec 13
  /-- The destination physical row, by a number of the hart's (log entry 96). -/
  row : BitVec 6
  reg : VReg
  /-- The bits of the destination element that the entry still owes the current row of `reg`; 0 when its row is no longer
  the current one (log entry 7). -/
  live : Word
  opa : Word
  opb : Word
  opc : Word
  rm : BitVec 3
  en : BitVec 5
  nft : Bool
  srb : BitVec 16
  links : List Link
  handler : BitVec 48
  state : LState
  cause : BitVec 8
  detail : BitVec 8
  /-- What replay computes (model's own): the function, the types of the second source and the destination, the bits
  of the destination element, the scale of its block (R122), and the row that a gather entry holds. -/
  fn : LaneFn
  ty2 : BitVec 4
  dty : BitVec 4
  width : Nat
  scale : Option (BitVec 8)
  gather : Option GatherRow
  /-- LITER at creation, which DEFERRED reports (R89). -/
  liter : BitVec 15
  /-- Under DET, the value that the hart has written over the element before the entry was filled or poisoned: what a repair with
  that value resolves the entry with if it becomes poisoned (R90, R92; log entry 125). -/
  written : Option Word := none
  deriving DecidableEq, Repr

/-- One byte that a store writes: the bits of `mask` of the byte at `place`. -/
structure StoreCell where
  place : Nat
  data : Byte
  mask : Byte
  deriving DecidableEq, Repr

/-- Bits of a store element that a Landing entry still owes: bits [src + n - 1 : src] of its value become bits
[dst + n - 1 : dst] of the element's bytes, the first byte lowest. -/
structure Patch where
  entry : Nat
  src : Nat
  dst : Nat
  n : Nat
  deriving DecidableEq, Repr

/-- The GV address of a store, with PTBASE, ASID and privilege as captured: what a restored store is translated by
(R168). -/
structure StoreAddr where
  va : Word
  ptbase : Word
  asid : BitVec 16
  sup : Bool
  deriving DecidableEq, Repr

/-- What an AMO that has not committed does at its eight bytes (R46, R159): the operation, the destination, x[b] and x[d] as they
were at issue, whether it acquires, and its code address, which a contained error names. -/
structure Atomic where
  op : Nat
  d : Nat
  b : Word
  c : Word
  acquires : Bool
  pc : BitVec 48
  deriving DecidableEq, Repr

/-- A store element, scalar store, slot fill or AMO that has not committed (R80, R276). -/
structure Pending where
  cells : List StoreCell
  holes : List Patch := []
  /-- It holds one of the 16 store-queue entries of R276. -/
  scalar : Bool := false
  /-- The channel slot that it fills, after the elements before it (R150). -/
  fill : Option (Nat × Nat) := none
  /-- How many entries of the VIQ, the oldest first, must complete before it may commit: up to the youngest that was
  dispatched before it and goes before it in the hart's order (R80, R176; log entry 72). -/
  after : Nat := 0
  /-- The page that it keeps pinned (R167), and its address in GV. -/
  pin : Option Pin := none
  addr : Option StoreAddr := none
  /-- It is to be translated again before it commits (R168). -/
  again : Bool := false
  /-- Lines of which its store has written all 64 bytes when it commits: they are no longer poisoned (R230). -/
  cleans : List Nat := []
  /-- The VIQ entries that it waits for are held by a trap (R220; log entry 72). -/
  parked : Bool := false
  /-- The AMO that it is: its bytes and their data are what the commit reads and writes (R80, R256; log entry 126). -/
  amo : Option Atomic := none
  deriving DecidableEq, Repr

/-! Vector side -/

/-- A stream descriptor (R145); `levels` holds count and stride, innermost first. -/
structure StreamDesc where
  base : Nat
  space : Nat
  ty : BitVec 4
  store : Bool
  chv : Bool
  ch : Nat
  levels : List (Nat × Int)
  deriving DecidableEq, Repr

/-- A strip that an instruction claims (R147, R148, R273): slot, register, whether it appends, descriptor, first position, the pass
over the pattern that it belongs to, and of a backed one that has been popped or appended the offset of its slot. -/
structure Strip where
  slot : Nat
  reg : VReg
  store : Bool
  desc : StreamDesc
  pos : Nat
  pass : Nat
  base : Nat := 0
  deriving DecidableEq, Repr

/-- The old row of the destination of an instruction that has stopped within itself (R54, R278): the register, the element
width, the row as it was before, the bits of it that entries still owe, which bytes of the sidecar the instruction has written,
and the carry mask of VADC and VSBC as it was before (R251). -/
structure OldRow where
  reg : VReg
  n : Nat
  img : VImage
  side : VSide
  holes : List (Nat × Word)
  sides : VSide := 0
  mask : Option (MReg × MaskBits) := none
  deriving DecidableEq, Repr

/-- An instruction in the VIQ with what the front captured at its dispatch (R53, R75, R167, R189). -/
structure VEntry where
  instr : Instr
  pc : BitVec 48
  /-- Values of the x operands, in field order. -/
  xs : List Word
  vl : Nat
  vtype : Word
  mspace : Nat
  fpctl : Word
  seed : Word
  ric : Word
  tgrant : Word
  ptbase : Word
  asid : Word
  /-- Captured privilege of its accesses: true at S. -/
  sup : Bool
  /-- HCTL.DET as captured (R184). -/
  det : Bool
  /-- First element that has not been executed (R50 VSTART). -/
  start : Nat
  /-- Sequence tag of its execution once it has started (R81). -/
  seq : Option (BitVec 32)
  /-- Slots and registers that it pops or appends through, as bound at dispatch, and the strips claimed (R273). -/
  binds : List (Nat × VReg × Bool)
  strips : List Strip
  /-- Its strips have been popped. -/
  popped : Bool
  /-- Flags of the elements executed, which FFLAGS takes at completion (R74, R132). -/
  flags : Nat
  /-- The old row of its destination once it has stopped within itself. -/
  old : Option OldRow
  /-- The pages translated at its dispatch (R167). -/
  pins : List Pin
  /-- The translations that it holds since it stopped within itself (R167, R291). -/
  kept : List Pin := []
  /-- Bytes that a younger load of the front has read ahead of it: it reads those values there (R176; log entry 72). -/
  ahead : List (Nat × Byte)
  /-- It stops before this element in the turn that runs it, an element-group boundary (R51, R226; model's own). -/
  limit : Option Nat
  deriving DecidableEq, Repr

/-- The captured loop of a hart (R65, R68): the body, the index of the instruction at VCP, and whether a VEXIT held in
this iteration. -/
structure Loop where
  body : List VEntry
  pos : Nat
  ending : Bool
  deriving DecidableEq, Repr

/-- A stream slot: descriptor, position P, the bound register (R146), and the number of the current pass over the pattern. -/
structure Stream where
  desc : StreamDesc
  pos : Nat
  bound : Option VReg
  pass : Nat
  deriving DecidableEq, Repr

/-- The tail slot of a channel that a pass of a store stream has reserved (R150, R273); it is kept after it has been filled while
a trap holds a strip of the pass. -/
structure TailSlot where
  channel : Nat
  slot : Nat
  filled : Bool := false
  deriving DecidableEq, Repr

/-- An open accumulation window (R160); `copies` holds the updated elements by lane * 4096 + index. -/
structure Window where
  ty : BitVec 4
  op : BitVec 2
  count : Nat
  base : Word
  space : Nat
  copies : AMap Word
  deriving DecidableEq, Repr

/-! Recursion -/

/-- A recursion object (R102). -/
structure RObj where
  codeBase : Nat
  divOff : Int
  baseOff : Int
  combOff : Int
  frame : Nat
  result : Nat
  fanout : Nat
  depth : Nat
  cap : Nat
  arena : Nat
  asize : Nat
  deriving DecidableEq, Repr

/-- What the Pontoon does after the current batch of the breadth-first phase (R112). -/
inductive RStep where
  /-- Divide runs of the level, then its base runs. -/
  | divide | base
  /-- Depth-first steps (R113). -/
  | depth
  /-- Combine runs of the final combine (R114). -/
  | combine
  /-- Only the settle of the RRUN remains (R108). -/
  | settle
  deriving DecidableEq, Repr

/-- One slot of the depth-first phase (R113): queued cells, and the stack of cells, top first. -/
structure RSlot where
  queue : List Nat
  stack : List Nat
  deriving DecidableEq, Repr

/-- A frame's header as the Pontoon keeps it (R103): its parent's cell, DV, RV, NKID, NDONE, KIDS, and its stack depth. -/
structure Node where
  parent : Option Nat
  dv : Bool
  rv : Bool
  nkid : Nat
  ndone : Nat
  kids : Nat
  depth : Nat
  deriving DecidableEq, Repr

/-- The Pontoon's internal state for a hart (R105). -/
structure Pontoon where
  obj : RObj
  /-- Address of the RRUN. -/
  pc : BitVec 48
  savedVl : Nat
  savedVtype : Word
  savedM7 : MaskBits
  step : RStep
  /-- Cells of each breadth level, the root's level first. -/
  levels : List (List Nat)
  /-- Runs of the current step that have not run, in order, with their breadth level. -/
  runs : List (Nat × List Nat)
  /-- Frames by cell. -/
  nodes : AMap Node
  /-- End of the cells allocated in the breadth region. -/
  top : Nat
  /-- The slot region's first offset SB (R104). -/
  sb : Nat
  slots : List RSlot
  /-- Cells of the batch by element, and its active elements. -/
  cells : List Nat
  active : MaskBits
  /-- RSPAWN has executed in this batch (R111). -/
  spawned : Bool
  /-- Why the batch is undone at its end: the code and the record of the stop (R112, R113). -/
  fail : Option (Nat × Word × Word × Word × Word)
  deriving DecidableEq, Repr

/-! Harts -/

/-- A byte of code that has been fetched: its place and its value. -/
abbrev CodeByte := Nat × Byte

/-- A target register with its prefetch buffer (R93): the bytes from ADDR on that the buffer holds, and the pages that they
were read through. -/
structure TReg where
  addr : BitVec 47
  v : Bool
  pf : BitVec 2
  buf : List CodeByte := []
  pages : List TlbEntry := []
  deriving DecidableEq, Repr

/-- What the front took from a prefetch buffer at its last transfer (R94, R98): the first address, the bytes, their pages. -/
structure Lead where
  base : BitVec 48
  buf : List CodeByte
  pages : List TlbEntry
  deriving DecidableEq, Repr

/-- A TLBINV that waits for the pins on what it invalidated (R168): its kind, ASID and address, and its number. -/
structure Invalidation where
  kind : Nat
  asid : BitVec 16
  va : Nat
  number : Nat
  deriving DecidableEq, Repr

/-- What a WAIT waits for (R305): its address and value, the place of its word, the cycle of the last read, and whether a
store to the line has performed since then. -/
structure Waiting where
  va : Word
  value : Word
  place : Nat
  since : Nat
  hit : Bool
  deriving DecidableEq, Repr

/-- The vector side of a hart (R50, R53, R59, R60). -/
structure VecState where
  v : AMap VImage
  /-- Scale sidecars of the vector registers (R120). -/
  side : AMap VSide
  m : AMap MaskBits
  /-- B of each register, which VHWn shows (R62). -/
  written : AMap Nat
  viq : List VEntry
  /-- The entries that a trap holds (R220). -/
  held : List VEntry
  vl : Nat
  vtype : Word
  mspace : BitVec 2
  grant : Nat
  /-- Model's own: the vector side and the commits take turns of their own (log entry 5). -/
  lag : Bool
  deriving DecidableEq, Repr

/-- FPCTL, FFLAGS, SEED and RIC (R127, R130, R131). -/
structure FpState where
  ctl : BitVec 9
  flags : BitVec 5
  seed : Word
  ric : Word
  deriving DecidableEq, Repr

/-- HCTL and the loop registers (R57, R68). -/
structure LoopState where
  cthr : BitVec 13
  det : Bool
  lcnt : Word
  lbody : Word
  llen : BitVec 5
  liter : Word
  loop : Option Loop
  deriving DecidableEq, Repr

/-- ROBJ, RSTAT and the Pontoon's state for the hart (R105). -/
structure RecState where
  objV : Bool
  objOff : BitVec 22
  obj : Option RObj
  phase : BitVec 2
  rout : BitVec 2
  act : Bool
  stop : Bool
  batch : BitVec 10
  level : BitVec 8
  cells : BitVec 32
  pontoon : Option Pontoon
  deriving DecidableEq, Repr

/-- The trap registers and PLEV (R218, R219). -/
structure TrapRegs where
  tpc : Word
  tvcp : Word
  tcause : Word
  tvst : Word
  tinfo0 : Word
  tinfo1 : Word
  tinfo2 : Word
  tinfo3 : Word
  tbase : Word
  tscr0 : Word
  tscr1 : Word
  /-- PLEV.S. -/
  sup : Bool
  deriving DecidableEq, Repr

/-- What the Wharf writes at admission, and the family of a fork (R63, R64, R203). -/
structure IdState where
  rank : BitVec 2
  tenant : Word
  launchId : Word
  idx : List Word
  args : Word
  /-- Resident group that the hart belongs to or is reserved for. -/
  group : Option Nat
  /-- Parent hart of a child, the HARTID by which the parent knows it, and the HARTIDs of the children not yet
  collected. -/
  parent : Option HartNo
  known : Nat
  kids : List Nat
  /-- Ended children with the lanes that they have parked for this hart: HARTID and lanes, in the order of their ends. -/
  parked : List (Nat × Nat)
  deriving DecidableEq, Repr

/-- AMAXn, the claim and the shape (R186, R187, R197). -/
structure TileRegs where
  amax : AMap (BitVec 32)
  /-- Tiles and accumulators claimed, by physical number; none when the hart holds no claim. -/
  claim : Option (List Nat × List Nat)
  k : BitVec 9
  n : BitVec 10
  m : BitVec 8
  crew : Bool
  deriving DecidableEq, Repr

/-- Translation registers, uncommitted stores, streams, the window and the engine words of a hart. -/
structure MemState where
  ptbase : Word
  asid : BitVec 16
  stq : List Pending
  streams : AMap Stream
  /-- Tail slots reserved by passes of store streams, by pass, and the number of passes begun. -/
  tails : AMap TailSlot
  passes : Nat
  window : Option Window
  /-- Command words pushed that do not form a whole command, for the copy and the collective engine (R264). -/
  copyWords : List Word
  collWords : List Word
  copyTokens : List Word
  collTokens : List Word
  /-- PTBASE, ASID and privilege at the first word of the copy command being formed (R155). -/
  copyCtx : Word × BitVec 16 × Bool
  /-- Number of that first word among the first words of the core (R157). -/
  copyOrder : Nat
  deriving DecidableEq, Repr

/-- How a hart runs: free or running, debug (R245), HALT (R267), WAIT (R305), GBAR (R214), and the stall reason of its
last turn (R247). -/
structure RunState where
  running : Bool
  claimed : Bool
  stopped : Bool
  halted : Bool
  wait : Option Waiting
  /-- GBAR arrivals since admission, by scope, and whether the hart has arrived at the GBAR at its PC. -/
  arrived : AMap Nat
  atBar : Bool
  why : BitVec 4
  /-- The front has had a turn since the core's last cycle (R247, reason 1). -/
  turned : Bool
  /-- The TLBINV at the PC that waits for pins. -/
  inval : Option Invalidation
  /-- The DEQ at the PC has found no token due, and waits until every command of the hart completes (R262). -/
  deq : Bool
  cycle : Word
  retired : Word
  mcsel : BitVec 4
  deriving DecidableEq, Repr

/-- What the Landing keeps for a hart: the entry that DEFERRED last reported (R90); on a ferry, the entry it holds and
the address of its last LNGET (R85, R86). -/
structure HoleState where
  reported : Option Nat
  ferry : Option Nat
  lastLnget : BitVec 48
  deriving DecidableEq, Repr

/-- A user or ferry hart (R14). -/
structure Hart where
  /-- Front PC. -/
  pc : BitVec 48
  x : AMap Word
  k : BitVec 8
  b : AMap TReg
  lead : Lead
  vec : VecState
  fp : FpState
  lp : LoopState
  rc : RecState
  tr : TrapRegs
  id : IdState
  tile : TileRegs
  ms : MemState
  run : RunState
  hole : HoleState
  deriving DecidableEq, Repr

/-! Cores -/

/-- A channel (R152, R153). -/
structure Channel where
  group : Nat
  base : Nat
  nslot : Nat
  sz : Nat
  filled : Nat
  free : Nat
  head : Nat
  tail : Nat
  /-- Slots that are filled, and slots reserved with the hart that holds the reservation. -/
  marks : List Nat
  resv : List (Nat × HartNo)
  deriving DecidableEq, Repr

/-- A whole command in the FIFO of the copy engine (R155), with its issuer and translation context. -/
structure CopyCmd where
  words : List Word
  hart : HartNo
  group : Nat
  ptbase : Word
  asid : BitVec 16
  sup : Bool
  /-- Its token is discarded, because its group has been aborted (R231). -/
  dropped : Bool
  /-- Number of its first word among the first words of the core (R157). -/
  order : Nat
  /-- The tenant of its group, for which it counts page heat (R254). -/
  tenant : BitVec 6
  deriving DecidableEq, Repr

/-- Where a command stands that an engine has accepted (R243): waiting, answered with a status of R156, or cancelled. -/
inductive CmdState where
  | waiting
  | done (status : BitVec 8)
  | cancelled
  deriving DecidableEq, Repr

/-- A command accepted by an engine, as the readback shows it (R243); `order` is that of its first word. -/
structure CmdRecord where
  words : List Word
  core : CoreNo
  hart : HartNo
  order : Nat
  state : CmdState
  deriving DecidableEq, Repr

/-- A machine-check bank (R228). -/
structure Bank where
  status : Word
  addr : Word
  misc : Word
  ctl : Word
  deriving DecidableEq, Repr

/-- A breakpoint (R246): address, kind (true: vector commit), hart mask. -/
structure Breakpoint where
  addr : BitVec 48
  commit : Bool
  harts : BitVec 4
  deriving DecidableEq, Repr

/-- One of the eight counters of a bank: event code, sampling, the count, and whether it is absent (R249, R250). -/
structure Counter where
  event : BitVec 63
  sampling : Bool
  count : BitVec 48
  absent : Bool
  deriving DecidableEq, Repr

/-- A counter bank: its claims, PREEMPTED, the counters, and the guest's frozen counters (R250). -/
structure CounterBank where
  hyper : Bool
  guest : Option (BitVec 6)
  preempted : Bool
  counters : AMap Counter
  frozen : AMap Counter
  deriving DecidableEq, Repr

/-- An entry of the PC and reason table (R247): key, count, and the tenant and hart of its record. -/
structure ProfEntry where
  pc : BitVec 48
  reason : BitVec 4
  count : Nat
  tenant : BitVec 6
  hart : BitVec 2
  deriving DecidableEq, Repr

/-- The Landing of a core with its sequence counter and fill table (R81, R87). -/
structure LandState where
  entries : AMap LEntry
  seq : BitVec 32
  /-- The user hart whose entry LNGET took last (R85). -/
  turn : Nat
  fillTable : AMap (BitVec 48)
  deriving DecidableEq, Repr

/-- Tiles and accumulators (R185): rows by tile * 128 + row, words by (accumulator * 128 + row) * 128 + column, and the
kind of each accumulator, 0 none, 1 fp32, 2 i32. -/
structure TileState where
  rows : AMap TileRow
  sides : AMap TileSide
  words : AMap (BitVec 32)
  kinds : AMap (BitVec 2)
  deriving DecidableEq, Repr

/-- PCTL and the self-test of a core (R234, R241). -/
structure PowerState where
  trip : Bool
  cur : BitVec 3
  req : BitVec 3
  /-- Self-test requested with its sequence number, and the core is out of service. -/
  test : Option (BitVec 16)
  outOfService : Bool
  deriving DecidableEq, Repr

/-- Breakpoints, counters and profiling of a core (R246 to R250). -/
structure DebugState where
  breakpoints : AMap Breakpoint
  counters : AMap CounterBank
  profile : AMap ProfEntry
  ringBase : Word
  ringSize : Word
  ringPos : Nat
  drops : Nat
  sampleExp : Nat
  /-- Vector memory instructions since the last one sampled (R248). -/
  sampled : Nat
  /-- The front issues nothing in the next cycle (R249). -/
  hold : Bool
  deriving DecidableEq, Repr

/-- A core (R12, R14). -/
structure Core where
  harts : AMap Hart
  land : LandState
  tiles : TileState
  channels : AMap Channel
  copyFifo : List CopyCmd
  /-- First words of copy commands that the core has accepted (R157). -/
  copyCount : Nat
  /-- The last 16 commands that the copy engine accepted, oldest first (R243). -/
  copyLog : List CmdRecord
  /-- The hart whose RRUN holds the Pontoon. -/
  pontoonOwner : Option HartNo
  tlb : List TlbEntry
  /-- 64-byte blocks of the instruction cache by place of their first byte, and lines of the constant cache. -/
  icache : AMap (List Byte)
  ccache : AMap (List Byte)
  /-- Lanes that no running hart holds and none has parked. -/
  pool : Nat
  /-- Cycles of the core's clock that have passed (R241, R247). -/
  cycles : Nat
  banks : AMap Bank
  power : PowerState
  dbg : DebugState
  deriving DecidableEq, Repr

/-! Dies -/

/-- An entry of the page heat table (R170, R254). -/
structure HeatEntry where
  tenant : BitVec 6
  page : Nat
  size : Nat
  count : Nat
  deriving DecidableEq, Repr

/-- A heat notification: word 0 and word 1 of its slot (R172). -/
structure Heat where
  word0 : Word
  word1 : Word
  deriving DecidableEq, Repr

/-- A collective command at an engine (R239). -/
structure CollCmd where
  words : List Word
  core : CoreNo
  hart : HartNo
  group : Nat
  ptbase : Word
  asid : BitVec 16
  sup : Bool
  dropped : Bool
  /-- It was malformed, and its token went out when the engine took it; it stands for its participant until the operation of
  its tag has formed (R156, R239). -/
  answered : Bool
  /-- The tenant of its group, for which it counts page heat (R254). -/
  tenant : BitVec 6
  deriving DecidableEq, Repr

/-- The page heat table of a die with its registers (R170 to R172): sets by set number, the entry counted most recently
first. -/
structure HeatState where
  sets : AMap (List HeatEntry)
  threshold : BitVec 16
  en : Bool
  drops : BitVec 16
  core : BitVec 5
  ch : BitVec 4
  waiting : List Heat
  deriving DecidableEq, Repr

/-- A die (R12). -/
structure Die where
  tlb : List TlbEntry
  heat : HeatState
  banks : AMap Bank
  coll : List CollCmd
  /-- The last 16 commands that the collective engine accepted, oldest first (R243). -/
  collLog : List CmdRecord
  /-- S state by port (R241). -/
  serdes : AMap (BitVec 2)
  deriving DecidableEq, Repr

/-! The Wharf -/

/-- A launch record with its loop table (R201, R202); `levels` holds kind and count, outermost first. -/
structure LaunchRec where
  entry : Word
  args : Word
  waitAddr : Word
  waitVal : Word
  doneAddr : Word
  tenant : BitVec 6
  prio : BitVec 2
  harts : Nat
  run : Nat
  lanes : Nat
  tiles : Nat
  accs : Nat
  lsb : Nat
  gang : Bool
  levels : List (Nat × Nat)
  /-- LAUNCHID.SEQ, and the privilege of its groups (R203, R218). -/
  seq : BitVec 32
  sup : Bool
  /-- LTAB. -/
  table : Word := 0
  deriving DecidableEq, Repr

/-- An accepted launch: the next unit to admit, groups ended, next index of its Y level, and WQRY requests unanswered,
oldest first, as group, channel, and the index of an answer that is held (R213). -/
structure Launch where
  record : LaunchRec
  nextGroup : Nat
  ended : Nat
  nextIndex : Nat
  requests : List (Nat × Nat × Option Nat)
  /-- The wait counter has been met (R206). -/
  met : Bool
  deriving DecidableEq, Repr

/-- An MMA.c of an aborted member that its gang still needs (R232): the entry, the physical tile of its first
operand, and from the abort on that tile's rows with their sidecars as they then were. -/
structure CrewOp where
  entry : VEntry
  tile : Nat
  rows : Option (List (TileRow × TileSide)) := none
  deriving DecidableEq, Repr

/-- A resident group (R209, R211). -/
structure Group where
  launch : Nat
  number : Nat
  core : CoreNo
  /-- Reserved user harts, in RANK order of admission. -/
  harts : List HartNo
  lsBase : Nat
  /-- Arena size A. -/
  size : Nat
  tiles : List Nat
  accs : List Nat
  /-- Tiles and accumulators that no hart has claimed. -/
  freeTiles : List Nat
  freeAccs : List Nat
  /-- W gang number within the launch, and the member, when the group is part of one. -/
  gang : Option (Nat × Nat)
  /-- Core cycle of its admission or last restore, and its resident cycles before that (R208). -/
  admitted : Nat
  carried : Nat
  charged : Nat
  aborted : Bool
  /-- How many MMA.c the group has executed since the gang's admission, and the harts of those that it has dispatched and not
  executed, in dispatch order (R191). -/
  crewDone : Nat
  crewQueue : List HartNo
  /-- Of an aborted member of a W gang: how many crew operations the four members had dispatched, and those of its own that
  had not executed (R232). -/
  crewLimit : Nat
  crewLeft : List CrewOp
  /-- It has ended, and only its gang still refers to it (R232). -/
  gone : Bool
  /-- It is being pre-empted (R216). -/
  victim : Bool
  deriving DecidableEq, Repr

/-- Where the parts of a save area begin, from its first byte (R217): the records of the running harts, the tiles, the claims, the
accumulators, the windows, the channels, the arena and the tokens of each hart. -/
structure SaveMap where
  records : List (HartNo × Nat)
  tiles : Nat
  claims : List (HartNo × Nat)
  accs : Nat
  windows : List (HartNo × Nat)
  channels : Nat
  arena : Nat
  tokens : List (HartNo × Nat)
  deriving DecidableEq, Repr

/-- A saved group (R216, R217): what is kept beside the bytes of its save area. A restore takes from the area everything that R217 puts
there; what its bytes have no room for is kept here (log entry 84). -/
structure Saved where
  /-- First physical address of its save area, and its bytes. -/
  base : Nat
  size : Nat
  map : SaveMap
  group : Group
  /-- Its harts with their numbers, without the x, k, b, vector and mask registers of the running ones. -/
  harts : List (HartNo × Hart)
  landing : AMap LEntry
  channels : AMap Channel
  /-- Poisoned lines by arena offset. -/
  poison : List Nat
  /-- The hart that held the Pontoon. -/
  pontoon : Option HartNo
  deriving DecidableEq, Repr

/-- Per-tenant state of the Wharf and the register window (R178, R204, R208, R237). -/
structure Tenant where
  wgt : BitVec 8
  deficit : BitVec 64
  lim : Bool
  fenceDown : Bool
  acc : BitVec 32
  rej : BitVec 16
  reason : BitVec 8
  tbase : Word
  ptbase : Word
  asid : BitVec 16
  saveBase : Word
  /-- Queued launches by priority, oldest first. -/
  queues : AMap (List Nat)
  deriving DecidableEq, Repr

/-- The Wharf (R201 to R217). -/
structure Wharf where
  tenants : AMap Tenant
  /-- ACC, REJ and last reason of the hypervisor's launch window (R255). -/
  hyperAcc : BitVec 32
  hyperRej : BitVec 16
  hyperReason : BitVec 8
  launches : AMap Launch
  groups : AMap Group
  saved : AMap Saved
  /-- The next number of a launch or group (model's own). -/
  nextId : Nat
  /-- Scan pointer of the admission loop (R208). -/
  ptr : Nat
  deriving DecidableEq, Repr

/-! Who moves -/

/-- One turn of the package. -/
inductive Turn where
  /-- The front of a user hart, or a ferry hart, issues. -/
  | hart (core : CoreNo) (hart : HartNo)
  /-- The vector side of a user hart executes the oldest entry of its VIQ. -/
  | vector (core : CoreNo) (hart : HartNo)
  /-- It executes that entry up to an element-group boundary, where a stop may find it (R51, R226). -/
  | vectorPart (core : CoreNo) (hart : HartNo) (group : BitVec 9)
  /-- The protected firmware of ferry f0 (false) or f1 (true) makes one pass with its default handlers (R84). -/
  | firmware (core : CoreNo) (f1 : Bool)
  /-- A row with no encoding, with its operands. -/
  | event (row : Instr) (input : Input)
  deriving DecidableEq, Repr

/-- Signature algorithms and hashes of SPDM that the device supports (R244). -/
inductive SpdmSign where
  | rsassaPss
  deriving DecidableEq, Repr

inductive SpdmHash where
  | sha512
  deriving DecidableEq, Repr

/-- An answer that the device gave to the host: SPDM and memory reads (R235, R244). -/
inductive Answer where
  | bytes (bs : List Byte) (poison : Bool)
  /-- The version, major and minor: 1 and 3. -/
  | spdmVersion (major minor : Nat)
  | spdmCapabilities
  /-- The signature algorithm, its key bits, and the hash. -/
  | spdmAlgorithms (sign : SpdmSign) (bits : Nat) (hash : SpdmHash)
  /-- Digests, a certificate part, a challenge answer or a measurement block, as the number of the free value. -/
  | spdmDigests (digest : BitVec 512)
  | spdmCertificate (off len : Nat) (bs : List Byte)
  | spdmChallenge (nonce : BitVec 256) (signature : BitVec 4096)
  | spdmMeasurements (block : BitVec 8) (content : List Byte) (signature : BitVec 4096)
  | spdmUnsupported (code : BitVec 8)
  /-- ATT is 0, so SPDM does not answer (R242). -/
  | none
  /-- The old value that a peer's AMO receives (R143). -/
  | amo (old : Word)
  deriving DecidableEq, Repr

/-- An interrupt raised to the host, with its cause: bank threshold, done counter, HALT, fatal stop, thermal trip (R235,
R237). Every function has one MSI-X vector; which function's vector a cause takes is `Irq.function` (log entry 98). -/
inductive Irq where
  | threshold (core : CoreNo) (bank : BitVec 4)
  | doneCounter (tenant : BitVec 6)
  | halt (core : CoreNo) (hart : HartNo)
  | fatal
  | thermal (die : DieNo)
  deriving DecidableEq, Repr

/-- What the host sees and sets for the whole package. -/
structure HostState where
  ready : BitVec 64
  podId : BitVec 6
  irqs : List Irq
  answers : List Answer
  /-- A fatal error has stopped the package (R233). -/
  fatal : Bool
  /-- Peer links that are down (R229). -/
  linksDown : BitVec 16
  deriving DecidableEq, Repr

/-- The package. -/
structure State where
  mem : Memory
  /-- Poisoned 64-byte lines, by place of their first byte (R230). -/
  poison : List Nat
  cores : AMap Core
  dies : AMap Die
  wharf : Wharf
  host : HostState
  curCore : CoreNo
  curHart : HartNo
  /-- Operands of the row that an agent runs now. -/
  input : Input
  /-- Turns to take, the next one first; when there is none, the agents that can move take turns (log entry 4). -/
  agenda : List Turn
  rr : Nat
  /-- How many values that the spec leaves open the machine has used (model's own; log entry 10). -/
  free : Nat
  /-- TLBINVs that the package has seen (model's own; R168). -/
  inval : Nat
  deriving DecidableEq, Repr

/-! Reset -/

def TReg.reset : TReg := { addr := 0, v := false, pf := 0 }

/-- The front has taken nothing from a prefetch buffer. -/
def Lead.none : Lead := ⟨0, [], []⟩

/-- A hart that is not running, every register at its reset value (R7, R57, R59, R68, R105, R127, R203, R211, R219). -/
def Hart.reset : Hart where
  pc := 0
  x := []
  k := 0
  b := []
  lead := Lead.none
  vec := { v := [], side := [], m := [], written := [], viq := [], held := [], vl := 0, vtype := 0, mspace := 0,
           grant := 0, lag := false }
  fp := { ctl := 0, flags := 0, seed := 0, ric := 0 }
  lp := { cthr := 0, det := false, lcnt := 0, lbody := 0, llen := 0, liter := 0, loop := none }
  rc := { objV := false, objOff := 0, obj := none, phase := 0, rout := 3, act := false, stop := false, batch := 0,
          level := 0, cells := 0, pontoon := none }
  tr := { tpc := 0, tvcp := 0, tcause := 0, tvst := 0, tinfo0 := 0, tinfo1 := 0, tinfo2 := 0, tinfo3 := 0, tbase := 0,
          tscr0 := 0, tscr1 := 0, sup := false }
  id := { rank := 0, tenant := 0, launchId := 0, idx := [], args := 0, group := none, parent := none, known := 0, kids := [],
          parked := [] }
  tile := { amax := [], claim := none, k := 0, n := 0, m := 0, crew := false }
  ms := { ptbase := 0, asid := 0, stq := [], streams := [], tails := [], passes := 0, window := none, copyWords := [], collWords := [],
          copyTokens := [], collTokens := [], copyCtx := (0, 0, false), copyOrder := 0 }
  run := { running := false, claimed := false, stopped := false, halted := false, wait := none, arrived := [],
           atBar := false, why := 0, turned := false, inval := none, deq := false, cycle := 0, retired := 0, mcsel := 0 }
  hole := { reported := none, ferry := none, lastLnget := 0 }

/-- STATUS and ADDR 0, MISC with HART 7, CTL with LOGCE 1 (R228). -/
def Bank.reset : Bank := ⟨0, 0, 0x0007000000000000, 1⟩

/-- A core after reset. R81 gives the first SEQ no value and R85 no hart that LNGET serves first: SEQ begins at 0, and the round robin
at h0, as after h3 (DESIGN CHOICE; log entries 114 and 115). -/
def Core.reset : Core where
  harts := []
  land := { entries := [], seq := 0, turn := 3, fillTable := [] }
  tiles := { rows := [], sides := [], words := [], kinds := [] }
  channels := []
  copyFifo := []
  copyCount := 0
  copyLog := []
  pontoonOwner := none
  tlb := []
  icache := []
  ccache := []
  pool := 64
  cycles := 0
  banks := []
  power := { trip := false, cur := 0, req := 0, test := none, outOfService := false }
  dbg := { breakpoints := [], counters := [], profile := [], ringBase := 0, ringSize := 0, ringPos := 0, drops := 0,
           sampleExp := 4, sampled := 0, hold := false }

/-- HEATTH is 256 (R171). -/
def Die.reset : Die where
  tlb := []
  heat := { sets := [], threshold := 256, en := false, drops := 0, core := 0, ch := 0, waiting := [] }
  banks := []
  coll := []
  collLog := []
  serdes := []

def Tenant.reset : Tenant where
  wgt := 0
  deficit := 0
  lim := false
  fenceDown := false
  acc := 0
  rej := 0
  reason := 0
  tbase := 0
  ptbase := 0
  asid := 0
  saveBase := 0
  queues := []

/-- The package right after device reset (R7, R242). -/
def State.reset : State where
  mem := []
  poison := []
  cores := []
  dies := []
  wharf := { tenants := [], hyperAcc := 0, hyperRej := 0, hyperReason := 0, launches := [], groups := [], saved := [],
             nextId := 0, ptr := 0 }
  host := { ready := 0, podId := 0, irqs := [], answers := [], fatal := false, linksDown := 0 }
  curCore := 0
  curHart := 0
  input := {}
  agenda := []
  rr := 0
  free := 0
  inval := 0

/-! Why a step stops -/

/-- Faults of the machine: none is an exception of the instruction set, which is taken (R220). -/
inductive Fault where
  /-- A step of the package after a fatal error, which only a device reset leaves (R233). Safe: the package makes no
  step. -/
  | fatalStop
  /-- An access to an address beyond its memory: near memory of 6 GiB, a peer's near memory of 6 GiB, far memory of 64 TiB
  (R17, R143). Safe: the spec gives it no effect. -/
  | noSuchAddress
  deriving DecidableEq, Repr

/-- Refusals of the model. -/
inductive Refusal where
  /-- The instruction has no meaning in the model yet; its mnemonic. Safe. -/
  | notModelled (mnemonic : String)
  deriving DecidableEq, Repr

end Sys2Proof.Machine
end

