-- ==== Sys2Proof/Machine/Store.lean ====
section
/-! DEFINITION. Key-value lists, the memory in its canonical form, and little-endian bytes. -/

namespace Sys2Proof.Machine

/-! Key-value lists in rising key order -/

/-- The value at a key. -/
def lookup (m : AMap α) (k : Nat) : Option α :=
  match m with
  | [] => none
  | (j, v) :: rest => if j = k then some v else lookup rest k

/-- The value at a key, or `d` where the list has none. -/
def lookupD (m : AMap α) (k : Nat) (d : α) : α := (lookup m k).getD d

/-- The list with `v` at key `k`. -/
def insert (m : AMap α) (k : Nat) (v : α) : AMap α :=
  match m with
  | [] => [(k, v)]
  | (j, u) :: rest =>
    if k < j then (k, v) :: (j, u) :: rest
    else if k = j then (k, v) :: rest
    else (j, u) :: insert rest k v

/-- The list without key `k`. -/
def erase (m : AMap α) (k : Nat) : AMap α :=
  match m with
  | [] => []
  | (j, u) :: rest => if j = k then rest else (j, u) :: erase rest k

/-- Every value changed by `f`. -/
def mapValues (f : Nat → α → α) (m : AMap α) : AMap α := m.map fun e => (e.1, f e.1 e.2)

/-! Memory -/

/-- What a place reads as when the memory does not list it (R144, R242; log entry 3). -/
def unlistedByte : Byte := 0

/-- Keys strictly above `lo`, strictly rising, and no byte equal to what an unlisted place reads as. -/
def Memory.wfFrom (lo : Option Nat) : Memory → Bool
  | [] => true
  | (p, b) :: rest =>
    (match lo with
     | none => true
     | some l => decide (l < p)) && b != unlistedByte && Memory.wfFrom (some p) rest

/-- The canonical form of memory. -/
def Memory.wf (m : Memory) : Bool := Memory.wfFrom none m

/-- The byte at a place. -/
def readPlace (m : Memory) (p : Nat) : Byte := lookupD m p unlistedByte

/-- Memory with a byte written at a place. -/
def writePlace (m : Memory) (p : Nat) (b : Byte) : Memory :=
  if b = unlistedByte then erase m p else insert m p b

/-- `n` bytes from a place upwards. -/
def readPlaces (m : Memory) (p : Nat) : Nat → List Byte
  | 0 => []
  | n + 1 => readPlace m p :: readPlaces m (p + 1) n

/-- Memory with bytes written from a place upwards. -/
def writePlaces (m : Memory) (p : Nat) : List Byte → Memory
  | [] => m
  | b :: bs => writePlaces (writePlace m p b) (p + 1) bs

/-- The little-endian number of `n` bytes at a place (R3). -/
def readNat (m : Memory) (p n : Nat) : Nat :=
  match n with
  | 0 => 0
  | n + 1 => (readPlace m p).toNat + 256 * readNat m (p + 1) n

/-- Memory with the `n` low bytes of a number at a place, little-endian (R3). -/
def writeNat (m : Memory) (p n w : Nat) : Memory :=
  match n with
  | 0 => m
  | n + 1 => writeNat (writePlace m p (BitVec.ofNat 8 w)) (p + 1) n (w / 256)

/-- Memory without the bytes of places p to p + n - 1. -/
def clearPlaces (m : Memory) (p n : Nat) : Memory := m.filter fun c => decide (c.1 < p) || decide (p + n ≤ c.1)

/-- The place of a physical address in the memory of an MT code: 0 NM, 1 FM, 2 HM, 3 PM (R164). -/
def paPlace (mt pa : Nat) : Nat := mt * 2 ^ 56 + pa

/-- The place of an LS offset of a package core. -/
def lsPlace (core off : Nat) : Nat := (4 + core) * 2 ^ 56 + off

/-- Which memory a place is in, and the address there. -/
def memoryOf (p : Nat) : Nat := p / 2 ^ 56
def addressOf (p : Nat) : Nat := p % 2 ^ 56

/-- The first place of the 64-byte line that holds a place. -/
def lineOf (p : Nat) : Nat := p / 64 * 64

/-! Numbers -/

/-- ⌈a / b⌉. -/
def ceilDiv (a b : Nat) : Nat := (a + b - 1) / b

/-- The two's-complement value of the low `n` bits of a number. -/
def signedOf (n w : Nat) : Int :=
  let u := w % 2 ^ n
  if u < 2 ^ (n - 1) then (u : Int) else (u : Int) - (2 ^ n : Nat)

/-- The low `n` bits of an integer. -/
def wrap (n : Nat) (i : Int) : Nat := (i % (2 ^ n : Nat)).toNat

/-- Bits [lo + n - 1 : lo] of a number. -/
def bits (w lo n : Nat) : Nat := w / 2 ^ lo % 2 ^ n

/-- Bits [lo + n - 1 : lo] of a 64-bit word, as a number. -/
def wbits (w : Word) (lo n : Nat) : Nat := bits w.toNat lo n

/-- `w` with bits [lo + n - 1 : lo] replaced by the low `n` bits of `x`. -/
def setBits (w lo n x : Nat) : Nat :=
  w / 2 ^ (lo + n) * 2 ^ (lo + n) + x % 2 ^ n * 2 ^ lo + w % 2 ^ lo

/-- A Bool as a bit. -/
def bit (b : Bool) : Nat := if b then 1 else 0

/-- Number of set bits below `n`. -/
def popCount (w : Nat) : Nat → Nat
  | 0 => 0
  | n + 1 => popCount w n + w / 2 ^ n % 2

/-- The positions below `n` in rising order. -/
def indices (n : Nat) : List Nat := List.range n

/-- The positions below `n` of which `p` holds, in rising order. -/
def positions (n : Nat) (p : Nat → Bool) : List Nat := (List.range n).filter p

/-- The word of a number. -/
def word (n : Nat) : Word := BitVec.ofNat 64 n

end Sys2Proof.Machine
end

