-- ==== Sys2Proof/Machine/Flags.lean ====
section
/-! DEFINITION. Number formats, rounding and the flags of floating-point operations (R117 to R138), and the easy ranges of
the lanes (R71, R72). -/

namespace Sys2Proof.Machine

/-! Formats and values -/

/-- A floating-point format (R117): exponent bits, fraction bits, and the encoding of its largest finite value. -/
structure Fmt where
  eb : Nat
  fb : Nat
  /-- Largest finite magnitude's encoding. -/
  top : Nat
  /-- It has infinities. -/
  infs : Bool
  deriving DecidableEq, Repr

/-- The format of a type code: 8 fp8e4, 9 fp8e5, 10 fp4, 11 fp16, 12 bf16, 13 fp32, 14 fp64 (R117, R125). -/
def fmtOf (ty : Nat) : Fmt :=
  match ty with
  | 8 => ⟨4, 3, 0x7E, false⟩
  | 9 => ⟨5, 2, 0x7B, true⟩
  | 10 => ⟨2, 1, 7, false⟩
  | 11 => ⟨5, 10, 0x7BFF, true⟩
  | 12 => ⟨8, 7, 0x7F7F, true⟩
  | 13 => ⟨8, 23, 0x7F7FFFFF, true⟩
  | _ => ⟨11, 52, 0x7FEFFFFFFFFFFFFF, true⟩

def Fmt.bias (f : Fmt) : Int := 2 ^ (f.eb - 1) - 1

/-- Exponent of the smallest normal. -/
def Fmt.emin (f : Fmt) : Int := 1 - f.bias

def Fmt.width (f : Fmt) : Nat := 1 + f.eb + f.fb

def Fmt.signBit (f : Fmt) : Nat := 2 ^ (f.eb + f.fb)

/-- The canonical NaN of a format (R118); FP4 has none. -/
def Fmt.nan (f : Fmt) : Nat :=
  if f.infs then f.top + 1 + 2 ^ (f.fb - 1) else 2 ^ (f.eb + f.fb) - 1

/-- A floating-point value: a zero, the number (−1)^neg × m × 2^e with m > 0, an infinity, or a NaN. -/
inductive FVal where
  | zero (neg : Bool)
  | num (neg : Bool) (m : Nat) (e : Int)
  | inf (neg : Bool)
  | nan (signalling : Bool)
  deriving DecidableEq, Repr

/-- The value that bits of a format encode (R117, R118). -/
def decodeFp (f : Fmt) (w : Nat) : FVal :=
  let neg := decide (f.signBit ≤ w % (2 * f.signBit))
  let mag := w % f.signBit
  if f.top < mag then
    if f.infs then
      if mag = f.top + 1 then .inf neg else .nan (decide (mag < f.top + 1 + 2 ^ (f.fb - 1)))
    else .nan false
  else
    let ef := mag / 2 ^ f.fb
    let fr := mag % 2 ^ f.fb
    if ef = 0 then
      if fr = 0 then .zero neg else .num neg fr (f.emin - f.fb)
    else .num neg (fr + 2 ^ f.fb) (ef - 1 + f.emin - f.fb)

/-- Rounding modes of FPCTL.RM (R127). -/
inductive RMode where
  | rne | rtz | rdn | rup | rmm | sr
  deriving DecidableEq, Repr

def rmodeOf (n : Nat) : RMode :=
  match n with
  | 0 => .rne | 1 => .rtz | 2 => .rdn | 3 => .rup | 4 => .rmm | _ => .sr

/-- Flags as FFLAGS has them (R131). -/
def NV : Nat := 1
def DZ : Nat := 2
def OF : Nat := 4
def UF : Nat := 8
def NX : Nat := 16

/-- The magnitude m × 2^e rounded to a multiple of 2^q: the multiple, and whether it is inexact (R127, R128). -/
def roundAt (mode : RMode) (rb : Nat) (neg : Bool) (m : Nat) (e q : Int) : Nat × Bool :=
  if q ≤ e then (m * 2 ^ (e - q).toNat, false)
  else
    let d := 2 ^ (q - e).toNat
    let t := m / d
    let r := m % d
    let up := match mode with
      | .rne => decide (d < 2 * r) || (2 * r == d && t % 2 == 1)
      | .rtz => false
      | .rdn => neg && r != 0
      | .rup => !neg && r != 0
      | .rmm => decide (d ≤ 2 * r)
      | .sr => decide (rb < r * 65536 / d)
    (if up then t + 1 else t, r != 0)

/-- floor(log2 m) + e. -/
def expOf (m : Nat) (e : Int) : Int := (Nat.log2 m : Int) + e

/-- A magnitude too large for the format: infinity or the largest finite value, as the mode directs (R126, R128). -/
def overflowMag (f : Fmt) (mode : RMode) (neg : Bool) : Nat :=
  if !f.infs then f.top
  else match mode with
    | .rtz => f.top
    | .rdn => if neg then f.top + 1 else f.top
    | .rup => if neg then f.top else f.top + 1
    | _ => f.top + 1

/-- A nonzero exact magnitude rounded to a format: the encoding and the flags OF, UF and NX (R126, R131). -/
def roundNum (f : Fmt) (mode : RMode) (rb : Nat) (neg : Bool) (m : Nat) (e : Int) : Nat × Nat :=
  let ex := expOf m e
  let q := max (ex - f.fb) (f.emin - f.fb)
  let (sig, inexact) := roundAt mode rb neg m e q
  let mag := (q - (f.emin - f.fb)).toNat * 2 ^ f.fb + sig
  let sign := if neg then f.signBit else 0
  if f.top < mag then (sign + overflowMag f mode neg, OF + NX)
  else
    let tiny :=
      if f.emin ≤ ex then false
      else decide ((roundAt mode rb neg m e (ex - f.fb)).1 < 2 ^ (f.fb + 1)) || decide (ex < f.emin - 1)
    (sign + mag, if inexact then NX + (if tiny then UF else 0) else 0)

/-- Encoding of a value that needs no rounding beyond the mode's, with its flags (R118, R126). -/
def encodeFp (f : Fmt) (mode : RMode) (rb : Nat) (v : FVal) : Nat × Nat :=
  match v with
  | .zero neg => (if neg then f.signBit else 0, 0)
  | .num neg m e => roundNum f mode rb neg m e
  | .inf neg =>
    if f.infs then ((if neg then f.signBit else 0) + f.top + 1, 0)
    else ((if neg then f.signBit else 0) + f.top, OF + NX)
  | .nan _ => (f.nan, 0)

/-! Exact operations -/

def FVal.isNan : FVal → Bool
  | .nan _ => true
  | _ => false

def FVal.isSnan : FVal → Bool
  | .nan s => s
  | _ => false

def FVal.isNeg : FVal → Bool
  | .zero n => n
  | .num n _ _ => n
  | .inf n => n
  | .nan _ => false

def FVal.negate : FVal → FVal
  | .zero n => .zero (!n)
  | .num n m e => .num (!n) m e
  | .inf n => .inf (!n)
  | .nan s => .nan s

/-- The integer i × 2^e as a value; an exact zero takes the sign given. -/
def ofInt (i : Int) (e : Int) (zeroNeg : Bool) : FVal :=
  if i = 0 then .zero zeroNeg else .num (decide (i < 0)) i.natAbs e

/-- Sign and magnitude as an integer. -/
def signedInt (neg : Bool) (m : Nat) : Int := if neg then -(m : Int) else m

/-- NaN operands of an operation: NV when one is signalling (R131). -/
def nanFlags (l : List FVal) : Nat := if l.any FVal.isSnan then NV else 0

/-- a + b, exact (R118). -/
def fpAdd (mode : RMode) (a b : FVal) : FVal × Nat :=
  match a, b with
  | .nan s, y => (.nan false, nanFlags [.nan s, y])
  | x, .nan s => (.nan false, nanFlags [x, .nan s])
  | .inf n, .inf m => if n = m then (.inf n, 0) else (.nan false, NV)
  | .inf n, _ => (.inf n, 0)
  | _, .inf n => (.inf n, 0)
  | .zero n, .zero m => (.zero (if n = m then n else mode == .rdn), 0)
  | .zero _, y => (y, 0)
  | x, .zero _ => (x, 0)
  | .num n m e, .num n' m' e' =>
    let q := min e e'
    let i := signedInt n (m * 2 ^ (e - q).toNat) + signedInt n' (m' * 2 ^ (e' - q).toNat)
    (ofInt i q (mode == .rdn), 0)

/-- a × b, exact. -/
def fpMul (a b : FVal) : FVal × Nat :=
  match a, b with
  | .nan s, y => (.nan false, nanFlags [.nan s, y])
  | x, .nan s => (.nan false, nanFlags [x, .nan s])
  | .inf _, .zero _ => (.nan false, NV)
  | .zero _, .inf _ => (.nan false, NV)
  | .inf n, y => (.inf (n != y.isNeg), 0)
  | x, .inf n => (.inf (x.isNeg != n), 0)
  | .zero n, y => (.zero (n != y.isNeg), 0)
  | x, .zero n => (.zero (x.isNeg != n), 0)
  | .num n m e, .num n' m' e' => (.num (n != n') (m * m') (e + e'), 0)

/-- a × b + c with one rounding: 0 × ∞ raises NV even when c is NaN (R283). -/
def fpFma (mode : RMode) (a b c : FVal) : FVal × Nat :=
  let (p, f) := fpMul a b
  if p.isNan then (.nan false, f ||| nanFlags [c]) else fpAdd mode p c

/-- The quotient of two magnitudes to more bits than any target holds, its last bit set when it is not exact. -/
def quotient (m m' : Nat) : Nat × Int :=
  let k := 160 + Nat.log2 m'
  let n := m * 2 ^ k
  (n / m' * 2 + (if n % m' = 0 then 0 else 1), -(k : Int) - 1)

/-- a / b (R131, R283). -/
def fpDiv (a b : FVal) : FVal × Nat :=
  match a, b with
  | .nan s, y => (.nan false, nanFlags [.nan s, y])
  | x, .nan s => (.nan false, nanFlags [x, .nan s])
  | .inf _, .inf _ => (.nan false, NV)
  | .zero _, .zero _ => (.nan false, NV)
  | .inf n, y => (.inf (n != y.isNeg), 0)
  | x, .inf n => (.zero (x.isNeg != n), 0)
  | .zero n, y => (.zero (n != y.isNeg), 0)
  | x, .zero n => (.inf (x.isNeg != n), DZ)
  | .num n m e, .num n' m' e' =>
    let (q, k) := quotient m m'
    (.num (n != n') q (e - e' + k), 0)

/-- The square root of m × 2^e to more bits than any target holds, its last bit set when it is not exact. -/
def rootOf (m : Nat) (e : Int) : Nat × Int :=
  let odd := (e % 2).toNat
  let n := m * 2 ^ odd * 4 ^ 200
  let r := Nat.sqrt n
  (r * 2 + (if r * r = n then 0 else 1), (e - odd) / 2 - 200 - 1)

/-- √a (R131, R283). -/
def fpSqrt (a : FVal) : FVal × Nat :=
  match a with
  | .nan s => (.nan false, nanFlags [.nan s])
  | .zero n => (.zero n, 0)
  | .inf true => (.nan false, NV)
  | .inf false => (.inf false, 0)
  | .num true _ _ => (.nan false, NV)
  | .num false m e => let (r, k) := rootOf m e; (.num false r k, 0)

/-- 1 / a. -/
def fpRcp (a : FVal) : FVal × Nat := fpDiv (.num false 1 0) a

/-- 1 / √a (R283): the root of 1 / a, whose last bit keeps that it is not exact. -/
def fpRsq (a : FVal) : FVal × Nat :=
  match a with
  | .nan s => (.nan false, nanFlags [.nan s])
  | .zero n => (.inf n, DZ)
  | .inf true => (.nan false, NV)
  | .inf false => (.zero false, 0)
  | .num true _ _ => (.nan false, NV)
  | .num false m e =>
    let k := 2 * (200 + Nat.log2 m)
    let e2 := (e % 2).toNat
    let n := 2 ^ k * 4 ^ 64 / (m * 2 ^ e2)
    let exact := 2 ^ k * 4 ^ 64 % (m * 2 ^ e2) = 0
    let r := Nat.sqrt n
    (.num false (r * 2 + (if r * r = n ∧ exact then 0 else 1)) (-((e - e2) / 2) - (k / 2 : Nat) - 64 - 1), 0)

/-- IEEE 754-2019 minimum and maximum (R133). -/
def fpLess (a b : FVal) : Bool :=
  match a, b with
  | .zero n, .zero m => n && !m
  | .zero _, .num n _ _ => !n
  | .num n _ _, .zero _ => n
  | .inf n, .inf m => n && !m
  | .inf n, _ => n
  | _, .inf n => !n
  | .num n m e, .num n' m' e' =>
    let q := min e e'
    decide (signedInt n (m * 2 ^ (e - q).toNat) < signedInt n' (m' * 2 ^ (e' - q).toNat))
  | _, _ => false

def fpMinMax (isMax : Bool) (a b : FVal) : FVal × Nat :=
  if a.isNan || b.isNan then (.nan false, nanFlags [a, b])
  else if isMax then (if fpLess a b then b else a, 0)
  else (if fpLess b a then b else a, 0)

/-! Transcendental functions of FP32, to 640 bits after the point (R283: correctly rounded) -/

/-- Bits after the point. -/
def prec : Nat := 640

/-- Σ (±1)^j 2^p / ((2j + 1) n^(2j + 1)) from the term whose power is `t`, over `fuel` terms. -/
def arcSum (alt : Bool) (n : Nat) : Nat → Nat → Nat → Int
  | 0, _, _ => 0
  | fuel + 1, j, t =>
    let term : Int := ((t / (2 * j + 1) : Nat) : Int)
    (if alt && j % 2 == 1 then -term else term) + arcSum alt n fuel (j + 1) (t / (n * n))

/-- π × 2^p. -/
def piFix (p : Nat) : Nat :=
  let g := 2 ^ (p + 32)
  ((16 * arcSum true 5 (p / 4 + 20) 0 (g / 5) - 4 * arcSum true 239 (p / 15 + 20) 0 (g / 239)) / (2 ^ 32 : Nat)).toNat

/-- ln 2 × 2^p. -/
def ln2Fix (p : Nat) : Nat :=
  let g := 2 ^ (p + 32)
  (2 * arcSum false 3 (p / 3 + 20) 0 (g / 3) / (2 ^ 32 : Nat)).toNat

/-- Σ term, term × r / j, … for a fixed-point r with `prec` bits; `alt` changes the sign of every other term. -/
def expSum (r : Nat) (stepBy : Nat) (alt : Bool) : Nat → Nat → Nat → Int
  | 0, _, _ => 0
  | fuel + 1, j, t =>
    let t' := if stepBy = 1 then t * r / 2 ^ prec / j else t * r / 2 ^ prec * r / 2 ^ prec / (j * (j + 1))
    let rest := expSum r stepBy alt fuel (j + stepBy) t'
    (t : Int) + (if alt then -rest else rest)

/-- The magnitude m × 2^e in fixed point with `prec` bits, rounded down. -/
def toFix (m : Nat) (e : Int) : Nat :=
  let s := e + prec
  if 0 ≤ s then m * 2 ^ s.toNat else m / 2 ^ (-s).toNat

/-- A fixed-point result that is not exact. -/
def ofFix (i : Int) : FVal :=
  if i = 0 then .num false 1 (-(2 * prec : Int)) else .num (decide (i < 0)) (2 * i.natAbs + 1) (-(prec : Int) - 1)

/-- e^a (R283). -/
def fpExp (a : FVal) : FVal × Nat :=
  match a with
  | .nan s => (.nan false, nanFlags [.nan s])
  | .inf n => if n then (.zero false, 0) else (.inf false, 0)
  | .zero _ => (.num false 1 0, 0)
  | .num n m e =>
    if 9 ≤ expOf m e then (if n then .num false 3 (-400) else .num false 3 400, 0)
    else
      let x := signedInt n (toFix m e)
      let l : Int := ln2Fix prec
      let k := x / l
      let r := (x % l).toNat
      let v := expSum r 1 false 170 1 (2 ^ prec)
      (.num false (2 * v.natAbs + 1) (k - prec - 1), 0)

/-- ln a (R283). -/
def fpLog (a : FVal) : FVal × Nat :=
  match a with
  | .nan s => (.nan false, nanFlags [.nan s])
  | .zero _ => (.inf true, DZ)
  | .inf true => (.nan false, NV)
  | .inf false => (.inf false, 0)
  | .num true _ _ => (.nan false, NV)
  | .num false m e =>
    let l2 := Nat.log2 m
    let k : Int := l2 + e
    let x := m * 2 ^ prec / 2 ^ l2
    let one := 2 ^ prec
    if k = 0 ∧ x = one then (.zero false, 0)
    else
      let z := (x - one) * one / (x + one)
      let z2 := z * z / one
      let rec go : Nat → Nat → Nat → Nat
        | 0, _, _ => 0
        | fuel + 1, j, t => t / (2 * j + 1) + go fuel (j + 1) (t * z2 / one)
      (ofFix (k * ln2Fix prec + 2 * go 220 0 z), 0)

/-- sin and cos of a finite nonzero magnitude: the angle modulo 2π from its quadrant and the rest. -/
def sinCos (wantCos : Bool) (n : Bool) (m : Nat) (e : Int) : FVal :=
  let p := prec + 160
  let s := e + p
  let x := if 0 ≤ s then m * 2 ^ s.toNat else m / 2 ^ (-s).toNat
  let half := piFix (p + 160)
  let x := x * 2 ^ 160
  let quad := (2 * x / half)
  let r := (2 * x - quad * half) / 2 / 2 ^ 320
  let sinR := expSum r 2 true 90 2 r
  let cosR := expSum r 2 true 90 1 (2 ^ prec)
  let q := (quad + (if wantCos then 1 else 0)) % 4
  let v := match q with
    | 0 => sinR
    | 1 => cosR
    | 2 => -sinR
    | _ => -cosR
  ofFix (if n && !wantCos then -v else v)

/-- sin a and cos a (R283). -/
def fpSin (a : FVal) : FVal × Nat :=
  match a with
  | .nan s => (.nan false, nanFlags [.nan s])
  | .inf _ => (.nan false, NV)
  | .zero n => (.zero n, 0)
  | .num n m e => (sinCos false n m e, 0)

def fpCos (a : FVal) : FVal × Nat :=
  match a with
  | .nan s => (.nan false, nanFlags [.nan s])
  | .inf _ => (.nan false, NV)
  | .zero _ => (.num false 1 0, 0)
  | .num n m e => (sinCos true n m e, 0)

/-! Conversions -/

/-- Whether an integer type code is signed. -/
def signedType (ty : Nat) : Bool := decide (ty < 4)

def isFloat (ty : Nat) : Bool := decide (8 ≤ ty) && decide (ty ≤ 14)

/-- Bits of an integer type. -/
def intBits (ty : Nat) : Nat := 8 * 2 ^ (ty % 4)

/-- The integer that the bits of an integer type hold (R123). -/
def intOf (ty w : Nat) : Int := if signedType ty then signedOf (intBits ty) w else (w % 2 ^ intBits ty : Nat)

/-- Least and greatest integer of a type. -/
def intMin (ty : Nat) : Int := if signedType ty then -(2 ^ (intBits ty - 1) : Nat) else 0
def intMax (ty : Nat) : Int := if signedType ty then (2 ^ (intBits ty - 1) : Nat) - 1 else (2 ^ intBits ty : Nat) - 1

/-- A value rounded to an integer type (R126): NaN gives 0, and a value out of range the nearest bound, with NV. -/
def fpToInt (ty : Nat) (mode : RMode) (rb : Nat) (v : FVal) : Nat × Nat :=
  match v with
  | .nan _ => (0, NV)
  | .inf n => (wrap (intBits ty) (if n then intMin ty else intMax ty), NV)
  | .zero _ => (0, 0)
  | .num n m e =>
    let (t, inexact) := roundAt mode rb n m e 0
    let i := signedInt n t
    if i < intMin ty then (wrap (intBits ty) (intMin ty), NV)
    else if intMax ty < i then (wrap (intBits ty) (intMax ty), NV)
    else (wrap (intBits ty) i, if inexact then NX else 0)

/-- A value converted to a type code, integer or floating (R126). -/
def convertTo (ty : Nat) (mode : RMode) (rb : Nat) (v : FVal) : Nat × Nat :=
  if isFloat ty then
    let (w, f) := encodeFp (fmtOf ty) mode rb v
    (w, f ||| nanFlags [v])
  else fpToInt ty mode rb v

/-- The exact value of bits of a type code. -/
def valueOf (ty w : Nat) : FVal :=
  if isFloat ty then decodeFp (fmtOf ty) w else ofInt (intOf ty w) 0 false

/-- The value of a scaled element (R119): times 2^(s − 127), or NaN for the scale byte 0xFF. -/
def scaledBy (s : Nat) (v : FVal) : FVal :=
  if s = 255 then .nan false
  else match v with
    | .num n m e => .num n m (e + s - 127)
    | v => v

/-! Stochastic rounding bits -/

/-- The 16 random bits of a key (R129), as the low bits of z. -/
def randomZ (seed ric : Word) (key : Nat) : Word :=
  let z := seed ^^^ (ric <<< 20) ^^^ word key
  let z := (z ^^^ (z >>> 33)) * 0x9E3779B97F4A7C15
  let z := (z ^^^ (z >>> 29)) * 0xBF58476D1CE4E5B9
  z ^^^ (z >>> 32)

def randomBits (seed ric : Word) (key : Nat) : Nat := wbits (randomZ seed ric key) 0 16

/-! Elements -/

/-- The exact result of a floating-point function, before rounding (R283): a, b and c are the operands. -/
def fpExact (fn : LaneFn) (mode : RMode) (a b c : FVal) : FVal × Nat :=
  match fn with
  | .fadd => fpAdd mode a b
  | .fsub => fpAdd mode a b.negate
  | .fmul => fpMul a b
  | .fma => fpFma mode a b c
  | .fmin => fpMinMax false a b
  | .fmax => fpMinMax true a b
  | .fdiv => fpDiv a b
  | .frcp => fpRcp a
  | .frsq => fpRsq a
  | .fsqrt => fpSqrt a
  | .fexp => fpExp a
  | .flog => fpLog a
  | .fsin => fpSin a
  | .fcos => fpCos a
  | .fwmul => fpMul a b
  | _ => (a, 0)

/-- A floating-point function on bits of a type: the result's bits and flags, over the full range. `sty` and `sty2` are
the types of the first and second source, `ty` the destination's. -/
def fpCompute (fn : LaneFn) (sty sty2 ty : Nat) (mode : RMode) (rb : Nat) (a b c : Nat) : Nat × Nat :=
  let (v, f) := fpExact fn mode (valueOf sty a) (valueOf sty2 b) (valueOf ty c)
  let (w, g) := convertTo ty mode rb v
  (w, f ||| g)

/-! Easy ranges -/

/-- Classes of R71: zero, normal, subnormal, infinity, NaN. -/
inductive FClass where
  | Z | N | S | I | Q
  deriving DecidableEq, Repr

def classOfVal (f : Fmt) (v : FVal) : FClass :=
  match v with
  | .zero _ => .Z
  | .inf _ => .I
  | .nan _ => .Q
  | .num _ m e => if expOf m e < f.emin then .S else .N

/-- The class of the value that bits encode. -/
def classOf (f : Fmt) (w : Nat) : FClass := classOfVal f (decodeFp f w)

def isZN (c : FClass) : Bool := c == .Z || c == .N

/-- Whether bits of a floating format are a normal number. -/
def normalBits (f : Fmt) (w : Nat) : Bool := classOf f w == .N

def zeroBits (f : Fmt) (w : Nat) : Bool := classOf f w == .Z

/-- Exponent of a value; only used for normal ones. -/
def exponentOf (v : FVal) : Int :=
  match v with
  | .num _ m e => expOf m e
  | _ => 0

/-- The VFADD rule (R72) for operands `a` and `b`, of which `none` counts as Z: the result normal, and its exponent at
most 8 below the greatest. -/
def addEasy (f : Fmt) (ea eb : Option Int) (res : Nat) : Bool :=
  match ea, eb with
  | none, none => true
  | _, _ =>
    let top := match ea, eb with
      | some x, some y => max x y
      | some x, none => x
      | none, some y => y
      | none, none => 0
    normalBits f res && decide (top - 8 ≤ exponentOf (decodeFp f res))

def normalExp (f : Fmt) (w : Nat) : Option Int :=
  if normalBits f w then some (exponentOf (decodeFp f w)) else none

/-- Magnitude of a value at most, or below, a bound 2^k or 80. -/
def magnitudeAtMost (v : FVal) (bound : Nat) (strict : Bool) : Bool :=
  match v with
  | .num _ m e =>
    let q := min e 0
    let x := m * 2 ^ (e - q).toNat
    let y := bound * 2 ^ (-q).toNat
    if strict then decide (x < y) else decide (x ≤ y)
  | _ => true

/-- Whether the lane computes an element of an FP32 or FP64 operation (R72): the operands' classes and the result allow
it, and the result raises none of OF, UF, DZ and NV. -/
def easyElement (fn : LaneFn) (sty sty2 ty : Nat) (mode : RMode) (rb : Nat) (a b c : Nat) : Bool :=
  let f := fmtOf sty
  let ca := classOf f a
  let cb := classOf (fmtOf sty2) b
  let cc := classOf f c
  let (res, flags) := fpCompute fn sty sty2 ty mode rb a b c
  let va := decodeFp f a
  let within : Bool :=
    match fn with
    | .fadd | .fsub => isZN ca && isZN cb && addEasy f (normalExp f a) (normalExp f b) res
    | .fmul => isZN ca && isZN cb && (ca == .Z || cb == .Z || normalBits f res)
    | .fma =>
      isZN ca && isZN cb && isZN cc &&
      (match (fpMul va (decodeFp f b)).1 with
       | .num n m e => normalBits f (roundNum f mode rb n m e).1 && addEasy f (some (expOf m e)) (normalExp f c) res
       | _ => addEasy f none (normalExp f c) res)
    | .fdiv => isZN ca && cb == .N && (zeroBits f res || normalBits f res)
    | .frcp => ca == .N && decide ((exponentOf va).natAbs ≤ (if sty = 13 then 100 else 1000))
    | .frsq => ca == .N && !va.isNeg && decide ((exponentOf va).natAbs ≤ (if sty = 13 then 100 else 1000))
    | .fsqrt => ca == .Z || (ca == .N && !va.isNeg)
    | .fexp => ca == .Z || (ca == .N && magnitudeAtMost va 80 false)
    | .flog => ca == .N && !va.isNeg
    | .fsin | .fcos => ca == .Z || (ca == .N && magnitudeAtMost va (2 ^ 12) true)
    | .fcvt => isZN ca && (!isFloat ty || zeroBits (fmtOf ty) res || normalBits (fmtOf ty) res)
    | .fmin | .fmax => ca != .S && ca != .Q && cb != .S && cb != .Q
    | .fwmul => isZN ca && isZN cb
    | _ => true
  within && flags &&& (OF + UF + DZ + NV) == 0

/-! Relations -/

/-- a < b for two values that are not NaN, with −0 equal to +0 (R97). -/
def fpBelow (a b : FVal) : Bool :=
  match a, b with
  | .zero _, .zero _ => false
  | a, b => fpLess a b

/-- The relation of FCMP and VFCMP, and NV (R97, R281): 0 EQ, 1 LT, 2 LE, 3 UNORD. -/
def fpRelation (cc : Nat) (a b : FVal) : Bool × Nat :=
  let unord := a.isNan || b.isNan
  let quiet := if a.isSnan || b.isSnan then NV else 0
  match cc with
  | 0 => (!unord && !fpBelow a b && !fpBelow b a, quiet)
  | 1 => (!unord && fpBelow a b, if unord then NV else 0)
  | 2 => (!unord && !fpBelow b a, if unord then NV else 0)
  | _ => (unord, quiet)

/-- The relation of CMP and VCMP on `w`-bit patterns (R46, R97): 0 EQ, 1 NE, 2 LT, 3 GE, 4 LTN, 5 GEN. -/
def intRelation (cc w a b : Nat) : Bool :=
  match cc with
  | 0 => a % 2 ^ w == b % 2 ^ w
  | 1 => a % 2 ^ w != b % 2 ^ w
  | 2 => decide (signedOf w a < signedOf w b)
  | 3 => decide (signedOf w b ≤ signedOf w a)
  | 4 => decide (a % 2 ^ w < b % 2 ^ w)
  | _ => decide (b % 2 ^ w ≤ a % 2 ^ w)

/-! Scaled blocks -/

/-- Whether a value is a NaN or an infinity. -/
def FVal.special : FVal → Bool
  | .inf _ => true
  | .nan _ => true
  | _ => false

/-- The scale byte of a block of source values for a target type (R122). -/
def blockScale (target : Nat) (l : List FVal) : Nat :=
  if l.any FVal.special then 255
  else
    let top := l.foldl (fun (m : Option Int) v => match v with
      | .num _ n e => some (match m with
        | none => expOf n e
        | some k => max k (expOf n e))
      | _ => m) none
    match top with
    | none => 127
    | some k =>
      let emax : Int := match target with
        | 8 => 8 | 9 => 15 | _ => 2
      (min (max (k - emax + 127) 0) 254).toNat

/-- A value divided by the scale 2^(s − 127) of its block (R122). -/
def FVal.unscaled (s : Nat) (v : FVal) : FVal :=
  match v with
  | .num n m e => .num n m (e - (s : Int) + 127)
  | v => v

/-- An element of a block with scale byte `s`, and its flags: NV for a NaN or an infinity, else NX at most (R122). -/
def blockElem (target : Nat) (mode : RMode) (rb s : Nat) (v : FVal) : Nat × Nat :=
  if s = 255 then (0, if v.special then NV else 0)
  else
    let v := v.unscaled s
    let (w, f) := encodeFp (fmtOf target) mode rb v
    let w := if f &&& OF != 0 then (if v.isNeg then (fmtOf target).signBit else 0) + (fmtOf target).top else w
    (w, f &&& NX)

/-! Integers -/

/-- An integer element function (R123): operands and result are the bits of a type. -/
def intCompute (fn : LaneFn) (ty a b : Nat) : Nat :=
  let w := intBits ty
  let x := a % 2 ^ w
  let y := b % 2 ^ w
  let sx := signedOf w a
  let sy := signedOf w b
  match fn with
  | .add => wrap w (x + y : Nat)
  | .sub => wrap w (sx - sy)
  | .rsub => wrap w (sy - sx)
  | .mul => wrap w (sx * sy)
  | .mulh => wrap w (sx * sy / (2 ^ w : Nat))
  | .mulhn => x * y / 2 ^ w
  | .and => x &&& y
  | .or => x ||| y
  | .xor => x ^^^ y
  | .shl => wrap w (x * 2 ^ (y % w) : Nat)
  | .shr => x / 2 ^ (y % w)
  | .shra => wrap w (sx / (2 ^ (y % w) : Nat))
  | .min => if sx ≤ sy then x else y
  | .max => if sx ≤ sy then y else x
  | .minn => if x ≤ y then x else y
  | .maxn => if x ≤ y then y else x
  | _ => x

end Sys2Proof.Machine
end

