-- ==== Sys2Proof/WellFormed.lean ====
section
/-! DEFINITION. Well-formed instructions: the code fields that an encoding may hold (R41, R44, R45, R46). A word whose
fields fail these checks is ILLEGAL. The operands of a step with no encoding have
a check of their own. -/

namespace Sys2Proof

/-- The control-register indices that name a register (R259). -/
def ctlKnown (c : BitVec 12) : Bool :=
  let n := c.toNat
  decide (n ≤ 0x005) || (decide (0x008 ≤ n) && decide (n ≤ 0x00C)) ||
  (decide (0x010 ≤ n) && decide (n ≤ 0x013)) || n == 0x018 || n == 0x019 ||
  (decide (0x020 ≤ n) && decide (n ≤ 0x02B)) || (decide (0x030 ≤ n) && decide (n ≤ 0x03B)) ||
  n == 0x040 || n == 0x041 || (decide (0x050 ≤ n) && decide (n ≤ 0x054)) ||
  n == 0x060 || n == 0x061 || (decide (0x0C0 ≤ n) && decide (n ≤ 0x0DF)) ||
  (decide (0x100 ≤ n) && decide (n ≤ 0x108))

/-- The type codes that FCVT converts to or from (R46). -/
def fcvtCode (c : BitVec 5) : Bool :=
  [2, 3, 6, 7, 8, 9, 11, 12, 13, 14].contains (c.toNat % 16)

/-- The format pairs that MMA accepts (R44). -/
def mmaPair (x y : BitVec 4) : Bool :=
  let fp8 : BitVec 4 → Bool := fun t => t == 8 || t == 9
  (fp8 x && fp8 y) || (x == 10 && y == 10) || (x == 10 && fp8 y) || (fp8 x && y == 10) ||
  (x == 12 && y == 12) || (x == 11 && y == 11) || (x == 0 && y == 0)

/-- The formats that MDRAIN accepts (R44). -/
def drainFormat (x : BitVec 4) : Bool :=
  [8, 9, 10, 11, 12].contains x.toNat

/-- Banks 0 to 3 of a core and 8 to 15 of a die exist (R228). -/
def bankExists (b : BitVec 4) : Bool :=
  decide (b.toNat < 4) || decide (8 ≤ b.toNat)

/-- The operand fields hold values that the encoding admits. -/
def Instr.wellFormed : Instr → Bool
  | .add _ _ _ => true
  | .addC _ _ => true
  | .sub _ _ _ => true
  | .and _ _ _ => true
  | .or _ _ _ => true
  | .xor _ _ _ => true
  | .shl _ _ _ => true
  | .shr _ _ _ => true
  | .shra _ _ _ => true
  | .min _ _ _ => true
  | .max _ _ _ => true
  | .minn _ _ _ => true
  | .maxn _ _ _ => true
  | .slt _ _ _ => true
  | .sltn _ _ _ => true
  | .clz _ _ => true
  | .popc _ _ => true
  | .mv _ _ => true
  | .mvC _ _ => true
  | .addi _ _ _ => true
  | .addiC _ _ _ => true
  | .andi _ _ _ => true
  | .ori _ _ _ => true
  | .xori _ _ _ => true
  | .shli _ _ _ => true
  | .shri _ _ _ => true
  | .shrai _ _ _ => true
  | .lih _ _ => true
  | .mul _ _ _ => true
  | .mulh _ _ _ => true
  | .mulhn _ _ _ => true
  | .div _ _ _ => true
  | .divn _ _ _ => true
  | .rem _ _ _ => true
  | .remn _ _ _ => true
  | .faddFp64 _ _ _ => true
  | .fsubFp64 _ _ _ => true
  | .fmulFp64 _ _ _ => true
  | .fdivFp64 _ _ _ => true
  | .fmaFp64 _ _ _ => true
  | .fminFp64 _ _ _ => true
  | .fmaxFp64 _ _ _ => true
  | .fsqrtFp64 _ _ => true
  | .fcvtFp64 _ _ c => fcvtCode c && c.extractLsb' 0 4 != 14#4
  | .faddFp32 _ _ _ => true
  | .fsubFp32 _ _ _ => true
  | .fmulFp32 _ _ _ => true
  | .fdivFp32 _ _ _ => true
  | .fmaFp32 _ _ _ => true
  | .fminFp32 _ _ _ => true
  | .fmaxFp32 _ _ _ => true
  | .fsqrtFp32 _ _ => true
  | .fcvtFp32 _ _ c => fcvtCode c && c.extractLsb' 0 4 != 13#4
  | .cmp _ _ _ c => decide (c.toNat ≤ 5)
  | .fcmpFp64 _ _ _ c => decide (c.toNat ≤ 3)
  | .fcmpFp32 _ _ _ c => decide (c.toNat ≤ 3)
  | .kand _ _ _ => true
  | .kor _ _ _ => true
  | .kxor _ _ _ => true
  | .knot _ _ => true
  | .kfromx _ _ => true
  | .ktox _ _ => true
  | .prep _ _ => true
  | .prepC _ _ _ => true
  | .prepr _ _ => true
  | .mvb _ _ => true
  | .jmp _ => true
  | .jmpC _ => true
  | .br _ _ => true
  | .brC _ _ => true
  | .brn _ _ => true
  | .brnC _ _ => true
  | .call _ => true
  | .invb _ => true
  | .nop => true
  | .nopC => true
  | .trap _ => true
  | .eret => true
  | .halt => true
  | .wait _ _ => true
  | .isync => true
  | .fence kind scope => decide (kind.toNat ≤ 2) && decide (scope.toNat ≤ 5)
  | .bkpt => true
  | .ld _ _ z _ => z != 7
  | .st _ _ z _ => z != 7
  | .ldl _ _ z _ => z != 7
  | .ldlC _ _ => true
  | .stl _ _ z _ => z != 7
  | .stlC _ _ => true
  | .amoAdd _ _ _ _ => true
  | .amoAnd _ _ _ _ => true
  | .amoOr _ _ _ _ => true
  | .amoXor _ _ _ _ => true
  | .amoMin _ _ _ _ => true
  | .amoMax _ _ _ _ => true
  | .amoMinn _ _ _ _ => true
  | .amoMaxn _ _ _ _ => true
  | .amoSwap _ _ _ _ => true
  | .amoCas _ _ _ _ => true
  | .crd _ c => ctlKnown c
  | .crdSync _ c => decide (0x50 ≤ c.toNat) && decide (c.toNat ≤ 0x53)
  | .cwr _ c => ctlKnown c
  | .cset _ c => ctlKnown c && c != 0x102#12
  | .cclr _ c => ctlKnown c && c != 0x102#12
  | .tlbinvVa => true
  | .tlbinvAsid => true
  | .tlbinvAllNonglobal => true
  | .tlbinvAll => true
  | .rstatStopClear => true
  | .mcStatusClear => true
  | .notechWrite => true
  | .enq _ u => decide (u.toNat ≤ 1)
  | .deq _ u => decide (u.toNat ≤ 1)
  | .deqt _ u => decide (u.toNat ≤ 1)
  | .launch _ => true
  | .wqry _ => true
  | .gbar scope => decide (scope.toNat ≤ 2)
  | .exit => true
  | .sdef _ _ => true
  | .sbind _ _ => true
  | .sunb _ => true
  | .chdef _ _ => true
  | .chput _ _ => true
  | .chgetGet _ _ _ => true
  | .chgetPeek => true
  | .chgetTake => true
  | .chgetTail => true
  | .rdef _ => true
  | .rrun _ => true
  | .rfld _ _ => true
  | .rput _ _ _ => true
  | .rspawn _ => true
  | .rres _ _ => true
  | .rkid _ _ _ => true
  | .rdone => true
  | .lnget d => decide (d.toNat % 8 = 0) && d != 0
  | .fill _ _ => true
  | .ftload _ _ => true
  | .pres m _ => m != 0
  | .vsetl _ _ t2 sc ty => sc == 0 || t2 == ty
  | .vgrant _ _ => true
  | .vfork _ _ => true
  | .vjoin _ => true
  | .loop _ _ => true
  | .vexit _ _ => true
  | .vrel _ => true
  | .settle v w n => decide (n.toNat ≤ 2) && (n != 0 || v == 0) && (decide (2 ≤ n.toNat) || w == 0)
  | .vtest _ _ c => decide (c.toNat ≤ 2)
  | .vadd _ _ _ _ => true
  | .vsub _ _ _ _ => true
  | .vrsub _ _ _ _ => true
  | .vmul _ _ _ _ => true
  | .vmulh _ _ _ _ => true
  | .vmulhn _ _ _ _ => true
  | .vand _ _ _ _ => true
  | .vor _ _ _ _ => true
  | .vxor _ _ _ _ => true
  | .vshl _ _ _ _ => true
  | .vshr _ _ _ _ => true
  | .vshra _ _ _ _ => true
  | .vmin _ _ _ _ => true
  | .vmax _ _ _ _ => true
  | .vminn _ _ _ _ => true
  | .vmaxn _ _ _ _ => true
  | .vmerge _ _ _ _ => true
  | .vadc _ _ _ m => m != 0
  | .vsbc _ _ _ m => m != 0
  | .vwmul _ _ _ _ => true
  | .vaddX _ _ _ _ => true
  | .vsubX _ _ _ _ => true
  | .vrsubX _ _ _ _ => true
  | .vmulX _ _ _ _ => true
  | .vmulhX _ _ _ _ => true
  | .vmulhnX _ _ _ _ => true
  | .vandX _ _ _ _ => true
  | .vorX _ _ _ _ => true
  | .vxorX _ _ _ _ => true
  | .vshlX _ _ _ _ => true
  | .vshrX _ _ _ _ => true
  | .vshraX _ _ _ _ => true
  | .vminX _ _ _ _ => true
  | .vmaxX _ _ _ _ => true
  | .vminnX _ _ _ _ => true
  | .vmaxnX _ _ _ _ => true
  | .vmergeX _ _ _ _ => true
  | .vadcX _ _ _ m => m != 0
  | .vsbcX _ _ _ m => m != 0
  | .vwmulX _ _ _ _ => true
  | .vfadd _ _ _ _ => true
  | .vfsub _ _ _ _ => true
  | .vfmul _ _ _ _ => true
  | .vfma _ _ _ _ => true
  | .vfmin _ _ _ _ => true
  | .vfmax _ _ _ _ => true
  | .vfdiv _ _ _ _ => true
  | .vfrcp _ _ _ => true
  | .vfrsq _ _ _ => true
  | .vfsqrt _ _ _ => true
  | .vfexp _ _ _ => true
  | .vflog _ _ _ => true
  | .vfsin _ _ _ => true
  | .vfcos _ _ _ => true
  | .vfcvt _ _ g _ => decide (g.toNat ≤ 14)
  | .vfwmul _ _ _ _ => true
  | .vfaddX _ _ _ _ => true
  | .vfsubX _ _ _ _ => true
  | .vfmulX _ _ _ _ => true
  | .vfmaX _ _ _ _ => true
  | .vfminX _ _ _ _ => true
  | .vfmaxX _ _ _ _ => true
  | .vfdivX _ _ _ _ => true
  | .vcmp d _ _ _ c => d != 0 && decide (c.toNat ≤ 5)
  | .vfcmp d _ _ _ c => d != 0 && decide (c.toNat ≤ 3)
  | .vcmpX d _ _ _ c => d != 0 && decide (c.toNat ≤ 5)
  | .vfcmpX d _ _ _ c => d != 0 && decide (c.toNat ≤ 3)
  | .mand d _ _ => d != 0
  | .mor d _ _ => d != 0
  | .mxor d _ _ => d != 0
  | .mnot d _ => d != 0
  | .mshl d _ _ => d != 0
  | .mpop _ _ => true
  | .mfirst _ _ => true
  | .mlast _ _ => true
  | .mset d => d != 0
  | .mclr d => d != 0
  | .vgath _ _ _ _ => true
  | .vcomp _ _ _ => true
  | .vxpnd _ _ _ => true
  | .vred _ _ k _ => decide (k.toNat ≤ 5)
  | .vredXd _ _ k _ => decide (k.toNat ≤ 5)
  | .vscan _ _ k _ => decide (k.toNat ≤ 5)
  | .vslideupZero _ _ _ _ => true
  | .vslideupOne _ _ _ _ => true
  | .vslideupKeep _ _ _ _ => true
  | .vslidednZero _ _ _ _ => true
  | .vslidednOne _ _ _ _ => true
  | .vslidednKeep _ _ _ _ => true
  | .vmvx _ _ _ => true
  | .vmvs _ _ _ => true
  | .vsplat _ _ _ => true
  | .vld _ _ _ o => decide (o.toNat ≤ 1)
  | .vlds _ _ _ _ o => decide (o.toNat ≤ 1)
  | .vldx _ _ _ _ o => decide (o.toNat ≤ 1)
  | .vst _ _ _ o => decide (o.toNat ≤ 1)
  | .vsts _ _ _ _ o => decide (o.toNat ≤ 1)
  | .vstx _ _ _ _ o => decide (o.toNat ≤ 1)
  | .awin _ _ o => decide (o.toNat ≤ 3)
  | .vamo _ _ => true
  | .amerge => true
  | .vrand _ _ => true
  | .hint => true
  | .illegalEncoding => true
  | .tsetl _ _ _ _ _ => true
  | .tclaim _ _ => true
  | .tfree => true
  | .tld _ _ _ => true
  | .tst _ _ _ => true
  | .tldp _ _ _ => true
  | .tzero _ => true
  | .tmvr _ _ _ => true
  | .tmvc _ _ _ => true
  | .mma _ _ _ fmtA fmtB => mmaPair fmtA fmtB
  | .mmaC _ _ _ fmtA fmtB => mmaPair fmtA fmtB
  | .mman _ _ _ pA pB => pA != 0 && pB != 0
  | .mdrain _ _ fmtA _ => drainFormat fmtA
  | .azero _ => true
  | .targetPrefetchDone => true
  | .storeElementCommit => true
  | .replayComplete => true
  | .copy => true
  | .copyFill => true
  | .reduce => true
  | .allReduce => true
  | .allGather => true
  | .broadcast => true
  | .heatThreshold => true
  | .heatNotificationSend => true
  | .waitWakeup => true
  | .waitTimeout => true
  | .launchWindowStore => true
  | .hypervisorLaunchStore => true
  | .wharfAdmit => true
  | .waitCounterRead => true
  | .usageCharge => true
  | .groupEnd => true
  | .wqryAnswer => true
  | .hostPreempt => true
  | .preempt => true
  | .restore => true
  | .correctedError => true
  | .ceThreshold => true
  | .containedError => true
  | .fatalError => true
  | .ucieLinkDown => true
  | .peerLinkDown => true
  | .selfTestRequest => true
  | .selfTestComplete => true
  | .pctlRequest => true
  | .powerStateChange => true
  | .pctlTripClear => true
  | .thermalTrip => true
  | .serdesStateSet => true
  | .deviceReset => true
  | .functionReady => true
  | .registerWindowWrite => true
  | .hostNmRead => true
  | .hostNmWrite => true
  | .getVersion => true
  | .getCapabilities => true
  | .negotiateAlgorithms => true
  | .getDigests => true
  | .getCertificate => true
  | .challenge => true
  | .getMeasurements => true
  | .spdmUnsupportedRequest => true
  | .dbgctlStop => true
  | .dbgctlRun => true
  | .counterBankClaim => true
  | .counterBankRelease => true
  | .counterOverflow => true
  | .pcReasonCycleCount => true
  | .peerAccessToNearMemory => true

/-- The operands of a step with no encoding name cores, harts and banks that exist, and an illegal encoding has the
bits of its length (R12, R14, R38, R228). -/
def Input.wellFormed (n : Input) : Bool :=
  decide (n.core.toNat < 96) && decide (n.hart.toNat < 6) && decide (n.report.core.toNat < 96) &&
  bankExists n.report.bank && (n.encLen == 0 || n.encLen == 2 || n.encLen == 4 || n.encLen == 8) &&
  decide (n.enc.toNat < 2 ^ (8 * n.encLen.toNat))

end Sys2Proof
end

