-- ==== Sys2Proof/Decode.lean ====
section
/-! DEFINITION. The decoder (R36 to R48), total on every byte list, and after it the encoder and the words that the
encoding tables give for each instruction. -/

namespace Sys2Proof

/-- Why a bit pattern is not an instruction (R47), or was not whole. -/
inductive DecodeError where
  /-- Fewer bytes than the instruction has. -/
  | truncated
  /-- The first halfword's bits [1:0] are 00 (R36). -/
  | lowBitsZero
  /-- No function of the map has these fixed bits: major, function number or a res0 bit (R45, R47). -/
  | noFunction
  /-- A code field holds a value that the encoding refuses (R41, R44, R46). -/
  | refusedField
  /-- The body word of a tile instruction has [1:0] other than 01 or [31:26] other than 0 (R36). -/
  | badBody
  deriving DecidableEq, Repr

/-- Bits [lo + n - 1 : lo] of a word. -/
def bitField (lo n w : Nat) : BitVec n := BitVec.ofNat n (w / 2 ^ lo)

/-- The same bits as a number. -/
def bitsAt (lo n w : Nat) : Nat := w / 2 ^ lo % 2 ^ n

/-- Length in bytes that the first halfword gives (R36); 0 for the pattern 00, which is no instruction. -/
def lengthOf (h : Nat) : Nat :=
  match h % 4 with
  | 0 => 0
  | 1 => 4
  | 2 => 2
  | _ => 8

/-- Major 0x01 (R45). -/
def decodeMajor01 (w : Nat) : Option Instr :=
  if bitsAt 2 6 w = 0 then some (.add (bitField 20 6 w) (bitField 14 6 w) (bitField 8 6 w)) else
  if bitsAt 2 6 w = 1 then some (.sub (bitField 20 6 w) (bitField 14 6 w) (bitField 8 6 w)) else
  if bitsAt 2 6 w = 2 then some (.and (bitField 20 6 w) (bitField 14 6 w) (bitField 8 6 w)) else
  if bitsAt 2 6 w = 3 then some (.or (bitField 20 6 w) (bitField 14 6 w) (bitField 8 6 w)) else
  if bitsAt 2 6 w = 4 then some (.xor (bitField 20 6 w) (bitField 14 6 w) (bitField 8 6 w)) else
  if bitsAt 2 6 w = 5 then some (.shl (bitField 20 6 w) (bitField 14 6 w) (bitField 8 6 w)) else
  if bitsAt 2 6 w = 6 then some (.shr (bitField 20 6 w) (bitField 14 6 w) (bitField 8 6 w)) else
  if bitsAt 2 6 w = 7 then some (.shra (bitField 20 6 w) (bitField 14 6 w) (bitField 8 6 w)) else
  if bitsAt 2 6 w = 8 then some (.min (bitField 20 6 w) (bitField 14 6 w) (bitField 8 6 w)) else
  if bitsAt 2 6 w = 9 then some (.max (bitField 20 6 w) (bitField 14 6 w) (bitField 8 6 w)) else
  if bitsAt 2 6 w = 10 then some (.minn (bitField 20 6 w) (bitField 14 6 w) (bitField 8 6 w)) else
  if bitsAt 2 6 w = 11 then some (.maxn (bitField 20 6 w) (bitField 14 6 w) (bitField 8 6 w)) else
  if bitsAt 2 6 w = 12 then some (.slt (bitField 20 6 w) (bitField 14 6 w) (bitField 8 6 w)) else
  if bitsAt 2 6 w = 13 then some (.sltn (bitField 20 6 w) (bitField 14 6 w) (bitField 8 6 w)) else
  if bitsAt 2 12 w = 14 then some (.clz (bitField 20 6 w) (bitField 14 6 w)) else
  if bitsAt 2 12 w = 15 then some (.popc (bitField 20 6 w) (bitField 14 6 w)) else
  if bitsAt 2 12 w = 16 then some (.mv (bitField 20 6 w) (bitField 14 6 w)) else
  none

/-- Major 0x02 (R45). -/
def decodeMajor02 (w : Nat) : Option Instr :=
  some (.addi (bitField 20 6 w) (bitField 14 6 w) (bitField 2 12 w))

/-- Major 0x03 (R45). -/
def decodeMajor03 (w : Nat) : Option Instr :=
  some (.andi (bitField 20 6 w) (bitField 14 6 w) (bitField 2 12 w))

/-- Major 0x04 (R45). -/
def decodeMajor04 (w : Nat) : Option Instr :=
  some (.ori (bitField 20 6 w) (bitField 14 6 w) (bitField 2 12 w))

/-- Major 0x05 (R45). -/
def decodeMajor05 (w : Nat) : Option Instr :=
  some (.xori (bitField 20 6 w) (bitField 14 6 w) (bitField 2 12 w))

/-- Major 0x06 (R45). -/
def decodeMajor06 (w : Nat) : Option Instr :=
  if bitsAt 8 6 w = 0 then some (.shli (bitField 20 6 w) (bitField 14 6 w) (bitField 2 6 w)) else
  if bitsAt 8 6 w = 1 then some (.shri (bitField 20 6 w) (bitField 14 6 w) (bitField 2 6 w)) else
  if bitsAt 8 6 w = 2 then some (.shrai (bitField 20 6 w) (bitField 14 6 w) (bitField 2 6 w)) else
  none

/-- Major 0x07 (R45). -/
def decodeMajor07 (w : Nat) : Option Instr :=
  some (.lih (bitField 20 6 w) (bitField 2 18 w))

/-- Major 0x08 (R45). -/
def decodeMajor08 (w : Nat) : Option Instr :=
  if bitsAt 2 6 w = 0 then some (.mul (bitField 20 6 w) (bitField 14 6 w) (bitField 8 6 w)) else
  if bitsAt 2 6 w = 1 then some (.mulh (bitField 20 6 w) (bitField 14 6 w) (bitField 8 6 w)) else
  if bitsAt 2 6 w = 2 then some (.mulhn (bitField 20 6 w) (bitField 14 6 w) (bitField 8 6 w)) else
  if bitsAt 2 6 w = 3 then some (.div (bitField 20 6 w) (bitField 14 6 w) (bitField 8 6 w)) else
  if bitsAt 2 6 w = 4 then some (.divn (bitField 20 6 w) (bitField 14 6 w) (bitField 8 6 w)) else
  if bitsAt 2 6 w = 5 then some (.rem (bitField 20 6 w) (bitField 14 6 w) (bitField 8 6 w)) else
  if bitsAt 2 6 w = 6 then some (.remn (bitField 20 6 w) (bitField 14 6 w) (bitField 8 6 w)) else
  none

/-- Major 0x09 (R45). -/
def decodeMajor09 (w : Nat) : Option Instr :=
  if bitsAt 2 6 w = 0 then some (.faddFp64 (bitField 20 6 w) (bitField 14 6 w) (bitField 8 6 w)) else
  if bitsAt 2 6 w = 1 then some (.fsubFp64 (bitField 20 6 w) (bitField 14 6 w) (bitField 8 6 w)) else
  if bitsAt 2 6 w = 2 then some (.fmulFp64 (bitField 20 6 w) (bitField 14 6 w) (bitField 8 6 w)) else
  if bitsAt 2 6 w = 3 then some (.fdivFp64 (bitField 20 6 w) (bitField 14 6 w) (bitField 8 6 w)) else
  if bitsAt 2 6 w = 4 then some (.fmaFp64 (bitField 20 6 w) (bitField 14 6 w) (bitField 8 6 w)) else
  if bitsAt 2 6 w = 5 then some (.fminFp64 (bitField 20 6 w) (bitField 14 6 w) (bitField 8 6 w)) else
  if bitsAt 2 6 w = 6 then some (.fmaxFp64 (bitField 20 6 w) (bitField 14 6 w) (bitField 8 6 w)) else
  if bitsAt 2 12 w = 7 then some (.fsqrtFp64 (bitField 20 6 w) (bitField 14 6 w)) else
  if bitsAt 2 6 w = 8 ∧ bitsAt 13 1 w = 0 then some (.fcvtFp64 (bitField 20 6 w) (bitField 14 6 w) (bitField 8 5 w)) else
  if bitsAt 2 6 w = 32 then some (.faddFp32 (bitField 20 6 w) (bitField 14 6 w) (bitField 8 6 w)) else
  if bitsAt 2 6 w = 33 then some (.fsubFp32 (bitField 20 6 w) (bitField 14 6 w) (bitField 8 6 w)) else
  if bitsAt 2 6 w = 34 then some (.fmulFp32 (bitField 20 6 w) (bitField 14 6 w) (bitField 8 6 w)) else
  if bitsAt 2 6 w = 35 then some (.fdivFp32 (bitField 20 6 w) (bitField 14 6 w) (bitField 8 6 w)) else
  if bitsAt 2 6 w = 36 then some (.fmaFp32 (bitField 20 6 w) (bitField 14 6 w) (bitField 8 6 w)) else
  if bitsAt 2 6 w = 37 then some (.fminFp32 (bitField 20 6 w) (bitField 14 6 w) (bitField 8 6 w)) else
  if bitsAt 2 6 w = 38 then some (.fmaxFp32 (bitField 20 6 w) (bitField 14 6 w) (bitField 8 6 w)) else
  if bitsAt 2 12 w = 39 then some (.fsqrtFp32 (bitField 20 6 w) (bitField 14 6 w)) else
  if bitsAt 2 6 w = 40 ∧ bitsAt 13 1 w = 0 then some (.fcvtFp32 (bitField 20 6 w) (bitField 14 6 w) (bitField 8 5 w)) else
  none

/-- Major 0x0A (R45). -/
def decodeMajor0A (w : Nat) : Option Instr :=
  if bitsAt 2 3 w = 0 ∧ bitsAt 23 3 w = 0 then some (.cmp (bitField 20 3 w) (bitField 14 6 w) (bitField 8 6 w) (bitField 5 3 w)) else
  none

/-- Major 0x0B (R45). -/
def decodeMajor0B (w : Nat) : Option Instr :=
  if bitsAt 2 3 w = 0 ∧ bitsAt 23 3 w = 0 then some (.fcmpFp64 (bitField 20 3 w) (bitField 14 6 w) (bitField 8 6 w) (bitField 5 3 w)) else
  if bitsAt 2 3 w = 1 ∧ bitsAt 23 3 w = 0 then some (.fcmpFp32 (bitField 20 3 w) (bitField 14 6 w) (bitField 8 6 w) (bitField 5 3 w)) else
  none

/-- Major 0x0C (R45). -/
def decodeMajor0C (w : Nat) : Option Instr :=
  if bitsAt 2 6 w = 0 ∧ bitsAt 11 3 w = 0 ∧ bitsAt 17 3 w = 0 ∧ bitsAt 23 3 w = 0 then some (.kand (bitField 20 3 w) (bitField 14 3 w) (bitField 8 3 w)) else
  if bitsAt 2 6 w = 1 ∧ bitsAt 11 3 w = 0 ∧ bitsAt 17 3 w = 0 ∧ bitsAt 23 3 w = 0 then some (.kor (bitField 20 3 w) (bitField 14 3 w) (bitField 8 3 w)) else
  if bitsAt 2 6 w = 2 ∧ bitsAt 11 3 w = 0 ∧ bitsAt 17 3 w = 0 ∧ bitsAt 23 3 w = 0 then some (.kxor (bitField 20 3 w) (bitField 14 3 w) (bitField 8 3 w)) else
  if bitsAt 2 12 w = 3 ∧ bitsAt 17 3 w = 0 ∧ bitsAt 23 3 w = 0 then some (.knot (bitField 20 3 w) (bitField 14 3 w)) else
  if bitsAt 2 12 w = 4 ∧ bitsAt 23 3 w = 0 then some (.kfromx (bitField 20 3 w) (bitField 14 6 w)) else
  if bitsAt 2 6 w = 5 ∧ bitsAt 11 3 w = 0 ∧ bitsAt 20 6 w = 0 then some (.ktox (bitField 14 6 w) (bitField 8 3 w)) else
  none

/-- Major 0x0D (R45). -/
def decodeMajor0D (w : Nat) : Option Instr :=
  some (.prep (bitField 23 3 w) (bitField 2 21 w))

/-- Major 0x0E (R45). -/
def decodeMajor0E (w : Nat) : Option Instr :=
  if bitsAt 2 12 w = 0 ∧ bitsAt 20 3 w = 0 then some (.prepr (bitField 23 3 w) (bitField 14 6 w)) else
  if bitsAt 2 12 w = 1 ∧ bitsAt 20 3 w = 0 then some (.mvb (bitField 23 3 w) (bitField 14 6 w)) else
  if bitsAt 2 21 w = 2 then some (.jmp (bitField 23 3 w)) else
  if bitsAt 2 18 w = 3 then some (.br (bitField 23 3 w) (bitField 20 3 w)) else
  if bitsAt 2 18 w = 11 then some (.brn (bitField 23 3 w) (bitField 20 3 w)) else
  if bitsAt 2 21 w = 4 then some (.call (bitField 23 3 w)) else
  if bitsAt 2 21 w = 5 then some (.invb (bitField 23 3 w)) else
  none

/-- Major 0x0F (R45). -/
def decodeMajor0F (w : Nat) : Option Instr :=
  if bitsAt 2 24 w = 0 then some (.nop) else
  if bitsAt 2 6 w = 1 ∧ bitsAt 14 12 w = 0 then some (.trap (bitField 8 6 w)) else
  if bitsAt 2 24 w = 2 then some (.eret) else
  if bitsAt 2 24 w = 3 then some (.halt) else
  if bitsAt 2 6 w = 4 ∧ bitsAt 20 6 w = 0 then some (.wait (bitField 14 6 w) (bitField 8 6 w)) else
  if bitsAt 2 24 w = 5 then some (.isync) else
  if bitsAt 2 18 w = 6 ∧ bitsAt 25 1 w = 0 then some (.fence (bitField 23 2 w) (bitField 20 3 w)) else
  if bitsAt 2 24 w = 7 then some (.bkpt) else
  none

/-- Major 0x10 (R45). -/
def decodeMajor10 (w : Nat) : Option Instr :=
  some (.ld (bitField 20 6 w) (bitField 14 6 w) (bitField 11 3 w) (bitField 2 9 w))

/-- Major 0x11 (R45). -/
def decodeMajor11 (w : Nat) : Option Instr :=
  some (.st (bitField 20 6 w) (bitField 14 6 w) (bitField 11 3 w) (bitField 2 9 w))

/-- Major 0x12 (R45). -/
def decodeMajor12 (w : Nat) : Option Instr :=
  some (.ldl (bitField 20 6 w) (bitField 14 6 w) (bitField 11 3 w) (bitField 2 9 w))

/-- Major 0x13 (R45). -/
def decodeMajor13 (w : Nat) : Option Instr :=
  some (.stl (bitField 20 6 w) (bitField 14 6 w) (bitField 11 3 w) (bitField 2 9 w))

/-- Major 0x14 (R45). -/
def decodeMajor14 (w : Nat) : Option Instr :=
  if bitsAt 4 4 w = 0 then some (.amoAdd (bitField 20 6 w) (bitField 14 6 w) (bitField 8 6 w) (bitField 2 2 w)) else
  if bitsAt 4 4 w = 1 then some (.amoAnd (bitField 20 6 w) (bitField 14 6 w) (bitField 8 6 w) (bitField 2 2 w)) else
  if bitsAt 4 4 w = 2 then some (.amoOr (bitField 20 6 w) (bitField 14 6 w) (bitField 8 6 w) (bitField 2 2 w)) else
  if bitsAt 4 4 w = 3 then some (.amoXor (bitField 20 6 w) (bitField 14 6 w) (bitField 8 6 w) (bitField 2 2 w)) else
  if bitsAt 4 4 w = 4 then some (.amoMin (bitField 20 6 w) (bitField 14 6 w) (bitField 8 6 w) (bitField 2 2 w)) else
  if bitsAt 4 4 w = 5 then some (.amoMax (bitField 20 6 w) (bitField 14 6 w) (bitField 8 6 w) (bitField 2 2 w)) else
  if bitsAt 4 4 w = 6 then some (.amoMinn (bitField 20 6 w) (bitField 14 6 w) (bitField 8 6 w) (bitField 2 2 w)) else
  if bitsAt 4 4 w = 7 then some (.amoMaxn (bitField 20 6 w) (bitField 14 6 w) (bitField 8 6 w) (bitField 2 2 w)) else
  if bitsAt 4 4 w = 8 then some (.amoSwap (bitField 20 6 w) (bitField 14 6 w) (bitField 8 6 w) (bitField 2 2 w)) else
  if bitsAt 4 4 w = 9 then some (.amoCas (bitField 20 6 w) (bitField 14 6 w) (bitField 8 6 w) (bitField 2 2 w)) else
  none

/-- Major 0x15 (R45). -/
def decodeMajor15 (w : Nat) : Option Instr :=
  if bitsAt 2 6 w = 0 then some (.crd (bitField 20 6 w) (bitField 8 12 w)) else
  if bitsAt 2 6 w = 32 then some (.crdSync (bitField 20 6 w) (bitField 8 12 w)) else
  if bitsAt 2 6 w = 1 then some (.cwr (bitField 20 6 w) (bitField 8 12 w)) else
  if bitsAt 2 6 w = 2 then some (.cset (bitField 20 6 w) (bitField 8 12 w)) else
  if bitsAt 2 6 w = 3 then some (.cclr (bitField 20 6 w) (bitField 8 12 w)) else
  none

/-- Major 0x16 (R45). -/
def decodeMajor16 (w : Nat) : Option Instr :=
  if bitsAt 2 8 w = 0 ∧ bitsAt 20 6 w = 0 then some (.enq (bitField 14 6 w) (bitField 10 4 w)) else
  if bitsAt 2 8 w = 1 ∧ bitsAt 14 6 w = 0 then some (.deq (bitField 20 6 w) (bitField 10 4 w)) else
  if bitsAt 2 8 w = 2 ∧ bitsAt 14 6 w = 0 then some (.deqt (bitField 20 6 w) (bitField 10 4 w)) else
  none

/-- Major 0x17 (R45). -/
def decodeMajor17 (w : Nat) : Option Instr :=
  if bitsAt 2 12 w = 0 ∧ bitsAt 20 6 w = 0 then some (.launch (bitField 14 6 w)) else
  if bitsAt 2 8 w = 1 ∧ bitsAt 14 12 w = 0 then some (.wqry (bitField 10 4 w)) else
  if bitsAt 2 8 w = 2 ∧ bitsAt 14 12 w = 0 then some (.gbar (bitField 10 4 w)) else
  if bitsAt 2 24 w = 3 then some (.exit) else
  none

/-- Major 0x18 (R45). -/
def decodeMajor18 (w : Nat) : Option Instr :=
  if bitsAt 2 8 w = 0 ∧ bitsAt 13 1 w = 0 ∧ bitsAt 20 6 w = 0 then some (.sdef (bitField 14 6 w) (bitField 10 3 w)) else
  if bitsAt 2 8 w = 1 ∧ bitsAt 13 7 w = 0 ∧ bitsAt 25 1 w = 0 then some (.sbind (bitField 20 5 w) (bitField 10 3 w)) else
  if bitsAt 2 8 w = 2 ∧ bitsAt 13 13 w = 0 then some (.sunb (bitField 10 3 w)) else
  if bitsAt 2 8 w = 3 ∧ bitsAt 20 6 w = 0 then some (.chdef (bitField 14 6 w) (bitField 10 4 w)) else
  if bitsAt 2 8 w = 4 ∧ bitsAt 20 6 w = 0 then some (.chput (bitField 14 6 w) (bitField 10 4 w)) else
  if bitsAt 2 8 w = 5 then some (.chgetGet (bitField 20 6 w) (bitField 14 6 w) (bitField 10 4 w)) else
  none

/-- Major 0x19 (R45). -/
def decodeMajor19 (w : Nat) : Option Instr :=
  if bitsAt 2 12 w = 0 ∧ bitsAt 20 6 w = 0 then some (.rdef (bitField 14 6 w)) else
  if bitsAt 2 12 w = 1 ∧ bitsAt 20 6 w = 0 then some (.rrun (bitField 14 6 w)) else
  if bitsAt 2 12 w = 2 ∧ bitsAt 25 1 w = 0 then some (.rfld (bitField 20 5 w) (bitField 14 6 w)) else
  if bitsAt 2 8 w = 3 ∧ bitsAt 13 1 w = 0 ∧ bitsAt 25 1 w = 0 then some (.rput (bitField 20 5 w) (bitField 14 6 w) (bitField 10 3 w)) else
  if bitsAt 2 18 w = 4 ∧ bitsAt 25 1 w = 0 then some (.rspawn (bitField 20 5 w)) else
  if bitsAt 2 12 w = 5 ∧ bitsAt 25 1 w = 0 then some (.rres (bitField 20 5 w) (bitField 14 6 w)) else
  if bitsAt 2 8 w = 6 ∧ bitsAt 13 1 w = 0 ∧ bitsAt 25 1 w = 0 then some (.rkid (bitField 20 5 w) (bitField 14 6 w) (bitField 10 3 w)) else
  if bitsAt 2 24 w = 7 then some (.rdone) else
  none

/-- Major 0x1A (R45). -/
def decodeMajor1A (w : Nat) : Option Instr :=
  if bitsAt 2 18 w = 0 then some (.lnget (bitField 20 6 w)) else
  if bitsAt 2 12 w = 1 then some (.fill (bitField 20 6 w) (bitField 14 6 w)) else
  if bitsAt 2 12 w = 2 then some (.ftload (bitField 20 6 w) (bitField 14 6 w)) else
  if bitsAt 2 12 w = 3 ∧ bitsAt 19 1 w = 0 ∧ bitsAt 23 3 w = 0 then some (.pres (bitField 20 3 w) (bitField 14 5 w)) else
  none

/-- Major 0x20 (R45). -/
def decodeMajor20 (w : Nat) : Option Instr :=
  if bitsAt 7 3 w = 0 then some (.vsetl (bitField 20 6 w) (bitField 14 6 w) (bitField 10 4 w) (bitField 6 1 w) (bitField 2 4 w)) else
  none

/-- Major 0x21 (R45). -/
def decodeMajor21 (w : Nat) : Option Instr :=
  if bitsAt 2 12 w = 0 then some (.vgrant (bitField 20 6 w) (bitField 14 6 w)) else
  if bitsAt 2 8 w = 1 ∧ bitsAt 13 7 w = 0 then some (.vfork (bitField 20 6 w) (bitField 10 3 w)) else
  if bitsAt 2 12 w = 2 ∧ bitsAt 20 6 w = 0 then some (.vjoin (bitField 14 6 w)) else
  if bitsAt 2 8 w = 3 ∧ bitsAt 20 6 w = 0 then some (.loop (bitField 14 6 w) (bitField 10 4 w)) else
  if bitsAt 2 8 w = 4 ∧ bitsAt 11 9 w = 0 ∧ bitsAt 23 3 w = 0 then some (.vexit (bitField 20 3 w) (bitField 10 1 w)) else
  if bitsAt 2 18 w = 5 ∧ bitsAt 25 1 w = 0 then some (.vrel (bitField 20 5 w)) else
  if bitsAt 2 8 w = 6 ∧ bitsAt 19 1 w = 0 ∧ bitsAt 25 1 w = 0 then some (.settle (bitField 20 5 w) (bitField 14 5 w) (bitField 10 4 w)) else
  if bitsAt 2 8 w = 7 ∧ bitsAt 17 3 w = 0 ∧ bitsAt 23 3 w = 0 then some (.vtest (bitField 20 3 w) (bitField 14 3 w) (bitField 10 4 w)) else
  none

/-- Major 0x22 (R45). -/
def decodeMajor22 (w : Nat) : Option Instr :=
  if bitsAt 2 6 w = 0 then some (.vadd (bitField 21 5 w) (bitField 16 5 w) (bitField 11 5 w) (bitField 8 3 w)) else
  if bitsAt 2 6 w = 1 then some (.vsub (bitField 21 5 w) (bitField 16 5 w) (bitField 11 5 w) (bitField 8 3 w)) else
  if bitsAt 2 6 w = 2 then some (.vrsub (bitField 21 5 w) (bitField 16 5 w) (bitField 11 5 w) (bitField 8 3 w)) else
  if bitsAt 2 6 w = 3 then some (.vmul (bitField 21 5 w) (bitField 16 5 w) (bitField 11 5 w) (bitField 8 3 w)) else
  if bitsAt 2 6 w = 4 then some (.vmulh (bitField 21 5 w) (bitField 16 5 w) (bitField 11 5 w) (bitField 8 3 w)) else
  if bitsAt 2 6 w = 5 then some (.vmulhn (bitField 21 5 w) (bitField 16 5 w) (bitField 11 5 w) (bitField 8 3 w)) else
  if bitsAt 2 6 w = 6 then some (.vand (bitField 21 5 w) (bitField 16 5 w) (bitField 11 5 w) (bitField 8 3 w)) else
  if bitsAt 2 6 w = 7 then some (.vor (bitField 21 5 w) (bitField 16 5 w) (bitField 11 5 w) (bitField 8 3 w)) else
  if bitsAt 2 6 w = 8 then some (.vxor (bitField 21 5 w) (bitField 16 5 w) (bitField 11 5 w) (bitField 8 3 w)) else
  if bitsAt 2 6 w = 9 then some (.vshl (bitField 21 5 w) (bitField 16 5 w) (bitField 11 5 w) (bitField 8 3 w)) else
  if bitsAt 2 6 w = 10 then some (.vshr (bitField 21 5 w) (bitField 16 5 w) (bitField 11 5 w) (bitField 8 3 w)) else
  if bitsAt 2 6 w = 11 then some (.vshra (bitField 21 5 w) (bitField 16 5 w) (bitField 11 5 w) (bitField 8 3 w)) else
  if bitsAt 2 6 w = 12 then some (.vmin (bitField 21 5 w) (bitField 16 5 w) (bitField 11 5 w) (bitField 8 3 w)) else
  if bitsAt 2 6 w = 13 then some (.vmax (bitField 21 5 w) (bitField 16 5 w) (bitField 11 5 w) (bitField 8 3 w)) else
  if bitsAt 2 6 w = 14 then some (.vminn (bitField 21 5 w) (bitField 16 5 w) (bitField 11 5 w) (bitField 8 3 w)) else
  if bitsAt 2 6 w = 15 then some (.vmaxn (bitField 21 5 w) (bitField 16 5 w) (bitField 11 5 w) (bitField 8 3 w)) else
  if bitsAt 2 6 w = 16 then some (.vmerge (bitField 21 5 w) (bitField 16 5 w) (bitField 11 5 w) (bitField 8 3 w)) else
  if bitsAt 2 6 w = 17 then some (.vadc (bitField 21 5 w) (bitField 16 5 w) (bitField 11 5 w) (bitField 8 3 w)) else
  if bitsAt 2 6 w = 18 then some (.vsbc (bitField 21 5 w) (bitField 16 5 w) (bitField 11 5 w) (bitField 8 3 w)) else
  if bitsAt 2 6 w = 19 then some (.vwmul (bitField 21 5 w) (bitField 16 5 w) (bitField 11 5 w) (bitField 8 3 w)) else
  none

/-- Major 0x23 (R45). -/
def decodeMajor23 (w : Nat) : Option Instr :=
  if bitsAt 2 5 w = 0 then some (.vaddX (bitField 21 5 w) (bitField 16 5 w) (bitField 10 6 w) (bitField 7 3 w)) else
  if bitsAt 2 5 w = 1 then some (.vsubX (bitField 21 5 w) (bitField 16 5 w) (bitField 10 6 w) (bitField 7 3 w)) else
  if bitsAt 2 5 w = 2 then some (.vrsubX (bitField 21 5 w) (bitField 16 5 w) (bitField 10 6 w) (bitField 7 3 w)) else
  if bitsAt 2 5 w = 3 then some (.vmulX (bitField 21 5 w) (bitField 16 5 w) (bitField 10 6 w) (bitField 7 3 w)) else
  if bitsAt 2 5 w = 4 then some (.vmulhX (bitField 21 5 w) (bitField 16 5 w) (bitField 10 6 w) (bitField 7 3 w)) else
  if bitsAt 2 5 w = 5 then some (.vmulhnX (bitField 21 5 w) (bitField 16 5 w) (bitField 10 6 w) (bitField 7 3 w)) else
  if bitsAt 2 5 w = 6 then some (.vandX (bitField 21 5 w) (bitField 16 5 w) (bitField 10 6 w) (bitField 7 3 w)) else
  if bitsAt 2 5 w = 7 then some (.vorX (bitField 21 5 w) (bitField 16 5 w) (bitField 10 6 w) (bitField 7 3 w)) else
  if bitsAt 2 5 w = 8 then some (.vxorX (bitField 21 5 w) (bitField 16 5 w) (bitField 10 6 w) (bitField 7 3 w)) else
  if bitsAt 2 5 w = 9 then some (.vshlX (bitField 21 5 w) (bitField 16 5 w) (bitField 10 6 w) (bitField 7 3 w)) else
  if bitsAt 2 5 w = 10 then some (.vshrX (bitField 21 5 w) (bitField 16 5 w) (bitField 10 6 w) (bitField 7 3 w)) else
  if bitsAt 2 5 w = 11 then some (.vshraX (bitField 21 5 w) (bitField 16 5 w) (bitField 10 6 w) (bitField 7 3 w)) else
  if bitsAt 2 5 w = 12 then some (.vminX (bitField 21 5 w) (bitField 16 5 w) (bitField 10 6 w) (bitField 7 3 w)) else
  if bitsAt 2 5 w = 13 then some (.vmaxX (bitField 21 5 w) (bitField 16 5 w) (bitField 10 6 w) (bitField 7 3 w)) else
  if bitsAt 2 5 w = 14 then some (.vminnX (bitField 21 5 w) (bitField 16 5 w) (bitField 10 6 w) (bitField 7 3 w)) else
  if bitsAt 2 5 w = 15 then some (.vmaxnX (bitField 21 5 w) (bitField 16 5 w) (bitField 10 6 w) (bitField 7 3 w)) else
  if bitsAt 2 5 w = 16 then some (.vmergeX (bitField 21 5 w) (bitField 16 5 w) (bitField 10 6 w) (bitField 7 3 w)) else
  if bitsAt 2 5 w = 17 then some (.vadcX (bitField 21 5 w) (bitField 16 5 w) (bitField 10 6 w) (bitField 7 3 w)) else
  if bitsAt 2 5 w = 18 then some (.vsbcX (bitField 21 5 w) (bitField 16 5 w) (bitField 10 6 w) (bitField 7 3 w)) else
  if bitsAt 2 5 w = 19 then some (.vwmulX (bitField 21 5 w) (bitField 16 5 w) (bitField 10 6 w) (bitField 7 3 w)) else
  none

/-- Major 0x24 (R45). -/
def decodeMajor24 (w : Nat) : Option Instr :=
  if bitsAt 2 6 w = 0 then some (.vfadd (bitField 21 5 w) (bitField 16 5 w) (bitField 11 5 w) (bitField 8 3 w)) else
  if bitsAt 2 6 w = 1 then some (.vfsub (bitField 21 5 w) (bitField 16 5 w) (bitField 11 5 w) (bitField 8 3 w)) else
  if bitsAt 2 6 w = 2 then some (.vfmul (bitField 21 5 w) (bitField 16 5 w) (bitField 11 5 w) (bitField 8 3 w)) else
  if bitsAt 2 6 w = 3 then some (.vfma (bitField 21 5 w) (bitField 16 5 w) (bitField 11 5 w) (bitField 8 3 w)) else
  if bitsAt 2 6 w = 4 then some (.vfmin (bitField 21 5 w) (bitField 16 5 w) (bitField 11 5 w) (bitField 8 3 w)) else
  if bitsAt 2 6 w = 5 then some (.vfmax (bitField 21 5 w) (bitField 16 5 w) (bitField 11 5 w) (bitField 8 3 w)) else
  if bitsAt 2 6 w = 6 then some (.vfdiv (bitField 21 5 w) (bitField 16 5 w) (bitField 11 5 w) (bitField 8 3 w)) else
  if bitsAt 2 6 w = 7 ∧ bitsAt 11 5 w = 0 then some (.vfrcp (bitField 21 5 w) (bitField 16 5 w) (bitField 8 3 w)) else
  if bitsAt 2 6 w = 8 ∧ bitsAt 11 5 w = 0 then some (.vfrsq (bitField 21 5 w) (bitField 16 5 w) (bitField 8 3 w)) else
  if bitsAt 2 6 w = 9 ∧ bitsAt 11 5 w = 0 then some (.vfsqrt (bitField 21 5 w) (bitField 16 5 w) (bitField 8 3 w)) else
  if bitsAt 2 6 w = 10 ∧ bitsAt 11 5 w = 0 then some (.vfexp (bitField 21 5 w) (bitField 16 5 w) (bitField 8 3 w)) else
  if bitsAt 2 6 w = 11 ∧ bitsAt 11 5 w = 0 then some (.vflog (bitField 21 5 w) (bitField 16 5 w) (bitField 8 3 w)) else
  if bitsAt 2 6 w = 12 ∧ bitsAt 11 5 w = 0 then some (.vfsin (bitField 21 5 w) (bitField 16 5 w) (bitField 8 3 w)) else
  if bitsAt 2 6 w = 13 ∧ bitsAt 11 5 w = 0 then some (.vfcos (bitField 21 5 w) (bitField 16 5 w) (bitField 8 3 w)) else
  if bitsAt 2 6 w = 14 then some (.vfcvt (bitField 21 5 w) (bitField 16 5 w) (bitField 11 5 w) (bitField 8 3 w)) else
  if bitsAt 2 6 w = 15 then some (.vfwmul (bitField 21 5 w) (bitField 16 5 w) (bitField 11 5 w) (bitField 8 3 w)) else
  none

/-- Major 0x25 (R45). -/
def decodeMajor25 (w : Nat) : Option Instr :=
  if bitsAt 2 5 w = 0 then some (.vfaddX (bitField 21 5 w) (bitField 16 5 w) (bitField 10 6 w) (bitField 7 3 w)) else
  if bitsAt 2 5 w = 1 then some (.vfsubX (bitField 21 5 w) (bitField 16 5 w) (bitField 10 6 w) (bitField 7 3 w)) else
  if bitsAt 2 5 w = 2 then some (.vfmulX (bitField 21 5 w) (bitField 16 5 w) (bitField 10 6 w) (bitField 7 3 w)) else
  if bitsAt 2 5 w = 3 then some (.vfmaX (bitField 21 5 w) (bitField 16 5 w) (bitField 10 6 w) (bitField 7 3 w)) else
  if bitsAt 2 5 w = 4 then some (.vfminX (bitField 21 5 w) (bitField 16 5 w) (bitField 10 6 w) (bitField 7 3 w)) else
  if bitsAt 2 5 w = 5 then some (.vfmaxX (bitField 21 5 w) (bitField 16 5 w) (bitField 10 6 w) (bitField 7 3 w)) else
  if bitsAt 2 5 w = 6 then some (.vfdivX (bitField 21 5 w) (bitField 16 5 w) (bitField 10 6 w) (bitField 7 3 w)) else
  none

/-- Major 0x26 (R45). -/
def decodeMajor26 (w : Nat) : Option Instr :=
  if bitsAt 5 3 w = 0 ∧ bitsAt 24 2 w = 0 then some (.vcmp (bitField 21 3 w) (bitField 16 5 w) (bitField 11 5 w) (bitField 8 3 w) (bitField 2 3 w)) else
  if bitsAt 5 3 w = 1 ∧ bitsAt 24 2 w = 0 then some (.vfcmp (bitField 21 3 w) (bitField 16 5 w) (bitField 11 5 w) (bitField 8 3 w) (bitField 2 3 w)) else
  none

/-- Major 0x27 (R45). -/
def decodeMajor27 (w : Nat) : Option Instr :=
  if bitsAt 5 2 w = 0 ∧ bitsAt 24 2 w = 0 then some (.vcmpX (bitField 21 3 w) (bitField 16 5 w) (bitField 10 6 w) (bitField 7 3 w) (bitField 2 3 w)) else
  if bitsAt 5 2 w = 1 ∧ bitsAt 24 2 w = 0 then some (.vfcmpX (bitField 21 3 w) (bitField 16 5 w) (bitField 10 6 w) (bitField 7 3 w) (bitField 2 3 w)) else
  none

/-- Major 0x28 (R45). -/
def decodeMajor28 (w : Nat) : Option Instr :=
  if bitsAt 2 9 w = 0 ∧ bitsAt 14 2 w = 0 ∧ bitsAt 19 2 w = 0 ∧ bitsAt 24 2 w = 0 then some (.mand (bitField 21 3 w) (bitField 16 3 w) (bitField 11 3 w)) else
  if bitsAt 2 9 w = 1 ∧ bitsAt 14 2 w = 0 ∧ bitsAt 19 2 w = 0 ∧ bitsAt 24 2 w = 0 then some (.mor (bitField 21 3 w) (bitField 16 3 w) (bitField 11 3 w)) else
  if bitsAt 2 9 w = 2 ∧ bitsAt 14 2 w = 0 ∧ bitsAt 19 2 w = 0 ∧ bitsAt 24 2 w = 0 then some (.mxor (bitField 21 3 w) (bitField 16 3 w) (bitField 11 3 w)) else
  if bitsAt 2 14 w = 3 ∧ bitsAt 19 2 w = 0 ∧ bitsAt 24 2 w = 0 then some (.mnot (bitField 21 3 w) (bitField 16 3 w)) else
  if bitsAt 2 9 w = 4 ∧ bitsAt 19 2 w = 0 ∧ bitsAt 24 2 w = 0 then some (.mshl (bitField 21 3 w) (bitField 16 3 w) (bitField 11 5 w)) else
  if bitsAt 2 14 w = 5 ∧ bitsAt 19 2 w = 0 then some (.mpop (bitField 21 5 w) (bitField 16 3 w)) else
  if bitsAt 2 14 w = 6 ∧ bitsAt 19 2 w = 0 then some (.mfirst (bitField 21 5 w) (bitField 16 3 w)) else
  if bitsAt 2 14 w = 7 ∧ bitsAt 19 2 w = 0 then some (.mlast (bitField 21 5 w) (bitField 16 3 w)) else
  if bitsAt 2 19 w = 8 ∧ bitsAt 24 2 w = 0 then some (.mset (bitField 21 3 w)) else
  if bitsAt 2 19 w = 9 ∧ bitsAt 24 2 w = 0 then some (.mclr (bitField 21 3 w)) else
  none

/-- Major 0x29 (R45). -/
def decodeMajor29 (w : Nat) : Option Instr :=
  if bitsAt 2 6 w = 0 then some (.vgath (bitField 21 5 w) (bitField 16 5 w) (bitField 11 5 w) (bitField 8 3 w)) else
  if bitsAt 2 6 w = 1 ∧ bitsAt 11 5 w = 0 then some (.vcomp (bitField 21 5 w) (bitField 16 5 w) (bitField 8 3 w)) else
  if bitsAt 2 6 w = 2 ∧ bitsAt 11 5 w = 0 then some (.vxpnd (bitField 21 5 w) (bitField 16 5 w) (bitField 8 3 w)) else
  if bitsAt 2 6 w = 3 ∧ bitsAt 14 2 w = 0 then some (.vred (bitField 21 5 w) (bitField 16 5 w) (bitField 11 3 w) (bitField 8 3 w)) else
  if bitsAt 2 6 w = 3 ∧ bitsAt 14 2 w = 2 then some (.vredXd (bitField 21 5 w) (bitField 16 5 w) (bitField 11 3 w) (bitField 8 3 w)) else
  if bitsAt 2 6 w = 4 ∧ bitsAt 14 2 w = 0 then some (.vscan (bitField 21 5 w) (bitField 16 5 w) (bitField 11 3 w) (bitField 8 3 w)) else
  none

/-- Major 0x2A (R45). -/
def decodeMajor2A (w : Nat) : Option Instr :=
  if bitsAt 2 5 w = 0 then some (.vslideupZero (bitField 21 5 w) (bitField 16 5 w) (bitField 10 6 w) (bitField 7 3 w)) else
  if bitsAt 2 5 w = 1 then some (.vslideupOne (bitField 21 5 w) (bitField 16 5 w) (bitField 10 6 w) (bitField 7 3 w)) else
  if bitsAt 2 5 w = 2 then some (.vslideupKeep (bitField 21 5 w) (bitField 16 5 w) (bitField 10 6 w) (bitField 7 3 w)) else
  if bitsAt 2 5 w = 3 then some (.vslidednZero (bitField 21 5 w) (bitField 16 5 w) (bitField 10 6 w) (bitField 7 3 w)) else
  if bitsAt 2 5 w = 4 then some (.vslidednOne (bitField 21 5 w) (bitField 16 5 w) (bitField 10 6 w) (bitField 7 3 w)) else
  if bitsAt 2 5 w = 5 then some (.vslidednKeep (bitField 21 5 w) (bitField 16 5 w) (bitField 10 6 w) (bitField 7 3 w)) else
  if bitsAt 2 8 w = 6 then some (.vmvx (bitField 21 5 w) (bitField 16 5 w) (bitField 10 6 w)) else
  if bitsAt 2 5 w = 7 ∧ bitsAt 16 5 w = 0 then some (.vmvs (bitField 21 5 w) (bitField 10 6 w) (bitField 7 3 w)) else
  if bitsAt 2 5 w = 8 ∧ bitsAt 16 5 w = 0 then some (.vsplat (bitField 21 5 w) (bitField 10 6 w) (bitField 7 3 w)) else
  none

/-- Major 0x2B (R45). -/
def decodeMajor2B (w : Nat) : Option Instr :=
  if bitsAt 2 2 w = 0 ∧ bitsAt 9 6 w = 0 then some (.vld (bitField 21 5 w) (bitField 15 6 w) (bitField 6 3 w) (bitField 4 2 w)) else
  if bitsAt 2 2 w = 1 then some (.vlds (bitField 21 5 w) (bitField 15 6 w) (bitField 9 6 w) (bitField 6 3 w) (bitField 4 2 w)) else
  if bitsAt 2 2 w = 2 ∧ bitsAt 14 1 w = 0 then some (.vldx (bitField 21 5 w) (bitField 15 6 w) (bitField 9 5 w) (bitField 6 3 w) (bitField 4 2 w)) else
  none

/-- Major 0x2C (R45). -/
def decodeMajor2C (w : Nat) : Option Instr :=
  if bitsAt 2 2 w = 0 ∧ bitsAt 9 6 w = 0 then some (.vst (bitField 21 5 w) (bitField 15 6 w) (bitField 6 3 w) (bitField 4 2 w)) else
  if bitsAt 2 2 w = 1 then some (.vsts (bitField 21 5 w) (bitField 15 6 w) (bitField 9 6 w) (bitField 6 3 w) (bitField 4 2 w)) else
  if bitsAt 2 2 w = 2 ∧ bitsAt 14 1 w = 0 then some (.vstx (bitField 21 5 w) (bitField 15 6 w) (bitField 9 5 w) (bitField 6 3 w) (bitField 4 2 w)) else
  none

/-- Major 0x2D (R45). -/
def decodeMajor2D (w : Nat) : Option Instr :=
  if bitsAt 2 8 w = 0 then some (.awin (bitField 20 6 w) (bitField 14 6 w) (bitField 10 4 w)) else
  if bitsAt 2 12 w = 1 ∧ bitsAt 19 1 w = 0 ∧ bitsAt 25 1 w = 0 then some (.vamo (bitField 20 5 w) (bitField 14 5 w)) else
  if bitsAt 2 24 w = 2 then some (.amerge) else
  none

/-- Major 0x2E (R45). -/
def decodeMajor2E (w : Nat) : Option Instr :=
  if bitsAt 2 6 w = 0 ∧ bitsAt 11 10 w = 0 then some (.vrand (bitField 21 5 w) (bitField 8 3 w)) else
  none

/-- Major 0x3F (R45). -/
def decodeMajor3F (_ : Nat) : Option Instr :=
  some (.hint)

/-- A 32-bit word by its major opcode (R45); a major that is not listed holds no instruction. -/
def decode32 (w : Nat) : Option Instr :=
  match bitsAt 26 6 w with
  | 1 => decodeMajor01 w
  | 2 => decodeMajor02 w
  | 3 => decodeMajor03 w
  | 4 => decodeMajor04 w
  | 5 => decodeMajor05 w
  | 6 => decodeMajor06 w
  | 7 => decodeMajor07 w
  | 8 => decodeMajor08 w
  | 9 => decodeMajor09 w
  | 10 => decodeMajor0A w
  | 11 => decodeMajor0B w
  | 12 => decodeMajor0C w
  | 13 => decodeMajor0D w
  | 14 => decodeMajor0E w
  | 15 => decodeMajor0F w
  | 16 => decodeMajor10 w
  | 17 => decodeMajor11 w
  | 18 => decodeMajor12 w
  | 19 => decodeMajor13 w
  | 20 => decodeMajor14 w
  | 21 => decodeMajor15 w
  | 22 => decodeMajor16 w
  | 23 => decodeMajor17 w
  | 24 => decodeMajor18 w
  | 25 => decodeMajor19 w
  | 26 => decodeMajor1A w
  | 32 => decodeMajor20 w
  | 33 => decodeMajor21 w
  | 34 => decodeMajor22 w
  | 35 => decodeMajor23 w
  | 36 => decodeMajor24 w
  | 37 => decodeMajor25 w
  | 38 => decodeMajor26 w
  | 39 => decodeMajor27 w
  | 40 => decodeMajor28 w
  | 41 => decodeMajor29 w
  | 42 => decodeMajor2A w
  | 43 => decodeMajor2B w
  | 44 => decodeMajor2C w
  | 45 => decodeMajor2D w
  | 46 => decodeMajor2E w
  | 63 => decodeMajor3F w
  | _ => none

/-- A compressed halfword (R42). -/
def decode16 (w : Nat) : Option Instr :=
  if bitsAt 2 1 w = 0 ∧ bitsAt 11 5 w = 1 then some (.addC (bitField 7 4 w) (bitField 3 4 w)) else
  if bitsAt 2 1 w = 0 ∧ bitsAt 11 5 w = 4 then some (.mvC (bitField 7 4 w) (bitField 3 4 w)) else
  if bitsAt 12 4 w = 1 then some (.addiC (bitField 11 1 w) (bitField 7 4 w) (bitField 2 5 w)) else
  if bitsAt 15 1 w = 1 then some (.prepC (bitField 11 4 w) (bitField 8 3 w) (bitField 2 6 w)) else
  if bitsAt 2 6 w = 0 ∧ bitsAt 11 5 w = 7 then some (.jmpC (bitField 8 3 w)) else
  if bitsAt 2 3 w = 0 ∧ bitsAt 11 5 w = 8 then some (.brC (bitField 8 3 w) (bitField 5 3 w)) else
  if bitsAt 2 3 w = 0 ∧ bitsAt 11 5 w = 9 then some (.brnC (bitField 8 3 w) (bitField 5 3 w)) else
  if bitsAt 2 14 w = 0 then some (.nopC) else
  if bitsAt 11 5 w = 5 then some (.ldlC (bitField 7 4 w) (bitField 2 5 w)) else
  if bitsAt 11 5 w = 6 then some (.stlC (bitField 7 4 w) (bitField 2 5 w)) else
  none

/-- Tile major 0x30 (R44), the prefix in bits [31:0] and the body in [63:32]. -/
def decodeTile30 (w : Nat) : Option Instr :=
  if bitsAt 2 1 w = 0 ∧ bitsAt 4 4 w = 0 ∧ bitsAt 12 14 w = 0 ∧ bitsAt 34 6 w = 0 then
    some (.tsetl (bitField 3 1 w) (bitField 8 4 w) (bitField 52 6 w) (bitField 46 6 w) (bitField 40 6 w)) else
  if bitsAt 2 24 w = 2097152 ∧ bitsAt 34 6 w = 0 ∧ bitsAt 52 6 w = 0 then
    some (.tclaim (bitField 46 6 w) (bitField 40 6 w)) else
  if bitsAt 2 24 w = 4194304 ∧ bitsAt 34 24 w = 0 then
    some (.tfree) else
  none

/-- Tile major 0x31 (R44), the prefix in bits [31:0] and the body in [63:32]. -/
def decodeTile31 (w : Nat) : Option Instr :=
  if bitsAt 2 18 w = 0 ∧ bitsAt 23 3 w = 0 ∧ bitsAt 34 6 w = 0 ∧ bitsAt 52 6 w = 0 then
    some (.tld (bitField 20 3 w) (bitField 46 6 w) (bitField 40 6 w)) else
  if bitsAt 2 15 w = 0 ∧ bitsAt 20 6 w = 8 ∧ bitsAt 34 6 w = 0 ∧ bitsAt 52 6 w = 0 then
    some (.tst (bitField 17 3 w) (bitField 46 6 w) (bitField 40 6 w)) else
  if bitsAt 2 18 w = 0 ∧ bitsAt 23 3 w = 2 ∧ bitsAt 34 6 w = 0 ∧ bitsAt 52 6 w = 0 then
    some (.tldp (bitField 20 3 w) (bitField 46 6 w) (bitField 40 6 w)) else
  if bitsAt 2 18 w = 0 ∧ bitsAt 23 3 w = 3 ∧ bitsAt 34 24 w = 0 then
    some (.tzero (bitField 20 3 w)) else
  if bitsAt 2 18 w = 0 ∧ bitsAt 23 3 w = 4 ∧ bitsAt 34 12 w = 0 ∧ bitsAt 57 1 w = 0 then
    some (.tmvr (bitField 20 3 w) (bitField 52 5 w) (bitField 46 6 w)) else
  if bitsAt 2 15 w = 0 ∧ bitsAt 20 6 w = 40 ∧ bitsAt 34 12 w = 0 ∧ bitsAt 57 1 w = 0 then
    some (.tmvc (bitField 17 3 w) (bitField 52 5 w) (bitField 46 6 w)) else
  none

/-- Tile major 0x32 (R44), the prefix in bits [31:0] and the body in [63:32]. -/
def decodeTile32 (w : Nat) : Option Instr :=
  if bitsAt 2 2 w = 0 ∧ bitsAt 20 6 w = 0 ∧ bitsAt 34 24 w = 0 then
    some (.mma (bitField 17 3 w) (bitField 14 3 w) (bitField 12 2 w) (bitField 8 4 w) (bitField 4 4 w)) else
  if bitsAt 2 2 w = 2 ∧ bitsAt 20 6 w = 0 ∧ bitsAt 34 24 w = 0 then
    some (.mmaC (bitField 17 3 w) (bitField 14 3 w) (bitField 12 2 w) (bitField 8 4 w) (bitField 4 4 w)) else
  if bitsAt 2 2 w = 0 ∧ bitsAt 7 1 w = 0 ∧ bitsAt 11 1 w = 0 ∧ bitsAt 20 6 w = 8 ∧ bitsAt 34 24 w = 0 then
    some (.mman (bitField 17 3 w) (bitField 14 3 w) (bitField 12 2 w) (bitField 8 3 w) (bitField 4 3 w)) else
  none

/-- Tile major 0x33 (R44), the prefix in bits [31:0] and the body in [63:32]. -/
def decodeTile33 (w : Nat) : Option Instr :=
  if bitsAt 3 5 w = 0 ∧ bitsAt 14 6 w = 0 ∧ bitsAt 23 3 w = 0 ∧ bitsAt 34 24 w = 0 then
    some (.mdrain (bitField 20 3 w) (bitField 12 2 w) (bitField 8 4 w) (bitField 2 1 w)) else
  if bitsAt 2 10 w = 0 ∧ bitsAt 14 12 w = 512 ∧ bitsAt 34 24 w = 0 then
    some (.azero (bitField 12 2 w)) else
  none

/-- A tile pair whose body word is well placed (R43, R44). -/
def decode64 (w : Nat) : Option Instr :=
  match bitsAt 26 6 w with
  | 48 => decodeTile30 w
  | 49 => decodeTile31 w
  | 50 => decodeTile32 w
  | 51 => decodeTile33 w
  | _ => none

/-- The instruction of `len` bytes whose bits are `w`, its first halfword in [15:0] (R38, R47). -/
def decodeWord (len w : Nat) : Except DecodeError Instr :=
  if len = 0 then .error .lowBitsZero
  else if len = 8 ∧ ¬ (bitsAt 32 2 w = 1 ∧ bitsAt 58 6 w = 0) then .error .badBody
  else
    match (if len = 2 then decode16 w else if len = 4 then decode32 w else decode64 w) with
    | none => .error .noFunction
    | some i => if i.wellFormed then .ok i else .error .refusedField

/-- The number that bytes hold, lowest address first, little-endian (R3). -/
def bytesToNat : List Byte → Nat
  | [] => 0
  | b :: bs => b.toNat + 256 * bytesToNat bs

/-- The `n` low bytes of a number, lowest address first. -/
def natToBytes : Nat → Nat → List Byte
  | 0, _ => []
  | n + 1, w => BitVec.ofNat 8 w :: natToBytes n (w / 256)

/-- The decoder on bytes in address order: the instruction and the bytes after it, or why there is none. -/
def decode (bs : List Byte) : Except DecodeError (Instr × List Byte) :=
  if bs.length < 2 then .error .truncated
  else
    let len := lengthOf (bytesToNat (bs.take 2))
    if bs.length < len then .error .truncated
    else
      match decodeWord len (bytesToNat (bs.take len)) with
      | .error e => .error e
      | .ok i => .ok (i, bs.drop len)

/-- The instruction that the decoder reads from bits numbered as the opcode table numbers them: the first word's
bits are the lowest, and each word is stored little-endian, the first at the lowest address (R3, R36). -/
def decodeTableWord (nbits w : Nat) : Option Instr :=
  match decode (natToBytes 8 (w % 2 ^ nbits)) with
  | .ok (i, _) => some i
  | .error _ => none

/-- Length in bytes of an instruction: 2, 4 or 8, and 0 for a step of another agent, which has no encoding. CHGET_PEEK, CHGET_TAKE
and CHGET_TAIL have the word of CHGET_GET. -/
def Instr.length : Instr → Nat
  | .add _ _ _ => 4
  | .addC _ _ => 2
  | .sub _ _ _ => 4
  | .and _ _ _ => 4
  | .or _ _ _ => 4
  | .xor _ _ _ => 4
  | .shl _ _ _ => 4
  | .shr _ _ _ => 4
  | .shra _ _ _ => 4
  | .min _ _ _ => 4
  | .max _ _ _ => 4
  | .minn _ _ _ => 4
  | .maxn _ _ _ => 4
  | .slt _ _ _ => 4
  | .sltn _ _ _ => 4
  | .clz _ _ => 4
  | .popc _ _ => 4
  | .mv _ _ => 4
  | .mvC _ _ => 2
  | .addi _ _ _ => 4
  | .addiC _ _ _ => 2
  | .andi _ _ _ => 4
  | .ori _ _ _ => 4
  | .xori _ _ _ => 4
  | .shli _ _ _ => 4
  | .shri _ _ _ => 4
  | .shrai _ _ _ => 4
  | .lih _ _ => 4
  | .mul _ _ _ => 4
  | .mulh _ _ _ => 4
  | .mulhn _ _ _ => 4
  | .div _ _ _ => 4
  | .divn _ _ _ => 4
  | .rem _ _ _ => 4
  | .remn _ _ _ => 4
  | .faddFp64 _ _ _ => 4
  | .fsubFp64 _ _ _ => 4
  | .fmulFp64 _ _ _ => 4
  | .fdivFp64 _ _ _ => 4
  | .fmaFp64 _ _ _ => 4
  | .fminFp64 _ _ _ => 4
  | .fmaxFp64 _ _ _ => 4
  | .fsqrtFp64 _ _ => 4
  | .fcvtFp64 _ _ _ => 4
  | .faddFp32 _ _ _ => 4
  | .fsubFp32 _ _ _ => 4
  | .fmulFp32 _ _ _ => 4
  | .fdivFp32 _ _ _ => 4
  | .fmaFp32 _ _ _ => 4
  | .fminFp32 _ _ _ => 4
  | .fmaxFp32 _ _ _ => 4
  | .fsqrtFp32 _ _ => 4
  | .fcvtFp32 _ _ _ => 4
  | .cmp _ _ _ _ => 4
  | .fcmpFp64 _ _ _ _ => 4
  | .fcmpFp32 _ _ _ _ => 4
  | .kand _ _ _ => 4
  | .kor _ _ _ => 4
  | .kxor _ _ _ => 4
  | .knot _ _ => 4
  | .kfromx _ _ => 4
  | .ktox _ _ => 4
  | .prep _ _ => 4
  | .prepC _ _ _ => 2
  | .prepr _ _ => 4
  | .mvb _ _ => 4
  | .jmp _ => 4
  | .jmpC _ => 2
  | .br _ _ => 4
  | .brC _ _ => 2
  | .brn _ _ => 4
  | .brnC _ _ => 2
  | .call _ => 4
  | .invb _ => 4
  | .nop => 4
  | .nopC => 2
  | .trap _ => 4
  | .eret => 4
  | .halt => 4
  | .wait _ _ => 4
  | .isync => 4
  | .fence _ _ => 4
  | .bkpt => 4
  | .ld _ _ _ _ => 4
  | .st _ _ _ _ => 4
  | .ldl _ _ _ _ => 4
  | .ldlC _ _ => 2
  | .stl _ _ _ _ => 4
  | .stlC _ _ => 2
  | .amoAdd _ _ _ _ => 4
  | .amoAnd _ _ _ _ => 4
  | .amoOr _ _ _ _ => 4
  | .amoXor _ _ _ _ => 4
  | .amoMin _ _ _ _ => 4
  | .amoMax _ _ _ _ => 4
  | .amoMinn _ _ _ _ => 4
  | .amoMaxn _ _ _ _ => 4
  | .amoSwap _ _ _ _ => 4
  | .amoCas _ _ _ _ => 4
  | .crd _ _ => 4
  | .crdSync _ _ => 4
  | .cwr _ _ => 4
  | .cset _ _ => 4
  | .cclr _ _ => 4
  | .tlbinvVa => 0
  | .tlbinvAsid => 0
  | .tlbinvAllNonglobal => 0
  | .tlbinvAll => 0
  | .rstatStopClear => 0
  | .mcStatusClear => 0
  | .notechWrite => 0
  | .enq _ _ => 4
  | .deq _ _ => 4
  | .deqt _ _ => 4
  | .launch _ => 4
  | .wqry _ => 4
  | .gbar _ => 4
  | .exit => 4
  | .sdef _ _ => 4
  | .sbind _ _ => 4
  | .sunb _ => 4
  | .chdef _ _ => 4
  | .chput _ _ => 4
  | .chgetGet _ _ _ => 4
  | .chgetPeek => 4
  | .chgetTake => 4
  | .chgetTail => 4
  | .rdef _ => 4
  | .rrun _ => 4
  | .rfld _ _ => 4
  | .rput _ _ _ => 4
  | .rspawn _ => 4
  | .rres _ _ => 4
  | .rkid _ _ _ => 4
  | .rdone => 4
  | .lnget _ => 4
  | .fill _ _ => 4
  | .ftload _ _ => 4
  | .pres _ _ => 4
  | .vsetl _ _ _ _ _ => 4
  | .vgrant _ _ => 4
  | .vfork _ _ => 4
  | .vjoin _ => 4
  | .loop _ _ => 4
  | .vexit _ _ => 4
  | .vrel _ => 4
  | .settle _ _ _ => 4
  | .vtest _ _ _ => 4
  | .vadd _ _ _ _ => 4
  | .vsub _ _ _ _ => 4
  | .vrsub _ _ _ _ => 4
  | .vmul _ _ _ _ => 4
  | .vmulh _ _ _ _ => 4
  | .vmulhn _ _ _ _ => 4
  | .vand _ _ _ _ => 4
  | .vor _ _ _ _ => 4
  | .vxor _ _ _ _ => 4
  | .vshl _ _ _ _ => 4
  | .vshr _ _ _ _ => 4
  | .vshra _ _ _ _ => 4
  | .vmin _ _ _ _ => 4
  | .vmax _ _ _ _ => 4
  | .vminn _ _ _ _ => 4
  | .vmaxn _ _ _ _ => 4
  | .vmerge _ _ _ _ => 4
  | .vadc _ _ _ _ => 4
  | .vsbc _ _ _ _ => 4
  | .vwmul _ _ _ _ => 4
  | .vaddX _ _ _ _ => 4
  | .vsubX _ _ _ _ => 4
  | .vrsubX _ _ _ _ => 4
  | .vmulX _ _ _ _ => 4
  | .vmulhX _ _ _ _ => 4
  | .vmulhnX _ _ _ _ => 4
  | .vandX _ _ _ _ => 4
  | .vorX _ _ _ _ => 4
  | .vxorX _ _ _ _ => 4
  | .vshlX _ _ _ _ => 4
  | .vshrX _ _ _ _ => 4
  | .vshraX _ _ _ _ => 4
  | .vminX _ _ _ _ => 4
  | .vmaxX _ _ _ _ => 4
  | .vminnX _ _ _ _ => 4
  | .vmaxnX _ _ _ _ => 4
  | .vmergeX _ _ _ _ => 4
  | .vadcX _ _ _ _ => 4
  | .vsbcX _ _ _ _ => 4
  | .vwmulX _ _ _ _ => 4
  | .vfadd _ _ _ _ => 4
  | .vfsub _ _ _ _ => 4
  | .vfmul _ _ _ _ => 4
  | .vfma _ _ _ _ => 4
  | .vfmin _ _ _ _ => 4
  | .vfmax _ _ _ _ => 4
  | .vfdiv _ _ _ _ => 4
  | .vfrcp _ _ _ => 4
  | .vfrsq _ _ _ => 4
  | .vfsqrt _ _ _ => 4
  | .vfexp _ _ _ => 4
  | .vflog _ _ _ => 4
  | .vfsin _ _ _ => 4
  | .vfcos _ _ _ => 4
  | .vfcvt _ _ _ _ => 4
  | .vfwmul _ _ _ _ => 4
  | .vfaddX _ _ _ _ => 4
  | .vfsubX _ _ _ _ => 4
  | .vfmulX _ _ _ _ => 4
  | .vfmaX _ _ _ _ => 4
  | .vfminX _ _ _ _ => 4
  | .vfmaxX _ _ _ _ => 4
  | .vfdivX _ _ _ _ => 4
  | .vcmp _ _ _ _ _ => 4
  | .vfcmp _ _ _ _ _ => 4
  | .vcmpX _ _ _ _ _ => 4
  | .vfcmpX _ _ _ _ _ => 4
  | .mand _ _ _ => 4
  | .mor _ _ _ => 4
  | .mxor _ _ _ => 4
  | .mnot _ _ => 4
  | .mshl _ _ _ => 4
  | .mpop _ _ => 4
  | .mfirst _ _ => 4
  | .mlast _ _ => 4
  | .mset _ => 4
  | .mclr _ => 4
  | .vgath _ _ _ _ => 4
  | .vcomp _ _ _ => 4
  | .vxpnd _ _ _ => 4
  | .vred _ _ _ _ => 4
  | .vredXd _ _ _ _ => 4
  | .vscan _ _ _ _ => 4
  | .vslideupZero _ _ _ _ => 4
  | .vslideupOne _ _ _ _ => 4
  | .vslideupKeep _ _ _ _ => 4
  | .vslidednZero _ _ _ _ => 4
  | .vslidednOne _ _ _ _ => 4
  | .vslidednKeep _ _ _ _ => 4
  | .vmvx _ _ _ => 4
  | .vmvs _ _ _ => 4
  | .vsplat _ _ _ => 4
  | .vld _ _ _ _ => 4
  | .vlds _ _ _ _ _ => 4
  | .vldx _ _ _ _ _ => 4
  | .vst _ _ _ _ => 4
  | .vsts _ _ _ _ _ => 4
  | .vstx _ _ _ _ _ => 4
  | .awin _ _ _ => 4
  | .vamo _ _ => 4
  | .amerge => 4
  | .vrand _ _ => 4
  | .hint => 4
  | .illegalEncoding => 0
  | .tsetl _ _ _ _ _ => 8
  | .tclaim _ _ => 8
  | .tfree => 8
  | .tld _ _ _ => 8
  | .tst _ _ _ => 8
  | .tldp _ _ _ => 8
  | .tzero _ => 8
  | .tmvr _ _ _ => 8
  | .tmvc _ _ _ => 8
  | .mma _ _ _ _ _ => 8
  | .mmaC _ _ _ _ _ => 8
  | .mman _ _ _ _ _ => 8
  | .mdrain _ _ _ _ => 8
  | .azero _ => 8
  | .targetPrefetchDone => 0
  | .storeElementCommit => 0
  | .replayComplete => 0
  | .copy => 0
  | .copyFill => 0
  | .reduce => 0
  | .allReduce => 0
  | .allGather => 0
  | .broadcast => 0
  | .heatThreshold => 0
  | .heatNotificationSend => 0
  | .waitWakeup => 0
  | .waitTimeout => 0
  | .launchWindowStore => 0
  | .hypervisorLaunchStore => 0
  | .wharfAdmit => 0
  | .waitCounterRead => 0
  | .usageCharge => 0
  | .groupEnd => 0
  | .wqryAnswer => 0
  | .hostPreempt => 0
  | .preempt => 0
  | .restore => 0
  | .correctedError => 0
  | .ceThreshold => 0
  | .containedError => 0
  | .fatalError => 0
  | .ucieLinkDown => 0
  | .peerLinkDown => 0
  | .selfTestRequest => 0
  | .selfTestComplete => 0
  | .pctlRequest => 0
  | .powerStateChange => 0
  | .pctlTripClear => 0
  | .thermalTrip => 0
  | .serdesStateSet => 0
  | .deviceReset => 0
  | .functionReady => 0
  | .registerWindowWrite => 0
  | .hostNmRead => 0
  | .hostNmWrite => 0
  | .getVersion => 0
  | .getCapabilities => 0
  | .negotiateAlgorithms => 0
  | .getDigests => 0
  | .getCertificate => 0
  | .challenge => 0
  | .getMeasurements => 0
  | .spdmUnsupportedRequest => 0
  | .dbgctlStop => 0
  | .dbgctlRun => 0
  | .counterBankClaim => 0
  | .counterBankRelease => 0
  | .counterOverflow => 0
  | .pcReasonCycleCount => 0
  | .peerAccessToNearMemory => 0

/-- A word with a field's bits added at bit `lo`. -/
def put (lo : Nat) (x : BitVec n) (w : Nat) : Nat := w + x.toNat * 2 ^ lo

/-- The bits of an instruction, the first halfword in [15:0]; 0 for a step of another agent (R40 to R45). -/
def Instr.encode : Instr → Nat
  | .add d a b => put 20 d (put 14 a (put 8 b 0x4000001))
  | .addC d b => put 7 d (put 3 b 0x802)
  | .sub d a b => put 20 d (put 14 a (put 8 b 0x4000005))
  | .and d a b => put 20 d (put 14 a (put 8 b 0x4000009))
  | .or d a b => put 20 d (put 14 a (put 8 b 0x400000D))
  | .xor d a b => put 20 d (put 14 a (put 8 b 0x4000011))
  | .shl d a b => put 20 d (put 14 a (put 8 b 0x4000015))
  | .shr d a b => put 20 d (put 14 a (put 8 b 0x4000019))
  | .shra d a b => put 20 d (put 14 a (put 8 b 0x400001D))
  | .min d a b => put 20 d (put 14 a (put 8 b 0x4000021))
  | .max d a b => put 20 d (put 14 a (put 8 b 0x4000025))
  | .minn d a b => put 20 d (put 14 a (put 8 b 0x4000029))
  | .maxn d a b => put 20 d (put 14 a (put 8 b 0x400002D))
  | .slt d a b => put 20 d (put 14 a (put 8 b 0x4000031))
  | .sltn d a b => put 20 d (put 14 a (put 8 b 0x4000035))
  | .clz d a => put 20 d (put 14 a 0x4000039)
  | .popc d a => put 20 d (put 14 a 0x400003D)
  | .mv d a => put 20 d (put 14 a 0x4000041)
  | .mvC d a => put 7 d (put 3 a 0x2002)
  | .addi d a imm => put 20 d (put 14 a (put 2 imm 0x8000001))
  | .addiC j d imm => put 11 j (put 7 d (put 2 imm 0x1002))
  | .andi d a imm => put 20 d (put 14 a (put 2 imm 0xC000001))
  | .ori d a imm => put 20 d (put 14 a (put 2 imm 0x10000001))
  | .xori d a imm => put 20 d (put 14 a (put 2 imm 0x14000001))
  | .shli d a n => put 20 d (put 14 a (put 2 n 0x18000001))
  | .shri d a n => put 20 d (put 14 a (put 2 n 0x18000101))
  | .shrai d a n => put 20 d (put 14 a (put 2 n 0x18000201))
  | .lih d imm => put 20 d (put 2 imm 0x1C000001)
  | .mul d a b => put 20 d (put 14 a (put 8 b 0x20000001))
  | .mulh d a b => put 20 d (put 14 a (put 8 b 0x20000005))
  | .mulhn d a b => put 20 d (put 14 a (put 8 b 0x20000009))
  | .div d a b => put 20 d (put 14 a (put 8 b 0x2000000D))
  | .divn d a b => put 20 d (put 14 a (put 8 b 0x20000011))
  | .rem d a b => put 20 d (put 14 a (put 8 b 0x20000015))
  | .remn d a b => put 20 d (put 14 a (put 8 b 0x20000019))
  | .faddFp64 d a b => put 20 d (put 14 a (put 8 b 0x24000001))
  | .fsubFp64 d a b => put 20 d (put 14 a (put 8 b 0x24000005))
  | .fmulFp64 d a b => put 20 d (put 14 a (put 8 b 0x24000009))
  | .fdivFp64 d a b => put 20 d (put 14 a (put 8 b 0x2400000D))
  | .fmaFp64 d a b => put 20 d (put 14 a (put 8 b 0x24000011))
  | .fminFp64 d a b => put 20 d (put 14 a (put 8 b 0x24000015))
  | .fmaxFp64 d a b => put 20 d (put 14 a (put 8 b 0x24000019))
  | .fsqrtFp64 d a => put 20 d (put 14 a 0x2400001D)
  | .fcvtFp64 d a c => put 20 d (put 14 a (put 8 c 0x24000021))
  | .faddFp32 d a b => put 20 d (put 14 a (put 8 b 0x24000081))
  | .fsubFp32 d a b => put 20 d (put 14 a (put 8 b 0x24000085))
  | .fmulFp32 d a b => put 20 d (put 14 a (put 8 b 0x24000089))
  | .fdivFp32 d a b => put 20 d (put 14 a (put 8 b 0x2400008D))
  | .fmaFp32 d a b => put 20 d (put 14 a (put 8 b 0x24000091))
  | .fminFp32 d a b => put 20 d (put 14 a (put 8 b 0x24000095))
  | .fmaxFp32 d a b => put 20 d (put 14 a (put 8 b 0x24000099))
  | .fsqrtFp32 d a => put 20 d (put 14 a 0x2400009D)
  | .fcvtFp32 d a c => put 20 d (put 14 a (put 8 c 0x240000A1))
  | .cmp k a b c => put 20 k (put 14 a (put 8 b (put 5 c 0x28000001)))
  | .fcmpFp64 k a b c => put 20 k (put 14 a (put 8 b (put 5 c 0x2C000001)))
  | .fcmpFp32 k a b c => put 20 k (put 14 a (put 8 b (put 5 c 0x2C000005)))
  | .kand k a b => put 20 k (put 14 a (put 8 b 0x30000001))
  | .kor k a b => put 20 k (put 14 a (put 8 b 0x30000005))
  | .kxor k a b => put 20 k (put 14 a (put 8 b 0x30000009))
  | .knot k a => put 20 k (put 14 a 0x3000000D)
  | .kfromx k a => put 20 k (put 14 a 0x30000011)
  | .ktox d k => put 14 d (put 8 k 0x30000015)
  | .prep bt o => put 23 bt (put 2 o 0x34000001)
  | .prepC h bt o => put 11 h (put 8 bt (put 2 o 0x8002))
  | .prepr bt a => put 23 bt (put 14 a 0x38000001)
  | .mvb bt d => put 23 bt (put 14 d 0x38000005)
  | .jmp bt => put 23 bt 0x38000009
  | .jmpC bt => put 8 bt 0x3802
  | .br bt k => put 23 bt (put 20 k 0x3800000D)
  | .brC bt k => put 8 bt (put 5 k 0x4002)
  | .brn bt k => put 23 bt (put 20 k 0x3800002D)
  | .brnC bt k => put 8 bt (put 5 k 0x4802)
  | .call bt => put 23 bt 0x38000011
  | .invb bt => put 23 bt 0x38000015
  | .nop => 0x3C000001
  | .nopC => 0x2
  | .trap n => put 8 n 0x3C000005
  | .eret => 0x3C000009
  | .halt => 0x3C00000D
  | .wait a b => put 14 a (put 8 b 0x3C000011)
  | .isync => 0x3C000015
  | .fence kind scope => put 23 kind (put 20 scope 0x3C000019)
  | .bkpt => 0x3C00001D
  | .ld d a z imm => put 20 d (put 14 a (put 11 z (put 2 imm 0x40000001)))
  | .st xs a z imm => put 20 xs (put 14 a (put 11 z (put 2 imm 0x44000001)))
  | .ldl d a z imm => put 20 d (put 14 a (put 11 z (put 2 imm 0x48000001)))
  | .ldlC d imm => put 7 d (put 2 imm 0x2802)
  | .stl xs a z imm => put 20 xs (put 14 a (put 11 z (put 2 imm 0x4C000001)))
  | .stlC xs imm => put 7 xs (put 2 imm 0x3002)
  | .amoAdd d a b o => put 20 d (put 14 a (put 8 b (put 2 o 0x50000001)))
  | .amoAnd d a b o => put 20 d (put 14 a (put 8 b (put 2 o 0x50000011)))
  | .amoOr d a b o => put 20 d (put 14 a (put 8 b (put 2 o 0x50000021)))
  | .amoXor d a b o => put 20 d (put 14 a (put 8 b (put 2 o 0x50000031)))
  | .amoMin d a b o => put 20 d (put 14 a (put 8 b (put 2 o 0x50000041)))
  | .amoMax d a b o => put 20 d (put 14 a (put 8 b (put 2 o 0x50000051)))
  | .amoMinn d a b o => put 20 d (put 14 a (put 8 b (put 2 o 0x50000061)))
  | .amoMaxn d a b o => put 20 d (put 14 a (put 8 b (put 2 o 0x50000071)))
  | .amoSwap d a b o => put 20 d (put 14 a (put 8 b (put 2 o 0x50000081)))
  | .amoCas d a b o => put 20 d (put 14 a (put 8 b (put 2 o 0x50000091)))
  | .crd d c => put 20 d (put 8 c 0x54000001)
  | .crdSync d c => put 20 d (put 8 c 0x54000081)
  | .cwr xs c => put 20 xs (put 8 c 0x54000005)
  | .cset xs c => put 20 xs (put 8 c 0x54000009)
  | .cclr xs c => put 20 xs (put 8 c 0x5400000D)
  | .tlbinvVa => 0
  | .tlbinvAsid => 0
  | .tlbinvAllNonglobal => 0
  | .tlbinvAll => 0
  | .rstatStopClear => 0
  | .mcStatusClear => 0
  | .notechWrite => 0
  | .enq a u => put 14 a (put 10 u 0x58000001)
  | .deq d u => put 20 d (put 10 u 0x58000005)
  | .deqt d u => put 20 d (put 10 u 0x58000009)
  | .launch a => put 14 a 0x5C000001
  | .wqry n => put 10 n 0x5C000005
  | .gbar scope => put 10 scope 0x5C000009
  | .exit => 0x5C00000D
  | .sdef a n => put 14 a (put 10 n 0x60000001)
  | .sbind v n => put 20 v (put 10 n 0x60000005)
  | .sunb n => put 10 n 0x60000009
  | .chdef a n => put 14 a (put 10 n 0x6000000D)
  | .chput a n => put 14 a (put 10 n 0x60000011)
  | .chgetGet d a n => put 20 d (put 14 a (put 10 n 0x60000015))
  | .chgetPeek => 0x60000015
  | .chgetTake => 0x60000015
  | .chgetTail => 0x60000015
  | .rdef a => put 14 a 0x64000001
  | .rrun a => put 14 a 0x64000005
  | .rfld v a => put 20 v (put 14 a 0x64000009)
  | .rput v a c => put 20 v (put 14 a (put 10 c 0x6400000D))
  | .rspawn v => put 20 v 0x64000011
  | .rres v a => put 20 v (put 14 a 0x64000015)
  | .rkid v a c => put 20 v (put 14 a (put 10 c 0x64000019))
  | .rdone => 0x6400001D
  | .lnget d => put 20 d 0x68000001
  | .fill xs a => put 20 xs (put 14 a 0x68000005)
  | .ftload xs a => put 20 xs (put 14 a 0x68000009)
  | .pres m v => put 20 m (put 14 v 0x6800000D)
  | .vsetl d a t2 sc ty => put 20 d (put 14 a (put 10 t2 (put 6 sc (put 2 ty 0x80000001))))
  | .vgrant d a => put 20 d (put 14 a 0x84000001)
  | .vfork d bt => put 20 d (put 10 bt 0x84000005)
  | .vjoin a => put 14 a 0x84000009
  | .loop a n => put 14 a (put 10 n 0x8400000D)
  | .vexit m c => put 20 m (put 10 c 0x84000011)
  | .vrel v => put 20 v 0x84000015
  | .settle v w n => put 20 v (put 14 w (put 10 n 0x84000019))
  | .vtest k m c => put 20 k (put 14 m (put 10 c 0x8400001D))
  | .vadd d a b m => put 21 d (put 16 a (put 11 b (put 8 m 0x88000001)))
  | .vsub d a b m => put 21 d (put 16 a (put 11 b (put 8 m 0x88000005)))
  | .vrsub d a b m => put 21 d (put 16 a (put 11 b (put 8 m 0x88000009)))
  | .vmul d a b m => put 21 d (put 16 a (put 11 b (put 8 m 0x8800000D)))
  | .vmulh d a b m => put 21 d (put 16 a (put 11 b (put 8 m 0x88000011)))
  | .vmulhn d a b m => put 21 d (put 16 a (put 11 b (put 8 m 0x88000015)))
  | .vand d a b m => put 21 d (put 16 a (put 11 b (put 8 m 0x88000019)))
  | .vor d a b m => put 21 d (put 16 a (put 11 b (put 8 m 0x8800001D)))
  | .vxor d a b m => put 21 d (put 16 a (put 11 b (put 8 m 0x88000021)))
  | .vshl d a b m => put 21 d (put 16 a (put 11 b (put 8 m 0x88000025)))
  | .vshr d a b m => put 21 d (put 16 a (put 11 b (put 8 m 0x88000029)))
  | .vshra d a b m => put 21 d (put 16 a (put 11 b (put 8 m 0x8800002D)))
  | .vmin d a b m => put 21 d (put 16 a (put 11 b (put 8 m 0x88000031)))
  | .vmax d a b m => put 21 d (put 16 a (put 11 b (put 8 m 0x88000035)))
  | .vminn d a b m => put 21 d (put 16 a (put 11 b (put 8 m 0x88000039)))
  | .vmaxn d a b m => put 21 d (put 16 a (put 11 b (put 8 m 0x8800003D)))
  | .vmerge d a b m => put 21 d (put 16 a (put 11 b (put 8 m 0x88000041)))
  | .vadc d a b m => put 21 d (put 16 a (put 11 b (put 8 m 0x88000045)))
  | .vsbc d a b m => put 21 d (put 16 a (put 11 b (put 8 m 0x88000049)))
  | .vwmul d a b m => put 21 d (put 16 a (put 11 b (put 8 m 0x8800004D)))
  | .vaddX d a b m => put 21 d (put 16 a (put 10 b (put 7 m 0x8C000001)))
  | .vsubX d a b m => put 21 d (put 16 a (put 10 b (put 7 m 0x8C000005)))
  | .vrsubX d a b m => put 21 d (put 16 a (put 10 b (put 7 m 0x8C000009)))
  | .vmulX d a b m => put 21 d (put 16 a (put 10 b (put 7 m 0x8C00000D)))
  | .vmulhX d a b m => put 21 d (put 16 a (put 10 b (put 7 m 0x8C000011)))
  | .vmulhnX d a b m => put 21 d (put 16 a (put 10 b (put 7 m 0x8C000015)))
  | .vandX d a b m => put 21 d (put 16 a (put 10 b (put 7 m 0x8C000019)))
  | .vorX d a b m => put 21 d (put 16 a (put 10 b (put 7 m 0x8C00001D)))
  | .vxorX d a b m => put 21 d (put 16 a (put 10 b (put 7 m 0x8C000021)))
  | .vshlX d a b m => put 21 d (put 16 a (put 10 b (put 7 m 0x8C000025)))
  | .vshrX d a b m => put 21 d (put 16 a (put 10 b (put 7 m 0x8C000029)))
  | .vshraX d a b m => put 21 d (put 16 a (put 10 b (put 7 m 0x8C00002D)))
  | .vminX d a b m => put 21 d (put 16 a (put 10 b (put 7 m 0x8C000031)))
  | .vmaxX d a b m => put 21 d (put 16 a (put 10 b (put 7 m 0x8C000035)))
  | .vminnX d a b m => put 21 d (put 16 a (put 10 b (put 7 m 0x8C000039)))
  | .vmaxnX d a b m => put 21 d (put 16 a (put 10 b (put 7 m 0x8C00003D)))
  | .vmergeX d a b m => put 21 d (put 16 a (put 10 b (put 7 m 0x8C000041)))
  | .vadcX d a b m => put 21 d (put 16 a (put 10 b (put 7 m 0x8C000045)))
  | .vsbcX d a b m => put 21 d (put 16 a (put 10 b (put 7 m 0x8C000049)))
  | .vwmulX d a b m => put 21 d (put 16 a (put 10 b (put 7 m 0x8C00004D)))
  | .vfadd d a b m => put 21 d (put 16 a (put 11 b (put 8 m 0x90000001)))
  | .vfsub d a b m => put 21 d (put 16 a (put 11 b (put 8 m 0x90000005)))
  | .vfmul d a b m => put 21 d (put 16 a (put 11 b (put 8 m 0x90000009)))
  | .vfma d a b m => put 21 d (put 16 a (put 11 b (put 8 m 0x9000000D)))
  | .vfmin d a b m => put 21 d (put 16 a (put 11 b (put 8 m 0x90000011)))
  | .vfmax d a b m => put 21 d (put 16 a (put 11 b (put 8 m 0x90000015)))
  | .vfdiv d a b m => put 21 d (put 16 a (put 11 b (put 8 m 0x90000019)))
  | .vfrcp d a m => put 21 d (put 16 a (put 8 m 0x9000001D))
  | .vfrsq d a m => put 21 d (put 16 a (put 8 m 0x90000021))
  | .vfsqrt d a m => put 21 d (put 16 a (put 8 m 0x90000025))
  | .vfexp d a m => put 21 d (put 16 a (put 8 m 0x90000029))
  | .vflog d a m => put 21 d (put 16 a (put 8 m 0x9000002D))
  | .vfsin d a m => put 21 d (put 16 a (put 8 m 0x90000031))
  | .vfcos d a m => put 21 d (put 16 a (put 8 m 0x90000035))
  | .vfcvt d a g m => put 21 d (put 16 a (put 11 g (put 8 m 0x90000039)))
  | .vfwmul d a b m => put 21 d (put 16 a (put 11 b (put 8 m 0x9000003D)))
  | .vfaddX d a b m => put 21 d (put 16 a (put 10 b (put 7 m 0x94000001)))
  | .vfsubX d a b m => put 21 d (put 16 a (put 10 b (put 7 m 0x94000005)))
  | .vfmulX d a b m => put 21 d (put 16 a (put 10 b (put 7 m 0x94000009)))
  | .vfmaX d a b m => put 21 d (put 16 a (put 10 b (put 7 m 0x9400000D)))
  | .vfminX d a b m => put 21 d (put 16 a (put 10 b (put 7 m 0x94000011)))
  | .vfmaxX d a b m => put 21 d (put 16 a (put 10 b (put 7 m 0x94000015)))
  | .vfdivX d a b m => put 21 d (put 16 a (put 10 b (put 7 m 0x94000019)))
  | .vcmp d a b m c => put 21 d (put 16 a (put 11 b (put 8 m (put 2 c 0x98000001))))
  | .vfcmp d a b m c => put 21 d (put 16 a (put 11 b (put 8 m (put 2 c 0x98000021))))
  | .vcmpX d a b m c => put 21 d (put 16 a (put 10 b (put 7 m (put 2 c 0x9C000001))))
  | .vfcmpX d a b m c => put 21 d (put 16 a (put 10 b (put 7 m (put 2 c 0x9C000021))))
  | .mand d a b => put 21 d (put 16 a (put 11 b 0xA0000001))
  | .mor d a b => put 21 d (put 16 a (put 11 b 0xA0000005))
  | .mxor d a b => put 21 d (put 16 a (put 11 b 0xA0000009))
  | .mnot d a => put 21 d (put 16 a 0xA000000D)
  | .mshl d a n => put 21 d (put 16 a (put 11 n 0xA0000011))
  | .mpop d a => put 21 d (put 16 a 0xA0000015)
  | .mfirst d a => put 21 d (put 16 a 0xA0000019)
  | .mlast d a => put 21 d (put 16 a 0xA000001D)
  | .mset d => put 21 d 0xA0000021
  | .mclr d => put 21 d 0xA0000025
  | .vgath d a b m => put 21 d (put 16 a (put 11 b (put 8 m 0xA4000001)))
  | .vcomp d a m => put 21 d (put 16 a (put 8 m 0xA4000005))
  | .vxpnd d a m => put 21 d (put 16 a (put 8 m 0xA4000009))
  | .vred d a k m => put 21 d (put 16 a (put 11 k (put 8 m 0xA400000D)))
  | .vredXd d a k m => put 21 d (put 16 a (put 11 k (put 8 m 0xA400800D)))
  | .vscan d a k m => put 21 d (put 16 a (put 11 k (put 8 m 0xA4000011)))
  | .vslideupZero d a b m => put 21 d (put 16 a (put 10 b (put 7 m 0xA8000001)))
  | .vslideupOne d a b m => put 21 d (put 16 a (put 10 b (put 7 m 0xA8000005)))
  | .vslideupKeep d a b m => put 21 d (put 16 a (put 10 b (put 7 m 0xA8000009)))
  | .vslidednZero d a b m => put 21 d (put 16 a (put 10 b (put 7 m 0xA800000D)))
  | .vslidednOne d a b m => put 21 d (put 16 a (put 10 b (put 7 m 0xA8000011)))
  | .vslidednKeep d a b m => put 21 d (put 16 a (put 10 b (put 7 m 0xA8000015)))
  | .vmvx d a b => put 21 d (put 16 a (put 10 b 0xA8000019))
  | .vmvs d b m => put 21 d (put 10 b (put 7 m 0xA800001D))
  | .vsplat d b m => put 21 d (put 10 b (put 7 m 0xA8000021))
  | .vld v a m o => put 21 v (put 15 a (put 6 m (put 4 o 0xAC000001)))
  | .vlds v a b m o => put 21 v (put 15 a (put 9 b (put 6 m (put 4 o 0xAC000005))))
  | .vldx v a b m o => put 21 v (put 15 a (put 9 b (put 6 m (put 4 o 0xAC000009))))
  | .vst v a m o => put 21 v (put 15 a (put 6 m (put 4 o 0xB0000001)))
  | .vsts v a b m o => put 21 v (put 15 a (put 9 b (put 6 m (put 4 o 0xB0000005))))
  | .vstx v a b m o => put 21 v (put 15 a (put 9 b (put 6 m (put 4 o 0xB0000009))))
  | .awin d a o => put 20 d (put 14 a (put 10 o 0xB4000001))
  | .vamo v w => put 20 v (put 14 w 0xB4000005)
  | .amerge => 0xB4000009
  | .vrand d m => put 21 d (put 8 m 0xB8000001)
  | .hint => 0xFC000001
  | .illegalEncoding => 0
  | .tsetl crew fmtA d a b => put 52 d (put 46 a (put 40 b (put 8 fmtA (put 3 crew 0x1C0000003))))
  | .tclaim a b => put 46 a (put 40 b 0x1C0800003)
  | .tfree => 0x1C1000003
  | .tld td a b => put 46 a (put 40 b (put 20 td 0x1C4000003))
  | .tst ta a b => put 46 a (put 40 b (put 17 ta 0x1C4800003))
  | .tldp td a b => put 46 a (put 40 b (put 20 td 0x1C5000003))
  | .tzero td => put 20 td 0x1C5800003
  | .tmvr td v a => put 52 v (put 46 a (put 20 td 0x1C6000003))
  | .tmvc ta v a => put 52 v (put 46 a (put 17 ta 0x1C6800003))
  | .mma ta tb ad fmtA fmtB => put 17 ta (put 14 tb (put 12 ad (put 8 fmtA (put 4 fmtB 0x1C8000003))))
  | .mmaC ta tb ad fmtA fmtB => put 17 ta (put 14 tb (put 12 ad (put 8 fmtA (put 4 fmtB 0x1C800000B))))
  | .mman ta tb ad pA pB => put 17 ta (put 14 tb (put 12 ad (put 8 pA (put 4 pB 0x1C8800003))))
  | .mdrain td ad fmtA sync => put 20 td (put 12 ad (put 8 fmtA (put 2 sync 0x1CC000003)))
  | .azero ad => put 12 ad 0x1CC800003
  | .targetPrefetchDone => 0
  | .storeElementCommit => 0
  | .replayComplete => 0
  | .copy => 0
  | .copyFill => 0
  | .reduce => 0
  | .allReduce => 0
  | .allGather => 0
  | .broadcast => 0
  | .heatThreshold => 0
  | .heatNotificationSend => 0
  | .waitWakeup => 0
  | .waitTimeout => 0
  | .launchWindowStore => 0
  | .hypervisorLaunchStore => 0
  | .wharfAdmit => 0
  | .waitCounterRead => 0
  | .usageCharge => 0
  | .groupEnd => 0
  | .wqryAnswer => 0
  | .hostPreempt => 0
  | .preempt => 0
  | .restore => 0
  | .correctedError => 0
  | .ceThreshold => 0
  | .containedError => 0
  | .fatalError => 0
  | .ucieLinkDown => 0
  | .peerLinkDown => 0
  | .selfTestRequest => 0
  | .selfTestComplete => 0
  | .pctlRequest => 0
  | .powerStateChange => 0
  | .pctlTripClear => 0
  | .thermalTrip => 0
  | .serdesStateSet => 0
  | .deviceReset => 0
  | .functionReady => 0
  | .registerWindowWrite => 0
  | .hostNmRead => 0
  | .hostNmWrite => 0
  | .getVersion => 0
  | .getCapabilities => 0
  | .negotiateAlgorithms => 0
  | .getDigests => 0
  | .getCertificate => 0
  | .challenge => 0
  | .getMeasurements => 0
  | .spdmUnsupportedRequest => 0
  | .dbgctlStop => 0
  | .dbgctlRun => 0
  | .counterBankClaim => 0
  | .counterBankRelease => 0
  | .counterOverflow => 0
  | .pcReasonCycleCount => 0
  | .peerAccessToNearMemory => 0

/-- Whether the decoder reads each word of a list as the instruction beside it. -/
def decodesTo (l : List (Nat × Nat × Instr)) : Bool :=
  l.all fun e => decide (decodeTableWord e.1 e.2.1 = some e.2.2)

section

set_option Elab.async false

/-- Majors 0x01 to 0x08 (R40, R45). -/
theorem decode_integer : decodesTo [
    (32, 0x614AD01, .add 33 18 45),
    (32, 0x614AD05, .sub 33 18 45),
    (32, 0x614AD09, .and 33 18 45),
    (32, 0x614AD0D, .or 33 18 45),
    (32, 0x614AD11, .xor 33 18 45),
    (32, 0x614AD15, .shl 33 18 45),
    (32, 0x614AD19, .shr 33 18 45),
    (32, 0x614AD1D, .shra 33 18 45),
    (32, 0x614AD21, .min 33 18 45),
    (32, 0x614AD25, .max 33 18 45),
    (32, 0x614AD29, .minn 33 18 45),
    (32, 0x614AD2D, .maxn 33 18 45),
    (32, 0x614AD31, .slt 33 18 45),
    (32, 0x614AD35, .sltn 33 18 45),
    (32, 0x49F4039, .clz 9 61),
    (32, 0x49F403D, .popc 9 61),
    (32, 0x49F4041, .mv 9 61),
    (32, 0x8722695, .addi 7 8 0x9A5),
    (32, 0xC722695, .andi 7 8 0x9A5),
    (32, 0x10722695, .ori 7 8 0x9A5),
    (32, 0x14722695, .xori 7 8 0x9A5),
    (32, 0x185180A5, .shli 5 6 41),
    (32, 0x185181A5, .shri 5 6 41),
    (32, 0x185182A5, .shrai 5 6 41),
    (32, 0x1CCAAF35, .lih 12 0x2ABCD),
    (32, 0x20108301, .mul 1 2 3),
    (32, 0x20108305, .mulh 1 2 3),
    (32, 0x20108309, .mulhn 1 2 3),
    (32, 0x2010830D, .div 1 2 3),
    (32, 0x20108311, .divn 1 2 3),
    (32, 0x20108315, .rem 1 2 3),
    (32, 0x20108319, .remn 1 2 3)] = true := by
  decide +kernel

/-- Compressed forms (R42) and those of the worked decode. -/
theorem decode_compressed : decodesTo [
    (16, 0x2, .nopC),
    (16, 0x9AA, .addC 3 5),
    (16, 0x1CDA, .addiC 1 9 0b10110),
    (16, 0x2792, .mvC 15 2),
    (16, 0x2A7E, .ldlC 4 31),
    (16, 0x3346, .stlC 6 17),
    (16, 0x3D02, .jmpC 5),
    (16, 0x4222, .brC 2 1),
    (16, 0x4A22, .brnC 2 1),
    (16, 0xF172, .prepC 0b1110 1 0b011100)] = true := by
  decide +kernel

/-- Major 0x09. -/
theorem decode_scalarFloat : decodesTo [
    (32, 0x25559701, .faddFp64 21 22 23),
    (32, 0x25559705, .fsubFp64 21 22 23),
    (32, 0x25559709, .fmulFp64 21 22 23),
    (32, 0x2555970D, .fdivFp64 21 22 23),
    (32, 0x25559711, .fmaFp64 21 22 23),
    (32, 0x25559715, .fminFp64 21 22 23),
    (32, 0x25559719, .fmaxFp64 21 22 23),
    (32, 0x2555801D, .fsqrtFp64 21 22),
    (32, 0x25559781, .faddFp32 21 22 23),
    (32, 0x25559785, .fsubFp32 21 22 23),
    (32, 0x25559789, .fmulFp32 21 22 23),
    (32, 0x2555978D, .fdivFp32 21 22 23),
    (32, 0x25559791, .fmaFp32 21 22 23),
    (32, 0x25559795, .fminFp32 21 22 23),
    (32, 0x25559799, .fmaxFp32 21 22 23),
    (32, 0x2555809D, .fsqrtFp32 21 22),
    (32, 0x24518221, .fcvtFp64 5 6 0x02),
    (32, 0x24519D21, .fcvtFp64 5 6 0x1D),
    (32, 0x24519EA1, .fcvtFp32 5 6 0x1E)] = true := by
  decide +kernel

/-- Majors 0x0A to 0x0C. -/
theorem decode_condition : decodesTo [
    (32, 0x28210541, .cmp 2 4 5 2),
    (32, 0x2C310561, .fcmpFp64 3 4 5 3),
    (32, 0x2C310545, .fcmpFp32 3 4 5 2),
    (32, 0x30108301, .kand 1 2 3),
    (32, 0x30108305, .kor 1 2 3),
    (32, 0x30108309, .kxor 1 2 3),
    (32, 0x3011800D, .knot 1 6),
    (32, 0x30194011, .kfromx 1 37),
    (32, 0x300A0515, .ktox 40 5)] = true := by
  decide +kernel

/-- Majors 0x0D and 0x0E. -/
theorem decode_transfer : decodesTo [
    (32, 0x36FFFFF5, .prep 5 0x1FFFFD),
    (32, 0x3A084001, .prepr 4 33),
    (32, 0x3A084005, .mvb 4 33),
    (32, 0x3B000009, .jmp 6),
    (32, 0x39A0000D, .br 3 2),
    (32, 0x39A0002D, .brn 3 2),
    (32, 0x3B800011, .call 7),
    (32, 0x38800015, .invb 1)] = true := by
  decide +kernel

/-- Majors 0x0F and 0x3F. -/
theorem decode_system : decodesTo [
    (32, 0x3C000001, .nop),
    (32, 0x3C002A05, .trap 42),
    (32, 0x3C000009, .eret),
    (32, 0x3C00000D, .halt),
    (32, 0x3C02CC11, .wait 11 12),
    (32, 0x3C000015, .isync),
    (32, 0x3C900019, .fence 1 1),
    (32, 0x3C00001D, .bkpt),
    (32, 0xFC48D159, .hint)] = true := by
  decide +kernel

/-- Majors 0x10 to 0x14. -/
theorem decode_memory : decodesTo [
    (32, 0x4090900D, .ld 9 2 2 3),
    (32, 0x432CEFE5, .ld 50 51 5 0x1F9),
    (32, 0x472CEFE5, .st 50 51 5 0x1F9),
    (32, 0x4B2CEFE5, .ldl 50 51 5 0x1F9),
    (32, 0x4F2CEFE5, .stl 50 51 5 0x1F9),
    (32, 0x50518701, .amoAdd 5 6 7 0),
    (32, 0x50518715, .amoAnd 5 6 7 1),
    (32, 0x50518729, .amoOr 5 6 7 2),
    (32, 0x5051873D, .amoXor 5 6 7 3),
    (32, 0x50518741, .amoMin 5 6 7 0),
    (32, 0x50518755, .amoMax 5 6 7 1),
    (32, 0x50518769, .amoMinn 5 6 7 2),
    (32, 0x5051877D, .amoMaxn 5 6 7 3),
    (32, 0x50518781, .amoSwap 5 6 7 0),
    (32, 0x50518795, .amoCas 5 6 7 1),
    (32, 0x5051879D, .amoCas 5 6 7 3)] = true := by
  decide +kernel

/-- Major 0x15. -/
theorem decode_control : decodesTo [
    (32, 0x54310201, .crd 3 0x102),
    (32, 0x54310005, .cwr 3 0x100),
    (32, 0x54300809, .cset 3 0x008),
    (32, 0x5430220D, .cclr 3 0x022),
    (32, 0x54305381, .crdSync 3 0x053)] = true := by
  decide +kernel

/-- Majors 0x16 to 0x18. -/
theorem decode_engine : decodesTo [
    (32, 0x58024401, .enq 9 1),
    (32, 0x58800405, .deq 8 1),
    (32, 0x58800009, .deqt 8 0),
    (32, 0x5C024001, .launch 9),
    (32, 0x5C003405, .wqry 13),
    (32, 0x5C000809, .gbar 2),
    (32, 0x5C00000D, .exit),
    (32, 0x60025401, .sdef 9 5),
    (32, 0x61101405, .sbind 17 5),
    (32, 0x60001409, .sunb 5),
    (32, 0x6002780D, .chdef 9 14),
    (32, 0x60027811, .chput 9 14),
    (32, 0x60827815, .chgetGet 8 9 14)] = true := by
  decide +kernel

/-- Major 0x19. -/
theorem decode_recursion : decodesTo [
    (32, 0x64024001, .rdef 9),
    (32, 0x64024005, .rrun 9),
    (32, 0x65124009, .rfld 17 9),
    (32, 0x6512580D, .rput 17 9 6),
    (32, 0x65100011, .rspawn 17),
    (32, 0x65124015, .rres 17 9),
    (32, 0x65125819, .rkid 17 9 6),
    (32, 0x6400001D, .rdone)] = true := by
  decide +kernel

/-- Major 0x1A. -/
theorem decode_ferry : decodesTo [
    (32, 0x6B000001, .lnget 48),
    (32, 0x68310005, .fill 3 4),
    (32, 0x68310009, .ftload 3 4),
    (32, 0x6864400D, .pres 6 17)] = true := by
  decide +kernel

/-- Majors 0x20 and 0x21. -/
theorem decode_lanes : decodesTo [
    (32, 0x8010B475, .vsetl 1 2 13 1 13),
    (32, 0x80108C09, .vsetl 1 2 3 0 2),
    (32, 0x84824001, .vgrant 8 9),
    (32, 0x84801405, .vfork 8 5),
    (32, 0x84024009, .vjoin 9),
    (32, 0x84027C0D, .loop 9 15),
    (32, 0x84500411, .vexit 5 1),
    (32, 0x85100015, .vrel 17),
    (32, 0x85148819, .settle 17 18 2),
    (32, 0x8451881D, .vtest 5 6 2)] = true := by
  decide +kernel

/-- Majors 0x22 and 0x23. -/
theorem decode_vectorInteger : decodesTo [
    (32, 0x8A329D01, .vadd 17 18 19 5),
    (32, 0x8E32B681, .vaddX 17 18 45 5),
    (32, 0x8A329D05, .vsub 17 18 19 5),
    (32, 0x8E32B685, .vsubX 17 18 45 5),
    (32, 0x8A329D09, .vrsub 17 18 19 5),
    (32, 0x8E32B689, .vrsubX 17 18 45 5),
    (32, 0x8A329D0D, .vmul 17 18 19 5),
    (32, 0x8E32B68D, .vmulX 17 18 45 5),
    (32, 0x8A329D11, .vmulh 17 18 19 5),
    (32, 0x8E32B691, .vmulhX 17 18 45 5),
    (32, 0x8A329D15, .vmulhn 17 18 19 5),
    (32, 0x8E32B695, .vmulhnX 17 18 45 5),
    (32, 0x8A329D19, .vand 17 18 19 5),
    (32, 0x8E32B699, .vandX 17 18 45 5),
    (32, 0x8A329D1D, .vor 17 18 19 5),
    (32, 0x8E32B69D, .vorX 17 18 45 5),
    (32, 0x8A329D21, .vxor 17 18 19 5),
    (32, 0x8E32B6A1, .vxorX 17 18 45 5),
    (32, 0x8A329D25, .vshl 17 18 19 5),
    (32, 0x8E32B6A5, .vshlX 17 18 45 5),
    (32, 0x8A329D29, .vshr 17 18 19 5),
    (32, 0x8E32B6A9, .vshrX 17 18 45 5),
    (32, 0x8A329D2D, .vshra 17 18 19 5),
    (32, 0x8E32B6AD, .vshraX 17 18 45 5),
    (32, 0x8A329D31, .vmin 17 18 19 5),
    (32, 0x8E32B6B1, .vminX 17 18 45 5),
    (32, 0x8A329D35, .vmax 17 18 19 5),
    (32, 0x8E32B6B5, .vmaxX 17 18 45 5),
    (32, 0x8A329D39, .vminn 17 18 19 5),
    (32, 0x8E32B6B9, .vminnX 17 18 45 5),
    (32, 0x8A329D3D, .vmaxn 17 18 19 5),
    (32, 0x8E32B6BD, .vmaxnX 17 18 45 5),
    (32, 0x8A329D41, .vmerge 17 18 19 5),
    (32, 0x8E32B6C1, .vmergeX 17 18 45 5),
    (32, 0x8A329D45, .vadc 17 18 19 5),
    (32, 0x8E32B6C5, .vadcX 17 18 45 5),
    (32, 0x8A329D49, .vsbc 17 18 19 5),
    (32, 0x8E32B6C9, .vsbcX 17 18 45 5),
    (32, 0x8A329D4D, .vwmul 17 18 19 5),
    (32, 0x8E32B6CD, .vwmulX 17 18 45 5)] = true := by
  decide +kernel

/-- Majors 0x24 and 0x25. -/
theorem decode_vectorFloat : decodesTo [
    (32, 0x92329D01, .vfadd 17 18 19 5),
    (32, 0x9632B681, .vfaddX 17 18 45 5),
    (32, 0x92329D05, .vfsub 17 18 19 5),
    (32, 0x9632B685, .vfsubX 17 18 45 5),
    (32, 0x92329D09, .vfmul 17 18 19 5),
    (32, 0x9632B689, .vfmulX 17 18 45 5),
    (32, 0x92329D0D, .vfma 17 18 19 5),
    (32, 0x9632B68D, .vfmaX 17 18 45 5),
    (32, 0x92329D11, .vfmin 17 18 19 5),
    (32, 0x9632B691, .vfminX 17 18 45 5),
    (32, 0x92329D15, .vfmax 17 18 19 5),
    (32, 0x9632B695, .vfmaxX 17 18 45 5),
    (32, 0x92329D19, .vfdiv 17 18 19 5),
    (32, 0x9632B699, .vfdivX 17 18 45 5),
    (32, 0x9232051D, .vfrcp 17 18 5),
    (32, 0x92320521, .vfrsq 17 18 5),
    (32, 0x92320525, .vfsqrt 17 18 5),
    (32, 0x92320529, .vfexp 17 18 5),
    (32, 0x9232052D, .vflog 17 18 5),
    (32, 0x92320531, .vfsin 17 18 5),
    (32, 0x92320535, .vfcos 17 18 5),
    (32, 0x92326539, .vfcvt 17 18 12 5),
    (32, 0x92329D3D, .vfwmul 17 18 19 5)] = true := by
  decide +kernel

/-- Majors 0x26 and 0x27. -/
theorem decode_vectorCompare : decodesTo [
    (32, 0x98D29D0D, .vcmp 6 18 19 5 3),
    (32, 0x98D29D29, .vfcmp 6 18 19 5 2),
    (32, 0x9CD2B691, .vcmpX 6 18 45 5 4),
    (32, 0x9CD2B6A5, .vfcmpX 6 18 45 5 1)] = true := by
  decide +kernel

/-- Major 0x28. -/
theorem decode_mask : decodesTo [
    (32, 0xA0221801, .mand 1 2 3),
    (32, 0xA0221805, .mor 1 2 3),
    (32, 0xA0221809, .mxor 1 2 3),
    (32, 0xA022000D, .mnot 1 2),
    (32, 0xA022E811, .mshl 1 2 29),
    (32, 0xA3C20015, .mpop 30 2),
    (32, 0xA3C20019, .mfirst 30 2),
    (32, 0xA3C2001D, .mlast 30 2),
    (32, 0xA0800021, .mset 4),
    (32, 0xA0800025, .mclr 4)] = true := by
  decide +kernel

/-- Majors 0x29 and 0x2A. -/
theorem decode_permute : decodesTo [
    (32, 0xA6329D01, .vgath 17 18 19 5),
    (32, 0xA6320505, .vcomp 17 18 5),
    (32, 0xA6320509, .vxpnd 17 18 5),
    (32, 0xA632250D, .vred 17 18 4 5),
    (32, 0xA632A50D, .vredXd 17 18 4 5),
    (32, 0xA6321511, .vscan 17 18 2 5),
    (32, 0xAA32B681, .vslideupZero 17 18 45 5),
    (32, 0xAA32B685, .vslideupOne 17 18 45 5),
    (32, 0xAA32B689, .vslideupKeep 17 18 45 5),
    (32, 0xAA32B68D, .vslidednZero 17 18 45 5),
    (32, 0xAA32B691, .vslidednOne 17 18 45 5),
    (32, 0xAA32B695, .vslidednKeep 17 18 45 5),
    (32, 0xAB231C19, .vmvx 25 3 7),
    (32, 0xAA20B69D, .vmvs 17 45 5),
    (32, 0xAA20B6A1, .vsplat 17 45 5)] = true := by
  decide +kernel

/-- Majors 0x2B to 0x2E. -/
theorem decode_vectorMemory : decodesTo [
    (32, 0xAE368151, .vld 17 45 5 1),
    (32, 0xAE36DD45, .vlds 17 45 46 5 0),
    (32, 0xAE36A759, .vldx 17 45 19 5 1),
    (32, 0xB2368151, .vst 17 45 5 1),
    (32, 0xB236DD45, .vsts 17 45 46 5 0),
    (32, 0xB236A759, .vstx 17 45 19 5 1),
    (32, 0xB4824C01, .awin 8 9 3),
    (32, 0xB5148005, .vamo 17 18),
    (32, 0xB4000009, .amerge),
    (32, 0xBA200501, .vrand 17 5)] = true := by
  decide +kernel

/-- Majors 0x30 to 0x33, prefix and body (R43, R44). -/
theorem decode_tile : decodesTo [
    (64, 0x108301C000080B, .tsetl 1 8 1 2 3),
    (64, 0x8301C0800003, .tclaim 2 3),
    (64, 0x1C1000003, .tfree),
    (64, 0x8301C4500003, .tld 5 2 3),
    (64, 0x8301C48A0003, .tst 5 2 3),
    (64, 0x8301C5500003, .tldp 5 2 3),
    (64, 0x1C5D00003, .tzero 5),
    (64, 0x1108001C6500003, .tmvr 5 17 2),
    (64, 0x1108001C68A0003, .tmvc 5 17 2),
    (64, 0x1C804DCC3, .mma 2 3 1 12 12),
    (64, 0x1C804D8AB, .mmaC 2 3 1 8 10),
    (64, 0x1C884D273, .mman 2 3 1 2 7),
    (64, 0x1CC502B07, .mdrain 5 2 11 1),
    (64, 0x1CC802003, .azero 2)] = true := by
  decide +kernel

end

end Sys2Proof
end

