-- ==== Sys2Proof/Machine/Ops.lean ====
section
/-! DEFINITION. The named operations over harts, registers and memory: access to the current hart, retiring and
stalling, translation, loads and stores at places, machine-check banks, contained errors, taking an exception and
returning from one. -/

namespace Sys2Proof.Machine

abbrev Out := Host.Outcome State Fault Refusal

/-! Results of an operation -/

/-- An exception with its record (R221): code and TINFO0 to TINFO3. -/
structure Exc where
  code : Nat
  info0 : Word := 0
  info1 : Word := 0
  info2 : Word := 0
  info3 : Word := 0
  deriving DecidableEq, Repr

/-- A contained error (R229, R230): the core or die whose bank logs it, the bank, the source and the address. -/
structure Contained where
  core : Nat
  bank : Nat
  source : Nat
  addr : Option Word
  deriving DecidableEq, Repr

/-- What an operation of an instruction comes to. -/
inductive Res (α : Type) where
  | ok (a : α) (s : State)
  /-- It waits, for a reason of R247. -/
  | wait (reason : Nat) (s : State)
  /-- It raises an exception at element `k`. -/
  | exc (e : Exc) (k : Nat) (s : State)
  | contained (c : Contained) (s : State)
  | stop (f : Fault)

/-- Sequencing: what is not `ok` ends the operation. -/
def Res.bind (r : Res α) (f : α → State → Res β) : Res β :=
  match r with
  | .ok a s => f a s
  | .wait n s => .wait n s
  | .exc e k s => .exc e k s
  | .contained c s => .contained c s
  | .stop f => .stop f

/-- An exception at element 0. -/
def raise (e : Exc) (s : State) : Res α := .exc e 0 s

/-- A check: the exception when the condition fails. -/
def check (b : Bool) (e : Exc) (s : State) : Res Unit := if b then .ok () s else .exc e 0 s

/-- Every element of a list in order, each on the state that the earlier ones left. -/
def forEach (l : List α) (f : α → State → Res Unit) (s : State) : Res Unit :=
  match l with
  | [] => .ok () s
  | a :: rest => (f a s).bind fun _ s => forEach rest f s

/-- As `forEach`, with the results collected in order. -/
def mapEach (l : List α) (f : α → State → Res β) (s : State) : Res (List β) :=
  match l with
  | [] => .ok [] s
  | a :: rest => (f a s).bind fun b s => (mapEach rest f s).bind fun bs s => .ok (b :: bs) s

/-- The next value that the spec leaves open (log entry 10). -/
def freshWord (s : State) : Word × State := (Config.freeValue s.free, { s with free := s.free + 1 })

/-! Cores and harts -/

def State.core (s : State) (c : Nat) : Core := lookupD s.cores c Core.reset

def State.setCore (s : State) (c : Nat) (k : Core) : State := { s with cores := insert s.cores c k }

def State.modCore (s : State) (c : Nat) (f : Core → Core) : State := s.setCore c (f (s.core c))

def Core.hart (k : Core) (h : Nat) : Hart := lookupD k.harts h Hart.reset

def Core.setHart (k : Core) (h : Nat) (x : Hart) : Core := { k with harts := insert k.harts h x }

def State.hartAt (s : State) (c h : Nat) : Hart := (s.core c).hart h

def State.setHartAt (s : State) (c h : Nat) (x : Hart) : State := s.setCore c ((s.core c).setHart h x)

def State.modHartAt (s : State) (c h : Nat) (f : Hart → Hart) : State := s.setHartAt c h (f (s.hartAt c h))

/-- Number of the core whose hart executes now. -/
def State.here (s : State) : Nat := s.curCore.toNat

/-- Number of the hart that executes now: 0 to 3 user, 4 and 5 ferry. -/
def State.me (s : State) : Nat := s.curHart.toNat

/-- The hart that executes now. -/
def State.hart (s : State) : Hart := s.hartAt s.here s.me

def State.setHart (s : State) (h : Hart) : State := s.setHartAt s.here s.me h

def State.modHart (s : State) (f : Hart → Hart) : State := s.setHart (f s.hart)

def State.die (s : State) (d : Nat) : Die := lookupD s.dies d Die.reset

def State.modDie (s : State) (d : Nat) (f : Die → Die) : State := { s with dies := insert s.dies d (f (s.die d)) }

def State.tenant (s : State) (t : Nat) : Tenant := lookupD s.wharf.tenants t Tenant.reset

def State.modWharf (s : State) (f : Wharf → Wharf) : State := { s with wharf := f s.wharf }

def State.modTenant (s : State) (t : Nat) (f : Tenant → Tenant) : State :=
  s.modWharf fun w => { w with tenants := insert w.tenants t (f (s.tenant t)) }

def State.modHost (s : State) (f : HostState → HostState) : State := { s with host := f s.host }

/-- Die of a package core (R12). -/
def dieOf (c : Nat) : Nat := c / Config.coresPerDie

/-- Ferry harts are harts 4 and 5. -/
def isFerry (h : Nat) : Bool := decide (4 ≤ h)

/-- Turns that follow at once from what a step did, before the other turns. -/
def State.push (s : State) (t : Turn) : State := { s with agenda := t :: s.agenda }

/-! Registers -/

/-- x[r]; x0 reads zero (R41). -/
def Hart.getX (h : Hart) (r : Nat) : Word := if r = 0 then 0 else lookupD h.x r 0

/-- A write of x[r]; a write to x0 is discarded (R41). -/
def Hart.setX (h : Hart) (r : Nat) (w : Word) : Hart := if r = 0 then h else { h with x := insert h.x r w }

def Hart.getK (h : Hart) (k : Nat) : Bool := h.k.getLsbD k

def Hart.setK (h : Hart) (k : Nat) (b : Bool) : Hart :=
  { h with k := BitVec.ofNat 8 (setBits h.k.toNat k 1 (bit b)) }

def Hart.getB (h : Hart) (b : Nat) : TReg := lookupD h.b b TReg.reset

def Hart.setB (h : Hart) (b : Nat) (t : TReg) : Hart := { h with b := insert h.b b t }

/-- The address that a target register holds (R93). -/
def TReg.target (t : TReg) : BitVec 48 := BitVec.ofNat 48 (t.addr.toNat * 2)

/-- The front goes on at an address, with nothing taken from a prefetch buffer. -/
def Hart.setPc (h : Hart) (pc : BitVec 48) : Hart := { h with pc := pc, lead := Lead.none }

def Hart.getV (h : Hart) (v : Nat) : VImage := lookupD h.vec.v v 0

def Hart.setV (h : Hart) (v : Nat) (x : VImage) : Hart := { h with vec := { h.vec with v := insert h.vec.v v x } }

def Hart.getSide (h : Hart) (v : Nat) : VSide := lookupD h.vec.side v 0

def Hart.setSide (h : Hart) (v : Nat) (x : VSide) : Hart :=
  { h with vec := { h.vec with side := insert h.vec.side v x } }

/-- m[n]; m0 reads all ones (R271). -/
def Hart.getM (h : Hart) (n : Nat) : MaskBits := if n = 0 then BitVec.allOnes 4096 else lookupD h.vec.m n 0

/-- A write of m[n]; m0 is not writable (R41). -/
def Hart.setM (h : Hart) (n : Nat) (x : MaskBits) : Hart :=
  if n = 0 then h else { h with vec := { h.vec with m := insert h.vec.m n x } }

/-- VLMAX of a type code under the current grant (R58): 256 bits for each lane over the bits of the element. -/
def typeBits (ty : Nat) : Nat :=
  match ty with
  | 0 => 8 | 1 => 16 | 2 => 32 | 3 => 64
  | 4 => 8 | 5 => 16 | 6 => 32 | 7 => 64
  | 8 => 8 | 9 => 8 | 10 => 4 | 11 => 16 | 12 => 16 | 13 => 32 | 14 => 64
  | _ => 8

def vlMax (grant ty : Nat) : Nat := 256 * grant / typeBits ty

/-- The address and the first unfinished element of the oldest of some entries; the front PC and 0 where there is none. A
captured loop stands at its body instruction. -/
def Hart.position (h : Hart) (l : List VEntry) : BitVec 48 × Nat :=
  match l with
  | [] => (h.pc, 0)
  | e :: _ =>
    match e.instr, h.lp.loop with
    | .loop _ _, some l =>
      match l.body[l.pos]? with
      | none => (e.pc, 0)
      | some b => (b.pc, b.start)
    | _, _ => (e.pc, e.start)

/-- VCP and VSTART (R50): the oldest incomplete vector instruction's address and its first unfinished element. The entries
that a trap holds stay in the VIQ (R220), before those of its handler. -/
def Hart.vcp (h : Hart) : BitVec 48 × Nat := h.position (h.vec.held ++ h.vec.viq)

/-- The same of the oldest entry that the vector side executes now. -/
def Hart.ownVcp (h : Hart) : BitVec 48 × Nat := h.position h.vec.viq

/-! Retiring and stalling -/

/-- The front instruction of `n` bytes completes: PC moves past it and RETIRED counts it. -/
def Hart.retire (h : Hart) (n : Nat) : Hart :=
  { h with pc := h.pc + BitVec.ofNat 48 n
           run := { h.run with retired := h.run.retired + 1, why := 0, atBar := false } }

/-- RETIRED counts one instruction of the hart. -/
def Hart.count (h : Hart) : Hart :=
  { h with run := { h.run with retired := h.run.retired + 1 } }

/-- The current hart waits, for a reason of R247; its PC stays. -/
def stall (reason : Nat) (s : State) : State :=
  s.modHart fun h => { h with run := { h.run with why := BitVec.ofNat 4 reason } }

/-- A scalar result: x[d] takes a value and the instruction of `n` bytes retires. -/
def writeX (n d : Nat) (w : Word) (s : State) : State := s.modHart fun h => (h.setX d w).retire n

/-! Groups -/

def State.group? (s : State) (g : Nat) : Option Group := lookup s.wharf.groups g

def State.modGroup (s : State) (g : Nat) (f : Group → Group) : State :=
  match s.group? g with
  | none => s
  | some x => s.modWharf fun w => { w with groups := insert w.groups g (f x) }

/-- The group of the current hart. -/
def State.myGroup (s : State) : Option Group :=
  match s.hart.id.group with
  | none => none
  | some g => s.group? g

/-- The number of bytes of the current hart's arena: 0 without a group; a ferry hart reaches the whole LS (R14, R86). -/
def State.arenaSize (s : State) : Nat :=
  match s.myGroup with
  | none => if isFerry s.me then Config.lsSize else 0
  | some g => g.size

def State.arenaBase (s : State) : Nat :=
  match s.myGroup with
  | none => 0
  | some g => g.lsBase

/-- The resident groups of a launch. -/
def State.groupsOf (s : State) (launch : Nat) : List (Nat × Group) :=
  s.wharf.groups.filter fun e => e.2.launch == launch

/-- The group of member `m` of the W gang of a group (R142), with its number. -/
def State.gangMember (s : State) (g : Group) (m : Nat) : Option (Nat × Group) :=
  match g.gang with
  | none => none
  | some (gang, _) => (s.groupsOf g.launch).find? fun e => e.2.gang == some (gang, m)

/-- The MMA.c that a hart holds, oldest first. -/
def Hart.crewEntries (x : Hart) : List VEntry :=
  (x.vec.held ++ x.vec.viq).filter fun v => match v.instr with
    | .mmaC _ _ _ _ _ => true
    | _ => false

/-- Physical number of a hart's tile (R186); 0 for a number outside its claim, which R191 lets a crew operation of a leader that
then raises ENGINE 27 name (DESIGN CHOICE; log entry 118). -/
def physTile (x : Hart) (t : Nat) : Nat :=
  match x.tile.claim with
  | some (ts, _) => ts.getD t 0
  | none => 0

/-- The first tile operand of an MMA.c. -/
def crewTile (v : VEntry) : Nat :=
  match v.instr with
  | .mmaC ta _ _ _ _ => ta.toNat
  | _ => 0

/-- The MMA.c that a group has dispatched and not executed since its admission, in dispatch order (R191). -/
def State.crewPending (s : State) (g : Group) : List CrewOp :=
  if g.aborted then g.crewLeft
  else
    g.crewQueue.zipIdx.filterMap fun q =>
      let x := s.hartAt g.core.toNat q.1.toNat
      (x.crewEntries[((g.crewQueue.take q.2).filter fun h => h == q.1).length]?).map fun v =>
        { entry := v, tile := physTile x (crewTile v) }

/-! Machine-check banks -/

/-- The bank of a core (0 to 3) or of its die (8 to 15). -/
def State.bank (s : State) (c b : Nat) : Bank :=
  if b < 4 then lookupD (s.core c).banks b Bank.reset else lookupD (s.die (dieOf c)).banks b Bank.reset

def State.setBank (s : State) (c b : Nat) (x : Bank) : State :=
  if b < 4 then s.modCore c fun k => { k with banks := insert k.banks b x }
  else s.modDie (dieOf c) fun d => { d with banks := insert d.banks b x }

/-- STATUS with a record of a class, source and syndrome; OVER and CECNT stay (R228). -/
def statusRecord (old : Word) (cls source syndrome : Nat) (av again : Bool) : Word :=
  word (2 ^ 63 + bit again * 2 ^ 62 + cls * 2 ^ 60 + bit av * 2 ^ 59 + 2 ^ 58 + wbits old 32 16 * 2 ^ 32 +
    source * 2 ^ 16 + syndrome)

/-- MISC of an error: tenant, package core, hart and PC (R228). -/
def miscRecord (tenant core hart pc : Nat) : Word :=
  word (tenant * 2 ^ 58 + core * 2 ^ 51 + hart * 2 ^ 48 + pc)

/-- A bank meets an error of a class: 0 report, 1 corrected, 2 contained, 3 fatal (R228). -/
def Bank.log (b : Bank) (cls source syndrome : Nat) (addr : Option Word) (misc : Word) : Bank :=
  let held := b.status.getLsbD 63
  let again := held && (b.status.getLsbD 62 || cls != 1)
  let status := if held && cls != 1 then b.status ||| (1 <<< 62 : Word) else b.status
  if !held || decide (wbits b.status 60 2 < cls) then
    { b with status := statusRecord b.status cls source syndrome addr.isSome again, addr := addr.getD 0, misc := misc }
  else { b with status := status }

def logBank (c b cls source syndrome : Nat) (addr : Option Word) (misc : Word) (s : State) : State :=
  s.setBank c b ((s.bank c b).log cls source syndrome addr misc)

/-- Tenant of a hart's group. -/
def Hart.tenantNo (h : Hart) : Nat := wbits h.id.tenant 0 6

/-! Ending a hart -/

/-- The claim of the hart returns to its group's reservation (R186). -/
def releaseClaim (c h : Nat) (s : State) : State :=
  let x := s.hartAt c h
  match x.tile.claim, x.id.group with
  | some (ts, as_), some g =>
    (s.modGroup g fun y => { y with freeTiles := (y.freeTiles ++ ts).mergeSort (fun a b => decide (a ≤ b)), freeAccs := (y.freeAccs ++ as_).mergeSort (fun a b => decide (a ≤ b)) }).modHartAt c h fun x =>
      { x with tile := { x.tile with claim := none } }
  | _, _ => s.modHartAt c h fun x => { x with tile := { x.tile with claim := none } }

/-- The hart stops for good: its claim and stream slots are released, its lanes return to the pool, and it becomes free; the
registers of R203 take their reset values (R203, R215, R231). -/
def endHart (c h : Nat) (s : State) : State :=
  let s := releaseClaim c h s
  let x := s.hartAt c h
  let lanes := x.vec.grant + (x.id.parked.map (·.2)).sum
  let s := s.modHartAt c h fun x =>
    { x with
      lead := Lead.none
      vec := { x.vec with viq := [], held := [], grant := 0 }
      lp := { x.lp with loop := none }
      ms := { x.ms with stq := [], streams := [], tails := [], window := none, copyWords := [], collWords := [],
                        copyTokens := [], collTokens := [] }
      rc := { x.rc with pontoon := none, act := false, phase := 0 }
      id := { Hart.reset.id with group := x.id.group }
      run := { x.run with running := false, wait := none, inval := none, deq := false, atBar := false, why := 0 } }
  s.modCore c fun k =>
    { k with pool := k.pool + lanes
             pontoonOwner := if k.pontoonOwner == some (BitVec.ofNat 3 h) then none else k.pontoonOwner }

/-- The Landing entries of a user hart are removed. -/
def dropEntries (c h : Nat) (s : State) : State :=
  s.modCore c fun k =>
    { k with land := { k.land with entries := k.land.entries.filter fun e => decide (e.2.hart.toNat ≠ h) } }

/-! Contained errors -/

/-- The oldest waiting command of a record that satisfies `p` has a new state. -/
def markCommand (p : CmdRecord → Bool) (st : CmdState) : List CmdRecord → List CmdRecord
  | [] => []
  | r :: l => if p r && r.state == .waiting then { r with state := st } :: l else r :: markCommand p st l

/-- The copy commands of a group that wait for a free slot of a channel are cancelled, and write nothing (R231). -/
def cancelCopies (c g : Nat) (s : State) : State :=
  let waits : CopyCmd → Bool := fun q => q.group == g && (q.words.getD 0 0).getLsbD 17 &&
    match lookup (s.core c).channels (wbits (q.words.getD 0 0) 18 4) with
    | none => true
    | some ch => ch.free == 0
  s.modCore c fun k =>
    { k with
      copyFifo := k.copyFifo.filter fun q => !waits q
      copyLog := (k.copyFifo.filter waits).foldl (fun l q =>
        markCommand (fun r => r.order == q.order && r.words == q.words) .cancelled l) k.copyLog }

/-- A hart of a group that is being aborted: it enters S with cause 0x13, or ends at once (R231). -/
def abortHart (c h bank core : Nat) (status addr misc : Word) (s : State) : State :=
  let s := dropEntries c h s
  let s := s.modHartAt c h fun x =>
    { x with lead := Lead.none
             vec := { x.vec with viq := [], held := [] }
             lp := { x.lp with loop := none }
             ms := { x.ms with stq := [], copyWords := [], collWords := [] } }
  let x := s.hartAt c h
  if !x.run.running then s
  else if x.tr.tbase != 0 && !x.tr.tcause.getLsbD 59 && !(x.tr.tcause.getLsbD 63 && wbits x.tr.tcause 0 8 == 0x13) then
    s.modHartAt c h fun x =>
      { x with
        tr := { x.tr with
          tpc := word x.pc.toNat
          tvcp := word x.pc.toNat
          tvst := 0
          tcause := word (2 ^ 63 + bit x.tr.sup * 2 ^ 60 + 2 ^ 59 + 0x13)
          tinfo0 := word (bank + core * 16)
          tinfo1 := status
          tinfo2 := addr
          tinfo3 := misc
          sup := true }
        pc := BitVec.ofNat 48 x.tr.tbase.toNat
        rc := { x.rc with pontoon := none, act := false, phase := 0, rout := 3, batch := 0 }
        run := { x.run with wait := none, inval := none, deq := false, atBar := false, why := 0, halted := false,
                            stopped := x.run.stopped && !x.run.halted } }
  else endHart c h s

/-- A contained error aborts a group: every hart of it stops, a pre-emption that it was named for is off, and commands that
wait for a slot of its channels are cancelled; one that comes to wait for a slot later is cancelled then (R231). TINFO0 holds the
number `core`: of an error in a die bank, for which R231 names none, that of the bank's `Contained` record, which for near memory is the
first core of the die that owns the address and else the core of the access (DESIGN CHOICE; log entry 131). Of a group that is already
aborted, the crew operations stay resolved as they were (R232). -/
def abortGroup (g bank core : Nat) (status addr misc : Word) (s : State) : State :=
  match s.group? g with
  | none => s
  | some x =>
    let c := x.core.toNat
    let limit := ((indices 4).map fun m => match s.gangMember x m with
      | some (_, y) => y.crewDone + (s.crewPending y).length
      | none => 0).min?.getD 0
    let rows : Nat → List (TileRow × TileSide) := fun t => (indices 128).map fun r =>
      (lookupD (s.core c).tiles.rows (t * 128 + r) 0, lookupD (s.core c).tiles.sides (t * 128 + r) 0)
    let left := (s.crewPending x).map fun q => { q with rows := some (rows q.tile) }
    let s := s.modGroup g fun y =>
      if y.aborted then { y with victim := false }
      else { y with aborted := true, victim := false, crewLimit := limit, crewLeft := left }
    let s := x.harts.foldl (fun s h => abortHart c h.toNat bank core status addr misc s) s
    let s := (cancelCopies c g s).modCore c fun k =>
      { k with copyFifo := k.copyFifo.map fun q => if q.group = g then { q with dropped := true } else q }
    s.modDie (dieOf c) fun d =>
      { d with coll := d.coll.map fun q => if q.group = g then { q with dropped := true } else q }

/-- A corrected error is counted, recorded when no record is held and LOGCE is 1, and makes the host's interrupt when
CECNT reaches THRESH (R228). -/
def correctError (c b source syndrome : Nat) (addr : Option Word) (misc : Word) (s : State) : State :=
  let k := s.bank c b
  let old := wbits k.status 32 16
  let n := Nat.min (old + 1) 0xFFFF
  let k' := if !k.status.getLsbD 63 && k.ctl.getLsbD 0 then k.log 1 source syndrome addr misc else k
  let s := s.setBank c b { k' with status := word (setBits k'.status.toNat 32 16 n) }
  if n != old && n == wbits k.ctl 16 16 then
    s.push (.event .ceThreshold { core := BitVec.ofNat 7 c, bank := BitVec.ofNat 4 b })
  else s

/-! Entries of the Landing and their poison (R83, R86, R88) -/

def Core.entries (k : Core) : AMap LEntry := k.land.entries

def Core.setEntries (k : Core) (l : AMap LEntry) : Core := { k with land := { k.land with entries := l } }

def State.entry? (s : State) (c n : Nat) : Option LEntry := lookup (s.core c).entries n

def State.setEntry (s : State) (c n : Nat) (e : LEntry) : State :=
  s.modCore c fun k => k.setEntries (insert k.entries n e)

/-- Whether an entry is poisoned (R83). -/
def LEntry.bad (e : LEntry) : Bool := e.state == .inherited || e.state == .poisoned

/-- The producers' poison reaches every entry that waits on it, and entries whose producers are all well return to
waiting (R83, R88, R90); repeated over the dependants of dependants. -/
def settlePoison (c : Nat) (s : State) : State :=
  let once : Core → Core := fun k =>
    k.setEntries (mapValues (fun _ e =>
      if e.state == .waiting || e.state == .inherited then
        let bad := e.links.any fun l => match lookup k.entries l.entry with
          | some p => p.bad
          | none => false
        { e with state := if bad then .inherited else .waiting, cause := 0 }
      else e) k.entries)
  if (s.core c).entries.all fun e => !e.2.bad then s
  else s.modCore c fun k => (indices k.entries.length).foldl (fun k _ => once k) k

/-! Elements -/

/-- Element `e` of an image whose elements have `n` bits (R60). -/
def elemOf (img : VImage) (n e : Nat) : Nat := img.toNat / 2 ^ (n * e) % 2 ^ n

/-- The image with element `e` of `n` bits replaced. -/
def putElem (img : VImage) (n e w : Nat) : VImage := BitVec.ofNat 16384 (setBits img.toNat (n * e) n w)

/-- B of a register after bytes up to `n` have been written (R62). -/
def Hart.noteWritten (h : Hart) (r n : Nat) : Hart :=
  { h with vec := { h.vec with written := insert h.vec.written r (Nat.max (lookupD h.vec.written r 0) n) } }

/-- Element `e` of `n` bits of register `r` takes a value, and the register counts as written up to it. -/
def Hart.setElem (h : Hart) (r n e w : Nat) : Hart :=
  (h.setV r (putElem (h.getV r) n e w)).noteWritten r (ceilDiv (n * (e + 1)) 8)

/-- All VIQ entries of a hart: those that a trap holds, those of its own, and the body of its captured loop. -/
def Hart.allEntries (x : Hart) : List VEntry :=
  x.vec.held ++ x.vec.viq ++ (match x.lp.loop with
    | some l => l.body
    | none => [])

def Hart.mapEntries (f : VEntry → VEntry) (x : Hart) : Hart :=
  { x with vec := { x.vec with held := x.vec.held.map f, viq := x.vec.viq.map f }
           lp := { x.lp with loop := x.lp.loop.map fun l => { l with body := l.body.map f } } }

/-- What DEFERRED reported last is remembered while its entry stands. -/
def Core.forget (k : Core) : Core :=
  { k with harts := mapValues (fun _ x =>
      match x.hole.reported with
      | some n => if (lookup k.entries n).isNone then { x with hole := { x.hole with reported := none } } else x
      | none => x) k.harts }

/-- First bit of an entry's element in its destination register. -/
def LEntry.first (e : LEntry) : Nat := e.index.toNat * e.width

/-- An operand of a waiting entry takes bits of a producer's value. -/
def LEntry.take (e : LEntry) (l : Link) (val : Nat) : LEntry :=
  let put : Word → Word := fun w => word (setBits w.toNat l.dst l.n (bits val l.src l.n))
  match l.operand with
  | 0 => { e with opa := put e.opa }
  | 1 => { e with opb := put e.opb }
  | _ => { e with opc := put e.opc }

/-- The row of a gather entry takes a producer's value (R288). -/
def GatherRow.take (r : GatherRow) (entry val : Nat) : GatherRow :=
  (r.holes.filter fun x => x.entry == entry).foldl
    (fun r x => { r with img := BitVec.ofNat 16384 (setBits r.img.toNat x.dst x.n (bits val x.src x.n)) })
    { r with holes := r.holes.filter fun x => x.entry != entry }

/-- The cells of a store element with bits [dst + n - 1 : dst] of its bytes replaced. -/
def patchCells (cells : List StoreCell) (q : Patch) (val : Nat) : List StoreCell :=
  let w := cells.foldr (fun c w => c.data.toNat + 256 * w) 0
  let w := setBits w q.dst q.n (bits val q.src q.n)
  cells.zipIdx.map fun (c, i) => { c with data := BitVec.ofNat 8 (w / 256 ^ i) }

/-- An image with the bits that an entry owes it taken from a value. -/
def fillElem (img : VImage) (e : LEntry) (live : Word) (val : Nat) : VImage :=
  let old := elemOf img e.width e.index.toNat
  putElem img e.width e.index.toNat ((old &&& (2 ^ 64 - 1 - live.toNat)) ||| (val &&& live.toNat))

/-- A filled entry writes its element of an old row that it owes. -/
def OldRow.take (o : OldRow) (n : Nat) (e : LEntry) (val : Nat) : OldRow :=
  match o.holes.find? fun p => p.1 == n with
  | none => o
  | some p => { o with img := fillElem o.img e p.2 val, holes := o.holes.filter fun p => p.1 != n }

/-- An entry becomes filled: its value is written into the bits of the destination that it still owes, and forwarded to
each dependant and each store element that waits for it, and the entry frees (R84). -/
def completeEntry (c n val : Nat) (s : State) : State :=
  match s.entry? c n with
  | none => s
  | some e =>
    let h := e.hart.toNat
    let s := s.modHartAt c h fun x =>
      let x := x.mapEntries fun v => { v with old := v.old.map fun o => o.take n e val }
      if e.live = 0 then x else x.setV e.reg.toNat (fillElem (x.getV e.reg.toNat) e e.live val)
    let s := s.modCore c fun k =>
      let k := k.setEntries (mapValues (fun _ d =>
        (d.links.filter fun l => l.entry == n).foldl (fun d l => d.take l val)
          { d with links := d.links.filter (fun l => l.entry != n), gather := d.gather.map fun r => r.take n val })
            (erase k.entries n))
      let fix : Pending → Pending := fun p =>
        { p with cells := (p.holes.filter fun q => q.entry == n).foldl (fun cs q => patchCells cs q val) p.cells
                 holes := p.holes.filter fun q => q.entry != n }
      ({ k with harts := mapValues (fun _ x =>
          { x with ms := { x.ms with stq := x.ms.stq.map fix } }) k.harts } : Core).forget
    settlePoison c s

/-- Under DET an entry that becomes poisoned after the hart has written its element is resolved with the value written, as it
would have been had it been poisoned before (R90, R92; log entry 125). -/
def resolveWritten (c : Nat) (s : State) : State :=
  if (s.core c).entries.all fun e => !(e.2.bad && e.2.written.isSome) then s
  else
    (indices (s.core c).entries.length).foldl (fun s _ =>
      match (s.core c).entries.find? fun e => e.2.bad && e.2.written.isSome with
      | none => s
      | some e => completeEntry c e.1 (e.2.written.getD 0).toNat s) s

/-- An entry is poisoned with a cause and detail, and its dependants inherit it (R86, R88). -/
def poisonEntry (c n cause detail : Nat) (s : State) : State :=
  match s.entry? c n with
  | none => s
  | some e =>
    resolveWritten c (settlePoison c (s.setEntry c n
      { e with state := .poisoned, cause := BitVec.ofNat 8 cause, detail := BitVec.ofNat 8 detail }))

/-- The entry that a ferry hart holds: the one that its last LNGET gave, while it is in-ferry at this ferry (R85, R86). -/
def State.ferryHolds (s : State) (c f : Nat) : Option (Nat × LEntry) :=
  match (s.hartAt c f).hole.ferry with
  | none => none
  | some n =>
    match s.entry? c n with
    | none => none
    | some e => if e.state == .inFerry (f == 5) then some (n, e) else none

/-! Taking an exception -/

/-- The exception of a ferry hart: the entry that it holds is poisoned with the cause, its dependants with it, and the ferry
restarts at its last LNGET; with no entry held, the error is logged and it restarts at its firmware entry (R86, R220). A WAIT
that it was in is over. -/
def ferryException (c h : Nat) (e : Exc) (s : State) : State :=
  match s.ferryHolds c h with
  | some (n, _) =>
    (poisonEntry c n e.code 0 s).modHartAt c h fun x =>
      { x with pc := x.hole.lastLnget, lead := Lead.none, run := { x.run with wait := none }
               hole := { x.hole with ferry := none } }
  | none =>
    let s := correctError c 1 0x13 0 none (miscRecord 0 c h (s.hartAt c h).pc.toNat) s
    s.modHartAt c h fun x =>
      { x with pc := Config.ferryEntry, lead := Lead.none, run := { x.run with wait := none }
               hole := { x.hole with ferry := none } }

/-- Elements of `n` bits below `k` of an image, and the others of another. -/
def mixImages (n k : Nat) (below above : VImage) : VImage :=
  BitVec.ofNat 16384 (above.toNat / 2 ^ (n * k) * 2 ^ (n * k) + below.toNat % 2 ^ (n * k))

/-- The bits of a sidecar that `which` selects from one, and the others from another. -/
def mixSides (which below above : VSide) : VSide := (above &&& ~~~which) ||| (below &&& which)

/-- The bytes of a sidecar that scale blocks of elements of `n` bits from element `k` on (R120). -/
def sidesFrom (n k : Nat) : VSide := BitVec.allOnes 2048 <<< (8 * ((if n = 4 then 1 else 2) * ceilDiv k 16))

/-- Bits [lo, hi) of a mask from one, and the others of another. -/
def mixMasks (lo hi : Nat) (from_ others : MaskBits) : MaskBits :=
  let w : MaskBits := BitVec.ofNat 4096 ((2 ^ hi - 1) / 2 ^ lo * 2 ^ lo)
  (others &&& ~~~w) ||| (from_ &&& w)

/-- Whether an entry's element lies in elements [lo, hi) of `n` bits. -/
def LEntry.within (e : LEntry) (n lo hi : Nat) : Bool := decide (lo ≤ e.first / n) && decide (e.first / n < hi)

/-- Whether an entry is one that an instruction of a hart has made for its destination. -/
def LEntry.madeBy (e : LEntry) (h : Nat) (v : VEntry) (r : VReg) : Bool :=
  e.hart.toNat == h && v.seq == some e.seq && e.reg == r

/-- The first unfinished element at a stop that is not a fault of the instruction's own: the boundary of its element group
(R51, R226). The elements from there on have their old values again, with their scales and the bits of a carry mask, and the entries that they
made are discarded. -/
def roundEntry (c h : Nat) (v : VEntry) (s : State) : VEntry × State :=
  let k := v.start / 8 * 8
  match v.old with
  | none => ({ v with start := k }, s)
  | some o =>
    if k = v.start then (v, s)
    else
      let back := o.sides &&& sidesFrom o.n k
      let s := s.modHartAt c h fun x =>
        let img := x.getV o.reg.toNat
        let x := (x.setV o.reg.toNat (mixImages o.n k img (mixImages o.n v.start o.img img))).setSide o.reg.toNat
          (mixSides back o.side (x.getSide o.reg.toNat))
        match o.mask with
        | some (m, y) => x.setM m.toNat (mixMasks k v.start y (x.getM m.toNat))
        | none => x
      let s := s.modCore c fun q => q.setEntries
        ((q.entries.filter fun e => !(e.2.madeBy h v o.reg && e.2.within o.n k v.start)).map fun e =>
          match o.holes.find? fun p => p.1 == e.1 && e.2.within o.n k v.start with
          | some p => (e.1, { e.2 with live := p.2 })
          | none => e)
      ({ v with start := k, old := if k = 0 then none else some { o with sides := o.sides &&& ~~~back } }, s)

/-- The instruction at VCP of a hart stops at its element-group boundary. -/
def roundStop (c h : Nat) (s : State) : State :=
  let x := s.hartAt c h
  match x.vec.viq with
  | [] => s
  | v :: rest =>
    match v.instr, x.lp.loop with
    | .loop _ _, some l =>
      match l.body[l.pos]? with
      | none => s
      | some b =>
        if b.start % 8 = 0 then s
        else
          let (b, s) := roundEntry c h b s
          s.modHartAt c h fun x => { x with lp := { x.lp with loop := some { l with body := l.body.set l.pos b } } }
    | _, _ =>
      if v.start % 8 = 0 then s
      else
        let (v, s) := roundEntry c h v s
        s.modHartAt c h fun x => { x with vec := { x.vec with viq := v :: rest } }

/-- The package stops: every vector unit at an element-group boundary, and the host is interrupted (R233). -/
def stopPackage (s : State) : State :=
  (s.cores.foldl (fun s k => k.2.harts.foldl (fun s h => roundStop k.1 h.1 s) s) s).modHost fun o =>
    { o with fatal := true, irqs := o.irqs ++ [.fatal] }

/-- A contained error of a hart: it is logged, and the hart's group is aborted; for a hart of no group, fatal (R230). -/
def contain (e : Contained) (c h : Nat) (pc : BitVec 48) (s : State) : State :=
  let x := s.hartAt c h
  let misc := miscRecord x.tenantNo c h pc.toNat
  match x.id.group with
  | none =>
    stopPackage (logBank e.core e.bank 3 e.source 0 e.addr misc s)
  | some g =>
    let s := logBank e.core e.bank 2 e.source 0 e.addr misc s
    let b := s.bank e.core e.bank
    abortGroup g e.bank e.core b.status b.addr b.misc s

/-- A held instruction keeps its pages when it has stopped within itself, and otherwise translates them again when it is
reissued (R227; log entry 97). -/
def VEntry.holdPins (v : VEntry) : VEntry := if v.start = 0 then { v with pins := [], kept := [] } else v

/-- A trap holds the VIQ, and the stores that wait for its entries wait with them, ahead of those of the handler (R80, R220;
log entry 72). -/
def Hart.holdQueue (x : Hart) : Hart :=
  { x with
    vec := { x.vec with held := x.vec.held ++ x.vec.viq.map VEntry.holdPins, viq := [] }
    lp := { x.lp with loop := x.lp.loop.map fun l => { l with body := l.body.map VEntry.holdPins } }
    ms := { x.ms with stq := x.ms.stq.map fun p => { p with parked := p.after != 0 } } }

/-- An exception of a hart is taken (R220): `vs` for a vector-side trap, `tpc` the address to resume at, which is the front
PC at the trap. A contained error names the instruction that met it (R228). -/
def takeTrap (c h : Nat) (vs : Bool) (tpc : BitVec 48) (e : Exc) (s : State) : State :=
  let x := s.hartAt c h
  let at_ := if vs then x.ownVcp.1 else x.pc
  if isFerry h then ferryException c h e s
  else if x.tr.tbase = 0 then contain ⟨c, 0, 0x06, none⟩ c h at_ s
  else if x.tr.sup && x.tr.tcause.getLsbD 59 then contain ⟨c, 0, 0x05, none⟩ c h at_ s
  else
    let s := if vs then s else roundStop c h s
    let x := s.hartAt c h
    let p := { x with pc := tpc }.vcp
    s.setHartAt c h
      { x.holdQueue with
        tr := { x.tr with
          tpc := word tpc.toNat
          tvcp := word p.1.toNat
          tvst := word p.2
          tcause := word (bit vs * 2 ^ 62 + bit x.tr.sup * 2 ^ 60 + 2 ^ 59 + e.code)
          tinfo0 := e.info0
          tinfo1 := e.info1
          tinfo2 := e.info2
          tinfo3 := e.info3
          sup := true }
        pc := BitVec.ofNat 48 x.tr.tbase.toNat
        lead := Lead.none
        run := { x.run with why := 0, atBar := false, wait := none, inval := none, deq := false } }

/-- A front-side exception of the current hart, precise at its PC (R220). -/
def trapFront (e : Exc) (s : State) : State := takeTrap s.here s.me false s.hart.pc e s

/-- A trap that its own instruction of `n` bytes raises: TRAPI and BKPT resume after it (R220). -/
def trapAfter (n : Nat) (e : Exc) (s : State) : State :=
  takeTrap s.here s.me false (s.hart.pc + BitVec.ofNat 48 n) e s

/-- The stores that the trap held wait for their entries again, and those of the handler that wait for its own VIQ wait for the
held entries before them (R220). -/
def Hart.freeStores (x : Hart) : List Pending :=
  x.ms.stq.map fun p =>
    if p.parked then { p with parked := false }
    else if p.after = 0 then p
    else { p with after := p.after + x.vec.held.length }

/-- A held entry executes with VL at most the VLMAX in force (R286). -/
def Hart.regrant (h : Hart) (v : VEntry) : VEntry := { v with vl := Nat.min v.vl (vlMax h.vec.grant (wbits v.vtype 0 4)) }

/-- The MMA that raised the NONFIN of a trap is reissued without NFT when the handler has cleared NFT (R193; log
entry 31). -/
def Hart.reissued (h : Hart) : List VEntry :=
  match h.vec.held with
  | [] => []
  | v :: rest =>
    (if wbits h.tr.tcause 0 8 = 0x0B ∧ !h.fp.ctl.getLsbD 8 then { v with fpctl := v.fpctl &&& ~~~(1 <<< 8 : Word) } else v)
      :: rest

/-- LOCK becomes 0, and the vector side may execute the held entries again (R219, R225). -/
def Hart.unlock (h : Hart) : Hart :=
  { h with tr := { h.tr with tcause := h.tr.tcause &&& ~~~(1 <<< 59 : Word) }
           vec := { h.vec with viq := (h.reissued.map h.regrant) ++ h.vec.viq, held := [] }
           ms := { h.ms with stq := h.freeStores }
           lp := { h.lp with loop := h.lp.loop.map fun l => { l with body := l.body.map h.regrant } } }

/-- The return from a trap that can be resumed (R225): PLEV becomes PP, LOCK becomes 0, the held entries are released and
the front continues at TPC. -/
def returnFromTrap (h : Hart) : Hart :=
  { h.unlock with
    pc := BitVec.ofNat 48 h.tr.tpc.toNat
    lead := Lead.none
    tr := { h.unlock.tr with sup := h.tr.tcause.getLsbD 60 }
    run := { h.run with retired := h.run.retired + 1, why := 0, atBar := false } }

/-- What a front instruction comes to. -/
def finish (r : Res Unit) : Out :=
  match r with
  | .ok _ s => .next s
  | .wait n s => .next (stall n s)
  | .exc e _ s => .next (trapFront e s)
  | .contained c s => .next (contain c s.here s.me s.hart.pc s)
  | .stop f => .fault f

/-! Translation -/

/-- The registers that a translation reads: PTBASE, ASID, the privilege, and the core whose TLBs it uses (R163). -/
structure Ctx where
  core : Nat
  ptbase : Word
  asid : BitVec 16
  sup : Bool
  deriving DecidableEq, Repr

def State.ctx (s : State) : Ctx := ⟨s.here, s.hart.ms.ptbase, s.hart.ms.asid, s.hart.tr.sup⟩

/-- Kinds of access (R166). -/
inductive Access where
  | read | write | amo | fetch
  deriving DecidableEq, Repr

def Access.writes (k : Access) : Bool := k == .write || k == .amo

/-- Record of PAGE, PERM and WBLOCK (R166). -/
def pageExc (code : Nat) (k : Access) (va elem level : Nat) (pte : Word) : Exc :=
  { code := code, info0 := word va
    info1 := word (level + bit k.writes * 4 + bit (k == .fetch) * 8 + elem * 2 ^ 16), info2 := pte }

/-- log2 of the size of a leaf at a level with a SPAN, where the SPAN is legal (R165). -/
def leafBits (level span : Nat) : Option Nat :=
  match level, span with
  | 1, 0 => some 30 | 1, 1 => some 34
  | 2, 0 => some 21 | 2, 1 => some 25 | 2, 2 => some 29
  | 3, 0 => some 12 | 3, 1 => some 14 | 3, 2 => some 16
  | _, _ => none

/-- The permission that an access to a leaf lacks: PERM, or WBLOCK (R166). -/
def leafRefuses (pte : Word) (k : Access) (sup : Bool) : Option Nat :=
  let rd := pte.getLsbD 1
  let wr := pte.getLsbD 2
  let ex := pte.getLsbD 3
  let allowed := match k with
    | .read => rd
    | .write => wr
    | .amo => rd && wr
    | .fetch => ex
  if !allowed || (!sup && pte.getLsbD 4) then some 0x06
  else if k.writes && pte.getLsbD 7 then some 0x07
  else none

/-- Every running hart that waits on one of the lines of these places has its WAIT woken (R305). -/
def wake (places : List Nat) (s : State) : State :=
  { s with cores := mapValues (fun _ k =>
      { k with harts := mapValues (fun _ h =>
          match h.run.wait with
          | none => h
          | some w =>
            if places.any fun p => lineOf p == lineOf w.place then
              { h with run := { h.run with wait := some { w with hit := true } } }
            else h) k.harts }) s.cores }

/-- Lines that a list of places covers whole. -/
def wholeLines (places : List Nat) : List Nat :=
  if places.length < 64 then []
  else (places.filter fun p => p % 64 == 0).filter fun l =>
    let own := places.filter fun p => lineOf p == l
    decide (64 ≤ own.length) && (indices 64).all fun i => own.contains (l + i)

/-- The lines of a list are no longer poisoned (R230). -/
def cleanLines (l : List Nat) (s : State) : State :=
  if l.isEmpty then s else { s with poison := s.poison.filter fun p => !l.contains p }

/-- Bytes are written in memory: poison of a line written whole is cleared, and WAITs on the lines are woken
(R173, R230). -/
def performCells (cells : List StoreCell) (s : State) : State :=
  let places := cells.map (·.place)
  let mem := cells.foldl (fun m c =>
    writePlace m c.place ((readPlace m c.place &&& ~~~c.mask) ||| (c.data &&& c.mask))) s.mem
  let clean := wholeLines places
  wake places { s with mem := mem, poison := s.poison.filter fun l => !clean.contains l }

/-- The cells of the `n` low bytes of a number from a place upwards. -/
def cellsOf (p n w : Nat) : List StoreCell :=
  (indices n).map fun i => ⟨p + i, BitVec.ofNat 8 (w / 256 ^ i), 0xFF⟩

def performNat (p n w : Nat) (s : State) : State := performCells (cellsOf p n w) s

/-- Whether a link of a die has been switched off: some link has, and this one (R241). -/
def linkOff (d port : Nat) (s : State) : Bool :=
  (s.dies.any fun d => d.2.serdes.any fun q => q.2 == 2) && lookupD (s.die d).serdes port 0 == 2

/-- Whether a physical place exists and its port or link is up (R17, R143, R238, R241): an access, and a step of a walk, to one that
does not stops or is a contained error. -/
def reachable (core p : Nat) (s : State) : Res Unit :=
  let a := addressOf p
  match memoryOf p with
  | 0 => if Config.nmSize ≤ a then .stop .noSuchAddress else .ok () s
  | 1 =>
    if Config.fmSize ≤ a then .stop .noSuchAddress
    else if linkOff (Config.fmPort a).1.toNat (Config.fmPort a).2.val s then .contained ⟨core, 9, 0x51, some (word a)⟩ s
    else .ok () s
  | 3 =>
    let link := (Config.peerLink (BitVec.ofNat 6 (a / 2 ^ 46))).toNat
    if Config.nmSize ≤ a % 2 ^ 46 then .stop .noSuchAddress
    else if (s.host.linksDown ≠ 0 && s.host.linksDown.getLsbD link) || linkOff (link / 4) (Config.peerBase + link % 4) s then
      .contained ⟨core, 13, 0x91, some (word a)⟩ s
    else .ok () s
  | _ => .ok () s

/-- The walker (R165), over the levels that remain: the leaf with A and D set as the access sets them. A node stands in memory
that exists and is reached over a link that is up (R17, R238, R241). -/
def walk (cx : Ctx) (k : Access) (va elem : Nat) (node mt : Nat) (s : State) : List Nat → Res TlbEntry
  | [] => .exc (pageExc 0x05 k va elem 3 0) 0 s
  | lvl :: rest =>
    let a := node * 4096 + 8 * bits va (39 - 9 * lvl) 9
    let p := paPlace mt a
    (reachable cx.core p s).bind fun _ s =>
      let pte := word (readNat s.mem p 8)
      if !pte.getLsbD 0 || wbits pte 14 2 != 0 then .exc (pageExc 0x05 k va elem lvl pte) 0 s
      else if wbits pte 1 3 = 0 then
        match rest with
        | [] => .exc (pageExc 0x05 k va elem lvl pte) 0 s
        | _ :: _ => walk cx k va elem (wbits pte 16 40) (wbits pte 9 2) s rest
      else
        match leafBits lvl (wbits pte 11 2) with
        | none => .exc (pageExc 0x05 k va elem lvl pte) 0 s
        | some n =>
          match leafRefuses pte k cx.sup with
          | some code => .exc (pageExc code k va elem lvl pte) 0 s
          | none =>
            let new := pte ||| 0x20 ||| (if k.writes then 0x40 else 0)
            let s := if new = pte then s else performNat p 8 new.toNat s
            .ok ⟨cx.asid, va / 2 ^ n * 2 ^ n, n, lvl, new⟩ s

/-- The first TLB entry that translates an address for an ASID (R167). -/
def tlbFind (l : List TlbEntry) (asid : BitVec 16) (va : Nat) : Option TlbEntry :=
  l.find? fun e => (e.asid == asid || e.pte.getLsbD 13) && va / 2 ^ e.bits * 2 ^ e.bits == e.base

/-- The physical address of an access through a leaf (R165). -/
def physical (e : TlbEntry) (va : Nat) : Nat :=
  wbits e.pte 16 40 * 4096 / 2 ^ e.bits * 2 ^ e.bits + va % 2 ^ e.bits

/-- The leaves that the instructions and stores of a die's harts hold pinned (R167). -/
def pinnedLeaves (d : Nat) (s : State) : List TlbEntry :=
  (s.cores.filter fun k => dieOf k.1 == d).flatMap fun k => k.2.harts.flatMap fun h =>
    (h.2.allEntries.flatMap fun v => (v.pins ++ v.kept).map (·.leaf)) ++ h.2.ms.stq.filterMap fun p => p.pin.map (·.leaf)

/-- A last-level TLB of at most `n` entries: the oldest that is not pinned leaves it (R167). -/
def evictLeaf (n d : Nat) (l : List TlbEntry) (s : State) : List TlbEntry :=
  if l.length ≤ n then l
  else
    let pinned := pinnedLeaves d s
    match l.reverse.find? fun e => !pinned.contains e with
    | some e => (l.reverse.erase e).reverse
    | none => l.take n

/-- A leaf is held in the TLBs of a core and of its die. -/
def heldInTlbs (e : TlbEntry) (core : Nat) (s : State) : State :=
  let s := s.modCore core fun k => { k with tlb := (e :: k.tlb.filter (fun o => !(o.base == e.base && o.asid == e.asid))).take 256 }
  let d := dieOf core
  let l := evictLeaf 16384 d (e :: (s.die d).tlb.filter (fun o => !(o.base == e.base && o.asid == e.asid))) s
  s.modDie d fun y => { y with tlb := l }

/-- The translation of an address, through the TLBs or a walk, with its leaf (R165 to R167). A write whose TLB entry
has D = 0 is walked again, so that D is set. -/
def leafOf (cx : Ctx) (k : Access) (va : Word) (elem : Nat) (s : State) : Res TlbEntry :=
  if wbits va 48 16 ≠ 0 then .exc (pageExc 0x05 k va.toNat elem 0 0) 0 s
  else
    let walked : Unit → Res TlbEntry := fun _ =>
      (walk cx k va.toNat elem (wbits cx.ptbase 12 40) (wbits cx.ptbase 0 2) s [0, 1, 2, 3]).bind fun e s =>
        .ok e (heldInTlbs e cx.core s)
    let use : TlbEntry → Res TlbEntry := fun e =>
      match leafRefuses e.pte k cx.sup with
      | some code => .exc (pageExc code k va.toNat elem e.level e.pte) 0 s
      | none => if k.writes && !e.pte.getLsbD 6 then walked () else .ok e s
    match tlbFind (s.core cx.core).tlb cx.asid va.toNat with
    | some e => use e
    | none =>
      match tlbFind (s.die (dieOf cx.core)).tlb cx.asid va.toNat with
      | some e => use e
      | none => walked ()

/-- The place that a GV access reaches, with the leaf of its page. -/
def translate (cx : Ctx) (k : Access) (va : Word) (elem : Nat) (s : State) : Res (Nat × TlbEntry) :=
  (leafOf cx k va elem s).bind fun e s =>
    let p := paPlace (wbits e.pte 9 2) (physical e va.toNat)
    (reachable cx.core p s).bind fun _ s => .ok (p, e) s

/-- Whether a pin translates an address for an access of a kind. -/
def Pin.serves (p : Pin) (k : Access) (sup : Bool) (va : Nat) : Bool :=
  va / 2 ^ p.leaf.bits * 2 ^ p.leaf.bits == p.leaf.base && (leafRefuses p.leaf.pte k sup).isNone &&
    (!k.writes || p.leaf.pte.getLsbD 6)

/-- As `translate`, for an access that holds pages: a translation that it holds stands (R167). -/
def translateHeld (pins : List Pin) (cx : Ctx) (k : Access) (va : Word) (elem : Nat) (s : State) : Res (Nat × TlbEntry) :=
  match if wbits va 48 16 = 0 then pins.find? fun p => p.serves k cx.sup va.toNat else none with
  | some p =>
    let a := paPlace (wbits p.leaf.pte 9 2) (physical p.leaf va.toNat)
    (reachable cx.core a s).bind fun _ s => .ok (a, p.leaf) s
  | none => translate cx k va elem s

/-- A page becomes pinned. -/
def State.pin (s : State) (e : TlbEntry) : Pin := ⟨e, s.inval⟩

/-! Page heat -/

/-- Page-size index of a leaf: 0 for 4 KiB up to 7 for 16 GiB (R172). -/
def sizeIndex (bits : Nat) : Nat :=
  match bits with
  | 12 => 0 | 14 => 1 | 16 => 2 | 21 => 3 | 25 => 4 | 29 => 5 | 30 => 6 | _ => 7

/-- One access to a page with HC = 1 is counted; a count at or above HEATTH resets and is a HEAT_THRESHOLD (R170, R254). -/
def countHeat (core tenant : Nat) (e : TlbEntry) (s : State) : State :=
  if !e.pte.getLsbD 8 then s
  else
    let d := dieOf core
    let t := BitVec.ofNat 6 tenant
    let set := bits e.base 12 10
    let size := sizeIndex e.bits
    let l := lookupD (s.die d).heat.sets set []
    let same : HeatEntry → Bool := fun h => h.tenant == t && h.page == e.base && h.size == size
    let n := match l.find? same with
      | some h => h.count + 1
      | none => 1
    let reached := decide ((s.die d).heat.threshold.toNat ≤ n)
    let l := (⟨t, e.base, size, if reached then 0 else n⟩ :: l.filter fun h => !same h).take 8
    let s := s.modDie d fun x => { x with heat := { x.heat with sets := insert x.heat.sets set l } }
    if reached then
      s.push (.event .heatThreshold { die := BitVec.ofNat 2 d, tenant := t, page := BitVec.ofNat 48 e.base,
                                      size := BitVec.ofNat 3 size, value := word n })
    else s

/-- Each page of a list is counted once. -/
def countPages (core tenant : Nat) (es : List TlbEntry) (s : State) : State :=
  (es.foldl (fun l e => if l.any (fun o => o.base == e.base) then l else l ++ [e]) []).foldl
    (fun s e => countHeat core tenant e s) s

/-! Loads -/

/-- The core or die bank that logs a read of a poisoned line, and its source (R230). The bank of near memory is that of
the die that owns the address. R230 does not say which die's bank 9, 12 or 13 takes a line of FM, HM or PM: that of the core of the access
(DESIGN CHOICE; log entry 132). -/
def poisonError (core p : Nat) : Contained :=
  let a := some (word (addressOf p))
  match memoryOf p with
  | 0 => ⟨Config.coresPerDie * (addressOf p / Config.nmDie), 8, 0x41, a⟩
  | 1 => ⟨core, 9, 0x51, a⟩
  | 2 => ⟨core, 12, 0x82, a⟩
  | 3 => ⟨core, 13, 0x92, a⟩
  | m => ⟨m - 4, 3, 0x30, a⟩

def poisoned (p n : Nat) (s : State) : Bool :=
  s.poison.any fun l => decide (l < p + n) && decide (p < l + 64)

/-- The `n` bytes at a place, as a little-endian number; a poisoned line is a contained error (R230). -/
def loadPlace (core p n : Nat) (s : State) : Res Nat :=
  if poisoned p n s then .contained (poisonError core p) s else .ok (readNat s.mem p n) s

/-! LS and the crew window -/

/-- LSBOUND with the offset of the access and its element (R141, R221). -/
def boundExc (off elem : Nat) (write : Bool) : Exc :=
  { code := 0x08, info0 := word off, info1 := word (bit write * 4 + elem * 2 ^ 16) }

/-- The place of `n` bytes at an arena offset of a hart, or LSBOUND (R141). -/
def lsPlaceOf (c base size : Nat) (off : Word) (n elem : Nat) (write : Bool) (s : State) : Res Nat :=
  if off.toNat + n ≤ size then .ok (lsPlace c (base + off.toNat)) s
  else .exc (boundExc off.toNat elem write) elem s

/-- The place of `n` bytes at a crew-window offset, or LSBOUND (R142, R232). -/
def clsPlaceOf (g : Option Group) (off : Word) (n elem : Nat) (write : Bool) (s : State) : Res Nat :=
  let bad : Res Nat := .exc (boundExc off.toNat elem write) elem s
  match g with
  | none => bad
  | some g =>
    match s.gangMember g (off.toNat / Config.lsSize) with
    | none => bad
    | some (_, m) =>
      let o := off.toNat % Config.lsSize
      if o + n ≤ m.size ∧ !m.aborted then .ok (lsPlace m.core.toNat (m.lsBase + o)) s else bad

/-! Fetch -/

/-- A cache of `cap` lines takes one more: when it is full, a line that the spec leaves open leaves it (R14). -/
def cacheLine (cap l : Nat) (b : List Byte) (m : AMap (List Byte)) (s : State) : AMap (List Byte) × State :=
  if m.length < cap then (insert m l b, s)
  else
    let (w, s) := freshWord s
    (insert (m.eraseIdx (w.toNat % m.length)) l b, s)

/-- The bytes of a line in a list of fetched bytes become those of its newer content. -/
def refreshCode (l : Nat) (b : List Byte) (q : List CodeByte) : List CodeByte :=
  q.map fun e => if lineOf e.1 = l then (e.1, b.getD (e.1 % 64) 0) else e

/-- No hart of the core fetches older content of a line again (R100): its prefetch buffers follow. -/
def Hart.refresh (l : Nat) (b : List Byte) (x : Hart) : Hart :=
  { x with b := mapValues (fun _ t => { t with buf := refreshCode l b t.buf }) x.b
           lead := { x.lead with buf := refreshCode l b x.lead.buf } }

/-- The bytes of the aligned 64-byte block that holds a place, through the instruction cache (R100), which holds no line of HM
(R235). -/
def fetchBlock (core p : Nat) (s : State) : List Byte × State :=
  match lookup (s.core core).icache (lineOf p) with
  | some b => (b, s)
  | none =>
    let l := lineOf p
    let b := readPlaces s.mem l 64
    let (m, s) := if memoryOf p = 2 then ((s.core core).icache, s)
      else cacheLine Config.icacheBlocks l b (s.core core).icache s
    (b, s.modCore core fun k => { k with icache := m, harts := mapValues (fun _ x => x.refresh l b) k.harts })

/-- The halfword at an address that the front took from a prefetch buffer. -/
def Lead.half (q : Lead) (va : BitVec 48) : Option Nat :=
  if va.toNat < q.base.toNat then Option.none
  else
    let i := va.toNat - q.base.toNat
    match q.buf[i]?, q.buf[i + 1]? with
    | some a, some b => some (a.2.toNat + 256 * b.2.toNat)
    | _, _ => Option.none

/-- The page through which a prefetch buffer read a code address. -/
def Lead.page (q : Lead) (va : BitVec 48) : Option TlbEntry :=
  q.pages.find? fun e => va.toNat / 2 ^ e.bits * 2 ^ e.bits == e.base

/-- The halfword at a code address (R37), from what the last transfer took from its prefetch buffer, or through the
instruction cache; a poisoned line that the cache does not hold is a contained error. A page is checked at the fetch, also when
the bytes come from a buffer that was filled at another privilege (R37, R95). -/
def fetchHalf (cx : Ctx) (va : BitVec 48) (s : State) : Res Nat :=
  match s.hart.lead.half va, s.hart.lead.page va with
  | some w, some e =>
    match leafRefuses e.pte .fetch cx.sup with
    | some code => .exc (pageExc code .fetch va.toNat 0 e.level e.pte) 0 s
    | none => .ok w s
  | _, _ =>
    (translate cx .fetch (word va.toNat) 0 s).bind fun pe s =>
      if (lookup (s.core cx.core).icache (lineOf pe.1)).isNone && poisoned (lineOf pe.1) 64 s then
        .contained (poisonError cx.core pe.1) s
      else
        let (b, s) := fetchBlock cx.core pe.1 s
        let i := pe.1 % 64
        .ok ((b.getD i 0).toNat + 256 * (b.getD (i + 1) 0).toNat) s

/-- The halfwords after the first, in address order. Addresses wrap at 2^48: R37 does not say where the halfwords of an
instruction at the top of the address space continue (DESIGN CHOICE; log entry 99). -/
def fetchRest (cx : Ctx) (va : BitVec 48) (s : State) : Nat → Res Nat
  | 0 => .ok 0 s
  | n + 1 =>
    (fetchHalf cx va s).bind fun h s =>
      (fetchRest cx (va + 2) s n).bind fun r s => .ok (h + 65536 * r) s

/-- The instruction at a code address: its length in bytes, 0 for a first halfword with [1:0] = 00, and its bits
(R36, R37). -/
def fetchInstr (cx : Ctx) (va : BitVec 48) (s : State) : Res (Nat × Nat) :=
  (fetchHalf cx va s).bind fun h s =>
    let n := lengthOf h
    (fetchRest cx (va + 2) s (n / 2 - 1)).bind fun r s => .ok (n, h + 65536 * r) s

end Sys2Proof.Machine
end

