-- ==== Sys2Proof/Machine/Operands.lean ====
section
/-! DEFINITION. Elements of vector registers, presence and holes, the entries of the Landing, the uncommitted stores, and
the operands of vector instructions (R53, R71 to R92, R144 to R150, R276). -/

namespace Sys2Proof.Machine

/-! Sidecars and masks -/

/-- Byte `i` of a sidecar. -/
def sideByte (x : VSide) (i : Nat) : Nat := x.toNat / 2 ^ (8 * i) % 256

def putSideByte (x : VSide) (i b : Nat) : VSide := BitVec.ofNat 2048 (setBits x.toNat (8 * i) 8 b)

/-- Sidecar byte that scales the block of 16 elements `b` of a type (R120). -/
def scaleIndex (ty b : Nat) : Nat := if ty = 10 then b else 2 * b

def maskBit (m : MaskBits) (e : Nat) : Bool := m.getLsbD e

def putMaskBit (m : MaskBits) (e : Nat) (b : Bool) : MaskBits := BitVec.ofNat 4096 (setBits m.toNat e 1 (bit b))

def Hart.setStq (h : Hart) (l : List Pending) : Hart := { h with ms := { h.ms with stq := l } }

/-! Entries of the Landing -/

/-- The entries of a hart's register whose destination row is the current one (R76): its pending holes. -/
def holesOf (c h r : Nat) (s : State) : AMap LEntry :=
  (s.core c).entries.filter fun e => e.2.hart.toNat == h && e.2.reg.toNat == r && e.2.live != 0

/-- Whether a hole owes some bit of bytes [lo / 8 .. (hi - 1) / 8] of its register, which makes them absent (R76). -/
def LEntry.touches (e : LEntry) (lo hi : Nat) : Bool :=
  (indices (ceilDiv e.width 8 + 1)).any fun i =>
    let b := e.first / 8 + i
    decide (lo / 8 ≤ b) && decide (b ≤ (hi - 1) / 8) &&
      (indices e.width).any fun j => (e.first + j) / 8 == b && e.live.getLsbD j

/-- Whether element `e` of `n` bits of a register is present (R76). -/
def presentElem (c h r n e : Nat) (s : State) : Bool :=
  !(holesOf c h r s).any fun x => x.2.touches (n * e) (n * e + n)

/-- Whether an entry owes some of bits [lo, lo + n) of its register. -/
def LEntry.owes (e : LEntry) (lo n : Nat) : Bool :=
  (indices e.width).any fun j => e.live.getLsbD j && decide (lo ≤ e.first + j) && decide (e.first + j < lo + n)

/-- The runs of bits that an entry still owes its destination element: first bit and count. -/
def LEntry.runs (e : LEntry) : List (Nat × Nat) :=
  if e.live.toNat = 2 ^ e.width - 1 then [(0, e.width)]
  else
    (indices e.width).foldl (fun l j =>
      if !e.live.getLsbD j then l
      else match l.getLast? with
        | some (a, n) => if a + n = j then l.dropLast ++ [(a, n + 1)] else l ++ [(j, 1)]
        | none => [(j, 1)]) []

/-- What a pending entry owes bits [lo, lo + n) of its register, as bit ranges of its value and of those bits; a range of no
bits when only a shared byte makes them absent (R76). -/
def owedTo (entry lo n : Nat) (p : LEntry) : List Patch :=
  let l := p.runs.filterMap fun r =>
    let a := Nat.max lo (p.first + r.1)
    let b := Nat.min (lo + n) (p.first + r.1 + r.2)
    if a < b then some (⟨entry, a - p.first, a - lo, b - a⟩ : Patch) else none
  if l.isEmpty then [⟨entry, 0, 0, 0⟩] else l

/-- The links of an operand that reads element `e` of `n` bits of a register: the entries that owe it bits, with those bits. A hole
that is exactly the element gives one link over the whole of it; the holes of other widths that cover parts of it give one each, of
which there may be more than the three of R81 (R78; DESIGN CHOICE; log entry 32). A byte that is absent only through the other fp4
element of it makes no link (R76). -/
def linksTo (c h r n e operand : Nat) (s : State) : List Link :=
  ((holesOf c h r s).filter fun x => decide (x.2.first < n * e + n) && decide (n * e < x.2.first + x.2.width)).flatMap fun x =>
    ((owedTo x.1 (n * e) n x.2).filter fun q => q.n != 0).map fun q =>
    ⟨q.entry, operand, q.src, q.dst, q.n⟩

/-- What entries owe element `e` of `n` bits of a register (R80). -/
def patchesTo (c h r n e : Nat) (s : State) : List Patch :=
  ((holesOf c h r s).filter fun x => x.2.touches (n * e) (n * e + n)).flatMap fun x => owedTo x.1 (n * e) n x.2

/-- Number of entries that a user hart holds. -/
def entryCount (k : Core) (h : Nat) : Nat := (k.entries.filter fun e => e.2.hart.toNat == h).length

/-- Shared entries in use (R82). -/
def sharedUsed (k : Core) : Nat :=
  ((indices 4).map fun h => entryCount k h - Config.landingReserve).sum

/-- The number of an entry that the hart may take, its reserve first (R82); of the free numbers the least, which R82 leaves open (DESIGN
CHOICE; log entry 96). -/
def freeEntry (k : Core) (h : Nat) : Option Nat :=
  if entryCount k h < Config.landingReserve || sharedUsed k < Config.landingShared then
    (indices 256).find? fun n => (lookup k.entries n).isNone
  else none

/-- Whether an uncommitted store element waits for an entry. -/
def storeDependant (k : Core) (n : Nat) : Bool :=
  k.harts.any fun h => h.2.ms.stq.any fun p => p.holes.any fun q => q.entry == n

/-- Whether a dependant entry waits for an entry, or an instruction that has stopped within itself keeps the row that the entry
owes. -/
def entryDependant (k : Core) (n : Nat) : Bool :=
  (k.entries.any fun e => (e.2.links.any fun l => l.entry == n) ||
    (match e.2.gather with
     | none => false
     | some r => r.holes.any fun x => x.entry == n)) ||
  k.harts.any fun h => h.2.allEntries.any fun v => match v.old with
    | none => false
    | some o => o.holes.any fun p => p.1 == n

/-- Whether an entry has a live dependant (R82). -/
def liveDependant (k : Core) (n : Nat) : Bool := entryDependant k n || storeDependant k n

/-- Whether an entry stays without a live dependant or a current row. R82 frees such an entry silently, so that its flags reach
FFLAGS only where it was filled before; under DET, where R92 makes FFLAGS the same on every run, an entry that can raise flags
stays until it is filled or poisoned (DESIGN CHOICE; log entry 124). -/
def keptByDet (k : Core) (e : LEntry) : Bool := (k.hart e.hart.toNat).lp.det && !e.bad && e.cls != 63

/-- Entries without a live dependant whose destination row is no longer current free silently (R82), and those that only
they waited for in turn. -/
def sweep (c : Nat) (s : State) : State :=
  let once : Core → Core := fun k =>
    k.setEntries (k.entries.filter fun e => e.2.live != 0 || liveDependant k e.1 || keptByDet k e.2)
  if (s.core c).entries.isEmpty then s
  else s.modCore c fun k => ((indices k.entries.length).foldl (fun k _ => once k) k).forget

/-- The entries that a write of a value to element `e` of `n` bits of register `r` repairs: the poisoned ones whose destination
is that element of the current row, and the one that DEFERRED last reported (R90). A write at another element width, or one
whose own result is a hole, repairs none: R90 speaks of the written element value only (DESIGN CHOICE; log entry 100). -/
def repairable (c h r n e : Nat) (s : State) : List Nat :=
  let reported := (s.hartAt c h).hole.reported
  ((s.core c).entries.filter fun x =>
    x.2.bad && x.2.hart.toNat == h && x.2.reg.toNat == r && x.2.index.toNat == e && x.2.width == n &&
      (x.2.live != 0 || reported == some x.1)).map (·.1)

/-- Under DET the entries of the current row that are neither filled nor poisoned note the values that the hart writes over
their elements (R92; log entry 125). -/
def noteOver (c h r n : Nat) (l : List (Nat × Nat)) (s : State) : State :=
  if !(s.hartAt c h).lp.det || (s.core c).entries.isEmpty then s
  else s.modCore c fun k => k.setEntries (mapValues (fun _ x =>
    if x.hart.toNat == h && x.reg.toNat == r && x.live != 0 && !x.bad && x.width == n then
      match l.find? fun p => p.1 == x.index.toNat with
      | some p => { x with written := some (word p.2) }
      | none => x
    else x) k.entries)

/-- Poisoned entries are repaired with the values that the hart writes, by element (R90). An entry that is poisoned only after such
a write stays poisoned: R78 has it complete for its dependants, and R90 names the entries of the current row; under DET, where R92
makes the two orders the same, it is resolved too (DESIGN CHOICE; log entry 125). -/
def repair (c h r n : Nat) (l : List (Nat × Nat)) (s : State) : State :=
  if (s.core c).entries.all fun x => !x.2.bad then noteOver c h r n l s
  else noteOver c h r n l (l.foldl (fun s p => (repairable c h r n p.1 s).foldl (fun s k => completeEntry c k p.2 s) s) s)

/-- The bits of an entry's element that bits [lo, lo + n) of its register leave. -/
def LEntry.outside (e : LEntry) (lo n : Nat) : Word :=
  word ((indices e.width).foldl (fun m j => if lo ≤ e.first + j ∧ e.first + j < lo + n then m else m + 2 ^ j) 0)

/-- Elements of `n` bits of register `r` are written in place with values, and are present: holes there no longer owe their
bits, and poisoned entries are repaired. -/
def writeElems (c h r n : Nat) (l : List (Nat × Nat)) (s : State) : State :=
  let s := repair c h r n l s
  let s := if (holesOf c h r s).isEmpty then s
    else s.modCore c fun k => k.setEntries (mapValues (fun _ x =>
      if x.hart.toNat == h && x.reg.toNat == r && x.live != 0 then
        { x with live := l.foldl (fun m p => m &&& x.outside (n * p.1) n) x.live }
      else x) k.entries)
  s.modHartAt c h fun x => l.foldl (fun x e => x.setElem r n e.1 e.2) x

/-- Whether every entry of the hart is poisoned or waits on a poisoned producer, so that a stall for an entry cannot end
(R82). -/
def stuckHart (c h : Nat) (s : State) : Bool :=
  (s.core c).entries.all fun e => e.2.hart.toNat != h || e.2.bad

/-! Uncommitted stores -/

/-- A slot of a channel is filled (R152). -/
def fillSlot (c ch slot : Nat) (s : State) : State :=
  s.modCore c fun k =>
    match lookup k.channels ch with
    | none => k
    | some x =>
      let x := { x with filled := x.filled + 1, marks := slot :: x.marks, resv := x.resv.filter fun r => r.1 != slot }
      { k with channels := insert k.channels ch x }

/-- A committed store updates the lines that the core's constant cache holds (R269, R302). -/
def updateConst (c : Nat) (cells : List StoreCell) (s : State) : State :=
  if (s.core c).ccache.isEmpty then s
  else
    s.modCore c fun k =>
      { k with ccache := mapValues (fun l b =>
          if cells.any fun x => lineOf x.place == l then
            b.zipIdx.map fun (y, i) => if cells.any fun x => x.place == l + i then readPlace s.mem (l + i) else y
          else b) k.ccache }

/-- The elements of one store: the last that writes a line of which they write all 64 bytes clears the line's poison (R230). -/
def markWhole (ps : List Pending) : List Pending :=
  let lines := wholeLines (ps.flatMap fun p => p.cells.map (·.place))
  if lines.isEmpty then ps
  else
    (ps.foldr (fun p (acc : List Pending × List Nat) =>
      let mine := acc.2.filter fun l => p.cells.any fun c => lineOf c.place == l
      ({ p with cleans := mine } :: acc.1, acc.2.filter fun l => !mine.contains l)) ([], lines)).1

/-- One store element commits: its bytes are written, or its slot is filled. -/
def commit (c : Nat) (p : Pending) (s : State) : State :=
  let s := if p.cells.isEmpty then s else updateConst c p.cells (cleanLines p.cleans (performCells p.cells s))
  match p.fill with
  | none => s
  | some (ch, slot) => fillSlot c ch slot s

/-- The new value of an atomic operation: 0 ADD up to 9 CAS (R46); `c` is x[d] of CAS. -/
def amoNew (op : Nat) (old b c : Word) : Word :=
  match op with
  | 0 => old + b
  | 1 => old &&& b
  | 2 => old ||| b
  | 3 => old ^^^ b
  | 4 => if old.slt b then old else b
  | 5 => if old.slt b then b else old
  | 6 => if old.ult b then old else b
  | 7 => if old.ult b then b else old
  | 8 => b
  | _ => if old = c then b else old

/-- An AMO commits: its eight bytes are read and written as one access, x[d] takes the old value, and an acquire drops the constant
cache (R159, R269). -/
def commitAtomic (c h : Nat) (p : Pending) (a : Atomic) (s : State) : State :=
  let q := (p.cells.head?.map (·.place)).getD 0
  let old := word (readNat s.mem q 8)
  let s := commit c { cells := cellsOf q 8 (amoNew a.op old a.b a.c).toNat } s
  let s := if a.acquires then s.modCore c fun k => { k with ccache := [] } else s
  s.modHartAt c h fun x => x.setX a.d old

/-- An AMO whose line is poisoned does not commit: it is a contained error, which the next STORE_ELEMENT_COMMIT of the hart
takes (R230). -/
def Pending.refused (p : Pending) (s : State) : Bool := p.amo.isSome && p.cells.any fun b => poisoned b.place 1 s

/-- A restored store element is translated again (R168): it stays as it is where that fails (log entry 101). -/
def retranslate (c : Nat) (p : Pending) (s : State) : Pending × State :=
  match if p.again then p.addr else none with
  | none => ({ p with again := false }, s)
  | some a =>
    match translate ⟨c, a.ptbase, a.asid, a.sup⟩ (if p.amo.isSome then .amo else .write) a.va 0 s with
    | .ok (q, e) s =>
      let first := (p.cells.head?.map (·.place)).getD 0
      ({ p with again := false, pin := some (s.pin e)
                cells := p.cells.map fun x => { x with place := q + (x.place - first) } }, s)
    | _ => (p, s)

/-- Stores and AMOs that can commit at the head of a list, as far as they go (R80): each once its data is present and the older
instructions of the hart that go before it have completed. -/
def commitAll (c h : Nat) : List Pending → State → List Pending × State
  | [], s => ([], s)
  | p :: ps, s =>
    if p.holes.isEmpty && p.after == 0 then
      let (p, s) := retranslate c p s
      if p.again || p.refused s then (p :: ps, s)
      else
        commitAll c h ps (match p.amo with
          | none => commit c p s
          | some a => commitAtomic c h p a s)
    else (p :: ps, s)

/-- The head of a hart's uncommitted stores commits while it can, unless the hart's commits take turns of their own. -/
def drain (c h : Nat) (s : State) : State :=
  let x := s.hartAt c h
  if x.vec.lag then s
  else
    let (rest, s) := commitAll c h x.ms.stq s
    sweep c (s.modHartAt c h fun x => x.setStq rest)

/-- Whether an uncommitted store is older than every instruction that the vector side executes now: it waits for none, or for
entries that a trap holds. -/
def Pending.older (p : Pending) : Bool := p.after == 0 || p.parked

/-- The uncommitted stores before the instruction at VCP of the hart. -/
def Hart.olderStores (x : Hart) : List Pending := x.ms.stq.takeWhile Pending.older

/-- Stores of the instruction at VCP join the hart's uncommitted stores, before those of younger front instructions, and
commit as far as they can (R80). -/
def enqueue (c h : Nat) (ps : List Pending) (s : State) : State :=
  drain c h (s.modHartAt c h fun x => x.setStq (x.olderStores ++ ps ++ x.ms.stq.dropWhile Pending.older))

/-- How many entries of the VIQ the last of some uncommitted stores waits for; those that a trap holds do not count. -/
def lastAfter (l : List Pending) : Nat := ((l.getLast?.filter fun p => !p.parked).map (·.after)).getD 0

/-- A store of a front instruction joins them at the end; `after` entries of the VIQ go before it. -/
def enqueueFront (c h after : Nat) (p : Pending) (s : State) : State :=
  drain c h (s.modHartAt c h fun x => x.setStq (x.ms.stq ++ [{ p with after := Nat.max after (lastAfter x.ms.stq) }]))

/-- A store that waits for one entry fewer. -/
def Pending.sooner (p : Pending) : Pending := { p with after := p.after - 1 }

/-- An entry of the VIQ has completed: the stores that wait for it wait for one fewer. -/
def Hart.oneDone (x : Hart) : Hart :=
  if x.ms.stq.all Pending.older then x
  else x.setStq (x.ms.stq.map fun p => if p.parked then p else p.sooner)

/-- Whether an uncommitted store of the hart writes one of `n` bytes at a place. -/
def overlaps (h : Hart) (p n : Nat) : Bool :=
  h.ms.stq.any fun q => q.cells.any fun c => decide (p ≤ c.place) && decide (c.place < p + n)

/-- The entries on which the first uncommitted stores, up to the last that `sel` selects, wait through poison (R276). -/
def blockedBy (c : Nat) (l : List Pending) (s : State) : List Nat :=
  l.flatMap fun q => (q.holes.filter fun x => match s.entry? c x.entry with
    | some e => e.bad
    | none => false).map (·.entry)

/-- The own-cause roots through which entries are poisoned (R88). -/
def rootsOf (c : Nat) (ns : List Nat) (s : State) : List Nat :=
  let step : List Nat → List Nat := fun l =>
    (l ++ l.flatMap fun n => match s.entry? c n with
      | some e => (e.links.map (·.entry)).filter fun m => match s.entry? c m with
        | some p => p.bad
        | none => false
      | none => []).eraseDups
  let all := (indices 256).foldl (fun l _ => step l) ns
  all.filter fun n => match s.entry? c n with
    | some e => e.state == .poisoned
    | none => false

/-- The oldest entry of a list: least SEQ, then least INDEX (R89). -/
def oldest (c : Nat) (ns : List Nat) (s : State) : Option (Nat × LEntry) :=
  ns.foldl (fun best n =>
    match s.entry? c n, best with
    | some e, none => some (n, e)
    | some e, some (m, b) =>
      if e.seq.toNat < b.seq.toNat || (e.seq == b.seq && e.index.toNat < b.index.toNat) then some (n, e) else some (m, b)
    | none, _ => best) none

/-- The record of DEFERRED for an entry (R89). -/
def deferredExc (c n : Nat) (e : LEntry) (s : State) : Exc :=
  let dbl := e.cls.toNat / 16 % 2 == 1
  let store := e.live == 0 && storeDependant (s.core c) n && !entryDependant (s.core c) n
  { code := 0x0A
    info0 := word e.pc.toNat
    info1 := word (e.index.toNat + e.reg.toNat * 2 ^ 16 + e.cls.toNat * 2 ^ 21 + e.cause.toNat * 2 ^ 32 +
      e.detail.toNat * 2 ^ 40 + bit store * 2 ^ 48 + e.liter.toNat * 2 ^ 49)
    info2 := if dbl then e.opa else word (wbits e.opa 0 32 + wbits e.opb 0 32 * 2 ^ 32)
    info3 := if dbl then e.opb else word (wbits e.opc 0 32) }

/-- DEFERRED is raised for the oldest of some roots, which the hart remembers as reported (R89, R90). -/
def raiseDeferred (c h : Nat) (roots : List Nat) (k : Nat) (s : State) : Res Unit :=
  match oldest c roots s with
  | none => .ok () s
  | some (n, e) =>
    .exc (deferredExc c n e s) k (s.modHartAt c h fun x => { x with hole := { x.hole with reported := some n } })

/-- Own-cause poisoned entries of some entries that have a live dependant or a current-row destination (R89). -/
def rootsIn (c : Nat) (ns : List Nat) (s : State) : List Nat :=
  ns.filter fun n => match s.entry? c n with
    | some e => e.state == .poisoned && (e.live != 0 || liveDependant (s.core c) n)
    | none => false

/-- All entries of a hart. -/
def entriesOf (c h : Nat) (s : State) : List Nat :=
  ((s.core c).entries.filter fun e => e.2.hart.toNat == h).map (·.1)

/-- Some entries with their producers, transitively (R89). -/
def withProducers (c : Nat) (ns : List Nat) (s : State) : List Nat :=
  (indices 256).foldl (fun l _ =>
    (l ++ l.flatMap fun n => match s.entry? c n with
      | some e => e.links.map (·.entry)
      | none => []).eraseDups) ns

/-- A wait for some entries, then DEFERRED for the oldest root among them (R89). -/
def settleEntries (c h : Nat) (ns : List Nat) (s : State) : Res Unit :=
  if ns.any fun n => match s.entry? c n with
    | some e => !e.bad
    | none => false
  then .wait 5 s
  else raiseDeferred c h (rootsIn c ns s) 0 s

/-- The settle of a plain SETTLE (R89): every entry of the hart, then every store element that poison does not block; a scalar
store or AMO of a handler behind those that the trap holds is none. -/
def settleAll (c h : Nat) (s : State) : Res Unit :=
  let ns := entriesOf c h s
  if ns.any fun n => match s.entry? c n with
    | some e => !e.bad
    | none => false
  then .wait 5 s
  else
    let s := drain c h s
    let l := (s.hartAt c h).ms.stq
    match (l.takeWhile fun p => p.after == 0) ++ ((l.dropWhile fun p => p.after == 0).filter fun p => p.after == 0 && !p.scalar && p.amo.isNone) with
    | q :: _ => if q.holes.isEmpty then .wait 5 s else raiseDeferred c h (rootsIn c (entriesOf c h s) s) 0 s
    | [] => raiseDeferred c h (rootsIn c (entriesOf c h s) s) 0 s

end Sys2Proof.Machine
end

