-- ==== Sys2Proof/Machine/Vector.lean ====
section
/-! DEFINITION. The vector side: what the front captures at dispatch, stream strips, and the element engine that every
element-wise instruction and permute shares (R53, R72 to R79, R145 to R150, R278). -/

namespace Sys2Proof.Machine

/-- What executing a VIQ entry comes to: it is done, with the flags that FFLAGS takes, or it has stopped at an element
and goes on later. -/
inductive VOut where
  | done (flags : Nat)
  | part (v : VEntry) (reason : Nat)
  deriving DecidableEq, Repr

/-- The element at which an execution has stopped. -/
def VOut.stop : VOut → Option Nat
  | .done _ => none
  | .part v _ => some v.start

/-! Captured values -/

/-- VTYPE[3:0], VTYPE[11:8] and VTYPE.S as captured. -/
def VEntry.ty (v : VEntry) : Nat := wbits v.vtype 0 4
def VEntry.ty2 (v : VEntry) : Nat := wbits v.vtype 8 4
def VEntry.scaled (v : VEntry) : Bool := v.vtype.getLsbD 4

/-- The rounding mode captured (R75). -/
def VEntry.mode (v : VEntry) : RMode := rmodeOf (wbits v.fpctl 0 3)

/-- The `n`-th captured x operand. -/
def VEntry.x (v : VEntry) (n : Nat) : Word := v.xs.getD n 0

/-- The random bits of an element (R129). -/
def VEntry.random (v : VEntry) (e : Nat) : Nat := randomBits v.seed v.ric e

/-- FORMAT on the vector side, with VTYPE as captured (R221). -/
def VEntry.format (v : VEntry) : Exc := { code := 0x11, info0 := v.vtype }

/-- ENGINE with a reason and detail (R222). -/
def engineExc (reason : Nat) (info0 : Word) : Exc := { code := 0x0F, info0 := info0, info2 := word reason }

/-- Elements below VL that a mask makes active. -/
def activeElems (x : Hart) (mk vl : Nat) : List Nat := positions vl fun e => maskBit (x.getM mk) e

/-- The rules of R121 for S = 1 that concern VL and the governing mask. -/
def blocksUniform (x : Hart) (mk vl : Nat) : Bool :=
  vl % 16 == 0 && (indices (vl / 16)).all fun b =>
    (indices 16).all fun i => maskBit (x.getM mk) (16 * b + i) == maskBit (x.getM mk) (16 * b)

/-! Results of an instruction, element by element -/

/-- What an element of the destination becomes: a value, or a hole. -/
inductive ERes where
  | val (w : Nat)
  | hole (e : LEntry)
  deriving Repr

def ERes.isHole : ERes → Bool
  | .hole _ => true
  | .val _ => false

/-! Operations and their entries -/

/-- An operand of an element-wise operation: a register, a scalar, or nothing. -/
inductive Src where
  | reg (r : Nat)
  | scalar (w : Word)
  | none
  deriving DecidableEq, Repr

/-- An element-wise operation: its function, the types of its sources and destination, the class of its entries (R81),
and its operands. -/
structure LaneOp where
  fn : LaneFn
  sty : Nat
  sty2 : Nat
  dty : Nat
  cls : Nat
  a : Src
  b : Src
  c : Src
  dst : Nat
  deriving Repr

/-- Bits that an operand has in element `e`, and its links. -/
def srcElem (c h : Nat) (x : Hart) (s : State) (ty operand e : Nat) : Src → Nat × List Link
  | .reg r => (elemOf (x.getV r) (typeBits ty) e, linksTo c h r (typeBits ty) e operand s)
  | .scalar w => (w.toNat % 2 ^ typeBits ty, [])
  | .none => (0, [])

/-- Whether a type's elements may be hard (R72). -/
def hardType (ty : Nat) : Bool := ty == 13 || ty == 14

/-- The value of a lane function and its flags, scaled by the scale of its block (R122) where it has one. -/
def laneCompute (fn : LaneFn) (sty sty2 dty : Nat) (scale : Option (BitVec 8)) (mode : RMode) (rb a b d : Nat) :
    Nat × Nat :=
  match scale with
  | some s =>
    blockElem dty mode rb s.toNat (valueOf sty a)
  | none =>
    match fn with
    | .fadd | .fsub | .fmul | .fma | .fmin | .fmax | .fdiv | .frcp | .frsq | .fsqrt | .fexp | .flog | .fsin | .fcos
    | .fcvt | .fwmul => fpCompute fn sty sty2 dty mode rb a b d
    | .fcvtS => convertTo dty mode rb (scaledBy b (valueOf sty a))
    | .copy => (a, 0)
    | .wmul => (wrap (2 * intBits sty) (intOf sty a * intOf sty2 b), 0)
    | fn => (intCompute fn (match sty with | 9 => 8 | 11 => 9 | 12 => 9 | 13 => 10 | 14 => 11 | t => t) a b, 0)

/-- Whether an element of a scaled conversion from FP32 or FP64 is easy (R72, R122): `a` is the source, `s` the scale and `w` the
result. It is classed on its value after division by 2^(s − 127); in a block with a NaN or an infinity, whose scale is 0xFF, each
element on its own class (log entry 102). -/
def scaledEasy (sty dty s a w : Nat) : Bool :=
  let f := fmtOf sty
  if s = 255 then isZN (classOf f a)
  else isZN (classOfVal f ((valueOf sty a).unscaled s)) && (normalBits (fmtOf dty) w || zeroBits (fmtOf dty) w)

/-- A new entry of the Landing for element `e` of an instruction (R75, R81, R87); its row is that of the execution
(`applyResults`). -/
def newEntry (c h : Nat) (v : VEntry) (s : State) (op : LaneOp) (e : Nat) (a b d : Nat) (links : List Link)
    (scale : Option (BitVec 8)) : LEntry :=
  { hart := BitVec.ofNat 2 h
    seq := v.seq.getD 0
    pc := v.pc
    cls := BitVec.ofNat 6 op.cls
    ty := BitVec.ofNat 4 op.sty
    tgt := if op.cls % 16 = 14 && op.cls != 63 then BitVec.ofNat 4 op.dty else 0
    index := BitVec.ofNat 13 e
    row := 0
    reg := BitVec.ofNat 5 op.dst
    live := word (2 ^ typeBits op.dty - 1)
    opa := word a
    opb := word b
    opc := word d
    rm := BitVec.ofNat 3 (wbits v.fpctl 0 3)
    en := BitVec.ofNat 5 (wbits v.fpctl 3 5)
    nft := v.fpctl.getLsbD 8
    srb := BitVec.ofNat 16 (v.random e)
    links := links
    handler := lookupD (s.core c).land.fillTable op.cls 0
    state := if links.isEmpty then .ready else .waiting
    cause := 0
    detail := 0
    fn := op.fn
    ty2 := BitVec.ofNat 4 op.sty2
    dty := BitVec.ofNat 4 op.dty
    width := typeBits op.dty
    scale := scale
    gather := none
    liter := BitVec.ofNat 15 (s.hartAt c h).lp.liter.toNat }

/-! The destination row (R54, R78, R82) -/

/-- How many more entries a hart may take (R82). -/
def entriesLeft (k : Core) (h : Nat) : Nat :=
  (Config.landingReserve - entryCount k h) + (Config.landingShared - sharedUsed k)

/-- What an instruction does to one element of its destination row, with the flags that it raises. -/
structure Elem where
  elem : Nat
  res : ERes
  flags : Nat
  deriving Repr

/-- A value that raises no flag. -/
def Elem.value (e w : Nat) : Elem := ⟨e, .val w, 0⟩

/-- Whether an element lies at or above a limit. -/
def beyond (limit : Option Nat) (e : Nat) : Bool :=
  match limit with
  | none => false
  | some k => decide (k ≤ e)

/-- Where an instruction that never stalls within itself stops, by its element limit, when it has some elements left. -/
def VEntry.stopIn (v : VEntry) (es : List Nat) : Option Nat :=
  match v.limit with
  | some k => if es.any fun e => decide (k ≤ e) then some (Nat.max v.start k) else none
  | none => none

/-- The elements up to a limit, or to the first hole that finds no entry, and the rest. -/
def cutAt (limit : Option Nat) (n : Nat) : List Elem → List Elem × List Elem
  | [] => ([], [])
  | r :: rest =>
    if beyond limit r.elem then ([], r :: rest)
    else if r.res.isHole then
      match n with
      | 0 => ([], r :: rest)
      | n + 1 => let (a, b) := cutAt limit n rest; (r :: a, b)
    else let (a, b) := cutAt limit n rest; (r :: a, b)

/-- The number of the physical row that an execution writes: the one that it has, or the least that the hart's entries do not
name (log entry 96). -/
def newRow (k : Core) (h : Nat) (v : VEntry) (r : VReg) : BitVec 6 :=
  match k.entries.find? fun e => e.2.madeBy h v r with
  | some e => e.2.row
  | none =>
    let used := (k.entries.filter fun e => e.2.hart.toNat == h).map fun e => e.2.row.toNat
    BitVec.ofNat 6 (((indices 64).find? fun n => !used.contains n).getD 0)

/-- Rows that are no longer any register's current row, and that entries of the hart still name (R54). -/
def oldRows (k : Core) (h : Nat) : Nat :=
  let mine := k.entries.filter fun e => e.2.hart.toNat == h
  (((mine.filter fun e => e.2.live == 0 && !mine.any fun o => o.2.row == e.2.row && o.2.live != 0).map
    fun e => e.2.row).eraseDups).length

/-- A hole of the old row that the new row takes over: a copy entry linked to it, for the bits that no result covers
(R78). -/
def carriedHole (c h : Nat) (v : VEntry) (n : Nat) (rs : List Elem) (s : State) (p : Nat × LEntry) : Option Elem :=
  let live := rs.foldl (fun m r => m &&& p.2.outside (n * r.elem) n) p.2.live
  if live = 0 then none
  else
    let t := p.2.dty.toNat
    let e := newEntry c h v s ⟨.copy, t, t, t, 63, .none, .none, .none, p.2.reg.toNat⟩ p.2.index.toNat 0 0 0
      [⟨p.1, 0, 0, 0, p.2.width⟩] none
    some ⟨p.2.first / n, .hole { e with live := live }, 0⟩

/-- An entry that an element needs is taken, in some row. -/
def takeEntry (c h : Nat) (row : BitVec 6) (x : LEntry) (s : State) : State :=
  match freeEntry (s.core c) h with
  | none => s
  | some n =>
    (s.setEntry c n { x with row := row }).modHartAt c h fun y =>
      y.noteWritten x.reg.toNat (ceilDiv (x.first + x.width) 8)

/-- The sidecar with the scale of block `b` written for a type; the reserved byte of an FP8 block becomes 0 (R120). -/
def putScale (x : VSide) (ty b s : Nat) : VSide :=
  if ty = 10 then putSideByte x b s else putSideByte (putSideByte x (2 * b) s) (2 * b + 1) 0

/-- The bytes of a sidecar that the scale of block `b` of a type takes, all ones. -/
def scaleBytes (ty b : Nat) : VSide := putScale 0 ty b 0xFF ||| (if ty = 10 then 0 else putSideByte 0 (2 * b + 1) 0xFF)

/-- Scales of some blocks are written in the sidecar of a register. -/
def writeScales (c h r ty : Nat) (l : List (Nat × Nat)) (s : State) : State :=
  if l.isEmpty then s
  else s.modHartAt c h fun x => x.setSide r (l.foldl (fun y b => putScale y ty b.1 b.2) (x.getSide r))

/-- The entries of some numbers no longer owe the current row anything. -/
def leaveRow (c : Nat) (l : List Nat) (s : State) : State :=
  if l.isEmpty then s
  else s.modCore c fun k => k.setEntries (k.entries.map fun e =>
    if l.contains e.1 then (e.1, { e.2 with live := 0 }) else e)

/-- The destination row of an instruction as it stands, for the elements that it has yet to read (R54). -/
def oldRowOf (c h : Nat) (r : VReg) (n : Nat) (s : State) : OldRow :=
  let x := s.hartAt c h
  { reg := r, n := n, img := x.getV r.toNat, side := x.getSide r.toNat
    holes := (holesOf c h r.toNat s).map fun e => (e.1, e.2.live) }

/-- An old row with the holes that writes of elements of its register repair filled (R90). -/
def OldRow.repaired (c h n : Nat) (l : List (Nat × Nat)) (s : State) (o : OldRow) : OldRow :=
  l.foldl (fun o p => (repairable c h o.reg.toNat n p.1 s).foldl (fun o k => match s.entry? c k with
    | some e => o.take k e p.2
    | none => o) o) o

/-- An old row whose instruction has written the scales of some blocks of a type. -/
def OldRow.scaled (ty : Nat) (l : List (Nat × Nat)) (o : OldRow) : OldRow :=
  { o with sides := l.foldl (fun y b => y ||| scaleBytes ty b.1) o.sides }

/-- Every entry of the hart is poisoned, so that a wait for one to free cannot end: DEFERRED for the oldest root (R82). -/
def stuckExc (c h : Nat) (k : Nat) (s : State) : Option (Res α) :=
  if !stuckHart c h s then none
  else
    match oldest c (rootsIn c (entriesOf c h s) s) s with
    | none => none
    | some (m, e) => some (.exc (deferredExc c m e s) k
        (s.modHartAt c h fun x => { x with hole := { x.hole with reported := some m } }))

/-- Elements of a register that a handler writes are also those of the old row that a held instruction keeps: it goes on with the
registers as they then stand (R225). -/
def followRow (c h : Nat) (r : VReg) (n : Nat) (es : List Nat) (s : State) : State :=
  if !(s.hartAt c h).allEntries.any (fun v => v.old.any fun o => o.reg == r) then s
  else
    let img := (s.hartAt c h).getV r.toNat
    let on : LEntry → Bool := fun e => es.any fun i => decide (n * i < e.first + e.width) && decide (e.first < n * i + n)
    let holes := ((holesOf c h r.toNat s).filter fun e => on e.2).map fun e => (e.1, e.2.live)
    let stale : Nat × Word → Bool := fun p => match s.entry? c p.1 with
      | some e => on e
      | none => true
    s.modHartAt c h <| Hart.mapEntries fun v => { v with old := v.old.map fun o =>
      if o.reg == r then { o with img := es.foldl (fun y e => putElem y n e (elemOf img n e)) o.img
                                  holes := (o.holes.filter fun p => !stale p) ++ holes }
      else o }

/-- The results of an instruction reach its destination, register `r` with elements of `n` bits, in a new row: a value or a
hole for each element of `rs`, and for every other hole of the old row a copy entry (R54, R78). First the entries are taken,
from sources that were all read before; then the writes repair what they may (R90); then the values are written, with the
scales of their blocks. At an element for which no entry is free the instruction stops, or raises DEFERRED when the stall
cannot end (R82); one that goes on within itself raises it in `vexecFrom`. -/
def applyRow (c h : Nat) (v : VEntry) (r : VReg) (n : Nat) (rs : List Elem) (sty : Nat) (scales : List (Nat × Nat))
    (s : State) : Res VOut :=
  let holes := (holesOf c h r.toNat s).filter fun p => decide (v.start ≤ p.2.first / n)
  let carried := holes.filterMap (carriedHole c h v n rs s)
  let all := if carried.isEmpty then rs else (rs ++ carried).mergeSort fun a b => decide (a.elem ≤ b.elem)
  let (now, later) := cutAt v.limit (entriesLeft (s.core c) h) all
  let stop : Option Nat := later.head?.map fun e => match v.limit with
    | none => e.elem
    | some k => Nat.max v.start (Nat.min k e.elem)
  let now := now.filter fun e => !beyond stop e.elem
  match if now.isEmpty && !later.isEmpty && v.old.isNone && (stop.map fun k => !beyond v.limit k).getD false then
      stuckExc c h (stop.getD 0) s else none with
  | some out => out
  | none =>
    let row := newRow (s.core c) h v r
    let values := now.filterMap fun e => match e.res with
      | .val w => some (e.elem, w)
      | .hole _ => none
    let t := now.foldl (fun s e => match e.res with
      | .hole x => takeEntry c h row x s
      | .val _ => s) s
    let t := repair c h r.toNat n values t
    let t := leaveRow c ((holes.filter fun p => !beyond stop (p.2.first / n)).map (·.1)) t
    let t := settlePoison c t
    let marks := scales.filter fun b => !beyond stop (16 * b.1)
    let t := writeScales c h r.toNat sty marks t
    let t := t.modHartAt c h fun x => values.foldl (fun x e => x.setElem r.toNat n e.1 e.2) x
    let t := followRow c h r n ((rs.filter fun e => !beyond stop e.elem).map (·.elem)) t
    let flags := now.foldl (fun f e => f ||| e.flags) v.flags
    match stop with
    | none => .ok (.done flags) t
    | some k =>
      let old := if k = 0 then none
        else some (((v.old.getD (oldRowOf c h r n s)).repaired c h n values s).scaled sty marks)
      .ok (.part { v with start := k, flags := flags, old := old } 15) t

/-- The same, where an instruction with VL = 0 has no effect (R58). -/
def applyResults (c h : Nat) (v : VEntry) (r : VReg) (n : Nat) (rs : List Elem) (sty : Nat) (scales : List (Nat × Nat))
    (s : State) : Res VOut :=
  if v.vl = 0 then .ok (.done v.flags) s else applyRow c h v r n rs sty scales s

/-! Element-wise operations -/

/-- One active element of an element-wise operation, read from the state before it: a hole for an absent source or a hard
element, else the value with its flags (R72, R78, R122). -/
def laneElem (c h : Nat) (v : VEntry) (op : LaneOp) (scale : Option (BitVec 8)) (s : State) (e : Nat) : Elem :=
  let x := s.hartAt c h
  let (a, la) := srcElem c h x s op.sty 0 e op.a
  let (b, lb) := srcElem c h x s op.sty2 1 e op.b
  let (d, ld) := srcElem c h x s op.dty 2 e op.c
  let links := la ++ lb ++ ld
  let rb := v.random e
  if !links.isEmpty then ⟨e, .hole (newEntry c h v s op e a b d links scale), 0⟩
  else
    let (w, f) := laneCompute op.fn op.sty op.sty2 op.dty scale v.mode rb a b d
    if hardType op.sty && op.cls != 63 then
      let easy := match scale with
        | none => easyElement op.fn op.sty op.sty2 op.dty v.mode rb a b d
        | some sc => scaledEasy op.sty op.dty sc.toNat a w
      if easy then ⟨e, .val w, f⟩ else ⟨e, .hole (newEntry c h v s op e a b d [] scale), 0⟩
    else ⟨e, .val w, f⟩

/-- The active elements that remain. -/
def VEntry.remaining (v : VEntry) (x : Hart) (mk : Nat) : List Nat :=
  (activeElems x mk v.vl).filter fun e => decide (v.start ≤ e)

/-- An element-wise operation over the elements that remain, under a mask (R279, R284). -/
def elementwise (c h : Nat) (v : VEntry) (op : LaneOp) (mk : Nat) (s : State) : Res VOut :=
  let es := v.remaining (s.hartAt c h) mk
  applyResults c h v (BitVec.ofNat 5 op.dst) (typeBits op.dty) (es.map (laneElem c h v op none s)) op.dty [] s

/-- A copy of an element of a register into element `e` of the destination, or a copy entry linked to its producers: it does not
wait (R78, R282). -/
def copyElem (c h : Nat) (v : VEntry) (s : State) (ty dst e src se : Nat) : Elem :=
  let n := typeBits ty
  let w := elemOf ((s.hartAt c h).getV src) n se
  match linksTo c h src n se 0 s with
  | [] => .value e w
  | links =>
    ⟨e, .hole (newEntry c h v s ⟨.copy, ty, ty, ty, 63, .none, .none, .none, dst⟩ e w 0 0 links none), 0⟩

/-- The results of copies: element `e` of the destination from element `se` of a register. -/
def applyCopies (c h : Nat) (v : VEntry) (ty : Nat) (d : VReg) (l : List (Nat × Nat × Nat)) (s : State) : Res VOut :=
  applyResults c h v d (typeBits ty) (l.map fun p => copyElem c h v s ty d.toNat p.1 p.2.1 p.2.2) ty [] s

/-- Waiting for the presence of elements of registers (R79). -/
def requirePresent (c h : Nat) (l : List (Nat × Nat)) (n : Nat) (s : State) : Res Unit :=
  if l.all fun p => presentElem c h p.1 n p.2 s then .ok () s else .wait 5 s

/-! Waiting for the hart's own stores -/

/-- A read of the hart waits for some of its uncommitted stores, up to the last one to overlapping bytes (R80) or the last AMO that
acquires (R176, note 4), and with `det` for all of them (R184). Behind a store element that poison blocks it raises DEFERRED instead (R276; for other bytes under DET
by log entry 103). The ranges are places and numbers of bytes. -/
def awaitThese (c h : Nat) (det : Bool) (l : List Pending) (ranges : List (Nat × Nat)) (s : State) : Res Unit :=
  if l.isEmpty then .ok () s
  else
    let hit : Pending → Bool := fun q =>
      q.amo.any (·.acquires) ||
        q.cells.any fun b => ranges.any fun r => decide (r.1 ≤ b.place) && decide (b.place < r.1 + r.2)
    let upTo := if det then l else (l.reverse.dropWhile fun q => !hit q).reverse
    if upTo.isEmpty then .ok () s
    else
      match rootsOf c (blockedBy c upTo s) s with
      | [] => .wait 15 s
      | roots => raiseDeferred c h roots 0 s

/-- A read of the instruction at VCP waits for the stores before it. -/
def awaitStores (c h : Nat) (det : Bool) (ranges : List (Nat × Nat)) (s : State) : Res Unit :=
  let x := s.hartAt c h
  awaitThese c h det x.olderStores ranges s

/-! Addresses and pages of an access (R141 to R143, R167) -/

/-- One byte range of an access: its element, its address, and its number of bytes. -/
structure Span where
  elem : Nat
  addr : Word
  bytes : Nat
  deriving DecidableEq, Repr

/-- A range with its place, and the leaf of its page. -/
abbrev Placed := Span × Nat × Option TlbEntry

/-- The context of an entry's accesses, captured at dispatch (R167). -/
def VEntry.ctx (v : VEntry) (c : Nat) : Ctx := ⟨c, v.ptbase, BitVec.ofNat 16 v.asid.toNat, v.sup⟩

/-- Place of `n` bytes at an address of a space for an access of a hart: 0 LS, 1 CLS, 2 GV. A page that the access holds is used
as it was translated (R167). -/
def placeFor (c h : Nat) (pins : List Pin) (cx : Ctx) (space : Nat) (k : Access) (addr : Word) (n elem : Nat) (s : State) :
    Res (Nat × Option TlbEntry) :=
  let x := s.hartAt c h
  let g := match x.id.group with
    | none => none
    | some g => s.group? g
  match space with
  | 0 =>
    let (base, size) := match g with
      | none => (0, 0)
      | some g => (g.lsBase, g.size)
    (lsPlaceOf c base size addr n elem k.writes s).bind fun p s => .ok (p, none) s
  | 1 => (clsPlaceOf g addr n elem k.writes s).bind fun p s => .ok (p, none) s
  | _ => (translateHeld pins cx k addr elem s).bind fun pe s => .ok (pe.1, some pe.2) s

/-- The translations that a vector instruction holds: those of its dispatch, and those it keeps since it stopped within itself. -/
def VEntry.holds (v : VEntry) : List Pin := v.pins ++ v.kept

/-- The same for a vector instruction, with the pages that it holds. -/
def placeIn (c h : Nat) (v : VEntry) (space : Nat) (k : Access) (addr : Word) (n elem : Nat) (s : State) :
    Res (Nat × Option TlbEntry) :=
  placeFor c h v.holds (v.ctx c) space k addr n elem s

/-- Faults of a vector access are raised before its first element (R227), whatever the element that has them. -/
def atZero (r : Res α) : Res α :=
  match r with
  | .exc e _ s => .exc e 0 s
  | r => r

/-- MISALIGN with the address or offset (R221). -/
def misalign (addr : Word) : Exc := { code := 0x04, info0 := addr }

/-- The place of a range of an access, or the fault of its element; every fault has VSTART 0 (R291). -/
def spanPlace (c h : Nat) (v : VEntry) (space : Nat) (k : Access) (p : Span) (s : State) : Res Placed :=
  if p.addr.toNat % p.bytes ≠ 0 then raise (misalign p.addr) s
  else (atZero (placeIn c h v space k p.addr p.bytes p.elem s)).bind fun q s => .ok (p, q.1, q.2) s

/-- What an entry reads from `n` bytes at a place: a byte that a younger load of the hart has read ahead of it has the value that
it had then (R176, note 1). -/
def VEntry.readAt (v : VEntry) (c p n : Nat) (s : State) : Res Nat :=
  if v.ahead.isEmpty then loadPlace c p n s
  else
    let l := v.ahead.filter fun b => decide (p ≤ b.1) && decide (b.1 < p + n)
    (if (indices n).all fun i => l.any fun b => b.1 == p + i then .ok 0 s else loadPlace c p n s).bind fun w s =>
      .ok (l.foldl (fun w b => setBits w (8 * (b.1 - p)) 8 b.2.toNat) w) s

/-- Every range is read, once the stores before it to its bytes have committed. -/
def readPlaced (c h : Nat) (v : VEntry) (ps : List Placed) (s : State) : Res (List (Span × Nat)) :=
  (awaitStores c h v.det (ps.map fun p => (p.2.1, p.1.bytes)) s).bind fun _ s =>
    mapEach ps (fun p s => (v.readAt c p.2.1 p.1.bytes s).bind fun w s => .ok (p.1, w) s) s

/-- An entry that has stopped within itself keeps the pages of its access until it completes (R167, R291, R302). -/
def VOut.keep (ps : List Placed) (s : State) : VOut → VOut
  | .done f => .done f
  | .part v n =>
    let more : List Pin := ps.foldl (fun l p => match p.2.2 with
      | some e => if (v.pins ++ l).any (fun q => q.leaf == e) then l else l ++ [s.pin e]
      | none => l) v.kept
    .part { v with kept := more } n

/-- The pages of an access count toward page heat (R170). -/
def countPlaced (c h : Nat) (ps : List Placed) (s : State) : State :=
  countPages c (s.hartAt c h).tenantNo (ps.filterMap fun p => p.2.2) s

/-- Pages of some addresses are translated at dispatch and pinned; one that faults is left to the execution (R167). -/
def pinPages (cx : Ctx) (k : Access) (l : List Word) (s : State) : List Pin × State :=
  l.foldl (fun ps va =>
    if ps.1.any fun p => p.serves k cx.sup va.toNat then ps
    else
      match translate cx k va 0 ps.2 with
      | .ok (_, e) s => (ps.1 ++ [s.pin e], s)
      | _ => ps) ([], s)

/-- A store element keeps its page pinned until it commits, and its address in GV (R167, R168). -/
def Pending.keep (q : Pending) (v : VEntry) (p : Placed) (s : State) : Pending :=
  match p.2.2 with
  | none => q
  | some e => { q with pin := some ((v.holds.find? fun o => o.leaf == e).getD (s.pin e))
                       addr := some ⟨p.1.addr, v.ptbase, BitVec.ofNat 16 v.asid.toNat, v.sup⟩ }

/-! Stream strips (R145 to R150, R273) -/

/-- N, the number of elements of a pattern. -/
def StreamDesc.total (d : StreamDesc) : Nat := d.levels.foldl (fun n l => n * l.1) 1

/-- The byte offset of element `p` of a pattern from BASE. -/
def StreamDesc.offset (d : StreamDesc) (p : Nat) : Int :=
  (d.levels.foldl (fun (acc : Int × Nat) l => (acc.1 + ((acc.2 % l.1 : Nat) : Int) * l.2, acc.2 / l.1)) (0, p)).1

/-- Level counts below 1 do not occur (R145); elements of a type have these bytes. -/
def StreamDesc.size (d : StreamDesc) : Nat := typeBits d.ty.toNat / 8

/-- STREAM with a reason and detail (R151). -/
def streamExc (reason info0 : Nat) : Exc := { code := 0x0E, info0 := word info0, info2 := word reason }

/-- The stream slots that registers are bound to: the sources pop, the destination appends (R147, R148, R273). -/
def bindsFor (x : Hart) (srcs : List Nat) (dst : Option Nat) : List (Nat × VReg × Bool) :=
  x.ms.streams.flatMap fun q =>
    match q.2.bound with
    | none => []
    | some r =>
      (if !q.2.desc.store && srcs.contains r.toNat then [(q.1, r, false)] else []) ++
        (if dst == some r.toNat then [(q.1, r, true)] else [])

/-- Strips are claimed through slots: P moves past them (R147, R273). At the end of a backed stream's pattern a new pass over
it begins. -/
def claimStrips (vl : Nat) (binds : List (Nat × VReg × Bool)) (x : Hart) : List Strip × Hart :=
  if vl = 0 then ([], x)
  else
    binds.foldl (fun acc b =>
      match lookup acc.2.ms.streams b.1 with
      | none => acc
      | some q =>
        let ms := acc.2.ms
        let total := q.desc.total
        let p := Nat.min (q.pos + vl) total
        let wraps := q.desc.chv && p == total
        let moves := !b.2.2 || q.desc.store
        let q' := if !moves then q else { q with pos := if wraps then 0 else p, pass := if wraps then ms.passes else q.pass }
        (acc.1 ++ [⟨b.1, b.2.1, b.2.2, q.desc, q.pos, q.pass, 0⟩],
         { acc.2 with ms := { ms with streams := insert ms.streams b.1 q', passes := if wraps && moves then ms.passes + 1 else ms.passes } }))
      ([], x)

/-- Base offset of the slot that a backed strip uses: the head slot of a load, the reserved tail slot of a store
(R150). -/
def slotBase (ch : Channel) (slot : Nat) : Nat := ch.base + slot * 2 ^ (ch.sz + 6)

/-- Where the pattern of a strip is based: 0, or for a backed one its slot, none when it has none yet. -/
def stripBase (c h : Nat) (t : Strip) (s : State) : Option Nat :=
  if !t.desc.chv then some 0
  else
    match lookup (s.core c).channels t.desc.ch, lookup (s.hartAt c h).ms.tails t.pass with
    | none, _ => none
    | some ch, some q => some (slotBase ch (if t.store then q.slot else ch.head))
    | some ch, none => if t.store && decide (ch.free = 0) then none else some (slotBase ch (if t.store then ch.tail else ch.head))

/-- The head slot of a channel is taken (R152). -/
def takeSlot (c n : Nat) (s : State) : State :=
  s.modCore c fun k =>
    match lookup k.channels n with
    | none => k
    | some ch =>
      let ch := { ch with filled := ch.filled - 1, free := ch.free + 1, head := (ch.head + 1) % ch.nslot,
                          marks := ch.marks.filter fun m => m != ch.head }
      { k with channels := insert k.channels n ch }

/-- The tail slot of a channel is reserved, for a hart that will fill it where one is named (R152). -/
def reserveSlot (c n : Nat) (h : Option Nat) (s : State) : State :=
  s.modCore c fun k =>
    match lookup k.channels n with
    | none => k
    | some ch =>
      let resv := match h with
        | none => ch.resv
        | some h => ch.resv ++ [(ch.tail, BitVec.ofNat 3 h)]
      let ch := { ch with free := ch.free - 1, tail := (ch.tail + 1) % ch.nslot, resv := resv }
      { k with channels := insert k.channels n ch }

/-- Ranges of the elements of a strip that exist, in element order (R145, R147). -/
def Strip.spans (t : Strip) (base : Nat) (es : List Nat) : List Span :=
  es.map fun e => ⟨e, word (wrap 64 ((base + t.desc.base : Nat) + t.desc.offset (t.pos + e))), t.desc.size⟩

/-- Places of the elements of a strip (R149). -/
def stripPlaces (c h : Nat) (v : VEntry) (t : Strip) (base : Nat) (es : List Nat) (s : State) : Res (List Placed) :=
  mapEach (t.spans base es) (spanPlace c h v t.desc.space (if t.store then .write else .read)) s

/-- How many elements of a strip of `vl` exist. -/
def Strip.count (t : Strip) (vl : Nat) : Nat := Nat.min vl (t.desc.total - t.pos)

/-- The mask that makes the elements of an append active; an instruction whose mask field does not govern its
destination appends every element. -/
def appendMask : Instr → Nat
  | .vadd _ _ _ m
  | .vaddX _ _ _ m
  | .vsub _ _ _ m
  | .vsubX _ _ _ m
  | .vrsub _ _ _ m
  | .vrsubX _ _ _ m
  | .vmul _ _ _ m
  | .vmulX _ _ _ m
  | .vmulh _ _ _ m
  | .vmulhX _ _ _ m
  | .vmulhn _ _ _ m
  | .vmulhnX _ _ _ m
  | .vand _ _ _ m
  | .vandX _ _ _ m
  | .vor _ _ _ m
  | .vorX _ _ _ m
  | .vxor _ _ _ m
  | .vxorX _ _ _ m
  | .vshl _ _ _ m
  | .vshlX _ _ _ m
  | .vshr _ _ _ m
  | .vshrX _ _ _ m
  | .vshra _ _ _ m
  | .vshraX _ _ _ m
  | .vmin _ _ _ m
  | .vminX _ _ _ m
  | .vmax _ _ _ m
  | .vmaxX _ _ _ m
  | .vminn _ _ _ m
  | .vminnX _ _ _ m
  | .vmaxn _ _ _ m
  | .vmaxnX _ _ _ m
  | .vfadd _ _ _ m
  | .vfaddX _ _ _ m
  | .vfsub _ _ _ m
  | .vfsubX _ _ _ m
  | .vfmul _ _ _ m
  | .vfmulX _ _ _ m
  | .vfma _ _ _ m
  | .vfmaX _ _ _ m
  | .vfmin _ _ _ m
  | .vfminX _ _ _ m
  | .vfmax _ _ _ m
  | .vfmaxX _ _ _ m
  | .vfdiv _ _ _ m
  | .vfdivX _ _ _ m
  | .vfrcp _ _ m
  | .vfrsq _ _ m
  | .vfsqrt _ _ m
  | .vfexp _ _ m
  | .vflog _ _ m
  | .vfsin _ _ m
  | .vfcos _ _ m
  | .vwmul _ _ _ m
  | .vwmulX _ _ _ m
  | .vfcvt _ _ _ m
  | .vfwmul _ _ _ m
  | .vgath _ _ _ m
  | .vred _ _ _ m
  | .vscan _ _ _ m
  | .vslideupZero _ _ _ m
  | .vslideupOne _ _ _ m
  | .vslideupKeep _ _ _ m
  | .vslidednZero _ _ _ m
  | .vslidednOne _ _ _ m
  | .vslidednKeep _ _ _ m
  | .vmvs _ _ m
  | .vsplat _ _ m
  | .vld _ _ m _
  | .vlds _ _ _ m _
  | .vldx _ _ _ m _
  | .vrand _ m => m.toNat
  | _ => 0

/-- The elements of a strip of `vl` that are popped or, under a mask, appended. -/
def Strip.elems (t : Strip) (x : Hart) (mk vl : Nat) : List Nat :=
  if t.store then (activeElems x mk vl).filter fun e => decide (e < t.count vl) else indices (t.count vl)

/-- FORMAT of a strip (R147). -/
def stripFormat (v : VEntry) (t : Strip) : Option Exc :=
  if v.scaled || typeBits t.desc.ty.toNat != typeBits v.ty then some v.format else none

/-- STREAM of a strip (R147, R148). -/
def stripStream (t : Strip) : Option Exc :=
  if t.store && !t.desc.store then some (streamExc 4 t.reg.toNat)
  else if t.pos = t.desc.total then some (streamExc 1 t.slot)
  else none

/-- A load strip is popped into its register, in place (R147, R149, R150): it waits for the stores before it to its bytes, and
a backed stream for its head slot. R150 gives no outcome for a BASE and pattern that reach bytes outside the slot: the arena's bytes
there are accessed, and LSBOUND bounds them (DESIGN CHOICE; log entry 133). R180 lets a strip perform at any time after dispatch: the model reads it when the popping
instruction executes (DESIGN CHOICE; log entry 104). -/
def popStrip (c h : Nat) (v : VEntry) (t : Strip) (s : State) : Res Unit :=
  let count := t.count v.vl
  let go : Nat → State → Res Unit := fun base s =>
    (stripPlaces c h v t base (indices count) s).bind fun ps s =>
      (readPlaced c h v ps s).bind fun ws s =>
        let zeros := (indices (v.vl - count)).map fun i => (count + i, 0)
        let s := writeElems c h t.reg.toNat (typeBits t.desc.ty.toNat) (ws.map (fun w => (w.1.elem, w.2)) ++ zeros) s
        .ok () (countPlaced c h ps s)
  if t.desc.chv then
    match lookup (s.core c).channels t.desc.ch with
    | none => .wait 4 s
    | some ch =>
      if !ch.marks.contains ch.head then .wait 4 s
      else
        (go (slotBase ch ch.head) s).bind fun _ s =>
          .ok () (if t.pos + count = t.desc.total then takeSlot c t.desc.ch s else s)
  else go 0 s

/-- The element of `n` bits of register `r` as a store element with the entries that it waits for. -/
def storeElem (c h : Nat) (v : VEntry) (r n : Nat) (p : Placed) (s : State) : Pending :=
  let w := elemOf ((s.hartAt c h).getV r) n p.1.elem
  { cells := cellsOf p.2.1 (ceilDiv n 8) w, holes := patchesTo c h r n p.1.elem s : Pending }.keep v p s

/-- What must hold before a strip is appended: its places (R148, R149), in the tail slot that its pass reserves for a backed
stream (R150), and beyond it as `popStrip` (DESIGN CHOICE; log entry 133). -/
def appendPlaces (c h : Nat) (v : VEntry) (t : Strip) (mk : Nat) (s : State) : Res (List Placed) :=
  let es := t.elems (s.hartAt c h) mk v.vl
  if t.desc.chv then
    match lookup (s.core c).channels t.desc.ch with
    | none => .wait 8 s
    | some ch =>
      match lookup (s.hartAt c h).ms.tails t.pass with
      | some q => stripPlaces c h v t (slotBase ch q.slot) es s
      | none =>
        if ch.free = 0 then .wait 8 s
        else
          let s := (reserveSlot c t.desc.ch none s).modHartAt c h fun x =>
            { x with ms := { x.ms with tails := insert x.ms.tails t.pass { channel := t.desc.ch, slot := ch.tail } } }
          stripPlaces c h v t (slotBase ch ch.tail) es s
  else stripPlaces c h v t 0 es s

/-- A strip is appended: the active elements of the register join the hart's uncommitted stores, and a backed stream
fills its slot when the pattern completes (R148, R150). -/
def appendStrip (c h : Nat) (v : VEntry) (t : Strip) (ps : List Placed) (s : State) : State :=
  let stores := markWhole (ps.map fun p => storeElem c h v t.reg.toNat (typeBits t.desc.ty.toNat) p s)
  let s := countPlaced c h ps s
  match if t.desc.chv && decide (t.desc.total ≤ t.pos + v.vl) then lookup (s.hartAt c h).ms.tails t.pass else none with
  | some q =>
    let fill : List Pending := if q.filled then [] else [{ cells := [], fill := some (q.channel, q.slot) }]
    enqueue c h (stores ++ fill) (s.modHartAt c h fun x =>
      let claimed := x.vec.held.any fun e => e.strips.any fun u => u.store && u.pass == t.pass
      let tails := if claimed then insert x.ms.tails t.pass { q with filled := true } else erase x.ms.tails t.pass
      { x with ms := { x.ms with tails := tails } })
  | none => enqueue c h stores s

/-! Dispatch -/

/-- Vector registers that an instruction reads, the one that it writes, and the x registers whose values it captures. -/
structure Uses where
  srcs : List Nat
  dst : Option Nat
  xs : List Nat
  deriving DecidableEq, Repr

/-- The registers of each vector instruction. PRES and SETTLE read no element. -/
def usesOf : Instr → Uses
  | .vadd d a b _ => ⟨[a.toNat, b.toNat], some d.toNat, []⟩
  | .vaddX d a b _ => ⟨[a.toNat], some d.toNat, [b.toNat]⟩
  | .vsub d a b _ => ⟨[a.toNat, b.toNat], some d.toNat, []⟩
  | .vsubX d a b _ => ⟨[a.toNat], some d.toNat, [b.toNat]⟩
  | .vrsub d a b _ => ⟨[a.toNat, b.toNat], some d.toNat, []⟩
  | .vrsubX d a b _ => ⟨[a.toNat], some d.toNat, [b.toNat]⟩
  | .vmul d a b _ => ⟨[a.toNat, b.toNat], some d.toNat, []⟩
  | .vmulX d a b _ => ⟨[a.toNat], some d.toNat, [b.toNat]⟩
  | .vmulh d a b _ => ⟨[a.toNat, b.toNat], some d.toNat, []⟩
  | .vmulhX d a b _ => ⟨[a.toNat], some d.toNat, [b.toNat]⟩
  | .vmulhn d a b _ => ⟨[a.toNat, b.toNat], some d.toNat, []⟩
  | .vmulhnX d a b _ => ⟨[a.toNat], some d.toNat, [b.toNat]⟩
  | .vand d a b _ => ⟨[a.toNat, b.toNat], some d.toNat, []⟩
  | .vandX d a b _ => ⟨[a.toNat], some d.toNat, [b.toNat]⟩
  | .vor d a b _ => ⟨[a.toNat, b.toNat], some d.toNat, []⟩
  | .vorX d a b _ => ⟨[a.toNat], some d.toNat, [b.toNat]⟩
  | .vxor d a b _ => ⟨[a.toNat, b.toNat], some d.toNat, []⟩
  | .vxorX d a b _ => ⟨[a.toNat], some d.toNat, [b.toNat]⟩
  | .vshl d a b _ => ⟨[a.toNat, b.toNat], some d.toNat, []⟩
  | .vshlX d a b _ => ⟨[a.toNat], some d.toNat, [b.toNat]⟩
  | .vshr d a b _ => ⟨[a.toNat, b.toNat], some d.toNat, []⟩
  | .vshrX d a b _ => ⟨[a.toNat], some d.toNat, [b.toNat]⟩
  | .vshra d a b _ => ⟨[a.toNat, b.toNat], some d.toNat, []⟩
  | .vshraX d a b _ => ⟨[a.toNat], some d.toNat, [b.toNat]⟩
  | .vmin d a b _ => ⟨[a.toNat, b.toNat], some d.toNat, []⟩
  | .vminX d a b _ => ⟨[a.toNat], some d.toNat, [b.toNat]⟩
  | .vmax d a b _ => ⟨[a.toNat, b.toNat], some d.toNat, []⟩
  | .vmaxX d a b _ => ⟨[a.toNat], some d.toNat, [b.toNat]⟩
  | .vminn d a b _ => ⟨[a.toNat, b.toNat], some d.toNat, []⟩
  | .vminnX d a b _ => ⟨[a.toNat], some d.toNat, [b.toNat]⟩
  | .vmaxn d a b _ => ⟨[a.toNat, b.toNat], some d.toNat, []⟩
  | .vmaxnX d a b _ => ⟨[a.toNat], some d.toNat, [b.toNat]⟩
  | .vfadd d a b _ => ⟨[a.toNat, b.toNat], some d.toNat, []⟩
  | .vfaddX d a b _ => ⟨[a.toNat], some d.toNat, [b.toNat]⟩
  | .vfsub d a b _ => ⟨[a.toNat, b.toNat], some d.toNat, []⟩
  | .vfsubX d a b _ => ⟨[a.toNat], some d.toNat, [b.toNat]⟩
  | .vfmul d a b _ => ⟨[a.toNat, b.toNat], some d.toNat, []⟩
  | .vfmulX d a b _ => ⟨[a.toNat], some d.toNat, [b.toNat]⟩
  | .vfma d a b _ => ⟨[a.toNat, b.toNat, d.toNat], some d.toNat, []⟩
  | .vfmaX d a b _ => ⟨[a.toNat, d.toNat], some d.toNat, [b.toNat]⟩
  | .vfmin d a b _ => ⟨[a.toNat, b.toNat], some d.toNat, []⟩
  | .vfminX d a b _ => ⟨[a.toNat], some d.toNat, [b.toNat]⟩
  | .vfmax d a b _ => ⟨[a.toNat, b.toNat], some d.toNat, []⟩
  | .vfmaxX d a b _ => ⟨[a.toNat], some d.toNat, [b.toNat]⟩
  | .vfdiv d a b _ => ⟨[a.toNat, b.toNat], some d.toNat, []⟩
  | .vfdivX d a b _ => ⟨[a.toNat], some d.toNat, [b.toNat]⟩
  | .vfrcp d a _ => ⟨[a.toNat], some d.toNat, []⟩
  | .vfrsq d a _ => ⟨[a.toNat], some d.toNat, []⟩
  | .vfsqrt d a _ => ⟨[a.toNat], some d.toNat, []⟩
  | .vfexp d a _ => ⟨[a.toNat], some d.toNat, []⟩
  | .vflog d a _ => ⟨[a.toNat], some d.toNat, []⟩
  | .vfsin d a _ => ⟨[a.toNat], some d.toNat, []⟩
  | .vfcos d a _ => ⟨[a.toNat], some d.toNat, []⟩
  | .vmerge d a b _ => ⟨[a.toNat, b.toNat], some d.toNat, []⟩
  | .vmergeX d a b _ => ⟨[a.toNat], some d.toNat, [b.toNat]⟩
  | .vadc d a b _ => ⟨[a.toNat, b.toNat], some d.toNat, []⟩
  | .vadcX d a b _ => ⟨[a.toNat], some d.toNat, [b.toNat]⟩
  | .vsbc d a b _ => ⟨[a.toNat, b.toNat], some d.toNat, []⟩
  | .vsbcX d a b _ => ⟨[a.toNat], some d.toNat, [b.toNat]⟩
  | .vwmul d a b _ => ⟨[a.toNat, b.toNat], some d.toNat, []⟩
  | .vwmulX d a b _ => ⟨[a.toNat], some d.toNat, [b.toNat]⟩
  | .vfcvt d a _ _ => ⟨[a.toNat], some d.toNat, []⟩
  | .vfwmul d a b _ => ⟨[a.toNat, b.toNat], some d.toNat, []⟩
  | .vcmp _ a b _ _ => ⟨[a.toNat, b.toNat], none, []⟩
  | .vcmpX _ a b _ _ => ⟨[a.toNat], none, [b.toNat]⟩
  | .vfcmp _ a b _ _ => ⟨[a.toNat, b.toNat], none, []⟩
  | .vfcmpX _ a b _ _ => ⟨[a.toNat], none, [b.toNat]⟩
  | .vgath d a b _ => ⟨[a.toNat, b.toNat], some d.toNat, []⟩
  | .vcomp d a _ => ⟨[a.toNat], some d.toNat, []⟩
  | .vxpnd d a _ => ⟨[a.toNat], some d.toNat, []⟩
  | .vred d a _ _ => ⟨[a.toNat], some d.toNat, []⟩
  | .vredXd _ a _ _ => ⟨[a.toNat], none, []⟩
  | .vscan d a _ _ => ⟨[a.toNat], some d.toNat, []⟩
  | .vslideupZero d a b _ => ⟨[a.toNat], some d.toNat, [b.toNat]⟩
  | .vslideupOne d a b _ => ⟨[a.toNat], some d.toNat, [b.toNat]⟩
  | .vslideupKeep d a b _ => ⟨[a.toNat], some d.toNat, [b.toNat]⟩
  | .vslidednZero d a b _ => ⟨[a.toNat], some d.toNat, [b.toNat]⟩
  | .vslidednOne d a b _ => ⟨[a.toNat], some d.toNat, [b.toNat]⟩
  | .vslidednKeep d a b _ => ⟨[a.toNat], some d.toNat, [b.toNat]⟩
  | .vmvx _ a b => ⟨[a.toNat], none, [b.toNat]⟩
  | .vmvs d b _ => ⟨[], some d.toNat, [b.toNat]⟩
  | .vsplat d b _ => ⟨[], some d.toNat, [b.toNat]⟩
  | .vld r a _ _ => ⟨[], some r.toNat, [a.toNat]⟩
  | .vlds r a b _ _ => ⟨[], some r.toNat, [a.toNat, b.toNat]⟩
  | .vldx r a b _ _ => ⟨[b.toNat], some r.toNat, [a.toNat]⟩
  | .vst r a _ _ => ⟨[r.toNat], none, [a.toNat]⟩
  | .vsts r a b _ _ => ⟨[r.toNat], none, [a.toNat, b.toNat]⟩
  | .vstx r a b _ _ => ⟨[r.toNat, b.toNat], none, [a.toNat]⟩
  | .awin d a _ => ⟨[], none, [d.toNat, a.toNat]⟩
  | .vamo r w => ⟨[r.toNat, w.toNat], none, []⟩
  | .vrand d _ => ⟨[], some d.toNat, []⟩
  | .rfld r a => ⟨[], some r.toNat, [a.toNat]⟩
  | .rput r a _ => ⟨[r.toNat], none, [a.toNat]⟩
  | .rspawn r => ⟨[r.toNat], none, []⟩
  | .rres r a => ⟨[r.toNat], none, [a.toNat]⟩
  | .rkid r a _ => ⟨[], some r.toNat, [a.toNat]⟩
  | .tld _ a b => ⟨[], none, [a.toNat, b.toNat]⟩
  | .tst _ a b => ⟨[], none, [a.toNat, b.toNat]⟩
  | .tldp _ a b => ⟨[], none, [a.toNat, b.toNat]⟩
  | .tmvr _ r a => ⟨[r.toNat], none, [a.toNat]⟩
  | .tmvc _ r a => ⟨[], some r.toNat, [a.toNat]⟩
  | _ => ⟨[], none, []⟩

/-- The mask that an instruction writes. -/
def maskWritten : Instr → Option Nat
  | .vcmp d _ _ _ _ | .vcmpX d _ _ _ _ | .vfcmp d _ _ _ _ | .vfcmpX d _ _ _ _ | .mand d _ _ | .mor d _ _ | .mxor d _ _
  | .mnot d _ | .mshl d _ _ | .mset d | .mclr d | .pres d _ => some d.toNat
  | .vadc _ _ _ m | .vadcX _ _ _ m | .vsbc _ _ _ m | .vsbcX _ _ _ m => some m.toNat
  | _ => none

/-- The x, k destinations that undelivered VIQ entries owe (R15, R53, R96). -/
def VEntry.dueX (v : VEntry) : Option Nat :=
  match v.instr with
  | .vmvx d _ _ => some d.toNat
  | .mpop d _ => some d.toNat
  | .mfirst d _ => some d.toNat
  | .mlast d _ => some d.toNat
  | .vredXd d _ _ _ => some d.toNat
  | _ => none

def VEntry.dueK (v : VEntry) : Option Nat :=
  match v.instr with
  | .vtest k _ _ => some k.toNat
  | _ => none

/-- Whether x[r] is due from the return queue. -/
def Hart.returnDue (h : Hart) (r : Nat) : Bool :=
  r != 0 && (h.vec.viq ++ h.vec.held).any fun v => v.dueX == some r

/-- Whether x[r] is due from an AMO that has not committed (R256). -/
def Hart.atomicDue (h : Hart) (r : Nat) : Bool := r != 0 && h.ms.stq.any fun p => p.amo.any fun a => a.d == r

/-- Whether x[r] is still due. -/
def Hart.pendingX (h : Hart) (r : Nat) : Bool := h.returnDue r || h.atomicDue r

def Hart.pendingK (h : Hart) (k : Nat) : Bool := (h.vec.viq ++ h.vec.held).any fun v => v.dueK == some k

/-- Return-queue entries reserved. -/
def Hart.reserved (h : Hart) : Nat :=
  ((h.vec.viq ++ h.vec.held).filter fun v => v.dueX.isSome || v.dueK.isSome).length

/-- The VIQ takes another entry: 64, and eight more for a handler while LOCK = 1 (R53, R220). -/
def Hart.viqRoom (h : Hart) : Bool :=
  if h.tr.tcause.getLsbD 59 then decide (h.vec.viq.length < Config.handlerViqSize)
  else decide (h.vec.viq.length < Config.viqSize)

/-- The type of the window that an AMERGE dispatched now will close: that of the last AWIN in the VIQ, or of the open
window; 0 where there is none. -/
def Hart.windowType (h : Hart) : Nat :=
  match (h.vec.viq.filter fun v => match v.instr with
    | .awin _ _ _ => true
    | _ => false).getLast? with
  | some v => v.ty
  | none => match h.ms.window with
    | some w => w.ty.toNat
    | none => 0

/-- Whether an instruction consumes a RIC value (R130): VRAND, or one that rounds a floating result under SR. -/
def consumesRic (h : Hart) (i : Instr) (vtype fpctl : Word) : Bool :=
  let sr := wbits fpctl 0 3 == 5
  let fl := isFloat (wbits vtype 0 4)
  match i with
  | .vrand _ _ => true
  | .vfadd _ _ _ _ | .vfsub _ _ _ _ | .vfmul _ _ _ _ | .vfma _ _ _ _ | .vfdiv _ _ _ _ | .vfrcp _ _ _ | .vfrsq _ _ _
  | .vfsqrt _ _ _ | .vfexp _ _ _ | .vflog _ _ _ | .vfsin _ _ _ | .vfcos _ _ _ | .vfcvt _ _ _ _ | .vfwmul _ _ _ _
  | .vfaddX _ _ _ _ | .vfsubX _ _ _ _ | .vfmulX _ _ _ _ | .vfmaX _ _ _ _ | .vfdivX _ _ _ _
  | .mdrain _ _ _ _ => sr
  | .vred _ _ k _ => sr && fl && k == 0
  | .vredXd _ _ k _ => sr && fl && k == 0
  | .vscan _ _ k _ => sr && fl && k == 0
  | .vamo _ _ => sr && fl
  | .amerge => sr && isFloat h.windowType
  | _ => false

/-- TGRANT (R187). -/
def Hart.tgrant (h : Hart) (g : Option Group) : Word :=
  let claim := match h.tile.claim with
    | none => 0
    | some (ts, as_) => as_.length * 2 ^ 8 + ts.length
  let rest := match g with
    | none => 0
    | some g => g.freeAccs.length * 2 ^ 20 + g.freeTiles.length * 2 ^ 16
  word (h.tile.k.toNat * 2 ^ 48 + h.tile.n.toNat * 2 ^ 38 + h.tile.m.toNat * 2 ^ 30 + bit h.tile.crew * 2 ^ 29 + rest +
    claim)

/-- The entry that the front captures for an instruction (R53, R75, R167, R189). -/
def capture (s : State) (i : Instr) (xs : List Word) : VEntry :=
  let h := s.hart
  { instr := i
    pc := h.pc
    xs := xs
    vl := h.vec.vl
    vtype := h.vec.vtype
    mspace := h.vec.mspace.toNat
    fpctl := word h.fp.ctl.toNat
    seed := h.fp.seed
    ric := h.fp.ric
    tgrant := h.tgrant s.myGroup
    ptbase := h.ms.ptbase
    asid := word h.ms.asid.toNat
    sup := h.tr.sup
    det := h.lp.det
    start := 0
    seq := none
    binds := []
    strips := []
    popped := false
    flags := 0
    old := none
    pins := []
    ahead := []
    limit := none }

end Sys2Proof.Machine
end

