-- ==== Sys2Proof/Machine/Lanes.lean ====
section
/-! DEFINITION. Element-wise vector instructions on the vector side: the integer and floating groups, conversions,
mixed-width multiplies, VMERGE, carries, and compares (R251, R279, R281, R283 to R285, R287, R294, R303). -/

namespace Sys2Proof.Machine

/-! The integer group (R279) -/

/-- An integer element operation; `anyBits` for those of kind "bits". -/
def intLane (c h : Nat) (v : VEntry) (fn : LaneFn) (anyBits : Bool) (d a : VReg) (b : Src) (m : MReg) (s : State) :
    Res VOut :=
  if v.scaled || (if anyBits then v.ty == 10 else decide (8 ≤ v.ty)) then raise v.format s
  else elementwise c h v ⟨fn, v.ty, v.ty, v.ty, 63, .reg a.toNat, b, .none, d.toNat⟩ m.toNat s

/-! The floating group (R283, R284) -/

/-- The types that the floating group accepts. -/
def floatTypes : List Nat := [8, 9, 11, 12, 13, 14]

/-- Function `code` of major 0x24 on floating elements. -/
def floatLane (c h : Nat) (v : VEntry) (fn : LaneFn) (code : Nat) (d a : VReg) (b : Src) (m : MReg) (s : State) :
    Res VOut :=
  let t := v.ty
  if v.scaled || !floatTypes.contains t || (decide (10 ≤ code) && decide (code ≤ 13) && t != 13) then raise v.format s
  else
    elementwise c h v
      ⟨fn, t, t, t, if t = 14 then code + 16 else code, .reg a.toNat, b,
       if fn = .fma then .reg d.toNat else .none, d.toNat⟩ m.toNat s

/-! Conversions (R122, R285) -/

/-- The rules of R121 that an instruction with scaled operands of types `ts` meets under S = 1, or with S = 0. -/
def scaleRefused (x : Hart) (v : VEntry) (ts : List Nat) (m : Nat) : Bool :=
  if v.scaled then !(ts.any fun t => [8, 9, 10].contains t) || !blocksUniform x m v.vl
  else ts.contains 10

/-- The value of source element `e` of a conversion, with its block scale under S = 1 (R119). -/
def sourceValue (x : Hart) (v : VEntry) (a e : Nat) : FVal :=
  let w := valueOf v.ty (elemOf (x.getV a) (typeBits v.ty) e)
  if v.scaled && [8, 9, 10].contains v.ty then
    scaledBy (sideByte (x.getSide a) (scaleIndex v.ty (e / 16))) w
  else w

/-- VFCVT to a scaled type, block by block (R122). -/
def convertBlocks (c h : Nat) (v : VEntry) (d a : VReg) (g : Nat) (m : Nat) (s : State) : Res VOut :=
  let x := s.hartAt c h
  let t := v.ty
  let es := activeElems x m v.vl
  (requirePresent c h (es.map fun e => (a.toNat, e)) (typeBits t) s).bind fun _ s =>
    let blocks := positions (v.vl / 16) fun b => maskBit (x.getM m) (16 * b)
    let scales := blocks.map fun b => (b, blockScale g ((indices 16).map fun i => sourceValue x v a.toNat (16 * b + i)))
    let rs := scales.flatMap fun bs => ((indices 16).map fun i => 16 * bs.1 + i).filterMap fun e =>
      if e < v.start then none
      else if hardType t then
        some (laneElem c h v ⟨.fcvt, t, t, g, if t = 14 then 30 else 14, .reg a.toNat, .none, .none, d.toNat⟩
          (some (BitVec.ofNat 8 bs.2)) s e)
      else
        let (w, f) := blockElem g v.mode (v.random e) bs.2 (sourceValue x v a.toNat e)
        some ⟨e, .val w, f⟩
    applyResults c h v d (typeBits g) rs g scales s

/-- VFCVT (R285). -/
def runVfcvt (c h : Nat) (v : VEntry) (d a : VReg) (g : BitVec 5) (m : MReg) (s : State) : Res VOut :=
  let x := s.hartAt c h
  let t := v.ty
  let g := g.toNat
  let cls := if t = 14 then 30 else 14
  if g == t || (decide (t ≤ 7) && decide (g ≤ 7)) then raise v.format s
  else if vlMax x.vec.grant g < v.vl then raise v.format s
  else if scaleRefused x v [t, g] m.toNat then raise v.format s
  else if v.scaled && [8, 9, 10].contains g then convertBlocks c h v d a g m.toNat s
  else if v.scaled then
    let es := v.remaining x m.toNat
    let rs := es.map fun e =>
      let sc := sideByte (x.getSide a.toNat) (scaleIndex t (e / 16))
      let w := elemOf (x.getV a.toNat) (typeBits t) e
      let op : LaneOp := ⟨.fcvtS, t, t, g, cls, .reg a.toNat, .none, .none, d.toNat⟩
      match linksTo c h a.toNat (typeBits t) e 0 s with
      | [] => laneCompute' v g w sc e
      | links => ⟨e, .hole (newEntry c h v s op e w sc 0 links none), 0⟩
    applyResults c h v d (typeBits g) rs g [] s
  else elementwise c h v ⟨.fcvt, t, t, g, cls, .reg a.toNat, .none, .none, d.toNat⟩ m.toNat s
where
  /-- Element `e` of a scaled source, converted. -/
  laneCompute' (v : VEntry) (g w sc e : Nat) : Elem :=
    let (r, f) := laneCompute .fcvtS v.ty v.ty g none v.mode (v.random e) w sc 0
    ⟨e, .val r, f⟩

/-! Mixed-width multiplies (R138, R287, R303) -/

/-- VWMUL. -/
def intWide (c h : Nat) (v : VEntry) (d a : VReg) (b : Src) (m : MReg) (s : State) : Res VOut :=
  let t := v.ty
  let t2 := v.ty2
  if v.scaled || !([0, 1, 2, 4, 5, 6].contains t) || decide (7 < t2) || typeBits t2 != typeBits t then raise v.format s
  else
    let wide := if signedType t || signedType t2 then t % 4 + 1 else t % 4 + 5
    if vlMax (s.hartAt c h).vec.grant wide < v.vl then raise v.format s
    else elementwise c h v ⟨.wmul, t, t2, wide, 63, .reg a.toNat, b, .none, d.toNat⟩ m.toNat s

/-- The destination type of VFWMUL. -/
def floatWideType (t t2 : Nat) : Option Nat :=
  if (t = 8 ∨ t = 9) ∧ (t2 = 8 ∨ t2 = 9) then some 11
  else if t = 11 ∧ t2 = 11 then some 13
  else if t = 12 ∧ t2 = 12 then some 13
  else if t = 13 ∧ t2 = 13 then some 14
  else none

/-- VFWMUL. -/
def runVfwmul (c h : Nat) (v : VEntry) (d a b : VReg) (m : MReg) (s : State) : Res VOut :=
  match floatWideType v.ty v.ty2 with
  | none => raise v.format s
  | some wide =>
    if v.scaled || decide (vlMax (s.hartAt c h).vec.grant wide < v.vl) then raise v.format s
    else elementwise c h v ⟨.fwmul, v.ty, v.ty2, wide, 15, .reg a.toNat, .reg b.toNat, .none, d.toNat⟩ m.toNat s

/-! VMERGE (R294) -/

/-- VMERGE: every element below VL is taken from b where the mask is 1, else from va. -/
def merge (c h : Nat) (v : VEntry) (d a : VReg) (b : Src) (m : MReg) (s : State) : Res VOut :=
  let x := s.hartAt c h
  let t := v.ty
  if scaleRefused x v [t] m.toNat then raise v.format s
  else
    let mk := x.getM m.toNat
    let es := (indices v.vl).filter fun e => decide (v.start ≤ e)
    let from_ : Nat → Src := fun e => if maskBit mk e then b else .reg a.toNat
    let rs := es.map fun e => match from_ e with
      | .reg r => copyElem c h v s t d.toNat e r e
      | .scalar w => .value e (w.toNat % 2 ^ typeBits t)
      | .none => .value e 0
    let scales := if v.scaled then (indices (v.vl / 16)).map fun i =>
        (i, match from_ (16 * i) with
          | .reg r => sideByte (x.getSide r) (scaleIndex t i)
          | _ => 0x7F)
      else []
    applyResults c h v d (typeBits t) rs t scales s

/-! Carries (R251) -/

/-- An entry that has stopped within itself keeps the mask that it read, for elements that it may execute again (R51, R251). -/
def VOut.keepMask (m : MReg) (x : MaskBits) : VOut → VOut
  | .done f => .done f
  | .part v n => .part { v with old := v.old.map fun o => { o with mask := o.mask <|> some (m, x) } } n

/-- VADC and VSBC with their carry mask, of which the bits of the elements that the instruction executes are written. -/
def carry (c h : Nat) (v : VEntry) (sub : Bool) (d a : VReg) (b : Src) (m : MReg) (s : State) : Res VOut :=
  if v.scaled || decide (8 ≤ v.ty) then raise v.format s
  else
    let n := typeBits v.ty
    let es := (indices v.vl).filter fun e => decide (v.start ≤ e)
    let need := es.flatMap fun e => match b with
      | .reg r => [(a.toNat, e), (r, e)]
      | _ => [(a.toNat, e)]
    (requirePresent c h need n s).bind fun _ s =>
      let x := s.hartAt c h
      let mc := x.getM m.toNat
      let rs := es.map fun e =>
        let p := elemOf (x.getV a.toNat) n e
        let q := (srcElem c h x s v.ty 1 e b).1
        let i := bit (maskBit mc e)
        if sub then (e, (p + 2 ^ (n + 1) - q - i) % 2 ^ n, decide (p < q + i)) else (e, (p + q + i) % 2 ^ n, decide (2 ^ n ≤ p + q + i))
      (applyResults c h v d n (rs.map fun r => .value r.1 r.2.1) v.ty [] s).bind fun o s =>
        let did := rs.filter fun r => !beyond o.stop r.1
        .ok (o.keepMask m mc) (s.modHartAt c h fun x => x.setM m.toNat (did.foldl (fun y r => putMaskBit y r.1 r.2.2) mc))

/-! Compares (R281) -/

/-- VCMP and VFCMP write the active bits of a mask. -/
def compare (c h : Nat) (v : VEntry) (float : Bool) (d : MReg) (a : VReg) (b : Src) (m : MReg) (cc : BitVec 3)
    (s : State) : Res VOut :=
  let t := v.ty
  if v.scaled || (if float then !floatTypes.contains t else decide (8 ≤ t)) then raise v.format s
  else
    let n := typeBits t
    let es := (v.remaining (s.hartAt c h) m.toNat)
    let stop := v.stopIn es
    let es := es.filter fun e => !beyond stop e
    let need := es.flatMap fun e => match b with
      | .reg r => [(a.toNat, e), (r, e)]
      | _ => [(a.toNat, e)]
    (requirePresent c h need n s).bind fun _ s =>
      let x := s.hartAt c h
      let rs := es.map fun e =>
        let p := elemOf (x.getV a.toNat) n e
        let q := (srcElem c h x s t 1 e b).1
        if float then (e, fpRelation cc.toNat (valueOf t p) (valueOf t q)) else (e, intRelation cc.toNat n p q, 0)
      let s := s.modHartAt c h fun x => x.setM d.toNat (rs.foldl (fun y r => putMaskBit y r.1 r.2.1) (x.getM d.toNat))
      let flags := rs.foldl (fun f r => f ||| r.2.2) v.flags
      match stop with
      | none => .ok (.done flags) s
      | some k => .ok (.part { v with start := k, flags := flags } 15) s

end Sys2Proof.Machine
end

