-- ==== Sys2Proof/Machine/Permutes.lean ====
section
/-! DEFINITION. Permutes, reductions, scans, moves and mask operations on the vector side (R77, R97, R134, R135, R251 to
R253, R271, R282, R288, R295 to R299, R301, R304). -/

namespace Sys2Proof.Machine

/-! Permutes -/

/-- S = 1 or fp4, which the unscaled permutes refuse (R121). -/
def VEntry.unscaled (v : VEntry) : Bool := !v.scaled && v.ty != 10

/-- VGATH (R288): a gather entry holds the row of va until its index is filled. -/
def gather (c h : Nat) (v : VEntry) (d a b : VReg) (m : MReg) (s : State) : Res VOut :=
  if !v.unscaled then raise v.format s
  else
    let x := s.hartAt c h
    let n := typeBits v.ty
    let es := v.remaining x m.toNat
    let at_ : Nat → Nat := fun e => elemOf (x.getV b.toNat) n e
    let rs := es.map fun e =>
      match linksTo c h b.toNat n e 0 s with
      | [] => if v.vl ≤ at_ e then .value e 0 else copyElem c h v s v.ty d.toNat e a.toNat (at_ e)
      | links =>
        let row : GatherRow :=
          { img := x.getV a.toNat
            holes := (holesOf c h a.toNat s).flatMap fun p =>
              (owedTo p.1 0 16384 p.2).map fun q => ⟨q.entry, 0, q.src, q.dst, q.n⟩
            n := n
            vl := v.vl }
        let entry := newEntry c h v s ⟨.copy, v.ty, v.ty, v.ty, 63, .none, .none, .none, d.toNat⟩ e (at_ e) 0 0 links none
        ⟨e, .hole { entry with gather := some row }, 0⟩
    applyResults c h v d n rs v.ty [] s

/-- VCOMP (R282): the selected elements move to the front. -/
def compress (c h : Nat) (v : VEntry) (d a : VReg) (m : MReg) (s : State) : Res VOut :=
  if !v.unscaled then raise v.format s
  else
    let es := (activeElems (s.hartAt c h) m.toNat v.vl).zipIdx.filter fun e => decide (v.start ≤ e.2)
    applyCopies c h v v.ty d (es.map fun e => (e.2, a.toNat, e.1)) s

/-- VXPND (R304): the leading elements move to the selected positions. -/
def expand (c h : Nat) (v : VEntry) (d a : VReg) (m : MReg) (s : State) : Res VOut :=
  if !v.unscaled then raise v.format s
  else
    let es := (activeElems (s.hartAt c h) m.toNat v.vl).zipIdx.filter fun e => decide (v.start ≤ e.1)
    applyCopies c h v v.ty d (es.map fun e => (e.1, a.toNat, e.2)) s

/-- What a slide fills with. -/
inductive Fill where
  | zero | one | keep
  deriving DecidableEq, Repr

/-- The value 1 of a type (R301). -/
def oneOf (ty : Nat) : Nat := if isFloat ty then (fmtOf ty).bias.toNat * 2 ^ (fmtOf ty).fb else 1

/-- VSLIDEUP and VSLIDEDN (R301); under S = 1 whole blocks move with their scales. -/
def slide (c h : Nat) (v : VEntry) (up : Bool) (fill : Fill) (d a : VReg) (m : MReg) (s : State) : Res VOut :=
  let x := s.hartAt c h
  let n := (v.x 0).toNat
  let t := v.ty
  if scaleRefused x v [t] m.toNat || (v.scaled && n % 16 != 0) then raise v.format s
  else
    let from_ : Nat → Nat → Nat → Option Nat := fun e n vl =>
      if up then (if n ≤ e then some (e - n) else none) else if e + n < vl then some (e + n) else none
    let es := v.remaining x m.toNat
    let rs := es.filterMap fun e =>
      match from_ e n v.vl, fill with
      | some j, _ => some (copyElem c h v s t d.toNat e a.toNat j)
      | none, .zero => some (.value e 0)
      | none, .one => some (.value e (oneOf t))
      | none, .keep => none
    let blocks := if v.scaled then positions (v.vl / 16) fun b => maskBit (x.getM m.toNat) (16 * b) else []
    let scales := blocks.filterMap fun b =>
      match from_ b (n / 16) (v.vl / 16), fill with
      | some j, _ => some (b, sideByte (x.getSide a.toNat) (scaleIndex t j))
      | none, .keep => none
      | none, _ => some (b, 0x7F)
    applyResults c h v d (typeBits t) rs t scales s

/-! Reductions and scans (R134, R135, R297, R299) -/

/-- The working type of a reduction. -/
def workType (ty : Nat) : Nat := if isFloat ty && ty != 14 then 13 else ty

/-- a ⊕ b in the working type, where `none` is ⊥, with the flags of the step. -/
def combine (kind wt : Nat) (mode : RMode) (rb : Nat) (a b : Option Nat) : Option Nat × Nat :=
  match a, b with
  | a, none => (a, 0)
  | none, b => (b, 0)
  | some p, some q =>
    if isFloat wt then
      let fn : LaneFn := match kind with
        | 0 => .fadd | 1 => .fmin | _ => .fmax
      let (w, f) := fpCompute fn wt wt wt mode rb p q 0
      (some w, f)
    else
      let fn : LaneFn := match kind with
        | 0 => .add
        | 1 => if signedType wt then .min else .minn
        | 2 => if signedType wt then .max else .maxn
        | 3 => .and
        | 4 => .or
        | _ => .xor
      (some (intCompute fn wt p q), 0)

/-- The elements that enter a reduction, widened to the working type; those masked off are ⊥. A NaN of a type that is its own
working type keeps its bits and raises no flag where it meets no other value: R134 gives a for a with the absent value, while
R118 and R131 have operations deliver the canonical NaN and raise NV for a signalling one (DESIGN CHOICE; log entry 105). -/
def treeInputs (x : Hart) (v : VEntry) (a m : Nat) : List (Option Nat × Nat) :=
  let n := typeBits v.ty
  (indices v.vl).map fun e =>
    if !maskBit (x.getM m) e then (none, 0)
    else
      let w := elemOf (x.getV a) n e
      if workType v.ty = v.ty then (some w, 0)
      else
        let (r, f) := convertTo 13 .rne 0 (valueOf v.ty w)
        (some r, f)

/-- One halving of the tree: position i takes s[i] ⊕ s[i + d]. -/
def treeStep (kind wt : Nat) (v : VEntry) (d : Nat) (l : List (Option Nat)) : List (Option Nat) × Nat :=
  let rs := ((l.take d).zip (l.drop d)).zipIdx.map fun (p, i) => combine kind wt v.mode (v.random i) p.1 p.2
  (rs.map (·.1), rs.foldl (fun f r => f ||| r.2) 0)

/-- The tree of R134 over 2^n positions. -/
def treeReduce (kind wt : Nat) (v : VEntry) (l : List (Option Nat)) (f : Nat) : Nat → Option Nat × Nat
  | 0 => ((l.head?.getD none), f)
  | n + 1 =>
    let (l, g) := treeStep kind wt v (2 ^ n) l
    treeReduce kind wt v l (f ||| g) n

/-- The exponent of the least power of two that is at least n. -/
def log2Up (n : Nat) : Nat := if n ≤ 1 then 0 else Nat.log2 (n - 1) + 1

/-- The identity of a kind in the working type (R134). -/
def identityOf (kind wt : Nat) : Nat :=
  match kind with
  | 1 => if isFloat wt then (fmtOf wt).top + 1 else wrap (intBits wt) (intMax wt)
  | 2 => if isFloat wt then (fmtOf wt).signBit + (fmtOf wt).top + 1 else wrap (intBits wt) (intMin wt)
  | 3 => 2 ^ typeBits wt - 1
  | _ => 0

/-- The types and kinds that VRED and VSCAN accept. -/
def reduceRefused (v : VEntry) (kind : Nat) : Bool :=
  !v.unscaled || decide (14 < v.ty) || (decide (3 ≤ kind) && decide (8 ≤ v.ty))

/-- The result of VRED in its working type, and its flags. -/
def reduction (c h : Nat) (v : VEntry) (a : VReg) (kind : Nat) (m : MReg) (s : State) : Res (Nat × Nat) :=
  if reduceRefused v kind then raise v.format s
  else
    let x := s.hartAt c h
    (requirePresent c h ((activeElems x m.toNat v.vl).map fun e => (a.toNat, e)) (typeBits v.ty) s).bind fun _ s =>
      let ins := treeInputs x v a.toNat m.toNat
      let p := log2Up v.vl
      let wt := workType v.ty
      let l := ins.map (·.1) ++ List.replicate (2 ^ p - v.vl) none
      let (r, f) := treeReduce kind wt v l (ins.foldl (fun f i => f ||| i.2) 0) p
      .ok (r.getD (identityOf kind wt), f) s

/-- VRED with a vector destination. -/
def reduce (c h : Nat) (v : VEntry) (d a : VReg) (kind : BitVec 3) (m : MReg) (s : State) : Res VOut :=
  (reduction c h v a kind.toNat m s).bind fun r s =>
    let n := typeBits (workType v.ty)
    if (v.remaining (s.hartAt c h) 0).contains 0 then
      applyResults c h v d n [⟨0, .val r.1, r.2⟩] (workType v.ty) [] s
    else applyResults c h { v with flags := v.flags ||| r.2 } d n [] (workType v.ty) [] s

/-- A result reaches its x register through the return queue (R15). -/
def deliverX (c h d : Nat) (w : Word) (s : State) : State := s.modHartAt c h fun x => x.setX d w

/-- VRED with an x destination. -/
def reduceX (c h : Nat) (v : VEntry) (d : BitVec 5) (a : VReg) (kind : BitVec 3) (m : MReg) (s : State) : Res VOut :=
  (reduction c h v a kind.toNat m s).bind fun r s =>
    .ok (.done (v.flags ||| r.2)) (deliverX c h d.toNat (word r.1) s)

/-- The steps of the scan (R135) for the distances d, 2 d, …: position e takes s[e − d] ⊕ s[e]. -/
def scanSteps (kind wt : Nat) (v : VEntry) (l : List (Option Nat)) (f d : Nat) : Nat → List (Option Nat) × Nat
  | 0 => (l, f)
  | fuel + 1 =>
    if v.vl ≤ d then (l, f)
    else
      let earlier : List (Option Nat) := List.replicate d none ++ l
      let rs : List (Option Nat × Nat) := (earlier.zip l).zipIdx.map fun (p, i) =>
        if i < d then (p.2, 0) else combine kind wt v.mode (v.random i) p.1 p.2
      scanSteps kind wt v (rs.map (·.1)) (rs.foldl (fun f r => f ||| r.2) f) (2 * d) fuel

/-- VSCAN (R299). -/
def scan (c h : Nat) (v : VEntry) (d a : VReg) (kind : BitVec 3) (m : MReg) (s : State) : Res VOut :=
  let kind := kind.toNat
  if reduceRefused v kind then raise v.format s
  else
    let x := s.hartAt c h
    let n := typeBits v.ty
    let es := activeElems x m.toNat v.vl
    (requirePresent c h (es.map fun e => (a.toNat, e)) n s).bind fun _ s =>
      let ins := treeInputs x v a.toNat m.toNat
      let wt := workType v.ty
      let (l, f) := scanSteps kind wt v (ins.map (·.1)) (ins.foldl (fun f i => f ||| i.2) 0) 1 13
      let rs := (l.zipIdx.filter fun e => maskBit (x.getM m.toNat) e.2 && decide (v.start ≤ e.2)).map fun (w, e) =>
        let w := w.getD 0
        if wt = v.ty then .value e w
        else
          let (r, g) := convertTo v.ty v.mode (v.random e) (valueOf wt w)
          ⟨e, .val r, g⟩
      applyResults c h { v with flags := v.flags ||| f } d n rs v.ty [] s

/-! Moves -/

/-- VMVX (R295): element x[b] of va, sign-extended for i8, i16 and i32. -/
def moveToX (c h : Nat) (v : VEntry) (d : BitVec 5) (a : VReg) (s : State) : Res VOut :=
  if !v.unscaled then raise v.format s
  else
    let i := (v.x 0).toNat
    if v.vl ≤ i then .ok (.done v.flags) (deliverX c h d.toNat 0 s)
    else
      let n := typeBits v.ty
      (requirePresent c h [(a.toNat, i)] n s).bind fun _ s =>
        let w := elemOf ((s.hartAt c h).getV a.toNat) n i
        .ok (.done v.flags) (deliverX c h d.toNat (if v.ty ≤ 2 then BitVec.ofInt 64 (signedOf n w) else word w) s)

/-- VMVS (R295) writes element 0, VSPLAT every active element. -/
def splat (c h : Nat) (v : VEntry) (all : Bool) (d : VReg) (m : MReg) (s : State) : Res VOut :=
  if !v.unscaled then raise v.format s
  else
    let n := typeBits v.ty
    let es := (v.remaining (s.hartAt c h) m.toNat).filter fun e => all || e == 0
    applyResults c h v d n (es.map fun e => .value e ((v.x 0).toNat % 2 ^ n)) v.ty [] s

/-- VRAND (R296). -/
def runVrand (c h : Nat) (v : VEntry) (d : VReg) (m : MReg) (s : State) : Res VOut :=
  if !v.unscaled then raise v.format s
  else
    let n := typeBits v.ty
    let es := v.remaining (s.hartAt c h) m.toNat
    applyResults c h v d n (es.map fun e => .value e ((randomZ v.seed v.ric e).toNat % 2 ^ n)) v.ty [] s

/-- VREL (R298): the register reads zero and is present; its holes no longer owe it anything. -/
def runVrel (c h : Nat) (v : VEntry) (r : VReg) (s : State) : Res VOut :=
  match v.binds with
  | (slot, _, _) :: _ => raise (streamExc 3 slot) s
  | [] =>
    let s := s.modCore c fun k => k.setEntries (mapValues (fun _ e =>
      if e.hart.toNat == h && e.reg == r then { e with live := 0 } else e) k.entries)
    let s := s.modHartAt c h fun x => (x.setV r.toNat 0).setSide r.toNat 0
    let s := s.modHartAt c h fun x =>
      { x with vec := { x.vec with written := insert x.vec.written r.toNat 0 } }.mapEntries fun v =>
        if v.old.any (fun (o : OldRow) => o.reg == r) then { v with old := none } else v
    .ok (.done v.flags) s

/-! Masks -/

/-- Bits below VL of a mask are written; the others stay (R252, R271). -/
def writeMask (c h : Nat) (v : VEntry) (d : MReg) (f : Hart → Nat → Bool) (s : State) : Res VOut :=
  let x := s.hartAt c h
  let new := (indices v.vl).foldl (fun y e => putMaskBit y e (f x e)) (x.getM d.toNat)
  .ok (.done v.flags) (s.modHartAt c h fun x => x.setM d.toNat new)

/-- PRES (R77); under DET it waits for the presence of every element below VL. The rules of R121 hold for its operand; no mask
governs it. -/
def runPres (c h : Nat) (v : VEntry) (d : MReg) (a : VReg) (s : State) : Res VOut :=
  let n := typeBits v.ty
  if scaleRefused (s.hartAt c h) v [v.ty] 0 then raise v.format s
  else
    let go : Res VOut := writeMask c h v d (fun _ e => presentElem c h a.toNat n e s) s
    if v.det then
      (requirePresent c h ((indices v.vl).map fun e => (a.toNat, e)) n s).bind fun _ _ => go
    else go

/-- The set elements of a mask below VL. -/
def setElems (x : Hart) (v : VEntry) (a : MReg) : List Nat := activeElems x a.toNat v.vl

/-- MPOP, MFIRST and MLAST (R253): `f` of the set elements. -/
def maskToX (c h : Nat) (v : VEntry) (d : BitVec 5) (a : MReg) (f : List Nat → Word) (s : State) : Res VOut :=
  .ok (.done v.flags) (deliverX c h d.toNat (f (setElems (s.hartAt c h) v a)) s)

/-- An element number, or all ones when there is none. -/
def indexOrOnes : Option Nat → Word
  | some e => word e
  | none => BitVec.allOnes 64

/-- VTEST (R97): 0 any, 1 none, 2 all, over the elements of a mask below VL. -/
def runVtest (c h : Nat) (v : VEntry) (k : KReg) (m : MReg) (cond : BitVec 4) (s : State) : Res VOut :=
  let n := (setElems (s.hartAt c h) v m).length
  let b := match cond.toNat with
    | 0 => decide (0 < n)
    | 1 => n == 0
    | _ => n == v.vl
  .ok (.done v.flags) (s.modHartAt c h fun x => x.setK k.toNat b)

/-- VEXIT (R67): its loop ends after the current iteration when the condition holds. -/
def runVexit (c h : Nat) (v : VEntry) (m : MReg) (cond : BitVec 1) (s : State) : Res VOut :=
  let n := (setElems (s.hartAt c h) v m).length
  let holds := if cond = 0 then n == 0 else decide (0 < n)
  .ok (.done v.flags) (if holds then s.modHartAt c h fun x =>
    { x with lp := { x.lp with loop := x.lp.loop.map fun l => { l with ending := true } } } else s)

end Sys2Proof.Machine
end

