-- ==== Sys2Proof/Machine/VectorMemory.lean ====
section
/-! DEFINITION. Vector loads and stores and the accumulation window on the vector side (R160 to R162, R291 to R293,
R302). -/

namespace Sys2Proof.Machine

/-! Addresses (R291, R292) -/

/-- How a vector memory instruction forms its addresses. -/
inductive VAddr where
  | unit
  | strided
  | indexed (b : VReg)
  deriving DecidableEq, Repr

/-- The ranges of the active elements with S = 0. -/
def elementSpans (x : Hart) (v : VEntry) (form : VAddr) (m : Nat) : List Span :=
  let sz := typeBits v.ty / 8
  (activeElems x m v.vl).map fun e =>
    let off : Word := match form with
      | .unit => word (e * sz)
      | .strided => word e * v.x 1
      | .indexed b => word (elemOf (x.getV b.toNat) (typeBits v.ty) e)
    ⟨e, v.x 0 + off, sz⟩

/-- Data bytes of a block under S = 1. -/
def blockBytes (ty : Nat) : Nat := if ty = 10 then 8 else 16

/-- The active blocks with S = 1: block, address of its data, address of its scale byte (R292). -/
def blockSpans (x : Hart) (v : VEntry) (form : VAddr) (m : Nat) : List (Nat × Word × Word) :=
  let db := blockBytes v.ty
  let nb := v.vl / 16
  (positions nb fun b => maskBit (x.getM m) (16 * b)).map fun b =>
    match form with
    | .strided => let a := v.x 0 + word b * v.x 1; (b, a, a + word db)
    | _ => (b, v.x 0 + word (b * db), v.x 0 + word (nb * db + b))

/-- FORMAT of a vector memory instruction: an index form under S = 1, or the rules of R121. -/
def memoryRefused (x : Hart) (v : VEntry) (form : VAddr) (m : Nat) : Bool :=
  (match form with
   | .indexed _ => v.scaled
   | _ => false) || scaleRefused x v [v.ty] m

/-- The bytes of a block, with its scale byte last: element, address. R292 gives a scale byte no element: a fault on it names element
16b, and counts after the block's data bytes (DESIGN CHOICE; log entry 135). -/
def blockRanges (ty : Nat) (b : Nat × Word × Word) : List Span :=
  ((indices (blockBytes ty)).map fun i => (⟨16 * b.1 + (if ty = 10 then 2 * i else i), b.2.1 + word i, 1⟩ : Span)) ++
    [⟨16 * b.1, b.2.2, 1⟩]

/-- The ranges of the elements, or with S = 1 of the blocks, that a vector memory instruction accesses. -/
def accessSpans (x : Hart) (v : VEntry) (form : VAddr) (m : Nat) : List Span :=
  if v.scaled then (blockSpans x v form m).flatMap (blockRanges v.ty) else elementSpans x v form m

/-- The form, mask and kind of access of the six vector memory instructions. -/
def ownAccess : Instr → Option (VAddr × MReg × Access)
  | .vld _ _ m _ => some (.unit, m, .read)
  | .vlds _ _ _ m _ => some (.strided, m, .read)
  | .vldx _ _ b m _ => some (.indexed b, m, .read)
  | .vst _ _ m _ => some (.unit, m, .write)
  | .vsts _ _ _ m _ => some (.strided, m, .write)
  | .vstx _ _ b m _ => some (.indexed b, m, .write)
  | _ => none

/-- The active index elements of an indexed form must be present before it translates (R79). -/
def requireIndices (c h : Nat) (v : VEntry) (form : VAddr) (m : Nat) (s : State) : Res Unit :=
  match form with
  | .indexed b =>
    requirePresent c h ((activeElems (s.hartAt c h) m v.vl).map fun e => (b.toNat, e)) (typeBits v.ty) s
  | _ => .ok () s

/-! Loads (R293) -/

/-- Every range translated, the stores before it awaited, and the bytes read: they go where `f` says, and the pages count once
the instruction has completed (R170). -/
def readSpans (c h : Nat) (v : VEntry) (l : List Span) (f : List (Span × Nat) → State → Res VOut) (s : State) : Res VOut :=
  (mapEach l (spanPlace c h v v.mspace .read) s).bind fun ps s =>
    (readPlaced c h v ps s).bind fun ws s =>
      (f ws s).bind fun o s => .ok (o.keep ps s) (if o.stop.isNone then countPlaced c h ps s else s)

/-- The elements from VSTART on. -/
def VEntry.upwards (v : VEntry) (l : List Elem) : List Elem := l.filter fun e => decide (v.start ≤ e.elem)

/-- VLD, VLDS and VLDX. -/
def vectorLoad (c h : Nat) (v : VEntry) (form : VAddr) (d : VReg) (m : MReg) (s : State) : Res VOut :=
  let m := m.toNat
  if memoryRefused (s.hartAt c h) v form m then raise v.format s
  else
    (requireIndices c h v form m s).bind fun _ s =>
      let x := s.hartAt c h
      if !v.scaled then
        readSpans c h v (elementSpans x v form m) (fun ws s =>
          applyResults c h v d (typeBits v.ty) (v.upwards (ws.map fun w => .value w.1.elem w.2)) v.ty [] s) s
      else
        let blocks := blockSpans x v form m
        readSpans c h v (blocks.flatMap (blockRanges v.ty)) (fun ws s =>
          let db := blockBytes v.ty
          let groups := blocks.zipIdx.map fun (b, i) => (b.1, (ws.drop (i * (db + 1))).take (db + 1))
          let elems := groups.flatMap fun g => ((g.2.take db).zipIdx.flatMap fun (w, i) =>
            if v.ty = 10 then [.value (16 * g.1 + 2 * i) (w.2 % 16), .value (16 * g.1 + 2 * i + 1) (w.2 / 16)]
            else [.value (16 * g.1 + i) w.2])
          let scales := groups.map fun g => (g.1, (g.2.getLast?.map (·.2)).getD 0)
          applyResults c h v d (typeBits v.ty) (v.upwards elems) v.ty scales s) s

/-! Stores (R302) -/

/-- A nibble element of fp4 as a store element: the low or the high half of its byte. -/
def storeNibble (c h : Nat) (v : VEntry) (r e : Nat) (p : Placed) (s : State) : Pending :=
  let w := elemOf ((s.hartAt c h).getV r) 4 e
  let up := 4 * (e % 2)
  { cells := [⟨p.2.1, BitVec.ofNat 8 (w * 2 ^ up), BitVec.ofNat 8 (15 * 2 ^ up)⟩]
    holes := (patchesTo c h r 4 e s).map fun q => { q with dst := q.dst + up } : Pending }.keep v p s

/-- The store elements of the ranges of a block, with its scale byte last: element, store. -/
def storeBlock (c h : Nat) (v : VEntry) (r b : Nat) (ps : List Placed) (s : State) : List (Nat × Pending) :=
  let db := blockBytes v.ty
  let data := (ps.take db).zipIdx.flatMap fun (p, j) =>
    if v.ty = 10 then
      [(16 * b + 2 * j, storeNibble c h v r (16 * b + 2 * j) p s),
       (16 * b + 2 * j + 1, storeNibble c h v r (16 * b + 2 * j + 1) p s)]
    else [(16 * b + j, storeElem c h v r 8 ({ p.1 with elem := 16 * b + j }, p.2) s)]
  let sc := sideByte ((s.hartAt c h).getSide r) (scaleIndex v.ty b)
  data ++ (ps.drop db).map fun p => (16 * b, ({ cells := cellsOf p.2.1 1 sc : Pending }).keep v p s)

/-- The store elements from VSTART up to a stop join the hart's uncommitted stores. -/
def joinStores (c h : Nat) (v : VEntry) (l : List (Nat × Pending)) (ps : List Placed) (s : State) : Res VOut :=
  let stop := v.stopIn (l.map (·.1))
  let l := (l.map (·.1)).zip (markWhole (l.map (·.2)))
  let now := (l.filter fun e => decide (v.start ≤ e.1) && !beyond stop e.1).map (·.2)
  match stop with
  | none => .ok (.done v.flags) (enqueue c h now (countPlaced c h ps s))
  | some k => .ok (VOut.keep ps s (.part { v with start := k } 15)) (enqueue c h now s)

/-- VST, VSTS and VSTX: the elements join the hart's uncommitted stores in element order. -/
def vectorStore (c h : Nat) (v : VEntry) (form : VAddr) (r : VReg) (m : MReg) (s : State) : Res VOut :=
  let m := m.toNat
  if memoryRefused (s.hartAt c h) v form m then raise v.format s
  else
    (requireIndices c h v form m s).bind fun _ s =>
      let x := s.hartAt c h
      if !v.scaled then
        (mapEach (elementSpans x v form m) (spanPlace c h v v.mspace .write) s).bind fun ps s =>
          joinStores c h v (ps.map fun p => (p.1.elem, storeElem c h v r.toNat (typeBits v.ty) p s)) ps s
      else
        let blocks := blockSpans x v form m
        (mapEach (blocks.flatMap (blockRanges v.ty)) (spanPlace c h v v.mspace .write) s).bind fun ps s =>
          let n := blockBytes v.ty + 1
          joinStores c h v (blocks.zipIdx.flatMap fun (b, i) =>
            storeBlock c h v r.toNat b.1 ((ps.drop (i * n)).take n) s) ps s

/-! The accumulation window -/

/-- AWIN (R160): x[d] is the count and x[a] the base. -/
def openWindow (c h : Nat) (v : VEntry) (op : BitVec 4) (s : State) : Res VOut :=
  let x := s.hartAt c h
  let t := v.ty
  if v.scaled || !([2, 3, 6, 7, 13, 14].contains t) || (op == 3 && decide (8 ≤ t)) then raise v.format s
  else
    let size := typeBits t / 8
    let count := (v.x 0).toNat
    if x.ms.window.isSome || count == 0 || decide (Nat.min 4096 (256 * x.vec.grant / size) < count) then
      raise (engineExc 16 0) s
    else
      let w : Window := ⟨BitVec.ofNat 4 t, BitVec.ofNat 2 op.toNat, count, v.x 1, v.mspace, []⟩
      .ok (.done v.flags) (s.modHartAt c h fun x => { x with ms := { x.ms with window := some w } })

/-- The kind of R134 that a window's operation is. -/
def Window.kind (w : Window) : Nat := if w.op = 3 then 4 else w.op.toNat

/-- VAMO (R161, R280): element e updates copy e mod 64. The updates below an element at which it stops are kept, and it goes on
there. -/
def updateWindow (c h : Nat) (v : VEntry) (a b : VReg) (s : State) : Res VOut :=
  match (s.hartAt c h).ms.window with
  | none => raise (engineExc 18 0) s
  | some w =>
    if v.scaled || v.ty != w.ty.toNat then raise v.format s
    else
      let n := typeBits v.ty
      let es := (indices v.vl).filter fun e => decide (v.start ≤ e)
      let stop := v.stopIn es
      (requirePresent c h (es.flatMap fun e => [(a.toNat, e), (b.toNat, e)]) n s).bind fun _ s =>
        let x := s.hartAt c h
        if es.any fun e => decide (w.count ≤ elemOf (x.getV a.toNat) n e) then raise (engineExc 17 0) s
        else
          let (copies, f) := (es.filter fun e => !beyond stop e).foldl (fun acc e =>
            let key := e % 64 * 4096 + elemOf (x.getV a.toNat) n e
            let (r, g) := combine w.kind v.ty v.mode (v.random e) ((lookup acc.1 key).map fun y => y.toNat)
              (some (elemOf (x.getV b.toNat) n e))
            (insert acc.1 key (word (r.getD 0)), acc.2 ||| g)) (w.copies, 0)
          .ok (match stop with
              | none => .done (v.flags ||| f)
              | some k => .part { v with start := k, flags := v.flags ||| f } 15)
            (s.modHartAt c h fun x => { x with ms := { x.ms with window := some { w with copies := copies } } })

/-- A release waits until the hart has no uncommitted store but those of younger front instructions (R181). -/
def releaseStores (c h reason : Nat) (s : State) : Res Unit :=
  let s := drain c h s
  if (s.hartAt c h).olderStores.isEmpty then .ok () s else .wait reason s

/-- AMERGE (R137, R162): every window element takes the updated copies in order, and the window closes. -/
def closeWindow (c h : Nat) (v : VEntry) (s : State) : Res VOut :=
  match (s.hartAt c h).ms.window with
  | none => raise (engineExc 18 0) s
  | some w =>
    (releaseStores c h 7 s).bind fun _ s =>
      let n := typeBits w.ty.toNat
      let size := n / 8
      let spans := (indices w.count).map fun j => (⟨j, w.base + word (j * size), size⟩ : Span)
      (mapEach spans (spanPlace c h v w.space .amo) s).bind fun ps s =>
        (mapEach ps (fun p s => (loadPlace c p.2.1 size s).bind fun y s => .ok (p.1.elem, p.2.1, y) s) s).bind fun ws s =>
          let rs := ws.map fun (j, p, y) =>
            let (r, f) := (indices 64).foldl (fun (acc : Option Nat × Nat) k =>
              match lookup w.copies (k * 4096 + j) with
              | none => acc
              | some z =>
                let (r, g) := combine w.kind w.ty.toNat v.mode (randomBits v.seed v.ric (64 * j + k)) acc.1 (some z.toNat)
                (r, acc.2 ||| g)) (some y, 0)
            (cellsOf p size (r.getD 0), f)
          let s := countPlaced c h ps (commit c { cells := rs.flatMap (·.1) } s)
          .ok (.done (v.flags ||| rs.foldl (fun f r => f ||| r.2) 0))
            (s.modHartAt c h fun x => { x with ms := { x.ms with window := none } })

end Sys2Proof.Machine
end

