-- ==== Sys2Proof/Machine/Tiles.lean ====
section
/-! DEFINITION. Tile instructions on the vector side (R124, R136, R185 to R200, R232). -/

namespace Sys2Proof.Machine

/-! The shape that an instruction captured (R187) -/

def VEntry.gk (v : VEntry) : Nat := wbits v.tgrant 48 9
def VEntry.gn (v : VEntry) : Nat := wbits v.tgrant 38 10
def VEntry.gm (v : VEntry) : Nat := wbits v.tgrant 30 8
def VEntry.gcrew (v : VEntry) : Bool := v.tgrant.getLsbD 29
def VEntry.gna (v : VEntry) : Nat := wbits v.tgrant 8 3
def VEntry.gnt (v : VEntry) : Nat := wbits v.tgrant 0 4

/-- ENGINE reason 27 for the first tile or accumulator number outside the claim (R189, R199). -/
def claimCheck (v : VEntry) (tiles accs : List Nat) (s : State) : Res Unit :=
  match tiles.find? fun t => decide (v.gnt ≤ t) with
  | some t => raise (engineExc 27 (word t)) s
  | none =>
    match accs.find? fun a => decide (v.gna ≤ a) with
    | some a => raise (engineExc 27 (word a)) s
    | none => .ok () s

/-- Physical number of a hart's accumulator (R186). -/
def physAcc (x : Hart) (a : Nat) : Nat :=
  match x.tile.claim with
  | some (_, as_) => as_.getD a 0
  | none => 0

/-! Rows -/

def Core.tileRow (k : Core) (t r : Nat) : TileRow := lookupD k.tiles.rows (t * 128 + r) 0
def Core.tileSide (k : Core) (t r : Nat) : TileSide := lookupD k.tiles.sides (t * 128 + r) 0

/-- Rows of a tile are written with their sidecars. -/
def setRows (c t : Nat) (l : List (Nat × TileRow × TileSide)) (s : State) : State :=
  s.modCore c fun k =>
    { k with tiles :=
      { k.tiles with
        rows := l.foldl (fun m r => insert m (t * 128 + r.1) r.2.1) k.tiles.rows
        sides := l.foldl (fun m r => insert m (t * 128 + r.1) r.2.2) k.tiles.sides } }

/-- Every row of a tile and its sidecars become 0. -/
def zeroTile (t : Nat) (x : TileState) : TileState :=
  { x with rows := x.rows.filter fun e => e.1 / 128 != t
           sides := x.sides.filter fun e => e.1 / 128 != t }

/-- Every word of an accumulator becomes 0 and its kind none. -/
def zeroAcc (a : Nat) (x : TileState) : TileState :=
  { x with words := x.words.filter fun e => e.1 / 16384 != a
           kinds := insert x.kinds a 0 }

/-- Byte `i` of a row. -/
def rowByte (r : TileRow) (i : Nat) : Nat := r.toNat / 2 ^ (8 * i) % 256

def sideRowByte (r : TileSide) (i : Nat) : Nat := r.toNat / 2 ^ (8 * i) % 256

/-- Bits of a type code in a tile: ni8 counts as 8 (R188). -/
def tileBits (ty : Nat) : Nat := if ty = 15 then 8 else typeBits ty

/-! Moving rows (R194) -/

/-- The movement that xb encodes: stride, rows, bytes, SC; none where a field is refused. -/
def movement (xb : Word) : Option (Nat × Nat × Nat × Bool) :=
  let stride := wbits xb 0 32
  let rows := wbits xb 32 8
  let bytes := wbits xb 40 8
  if 128 < rows ∨ 128 < bytes then none
  else
    let bytes := if bytes = 0 then 128 else bytes
    if stride % 8 ≠ 0 ∨ stride < bytes then none
    else some (stride, if rows = 0 then 128 else rows, bytes, xb.getLsbD 48)

/-- The places of the rows of a movement, and of their sidecar records when SC = 1, row by row. -/
def rowPlaces (c h : Nat) (v : VEntry) (k : Access) (stride rows bytes : Nat) (sc : Bool) (s : State) :
    Res (List (Nat × Nat × Option Nat)) :=
  mapEach (indices rows) (fun r s =>
    (atZero (placeIn c h v v.mspace k (v.x 0 + word (r * stride)) bytes r s)).bind fun p s =>
      if sc then
        (atZero (placeIn c h v v.mspace k (v.x 0 + word (rows * stride + 16 * r)) 16 r s)).bind fun q s =>
          .ok (r, p.1, some q.1) s
      else .ok (r, p.1, none) s) s

/-- What TLD, TST and TLDP check before they move rows; `plane` for TLDP. -/
def moveChecked (c h : Nat) (v : VEntry) (tile : Nat) (plane : Bool) (k : Access) (s : State) :
    Res (Nat × Nat × List (Nat × Nat × Option Nat)) :=
  (claimCheck v [tile] [] s).bind fun _ s =>
    match movement (v.x 1) with
    | none => raise (engineExc 28 0) s
    | some (stride, rows, bytes, sc) =>
      if (plane && sc) || decide (2 ≤ v.mspace) then raise (engineExc 28 0) s
      else if (v.x 0).toNat % 8 ≠ 0 then raise (misalign (v.x 0)) s
      else (rowPlaces c h v k stride rows bytes sc s).bind fun ps s => .ok (rows, bytes, ps) s

/-- Rows are read once the hart's own stores to them have committed. -/
def readRows (c h : Nat) (v : VEntry) (bytes : Nat) (ps : List (Nat × Nat × Option Nat)) (s : State) : Res (List (Nat × Nat × Option Nat)) :=
  let ranges := ps.flatMap fun p => (p.2.1, bytes) :: (match p.2.2 with
    | some q => [(q, 16)]
    | none => [])
  (awaitStores c h v.det ranges s).bind fun _ s =>
    mapEach ps (fun p s =>
      (v.readAt c p.2.1 bytes s).bind fun w s =>
        match p.2.2 with
        | none => .ok (p.1, w, none) s
        | some q => (v.readAt c q 16 s).bind fun y s => .ok (p.1, w, some y) s) s

/-- Sixteen bytes of 0x7F. -/
def unitSides : Nat := 0x7F7F7F7F7F7F7F7F7F7F7F7F7F7F7F7F

/-- TLD. -/
def runTld (c h : Nat) (v : VEntry) (td : BitVec 3) (s : State) : Res VOut :=
  (moveChecked c h v td.toNat false .read s).bind fun r s =>
    (readRows c h v r.2.1 r.2.2 s).bind fun ws s =>
      .ok (.done v.flags) (setRows c (physTile (s.hartAt c h) td.toNat)
        (ws.map fun w => (w.1, BitVec.ofNat 1024 w.2.1, BitVec.ofNat 128 (w.2.2.getD unitSides))) s)

/-- The plane-major row of some ni8 values (R124): bit (7 − i) of value j is bit j of plane i. -/
def planeRow (n w : Nat) : Nat :=
  (indices n).foldl (fun r j => (indices 8).foldl (fun r i =>
    r + w / 2 ^ (8 * j + 7 - i) % 2 * 2 ^ (128 * i + j)) r) 0

/-- TLDP. -/
def runTldp (c h : Nat) (v : VEntry) (td : BitVec 3) (s : State) : Res VOut :=
  (moveChecked c h v td.toNat true .read s).bind fun r s =>
    (readRows c h v r.2.1 r.2.2 s).bind fun ws s =>
      .ok (.done v.flags) (setRows c (physTile (s.hartAt c h) td.toNat)
        (ws.map fun w => (w.1, BitVec.ofNat 1024 (planeRow r.2.1 w.2.1), 0)) s)

/-- TST: its rows join the hart's uncommitted stores as one store. -/
def runTst (c h : Nat) (v : VEntry) (ta : BitVec 3) (s : State) : Res VOut :=
  (moveChecked c h v ta.toNat false .write s).bind fun r s =>
    let k := s.core c
    let t := physTile (s.hartAt c h) ta.toNat
    let cells := r.2.2.flatMap fun p =>
      cellsOf p.2.1 r.2.1 (k.tileRow t p.1).toNat ++ (match p.2.2 with
        | some q => cellsOf q 16 (k.tileSide t p.1).toNat
        | none => [])
    .ok (.done v.flags) (enqueue c h [{ cells := cells }] s)

/-- TZERO. -/
def runTzero (c h : Nat) (v : VEntry) (td : BitVec 3) (s : State) : Res VOut :=
  (claimCheck v [td.toNat] [] s).bind fun _ s =>
    .ok (.done v.flags) (s.modCore c fun k =>
      { k with tiles := zeroTile (physTile ((k.hart h)) td.toNat) k.tiles })

/-- AZERO (R198). -/
def runAzero (c h : Nat) (v : VEntry) (ad : BitVec 2) (s : State) : Res VOut :=
  (claimCheck v [] [ad.toNat] s).bind fun _ s =>
    .ok (.done v.flags) (s.modCore c fun k => { k with tiles := zeroAcc (physAcc (k.hart h) ad.toNat) k.tiles })

/-! Transposes (R195) -/

/-- TMVR: elements of a vector register become the first bytes of a row. -/
def runTmvr (c h : Nat) (v : VEntry) (td : BitVec 3) (r : VReg) (s : State) : Res VOut :=
  let w := typeBits v.ty
  if scaleRefused (s.hartAt c h) v [v.ty] 0 || decide (1024 < v.vl * w) then raise v.format s
  else
    (claimCheck v [td.toNat] [] s).bind fun _ s =>
      if 128 ≤ (v.x 0).toNat then raise (engineExc 28 0) s
      else
        (requirePresent c h ((indices v.vl).map fun e => (r.toNat, e)) w s).bind fun _ s =>
          let x := s.hartAt c h
          let k := s.core c
          let t := physTile x td.toNat
          let row := (v.x 0).toNat
          let data := setBits (k.tileRow t row).toNat 0 (v.vl * w) (x.getV r.toNat).toNat
          let side := if v.scaled then
              let n := ceilDiv (v.vl * w) 64
              (indices n).foldl (fun y i =>
                setBits y (8 * i) 8 (if v.ty = 10 || i % 2 = 0 then sideByte (x.getSide r.toNat) i else 0))
                (k.tileSide t row).toNat
            else (k.tileSide t row).toNat
          .ok (.done v.flags) (setRows c t [(row, BitVec.ofNat 1024 data, BitVec.ofNat 128 side)] s)

/-- TMVC: a column of a tile becomes elements of a vector register. It never stops within itself (R189, R226): where it finds too few
Landing entries for the holes of its old row, it waits with no effect. -/
def runTmvc (c h : Nat) (v : VEntry) (ta : BitVec 3) (d : VReg) (s : State) : Res VOut :=
  let w := typeBits v.ty
  let col := wbits (v.x 0) 0 8
  if v.scaled || v.ty == 10 || decide (128 < v.vl) || decide (1024 ≤ col * w) then raise v.format s
  else
    (claimCheck v [ta.toNat] [] s).bind fun _ s =>
      if wbits (v.x 0) 8 56 ≠ 0 then raise (engineExc 28 0) s
      else
        let k := s.core c
        let t := physTile (s.hartAt c h) ta.toNat
        let es := (indices v.vl).filter fun e => decide (v.start ≤ e)
        match applyResults c h { v with limit := none } d w
            (es.map fun e => .value e ((k.tileRow t e).toNat / 2 ^ (w * col) % 2 ^ w)) v.ty [] s with
        | .ok (.part _ n) _ => (stuckExc c h 0 s).getD (.wait n s)
        | r => r

/-! Products (R136, R190) -/

/-- Element k of a row in a format, as a value. -/
def rowValue (ty : Nat) (r : TileRow) (k : Nat) : FVal :=
  valueOf ty (r.toNat / 2 ^ (tileBits ty * k) % 2 ^ tileBits ty)

/-- Scale byte of block b of a row (R120). -/
def rowScale (ty : Nat) (y : TileSide) (b : Nat) : Nat := sideRowByte y (scaleIndex ty b)

/-- The elements of a block that lie below K. -/
def blockElems (k b : Nat) : List Nat := (indices 16).filterMap fun i => if 16 * b + i < k then some (16 * b + i) else none

/-- The exact block sum of two rows, with the scales of FP8 and FP4 operands. -/
def blockSum (fa fb k b : Nat) (ra rb : TileRow) (sa sb : TileSide) : FVal :=
  let ps := (blockElems k b).map fun i => (fpMul (rowValue fa ra i) (rowValue fb rb i)).1
  let sum := match ps with
    | [] => FVal.zero false
    | p :: ps => ps.foldl (fun x y => (fpAdd .rne x y).1) p
  if [8, 9, 10].contains fa then scaledBy (rowScale fa sa b) (scaledBy (rowScale fb sb b) sum) else sum

/-- An accumulator word of floating kind after the blocks of a row pair, and the block after which it was first not finite
(R190, R193). -/
def floatDot (fa fb k : Nat) (acc : Nat) (ra rb : TileRow) (sa sb : TileSide) : Nat × Option Nat :=
  (indices (ceilDiv k 16)).foldl (fun (st : Nat × Option Nat) b =>
    let v := (fpAdd .rne (decodeFp (fmtOf 13) st.1) (blockSum fa fb k b ra rb sa sb)).1
    let w := (encodeFp (fmtOf 13) .rne 0 v).1
    (w, if (decodeFp (fmtOf 13) w).special && st.2.isNone then some b else st.2)) (acc, none)

/-- The i8 sum of a row pair. -/
def intDot (k : Nat) (ra rb : TileRow) : Int :=
  ((indices k).map fun i => signedOf 8 (rowByte ra i) * signedOf 8 (rowByte rb i)).sum

/-- The p-plane value of element k of a plane-major row (R124). -/
def planeValue (p : Nat) (r : TileRow) (k : Nat) : Int :=
  signedOf p ((indices p).foldl (fun w i => 2 * w + r.toNat / 2 ^ (128 * i + k) % 2) 0)

/-- An accumulator word. -/
def Core.accWord (k : Core) (a m n : Nat) : Nat := (lookupD k.tiles.words ((a * 128 + m) * 128 + n) 0).toNat

def Core.accKind (k : Core) (a : Nat) : Nat := (lookupD k.tiles.kinds a 0).toNat

/-- Words of an accumulator are written and its kind is set. -/
def setWords (c a kind : Nat) (l : List (Nat × Nat × Nat)) (s : State) : State :=
  s.modCore c fun k =>
    { k with tiles :=
      { k.tiles with
        words := l.foldl (fun m w => insert m ((a * 128 + w.1) * 128 + w.2.1) (BitVec.ofNat 32 w.2.2)) k.tiles.words
        kinds := insert k.tiles.kinds a (BitVec.ofNat 2 kind) } }

/-- NONFIN (R193). -/
def nonfinExc (v : VEntry) (m n member block fa fb : Nat) : Exc :=
  { code := 0x0B, info0 := word v.pc.toNat, info1 := word (m + n * 2 ^ 8 + member * 2 ^ 16), info2 := word block
    info3 := word (fa + fb * 16) }

/-- The product over M rows and some columns (R190): `rowA` gives a row of the first operand with its sidecar, and
`rows` the local columns with their rows of the second. With M, N or K of 0 nothing changes, and NFT = 1 raises no NONFIN for a word that
was not finite before (DEDUCED; log entry 121). -/
def product (c : Nat) (v : VEntry) (acc fa fb member : Nat) (rowA : Nat → TileRow × TileSide)
    (rows : List (Nat × TileRow × TileSide)) (s : State) : Res VOut :=
  let k := s.core c
  let int := fa == 0
  if v.gm = 0 ∨ v.gn = 0 ∨ v.gk = 0 then .ok (.done v.flags) s
  else
    let ws := (indices v.gm).flatMap fun m =>
      let (ra, sa) := rowA m
      rows.map fun (n, rb, sb) =>
        let old := k.accWord acc m n
        if int then (m, n, wrap 32 ((old : Int) + intDot v.gk ra rb), none)
        else
          let (w, first) := floatDot fa fb v.gk old ra rb sa sb
          (m, n, w, if (decodeFp (fmtOf 13) w).special then some (first.getD 0) else none)
    match if v.fpctl.getLsbD 8 then ws.find? fun w => w.2.2.2.isSome else none with
    | some (m, n, _, first) => raise (nonfinExc v m n member (first.getD 0) fa fb) s
    | none => .ok (.done v.flags) (setWords c acc (if int then 2 else 1) (ws.map fun w => (w.1, w.2.1, w.2.2.1)) s)

/-- Checks 2 to 4 of R190: FORMAT for K · w, the claim of the tiles that the instruction names, the kind. -/
def productChecks (c h : Nat) (v : VEntry) (tiles : List Nat) (ad fa fb : Nat) (s : State) : Res Unit :=
  let w := Nat.max (tileBits fa) (tileBits fb)
  if 1024 < v.gk * w then raise v.format s
  else
    (claimCheck v tiles [ad] s).bind fun _ s =>
      let kind := (s.core c).accKind (physAcc (s.hartAt c h) ad)
      if kind ≠ 0 ∧ kind ≠ (if fa = 0 then 2 else 1) then raise v.format s else .ok () s

/-- Columns of a tile's rows, up to the 128 that exist: of a shape set for a crew with N above 128, an MMA without .c and an MMAN compute
those alone (DEDUCED; log entry 75). -/
def tileColumns (k : Core) (t n : Nat) : List (Nat × TileRow × TileSide) :=
  (indices (Nat.min n 128)).map fun i => (i, k.tileRow t i, k.tileSide t i)

/-- MMA (R190). -/
def runMma (c h : Nat) (v : VEntry) (ta tb : BitVec 3) (ad : BitVec 2) (fa fb : BitVec 4) (s : State) : Res VOut :=
  (productChecks c h v [ta.toNat, tb.toNat] ad.toNat fa.toNat fb.toNat s).bind fun _ s =>
    let x := s.hartAt c h
    let k := s.core c
    let t := physTile x ta.toNat
    product c v (physAcc x ad.toNat) fa.toNat fb.toNat 0 (fun m => (k.tileRow t m, k.tileSide t m))
      (tileColumns k (physTile x tb.toNat) v.gn) s

/-- What the four members' commands of a crew operation must agree in (R191). -/
def crewShape (v : VEntry) : Option (BitVec 4 × BitVec 4 × Nat × Nat × Nat) :=
  match v.instr with
  | .mmaC _ _ _ fa fb => some (fa, fb, v.gm, v.gn, v.gk)
  | _ => none

/-- The MMA.c of a group that a crew operation needs, by its number since the admission; none when it has been executed or not
been dispatched. -/
def State.crewOp (s : State) (g : Group) (i : Nat) : Option CrewOp :=
  if g.crewDone ≤ i then (s.crewPending g)[i - g.crewDone]? else none

/-- A group has executed its oldest MMA.c. -/
def Group.crewRan (g : Group) : Group := { g with crewDone := g.crewDone + 1, crewQueue := g.crewQueue.drop 1 }

/-- MMA.c (R191, R232): the members other than the leader execute once the leader's command is the oldest of its hart
and every member has dispatched its own; the leader executes last. Only the leader's ta is used. -/
def runMmaC (c h : Nat) (v : VEntry) (ta tb : BitVec 3) (ad : BitVec 2) (fa fb : BitVec 4) (s : State) : Res VOut :=
  let x := s.hartAt c h
  let crew : Option (Nat × Group × Nat) := do
    let n ← x.id.group
    let g ← s.group? n
    let w ← g.gang
    pure (n, g, w.2)
  match if v.gcrew then crew else none with
  | none => raise (engineExc 25 0) s
  | some (n, g, member) =>
    let tiles := if member = 0 then [ta.toNat, tb.toNat] else [tb.toNat]
    (productChecks c h v tiles ad.toNat fa.toNat fb.toNat s).bind fun _ s =>
      let i := g.crewDone
      let others := (indices 4).filterMap fun m => (s.gangMember g m).map fun y => (m, y.2)
      match others.find? fun y => y.2.aborted && decide (y.2.crewLimit ≤ i) with
      | some (m, _) => raise (engineExc 26 (word m)) s
      | none =>
        let todo := others.filter fun y => decide (y.2.crewDone ≤ i)
        if others.length < 4 || (todo.any fun y => (s.crewOp y.2 i).isNone) ||
            (s.crewOp g i).map (·.entry.seq) != some v.seq then
          .wait 15 s
        else
          match others[0]?.bind fun y => (s.crewOp y.2 i).map fun q => (y.2, q) with
          | none => .wait 15 s
          | some (leader, op) =>
            match todo.find? fun y => (s.crewOp y.2 i).bind (fun q => crewShape q.entry) != crewShape op.entry with
            | some (m, _) => raise (engineExc 26 (word m)) s
            | none =>
              let lc := leader.core.toNat
              let ready := leader.aborted || leader.harts.any fun q =>
                ((s.hartAt lc q.toNat).vec.held ++ (s.hartAt lc q.toNat).vec.viq).head? == some op.entry
              if !ready || (member == 0 && todo.any fun y => y.1 != 0 && !y.2.aborted) then .wait 15 s
              else
                let k := s.core lc
                let columns := Nat.min v.gn (128 * member + 128) - 128 * member
                (product c v (physAcc x ad.toNat) fa.toNat fb.toNat member
                  (fun m => match op.rows with
                    | some l => l.getD m (0, 0)
                    | none => (k.tileRow op.tile m, k.tileSide op.tile m))
                  (tileColumns (s.core c) (physTile x tb.toNat) columns) s).bind fun o s => .ok o (s.modGroup n Group.crewRan)

/-- The tile that an instruction writes. -/
def tileWritten : Instr → Option Nat
  | .tld t _ _ | .tldp t _ _ | .tzero t | .tmvr t _ _ | .mdrain t _ _ _ => some t.toNat
  | _ => none

/-- Whether a tile of a crew leader's hart is the first operand of an MMA.c that a trap holds and that another member has yet to
execute: an instruction that writes it waits (R191). The leader's own part, which runs on the tile as the handler leaves it, is not
waited for (R225; DESIGN CHOICE; log entry 136). -/
def crewKeeps (c h t : Nat) (s : State) : Bool :=
  let x := s.hartAt c h
  match x.id.group.bind s.group? with
  | none => false
  | some g =>
    match g.gang with
    | some (_, 0) =>
      let numbers := (g.crewQueue.zipIdx.filter fun q => q.1.toNat == h).map fun q => g.crewDone + q.2
      (x.crewEntries.zip numbers).any fun q => x.vec.held.contains q.1 && crewTile q.1 == t &&
        (indices 4).any fun m => m != 0 && match s.gangMember g m with
          | some (_, y) => !y.aborted && !y.gone && decide (y.crewDone ≤ q.2)
          | none => false
    | _ => false

/-- MMAN (R192): the precisions are one more than their fields. -/
def runMman (c h : Nat) (v : VEntry) (ta tb : BitVec 3) (ad : BitVec 2) (pa pb : BitVec 3) (s : State) : Res VOut :=
  if 128 < v.gk then raise v.format s
  else
    (claimCheck v [ta.toNat, tb.toNat] [ad.toNat] s).bind fun _ s =>
      let x := s.hartAt c h
      let k := s.core c
      let acc := physAcc x ad.toNat
      if k.accKind acc = 1 then raise v.format s
      else
        let t := physTile x ta.toNat
        let ws := (indices v.gm).flatMap fun m =>
          (tileColumns k (physTile x tb.toNat) v.gn).map fun (n, rb, _) =>
            let sum := ((indices v.gk).map fun i =>
              planeValue (pa.toNat + 1) (k.tileRow t m) i * planeValue (pb.toNat + 1) rb i).sum
            (m, n, wrap 32 ((k.accWord acc m n : Int) + sum))
        .ok (.done v.flags) (setWords c acc 2 ws s)

/-! Draining (R122, R196, R197) -/

/-- The value of an accumulator word for a drain. -/
def drainValue (k : Core) (acc m n : Nat) : FVal :=
  let w := if n < 128 then k.accWord acc m n else (Config.beyondColumn (m * 512 + n)).toNat
  match k.accKind acc with
  | 0 => if n < 128 then .zero false else valueOf 13 w
  | 1 => valueOf 13 w
  | _ => valueOf 2 w

/-- The magnitude of a value as FP32 under RNE; a NaN is the canonical one (R197). -/
def magnitude (v : FVal) : Nat := (encodeFp (fmtOf 13) .rne 0 v).1 % 2 ^ 31

/-- A number in the order of the FP32 values, of a word that is no NaN. -/
def fp32Rank (w : Nat) : Int := if 2 ^ 31 ≤ w then -((w - 2 ^ 31 : Nat) : Int) else w

/-- The greater of AMAX and a magnitude; a NaN counts as greatest and reads 0x7FC0_0000 (R196, R197). -/
def fp32Max (a b : Nat) : Nat :=
  let nan : Nat → Bool := fun w => decide (0x7F800000 < w % 2 ^ 31)
  if nan a || nan b then 0x7FC00000 else if fp32Rank a ≤ fp32Rank b then b else a

/-- A drained row: its data, its sidecar and the flags. -/
def drainRow (v : VEntry) (fmt m : Nat) (vals : List FVal) : TileRow × TileSide × Nat :=
  let w := tileBits fmt
  let put : Nat → Nat → Nat → Nat := fun row n x => setBits row (w * n) w x
  if [8, 9, 10].contains fmt then
    let (row, side, f) := (indices (ceilDiv vals.length 16)).foldl (fun (acc : Nat × Nat × Nat) b =>
      let bl := (vals.drop (16 * b)).take 16
      let sc := blockScale fmt bl
      let (row, f) := bl.zipIdx.foldl (fun (r : Nat × Nat) (y, i) =>
        let n := 16 * b + i
        let (x, g) := blockElem fmt v.mode (v.random (128 * m + n)) sc y
        (put r.1 n x, r.2 ||| g)) (acc.1, acc.2.2)
      (row, setBits acc.2.1 (8 * scaleIndex fmt b) 8 sc, f)) (0, 0, 0)
    (BitVec.ofNat 1024 row, BitVec.ofNat 128 side, f)
  else
    let (row, f) := vals.zipIdx.foldl (fun (r : Nat × Nat) (y, n) =>
      let (x, g) := convertTo fmt v.mode (v.random (128 * m + n)) y
      (put r.1 n x, r.2 ||| g)) (0, 0)
    (BitVec.ofNat 1024 row, 0, f)

/-- MDRAIN (R196). It executes in one step, so that a plain CRD of AMAXn sees none of its rows or all of them (R197; DESIGN CHOICE; log
entry 122). -/
def runMdrain (c h : Nat) (v : VEntry) (td : BitVec 3) (ad : BitVec 2) (fmt : BitVec 4) (s : State) : Res VOut :=
  let fmt := fmt.toNat
  if 1024 < v.gn * tileBits fmt then raise v.format s
  else
    (claimCheck v [td.toNat] [ad.toNat] s).bind fun _ s =>
      let x := s.hartAt c h
      let k := s.core c
      let acc := physAcc x ad.toNat
      let rows := (indices v.gm).map fun m => (m, (indices v.gn).map fun n => drainValue k acc m n)
      let out := rows.map fun r => (r.1, drainRow v fmt r.1 r.2)
      let top := (rows.flatMap fun r => r.2.map magnitude).foldl fp32Max (lookupD x.tile.amax ad.toNat 0).toNat
      let s := setRows c (physTile x td.toNat) (out.map fun r => (r.1, r.2.1, r.2.2.1)) s
      let s := s.modHartAt c h fun x =>
        { x with tile := { x.tile with amax := insert x.tile.amax ad.toNat (BitVec.ofNat 32 top) } }
      .ok (.done (v.flags ||| out.foldl (fun f r => f ||| r.2.2.2) 0)) s

end Sys2Proof.Machine
end

