-- ==== Sys2Proof/Machine/Front.lean ====
section
/-! DEFINITION. What front instructions share: waits for the vector side, the settle of a wait, privilege, and the checks
inside a Pontoon batch (R39, R53, R61, R80, R86, R256). -/

namespace Sys2Proof.Machine

/-- ILLEGAL and PRIV record the encoding and its length in bytes (R38, R221). -/
def encodingExc (code : Nat) (i : Instr) : Exc :=
  { code := code, info0 := word i.encode, info1 := word i.length }

/-- PRIV. -/
def privExc (i : Instr) : Exc := encodingExc 0x02 i

/-- The instruction is not one that a ferry hart executes (R256). -/
def noFerry (i : Instr) (s : State) : Res Unit := check (!isFerry s.me) (privExc i) s

/-- The instruction is one of S (R39). A ferry hart runs the protected firmware at S. -/
def needsS (i : Instr) (s : State) : Res Unit := check (s.hart.tr.sup || isFerry s.me) (privExc i) s

/-- A wait until the hart's VIQ holds no entry before the front instruction (R61). -/
def waitVector (reason : Nat) (s : State) : Res Unit :=
  if s.hart.vec.viq.isEmpty then .ok () s else .wait reason s

/-- The entries that a trap holds and that are earlier than its handler: they stay in the VIQ (R220). The one at TVCP that raised a
vector-side trap has performed nothing, and is issued again after the handler (R225, R227; DEDUCED; log entry 113). -/
def Hart.heldEarlier (x : Hart) : List VEntry := if x.tr.tcause.getLsbD 62 then x.vec.held.drop 1 else x.vec.held

/-- A front instruction that waits for earlier accesses of the hart, a fence or a release, waits for those that `p` selects of the
entries that a trap holds (R177, R181). -/
def awaitHeld (reason : Nat) (p : VEntry → Bool) (s : State) : Res Unit :=
  if s.hart.heldEarlier.any fun v => (match v.instr, s.hart.lp.loop with
    | .loop _ _, some l => l.body
    | _, _ => [v]).any p then .wait reason s
  else .ok () s

/-- ENGINE reason 7 inside a Pontoon batch (R111). -/
def outsideBatch (s : State) : Res Unit := check (!s.hart.rc.act) (engineExc 7 0) s

/-- ENGINE reason 16 with a window open (R162). -/
def noWindow (s : State) : Res Unit := check s.hart.ms.window.isNone (engineExc 16 0) s

/-- The settle of a plain SETTLE at a front instruction (R89). -/
def settleHere (s : State) : Res Unit := settleAll s.here s.me s

/-- A wait until every earlier store of the hart has committed (R154, R181). -/
def releaseHere (reason : Nat) (s : State) : Res Unit :=
  let s := drain s.here s.me s
  if s.hart.ms.stq.isEmpty then .ok () s else .wait reason s

/-- A pop or a take of a front instruction waits for an earlier AMO that acquires (R176, note 4). -/
def awaitAcquire (s : State) : Res Unit :=
  if s.hart.ms.stq.any fun p => p.amo.any (·.acquires) then .wait 7 s else .ok () s

/-- The head of the VIQ, if there still is one, leaves it. -/
def dropHead (c h : Nat) (s : State) : State :=
  s.modHartAt c h fun x =>
    match x.vec.viq with
    | [] => x
    | _ :: rest => { x with vec := { x.vec with viq := rest } }.oneDone

/-! The order of the front's accesses with those of the VIQ (R80, R176, R184; log entry 72) -/

/-- Whether the strips of an entry are appended: those that it has claimed, or, for a body instruction of a captured loop, those
that it will claim. -/
def VEntry.stripKinds (v : VEntry) : List Bool :=
  if !v.strips.isEmpty then v.strips.map (·.store)
  else
    match v.instr with
    | .vrel _ => []
    | _ => if v.vl = 0 then [] else v.binds.map (·.2.2)

/-- Whether an entry of the VIQ stores. -/
def VEntry.stores (v : VEntry) : Bool :=
  v.stripKinds.any id ||
  match v.instr with
  | .vst _ _ _ _ | .vsts _ _ _ _ _ | .vstx _ _ _ _ _ | .amerge | .rput _ _ _ | .rspawn _ | .rres _ _ | .rdone
  | .tst _ _ _ => true
  | _ => false

/-- Whether an entry of the VIQ loads. -/
def VEntry.loads (v : VEntry) : Bool :=
  v.stripKinds.any not ||
  match v.instr with
  | .vld _ _ _ _ | .vlds _ _ _ _ _ | .vldx _ _ _ _ _ | .rfld _ _ | .rkid _ _ _ | .tld _ _ _ | .tldp _ _ _ => true
  | _ => false

/-- Whether an entry of the VIQ accesses memory. -/
def VEntry.memory (v : VEntry) : Bool := v.stores || v.loads

/-- Whether an entry is a captured loop. -/
def VEntry.isLoop (v : VEntry) : Bool :=
  match v.instr with
  | .loop _ _ => true
  | _ => false

/-- The instructions that an entry of a VIQ stands for: of a captured loop, those of its body, whose strips are claimed by
iteration. -/
def Hart.parts (x : Hart) (v : VEntry) : List VEntry :=
  match v.instr, x.lp.loop with
  | .loop _ _, some l => l.body.map fun b => { b with strips := [] }
  | _, _ => [v]

/-- Whether some entries stand for an instruction that `p` selects. -/
def Hart.anyPart (x : Hart) (p : VEntry → Bool) (l : List VEntry) : Bool := l.any fun v => (x.parts v).any p

/-- The instructions that each entry of a hart's VIQ stands for, each with those that may execute before it: those of older entries
and, in a captured loop, all of its body. -/
def Hart.due (x : Hart) : List (List (List VEntry × VEntry)) :=
  (x.vec.viq.foldl (fun (acc : List VEntry × List (List (List VEntry × VEntry))) v =>
    let l := x.parts v
    let before := if v.isLoop then acc.1 ++ l else acc.1
    (acc.1 ++ l, acc.2 ++ [l.map fun b => (before, b)])) ([], [])).2

/-! Cells and frames of a recursion (R103, R109) -/

/-- Bytes of a cell (R103). -/
def RObj.cellSize (o : RObj) : Nat := 8 + o.frame + o.result

def Node.new (parent : Option Nat) (depth : Nat) : Node := ⟨parent, false, false, 0, 0, 0, depth⟩

def Pontoon.node (p : Pontoon) (cell : Nat) : Node := lookupD p.nodes cell (Node.new none 0)

/-- Cells of the children of a frame, in child order. -/
def Pontoon.children (p : Pontoon) (cell : Nat) : List Nat :=
  let n := p.node cell
  (indices n.nkid).map fun i => n.kids + i * p.obj.cellSize

/-- Active elements of the batch with their cells. -/
def Pontoon.frames (p : Pontoon) : List (Nat × Nat) :=
  (p.cells.zipIdx.filter fun e => maskBit p.active e.2).map fun e => (e.2, e.1)

/-! The bytes that an entry of the VIQ will access -/

/-- A number of bytes from a place on. -/
abbrev Bytes := Nat × Nat

/-- Whether some ranges and a range have a byte in common. -/
def meets (l : List Bytes) (q : Bytes) : Bool := l.any fun p => decide (p.1 < q.1 + q.2) && decide (q.1 < p.1 + p.2)

/-- All bytes that an access of a hart in a space can reach. -/
def spaceBytes (c h space : Nat) (s : State) : List Bytes :=
  let arena : Nat → Group → Bytes := fun k g => (lsPlace k g.lsBase, g.size)
  match (s.hartAt c h).id.group.bind s.group? with
  | none => if space < 2 then [] else [(0, 4 * 2 ^ 56)]
  | some g =>
    match space with
    | 0 => [arena c g]
    | 1 => (indices 4).filterMap fun m => (s.gangMember g m).map fun y => arena y.2.core.toNat y.2
    | _ => [(0, 4 * 2 ^ 56)]

/-- The bytes of some ranges of an entry as its addresses translate now; none for a range that would fault. -/
def spanBytes (c h : Nat) (v : VEntry) (space : Nat) (k : Access) (l : List Span) (s : State) : List Bytes :=
  l.filterMap fun p =>
    match placeIn c h v space k p.addr p.bytes p.elem s with
    | .ok q _ => some (q.1, p.bytes)
    | _ => none

/-- The mask that governs an access as far as it is known: the mask itself, or m0 while an instruction before may write it. -/
def knownMask (before : List VEntry) (m : Nat) : Nat :=
  if before.any fun e => maskWritten e.instr == some m then 0 else m

/-- Whether an instruction before may write a vector register. -/
def mayWrite (before : List VEntry) (r : VReg) : Bool :=
  before.any fun e => (usesOf e.instr).dst == some r.toNat || e.binds.any (fun b => b.2.1 == r) || match e.instr with
    | .vrel q => q == r
    | _ => false

/-- The bytes of an entry's own vector access, of the active elements from VSTART on as far as its mask is known; of an indexed
one whose index elements are not all there yet, any byte of its space. -/
def vectorBytes (c h : Nat) (before : List VEntry) (v : VEntry) (form : VAddr) (m : MReg) (k : Access) (s : State) :
    List Bytes :=
  let x := s.hartAt c h
  let mk := knownMask before m.toNat
  let known := match form with
    | .indexed b => !mayWrite before b && !v.binds.any (fun q => q.2.1 == b && !q.2.2) &&
        (activeElems x mk v.vl).all fun e => presentElem c h b.toNat (typeBits v.ty) e s
    | _ => true
  if known then spanBytes c h v v.mspace k ((accessSpans x v form mk).filter fun p => decide (v.start ≤ p.elem)) s
  else spaceBytes c h v.mspace s

/-- The bytes of the rows and sidecar records of a tile movement. -/
def movementBytes (c h : Nat) (v : VEntry) (k : Access) (s : State) : List Bytes :=
  match movement (v.x 1) with
  | none => []
  | some (stride, rows, bytes, sc) =>
    spanBytes c h v v.mspace k ((indices rows).flatMap fun r => ⟨r, v.x 0 + word (r * stride), bytes⟩ ::
      (if sc then [(⟨r, v.x 0 + word (rows * stride + 16 * r), 16⟩ : Span)] else [])) s

/-- The bytes of the window that an AMERGE folds into memory: that of the last AWIN before it, or the open one (R160). -/
def windowBytes (c h : Nat) (before : List VEntry) (v : VEntry) (s : State) : List Bytes :=
  let opened := (before.filter fun e => match e.instr with
    | .awin _ _ _ => true
    | _ => false).getLast?.map fun e => ((e.x 0).toNat, e.x 1, typeBits e.ty / 8, e.mspace)
  let w := opened <|> (s.hartAt c h).ms.window.map fun w => (w.count, w.base, typeBits w.ty.toNat / 8, w.space)
  match w with
  | none => []
  | some (count, base, size, space) =>
    spanBytes c h v space .amo ((indices (Nat.min count 4096)).map fun j => ⟨j, base + word (j * size), size⟩) s

/-- The bytes of words at some arena offsets. -/
def arenaWords (c h : Nat) (v : VEntry) (k : Access) (l : List Nat) (s : State) : List Bytes :=
  spanBytes c h v 0 k (l.map fun o => ⟨0, word o, 8⟩) s

/-- The bytes that a Pontoon instruction stores (R103, R110): the cells of children that an RSPAWN before it, or it, allocates are
not known, and stand from the end of the cells allocated on. -/
def pontoonStores (c h : Nat) (before : List VEntry) (v : VEntry) (s : State) : List Bytes :=
  match (s.hartAt c h).rc.pontoon with
  | none => []
  | some p =>
    let fresh : List Bytes :=
      let from_ := if p.step = .depth then p.sb else p.top
      spanBytes c h v 0 .write [⟨0, word from_, p.obj.arena + p.obj.asize - from_⟩] s
    let spawns := before.any fun e => match e.instr with
      | .rspawn _ => true
      | _ => false
    let w := 8 + 8 * (v.x 0).toNat
    match v.instr with
    | .rput _ _ i =>
      if spawns then fresh
      else arenaWords c h v .write (p.frames.filterMap fun e => ((p.children e.2)[i.toNat]?).map (· + w)) s
    | .rres _ _ => arenaWords c h v .write (p.frames.map fun e => e.2 + p.obj.frame + w) s
    | .rspawn _ => fresh
    | .rdone => arenaWords c h v .write (p.frames.flatMap fun e => e.2 :: (p.node e.2).parent.toList) s
    | _ => []

/-- The bytes that a Pontoon instruction loads (R110). -/
def pontoonLoads (c h : Nat) (v : VEntry) (s : State) : List Bytes :=
  match (s.hartAt c h).rc.pontoon with
  | none => []
  | some p =>
    let w := 8 + 8 * (v.x 0).toNat
    match v.instr with
    | .rfld _ _ => arenaWords c h v .read (p.frames.map fun e => e.2 + w) s
    | .rkid _ _ i =>
      arenaWords c h v .read (p.frames.filterMap fun e => ((p.children e.2)[i.toNat]?).map (· + p.obj.frame + w)) s
    | _ => []

/-- Elements of the pattern of a strip that a captured loop has yet to claim are listed up to this many; of more, any byte of
their space is meant (log entry 72). -/
def stripListed : Nat := 65536

/-- The bytes of the slots of a channel. -/
def channelBytes (c h : Nat) (v : VEntry) (n : Nat) (s : State) : List Bytes :=
  match lookup (s.core c).channels n with
  | none => []
  | some ch => spanBytes c h v 0 .read [⟨0, word ch.base, ch.nslot * 2 ^ (ch.sz + 6)⟩] s

/-- The bytes of the strips of an entry that append, or that pop: those claimed, of the active elements as far as the mask is
known and of a backed stream in its tail slot once that is reserved; for a body instruction of a captured loop, those that the
iterations left may claim. -/
def stripBytes (c h : Nat) (before : List VEntry) (v : VEntry) (store : Bool) (s : State) : List Bytes :=
  let x := s.hartAt c h
  let k : Access := if store then .write else .read
  if v.popped && !store then []
  else if !v.strips.isEmpty then
    (v.strips.filter fun t => t.store == store).flatMap fun t =>
      let es := t.elems x (knownMask before (appendMask v.instr)) v.vl
      if !t.desc.chv then spanBytes c h v t.desc.space k (t.spans 0 es) s
      else
        match if store then lookup x.ms.tails t.pass else none, lookup (s.core c).channels t.desc.ch with
        | some q, some ch => spanBytes c h v 0 k (t.spans (slotBase ch q.slot) es) s
        | _, _ => channelBytes c h v t.desc.ch s
  else
    (v.binds.filter fun b => b.2.2 == store).flatMap fun b =>
      match lookup x.ms.streams b.1 with
      | none => []
      | some q =>
        if q.desc.chv then channelBytes c h v q.desc.ch s
        else
          let users := ((x.lp.loop.map (·.body)).getD []).foldl (fun n e => if e.binds.any fun o => o.1 == b.1 then n + e.vl else n) v.vl
          let n := Nat.min (q.desc.total - q.pos) (users * x.lp.lcnt.toNat)
          if stripListed < n then spaceBytes c h q.desc.space s
          else spanBytes c h v q.desc.space k ((⟨b.1, b.2.1, store, q.desc, q.pos, q.pass, 0⟩ : Strip).spans 0 (indices n)) s

/-- The bytes that an instruction of the VIQ will store. -/
def storedBytes (c h : Nat) (before : List VEntry) (v : VEntry) (s : State) : List Bytes :=
  (match v.instr with
   | .vst _ _ m _ => vectorBytes c h before v .unit m .write s
   | .vsts _ _ _ m _ => vectorBytes c h before v .strided m .write s
   | .vstx _ _ b m _ => vectorBytes c h before v (.indexed b) m .write s
   | .tst _ _ _ => movementBytes c h v .write s
   | .amerge => windowBytes c h before v s
   | .rput _ _ _ | .rspawn _ | .rres _ _ | .rdone => pontoonStores c h before v s
   | _ => []) ++ (match v.instr with
   | .vrel _ => []
   | _ => stripBytes c h before v true s)

/-- The bytes that an instruction of the VIQ will load. -/
def loadedBytes (c h : Nat) (before : List VEntry) (v : VEntry) (s : State) : List Bytes :=
  (match v.instr with
   | .vld _ _ m _ => vectorBytes c h before v .unit m .read s
   | .vlds _ _ _ m _ => vectorBytes c h before v .strided m .read s
   | .vldx _ _ b m _ => vectorBytes c h before v (.indexed b) m .read s
   | .tld _ _ _ | .tldp _ _ _ => movementBytes c h v .read s
   | .rfld _ _ | .rkid _ _ _ => pontoonLoads c h v s
   | _ => []) ++ (match v.instr with
   | .vrel _ => []
   | _ => stripBytes c h before v false s)

/-- Whether an instruction of the current hart's VIQ will store to one of some bytes. -/
def storeDue (l : List Bytes) (s : State) : Bool :=
  s.hart.due.any fun e => e.any fun q => q.2.stores && (storedBytes s.here s.me q.1 q.2 s).any fun b => meets l b

/-- Whether an instruction of the current hart's VIQ will load one of some bytes. -/
def loadDue (l : List Bytes) (s : State) : Bool :=
  s.hart.due.any fun e => e.any fun q => q.2.loads && (loadedBytes s.here s.me q.1 q.2 s).any fun b => meets l b

/-- How many entries of the current hart's VIQ, the oldest first, a front store must follow: up to the youngest of which `p`
selects an instruction, by those before it and itself. -/
def followed (p : List VEntry → VEntry → Bool) (s : State) : Nat :=
  (s.hart.due.reverse.dropWhile fun l => !l.any fun q => p q.1 q.2).length

/-- A store to `n` bytes at a place commits after every earlier store, and after every earlier load of one of the bytes; under DET
after every earlier access. -/
def storeFollows (p n : Nat) (s : State) : Nat :=
  followed (fun before v => v.stores ||
    (v.loads && (s.hart.lp.det || (loadedBytes s.here s.me before v s).any fun b => meets [(p, n)] b))) s

/-- What releases, a channel put (R153) or an AMO.rel (R176, note 2), commits after every earlier access. -/
def releaseFollows (s : State) : Nat := followed (fun _ v => v.memory) s

/-- A front access waits for the earlier entries of the VIQ that it must follow (R80, R176), under DET for every one that
accesses memory (R184). -/
def followVector (reason : Nat) (p : VEntry → Bool) (s : State) : Res Unit :=
  if s.hart.anyPart (fun v => p v || (s.hart.lp.det && v.memory)) s.hart.vec.viq then .wait reason s else .ok () s

/-! Takes of slots (R152, R153) -/

/-- The slots of channels that pops in a hart's VIQ will take or read, by channel: the head slot at the time, which is known for
claimed strips; any slot for those of a captured loop. -/
def slotsDue (c : Nat) (x : Hart) (s : State) : List (Nat × Option Nat) :=
  let parts := x.due.flatMap fun e => e.map (·.2)
  (parts.foldl (fun (acc : List (Nat × Option Nat) × AMap Nat) v =>
    if v.popped then acc
    else if v.strips.isEmpty then
      (acc.1 ++ v.binds.filterMap fun b => match lookup x.ms.streams b.1 with
        | some q => if !b.2.2 && q.desc.chv then some (q.desc.ch, none) else none
        | none => none, acc.2)
    else
      (v.strips.filter fun t => !t.store && t.desc.chv).foldl (fun acc t =>
        let n := t.desc.ch
        match lookup (s.core c).channels n with
        | none => acc
        | some ch =>
          let k := lookupD acc.2 n 0
          (acc.1 ++ [(n, some ((ch.head + k) % ch.nslot))],
            if t.pos + t.count v.vl = t.desc.total then insert acc.2 n (k + 1) else acc.2)) acc) ([], [])).1

/-- Whether one of `n` bytes at a place lies in a slot that an earlier pop of the current hart's VIQ takes and that is not filled
yet: a take is an acquire of the bytes of its slot (R153; R176, note 9). -/
def takeDue (p n : Nat) (s : State) : Bool :=
  (slotsDue s.here s.hart s).any fun q =>
    match lookup (s.core s.here).channels q.1 with
    | none => false
    | some ch =>
      let slots := match q.2 with
        | some k => [k]
        | none => indices ch.nslot
      (slots.filter fun k => !ch.marks.contains k).any fun k =>
        match lsPlaceOf s.here s.arenaBase s.arenaSize (word (slotBase ch k)) (2 ^ (ch.sz + 6)) 0 false s with
        | .ok a _ => meets [(p, n)] (a, 2 ^ (ch.sz + 6))
        | _ => false

/-! Reads ahead of the vector side -/

/-- An entry that loads keeps the values of bytes that a younger access of the front reads now; those that it has stay. -/
def VEntry.overtaken (l : List (Nat × Byte)) (v : VEntry) : VEntry :=
  if v.loads then { v with ahead := v.ahead ++ l.filter fun b => !v.ahead.any fun o => o.1 == b.1 } else v

/-- Whether a vector load performs its elements in ascending order (R179, R291). -/
def VEntry.ordered (v : VEntry) : Bool :=
  match v.instr with
  | .vld _ _ _ o | .vlds _ _ _ _ o | .vldx _ _ _ _ o => o == 1
  | _ => false

/-- The bytes that the loads of each entry of the VIQ read now, when the front reads some bytes ahead of them: those bytes, and
all bytes of an ordered load that reads one of them, so that its elements perform in order (R179). -/
def aheadOf (l : List Bytes) (s : State) : List (List Bytes) :=
  let grow : List (List VEntry × VEntry) → List Bytes → List Bytes := fun e l =>
    e.foldl (fun l q =>
      let own := loadedBytes s.here s.me q.1 q.2 s
      if q.2.ordered && own.any (fun b => meets l b) then l ++ own.filter fun b => !l.contains b else l) l
  (s.hart.due.foldr (fun e (acc : List Bytes × List (List Bytes)) =>
    let l := (indices e.length).foldl (fun l _ => grow e l) acc.1
    (l, l :: acc.2)) (l, [])).2

/-- The values of some bytes; a poisoned line is left to the load itself (R230). -/
def valuesOf (l : List Bytes) (s : State) : List (Nat × Byte) :=
  (l.flatMap fun b => (indices b.2).map fun i => (b.1 + i, readPlace s.mem (b.1 + i))).filter fun b => !poisoned b.1 1 s

/-- The front reads `n` bytes at a place ahead of the loads in its VIQ, for which it does not wait (R15, R53): each of them reads
those bytes as they are now, so that the two are in program order (R176, note 1; log entry 72). -/
def readAhead (p n : Nat) (s : State) : State :=
  if !s.hart.anyPart VEntry.loads s.hart.vec.viq then s
  else
    let sets := (aheadOf [(p, n)] s).map fun l => valuesOf l s
    s.modHart fun x =>
      let ofLoop := (x.vec.viq.zip sets).find? fun e => e.1.isLoop
      { x with vec := { x.vec with viq := (x.vec.viq.zip sets).map fun e => e.1.overtaken e.2 }
               lp := { x.lp with loop := match ofLoop with
                 | none => x.lp.loop
                 | some e => x.lp.loop.map fun q => { q with body := q.body.map (VEntry.overtaken e.2) } } }

/-- A front read of `n` bytes at a place waits for an earlier store of the VIQ to them (R53), for an earlier take of them (R153),
and with `det` under DET for every access of the VIQ (R184). Where an ordered load of the VIQ is to read one of them, all of its bytes are
read, so that they wait too (R179). -/
def awaitVector (det : Bool) (p n : Nat) (s : State) : Res Unit :=
  if s.hart.vec.viq.isEmpty then .ok () s
  else
    (if det then followVector 15 (fun _ => false) s else .ok () s).bind fun _ s =>
      if storeDue [(p, n)] s then .wait 15 s
      else if takeDue p n s then .wait 4 s
      else
        let more := ((aheadOf [(p, n)] s).headD []).filter fun b => b != (p, n)
        if more.isEmpty then .ok () (readAhead p n s)
        else
          (awaitThese s.here s.me false s.hart.ms.stq more s).bind fun _ s =>
            if storeDue more s then .wait 15 s else .ok () (readAhead p n s)

/-- A front read of `n` bytes at a place waits for the hart's earlier stores to them, or raises DEFERRED (R80, R276), and for
what of the VIQ must be performed before it. -/
def awaitHere (p n : Nat) (s : State) : Res Unit :=
  (awaitThese s.here s.me s.hart.lp.det s.hart.ms.stq [(p, n)] s).bind fun _ s => awaitVector true p n s

/-- The place of `n` bytes at an arena offset of the current hart (R141). -/
def lsHere (off : Word) (n : Nat) (write : Bool) (s : State) : Res Nat :=
  lsPlaceOf s.here s.arenaBase s.arenaSize off n 0 write s

/-- The constant cache of the core is invalidated (R269). -/
def dropConst (s : State) : State := s.modCore s.here fun k => { k with ccache := [] }

/-- Retirement of the current hart's front instruction of `n` bytes. -/
def retireHere (n : Nat) (s : State) : State := s.modHart fun h => h.retire n

end Sys2Proof.Machine
end

