-- ==== Sys2Proof/Machine/Recursion.lean ====
section
/-! DEFINITION. The Pontoon: cells, batches, the three phases and the routine instructions (R102 to R116, R307). -/

namespace Sys2Proof.Machine

/-! Objects and cells -/

/-- Address of a routine: 0 divide, 1 base, 2 combine. -/
def RObj.entry (o : RObj) (rout : Nat) : BitVec 48 :=
  BitVec.ofNat 48 (wrap 48 ((o.codeBase : Int) + (match rout with
    | 0 => o.divOff
    | 1 => o.baseOff
    | _ => o.combOff)))

def Pontoon.setNode (p : Pontoon) (cell : Nat) (n : Node) : Pontoon := { p with nodes := insert p.nodes cell n }

/-- The header word of a frame (R103). -/
def Node.header (n : Node) : Nat :=
  n.kids * 2 ^ 32 + n.ndone % 16 * 2 ^ 12 + n.nkid * 2 ^ 8 + bit n.rv * 2 + bit n.dv

/-- Bytes at an arena offset of a hart join its uncommitted stores. -/
def pontoonWrite (c h off n w : Nat) (s : State) : State :=
  let base := match (s.hartAt c h).id.group with
    | none => 0
    | some g => ((s.group? g).map (·.lsBase)).getD 0
  enqueue c h [{ cells := cellsOf (lsPlace c (base + off)) n w }] s

def State.pontoon? (s : State) (c h : Nat) : Option Pontoon := (s.hartAt c h).rc.pontoon

def setPontoon (c h : Nat) (p : Pontoon) (s : State) : State :=
  s.modHartAt c h fun x => { x with rc := { x.rc with pontoon := some p } }

def modRec (c h : Nat) (f : RecState → RecState) (s : State) : State := s.modHartAt c h fun x => { x with rc := f x.rc }

/-! Batches and phases -/

/-- Some cells in runs of at most `n`. -/
def runsOf (n level : Nat) : Nat → List Nat → List (Nat × List Nat)
  | 0, _ => []
  | fuel + 1, l => if l.isEmpty then [] else (level, l.take n) :: runsOf n level fuel (l.drop n)

/-- VLMAX for 64-bit elements (R112). -/
def Hart.vlMax64 (x : Hart) : Nat := 4 * x.vec.grant

/-- A batch starts (R109): `cells` by element, of which those of `active` take part. RSTAT.LEVEL shows a breadth level above 255
modulo 256, of which R105 says nothing (DESIGN CHOICE; log entry 130). -/
def startBatch (c h rout level : Nat) (cells : List Nat) (active : List Nat) (p : Pontoon) (s : State) : State :=
  let mask : MaskBits := active.foldl (fun y e => putMaskBit y e true) 0
  s.modHartAt c h fun x =>
    let x := (x.setM 7 mask).setPc (p.obj.entry rout)
    { x with
      vec := { x.vec with vtype := 3, vl := cells.length }
      rc := { x.rc with
        rout := BitVec.ofNat 2 rout
        batch := BitVec.ofNat 10 cells.length
        act := true
        level := BitVec.ofNat 8 level
        pontoon := some { p with cells := cells, active := mask, spawned := false, fail := none } } }

/-- The recursion stops with an exception at its RRUN (R116). -/
def stopRecursion (c h : Nat) (p : Pontoon) (e : Exc) (s : State) : State :=
  let s := s.modHartAt c h fun x =>
    let x := (x.setM 7 p.savedM7).setPc p.pc
    { x with
      vec := { x.vec with vl := p.savedVl, vtype := p.savedVtype }
      rc := { x.rc with rout := 3, batch := 0, act := false, stop := true, pontoon := some p } }
  let s := s.modCore c fun k => { k with pontoonOwner := none }
  takeTrap c h false p.pc e s

/-- End of the slot region as an offset from ARENA (R104). -/
def Pontoon.slotEnd (p : Pontoon) : Nat :=
  p.sb + (p.obj.depth - 1) * p.obj.cap * p.obj.fanout * p.obj.cellSize - p.obj.arena

/-- RARENA where the slot region does not fit (R307). -/
def slotArena (p : Pontoon) : Exc :=
  { code := 0x0D, info0 := word (2 ^ 64 - 2), info1 := word p.sb, info2 := word p.levels.length,
    info3 := word p.slotEnd }

/-- What a slot does next (R113), after its bookkeeping: its action, 0 divide, 1 base, 2 combine, or none when it has
finished. -/
def slotAction (p : Pontoon) : Nat → RSlot → RSlot × Option Nat
  | 0, q => (q, none)
  | fuel + 1, q =>
    match q.stack with
    | [] =>
      match q.queue with
      | [] => (q, none)
      | t :: rest => slotAction p fuel ⟨rest, [t]⟩
    | t :: under =>
      let n := p.node t
      if !n.dv then (q, some 0)
      else if n.rv then slotAction p fuel { q with stack := under }
      else if n.nkid = 0 then (q, some 1)
      else if n.ndone = n.nkid then (q, some 2)
      else slotAction p fuel { q with stack := (n.kids + n.ndone * p.obj.cellSize) :: t :: under }

/-- The routine with the most slots, ties in the order divide, base, combine. -/
def chooseAction (acts : List (Option Nat)) : Option Nat :=
  let n : Nat → Nat := fun r => acts.count (some r)
  if n 0 + n 1 + n 2 = 0 then none
  else if n 1 ≤ n 0 ∧ n 2 ≤ n 0 then some 0
  else if n 2 ≤ n 1 then some 1
  else some 2

/-- The final combine (R114): the runs of every breadth level, from the deepest to level 0. -/
def finalRuns (vmax : Nat) (p : Pontoon) : List (Nat × List Nat) :=
  p.levels.zipIdx.reverse.flatMap fun (cells, l) =>
    runsOf vmax l cells.length (cells.filter fun t => decide (0 < (p.node t).nkid))

/-- The next batch starts, a phase ends, the recursion stops, or only its settle remains (R112 to R114). -/
def advance (c h : Nat) (p : Pontoon) (s : State) : Nat → State
  | 0 => s
  | fuel + 1 =>
    let vmax := (s.hartAt c h).vlMax64
    match p.runs, p.step with
    | (l, cells) :: rest, step =>
      let rout := match step with
        | .divide => 0
        | .base => 1
        | _ => 2
      startBatch c h rout l cells (indices cells.length) { p with runs := rest } s
    | [], .divide =>
      let level := p.levels.getLast?.getD []
      let base := level.filter fun t => (p.node t).nkid == 0
      advance c h { p with step := .base, runs := runsOf vmax (p.levels.length - 1) base.length base } s fuel
    | [], .base =>
      let next := (p.levels.getLast?.getD []).flatMap p.children
      if next.isEmpty then
        advance c h { p with step := .combine, runs := finalRuns vmax p } (modRec c h (fun r => { r with phase := 3 }) s) fuel
      else if next.length ≤ p.obj.cap then
        advance c h { p with step := .divide, levels := p.levels ++ [next]
                             runs := runsOf vmax p.levels.length next.length next } s fuel
      else
        let slots := (indices p.obj.cap).map fun j =>
          (⟨(next.zipIdx.filter fun e => e.2 % p.obj.cap == j).map (·.1), []⟩ : RSlot)
        let nodes := next.foldl (fun m t => insert m t { p.node t with depth := 1 }) p.nodes
        let p : Pontoon := { p with step := .depth, sb := p.top, slots := slots, nodes := nodes }
        let s := modRec c h (fun r => { r with phase := 2, level := 0 }) s
        if p.obj.asize < p.slotEnd then stopRecursion c h p (slotArena p) s else advance c h p s fuel
    | [], .depth =>
      let todo := p.slots.map fun q => slotAction p (4 * p.nodes.length + 4) q
      let p : Pontoon := { p with slots := todo.map (·.1) }
      match chooseAction (todo.map (·.2)) with
      | none => advance c h { p with step := .combine, runs := finalRuns vmax p } (modRec c h (fun r => { r with phase := 3 }) s) fuel
      | some rout =>
        let active := (todo.zipIdx.filter fun e => e.1.2 == some rout).map (·.2)
        let deepest := (p.slots.map fun q => q.stack.length).foldl Nat.max 0
        startBatch c h rout deepest (p.slots.map fun q => q.stack.head?.getD 0) active p s
    | [], .combine | [], .settle =>
      s.modHartAt c h fun x =>
        { (x.setPc p.pc) with
          rc := { x.rc with rout := 3, batch := 0, act := false, pontoon := some { p with step := .settle } } }

/-- Steps that `advance` may take before it starts a batch: it passes each phase once at most between two batches. -/
def advanceFuel : Nat := 8

/-! Routine instructions (R110) -/

/-- The batch of a hart, when it is one of some routines, or ENGINE reason 1; and word index x[a] below a limit, or
reason 2 (R111). -/
def inRoutine (c h : Nat) (v : VEntry) (routs : List Nat) (limit : Option (RObj → Nat)) (s : State) : Res Pontoon :=
  let x := s.hartAt c h
  match x.rc.pontoon with
  | none => raise (engineExc 1 0) s
  | some p =>
    if !x.rc.act || !routs.contains x.rc.rout.toNat then raise (engineExc 1 0) s
    else
      match limit with
      | none => .ok p s
      | some f => if f p.obj / 8 ≤ (v.x 0).toNat then raise (engineExc 2 (v.x 0)) s else .ok p s

/-- Places of 8-byte words at arena offsets, by element. -/
def wordPlaces (c h : Nat) (v : VEntry) (k : Access) (l : List (Nat × Nat)) (s : State) : Res (List Placed) :=
  mapEach (l.map fun e => (⟨e.1, word e.2, 8⟩ : Span)) (spanPlace c h v 0 k) s

/-- Words are read into elements of a register, which are present; `zeros` are the elements that become 0. They are elements of A,
whatever VL is (R110). -/
def readWords (c h : Nat) (v : VEntry) (d : VReg) (l : List (Nat × Nat)) (zeros : List Nat) (s : State) : Res VOut :=
  (wordPlaces c h v .read l s).bind fun ps s =>
    (readPlaced c h v ps s).bind fun ws s =>
      let rs := ws.map (fun w => Elem.value w.1.elem w.2) ++ zeros.map fun e => .value e 0
      let rs := if zeros.isEmpty then rs else rs.mergeSort fun a b => decide (a.elem ≤ b.elem)
      applyRow c h v d 64 (v.upwards rs) 3 [] s

/-- Elements of a register join the hart's uncommitted stores. -/
def storeWords (c h : Nat) (v : VEntry) (r : VReg) (l : List (Nat × Nat)) (s : State) : Res VOut :=
  (wordPlaces c h v .write l s).bind fun ps s =>
    joinStores c h v (ps.map fun p => (p.1.elem, storeElem c h v r.toNat 64 p s)) ps s

def runRfld (c h : Nat) (v : VEntry) (d : VReg) (s : State) : Res VOut :=
  (inRoutine c h v [0, 1, 2] (some RObj.frame) s).bind fun p s =>
    readWords c h v d (p.frames.map fun e => (e.1, e.2 + 8 + 8 * (v.x 0).toNat)) [] s

def runRput (c h : Nat) (v : VEntry) (r : VReg) (i : BitVec 3) (s : State) : Res VOut :=
  (inRoutine c h v [0] (some RObj.frame) s).bind fun p s =>
    storeWords c h v r (p.frames.filterMap fun e =>
      match (p.children e.2)[i.toNat]? with
      | some k => some (e.1, k + 8 + 8 * (v.x 0).toNat)
      | none => none) s

def runRres (c h : Nat) (v : VEntry) (r : VReg) (s : State) : Res VOut :=
  (inRoutine c h v [1, 2] (some RObj.result) s).bind fun p s =>
    storeWords c h v r (p.frames.map fun e => (e.1, e.2 + 8 + p.obj.frame + 8 * (v.x 0).toNat)) s

def runRkid (c h : Nat) (v : VEntry) (d : VReg) (i : BitVec 3) (s : State) : Res VOut :=
  (inRoutine c h v [2] (some RObj.result) s).bind fun p s =>
    let l := p.frames.map fun e => (e.1, (p.children e.2)[i.toNat]?)
    readWords c h v d (l.filterMap fun e => e.2.map fun k => (e.1, k + 8 + p.obj.frame + 8 * (v.x 0).toNat))
      (l.filterMap fun e => if e.2.isNone then some e.1 else none) s

/-- Children of a frame are allocated: their cells are cleared and the Pontoon keeps where they are. NKID and KIDS reach the
header in LS at the RDONE, when R109 has the Pontoon update the headers, though R110 sets NKID at the RSPAWN (DESIGN CHOICE;
log entry 90). -/
def allocate (c h cell base n : Nat) (p : Pontoon) (s : State) : Pontoon × State :=
  let z := p.obj.cellSize
  let node := { p.node cell with nkid := n, kids := if n = 0 then 0 else base }
  let p := p.setNode cell node
  let p := (indices n).foldl (fun p i => p.setNode (base + i * z) (Node.new (some cell) (node.depth + 1))) p
  let s := if n = 0 then s else pontoonWrite c h base (n * z) 0 s
  (p, modRec c h (fun r => { r with cells := r.cells + BitVec.ofNat 32 n }) s)

/-- RSPAWN (R110, R112, R113). -/
def runRspawn (c h : Nat) (v : VEntry) (r : VReg) (s : State) : Res VOut :=
  (inRoutine c h v [0] none s).bind fun p s =>
    if p.spawned then raise (engineExc 4 0) s
    else
      (requirePresent c h (p.frames.map fun e => (r.toNat, e.1)) 64 s).bind fun _ s =>
        let x := s.hartAt c h
        let want := p.frames.map fun e => (e.1, e.2, elemOf (x.getV r.toNat) 64 e.1)
        match want.find? fun e => decide (p.obj.fanout < e.2.2) with
        | some e => raise { engineExc 3 (word e.1) with info1 := word e.2.2 } s
        | none =>
          let p := { p with spawned := true }
          let z := p.obj.cellSize
          if p.step = .depth then
            match want.find? fun e => decide (0 < e.2.2) && decide (p.obj.depth ≤ (p.node e.2.1).depth) with
            | some e =>
              .ok (.done v.flags)
                (setPontoon c h { p with fail := some (0x0C, word e.1, word e.2.1, word p.obj.depth, 0) } s)
            | none =>
              let (p, s) := want.foldl (fun ps e =>
                let k := (ps.1.node e.2.1).depth
                allocate c h e.2.1 (p.sb + ((k - 1) * p.obj.cap + e.1) * p.obj.fanout * z) e.2.2 ps.1 ps.2) (p, s)
              .ok (.done v.flags) (setPontoon c h p s)
          else
            let need := p.top + z * (want.map fun e => e.2.2).sum - p.obj.arena
            if p.obj.asize < need then
              let first := word ((p.cells.head?).getD 0)
              .ok (.done v.flags) (setPontoon c h
                { p with fail := some (0x0D, word (2 ^ 64 - 1), first, word (p.levels.length - 1), word need) } s)
            else
              let (p, s) := want.foldl (fun ps e =>
                let (q, s) := allocate c h e.2.1 ps.1.top e.2.2 ps.1 ps.2
                ({ q with top := q.top + z * e.2.2 }, s)) (p, s)
              .ok (.done v.flags) (setPontoon c h p s)

/-- The headers of the frames of a batch that has ended (R103): DV after a divide, else RV and one more NDONE of the
parent. -/
def endFrames (rout : Nat) (p : Pontoon) : Pontoon × List Nat :=
  p.frames.foldl (fun acc e =>
    let n := acc.1.node e.2
    if rout = 0 then (acc.1.setNode e.2 { n with dv := true }, acc.2 ++ [e.2])
    else
      let q := acc.1.setNode e.2 { n with rv := true }
      match n.parent with
      | none => (q, acc.2 ++ [e.2])
      | some u => (q.setNode u { q.node u with ndone := (q.node u).ndone + 1 }, acc.2 ++ [e.2, u])) (p, [])

/-- RDONE (R109): the batch ends, or is undone and the recursion stops. The stop is one between batches, at the RRUN (R116), so
that RDONE has left the VIQ. Runs that are still queued at a stop keep the size of the VLMAX64 of that time, also when the
handler executes a VGRANT (DESIGN CHOICE; log entry 106). -/
def runRdone (c h : Nat) (v : VEntry) (s : State) : Res VOut :=
  (inRoutine c h v [0, 1, 2] none s).bind fun p s =>
    let rout := (s.hartAt c h).rc.rout.toNat
    match p.fail with
    | some (code, a, b, d, e) =>
      let runs := if p.step = .depth then p.runs else (p.levels.length - 1, p.cells) :: p.runs
      .ok (.done v.flags) (stopRecursion c h { p with runs := runs, fail := none, spawned := false }
        { code := code, info0 := a, info1 := b, info2 := d, info3 := e } (dropHead c h s))
    | none =>
      let (p, changed) := endFrames rout p
      let s := changed.eraseDups.foldl (fun s t => pontoonWrite c h t 8 (p.node t).header s) s
      .ok (.done v.flags) (advance c h p (dropHead c h s) advanceFuel)

/-! RDEF and RRUN on the front -/

/-- The object that 64 bytes hold (R102), and the lowest byte offset of a field outside its limits: R107 does not order the fields
(DESIGN CHOICE; log entry 134). -/
def parseObject (w : Nat) : RObj × Option Nat :=
  let f : Nat → Nat → Nat := fun off n => bits w (8 * off) (8 * n)
  let o : RObj :=
    { codeBase := f 0 6, divOff := signedOf 32 (f 8 4), baseOff := signedOf 32 (f 12 4), combOff := signedOf 32 (f 16 4),
      frame := f 20 2, result := f 22 2, fanout := f 24 1, depth := f 25 1, cap := f 26 2, arena := f 28 4,
      asize := f 32 4 }
  let size : Nat → Bool := fun n => decide (8 ≤ n) && decide (n ≤ 256) && n % 8 == 0
  let checks : List (Nat × Bool) :=
    [(0, f 0 8 % 2 == 0 && f 6 2 == 0), (8, f 8 4 % 2 == 0), (12, f 12 4 % 2 == 0), (16, f 16 4 % 2 == 0),
     (20, size o.frame), (22, size o.result), (24, decide (1 ≤ o.fanout) && decide (o.fanout ≤ 8)),
     (25, decide (1 ≤ o.depth)), (26, decide (1 ≤ o.cap) && decide (o.cap ≤ 512)), (28, o.arena % 8 == 0),
     (32, o.asize % 8 == 0), (36, f 36 28 == 0)]
  (o, (checks.find? fun e => !e.2).map (·.1))

/-- ENGINE reason 8 (R111). -/
def objectExc (off : Nat) : Exc := engineExc 8 (word off)

/-- RDEF (R107). -/
def defineObject (off : Word) (s : State) : Res Unit :=
  (outsideBatch s).bind fun _ s =>
    let a := s.arenaSize
    if off.toNat % 64 ≠ 0 then raise (misalign off) s
    else if a < off.toNat + 64 then raise (boundExc (Nat.max off.toNat a) 0 false) s
    else
      (lsHere off 64 false s).bind fun p s =>
        (awaitHere p 64 s).bind fun _ s =>
          (loadPlace s.here p 64 s).bind fun w s =>
            let (o, bad) := parseObject w
            match bad with
            | some f => raise (objectExc f) s
            | none =>
              if a < o.arena + o.asize then raise (boundExc (Nat.max o.arena a) 0 false) s
              else
                let grown := match s.hart.rc.pontoon with
                  | none => true
                  | some q => decide (o = { q.obj with depth := o.depth, asize := o.asize }) &&
                      decide (q.obj.depth ≤ o.depth) && decide (q.obj.asize ≤ o.asize)
                if s.hart.rc.stop && !grown then raise (objectExc 0x40) s
                else
                  .ok () (modRec s.here s.me (fun r =>
                    { r with objV := true, objOff := BitVec.ofNat 22 off.toNat, obj := some o }) s)

/-- The Pontoon is free for the current hart, or RRUN waits (R108). -/
def claimPontoon (s : State) : Res Unit :=
  match (s.core s.here).pontoonOwner with
  | none => .ok () (s.modCore s.here fun k => { k with pontoonOwner := some s.curHart })
  | some h => if h = s.curHart then .ok () s else .wait 10 s

/-- The end of a recursion (R108): the settle, then VL, VTYPE and m7 as they were, and the Pontoon is free. -/
def endRecursion (p : Pontoon) (s : State) : Res Unit :=
  (settleHere s).bind fun _ s =>
    let s := s.modHart fun x =>
      let x := (x.setM 7 p.savedM7).setPc p.pc
      { x with
        vec := { x.vec with vl := p.savedVl, vtype := p.savedVtype }
        rc := { x.rc with phase := 0, pontoon := none } }
    .ok () (retireHere 4 (s.modCore s.here fun k => { k with pontoonOwner := none }))

/-- A stopped recursion goes on (R104, R108). -/
def resumeRecursion (p : Pontoon) (s : State) : Res Unit :=
  (claimPontoon s).bind fun _ s =>
    let p := { p with obj := s.hart.rc.obj.getD p.obj }
    let s := modRec s.here s.me (fun r => { r with stop := false }) s
    if p.step = .depth && decide (p.obj.asize < p.slotEnd) then
      .ok () (stopRecursion s.here s.me p (slotArena p) s)
    else .ok () (advance s.here s.me p s advanceFuel)

/-- The `n` bytes at a place, as they read once the bytes of a range are cleared. -/
def clearedBytes (w p n : Nat) (cleared : Bytes) : Nat :=
  (indices n).foldl (fun w i => if meets [cleared] (p + i, 1) then setBits w (8 * i) 8 0 else w) w

/-- A recursion starts with the frame at arena offset `off` (R108, R112): the root cell is cleared before the frame is
copied. -/
def startRecursion (o : RObj) (off : Word) (s : State) : Res Unit :=
  (lsHere off o.frame false s).bind fun q s =>
    (awaitHere q o.frame s).bind fun _ s =>
      (loadPlace s.here q o.frame s).bind fun w s =>
        (claimPontoon s).bind fun _ s =>
          let x := s.hart
          let w := clearedBytes w q o.frame (lsPlace s.here (s.arenaBase + o.arena), o.cellSize)
          let p : Pontoon :=
            { obj := o, pc := x.pc, savedVl := x.vec.vl, savedVtype := x.vec.vtype, savedM7 := x.getM 7, step := .divide,
              levels := [[o.arena]], runs := [(0, [o.arena])], nodes := [(o.arena, Node.new none 0)],
              top := o.arena + o.cellSize, sb := 0, slots := [], cells := [], active := 0, spawned := false, fail := none }
          let s := modRec s.here s.me (fun r => { r with phase := 1, cells := 1 }) s
          let s := pontoonWrite s.here s.me o.arena o.cellSize (w * 2 ^ 64) s
          .ok () (advance s.here s.me p s advanceFuel)

/-- RRUN (R108); `resume` when the a field is 0. -/
def runRecursion (resume : Bool) (off : Word) (s : State) : Res Unit :=
  (outsideBatch s).bind fun _ s =>
    (waitVector 10 s).bind fun _ s =>
      let rc := s.hart.rc
      match if rc.stop then rc.pontoon else none, rc.pontoon with
      | some p, _ => resumeRecursion p s
      | none, some p => if p.step = .settle then endRecursion p s else raise (engineExc 6 0) s
      | none, none =>
        if resume then raise (engineExc 6 0) s
        else
          match if rc.objV then rc.obj else none with
          | none => raise (engineExc 5 0) s
          | some o =>
            if s.hart.vlMax64 < o.cap then raise (engineExc 5 (word o.cap)) s
            else if o.asize < o.cellSize then
              raise { code := 0x0D, info0 := word (2 ^ 64 - 3), info1 := word o.arena, info3 := word o.cellSize } s
            else startRecursion o off s

end Sys2Proof.Machine
end

