-- ==== Sys2Proof/Machine/Observe.lean ====
section
/-! DEFINITION. Observation: profiling records, samples of vector memory instructions, debug stops and breakpoints (R245
to R249). -/

namespace Sys2Proof.Machine

/-! Records (R248) -/

/-- A record of 32 bytes goes into the ring of a core, or is counted in DROPS when the ring is full. -/
def addRecord (c : Nat) (pc reason type w1 w2 w3 : Nat) (s : State) : State :=
  let d := (s.core c).dbg
  let base := d.ringBase.toNat + 32 * d.ringPos
  if d.ringSize.toNat < 32 * d.ringPos + 32 || decide (Config.nmSize < base + 32) then
    s.modCore c fun k => { k with dbg := { k.dbg with drops := k.dbg.drops + 1 } }
  else
    let w0 := pc % 2 ^ 48 + reason % 256 * 2 ^ 48 + type % 256 * 2 ^ 56
    let s := performCells (cellsOf (paPlace 0 base) 8 w0 ++ cellsOf (paPlace 0 (base + 8)) 8 w1 ++
      cellsOf (paPlace 0 (base + 16)) 8 w2 ++ cellsOf (paPlace 0 (base + 24)) 8 w3) s
    s.modCore c fun k => { k with dbg := { k.dbg with ringPos := k.dbg.ringPos + 1 } }

/-- The record of a table entry that spills (R247). -/
def spillRecord (c : Nat) (e : ProfEntry) (s : State) : State :=
  addRecord c e.pc.toNat e.reason.toNat 1 e.count (e.tenant.toNat + e.hart.toNat * 2 ^ 8) 0 s

/-- The whole table of a core spills and clears, when a group ends (R247). -/
def spillTable (c : Nat) (s : State) : State :=
  let s := (s.core c).dbg.profile.foldl (fun s e => spillRecord c e.2 s) s
  s.modCore c fun k => { k with dbg := { k.dbg with profile := [] } }

/-! Samples of vector memory instructions (R248) -/

/-- The stride class of a vector memory instruction: 0 unit, 1 constant, 2 indexed, 3 stream. -/
def strideClass (v : VEntry) : Option Nat :=
  match v.instr with
  | .vld _ _ _ _ | .vst _ _ _ _ => some 0
  | .vlds _ _ _ _ _ | .vsts _ _ _ _ _ => some 1
  | .vldx _ _ _ _ _ | .vstx _ _ _ _ _ => some 2
  | _ => if v.strips.isEmpty then none else some 3

/-- Spaces and addresses of the elements of a vector memory instruction, from the registers before it executed, with the index
elements that it popped, and from the slots that its strips used. -/
def accessAddrs (c h : Nat) (v : VEntry) (before after : State) : List (Nat × Nat) :=
  let pops := v.strips.filter fun t => !t.store
  let x := pops.foldl (fun x t => x.setV t.reg.toNat ((after.hartAt c h).getV t.reg.toNat)) (before.hartAt c h)
  (match ownAccess v.instr with
   | some (form, m, _) => (accessSpans x v form m.toNat).map fun p => (v.mspace, p.addr.toNat)
   | none => []) ++
    v.strips.flatMap fun t =>
      (t.spans t.base (t.elems x (appendMask v.instr) v.vl)).map fun p => (t.desc.space, p.addr.toNat)

/-- One vector memory instruction in every 2^s of a core is sampled as it completes; `before` is the state before it. The pages are
those that it holds, or through which the TLBs of its core and die translate its addresses. The counts that depend on time and on
banks are free values. -/
def sampleVector (c h : Nat) (v : VEntry) (before s : State) : State :=
  match strideClass v with
  | none => s
  | some cls =>
    let d := (s.core c).dbg
    if d.sampled + 1 < 2 ^ d.sampleExp then
      s.modCore c fun k => { k with dbg := { k.dbg with sampled := k.dbg.sampled + 1 } }
    else
      let addrs := accessAddrs c h v before s
      let lines := ((addrs.map fun a => (a.1, lineOf a.2)).eraseDups).length
      let asid := (v.ctx c).asid
      let pages := ((addrs.filterMap fun a =>
        if a.1 = 2 then ((tlbFind (v.holds.map (·.leaf)) asid a.2) <|> (tlbFind (s.core c).tlb asid a.2) <|> (tlbFind (s.die (dieOf c)).tlb asid a.2)).map fun e => e.base
        else none).eraseDups).length
      let (conflicts, s) := freshWord s
      let (misses, s) := freshWord s
      let (cycles, s) := freshWord s
      let s := s.modCore c fun k => { k with dbg := { k.dbg with sampled := 0 } }
      addRecord c v.pc.toNat 0 2 (cls + conflicts.toNat % 65536 * 2 ^ 16 + lines % 65536 * 2 ^ 32)
        (pages % 65536 + misses.toNat % 65536 * 2 ^ 16) cycles.toNat s

/-! Waits at the front -/

/-- Whether a hart's group is being pre-empted (R216). -/
def victimised (x : Hart) (s : State) : Bool :=
  match x.id.group with
  | none => false
  | some g => ((s.group? g).map (·.victim)).getD false

/-- Why the front of a hart issues nothing, as a reason of R247: a debug stop, a WAIT, or a SETTLE, RDONE or MDRAIN.sync in
the VIQ (R61, R89, R109, R196). -/
def Hart.blocked (x : Hart) : Option Nat :=
  if x.run.stopped then some 14
  else if x.run.wait.isSome then some 9
  else x.vec.viq.findSome? fun v => match v.instr with
    | .settle _ _ _ => some 5
    | .rdone => some 10
    | .mdrain _ _ _ y => if y = 1 then some 11 else none
    | _ => none

/-! Debug stops and breakpoints (R245, R246) -/

/-- The hart stops, its vector side at an element-group boundary (R226): a wait at its front is abandoned and runs again when
the hart does (R216, R245). An arrival at a GBAR stays counted. -/
def debugStop (c h : Nat) (s : State) : State :=
  (roundStop c h s).modHartAt c h fun x =>
    { x with run := { x.run with stopped := true, wait := none, inval := none, deq := false, why := 14 } }

/-- Whether a breakpoint of a kind stands at an address for a hart. -/
def breakpointAt (c h : Nat) (commit : Bool) (pc : BitVec 48) (s : State) : Bool :=
  (s.core c).dbg.breakpoints.any fun b => b.2.commit == commit && b.2.addr == pc && b.2.harts.getLsbD h

/-- The record of BKPT (R221). -/
def bkptExc (kind : Nat) : Exc := { code := 0x14, info0 := word kind }

/-- A breakpoint stops a claimed hart, and raises BKPT on another (R246). -/
def breakHere (c h : Nat) (commit : Bool) (s : State) : State :=
  let x := s.hartAt c h
  if x.run.claimed then debugStop c h s
  else takeTrap c h commit x.pc (bkptExc (if commit then 2 else 1)) s

end Sys2Proof.Machine
end

