-- ==== Sys2Proof/Machine/VecRun.lean ====
section
/-! DEFINITION. Vector instructions: which registers each uses, what each does on the vector side, how the VIQ runs them,
captured loops, and their dispatch by the front (R53, R54, R65 to R68, R130, R145 to R151, R226, R273). -/

namespace Sys2Proof.Machine

/-- SETTLE (R89). -/
def runSettle (c h : Nat) (v : VEntry) (a b : VReg) (n : BitVec 4) (s : State) : Res VOut :=
  let regs := [a.toNat, b.toNat].take n.toNat
  let r :=
    if n = 0 then settleAll c h s
    else settleEntries c h (withProducers c (regs.flatMap fun r => (holesOf c h r s).map (·.1)) s) s
  r.bind fun _ s => .ok (.done v.flags) s

/-- What a vector instruction does when the vector side executes it, from element VSTART onwards. -/
def vexec (c h : Nat) (v : VEntry) (s : State) : Res VOut :=
  match v.instr with
  | .vadd d a b m => intLane c h v .add false d a (.reg b.toNat) m s
  | .vaddX d a _ m => intLane c h v .add false d a (.scalar (v.x 0)) m s
  | .vsub d a b m => intLane c h v .sub false d a (.reg b.toNat) m s
  | .vsubX d a _ m => intLane c h v .sub false d a (.scalar (v.x 0)) m s
  | .vrsub d a b m => intLane c h v .rsub false d a (.reg b.toNat) m s
  | .vrsubX d a _ m => intLane c h v .rsub false d a (.scalar (v.x 0)) m s
  | .vmul d a b m => intLane c h v .mul false d a (.reg b.toNat) m s
  | .vmulX d a _ m => intLane c h v .mul false d a (.scalar (v.x 0)) m s
  | .vmulh d a b m => intLane c h v .mulh false d a (.reg b.toNat) m s
  | .vmulhX d a _ m => intLane c h v .mulh false d a (.scalar (v.x 0)) m s
  | .vmulhn d a b m => intLane c h v .mulhn false d a (.reg b.toNat) m s
  | .vmulhnX d a _ m => intLane c h v .mulhn false d a (.scalar (v.x 0)) m s
  | .vand d a b m => intLane c h v .and true d a (.reg b.toNat) m s
  | .vandX d a _ m => intLane c h v .and true d a (.scalar (v.x 0)) m s
  | .vor d a b m => intLane c h v .or true d a (.reg b.toNat) m s
  | .vorX d a _ m => intLane c h v .or true d a (.scalar (v.x 0)) m s
  | .vxor d a b m => intLane c h v .xor true d a (.reg b.toNat) m s
  | .vxorX d a _ m => intLane c h v .xor true d a (.scalar (v.x 0)) m s
  | .vshl d a b m => intLane c h v .shl true d a (.reg b.toNat) m s
  | .vshlX d a _ m => intLane c h v .shl true d a (.scalar (v.x 0)) m s
  | .vshr d a b m => intLane c h v .shr true d a (.reg b.toNat) m s
  | .vshrX d a _ m => intLane c h v .shr true d a (.scalar (v.x 0)) m s
  | .vshra d a b m => intLane c h v .shra false d a (.reg b.toNat) m s
  | .vshraX d a _ m => intLane c h v .shra false d a (.scalar (v.x 0)) m s
  | .vmin d a b m => intLane c h v .min false d a (.reg b.toNat) m s
  | .vminX d a _ m => intLane c h v .min false d a (.scalar (v.x 0)) m s
  | .vmax d a b m => intLane c h v .max false d a (.reg b.toNat) m s
  | .vmaxX d a _ m => intLane c h v .max false d a (.scalar (v.x 0)) m s
  | .vminn d a b m => intLane c h v .minn false d a (.reg b.toNat) m s
  | .vminnX d a _ m => intLane c h v .minn false d a (.scalar (v.x 0)) m s
  | .vmaxn d a b m => intLane c h v .maxn false d a (.reg b.toNat) m s
  | .vmaxnX d a _ m => intLane c h v .maxn false d a (.scalar (v.x 0)) m s
  | .vfadd d a b m => floatLane c h v .fadd 0 d a (.reg b.toNat) m s
  | .vfaddX d a _ m => floatLane c h v .fadd 0 d a (.scalar (v.x 0)) m s
  | .vfsub d a b m => floatLane c h v .fsub 1 d a (.reg b.toNat) m s
  | .vfsubX d a _ m => floatLane c h v .fsub 1 d a (.scalar (v.x 0)) m s
  | .vfmul d a b m => floatLane c h v .fmul 2 d a (.reg b.toNat) m s
  | .vfmulX d a _ m => floatLane c h v .fmul 2 d a (.scalar (v.x 0)) m s
  | .vfma d a b m => floatLane c h v .fma 3 d a (.reg b.toNat) m s
  | .vfmaX d a _ m => floatLane c h v .fma 3 d a (.scalar (v.x 0)) m s
  | .vfmin d a b m => floatLane c h v .fmin 4 d a (.reg b.toNat) m s
  | .vfminX d a _ m => floatLane c h v .fmin 4 d a (.scalar (v.x 0)) m s
  | .vfmax d a b m => floatLane c h v .fmax 5 d a (.reg b.toNat) m s
  | .vfmaxX d a _ m => floatLane c h v .fmax 5 d a (.scalar (v.x 0)) m s
  | .vfdiv d a b m => floatLane c h v .fdiv 6 d a (.reg b.toNat) m s
  | .vfdivX d a _ m => floatLane c h v .fdiv 6 d a (.scalar (v.x 0)) m s
  | .vfrcp d a m => floatLane c h v .frcp 7 d a .none m s
  | .vfrsq d a m => floatLane c h v .frsq 8 d a .none m s
  | .vfsqrt d a m => floatLane c h v .fsqrt 9 d a .none m s
  | .vfexp d a m => floatLane c h v .fexp 10 d a .none m s
  | .vflog d a m => floatLane c h v .flog 11 d a .none m s
  | .vfsin d a m => floatLane c h v .fsin 12 d a .none m s
  | .vfcos d a m => floatLane c h v .fcos 13 d a .none m s
  | .vmerge d a b m => merge c h v d a (.reg b.toNat) m s
  | .vmergeX d a _ m => merge c h v d a (.scalar (v.x 0)) m s
  | .vadc d a b m => carry c h v false d a (.reg b.toNat) m s
  | .vadcX d a _ m => carry c h v false d a (.scalar (v.x 0)) m s
  | .vsbc d a b m => carry c h v true d a (.reg b.toNat) m s
  | .vsbcX d a _ m => carry c h v true d a (.scalar (v.x 0)) m s
  | .vwmul d a b m => intWide c h v d a (.reg b.toNat) m s
  | .vwmulX d a _ m => intWide c h v d a (.scalar (v.x 0)) m s
  | .vfcvt d a g m => runVfcvt c h v d a g m s
  | .vfwmul d a b m => runVfwmul c h v d a b m s
  | .vcmp d a b m cc => compare c h v false d a (.reg b.toNat) m cc s
  | .vcmpX d a _ m cc => compare c h v false d a (.scalar (v.x 0)) m cc s
  | .vfcmp d a b m cc => compare c h v true d a (.reg b.toNat) m cc s
  | .vfcmpX d a _ m cc => compare c h v true d a (.scalar (v.x 0)) m cc s
  | .mand d a b => writeMask c h v d (fun x e => maskBit (x.getM a.toNat) e && maskBit (x.getM b.toNat) e) s
  | .mor d a b => writeMask c h v d (fun x e => maskBit (x.getM a.toNat) e || maskBit (x.getM b.toNat) e) s
  | .mxor d a b => writeMask c h v d (fun x e => maskBit (x.getM a.toNat) e != maskBit (x.getM b.toNat) e) s
  | .mnot d a => writeMask c h v d (fun x e => !maskBit (x.getM a.toNat) e) s
  | .mshl d a n => writeMask c h v d (fun x e => decide (n.toNat ≤ e) && maskBit (x.getM a.toNat) (e - n.toNat)) s
  | .mset d => writeMask c h v d (fun _ _ => true) s
  | .mclr d => writeMask c h v d (fun _ _ => false) s
  | .mpop d a => maskToX c h v d a (fun l => word l.length) s
  | .mfirst d a => maskToX c h v d a (fun l => indexOrOnes l.head?) s
  | .mlast d a => maskToX c h v d a (fun l => indexOrOnes l.getLast?) s
  | .vgath d a b m => gather c h v d a b m s
  | .vcomp d a m => compress c h v d a m s
  | .vxpnd d a m => expand c h v d a m s
  | .vred d a k m => reduce c h v d a k m s
  | .vredXd d a k m => reduceX c h v d a k m s
  | .vscan d a k m => scan c h v d a k m s
  | .vslideupZero d a _ m => slide c h v true .zero d a m s
  | .vslideupOne d a _ m => slide c h v true .one d a m s
  | .vslideupKeep d a _ m => slide c h v true .keep d a m s
  | .vslidednZero d a _ m => slide c h v false .zero d a m s
  | .vslidednOne d a _ m => slide c h v false .one d a m s
  | .vslidednKeep d a _ m => slide c h v false .keep d a m s
  | .vmvx d a _ => moveToX c h v d a s
  | .vmvs d _ m => splat c h v false d m s
  | .vsplat d _ m => splat c h v true d m s
  | .vld r _ m _ => vectorLoad c h v .unit r m s
  | .vlds r _ _ m _ => vectorLoad c h v .strided r m s
  | .vldx r _ b m _ => vectorLoad c h v (.indexed b) r m s
  | .vst r _ m _ => vectorStore c h v .unit r m s
  | .vsts r _ _ m _ => vectorStore c h v .strided r m s
  | .vstx r _ b m _ => vectorStore c h v (.indexed b) r m s
  | .awin _ _ o => openWindow c h v o s
  | .vamo r w => updateWindow c h v r w s
  | .amerge => closeWindow c h v s
  | .vrand d m => runVrand c h v d m s
  | .pres m r => runPres c h v m r s
  | .vrel r => runVrel c h v r s
  | .settle r w n => runSettle c h v r w n s
  | .vtest k m cc => runVtest c h v k m cc s
  | .vexit m cc => runVexit c h v m cc s
  | .rfld r _ => runRfld c h v r s
  | .rput r _ cc => runRput c h v r cc s
  | .rspawn r => runRspawn c h v r s
  | .rres r _ => runRres c h v r s
  | .rkid r _ cc => runRkid c h v r cc s
  | .rdone => runRdone c h v s
  | .tld td _ _ => runTld c h v td s
  | .tst ta _ _ => runTst c h v ta s
  | .tldp td _ _ => runTldp c h v td s
  | .tzero td => runTzero c h v td s
  | .tmvr td r _ => runTmvr c h v td r s
  | .tmvc ta r _ => runTmvc c h v ta r s
  | .mma ta tb ad fmtA fmtB => runMma c h v ta tb ad fmtA fmtB s
  | .mmaC ta tb ad fmtA fmtB => runMmaC c h v ta tb ad fmtA fmtB s
  | .mman ta tb ad pA pB => runMman c h v ta tb ad pA pB s
  | .mdrain td ad fmtA _ => runMdrain c h v td ad fmtA s
  | .azero ad => runAzero c h v ad s
  | _ => .ok (.done v.flags) s

/-! Execution with stream strips -/

/-- The state before an instruction touched anything, with what DEFERRED has reported. -/
def undone (c h : Nat) (before after : State) : State :=
  before.modHartAt c h fun x => { x with hole := { x.hole with reported := (after.hartAt c h).hole.reported } }

/-- An instruction that has stopped within itself goes on with the old row of its destination in the elements that it has written
(R54, R278): the state in which it reads and writes from VSTART on. -/
def viewOld (c h : Nat) (v : VEntry) (o : OldRow) (s : State) : State :=
  let s := s.modHartAt c h fun x =>
    (x.setV o.reg.toNat (mixImages o.n v.start o.img (x.getV o.reg.toNat))).setSide o.reg.toNat
      (mixSides o.sides o.side (x.getSide o.reg.toNat))
  s.modCore c fun q => q.setEntries (q.entries.map fun e =>
    if e.2.hart.toNat == h && e.2.reg == o.reg && e.2.within o.n 0 v.start then
      (e.1, { e.2 with live := ((o.holes.find? fun p => p.1 == e.1).map (·.2)).getD 0 })
    else e)

/-- The new row with the elements below VSTART that it had before an attempt. -/
def restoreNew (c h : Nat) (v : VEntry) (o : OldRow) (before : State) (s : State) : State :=
  let y := before.hartAt c h
  let s := s.modHartAt c h fun x =>
    (x.setV o.reg.toNat (mixImages o.n v.start (y.getV o.reg.toNat) (x.getV o.reg.toNat))).setSide o.reg.toNat
      (mixSides o.sides (y.getSide o.reg.toNat) (x.getSide o.reg.toNat))
  s.modCore c fun q => q.setEntries (q.entries.map fun e =>
    if e.2.hart.toNat == h && e.2.reg == o.reg && e.2.within o.n 0 v.start then
      (e.1, { e.2 with live := ((before.entry? c e.1).map (·.live)).getD e.2.live })
    else e)

/-- An instruction executes from VSTART on. One that finds no entry at VSTART raises DEFERRED when the stall cannot end
(R82). -/
def vexecFrom (c h : Nat) (v : VEntry) (s : State) : Res VOut :=
  match v.old with
  | none => vexec c h v s
  | some o =>
    match vexec c h v (viewOld c h v o s) with
    | .ok (.part w n) t =>
      (if w.start = v.start && !beyond v.limit v.start then stuckExc c h v.start s else none).getD
        (.ok (.part w n) (restoreNew c h v o s t))
    | .ok (.done f) t => .ok (.done f) (restoreNew c h v o s t)
    | .wait n t => .wait n t
    | .exc e k t => .exc e k (restoreNew c h v o s t)
    | .contained e t => .contained e t
    | .stop f => .stop f

/-- What an instruction with strips raises before their memory faults, in the order of R223: FORMAT of its own or of a strip,
STREAM, then an ENGINE of its own that does not rest on what it pops, as reasons 3 and 17 do. -/
def stripExc (c h : Nat) (v : VEntry) (s : State) : Option Exc :=
  let own : Option Exc := match vexecFrom c h v s with
    | .exc e _ _ => some e
    | _ => none
  if v.popped then none
  else
    (own.filter fun e => e.code == 0x11) <|> (v.strips.findSome? (stripFormat v)) <|> (v.strips.findSome? stripStream) <|>
      (own.filter fun e => e.code == 0x0F && e.info2 != 3 && e.info2 != 17)

/-! The faults of step 4 of R223 -/

/-- The place of a fault of an access in the order of R223: MISALIGN, LSBOUND, PAGE, PERM, WBLOCK. -/
def Exc.rank (e : Exc) : Nat := if e.code == 0x04 then 0 else if e.code == 0x08 then 1 else e.code - 3

/-- The faults of some ranges, each with its element. -/
def spanFaults (c h : Nat) (v : VEntry) (space : Nat) (k : Access) (l : List Span) (s : State) : List (Nat × Exc) :=
  l.filterMap fun p => match spanPlace c h v space k p s with
    | .exc e _ _ => some (p.elem, e)
    | _ => none

/-- The fault of the lowest element, and among its faults the first in the order of R223. -/
def lowestFault (l : List (Nat × Exc)) : Option Exc :=
  (l.foldl (fun (b : Option (Nat × Exc)) p => match b with
    | none => some p
    | some q => if decide (p.1 < q.1) || (p.1 == q.1 && decide (p.2.rank < q.2.rank)) then some p else b) none).map (·.2)

/-- The faults that the strips of an instruction meet. -/
def stripFaults (c h : Nat) (v : VEntry) (s : State) : List (Nat × Exc) :=
  v.strips.flatMap fun t => match stripBase c h t s with
    | none => []
    | some b => spanFaults c h v t.desc.space (if t.store then .write else .read)
        (t.spans b (t.elems (s.hartAt c h) (appendMask v.instr) v.vl)) s

/-- The faults of an instruction's own access. Index elements that it pops are read as far as no strip faults, below `limit`: the
access of a higher element does not decide. -/
def ownFaults (c h : Nat) (v : VEntry) (limit : Nat) (s : State) : Res (List (Nat × Exc)) :=
  match ownAccess v.instr with
  | none => .ok [] s
  | some (form, m, k) =>
    let pops := v.strips.filter fun t => !t.store && (match form with
      | .indexed b => t.reg == b
      | _ => false)
    let v := if pops.isEmpty then v else { v with vl := Nat.min v.vl limit }
    (forEach pops (popStrip c h v) s).bind fun _ s =>
      (requireIndices c h v form m.toNat s).bind fun _ s =>
        .ok (spanFaults c h v v.mspace k (accessSpans (s.hartAt c h) v form m.toNat) s) s

/-- The fault of step 4 of R223 that an instruction with strips reports: of its strips and its own access, that of the lowest element.
Another outcome of its own access is left to the execution. -/
def accessFault (c h : Nat) (v : VEntry) (s : State) : Res Unit :=
  let l := stripFaults c h v s
  match ownFaults c h v ((l.map (·.1)).foldl Nat.min v.vl) s with
  | .wait n _ => .wait n s
  | r => match lowestFault (l ++ (match r with
      | .ok o _ => o
      | _ => [])) with
    | some e => .exc e 0 s
    | none => .ok () s

/-- An instruction with strips: its strips are popped, it executes, and its result is appended (R147, R148). -/
def withStrips (c h : Nat) (v : VEntry) (s : State) : Res VOut :=
  match stripExc c h v s with
  | some e => .exc e 0 s
  | none =>
    (if v.popped then .ok () s else accessFault c h v s).bind fun _ s =>
      (if v.popped then .ok () s else forEach (v.strips.filter fun t => !t.store) (popStrip c h v) s).bind fun _ s =>
        (mapEach (v.strips.filter fun t => t.store) (fun t s =>
          (appendPlaces c h v t (appendMask v.instr) s).bind fun ps s => .ok (t, ps) s) s).bind fun aps s =>
          (vexecFrom c h { v with popped := true } s).bind fun o s =>
            .ok (o.keep (aps.flatMap (·.2)) s)
              (if o.stop.isNone then aps.foldl (fun s a => appendStrip c h v a.1 a.2 s) s else s)

/-- A new row for the destination of an instruction: when the hart has none free the instruction waits, or raises DEFERRED when
that cannot end (R54; log entry 96). -/
def takeRow (c h : Nat) (v : VEntry) (s : State) : Res Unit :=
  let idle := match v.instr with
    | .rfld _ _ | .rkid _ _ _ => false
    | _ => v.vl == 0
  if idle || v.start ≠ 0 || (usesOf v.instr).dst.isNone || decide (oldRows (s.core c) h < Config.spareRows) then .ok () s
  else (stuckExc c h 0 s).getD (.wait 15 s)

/-- An instruction that writes a tile which members of its crew have yet to read waits (R191). -/
def awaitCrew (c h : Nat) (v : VEntry) (s : State) : Res Unit :=
  match tileWritten v.instr with
  | some t => if crewKeeps c h t s then .wait 15 s else .ok () s
  | none => .ok () s

/-- An attempt at a vector instruction. One that waits has no effect, and so has one that stops before its first
element (R149, R226), or, where it goes on at an element, before that. A DEFERRED of R276, which is raised with VSTART 0, keeps no
element of one that went on: its destination is as before it. -/
def attempt (c h : Nat) (v : VEntry) (s : State) : Res VOut :=
  match (awaitCrew c h v s).bind fun _ s => (takeRow c h v s).bind fun _ s =>
      if v.strips.isEmpty then vexecFrom c h v s else withStrips c h v s with
  | .wait n _ => .wait n s
  | .exc e k t =>
    if e.code == 0x0A && decide (k < v.start) then
      .exc e 0 (undone c h (match v.old with
        | some o => viewOld c h v o s
        | none => s) t)
    else if k ≤ v.start then .exc e v.start (undone c h s t)
    else .exc e k t
  | r => r

/-! Pages at dispatch (R167) -/

/-- Whether the front knows a mask: no earlier entry of the VIQ writes it. -/
def maskKnown (x : Hart) (m : Nat) : Bool :=
  m == 0 || !x.vec.viq.any fun v => match v.instr with
    | .loop _ _ => true
    | i => maskWritten i == some m

/-- The addresses in GV of the strips of an instruction whose appended elements are known, with the kind of access. -/
def pagedStrips (known : Bool) (x : Hart) (v : VEntry) : List (Access × Word) :=
  v.strips.flatMap fun t =>
    if t.desc.space ≠ 2 || (t.store && !known) then []
    else (t.spans 0 (t.elems x (appendMask v.instr) v.vl)).map fun p => (if t.store then .write else .read, p.addr)

/-- What the front translates for an instruction as it dispatches it (R167): the addresses in GV of VLD, VLDS, VST and VSTS and
of stream strips. Elements that a mask decides wait for the mask (log entry 13). -/
def dispatchSpans (x : Hart) (v : VEntry) : List (Access × Word) :=
  (match ownAccess v.instr with
   | none | some (.indexed _, _, _) => []
   | some (form, m, k) =>
     if v.mspace ≠ 2 || !maskKnown x m.toNat then [] else (accessSpans x v form m.toNat).map fun p => (k, p.addr)) ++
    pagedStrips (maskKnown x (appendMask v.instr)) x v

/-- The pages of some addresses are translated and pinned in the context of an instruction. -/
def pinAccesses (c : Nat) (v : VEntry) (l : List (Access × Word)) (s : State) : List Pin × State :=
  let of : Access → List Word := fun k => (l.filter fun p => p.1 == k).map (·.2)
  let (r, s) := pinPages (v.ctx c) .read (of .read) s
  let (w, s) := pinPages (v.ctx c) .write (of .write) s
  (r ++ w, s)

/-! The VIQ -/

/-- The head of the VIQ is replaced. -/
def setHead (c h : Nat) (v : VEntry) (s : State) : State :=
  s.modHartAt c h fun x => { x with vec := { x.vec with viq := v :: x.vec.viq.drop 1 } }

/-- Flags of a completed instruction are ORed into FFLAGS (R74, R131). -/
def orFlags (c h f : Nat) (s : State) : State :=
  s.modHartAt c h fun x => { x with fp := { x.fp with flags := x.fp.flags ||| BitVec.ofNat 5 f } }

/-- A vector instruction gets its sequence tag as it starts: the next of one counter for all harts of the core (R81; DESIGN CHOICE; log
entry 115). -/
def tagEntry (c : Nat) (v : VEntry) (s : State) : VEntry × State :=
  ({ v with seq := some (s.core c).land.seq },
   s.modCore c fun k => { k with land := { k.land with seq := k.land.seq + 1 } })

/-- A vector-side trap: it resumes at the front PC (R220). -/
def trapVector (c h : Nat) (e : Exc) (s : State) : State := takeTrap c h true (s.hartAt c h).pc e s

/-- An instruction that has stopped at an element keeps where it is; at element 0 it begins again. -/
def VEntry.stopAt (v : VEntry) (k : Nat) : VEntry :=
  { v with start := k, popped := v.popped || decide (0 < k), limit := none
           old := if k = 0 then none else v.old, flags := if k = 0 then 0 else v.flags }

/-- An instruction that has yet to pop and append notes where its strips are based (R150). -/
def VEntry.based (c h : Nat) (v : VEntry) (s : State) : VEntry :=
  { v with strips := if v.popped then v.strips else v.strips.map fun t => { t with base := (stripBase c h t s).getD 0 } }

/-- The head of the VIQ, an ordinary vector instruction, executes as far as it can, below an element limit if there is one. -/
def stepEntry (c h : Nat) (limit : Option Nat) (v : VEntry) (s : State) : Out :=
  let (v, s) := if v.seq.isSome then (v, s) else
    let (v, s) := tagEntry c v s
    (v, setHead c h v s)
  let v := v.based c h s
  match attempt c h { v with limit := limit } s with
  | .ok (.done f) t =>
    .next (sweep c (sampleVector c h v s
      (drain c h ((orFlags c h f (dropHead c h t)).modHartAt c h Hart.count))))
  | .ok (.part w _) t => .next (sweep c (setHead c h { w with limit := none } t))
  | .wait _ t => .next t
  | .exc e k t => .next (trapVector c h e (setHead c h (v.stopAt k) t))
  | .contained e t => .next (contain e c h v.pc t)
  | .stop f => .fault f

/-! Captured loops (R65 to R68) -/

/-- The loop at the head of the VIQ has ended. -/
def endLoop (c h : Nat) (s : State) : State :=
  dropHead c h (s.modHartAt c h fun x => { x with lp := { x.lp with loop := none } })

def setBody (c h pos : Nat) (v : VEntry) (s : State) : State :=
  s.modHartAt c h fun x =>
    { x with lp := { x.lp with loop := x.lp.loop.map fun l => { l with body := l.body.set pos v } } }

/-- RIC values that one iteration of a body consumes (R130). -/
def bodyRic (x : Hart) (body : List VEntry) : Nat :=
  (body.filter fun b => consumesRic x b.instr b.vtype b.fpctl).length

/-- The body instruction at POS completes: the next one follows, or the iteration ends. -/
def nextInBody (c h : Nat) (v : VEntry) (s : State) : State :=
  let fresh := { v with seq := none, strips := [], popped := false, start := 0, flags := 0, old := none, kept := [], limit := none }
  match (s.hartAt c h).lp.loop with
  | none => s
  | some l =>
    let s := setBody c h l.pos fresh s
    if l.pos + 1 < l.body.length then
      s.modHartAt c h fun x => { x with lp := { x.lp with loop := x.lp.loop.map fun l => { l with pos := l.pos + 1 } } }
    else
      let s := s.modHartAt c h fun x =>
        { x with lp := { x.lp with
            liter := x.lp.liter + 1
            lcnt := x.lp.lcnt - 1
            loop := x.lp.loop.map fun l => { l with pos := 0 } } }
      if l.ending || (s.hartAt c h).lp.lcnt == 0 then endLoop c h s else s

/-- The loop at the head of the VIQ executes its next body instruction, below an element limit if there is one. An instruction claims
its strips as the iteration reaches it, and holds their pages until it completes (R167, R273). -/
def stepLoop (c h : Nat) (limit : Option Nat) (s : State) : Out :=
  let x := s.hartAt c h
  match x.lp.loop with
  | none => .next (dropHead c h s)
  | some l =>
    if x.lp.lcnt = 0 then .next (endLoop c h s)
    else
      match l.body[l.pos]? with
      | none => .next (endLoop c h s)
      | some b =>
        match b.instr with
        | .vsetl _ _ _ _ _ => .next (nextInBody c h b (s.modHartAt c h Hart.count))
        | _ =>
          let (b, s) := if b.seq.isSome then (b, s) else
            let (b, s) := tagEntry c b s
            let (strips, x) := claimStrips b.vl b.binds (s.hartAt c h)
            let b := { b with strips := strips }
            let (kept, s) := pinAccesses c b (pagedStrips true x b) (s.setHartAt c h x)
            let b := { b with kept := kept }
            (b, setBody c h l.pos b s)
          let b := b.based c h s
          let ric := b.ric + x.lp.liter * word (bodyRic x l.body)
          match attempt c h { b with ric := ric, limit := limit } s with
          | .ok (.done f) t =>
            .next (sweep c (drain c h (nextInBody c h b
              (sampleVector c h b s ((orFlags c h f t).modHartAt c h Hart.count)))))
          | .ok (.part w _) t => .next (sweep c (setBody c h l.pos { w with ric := b.ric, limit := none } t))
          | .wait _ t => .next t
          | .exc e k t => .next (trapVector c h e (setBody c h l.pos (b.stopAt k) t))
          | .contained e t => .next (contain e c h b.pc t)
          | .stop f => .fault f

/-- One turn of a hart's vector side: a commit breakpoint at VCP, or the oldest entry of the VIQ executes, below an element limit
if there is one. -/
def stepVectorTo (c h : Nat) (limit : Option Nat) (s : State) : Out :=
  let x := s.hartAt c h
  match x.vec.viq with
  | [] => .next s
  | v :: _ =>
    let cp := x.ownVcp
    let started := match v.instr, x.lp.loop with
      | .loop _ _, some l => (l.body[l.pos]?.bind (·.seq)).isSome
      | _, _ => v.seq.isSome
    if !started && cp.2 == 0 && breakpointAt c h true cp.1 s then .next (breakHere c h true s)
    else
      match v.instr with
      | .loop _ _ => stepLoop c h limit s
      | _ => stepEntry c h limit v s

/-- One turn of a hart's vector side with no limit. -/
def stepVector (c h : Nat) (s : State) : Out := stepVectorTo c h none s

/-! Dispatch (R53) -/

/-- A front instruction waits for the x and k registers that the return queue owes (R53), and for those that take the old value of
an AMO (R256). -/
def awaitRegs (xs ks : List Nat) (s : State) : Res Unit :=
  if (xs.any fun r => s.hart.returnDue r) || ks.any fun k => s.hart.pendingK k then .wait 3 s
  else if xs.any fun r => s.hart.atomicDue r then .wait 15 s
  else .ok () s

/-- Slots that an instruction pops or appends through, decided as it is dispatched (R273); for VREL, the slots that its
register is bound to (R298). -/
def bindsOf (x : Hart) (i : Instr) : List (Nat × VReg × Bool) :=
  match i with
  | .vrel v => x.ms.streams.filterMap fun q => if q.2.bound == some v then some (q.1, v, false) else none
  | _ => bindsFor x (usesOf i).srcs (usesOf i).dst

/-- Strips are claimed by every instruction but VREL, which pops none. -/
def claimsFor (x : Hart) (i : Instr) (vl : Nat) (binds : List (Nat × VReg × Bool)) : List Strip × Hart :=
  match i with
  | .vrel _ => ([], x)
  | _ => claimStrips vl binds x

/-- What the front captures for a vector instruction. A register has 32 bytes per lane (R60), so an instruction of a vector
register acts on no element at or above VLMAX, where a CWR of VTYPE has left VL above it; VFCVT first compares VL with the
VLMAX of its target, and the tile transposes with the length of a row or a column (R195, R285; log entry 40). -/
def captureFor (s : State) (i : Instr) : VEntry :=
  let h := s.hart
  let e := capture s i ((usesOf i).xs.map h.getX)
  match i with
  | .vfcvt _ _ g _ => if vlMax h.vec.grant g.toNat < e.vl then e else h.regrant e
  | .tmvr _ _ _ => if 1024 < e.vl * typeBits e.ty then e else h.regrant e
  | .tmvc _ _ _ => if 128 < e.vl then e else h.regrant e
  | _ => if (usesOf i).srcs.isEmpty && (usesOf i).dst.isNone then e else h.regrant e

/-- An instruction with the pages that it holds from its dispatch on, where the front knows what hart `x` knows. -/
def pinAtDispatch (x : Hart) (v : VEntry) (s : State) : VEntry × State :=
  let (l, s) := pinAccesses s.here v (dispatchSpans x v) s
  ({ v with pins := l }, s)

/-- The instructions of a captured body with the pages that they hold from the dispatch of the LOOP on: those of their own
accesses, whose addresses are the same in every iteration. Masks that the body writes are not known, and strips are claimed,
and translated, by iteration (R167; log entry 13). -/
def pinBody (l : List VEntry) (s : State) : List VEntry × State :=
  let h := s.hart
  let x := { h with vec := { h.vec with viq := h.vec.viq ++ l } }
  l.foldl (fun acc e => let p := pinAtDispatch x e acc.2; (acc.1 ++ [p.1], p.2)) ([], s)

/-- The group of the current hart has dispatched an MMA.c (R191). -/
def noteCrew (i : Instr) (s : State) : State :=
  match i, s.hart.id.group with
  | .mmaC _ _ _ _ _, some g => s.modGroup g fun y => { y with crewQueue := y.crewQueue ++ [s.curHart] }
  | _, _ => s

/-- The front dispatches a vector instruction into the VIQ with what it captures (R53, R75, R130). -/
def dispatchVector (i : Instr) (s : State) : Res Unit :=
  (noFerry i s).bind fun _ s =>
    let u := usesOf i
    (awaitRegs u.xs [] s).bind fun _ s =>
      let x := s.hart
      let e := captureFor s i
      if !x.viqRoom then .wait 2 s
      else if (e.dueX.isSome || e.dueK.isSome) && decide (Config.returnQueue ≤ x.reserved) then .wait 3 s
      else
        let binds := bindsOf x i
        let (strips, y) := claimsFor x i e.vl binds
        let (e, s) := pinAtDispatch s.hart { e with binds := binds, strips := strips } s
        let ric := if consumesRic x i e.vtype e.fpctl then y.fp.ric + 1 else y.fp.ric
        .ok () (noteCrew i (s.setHart
          { y with
            pc := y.pc + BitVec.ofNat 48 i.length
            fp := { y.fp with ric := ric }
            vec := { y.vec with viq := y.vec.viq ++ [e] }
            run := { y.run with why := 0, atBar := false } }))

/-- A vector instruction at the front. The vector side follows at once when it has nothing older to do, unless its turns
are its own. -/
def issueVector (i : Instr) (s : State) : Out :=
  match dispatchVector i s with
  | .ok _ s => if s.hart.vec.lag || decide (1 < s.hart.vec.viq.length) then .next s else stepVector s.here s.me s
  | r => finish r

end Sys2Proof.Machine
end

