-- ==== Sys2Proof/Machine/Integer.lean ====
section
/-! DEFINITION. The scalar integer instructions (R41, R42, R257, R263, R274). -/

namespace Sys2Proof.Machine

/-- A scalar instruction of `n` bytes that only writes x[d] with a function of the hart (R257): it waits for the
registers that the return queue owes, writes x[d], and the front goes on. -/
def scalarOp (n d : Nat) (srcs : List Nat) (f : Hart → Word) (s : State) : Out :=
  finish ((awaitRegs (d :: srcs) [] s).bind fun _ s => .ok () (writeX n d (f s.hart) s))

/-- With two source registers. -/
def scalarOp2 (d a b : XReg) (f : Word → Word → Word) (s : State) : Out :=
  scalarOp 4 d.toNat [a.toNat, b.toNat] (fun h => f (h.getX a.toNat) (h.getX b.toNat)) s

/-- With one. -/
def scalarOp1 (d a : XReg) (f : Word → Word) (s : State) : Out :=
  scalarOp 4 d.toNat [a.toNat] (fun h => f (h.getX a.toNat)) s

/-- A truth value as a word. -/
def boolWord (b : Bool) : Word := if b then 1 else 0

/-- Number of leading zero bits. -/
def leadingZeros (w : Word) : Nat := if w = 0 then 64 else 63 - Nat.log2 w.toNat

/-- The signed quotient of R263. -/
def divWord (a b : Word) : Word := if b = 0 then BitVec.allOnes 64 else BitVec.ofInt 64 (a.toInt.tdiv b.toInt)

/-- The natural quotient. -/
def divnWord (a b : Word) : Word := if b = 0 then BitVec.allOnes 64 else BitVec.ofNat 64 (a.toNat / b.toNat)

/-- The signed remainder. -/
def remWord (a b : Word) : Word := if b = 0 then a else BitVec.ofInt 64 (a.toInt.tmod b.toInt)

/-- The natural remainder. -/
def remnWord (a b : Word) : Word := if b = 0 then a else BitVec.ofNat 64 (a.toNat % b.toNat)

/-- The immediate of LIH in place (R41). -/
def lihWord (imm : BitVec 18) : Word := imm.signExtend 64 <<< 12

/-- ADD (R257). -/
def execAdd (d a b : XReg) (s : State) : Out := scalarOp2 d a b (fun p q => p + q) s

/-- SUB (R257). -/
def execSub (d a b : XReg) (s : State) : Out := scalarOp2 d a b (fun p q => p - q) s

/-- AND (R257). -/
def execAnd (d a b : XReg) (s : State) : Out := scalarOp2 d a b (fun p q => p &&& q) s

/-- OR (R257). -/
def execOr (d a b : XReg) (s : State) : Out := scalarOp2 d a b (fun p q => p ||| q) s

/-- XOR (R257). -/
def execXor (d a b : XReg) (s : State) : Out := scalarOp2 d a b (fun p q => p ^^^ q) s

/-- SHL (R257). -/
def execShl (d a b : XReg) (s : State) : Out := scalarOp2 d a b (fun p q => p <<< wbits q 0 6) s

/-- SHR (R257). -/
def execShr (d a b : XReg) (s : State) : Out := scalarOp2 d a b (fun p q => p >>> wbits q 0 6) s

/-- SHRA (R257). -/
def execShra (d a b : XReg) (s : State) : Out := scalarOp2 d a b (fun p q => p.sshiftRight (wbits q 0 6)) s

/-- MIN (R257). -/
def execMin (d a b : XReg) (s : State) : Out := scalarOp2 d a b (fun p q => if p.slt q then p else q) s

/-- MAX (R257). -/
def execMax (d a b : XReg) (s : State) : Out := scalarOp2 d a b (fun p q => if p.slt q then q else p) s

/-- MINN (R257). -/
def execMinn (d a b : XReg) (s : State) : Out := scalarOp2 d a b (fun p q => if p.ult q then p else q) s

/-- MAXN (R257). -/
def execMaxn (d a b : XReg) (s : State) : Out := scalarOp2 d a b (fun p q => if p.ult q then q else p) s

/-- SLT (R257). -/
def execSlt (d a b : XReg) (s : State) : Out := scalarOp2 d a b (fun p q => boolWord (p.slt q)) s

/-- SLTN (R257). -/
def execSltn (d a b : XReg) (s : State) : Out := scalarOp2 d a b (fun p q => boolWord (p.ult q)) s

/-- CLZ (R257). -/
def execClz (d a : XReg) (s : State) : Out := scalarOp1 d a (fun p => word (leadingZeros p)) s

/-- POPC (R257). -/
def execPopc (d a : XReg) (s : State) : Out := scalarOp1 d a (fun p => word (popCount p.toNat 64)) s

/-- MV (R257). -/
def execMv (d a : XReg) (s : State) : Out := scalarOp1 d a (fun p => p) s

/-- ADDI (R257). -/
def execAddi (d a : XReg) (imm : BitVec 12) (s : State) : Out := scalarOp1 d a (fun p => p + imm.signExtend 64) s

/-- ANDI (R257). -/
def execAndi (d a : XReg) (imm : BitVec 12) (s : State) : Out := scalarOp1 d a (fun p => p &&& imm.zeroExtend 64) s

/-- ORI (R257). -/
def execOri (d a : XReg) (imm : BitVec 12) (s : State) : Out := scalarOp1 d a (fun p => p ||| imm.zeroExtend 64) s

/-- XORI (R257). -/
def execXori (d a : XReg) (imm : BitVec 12) (s : State) : Out := scalarOp1 d a (fun p => p ^^^ imm.zeroExtend 64) s

/-- SHLI (R274). -/
def execShli (d a : XReg) (n : BitVec 6) (s : State) : Out := scalarOp1 d a (fun p => p <<< n.toNat) s

/-- SHRI (R274). -/
def execShri (d a : XReg) (n : BitVec 6) (s : State) : Out := scalarOp1 d a (fun p => p >>> n.toNat) s

/-- SHRAI (R274). -/
def execShrai (d a : XReg) (n : BitVec 6) (s : State) : Out := scalarOp1 d a (fun p => p.sshiftRight n.toNat) s

/-- MUL (R263). -/
def execMul (d a b : XReg) (s : State) : Out := scalarOp2 d a b (fun p q => p * q) s

/-- MULH (R263). -/
def execMulh (d a b : XReg) (s : State) : Out := scalarOp2 d a b (fun p q => BitVec.ofInt 64 (p.toInt * q.toInt / 2 ^ 64)) s

/-- MULHN (R263). -/
def execMulhn (d a b : XReg) (s : State) : Out := scalarOp2 d a b (fun p q => BitVec.ofNat 64 (p.toNat * q.toNat / 2 ^ 64)) s

/-- DIV (R263). -/
def execDiv (d a b : XReg) (s : State) : Out := scalarOp2 d a b (fun p q => divWord p q) s

/-- DIVN (R263). -/
def execDivn (d a b : XReg) (s : State) : Out := scalarOp2 d a b (fun p q => divnWord p q) s

/-- REM (R263). -/
def execRem (d a b : XReg) (s : State) : Out := scalarOp2 d a b (fun p q => remWord p q) s

/-- REMN (R263). -/
def execRemn (d a b : XReg) (s : State) : Out := scalarOp2 d a b (fun p q => remnWord p q) s

/-- LIH (R41). -/
def execLih (d : XReg) (imm : BitVec 18) (s : State) : Out := scalarOp 4 d.toNat [] (fun _ => lihWord imm) s

/-! Compressed forms (R42) -/

/-- `add xd, xd, xb`. -/
def execAddC (d b : BitVec 4) (s : State) : Out :=
  scalarOp 2 d.toNat [d.toNat, b.toNat] (fun h => h.getX d.toNat + h.getX b.toNat) s

/-- `mv xd, xa`. -/
def execMvC (d a : BitVec 4) (s : State) : Out := scalarOp 2 d.toNat [a.toNat] (fun h => h.getX a.toNat) s

/-- `addi xd, xd, imm`; op5[0] is imm[5]. -/
def execAddiC (j : BitVec 1) (d : BitVec 4) (imm : BitVec 5) (s : State) : Out :=
  scalarOp 2 d.toNat [d.toNat] (fun h => h.getX d.toNat + (j ++ imm).signExtend 64) s

end Sys2Proof.Machine
end

