-- ==== Sys2Proof/Machine/Float.lean ====
section
/-! DEFINITION. The scalar floating-point instructions (R130 to R132, R265, R266). -/

namespace Sys2Proof.Machine

/-- Whether bits of a float type are an infinity or a NaN. -/
def nonFinite (ty w : Nat) : Bool :=
  let c := classOf (fmtOf ty) w
  c == .I || c == .Q

/-- FPTRAP for raised flags and a non-finite result (R132, R265). -/
def fpTrapExc (f : Nat) (nft : Bool) : Exc := { code := 0x09, info0 := word (f + bit nft * 32) }

/-- Whether raised flags, or a non-finite result, meet an enabled trap (R132). -/
def fpTraps (ctl : BitVec 9) (f : Nat) (bad : Bool) : Bool :=
  (f &&& bits ctl.toNat 3 5) != 0 || (ctl.getLsbD 8 && bad)

/-- The end of a scalar floating-point instruction: FPTRAP, or x[d] and FFLAGS, and RIC when it has consumed one. -/
def fpRetire (d : Nat) (w : Word) (f : Nat) (bad consumes : Bool) (s : State) : Res Unit :=
  let h := s.hart
  if fpTraps h.fp.ctl f bad then raise (fpTrapExc f (h.fp.ctl.getLsbD 8 && bad)) s
  else
    .ok () (s.modHart fun h =>
      { (h.setX d w).retire 4 with
        fp := { h.fp with flags := h.fp.flags ||| BitVec.ofNat 5 f
                          ric := if consumes then h.fp.ric + 1 else h.fp.ric } })

/-- A scalar operation of the bank of a type on x[a], x[b] and x[d] (R265). -/
def fpScalar (fn : LaneFn) (ty : Nat) (d a b : XReg) (s : State) : Out :=
  finish ((awaitRegs [d.toNat, a.toNat, b.toNat] [] s).bind fun _ s =>
    let h := s.hart
    let src : XReg → Nat := fun r => (h.getX r.toNat).toNat % 2 ^ typeBits ty
    let mode := rmodeOf (wbits (word h.fp.ctl.toNat) 0 3)
    let (w, f) := fpCompute fn ty ty ty mode (randomBits h.fp.seed h.fp.ric 0) (src a) (src b) (src d)
    let rounds := !(fn == .fmin || fn == .fmax)
    fpRetire d.toNat (word w) f (nonFinite ty w) (rounds && mode == .sr) s)

/-- FCVT between the bank's type and a type code (R46, R266). -/
def fpConvert (bank : Nat) (d a : XReg) (code : BitVec 5) (s : State) : Out :=
  finish ((awaitRegs [d.toNat, a.toNat] [] s).bind fun _ s =>
    let h := s.hart
    let other := code.toNat % 16
    let (from_, to_) := if code.getLsbD 4 then (other, bank) else (bank, other)
    let mode := rmodeOf (wbits (word h.fp.ctl.toNat) 0 3)
    let v := valueOf from_ ((h.getX a.toNat).toNat % 2 ^ typeBits from_)
    let (w, f) := convertTo to_ mode (randomBits h.fp.seed h.fp.ric 0) v
    let res := if to_ = 2 then BitVec.ofInt 64 (signedOf 32 w) else word w
    fpRetire d.toNat res f (isFloat to_ && nonFinite to_ w) (mode == .sr) s)

/-- FCMP of a bank (R97). -/
def fpCompare (ty : Nat) (k : KReg) (a b : XReg) (cc : BitVec 3) (s : State) : Out :=
  finish ((awaitRegs [a.toNat, b.toNat] [k.toNat] s).bind fun _ s =>
    let h := s.hart
    let src : XReg → FVal := fun r => valueOf ty ((h.getX r.toNat).toNat % 2 ^ typeBits ty)
    let (r, f) := fpRelation cc.toNat (src a) (src b)
    if fpTraps h.fp.ctl f false then raise (fpTrapExc f false) s
    else
      .ok () (s.modHart fun h =>
        { (h.setK k.toNat r).retire 4 with fp := { h.fp with flags := h.fp.flags ||| BitVec.ofNat 5 f } }))

/-- FADD in the FP64 bank (R265). -/
def execFaddFp64 (d a b : XReg) (s : State) : Out := fpScalar .fadd 14 d a b s

/-- FSUB in the FP64 bank (R265). -/
def execFsubFp64 (d a b : XReg) (s : State) : Out := fpScalar .fsub 14 d a b s

/-- FMUL in the FP64 bank (R265). -/
def execFmulFp64 (d a b : XReg) (s : State) : Out := fpScalar .fmul 14 d a b s

/-- FDIV in the FP64 bank (R265). -/
def execFdivFp64 (d a b : XReg) (s : State) : Out := fpScalar .fdiv 14 d a b s

/-- FMA in the FP64 bank (R265). -/
def execFmaFp64 (d a b : XReg) (s : State) : Out := fpScalar .fma 14 d a b s

/-- FMIN in the FP64 bank (R265). -/
def execFminFp64 (d a b : XReg) (s : State) : Out := fpScalar .fmin 14 d a b s

/-- FMAX in the FP64 bank (R265). -/
def execFmaxFp64 (d a b : XReg) (s : State) : Out := fpScalar .fmax 14 d a b s

/-- FSQRT in the FP64 bank (R265). -/
def execFsqrtFp64 (d a : XReg) (s : State) : Out := fpScalar .fsqrt 14 d a 0 s

/-- FCVT of the FP64 bank (R266). -/
def execFcvtFp64 (d a : XReg) (c : BitVec 5) (s : State) : Out := fpConvert 14 d a c s

/-- FCMP of the FP64 bank (R97). -/
def execFcmpFp64 (k : KReg) (a b : XReg) (c : BitVec 3) (s : State) : Out := fpCompare 14 k a b c s

/-- FADD in the FP32 bank (R265). -/
def execFaddFp32 (d a b : XReg) (s : State) : Out := fpScalar .fadd 13 d a b s

/-- FSUB in the FP32 bank (R265). -/
def execFsubFp32 (d a b : XReg) (s : State) : Out := fpScalar .fsub 13 d a b s

/-- FMUL in the FP32 bank (R265). -/
def execFmulFp32 (d a b : XReg) (s : State) : Out := fpScalar .fmul 13 d a b s

/-- FDIV in the FP32 bank (R265). -/
def execFdivFp32 (d a b : XReg) (s : State) : Out := fpScalar .fdiv 13 d a b s

/-- FMA in the FP32 bank (R265). -/
def execFmaFp32 (d a b : XReg) (s : State) : Out := fpScalar .fma 13 d a b s

/-- FMIN in the FP32 bank (R265). -/
def execFminFp32 (d a b : XReg) (s : State) : Out := fpScalar .fmin 13 d a b s

/-- FMAX in the FP32 bank (R265). -/
def execFmaxFp32 (d a b : XReg) (s : State) : Out := fpScalar .fmax 13 d a b s

/-- FSQRT in the FP32 bank (R265). -/
def execFsqrtFp32 (d a : XReg) (s : State) : Out := fpScalar .fsqrt 13 d a 0 s

/-- FCVT of the FP32 bank (R266). -/
def execFcvtFp32 (d a : XReg) (c : BitVec 5) (s : State) : Out := fpConvert 13 d a c s

/-- FCMP of the FP32 bank (R97). -/
def execFcmpFp32 (k : KReg) (a b : XReg) (c : BitVec 3) (s : State) : Out := fpCompare 13 k a b c s

end Sys2Proof.Machine
end

