-- ==== Sys2Proof/Machine/Transfer.lean ====
section
/-! DEFINITION. Condition registers, target registers and transfers (R93 to R98, R42). -/

namespace Sys2Proof.Machine

/-! Condition registers (R97) -/

/-- An instruction that writes k[d] from x and k registers. -/
def kOp (k : KReg) (xs ks : List Nat) (f : Hart → Bool) (s : State) : Out :=
  finish ((awaitRegs xs (k.toNat :: ks) s).bind fun _ s =>
    .ok () (s.modHart fun h => (h.setK k.toNat (f h)).retire 4))

/-- CMP (R97). -/
def execCmp (k : KReg) (a b : XReg) (c : BitVec 3) (s : State) : Out :=
  kOp k [a.toNat, b.toNat] [] (fun h => intRelation c.toNat 64 (h.getX a.toNat).toNat (h.getX b.toNat).toNat) s

/-- KAND (R97). -/
def execKand (k a b : KReg) (s : State) : Out :=
  kOp k [] [a.toNat, b.toNat] (fun h => h.getK a.toNat && h.getK b.toNat) s

/-- KOR (R97). -/
def execKor (k a b : KReg) (s : State) : Out :=
  kOp k [] [a.toNat, b.toNat] (fun h => h.getK a.toNat || h.getK b.toNat) s

/-- KXOR (R97). -/
def execKxor (k a b : KReg) (s : State) : Out :=
  kOp k [] [a.toNat, b.toNat] (fun h => h.getK a.toNat != h.getK b.toNat) s

/-- KNOT (R97). -/
def execKnot (k a : KReg) (s : State) : Out := kOp k [] [a.toNat] (fun h => !h.getK a.toNat) s

/-- KFROMX (R97). -/
def execKfromx (k : KReg) (a : XReg) (s : State) : Out := kOp k [a.toNat] [] (fun h => h.getX a.toNat != 0) s

/-- KTOX (R97). -/
def execKtox (d : XReg) (k : KReg) (s : State) : Out :=
  finish ((awaitRegs [d.toNat] [k.toNat] s).bind fun _ s =>
    .ok () (writeX 4 d.toNat (boolWord (s.hart.getK k.toNat)) s))

/-! Target registers (R95) -/

/-- The image of a target register (R93). -/
def TReg.image (t : TReg) : Word := word (t.pf.toNat * 2 ^ 48 + t.addr.toNat * 2 + bit t.v)

/-- A prefetch starts with an empty buffer (R94). -/
def TReg.fetching (t : TReg) : TReg := { t with pf := 1, buf := [], pages := [] }

/-- A target register takes an address, and its prefetch starts (R94). -/
def Hart.prepare (h : Hart) (bt : Nat) (addr : BitVec 48) : Hart :=
  h.setB bt { addr := BitVec.ofNat 47 (addr.toNat / 2), v := true, pf := 1 }

/-- PREP of `n` bytes with an offset in halfwords. -/
def prepare (n : Nat) (bt : BReg) (off : Int) (s : State) : Out :=
  .next (s.modHart fun h => (h.prepare bt.toNat (h.pc + BitVec.ofInt 48 (2 * off))).retire n)

/-- PREP (R95). -/
def execPrep (bt : BReg) (o : BitVec 21) (s : State) : Out := prepare 4 bt o.toInt s

/-- PREP, compressed: op5[3:0] holds off[9:6] (R42). -/
def execPrepC (hi : BitVec 4) (bt : BReg) (o : BitVec 6) (s : State) : Out := prepare 2 bt (hi ++ o).toInt s

/-- PREPR (R95). -/
def execPrepr (bt : BReg) (a : XReg) (s : State) : Out :=
  finish ((awaitRegs [a.toNat] [] s).bind fun _ s =>
    let w := s.hart.getX a.toNat
    if w.getLsbD 0 then raise (misalign w) s
    else .ok () (s.modHart fun h => (h.prepare bt.toNat (BitVec.ofNat 48 w.toNat)).retire 4))

/-- MVB (R95). -/
def execMvb (bt : BReg) (d : XReg) (s : State) : Out :=
  finish ((awaitRegs [d.toNat] [] s).bind fun _ s =>
    .ok () (writeX 4 d.toNat (word (s.hart.getB bt.toNat).target.toNat) s))

/-- INVB (R95). -/
def execInvb (bt : BReg) (s : State) : Out :=
  .next (s.modHart fun h => (h.setB bt.toNat { h.getB bt.toNat with v := false, pf := 0, buf := [], pages := [] }).retire 4)

/-! Transfers (R98) -/

/-- UNPREP (R98). -/
def unprepExc (bt : BReg) (t : TReg) : Exc := { code := 0x03, info0 := word bt.toNat, info1 := word t.target.toNat }

/-- The target register is valid, or UNPREP. -/
def prepared (bt : BReg) (s : State) : Res Unit :=
  check (s.hart.getB bt.toNat).v (unprepExc bt (s.hart.getB bt.toNat)) s

/-- What the front takes from a target register's buffer (R98): the bytes up to the last end of an aligned 64-byte block. Those of a
block that the buffer holds in part are fetched with the rest of it, so that one block is never old in part and new in part
(R100). -/
def TReg.lead (t : TReg) : Lead :=
  let l := t.buf.take ((t.target.toNat + t.buf.length) / 64 * 64 - t.target.toNat)
  if l.isEmpty then Lead.none else ⟨t.target, l, t.pages⟩

/-- A taken transfer of `n` bytes: a stale buffer is fetched again, the front waits for the prefetch, a call writes b7, and
PC takes the target, with the bytes of the buffer. -/
def transfer (n : Nat) (bt : BReg) (call : Bool) (s : State) : Res Unit :=
  let t := s.hart.getB bt.toNat
  if t.pf = 2 then
    .ok () (s.modHart fun h =>
      let h := if call then h.prepare 7 (h.pc + BitVec.ofNat 48 n) else h
      { (h.retire n).setPc t.target with lead := t.lead })
  else if t.pf = 3 then .wait 6 (s.modHart fun h => h.setB bt.toNat t.fetching)
  else .wait 6 s

/-- JMP of `n` bytes. -/
def jump (n : Nat) (bt : BReg) (s : State) : Out :=
  finish ((prepared bt s).bind fun _ s => transfer n bt false s)

/-- BR (`neg` false) and BRN of `n` bytes. -/
def branch (n : Nat) (bt : BReg) (k : KReg) (neg : Bool) (s : State) : Out :=
  finish ((prepared bt s).bind fun _ s =>
    (awaitRegs [] [k.toNat] s).bind fun _ s =>
      if s.hart.getK k.toNat != neg then transfer n bt false s else .ok () (retireHere n s))

/-- JMP (R98). -/
def execJmp (bt : BReg) (s : State) : Out := jump 4 bt s

/-- JMP, compressed (R42). -/
def execJmpC (bt : BReg) (s : State) : Out := jump 2 bt s

/-- BR (R98). -/
def execBr (bt : BReg) (k : KReg) (s : State) : Out := branch 4 bt k false s

/-- BR, compressed (R42). -/
def execBrC (bt : BReg) (k : KReg) (s : State) : Out := branch 2 bt k false s

/-- BRN (R98). -/
def execBrn (bt : BReg) (k : KReg) (s : State) : Out := branch 4 bt k true s

/-- BRN, compressed (R42). -/
def execBrnC (bt : BReg) (k : KReg) (s : State) : Out := branch 2 bt k true s

/-- CALL (R98). -/
def execCall (bt : BReg) (s : State) : Out :=
  finish ((prepared bt s).bind fun _ s => transfer 4 bt true s)

end Sys2Proof.Machine
end

