-- ==== Sys2Proof/Machine/Memory.lean ====
section
/-! DEFINITION. Scalar loads, stores and atomic operations (R80, R159, R268, R269, R275, R276, R42). -/

namespace Sys2Proof.Machine

/-- Bytes of a size code (R41): 0 i8, 1 i16, 2 i32, 3 64-bit, 4 n8, 5 n16, 6 n32. -/
def sizeBytes (z : BitVec 3) : Nat := 2 ^ (z.toNat % 4)

/-- The address of a scalar access (R268). -/
def scalarAddr (base : Word) (z : BitVec 3) (imm : BitVec 9) : Word := base + imm.signExtend 64 * word (sizeBytes z)

/-- A loaded value as x[d] takes it (R268). -/
def extendLoad (z : BitVec 3) (w : Nat) : Word :=
  if z.toNat ≤ 2 then BitVec.ofInt 64 (signedOf (8 * sizeBytes z) w) else word w

/-- Alignment of a scalar access (R141). -/
def aligned (addr : Word) (n : Nat) (s : State) : Res Unit := check (addr.toNat % n == 0) (misalign addr) s

/-- The place of a scalar GV access, with the leaf of its page. -/
def gvHere (k : Access) (addr : Word) (s : State) : Res (Nat × TlbEntry) := translate s.ctx k addr 0 s

/-- The page of an access is counted once (R170). -/
def countHere (e : TlbEntry) (s : State) : State := countHeat s.here s.hart.tenantNo e s

/-! Loads (R268, R269) -/

/-- The bytes of a line through the constant cache: a line that it does not hold is read and filled; it holds no line of HM
(R235). -/
def constLine (l : Nat) (s : State) : Res (List Byte) :=
  match lookup (s.core s.here).ccache l with
  | some b => .ok b s
  | none =>
    (loadPlace s.here l 64 s).bind fun _ s =>
      let b := readPlaces s.mem l 64
      if memoryOf l = 2 then .ok b s
      else
        let (m, s) := cacheLine Config.ccacheLines l b (s.core s.here).ccache s
        .ok b (s.modCore s.here fun k => { k with ccache := m })

/-- The little-endian number of some bytes. -/
def numberOf (bs : List Byte) : Nat := bs.foldr (fun b w => b.toNat + 256 * w) 0

/-- LD from an address; `const` for `ld.k` (R268, R269). -/
def loadGv (const : Bool) (d : Nat) (z : BitVec 3) (addr : Word) (s : State) : Res Unit :=
  let n := sizeBytes z
  (aligned addr n s).bind fun _ s =>
    (gvHere .read addr s).bind fun pe s =>
      (awaitHere pe.1 n s).bind fun _ s =>
        let value : Res Nat :=
          if const then
            (constLine (lineOf pe.1) s).bind fun b s => .ok (numberOf ((b.drop (pe.1 % 64)).take n)) s
          else loadPlace s.here pe.1 n s
        value.bind fun w s => .ok () (writeX 4 d (extendLoad z w) (countHere pe.2 s))

/-- LDL of `len` bytes from an arena offset (R268). -/
def loadLs (len d : Nat) (z : BitVec 3) (addr : Word) (s : State) : Res Unit :=
  let n := sizeBytes z
  (aligned addr n s).bind fun _ s =>
    (lsHere addr n false s).bind fun p s =>
      (awaitHere p n s).bind fun _ s =>
        (loadPlace s.here p n s).bind fun w s => .ok () (writeX len d (extendLoad z w) s)

/-- LD (R268). -/
def execLd (d a : XReg) (z : BitVec 3) (imm : BitVec 9) (s : State) : Out :=
  finish ((awaitRegs [d.toNat, a.toNat] [] s).bind fun _ s =>
    loadGv (a == 63) d.toNat z (scalarAddr (s.hart.getX a.toNat) z imm) s)

/-- LDL (R268). -/
def execLdl (d a : XReg) (z : BitVec 3) (imm : BitVec 9) (s : State) : Out :=
  finish ((awaitRegs [d.toNat, a.toNat] [] s).bind fun _ s =>
    loadLs 4 d.toNat z (scalarAddr (s.hart.getX a.toNat) z imm) s)

/-- LDL, compressed: 64 bits at offset 8 · imm5 (R42). -/
def execLdlC (d : BitVec 4) (imm : BitVec 5) (s : State) : Out :=
  finish ((awaitRegs [d.toNat] [] s).bind fun _ s => loadLs 2 d.toNat 3 (word (8 * imm.toNat)) s)

/-! Stores (R275, R276) -/

/-- Room in the store queue; a full queue stalls, or raises DEFERRED when poison blocks its oldest entry (R276). -/
def storeRoom (s : State) : Res Unit :=
  let q := s.hart.ms.stq
  if (q.filter (·.scalar)).length < Config.storeQueue then .ok () s
  else
    let i := (q.takeWhile fun p => !p.scalar).length
    match rootsOf s.here (blockedBy s.here (q.take (i + 1)) s) s with
    | [] => .wait 7 s
    | roots => raiseDeferred s.here s.me roots 0 s

/-- A store to `n` bytes at a place enters the store queue in program order, and the front goes on (R80, R275); one to GV keeps
its page pinned until it commits (R167). -/
def queueStore (len p n : Nat) (w : Word) (gv : Option (Word × TlbEntry)) (s : State) : Res Unit :=
  (storeRoom s).bind fun _ s =>
    let h := s.hart
    .ok () (retireHere len (enqueueFront s.here s.me (storeFollows p n s)
      { cells := cellsOf p n w.toNat, scalar := true
        pin := gv.map fun a => s.pin a.2
        addr := gv.map fun a => ⟨a.1, h.ms.ptbase, h.ms.asid, h.tr.sup⟩ } s))

/-- ST to an address. -/
def storeGv (w : Word) (z : BitVec 3) (addr : Word) (s : State) : Res Unit :=
  let n := sizeBytes z
  (aligned addr n s).bind fun _ s =>
    (gvHere .write addr s).bind fun pe s =>
      (queueStore 4 pe.1 n w (some (addr, pe.2)) s).bind fun _ s => .ok () (countHere pe.2 s)

/-- STL of `len` bytes to an arena offset. -/
def storeLs (len : Nat) (w : Word) (z : BitVec 3) (addr : Word) (s : State) : Res Unit :=
  let n := sizeBytes z
  (aligned addr n s).bind fun _ s =>
    (lsHere addr n true s).bind fun p s => queueStore len p n w none s

/-- ST (R275). -/
def execSt (xs a : XReg) (z : BitVec 3) (imm : BitVec 9) (s : State) : Out :=
  finish ((awaitRegs [xs.toNat, a.toNat] [] s).bind fun _ s =>
    storeGv (s.hart.getX xs.toNat) z (scalarAddr (s.hart.getX a.toNat) z imm) s)

/-- STL (R275). -/
def execStl (xs a : XReg) (z : BitVec 3) (imm : BitVec 9) (s : State) : Out :=
  finish ((awaitRegs [xs.toNat, a.toNat] [] s).bind fun _ s =>
    storeLs 4 (s.hart.getX xs.toNat) z (scalarAddr (s.hart.getX a.toNat) z imm) s)

/-- STL, compressed (R42). -/
def execStlC (xs : BitVec 4) (imm : BitVec 5) (s : State) : Out :=
  finish ((awaitRegs [xs.toNat] [] s).bind fun _ s =>
    storeLs 2 (s.hart.getX xs.toNat) 3 (word (8 * imm.toNat)) s)

/-! Atomic operations (R159) -/

/-- AMO (R159). It is issued in program order and commits after every earlier store of the hart (R80) and after earlier loads of
its bytes, and one that releases after every earlier access, for which it waits where a trap holds it (R176, notes 1 and 2; R220); with nothing to follow it commits at once.
Otherwise it joins the hart's stores and the front goes on: an instruction of x[d] waits for it (R256). Bit 0 of `o` acquires and
bit 1 releases. R53 lets no AMO stall for want of a place, so that there may be any number of them (DESIGN CHOICE; log
entry 126). -/
def atomic (op : Nat) (d a b : XReg) (o : BitVec 2) (s : State) : Out :=
  finish ((awaitRegs [d.toNat, a.toNat, b.toNat] [] s).bind fun _ s =>
    let h := s.hart
    let addr := h.getX a.toNat
    (aligned addr 8 s).bind fun _ s =>
      (gvHere .amo addr s).bind fun pe s =>
      (if o.getLsbD 1 then awaitHeld 7 VEntry.memory s else .ok () s).bind fun _ s =>
        let s := drain s.here s.me s
        let q : Atomic := ⟨op, d.toNat, h.getX b.toNat, h.getX d.toNat, o.getLsbD 0, h.pc⟩
        let p : Pending := { cells := cellsOf pe.1 8 0, amo := some q, pin := some (s.pin pe.2),
                             addr := some ⟨addr, h.ms.ptbase, h.ms.asid, h.tr.sup⟩ }
        let after := if o.getLsbD 1 then releaseFollows s else storeFollows pe.1 8 s
        if s.hart.ms.stq.isEmpty && after == 0 then
          (loadPlace s.here pe.1 8 s).bind fun _ s =>
            .ok () (retireHere 4 (countHere pe.2 (commitAtomic s.here s.me p q s)))
        else .ok () (retireHere 4 (countHere pe.2 (enqueueFront s.here s.me after p s))))

/-- AMO_ADD (R159). -/
def execAmoAdd (d a b : XReg) (o : BitVec 2) (s : State) : Out := atomic 0 d a b o s
/-- AMO_AND (R159). -/
def execAmoAnd (d a b : XReg) (o : BitVec 2) (s : State) : Out := atomic 1 d a b o s
/-- AMO_OR (R159). -/
def execAmoOr (d a b : XReg) (o : BitVec 2) (s : State) : Out := atomic 2 d a b o s
/-- AMO_XOR (R159). -/
def execAmoXor (d a b : XReg) (o : BitVec 2) (s : State) : Out := atomic 3 d a b o s
/-- AMO_MIN (R159). -/
def execAmoMin (d a b : XReg) (o : BitVec 2) (s : State) : Out := atomic 4 d a b o s
/-- AMO_MAX (R159). -/
def execAmoMax (d a b : XReg) (o : BitVec 2) (s : State) : Out := atomic 5 d a b o s
/-- AMO_MINN (R159). -/
def execAmoMinn (d a b : XReg) (o : BitVec 2) (s : State) : Out := atomic 6 d a b o s
/-- AMO_MAXN (R159). -/
def execAmoMaxn (d a b : XReg) (o : BitVec 2) (s : State) : Out := atomic 7 d a b o s
/-- AMO_SWAP (R159). -/
def execAmoSwap (d a b : XReg) (o : BitVec 2) (s : State) : Out := atomic 8 d a b o s
/-- AMO_CAS (R159). -/
def execAmoCas (d a b : XReg) (o : BitVec 2) (s : State) : Out := atomic 9 d a b o s

end Sys2Proof.Machine
end

