-- ==== Sys2Proof/Machine/Control.lean ====
section
/-! DEFINITION. The control registers: what each index reads and how it is written, and CRD, CWR, CSET and CCLR (R5, R57,
R59, R62, R68, R105, R127, R131, R140, R163, R168, R171, R172, R178, R187, R197, R203, R218, R219, R228, R258 to
R260). -/

namespace Sys2Proof.Machine

/-- Indices that are PRIV at U (R259). -/
def ctlPriv (n : Nat) : Bool :=
  (decide (0x020 ≤ n) && decide (n ≤ 0x02A)) || n == 0x060 || n == 0x061 || decide (0x100 ≤ n)

/-- HARTID (R203). -/
def Hart.hartId (h : Hart) (n : Nat) : Word :=
  if isFerry n then word (4 + n % 4) else word (h.id.rank.toNat * 16 + n)

/-- VHWn (R62). -/
def Hart.vhw (h : Hart) (r : Nat) : Nat := ceilDiv (lookupD h.vec.written r 0 * 8) (typeBits (wbits h.vec.vtype 0 4))

/-- RSTAT (R105). -/
def RecState.stat (r : RecState) : Word :=
  word (r.phase.toNat * 2 ^ 62 + r.rout.toNat * 2 ^ 60 + bit r.act * 2 ^ 59 + bit r.stop * 2 ^ 58 +
    r.batch.toNat * 2 ^ 48 + r.level.toNat * 2 ^ 40 + r.cells.toNat)

/-- LLEN (R68). -/
def LoopState.lenWord (l : LoopState) : Word :=
  match l.loop with
  | none => word l.llen.toNat
  | some p => word (2 ^ 16 + p.pos * 2 ^ 8 + l.llen.toNat)

/-- The tenant that the current hart serves: that of its group; a ferry hart, which R178 gives no tenant, serves tenant 0
(DESIGN CHOICE; log entry 107). -/
def State.myTenant (s : State) : Tenant := s.tenant s.hart.tenantNo

/-- What a control register reads (R259). -/
def readCtl (c : Nat) (s : State) : Word :=
  let h := s.hart
  match c with
  | 0x000 => word h.vec.vl
  | 0x001 => h.vec.vtype
  | 0x002 => h.vec.mspace.zeroExtend 64
  | 0x003 => if h.vec.held.isEmpty then 0 else h.tr.tvst
  | 0x004 => word (if h.run.running then h.vec.grant else 0)
  | 0x005 => word (if h.run.running then 32 * h.vec.grant else 0)
  | 0x008 => h.fp.ctl.zeroExtend 64
  | 0x009 => h.fp.flags.zeroExtend 64
  | 0x00A => h.fp.seed
  | 0x00B => h.fp.ric
  | 0x00C => word (h.lp.cthr.toNat * 2 ^ 16 + bit h.lp.det)
  | 0x010 => h.lp.lcnt
  | 0x011 => h.lp.lbody
  | 0x012 => h.lp.lenWord
  | 0x013 => h.lp.liter
  | 0x018 => word (bit h.rc.objV * 2 ^ 63 + h.rc.objOff.toNat)
  | 0x019 => h.rc.stat
  | 0x020 => h.tr.tpc
  | 0x021 => h.tr.tvcp
  | 0x022 => h.tr.tcause
  | 0x023 => h.tr.tvst
  | 0x024 => h.tr.tinfo0
  | 0x025 => h.tr.tinfo1
  | 0x026 => h.tr.tinfo2
  | 0x027 => h.tr.tinfo3
  | 0x028 => h.tr.tbase
  | 0x029 => h.tr.tscr0
  | 0x02A => h.tr.tscr1
  | 0x02B => word (bit h.tr.sup)
  | 0x030 => h.hartId s.me
  | 0x031 => word (s.here % Config.coresPerDie)
  | 0x032 => word (dieOf s.here)
  | 0x033 => h.id.tenant
  | 0x034 => h.id.launchId
  | 0x035 => h.id.idx.getD 0 0
  | 0x036 => h.id.idx.getD 1 0
  | 0x037 => h.id.idx.getD 2 0
  | 0x038 => h.id.idx.getD 3 0
  | 0x039 => h.id.idx.getD 4 0
  | 0x03A => h.id.idx.getD 5 0
  | 0x03B => h.id.args
  | 0x040 => h.run.cycle
  | 0x041 => h.run.retired
  | 0x050 => (lookupD h.tile.amax 0 0).zeroExtend 64
  | 0x051 => (lookupD h.tile.amax 1 0).zeroExtend 64
  | 0x052 => (lookupD h.tile.amax 2 0).zeroExtend 64
  | 0x053 => (lookupD h.tile.amax 3 0).zeroExtend 64
  | 0x054 => h.tgrant s.myGroup
  | 0x060 => (s.die (dieOf s.here)).heat.threshold.zeroExtend 64
  | 0x061 =>
    let q := (s.die (dieOf s.here)).heat
    word (bit q.en * 2 ^ 63 + q.drops.toNat * 2 ^ 32 + q.core.toNat * 2 ^ 16 + q.ch.toNat)
  | 0x100 => h.ms.ptbase
  | 0x101 => h.ms.asid.zeroExtend 64
  | 0x102 => 0
  | 0x103 =>
    let t := s.myTenant
    word (t.acc.toNat * 2 ^ 32 + bit t.lim * 2 + bit t.fenceDown)
  | 0x104 => h.run.mcsel.zeroExtend 64
  | 0x105 => (s.bank s.here h.run.mcsel.toNat).status
  | 0x106 => (s.bank s.here h.run.mcsel.toNat).addr
  | 0x107 => (s.bank s.here h.run.mcsel.toNat).misc
  | 0x108 => (s.bank s.here h.run.mcsel.toNat).ctl
  | n => if 0x0C0 ≤ n ∧ n ≤ 0x0DF then word (h.vhw (n - 0x0C0)) else 0

/-! Writes with an effect of their own -/

/-- A stopped recursion is abandoned (R105). -/
def Hart.abandon (h : Hart) : Hart :=
  if h.rc.stop then { h with rc := { h.rc with stop := false, phase := 0, pontoon := none } } else h

/-- STATUS.V cleared, with OVER, CLASS, AV, MV and SYNDROME (R228); CECNT and SOURCE stay. -/
def clearStatus (w : Word) : Word := word (wbits w 32 16 * 2 ^ 32 + wbits w 16 8 * 2 ^ 16)

/-- STATUS written: CECNT takes bits [47:32] of a value, and V is cleared where asked (R228). -/
def Bank.writeStatus (b : Bank) (rw : Word) (clear : Bool) : Bank :=
  let w := word (setBits b.status.toNat 32 16 (wbits rw 32 16))
  { b with status := if clear then clearStatus w else w }

/-- NOTECH written; EN = 0 discards the waiting notifications of the die (R171, R172). CORE takes any value of its five bits, those
that name no core of the die with them (DESIGN CHOICE; log entry 117). -/
def HeatState.writeNotech (q : HeatState) (w : Word) : HeatState :=
  { q with
    en := w.getLsbD 63
    drops := BitVec.ofNat 16 (wbits w 32 16)
    core := BitVec.ofNat 5 (wbits w 16 5)
    ch := BitVec.ofNat 4 (wbits w 0 4)
    waiting := if w.getLsbD 63 then q.waiting else [] }

/-- Whether a TLBINV of a kind removes an entry (R163). -/
def invalidates (kind : Nat) (asid : BitVec 16) (va : Nat) (e : TlbEntry) : Bool :=
  let global := e.pte.getLsbD 13
  match kind with
  | 0 => (e.asid == asid || global) && va / 2 ^ e.bits * 2 ^ e.bits == e.base
  | 1 => e.asid == asid && !global
  | 2 => !global
  | _ => true

/-- Whether the bytes that a prefetch in flight fetches lie on the page of an entry. -/
def fetchesOn (h : Hart) (t : TReg) (e : TlbEntry) : Bool :=
  let on : Nat → Bool := fun a => a / 2 ^ e.bits * 2 ^ e.bits == e.base
  (e.asid == h.ms.asid || e.pte.getLsbD 13) && (on t.target.toNat || on (t.target.toNat + 63))

/-- Buffers in flight or ready that `p` selects become stale (R94). -/
def Hart.staleBuffers (h : Hart) (p : TReg → Bool) : Hart :=
  { h with b := mapValues (fun _ t => if (t.pf == 1 || t.pf == 2) && p t then { t with pf := 3 } else t) h.b }

/-- The front no longer has the bytes that it took from a buffer through a page that `hit` selects. -/
def Hart.dropLead (h : Hart) (hit : TlbEntry → Bool) : Hart := if h.lead.pages.any hit then { h with lead := Lead.none } else h

/-- Entries are removed from every TLB of the package, the buffers that hold or fetch bytes of their pages become stale, and the
constant caches are invalidated (R94, R100, R168, R269). -/
def invalidateTlbs (kind : Nat) (asid : BitVec 16) (va : Nat) (s : State) : State :=
  let hit := invalidates kind asid va
  let gone := (s.cores.flatMap fun k => k.2.tlb.filter hit) ++ (s.dies.flatMap fun d => d.2.tlb.filter hit)
  { s with
    cores := mapValues (fun _ k =>
      { k with
        tlb := k.tlb.filter fun e => !hit e
        ccache := []
        harts := mapValues (fun _ h =>
          (h.staleBuffers fun t => t.pages.any hit || (t.pf == 1 && gone.any fun e => fetchesOn h t e)).dropLead hit)
          k.harts }) s.cores
    dies := mapValues (fun _ d => { d with tlb := d.tlb.filter fun e => !hit e }) s.dies }

/-- The pages that a hart keeps pinned: for the instructions of its VIQ with their strips, and for its uncommitted stores
(R167). -/
def Hart.pins (x : Hart) : List Pin := x.allEntries.flatMap VEntry.holds ++ x.ms.stq.filterMap (·.pin)

/-- Whether a hart of the package keeps a page pinned that a TLBINV has invalidated. -/
def pinnedStill (q : Invalidation) (s : State) : Bool :=
  s.cores.any fun k => k.2.harts.any fun h => h.2.pins.any fun p =>
    decide (p.born ≤ q.number) && invalidates q.kind q.asid q.va p.leaf

/-- The end of a TLBINV: it retires when no access holds a page that it invalidated (R168 step 4, R169). -/
def endInvalidate (q : Invalidation) (s : State) : Res Unit :=
  if pinnedStill q s then .wait 15 s
  else .ok () (s.modHart fun h => { h.retire 4 with run := { (h.retire 4).run with inval := none } })

/-- A CWR of TLBINV (R168): the settle, then the invalidation, once, then the wait for the pins. A copy command translates and
runs within one step, so that it holds none. -/
def tlbInvalidate (kind : Nat) (asid : BitVec 16) (va : Nat) (s : State) : Res Unit :=
  match s.hart.run.inval with
  | some q => endInvalidate q s
  | none =>
    (waitVector 5 s).bind fun _ s =>
      (settleHere s).bind fun _ s =>
        let q : Invalidation := ⟨kind, asid, va, s.inval⟩
        endInvalidate q ({ invalidateTlbs kind asid va s with inval := s.inval + 1 }.modHart fun h =>
          { h with run := { h.run with inval := some q } })

/-! Writes (R258) -/

/-- FORMAT on the front: the value that the register would hold, and its index (R221). -/
def formatExc (value : Word) (index : Nat) : Exc := { code := 0x11, info0 := value, info1 := word index }

/-- TCAUSE written: PP takes 1 for 2 and 3, and LOCK as written; clearing LOCK releases the held entries (R219, R220). -/
def Hart.writeCause (h : Hart) (w : Word) : Hart :=
  let pp := if wbits w 60 2 = 0 then 0 else 1
  let h := { h with tr := { h.tr with
    tcause := word (setBits (setBits h.tr.tcause.toNat 60 2 pp) 59 1 (bit (w.getLsbD 59))) } }
  if w.getLsbD 59 then h else h.unlock

/-- A register of the current hart that needs no check: its new state. `w` holds the values for RW fields. VL takes min(value, VLMAX) of
the whole value, as R59 words it, although R6 would ignore nonzero bits in its res0 field (DEDUCED; log entry 127). AMAXn keeps a NaN pattern as
written until the next drain (R197; DESIGN CHOICE; log entry 123). -/
def Hart.writeCtl (h : Hart) (c : Nat) (w : Word) : Hart :=
  match c with
  | 0x000 => { h with vec := { h.vec with vl := Nat.min w.toNat (vlMax h.vec.grant (wbits h.vec.vtype 0 4)) } }
  | 0x001 => { h with vec := { h.vec with vtype := w &&& 0xF1F } }
  | 0x002 => if wbits w 0 2 = 3 then h else { h with vec := { h.vec with mspace := BitVec.ofNat 2 w.toNat } }
  | 0x008 => { h with fp := { h.fp with ctl := BitVec.ofNat 9 w.toNat } }
  | 0x009 => { h with fp := { h.fp with flags := BitVec.ofNat 5 w.toNat } }
  | 0x00A => { h with fp := { h.fp with seed := w } }
  | 0x00B => { h with fp := { h.fp with ric := w } }
  | 0x00C => { h with lp := { h.lp with cthr := BitVec.ofNat 13 (Nat.min (wbits w 16 13) 4096), det := w.getLsbD 0 } }
  | 0x010 => { h with lp := { h.lp with lcnt := w } }
  | 0x011 => { h with lp := { h.lp with lbody := word (wbits w 1 47 * 2) } }
  | 0x012 => { h with lp := { h.lp with llen := BitVec.ofNat 5 w.toNat } }
  | 0x013 => { h with lp := { h.lp with liter := w } }
  | 0x020 => { h with tr := { h.tr with tpc := word (wbits w 1 47 * 2) } }
  | 0x022 => h.writeCause w
  | 0x028 => { h with tr := { h.tr with tbase := word (wbits w 6 42 * 64) } }
  | 0x029 => { h with tr := { h.tr with tscr0 := w } }
  | 0x02A => { h with tr := { h.tr with tscr1 := w } }
  | 0x050 => { h with tile := { h.tile with amax := insert h.tile.amax 0 (BitVec.ofNat 32 w.toNat) } }
  | 0x051 => { h with tile := { h.tile with amax := insert h.tile.amax 1 (BitVec.ofNat 32 w.toNat) } }
  | 0x052 => { h with tile := { h.tile with amax := insert h.tile.amax 2 (BitVec.ofNat 32 w.toNat) } }
  | 0x053 => { h with tile := { h.tile with amax := insert h.tile.amax 3 (BitVec.ofNat 32 w.toNat) } }
  | 0x100 => { h with ms := { h.ms with ptbase := word (wbits w 12 40 * 4096 + wbits w 0 2) } }
  | 0x101 => { h with ms := { h.ms with asid := BitVec.ofNat 16 w.toNat } }
  | 0x104 =>
    if 4 ≤ wbits w 0 4 ∧ wbits w 0 4 ≤ 7 then h else { h with run := { h.run with mcsel := BitVec.ofNat 4 w.toNat } }
  | _ => h

/-- A control register is written: `rw` goes to its RW fields and `w1c` to its W1C fields. -/
def writeCtl (c : Nat) (rw w1c : Word) (s : State) : Res Unit :=
  match c with
  | 0x001 =>
    if wbits rw 0 4 = 15 ∨ wbits rw 8 4 = 15 then raise (formatExc (rw &&& 0xF1F) c) s
    else .ok () (s.modHart fun h => h.writeCtl c rw)
  | 0x008 =>
    if 6 ≤ wbits rw 0 3 then raise (formatExc (rw &&& 0x1FF) c) s
    else .ok () (s.modHart fun h => h.writeCtl c rw)
  | 0x00C =>
    if rw.getLsbD 0 = s.hart.lp.det then .ok () (s.modHart fun h => h.writeCtl c rw)
    else
      (waitVector 7 s).bind fun _ s =>
        (releaseHere 7 s).bind fun _ s =>
          (awaitHeld 7 VEntry.memory s).bind fun _ s => .ok () (s.modHart fun h => h.writeCtl c rw)
  | 0x019 => .ok () (if w1c.getLsbD 58 then s.modHart Hart.abandon else s)
  | 0x060 =>
    let t := if wbits rw 0 16 = 0 then 1 else wbits rw 0 16
    .ok () (s.modDie (dieOf s.here) fun d => { d with heat := { d.heat with threshold := BitVec.ofNat 16 t } })
  | 0x061 => .ok () (s.modDie (dieOf s.here) fun d => { d with heat := d.heat.writeNotech rw })
  | 0x103 =>
    .ok () (if w1c.getLsbD 0 then s.modTenant s.hart.tenantNo fun t => { t with fenceDown := false } else s)
  | 0x105 =>
    let b := s.hart.run.mcsel.toNat
    .ok () (s.setBank s.here b ((s.bank s.here b).writeStatus rw (w1c.getLsbD 63)))
  | 0x108 =>
    let b := s.hart.run.mcsel.toNat
    .ok () (s.setBank s.here b { s.bank s.here b with ctl := word (wbits rw 16 16 * 2 ^ 16 + wbits rw 0 1) })
  | c => .ok () (s.modHart fun h => h.writeCtl c rw)

/-! Waits of R258 -/

/-- MDRAINs of an accumulator that the VIQ holds, those that a trap holds with them (R197, R220). -/
def drains (h : Hart) (n : Nat) : Bool :=
  (h.vec.held ++ h.vec.viq).any fun v => match v.instr with
    | .mdrain _ ad _ _ => ad.toNat == n
    | _ => false

/-- Whether an instruction is a VREL of v[r]. -/
def releasesV (i : Instr) (r : Nat) : Bool :=
  match i with
  | .vrel a => a.toNat == r
  | _ => false

/-- Whether an entry of the VIQ, held or not, or a body instruction of a captured loop, writes v[r]. -/
def writesV (h : Hart) (r : Nat) : Bool :=
  let one : VEntry → Bool := fun v =>
    (usesOf v.instr).dst == some r || releasesV v.instr r || v.binds.any (fun b => b.2.1.toNat == r)
  (h.vec.held ++ h.vec.viq).any fun v => match v.instr, h.lp.loop with
    | .loop _ _, some l => l.body.any one
    | _, _ => one v

/-- The wait of a control-register instruction; `sync` for CRD.sync and for every write (R258). -/
def ctlWait (c : Nat) (sync : Bool) (s : State) : Res Unit :=
  let h := s.hart
  if 0x010 ≤ c ∧ c ≤ 0x013 then (if h.lp.loop.isSome then .wait 11 s else .ok () s)
  else if 0x050 ≤ c ∧ c ≤ 0x053 then (if sync && drains h (c - 0x050) then .wait 11 s else .ok () s)
  else if 0x0C0 ≤ c ∧ c ≤ 0x0DF then (if writesV h (c - 0x0C0) then .wait 15 s else .ok () s)
  else .ok () s

/-- PRIV, then the waits (R258). -/
def ctlReady (i : Instr) (c : Nat) (sync : Bool) (s : State) : Res Unit :=
  (if ctlPriv c then needsS i s else .ok () s).bind fun _ s => ctlWait c sync s

/-- CRD and CRD.sync. -/
def readControl (i : Instr) (d : XReg) (c : BitVec 12) (sync : Bool) (s : State) : Out :=
  finish ((ctlReady i c.toNat sync s).bind fun _ s =>
    (awaitRegs [d.toNat] [] s).bind fun _ s => .ok () (writeX 4 d.toNat (readCtl c.toNat s) s))

/-- CWR, CSET and CCLR: `f` gives the value for the RW fields and for the W1C fields from the old value and x[s]. -/
def writeControl (i : Instr) (xs : XReg) (c : BitVec 12) (f : Word → Word → Word × Word) (s : State) : Out :=
  finish ((ctlReady i c.toNat true s).bind fun _ s =>
    (awaitRegs [xs.toNat] [] s).bind fun _ s =>
      let w := s.hart.getX xs.toNat
      if c = 0x102 then tlbInvalidate (wbits w 0 2) (BitVec.ofNat 16 (wbits w 48 16)) (wbits w 12 36 * 4096) s
      else
        let p := f (readCtl c.toNat s) w
        (writeCtl c.toNat p.1 p.2 s).bind fun _ s => .ok () (retireHere 4 s))

/-- CRD (R258). -/
def execCrd (d : XReg) (c : BitVec 12) (s : State) : Out := readControl (.crd d c) d c false s

/-- CRD.sync of AMAXn (R197). -/
def execCrdSync (d : XReg) (c : BitVec 12) (s : State) : Out := readControl (.crdSync d c) d c true s

/-- CWR (R258). -/
def execCwr (xs : XReg) (c : BitVec 12) (s : State) : Out := writeControl (.cwr xs c) xs c (fun _ w => (w, w)) s

/-- CSET (R258). -/
def execCset (xs : XReg) (c : BitVec 12) (s : State) : Out :=
  writeControl (.cset xs c) xs c (fun old w => (old ||| w, w)) s

/-- CCLR (R258). -/
def execCclr (xs : XReg) (c : BitVec 12) (s : State) : Out :=
  writeControl (.cclr xs c) xs c (fun old w => (old &&& ~~~w, 0)) s

/-! Rows of CWR with a value of their own: the operands are in the input -/

/-- TLBINV kind 0: one VA in an ASID, with global entries for it (R168). -/
def execTlbinvVa (s : State) : Out := finish (tlbInvalidate 0 s.input.asid (s.input.va.toNat * 4096) s)

/-- TLBINV kind 1: all of an ASID but global entries (R168). -/
def execTlbinvAsid (s : State) : Out := finish (tlbInvalidate 1 s.input.asid (s.input.va.toNat * 4096) s)

/-- TLBINV kind 2: all but global entries (R168). -/
def execTlbinvAllNonglobal (s : State) : Out := finish (tlbInvalidate 2 s.input.asid (s.input.va.toNat * 4096) s)

/-- TLBINV kind 3: every entry (R168). -/
def execTlbinvAll (s : State) : Out := finish (tlbInvalidate 3 s.input.asid (s.input.va.toNat * 4096) s)

/-- RSTAT.STOP written 1: a stopped recursion is abandoned (R105). -/
def execRstatStopClear (s : State) : Out := .next (retireHere 4 (s.modHart Hart.abandon))

/-- STATUS.V written 1: the held record of the selected bank is cleared (R228). -/
def execMcStatusClear (s : State) : Out :=
  let b := s.hart.run.mcsel.toNat
  .next (retireHere 4 (s.setBank s.here b ((s.bank s.here b).writeStatus s.input.value true)))

/-- NOTECH written (R171, R172). -/
def execNotechWrite (s : State) : Out :=
  .next (retireHere 4 (s.modDie (dieOf s.here) fun d => { d with heat := d.heat.writeNotech s.input.value }))

end Sys2Proof.Machine
end

