-- ==== Sys2Proof/Machine/Engines.lean ====
section
/-! DEFINITION. Engine words and tokens, streams, channels, and the recursion instructions of the front (R107, R108, R145 to
R156, R261, R262, R264, R273). -/

namespace Sys2Proof.Machine

/-! ENQ, DEQ and DEQT (R154, R262, R264) -/

/-- Malformation of a copy command (R155, R156); `slot` is the slot size of its channel, where there is one. -/
def copyMalformed (w : List Word) (slot : Option Nat) : Bool :=
  let w0 := w.getD 0 0
  let len := (w.getD 3 0).toNat
  decide (2 ≤ wbits w0 0 2) || wbits w0 2 2 != 0 || wbits w0 4 2 == 3 || wbits w0 6 2 == 3 || wbits w0 22 42 != 0 ||
    len == 0 || decide (2 ^ 40 ≤ len) ||
    (w0.getLsbD 17 && match slot with
      | some n => decide (n < len)
      | none => false)

/-- A breach of the limits of a collective command (R239). -/
def collMalformed (w : List Word) : Bool :=
  let w0 := w.getD 0 0
  let kind := wbits w0 2 3
  let ty := wbits w0 20 4
  let n := 4 * (wbits w0 24 6 + 1)
  decide (5 < kind) || wbits w0 5 3 != 0 || wbits w0 17 3 != 0 || !([2, 3, 6, 7, 13, 14].contains ty) ||
    wbits w0 30 2 != 0 || decide (n ≤ wbits w0 32 8) || wbits w0 40 24 != 0 || (decide (3 ≤ kind) && decide (8 ≤ ty)) ||
    (w.getD 3 0).toNat == 0 || decide (2 ^ 32 ≤ (w.getD 3 0).toNat)

/-- A completion token (R156): status, tag, address. -/
def tokenWord (status tag addr : Nat) : Word := word (status + tag % 256 * 2 ^ 8 + addr % 2 ^ 48 * 2 ^ 16)

/-- A token is posted to a hart (R156). -/
def postToken (c h : Nat) (coll : Bool) (t : Word) (s : State) : State :=
  s.modHartAt c h fun x =>
    if coll then { x with ms := { x.ms with collTokens := x.ms.collTokens ++ [t] } }
    else { x with ms := { x.ms with copyTokens := x.ms.copyTokens ++ [t] } }

/-- The channel of a number, when the current hart's group owns it (R153). -/
def ownChannel (n : Nat) (s : State) : Option Channel :=
  match lookup (s.core s.here).channels n with
  | none => none
  | some ch => if s.hart.id.group == some ch.group then some ch else none

def State.setChannel (s : State) (c n : Nat) (ch : Channel) : State :=
  s.modCore c fun k => { k with channels := insert k.channels n ch }

/-- Bytes of a slot. -/
def Channel.slotSize (ch : Channel) : Nat := 2 ^ (ch.sz + 6)

/-- A command joins the last 16 that an engine accepted (R243). -/
def logCommand (r : CmdRecord) (l : List CmdRecord) : List CmdRecord := (l ++ [r]).drop (l.length + 1 - 16)

def logCopy (w : List Word) (st : CmdState) (s : State) : State :=
  s.modCore s.here fun k => { k with copyLog := logCommand ⟨w, s.curCore, s.curHart, s.hart.ms.copyOrder, st⟩ k.copyLog }

/-- The copy engine accepts a whole command, or answers a malformed one with its token (R156, R261). -/
def acceptCopy (w : List Word) (s : State) : State :=
  let w0 := w.getD 0 0
  let tag := wbits w0 8 8
  let n := wbits w0 18 4
  if copyMalformed w ((lookup (s.core s.here).channels n).map Channel.slotSize) then
    logCopy w (.done 0x0F) (postToken s.here s.me false (tokenWord 0x0F tag 0) s)
  else if w0.getLsbD 17 && (ownChannel n s).isNone then logCopy w (.done 0x0E) (postToken s.here s.me false (tokenWord 0x0E tag 0) s)
  else
    let (pt, asid, sup) := s.hart.ms.copyCtx
    logCopy w .waiting <| s.modCore s.here fun k =>
      { k with copyFifo := k.copyFifo ++ [⟨w, s.curHart, (s.hart.id.group).getD 0, pt, asid, sup, false,
        s.hart.ms.copyOrder, BitVec.ofNat 6 s.hart.tenantNo⟩] }

/-- The collective engine of the die takes a whole command. A malformed one is answered at once, and the other participants of
its operation when that forms (R156, R158, R239; log entry 43). -/
def acceptColl (w : List Word) (s : State) : State :=
  let h := s.hart
  let bad := collMalformed w
  let s := s.modDie (dieOf s.here) fun d =>
    { d with
      coll := d.coll ++ [⟨w, s.curCore, s.curHart, (h.id.group).getD 0, h.ms.ptbase, h.ms.asid, h.tr.sup, false, bad,
        BitVec.ofNat 6 h.tenantNo⟩]
      collLog := logCommand ⟨w, s.curCore, s.curHart, 0, if bad then .done 0x0F else .waiting⟩ d.collLog }
  if bad then postToken s.here s.me true (tokenWord 0x0F (wbits (w.getD 0 0) 8 8) 0) s else s

/-- Commands that an engine holds for the current core (R154). -/
def fifoLength (coll : Bool) (s : State) : Nat :=
  if coll then ((s.die (dieOf s.here)).coll.filter fun q => q.core == s.curCore && !q.answered).length
  else (s.core s.here).copyFifo.length

/-- ENQ (R154). The first word of a command waits until every earlier access of the hart has performed, one that a trap holds too (R176,
note 5; R220). -/
def execEnq (a : XReg) (u : BitVec 4) (s : State) : Out :=
  let coll := u == 1
  finish ((noFerry (.enq a u) s).bind fun _ s =>
    (awaitRegs [a.toNat] [] s).bind fun _ s =>
      if 16 ≤ fifoLength coll s then .wait 8 s
      else
        let before := if coll then s.hart.ms.collWords else s.hart.ms.copyWords
        (if before.isEmpty then (followVector 7 VEntry.memory s).bind fun _ s =>
            (awaitHeld 7 VEntry.memory s).bind fun _ s => releaseHere 7 s
          else .ok () s).bind fun _ s =>
          let h := s.hart
          let w := before ++ [h.getX a.toNat]
          let full := w.length == 4
          let keep := if full then [] else w
          let s := s.modHart fun h =>
            { h with ms := if coll then { h.ms with collWords := keep }
              else { h.ms with
                copyWords := keep
                copyCtx := if before.isEmpty then (h.ms.ptbase, h.ms.asid, h.tr.sup) else h.ms.copyCtx
                copyOrder := if before.isEmpty then (s.core s.here).copyCount else h.ms.copyOrder } }
          let s := if before.isEmpty && !coll then s.modCore s.here fun k => { k with copyCount := k.copyCount + 1 } else s
          let s := if full then (if coll then acceptColl w s else acceptCopy w s) else s
          .ok () (retireHere 4 s))

/-- Whether a command of the current hart is incomplete on a unit. -/
def incomplete (coll : Bool) (s : State) : Bool :=
  if coll then (s.die (dieOf s.here)).coll.any fun q => q.core == s.curCore && q.hart == s.curHart && !q.answered
  else (s.core s.here).copyFifo.any fun q => q.hart == s.curHart

def tokensOf (coll : Bool) (h : Hart) : List Word := if coll then h.ms.collTokens else h.ms.copyTokens

/-- The oldest token is popped into x[d], an acquire of what its command wrote (R154). -/
def popToken (coll : Bool) (d : XReg) (t : Word) (s : State) : State :=
  dropConst (s.modHart fun h =>
    { (h.setX d.toNat t).retire 4 with
      ms := if coll then { h.ms with collTokens := h.ms.collTokens.drop 1 }
            else { h.ms with copyTokens := h.ms.copyTokens.drop 1 } })

/-- Whether a command of the current hart with TOK = 1 is incomplete on a unit: its token is due (R262). -/
def tokenDue (coll : Bool) (s : State) : Bool :=
  if coll then (s.die (dieOf s.here)).coll.any fun q =>
    q.core == s.curCore && q.hart == s.curHart && !q.answered && (q.words.getD 0 0).getLsbD 16
  else (s.core s.here).copyFifo.any fun q => q.hart == s.curHart && (q.words.getD 0 0).getLsbD 16

/-- The DEQ of the current hart is one that found no token due, or not. -/
def noteDeq (b : Bool) (s : State) : State := s.modHart fun h => { h with run := { h.run with deq := b } }

/-- DEQ (R262). One that finds no token due waits until every incomplete command of the hart completes, and only then pops a
failure token that they have posted. -/
def execDeq (d : XReg) (u : BitVec 4) (s : State) : Out :=
  let coll := u == 1
  finish ((noFerry (.deq d u) s).bind fun _ s =>
    (awaitRegs [d.toNat] [] s).bind fun _ s =>
      (awaitAcquire s).bind fun _ s =>
        if s.hart.run.deq && incomplete coll s then .wait 8 s
        else
          match tokensOf coll s.hart with
          | t :: _ => .ok () (noteDeq false (popToken coll d t s))
          | [] =>
            if tokenDue coll s then .wait 8 s
            else if incomplete coll s then .wait 8 (noteDeq true s)
            else raise (engineExc 21 0) s)

/-- A VTEST of k0 that has not delivered loses its result (R262). -/
def Hart.forgetK0 (h : Hart) : Hart :=
  let f : VEntry → VEntry := fun v => if v.dueK == some 0 then { v with instr := .nop } else v
  { h with vec := { h.vec with viq := h.vec.viq.map f, held := h.vec.held.map f } }

/-- DEQT (R154, R262). -/
def execDeqt (d : XReg) (u : BitVec 4) (s : State) : Out :=
  let coll := u == 1
  finish ((noFerry (.deqt d u) s).bind fun _ s =>
    (awaitRegs [d.toNat] [] s).bind fun _ s =>
      (awaitAcquire s).bind fun _ s =>
        match tokensOf coll s.hart with
        | t :: _ => .ok () ((popToken coll d t s).modHart fun h => h.forgetK0.setK 0 true)
        | [] => .ok () (s.modHart fun h => ((h.setX d.toNat 0).forgetK0.setK 0 false).retire 4))

/-! Streams (R145, R146, R273) -/

/-- Whether the captured loop of the hart uses a slot (R273). -/
def loopUses (h : Hart) (slot : Nat) : Bool :=
  match h.lp.loop with
  | none => false
  | some l => l.body.any fun v => v.binds.any fun b => b.1 == slot

/-- A stream instruction waits for a loop that uses its slot. -/
def streamGate (i : Instr) (slot : Nat) (s : State) : Res Unit :=
  (noFerry i s).bind fun _ s => if loopUses s.hart slot then .wait 11 s else .ok () s

/-- The descriptor that 64 bytes hold, and the byte offset of its first field that is refused (R145, R151). -/
def parseStream (w mspace : Nat) : StreamDesc × Option Nat :=
  let f : Nat → Nat → Nat := fun off n => bits w (8 * off) (8 * n)
  let chv := f 10 1 / 2 % 2 = 1
  let d : StreamDesc :=
    { base := f 0 8
      space := if chv then 0 else if f 8 1 % 4 = 3 then mspace else f 8 1 % 4
      ty := BitVec.ofNat 4 (f 9 1)
      store := f 10 1 % 2 = 1
      chv := chv
      ch := f 11 1 % 16
      levels := (indices 6).map fun j => (f (16 + 8 * j) 4, signedOf 32 (f (20 + 8 * j) 4)) }
  let size : Int := (typeBits (f 9 1 % 16) / 8 : Nat)
  let checks : List (Nat × Bool) :=
    [(0, f 6 2 == 0), (8, decide (f 8 1 < 4)), (9, decide (f 9 1 < 16) && f 9 1 != 10 && f 9 1 != 15),
     (10, decide (f 10 1 < 4)), (11, decide (f 11 1 < 16)), (12, f 12 4 == 0)] ++
    d.levels.zipIdx.flatMap fun (l, j) => [(16 + 8 * j, l.1 != 0), (20 + 8 * j, size == 0 || l.2 % size == 0)]
  (d, (checks.find? fun e => !e.2).map (·.1))

/-- The pass that a new descriptor of a slot begins with: that of the stream before it when both append to one channel, so that a
tail slot that it has reserved is filled at the end of the new pattern (R150, R273); else a new one. -/
def passOf (h : Hart) (n : Nat) (d : StreamDesc) : Nat :=
  match lookup h.ms.streams n with
  | none => h.ms.passes
  | some q => if d.store && d.chv && q.desc.store && q.desc.chv && q.desc.ch == d.ch then q.pass else h.ms.passes

/-- A slot takes a descriptor (R146). -/
def Hart.define (h : Hart) (n : Nat) (d : StreamDesc) : Hart :=
  { h with ms := { h.ms with streams := insert h.ms.streams n ⟨d, 0, none, passOf h n d⟩, passes := h.ms.passes + 1 } }

/-- SDEF (R146). -/
def execSdef (a : XReg) (n : BitVec 3) (s : State) : Out :=
  finish ((streamGate (.sdef a n) n.toNat s).bind fun _ s =>
    (awaitRegs [a.toNat] [] s).bind fun _ s =>
      let off := s.hart.getX a.toNat
      let bound := match lookup s.hart.ms.streams n.toNat with
        | some q => q.bound.isSome
        | none => false
      if bound then raise (streamExc 3 n.toNat) s
      else
        (aligned off 64 s).bind fun _ s =>
          (lsHere off 64 false s).bind fun p s =>
            (awaitHere p 64 s).bind fun _ s =>
              (loadPlace s.here p 64 s).bind fun w s =>
                let (d, bad) := parseStream w s.hart.vec.mspace.toNat
                match bad with
                | some f => raise (streamExc 2 f) s
                | none =>
                  if d.chv && (ownChannel d.ch s).isNone then raise (streamExc 3 d.ch) s
                  else
                    .ok () (s.modHart fun h => (h.define n.toNat d).retire 4))

/-- SBIND (R146). -/
def execSbind (v : VReg) (n : BitVec 3) (s : State) : Out :=
  finish ((streamGate (.sbind v n) n.toNat s).bind fun _ s =>
    let taken := s.hart.ms.streams.any fun q => q.2.bound == some v
    match lookup s.hart.ms.streams n.toNat with
    | some q =>
      if q.bound.isSome || taken then raise (streamExc 3 n.toNat) s
      else
        .ok () (s.modHart fun h =>
          { h.retire 4 with ms := { h.ms with streams := insert h.ms.streams n.toNat { q with bound := some v } } })
    | none => raise (streamExc 3 n.toNat) s)

/-- SUNB (R146). -/
def execSunb (n : BitVec 3) (s : State) : Out :=
  finish ((streamGate (.sunb n) n.toNat s).bind fun _ s =>
    .ok () (s.modHart fun h =>
      match lookup h.ms.streams n.toNat with
      | some q => { h.retire 4 with ms := { h.ms with streams := insert h.ms.streams n.toNat { q with bound := none } } }
      | none => h.retire 4))

/-! Channels (R152, R153, R261) -/

/-- Whether a stream of some hart of a group is bound to a channel. -/
def streamOn (c g n : Nat) (s : State) : Bool :=
  (s.core c).harts.any fun h => h.2.id.group == some g && h.2.run.running &&
    h.2.ms.streams.any fun q => q.2.bound.isSome && q.2.desc.chv && q.2.desc.ch == n

/-- Whether CHDEF finds a channel in use (R261). -/
def channelInUse (n : Nat) (s : State) : Bool :=
  match lookup (s.core s.here).channels n with
  | none => false
  | some ch =>
    s.hart.id.group != some ch.group || ch.filled != 0 || ch.free != ch.nslot || !ch.resv.isEmpty ||
      streamOn s.here ch.group n s

/-- CHDEF (R152, R261). -/
def execChdef (a : XReg) (n : BitVec 4) (s : State) : Out :=
  finish ((noFerry (.chdef a n) s).bind fun _ s =>
    (awaitRegs [a.toNat] [] s).bind fun _ s =>
      let w := s.hart.getX a.toNat
      let base := wbits w 0 32
      let sz := wbits w 40 4
      let nslot := wbits w 32 8 + 1
      let slot := 2 ^ (sz + 6)
      if nslot = 1 then raise (streamExc 2 32) s
      else if 10 < sz then raise (streamExc 2 40) s
      else if wbits w 44 20 ≠ 0 then raise (streamExc 2 44) s
      else if channelInUse n.toNat s then raise (streamExc 3 n.toNat) s
      else if base % slot ≠ 0 then raise (misalign (word base)) s
      else if s.arenaSize < base + nslot * slot then raise (boundExc (Nat.max base s.arenaSize) 0 false) s
      else
        let ch : Channel :=
          { group := (s.hart.id.group).getD 0, base := base, nslot := nslot, sz := sz, filled := 0, free := nslot,
            head := 0, tail := 0, marks := [], resv := [] }
        .ok () (retireHere 4 (s.setChannel s.here n.toNat ch)))

/-- The channel that an instruction uses, or STREAM reason 3 (R261). -/
def useChannel (n : Nat) (s : State) : Res Channel :=
  match ownChannel n s with
  | none => raise (streamExc 3 n) s
  | some ch => .ok ch s

/-- The slot that the current hart has reserved with TAIL. -/
def Channel.reserved (ch : Channel) (h : HartNo) : Option Nat := (ch.resv.find? fun r => r.2 == h).map (·.1)

/-- Whether an entry of the VIQ, or an instruction of the captured loop that it stands for, pops (`store` false) or appends
through a channel. -/
def VEntry.uses (h : Hart) (store : Bool) (n : Nat) (v : VEntry) : Bool :=
  let on : StreamDesc → Bool := fun d => d.store == store && d.chv && d.ch == n
  (v.strips.any fun t => on t.desc) ||
  match v.instr, h.lp.loop with
  | .loop _ _, some l => l.body.any fun b => b.binds.any fun q => match lookup h.ms.streams q.1 with
    | some t => on t.desc
    | none => false
  | _, _ => false

/-- Slots are taken and reserved in program order (R152): a front instruction waits for the pops or the appends of its channel
that are in the VIQ. -/
def followChannel (store : Bool) (n : Nat) (s : State) : Res Unit :=
  if s.hart.vec.viq.any fun v => v.uses s.hart store n then .wait 8 s else .ok () s

/-- CHPUT (R152): the write and the fill join the hart's stores in program order, as a release of every earlier access (R153; R176,
note 3); one that a trap holds is waited for (R220). -/
def execChput (a : XReg) (n : BitVec 4) (s : State) : Out :=
  finish ((noFerry (.chput a n) s).bind fun _ s =>
    (awaitRegs [a.toNat] [] s).bind fun _ s =>
      (useChannel n.toNat s).bind fun ch s =>
      (awaitHeld 7 VEntry.memory s).bind fun _ s =>
        let put : Nat → State → Res Unit := fun slot s =>
          (lsHere (word (slotBase ch slot)) 8 true s).bind fun p s =>
            .ok () (retireHere 4 (enqueueFront s.here s.me (releaseFollows s)
              { cells := cellsOf p 8 (s.hart.getX a.toNat).toNat, fill := some (n.toNat, slot) } s))
        match ch.reserved s.curHart with
        | some slot =>
          put slot (s.setChannel s.here n.toNat { ch with resv := ch.resv.filter fun r => r.2 != s.curHart })
        | none =>
          (followChannel true n.toNat s).bind fun _ s =>
            if ch.free = 0 then .wait 8 s else put ch.tail (reserveSlot s.here n.toNat none s))

/-- The head slot is taken, after the earlier loads of its bytes by the hart (R153). -/
def takeHead (ch : Channel) (n : Nat) (s : State) : Res Unit :=
  (lsHere (word (slotBase ch ch.head)) ch.slotSize false s).bind fun p s =>
    if loadDue [(p, ch.slotSize)] s then .wait 15 s else .ok () (takeSlot s.here n s)

/-- Word 0 of the head slot, after the hart's earlier stores to it. Channel operations keep their own rules under DET
(R184). -/
def headWord (ch : Channel) (s : State) : Res Nat :=
  (lsHere (word (slotBase ch ch.head)) 8 false s).bind fun p s =>
    (awaitThese s.here s.me false s.hart.ms.stq [(p, 8)] s).bind fun _ s =>
      (awaitVector false p 8 s).bind fun _ s => loadPlace s.here p 8 s

/-- CHGET with an operation: 0 GET, 1 PEEK, 2 TAKE, 3 TAIL (R152, R261). -/
def chget (op : Nat) (d : XReg) (n : Nat) (s : State) : Res Unit :=
  (awaitRegs [d.toNat] [] s).bind fun _ s =>
    (useChannel n s).bind fun ch s =>
      if op = 3 then
        match ch.reserved s.curHart with
        | some slot => .ok () (writeX 4 d.toNat (word (slotBase ch slot)) s)
        | none =>
          (followChannel true n s).bind fun _ s =>
            if ch.free = 0 then .wait 8 s
            else .ok () (writeX 4 d.toNat (word (slotBase ch ch.tail)) (reserveSlot s.here n (some s.me) s))
      else
        (followChannel false n s).bind fun _ s =>
          if !ch.marks.contains ch.head then .wait 8 s
          else if op = 0 then
            (headWord ch s).bind fun w s =>
              (takeHead ch n s).bind fun _ s => .ok () (writeX 4 d.toNat (word w) (dropConst s))
          else
            ((awaitAcquire s).bind fun _ s => if op = 2 then takeHead ch n s else .ok () s).bind fun _ s =>
              .ok () (writeX 4 d.toNat (word (slotBase ch ch.head)) (dropConst s))

/-- CHGET: x[a][1:0] selects the operation (R152). -/
def execChgetGet (d a : XReg) (n : BitVec 4) (s : State) : Out :=
  finish ((noFerry (.chgetGet d a n) s).bind fun _ s =>
    (awaitRegs [a.toNat] [] s).bind fun _ s => chget (wbits (s.hart.getX a.toNat) 0 2) d n.toNat s)

/-- CHGET as PEEK; its operands are in the input. -/
def execChgetPeek (s : State) : Out :=
  finish ((noFerry (.chgetGet s.input.d s.input.a s.input.n) s).bind fun _ s => chget 1 s.input.d s.input.n.toNat s)

/-- CHGET as TAKE. -/
def execChgetTake (s : State) : Out :=
  finish ((noFerry (.chgetGet s.input.d s.input.a s.input.n) s).bind fun _ s => chget 2 s.input.d s.input.n.toNat s)

/-- CHGET as TAIL. -/
def execChgetTail (s : State) : Out :=
  finish ((noFerry (.chgetGet s.input.d s.input.a s.input.n) s).bind fun _ s => chget 3 s.input.d s.input.n.toNat s)

/-! Recursion -/

/-- RDEF (R107). -/
def execRdef (a : XReg) (s : State) : Out :=
  finish ((noFerry (.rdef a) s).bind fun _ s =>
    (awaitRegs [a.toNat] [] s).bind fun _ s =>
      (defineObject (s.hart.getX a.toNat) s).bind fun _ s => .ok () (retireHere 4 s))

/-- RRUN (R108): field a = 0 resumes. -/
def execRrun (a : XReg) (s : State) : Out :=
  finish ((noFerry (.rrun a) s).bind fun _ s =>
    (awaitRegs [a.toNat] [] s).bind fun _ s => runRecursion (a == 0) (s.hart.getX a.toNat) s)

end Sys2Proof.Machine
end

