-- ==== Sys2Proof/Machine/Grants.lean ====
section
/-! DEFINITION. Strips, lane grants, fork and join, captured loops, tile claims and shapes, and the ferry instructions (R58,
R61 to R68, R85 to R87, R186, R188, R270, R286, R289, R290, R300). -/

namespace Sys2Proof.Machine

/-! VSETL (R58) -/

/-- imm12 of VSETL: type2, S and type. -/
def vsetlWord (t2 : BitVec 4) (sc : BitVec 1) (ty : BitVec 4) : Word :=
  word (t2.toNat * 2 ^ 8 + sc.toNat * 2 ^ 4 + ty.toNat)

/-- VTYPE and VL of a request. -/
def Hart.setVl (h : Hart) (req : Nat) (vt : Word) : Hart :=
  { h with vec := { h.vec with vtype := vt, vl := Nat.min req (vlMax h.vec.grant (wbits vt 0 4)) } }

/-- VSETL (R58). -/
def execVsetl (d a : XReg) (t2 : BitVec 4) (sc : BitVec 1) (ty : BitVec 4) (s : State) : Out :=
  finish ((noFerry (.vsetl d a t2 sc ty) s).bind fun _ s =>
    (awaitRegs [d.toNat, a.toNat] [] s).bind fun _ s =>
      let vt := vsetlWord t2 sc ty
      if ty = 15 ∨ t2 = 15 then raise (formatExc vt 0x001) s
      else
        .ok () (s.modHart fun h =>
          let h := h.setVl (h.getX a.toNat).toNat vt
          (h.setX d.toNat (word h.vec.vl)).retire 4))

/-! VGRANT (R61, R289) -/

/-- The waits, checks and settle of VGRANT. -/
def grantGate (s : State) : Res Unit :=
  (waitVector 5 s).bind fun _ s => (outsideBatch s).bind fun _ s => noWindow s

/-- Every vector register of a hart reads zero and is present, and every VHW is 0. -/
def clearVectors (c h : Nat) (s : State) : State :=
  (dropEntries c h s).modHartAt c h fun x =>
    { x with vec := { x.vec with v := [], side := [], written := [] } }.mapEntries fun v => { v with old := none }

/-- VGRANT (R61). -/
def execVgrant (d a : XReg) (s : State) : Out :=
  finish ((noFerry (.vgrant d a) s).bind fun _ s =>
    (awaitRegs [d.toNat, a.toNat] [] s).bind fun _ s =>
      (grantGate s).bind fun _ s =>
        (settleHere s).bind fun _ s =>
          let h := s.hart
          let want := Nat.min (Nat.max (h.getX a.toNat).toNat 1) 64
          let pool := (s.core s.here).pool
          let grant := if want < h.vec.grant then want else h.vec.grant + Nat.min (want - h.vec.grant) pool
          let s := s.modCore s.here fun k => { k with pool := pool + h.vec.grant - grant }
          let s := clearVectors s.here s.me s
          .ok () (s.modHart fun h =>
            ({ h with vec := { h.vec with grant := grant, vl := 0 } }.setX d.toNat (word grant)).retire 4))

/-! VFORK (R63, R286) -/

/-- The lowest-numbered free hart of a group on a core. -/
def freeHart (c : Nat) (g : Group) (s : State) : Option Nat :=
  (indices 4).find? fun n => g.harts.contains (BitVec.ofNat 3 n) && !(s.hartAt c n).run.running

/-- The lowest rank that no running hart of a group has (R203). -/
def freeRank (c : Nat) (g : Group) (s : State) : Nat :=
  ((indices 4).find? fun r => !g.harts.any fun n =>
    (s.hartAt c n.toNat).run.running && (s.hartAt c n.toNat).id.rank.toNat == r).getD 0

/-- The bytes of the first `n` lanes of every register are kept. -/
def Hart.keepLanes (h : Hart) (n : Nat) : Hart :=
  { h with vec := { h.vec with
      v := mapValues (fun _ x => BitVec.ofNat 16384 (x.toNat % 2 ^ (256 * n))) h.vec.v
      side := mapValues (fun _ x => BitVec.ofNat 2048 (x.toNat % 2 ^ (32 * n))) h.vec.side
      written := mapValues (fun _ b => Nat.min b (32 * n)) h.vec.written
      vl := Nat.min h.vec.vl (vlMax n (wbits h.vec.vtype 0 4))
      grant := n } }

/-- A child of hart `h` on hart `n` of the core, with its lanes and rank (R63, R286): what R63 does not name takes the
value of admission. -/
def childOf (h : Hart) (me : HartNo) (bt d lanes rank n : Nat) : Hart :=
  let r := Hart.reset
  let c : Hart :=
    { r with
      pc := (h.getB bt).target
      x := h.x
      k := h.k
      b := mapValues (fun _ t => { t with pf := if t.v then 1 else 0, buf := [], pages := [] }) h.b
      vec := { r.vec with vtype := h.vec.vtype, mspace := h.vec.mspace, grant := lanes, lag := h.vec.lag }
      fp := { r.fp with ctl := h.fp.ctl, seed := h.fp.seed, ric := h.fp.ric }
      lp := { r.lp with cthr := h.lp.cthr, det := h.lp.det }
      tr := { r.tr with tbase := h.tr.tbase, sup := h.tr.sup }
      id := { r.id with rank := BitVec.ofNat 2 rank, tenant := h.id.tenant, launchId := h.id.launchId, idx := h.id.idx,
                        args := h.id.args, group := h.id.group, parent := some me, known := rank * 16 + n }
      ms := { r.ms with ptbase := h.ms.ptbase, asid := h.ms.asid }
      run := { r.run with running := true, arrived := h.run.arrived } }
  c.setX d 0

/-- VFORK (R63, R286). -/
def execVfork (d : XReg) (bt : BReg) (s : State) : Out :=
  finish ((noFerry (.vfork d bt) s).bind fun _ s =>
    (awaitRegs [d.toNat] [] s).bind fun _ s =>
      (grantGate s).bind fun _ s =>
        (prepared bt s).bind fun _ s =>
          (settleHere s).bind fun _ s =>
            let h := s.hart
            let c := s.here
            let free := match s.myGroup with
              | none => none
              | some g => (freeHart c g s).map fun n => (g, n)
            match if h.vec.grant < 2 then none else free with
            | none => .ok () (writeX 4 d.toNat (BitVec.allOnes 64) s)
            | some (g, n) =>
              let lanes := h.vec.grant / 2
              let rank := freeRank c g s
              let child := childOf h s.curHart bt.toNat d.toNat lanes rank n
              let old := s.hartAt c n
              let child := { child with run := { child.run with claimed := old.run.claimed } }
              let hid := rank * 16 + n
              let s := (dropEntries c s.me (dropEntries c n s)).setHartAt c n child
              .ok () (s.modHart fun h =>
                let h := h.keepLanes (h.vec.grant - lanes)
                ({ h with id := { h.id with kids := h.id.kids ++ [hid] } }.setX d.toNat (word hid)).retire 4))

/-! VJOIN (R64, R290) -/

/-- BARRIER (R221). -/
def barrierExc (v : Word) : Exc := { code := 0x10, info0 := v }

/-- The lanes of an ending child are parked for its parent, behind those that are parked already, or return to the pool when the
parent has exited. -/
def parkLanes (c h : Nat) (s : State) : State :=
  let x := s.hartAt c h
  let hid := x.id.known
  let lanes := x.vec.grant
  match x.id.parent with
  | none => s
  | some p =>
    let q := s.hartAt c p.toNat
    if q.run.running && q.id.group == x.id.group && q.id.kids.contains hid then
      let s := s.modHartAt c p.toNat fun q =>
        { q with id := { q.id with parked := q.id.parked ++ [(hid, lanes)] } }
      s.modHartAt c h fun x => { x with vec := { x.vec with grant := 0 } }
    else s

/-- The child's end (R64). -/
def endChild (s : State) : Res Unit :=
  let h := s.hart
  (check (h.id.parent.isSome && h.id.kids.isEmpty) (barrierExc (h.hartId s.me)) s).bind fun _ s =>
    (waitVector 9 s).bind fun _ s =>
      (settleHere s).bind fun _ s =>
        (releaseHere 7 s).bind fun _ s =>
          let s := s.modHart Hart.count
          .ok () (endHart s.here s.me (parkLanes s.here s.me s))

/-- The parent's collection of a child (R64). -/
def collectChild (a : XReg) (s : State) : Res Unit :=
  let v := s.hart.getX a.toNat
  (check (s.hart.id.kids.any fun k => word k == v) (barrierExc v) s).bind fun _ s =>
    (waitVector 9 s).bind fun _ s =>
      (settleHere s).bind fun _ s =>
        let h := s.hart
        match h.id.parked.find? fun e => e.1 == v.toNat with
        | none => .wait 9 s
        | some (hid, lanes) =>
          .ok () (dropConst (s.modHart fun h =>
            { h with
              vec := { h.vec with grant := h.vec.grant + lanes }
              id := { h.id with kids := h.id.kids.erase hid, parked := h.id.parked.erase (hid, lanes) } }.retire 4))

/-- VJOIN: field a = 0 ends a child, another collects one. -/
def execVjoin (a : XReg) (s : State) : Out :=
  finish ((noFerry (.vjoin a) s).bind fun _ s =>
    (awaitRegs [a.toNat] [] s).bind fun _ s =>
      (outsideBatch s).bind fun _ s =>
        (noWindow s).bind fun _ s => if a = 0 then endChild s else collectChild a s)

/-! LOOP (R65, R66, R270, R300) -/

/-- LOOPBODY (R66, R67). -/
def loopBodyExc (addr : BitVec 48) (index : Word) : Exc := { code := 0x12, info0 := word addr.toNat, info1 := index }

/-- What a captured body may hold (R66). -/
def loopAllows (i : Instr) : Bool :=
  match i with
  | .vadd _ _ _ _
  | .vaddX _ _ _ _
  | .vsub _ _ _ _
  | .vsubX _ _ _ _
  | .vrsub _ _ _ _
  | .vrsubX _ _ _ _
  | .vmul _ _ _ _
  | .vmulX _ _ _ _
  | .vmulh _ _ _ _
  | .vmulhX _ _ _ _
  | .vmulhn _ _ _ _
  | .vmulhnX _ _ _ _
  | .vand _ _ _ _
  | .vandX _ _ _ _
  | .vor _ _ _ _
  | .vorX _ _ _ _
  | .vxor _ _ _ _
  | .vxorX _ _ _ _
  | .vshl _ _ _ _
  | .vshlX _ _ _ _
  | .vshr _ _ _ _
  | .vshrX _ _ _ _
  | .vshra _ _ _ _
  | .vshraX _ _ _ _
  | .vmin _ _ _ _
  | .vminX _ _ _ _
  | .vmax _ _ _ _
  | .vmaxX _ _ _ _
  | .vminn _ _ _ _
  | .vminnX _ _ _ _
  | .vmaxn _ _ _ _
  | .vmaxnX _ _ _ _
  | .vfadd _ _ _ _
  | .vfaddX _ _ _ _
  | .vfsub _ _ _ _
  | .vfsubX _ _ _ _
  | .vfmul _ _ _ _
  | .vfmulX _ _ _ _
  | .vfma _ _ _ _
  | .vfmaX _ _ _ _
  | .vfmin _ _ _ _
  | .vfminX _ _ _ _
  | .vfmax _ _ _ _
  | .vfmaxX _ _ _ _
  | .vfdiv _ _ _ _
  | .vfdivX _ _ _ _
  | .vfrcp _ _ _
  | .vfrsq _ _ _
  | .vfsqrt _ _ _
  | .vfexp _ _ _
  | .vflog _ _ _
  | .vfsin _ _ _
  | .vfcos _ _ _
  | .vmerge _ _ _ _
  | .vmergeX _ _ _ _
  | .vadc _ _ _ _
  | .vadcX _ _ _ _
  | .vsbc _ _ _ _
  | .vsbcX _ _ _ _
  | .vwmul _ _ _ _
  | .vwmulX _ _ _ _
  | .vfcvt _ _ _ _
  | .vfwmul _ _ _ _
  | .vcmp _ _ _ _ _
  | .vcmpX _ _ _ _ _
  | .vfcmp _ _ _ _ _
  | .vfcmpX _ _ _ _ _
  | .mand _ _ _
  | .mor _ _ _
  | .mxor _ _ _
  | .mnot _ _
  | .mshl _ _ _
  | .mset _
  | .mclr _
  | .vgath _ _ _ _
  | .vcomp _ _ _
  | .vxpnd _ _ _
  | .vred _ _ _ _
  | .vscan _ _ _ _
  | .vslideupZero _ _ _ _
  | .vslideupOne _ _ _ _
  | .vslideupKeep _ _ _ _
  | .vslidednZero _ _ _ _
  | .vslidednOne _ _ _ _
  | .vslidednKeep _ _ _ _
  | .vmvs _ _ _
  | .vsplat _ _ _
  | .vld _ _ _ _
  | .vlds _ _ _ _ _
  | .vldx _ _ _ _ _
  | .vst _ _ _ _
  | .vsts _ _ _ _ _
  | .vstx _ _ _ _ _
  | .vamo _ _
  | .vrand _ _
  | .vexit _ _ => true
  | .vsetl d _ _ _ _ => d == 0
  | _ => false

/-- The `n` instructions from an address, with their addresses; none where the bits are no instruction. -/
def fetchBody (cx : Ctx) (va : BitVec 48) (s : State) : Nat → Res (List (BitVec 48 × Option Instr))
  | 0 => .ok [] s
  | n + 1 =>
    (fetchInstr cx va s).bind fun lw s =>
      let i := if lw.1 = 4 then decodeTableWord 32 lw.2 else none
      (fetchBody cx (va + BitVec.ofNat 48 (if lw.1 = 0 then 2 else lw.1)) s n).bind fun rest s => .ok ((va, i) :: rest) s

/-- The body as captured in order on a hart whose VL and VTYPE the body's VSETLs change; FORMAT for the first with a
code of 15. The accesses of the body are pinned when all of it has been captured (pinBody; log entry 13). -/
def captureBody (s : State) : List ((BitVec 48 × Instr) × Nat) → List VEntry → Res (List VEntry)
  | [], done => .ok done s
  | ((pc, i), k) :: rest, done =>
    let h := s.hart
    match i with
    | .vsetl d a t2 sc ty =>
      let vt := vsetlWord t2 sc ty
      if ty = 15 ∨ t2 = 15 then raise { formatExc vt 0x001 with info2 := word k } s
      else
        let e := { capture s (.vsetl d a t2 sc ty) [h.getX a.toNat] with pc := pc }
        captureBody (s.modHart fun h => h.setVl (h.getX a.toNat).toNat vt) rest (done ++ [e])
    | i =>
      let e := { captureFor s i with pc := pc, binds := bindsOf h i }
      captureBody s rest (done ++ [e])

/-- Each consuming body instruction takes its RIC base (R130). -/
def spreadRic (h : Hart) (l : List VEntry) : List VEntry :=
  (l.foldl (fun (acc : List VEntry × Nat) e =>
    if consumesRic h e.instr e.vtype e.fpctl then (acc.1 ++ [{ e with ric := e.ric + word acc.2 }], acc.2 + 1)
    else (acc.1 ++ [e], acc.2)) ([], 0)).1

/-- x registers whose values a body captures. -/
def bodyXs (l : List (BitVec 48 × Instr)) : List Nat :=
  l.flatMap fun p => match p.2 with
    | .vsetl _ a _ _ _ => [a.toNat]
    | i => (usesOf i).xs

/-- The front captures a loop of `n` instructions and dispatches it. -/
def captureLoop (a : XReg) (n : BitVec 4) (s : State) : Res Unit :=
  (noFerry (.loop a n) s).bind fun _ s =>
    (awaitRegs [a.toNat] [] s).bind fun _ s =>
      if s.hart.lp.loop.isSome then .wait 11 s
      else if !s.hart.viqRoom then .wait 2 s
      else
        (outsideBatch s).bind fun _ s =>
          let len := n.toNat + 1
          let first := s.hart.pc + 4
          (fetchBody s.ctx first s len).bind fun fetched s =>
            match fetched.zipIdx.find? fun e => !(match e.1.2 with
              | some i => loopAllows i
              | none => false) with
            | some (p, k) => raise (loopBodyExc p.1 (word k)) s
            | none =>
              let body := fetched.filterMap fun p => p.2.map fun i => (p.1, i)
              (awaitRegs (bodyXs body) [] s).bind fun _ s =>
                let trips := s.hart.getX a.toNat
                let x := s.hart
                match captureBody s body.zipIdx [] with
                | .exc e k _ => .exc e k s
                | r => r.bind fun l s =>
                  let l := spreadRic x l
                  let (l, s) := if trips = 0 then (l, s) else pinBody l s
                  let c := bodyRic x l
                  let e := capture s (.loop a n) [trips]
                  .ok () (s.modHart fun h =>
                    { h with
                      pc := first + BitVec.ofNat 48 (4 * len)
                      fp := { h.fp with ric := h.fp.ric + word c * trips }
                      vec := { h.vec with viq := h.vec.viq ++ [e] }
                      lp := { h.lp with
                        lcnt := trips
                        lbody := word first.toNat
                        llen := BitVec.ofNat 5 len
                        liter := 0
                        loop := some ⟨l, 0, false⟩ }
                      run := { h.run with retired := h.run.retired + 1, why := 0, atBar := false } })

/-- LOOP (R65). -/
def execLoop (a : XReg) (n : BitVec 4) (s : State) : Out :=
  match captureLoop a n s with
  | .ok _ s => if s.hart.vec.lag || decide (1 < s.hart.vec.viq.length) then .next s else stepVector s.here s.me s
  | r => finish r

/-- A VEXIT that the front meets is outside a captured body (R67). -/
def execVexit (m : MReg) (c : BitVec 1) (s : State) : Out :=
  finish ((noFerry (.vexit m c) s).bind fun _ s => raise (loopBodyExc s.hart.pc (BitVec.allOnes 64)) s)

/-! Tile claims and shapes (R186, R188) -/

/-- TSETL (R188). -/
def execTsetl (crew : BitVec 1) (fmtA : BitVec 4) (d a b : XReg) (s : State) : Out :=
  finish ((noFerry (.tsetl crew fmtA d a b) s).bind fun _ s =>
    (awaitRegs [d.toNat, a.toNat, b.toNat] [] s).bind fun _ s =>
      let inGang := match s.myGroup with
        | some g => g.gang.isSome
        | none => false
      let lost := match s.myGroup with
        | some g => (indices 4).find? fun m => match s.gangMember g m with
          | some (_, y) => y.aborted
          | none => false
        | none => none
      if crew = 1 && !inGang then raise (engineExc 25 0) s
      else if crew = 1 && lost.isSome then raise (engineExc 26 (word (lost.getD 0))) s
      else
        let h := s.hart
        let m := Nat.min (h.getX d.toNat).toNat 128
        let n := Nat.min (h.getX a.toNat).toNat (if crew = 1 then 512 else 128)
        let k := Nat.min (h.getX b.toNat).toNat (1024 / tileBits fmtA.toNat)
        .ok () (s.modHart fun h =>
          { (((h.setX d.toNat (word m)).setX a.toNat (word n)).setX b.toNat (word k)).retire 8 with
            tile := { h.tile with m := BitVec.ofNat 8 m, n := BitVec.ofNat 10 n, k := BitVec.ofNat 9 k, crew := crew == 1 } }))

/-- TCLAIM (R186). -/
def execTclaim (a b : XReg) (s : State) : Out :=
  finish ((noFerry (.tclaim a b) s).bind fun _ s =>
    (awaitRegs [a.toNat, b.toNat] [] s).bind fun _ s =>
      let h := s.hart
      let t := (h.getX a.toNat).toNat
      let n := (h.getX b.toNat).toNat
      match h.id.group, s.myGroup with
      | some gn, some g =>
        if h.tile.claim.isSome || decide (g.freeTiles.length < t) || decide (g.freeAccs.length < n) then
          raise (engineExc 24 (word (g.freeTiles.length + g.freeAccs.length * 16))) s
        else
          let ts := g.freeTiles.take t
          let as_ := g.freeAccs.take n
          let s := s.modGroup gn fun y => { y with freeTiles := g.freeTiles.drop t, freeAccs := g.freeAccs.drop n }
          let s := s.modCore s.here fun k =>
            { k with tiles := as_.foldl (fun x q => zeroAcc q x) (ts.foldl (fun x q => zeroTile q x) k.tiles) }
          .ok () (s.modHart fun h =>
            { h.retire 8 with tile := { h.tile with
                claim := some (ts, as_)
                amax := (indices n).foldl (fun m q => insert m q 0) h.tile.amax } })
      | _, _ => raise (engineExc 24 0) s)

/-- Whether an entry of the VIQ is a tile instruction. -/
def VEntry.tileInstr (v : VEntry) : Bool :=
  match v.instr with
  | .tld _ _ _ | .tst _ _ _ | .tldp _ _ _ | .tzero _ | .tmvr _ _ _ | .tmvc _ _ _ | .mma _ _ _ _ _ | .mmaC _ _ _ _ _
  | .mman _ _ _ _ _ | .mdrain _ _ _ _ | .azero _ => true
  | _ => false

/-- TFREE (R186); the tile instructions that a trap holds are earlier ones (R220). -/
def execTfree (s : State) : Out :=
  finish ((noFerry .tfree s).bind fun _ s =>
    if (s.hart.vec.held ++ s.hart.vec.viq).any VEntry.tileInstr then .wait 15 s
    else .ok () (retireHere 8 (releaseClaim s.here s.me s)))

/-! Ferry instructions (R85 to R87) -/

/-- The oldest ready entry of a hart, by SEQ and then by INDEX. -/
def oldestReady (c h : Nat) (s : State) : Option (Nat × LEntry) :=
  oldest c (((s.core c).entries.filter fun e => e.2.hart.toNat == h && e.2.state == .ready).map (·.1)) s

/-- The next entry for a ferry: round robin among the user harts that have a ready one, after the last. -/
def nextReady (c : Nat) (s : State) : Option (Nat × LEntry) :=
  let turn := (s.core c).land.turn
  ((indices 4).filterMap fun i => oldestReady c ((turn + 1 + i) % 4) s).head?

/-- The eight registers of LNGET (R85). -/
def lngetWords (n : Nat) (e : LEntry) : List Word :=
  [word (n + e.hart.toNat * 2 ^ 8 + e.cls.toNat * 2 ^ 10 + e.ty.toNat * 2 ^ 16 + e.rm.toNat * 2 ^ 20 +
     e.en.toNat * 2 ^ 23 + bit e.nft * 2 ^ 28 + e.index.toNat * 2 ^ 32),
   word e.pc.toNat, e.opa, e.opb, e.opc, word e.handler.toNat, word (e.srb.toNat + e.tgt.toNat * 2 ^ 16),
   word e.seq.toNat]

/-- LNGET (R85). -/
def execLnget (d : XReg) (s : State) : Out :=
  finish ((check (isFerry s.me) (privExc (.lnget d)) s).bind fun _ s =>
    let c := s.here
    let give : Nat → LEntry → State → State := fun n e s =>
      s.modHart fun h =>
        let h := (lngetWords n e).zipIdx.foldl (fun h w => h.setX (d.toNat + w.2) w.1) h
        { h.retire 4 with hole := { h.hole with ferry := some n, lastLnget := h.pc } }
    match s.ferryHolds c s.me with
    | some (n, e) => .ok () (give n e s)
    | none =>
      match nextReady c s with
      | none => .wait 15 s
      | some (n, e) =>
        let s := s.setEntry c n { e with state := .inFerry (s.me == 5) }
        let s := s.modCore c fun k => { k with land := { k.land with turn := e.hart.toNat } }
        .ok () (give n e s))

/-- Commits of every hart of a core go on as far as they can. -/
def drainAll (c : Nat) (s : State) : State := sweep c ((indices 4).foldl (fun s h => drain c h s) s)

/-- FILL of an entry with a value and flags, or its poisoning by an enabled trap or a non-finite value (R86). -/
def fillEntry (c n val f : Nat) (s : State) : State :=
  match s.entry? c n with
  | none => s
  | some e =>
    let w := val % 2 ^ e.width
    if f &&& e.en.toNat &&& 15 ≠ 0 then poisonEntry c n 0x09 (f % 16) s
    else if e.nft && isFloat e.dty.toNat && nonFinite e.dty.toNat w then poisonEntry c n 0x09 0x20 s
    else drainAll c (completeEntry c n w (orFlags c e.hart.toNat f s))

/-- The ferry of a number holds no entry any more. -/
def dropHeld (s : State) : State := s.modHart fun h => { h with hole := { h.hole with ferry := none } }

/-- FILL (R86). -/
def execFill (xs a : XReg) (s : State) : Out :=
  finish ((check (isFerry s.me) (privExc (.fill xs a)) s).bind fun _ s =>
    let h := s.hart
    let w := h.getX a.toNat
    let n := wbits w 0 8
    let s := retireHere 4 s
    if (s.ferryHolds s.here s.me).any fun e => e.1 == n then
      let s := dropHeld s
      .ok () (if w.getLsbD 15 then sweep s.here (poisonEntry s.here n (wbits w 16 8) (wbits w 24 8) s)
              else fillEntry s.here n (h.getX xs.toNat).toNat (wbits w 8 5) s)
    else .ok () s)

/-- FTLOAD (R87). Entries 32 to 63, which R87 has read 0 after device reset, take the address as the others do: what one reads as once
FTLOAD has named it is not said (DESIGN CHOICE; log entry 128). -/
def execFtload (xs a : XReg) (s : State) : Out :=
  finish ((needsS (.ftload xs a) s).bind fun _ s =>
    (awaitRegs [xs.toNat, a.toNat] [] s).bind fun _ s =>
      let h := s.hart
      let addr := BitVec.ofNat 48 ((h.getX xs.toNat).toNat / 2 * 2)
      .ok () (retireHere 4 (s.modCore s.here fun k =>
        { k with land := { k.land with fillTable := insert k.land.fillTable (wbits (h.getX a.toNat) 0 6) addr } })))

end Sys2Proof.Machine
end

