-- ==== Sys2Proof/Machine/Wharf.lean ====
section
/-! DEFINITION. The Wharf: launch records and loop tables, acceptance, placement and admission, and the Wharf instructions
LAUNCH, WQRY, GBAR and EXIT (R201 to R215, R306). -/

namespace Sys2Proof.Machine

/-! Records and tables (R201, R202) -/

/-- The record that 64 bytes hold, without its levels, and the byte offset of the first field outside its limits. -/
def parseRecord (w : Nat) : LaunchRec × Option Nat :=
  let f : Nat → Nat → Nat := fun off n => bits w (8 * off) (8 * n)
  let harts := f 49 1 % 8
  let run := f 49 1 / 8 % 8
  let lanes := f 50 1 % 128
  let r : LaunchRec :=
    { entry := word (f 0 8), args := word (f 16 8), waitAddr := word (f 24 8), waitVal := word (f 32 8),
      doneAddr := word (f 40 8), tenant := BitVec.ofNat 6 (f 48 1), prio := BitVec.ofNat 2 (f 48 1 / 64),
      harts := harts, run := run, lanes := lanes, tiles := f 51 1 % 16, accs := f 51 1 / 16 % 8, lsb := f 52 4,
      gang := f 56 1 % 2 = 1, levels := [], seq := 0, sup := false, table := word (f 8 8) }
  let checks : List (Nat × Bool) :=
    [(0, f 0 8 != 0 && f 0 8 % 64 == 0 && f 6 2 == 0), (8, f 8 8 % 8 == 0), (24, f 24 8 % 8 == 0), (40, f 40 8 % 8 == 0),
     (49, decide (1 ≤ harts) && decide (harts ≤ 4) && decide (1 ≤ run) && decide (run ≤ harts) && decide (f 49 1 < 64)),
     (50, decide (1 ≤ lanes) && decide (lanes ≤ 64) && decide (run * lanes ≤ 64) && decide (f 50 1 < 128)),
     (51, decide (r.tiles ≤ 8) && decide (r.accs ≤ 4) && decide (f 51 1 < 128)), (52, decide (r.lsb ≤ Config.lsArena)),
     (56, decide (f 56 1 < 2))] ++ (indices 7).map fun i => (57 + i, f (57 + i) 1 == 0)
  (r, (checks.find? fun e => !e.2).map (·.1))

/-- LTAB of a record. -/
def tableAddr (w : Nat) : Word := word (bits w 64 64)

/-- The 64 bytes of a record (R201). -/
def LaunchRec.image (r : LaunchRec) : List Byte :=
  [r.entry, r.table, r.args, r.waitAddr, r.waitVal, r.doneAddr].flatMap (fun w => natToBytes 8 w.toNat) ++
    [r.prio.toNat * 64 + r.tenant.toNat, r.run * 8 + r.harts, r.lanes, r.accs * 16 + r.tiles].map (BitVec.ofNat 8) ++
    natToBytes 4 r.lsb ++ natToBytes 8 (bit r.gang)

/-- A level word: kind and count, where it is legal by itself. -/
def parseLevel (w : Nat) : Option (Nat × Nat) :=
  let count := w % 2 ^ 32
  let kind := bits w 32 3
  if w / 2 ^ 35 ≠ 0 ∨ count = 0 ∨ 4 < kind ∨ (kind = 2 ∧ count ≠ 4) then none else some (kind, count)

/-- The levels that some words give, or the number of the first word that breaks R202. -/
def parseLevels (l : List Nat) : List (Nat × Nat) × Option Nat :=
  l.zipIdx.foldl (fun (acc : List (Nat × Nat) × Option Nat) e =>
    match acc.2 with
    | some n => (acc.1, some n)
    | none =>
      match parseLevel e.1 with
      | none => (acc.1, some (e.2 + 1))
      | some (k, n) =>
        if 2 ≤ k && acc.1.any (fun q => q.1 == k) then (acc.1, some (e.2 + 1)) else (acc.1 ++ [(k, n)], none)) ([], none)

/-- The levels of a loop table, the header first, or the number of the first word that breaks R202. -/
def parseTable (ws : List Nat) : List (Nat × Nat) × Option Nat :=
  let w := ws.headD 0
  if 1 ≤ w ∧ w ≤ 6 then parseLevels ((ws.drop 1).take w) else ([], some 0)

/-- NLEV of a header, which says how many words are read after it. -/
def levelsIn (w : Nat) : Nat := w % 8

/-- Arena size A of a record's groups. -/
def LaunchRec.arena (r : LaunchRec) : Nat := ceilDiv r.lsb 1024 * 1024

/-- Product of the counts of the levels of some kinds. -/
def LaunchRec.product (r : LaunchRec) (kinds : List Nat) : Nat :=
  (r.levels.filter fun l => kinds.contains l.1).foldl (fun n l => n * l.2) 1

def LaunchRec.hasKind (r : LaunchRec) (k : Nat) : Bool := r.levels.any fun l => l.1 == k

/-- Groups of a launch (R202). -/
def LaunchRec.groups (r : LaunchRec) : Nat := r.product [1, 2, 3]

/-- Units that the Wharf admits: single groups, or W gangs of four. -/
def LaunchRec.units (r : LaunchRec) : Nat := r.product [1, 3]

/-- Groups that one core can hold at once. -/
def LaunchRec.perCore (r : LaunchRec) : Nat :=
  [4 / r.harts, 64 / (r.run * r.lanes), if r.tiles = 0 then 4 else 8 / r.tiles, if r.accs = 0 then 4 else 4 / r.accs,
   if r.arena = 0 then 4 else Config.lsArena / r.arena].foldl Nat.min 4

/-- Whether a launch fits an empty package, when it must be resident as a whole (R205). -/
def LaunchRec.fits (r : LaunchRec) : Bool :=
  if !r.gang then decide (1 ≤ r.perCore)
  else
    match r.levels.find? fun l => l.1 == 3 with
    | none => decide (r.groups ≤ Config.cores * r.perCore)
    | some (_, d) =>
      (indices 4).all fun k =>
        decide (r.groups / d * ((d + 3 - k) / 4) ≤ Config.coresPerDie * r.perCore)

/-! Acceptance -/

/-- Records that a tenant's queues hold. -/
def Tenant.queued (t : Tenant) : Nat := (t.queues.map fun q => q.2.length).sum

/-- A checked record is appended to its tenant's queue, and ACC counts it (R203, R205). -/
def acceptRecord (r : LaunchRec) (s : State) : State :=
  let t := r.tenant.toNat
  let acc := (s.tenant t).acc + 1
  let id := s.wharf.nextId
  let r := { r with seq := acc }
  let s := s.modWharf fun w =>
    { w with nextId := id + 1
             launches := insert w.launches id { record := r, nextGroup := 0, ended := 0, nextIndex := 0, requests := [],
                                                met := false } }
  s.modTenant t fun x =>
    { x with acc := acc, queues := insert x.queues r.prio.toNat (lookupD x.queues r.prio.toNat [] ++ [id]) }

/-- ENGINE of LAUNCH: 32 for the record, 33 for the loop table, 35 for the fit. -/
def launchExc (reason n : Nat) : Exc := engineExc reason (word n)

/-! Placement (R209) -/

/-- Whether the Wharf places groups on a core (R234, R241). -/
def coreOpen (c : Nat) (s : State) : Bool :=
  let p := (s.core c).power
  !p.outOfService && p.test.isNone && p.cur != 4

/-- The groups of a core. -/
def groupsOn (c : Nat) (s : State) : List (Nat × Group) := s.wharf.groups.filter fun g => g.2.core.toNat == c && !g.2.gone

/-- The user harts of a core that no group has reserved. -/
def freeHarts (c : Nat) (s : State) : List HartNo :=
  let taken := (groupsOn c s).flatMap fun g => g.2.harts
  ([0, 1, 2, 3] : List HartNo).filter fun h => !taken.contains h

def freeOf (n : Nat) (taken : List Nat) : List Nat := (indices n).filter fun t => !taken.contains t

def freeTilesOf (c : Nat) (s : State) : List Nat := freeOf 8 ((groupsOn c s).flatMap fun g => g.2.tiles)
def freeAccsOf (c : Nat) (s : State) : List Nat := freeOf 4 ((groupsOn c s).flatMap fun g => g.2.accs)

/-- The lowest run of `n` free LS bytes of a core. -/
def freeArena (c n : Nat) (s : State) : Option Nat :=
  let used := (groupsOn c s).map fun g => (g.2.lsBase, g.2.size)
  ((0 :: used.map fun u => u.1 + u.2).mergeSort (fun a b => decide (a ≤ b))).find? fun b =>
    decide (b + n ≤ Config.lsArena) && used.all fun u => decide (b + n ≤ u.1) || decide (u.1 + u.2 ≤ b) || u.2 == 0

/-- Whether a group of a record fits on a core now. -/
def coreFits (r : LaunchRec) (c : Nat) (s : State) : Bool :=
  coreOpen c s && decide (r.harts ≤ (freeHarts c s).length) && decide (r.run * r.lanes ≤ (s.core c).pool) &&
    decide (r.tiles ≤ (freeTilesOf c s).length) && decide (r.accs ≤ (freeAccsOf c s).length) &&
    (freeArena c r.arena s).isSome

/-- Indices of a unit by level, outermost first, with `m` at the W level: the group's index at C, W and D levels, COUNT
at T and Y levels (R203). -/
def unitIndices (levels : List (Nat × Nat)) (unit m : Nat) : List Nat :=
  (levels.reverse.foldl (fun (acc : List Nat × Nat) l =>
    if l.1 = 2 then (m :: acc.1, acc.2)
    else if l.1 = 1 ∨ l.1 = 3 then (acc.2 % l.2 :: acc.1, acc.2 / l.2)
    else (l.2 :: acc.1, acc.2)) ([], unit)).1

/-- The number of a group, row-major over the C, W and D levels (R202). -/
def groupNumber (levels : List (Nat × Nat)) (idx : List Nat) : Nat :=
  (levels.zip idx).foldl (fun n e => if e.1.1 = 1 ∨ e.1.1 = 2 ∨ e.1.1 = 3 then n * e.1.2 + e.2 else n) 0

/-- The die that a unit must go to, under a D level. -/
def unitDie (r : LaunchRec) (idx : List Nat) : Option Nat :=
  ((r.levels.zip idx).find? fun e => e.1.1 == 3).map fun e => e.2 % 4

/-- A started or reserved hart of a group at admission, every register of it at its reset value where R211 gives no other (R7,
R211); `lag` is a free value (log entry 5). -/
def admittedHart (lag : Bool) (r : LaunchRec) (t : Tenant) (g rank number : Nat) (idx : List Nat) : Hart :=
  let z := Hart.reset
  let on := decide (rank < r.run)
  { z with
    pc := BitVec.ofNat 48 r.entry.toNat
    vec := { z.vec with grant := if on then r.lanes else 0, lag := lag }
    tr := { z.tr with tbase := t.tbase, sup := on && r.sup }
    id := { z.id with
      rank := if on then BitVec.ofNat 2 rank else 0
      tenant := if on then word (r.prio.toNat * 64 + r.tenant.toNat) else 0
      launchId := if on then word (number % 65536 * 2 ^ 32 + r.seq.toNat) else 0
      idx := if on then idx.map word else []
      args := if on then r.args else 0
      group := some g }
    ms := { z.ms with ptbase := t.ptbase, asid := t.asid }
    run := { z.run with running := on } }

/-- A group of a launch is admitted on a core that it fits (R211). -/
def admitGroup (launch : Nat) (r : LaunchRec) (c number : Nat) (gang : Option (Nat × Nat)) (idx : List Nat) (s : State) :
    State :=
  let g := s.wharf.nextId
  let harts := (freeHarts c s).take r.harts
  let base := (freeArena c r.arena s).getD 0
  let tiles := (freeTilesOf c s).take r.tiles
  let accs := (freeAccsOf c s).take r.accs
  let group : Group :=
    { launch := launch, number := number, core := BitVec.ofNat 7 c, harts := harts, lsBase := base, size := r.arena,
      tiles := tiles, accs := accs, freeTiles := tiles, freeAccs := accs, gang := gang,
      admitted := (s.core c).cycles, carried := 0, charged := 0, aborted := false, crewDone := 0,
      crewQueue := [], crewLimit := 0, crewLeft := [], gone := false, victim := false }
  let t := s.tenant r.tenant.toNat
  let (free, s) := freshWord s
  let s := s.modWharf fun w => { w with nextId := g + 1, groups := insert w.groups g group }
  let s := harts.zipIdx.foldl (fun s h =>
    let n := h.1.toNat
    (dropEntries c n s).modHartAt c n fun _ => admittedHart (free.getLsbD h.2) r t g h.2 number idx) s
  let lo := lsPlace c base
  let s := { s with mem := clearPlaces s.mem lo r.arena
                    poison := s.poison.filter fun l => decide (l < lo) || decide (lo + r.arena ≤ l) }
  s.modCore c fun k =>
    { k with
      tiles := accs.foldl (fun x q => zeroAcc q x) (tiles.foldl (fun x q => zeroTile q x) k.tiles)
      pool := k.pool - r.run * r.lanes
      ccache := [] }

/-- The cores in the order in which a unit of a record looks for a place: single cores, or the first cores of crews. -/
def candidates (r : LaunchRec) (idx : List Nat) : List Nat :=
  let cores := (indices Config.cores).filter fun c => match unitDie r idx with
    | none => true
    | some d => dieOf c == d
  if r.hasKind 2 then cores.filter fun c => c % 4 == 0 else cores

/-- One unit of a launch is admitted, when it can be placed now. -/
def admitUnit (launch : Nat) (r : LaunchRec) (unit : Nat) (s : State) : Option State :=
  let idx := unitIndices r.levels unit 0
  if r.hasKind 2 then
    match (candidates r idx).find? fun c => (indices 4).all fun m => coreFits r (c + m) s with
    | none => none
    | some c =>
      some ((indices 4).foldl (fun s m =>
        let idx := unitIndices r.levels unit m
        admitGroup launch r (c + m) (groupNumber r.levels idx) (some (unit, m)) idx s) s)
  else
    match (candidates r idx).find? fun c => coreFits r c s with
    | none => none
    | some c => some (admitGroup launch r c (groupNumber r.levels idx) none idx s)

/-- All units of a GANG launch, or none. -/
def admitAll (launch : Nat) (r : LaunchRec) (s : State) : Option State :=
  (indices r.units).foldl (fun (o : Option State) u => o.bind fun s => admitUnit launch r u s) (some s)

/-- The head's next unit: a group, a W gang, or a whole GANG launch; with the groups admitted. -/
def admitNext (id : Nat) (l : Launch) (s : State) : Option (State × Nat) :=
  let r := l.record
  if r.gang then (admitAll id r s).map fun s => (s, r.groups)
  else (admitUnit id r l.nextGroup s).map fun s => (s, if r.hasKind 2 then 4 else 1)

/-! LAUNCH (R205) -/

/-- 8-byte words of GV that a front instruction reads, with their pages. -/
def readTable (addr : Word) (n : Nat) (s : State) : Res (List (Nat × TlbEntry)) :=
  mapEach (indices n) (fun i s =>
    (gvHere .read (addr + word (8 * i)) s).bind fun pe s =>
      (awaitHere pe.1 8 s).bind fun _ s =>
        (loadPlace s.here pe.1 8 s).bind fun w s => .ok (w, pe.2) s) s

/-- The record of LAUNCH after every check, with the pages that it was read from: the record, then all 8 + 8 · NLEV bytes of its
loop table, which are read before the table is checked. -/
def checkedRecord (addr : Word) (s : State) : Res (LaunchRec × List TlbEntry) :=
  (aligned addr 64 s).bind fun _ s =>
    (gvHere .read addr s).bind fun pe s =>
      (awaitHere pe.1 64 s).bind fun _ s =>
        (loadPlace s.here pe.1 64 s).bind fun w s =>
          let (r, bad) := parseRecord w
          match bad with
          | some n => raise (launchExc 32 n) s
          | none =>
            (readTable (tableAddr w) 1 s).bind fun hd s =>
              (readTable (tableAddr w + 8) (levelsIn ((hd.map (·.1)).headD 0)) s).bind fun ws s =>
                match parseTable ((hd ++ ws).map (·.1)) with
                | (_, some k) => raise (launchExc 33 k) s
                | (levels, none) =>
                  let h := s.hart
                  let r := { r with levels := levels, tenant := BitVec.ofNat 6 h.tenantNo, sup := h.tr.sup }
                  if r.fits then .ok (r, pe.2 :: (hd ++ ws).map (·.2)) s else raise (launchExc 35 0) s

/-- LAUNCH (R205). It follows every earlier access of the hart; its pages count once it is accepted (R254). -/
def execLaunch (a : XReg) (s : State) : Out :=
  finish ((noFerry (.launch a) s).bind fun _ s =>
    (awaitRegs [a.toNat] [] s).bind fun _ s =>
      (outsideBatch s).bind fun _ s =>
        (checkedRecord (s.hart.getX a.toNat) s).bind fun r s =>
          if 1024 ≤ (s.tenant r.1.tenant.toNat).queued then .wait 11 s
          else
            (followVector 11 VEntry.memory s).bind fun _ s =>
              (awaitHeld 11 VEntry.memory s).bind fun _ s =>
                (releaseHere 11 s).bind fun _ s =>
                  .ok () (retireHere 4 (acceptRecord r.1 (countPages s.here s.hart.tenantNo r.2 s))))

/-! WQRY (R213) -/

/-- COUNT of the Y level of a launch. -/
def yCount (l : Launch) : Option Nat := (l.record.levels.find? fun e => e.1 == 4).map (·.2)

/-- WQRY (R213). -/
def execWqry (n : BitVec 4) (s : State) : Out :=
  finish ((noFerry (.wqry n) s).bind fun _ s =>
    match s.hart.id.group, s.myGroup with
    | some gn, some g =>
      match lookup s.wharf.launches g.launch with
      | some l =>
        if (yCount l).isNone || (ownChannel n.toNat s).isNone then raise (engineExc 34 0) s
        else if 16 ≤ (l.requests.filter fun q => q.1 == gn).length then .wait 8 s
        else
          let l := { l with requests := l.requests ++ [(gn, n.toNat, none)] }
          .ok () (retireHere 4 (s.modWharf fun w => { w with launches := insert w.launches g.launch l }))
      | none => raise (engineExc 34 0) s
    | _, _ => raise (engineExc 34 0) s)

/-! FENCE and its parts (R177, R181) -/

/-- DEFERRED when poison blocks one of the hart's uncommitted store elements, else a wait until all have committed. -/
def fenceStores (reason : Nat) (s : State) : Res Unit :=
  let s := drain s.here s.me s
  match rootsOf s.here (blockedBy s.here s.hart.ms.stq s) s with
  | [] => if s.hart.ms.stq.isEmpty then .ok () s else .wait reason s
  | roots => raiseDeferred s.here s.me roots 0 s

/-- An entry whose access an acquire fence waits for: a load, or an AMERGE (R177). -/
def VEntry.acquired (v : VEntry) : Bool := v.loads || v.instr == .amerge

/-- The waits of a fence beyond HART, by kind: 0 acq for loads, AMOs and AMERGE, 1 rel and 2 full for every access (R177). -/
def fenceWaits (kind reason : Nat) (s : State) : Res Unit :=
  (waitVector reason s).bind fun _ s =>
    (if kind = 0 then (if s.hart.ms.stq.any fun p => p.amo.isSome then .wait reason s else .ok () s)
     else fenceStores reason s).bind fun _ s =>
      awaitHeld reason (if kind = 0 then VEntry.acquired else VEntry.memory) s

/-- A full fence beyond HART, for a front instruction (R182). -/
def fullFence (reason : Nat) (s : State) : Res Unit :=
  (fenceWaits 2 reason s).bind fun _ s => .ok () (dropConst s)

/-! GBAR (R214) -/

/-- The harts that take part in a GBAR of the current hart at a scope, with their cores. -/
def barHarts (g : Group) (gn scope : Nat) (s : State) : List (Nat × Nat) :=
  let groups := (s.groupsOf g.launch).filter fun e => !e.2.aborted && (match scope with
    | 0 => e.1 == gn
    | 1 => (e.2.gang.map (·.1)) == (g.gang.map (·.1))
    | _ => true)
  groups.flatMap fun e => (e.2.harts.map fun h => (e.2.core.toNat, h.toNat)).filter fun p =>
    (s.hartAt p.1 p.2).run.running

/-- GBAR (R214). -/
def execGbar (scope : BitVec 4) (s : State) : Out :=
  finish ((noFerry (.gbar scope) s).bind fun _ s =>
    let sc := scope.toNat
    match s.hart.id.group, s.myGroup with
    | some gn, some g =>
      let gangLaunch := match lookup s.wharf.launches g.launch with
        | some l => l.record.gang
        | none => false
      if (sc = 1 && g.gang.isNone) || (sc = 2 && !gangLaunch) then raise (barrierExc (word sc)) s
      else
        (fullFence 7 s).bind fun _ s =>
          let s := if s.hart.run.atBar then s else s.modHart fun h =>
            { h with run := { h.run with arrived := insert h.run.arrived sc (lookupD h.run.arrived sc 0 + 1), atBar := true } }
          let mine := lookupD s.hart.run.arrived sc 0
          if (barHarts g gn sc s).all fun p => decide (mine ≤ lookupD (s.hartAt p.1 p.2).run.arrived sc 0) then
            .ok () (retireHere 4 s)
          else .wait 9 s
    | _, _ => .ok () (retireHere 4 s))

/-! EXIT (R215) -/

/-- The end of the current hart, after every wait. -/
def leave (s : State) : State := endHart s.here s.me (s.modHart Hart.count)

/-- A hart that ends within a handler never returns to the instructions that the trap holds: the stores that wait for them wait no
longer (R215; log entry 113). -/
def Hart.dropHeld (x : Hart) : Hart :=
  if x.vec.held.isEmpty then x
  else { x with vec := { x.vec with held := [] }
                ms := { x.ms with stq := x.ms.stq.map fun p => if p.parked then { p with after := 0, parked := false } else p } }

/-- The rest of EXIT after the settle: commands complete, stores perform, and the hart is free. -/
def leaveQuietly (s : State) : Res Unit :=
  if incomplete false s || incomplete true s then .wait 8 s
  else (releaseHere 7 (if s.hart.vec.held.isEmpty then s else s.modHart Hart.dropHeld)).bind fun _ s => .ok () (leave s)

/-- EXIT (R215); in a handler that cannot be resumed it does not settle (R231). -/
def execExit (s : State) : Out :=
  finish ((noFerry .exit s).bind fun _ s =>
    (outsideBatch s).bind fun _ s =>
      (waitVector 5 s).bind fun _ s =>
        (if s.hart.tr.tcause.getLsbD 63 then .ok () s else settleHere s).bind fun _ s => leaveQuietly s)

end Sys2Proof.Machine
end

