-- ==== Sys2Proof/Machine/System.lean ====
section
/-! DEFINITION. System instructions: traps and their return, HALT, WAIT, FENCE, ISYNC, the NOPs, and the bit patterns that are
no instruction (R38, R47, R48, R99, R177, R220, R225, R267, R272, R305). -/

namespace Sys2Proof.Machine

/-- TRAPI (R221, R225). -/
def trapiExc (n : BitVec 6) : Exc := { code := 0x15, info0 := word n.toNat }

/-- TRAP (R225): it completes, and the handler resumes after it. -/
def execTrap (n : BitVec 6) (s : State) : Out :=
  match noFerry (.trap n) s with
  | .ok _ s => .next (trapAfter 4 (trapiExc n) (s.modHart Hart.count))
  | r => finish r

/-- BKPT (R225, R246): a claimed hart stops with TPC and its PC past it; another raises BKPT. -/
def execBkpt (s : State) : Out :=
  match noFerry .bkpt s with
  | .ok _ s =>
    if s.hart.run.claimed then
      .next (debugStop s.here s.me ((retireHere 4 s).modHart fun h => { h with tr := { h.tr with tpc := h.pc.zeroExtend 64 } }))
    else .next (trapAfter 4 (bkptExc 0) (s.modHart Hart.count))
  | r => finish r

/-- ERET (R225): after the handler's vector instructions; a trap that cannot be resumed ends the hart as EXIT does, without
the settle (R231). -/
def execEret (s : State) : Out :=
  finish ((noFerry .eret s).bind fun _ s =>
    (needsS .eret s).bind fun _ s =>
      (waitVector 13 s).bind fun _ s =>
        if s.hart.tr.tcause.getLsbD 63 then leaveQuietly s else .ok () (s.modHart returnFromTrap))

/-- HALT (R267). -/
def execHalt (s : State) : Out :=
  finish ((noFerry .halt s).bind fun _ s =>
    (needsS .halt s).bind fun _ s =>
      (waitVector 5 s).bind fun _ s =>
        (settleHere s).bind fun _ s =>
          let s := s.modHart fun h =>
            let h := h.retire 4
            { h with run := { h.run with stopped := true, halted := true, why := 14 } }
          .ok () (s.modHost fun o => { o with irqs := o.irqs ++ [.halt s.curCore s.curHart] }))

/-- The read of WAIT (R305): it is done when the word differs, and counts once toward page heat (R254), else the hart waits on
the line. -/
def waitRead (va value : Word) (s : State) : Res Unit :=
  (aligned va 8 s).bind fun _ s =>
    (gvHere .read va s).bind fun pe s =>
      (awaitHere pe.1 8 s).bind fun _ s =>
        (loadPlace s.here pe.1 8 s).bind fun r s =>
          if word r ≠ value then
            .ok () ((retireHere 4 (countHere pe.2 s)).modHart fun h => { h with run := { h.run with wait := none } })
          else
            .wait 9 (s.modHart fun h =>
              { h with run := { h.run with wait := some ⟨va, value, pe.1, (s.core s.here).cycles, false⟩ } })

/-- WAIT (R305). -/
def execWait (a b : XReg) (s : State) : Out :=
  finish ((awaitRegs [a.toNat, b.toNat] [] s).bind fun _ s =>
    if s.hart.run.wait.isSome then .wait 9 s
    else waitRead (s.hart.getX a.toNat) (s.hart.getX b.toNat) s)

/-- FENCE (R177): `scope` 0 hart to 5 system, `kind` 0 acq, 1 rel, 2 full. The scope policy is that of a user hart's tenant; R178
names no tenant for a ferry hart, whose fences keep their scope (DESIGN CHOICE; log entry 107). -/
def execFence (kind : BitVec 2) (scope : BitVec 3) (s : State) : Out :=
  let down := scope == 5 && s.hart.id.group.isSome && s.myTenant.lim
  let s := if down then s.modTenant s.hart.tenantNo fun t => { t with fenceDown := true } else s
  if scope = 0 then .next (retireHere 4 s)
  else
    finish ((fenceWaits kind.toNat 7 s).bind fun _ s => .ok () (retireHere 4 (if kind = 1 then s else dropConst s)))

/-- ISYNC (R99, R269). -/
def execIsync (s : State) : Out :=
  finish ((waitVector 7 s).bind fun _ s =>
    (settleHere s).bind fun _ s =>
      (releaseHere 7 s).bind fun _ s =>
        (awaitHeld 7 VEntry.stores s).bind fun _ s =>
          if incomplete false s then .wait 8 s
          else
            .ok () (retireHere 4 (s.modCore s.here fun k =>
              { k with
                icache := []
                ccache := []
                harts := mapValues (fun _ h => { h.staleBuffers fun _ => true with lead := Lead.none }) k.harts })))

/-- NOP (R272). -/
def execNop (s : State) : Out := .next (retireHere 4 s)

/-- NOP, compressed (R42, R272). -/
def execNopC (s : State) : Out := .next (retireHere 2 s)

/-- A hint executes as NOP (R48). -/
def execHint (s : State) : Out := .next (retireHere 4 s)

/-- ILLEGAL with the bits and length of a pattern that is no instruction (R38). -/
def illegalExc (enc : Word) (len : Nat) : Exc := { code := 0x01, info0 := enc, info1 := word len }

/-- A bit pattern that is no instruction (R47); its bits and length are in the input. -/
def execIllegalEncoding (s : State) : Out := finish (raise (illegalExc s.input.enc s.input.encLen.toNat) s)

end Sys2Proof.Machine
end

