-- ==== Sys2Proof/Machine/Copy.lean ====
section
/-! DEFINITION. The copy engine: which command may execute, what it copies or fills, its slot and its token (R155 to R157,
R230, R231, R264). -/

namespace Sys2Proof.Machine

/-! Fields of a command (R155) -/

def CopyCmd.word0 (q : CopyCmd) : Word := q.words.getD 0 0
def CopyCmd.fills (q : CopyCmd) : Bool := wbits q.word0 0 2 == 1
def CopyCmd.srcSpace (q : CopyCmd) : Nat := wbits q.word0 4 2
def CopyCmd.dstSpace (q : CopyCmd) : Nat := wbits q.word0 6 2
def CopyCmd.tag (q : CopyCmd) : Nat := wbits q.word0 8 8
def CopyCmd.token (q : CopyCmd) : Bool := q.word0.getLsbD 16
def CopyCmd.channel (q : CopyCmd) : Option Nat := if q.word0.getLsbD 17 then some (wbits q.word0 18 4) else none
def CopyCmd.src (q : CopyCmd) : Word := q.words.getD 1 0
def CopyCmd.dst (q : CopyCmd) : Word := q.words.getD 2 0
def CopyCmd.length (q : CopyCmd) : Nat := (q.words.getD 3 0).toNat
def CopyCmd.ctx (c : Nat) (q : CopyCmd) : Ctx := ⟨c, q.ptbase, q.asid, q.sup⟩

/-! Order (R157) -/

/-- The LS places of `n` bytes at an offset of LS (0) or CLS (1) of a group, as first place and number; none in GV. -/
def localRanges (c : Nat) (g : Group) (space off n : Nat) (s : State) : List (Nat × Nat) :=
  match space with
  | 0 => [(lsPlace c (g.lsBase + off), n)]
  | 1 =>
    (indices 4).filterMap fun m =>
      match s.gangMember g m with
      | none => none
      | some (_, y) =>
        let lo := Nat.max off (m * Config.lsSize)
        let hi := Nat.min (off + n) ((m + 1) * Config.lsSize)
        if lo < hi then some (lsPlace y.core.toNat (y.lsBase + lo % Config.lsSize), hi - lo) else none
  | _ => []

/-- The LS ranges that a command reads or writes; for a destination in a channel, the ring. -/
def copyRanges (c : Nat) (q : CopyCmd) (s : State) : List (Nat × Nat) :=
  match s.group? q.group with
  | none => []
  | some g =>
    (if q.fills then [] else localRanges c g q.srcSpace q.src.toNat q.length s) ++
      match q.channel with
      | some n =>
        match lookup (s.core c).channels n with
        | some ch => localRanges c g 0 ch.base (ch.nslot * ch.slotSize) s
        | none => []
      | none => localRanges c g q.dstSpace q.dst.toNat q.length s

def rangesMeet (a b : List (Nat × Nat)) : Bool :=
  a.any fun p => b.any fun q => decide (p.1 < q.1 + q.2) && decide (q.1 < p.1 + p.2)

/-- Whether an earlier command, whole or still being pushed, must go first. -/
def copyBlocked (c : Nat) (q : CopyCmd) (s : State) : Bool :=
  let r := copyRanges c q s
  ((s.core c).copyFifo.any fun p => decide (p.order < q.order) && rangesMeet (copyRanges c p s) r) ||
    (!r.isEmpty && (s.core c).harts.any fun h => !h.2.ms.copyWords.isEmpty && decide (h.2.ms.copyOrder < q.order))

/-- Whether the channel that a command fills has no free slot. -/
def slotMissing (c : Nat) (q : CopyCmd) (s : State) : Bool :=
  match q.channel with
  | none => false
  | some n =>
    match lookup (s.core c).channels n with
    | none => true
    | some ch => ch.free == 0

/-- Whether a command can execute now; one that is dropped and waits for a slot is cancelled now (R231). -/
def copyReady (c : Nat) (q : CopyCmd) (s : State) : Bool :=
  !copyBlocked c q s && (q.dropped || !slotMissing c q s)

/-! Execution -/

/-- What a command has moved: bytes with the places they come from and go to, the pages it used, and its failure: status
and address. -/
structure Copied where
  bytes : List (Option Nat × Nat × Byte)
  pages : List TlbEntry
  fail : Option (Nat × Nat)
  deriving Repr

/-- A failure of an access becomes the status and address of a token. -/
def failureOf (addr : Word) (r : Res α) : Option (Nat × Nat) :=
  match r with
  | .exc e _ _ => some (e.code, e.info0.toNat)
  | .contained _ _ => some (0x13, addr.toNat)
  | _ => none

/-- The source byte of byte `i` of a command: its place, its value, and the leaf of its page. -/
def copySource (c : Nat) (q : CopyCmd) (i : Nat) (s : State) : Res (Option Nat × Byte × Option TlbEntry) :=
  if q.fills then .ok (none, BitVec.ofNat 8 (bits q.src.toNat (8 * (i % 8)) 8), none) s
  else
    (placeFor c q.hart.toNat [] (q.ctx c) q.srcSpace .read (q.src + word i) 1 0 s).bind fun p s =>
      (loadPlace c p.1 1 s).bind fun w s => .ok (some p.1, BitVec.ofNat 8 w, p.2) s

/-- The bytes of a command from byte `i` on, up to the first that fails (R156). -/
def copyBytes (c : Nat) (q : CopyCmd) (space : Nat) (dst : Word) (done : Copied) (s : State) : List Nat → Res Copied
  | [] => .ok done s
  | i :: rest =>
    match copySource c q i s with
    | .ok (p, b, leaf) s =>
      match placeFor c q.hart.toNat [] (q.ctx c) space .write (dst + word i) 1 0 s with
      | .ok (t, leaf') s =>
        copyBytes c q space dst
          { done with bytes := done.bytes ++ [(p, t, b)], pages := done.pages ++ leaf.toList ++ leaf'.toList } s rest
      | .stop f => .stop f
      | .exc e k s => .ok { done with fail := failureOf dst (.exc e k s : Res Unit) } s
      | .contained e s => .ok { done with fail := failureOf (dst + word i) (.contained e s : Res Unit) } s
      | .wait _ s => .ok done s
    | .stop f => .stop f
    | .exc e k s => .ok { done with fail := failureOf q.src (.exc e k s : Res Unit) } s
    | .contained e s => .ok { done with fail := failureOf (q.src + word i) (.contained e s : Res Unit) } s
    | .wait _ s => .ok done s

/-- The bytes as they are written. One whose source is also the destination of another byte of the command is open, since
the spec does not order the bytes of a command. -/
def settleBytes (l : List (Option Nat × Nat × Byte)) (s : State) : List StoreCell × State :=
  l.foldl (fun acc e =>
    let crossed := match e.1 with
      | none => false
      | some p => p != e.2.1 && l.any fun o => o.2.1 == p
    if crossed then
      let (w, s) := freshWord acc.2
      (acc.1 ++ [⟨e.2.1, BitVec.ofNat 8 w.toNat, 0xFF⟩], s)
    else (acc.1 ++ [⟨e.2.1, e.2.2, 0xFF⟩], acc.2)) ([], s)

/-- The record of a command has a new state (R243). -/
def markCopy (c : Nat) (q : CopyCmd) (st : CmdState) (s : State) : State :=
  s.modCore c fun k => { k with copyLog := markCommand (fun r => r.order == q.order && r.words == q.words) st k.copyLog }

/-- A command executes: its bytes are written, its slot is filled, and its token is posted. Its pages are counted when it
succeeds (R170, R254). -/
def runCopy (c : Nat) (q : CopyCmd) (s : State) : Res Unit :=
  let slot := match q.channel with
    | none => none
    | some n => (lookup (s.core c).channels n).map fun (ch : Channel) => (n, ch.tail, slotBase ch ch.tail)
  let s := match slot with
    | none => s
    | some (n, _, _) => reserveSlot c n none s
  let (space, dst) := match slot with
    | none => (q.dstSpace, q.dst)
    | some (_, _, off) => (0, word off)
  (copyBytes c q space dst ⟨[], [], none⟩ s (indices q.length)).bind fun r s =>
    let (cells, s) := settleBytes r.bytes s
    let s := performCells cells s
    let s := match slot with
      | none => s
      | some (n, k, _) => fillSlot c n k s
    let s := if r.fail.isNone then countPages c q.tenant.toNat r.pages s else s
    let s := markCopy c q (.done (BitVec.ofNat 8 ((r.fail.map (·.1)).getD 0))) s
    .ok () (if q.dropped then s
      else match r.fail with
        | some (st, a) => postToken c q.hart.toNat false (tokenWord st q.tag a) s
        | none => if q.token then postToken c q.hart.toNat false (tokenWord 0 q.tag 0) s else s)

/-- The command at a position of a core's FIFO executes, when it is a fill or a copy as named and may execute. -/
def executeCopy (fill : Bool) (c pos : Nat) (s : State) : Out :=
  match (s.core c).copyFifo[pos]? with
  | none => .next s
  | some q =>
    if q.fills != fill || !copyReady c q s then .next s
    else
      let s := s.modCore c fun k => { k with copyFifo := k.copyFifo.eraseIdx pos }
      if slotMissing c q s then .next (markCopy c q .cancelled s)
      else
        match runCopy c q s with
        | .ok _ s => .next s
        | .stop f => .fault f
        | .wait _ s => .next s
        | .exc _ _ s => .next s
        | .contained _ s => .next s

/-- COPY (R155). -/
def execCopy (s : State) : Out := executeCopy false s.input.core.toNat s.input.pos.toNat s

/-- COPY_FILL (R155). -/
def execCopyFill (s : State) : Out := executeCopy true s.input.core.toNat s.input.pos.toNat s

end Sys2Proof.Machine
end

