-- ==== Sys2Proof/Machine/Collective.lean ====
section
/-! DEFINITION. The collective engines: how an operation forms, its tree, and its results and tokens (R158, R239, R240). -/

namespace Sys2Proof.Machine

/-! Fields of a command (R239) -/

def CollCmd.word0 (q : CollCmd) : Word := q.words.getD 0 0
def CollCmd.word3 (q : CollCmd) : Word := q.words.getD 3 0
def CollCmd.tag (q : CollCmd) : Nat := wbits q.word0 8 8
def CollCmd.ctx (q : CollCmd) : Ctx := ⟨q.core.toNat, q.ptbase, q.asid, q.sup⟩

def collOp (w0 : Word) : Nat := wbits w0 0 2
def collKind (w0 : Word) : Nat := wbits w0 2 3
def collType (w0 : Word) : Nat := wbits w0 20 4
def collRanks (w0 : Word) : Nat := 4 * (wbits w0 24 6 + 1)
def collRoot (w0 : Word) : Nat := wbits w0 32 8
def collCount (w3 : Word) : Nat := wbits w3 0 32

/-- What the participants must agree in: OP, KIND, TYPE, PKGS, ROOT and COUNT. -/
def collKey (w0 w3 : Word) : List Nat :=
  [collOp w0, collKind w0, collType w0, collRanks w0, collRoot w0, w3.toNat]

/-- A participant: its rank, its command where it is one of this package, and its source bytes. -/
structure Part where
  rank : Nat
  cmd : Option CollCmd
  source : List Byte
  pages : List TlbEntry
  /-- Byte at which its source failed, with status and address. -/
  fail : Option (Nat × Nat × Nat)
  deriving Repr

/-- The oldest command with a tag on each die, in die order; none while a die has none (R239). -/
def localCommands (tag : Nat) (s : State) : Option (List CollCmd) :=
  let l := (indices 4).filterMap fun d => (s.die d).coll.find? fun q => q.tag == tag
  if l.length = 4 then some l else none

/-! Sources and destinations -/

/-- The `n` bytes of a participant's source, up to one that fails. -/
def readSource (q : CollCmd) (done : List Byte × List TlbEntry) (s : State) :
    List Nat → Res (List Byte × List TlbEntry × Option (Nat × Nat × Nat))
  | [] => .ok (done.1, done.2, none) s
  | i :: rest =>
    let a := q.words.getD 1 0 + word i
    match (translate q.ctx .read a 0 s).bind fun pe s =>
        (loadPlace q.core.toNat pe.1 1 s).bind fun w s => .ok (w, pe.2) s with
    | .ok (w, e) s => readSource q (done.1 ++ [BitVec.ofNat 8 w], done.2 ++ [e]) s rest
    | .stop f => .stop f
    | .exc e k s => .ok (done.1, done.2, (failureOf a (.exc e k s : Res Unit)).map fun f => (i, f)) s
    | .contained e s => .ok (done.1, done.2, (failureOf a (.contained e s : Res Unit)).map fun f => (i, f)) s
    | .wait _ s => .ok (done.1, done.2, none) s

/-- The bytes that a source did not give are open. -/
def padSource (n : Nat) (l : List Byte) (s : State) : List Byte × State :=
  (indices (n - l.length)).foldl (fun acc _ =>
    let (w, s) := freshWord acc.2
    (acc.1 ++ [BitVec.ofNat 8 w.toNat], s)) (l, s)

/-- The places of bytes at a participant's destination, with their pages, up to one that fails, and not past `limit`. -/
def placeDestination (q : CollCmd) (limit : Option Nat) (cells : List StoreCell) (pages : List TlbEntry) (s : State) :
    List (Nat × Byte) → Res (List StoreCell × List TlbEntry × Option (Nat × Nat))
  | [] => .ok (cells, pages, none) s
  | (i, b) :: rest =>
    let a := q.words.getD 2 0 + word i
    if limit.any fun n => decide (n ≤ i) then .ok (cells, pages, none) s
    else
      match translate q.ctx .write a 0 s with
      | .ok (p, e) s => placeDestination q limit (cells ++ [⟨p, b, 0xFF⟩]) (pages ++ [e]) s rest
      | .stop f => .stop f
      | .exc e k s => .ok (cells, pages, failureOf a (.exc e k s : Res Unit)) s
      | .contained e s => .ok (cells, pages, failureOf a (.contained e s : Res Unit)) s
      | .wait _ s => .ok (cells, pages, none) s

/-- Bytes go to a participant's destination, as one write, which clears the poison of the lines that it covers whole (R230). -/
def writeDestination (q : CollCmd) (limit : Option Nat) (pages : List TlbEntry) (s : State) (l : List (Nat × Byte)) :
    Res (List TlbEntry × Option (Nat × Nat)) :=
  (placeDestination q limit [] pages s l).bind fun r s => .ok r.2 (performCells r.1 s)

/-! The tree (R240) -/

/-- The combining function of a KIND on a TYPE. -/
def collFn (kind ty : Nat) : LaneFn :=
  match kind with
  | 0 => if isFloat ty then .fadd else .add
  | 1 => if isFloat ty then .fmin else if 4 ≤ ty then .minn else .min
  | 2 => if isFloat ty then .fmax else if 4 ≤ ty then .maxn else .max
  | 3 => .and
  | 4 => .or
  | _ => .xor

/-- left ⊕ right, element by element, under RNE and without flags. -/
def collCombine (kind ty : Nat) (a b : List Nat) : List Nat :=
  (a.zip b).map fun e => (laneCompute (collFn kind ty) ty ty ty none .rne 0 e.1 e.2 0).1

/-- One level of the tree. -/
def treeLevel (kind ty n d : Nat) (vals : List (List Nat)) : List (List Nat) :=
  vals.zipIdx.map fun (v, q) =>
    if q % (2 * d) = 0 ∧ q + d < n then collCombine kind ty v (vals.getD (q + d) []) else v

/-- val[0] from the sources by relative rank. -/
def collReduce (kind ty n : Nat) (vals : List (List Nat)) : List Nat :=
  ([1, 2, 4, 8, 16, 32, 64, 128].foldl (fun l d => if d < n then treeLevel kind ty n d l else l) vals).headD []

/-- The elements of `n` bytes that some bytes hold, and the bytes of elements. -/
def toElems (n count : Nat) (l : List Byte) : List Nat :=
  (indices count).map fun i => numberOf ((l.drop (i * n)).take n)

def fromElems (n : Nat) (l : List Nat) : List Byte :=
  l.flatMap fun w => (indices n).map fun i => BitVec.ofNat 8 (w / 256 ^ i)

/-- What an operation writes at each destination, from the sources by rank. -/
def collResult (w0 w3 : Word) (sources : List (List Byte)) : List Byte :=
  let n := collRanks w0
  let size := typeBits (collType w0) / 8
  let root := collRoot w0
  match collOp w0 with
  | 2 => sources.flatten
  | 3 => sources.getD root []
  | _ =>
    let elems := sources.map (toElems size (collCount w3))
    fromElems size (collReduce (collKind w0) (collType w0) n ((indices n).map fun q => elems.getD ((q + root) % n) []))

/-! An operation -/

/-- The commands with a tag leave the engines. -/
def dropCommands (l : List CollCmd) (s : State) : State :=
  l.zipIdx.foldl (fun s e => s.modDie e.2 fun d => { d with coll := d.coll.erase e.1 }) s

/-- A command completes with a status, which its record shows (R243), and its token is posted where `post` says so and its
group is not aborted. -/
def answer (q : CollCmd) (post : Bool) (status addr : Nat) (s : State) : State :=
  let mine : CmdRecord → Bool := fun r => r.core == q.core && r.hart == q.hart && r.words == q.words
  let s := s.modDie (dieOf q.core.toNat) fun d =>
    { d with collLog := markCommand mine (.done (BitVec.ofNat 8 status)) d.collLog }
  if q.dropped || !post then s else postToken q.core.toNat q.hart.toNat true (tokenWord status q.tag addr) s

/-- The sources of the commands of this package, in die order; a broadcast reads that of its root only (R240). -/
def readParts (pod count size : Nat) (root : Option Nat) (l : List CollCmd) (s : State) : Res (List Part) :=
  mapEach l.zipIdx (fun e s =>
    let read := match root with
      | none => true
      | some r => 4 * pod + e.2 == r
    (readSource e.1 ([], []) s (indices (if read then count * size else 0))).bind fun r s =>
      let (src, s) := if read then padSource (count * size) r.1 s else ([], s)
      .ok ⟨4 * pod + e.2, some e.1, src, r.2.1, r.2.2⟩ s) s

/-- One participant's destination is written, and its token is posted. -/
def deliver (out : List Byte) (writes : Bool) (p : Part) (s : State) : Res Unit :=
  match p.cmd with
  | none => .ok () s
  | some q =>
    let limit := p.fail.map (·.1)
    let l := if writes then out.zipIdx.map fun e => (e.2, e.1) else []
    (writeDestination q limit p.pages s l).bind fun r s =>
      let fail := match p.fail with
        | some (_, f) => some f
        | none => r.2
      .ok () (match fail with
        | some (st, a) => answer q true st a s
        | none =>
          let s := countPages q.core.toNat q.tenant.toNat r.1 s
          answer q (q.word0.getLsbD 16) 0 0 s)

/-- The operation of a row and a tag executes when it has formed: with every participant's command, or with a breach that
answers every participant 0x0F (R239, R240). -/
def runCollective (op tag : Nat) (remote : List RemoteCmd) (s : State) : Res Unit :=
  match localCommands tag s with
  | none => .ok () s
  | some l =>
    match l.head? with
    | none => .ok () s
    | some first =>
      let w0 := first.word0
      let w3 := first.word3
      let pod := s.host.podId.toNat
      let bad := l.any (fun q => collMalformed q.words || collKey q.word0 q.word3 != collKey w0 w3) ||
        remote.any (fun r => collMalformed [r.word0, 0, 0, r.word3] || collKey r.word0 r.word3 != collKey w0 w3) || decide (collRanks w0 ≤ 4 * pod)
      let others := (indices (collRanks w0)).filter fun r => r / 4 != pod
      if collOp w0 ≠ op then .ok () s
      else if bad then .ok () ((l.filter fun q => !q.answered).foldl (fun s q => answer q true 0x0F 0 s) (dropCommands l s))
      else if others.any fun r => !remote.any fun c => c.rank == r then .ok () s
      else
        let size := typeBits (collType w0) / 8
        let count := collCount w3
        (readParts pod count size (if op = 3 then some (collRoot w0) else none) l s).bind fun mine s =>
          let sources := (indices (collRanks w0)).map fun r =>
            match mine.find? fun p => p.rank == r with
            | some p => p.source
            | none => ((remote.find? fun c => c.rank == r).map (·.source)).getD []
          let out := collResult w0 w3 sources
          forEach mine (fun p s => deliver out (op != 0 || p.rank == collRoot w0) p s) (dropCommands l s)

/-- The outcome of an engine's operation. -/
def engineOut (r : Res Unit) : Out :=
  match r with
  | .ok _ s => .next s
  | .wait _ s => .next s
  | .exc _ _ s => .next s
  | .contained _ s => .next s
  | .stop f => .fault f

/-- REDUCE (R240). -/
def execReduce (s : State) : Out := engineOut (runCollective 0 s.input.tag.toNat s.input.remote s)

/-- ALL_REDUCE (R240). -/
def execAllReduce (s : State) : Out := engineOut (runCollective 1 s.input.tag.toNat s.input.remote s)

/-- ALL_GATHER (R240). -/
def execAllGather (s : State) : Out := engineOut (runCollective 2 s.input.tag.toNat s.input.remote s)

/-- BROADCAST (R240). -/
def execBroadcast (s : State) : Out := engineOut (runCollective 3 s.input.tag.toNat s.input.remote s)

end Sys2Proof.Machine
end

