-- ==== Sys2Proof/Machine/VectorRows.lean ====
section
/-! DEFINITION. The vector and tile instructions at the front: each is dispatched into the VIQ, and the vector side executes
it there (`vexec`). -/

namespace Sys2Proof.Machine

/-- VADD (R279). -/
def execVadd (d : VReg) (a : VReg) (b : VReg) (m : MReg) (s : State) : Out := issueVector (.vadd d a b m) s

/-- VADD_X (R279). -/
def execVaddX (d : VReg) (a : VReg) (b : XReg) (m : MReg) (s : State) : Out := issueVector (.vaddX d a b m) s

/-- VSUB (R279). -/
def execVsub (d : VReg) (a : VReg) (b : VReg) (m : MReg) (s : State) : Out := issueVector (.vsub d a b m) s

/-- VSUB_X (R279). -/
def execVsubX (d : VReg) (a : VReg) (b : XReg) (m : MReg) (s : State) : Out := issueVector (.vsubX d a b m) s

/-- VRSUB (R279). -/
def execVrsub (d : VReg) (a : VReg) (b : VReg) (m : MReg) (s : State) : Out := issueVector (.vrsub d a b m) s

/-- VRSUB_X (R279). -/
def execVrsubX (d : VReg) (a : VReg) (b : XReg) (m : MReg) (s : State) : Out := issueVector (.vrsubX d a b m) s

/-- VMUL (R279). -/
def execVmul (d : VReg) (a : VReg) (b : VReg) (m : MReg) (s : State) : Out := issueVector (.vmul d a b m) s

/-- VMUL_X (R279). -/
def execVmulX (d : VReg) (a : VReg) (b : XReg) (m : MReg) (s : State) : Out := issueVector (.vmulX d a b m) s

/-- VMULH (R279). -/
def execVmulh (d : VReg) (a : VReg) (b : VReg) (m : MReg) (s : State) : Out := issueVector (.vmulh d a b m) s

/-- VMULH_X (R279). -/
def execVmulhX (d : VReg) (a : VReg) (b : XReg) (m : MReg) (s : State) : Out := issueVector (.vmulhX d a b m) s

/-- VMULHN (R279). -/
def execVmulhn (d : VReg) (a : VReg) (b : VReg) (m : MReg) (s : State) : Out := issueVector (.vmulhn d a b m) s

/-- VMULHN_X (R279). -/
def execVmulhnX (d : VReg) (a : VReg) (b : XReg) (m : MReg) (s : State) : Out := issueVector (.vmulhnX d a b m) s

/-- VAND (R279). -/
def execVand (d : VReg) (a : VReg) (b : VReg) (m : MReg) (s : State) : Out := issueVector (.vand d a b m) s

/-- VAND_X (R279). -/
def execVandX (d : VReg) (a : VReg) (b : XReg) (m : MReg) (s : State) : Out := issueVector (.vandX d a b m) s

/-- VOR (R279). -/
def execVor (d : VReg) (a : VReg) (b : VReg) (m : MReg) (s : State) : Out := issueVector (.vor d a b m) s

/-- VOR_X (R279). -/
def execVorX (d : VReg) (a : VReg) (b : XReg) (m : MReg) (s : State) : Out := issueVector (.vorX d a b m) s

/-- VXOR (R279). -/
def execVxor (d : VReg) (a : VReg) (b : VReg) (m : MReg) (s : State) : Out := issueVector (.vxor d a b m) s

/-- VXOR_X (R279). -/
def execVxorX (d : VReg) (a : VReg) (b : XReg) (m : MReg) (s : State) : Out := issueVector (.vxorX d a b m) s

/-- VSHL (R279). -/
def execVshl (d : VReg) (a : VReg) (b : VReg) (m : MReg) (s : State) : Out := issueVector (.vshl d a b m) s

/-- VSHL_X (R279). -/
def execVshlX (d : VReg) (a : VReg) (b : XReg) (m : MReg) (s : State) : Out := issueVector (.vshlX d a b m) s

/-- VSHR (R279). -/
def execVshr (d : VReg) (a : VReg) (b : VReg) (m : MReg) (s : State) : Out := issueVector (.vshr d a b m) s

/-- VSHR_X (R279). -/
def execVshrX (d : VReg) (a : VReg) (b : XReg) (m : MReg) (s : State) : Out := issueVector (.vshrX d a b m) s

/-- VSHRA (R279). -/
def execVshra (d : VReg) (a : VReg) (b : VReg) (m : MReg) (s : State) : Out := issueVector (.vshra d a b m) s

/-- VSHRA_X (R279). -/
def execVshraX (d : VReg) (a : VReg) (b : XReg) (m : MReg) (s : State) : Out := issueVector (.vshraX d a b m) s

/-- VMIN (R279). -/
def execVmin (d : VReg) (a : VReg) (b : VReg) (m : MReg) (s : State) : Out := issueVector (.vmin d a b m) s

/-- VMIN_X (R279). -/
def execVminX (d : VReg) (a : VReg) (b : XReg) (m : MReg) (s : State) : Out := issueVector (.vminX d a b m) s

/-- VMAX (R279). -/
def execVmax (d : VReg) (a : VReg) (b : VReg) (m : MReg) (s : State) : Out := issueVector (.vmax d a b m) s

/-- VMAX_X (R279). -/
def execVmaxX (d : VReg) (a : VReg) (b : XReg) (m : MReg) (s : State) : Out := issueVector (.vmaxX d a b m) s

/-- VMINN (R279). -/
def execVminn (d : VReg) (a : VReg) (b : VReg) (m : MReg) (s : State) : Out := issueVector (.vminn d a b m) s

/-- VMINN_X (R279). -/
def execVminnX (d : VReg) (a : VReg) (b : XReg) (m : MReg) (s : State) : Out := issueVector (.vminnX d a b m) s

/-- VMAXN (R279). -/
def execVmaxn (d : VReg) (a : VReg) (b : VReg) (m : MReg) (s : State) : Out := issueVector (.vmaxn d a b m) s

/-- VMAXN_X (R279). -/
def execVmaxnX (d : VReg) (a : VReg) (b : XReg) (m : MReg) (s : State) : Out := issueVector (.vmaxnX d a b m) s

/-- VFADD (R284). -/
def execVfadd (d : VReg) (a : VReg) (b : VReg) (m : MReg) (s : State) : Out := issueVector (.vfadd d a b m) s

/-- VFADD_X (R284). -/
def execVfaddX (d : VReg) (a : VReg) (b : XReg) (m : MReg) (s : State) : Out := issueVector (.vfaddX d a b m) s

/-- VFSUB (R284). -/
def execVfsub (d : VReg) (a : VReg) (b : VReg) (m : MReg) (s : State) : Out := issueVector (.vfsub d a b m) s

/-- VFSUB_X (R284). -/
def execVfsubX (d : VReg) (a : VReg) (b : XReg) (m : MReg) (s : State) : Out := issueVector (.vfsubX d a b m) s

/-- VFMUL (R284). -/
def execVfmul (d : VReg) (a : VReg) (b : VReg) (m : MReg) (s : State) : Out := issueVector (.vfmul d a b m) s

/-- VFMUL_X (R284). -/
def execVfmulX (d : VReg) (a : VReg) (b : XReg) (m : MReg) (s : State) : Out := issueVector (.vfmulX d a b m) s

/-- VFMA (R284). -/
def execVfma (d : VReg) (a : VReg) (b : VReg) (m : MReg) (s : State) : Out := issueVector (.vfma d a b m) s

/-- VFMA_X (R284). -/
def execVfmaX (d : VReg) (a : VReg) (b : XReg) (m : MReg) (s : State) : Out := issueVector (.vfmaX d a b m) s

/-- VFMIN (R284). -/
def execVfmin (d : VReg) (a : VReg) (b : VReg) (m : MReg) (s : State) : Out := issueVector (.vfmin d a b m) s

/-- VFMIN_X (R284). -/
def execVfminX (d : VReg) (a : VReg) (b : XReg) (m : MReg) (s : State) : Out := issueVector (.vfminX d a b m) s

/-- VFMAX (R284). -/
def execVfmax (d : VReg) (a : VReg) (b : VReg) (m : MReg) (s : State) : Out := issueVector (.vfmax d a b m) s

/-- VFMAX_X (R284). -/
def execVfmaxX (d : VReg) (a : VReg) (b : XReg) (m : MReg) (s : State) : Out := issueVector (.vfmaxX d a b m) s

/-- VFDIV (R284). -/
def execVfdiv (d : VReg) (a : VReg) (b : VReg) (m : MReg) (s : State) : Out := issueVector (.vfdiv d a b m) s

/-- VFDIV_X (R284). -/
def execVfdivX (d : VReg) (a : VReg) (b : XReg) (m : MReg) (s : State) : Out := issueVector (.vfdivX d a b m) s

/-- VFRCP (R284). -/
def execVfrcp (d : VReg) (a : VReg) (m : MReg) (s : State) : Out := issueVector (.vfrcp d a m) s

/-- VFRSQ (R284). -/
def execVfrsq (d : VReg) (a : VReg) (m : MReg) (s : State) : Out := issueVector (.vfrsq d a m) s

/-- VFSQRT (R284). -/
def execVfsqrt (d : VReg) (a : VReg) (m : MReg) (s : State) : Out := issueVector (.vfsqrt d a m) s

/-- VFEXP (R284). -/
def execVfexp (d : VReg) (a : VReg) (m : MReg) (s : State) : Out := issueVector (.vfexp d a m) s

/-- VFLOG (R284). -/
def execVflog (d : VReg) (a : VReg) (m : MReg) (s : State) : Out := issueVector (.vflog d a m) s

/-- VFSIN (R284). -/
def execVfsin (d : VReg) (a : VReg) (m : MReg) (s : State) : Out := issueVector (.vfsin d a m) s

/-- VFCOS (R284). -/
def execVfcos (d : VReg) (a : VReg) (m : MReg) (s : State) : Out := issueVector (.vfcos d a m) s

/-- VMERGE (R294). -/
def execVmerge (d : VReg) (a : VReg) (b : VReg) (m : MReg) (s : State) : Out := issueVector (.vmerge d a b m) s

/-- VMERGE_X (R294). -/
def execVmergeX (d : VReg) (a : VReg) (b : XReg) (m : MReg) (s : State) : Out := issueVector (.vmergeX d a b m) s

/-- VADC (R251). -/
def execVadc (d : VReg) (a : VReg) (b : VReg) (m : MReg) (s : State) : Out := issueVector (.vadc d a b m) s

/-- VADC_X (R251). -/
def execVadcX (d : VReg) (a : VReg) (b : XReg) (m : MReg) (s : State) : Out := issueVector (.vadcX d a b m) s

/-- VSBC (R251). -/
def execVsbc (d : VReg) (a : VReg) (b : VReg) (m : MReg) (s : State) : Out := issueVector (.vsbc d a b m) s

/-- VSBC_X (R251). -/
def execVsbcX (d : VReg) (a : VReg) (b : XReg) (m : MReg) (s : State) : Out := issueVector (.vsbcX d a b m) s

/-- VWMUL (R303). -/
def execVwmul (d : VReg) (a : VReg) (b : VReg) (m : MReg) (s : State) : Out := issueVector (.vwmul d a b m) s

/-- VWMUL_X (R303). -/
def execVwmulX (d : VReg) (a : VReg) (b : XReg) (m : MReg) (s : State) : Out := issueVector (.vwmulX d a b m) s

/-- VFCVT (R285). -/
def execVfcvt (d : VReg) (a : VReg) (g : BitVec 5) (m : MReg) (s : State) : Out := issueVector (.vfcvt d a g m) s

/-- VFWMUL (R287). -/
def execVfwmul (d : VReg) (a : VReg) (b : VReg) (m : MReg) (s : State) : Out := issueVector (.vfwmul d a b m) s

/-- VCMP (R281). -/
def execVcmp (d : MReg) (a : VReg) (b : VReg) (m : MReg) (c : BitVec 3) (s : State) : Out := issueVector (.vcmp d a b m c) s

/-- VCMP_X (R281). -/
def execVcmpX (d : MReg) (a : VReg) (b : XReg) (m : MReg) (c : BitVec 3) (s : State) : Out := issueVector (.vcmpX d a b m c) s

/-- VFCMP (R281). -/
def execVfcmp (d : MReg) (a : VReg) (b : VReg) (m : MReg) (c : BitVec 3) (s : State) : Out := issueVector (.vfcmp d a b m c) s

/-- VFCMP_X (R281). -/
def execVfcmpX (d : MReg) (a : VReg) (b : XReg) (m : MReg) (c : BitVec 3) (s : State) : Out := issueVector (.vfcmpX d a b m c) s

/-- MAND (R271). -/
def execMand (d : MReg) (a : MReg) (b : MReg) (s : State) : Out := issueVector (.mand d a b) s

/-- MOR (R271). -/
def execMor (d : MReg) (a : MReg) (b : MReg) (s : State) : Out := issueVector (.mor d a b) s

/-- MXOR (R271). -/
def execMxor (d : MReg) (a : MReg) (b : MReg) (s : State) : Out := issueVector (.mxor d a b) s

/-- MNOT (R271). -/
def execMnot (d : MReg) (a : MReg) (s : State) : Out := issueVector (.mnot d a) s

/-- MSHL (R252). -/
def execMshl (d : MReg) (a : MReg) (n : BitVec 5) (s : State) : Out := issueVector (.mshl d a n) s

/-- MSET (R271). -/
def execMset (d : MReg) (s : State) : Out := issueVector (.mset d) s

/-- MCLR (R271). -/
def execMclr (d : MReg) (s : State) : Out := issueVector (.mclr d) s

/-- MPOP (R253). -/
def execMpop (d : BitVec 5) (a : MReg) (s : State) : Out := issueVector (.mpop d a) s

/-- MFIRST (R253). -/
def execMfirst (d : BitVec 5) (a : MReg) (s : State) : Out := issueVector (.mfirst d a) s

/-- MLAST (R253). -/
def execMlast (d : BitVec 5) (a : MReg) (s : State) : Out := issueVector (.mlast d a) s

/-- VGATH (R288). -/
def execVgath (d : VReg) (a : VReg) (b : VReg) (m : MReg) (s : State) : Out := issueVector (.vgath d a b m) s

/-- VCOMP (R282). -/
def execVcomp (d : VReg) (a : VReg) (m : MReg) (s : State) : Out := issueVector (.vcomp d a m) s

/-- VXPND (R304). -/
def execVxpnd (d : VReg) (a : VReg) (m : MReg) (s : State) : Out := issueVector (.vxpnd d a m) s

/-- VRED (R297). -/
def execVred (d : VReg) (a : VReg) (k : BitVec 3) (m : MReg) (s : State) : Out := issueVector (.vred d a k m) s

/-- VRED_XD (R297). -/
def execVredXd (d : BitVec 5) (a : VReg) (k : BitVec 3) (m : MReg) (s : State) : Out := issueVector (.vredXd d a k m) s

/-- VSCAN (R299). -/
def execVscan (d : VReg) (a : VReg) (k : BitVec 3) (m : MReg) (s : State) : Out := issueVector (.vscan d a k m) s

/-- VSLIDEUP_ZERO (R301). -/
def execVslideupZero (d : VReg) (a : VReg) (b : XReg) (m : MReg) (s : State) : Out := issueVector (.vslideupZero d a b m) s

/-- VSLIDEUP_ONE (R301). -/
def execVslideupOne (d : VReg) (a : VReg) (b : XReg) (m : MReg) (s : State) : Out := issueVector (.vslideupOne d a b m) s

/-- VSLIDEUP_KEEP (R301). -/
def execVslideupKeep (d : VReg) (a : VReg) (b : XReg) (m : MReg) (s : State) : Out := issueVector (.vslideupKeep d a b m) s

/-- VSLIDEDN_ZERO (R301). -/
def execVslidednZero (d : VReg) (a : VReg) (b : XReg) (m : MReg) (s : State) : Out := issueVector (.vslidednZero d a b m) s

/-- VSLIDEDN_ONE (R301). -/
def execVslidednOne (d : VReg) (a : VReg) (b : XReg) (m : MReg) (s : State) : Out := issueVector (.vslidednOne d a b m) s

/-- VSLIDEDN_KEEP (R301). -/
def execVslidednKeep (d : VReg) (a : VReg) (b : XReg) (m : MReg) (s : State) : Out := issueVector (.vslidednKeep d a b m) s

/-- VMVX (R295). -/
def execVmvx (d : BitVec 5) (a : VReg) (b : XReg) (s : State) : Out := issueVector (.vmvx d a b) s

/-- VMVS (R295). -/
def execVmvs (d : VReg) (b : XReg) (m : MReg) (s : State) : Out := issueVector (.vmvs d b m) s

/-- VSPLAT (R295). -/
def execVsplat (d : VReg) (b : XReg) (m : MReg) (s : State) : Out := issueVector (.vsplat d b m) s

/-- VLD (R291). -/
def execVld (v : VReg) (a : XReg) (m : MReg) (o : BitVec 2) (s : State) : Out := issueVector (.vld v a m o) s

/-- VLDS (R291). -/
def execVlds (v : VReg) (a : XReg) (b : XReg) (m : MReg) (o : BitVec 2) (s : State) : Out := issueVector (.vlds v a b m o) s

/-- VLDX (R291). -/
def execVldx (v : VReg) (a : XReg) (b : VReg) (m : MReg) (o : BitVec 2) (s : State) : Out := issueVector (.vldx v a b m o) s

/-- VST (R302). -/
def execVst (v : VReg) (a : XReg) (m : MReg) (o : BitVec 2) (s : State) : Out := issueVector (.vst v a m o) s

/-- VSTS (R302). -/
def execVsts (v : VReg) (a : XReg) (b : XReg) (m : MReg) (o : BitVec 2) (s : State) : Out := issueVector (.vsts v a b m o) s

/-- VSTX (R302). -/
def execVstx (v : VReg) (a : XReg) (b : VReg) (m : MReg) (o : BitVec 2) (s : State) : Out := issueVector (.vstx v a b m o) s

/-- AWIN (R160). -/
def execAwin (d : XReg) (a : XReg) (o : BitVec 4) (s : State) : Out := issueVector (.awin d a o) s

/-- VAMO (R161). -/
def execVamo (v : VReg) (w : VReg) (s : State) : Out := issueVector (.vamo v w) s

/-- AMERGE (R162). -/
def execAmerge (s : State) : Out := issueVector .amerge s

/-- VRAND (R296). -/
def execVrand (d : VReg) (m : MReg) (s : State) : Out := issueVector (.vrand d m) s

/-- PRES (R77). -/
def execPres (m : MReg) (v : VReg) (s : State) : Out := issueVector (.pres m v) s

/-- VREL (R298). -/
def execVrel (v : VReg) (s : State) : Out := issueVector (.vrel v) s

/-- SETTLE (R89). -/
def execSettle (v : VReg) (w : VReg) (n : BitVec 4) (s : State) : Out := issueVector (.settle v w n) s

/-- VTEST (R97). -/
def execVtest (k : KReg) (m : MReg) (c : BitVec 4) (s : State) : Out := issueVector (.vtest k m c) s

/-- RFLD (R110). -/
def execRfld (v : VReg) (a : XReg) (s : State) : Out := issueVector (.rfld v a) s

/-- RPUT (R110). -/
def execRput (v : VReg) (a : XReg) (c : BitVec 3) (s : State) : Out := issueVector (.rput v a c) s

/-- RSPAWN (R110). -/
def execRspawn (v : VReg) (s : State) : Out := issueVector (.rspawn v) s

/-- RRES (R110). -/
def execRres (v : VReg) (a : XReg) (s : State) : Out := issueVector (.rres v a) s

/-- RKID (R110). -/
def execRkid (v : VReg) (a : XReg) (c : BitVec 3) (s : State) : Out := issueVector (.rkid v a c) s

/-- RDONE (R109). -/
def execRdone (s : State) : Out := issueVector .rdone s

/-- TLD (R194). -/
def execTld (td : BitVec 3) (a : XReg) (b : XReg) (s : State) : Out := issueVector (.tld td a b) s

/-- TST (R194). -/
def execTst (ta : BitVec 3) (a : XReg) (b : XReg) (s : State) : Out := issueVector (.tst ta a b) s

/-- TLDP (R194). -/
def execTldp (td : BitVec 3) (a : XReg) (b : XReg) (s : State) : Out := issueVector (.tldp td a b) s

/-- TZERO (R194). -/
def execTzero (td : BitVec 3) (s : State) : Out := issueVector (.tzero td) s

/-- TMVR (R195). -/
def execTmvr (td : BitVec 3) (v : VReg) (a : XReg) (s : State) : Out := issueVector (.tmvr td v a) s

/-- TMVC (R195). -/
def execTmvc (ta : BitVec 3) (v : VReg) (a : XReg) (s : State) : Out := issueVector (.tmvc ta v a) s

/-- MMA (R190). -/
def execMma (ta : BitVec 3) (tb : BitVec 3) (ad : BitVec 2) (fmtA : BitVec 4) (fmtB : BitVec 4) (s : State) : Out := issueVector (.mma ta tb ad fmtA fmtB) s

/-- MMA_C (R191). -/
def execMmaC (ta : BitVec 3) (tb : BitVec 3) (ad : BitVec 2) (fmtA : BitVec 4) (fmtB : BitVec 4) (s : State) : Out := issueVector (.mmaC ta tb ad fmtA fmtB) s

/-- MMAN (R192). -/
def execMman (ta : BitVec 3) (tb : BitVec 3) (ad : BitVec 2) (pA : BitVec 3) (pB : BitVec 3) (s : State) : Out := issueVector (.mman ta tb ad pA pB) s

/-- MDRAIN (R196). -/
def execMdrain (td : BitVec 3) (ad : BitVec 2) (fmtA : BitVec 4) (sync : BitVec 1) (s : State) : Out := issueVector (.mdrain td ad fmtA sync) s

/-- AZERO (R198). -/
def execAzero (ad : BitVec 2) (s : State) : Out := issueVector (.azero ad) s

end Sys2Proof.Machine
end

