-- ==== Sys2Proof/Machine/Agents.lean ====
section
/-! DEFINITION. Agents that go on by themselves: prefetches, commits, the replay pipe, the ferry firmware, waits, and page heat
(R80, R83 to R87, R94, R170 to R172, R305). -/

namespace Sys2Proof.Machine

/-- The machine with another hart as the one that executes. -/
def State.focus (c h : Nat) (s : State) : State := { s with curCore := BitVec.ofNat 7 c, curHart := BitVec.ofNat 3 h }

/-! Prefetches (R94) -/

/-- `n` bytes at an address within one block, with their page, through the instruction cache; none where they cannot be translated
or fetched. -/
def prefetchPart (cx : Ctx) (va n : Nat) (s : State) : Option (List CodeByte × TlbEntry) × State :=
  match translate cx .fetch (word va) 0 s with
  | .ok (p, e) s =>
    if (lookup (s.core cx.core).icache (lineOf p)).isNone && poisoned (lineOf p) 64 s then (none, s)
    else
      let (b, s) := fetchBlock cx.core p s
      (some ((indices n).map fun i => (p + i, b.getD (p % 64 + i) 0), e), s)
  | .exc _ _ s | .contained _ s | .wait _ s => (none, s)
  | .stop _ => (none, s)

/-- The bytes that the prefetch of the 64 bytes at an address gets, with their pages: none from the first that cannot be had. -/
def prefetchBytes (cx : Ctx) (va : BitVec 48) (s : State) : List CodeByte × List TlbEntry × State :=
  let n := 64 - va.toNat % 64
  match prefetchPart cx va.toNat n s with
  | (none, s) => ([], [], s)
  | (some (l, e), s) =>
    if n = 64 then (l, [e], s)
    else
      match prefetchPart cx (va.toNat + n) (64 - n) s with
      | (none, s) => (l, [e], s)
      | (some (l', e'), s) => (l ++ l', [e, e'], s)

/-- TARGET_PREFETCH_DONE (R94). R94 does not say which PTBASE, ASID and privilege a prefetch in flight uses: those of the hart at its end
(DESIGN CHOICE; log entry 116); the fetch after the transfer checks the pages again at its own (R37). -/
def execTargetPrefetchDone (s : State) : Out :=
  let c := s.input.core.toNat
  let h := s.input.hart.toNat
  let b := s.input.bt.toNat
  let x := s.hartAt c h
  let t := x.getB b
  if t.pf ≠ 1 then .next s
  else
    let (l, es, s) := prefetchBytes ⟨c, x.ms.ptbase, x.ms.asid, x.tr.sup⟩ t.target s
    .next (s.modHartAt c h fun x => x.setB b { t with pf := 2, buf := l, pages := es })

/-! Commits (R80) -/

/-- STORE_ELEMENT_COMMIT (R80): the oldest uncommitted store or AMO of a hart, once it may commit; an AMO of a poisoned line is a
contained error (R230). -/
def execStoreElementCommit (s : State) : Out :=
  let c := s.input.core.toNat
  let h := s.input.hart.toNat
  match (s.hartAt c h).ms.stq with
  | [] => .next s
  | p :: rest =>
    match p.amo.filter fun _ => p.holes.isEmpty && p.after == 0 && !p.again && p.refused s with
    | some q => .next (contain (poisonError c ((p.cells.head?.map (·.place)).getD 0)) c h q.pc s)
    | none =>
      let (l, s) := commitAll c h [p] s
      .next (sweep c (s.modHartAt c h fun x => x.setStq (l ++ rest)))

/-! Replay (R83, R84, R288) -/

/-- What the replay pipe computes for an entry: the value and flags, or none when the operation is hard. -/
def replayValue (e : LEntry) : Option (Nat × Nat) :=
  let a := e.opa.toNat
  let b := e.opb.toNat
  let d := e.opc.toNat
  let mode := rmodeOf e.rm.toNat
  let sty := e.ty.toNat
  let dty := e.dty.toNat
  let r := laneCompute e.fn sty e.ty2.toNat dty e.scale mode e.srb.toNat a b d
  if hardType sty && e.cls != 63 then
    let easy := match e.scale with
      | none => easyElement e.fn sty e.ty2.toNat dty mode e.srb.toNat a b d
      | some sc => scaledEasy sty dty sc.toNat a r.1
    if easy then some r else none
  else some r

/-- A gather entry whose index is known: the value, or the copy entry that it becomes. Where the element that it selects is covered by
holes of another width, the entry has a link to its operand for each of them (R78, R288; DESIGN CHOICE; log entry 32). -/
def replayGather (e : LEntry) (g : GatherRow) : LEntry ⊕ Nat :=
  let i := wbits e.opa 0 g.n
  if g.vl ≤ i then .inr 0
  else
    let links := g.holes.filterMap fun x =>
      let a := Nat.max x.dst (i * g.n)
      let b := Nat.min (x.dst + x.n) (i * g.n + g.n)
      if a < b then some (⟨x.entry, 0, x.src + (a - x.dst), a - i * g.n, b - a⟩ : Link) else none
    let w := elemOf g.img g.n i
    if links.isEmpty then .inr w else .inl { e with opa := word w, links := links, gather := none }

/-- REPLAY_COMPLETE (R83): a waiting entry whose producers are all filled. -/
def execReplayComplete (s : State) : Out :=
  let c := s.input.core.toNat
  let n := s.input.entry.toNat
  match s.entry? c n with
  | none => .next s
  | some e =>
    if e.state != .waiting || !e.links.isEmpty then .next s
    else
      match e.gather with
      | some g =>
        match replayGather e g with
        | .inl e => .next (resolveWritten c (settlePoison c (s.setEntry c n e)))
        | .inr w => .next (drainAll c (completeEntry c n w s))
      | none =>
        match replayValue e with
        | some (w, f) => .next (drainAll c (completeEntry c n w (orFlags c e.hart.toNat f s)))
        | none => .next (s.setEntry c n { e with state := .ready })

/-! The ferry firmware (R84 to R87) -/

/-- Whether a ferry's firmware looks for an entry: it is not in a handler. -/
def ferryIdle (c f : Nat) (s : State) : Bool :=
  let x := s.hartAt c f
  !x.run.running || x.pc == Config.ferryEntry

/-- One pass of a ferry's firmware: the entry that it holds already, or the next (R85). An entry with its class's default handler is filled over the full range; for another,
the handler starts, with the entry in x8 to x15, the way back in b7, and the address space of the entry's hart. -/
def firmwarePass (c f : Nat) (s : State) : State :=
  if !ferryIdle c f s || !s.host.ready.getLsbD 56 then s
  else
    match (s.ferryHolds c f).or (nextReady c s) with
    | none => s
    | some (n, e) =>
      let s := if e.state == .ready then s.modCore c fun k => { k with land := { k.land with turn := e.hart.toNat } } else s
      if e.handler = Config.defaultHandler e.cls.toNat then
        let r := laneCompute e.fn e.ty.toNat e.ty2.toNat e.dty.toNat e.scale (rmodeOf e.rm.toNat) e.srb.toNat e.opa.toNat
          e.opb.toNat e.opc.toNat
        fillEntry c n r.1 r.2 (s.modHartAt c f fun x => { x with hole := { x.hole with ferry := none } })
      else
        let s := s.setEntry c n { e with state := .inFerry (f == 5) }
        let owner := s.hartAt c e.hart.toNat
        s.modHartAt c f fun x =>
          let x := (lngetWords n e).zipIdx.foldl (fun x w => x.setX (8 + w.2) w.1) x
          let x := x.setB 7 { addr := BitVec.ofNat 47 (Config.ferryEntry.toNat / 2), v := true, pf := 2 }
          { x with pc := e.handler
                   lead := Lead.none
                   ms := { x.ms with ptbase := owner.ms.ptbase, asid := owner.ms.asid }
                   run := { x.run with running := true, wait := none, why := 0 }
                   hole := { x.hole with ferry := some n, lastLnget := Config.ferryEntry } }

/-! WAIT (R305) -/

/-- The word of a waiting hart is read again. -/
def rereadWait (s : State) : Out :=
  match s.hart.run.wait with
  | none => .next s
  | some w => finish (waitRead w.va w.value s)

/-- WAIT_WAKEUP (R305): a store to the line has performed; lines of HM and PM wake no one. -/
def execWaitWakeup (s : State) : Out :=
  let t := s.focus s.input.core.toNat s.input.hart.toNat
  match t.hart.run.wait with
  | none => .next s
  | some w => if w.hit && (memoryOf w.place ≠ 2 && memoryOf w.place ≠ 3) then rereadWait t else .next s

/-- WAIT_TIMEOUT (R305): 4,096 cycles have passed since the last read. -/
def execWaitTimeout (s : State) : Out :=
  let t := s.focus s.input.core.toNat s.input.hart.toNat
  match t.hart.run.wait with
  | none => .next s
  | some w => if w.since + 4096 ≤ (t.core t.here).cycles then rereadWait t else .next s

/-! Page heat (R170 to R172) -/

/-- The `n` bytes from the start of a slot: two words, and zeros. -/
def slotCells (p n w0 w1 : Nat) : List StoreCell :=
  cellsOf p 8 w0 ++ cellsOf (p + 8) 8 w1 ++ cellsOf (p + 16) (n - 16) 0

/-- A slot of a channel of a core is reserved, takes two words and zeros, in all of it or in its first 64 bytes, and is filled;
none when the channel is undefined or full. -/
def fillChannel (c n : Nat) (whole : Bool) (w0 w1 : Nat) (s : State) : Option State :=
  match lookup (s.core c).channels n with
  | none => none
  | some ch =>
    match s.group? ch.group with
    | none => none
    | some g =>
      if ch.free = 0 then none
      else
        let slot := ch.tail
        let p := lsPlace c (g.lsBase + slotBase ch slot)
        some (fillSlot c n slot (performCells (slotCells p (if whole then 2 ^ (ch.sz + 6) else 64) w0 w1) (reserveSlot c n none s)))

/-- The oldest waiting notification of a die is sent to the channel that NOTECH names, where that has a free slot. -/
def sendHeat (d : Nat) (s : State) : Option State :=
  let x := (s.die d).heat
  match x.waiting with
  | [] => none
  | q :: rest =>
    if 24 ≤ x.core.toNat then none
    else
      (fillChannel (d * Config.coresPerDie + x.core.toNat) x.ch.toNat false q.word0.toNat q.word1.toNat s).map fun s =>
        s.modDie d fun y => { y with heat := { y.heat with waiting := rest } }

/-- Every waiting notification that can be sent is sent. -/
def sendAllHeat (d : Nat) (s : State) : State :=
  (indices 16).foldl (fun s _ => (sendHeat d s).getD s) s

/-- HEAT_THRESHOLD (R170, R172): a count that has reached HEATTH resets, and with EN = 1 a notification with the count in the input's
value is made. Where an access made it (`countHeat`), the count has been reset already, and what has been counted since stays. -/
def execHeatThreshold (s : State) : Out :=
  let i := s.input
  let d := i.die.toNat
  let n := i.value.toNat
  if n < (s.die d).heat.threshold.toNat then .next s
  else
    let set := bits i.page.toNat 12 10
    let s := s.modDie d fun x =>
      let l := (lookupD x.heat.sets set []).map fun e =>
        if e.tenant == i.tenant && e.page == i.page.toNat && e.size == i.size.toNat && decide (x.heat.threshold.toNat ≤ e.count) then
          { e with count := 0 }
        else e
      { x with heat := { x.heat with sets := insert x.heat.sets set l } }
    if !(s.die d).heat.en then .next s
    else
      let s := sendAllHeat d s
      let note : Heat :=
        ⟨word (i.page.toNat / 16 * 16 + i.size.toNat), word (i.tenant.toNat + n % 65536 * 2 ^ 16)⟩
      let x := (s.die d).heat
      let x := if x.waiting.length < 16 then { x with waiting := x.waiting ++ [note] }
        else { x with drops := BitVec.ofNat 16 (Nat.min (x.drops.toNat + 1) 0xFFFF) }
      let s := s.modDie d fun y => { y with heat := x }
      .next (if x.waiting.length = 1 then (sendHeat d s).getD s else s)

/-- HEAT_NOTIFICATION_SEND (R172). -/
def execHeatNotificationSend (s : State) : Out := .next ((sendHeat s.input.die.toNat s).getD s)

end Sys2Proof.Machine
end

