-- ==== Sys2Proof/Machine/Admission.lean ====
section
/-! DEFINITION. The Wharf's own steps: launch windows, wait counters, the admission loop, charges, the end of a group, and WQRY
answers (R204 to R208, R213, R232, R255, R306). -/

namespace Sys2Proof.Machine

/-! The Wharf's accesses (R204, R206, R207) -/

/-- The place of 8 aligned bytes at an address that the Wharf reaches for a tenant, by a walk of its own at a privilege. -/
def wharfPlace (t : Nat) (sup : Bool) (k : Access) (va : Word) (s : State) : Res Nat :=
  let x := s.tenant t
  let cx : Ctx := ⟨0, x.ptbase, x.asid, sup⟩
  if wbits va 48 16 ≠ 0 then .exc (pageExc 0x05 k va.toNat 0 0 0) 0 s
  else
    (walk cx k va.toNat 0 (wbits cx.ptbase 12 40) (wbits cx.ptbase 0 2) s [0, 1, 2, 3]).bind fun e s =>
      let p := paPlace (wbits e.pte 9 2) (physical e va.toNat)
      (reachable 0 p s).bind fun _ s => .ok p s

/-- The word at an address that the Wharf reads for a tenant. -/
def wharfRead (t : Nat) (sup : Bool) (va : Word) (s : State) : Res Nat :=
  (wharfPlace t sup .read va s).bind fun p s => loadPlace 0 p 8 s

/-- A report in the bank 14 of the die of a core (R206, R207). -/
def wharfReport (c source t : Nat) (addr : Word) (s : State) : State :=
  logBank c 14 0 source 0 (some addr) (miscRecord t 0 7 0) s

/-! Launch windows (R204, R255, R306) -/

/-- Reads of a loop table: the words, or reason 4. -/
def windowTable (t : Nat) (sup : Bool) (addr : Word) (n : Nat) (s : State) : Res (Option (List Nat)) :=
  (indices n).foldl (fun (r : Res (Option (List Nat))) i =>
    r.bind fun l s =>
      match l with
      | none => .ok none s
      | some l =>
        match wharfRead t sup (addr + word (8 * i)) s with
        | .ok w s => .ok (some (l ++ [w])) s
        | .stop f => .stop f
        | .exc _ _ s => .ok none s
        | .contained _ s => .ok none s
        | .wait _ s => .ok none s) (.ok (some []) s)

/-- A record stored in a window is checked as LAUNCH does: the record, or the reason of its rejection. -/
def windowRecord (tenant : Option Nat) (w : Nat) (s : State) : Res (LaunchRec ⊕ Nat) :=
  let (r, bad) := parseRecord w
  let t := tenant.getD r.tenant.toNat
  let sup := tenant.isNone
  if bad.isSome then .ok (.inr 32) s
  else
    (windowTable t sup (tableAddr w) 1 s).bind fun hd s =>
      match hd with
      | none => .ok (.inr 4) s
      | some hd =>
        (windowTable t sup (tableAddr w + 8) (levelsIn (hd.headD 0)) s).bind fun ws s =>
          match ws with
          | none => .ok (.inr 4) s
          | some ws =>
            let (levels, bad) := parseTable (hd ++ ws)
            let r := { r with levels := levels, tenant := BitVec.ofNat 6 t, sup := sup }
            .ok (if bad.isSome then .inr 33 else if !r.fits then .inr 35
              else if 1024 ≤ (s.tenant t).queued then .inr 2 else .inl r) s

/-- A store to a launch window: an enqueue, or the reason of its rejection. Any store that is not one aligned 64-byte store to the
enqueue area has reason 1, one to the status word or the reserved bytes too (R204, R306; log entry 26). -/
def windowStore (tenant : Option Nat) (off : Nat) (bytes : List Byte) (s : State) : Res (LaunchRec ⊕ Nat) :=
  if wbits s.host.ready 52 4 ≠ 15 then .ok (.inr 3) s
  else if bytes.length ≠ 64 ∨ off % 64 ≠ 0 ∨ 0x800 ≤ off then .ok (.inr 1) s
  else windowRecord tenant (numberOf bytes) s

def bumpRej (n : BitVec 16) : BitVec 16 := BitVec.ofNat 16 (Nat.min (n.toNat + 1) 0xFFFF)

/-- LAUNCH_WINDOW_STORE (R204). -/
def execLaunchWindowStore (s : State) : Out :=
  let i := s.input
  match windowStore (some i.tenant.toNat) i.off.toNat i.bytes s with
  | .ok (.inl r) s => .next (acceptRecord r s)
  | .ok (.inr n) s => .next (s.modTenant i.tenant.toNat fun t =>
      { t with rej := bumpRej t.rej, reason := BitVec.ofNat 8 n })
  | .stop f => .fault f
  | .wait _ s | .exc _ _ s | .contained _ s => .next s

/-- HYPERVISOR_LAUNCH_STORE (R255). -/
def execHypervisorLaunchStore (s : State) : Out :=
  let i := s.input
  match windowStore none i.off.toNat i.bytes s with
  | .ok (.inl r) s => .next ((acceptRecord r s).modWharf fun w => { w with hyperAcc := w.hyperAcc + 1 })
  | .ok (.inr n) s => .next (s.modWharf fun w =>
      { w with hyperRej := bumpRej w.hyperRej, hyperReason := BitVec.ofNat 8 n })
  | .stop f => .fault f
  | .wait _ s | .exc _ _ s | .contained _ s => .next s

/-! Wait counters (R206) -/

/-- The head of a tenant's queue of a priority. -/
def queueHead (t p : Nat) (s : State) : Option (Nat × Launch) :=
  match lookupD (s.tenant t).queues p [] with
  | [] => none
  | id :: _ => (lookup s.wharf.launches id).map fun l => (id, l)

/-- Whether a record's wait is met. -/
def Launch.eligible (l : Launch) : Bool := l.met || l.record.waitAddr == 0

/-- WAIT_COUNTER_READ (R206). -/
def execWaitCounterRead (s : State) : Out :=
  let t := s.input.tenant.toNat
  match queueHead t s.input.prio.toNat s with
  | none => .next s
  | some (id, l) =>
    if l.eligible then .next s
    else
      match wharfRead t l.record.sup l.record.waitAddr s with
      | .ok w s =>
        .next (if l.record.waitVal.toNat ≤ w then
            s.modWharf fun x => { x with launches := insert x.launches id { l with met := true } }
          else s)
      | .stop f => .fault f
      | .wait _ s | .exc _ _ s | .contained _ s => .next (wharfReport 0 0xA1 t l.record.waitAddr s)

/-! Admission (R208) -/

/-- The head of a tenant's highest-priority queue that is not empty. -/
def tenantHead (t : Nat) (s : State) : Option (Nat × Launch) :=
  match [3, 2, 1, 0].find? fun p => !(lookupD (s.tenant t).queues p []).isEmpty with
  | none => none
  | some p => queueHead t p s

/-- Tenants with a weight and an eligible head. -/
def hopefuls (s : State) : List Nat :=
  ((s.wharf.tenants.filter fun e => e.2.wgt != 0).map (·.1)).filter fun t =>
    match tenantHead t s with
    | none => false
    | some (_, l) => l.eligible

/-- Tenants whose head is admissible. -/
def admissible (s : State) : List Nat :=
  (hopefuls s).filter fun t =>
    match tenantHead t s with
    | none => false
    | some (id, l) => (admitNext id l s).isSome

def Tenant.owes (t : Tenant) : Int := t.deficit.toInt

/-- A new round: DEF[t] := min(DEF[t] + WGT[t] << 20, WGT[t] << 21). -/
def newRound (s : State) : State :=
  let more : Tenant → Tenant := fun t =>
    if t.wgt != 0 && decide (0 < t.queued) then
      { t with deficit := BitVec.ofInt 64 (min (t.owes + t.wgt.toNat * 2 ^ 20) (t.wgt.toNat * 2 ^ 21)) }
    else t
  s.modWharf fun w => { w with tenants := mapValues (fun _ t => more t) w.tenants }

/-- DEF[t] is reduced. -/
def charge (t n : Nat) (s : State) : State :=
  s.modTenant t fun x => { x with deficit := x.deficit - BitVec.ofNat 64 n }

/-- The first of some tenants that has a positive deficit, scanning upwards from a pointer and wrapping. -/
def pickTenant (ptr : Nat) (l : List Nat) (s : State) : Option Nat :=
  (indices 64).findSome? fun i =>
    let t := (ptr + i) % 64
    if l.contains t && decide (0 < (s.tenant t).owes) then some t else none

/-- The head of a tenant leaves its queue when all its units are admitted. -/
def advanceHead (t id units : Nat) (l : Launch) (s : State) : State :=
  let l := { l with nextGroup := l.nextGroup + units }
  let s := s.modWharf fun w => { w with launches := insert w.launches id l }
  if l.record.units ≤ l.nextGroup then
    let p := l.record.prio.toNat
    s.modTenant t fun x => { x with queues := insert x.queues p ((lookupD x.queues p []).filter fun i => i != id) }
  else s

/-- The next unit of tenant `t` is admitted, with its fee. -/
def admitTenant (t : Nat) (s : State) : State :=
  match tenantHead t s with
  | none => s
  | some (id, l) =>
    match admitNext id l s with
    | none => s
    | some (s, n) =>
      let l := (lookup s.wharf.launches id).getD l
      let units := if l.record.gang then l.record.units else 1
      (charge t (2 ^ 14 * n) (advanceHead t id units l s)).modWharf fun w => { w with ptr := t + 1 }

/-! Victims (R216) -/

/-- The groups that are pre-empted with a group: its W gang, or all of a GANG launch. -/
def together (g : Nat) (s : State) : List Nat :=
  match s.group? g with
  | none => []
  | some x =>
    let all := match lookup s.wharf.launches x.launch with
      | some l => l.record.gang
      | none => false
    let peers := (s.groupsOf x.launch).filter fun e =>
      all || e.1 == g || (x.gang.isSome && (e.2.gang.map (·.1)) == (x.gang.map (·.1)))
    (peers.filter fun e => !e.2.aborted && !e.2.gone).map (·.1)

/-- Groups are named for pre-emption. -/
def markVictims (l : List Nat) (s : State) : State :=
  l.foldl (fun s g => s.modGroup g fun x => { x with victim := true }) s

/-- The state with some groups out of the way, in which the Wharf asks whether a record could be placed. -/
def without (l : List Nat) (s : State) : State :=
  let lanes : Nat → Nat := fun c => ((l.filterMap s.group?).filter fun g => g.core.toNat == c).foldl (fun n g =>
    n + (g.harts.map fun h =>
      let x := s.hartAt c h.toNat
      x.vec.grant + (x.id.parked.map (·.2)).sum).sum) 0
  { s with wharf := { s.wharf with groups := s.wharf.groups.filter fun g => !l.contains g.1 }
           cores := mapValues (fun c k => { k with pool := k.pool + lanes c }) s.cores }

/-- The group that gives way to the head of a tenant, when that is eligible and cannot be placed: of the tenant's groups of
lower priority that would make room, one of the lowest, and of those the most recently admitted. -/
def victimFor (t : Nat) (s : State) : Option Nat :=
  match tenantHead t s with
  | none => none
  | some (id, l) =>
    let prioOf : Group → Nat := fun g => match lookup s.wharf.launches g.launch with
      | some l => l.record.prio.toNat
      | none => 4
    let mine := s.wharf.groups.filter fun g =>
      !g.2.aborted && !g.2.gone && !g.2.victim && decide (prioOf g.2 < l.record.prio.toNat) &&
        (match lookup s.wharf.launches g.2.launch with
         | some q => q.record.tenant.toNat == t
         | none => false) &&
        (admitNext id l (without (together g.1 s) s)).isSome
    (mine.foldl (fun (best : Option (Nat × Group)) g =>
      match best with
      | none => some g
      | some b =>
        if prioOf g.2 < prioOf b.2 || (prioOf g.2 == prioOf b.2 && decide (b.1 ≤ g.1)) then some g
        else some b) none).map (·.1)

/-- Whether a group of a tenant is already giving way. -/
def yielding (s : State) (t : Nat) : Bool :=
  s.wharf.groups.any fun g => g.2.victim && match lookup s.wharf.launches g.2.launch with
    | some q => q.record.tenant.toNat == t
    | none => false

/-- WHARF_ADMIT (R208, R216): a round or an admission; for a head that cannot be placed, a victim. R216 does not place the search for
a victim in the loop of R208: it happens while no tenant has an admissible head, for one set of victims of a tenant at a time
(DESIGN CHOICE; log entry 137). -/
def execWharfAdmit (s : State) : Out :=
  if wbits s.host.ready 52 4 ≠ 15 then .next s
  else
    match admissible s with
    | [] =>
      match (hopefuls s).filter fun t => !yielding s t with
      | [] => .next s
      | l =>
        match l.findSome? fun t => victimFor t s with
        | none => .next s
        | some g => .next (markVictims (together g s) s)
    | l =>
      if l.all fun t => decide ((s.tenant t).owes ≤ 0) then .next (newRound s)
      else
        match pickTenant s.wharf.ptr l s with
        | none => .next s
        | some t => .next (admitTenant t s)

/-! Charges (R208) -/

/-- The tenant of a group. -/
def groupTenant (g : Group) (s : State) : Nat :=
  match lookup s.wharf.launches g.launch with
  | some l => l.record.tenant.toNat
  | none => 0

/-- A group's use up to some resident cycles is charged to its tenant. -/
def chargeUse (g cycles : Nat) (s : State) : State :=
  match s.group? g with
  | none => s
  | some x =>
    let total := cycles * x.harts.length / 4
    if total ≤ x.charged then s
    else (charge (groupTenant x s) (total - x.charged) s).modGroup g fun x => { x with charged := total }

/-- Resident cycles of a group. -/
def groupCycles (x : Group) (s : State) : Nat := x.carried + ((s.core x.core.toNat).cycles - x.admitted)

/-- USAGE_CHARGE (R208): at each 2^16 cycles of residence. -/
def execUsageCharge (s : State) : Out :=
  match s.group? s.input.group with
  | none => .next s
  | some x =>
    if x.gone then .next s else .next (chargeUse s.input.group ((groupCycles x s) / 65536 * 65536) s)

/-! The end of a group (R207, R232) -/

/-- Whether a group has ended: its harts have, and the engines hold no command of it. -/
def groupOver (g : Nat) (x : Group) (s : State) : Bool :=
  let c := x.core.toNat
  !x.gone && (x.harts.all fun h => !(s.hartAt c h.toNat).run.running) &&
    !((s.core c).copyFifo.any fun q => q.group == g) && !((s.die (dieOf c)).coll.any fun q => q.group == g && !q.answered)

/-- The groups of the W gang of a group, resident and saved, with their numbers. -/
def gangGroups (x : Group) (s : State) : List (Nat × Group) :=
  match x.gang with
  | none => []
  | some (n, _) =>
    (s.wharf.groups ++ s.wharf.saved.map fun e => (e.1, e.2.group)).filter fun e =>
      e.2.launch == x.launch && (e.2.gang.map (·.1)) == some n

/-- Whether another group of its W gang, which may be saved, still needs an aborted group's record: a crew operation below its
limit is to come. -/
def gangNeeds (x : Group) (s : State) : Bool :=
  x.aborted && (gangGroups x s).any fun e => !e.2.aborted && !e.2.gone && decide (e.2.crewDone < x.crewLimit)

/-- The done counter is incremented (R207). -/
def bumpDone (c : Nat) (r : LaunchRec) (s : State) : Res Unit :=
  if r.doneAddr = 0 then .ok () s
  else
    let t := r.tenant.toNat
    let failed : State → Res Unit := fun s =>
      .ok () ((wharfReport c 0xA2 t r.doneAddr s).modHost fun o => { o with irqs := o.irqs ++ [.doneCounter r.tenant] })
    match (wharfPlace t r.sup .amo r.doneAddr s).bind fun p s => (loadPlace c p 8 s).bind fun w s => .ok (p, w) s with
    | .ok (p, w) s => .ok () (performNat p 8 (w + 1) s)
    | .stop f => .stop f
    | .wait _ s | .exc _ _ s | .contained _ s => failed s

/-- What a group held on its core is free: its harts, channels, Landing entries and Pontoon. -/
def releaseGroup (g : Nat) (x : Group) (s : State) : State :=
  let c := x.core.toNat
  let s := x.harts.foldl (fun s h =>
    (dropEntries c h.toNat s).modHartAt c h.toNat fun y => { y with id := { y.id with group := none } }) s
  s.modCore c fun k => { k with channels := k.channels.filter fun e => e.2.group != g }

/-- A group that only its gang, resident or saved, refers to stays until the gang has ended. -/
def retireGroup (g : Nat) (x : Group) (s : State) : State :=
  let peers := (gangGroups x s).filter fun e => e.1 != g
  if peers.any fun e => !e.2.gone then s.modGroup g fun y => { y with gone := true, harts := [], size := 0 }
  else s.modWharf fun w =>
    { w with groups := w.groups.filter fun (e : Nat × Group) => e.1 != g && !(peers.any fun p => p.1 == e.1) }

/-- One more group of a launch has ended; the launch ends with the last (R207). Unanswered requests of the group are
discarded (R215). -/
def countEnded (g launch : Nat) (s : State) : State :=
  match lookup s.wharf.launches launch with
  | none => s
  | some l =>
    let l := { l with ended := l.ended + 1, requests := l.requests.filter fun q => q.1 != g }
    s.modWharf fun w =>
      { w with launches := if l.record.groups ≤ l.ended then erase w.launches launch else insert w.launches launch l }

/-- GROUP_END (R207). -/
def execGroupEnd (s : State) : Out :=
  let g := s.input.group
  match s.group? g with
  | none => .next s
  | some x =>
    if !groupOver g x s || gangNeeds x s then .next s
    else
      let s := chargeUse g (groupCycles x s) s
      match lookup s.wharf.launches x.launch with
      | none => .next (retireGroup g x (releaseGroup g x s))
      | some l =>
        match bumpDone x.core.toNat l.record s with
        | .ok _ s => .next (countEnded g x.launch (retireGroup g x (releaseGroup g x (spillTable x.core.toNat s))))
        | .stop f => .fault f
        | .wait _ s | .exc _ _ s | .contained _ s => .next s

/-! WQRY answers (R213) -/

/-- The next answer of a launch: COUNT indices, then the end token. -/
def Launch.answer (l : Launch) : Nat :=
  if decide (l.nextIndex < (yCount l).getD 0) then l.nextIndex else 2 ^ 64 - 1

/-- An answer is delivered to a group's channel, where that has a free slot. -/
def deliverAnswer (g n w : Nat) (s : State) : Option State :=
  match s.group? g with
  | none => none
  | some x =>
    match lookup (s.core x.core.toNat).channels n with
    | none => some s
    | some ch => if ch.group = g then fillChannel x.core.toNat n true w 0 s else some s

/-- The first request that a pass can serve: a held answer that can be delivered, or the oldest request without one. -/
def serveRequest (l : Launch) (s : State) : Option (Launch × State) :=
  match l.requests.zipIdx.findSome? fun (q, i) => match q.2.2 with
    | some w => (deliverAnswer q.1 q.2.1 w s).map fun t => (i, t)
    | none => none with
  | some (i, t) => some ({ l with requests := l.requests.eraseIdx i }, t)
  | none =>
    match l.requests.zipIdx.find? fun q => q.1.2.2.isNone with
    | none => none
    | some (q, i) =>
      let next := { l with nextIndex := l.nextIndex + 1 }
      if (s.wharf.saved.any fun e => e.1 == q.1) then
        some ({ next with requests := l.requests.set i (q.1, q.2.1, some l.answer) }, s)
      else
        (deliverAnswer q.1 q.2.1 l.answer s).map fun t => ({ next with requests := l.requests.eraseIdx i }, t)

/-- WQRY_ANSWER (R213). -/
def execWqryAnswer (s : State) : Out :=
  match lookup s.wharf.launches s.input.launch with
  | none => .next s
  | some l =>
    match serveRequest l s with
    | none => .next s
    | some (l, t) => .next (t.modWharf fun w => { w with launches := insert w.launches s.input.launch l })

end Sys2Proof.Machine
end

