-- ==== Sys2Proof/Machine/SaveArea.lean ====
section
/-! DEFINITION. The images of VIQ entries and Landing entries, and the save area of a group: what its bytes are, and what a restore
reads from them (R81, R93, R101, R216, R217, R243, R245). -/

namespace Sys2Proof.Machine

/-! The image of a VIQ entry (R245) -/

/-- A word of the 64-byte image of a VIQ entry (R245; log entry 58). -/
def readEntry (k : BitVec 3) (e : VEntry) : Word :=
  match k with
  | 2 => word e.instr.encode
  | 3 => e.seed
  | 4 => e.ric
  | 5 => e.tgrant
  | 6 => word (wbits e.ptbase 12 40 + wbits e.ptbase 0 2 * 2 ^ 40 + wbits e.fpctl 0 9 * 2 ^ 42 + e.vl % 2 ^ 13 * 2 ^ 51)
  | 7 => word (wbits e.vtype 0 12 + e.mspace % 4 * 2 ^ 12 + bit e.sup * 2 ^ 14 + wbits e.asid 0 16 * 2 ^ 16)
  | k => e.xs.getD k.toNat 0

/-- A stopped hart's VIQ entry takes a word of its image (R53, R245; log entry 58): the two x operands, the instruction, SEED, RIC,
TGRANT, then PTBASE, MT, FPCTL and VL, then VTYPE, MSPACE, the privilege and ASID. A word that is no instruction is dropped. -/
def writeEntry (k : BitVec 3) (w : Word) (e : VEntry) : VEntry :=
  match k with
  | 2 => { e with instr := (decodeTableWord 64 w.toNat).getD e.instr }
  | 3 => { e with seed := w }
  | 4 => { e with ric := w }
  | 5 => { e with tgrant := w }
  | 6 => { e with ptbase := word (wbits w 0 40 * 4096 + wbits w 40 2), fpctl := word (wbits w 42 9), vl := wbits w 51 13 }
  | 7 => { e with vtype := word (wbits w 0 12), mspace := wbits w 12 2, sup := w.getLsbD 14, asid := word (wbits w 16 16) }
  | k => { e with xs := e.xs.set k.toNat w }

/-- The entries of the VIQ, those that a trap holds first (R220). -/
def Hart.entries (x : Hart) : List VEntry := x.vec.held ++ x.vec.viq

/-- Entry `n` of the VIQ changes. -/
def Hart.modEntry (x : Hart) (n : Nat) (f : VEntry → VEntry) : Hart :=
  let h := x.vec.held.length
  { x with vec := { x.vec with
      held := x.vec.held.zipIdx.map fun e => if e.2 = n then f e.1 else e.1
      viq := x.vec.viq.zipIdx.map fun e => if h + e.2 = n then f e.1 else e.1 } }

/-- The entry at VCP goes on at another element. -/
def Hart.setVstart (x : Hart) (n : Nat) : Hart :=
  match x.entries.head?.map VEntry.instr, x.lp.loop with
  | some (.loop _ _), some l =>
    { x with lp := { x.lp with loop := some { l with
        body := l.body.zipIdx.map fun b => if b.2 = l.pos then { b.1 with start := n } else b.1 } } }
  | _, _ => x.modEntry 0 fun e => { e with start := n }

/-- The eight words of the image of an entry. -/
def VEntry.imageWords (e : VEntry) : List Word := (indices 8).map fun k => readEntry (BitVec.ofNat 3 k) e

/-! The image of a Landing entry (R81, R243) -/

/-- The code of a state of a Landing entry in its image (log entry 109). -/
def LState.code : LState → BitVec 3
  | .waiting => 0
  | .ready => 1
  | .inFerry f1 => if f1 then 3 else 2
  | .inherited => 4
  | .poisoned => 5

/-- LINK of an operand of an entry: the valid bit, and the number of the producer entry. -/
def LEntry.linkField (e : LEntry) (operand : Nat) : BitVec 9 :=
  match e.links.find? fun l => l.operand == operand with
  | none => 0
  | some l => BitVec.ofNat 9 (256 + l.entry)

/-- The fields of a Landing entry, each with its width, in the order of R81. -/
def LEntry.fields (e : LEntry) : List (Nat × Nat) :=
  [(2, e.hart.toNat), (32, e.seq.toNat), (48, e.pc.toNat), (6, e.cls.toNat), (4, e.ty.toNat), (4, e.tgt.toNat)] ++
    [(13, e.index.toNat), (6, e.row.toNat), (5, e.reg.toNat), (64, e.opa.toNat), (64, e.opb.toNat), (64, e.opc.toNat)] ++
    [(3, e.rm.toNat), (5, e.en.toNat), (1, bit e.nft), (16, e.srb.toNat)] ++
    ([0, 1, 2].map fun o => (9, (e.linkField o).toNat)) ++
    [(48, e.handler.toNat), (3, e.state.code.toNat), (8, e.cause.toNat), (8, e.detail.toNat)]

/-- Fields of given widths one above the other, the first lowest. -/
def packFields (l : List (Nat × Nat)) : Nat := l.foldr (fun f n => f.2 % 2 ^ f.1 + n * 2 ^ f.1) 0

/-! The save area (R217)

R217 gives the order, the sizes and the contents of the sections, not the places of the fields within the header, the control block,
the queues, the streams, the loop, the deferred records, the Pontoon's record, the claims, the channels and the tokens: those places
are the model's (DESIGN CHOICE; log entry 84). Bytes of a section that hold no field are open. -/

/-- Size of a section: from one 64-byte boundary to the next. -/
def sectionSize (n : Nat) : Nat := ceilDiv n 64 * 64

/-- `n` bytes that are open, by the number of the first free value. -/
def openBytes (k n : Nat) : List Byte := (indices n).map fun i => BitVec.ofNat 8 (Config.freeValue (k + i)).toNat

/-- `n` bytes: those of a list, then open ones. -/
def block (k n : Nat) (l : List Byte) : List Byte := l.take n ++ openBytes (k + l.length) (n - l.length)

/-- A section up to the next boundary. -/
def aligned64 (k : Nat) (l : List Byte) : List Byte := block k (sectionSize l.length) l

/-- The words of a list, eight bytes each. -/
def wordBytes (l : List Word) : List Byte := l.flatMap fun w => natToBytes 8 w.toNat

/-- Word `i` of a record at a place. -/
def areaWord (mem : Memory) (p i : Nat) : Word := word (readNat mem (p + 8 * i) 8)

/-- Parts of given sizes one after another from an offset, each with its offset. -/
def laidOut (p : Nat) : List (HartNo × Nat) → List (HartNo × Nat)
  | [] => []
  | (h, n) :: l => (h, p) :: laidOut (p + n) l

def sizes (l : List (HartNo × Nat)) : Nat := (l.map (·.2)).sum

/-! The record of a hart -/

/-- Bytes of the scale sidecar of a register of which `n` bytes are saved. -/
def sideBytes (n : Nat) : Nat := ceilDiv n 8

/-- Bytes that the vector registers of a hart take: each up to its VHW, with its sidecar. -/
def Hart.vectorSize (x : Hart) : Nat := (x.vec.written.map fun e => e.2 + sideBytes e.2).sum

/-- The vector registers of a hart: for each, its bytes and then its sidecar bytes. -/
def Hart.vectorBytes (x : Hart) : List Byte :=
  x.vec.written.flatMap fun e => natToBytes e.2 (x.getV e.1).toNat ++ natToBytes (sideBytes e.2) (x.getSide e.1).toNat

/-- x0 to x63, k0 to k7 in a byte each, and b0 to b7. -/
def Hart.scalarBytes (k : Nat) (x : Hart) : List Byte :=
  wordBytes ((indices 64).map x.getX) ++ aligned64 k ((indices 8).map fun i => BitVec.ofNat 8 (bit (x.getK i))) ++
    wordBytes ((indices 8).map fun i => (x.getB i).image)

/-- m1 to m7. -/
def Hart.maskBytes (x : Hart) : List Byte := (indices 7).flatMap fun i => natToBytes 512 (x.getM (i + 1)).toNat

/-- The control and trap registers that a record holds after the front PC, VCP and VSTART, by number: VTYPE, VL, MSPACE, VGRANT, FPCTL,
FFLAGS, SEED, RIC, HCTL, ROBJ, RSTAT, TPC to TSCR1, PLEV, TENANT, CYCLE, RETIRED, PTBASE, ASID and MCSEL. RANK of HARTID stands beside
VSTART. -/
def savedCtl : List Nat :=
  [0x001, 0x000, 0x002, 0x004, 0x008, 0x009, 0x00A, 0x00B, 0x00C, 0x018, 0x019] ++ (indices 12).map (0x020 + ·) ++
    [0x033, 0x040, 0x041, 0x100, 0x101, 0x104]

/-- The control block of a hart: 32 words. -/
def controlBytes (c h : Nat) (s : State) : List Byte :=
  let x := s.hartAt c h
  wordBytes ([x.pc.zeroExtend 64, x.vcp.1.zeroExtend 64, word (x.vcp.2 + x.id.rank.toNat * 2 ^ 32)] ++ savedCtl.map fun i => readCtl i (s.focus c h))

/-- A control register of a hart as its record gives it. -/
def Hart.setSaved (x : Hart) (i : Nat) (w : Word) : Hart :=
  match i with
  | 0x000 => { x with vec := { x.vec with vl := w.toNat } }
  | 0x001 => { x with vec := { x.vec with vtype := w } }
  | 0x018 => { x with rc := { x.rc with objV := w.getLsbD 63, objOff := BitVec.ofNat 22 w.toNat } }
  | 0x019 =>
    { x with rc := { x.rc with
        phase := BitVec.ofNat 2 (wbits w 62 2), rout := BitVec.ofNat 2 (wbits w 60 2), act := w.getLsbD 59, stop := w.getLsbD 58
        batch := BitVec.ofNat 10 (wbits w 48 10), level := BitVec.ofNat 8 (wbits w 40 8), cells := BitVec.ofNat 32 w.toNat } }
  | 0x020 => { x with tr := { x.tr with tpc := w } }
  | 0x021 => { x with tr := { x.tr with tvcp := w } }
  | 0x022 => { x with tr := { x.tr with tcause := w } }
  | 0x023 => { x with tr := { x.tr with tvst := w } }
  | 0x024 => { x with tr := { x.tr with tinfo0 := w } }
  | 0x025 => { x with tr := { x.tr with tinfo1 := w } }
  | 0x026 => { x with tr := { x.tr with tinfo2 := w } }
  | 0x027 => { x with tr := { x.tr with tinfo3 := w } }
  | 0x028 => { x with tr := { x.tr with tbase := w } }
  | 0x02B => { x with tr := { x.tr with sup := w.getLsbD 0 } }
  | 0x033 => { x with id := { x.id with tenant := w } }
  | 0x040 => { x with run := { x.run with cycle := w } }
  | 0x041 => { x with run := { x.run with retired := w } }
  | 0x100 => { x with ms := { x.ms with ptbase := w } }
  | i => x.writeCtl i w

/-- A hart with its control block, which begins at a place; where it stands in the VIQ follows from the entries. -/
def Hart.reloadControl (x : Hart) (mem : Memory) (p : Nat) : Hart :=
  let x := savedCtl.zipIdx.foldl (fun x e => x.setSaved e.1 (areaWord mem p (3 + e.2)))
    { x with pc := BitVec.ofNat 48 (areaWord mem p 0).toNat
             id := { x.id with rank := BitVec.ofNat 2 (wbits (areaWord mem p 2) 32 2) } }
  x.setVstart (wbits (areaWord mem p 2) 0 13)

/-- Entries of the VIQ as images of 64 bytes, in `n` places. -/
def viqBytes (k n : Nat) (l : List VEntry) : List Byte := block k (64 * n) (l.flatMap fun e => wordBytes e.imageWords)

/-- The entries before a handler, and the handler's own while LOCK = 1 (R220). -/
def Hart.plainViq (x : Hart) : List VEntry := if x.tr.tcause.getLsbD 59 then x.vec.held else x.vec.viq
def Hart.handlerViq (x : Hart) : List VEntry := if x.tr.tcause.getLsbD 59 then x.vec.viq else []

/-- Entries with the images that begin at a place. -/
def reloadViq (mem : Memory) (p : Nat) (l : List VEntry) : List VEntry :=
  l.zipIdx.map fun e => (indices 8).foldl (fun v k => writeEntry (BitVec.ofNat 3 k) (areaWord mem (p + 64 * e.2) k) v) e.1

/-- The strips that the entries of a list claim through a slot (R273). -/
def claimedIn (n : Nat) (l : List VEntry) : List Strip := l.flatMap fun v => v.strips.filter fun t => t.slot == n

/-- Which entries of a list claim a strip through a slot, entry 0 at bit 0. -/
def claimBits (n : Nat) (l : List VEntry) : Nat :=
  l.zipIdx.foldl (fun w e => if (claimedIn n [e.1]).isEmpty then w else w + 2 ^ e.2) 0

/-- The body of the captured loop of a hart. -/
def Hart.body (x : Hart) : List VEntry := (x.lp.loop.map Loop.body).getD []

/-- The oldest strip that a hart has claimed through a slot. -/
def Hart.oldestStrip (x : Hart) (n : Nat) : Option Strip := (claimedIn n (x.plainViq ++ x.handlerViq ++ x.body)).head?

/-- A stream slot in 15 words: flags with the reserved tail slot, BASE, P, the pass, count and stride of each level, then the claimed
strips: the position and the pass of the oldest, which the others follow, and which entries of the VIQ, of the handler's VIQ and of the
loop's body claim one. -/
def Hart.streamImage (x : Hart) (n : Nat) (q : Stream) : List Word :=
  let d := q.desc
  let tail := match lookup x.ms.tails q.pass with
    | some t => 1 + t.slot % 256 * 2 + bit t.filled * 2 ^ 9
    | none => 0
  let old := (x.oldestStrip n).map fun t => (t.pos, t.pass)
  [word (1 + bit d.store * 2 + bit d.chv * 4 + d.ch % 16 * 2 ^ 4 + d.ty.toNat * 2 ^ 8 + d.space % 4 * 2 ^ 12 +
      d.levels.length * 2 ^ 16 + ((q.bound.map fun r => 2 ^ 5 + r.toNat).getD 0) * 2 ^ 24 + tail * 2 ^ 32),
    word d.base, word q.pos, word q.pass] ++
    ((indices 6).map fun j => match d.levels[j]? with
      | some l => word l.1 ||| (BitVec.ofInt 64 l.2 <<< 32)
      | none => 0) ++
    [word ((old.map (·.1)).getD 0), word ((old.map (·.2)).getD 0), word (claimBits n x.plainViq),
      word (claimBits n x.handlerViq), word (claimBits n x.body)]

def Stream.reload (mem : Memory) (p : Nat) (x : Stream) : Stream :=
  let w := areaWord mem p 0
  { desc :=
      { base := (areaWord mem p 1).toNat, space := wbits w 12 2, ty := BitVec.ofNat 4 (wbits w 8 4), store := w.getLsbD 1
        chv := w.getLsbD 2, ch := wbits w 4 4
        levels := x.desc.levels.zipIdx.map fun l =>
          (wbits (areaWord mem p (4 + l.2)) 0 32, signedOf 32 (wbits (areaWord mem p (4 + l.2)) 32 32)) }
    pos := (areaWord mem p 2).toNat
    bound := if w.getLsbD 29 then some (BitVec.ofNat 5 (wbits w 24 5)) else none
    pass := (areaWord mem p 3).toNat }

/-- Entries with the strips of a slot that a word says they claim: the oldest stands at a position, and `old` is where it stood. -/
def reclaim (n : Nat) (claimed : Word) (now old : Nat × Nat) (l : List VEntry) : List VEntry :=
  l.zipIdx.map fun e =>
    let keep : Strip → Option Strip := fun t =>
      if t.slot ≠ n then some t
      else if claimed.getLsbD e.2 then some { t with pos := t.pos + now.1 - old.1, pass := t.pass + now.2 - old.2 }
      else none
    { e.1 with strips := e.1.strips.filterMap keep }

/-- A hart with the claimed strips and the tail slot of a stream slot, whose image begins at a place. -/
def Hart.reloadSlot (mem : Memory) (p n : Nat) (x : Hart) : Hart :=
  let w := areaWord mem p 0
  let pass := (areaWord mem p 3).toNat
  let old := ((x.oldestStrip n).map fun t => (t.pos, t.pass)).getD (0, 0)
  let now := ((areaWord mem p 10).toNat, (areaWord mem p 11).toNat)
  let take : Nat → List VEntry → List VEntry := fun i => reclaim n (areaWord mem p (12 + i)) now old
  let locked := x.tr.tcause.getLsbD 59
  { x with
    vec := { x.vec with
      held := if locked then take 0 x.vec.held else x.vec.held
      viq := if locked then take 1 x.vec.viq else take 0 x.vec.viq }
    lp := { x.lp with loop := x.lp.loop.map fun l => { l with body := take 2 l.body } }
    ms := { x.ms with tails := match lookup x.ms.tails pass with
      | some t => if w.getLsbD 32 then insert x.ms.tails pass { t with slot := wbits w 33 8, filled := w.getLsbD 41 }
          else erase x.ms.tails pass
      | none => x.ms.tails } }

/-- q0 to q7. -/
def Hart.streamBytes (k : Nat) (x : Hart) : List Byte :=
  (indices 8).flatMap fun i => match lookup x.ms.streams i with
    | none => block (k + 128 * i) 128 (wordBytes [0])
    | some q => block (k + 128 * i) 128 (wordBytes (x.streamImage i q))

/-- The loop registers, then for each body instruction its word, two x operands, VL, VTYPE and MSPACE in 30 bytes; the first of them
holds the position in the body, and whether a VEXIT held. -/
def Hart.loopBytes (k : Nat) (x : Hart) : List Byte :=
  let place := (x.lp.loop.map fun l => bit l.ending * 2 ^ 27 + l.pos % 16 * 2 ^ 28).getD 0
  block k 512 (wordBytes [x.lp.lcnt, x.lp.lbody, x.lp.lenWord, x.lp.liter] ++
    x.body.zipIdx.flatMap fun e => wordBytes ([2, 0, 1].map fun k => readEntry k e.1) ++
      natToBytes 6 (e.1.vl % 2 ^ 13 + wbits e.1.vtype 0 12 * 2 ^ 13 + e.1.mspace % 4 * 2 ^ 25 + if e.2 = 0 then place else 0))

def Hart.reloadLoop (x : Hart) (mem : Memory) (p : Nat) : Hart :=
  let x := (indices 4).foldl (fun x i => x.writeCtl (0x010 + i) (areaWord mem p i)) x
  let last : Nat → Nat := fun i => readNat mem (p + 56 + 30 * i) 6
  { x with lp := { x.lp with loop := x.lp.loop.map fun l =>
      { body := l.body.zipIdx.map fun e =>
          let q := p + 32 + 30 * e.2
          let w := last e.2
          let v := writeEntry 1 (areaWord mem q 2) (writeEntry 0 (areaWord mem q 1) (writeEntry 2 (areaWord mem q 0) e.1))
          { v with vl := w % 2 ^ 13, vtype := word (bits w 13 12), mspace := bits w 25 2 }
        ending := bits (last 0) 27 1 == 1
        pos := bits (last 0) 28 4 } } }

/-- The return queue: for each entry that is reserved, its value, which is open until its instruction executes, and its destination,
an x register or, from 64 on, a k register, with 256 for reserved. -/
def Hart.returnBytes (k : Nat) (x : Hart) : List Byte :=
  let due := x.entries.filterMap fun v => match v.dueX with
    | some d => some d
    | none => v.dueK.map (64 + ·)
  block k 256 (due.zipIdx.flatMap fun d => openBytes (k + 16 * d.2) 8 ++ natToBytes 8 (d.1 + 256))

/-! Stores (R275, R276) -/

/-- Bytes of one store in runs of up to eight at rising places. -/
def runsOfCells : List StoreCell → List (List StoreCell)
  | [] => []
  | b :: l =>
    match runsOfCells l with
    | [] => [[b]]
    | r :: rs =>
      if r.length < 8 ∧ (r.head?.map StoreCell.place) = some (b.place + 1) then (b :: r) :: rs else [b] :: r :: rs

/-- The runs of a store; the fill of a slot has no byte. -/
def Pending.runs (q : Pending) : List (List StoreCell) := if q.cells.isEmpty then [[]] else runsOfCells q.cells

/-- The space of a place of a group's store, and the address in it: in its own arena LS, in another member of its gang CLS (R142). -/
def spaceOf (g : Group) (p : Nat) (s : State) : Nat × Nat :=
  let within : Group → Bool := fun y =>
    let lo := lsPlace y.core.toNat y.lsBase
    decide (lo ≤ p) && decide (p < lo + y.size)
  if within g then (0, p - lsPlace g.core.toNat g.lsBase)
  else
    match (indices 4).findSome? fun m => ((s.gangMember g m).filter fun y => within y.2).map fun y => (m, y.2) with
    | some (m, y) => (1, m * Config.lsSize + (p - lsPlace y.core.toNat y.lsBase))
    | none => (0, 0)

/-- Space and address of a run of a store: 0 LS, 1 CLS, 2 GV, or 3 for the fill of a slot, with its channel and slot. -/
def Pending.whereTo (q : Pending) (g : Group) (r : List StoreCell) (s : State) : Nat × Nat :=
  match q.fill, q.addr, r.head? with
  | some f, _, none => (3, f.1 * 256 + f.2)
  | _, some a, some b => (2, a.va.toNat + (b.place - ((q.cells.head?.map StoreCell.place).getD 0)))
  | _, _, some b => spaceOf g b.place s
  | _, _, none => (0, 0)

/-- A run of a store in 32 bytes: the space, the size, the mask of a single byte, and of an AMO its operation; the address; the data;
and PTBASE, with how many entries of the VIQ go before it. ASID and the privilege stand in the first word. -/
def Pending.image (q : Pending) (g : Group) (r : List StoreCell) (s : State) : List Word :=
  let a := q.addr.getD ⟨0, 0, 0, false⟩
  let there := q.whereTo g r s
  let mask := (r.head?.map fun b => b.mask.toNat).getD 0
  let amo := (q.amo.map fun o => 1 + bit o.acquires * 2 + o.op % 16 * 4).getD 0
  [word (there.1 + r.length * 2 ^ 8 + bit q.parked * 2 ^ 16 + amo * 2 ^ 17 + mask * 2 ^ 24 + a.asid.toNat * 2 ^ 32 + bit a.sup * 2 ^ 48),
    word there.2, word (bytesToNat (r.map StoreCell.data)),
    word (wbits a.ptbase 12 40 + wbits a.ptbase 0 2 * 2 ^ 40 + q.after % 2 ^ 16 * 2 ^ 48)]

/-- A store with what its runs hold, which begin at a place and follow one another at a distance; `locate` gives the place of an address
of LS or CLS. -/
def Pending.reload (mem : Memory) (locate : Nat → Nat → Option Nat) (p step : Nat) (q : Pending) : Pending :=
  let w := areaWord mem p 0
  let y := areaWord mem p 3
  let cells := q.runs.zipIdx.flatMap fun e =>
    let r := p + step * e.2
    let w := areaWord mem r 0
    let base := (locate (wbits w 0 2) (areaWord mem r 1).toNat).getD ((e.1.head?.map StoreCell.place).getD 0)
    e.1.zipIdx.map fun b =>
      { place := base + b.2, data := readPlace mem (r + 16 + b.2)
        mask := if e.1.length = 1 then BitVec.ofNat 8 (wbits w 24 8) else b.1.mask }
  { q with
    cells := cells
    fill := q.fill.map fun f => if q.cells.isEmpty then ((areaWord mem p 1).toNat / 256, (areaWord mem p 1).toNat % 256) else f
    parked := w.getLsbD 16
    after := wbits y 48 16
    addr := q.addr.map fun _ =>
      ⟨areaWord mem p 1, word (wbits y 0 40 * 4096 + wbits y 40 2), BitVec.ofNat 16 (wbits w 32 16), w.getLsbD 48⟩
    amo := q.amo.map fun a => { a with acquires := w.getLsbD 18, op := wbits w 19 4 } }

/-- The store queue: 16 entries of 32 bytes. -/
def Hart.storeBytes (k : Nat) (x : Hart) (g : Group) (s : State) : List Byte :=
  block k 512 ((x.ms.stq.filter Pending.scalar).flatMap fun q => q.runs.flatMap fun r => wordBytes (q.image g r s))

/-- The scalar stores as the store queue at a place holds them. -/
def reloadQueued (mem : Memory) (locate : Nat → Nat → Option Nat) : Nat → List Pending → List Pending
  | _, [] => []
  | p, q :: l =>
    if q.scalar then q.reload mem locate p 32 :: reloadQueued mem locate (p + 32 * q.runs.length) l else q :: reloadQueued mem locate p l

/-- The command words that form no whole command: three for each engine, and how many there are. -/
def Hart.commandBytes (k : Nat) (x : Hart) : List Byte :=
  block k 24 (wordBytes x.ms.copyWords) ++ block (k + 24) 24 (wordBytes x.ms.collWords) ++
    natToBytes 8 x.ms.copyWords.length ++ natToBytes 8 x.ms.collWords.length

/-- The image of a Landing entry as a deferred record. -/
def LEntry.image (e : LEntry) : BitVec 512 := BitVec.ofNat 512 (packFields e.fields)

/-- The fields of given widths in a number, the lowest first. -/
def unpackFields : List Nat → Nat → List Nat
  | [], _ => []
  | n :: l, w => w % 2 ^ n :: unpackFields l (w / 2 ^ n)

/-- The state of a code. -/
def LState.ofCode : Nat → LState
  | 0 => .waiting
  | 1 => .ready
  | 2 => .inFerry false
  | 3 => .inFerry true
  | 4 => .inherited
  | _ => .poisoned

/-- A Landing entry with the fields of its record (R81). -/
def LEntry.reload (w : Nat) (e : LEntry) : LEntry :=
  let l := unpackFields (e.fields.map (·.1)) w
  let f : Nat → Nat := fun i => l.getD i 0
  { e with
    hart := BitVec.ofNat 2 (f 0), seq := BitVec.ofNat 32 (f 1), pc := BitVec.ofNat 48 (f 2), cls := BitVec.ofNat 6 (f 3)
    ty := BitVec.ofNat 4 (f 4), tgt := BitVec.ofNat 4 (f 5), index := BitVec.ofNat 13 (f 6), row := BitVec.ofNat 6 (f 7)
    reg := BitVec.ofNat 5 (f 8), opa := word (f 9), opb := word (f 10), opc := word (f 11), rm := BitVec.ofNat 3 (f 12)
    en := BitVec.ofNat 5 (f 13), nft := f 14 == 1, srb := BitVec.ofNat 16 (f 15)
    links := e.links.filterMap fun k =>
      let n := f (16 + k.operand)
      if n < 256 then none
      else if (e.links.find? fun o => o.operand == k.operand) == some k then some { k with entry := n % 256 }
      else some k
    handler := BitVec.ofNat 48 (f 19), state := LState.ofCode (f 20), cause := BitVec.ofNat 8 (f 21)
    detail := BitVec.ofNat 8 (f 22) }

/-- The last words of the records of a store: of an AMO its code address and x[d], then its two values; of another, up to 16 entries
that it waits for, with 256 for valid. -/
def Pending.rest (q : Pending) : List Word :=
  match q.amo with
  | some a => [word (a.pc.toNat + a.d % 64 * 2 ^ 48), a.b, a.c]
  | none => (indices 4).map fun i => word ((indices 4).foldl (fun w j =>
      w + ((q.holes[4 * i + j]?.map fun p => 256 + p.entry).getD 0) * 2 ^ (16 * j)) 0)

/-- A store that waits, as deferred records: one for each run, without their open bytes. -/
def Pending.records (q : Pending) (g : Group) (s : State) : List (List Byte) :=
  q.runs.map fun r => wordBytes (q.image g r s ++ q.rest)

/-- A store with what its records hold, which begin at a place. -/
def Pending.restore (mem : Memory) (locate : Nat → Nat → Option Nat) (p : Nat) (q : Pending) : Pending :=
  let q := q.reload mem locate p 64
  { q with
    amo := q.amo.map fun a => { a with
      pc := BitVec.ofNat 48 (areaWord mem p 4).toNat, d := wbits (areaWord mem p 4) 48 6, b := areaWord mem p 5, c := areaWord mem p 6 }
    holes := q.holes.zipIdx.filterMap fun e =>
      let w := wbits (areaWord mem p (4 + e.2 / 4)) (16 * (e.2 % 4)) 9
      if 16 ≤ e.2 then some e.1 else if w < 256 then none else some { e.1 with entry := w % 256 } }

/-- The stores that wait, with what the deferred records from a place on hold; those of the store queue stand there. -/
def reloadDeferred (mem : Memory) (locate : Nat → Nat → Option Nat) : Nat → List Pending → List Pending
  | _, [] => []
  | p, q :: l =>
    (if q.scalar then q else q.restore mem locate p) :: reloadDeferred mem locate (p + 64 * q.runs.length) l

/-- Deferred records of a hart: its entries and the stores that wait. -/
def storeRecords (x : Hart) : Nat := (x.ms.stq.map fun q => q.runs.length).sum
def deferredCount (c h : Nat) (s : State) : Nat := (entriesOf c h s).length + storeRecords (s.hartAt c h)
def deferredBytes (c h : Nat) (g : Group) (s : State) (k : Nat) : List Byte :=
  (entriesOf c h s).flatMap (fun n => match s.entry? c n with
    | none => natToBytes 64 0
    | some e => natToBytes 64 e.image.toNat) ++
  ((s.hartAt c h).ms.stq.flatMap fun q => q.records g s).zipIdx.flatMap fun r => block (k + 64 * r.2) 64 r.1

/-- The Pontoon's record: the object, the address of the RRUN, what RRUN saved, and how far it has come. -/
def Pontoon.image (p : Pontoon) : List Word :=
  let o := p.obj
  let step := match p.step with
    | .divide => 0
    | .base => 1
    | .depth => 2
    | .combine => 3
    | .settle => 4
  [word o.codeBase, BitVec.ofInt 64 o.divOff, BitVec.ofInt 64 o.baseOff, BitVec.ofInt 64 o.combOff] ++
    [o.frame, o.result, o.fanout, o.depth, o.cap, o.arena, o.asize, p.pc.toNat, p.savedVl].map word ++
    [p.savedVtype, word step, word p.top, word p.sb, word (bit p.spawned)]

/-- The Pontoon's state with its record, which begins at a place. The cells of the levels, runs, slots and frames are those that the
frames in the arena have, and m7 as it was: 512 bytes cannot hold them (log entry 84). -/
def Pontoon.reload (mem : Memory) (p : Nat) (x : Pontoon) : Pontoon :=
  let w : Nat → Nat := fun i => (areaWord mem p i).toNat
  let i : Nat → Int := fun i => (areaWord mem p i).toInt
  { x with
    obj := { codeBase := w 0, divOff := i 1, baseOff := i 2, combOff := i 3, frame := w 4, result := w 5, fanout := w 6, depth := w 7
             cap := w 8, arena := w 9, asize := w 10 }
    pc := BitVec.ofNat 48 (w 11)
    savedVl := w 12
    savedVtype := areaWord mem p 13
    step := match w 14 with
      | 0 => .divide
      | 1 => .base
      | 2 => .depth
      | 3 => .combine
      | _ => .settle
    top := w 15
    sb := w 16
    spawned := w 17 == 1 }

def Hart.pontoonBytes (k : Nat) (x : Hart) : List Byte :=
  if x.rc.phase = 0 then [] else block k 512 (((x.rc.pontoon.map Pontoon.image).map wordBytes).getD [])

/-- Bytes of the rest of a hart record after its masks: the deferred records, and the Pontoon's. -/
def restSize (c h : Nat) (s : State) : Nat :=
  64 * deferredCount c h s + (if (s.hartAt c h).rc.phase = 0 then 0 else 512)

/-- The record of a running hart; its fixed part has 7,872 bytes. -/
def hartRecord (c h : Nat) (g : Group) (s : State) (k : Nat) : List Byte :=
  let x := s.hartAt c h
  let rest := k + 7872 + sectionSize x.vectorSize + 3584
  x.scalarBytes (k + 512) ++ controlBytes c h s ++ viqBytes (k + 896) Config.viqSize x.plainViq ++ x.streamBytes (k + 4992) ++
    x.loopBytes (k + 6016) ++ viqBytes (k + 6528) Config.handlerViqSize x.handlerViq ++ x.returnBytes (k + 7040) ++
    x.storeBytes (k + 7296) g s ++ x.commandBytes (k + 7808) ++ aligned64 (k + 7872) x.vectorBytes ++ x.maskBytes ++
    deferredBytes c h g s rest ++ x.pontoonBytes (rest + 64 * deferredCount c h s)

def hartRecordSize (c h : Nat) (s : State) : Nat :=
  7872 + sectionSize (s.hartAt c h).vectorSize + 3584 + restSize c h s

/-! The other sections -/

/-- A tile: its rows, then its sidecars. -/
def tileBytes (q : Core) (t : Nat) : List Byte :=
  (indices 128).flatMap (fun r => natToBytes 128 (q.tileRow t r).toNat) ++
    (indices 128).flatMap fun r => natToBytes 16 (q.tileSide t r).toNat

/-- An accumulator: its words by row, and 64 bytes that begin with its kind. -/
def accBytes (q : Core) (a k : Nat) : List Byte :=
  (indices 16384).flatMap (fun i => natToBytes 4 (lookupD q.tiles.words (a * 16384 + i) 0).toNat) ++
    block (k + 65536) 64 (natToBytes 1 (lookupD q.tiles.kinds a 0).toNat)

/-- TGRANT, then AMAX0 to AMAX3. -/
def Hart.claimBytes (k : Nat) (g : Option Group) (x : Hart) : List Byte :=
  block k 64 (wordBytes (x.tgrant g :: (indices 4).map fun i => (lookupD x.tile.amax i 0).zeroExtend 64))

/-- A hart with its shape and AMAX0 to AMAX3; NT, NA, GT and GA of TGRANT follow from what the group claims. -/
def Hart.reloadClaim (x : Hart) (mem : Memory) (p : Nat) : Hart :=
  let w := areaWord mem p 0
  (indices 4).foldl (fun x i => x.writeCtl (0x050 + i) (areaWord mem p (1 + i)))
    { x with tile := { x.tile with k := BitVec.ofNat 9 (wbits w 48 9), n := BitVec.ofNat 10 (wbits w 38 10)
                                   m := BitVec.ofNat 8 (wbits w 30 8), crew := w.getLsbD 29 } }

/-- Bytes of an element of a window. -/
def Window.size (w : Window) : Nat := typeBits w.ty.toNat / 8

/-- The virtual-lane copies of a window; a copy that is not updated is open. -/
def Window.bytes (k : Nat) (w : Window) : List Byte :=
  (indices 64).flatMap fun l => (indices w.count).flatMap fun i => match lookup w.copies (l * 4096 + i) with
    | none => openBytes (k + (l * w.count + i) * w.size) w.size
    | some x => natToBytes w.size x.toNat

def Window.reload (mem : Memory) (p : Nat) (w : Window) : Window :=
  { w with copies := w.copies.map fun e =>
      (e.1, word (readNat mem (p + (e.1 / 4096 * w.count + e.1 % 4096) * w.size) w.size)) }

/-- A channel: its number and definition, its counters, the filled slots, and the reservations of harts: each of the four has at most
one (R261). A slot that is reserved and neither filled nor a hart's is that of a stream or a command. -/
def Channel.image (n : Nat) (x : Channel) : List Word :=
  let marks := x.marks.eraseDups.foldl (fun w m => w + 2 ^ m) 0
  let resv := (x.resv.take 8).foldr (fun r w => r.1 % 2 ^ 8 + r.2.toNat * 2 ^ 8 + 2 ^ 15 + w * 2 ^ 16) 0
  [word (x.base % 2 ^ 32 + (x.nslot - 1) % 2 ^ 8 * 2 ^ 32 + x.sz % 16 * 2 ^ 40 + n * 2 ^ 44),
    word (x.filled % 2 ^ 16 + x.free % 2 ^ 16 * 2 ^ 16 + x.head % 2 ^ 16 * 2 ^ 32 + x.tail % 2 ^ 16 * 2 ^ 48)] ++
    ((indices 4).map fun i => word (bits marks (64 * i) 64)) ++ [word (bits resv 0 64), word (bits resv 64 64)]

def Channel.reload (mem : Memory) (p : Nat) (x : Channel) : Channel :=
  let d := areaWord mem p 0
  let k := areaWord mem p 1
  let held : Nat → Option (Nat × HartNo) := fun i =>
    let w := wbits (areaWord mem p (6 + i / 4)) (16 * (i % 4)) 16
    if w < 2 ^ 15 then none else some (w % 2 ^ 8, BitVec.ofNat 3 (w / 2 ^ 8))
  { x with base := wbits d 0 32, nslot := wbits d 32 8 + 1, sz := wbits d 40 4
           filled := wbits k 0 16, free := wbits k 16 16, head := wbits k 32 16, tail := wbits k 48 16
           marks := (indices 256).filter fun m => (areaWord mem p (2 + m / 64)).getLsbD (m % 64)
           resv := (indices 8).filterMap held }

/-- Running harts of a group. -/
def runningHarts (g : Group) (s : State) : List HartNo := g.harts.filter fun h => (s.hartAt g.core.toNat h.toNat).run.running

/-- Claimed tiles and accumulators of a group, by hart. -/
def claimedTiles (g : Group) (s : State) : List Nat :=
  g.harts.flatMap fun h => ((s.hartAt g.core.toNat h.toNat).tile.claim.map (·.1)).getD []
def claimedAccs (g : Group) (s : State) : List Nat :=
  g.harts.flatMap fun h => ((s.hartAt g.core.toNat h.toNat).tile.claim.map (·.2)).getD []

/-- Harts of a group that hold a claim: TGRANT and AMAX0 to AMAX3 of each take 64 bytes. -/
def claimHolders (g : Group) (s : State) : List (HartNo × Nat) :=
  (g.harts.filter fun h => (s.hartAt g.core.toNat h.toNat).tile.claim.isSome).map fun h => (h, 64)

/-- The harts of a group with an open window, each with the bytes of its copies. -/
def openWindows (g : Group) (s : State) : List (HartNo × Nat) :=
  g.harts.filterMap fun h => (s.hartAt g.core.toNat h.toNat).ms.window.map fun w => (h, sectionSize (64 * w.count * w.size))

/-- The channels of a group. -/
def channelsOf (gn : Nat) (g : Group) (s : State) : AMap Channel :=
  (s.core g.core.toNat).channels.filter fun e => e.2.group == gn

/-- The kept tokens of each hart, those of the copy engine first, and the answers that the Wharf holds, as index * 16 + channel. -/
def Hart.tokens (x : Hart) : List Word := x.ms.copyTokens ++ x.ms.collTokens
def tokenSizes (g : Group) (s : State) : List (HartNo × Nat) :=
  g.harts.map fun h => (h, 8 * (s.hartAt g.core.toNat h.toNat).tokens.length)
def heldAnswers (gn : Nat) (g : Group) (s : State) : List Word :=
  match lookup s.wharf.launches g.launch with
  | none => []
  | some l => l.requests.filterMap fun q => if q.1 = gn then q.2.2.map fun i => word (i * 16 + q.2.1) else none

/-- The last section: 64 bytes with the numbers of tokens of each hart and the number of answers, then both. -/
def tokenBytes (gn : Nat) (g : Group) (s : State) (k : Nat) : List Byte :=
  let x : HartNo → Hart := fun h => s.hartAt g.core.toNat h.toNat
  let counts := g.harts.map fun h => word ((x h).ms.copyTokens.length + (x h).ms.collTokens.length * 2 ^ 32)
  aligned64 k (block k 64 (wordBytes (counts ++ [word (heldAnswers gn g s).length])) ++
    (g.harts.flatMap fun h => wordBytes (x h).tokens) ++ wordBytes (heldAnswers gn g s))

def Hart.reloadTokens (x : Hart) (mem : Memory) (p : Nat) : Hart :=
  let w := (indices x.tokens.length).map (areaWord mem p)
  { x with ms := { x.ms with copyTokens := w.take x.ms.copyTokens.length, collTokens := w.drop x.ms.copyTokens.length } }

/-- Where the sections of a group's save area begin, and its size. -/
def saveMap (gn : Nat) (g : Group) (s : State) : SaveMap × Nat :=
  let records := (runningHarts g s).map fun h => (h, hartRecordSize g.core.toNat h.toNat s)
  let tiles := 256 + sizes records
  let claims := tiles + 18432 * (claimedTiles g s).length
  let accs := claims + sizes (claimHolders g s)
  let windows := accs + 65600 * (claimedAccs g s).length
  let channels := windows + sizes (openWindows g s)
  let arena := channels + 64 * (channelsOf gn g s).length
  let tokens := arena + sectionSize g.size
  ({ records := laidOut 256 records, tiles := tiles, claims := laidOut claims (claimHolders g s), accs := accs
     windows := laidOut windows (openWindows g s), channels := channels, arena := arena
     tokens := laidOut (tokens + 64) (tokenSizes g s) },
   tokens + sectionSize (64 + sizes (tokenSizes g s) + 8 * (heldAnswers gn g s).length))

/-- The header: 256 bytes. After the record, LAUNCHID, IDX0 to IDX5, ARGS and A stand the count of hart records, their offsets, and
those of the tiles, the accumulators, the window, the channels, the arena and the tokens. -/
def headerBytes (gn : Nat) (g : Group) (s : State) (k : Nat) : List Byte :=
  let r := match lookup s.wharf.launches g.launch with
    | some l => l.record.image
    | none => openBytes k 64
  let x := match (runningHarts g s).head? with
    | some h => s.hartAt g.core.toNat h.toNat
    | none => Hart.reset
  let m := (saveMap gn g s).1
  let windows := m.accs + 65600 * (claimedAccs g s).length
  let offsets := (m.records.map (·.2)) ++ List.replicate (4 - m.records.length) 0 ++
    [m.tiles, m.accs, windows, m.channels, m.arena, m.arena + sectionSize g.size]
  block k 256 (r ++ wordBytes ([x.id.launchId] ++ (indices 6).map (fun i => x.id.idx.getD i 0) ++ [x.id.args, word g.size] ++
    (m.records.length :: offsets).map word))

/-- The bytes of a group's save area, section by section; open bytes take free values from number `k` on. -/
def areaBytes (gn : Nat) (g : Group) (s : State) (k : Nat) : List Byte :=
  let c := g.core.toNat
  let q := s.core c
  let m := (saveMap gn g s).1
  headerBytes gn g s k ++
    m.records.flatMap (fun r => hartRecord c r.1.toNat g s (k + r.2)) ++
    (claimedTiles g s).flatMap (tileBytes q) ++
    m.claims.flatMap (fun r => (s.hartAt c r.1.toNat).claimBytes (k + r.2) (some g)) ++
    (claimedAccs g s).zipIdx.flatMap (fun a => accBytes q a.1 (k + m.accs + 65600 * a.2)) ++
    m.windows.flatMap (fun r => (((s.hartAt c r.1.toNat).ms.window.map fun w => aligned64 (k + r.2) (w.bytes (k + r.2))).getD [])) ++
    (channelsOf gn g s).flatMap (fun e => wordBytes (e.2.image e.1)) ++
    aligned64 (k + m.arena) (readPlaces s.mem (lsPlace c g.lsBase) g.size) ++
    tokenBytes gn g s (k + m.arena + sectionSize g.size)

/-! What a restore reads -/

/-- Every pair of a list inserted. -/
def insertAll (m new : AMap α) : AMap α := new.foldl (fun (acc : AMap α) e => insert acc e.1 e.2) m

/-- A target register as a restore sets it from its image (R93, R101). -/
def TReg.restored (w : Nat) : TReg :=
  { addr := BitVec.ofNat 47 (bits w 1 47), v := w % 2 == 1, pf := if w % 2 = 1 then 1 else 0 }

/-- Vector registers and sidecars from the bytes of a record, by the bytes of each that were saved. -/
def readVectors (mem : Memory) (p : Nat) : AMap Nat → AMap VImage × AMap VSide
  | [] => ([], [])
  | (r, n) :: rest =>
    let (v, y) := readVectors mem (p + n + sideBytes n) rest
    ((r, BitVec.ofNat 16384 (readNat mem p n)) :: v, (r, BitVec.ofNat 2048 (readNat mem (p + n) (sideBytes n))) :: y)

/-- The x, k, b, vector and mask registers of a hart from its record, which begins at a place. -/
def Hart.reloadRegisters (x : Hart) (mem : Memory) (p : Nat) : Hart :=
  let (v, y) := readVectors mem (p + 7872) x.vec.written
  let masks := p + 7872 + sectionSize x.vectorSize
  { x with
    x := (indices 64).map fun r => (r, word (readNat mem (p + 8 * r) 8))
    k := BitVec.ofNat 8 ((indices 8).foldl (fun w i => w + readNat mem (p + 512 + i) 1 % 2 * 2 ^ i) 0)
    b := (indices 8).map fun i => (i, TReg.restored (readNat mem (p + 576 + 8 * i) 8))
    vec := { x.vec with
      v := v
      side := y
      m := (indices 7).map fun i => (i + 1, BitVec.ofNat 4096 (readNat mem (masks + 512 * i) 512)) } }

/-- The queues, streams and command words of a hart from its record. -/
def Hart.reloadQueues (x : Hart) (mem : Memory) (locate : Nat → Nat → Option Nat) (p : Nat) : Hart :=
  let plain := reloadViq mem (p + 896) x.plainViq
  let locked := x.tr.tcause.getLsbD 59
  let x := { x with
    vec := { x.vec with
      held := if locked then plain else x.vec.held
      viq := if locked then reloadViq mem (p + 6528) x.vec.viq else plain }
    ms := { x.ms with
      stq := reloadQueued mem locate (p + 7296) x.ms.stq
      copyWords := (indices x.ms.copyWords.length).map (areaWord mem (p + 7808))
      collWords := (indices x.ms.collWords.length).map (areaWord mem (p + 7832)) } }
  x.ms.streams.foldl (fun x e =>
    let q := p + 4992 + 128 * e.1
    let x := x.reloadSlot mem q e.1
    { x with ms := { x.ms with streams := insert x.ms.streams e.1 (e.2.reload mem q) } }) x

/-- Where the deferred records of a hart begin in its record. -/
def Hart.deferredAt (x : Hart) (p : Nat) : Nat := p + 7872 + sectionSize x.vectorSize + 3584

/-- The stores that wait and the Pontoon's state of a hart with `n` Landing entries, from its record. -/
def Hart.reloadRest (x : Hart) (mem : Memory) (locate : Nat → Nat → Option Nat) (p n : Nat) : Hart :=
  let q := x.deferredAt p + 64 * n
  { x with
    ms := { x.ms with stq := reloadDeferred mem locate q x.ms.stq }
    rc := { x.rc with pontoon :=
      if x.rc.phase = 0 then x.rc.pontoon else x.rc.pontoon.map (Pontoon.reload mem (q + 64 * storeRecords x)) } }

/-- A hart with what its record holds, which begins at a place. -/
def Hart.reload (x : Hart) (mem : Memory) (locate : Nat → Nat → Option Nat) (p n : Nat) : Hart :=
  ((((x.reloadRest mem locate p n).reloadRegisters mem p).reloadQueues mem locate p).reloadLoop mem (p + 6016)).reloadControl mem (p + 640)

/-- LAUNCHID, IDX0 to IDX5 and ARGS of the header of a save area. -/
def Hart.reloadHeader (x : Hart) (mem : Memory) (p : Nat) : Hart :=
  { x with id := { x.id with
      launchId := areaWord mem p 8, idx := (indices 6).map fun i => areaWord mem p (9 + i), args := areaWord mem p 15 } }

/-- A hart of a saved group with what its save area, which begins at a place, holds of it. -/
def SaveMap.reload (m : SaveMap) (mem : Memory) (locate : Nat → Nat → Option Nat) (p : Nat) (h : HartNo) (n : Nat) (x : Hart) : Hart :=
  let at_ (l : List (HartNo × Nat)) (f : Hart → Nat → Hart) (x : Hart) : Hart :=
    match l.find? fun r => r.1 == h with
    | some r => f x (p + r.2)
    | none => x
  at_ m.tokens (fun x q => x.reloadTokens mem q)
    (at_ m.windows (fun x q => { x with ms := { x.ms with window := x.ms.window.map (Window.reload mem q) } })
      (at_ m.claims (fun x q => x.reloadClaim mem q) (at_ m.records (fun x q => (x.reload mem locate q n).reloadHeader mem p) x)))

/-- The entries of a hart among those of a saved group. -/
def Saved.entriesOf (v : Saved) (h : HartNo) : AMap LEntry := v.landing.filter fun e => e.2.hart.toNat == h.toNat

/-- The Landing entries of a saved group, each with its deferred record (R91, R217). -/
def Saved.reloadLanding (v : Saved) (mem : Memory) : AMap LEntry :=
  v.map.records.foldl (fun (m : AMap LEntry) r =>
    let q := ((((v.harts.find? fun x => x.1 == r.1).map (·.2)).getD Hart.reset).deferredAt (paPlace 0 v.base + r.2))
    (v.entriesOf r.1).zipIdx.foldl (fun (m : AMap LEntry) e =>
      insert m e.1.1 (e.1.2.reload (readNat mem (q + 64 * e.2) 64))) m) v.landing

/-- The place of an address of LS or CLS of a saved group, as its group and those of its gang, which are saved with it, stood. -/
def Saved.placeOf (v : Saved) (l : List (Nat × Saved)) (space addr : Nat) : Option Nat :=
  let place : Group → Nat → Nat := fun g a => lsPlace g.core.toNat (g.lsBase + a)
  match space with
  | 0 => some (place v.group addr)
  | 1 => ((l.find? fun e => e.2.group.launch == v.group.launch && v.group.gang.isSome &&
      e.2.group.gang == v.group.gang.map fun g => (g.1, addr / Config.lsSize)).map fun e => place e.2.group (addr % Config.lsSize))
  | _ => none

/-- The answers of WQRY that the Wharf holds for a group, as its save area has them. -/
def Saved.reloadAnswers (v : Saved) (gn : Nat) (mem : Memory) (l : Launch) : Launch :=
  let p := paPlace 0 v.base + v.map.arena + sectionSize v.group.size + 64 + 8 * (v.harts.map fun h => h.2.tokens.length).sum
  { l with requests := (l.requests.foldl (fun (acc : List (Nat × Nat × Option Nat) × Nat) q =>
      if q.1 = gn && q.2.2.isSome then
        let w := (areaWord mem p acc.2).toNat
        (acc.1 ++ [(gn, w % 16, some (w / 16))], acc.2 + 1)
      else (acc.1 ++ [q], acc.2)) ([], 0)).1 }

/-- Tiles from a save area: number `j` of the area becomes tile `t`. -/
def reloadTile (mem : Memory) (p : Nat) (x : TileState) (t j : Nat) : TileState :=
  let q := p + 18432 * j
  { x with
    rows := insertAll x.rows ((indices 128).map fun r => (t * 128 + r, BitVec.ofNat 1024 (readNat mem (q + 128 * r) 128)))
    sides := insertAll x.sides
      ((indices 128).map fun r => (t * 128 + r, BitVec.ofNat 128 (readNat mem (q + 16384 + 16 * r) 16))) }

/-- Accumulators from a save area: number `j` of the area becomes accumulator `a`. -/
def reloadAcc (mem : Memory) (p : Nat) (x : TileState) (a j : Nat) : TileState :=
  let q := p + 65600 * j
  { x with
    words := insertAll x.words ((indices 16384).map fun i => (a * 16384 + i, BitVec.ofNat 32 (readNat mem (q + 4 * i) 4)))
    kinds := insert x.kinds a (BitVec.ofNat 2 (readNat mem (q + 65536) 1)) }

/-- The tiles and accumulators of a core with those of a saved group, whose claims now have the numbers given. -/
def reloadTiles (v : Saved) (mem : Memory) (tiles accs : List Nat) (x : TileState) : TileState :=
  let p := paPlace 0 v.base
  let x := tiles.zipIdx.foldl (fun x e => reloadTile mem (p + v.map.tiles) x e.1 e.2) x
  accs.zipIdx.foldl (fun x e => reloadAcc mem (p + v.map.accs) x e.1 e.2) x

/-- The channels of a saved group as its save area holds them. -/
def Saved.reloadChannels (v : Saved) (mem : Memory) : AMap Channel :=
  v.channels.zipIdx.map fun e => (e.1.1, e.1.2.reload mem (paPlace 0 v.base + v.map.channels + 64 * e.2))

end Sys2Proof.Machine
end

