-- ==== Sys2Proof/Machine/Preemption.lean ====
section
/-! DEFINITION. Pre-emption and restore of groups (R91, R101, R183, R216, R217). -/

namespace Sys2Proof.Machine

/-! When a group can be saved (R216) -/

/-- A hart of a victim group has settled: every entry that is not poisoned is filled, its stores have committed up to one
that poison blocks or that waits for an instruction of the VIQ, and its commands have completed. -/
def hartQuiet (c h : Nat) (s : State) : Bool :=
  let x := s.hartAt c h
  (entriesOf c h s).all (fun n => match s.entry? c n with
    | some e => e.bad
    | none => true) &&
  (match x.ms.stq with
    | [] => true
    | q :: _ => q.after != 0 || q.holes.any fun p => match s.entry? c p.entry with
      | some e => e.bad
      | none => false) &&
  !((s.core c).copyFifo.any fun q => q.hart.toNat == h) &&
  !((s.die (dieOf c)).coll.any fun q => q.core.toNat == c && q.hart.toNat == h && !q.answered)

def groupQuiet (g : Group) (s : State) : Bool :=
  g.harts.all fun h => !(s.hartAt g.core.toNat h.toNat).run.running || hartQuiet g.core.toNat h.toNat s

/-! Renumbering -/

/-- The position of a value in a list. -/
def placeOf (l : List Nat) (n : Nat) : Nat := l.idxOf n

/-- An entry under other hart and entry numbers. -/
def LEntry.move (e : LEntry) (fh : BitVec 2 → BitVec 2) (fe : Nat → Nat) : LEntry :=
  { e with
    hart := fh e.hart
    links := e.links.map fun l => { l with entry := fe l.entry }
    gather := e.gather.map fun r => { r with holes := r.holes.map fun l => { l with entry := fe l.entry } } }

def Pending.move (p : Pending) (fp fe : Nat → Nat) : Pending :=
  { p with cells := p.cells.map fun c => { c with place := fp c.place }
           cleans := p.cleans.map fp
           holes := p.holes.map fun q => { q with entry := fe q.entry } }

/-- An instruction of the VIQ with other memory places and entry numbers. -/
def VEntry.move (v : VEntry) (fp fe : Nat → Nat) : VEntry :=
  { v with ahead := v.ahead.map fun b => (fp b.1, b.2), old := v.old.map fun o => { o with holes := o.holes.map fun p => (fe p.1, p.2) } }

/-- A hart under other tile, hart, entry and memory-place numbers. -/
def Hart.move (x : Hart) (ft fa fe fp : Nat → Nat) (fh : HartNo → HartNo) : Hart :=
  { x.mapEntries fun v => v.move fp fe with
    tile := { x.tile with claim := x.tile.claim.map fun c => (c.1.map ft, c.2.map fa) }
    ms := { x.ms with stq := x.ms.stq.map fun p => p.move fp fe }
    id := { x.id with parent := x.id.parent.map fh }
    hole := { x.hole with reported := x.hole.reported.map fe } }

/-! Saving -/

/-- Where a tenant's next save area begins: after those of its groups that are saved. -/
def saveBase (t : Nat) (s : State) : Nat :=
  let mine := s.wharf.saved.filter fun e => groupTenant e.2.group s == t
  mine.foldl (fun b e => Nat.max b (e.2.base + e.2.size)) (s.tenant t).saveBase.toNat

/-- A hart as it is saved: its waits are abandoned, no page is pinned, and its stores are to be translated again (R168, R183,
R216). -/
def Hart.suspend (x : Hart) : Hart :=
  let again : Pending → Pending := fun p => { p with pin := none, again := p.addr.isSome }
  { x.mapEntries fun v => { v with pins := [], kept := [] } with
    lead := Lead.none
    ms := { x.ms with stq := x.ms.stq.map again }
    run := { x.run with wait := none, inval := none, deq := false, why := 0 } }

/-- A hart without the registers that its record in the save area holds. -/
def Hart.bare (x : Hart) : Hart :=
  { x with x := [], k := 0, b := [], vec := { x.vec with v := [], side := [], m := [] } }

/-- A group's state as it is saved, beside the bytes of its save area. -/
def savedGroup (gn : Nat) (g : Group) (base : Nat) (s : State) : Saved :=
  let c := g.core.toNat
  let k := s.core c
  let lo := lsPlace c g.lsBase
  { base := base
    size := (saveMap gn g s).2
    map := (saveMap gn g s).1
    group := g
    harts := g.harts.map fun h => (h, ((s.hartAt c h.toNat).suspend).bare)
    landing := k.entries.filter fun e => g.harts.any fun h => h.toNat == e.2.hart.toNat
    channels := channelsOf gn g s
    poison := (s.poison.filter fun p => decide (lo ≤ p) && decide (p < lo + g.size)).map fun p => p - lo
    pontoon := match k.pontoonOwner with
      | none => none
      | some h => if g.harts.contains h then some h else none }

/-- Bytes are written from a place of memory upwards. -/
def performBytes (p : Nat) (l : List Byte) (s : State) : State :=
  wake ((indices l.length).map (p + ·))
    { s with mem := writePlaces s.mem p l
             poison := s.poison.filter fun q => decide (q < p) || decide (p + l.length < q + 64) }

/-- A group is saved and leaves its core; none when its save area would end beyond near memory (R17). -/
def saveGroup (gn : Nat) (s : State) : Option State :=
  match s.group? gn with
  | none => some s
  | some g =>
    let c := g.core.toNat
    let s := g.harts.foldl (fun s h => roundStop c h.toNat s) s
    let g := { g with victim := false, carried := groupCycles g s }
    let saved := savedGroup gn g (saveBase (groupTenant g s) s) s
    if Config.nmSize < saved.base + saved.size then none
    else
      let s := performBytes (paPlace 0 saved.base) (areaBytes gn g s s.free) { s with free := s.free + saved.size }
      let lanes := (g.harts.map fun h =>
        let x := s.hartAt c h.toNat
        x.vec.grant + (x.id.parked.map (·.2)).sum).sum
      let s := g.harts.foldl (fun s h =>
        (dropEntries c h.toNat s).modHartAt c h.toNat fun x =>
          { Hart.reset with vec := { Hart.reset.vec with lag := x.vec.lag } }) s
      let s := releaseGroup gn g s
      let s := s.modCore c fun k =>
        { k with pool := k.pool + lanes
                 pontoonOwner := if saved.pontoon.isSome then none else k.pontoonOwner }
      some (s.modWharf fun w =>
        { w with groups := w.groups.filter fun (e : Nat × Group) => e.1 != gn
                 saved := insert w.saved gn saved })

/-- HOST_PREEMPT (R216): the host names a group. -/
def execHostPreempt (s : State) : Out := .next (markVictims (together s.input.group s) s)

/-- PREEMPT (R216): the groups that go together are saved once all of them have settled. A save area outside near memory is an
address that does not exist (R17). -/
def execPreempt (s : State) : Out :=
  let l := together s.input.group s
  let ready := l.all fun n => match s.group? n with
    | none => false
    | some g => g.victim && groupQuiet g s
  if l.isEmpty || !ready then .next s
  else
    match l.foldl (fun (o : Option State) g => o.bind (saveGroup g)) (some s) with
    | some s => .next s
    | none => .fault .noSuchAddress

/-! Restore (R216) -/

/-- Lanes that a saved group needs. -/
def Saved.lanes (v : Saved) : Nat := (v.harts.map fun h => h.2.vec.grant + (h.2.id.parked.map (·.2)).sum).sum

/-- Whether a saved group fits on a core. -/
def Saved.fits (v : Saved) (c : Nat) (s : State) : Bool :=
  coreOpen c s && decide (v.harts.length ≤ (freeHarts c s).length) && decide (v.lanes ≤ (s.core c).pool) &&
    decide (v.group.tiles.length ≤ (freeTilesOf c s).length) && decide (v.group.accs.length ≤ (freeAccsOf c s).length) &&
    (freeArena c v.group.size s).isSome &&
    v.channels.all fun e => (lookup (s.core c).channels e.1).isNone

/-- The harts that a group's harts become: the same numbers where they are free. -/
def newHarts (v : Saved) (c : Nat) (s : State) : List HartNo :=
  let free := freeHarts c s
  if v.harts.all fun h => free.contains h.1 then v.harts.map (·.1) else free.take v.harts.length

/-- A poisoned root of a restored hart raises DEFERRED before any further instruction (R91); in a handler, once its lock is
gone, the next settle does. R91 does not say which side raises it: VS is 0 (DESIGN CHOICE; log entry 108). -/
def reportRestored (c h : Nat) (s : State) : State :=
  let x := s.hartAt c h
  if !x.run.running || x.tr.tcause.getLsbD 59 then s
  else
    match raiseDeferred c h (rootsIn c (entriesOf c h s) s) 0 s with
    | .exc e _ t => takeTrap c h false x.pc e t
    | _ => s

/-- A saved group goes to a core that it fits: what its save area holds is read from there. `l` are the saved groups that come back
with it, and `fp` renumbers their LS places. The instruction cache of the core forgets what it holds, since the hart may have fetched newer
content elsewhere (R99, R100). -/
def placeGroup (l : List (Nat × Saved)) (gn c : Nat) (v : Saved) (fp : Nat → Nat) (s : State) : State :=
  let harts := newHarts v c s
  let tiles := (freeTilesOf c s).take v.group.tiles.length
  let accs := (freeAccsOf c s).take v.group.accs.length
  let base := (freeArena c v.group.size s).getD 0
  let ft : Nat → Nat := fun t => tiles.getD (placeOf v.group.tiles t) 0
  let fa : Nat → Nat := fun a => accs.getD (placeOf v.group.accs a) 0
  let old := v.harts.map (·.1)
  let fh : HartNo → HartNo := fun h => harts.getD (old.idxOf h) h
  let taken := (s.core c).entries.map (·.1)
  let free := (indices 256).filter fun n => !taken.contains n
  let landing := v.reloadLanding s.mem
  let keys := landing.map (·.1)
  let fe : Nat → Nat := fun n => free.getD (placeOf keys n) n
  let fh2 : BitVec 2 → BitVec 2 := fun h => BitVec.ofNat 2 (fh (BitVec.ofNat 3 h.toNat)).toNat
  let lo := lsPlace c base
  let area := paPlace 0 v.base
  let tags := landing.map (·.2.seq) ++ v.harts.flatMap fun h => h.2.allEntries.filterMap (·.seq)
  let top := (tags.map fun q => q.toNat + 1).foldl Nat.max 0
  let claims := v.harts.filterMap (·.2.tile.claim)
  let g := { v.group with core := BitVec.ofNat 7 c, admitted := (s.core c).cycles, harts := harts, lsBase := base, tiles := tiles, accs := accs,
                          freeTiles := v.group.freeTiles.map ft, freeAccs := v.group.freeAccs.map fa
                          crewQueue := v.group.crewQueue.map fh }
  let s := s.modWharf fun w => { w with
    groups := insert w.groups gn g, saved := erase w.saved gn
    launches := mapValues (fun n q => if n = v.group.launch then v.reloadAnswers gn s.mem q else q) w.launches }
  let s := (v.harts.zip harts).foldl (fun s e =>
    s.modHartAt c e.2.toNat fun x =>
      let y := (v.map.reload s.mem (v.placeOf l) area e.1.1 (v.entriesOf e.1.1).length e.1.2).move ft fa fe fp fh
      { y with vec := { y.vec with lag := x.vec.lag }
               ms := { y.ms with copyOrder := if y.ms.copyWords.isEmpty then 0 else (s.core c).copyCount } }) s
  let s := { s with
    mem := writePlaces (clearPlaces s.mem lo v.group.size) lo (readPlaces s.mem (area + v.map.arena) v.group.size)
    poison := (s.poison.filter fun p => decide (p < lo) || decide (lo + v.group.size ≤ p)) ++ v.poison.map (lo + ·) }
  let s := s.modCore c fun k =>
    let clean := accs.foldl (fun x q => zeroAcc q x) (tiles.foldl (fun x q => zeroTile q x) k.tiles)
    { k with
      pool := k.pool - v.lanes
      copyCount := k.copyCount + 1
      icache := []
      ccache := []
      channels := insertAll k.channels
        ((v.reloadChannels s.mem).map fun (e : Nat × Channel) => (e.1, { e.2 with resv := e.2.resv.map fun r => (r.1, fh r.2) }))
      pontoonOwner := match v.pontoon, k.pontoonOwner with
        | some h, none => some (fh h)
        | _, o => o
      tiles := reloadTiles v s.mem ((claims.flatMap (·.1)).map ft) ((claims.flatMap (·.2)).map fa) clean
      land := { k.land with
        seq := if k.land.seq.toNat < top then BitVec.ofNat 32 top else k.land.seq
        entries := insertAll k.land.entries (landing.map fun (e : Nat × LEntry) => (fe e.1, e.2.move fh2 fe)) } }
  harts.foldl (fun s h => reportRestored c h.toNat s) s

/-- The saved groups that come back with a group: its W gang, or all of a GANG launch. -/
def comesWith (gn : Nat) (s : State) : List (Nat × Saved) :=
  match lookup s.wharf.saved gn with
  | none => []
  | some v =>
    let all := match lookup s.wharf.launches v.group.launch with
      | some l => l.record.gang
      | none => false
    s.wharf.saved.filter fun e => e.2.group.launch == v.group.launch &&
      (all || e.1 == gn || (v.group.gang.isSome && (e.2.group.gang.map (·.1)) == (v.group.gang.map (·.1))))

/-- The cores for the saved groups of a set: a member of a W gang goes to its member's core of one crew of the same die,
another group to a core of the same die. -/
def restoreCores (l : List (Nat × Saved)) (s : State) : Option (List Nat) :=
  let step : Option (List Nat × State) → Nat × Saved → Option (List Nat × State) := fun acc e =>
    acc.bind fun (done, t) =>
      let v := e.2
      let d := dieOf v.group.core.toNat
      let member := match v.group.gang with
        | none => none
        | some (_, m) => some m
      let crew := match v.group.gang with
        | none => none
        | some (n, _) => (l.zip done).findSome? fun (p, c) =>
            if (p.2.group.gang.map (·.1)) == some n && p.2.group.launch == v.group.launch then some (c / 4) else none
      let peers : List (Nat × Saved) := match v.group.gang with
        | none => []
        | some (n, _) => l.filter fun p => (p.2.group.gang.map (·.1)) == some n
      let ok : Nat → Bool := fun c => dieOf c == d && v.fits c t && match member with
        | none => true
        | some m => c % 4 == m && (match crew with
          | some r => c / 4 == r
          | none => peers.all fun p => match p.2.group.gang with
            | some (_, q) => p.2.fits (c / 4 * 4 + q) t
            | none => true)
      ((indices Config.cores).find? ok).map fun c => (done ++ [c], placeGroup l e.1 c v id t)
  (l.foldl step (some ([], s))).map (·.1)

/-- Whether the tenant of a saved group has an eligible record of higher priority, which goes first. -/
def outranked (v : Saved) (s : State) : Bool :=
  match lookup s.wharf.launches v.group.launch with
  | none => false
  | some q =>
    match tenantHead q.record.tenant.toNat s with
    | none => false
    | some (_, l) => l.eligible && decide (q.record.prio.toNat < l.record.prio.toNat)

/-- RESTORE (R216): a saved group, with those that go with it, when there is room. -/
def execRestore (s : State) : Out :=
  let l := comesWith s.input.group s
  if l.isEmpty || l.any fun e => outranked e.2 s then .next s
  else
    match restoreCores l s with
    | none => .next s
    | some cores =>
      let bases := (l.zip cores).foldl (fun (acc : List (Nat × Nat × Nat) × State) e =>
        let g := e.1.2.group
        let base := (freeArena e.2 g.size acc.2).getD 0
        (acc.1 ++ [(lsPlace g.core.toNat g.lsBase, g.size, lsPlace e.2 base)],
         placeGroup l e.1.1 e.2 e.1.2 id acc.2)) ([], s)
      let fp : Nat → Nat := fun p =>
        match bases.1.find? fun b => decide (b.1 ≤ p) && decide (p < b.1 + b.2.1) with
        | some b => b.2.2 + (p - b.1)
        | none => p
      .next ((l.zip cores).foldl (fun s e => placeGroup l e.1.1 e.2 e.1.2 fp s) s)

end Sys2Proof.Machine
end

