-- ==== Sys2Proof/Machine/Hardware.lean ====
section
/-! DEFINITION. Hardware errors, the self-test, power, links, device reset and bring-up (R228 to R234, R241, R242). -/

namespace Sys2Proof.Machine

/-! Errors (R228 to R233) -/

/-- MISC of a report: the tenant is that of the hart that met the error. -/
def reportMisc (r : ErrorReport) (s : State) : Word :=
  let t := if r.hart.toNat < 4 then (s.hartAt r.core.toNat r.hart.toNat).tenantNo else 0
  miscRecord t r.core.toNat r.hart.toNat r.pc.toNat

/-- The place of the line that an uncorrectable error in memory data poisons (R230). -/
def poisonedPlace (r : ErrorReport) : Option Nat :=
  match r.addr with
  | none => none
  | some a =>
    match r.source.toNat with
    | 0x30 => some (lineOf (lsPlace r.core.toNat (a.toNat % Config.lsSize)))
    | 0x40 | 0x41 => some (lineOf (paPlace 0 (wbits a 0 52)))
    | 0x51 => some (lineOf (paPlace 1 (wbits a 0 52)))
    | 0x82 => some (lineOf (paPlace 2 (wbits a 0 52)))
    | 0x92 => some (lineOf (paPlace 3 (wbits a 0 52)))
    | _ => none

/-- A line is poisoned. -/
def poisonLine (p : Nat) (s : State) : State := if s.poison.contains p then s else { s with poison := s.poison ++ [p] }

/-- What a structure that can be read again loses when an error in it is corrected (R229): the instruction cache and the L1 TLB of a
core, which are filled again by refetch and rewalk, and the entry of the last-level TLB, whose number is in ADDR (R228). -/
def dropCorrected (r : ErrorReport) (s : State) : State :=
  match r.source.toNat with
  | 0x01 => s.modCore r.core.toNat fun k => { k with icache := [] }
  | 0x02 => s.modCore r.core.toNat fun k => { k with tlb := [] }
  | 0x60 => s.modDie (dieOf r.core.toNat) fun d =>
    { d with tlb := match r.addr with
      | some n => d.tlb.eraseIdx n.toNat
      | none => [] }
  | _ => s

/-- CORRECTED_ERROR (R229). A structure that is read again loses all its content where the report names no entry (DESIGN CHOICE; log
entry 119). -/
def execCorrectedError (s : State) : Out :=
  let r := s.input.report
  .next (dropCorrected r <| correctError r.core.toNat r.bank.toNat r.source.toNat r.syndrome.toNat r.addr (reportMisc r s) s)

/-- CE_THRESHOLD (R228): the host is interrupted. -/
def execCeThreshold (s : State) : Out :=
  let b := s.bank s.input.core.toNat s.input.bank.toNat
  let th := wbits b.ctl 16 16
  .next (if th ≠ 0 ∧ th ≤ wbits b.status 32 16 then
      s.modHost fun o => { o with irqs := o.irqs ++ [.threshold s.input.core s.input.bank] }
    else s)

/-- A record of a class in the bank of a report. -/
def logReport (cls : Nat) (r : ErrorReport) (s : State) : State :=
  logBank r.core.toNat r.bank.toNat cls r.source.toNat r.syndrome.toNat r.addr (reportMisc r s) s

/-- The hart to whose group an error is charged (R230): the one that met it, or the one from which the entry of the Landing or of the
accumulation RAM originates; for the Landing, the entry whose number is in ADDR (R228). -/
def chargedHart (r : ErrorReport) (s : State) : Option Nat :=
  let origin := if r.origin.toNat < 4 then some r.origin.toNat else none
  if r.source = 0x12 then
    match r.addr.bind fun a => s.entry? r.core.toNat a.toNat with
    | some e => some e.hart.toNat
    | none => if r.hart.toNat < 4 then some r.hart.toNat else origin
  else if r.hart.toNat < 4 then some r.hart.toNat
  else if r.source = 0x14 then origin
  else none

/-- CONTAINED_ERROR (R230, R231): the group of the hart that met it is aborted. An error in memory data poisons its line,
and with no hart that met it does nothing more; any other error without a group is fatal. -/
def execContainedError (s : State) : Out :=
  let r := s.input.report
  let place := poisonedPlace r
  let s := match place with
    | some p => poisonLine p s
    | none => s
  let group := (chargedHart r s).bind fun h => (s.hartAt r.core.toNat h).id.group
  match group with
  | some g =>
    let s := logReport 2 r s
    let b := s.bank r.core.toNat r.bank.toNat
    .next (abortGroup g r.bank.toNat r.core.toNat b.status b.addr b.misc s)
  | none =>
    if place.isSome && r.hart == 7 then .next (logReport 2 r s) else .next (stopPackage (logReport 3 r s))

/-- FATAL_ERROR (R233). -/
def execFatalError (s : State) : Out := .next (stopPackage (logReport 3 s.input.report s))

/-- UCIE_LINK_DOWN (R229): a fatal error of the die. -/
def execUcieLinkDown (s : State) : Out :=
  let c := s.input.die.toNat * Config.coresPerDie
  .next (stopPackage (logBank c 12 3 0x81 0 none (miscRecord 0 0 7 0) s))

/-- PEER_LINK_DOWN (R229, R238). -/
def execPeerLinkDown (s : State) : Out :=
  .next (s.modHost fun o => { o with linksDown := o.linksDown ||| (1 <<< s.input.link.toNat : BitVec 16) })

/-! Self-test (R234) -/

/-- SELF_TEST_REQUEST (R234): no new group is placed on the core. -/
def execSelfTestRequest (s : State) : Out :=
  .next (s.modCore s.input.core.toNat fun k => { k with power := { k.power with test := some s.input.seqNo } })

/-- The LS, tiles and accumulators of a core are cleared. -/
def scrubCore (c : Nat) (s : State) : State :=
  let lo := lsPlace c 0
  let s := { s with mem := clearPlaces s.mem lo Config.lsSize
                    poison := s.poison.filter fun p => decide (p < lo) || decide (lo + Config.lsSize ≤ p) }
  s.modCore c fun k => { k with tiles := { rows := [], sides := [], words := [], kinds := [] }, ccache := [] }

/-- SELF_TEST_COMPLETE (R234): records in banks 0 to 3. A core that has failed stays out of service, also when it passes a later test,
until the host returns it. -/
def execSelfTestComplete (s : State) : Out :=
  let c := s.input.core.toNat
  match (s.core c).power.test with
  | none => .next s
  | some n =>
    if !(groupsOn c s).isEmpty then .next s
    else
      let sig := s.input.signature.toNat
      let failed := decide (sig ≠ 0)
      let misc := word (bit failed * 2 ^ 63 + n.toNat * 2 ^ 32 + sig)
      let s := (indices 4).foldl (fun s b =>
        let k := s.bank c b
        s.setBank c b
          { k with status := statusRecord k.status (if failed then 2 else 0) 0xF0 0 false false, addr := 0, misc := misc }) s
      .next ((scrubCore c s).modCore c fun k => { k with power := { k.power with test := none, outOfService := k.power.outOfService || failed } })

/-! Power (R241) -/

/-- PCTL_REQUEST (R241): 5 to 7 are ignored. -/
def execPctlRequest (s : State) : Out :=
  if 5 ≤ s.input.req.toNat then .next s
  else .next (s.modCore s.input.core.toNat fun k => { k with power := { k.power with req := s.input.req } })

/-- Whether a requested state takes effect: not after a trip, and off only with no group and no test resident. R241 does not say what
becomes of a REQ = off that is refused: REQ keeps it, and it takes effect once they have ended (DESIGN CHOICE; log entry 129). -/
def powerMoves (c : Nat) (s : State) : Bool :=
  let p := (s.core c).power
  !p.trip && p.req != p.cur && (p.req != 4 || ((groupsOn c s).isEmpty && p.test.isNone))

/-- POWER_STATE_CHANGE (R241): a core that is switched off loses its LS, tiles and accumulators. -/
def execPowerStateChange (s : State) : Out :=
  let c := s.input.core.toNat
  if !powerMoves c s then .next s
  else
    let s := if (s.core c).power.req == 4 then scrubCore c s else s
    .next (s.modCore c fun k => { k with power := { k.power with cur := k.power.req } })

/-- PCTL_TRIP_CLEAR (R241). -/
def execPctlTripClear (s : State) : Out :=
  .next (s.modCore s.input.core.toNat fun k => { k with power := { k.power with trip := false } })

/-- THERMAL_TRIP (R241): every core of the die moves to P3. -/
def execThermalTrip (s : State) : Out :=
  let d := s.input.die
  let s := (indices Config.coresPerDie).foldl (fun s i =>
    s.modCore (d.toNat * Config.coresPerDie + i) fun k => { k with power := { k.power with trip := true, cur := 3 } }) s
  .next (s.modHost fun o => { o with irqs := o.irqs ++ [.thermal d] })

/-- Whether a die has a SerDes of a number: its CXL ports and its peer links (R11, R13). -/
def serdesExists (n : Nat) : Bool := decide (n < Config.cxlPorts) || decide (Config.peerBase ≤ n ∧ n < Config.peerBase + 4)

/-- SERDES_STATE_SET (R241). A die has no port of any other number. -/
def execSerdesStateSet (s : State) : Out :=
  let i := s.input
  if i.st = 3 ∨ !serdesExists i.link.toNat then .next s
  else .next (s.modDie i.die.toNat fun d => { d with serdes := insert d.serdes i.link.toNat i.st })

/-! Device reset and bring-up (R7, R242) -/

/-- A memory outside the device: FM, HM and PM keep their bytes across a device reset. -/
def outside (p : Nat) : Bool := decide (1 ≤ memoryOf p) && decide (memoryOf p ≤ 3)

/-- DEVICE_RESET (R242). -/
def execDeviceReset (s : State) : Out :=
  .next { State.reset with
    mem := s.mem.filter fun b => outside b.1
    poison := s.poison.filter outside
    agenda := s.agenda
    free := s.free }

/-- The default handlers in entries 0 to 31 of a core's fill table (R87). -/
def defaultFills : AMap (BitVec 48) := (indices 32).map fun n => (n, Config.defaultHandler n)

/-- Near memory of a die is scrubbed. -/
def scrubNear (d : Nat) (s : State) : State :=
  let lo := paPlace 0 (d * Config.nmDie)
  { s with mem := clearPlaces s.mem lo Config.nmDie
           poison := s.poison.filter fun p => decide (p < lo) || decide (lo + Config.nmDie ≤ p) }

/-- FUNCTION_READY (R242): a bit of READY becomes 1, with the work of its function done. -/
def execFunctionReady (s : State) : Out :=
  let b := s.input.bit.toNat
  if 58 ≤ b || s.host.ready.getLsbD b then .next s
  else
    let s := if 4 ≤ b ∧ b ≤ 7 then scrubNear (b - 4) s else s
    let s := if b = 56 then (indices Config.cores).foldl (fun s c =>
        s.modCore c fun k => { k with land := { k.land with fillTable := defaultFills } }) s
      else s
    .next (s.modHost fun o => { o with ready := o.ready ||| (1 <<< b : BitVec 64) })

end Sys2Proof.Machine
end

