-- ==== Sys2Proof/Machine/Digest.lean ====
section
/-! DEFINITION. SHA-512, the hash of the signed manifest, which R244 names: FIPS 180-4, sections 4.1.3, 4.2.3, 5.1.2, 5.3.5
and 6.4 (log entry 110). -/

namespace Sys2Proof.Machine

/-- The constants K of the 80 rounds. -/
def shaConstants : List Word :=
  [0x428a2f98d728ae22, 0x7137449123ef65cd, 0xb5c0fbcfec4d3b2f, 0xe9b5dba58189dbbc] ++
  [0x3956c25bf348b538, 0x59f111f1b605d019, 0x923f82a4af194f9b, 0xab1c5ed5da6d8118] ++
  [0xd807aa98a3030242, 0x12835b0145706fbe, 0x243185be4ee4b28c, 0x550c7dc3d5ffb4e2] ++
  [0x72be5d74f27b896f, 0x80deb1fe3b1696b1, 0x9bdc06a725c71235, 0xc19bf174cf692694] ++
  [0xe49b69c19ef14ad2, 0xefbe4786384f25e3, 0x0fc19dc68b8cd5b5, 0x240ca1cc77ac9c65] ++
  [0x2de92c6f592b0275, 0x4a7484aa6ea6e483, 0x5cb0a9dcbd41fbd4, 0x76f988da831153b5] ++
  [0x983e5152ee66dfab, 0xa831c66d2db43210, 0xb00327c898fb213f, 0xbf597fc7beef0ee4] ++
  [0xc6e00bf33da88fc2, 0xd5a79147930aa725, 0x06ca6351e003826f, 0x142929670a0e6e70] ++
  [0x27b70a8546d22ffc, 0x2e1b21385c26c926, 0x4d2c6dfc5ac42aed, 0x53380d139d95b3df] ++
  [0x650a73548baf63de, 0x766a0abb3c77b2a8, 0x81c2c92e47edaee6, 0x92722c851482353b] ++
  [0xa2bfe8a14cf10364, 0xa81a664bbc423001, 0xc24b8b70d0f89791, 0xc76c51a30654be30] ++
  [0xd192e819d6ef5218, 0xd69906245565a910, 0xf40e35855771202a, 0x106aa07032bbd1b8] ++
  [0x19a4c116b8d2d0c8, 0x1e376c085141ab53, 0x2748774cdf8eeb99, 0x34b0bcb5e19b48a8] ++
  [0x391c0cb3c5c95a63, 0x4ed8aa4ae3418acb, 0x5b9cca4f7763e373, 0x682e6ff3d6b2b8a3] ++
  [0x748f82ee5defb2fc, 0x78a5636f43172f60, 0x84c87814a1f0ab72, 0x8cc702081a6439ec] ++
  [0x90befffa23631e28, 0xa4506cebde82bde9, 0xbef9a3f7b2c67915, 0xc67178f2e372532b] ++
  [0xca273eceea26619c, 0xd186b8c721c0c207, 0xeada7dd6cde0eb1e, 0xf57d4f7fee6ed178] ++
  [0x06f067aa72176fba, 0x0a637dc5a2c898a6, 0x113f9804bef90dae, 0x1b710b35131c471b] ++
  [0x28db77f523047d84, 0x32caab7b40c72493, 0x3c9ebe0a15c9bebc, 0x431d67c49c100d4c] ++
  [0x4cc5d4becb3e42b6, 0x597f299cfc657e2a, 0x5fcb6fab3ad6faec, 0x6c44198c4a475817]

/-- The first hash value. -/
def shaInit : List Word :=
  [0x6a09e667f3bcc908, 0xbb67ae8584caa73b, 0x3c6ef372fe94f82b, 0xa54ff53a5f1d36f1] ++
  [0x510e527fade682d1, 0x9b05688c2b3e6c1f, 0x1f83d9abfb41bd6b, 0x5be0cd19137e2179]

/-- The functions on words: Σ0, Σ1, σ0, σ1, Ch and Maj. -/
def shaBig0 (x : Word) : Word := x.rotateRight 28 ^^^ x.rotateRight 34 ^^^ x.rotateRight 39
def shaBig1 (x : Word) : Word := x.rotateRight 14 ^^^ x.rotateRight 18 ^^^ x.rotateRight 41
def shaSmall0 (x : Word) : Word := x.rotateRight 1 ^^^ x.rotateRight 8 ^^^ x >>> 7
def shaSmall1 (x : Word) : Word := x.rotateRight 19 ^^^ x.rotateRight 61 ^^^ x >>> 6
def shaChoose (x y z : Word) : Word := (x &&& y) ^^^ (~~~x &&& z)
def shaMajority (x y z : Word) : Word := (x &&& y) ^^^ (x &&& z) ^^^ (y &&& z)

/-- The message schedule after `n` more words, the newest word first. -/
def shaExtend (l : List Word) : Nat → List Word
  | 0 => l
  | n + 1 =>
    shaExtend ((shaSmall1 (l.getD 1 0) + l.getD 6 0 + shaSmall0 (l.getD 14 0) + l.getD 15 0) :: l) n

/-- One round on the eight working words, with K + W. -/
def shaRound (h : List Word) (kw : Word) : List Word :=
  let v : Nat → Word := fun i => h.getD i 0
  let t1 := v 7 + shaBig1 (v 4) + shaChoose (v 4) (v 5) (v 6) + kw
  let t2 := shaBig0 (v 0) + shaMajority (v 0) (v 1) (v 2)
  [t1 + t2, v 0, v 1, v 2, v 3 + t1, v 4, v 5, v 6]

/-- The hash value after a block of 16 words. -/
def shaBlock (h block : List Word) : List Word :=
  let w := (shaExtend block.reverse 64).reverse
  let r := ((shaConstants.zip w).map fun p => p.1 + p.2).foldl shaRound h
  (h.zip r).map fun p => p.1 + p.2

/-- The big-endian number of some bytes. -/
def bigEndian (l : List Byte) : Nat := l.foldl (fun n b => 256 * n + b.toNat) 0

/-- The `n` bytes of a number, highest first. -/
def bigBytes (n w : Nat) : List Byte := ((indices n).map fun i => BitVec.ofNat 8 (w / 256 ^ i)).reverse

/-- A message with its padding: a 1 bit, zeros, and its length in bits. -/
def shaPad (l : List Byte) : List Byte :=
  l ++ [0x80] ++ List.replicate ((239 - l.length % 128) % 128) 0 ++ bigBytes 16 (8 * l.length)

/-- Block `i` of a padded message, as words. -/
def shaWords (l : List Byte) (i : Nat) : List Word :=
  (indices 16).map fun j => word (bigEndian ((l.drop (128 * i + 8 * j)).take 8))

/-- The 64 bytes of the SHA-512 of a message. -/
def sha512 (l : List Byte) : List Byte :=
  let m := shaPad l
  ((indices (m.length / 128)).foldl (fun h i => shaBlock h (shaWords m i)) shaInit).flatMap fun w => bigBytes 8 w.toNat

end Sys2Proof.Machine
end

