-- ==== Sys2Proof/Machine/Host.lean ====
section
/-! DEFINITION. What the host and the peers do: the register window, near memory, attestation, debug sessions, counter banks
and profiling (R143, R235 to R250). -/

namespace Sys2Proof.Machine

/-- The function whose one MSI-X vector an interrupt takes (R235): the physical function's, as R207 and R267 say of a done counter
and of HALT, and here for every cause (log entry 98). -/
def Irq.function (_ : Irq) : WindowUser := .physical

/-! The register window (R236, R237) -/

/-- The counter bank of a core. -/
def State.counterBank (s : State) (c b : Nat) : CounterBank :=
  lookupD (s.core c).dbg.counters b ⟨false, none, false, [], []⟩

def State.setCounterBank (s : State) (c b : Nat) (x : CounterBank) : State :=
  s.modCore c fun k => { k with dbg := { k.dbg with counters := insert k.dbg.counters b x } }

def Counter.reset : Counter := ⟨0, false, 0, false⟩

/-- An event is selected: one that the device lacks reads 0 with ABSENT = 1, and never counts (R250). -/
def Counter.select (x : Counter) (event : BitVec 63) (sampling : Bool) : Counter :=
  let none := Config.lacksEvent event
  { event := event, sampling := sampling, count := if none then 0 else x.count, absent := none }

/-- A counter of a bank changes. -/
def CounterBank.mod (k : CounterBank) (n : Nat) (f : Counter → Counter) : CounterBank :=
  { k with counters := insert k.counters n (f (lookupD k.counters n Counter.reset)) }

/-- A register that only a guest clears (R250): PREEMPTED stays through a write of the physical function. -/
def clearedByGuest : WindowReg → Bool
  | .counterStatus _ _ => true
  | _ => false

/-- Whether a virtual function owns a register: those of its tenant (R236, R237), and those of a counter bank that its guest holds
(R250). LIM of its tenant is among them, although R178 names the hypervisor (log entry 111). -/
def windowOwns (v : BitVec 6) (r : WindowReg) (s : State) : Bool :=
  match r with
  | .wgt t | .deficit t | .lim t | .saveBase t | .tbase t | .ptbase t | .asid t => t == v
  | .counterEvent c b _ => let k := s.counterBank c.toNat b.toNat; k.guest == some v && !k.hyper
  | .counterStatus c b => (s.counterBank c.toNat b.toNat).guest == some v
  | _ => false

/-- The oldest entry leaves the VIQ without executing. -/
def Hart.dropOldest (x : Hart) : Hart :=
  match x.vec.held, x.vec.viq with
  | _ :: rest, _ =>
    { x with vec := { x.vec with held := rest }
             ms := { x.ms with stq := x.ms.stq.map fun p =>
               if p.parked then { p.sooner with parked := p.sooner.after != 0 } else p } }
  | [], _ :: rest => { x with vec := { x.vec with viq := rest } }.oneDone
  | [], [] => x

/-- VCP moves on to the oldest entry of an address, or past every entry when it is the front PC (R50, R245). -/
def Hart.setVcp (x : Hart) (pc : BitVec 48) : Hart :=
  let l := x.entries
  let k := l.findIdx fun e => e.pc == pc
  if k = l.length ∧ pc ≠ x.pc then x
  else
    let looping := match l.head?.map VEntry.instr with
      | some (.loop _ _) => true
      | _ => false
    let loop := if looping && decide (0 < k) then none else x.lp.loop
    { (indices k).foldl (fun y _ => y.dropOldest) x with lp := { x.lp with loop := loop } }

/-- What a stopped hart takes from its debug session; a running one takes nothing (R245). -/
def writeStopped (c h : Nat) (f : Hart → Hart) (s : State) : State :=
  s.modHartAt c h fun x => if x.run.stopped then f x else x

/-- A register of the window takes a value (R237). -/
def writeWindow (r : WindowReg) (w : Word) (s : State) : State :=
  match r with
  | .wgt t => s.modTenant t.toNat fun x => { x with wgt := BitVec.ofNat 8 w.toNat }
  | .deficit t => s.modTenant t.toNat fun x => { x with deficit := w }
  | .lim t => s.modTenant t.toNat fun x => { x with lim := w.getLsbD 0 }
  | .saveBase t => s.modTenant t.toNat fun x => { x with saveBase := w }
  | .tbase t => s.modTenant t.toNat fun x => { x with tbase := word (wbits w 6 42 * 64) }
  | .ptbase t => s.modTenant t.toNat fun x => { x with ptbase := word (wbits w 12 40 * 4096 + wbits w 0 2) }
  | .asid t => s.modTenant t.toNat fun x => { x with asid := BitVec.ofNat 16 w.toNat }
  | .podid => s.modHost fun o => { o with podId := BitVec.ofNat 6 w.toNat }
  | .claim c h => s.modHartAt c.toNat h.toNat fun x => { x with run := { x.run with claimed := w.getLsbD 3 } }
  | .breakpoint c n =>
    let b : Breakpoint := ⟨BitVec.ofNat 48 w.toNat, w.getLsbD 48, BitVec.ofNat 4 (wbits w 52 4)⟩
    s.modCore c.toNat fun k => { k with dbg := { k.dbg with breakpoints := insert k.dbg.breakpoints n.toNat b } }
  | .bankStatus c b => s.setBank c.toNat b.toNat ((s.bank c.toNat b.toNat).writeStatus w (w.getLsbD 63))
  | .bankCtl c b => s.setBank c.toNat b.toNat
      { s.bank c.toNat b.toNat with ctl := word (wbits w 16 16 * 2 ^ 16 + wbits w 0 1) }
  | .ringBase c => s.modCore c.toNat fun k => { k with dbg := { k.dbg with ringBase := w, ringPos := 0 } }
  | .ringSize c => s.modCore c.toNat fun k => { k with dbg := { k.dbg with ringSize := w, ringPos := 0 } }
  | .sample c =>
    if 4 ≤ w.toNat ∧ w.toNat ≤ 20 then
      s.modCore c.toNat fun k => { k with dbg := { k.dbg with sampleExp := w.toNat, sampled := 0 } }
    else s
  | .counterEvent c b n =>
    s.setCounterBank c.toNat b.toNat
      ((s.counterBank c.toNat b.toNat).mod n.toNat fun x => x.select (BitVec.ofNat 63 w.toNat) (w.getLsbD 63))
  | .counterValue c b n =>
    s.setCounterBank c.toNat b.toNat ((s.counterBank c.toNat b.toNat).mod n.toNat fun x =>
      { x with count := if x.absent then 0 else BitVec.ofNat 48 w.toNat })
  | .counterSession c b =>
    let k := s.counterBank c.toNat b.toNat
    let guest := if w.getLsbD 63 then some (BitVec.ofNat 6 w.toNat) else none
    s.setCounterBank c.toNat b.toNat
      { k with guest := guest, preempted := w.getLsbD 62 || (k.preempted && guest.isSome && guest == k.guest) }
  | .counterStatus c b => s.setCounterBank c.toNat b.toNat { s.counterBank c.toNat b.toNat with preempted := false }
  | .service c => s.modCore c.toNat fun k => { k with power := { k.power with outOfService := false } }
  | .frontPc c h => writeStopped c.toNat h.toNat (fun x =>
      { x with pc := BitVec.ofNat 48 (w.toNat / 2 * 2), lead := Lead.none }) s
  | .vcp c h => writeStopped c.toNat h.toNat (fun x => x.setVcp (BitVec.ofNat 48 w.toNat)) s
  | .vstart c h => writeStopped c.toNat h.toNat (fun x => x.setVstart (wbits w 0 13)) s
  | .viq c h n k => writeStopped c.toNat h.toNat (fun x => x.modEntry n.toNat (writeEntry k w)) s

/-- The value of a write to the register window: its eight bytes, little-endian (R3). -/
def windowValue (i : Input) : Word := word (bytesToNat (i.bytes.take 8))

/-- REGISTER_WINDOW_WRITE (R236, R237): a write to a register of another tenant is dropped, and so is one of the physical function
to a register that only a guest clears. -/
def execRegisterWindowWrite (s : State) : Out :=
  let i := s.input
  match i.user with
  | .physical => .next (if clearedByGuest i.reg then s else writeWindow i.reg (windowValue i) s)
  | .virtual v => .next (if windowOwns v i.reg s then writeWindow i.reg (windowValue i) s else s)

/-! Near memory from outside (R143, R235, R242) -/

def giveAnswer (a : Answer) (s : State) : State := s.modHost fun o => { o with answers := o.answers ++ [a] }

/-- Whether the near memory that holds an address has been scrubbed since device reset (R242). -/
def nearReady (pa : Nat) (s : State) : Bool := s.host.ready.getLsbD (4 + pa / Config.nmDie)

/-- HOST_NM_READ (R235, R242): an access that meets near memory that is not ready answers with poison. -/
def execHostNmRead (s : State) : Out :=
  let pa := s.input.pa.toNat
  let n := s.input.len.toNat
  if Config.nmSize < pa + n then .fault .noSuchAddress
  else
    let p := paPlace 0 pa
    let bad := !((indices n).all fun i => nearReady (pa + i) s) || poisoned p n s
    .next (giveAnswer (.bytes (if bad then [] else readPlaces s.mem p n) bad) s)

/-- Bytes from a place upwards, as store cells. -/
def byteCells (p : Nat) (l : List Byte) : List StoreCell := l.zipIdx.map fun e => ⟨p + e.2, e.1, 0xFF⟩

/-- HOST_NM_WRITE (R235, R242): near memory that is not ready keeps nothing. -/
def execHostNmWrite (s : State) : Out :=
  let pa := s.input.pa.toNat
  let l := s.input.bytes
  if Config.nmSize < pa + l.length then .fault .noSuchAddress
  else
    let base := paPlace 0 pa
    .next (performCells ((byteCells base l).filter fun b => nearReady (pa + (b.place - base)) s) s)

/-- PEER_ACCESS_TO_NEAR_MEMORY (R143, R159). -/
def execPeerAccessToNearMemory (s : State) : Out :=
  let pa := s.input.pa.toNat
  let p := paPlace 0 pa
  match s.input.access with
  | .read n =>
    if Config.nmSize < pa + n.toNat then .fault .noSuchAddress
    else
      let bad := poisoned p n.toNat s
      .next (giveAnswer (.bytes (if bad then [] else readPlaces s.mem p n.toNat) bad) s)
  | .write l =>
    if Config.nmSize < pa + l.length then .fault .noSuchAddress
    else .next (performCells (byteCells p l) s)
  | .amo op w expected =>
    if Config.nmSize < pa + 8 then .fault .noSuchAddress
    else if poisoned p 8 s then .next (giveAnswer (.bytes [] true) s)
    else
      let old := word (readNat s.mem p 8)
      .next (giveAnswer (.amo old) (performNat p 8 (amoNew op.toNat old w expected).toNat s))

/-! Attestation (R244) -/

/-- An SPDM request is answered when ATT is 1. -/
def attest (a : State → Answer) (s : State) : Out :=
  .next (giveAnswer (if s.host.ready.getLsbD 57 then a s else .none) s)

/-- GET_VERSION (R244): SPDM 1.3. -/
def execGetVersion (s : State) : Out := attest (fun _ => .spdmVersion 1 3) s

/-- GET_CAPABILITIES (R244). -/
def execGetCapabilities (s : State) : Out := attest (fun _ => .spdmCapabilities) s

/-- NEGOTIATE_ALGORITHMS (R244): RSASSA-PSS with RSA-4096, and SHA-512. -/
def execNegotiateAlgorithms (s : State) : Out := attest (fun _ => .spdmAlgorithms .rsassaPss 4096 .sha512) s

/-- GET_DIGESTS (R244). -/
def execGetDigests (s : State) : Out := attest (fun _ => .spdmDigests Config.chainDigest) s

/-- GET_CERTIFICATE (R244). -/
def execGetCertificate (s : State) : Out :=
  attest (fun s =>
    let off := s.input.off.toNat
    let n := s.input.len.toNat
    .spdmCertificate off n ((indices n).map fun i => Config.certificate (off + i))) s

/-- The bytes of a number, lowest first. -/
def bytesOf (n w : Nat) : List Byte := (indices n).map fun i => BitVec.ofNat 8 (w / 256 ^ i)

/-- CHALLENGE (R244). -/
def execChallenge (s : State) : Out :=
  attest (fun s => .spdmChallenge s.input.nonce (Config.signature (bytesOf 32 s.input.nonce.toNat))) s

/-- The fill-table entries of every core, 8 bytes each, entry 0 first. -/
def fillTables (s : State) : List Byte :=
  (indices Config.cores).flatMap fun c => (indices 64).flatMap fun n =>
    bytesOf 8 (lookupD (s.core c).land.fillTable n 0).toNat

/-- The signed manifest: firmware measurements, the hash of the fill tables, the reset defaults of HCTL.DET and FPCTL.RM, and
the identifier 1 of the collective tree (R240, R244). -/
def manifest (s : State) : List Byte :=
  Config.measurement 0xF0 ++ sha512 (fillTables s) ++
    [BitVec.ofNat 8 (bit Hart.reset.lp.det), BitVec.ofNat 8 (wbits (word Hart.reset.fp.ctl.toNat) 0 3), 1]

/-- GET_MEASUREMENTS (R244). -/
def execGetMeasurements (s : State) : Out :=
  attest (fun s =>
    let b := s.input.code
    let content := if b = 0xF0 then manifest s else Config.measurement b
    .spdmMeasurements b content (Config.signature content)) s

/-- SPDM_UNSUPPORTED_REQUEST (R244). -/
def execSpdmUnsupportedRequest (s : State) : Out := attest (fun s => .spdmUnsupported s.input.code) s

/-! Debug sessions (R245, R267) -/

/-- DBGCTL_STOP (R245): a claimed hart stops. -/
def execDbgctlStop (s : State) : Out :=
  let c := s.input.core.toNat
  let h := s.input.hart.toNat
  if (s.hartAt c h).run.claimed then .next (debugStop c h s) else .next s

/-- DBGCTL_RUN (R245, R267): a stopped or halted hart goes on. -/
def execDbgctlRun (s : State) : Out :=
  .next (s.modHartAt s.input.core.toNat s.input.hart.toNat fun x =>
    { x with run := { x.run with stopped := false, halted := false, why := 0 } })

/-! Counter banks (R249, R250) -/

/-- COUNTER_BANK_CLAIM (R250): the hypervisor wins at once, and a guest's values freeze. -/
def execCounterBankClaim (s : State) : Out :=
  let c := s.input.core.toNat
  let b := s.input.bank.toNat % 4
  let k := s.counterBank c b
  match s.input.user with
  | .physical =>
    if k.hyper then .next s
    else
      .next (s.setCounterBank c b
        { k with hyper := true, preempted := k.preempted || k.guest.isSome, frozen := k.counters, counters := [] })
  | .virtual v =>
    if k.guest.isSome then .next s
    else .next (s.setCounterBank c b { k with guest := some v, preempted := k.hyper })

/-- COUNTER_BANK_RELEASE (R250): the guest's counters resume from their frozen values, and PREEMPTED stays. -/
def execCounterBankRelease (s : State) : Out :=
  let c := s.input.core.toNat
  let b := s.input.bank.toNat % 4
  let k := s.counterBank c b
  match s.input.user with
  | .physical =>
    if k.hyper then .next (s.setCounterBank c b { k with hyper := false, counters := k.frozen, frozen := [] }) else .next s
  | .virtual v =>
    if k.guest == some v then .next (s.setCounterBank c b { k with guest := none, preempted := false }) else .next s

/-- A counter advances by an amount that the spec leaves open, short of its overflow, which is an event of its own (R249; log
entry 57); one that is absent never counts. -/
def advanceCounter (p : AMap Counter × State) (e : Nat × Counter) : AMap Counter × State :=
  if e.2.absent then (p.1 ++ [e], p.2)
  else
    let (w, s) := freshWord p.2
    let room := 2 ^ 48 - 1 - e.2.count.toNat
    (p.1 ++ [(e.1, { e.2 with count := BitVec.ofNat 48 (e.2.count.toNat + Nat.min w.toNat room) })], s)

/-- The counters of a core's banks count through a cycle; a guest's counters that the hypervisor's claim has frozen do not
(R250). -/
def countEvents (c : Nat) (s : State) : State :=
  (s.core c).dbg.counters.foldl (fun s b =>
    let (l, s) := b.2.counters.foldl advanceCounter ([], s)
    s.setCounterBank c b.1 { s.counterBank c b.1 with counters := l }) s

/-- COUNTER_OVERFLOW (R249): the counter passes 2^48 − 1; with sampling, the next instruction of the hart whose event
overflowed is recorded, and the core's front issues nothing in the next cycle. -/
def execCounterOverflow (s : State) : Out :=
  let c := s.input.core.toNat
  let b := s.input.bank.toNat % 4
  let n := s.input.ctr.toNat
  let h := s.input.hart.toNat
  let k := s.counterBank c b
  let x := lookupD k.counters n Counter.reset
  if x.absent then .next s
  else
    let s := s.setCounterBank c b { k with counters := insert k.counters n { x with count := 0 } }
    if !x.sampling then .next s
    else
      let y := s.hartAt c h
      let s := addRecord c y.pc.toNat 0 3 y.vcp.1.toNat (8 * b + n) y.run.cycle.toNat s
      .next (s.modCore c fun q => { q with dbg := { q.dbg with hold := true } })

/-! Profiling (R247) -/

/-- What the front of a hart waits for, as a reason of R247: that of its last turn, but 4 where it waits for an entry of the VIQ that
has yet to pop its strips, and 13 where it waits for what only the entries that a trap holds will do. R247 does not say which of
two reasons that hold is counted (DESIGN CHOICE; log entry 120). -/
def Hart.waitReason (x : Hart) : BitVec 4 :=
  let held := x.tr.tcause.getLsbD 59 && x.vec.viq.isEmpty && !x.vec.held.isEmpty
  if held && [3, 7, 15].contains x.run.why.toNat then 13
  else if x.run.why = 15 && (match x.vec.viq with
      | v :: _ => !v.popped && v.strips.any fun t => !t.store
      | [] => false) then 4
  else x.run.why

/-- Whether the front of a hart has the halfword at its PC: from what it took from a prefetch buffer, or in the instruction cache. -/
def codeNear (c h : Nat) (s : State) : Bool :=
  let x := s.hartAt c h
  (x.lead.half x.pc).isSome ||
    match translate ⟨c, x.ms.ptbase, x.ms.asid, x.tr.sup⟩ .fetch (x.pc.zeroExtend 64) 0 s with
    | .ok (p, _) _ => (lookup (s.core c).icache (lineOf p)).isSome
    | _ => false

/-- The reason of a cycle of a running hart (R247): what blocks its front, else 5 for a hart that is being pre-empted, whose settle
goes on, else that of its front's turn in the cycle, else 12 where its next block has yet to be fetched, else 1, it could have issued
and was not chosen. -/
def Hart.cycleReason (x : Hart) (victim near : Bool) : BitVec 4 :=
  match x.blocked with
  | some n => BitVec.ofNat 4 n
  | none => if victim then 5 else if x.run.turned || x.run.why != 0 then x.waitReason else if near then 1 else 12

/-- One cycle of a running user hart in the table of its core. -/
def countReason (c h : Nat) (s : State) : State :=
  let x := s.hartAt c h
  let reason := x.cycleReason (victimised x s) (codeNear c h s)
  let i := (bits x.pc.toNat 1 12).xor (reason.toNat * 16) % 4096
  let fresh : ProfEntry := ⟨x.pc, reason, 1, BitVec.ofNat 6 x.tenantNo, BitVec.ofNat 2 h⟩
  let (e, s) := match lookup (s.core c).dbg.profile i with
    | none => (fresh, s)
    | some e =>
      if e.pc == x.pc && e.reason == reason then ({ e with count := e.count + 1 }, s) else (fresh, spillRecord c e s)
  s.modCore c fun k => { k with dbg := { k.dbg with profile := insert k.dbg.profile i e } }

/-- PC_REASON_CYCLE_COUNT (R247): one cycle of a core. -/
def execPcReasonCycleCount (s : State) : Out :=
  let c := s.input.core.toNat
  let s := (indices 4).foldl (fun s h => if (s.hartAt c h).run.running then countReason c h s else s) s
  let s := countEvents c s
  .next (s.modCore c fun k =>
    { k with
      cycles := k.cycles + 1
      dbg := { k.dbg with hold := false }
      harts := mapValues (fun _ x =>
          if x.run.running then { x with run := { x.run with cycle := x.run.cycle + 1, turned := false } } else x) k.harts })

end Sys2Proof.Machine
end

