-- ==== Sys2Proof/Machine/Dispatch.lean ====
section
/-! DEFINITION. The meaning of each instruction and of each row with no encoding. -/

namespace Sys2Proof.Machine

def exec (i : Instr) (s : State) : Host.Outcome State Fault Refusal :=
  match i with
  | .add d a b => Sys2Proof.Machine.execAdd d a b s
  | .addC d b => Sys2Proof.Machine.execAddC d b s
  | .sub d a b => Sys2Proof.Machine.execSub d a b s
  | .and d a b => Sys2Proof.Machine.execAnd d a b s
  | .or d a b => Sys2Proof.Machine.execOr d a b s
  | .xor d a b => Sys2Proof.Machine.execXor d a b s
  | .shl d a b => Sys2Proof.Machine.execShl d a b s
  | .shr d a b => Sys2Proof.Machine.execShr d a b s
  | .shra d a b => Sys2Proof.Machine.execShra d a b s
  | .min d a b => Sys2Proof.Machine.execMin d a b s
  | .max d a b => Sys2Proof.Machine.execMax d a b s
  | .minn d a b => Sys2Proof.Machine.execMinn d a b s
  | .maxn d a b => Sys2Proof.Machine.execMaxn d a b s
  | .slt d a b => Sys2Proof.Machine.execSlt d a b s
  | .sltn d a b => Sys2Proof.Machine.execSltn d a b s
  | .clz d a => Sys2Proof.Machine.execClz d a s
  | .popc d a => Sys2Proof.Machine.execPopc d a s
  | .mv d a => Sys2Proof.Machine.execMv d a s
  | .mvC d a => Sys2Proof.Machine.execMvC d a s
  | .addi d a imm => Sys2Proof.Machine.execAddi d a imm s
  | .addiC j d imm => Sys2Proof.Machine.execAddiC j d imm s
  | .andi d a imm => Sys2Proof.Machine.execAndi d a imm s
  | .ori d a imm => Sys2Proof.Machine.execOri d a imm s
  | .xori d a imm => Sys2Proof.Machine.execXori d a imm s
  | .shli d a n => Sys2Proof.Machine.execShli d a n s
  | .shri d a n => Sys2Proof.Machine.execShri d a n s
  | .shrai d a n => Sys2Proof.Machine.execShrai d a n s
  | .lih d imm => Sys2Proof.Machine.execLih d imm s
  | .mul d a b => Sys2Proof.Machine.execMul d a b s
  | .mulh d a b => Sys2Proof.Machine.execMulh d a b s
  | .mulhn d a b => Sys2Proof.Machine.execMulhn d a b s
  | .div d a b => Sys2Proof.Machine.execDiv d a b s
  | .divn d a b => Sys2Proof.Machine.execDivn d a b s
  | .rem d a b => Sys2Proof.Machine.execRem d a b s
  | .remn d a b => Sys2Proof.Machine.execRemn d a b s
  | .faddFp64 d a b => Sys2Proof.Machine.execFaddFp64 d a b s
  | .fsubFp64 d a b => Sys2Proof.Machine.execFsubFp64 d a b s
  | .fmulFp64 d a b => Sys2Proof.Machine.execFmulFp64 d a b s
  | .fdivFp64 d a b => Sys2Proof.Machine.execFdivFp64 d a b s
  | .fmaFp64 d a b => Sys2Proof.Machine.execFmaFp64 d a b s
  | .fminFp64 d a b => Sys2Proof.Machine.execFminFp64 d a b s
  | .fmaxFp64 d a b => Sys2Proof.Machine.execFmaxFp64 d a b s
  | .fsqrtFp64 d a => Sys2Proof.Machine.execFsqrtFp64 d a s
  | .fcvtFp64 d a c => Sys2Proof.Machine.execFcvtFp64 d a c s
  | .faddFp32 d a b => Sys2Proof.Machine.execFaddFp32 d a b s
  | .fsubFp32 d a b => Sys2Proof.Machine.execFsubFp32 d a b s
  | .fmulFp32 d a b => Sys2Proof.Machine.execFmulFp32 d a b s
  | .fdivFp32 d a b => Sys2Proof.Machine.execFdivFp32 d a b s
  | .fmaFp32 d a b => Sys2Proof.Machine.execFmaFp32 d a b s
  | .fminFp32 d a b => Sys2Proof.Machine.execFminFp32 d a b s
  | .fmaxFp32 d a b => Sys2Proof.Machine.execFmaxFp32 d a b s
  | .fsqrtFp32 d a => Sys2Proof.Machine.execFsqrtFp32 d a s
  | .fcvtFp32 d a c => Sys2Proof.Machine.execFcvtFp32 d a c s
  | .cmp k a b c => Sys2Proof.Machine.execCmp k a b c s
  | .fcmpFp64 k a b c => Sys2Proof.Machine.execFcmpFp64 k a b c s
  | .fcmpFp32 k a b c => Sys2Proof.Machine.execFcmpFp32 k a b c s
  | .kand k a b => Sys2Proof.Machine.execKand k a b s
  | .kor k a b => Sys2Proof.Machine.execKor k a b s
  | .kxor k a b => Sys2Proof.Machine.execKxor k a b s
  | .knot k a => Sys2Proof.Machine.execKnot k a s
  | .kfromx k a => Sys2Proof.Machine.execKfromx k a s
  | .ktox d k => Sys2Proof.Machine.execKtox d k s
  | .prep bt o => Sys2Proof.Machine.execPrep bt o s
  | .prepC h bt o => Sys2Proof.Machine.execPrepC h bt o s
  | .prepr bt a => Sys2Proof.Machine.execPrepr bt a s
  | .mvb bt d => Sys2Proof.Machine.execMvb bt d s
  | .jmp bt => Sys2Proof.Machine.execJmp bt s
  | .jmpC bt => Sys2Proof.Machine.execJmpC bt s
  | .br bt k => Sys2Proof.Machine.execBr bt k s
  | .brC bt k => Sys2Proof.Machine.execBrC bt k s
  | .brn bt k => Sys2Proof.Machine.execBrn bt k s
  | .brnC bt k => Sys2Proof.Machine.execBrnC bt k s
  | .call bt => Sys2Proof.Machine.execCall bt s
  | .invb bt => Sys2Proof.Machine.execInvb bt s
  | .nop => Sys2Proof.Machine.execNop s
  | .nopC => Sys2Proof.Machine.execNopC s
  | .trap n => Sys2Proof.Machine.execTrap n s
  | .eret => Sys2Proof.Machine.execEret s
  | .halt => Sys2Proof.Machine.execHalt s
  | .wait a b => Sys2Proof.Machine.execWait a b s
  | .isync => Sys2Proof.Machine.execIsync s
  | .fence kind scope => Sys2Proof.Machine.execFence kind scope s
  | .bkpt => Sys2Proof.Machine.execBkpt s
  | .ld d a z imm => Sys2Proof.Machine.execLd d a z imm s
  | .st xs a z imm => Sys2Proof.Machine.execSt xs a z imm s
  | .ldl d a z imm => Sys2Proof.Machine.execLdl d a z imm s
  | .ldlC d imm => Sys2Proof.Machine.execLdlC d imm s
  | .stl xs a z imm => Sys2Proof.Machine.execStl xs a z imm s
  | .stlC xs imm => Sys2Proof.Machine.execStlC xs imm s
  | .amoAdd d a b o => Sys2Proof.Machine.execAmoAdd d a b o s
  | .amoAnd d a b o => Sys2Proof.Machine.execAmoAnd d a b o s
  | .amoOr d a b o => Sys2Proof.Machine.execAmoOr d a b o s
  | .amoXor d a b o => Sys2Proof.Machine.execAmoXor d a b o s
  | .amoMin d a b o => Sys2Proof.Machine.execAmoMin d a b o s
  | .amoMax d a b o => Sys2Proof.Machine.execAmoMax d a b o s
  | .amoMinn d a b o => Sys2Proof.Machine.execAmoMinn d a b o s
  | .amoMaxn d a b o => Sys2Proof.Machine.execAmoMaxn d a b o s
  | .amoSwap d a b o => Sys2Proof.Machine.execAmoSwap d a b o s
  | .amoCas d a b o => Sys2Proof.Machine.execAmoCas d a b o s
  | .crd d c => Sys2Proof.Machine.execCrd d c s
  | .crdSync d c => Sys2Proof.Machine.execCrdSync d c s
  | .cwr xs c => Sys2Proof.Machine.execCwr xs c s
  | .cset xs c => Sys2Proof.Machine.execCset xs c s
  | .cclr xs c => Sys2Proof.Machine.execCclr xs c s
  | .tlbinvVa => Sys2Proof.Machine.execTlbinvVa s
  | .tlbinvAsid => Sys2Proof.Machine.execTlbinvAsid s
  | .tlbinvAllNonglobal => Sys2Proof.Machine.execTlbinvAllNonglobal s
  | .tlbinvAll => Sys2Proof.Machine.execTlbinvAll s
  | .rstatStopClear => Sys2Proof.Machine.execRstatStopClear s
  | .mcStatusClear => Sys2Proof.Machine.execMcStatusClear s
  | .notechWrite => Sys2Proof.Machine.execNotechWrite s
  | .enq a u => Sys2Proof.Machine.execEnq a u s
  | .deq d u => Sys2Proof.Machine.execDeq d u s
  | .deqt d u => Sys2Proof.Machine.execDeqt d u s
  | .launch a => Sys2Proof.Machine.execLaunch a s
  | .wqry n => Sys2Proof.Machine.execWqry n s
  | .gbar scope => Sys2Proof.Machine.execGbar scope s
  | .exit => Sys2Proof.Machine.execExit s
  | .sdef a n => Sys2Proof.Machine.execSdef a n s
  | .sbind v n => Sys2Proof.Machine.execSbind v n s
  | .sunb n => Sys2Proof.Machine.execSunb n s
  | .chdef a n => Sys2Proof.Machine.execChdef a n s
  | .chput a n => Sys2Proof.Machine.execChput a n s
  | .chgetGet d a n => Sys2Proof.Machine.execChgetGet d a n s
  | .chgetPeek => Sys2Proof.Machine.execChgetPeek s
  | .chgetTake => Sys2Proof.Machine.execChgetTake s
  | .chgetTail => Sys2Proof.Machine.execChgetTail s
  | .rdef a => Sys2Proof.Machine.execRdef a s
  | .rrun a => Sys2Proof.Machine.execRrun a s
  | .rfld v a => Sys2Proof.Machine.execRfld v a s
  | .rput v a c => Sys2Proof.Machine.execRput v a c s
  | .rspawn v => Sys2Proof.Machine.execRspawn v s
  | .rres v a => Sys2Proof.Machine.execRres v a s
  | .rkid v a c => Sys2Proof.Machine.execRkid v a c s
  | .rdone => Sys2Proof.Machine.execRdone s
  | .lnget d => Sys2Proof.Machine.execLnget d s
  | .fill xs a => Sys2Proof.Machine.execFill xs a s
  | .ftload xs a => Sys2Proof.Machine.execFtload xs a s
  | .pres m v => Sys2Proof.Machine.execPres m v s
  | .vsetl d a t2 sc ty => Sys2Proof.Machine.execVsetl d a t2 sc ty s
  | .vgrant d a => Sys2Proof.Machine.execVgrant d a s
  | .vfork d bt => Sys2Proof.Machine.execVfork d bt s
  | .vjoin a => Sys2Proof.Machine.execVjoin a s
  | .loop a n => Sys2Proof.Machine.execLoop a n s
  | .vexit m c => Sys2Proof.Machine.execVexit m c s
  | .vrel v => Sys2Proof.Machine.execVrel v s
  | .settle v w n => Sys2Proof.Machine.execSettle v w n s
  | .vtest k m c => Sys2Proof.Machine.execVtest k m c s
  | .vadd d a b m => Sys2Proof.Machine.execVadd d a b m s
  | .vsub d a b m => Sys2Proof.Machine.execVsub d a b m s
  | .vrsub d a b m => Sys2Proof.Machine.execVrsub d a b m s
  | .vmul d a b m => Sys2Proof.Machine.execVmul d a b m s
  | .vmulh d a b m => Sys2Proof.Machine.execVmulh d a b m s
  | .vmulhn d a b m => Sys2Proof.Machine.execVmulhn d a b m s
  | .vand d a b m => Sys2Proof.Machine.execVand d a b m s
  | .vor d a b m => Sys2Proof.Machine.execVor d a b m s
  | .vxor d a b m => Sys2Proof.Machine.execVxor d a b m s
  | .vshl d a b m => Sys2Proof.Machine.execVshl d a b m s
  | .vshr d a b m => Sys2Proof.Machine.execVshr d a b m s
  | .vshra d a b m => Sys2Proof.Machine.execVshra d a b m s
  | .vmin d a b m => Sys2Proof.Machine.execVmin d a b m s
  | .vmax d a b m => Sys2Proof.Machine.execVmax d a b m s
  | .vminn d a b m => Sys2Proof.Machine.execVminn d a b m s
  | .vmaxn d a b m => Sys2Proof.Machine.execVmaxn d a b m s
  | .vmerge d a b m => Sys2Proof.Machine.execVmerge d a b m s
  | .vadc d a b m => Sys2Proof.Machine.execVadc d a b m s
  | .vsbc d a b m => Sys2Proof.Machine.execVsbc d a b m s
  | .vwmul d a b m => Sys2Proof.Machine.execVwmul d a b m s
  | .vaddX d a b m => Sys2Proof.Machine.execVaddX d a b m s
  | .vsubX d a b m => Sys2Proof.Machine.execVsubX d a b m s
  | .vrsubX d a b m => Sys2Proof.Machine.execVrsubX d a b m s
  | .vmulX d a b m => Sys2Proof.Machine.execVmulX d a b m s
  | .vmulhX d a b m => Sys2Proof.Machine.execVmulhX d a b m s
  | .vmulhnX d a b m => Sys2Proof.Machine.execVmulhnX d a b m s
  | .vandX d a b m => Sys2Proof.Machine.execVandX d a b m s
  | .vorX d a b m => Sys2Proof.Machine.execVorX d a b m s
  | .vxorX d a b m => Sys2Proof.Machine.execVxorX d a b m s
  | .vshlX d a b m => Sys2Proof.Machine.execVshlX d a b m s
  | .vshrX d a b m => Sys2Proof.Machine.execVshrX d a b m s
  | .vshraX d a b m => Sys2Proof.Machine.execVshraX d a b m s
  | .vminX d a b m => Sys2Proof.Machine.execVminX d a b m s
  | .vmaxX d a b m => Sys2Proof.Machine.execVmaxX d a b m s
  | .vminnX d a b m => Sys2Proof.Machine.execVminnX d a b m s
  | .vmaxnX d a b m => Sys2Proof.Machine.execVmaxnX d a b m s
  | .vmergeX d a b m => Sys2Proof.Machine.execVmergeX d a b m s
  | .vadcX d a b m => Sys2Proof.Machine.execVadcX d a b m s
  | .vsbcX d a b m => Sys2Proof.Machine.execVsbcX d a b m s
  | .vwmulX d a b m => Sys2Proof.Machine.execVwmulX d a b m s
  | .vfadd d a b m => Sys2Proof.Machine.execVfadd d a b m s
  | .vfsub d a b m => Sys2Proof.Machine.execVfsub d a b m s
  | .vfmul d a b m => Sys2Proof.Machine.execVfmul d a b m s
  | .vfma d a b m => Sys2Proof.Machine.execVfma d a b m s
  | .vfmin d a b m => Sys2Proof.Machine.execVfmin d a b m s
  | .vfmax d a b m => Sys2Proof.Machine.execVfmax d a b m s
  | .vfdiv d a b m => Sys2Proof.Machine.execVfdiv d a b m s
  | .vfrcp d a m => Sys2Proof.Machine.execVfrcp d a m s
  | .vfrsq d a m => Sys2Proof.Machine.execVfrsq d a m s
  | .vfsqrt d a m => Sys2Proof.Machine.execVfsqrt d a m s
  | .vfexp d a m => Sys2Proof.Machine.execVfexp d a m s
  | .vflog d a m => Sys2Proof.Machine.execVflog d a m s
  | .vfsin d a m => Sys2Proof.Machine.execVfsin d a m s
  | .vfcos d a m => Sys2Proof.Machine.execVfcos d a m s
  | .vfcvt d a g m => Sys2Proof.Machine.execVfcvt d a g m s
  | .vfwmul d a b m => Sys2Proof.Machine.execVfwmul d a b m s
  | .vfaddX d a b m => Sys2Proof.Machine.execVfaddX d a b m s
  | .vfsubX d a b m => Sys2Proof.Machine.execVfsubX d a b m s
  | .vfmulX d a b m => Sys2Proof.Machine.execVfmulX d a b m s
  | .vfmaX d a b m => Sys2Proof.Machine.execVfmaX d a b m s
  | .vfminX d a b m => Sys2Proof.Machine.execVfminX d a b m s
  | .vfmaxX d a b m => Sys2Proof.Machine.execVfmaxX d a b m s
  | .vfdivX d a b m => Sys2Proof.Machine.execVfdivX d a b m s
  | .vcmp d a b m c => Sys2Proof.Machine.execVcmp d a b m c s
  | .vfcmp d a b m c => Sys2Proof.Machine.execVfcmp d a b m c s
  | .vcmpX d a b m c => Sys2Proof.Machine.execVcmpX d a b m c s
  | .vfcmpX d a b m c => Sys2Proof.Machine.execVfcmpX d a b m c s
  | .mand d a b => Sys2Proof.Machine.execMand d a b s
  | .mor d a b => Sys2Proof.Machine.execMor d a b s
  | .mxor d a b => Sys2Proof.Machine.execMxor d a b s
  | .mnot d a => Sys2Proof.Machine.execMnot d a s
  | .mshl d a n => Sys2Proof.Machine.execMshl d a n s
  | .mpop d a => Sys2Proof.Machine.execMpop d a s
  | .mfirst d a => Sys2Proof.Machine.execMfirst d a s
  | .mlast d a => Sys2Proof.Machine.execMlast d a s
  | .mset d => Sys2Proof.Machine.execMset d s
  | .mclr d => Sys2Proof.Machine.execMclr d s
  | .vgath d a b m => Sys2Proof.Machine.execVgath d a b m s
  | .vcomp d a m => Sys2Proof.Machine.execVcomp d a m s
  | .vxpnd d a m => Sys2Proof.Machine.execVxpnd d a m s
  | .vred d a k m => Sys2Proof.Machine.execVred d a k m s
  | .vredXd d a k m => Sys2Proof.Machine.execVredXd d a k m s
  | .vscan d a k m => Sys2Proof.Machine.execVscan d a k m s
  | .vslideupZero d a b m => Sys2Proof.Machine.execVslideupZero d a b m s
  | .vslideupOne d a b m => Sys2Proof.Machine.execVslideupOne d a b m s
  | .vslideupKeep d a b m => Sys2Proof.Machine.execVslideupKeep d a b m s
  | .vslidednZero d a b m => Sys2Proof.Machine.execVslidednZero d a b m s
  | .vslidednOne d a b m => Sys2Proof.Machine.execVslidednOne d a b m s
  | .vslidednKeep d a b m => Sys2Proof.Machine.execVslidednKeep d a b m s
  | .vmvx d a b => Sys2Proof.Machine.execVmvx d a b s
  | .vmvs d b m => Sys2Proof.Machine.execVmvs d b m s
  | .vsplat d b m => Sys2Proof.Machine.execVsplat d b m s
  | .vld v a m o => Sys2Proof.Machine.execVld v a m o s
  | .vlds v a b m o => Sys2Proof.Machine.execVlds v a b m o s
  | .vldx v a b m o => Sys2Proof.Machine.execVldx v a b m o s
  | .vst v a m o => Sys2Proof.Machine.execVst v a m o s
  | .vsts v a b m o => Sys2Proof.Machine.execVsts v a b m o s
  | .vstx v a b m o => Sys2Proof.Machine.execVstx v a b m o s
  | .awin d a o => Sys2Proof.Machine.execAwin d a o s
  | .vamo v w => Sys2Proof.Machine.execVamo v w s
  | .amerge => Sys2Proof.Machine.execAmerge s
  | .vrand d m => Sys2Proof.Machine.execVrand d m s
  | .hint => Sys2Proof.Machine.execHint s
  | .illegalEncoding => Sys2Proof.Machine.execIllegalEncoding s
  | .tsetl crew fmtA d a b => Sys2Proof.Machine.execTsetl crew fmtA d a b s
  | .tclaim a b => Sys2Proof.Machine.execTclaim a b s
  | .tfree => Sys2Proof.Machine.execTfree s
  | .tld td a b => Sys2Proof.Machine.execTld td a b s
  | .tst ta a b => Sys2Proof.Machine.execTst ta a b s
  | .tldp td a b => Sys2Proof.Machine.execTldp td a b s
  | .tzero td => Sys2Proof.Machine.execTzero td s
  | .tmvr td v a => Sys2Proof.Machine.execTmvr td v a s
  | .tmvc ta v a => Sys2Proof.Machine.execTmvc ta v a s
  | .mma ta tb ad fmtA fmtB => Sys2Proof.Machine.execMma ta tb ad fmtA fmtB s
  | .mmaC ta tb ad fmtA fmtB => Sys2Proof.Machine.execMmaC ta tb ad fmtA fmtB s
  | .mman ta tb ad pA pB => Sys2Proof.Machine.execMman ta tb ad pA pB s
  | .mdrain td ad fmtA sync => Sys2Proof.Machine.execMdrain td ad fmtA sync s
  | .azero ad => Sys2Proof.Machine.execAzero ad s
  | .targetPrefetchDone => Sys2Proof.Machine.execTargetPrefetchDone s
  | .storeElementCommit => Sys2Proof.Machine.execStoreElementCommit s
  | .replayComplete => Sys2Proof.Machine.execReplayComplete s
  | .copy => Sys2Proof.Machine.execCopy s
  | .copyFill => Sys2Proof.Machine.execCopyFill s
  | .reduce => Sys2Proof.Machine.execReduce s
  | .allReduce => Sys2Proof.Machine.execAllReduce s
  | .allGather => Sys2Proof.Machine.execAllGather s
  | .broadcast => Sys2Proof.Machine.execBroadcast s
  | .heatThreshold => Sys2Proof.Machine.execHeatThreshold s
  | .heatNotificationSend => Sys2Proof.Machine.execHeatNotificationSend s
  | .waitWakeup => Sys2Proof.Machine.execWaitWakeup s
  | .waitTimeout => Sys2Proof.Machine.execWaitTimeout s
  | .launchWindowStore => Sys2Proof.Machine.execLaunchWindowStore s
  | .hypervisorLaunchStore => Sys2Proof.Machine.execHypervisorLaunchStore s
  | .wharfAdmit => Sys2Proof.Machine.execWharfAdmit s
  | .waitCounterRead => Sys2Proof.Machine.execWaitCounterRead s
  | .usageCharge => Sys2Proof.Machine.execUsageCharge s
  | .groupEnd => Sys2Proof.Machine.execGroupEnd s
  | .wqryAnswer => Sys2Proof.Machine.execWqryAnswer s
  | .hostPreempt => Sys2Proof.Machine.execHostPreempt s
  | .preempt => Sys2Proof.Machine.execPreempt s
  | .restore => Sys2Proof.Machine.execRestore s
  | .correctedError => Sys2Proof.Machine.execCorrectedError s
  | .ceThreshold => Sys2Proof.Machine.execCeThreshold s
  | .containedError => Sys2Proof.Machine.execContainedError s
  | .fatalError => Sys2Proof.Machine.execFatalError s
  | .ucieLinkDown => Sys2Proof.Machine.execUcieLinkDown s
  | .peerLinkDown => Sys2Proof.Machine.execPeerLinkDown s
  | .selfTestRequest => Sys2Proof.Machine.execSelfTestRequest s
  | .selfTestComplete => Sys2Proof.Machine.execSelfTestComplete s
  | .pctlRequest => Sys2Proof.Machine.execPctlRequest s
  | .powerStateChange => Sys2Proof.Machine.execPowerStateChange s
  | .pctlTripClear => Sys2Proof.Machine.execPctlTripClear s
  | .thermalTrip => Sys2Proof.Machine.execThermalTrip s
  | .serdesStateSet => Sys2Proof.Machine.execSerdesStateSet s
  | .deviceReset => Sys2Proof.Machine.execDeviceReset s
  | .functionReady => Sys2Proof.Machine.execFunctionReady s
  | .registerWindowWrite => Sys2Proof.Machine.execRegisterWindowWrite s
  | .hostNmRead => Sys2Proof.Machine.execHostNmRead s
  | .hostNmWrite => Sys2Proof.Machine.execHostNmWrite s
  | .getVersion => Sys2Proof.Machine.execGetVersion s
  | .getCapabilities => Sys2Proof.Machine.execGetCapabilities s
  | .negotiateAlgorithms => Sys2Proof.Machine.execNegotiateAlgorithms s
  | .getDigests => Sys2Proof.Machine.execGetDigests s
  | .getCertificate => Sys2Proof.Machine.execGetCertificate s
  | .challenge => Sys2Proof.Machine.execChallenge s
  | .getMeasurements => Sys2Proof.Machine.execGetMeasurements s
  | .spdmUnsupportedRequest => Sys2Proof.Machine.execSpdmUnsupportedRequest s
  | .dbgctlStop => Sys2Proof.Machine.execDbgctlStop s
  | .dbgctlRun => Sys2Proof.Machine.execDbgctlRun s
  | .counterBankClaim => Sys2Proof.Machine.execCounterBankClaim s
  | .counterBankRelease => Sys2Proof.Machine.execCounterBankRelease s
  | .counterOverflow => Sys2Proof.Machine.execCounterOverflow s
  | .pcReasonCycleCount => Sys2Proof.Machine.execPcReasonCycleCount s
  | .peerAccessToNearMemory => Sys2Proof.Machine.execPeerAccessToNearMemory s

end Sys2Proof.Machine
end

