-- ==== Sys2Proof/Machine/Turns.lean ====
section
/-! DEFINITION. One turn of the package: the front of a hart fetches and runs an instruction, its vector side or the ferry
firmware goes on, or a row with no encoding happens; which turns are possible, and a program placed for the first hart (R15,
R36 to R39, R224, R233; log entry 4). -/

namespace Sys2Proof.Machine

/-! The front -/

/-- The row of CHGET or CWR whose operands decide which row it is, with the operands in the input; the instruction itself
where a register is still due or the row has no case of its own (R105, R152, R168, R171, R228). -/
def resolve (i : Instr) (s : State) : Instr × State :=
  let h := s.hart
  match i with
  | .chgetGet d a n =>
    let s' := { s with input := { s.input with d := d, a := a, n := n } }
    if h.pendingX a.toNat then (i, s)
    else
      match wbits (h.getX a.toNat) 0 2 with
      | 0 => (i, s)
      | 1 => (.chgetPeek, s')
      | 2 => (.chgetTake, s')
      | _ => (.chgetTail, s')
  | .cwr xs c =>
    let w := h.getX xs.toNat
    let s' := { s with input := { s.input with
      value := w, asid := BitVec.ofNat 16 (wbits w 48 16), va := BitVec.ofNat 36 (wbits w 12 36) } }
    if h.pendingX xs.toNat || (ctlPriv c.toNat && !h.tr.sup && !isFerry s.me) then (i, s)
    else if c = 0x102 then
      (match wbits w 0 2 with
       | 0 => .tlbinvVa
       | 1 => .tlbinvAsid
       | 2 => .tlbinvAllNonglobal
       | _ => .tlbinvAll, s')
    else if c = 0x019 ∧ w.getLsbD 58 then (.rstatStopClear, s')
    else if c = 0x105 ∧ w.getLsbD 63 then (.mcStatusClear, s')
    else if c = 0x061 then (.notechWrite, s')
    else (i, s)
  | _ => (i, s)

/-- The instruction that `n` bytes hold, none where they hold none; `n` is 0 for a first halfword with [1:0] = 00. -/
def readInstr (n w : Nat) : Option Instr := if n = 0 then none else decodeTableWord (8 * n) w

/-- An instruction that the front has fetched runs: `n` bytes with the bits `w` (R37, R38). -/
def runFetched (n w : Nat) (s : State) : Out :=
  match readInstr n w with
  | none =>
    exec .illegalEncoding { s with input := { s.input with
      enc := word w, encLen := BitVec.ofNat 4 (if n = 0 then 2 else n) } }
  | some i =>
    let p := resolve i s
    exec p.1 p.2

/-- The current hart's front fetches the instruction at its PC and runs it. -/
def issue (s : State) : Out :=
  match fetchInstr s.ctx s.hart.pc s with
  | .ok (n, w) s => runFetched n w s
  | .wait n s => .next (stall n s)
  | .exc e _ s => .next (trapFront e s)
  | .contained c s => .next (contain c s.here s.me s.hart.pc s)
  | .stop f => .fault f

/-- Whether the front of a hart may issue. A ferry hart runs a handler, and its firmware goes on elsewhere. -/
def frontMoves (c h : Nat) (s : State) : Bool :=
  let x := s.hartAt c h
  x.run.running && x.blocked.isNone && !(s.core c).dbg.hold && !victimised x s && !(isFerry h && x.pc == Config.ferryEntry)

/-- Whether a hart waits for the Pontoon: it was restored within a recursion while another hart held it (R116). -/
def lacksPontoon (c h : Nat) (s : State) : Bool :=
  let x := s.hartAt c h
  x.rc.phase != 0 && !x.rc.stop && (match (s.core c).pontoonOwner with
    | none => false
    | some o => o.toNat != h)

/-- A hart within a recursion holds the Pontoon, if it is free (R116). -/
def holdPontoon (c h : Nat) (s : State) : State :=
  let x := s.hartAt c h
  if x.rc.phase != 0 && !x.rc.stop && (s.core c).pontoonOwner.isNone then
    s.modCore c fun k => { k with pontoonOwner := some (BitVec.ofNat 3 h) }
  else s

/-- A hart's front has a turn in the current cycle of its core (R247). -/
def noteTurn (c h : Nat) (s : State) : State := s.modHartAt c h fun x => { x with run := { x.run with turned := true } }

/-- Whether a commit breakpoint stands at VCP where the vector side holds no instruction, so that VCP is the front PC (R50,
R246). -/
def commitAtFront (c h : Nat) (s : State) : Bool :=
  let x := s.hartAt c h
  x.entries.isEmpty && breakpointAt c h true x.pc s

/-- One turn of a hart's front (R246). -/
def frontTurn (c h : Nat) (s : State) : Out :=
  if !frontMoves c h s then .next s
  else
    let s := noteTurn c h (holdPontoon c h s)
    if lacksPontoon c h s then .next (stall 10 (s.focus c h))
    else if breakpointAt c h false (s.hartAt c h).pc s then .next (breakHere c h false s)
    else if commitAtFront c h s then .next (breakHere c h true s)
    else issue (s.focus c h)

/-- Whether the vector side of a hart may go on. -/
def vectorMoves (c h : Nat) (s : State) : Bool :=
  let x := s.hartAt c h
  x.run.running && !x.run.stopped && !x.vec.viq.isEmpty && !victimised x s && !lacksPontoon c h s

/-- One turn of a hart's vector side, below an element-group boundary if there is one. -/
def vectorTurn (c h : Nat) (group : Option Nat) (s : State) : Out :=
  if vectorMoves c h s then stepVectorTo c h (group.map (8 * ·)) (holdPontoon c h s) else .next s

/-! Turns -/

/-- Rows that are steps of an agent, which happen as events. -/
def Instr.agent : Instr → Bool
  | .targetPrefetchDone | .storeElementCommit | .replayComplete | .copy | .copyFill | .reduce | .allReduce
  | .allGather | .broadcast | .heatThreshold | .heatNotificationSend | .waitWakeup | .waitTimeout
  | .launchWindowStore | .hypervisorLaunchStore | .wharfAdmit | .waitCounterRead | .usageCharge | .groupEnd
  | .wqryAnswer | .hostPreempt | .preempt | .restore | .correctedError | .ceThreshold | .containedError
  | .fatalError | .ucieLinkDown | .peerLinkDown | .selfTestRequest | .selfTestComplete | .pctlRequest
  | .powerStateChange | .pctlTripClear | .thermalTrip | .serdesStateSet | .deviceReset | .functionReady
  | .registerWindowWrite | .hostNmRead | .hostNmWrite | .getVersion | .getCapabilities | .negotiateAlgorithms
  | .getDigests | .getCertificate | .challenge | .getMeasurements | .spdmUnsupportedRequest | .dbgctlStop
  | .dbgctlRun | .counterBankClaim | .counterBankRelease | .counterOverflow | .pcReasonCycleCount
  | .peerAccessToNearMemory => true
  | _ => false

/-- A turn is taken. An event whose operands name no part of the package does nothing. -/
def runTurn (t : Turn) (s : State) : Out :=
  match t with
  | .hart c h => frontTurn c.toNat h.toNat s
  | .vector c h => vectorTurn c.toNat h.toNat none s
  | .vectorPart c h g => vectorTurn c.toNat h.toNat (some g.toNat) s
  | .firmware c f1 => .next (firmwarePass c.toNat (if f1 then 5 else 4) s)
  | .event i n => if Instr.agent i && n.wellFormed then exec i { s with input := n } else .next s

/-- Turns of a hart. -/
def hartTurns (c h : Nat) (s : State) : List Turn :=
  let x := s.hartAt c h
  let cn := BitVec.ofNat 7 c
  let hn := BitVec.ofNat 3 h
  (if frontMoves c h s then [.hart cn hn] else []) ++
    (if vectorMoves c h s then [.vector cn hn] else []) ++
    (match x.ms.stq with
     | p :: _ => if p.holes.isEmpty && p.after == 0 then [.event .storeElementCommit { core := cn, hart := hn }] else []
     | [] => []) ++
    (x.b.filter fun b => b.2.pf == 1).map (fun b =>
      .event .targetPrefetchDone { core := cn, hart := hn, bt := BitVec.ofNat 3 b.1 }) ++
    (match x.run.wait with
     | none => []
     | some w =>
       (if w.hit then [.event .waitWakeup { core := cn, hart := hn }] else []) ++
         (if w.since + 4096 ≤ (s.core c).cycles then [.event .waitTimeout { core := cn, hart := hn }] else []))

/-- Turns of a core. -/
def coreTurns (c : Nat) (s : State) : List Turn :=
  let k := s.core c
  let cn := BitVec.ofNat 7 c
  k.harts.flatMap (fun h => hartTurns c h.1 s) ++
    (k.entries.filter fun e => e.2.state == .waiting && e.2.links.isEmpty).map (fun e =>
      .event .replayComplete { core := cn, entry := BitVec.ofNat 8 e.1 }) ++
    (if k.entries.any (fun e => e.2.state == .ready) && s.host.ready.getLsbD 56 then
      (if ferryIdle c 4 s then [.firmware cn false] else []) ++ (if ferryIdle c 5 s then [.firmware cn true] else [])
     else []) ++
    (k.copyFifo.zipIdx.filter fun q => copyReady c q.1 s).map (fun q =>
      .event (if q.1.fills then .copyFill else .copy) { core := cn, pos := BitVec.ofNat 4 q.2 }) ++
    (if powerMoves c s then [.event .powerStateChange { core := cn }] else [])

/-- The row of an operation of the collective engines. -/
def collRow (op : Nat) : Instr :=
  match op with
  | 0 => .reduce
  | 1 => .allReduce
  | 2 => .allGather
  | _ => .broadcast

/-- Turns of the dies: notifications, and operations that need no other package. -/
def dieTurns (s : State) : List Turn :=
  (s.dies.filter fun d => (sendHeat d.1 s).isSome).map (fun d =>
    .event .heatNotificationSend { die := BitVec.ofNat 2 d.1 }) ++
  ((s.die 0).coll.filter fun q => (localCommands q.tag s).isSome && collRanks q.word0 == 4).map (fun q =>
    .event (collRow (collOp q.word0)) { tag := BitVec.ofNat 8 q.tag })

/-- Turns of the Wharf. -/
def wharfTurns (s : State) : List Turn :=
  let w := s.wharf
  (if !(hopefuls s).isEmpty then [.event .wharfAdmit {}] else []) ++
    (w.tenants.flatMap fun t => ([0, 1, 2, 3] : List Nat).filterMap fun p =>
      match queueHead t.1 p s with
      | some (_, l) =>
        if l.eligible then none
        else some (.event .waitCounterRead { tenant := BitVec.ofNat 6 t.1, prio := BitVec.ofNat 2 p })
      | none => none) ++
    (w.groups.flatMap fun g =>
      (if groupOver g.1 g.2 s && !gangNeeds g.2 s then [.event .groupEnd { group := g.1 }] else []) ++
        (if g.2.charged < groupCycles g.2 s / 65536 * 65536 * g.2.harts.length / 4 ∧ !g.2.gone then
          [.event .usageCharge { group := g.1 }] else []) ++
        (if g.2.victim && (together g.1 s).all (fun n => match s.group? n with
            | none => false
            | some y => y.victim && groupQuiet y s) then [.event .preempt { group := g.1 }] else [])) ++
    (w.launches.filter fun l => (serveRequest l.2 s).isSome).map (fun l => .event .wqryAnswer { launch := l.1 }) ++
    w.saved.map (fun g => .event .restore { group := g.1 })

/-- The turns that are possible when the agenda is empty. -/
def turns (s : State) : List Turn := s.cores.flatMap (fun k => coreTurns k.1 s) ++ dieTurns s ++ wharfTurns s

/-- A turn that is possible after a fatal error: what the host reads, and a device reset (R233). -/
def afterFatal : Turn → Bool
  | .event .deviceReset _ | .event .hostNmRead _ | .event .getVersion _ | .event .getCapabilities _
  | .event .negotiateAlgorithms _ | .event .getDigests _ | .event .getCertificate _ | .event .challenge _
  | .event .getMeasurements _ | .event .spdmUnsupportedRequest _ => true
  | _ => false

/-- The turn of a step, and the state before it: the agenda's, or the one that is due among those possible. -/
def nextTurn (s : State) : Option (Turn × State) :=
  match s.agenda with
  | t :: rest => some (t, { s with agenda := rest })
  | [] =>
    let l := turns s
    (l[s.rr % l.length]?).map fun t => (t, { s with rr := s.rr + 1 })

/-- One turn of the package: with no turn possible, it waits. -/
def advanceTurn (s : State) : Out :=
  if s.host.fatal then
    match s.agenda with
    | [] => .fault .fatalStop
    | t :: rest => if afterFatal t then runTurn t { s with agenda := rest } else .next { s with agenda := rest }
  else
    match nextTurn s with
    | none => .next s
    | some (t, s) => runTurn t s

/-! A program for the first hart -/

/-- Where the program stands. -/
def programPc : Nat := 0x4000

/-- The words of a page table for the program: the level-0 node at 0x1000 and the level-1 node at 0x2000, whose first leaf
maps 1 GiB of near memory at address 0 with every permission (R165). -/
def programTable : List (Nat × Nat) := [(0x1000, 0x20001), (0x2000, 0x6F)]

/-- The group of the hart that runs the program. -/
def programGroup : Group :=
  { launch := 0, number := 0, core := 0, harts := [0], lsBase := 0, size := 0, tiles := [], accs := [], freeTiles := [],
    freeAccs := [], gang := none, admitted := 0, carried := 0, charged := 0, aborted := false, crewDone := 0,
    crewQueue := [], crewLimit := 0, crewLeft := [], gone := false, victim := false }

/-- The hart with a program of 16 bytes at its PC, as an admission at S through the physical function's window starts it
(R211, R218). -/
def startProgram (x : Hart) : Hart :=
  { x with
    pc := BitVec.ofNat 48 programPc
    vec := { x.vec with grant := 1 }
    tr := { x.tr with sup := true }
    id := { x.id with group := some 0 }
    ms := { x.ms with ptbase := 0x1000 }
    run := { x.run with running := true } }

/-- The instruction of bits `w` of `nbits` bits is placed for hart h0 of core 0, whose turn comes next. -/
def placeProgram (s : State) (nbits w : Nat) : State :=
  let code := natToBytes 16 (w % 2 ^ nbits)
  let mem := programTable.foldl (fun (m : Memory) e => writeNat m (paPlace 0 e.1) 8 e.2) s.mem
  let s := { s with mem := writePlaces mem (paPlace 0 programPc) code
                    wharf := { s.wharf with groups := insert s.wharf.groups 0 programGroup
                                            nextId := Nat.max 1 s.wharf.nextId }
                    agenda := .hart 0 0 :: s.agenda }
  s.modHartAt 0 0 startProgram

end Sys2Proof.Machine
end

