-- ==== Sys2Proof/Machine/Step.lean ====
section
/-! DEFINITION. One step of the package, and an instruction placed where the next step fetches it. -/

namespace Sys2Proof.Machine

/-- One step: one turn of the package (log entry 4). -/
def step (s : State) : Host.Outcome State Fault Refusal := advanceTurn s

/-- `s` with an instruction placed for its next step. -/
def State.withFetchWord (s : State) (nbits w : Nat) : State := placeProgram s nbits w

end Sys2Proof.Machine
end

