-- ==== Sys2Proof/Machine/Readback.lean ====
section
/-! DEFINITION. What the host reads: the registers of the register window and the launch windows, and the images of the
readback region. A read changes no state (R204, R236, R237, R241, R243, R245 to R250). -/

namespace Sys2Proof.Machine

/-- The regions of BAR 0 of a function (R236): its launch window, and its part of the register window. -/
def launchWindowOffset : Nat := 0
def registerWindowOffset : Nat := 0x10000

/-- Where a register that the host writes stands: the offset of its region in the physical function's window (R237). -/
def WindowReg.region : WindowReg → Nat
  | .podid => 0x000000
  | .wgt _ | .deficit _ | .lim _ | .saveBase _ | .tbase _ | .ptbase _ | .asid _ => 0x010000
  | .service _ => 0x100000
  | .bankStatus _ _ | .bankCtl _ _ => 0x200000
  | .claim _ _ | .breakpoint _ _ | .ringBase _ | .ringSize _ | .sample _ | .counterEvent _ _ _ | .counterValue _ _ _
  | .counterSession _ _ | .counterStatus _ _ | .frontPc _ _ | .vcp _ _ | .vstart _ _ | .viq _ _ _ _ => 0x800000

/-- What the host reads as one word. -/
inductive WindowRead where
  /-- A register that it also writes. -/
  | reg (r : WindowReg)
  /-- READY (R242). -/
  | ready
  /-- The causes of interrupt that have occurred since reset, and the thermal status of a die (R237; log entry 109). -/
  | interrupts
  | thermal (die : DieNo)
  /-- The status word of a tenant's launch window, and of the hypervisor's (R204, R255). -/
  | status (t : BitVec 6)
  | hyperStatus
  /-- PCTL of a core (R241). -/
  | pctl (core : CoreNo)
  /-- S state of a port of a die (R241). -/
  | serdes (die : DieNo) (port : Nat)
  /-- ADDR and MISC of a bank (R228). -/
  | bankAddr (core : CoreNo) (bank : BitVec 4)
  | bankMisc (core : CoreNo) (bank : BitVec 4)
  /-- A counter value (R249). -/
  | counter (core : CoreNo) (bank : BitVec 2) (ctr : BitVec 3)
  /-- DROPS of a core's profiling ring (R248). -/
  | drops (core : CoreNo)
  deriving DecidableEq, Repr

/-- The offset of the region of what is read (R237); a launch window is no part of the register window (R236). -/
def WindowRead.region : WindowRead → Option Nat
  | .reg r => some (WindowReg.region r)
  | .ready | .interrupts => some 0x000000
  | .pctl _ | .serdes _ _ | .thermal _ => some 0x100000
  | .bankAddr _ _ | .bankMisc _ _ => some 0x200000
  | .counter _ _ _ | .drops _ => some 0x800000
  | .status _ | .hyperStatus => none

/-- Where a function's BAR 0 holds the region of what is read: the status words in its launch window, the others in its register
window (R236). -/
def WindowRead.bar (r : WindowRead) : Nat :=
  match r.region with
  | none => launchWindowOffset
  | some o => registerWindowOffset + o
def WindowReg.bar (r : WindowReg) : Nat := registerWindowOffset + WindowReg.region r

/-- The offset of the readback region, where the images of R243 stand (R237). -/
def readbackRegion : Nat := 0x400000

/-- The bit of the interrupt status that a cause sets (log entry 109). -/
def Irq.bit : Irq → Nat
  | .threshold _ _ => 0
  | .doneCounter _ => 1
  | .halt _ _ => 2
  | .fatal => 3
  | .thermal _ => 4

/-- The status word of a launch window (R204). -/
def windowStatus (acc : BitVec 32) (rej : BitVec 16) (reason : BitVec 8) : Word :=
  word (acc.toNat + rej.toNat * 2 ^ 32 + reason.toNat * 2 ^ 48)

/-- The counters of a bank that a user reads: a guest whose bank the hypervisor holds reads its frozen ones (R250). -/
def CounterBank.seenBy (k : CounterBank) (u : WindowUser) : AMap Counter :=
  if k.hyper && u != .physical then k.frozen else k.counters

/-- What a writable register of the window reads as to a user. -/
def readReg (u : WindowUser) (r : WindowReg) (s : State) : Word :=
  match r with
  | .wgt t => word (s.tenant t.toNat).wgt.toNat
  | .deficit t => (s.tenant t.toNat).deficit
  | .lim t => word (bit (s.tenant t.toNat).lim)
  | .saveBase t => (s.tenant t.toNat).saveBase
  | .tbase t => (s.tenant t.toNat).tbase
  | .ptbase t => (s.tenant t.toNat).ptbase
  | .asid t => word (s.tenant t.toNat).asid.toNat
  | .podid => word s.host.podId.toNat
  | .claim c h =>
    let x := (s.hartAt c.toNat h.toNat).run
    word (bit x.claimed * 8 + bit x.stopped * 4)
  | .breakpoint c n =>
    match lookup (s.core c.toNat).dbg.breakpoints n.toNat with
    | none => 0
    | some b => word (b.addr.toNat + bit b.commit * 2 ^ 48 + b.harts.toNat * 2 ^ 52)
  | .bankStatus c b => (s.bank c.toNat b.toNat).status
  | .bankCtl c b => (s.bank c.toNat b.toNat).ctl
  | .ringBase c => (s.core c.toNat).dbg.ringBase
  | .ringSize c => (s.core c.toNat).dbg.ringSize
  | .sample c => word (s.core c.toNat).dbg.sampleExp
  | .counterEvent c b n =>
    let x := lookupD ((s.counterBank c.toNat b.toNat).seenBy u) n.toNat Counter.reset
    word (x.event.toNat + bit x.sampling * 2 ^ 63)
  | .counterValue c b n => word (lookupD ((s.counterBank c.toNat b.toNat).seenBy u) n.toNat Counter.reset).count.toNat
  | .counterSession c b =>
    let k := s.counterBank c.toNat b.toNat
    word ((k.guest.map fun v => v.toNat + 2 ^ 63).getD 0 + bit k.preempted * 2 ^ 62)
  | .counterStatus c b => word (bit (s.counterBank c.toNat b.toNat).preempted)
  | .service c => word (bit (s.core c.toNat).power.outOfService)
  | .frontPc c h => word (s.hartAt c.toNat h.toNat).pc.toNat
  | .vcp c h => word (s.hartAt c.toNat h.toNat).vcp.1.toNat
  | .vstart c h => word (s.hartAt c.toNat h.toNat).vcp.2
  | .viq c h n k => ((s.hartAt c.toNat h.toNat).entries[n.toNat]?.map (readEntry k)).getD 0

/-- The value of a counter as a user of its bank reads it (R249, R250). -/
def readCounter (u : WindowUser) (c b n : Nat) (s : State) : Word :=
  let x := lookupD ((s.counterBank c b).seenBy u) n Counter.reset
  word (x.count.toNat + bit x.absent * 2 ^ 63)

/-- Whether a register that is read belongs to the tenant of a virtual function (R236, R250). -/
def readOwns (v : BitVec 6) (r : WindowRead) (s : State) : Bool :=
  match r with
  | .reg (.counterEvent c b _) | .counter c b _ => (s.counterBank c.toNat b.toNat).guest == some v
  | .reg r => windowOwns v r s
  | .status t => t == v
  | _ => false

/-- What a read of the register window gives; a register of another tenant reads 0 (R236). -/
def readWindow (u : WindowUser) (r : WindowRead) (s : State) : Word :=
  let value : Word := match r with
    | .reg r => readReg u r s
    | .ready => s.host.ready
    | .interrupts => word ((s.host.irqs.map Irq.bit).eraseDups.foldl (fun n b => n + 2 ^ b) 0)
    | .thermal d => Config.thermalStatus d s.free
    | .status t =>
      let x := s.tenant t.toNat
      windowStatus x.acc x.rej x.reason
    | .hyperStatus => windowStatus s.wharf.hyperAcc s.wharf.hyperRej s.wharf.hyperReason
    | .pctl c =>
      let p := (s.core c.toNat).power
      word (bit p.trip * 128 + p.cur.toNat * 16 + p.req.toNat)
    | .serdes d n => word (lookupD (s.die d.toNat).serdes n 0).toNat
    | .bankAddr c b => (s.bank c.toNat b.toNat).addr
    | .bankMisc c b => (s.bank c.toNat b.toNat).misc
    | .counter c b n => readCounter u c.toNat b.toNat n.toNat s
    | .drops c => word (s.core c.toNat).dbg.drops
  match u with
  | .physical => value
  | .virtual v => if readOwns v r s then value else 0

/-! The readback region (R243) -/

/-- The records queued for a tenant and priority, oldest first, with DEF and WGT of the tenant. -/
def queueImage (t p : Nat) (s : State) : List LaunchRec × Word × BitVec 8 :=
  let x := s.tenant t
  ((lookupD x.queues p []).filterMap fun id => (lookup s.wharf.launches id).map (·.record), x.deficit, x.wgt)

/-- The 64-byte image of an entry of a core's Landing; that of a free entry is 0 (R81, R243). -/
def landingImage (c n : Nat) (s : State) : BitVec 512 :=
  match lookup (s.core c).land.entries n with
  | none => 0
  | some e => e.image

/-- How many accesses of some harts keep an entry of a TLB pinned (R167). -/
def pinsOn (e : TlbEntry) (l : List Hart) : Nat := (l.flatMap Hart.pins).countP fun p => p.leaf == e

/-- The harts of a core. -/
def hartsOf (c : Nat) (s : State) : List Hart := (s.core c).harts.map (·.2)

/-- The entries of a core's L1 TLB and of a die's last-level TLB, each with its pins. -/
def tlbImage (c : Nat) (s : State) : List (TlbEntry × Nat) := (s.core c).tlb.map fun e => (e, pinsOn e (hartsOf c s))
def lastTlbImage (d : Nat) (s : State) : List (TlbEntry × Nat) :=
  let l := (indices Config.coresPerDie).flatMap fun i => hartsOf (d * Config.coresPerDie + i) s
  (s.die d).tlb.map fun e => (e, pinsOn e l)

/-- The last 16 commands that the copy engine of a core and the collective engine of a die accepted. -/
def copyImage (c : Nat) (s : State) : List CmdRecord := (s.core c).copyLog
def collImage (d : Nat) (s : State) : List CmdRecord := (s.die d).collLog

/-- The counters of a channel: filled, free, head and tail. -/
def channelImage (c n : Nat) (s : State) : Option (Nat × Nat × Nat × Nat) :=
  (lookup (s.core c).channels n).map fun x => (x.filled, x.free, x.head, x.tail)

/-- The 64 entries of a core's fill table. -/
def fillImage (c : Nat) (s : State) : List (BitVec 48) := (indices 64).map fun n => lookupD (s.core c).land.fillTable n 0

/-- Target register `b` of a hart, as the save area holds it too (R93). -/
def targetImage (c h b : Nat) (s : State) : Word := ((s.hartAt c h).getB b).image

/-- Front PC, VCP, VSTART and the number of VIQ entries of a hart, those that a trap holds among them. -/
def hartImage (c h : Nat) (s : State) : BitVec 48 × BitVec 48 × Nat × Nat :=
  let x := s.hartAt c h
  (x.pc, x.vcp.1, x.vcp.2, x.entries.length)

/-! The bytes that the host reads (R3, R243) -/

/-- The bytes of a register of the window, lowest first: a register window reached as memory is little-endian (R3). -/
def windowReadBytes (u : WindowUser) (r : WindowRead) (s : State) : List Byte := natToBytes 8 (readWindow u r s).toNat

/-- An image of the readback region: a queued record of a tenant and priority, DEF and WGT of a tenant, an entry of a Landing, of a
core's TLB, of a die's last-level TLB, a command of a copy or a collective engine, the counters of a channel, an entry of a fill table,
where a hart stands, and a target register of a hart. -/
inductive Image where
  | record (t : BitVec 6) (prio : BitVec 2) (n : Nat)
  | share (t : BitVec 6)
  | landing (core : CoreNo) (n : BitVec 8)
  | tlb (core : CoreNo) (n : Nat)
  | lastTlb (die : DieNo) (n : Nat)
  | copy (core : CoreNo) (n : Nat)
  | coll (die : DieNo) (n : Nat)
  | channel (core : CoreNo) (n : BitVec 4)
  | fill (core : CoreNo) (n : BitVec 6)
  | hart (core : CoreNo) (hart : HartNo)
  | target (core : CoreNo) (hart : HartNo) (bt : BReg)
  deriving DecidableEq, Repr

/-- A TLB entry in 32 bytes: its PTE, its first address, its ASID, size and level, and its pins. -/
def tlbBytes (e : TlbEntry × Nat) : List Byte :=
  wordBytes [e.1.pte, word e.1.base, word (e.1.asid.toNat + e.1.bits * 2 ^ 16 + e.1.level * 2 ^ 24), word e.2]

/-- The code of where a command stands: 0 waiting, 1 answered, with its status above, 2 cancelled. -/
def CmdState.code : CmdState → Nat
  | .waiting => 0
  | .done status => 1 + status.toNat * 2 ^ 8
  | .cancelled => 2

/-- A command in 48 bytes: its four words, its core and hart with its state above, and its order. -/
def CmdRecord.bytes (q : CmdRecord) : List Byte :=
  wordBytes ((indices 4).map (fun i => q.words.getD i 0) ++
    [word (q.core.toNat + q.hart.toNat * 2 ^ 8 + q.state.code * 2 ^ 16), word q.order])

/-- The bytes of an image, lowest first; every multi-byte value in it is little-endian (R3), and one of nothing is empty. R243 gives the
fields of an image, and for a Landing entry their order: the places in the others are the model's (DESIGN CHOICE; log entry 109). -/
def imageBytes (i : Image) (s : State) : List Byte :=
  match i with
  | .record t p n => ((queueImage t.toNat p.toNat s).1[n]?.map LaunchRec.image).getD []
  | .share t => wordBytes [(s.tenant t.toNat).deficit, word (s.tenant t.toNat).wgt.toNat]
  | .landing c n => natToBytes 64 (landingImage c.toNat n.toNat s).toNat
  | .tlb c n => ((tlbImage c.toNat s)[n]?.map tlbBytes).getD []
  | .lastTlb d n => ((lastTlbImage d.toNat s)[n]?.map tlbBytes).getD []
  | .copy c n => ((copyImage c.toNat s)[n]?.map CmdRecord.bytes).getD []
  | .coll d n => ((collImage d.toNat s)[n]?.map CmdRecord.bytes).getD []
  | .channel c n => ((channelImage c.toNat n.toNat s).map fun k => wordBytes [word k.1, word k.2.1, word k.2.2.1, word k.2.2.2]).getD []
  | .fill c n => wordBytes [((fillImage c.toNat s).getD n.toNat 0).zeroExtend 64]
  | .hart c h =>
    let x := hartImage c.toNat h.toNat s
    wordBytes [x.1.zeroExtend 64, x.2.1.zeroExtend 64, word x.2.2.1, word x.2.2.2]
  | .target c h b => wordBytes [targetImage c.toNat h.toNat b.toNat s]

end Sys2Proof.Machine
end

