-- ==== Sys2Proof/Safety.lean ====
section
/-! DEFINITION. Safe states and safe steps, and the terms in which claims are stated: what a state must hold for an instruction
to run at once, and what an instruction leaves alone. -/

namespace Sys2Proof

/-- An instruction that has a word of its own (R40 to R45). -/
def Instr.encoded (i : Instr) : Bool :=
  i.length != 0 && (match i with
    | .chgetPeek | .chgetTake | .chgetTail => false
    | _ => true)

namespace Machine

/-- A state is sound when its memory has the canonical form. -/
def State.Sound (s : State) : Prop := s.mem.wf = true

/-- A step goes on: it answers a next state. -/
def GoesOn (s : State) : Prop := ∃ t, step s = .next t

/-- The return queue owes nothing to some x and k registers of the hart that executes (R53), and no AMO that has not committed owes
the x registers their old value (R256). -/
def Settled (xs ks : List Nat) (s : State) : Prop :=
  (∀ r ∈ xs, s.hart.pendingX r = false) ∧ ∀ k ∈ ks, s.hart.pendingK k = false

/-- The reason that the front waits with for x and k registers that are not settled: 3 where the return queue owes one, else 15, an
atomic's old value (R247). -/
def owedReason (xs ks : List Nat) (s : State) : Nat :=
  if (xs.any fun r => s.hart.returnDue r) || ks.any fun k => s.hart.pendingK k then 3 else 15

/-- The hart that executes is a user hart (R14). -/
def State.User (s : State) : Prop := isFerry s.me = false

/-- A user hart has nothing in flight: no VIQ entry, no held entry, no uncommitted store, and no Landing entry on its core
(R53, R80, R81). -/
structure Idle (s : State) : Prop where
  user : isFerry s.me = false
  viq : s.hart.vec.viq = []
  held : s.hart.vec.held = []
  stq : s.hart.ms.stq = []
  landing : (s.core s.here).land.entries = []

/-- A vector instruction runs at once: the hart has nothing in flight, its vector side follows the front, it has no stream and no
captured loop, and its core has no breakpoint (R50, R53, R65, R146, R246). -/
structure VectorReady (s : State) : Prop extends Idle s where
  lag : s.hart.vec.lag = false
  streams : s.hart.ms.streams = []
  loop : s.hart.lp.loop = none
  breakpoints : (s.core s.here).dbg.breakpoints = []

/-- An exception is taken by its handler: the hart has one, and no exception of it is in progress at S (R220). -/
structure CanTrap (s : State) : Prop where
  user : isFerry s.me = false
  handler : s.hart.tr.tbase ≠ 0
  unlocked : (s.hart.tr.sup && s.hart.tr.tcause.getLsbD 59) = false

/-- From `s` to `t` only the hart that executes changes, to `h`. -/
structure OnlyHart (h : Hart) (s t : State) : Prop where
  hart : t.hart = h
  here : t.curCore = s.curCore
  me : t.curHart = s.curHart
  others : ∀ c n, c ≠ s.here ∨ n ≠ s.me → t.hartAt c n = s.hartAt c n
  cores : ∀ c, { t.core c with harts := [] } = { s.core c with harts := [] }
  mem : t.mem = s.mem
  poison : t.poison = s.poison
  dies : t.dies = s.dies
  wharf : t.wharf = s.wharf
  host : t.host = s.host
  agenda : t.agenda = s.agenda

/-- The state in which an exception finds a hart: a trap of the front stops the instruction at VCP at an element-group boundary; one
of the vector side has stopped it at its own element (R51, R226). -/
def State.atStop (vs : Bool) (s : State) : State := if vs then s else roundStop s.here s.me s

/-- From `s` to `t` the hart that executes takes an exception with record `e`, to resume at `resume` (R219, R220): LOCK is 1, PP
the privilege before, VS as `vs` says and NR 0; TVCP and TVST are VCP and VSTART at the stop; the VIQ is held, with no page
pinned but by an instruction that stopped within itself (R227, log entry 97); the handler starts at S; and nothing else
changes. -/
structure TakesTrap (vs : Bool) (e : Exc) (resume : BitVec 48) (s t : State) : Prop where
  cause : t.hart.tr.tcause =
    BitVec.ofNat 64 ((if vs then 2 ^ 62 else 0) + (if s.hart.tr.sup then 2 ^ 60 else 0) + 2 ^ 59 + e.code)
  info0 : t.hart.tr.tinfo0 = e.info0
  info1 : t.hart.tr.tinfo1 = e.info1
  info2 : t.hart.tr.tinfo2 = e.info2
  info3 : t.hart.tr.tinfo3 = e.info3
  tpc : t.hart.tr.tpc = word resume.toNat
  tvcp : t.hart.tr.tvcp = word ({ (s.atStop vs).hart with pc := resume } : Hart).vcp.1.toNat
  tvst : t.hart.tr.tvst = word ({ (s.atStop vs).hart with pc := resume } : Hart).vcp.2
  handler : t.hart.tr.tbase = s.hart.tr.tbase ∧ t.hart.pc = BitVec.ofNat 48 s.hart.tr.tbase.toNat
  scratch : t.hart.tr.tscr0 = s.hart.tr.tscr0 ∧ t.hart.tr.tscr1 = s.hart.tr.tscr1
  sup : t.hart.tr.sup = true
  retired : t.hart.run.retired = s.hart.run.retired
  others : OnlyHart { (s.atStop vs).hart.holdQueue with
    tr := t.hart.tr
    pc := t.hart.pc
    lead := Lead.none
    run := { s.hart.run with why := 0, atBar := false, wait := none, inval := none, deq := false } } (s.atStop vs) t

/-- From `s` to `t` only the hart that executes changes, to `h`, and the core's sequence counter by one: a vector instruction
has run (R81). -/
structure OnlyVector (h : Hart) (s t : State) : Prop where
  hart : t.hart = h
  here : t.curCore = s.curCore
  me : t.curHart = s.curHart
  others : ∀ c n, c ≠ s.here ∨ n ≠ s.me → t.hartAt c n = s.hartAt c n
  cores : ∀ c, { t.core c with harts := [] } =
    { s.core c with
      harts := []
      land := { (s.core c).land with seq := if c = s.here then (s.core c).land.seq + 1 else (s.core c).land.seq } }
  mem : t.mem = s.mem
  poison : t.poison = s.poison
  dies : t.dies = s.dies
  wharf : t.wharf = s.wharf
  host : t.host = s.host
  agenda : t.agenda = s.agenda

/-- A hart after a vector instruction of `n` bytes with flags `f`, which consumes a RIC value or not (R52, R74, R130). -/
def Hart.afterVector (h : Hart) (n f : Nat) (consumes : Bool) : Hart :=
  { h.retire n with fp := { h.fp with flags := h.fp.flags ||| BitVec.ofNat 5 f
                                      ric := if consumes then h.fp.ric + 1 else h.fp.ric } }

/-- A vector register with some of its elements of `n` bits replaced. -/
def Hart.setElems (h : Hart) (r n : Nat) (l : List (Nat × Nat)) : Hart :=
  l.foldl (fun x e => x.setElem r n e.1 e.2) h

/-- VTYPE[3:0] and VTYPE[11:8] of a hart (R57). -/
def Hart.ty (h : Hart) : Nat := wbits h.vec.vtype 0 4
def Hart.ty2 (h : Hart) : Nat := wbits h.vec.vtype 8 4

/-- VL is at most the VLMAX of VTYPE (R58). -/
def Hart.VlFits (h : Hart) : Prop := h.vec.vl ≤ vlMax h.vec.grant h.ty

/-- The elements below VL that a mask makes active (R50). -/
def Hart.active (h : Hart) (m : MReg) : List Nat := activeElems h m.toNat h.vec.vl

end Machine

end Sys2Proof
end

