-- ==== Sys2Proof/Certificates/Slice0/Obligations.lean ====
section
/-! DEFINITION. The statements for the provers. -/

open Sys2Proof Sys2Proof.Machine

/-! Encoding and the step -/

/-- R36, R42, R98, R106, R159, R186, R225, R257, R263, R268, R274, R279: the words that the spec gives for some
instructions decode to them, and a word that starts with a halfword 0 holds no instruction. -/
def Obligations.SpecWordsDecode : Prop :=
  decodeTableWord 32 0x05045201 = some (.add 16 17 18) ∧
  decodeTableWord 16 0x09AA = some (.addC 3 5) ∧
  decodeTableWord 32 0x09457FF5 = some (.addi 20 21 0xFFD) ∧
  decodeTableWord 32 0x1AAA81CD = some (.shri 42 42 51) ∧
  decodeTableWord 32 0x21D75A01 = some (.mul 29 29 26) ∧
  decodeTableWord 32 0x4090900D = some (.ld 9 2 2 3) ∧
  decodeTableWord 32 0x5051879D = some (.amoCas 5 6 7 3) ∧
  decodeTableWord 32 0x39A0002D = some (.brn 3 2) ∧
  decodeTableWord 16 0x4222 = some (.brC 2 1) ∧
  decodeTableWord 32 0x3C00001D = some .bkpt ∧
  decodeTableWord 32 0x6440040D = some (.rput 4 0 1) ∧
  decodeTableWord 32 0x88811219 = some (.vand 4 1 2 2) ∧
  decodeTableWord 32 0x8C624C01 = some (.vaddX 3 2 19 0) ∧
  decodeTableWord 64 0x00000001C1000003 = some .tfree ∧
  decodeTableWord 32 0 = none

/-- R36, R40 to R45: every instruction with an encoding of its own is read back from its word, whatever its fields
hold. -/
def Obligations.EncodeThenDecode : Prop :=
  ∀ i : Instr, i.encoded = true → i.wellFormed = true → decodeTableWord (8 * i.length) i.encode = some i

/-- R36: the first halfword decides the length of an instruction. With [1:0] = 00 there is none, so the halfword of
zeros is none; with 01 it is one word of 32 bits, whose [31:26] is the major opcode of the instruction read; with 10 it
is a compressed one of 16 bits, whose [15:11] is its op5; with 11 it is one of 64 bits, a prefix word at the lower
address and a body word, and none where the body word's [1:0] is not 01 or its [31:26] not 0. What the decoder gives
has an encoding, and its code fields are legal (R47). The front fetches as many halfwords as the length, in address
order (R37), and, as log entry 99 chooses, modulo 2^48. The choices and readings of the model in it: log entry 99. -/
def Obligations.DecodedIsWellFormed : Prop :=
  (∀ (n w : Nat) (i : Instr), decodeTableWord n w = some i →
     i.encoded = true ∧ i.wellFormed = true ∧ i.length = lengthOf (w % 2 ^ n % 65536)) ∧
  (∀ h : Nat, lengthOf h = match h % 4 with | 0 => 0 | 1 => 4 | 2 => 2 | _ => 8) ∧
  (∀ n w : Nat,
     (w % 4 = 0 → decodeTableWord n w = none) ∧
     (∀ i, w % 4 = 1 → decodeTableWord 32 w = some i → i.encode / 2 ^ 26 = w % 2 ^ 32 / 2 ^ 26) ∧
     (∀ i, w % 4 = 2 → decodeTableWord 16 w = some i → i.encode / 2 ^ 11 = w % 2 ^ 16 / 2 ^ 11) ∧
     (w % 4 = 3 → w / 2 ^ 32 % 4 ≠ 1 ∨ w / 2 ^ 58 % 64 ≠ 0 → decodeTableWord 64 w = none)) ∧
  (∀ (s u0 : State) (cx : Ctx) (va : BitVec 48) (h0 : Nat), fetchHalf cx va s = .ok h0 u0 →
     (h0 % 4 = 0 → fetchInstr cx va s = .ok (0, h0) u0) ∧
     (h0 % 4 = 2 → fetchInstr cx va s = .ok (2, h0) u0) ∧
     ∀ (h1 : Nat) (u1 : State), fetchHalf cx (va + 2) u0 = .ok h1 u1 →
       (h0 % 4 = 1 → fetchInstr cx va s = .ok (4, h0 + 65536 * h1) u1) ∧
       ∀ (h2 h3 : Nat) (u2 u3 : State), fetchHalf cx (va + 4) u1 = .ok h2 u2 → fetchHalf cx (va + 6) u2 = .ok h3 u3 →
         h0 % 4 = 3 → fetchInstr cx va s = .ok (8, h0 + 65536 * (h1 + 65536 * (h2 + 65536 * h3))) u3)

/-- R36, R37, R38 and log entry 4: when the agenda gives the turn to a hart whose front may issue, that does not wait
for the Pontoon (R116), and no breakpoint stands at its PC or, with nothing in its VIQ, at its VCP (R246), a step
fetches and decodes the bytes at the PC of that hart, and runs what they hold: the instruction, a row of CHGET or CWR
that its register selects, or ILLEGAL. What the step does before the fetch is to note the turn (R247), and to take the
Pontoon for a hart within a recursion where no hart holds it. -/
def Obligations.StepRunsTheDecodedInstruction : Prop :=
  ∀ (s t : State) (c : CoreNo) (h : HartNo) (rest : List Turn) (n w : Nat),
    s.host.fatal = false → s.agenda = .hart c h :: rest →
    frontMoves c.toNat h.toNat { s with agenda := rest } = true →
    breakpointAt c.toNat h.toNat false (s.hartAt c.toNat h.toNat).pc s = false →
    commitAtFront c.toNat h.toNat s = false → lacksPontoon c.toNat h.toNat s = false →
    let u := State.focus c.toNat h.toNat (noteTurn c.toNat h.toNat (holdPontoon c.toNat h.toNat { s with agenda := rest }))
    fetchInstr u.ctx (s.hartAt c.toNat h.toNat).pc u = .ok (n, w) t →
    (∀ i, n ≠ 0 → decodeTableWord (8 * n) w = some i → step s = exec (resolve i t).1 (resolve i t).2) ∧
    (n = 0 ∨ decodeTableWord (8 * n) w = none →
      step s = exec .illegalEncoding
        { t with input := { t.input with enc := word w, encLen := BitVec.ofNat 4 (if n = 0 then 2 else n) } })

/-- R3, R36, R37, R94, R98, R100: a halfword at a code address that the front took from a prefetch buffer at its last
transfer is that of the buffer, once the page that it was read through allows the fetch (R95); elsewhere, where the
address translates and its line is neither held by the instruction cache nor poisoned, it is the two bytes there, the
lower one first. Bits [1:0] of the first halfword give the length: with 00 there is no instruction, with 10 it is two
bytes, with 01 four and with 11 eight, whose further halfwords are fetched in turn at the addresses 2, 4 and 6 bytes
on. The choices and readings of the model in it: log entries 11, 71, 99. -/
def Obligations.FetchReadsTheBytesAtPc : Prop :=
  ∀ (s : State) (cx : Ctx) (va : BitVec 48),
    (∀ w e, s.hart.lead.half va = some w → s.hart.lead.page va = some e →
      (leafRefuses e.pte .fetch cx.sup = none → fetchHalf cx va s = .ok w s) ∧
      ∀ code, leafRefuses e.pte .fetch cx.sup = some code →
        fetchHalf cx va s = .exc (pageExc code .fetch va.toNat 0 e.level e.pte) 0 s) ∧
    (∀ (t : State) (p : Nat) (e : TlbEntry), s.hart.lead.half va = none →
      translate cx .fetch (word va.toNat) 0 s = .ok (p, e) t → p % 2 = 0 →
      lookup (t.core cx.core).icache (lineOf p) = none → poisoned (lineOf p) 64 t = false →
      ∃ u, fetchHalf cx va s = .ok (readNat t.mem p 2) u ∧ u.mem = t.mem ∧ readNat t.mem p 2 < 65536) ∧
    ∀ (h0 : Nat) (u0 : State), fetchHalf cx va s = .ok h0 u0 →
      (h0 % 4 = 0 → fetchInstr cx va s = .ok (0, h0) u0) ∧
      (h0 % 4 = 2 → fetchInstr cx va s = .ok (2, h0) u0) ∧
      ∀ (h1 : Nat) (u1 : State), fetchHalf cx (va + 2) u0 = .ok h1 u1 →
        (h0 % 4 = 1 → fetchInstr cx va s = .ok (4, h0 + 65536 * h1) u1) ∧
        ∀ (h2 h3 : Nat) (u2 u3 : State), fetchHalf cx (va + 4) u1 = .ok h2 u2 → fetchHalf cx (va + 6) u2 = .ok h3 u3 →
          h0 % 4 = 3 → fetchInstr cx va s = .ok (8, h0 + 65536 * (h1 + 65536 * (h2 + 65536 * h3))) u3

/-! Reset -/

/-- R7, R59, R68, R105, R127, R171, R219, R228, R242: what the spec gives as the state after device reset. -/
def Obligations.ResetValues : Prop :=
  State.reset.host.ready = 0 ∧ State.reset.host.fatal = false ∧ State.reset.wharf.launches = [] ∧
  State.reset.wharf.groups = [] ∧ (State.reset.die 0).heat.threshold = 256 ∧ (State.reset.die 0).heat.en = false ∧
  (State.reset.bank 0 0).status = 0 ∧ (State.reset.bank 0 0).ctl = 1 ∧
  ∀ c h, c < 96 → h < 6 →
    let x := State.reset.hartAt c h
    x.run.running = false ∧ (∀ r, x.getX r = 0) ∧ x.k = 0 ∧ (∀ b, (x.getB b).v = false) ∧ x.vec.vl = 0 ∧ x.vec.vtype = 0 ∧
    x.vec.mspace = 0 ∧ (∀ r, x.getV r = 0) ∧ x.fp.ctl = 0 ∧ x.fp.flags = 0 ∧ x.fp.seed = 0 ∧ x.fp.ric = 0 ∧
    x.lp.det = false ∧ x.rc.stat = word (3 * 2 ^ 60) ∧ x.tr.tcause = 0 ∧ x.tr.tbase = 0 ∧ x.tr.sup = false

/-- Log entry 3: the memory after reset has the canonical form. -/
def Obligations.ResetMemoryCanonical : Prop := State.reset.Sound

/-! Whole-machine rules -/

/-- From every state whose memory has the canonical form, a step leaves it so. -/
def Obligations.MemoryStaysCanonical : Prop := ∀ s t : State, s.Sound → step s = .next t → t.Sound

/-- R233: a fatal error stops the package and interrupts the host, and only a device reset leaves the stop. What the
host may still do is the model's choice (log entry 112): from then on the package makes no step of its own: while no
device reset comes, a step leaves every core, die, memory and the Wharf as they are, and the package stopped; the
host's reads are still answered, and what else it asks is dropped; with nothing asked, there is no step. -/
def Obligations.FatalErrorStopsThePackage : Prop :=
  (∀ s : State, ∃ t, exec .fatalError s = .next t ∧ t.host.fatal = true ∧ t.host.irqs = s.host.irqs ++ [.fatal]) ∧
  (∀ s t : State, s.host.fatal = true → s.agenda = [] → step s ≠ .next t) ∧
  (∀ s t : State, s.host.fatal = true → (∀ n, s.agenda.head? ≠ some (.event .deviceReset n)) → step s = .next t →
    t.host.fatal = true ∧ t.cores = s.cores ∧ t.dies = s.dies ∧ t.mem = s.mem ∧ t.poison = s.poison ∧ t.wharf = s.wharf) ∧
  ∀ (s : State) (n : Input) (rest : List Turn), s.host.fatal = true → n.wellFormed = true →
    (∀ r ∈ ([.hostNmRead, .getVersion, .getCapabilities, .negotiateAlgorithms, .getDigests, .getCertificate, .challenge,
        .getMeasurements, .spdmUnsupportedRequest, .deviceReset] : List Instr),
      s.agenda = .event r n :: rest → step s = exec r { s with agenda := rest, input := n }) ∧
    (∀ t, s.agenda = t :: rest → afterFatal t = false → step s = .next { s with agenda := rest }) ∧
    (s.agenda = .event .deviceReset n :: rest → ∃ t, step s = .next t ∧ t.host.fatal = false ∧ t.agenda = rest)

/-! Scalar integer instructions -/

/-- R41, R42, R257: additions, logical operations, moves and LIH write x[d], discarded for x0, and the front goes on.
R257, R274: shifts by the amount modulo 64, selections, comparisons, leading zeros and the number of set bits. R257 and
R274 on their words: every word of majors 0x01 to 0x06, with the functions, selectors and res0 fields that are ILLEGAL,
and compressed forms. What a write to x0 leaves (R41), and that an instruction one of whose registers is owed waits for
it (R53), with reason 3 where the return queue owes it and 15 where only an AMO does (R247). -/
def Obligations.ScalarIntegerResults : Prop :=
  (∀ (s : State) (d a b : XReg) (imm : BitVec 12) (im18 : BitVec 18) (d4 a4 : BitVec 4) (j : BitVec 1) (im5 : BitVec 5),
     let p := s.hart.getX a.toNat
     let q := s.hart.getX b.toNat
     let put : Nat → Word → Out := fun n w => .next (s.modHart fun h => (h.setX d.toNat w).retire n)
     (Settled [d.toNat, a.toNat, b.toNat] [] s →
       exec (.add d a b) s = put 4 (p + q) ∧ exec (.sub d a b) s = put 4 (p - q) ∧
       exec (.and d a b) s = put 4 (p &&& q) ∧ exec (.or d a b) s = put 4 (p ||| q) ∧
       exec (.xor d a b) s = put 4 (p ^^^ q)) ∧
     (Settled [d.toNat, a.toNat] [] s →
       exec (.mv d a) s = put 4 p ∧ exec (.addi d a imm) s = put 4 (p + imm.signExtend 64) ∧
       exec (.andi d a imm) s = put 4 (p &&& imm.zeroExtend 64) ∧ exec (.ori d a imm) s = put 4 (p ||| imm.zeroExtend 64) ∧
       exec (.xori d a imm) s = put 4 (p ^^^ imm.zeroExtend 64)) ∧
     (Settled [d.toNat] [] s → exec (.lih d im18) s = put 4 (im18.signExtend 64 <<< 12)) ∧
     (Settled [d4.toNat, a4.toNat] [] s →
       exec (.addC d4 a4) s = .next (s.modHart fun h =>
         (h.setX d4.toNat (s.hart.getX d4.toNat + s.hart.getX a4.toNat)).retire 2) ∧
       exec (.mvC d4 a4) s = .next (s.modHart fun h => (h.setX d4.toNat (s.hart.getX a4.toNat)).retire 2)) ∧
     (Settled [d4.toNat] [] s →
       exec (.addiC j d4 im5) s = .next (s.modHart fun h =>
         (h.setX d4.toNat (s.hart.getX d4.toNat + (j ++ im5).signExtend 64)).retire 2))) ∧
  (∀ (s : State) (d a b : XReg) (n : BitVec 6),
     let p := s.hart.getX a.toNat
     let q := s.hart.getX b.toNat
     let k := q.toNat % 64
     let put : Word → Out := fun w => .next (s.modHart fun h => (h.setX d.toNat w).retire 4)
     (Settled [d.toNat, a.toNat, b.toNat] [] s →
       exec (.shl d a b) s = put (p <<< k) ∧ exec (.shr d a b) s = put (p >>> k) ∧
       exec (.shra d a b) s = put (p.sshiftRight k) ∧
       exec (.min d a b) s = put (if p.toInt < q.toInt then p else q) ∧
       exec (.max d a b) s = put (if p.toInt < q.toInt then q else p) ∧
       exec (.minn d a b) s = put (if p.toNat < q.toNat then p else q) ∧
       exec (.maxn d a b) s = put (if p.toNat < q.toNat then q else p) ∧
       exec (.slt d a b) s = put (if p.toInt < q.toInt then 1 else 0) ∧
       exec (.sltn d a b) s = put (if p.toNat < q.toNat then 1 else 0)) ∧
     (Settled [d.toNat, a.toNat] [] s →
       exec (.shli d a n) s = put (p <<< n.toNat) ∧ exec (.shri d a n) s = put (p >>> n.toNat) ∧
       exec (.shrai d a n) s = put (p.sshiftRight n.toNat) ∧
       (∃ z : Nat, exec (.clz d a) s = put (BitVec.ofNat 64 z) ∧ z ≤ 64 ∧ (p = 0 ↔ z = 64) ∧
         (z < 64 → 2 ^ (63 - z) ≤ p.toNat ∧ p.toNat < 2 ^ (64 - z))) ∧
       exec (.popc d a) s = put (BitVec.ofNat 64 ((List.range 64).countP fun i => p.getLsbD i)))) ∧
  ((∀ w : Nat, w < 2 ^ 32 → w % 4 = 1 →
      let d : XReg := BitVec.ofNat 6 (w / 2 ^ 20)
      let a : XReg := BitVec.ofNat 6 (w / 2 ^ 14)
      let b : XReg := BitVec.ofNat 6 (w / 2 ^ 8)
      let imm : BitVec 12 := BitVec.ofNat 12 (w / 4)
      let n : BitVec 6 := BitVec.ofNat 6 (w / 4)
      (w / 2 ^ 26 = 1 → decodeTableWord 32 w =
        match w / 4 % 64 with
        | 0 => some (.add d a b) | 1 => some (.sub d a b) | 2 => some (.and d a b) | 3 => some (.or d a b)
        | 4 => some (.xor d a b) | 5 => some (.shl d a b) | 6 => some (.shr d a b) | 7 => some (.shra d a b)
        | 8 => some (.min d a b) | 9 => some (.max d a b) | 10 => some (.minn d a b) | 11 => some (.maxn d a b)
        | 12 => some (.slt d a b) | 13 => some (.sltn d a b)
        | 14 => if b = 0 then some (.clz d a) else none
        | 15 => if b = 0 then some (.popc d a) else none
        | 16 => if b = 0 then some (.mv d a) else none
        | _ => none) ∧
      (w / 2 ^ 26 = 2 → decodeTableWord 32 w = some (.addi d a imm)) ∧
      (w / 2 ^ 26 = 3 → decodeTableWord 32 w = some (.andi d a imm)) ∧
      (w / 2 ^ 26 = 4 → decodeTableWord 32 w = some (.ori d a imm)) ∧
      (w / 2 ^ 26 = 5 → decodeTableWord 32 w = some (.xori d a imm)) ∧
      (w / 2 ^ 26 = 6 → decodeTableWord 32 w =
        if w / 2 ^ 10 % 16 = 0 then
          match w / 2 ^ 8 % 4 with
          | 0 => some (.shli d a n) | 1 => some (.shri d a n) | 2 => some (.shrai d a n) | _ => none
        else none)) ∧
   decodeTableWord 16 0x09AA = some (.addC 3 5) ∧ decodeTableWord 16 0x19FE = some (.addiC 1 3 31) ∧
   (∀ (h : Hart) (v : Word), h.setX 0 v = h) ∧
   (∀ (s : State) (d a b : XReg), ¬ Settled [d.toNat, a.toNat, b.toNat] [] s →
      ∀ i ∈ ([.add d a b, .sub d a b, .and d a b, .or d a b, .xor d a b, .shl d a b, .shr d a b, .shra d a b, .min d a b,
        .max d a b, .minn d a b, .maxn d a b, .slt d a b, .sltn d a b] : List Instr),
        exec i s = .next (stall (owedReason [d.toNat, a.toNat, b.toNat] [] s) s)) ∧
   (∀ (s : State) (d a : XReg) (imm : BitVec 12) (n : BitVec 6), ¬ Settled [d.toNat, a.toNat] [] s →
      ∀ i ∈ ([.clz d a, .popc d a, .mv d a, .addi d a imm, .andi d a imm, .ori d a imm, .xori d a imm, .shli d a n,
        .shri d a n, .shrai d a n] : List Instr), exec i s = .next (stall (owedReason [d.toNat, a.toNat] [] s) s)))

/-- R263: multiplications and divisions, with every corner that the rule gives a result; every word of major 0x08, with
the functions that are ILLEGAL; that no halfword holds one. What is written to x0 is discarded (R41). One of whose
registers the return queue or an AMO owes waits for it, as the rule says of a later reader. -/
def Obligations.ScalarMultiplyDivideResults : Prop :=
  (∀ (s : State) (d a b : XReg), Settled [d.toNat, a.toNat, b.toNat] [] s →
    let p := s.hart.getX a.toNat
    let q := s.hart.getX b.toNat
    let put : Word → Out := fun w => .next (s.modHart fun h => (h.setX d.toNat w).retire 4)
    exec (.mul d a b) s = put (p * q) ∧
    exec (.mulh d a b) s = put (((p.signExtend 128 * q.signExtend 128) >>> 64).setWidth 64) ∧
    exec (.mulhn d a b) s = put (((p.zeroExtend 128 * q.zeroExtend 128) >>> 64).setWidth 64) ∧
    (q = 0 →
      exec (.div d a b) s = put (BitVec.allOnes 64) ∧ exec (.divn d a b) s = put (BitVec.allOnes 64) ∧
      exec (.rem d a b) s = put p ∧ exec (.remn d a b) s = put p) ∧
    (q ≠ 0 →
      exec (.divn d a b) s = put (BitVec.ofNat 64 (p.toNat / q.toNat)) ∧
      exec (.remn d a b) s = put (BitVec.ofNat 64 (p.toNat % q.toNat)) ∧
      exec (.div d a b) s = put (BitVec.ofInt 64 (p.toInt.tdiv q.toInt)) ∧
      ∃ w : Word, exec (.div d a b) s = put w ∧ exec (.rem d a b) s = put (p - q * w)) ∧
    (p = BitVec.intMin 64 → q = BitVec.allOnes 64 →
      exec (.div d a b) s = put (BitVec.intMin 64) ∧ exec (.rem d a b) s = put 0)) ∧
  (∀ w : Nat, w < 2 ^ 32 → w % 4 = 1 → w / 2 ^ 26 = 8 →
     let d : XReg := BitVec.ofNat 6 (w / 2 ^ 20)
     let a : XReg := BitVec.ofNat 6 (w / 2 ^ 14)
     let b : XReg := BitVec.ofNat 6 (w / 2 ^ 8)
     decodeTableWord 32 w =
       match w / 4 % 64 with
       | 0 => some (.mul d a b) | 1 => some (.mulh d a b) | 2 => some (.mulhn d a b) | 3 => some (.div d a b)
       | 4 => some (.divn d a b) | 5 => some (.rem d a b) | 6 => some (.remn d a b) | _ => none) ∧
  (∀ (w : Nat) (d a b : XReg), ∀ i ∈ ([.mul d a b, .mulh d a b, .mulhn d a b, .div d a b, .divn d a b, .rem d a b,
     .remn d a b] : List Instr), decodeTableWord 16 w ≠ some i) ∧
  (∀ (h : Hart) (v : Word), h.setX 0 v = h) ∧
  ∀ (s : State) (d a b : XReg), ¬ Settled [d.toNat, a.toNat, b.toNat] [] s →
     ∀ i ∈ ([.mul d a b, .mulh d a b, .mulhn d a b, .div d a b, .divn d a b, .rem d a b, .remn d a b] : List Instr),
       exec i s = .next (stall (owedReason [d.toNat, a.toNat, b.toNat] [] s) s)

/-- The scalar integer rows with their destinations. -/
def Sys2Proof.Machine.scalarDest : Instr → Option Nat
  | .add d _ _ | .sub d _ _ | .and d _ _ | .or d _ _ | .xor d _ _ | .shl d _ _ | .shr d _ _ | .shra d _ _ | .min d _ _
  | .max d _ _ | .minn d _ _ | .maxn d _ _ | .slt d _ _ | .sltn d _ _ | .mul d _ _ | .mulh d _ _ | .mulhn d _ _
  | .div d _ _ | .divn d _ _ | .rem d _ _ | .remn d _ _ => some d.toNat
  | .clz d _ | .popc d _ | .mv d _ => some d.toNat
  | .addi d _ _ | .andi d _ _ | .ori d _ _ | .xori d _ _ => some d.toNat
  | .shli d _ _ | .shri d _ _ | .shrai d _ _ => some d.toNat
  | .lih d _ => some d.toNat
  | .addC d _ => some d.toNat
  | .mvC d _ => some d.toNat
  | .addiC _ d _ => some d.toNat
  | _ => none

/-- R41, R123, R257, R263: a scalar integer instruction raises nothing, sets no flag, and in every next state leaves
every other x register, every other register, every byte of memory, every other hart and the rest of the machine as
they were: what changes is x[d], PC, RETIRED by at most one, the stall reason (R247), and that the hart stands at no
barrier (R214). -/
def Obligations.ScalarIntegerFrame : Prop :=
  ∀ (i : Instr) (d : Nat) (s t : State), scalarDest i = some d → exec i s = .next t →
    (∀ r, r ≠ d → t.hart.getX r = s.hart.getX r) ∧ t.hart.getX 0 = 0 ∧
    (∀ a, readPlace t.mem a = readPlace s.mem a) ∧
    ∃ x pc retired why atBar,
      (retired = s.hart.run.retired ∨ retired = s.hart.run.retired + 1) ∧
      OnlyHart { s.hart with
        x := x, pc := pc, run := { s.hart.run with retired := retired, why := why, atBar := atBar } } s t

/-! Scalar floating-point instructions -/

/-- The number that a finite value is. -/
def Sys2Proof.Machine.FVal.rat : FVal → ℚ
  | .num neg m e => (if neg then -(m : ℚ) else m) * 2 ^ e
  | _ => 0

/-- The magnitude that an encoding without its sign has (R117): 0.f × 2^(1 − b) or 1.f × 2^(E − b). -/
def Sys2Proof.Machine.Fmt.mag (f : Fmt) (w : Nat) : ℚ :=
  let fraction : ℚ := (w % 2 ^ f.fb : Nat) / 2 ^ f.fb
  if w / 2 ^ f.fb = 0 then fraction * 2 ^ (1 - f.bias) else (1 + fraction) * 2 ^ ((w / 2 ^ f.fb : Nat) - f.bias)

/-- The sign bit of an encoding. -/
def Sys2Proof.Machine.Fmt.sign (f : Fmt) (neg : Bool) : Nat := if neg then f.signBit else 0

/-- Whether a magnitude between t and t + u is rounded to t + u (R127, R128), where `below` says of a number whether it lies below the
magnitude, and `is` whether it is the magnitude; `odd` is the last bit of t. -/
def Sys2Proof.Machine.goesUpBy (mode : RMode) (rb : Nat) (neg odd : Bool) (t u : ℚ) (below is : ℚ → Bool) : Bool :=
  let middle := t + u / 2
  let random := t + u * (rb + 1) / 2 ^ 16
  match mode with
  | .rne => below middle || (is middle && odd)
  | .rtz => false
  | .rdn => neg
  | .rup => !neg
  | .rmm => below middle || is middle
  | .sr => below random || is random

/-- Whether a magnitude x between t and t + u is rounded to t + u. -/
def Sys2Proof.Machine.goesUp (mode : RMode) (rb : Nat) (neg odd : Bool) (t u x : ℚ) : Bool :=
  goesUpBy mode rb neg odd t u (fun z => decide (z < x)) fun z => decide (z = x)

/-- Whether a magnitude is tiny (R131): rounded to the precision of the format, whatever the exponent, it lies below the smallest
normal number. -/
def Sys2Proof.Machine.tinyAfter (f : Fmt) (mode : RMode) (rb : Nat) (neg : Bool) (x : ℚ) : Bool :=
  let least : ℚ := 2 ^ (1 - f.bias)
  let u : ℚ := 2 ^ (-f.bias - f.fb)
  decide (x < least) && !(decide (least - u < x) && goesUp mode rb neg true (least - u) u x)

/-- The encoding and flags `r` are the magnitude x, which is not 0, with a sign, rounded to a format (R126, R128, R131): an x that
the format has is delivered with no flag; one between two neighbours as one of the two, with NX, and UF when it is tiny; one that
rounds above the largest finite as an infinity or the largest finite, with OF and NX. -/
def Sys2Proof.Machine.RoundsTo (f : Fmt) (mode : RMode) (rb : Nat) (neg : Bool) (x : ℚ) (r : Nat × Nat) : Prop :=
  (∀ w, w ≤ f.top → f.mag w = x → r = (f.sign neg + w, 0)) ∧
  (∀ w, w < f.top → f.mag w < x → x < f.mag (w + 1) →
    r = (f.sign neg + (if goesUp mode rb neg (w % 2 == 1) (f.mag w) (f.mag (w + 1) - f.mag w) x then w + 1 else w),
      if tinyAfter f mode rb neg x then UF + NX else NX)) ∧
  (f.mag f.top < x →
    let u := f.mag f.top - f.mag (f.top - 1)
    let huge := if !f.infs || mode == .rtz || (mode == .rdn && !neg) || (mode == .rup && neg) then f.top else f.top + 1
    r = if x < f.mag f.top + u ∧ goesUp mode rb neg (f.top % 2 == 1) (f.mag f.top) u x = false then (f.sign neg + f.top, NX)
      else (f.sign neg + huge, OF + NX))

/-- The encoding and flags `r` are a root within the normal numbers of a format, rounded once (R126, R128): `ratio z` is z² over the
square of the root, which may be no rational number itself. A root that the format has is delivered with no flag, another with NX. -/
def Sys2Proof.Machine.RootRounds (f : Fmt) (mode : RMode) (rb : Nat) (ratio : ℚ → ℚ) (r : Nat × Nat) : Prop :=
  (∀ w, w ≤ f.top → ratio (f.mag w) = 1 → r = (w, 0)) ∧
  ∀ w, w < f.top → ratio (f.mag w) < 1 → 1 < ratio (f.mag (w + 1)) →
    r = (if goesUpBy mode rb false (w % 2 == 1) (f.mag w) (f.mag (w + 1) - f.mag w) (fun z => decide (ratio z < 1))
          (fun z => decide (ratio z = 1)) then w + 1 else w, NX)

/-- The floating type codes: exponent bits, fraction bits, bias, infinities, the largest finite and the canonical NaN (R117, R118). -/
def Sys2Proof.Machine.floatLayouts : List (Nat × Nat × Nat × Int × Bool × Nat × Nat) :=
  [(8, 4, 3, 7, false, 0x7E, 0x7F), (9, 5, 2, 15, true, 0x7B, 0x7E), (11, 5, 10, 15, true, 0x7BFF, 0x7E00),
   (12, 8, 7, 127, true, 0x7F7F, 0x7FC0), (13, 8, 23, 127, true, 0x7F7FFFFF, 0x7FC00000),
   (14, 11, 52, 1023, true, 0x7FEFFFFFFFFFFFFF, 0x7FF8000000000000)]

/-- R117, R118: the layouts of the formats, FP4 among them, and the value that each encoding has. -/
def Sys2Proof.Machine.FormatsDecode : Prop :=
  (∀ row ∈ floatLayouts, let (ty, eb, fb, bias, infs, top, nan) := row
    fmtOf ty = ⟨eb, fb, top, infs⟩ ∧ (fmtOf ty).bias = bias ∧ (fmtOf ty).nan = nan) ∧
  fmtOf 10 = ⟨2, 1, 7, false⟩ ∧
  ∀ ty ∈ [8, 9, 10, 11, 12, 13, 14], ∀ (w : Nat) (neg : Bool), w < (fmtOf ty).signBit →
    let f := fmtOf ty
    let v := valueOf ty (f.sign neg + w)
    (w ≤ f.top → v.special = false ∧ v.isNeg = neg ∧ v.rat = if neg then -f.mag w else f.mag w) ∧
    (f.top < w → v = if f.infs ∧ w = f.top + 1 then .inf neg else .nan (f.infs && w / 2 ^ (f.fb - 1) % 2 == 0))

/-- R126 to R128, R131: a value converted to a floating type is rounded once, keeps its sign, and a NaN becomes the canonical one; an
infinity stays one, and becomes ±448 in E4M3. To an integer type it is rounded to an integer, and what the type does not have
becomes its nearest bound, or 0 for a NaN, with NV. -/
def Sys2Proof.Machine.ConversionsRound : Prop :=
  ∀ (mode : RMode) (rb : Nat) (neg : Bool) (m : Nat) (e : Int), 0 < m → rb < 2 ^ 16 →
    let x : ℚ := m * 2 ^ e
    (∀ row ∈ floatLayouts, let (ty, _, _, _, infs, top, nan) := row
      let sign := (fmtOf ty).sign neg
      RoundsTo (fmtOf ty) mode rb neg x (convertTo ty mode rb (.num neg m e)) ∧
      convertTo ty mode rb (.zero neg) = (sign, 0) ∧
      convertTo ty mode rb (.inf neg) = (if infs then (sign + top + 1, 0) else (sign + top, OF + NX)) ∧
      convertTo ty mode rb (.nan false) = (nan, 0) ∧ convertTo ty mode rb (.nan true) = (nan, NV)) ∧
    ∀ ty, ty < 8 →
      let n := 8 * 2 ^ (ty % 4)
      let least : Int := if ty < 4 then -2 ^ (n - 1) else 0
      let greatest : Int := if ty < 4 then 2 ^ (n - 1) - 1 else 2 ^ n - 1
      let bits : Int → Nat := fun i => (i % 2 ^ n).toNat
      convertTo ty mode rb (.nan false) = (0, NV) ∧ convertTo ty mode rb (.nan true) = (0, NV) ∧
      convertTo ty mode rb (.zero neg) = (0, 0) ∧
      convertTo ty mode rb (.inf neg) = (bits (if neg then least else greatest), NV) ∧
      ∀ t : Nat, (t : ℚ) ≤ x → x < t + 1 →
        let k : Int := if (t : ℚ) < x ∧ goesUp mode rb neg (t % 2 == 1) t 1 x = true then t + 1 else t
        let i := if neg then -k else k
        convertTo ty mode rb (.num neg m e) =
          if i < least then (bits least, NV) else if greatest < i then (bits greatest, NV)
          else (bits i, if (t : ℚ) = x then 0 else NX)

/-- R118, R126, R131, R133, R283: an operation on bits of a floating type, `op fn ty mode rb a b c`: sums and products of finite
operands are rounded once, and so are quotients by numbers other than 0 and roots of positive numbers; an exact zero has the sign that
R118 gives it, and what is no number is the canonical NaN, with NV where R131 says so. -/
def Sys2Proof.Machine.ArithmeticRounds (op : LaneFn → Nat → RMode → Nat → Nat → Nat → Nat → Nat × Nat) : Prop :=
  ∀ row ∈ floatLayouts, ∀ (mode : RMode) (rb a b c : Nat), rb < 2 ^ 16 →
    let (ty, eb, fb, _, infs, top, nan) := row
    let f := fmtOf ty
    let va := valueOf ty a
    let vb := valueOf ty b
    let vc := valueOf ty c
    let r : LaneFn → Nat × Nat := fun fn => op fn ty mode rb a b c
    let gives : LaneFn → ℚ → Bool → Prop := fun fn x zeroNeg =>
      (x ≠ 0 → RoundsTo f mode rb (decide (x < 0)) |x| (r fn)) ∧ (x = 0 → r fn = (f.sign zeroNeg, 0))
    let sumNeg : Bool → Bool → Bool := fun n k => if n = k then n else mode == .rdn
    let unlike := va.isNeg != vb.isNeg
    let finite : FVal → Prop := fun v => v.special = false
    let endless : FVal → Prop := fun v => v.special = true ∧ v.isNan = false
    let inf : Bool → Nat := fun n => f.sign n + top + 1
    (finite va → finite vb →
      gives .fadd (va.rat + vb.rat) (sumNeg va.isNeg vb.isNeg) ∧ gives .fsub (va.rat - vb.rat) (sumNeg va.isNeg !vb.isNeg) ∧
      gives .fmul (va.rat * vb.rat) unlike ∧ (finite vc → gives .fma (va.rat * vb.rat + vc.rat) (sumNeg unlike vc.isNeg)) ∧
      (vb.rat ≠ 0 → va.rat ≠ 0 → RoundsTo f mode rb unlike |va.rat / vb.rat| (r .fdiv)) ∧
      (vb.rat ≠ 0 → va.rat = 0 → r .fdiv = (f.sign unlike, 0)) ∧
      (vb.rat = 0 → va.rat = 0 → r .fdiv = (nan, NV)) ∧
      (infs = true → vb.rat = 0 → va.rat ≠ 0 → r .fdiv = (inf unlike, DZ)) ∧
      (0 < va.rat → RootRounds f mode rb (fun z => z ^ 2 / va.rat) (r .fsqrt)) ∧
      (va.rat = 0 → r .fsqrt = (f.sign va.isNeg, 0)) ∧
      (va.rat < 0 → r .fsqrt = (nan, NV))) ∧
    (endless va → r .fsqrt = if va.isNeg then (nan, NV) else (inf false, 0)) ∧
    (va.isNan = true ∨ vb.isNan = true → ∀ fn ∈ [LaneFn.fadd, .fsub, .fmul, .fdiv, .fmin, .fmax],
      r fn = (nan, if va.isSnan || vb.isSnan then NV else 0)) ∧
    (va.isNan = true → r .fsqrt = (nan, if va.isSnan then NV else 0)) ∧
    (va.isNan = true ∨ vb.isNan = true ∨ vc.isNan = true →
      r .fma = (nan, if va.isSnan ∨ vb.isSnan ∨ vc.isSnan ∨ (endless va ∧ vb.rat = 0 ∧ finite vb) ∨
        (endless vb ∧ va.rat = 0 ∧ finite va) then NV else 0)) ∧
    (endless va → endless vb →
      r .fadd = (if unlike then (nan, NV) else (inf va.isNeg, 0)) ∧ r .fsub = (if unlike then (inf va.isNeg, 0) else (nan, NV)) ∧
      r .fmul = (inf unlike, 0) ∧ r .fdiv = (nan, NV)) ∧
    (endless va → finite vb →
      r .fadd = (inf va.isNeg, 0) ∧ r .fsub = (inf va.isNeg, 0) ∧ r .fdiv = (inf unlike, 0) ∧
      r .fmul = if vb.rat = 0 then (nan, NV) else (inf unlike, 0)) ∧
    (finite va → endless vb →
      r .fadd = (inf vb.isNeg, 0) ∧ r .fsub = (inf !vb.isNeg, 0) ∧ r .fdiv = (f.sign unlike, 0) ∧
      r .fmul = if va.rat = 0 then (nan, NV) else (inf unlike, 0)) ∧
    (va.isNan = false → vb.isNan = false →
      let low : Nat → Nat := fun w => w % 2 ^ (1 + eb + fb)
      let rank : Nat → Int := fun w => if f.signBit ≤ low w then -(low w - f.signBit : Nat) - 1 else low w
      r .fmin = (if rank a ≤ rank b then low a else low b, 0) ∧ r .fmax = (if rank a ≤ rank b then low b else low a, 0))

/-- R97, R281: the relations of FCMP and VFCMP, 0 EQ, 1 LT, 2 LE and 3 UNORD, in which −0 equals +0: LT and LE raise NV for every NaN,
EQ and UNORD for a signalling one. -/
def Sys2Proof.Machine.RelationsHold : Prop :=
  ∀ row ∈ floatLayouts, ∀ a b cc : Nat, cc < 4 →
    let (ty, eb, fb, _) := row
    let va := valueOf ty a
    let vb := valueOf ty b
    let low : Nat → Nat := fun w => w % 2 ^ (1 + eb + fb)
    let order : Nat → Int := fun w => if 2 ^ (eb + fb) ≤ low w then -(low w - 2 ^ (eb + fb) : Nat) else low w
    fpRelation cc va vb = if va.isNan || vb.isNan then
        (cc == 3, if va.isSnan || vb.isSnan || cc == 1 || cc == 2 then NV else 0)
      else (match cc with
        | 0 => order a == order b
        | 1 => decide (order a < order b)
        | 2 => decide (order a ≤ order b)
        | _ => false, 0)

/-- R122: the scale of a block from the largest magnitude among its values, and its elements, which saturate and raise NX alone; a
block with a NaN or an infinity has the scale 0xFF and elements 0, with NV. -/
def Sys2Proof.Machine.BlocksRound : Prop :=
  ∀ row ∈ [(8, (8 : Int)), (9, 15), (10, 2)], let (ty, emax) := row
    let f := fmtOf ty
    (∀ l : List FVal,
      ((∃ v ∈ l, v.special = true) → blockScale ty l = 0xFF) ∧
      ((∀ v ∈ l, v = .zero v.isNeg) → blockScale ty l = 0x7F) ∧
      ∀ k : Int, (∀ v ∈ l, v.special = false ∧ (∀ n e, v ≠ .num n 0 e) ∧ |v.rat| < 2 ^ (k + 1)) → (∃ v ∈ l, 2 ^ k ≤ |v.rat|) →
        (blockScale ty l : Int) = Min.min (Max.max (k - emax + 127) 0) 254) ∧
    ∀ (mode : RMode) (rb s : Nat) (v : FVal), rb < 2 ^ 16 → s ≤ 255 →
      (s = 255 → blockElem ty mode rb s v = (0, if v.special then NV else 0)) ∧
      (s < 255 → (∀ n, v = .zero n → blockElem ty mode rb s v = (f.sign n, 0)) ∧
        (v.special = false → v.rat ≠ 0 →
          ∃ r, RoundsTo f mode rb v.isNeg (|v.rat| / 2 ^ ((s : Int) - 127)) r ∧
            blockElem ty mode rb s v = (if r.2 = OF + NX then f.sign v.isNeg + f.top else r.1, if r.2 = 0 then 0 else NX)))

/-- R283: the functions of one operand: reciprocals and reciprocal roots, rounded once, with their results at zeros, infinities and NaNs;
of the exponential, the logarithm, the sine and the cosine, for FP32, the values at zeros, ones, infinities, NaNs and below zero. -/
def Sys2Proof.Machine.SingleResults (op : LaneFn → Nat → RMode → Nat → Nat → Nat × Nat) : Prop :=
  (∀ row ∈ floatLayouts, ∀ (mode : RMode) (rb a : Nat), rb < 2 ^ 16 → let (ty, _, _, _, infs, top, nan) := row
    let f := fmtOf ty
    let v := valueOf ty a
    let r : LaneFn → Nat × Nat := fun fn => op fn ty mode rb a
    (v.rat ≠ 0 → RoundsTo f mode rb v.isNeg |1 / v.rat| (r .frcp)) ∧
    (0 < v.rat → RootRounds f mode rb (fun z => z ^ 2 * v.rat) (r .frsq)) ∧
    (∀ n, v = .zero n → infs = true → r .frcp = (f.sign n + top + 1, DZ) ∧ r .frsq = (f.sign n + top + 1, DZ)) ∧
    (∀ n, v = .inf n → r .frcp = (f.sign n, 0) ∧ r .frsq = if n then (nan, NV) else (0, 0)) ∧
    (v.rat < 0 → r .frsq = (nan, NV)) ∧
    (v.isNan = true → ∀ fn ∈ [LaneFn.frcp, .frsq], r fn = (nan, if v.isSnan then NV else 0))) ∧
  ∀ (mode : RMode) (rb a : Nat), rb < 2 ^ 16 →
    let v := valueOf 13 a
    let r : LaneFn → Nat × Nat := fun fn => op fn 13 mode rb a
    (∀ n, v = .zero n → r .fexp = (0x3F800000, 0) ∧ r .flog = (0xFF800000, DZ) ∧ r .fsin = (if n then 0x80000000 else 0, 0) ∧
      r .fcos = (0x3F800000, 0)) ∧
    (v.rat = 1 → r .flog = (0, 0)) ∧ (v.rat < 0 → r .flog = (0x7FC00000, NV)) ∧
    (∀ n, v = .inf n → r .fexp = (if n then 0 else 0x7F800000, 0) ∧
      r .flog = (if n then (0x7FC00000, NV) else (0x7F800000, 0)) ∧ r .fsin = (0x7FC00000, NV) ∧ r .fcos = (0x7FC00000, NV)) ∧
    (v.isNan = true → ∀ fn ∈ [LaneFn.fexp, .flog, .fsin, .fcos], r fn = (0x7FC00000, if v.isSnan then NV else 0))

/-- The scalar floating-point rows of two operands, with their functions and the type codes of their banks. -/
def Sys2Proof.Machine.floatRows (d a b : XReg) : List (Instr × LaneFn × Nat) :=
  [(.faddFp64 d a b, .fadd, 14), (.fsubFp64 d a b, .fsub, 14), (.fmulFp64 d a b, .fmul, 14), (.fdivFp64 d a b, .fdiv, 14),
   (.fmaFp64 d a b, .fma, 14), (.fminFp64 d a b, .fmin, 14), (.fmaxFp64 d a b, .fmax, 14),
   (.faddFp32 d a b, .fadd, 13), (.fsubFp32 d a b, .fsub, 13), (.fmulFp32 d a b, .fmul, 13), (.fdivFp32 d a b, .fdiv, 13),
   (.fmaFp32 d a b, .fma, 13), (.fminFp32 d a b, .fmin, 13), (.fmaxFp32 d a b, .fmax, 13)]

/-- The result and flags of a scalar floating-point function of a bank on three words (R265): the low bits of each operand,
rounded once in the mode of FPCTL.RM. -/
def Sys2Proof.Machine.floatResult (h : Hart) (fn : LaneFn) (ty : Nat) (a b d : Word) : Nat × Nat :=
  fpCompute fn ty ty ty (rmodeOf (bits h.fp.ctl.toNat 0 3)) (randomBits h.fp.seed h.fp.ric 0) (a.toNat % 2 ^ typeBits ty)
    (b.toNat % 2 ^ typeBits ty) (d.toNat % 2 ^ typeBits ty)

/-- The state after a scalar floating-point instruction that writes x[d] with flags `f` (R130, R131, R265). -/
def Sys2Proof.Machine.afterFloat (s : State) (d : Nat) (w : Word) (f : Nat) (rounds : Bool) : State :=
  s.modHart fun h =>
    { (h.setX d w).retire 4 with
      fp := { h.fp with flags := h.fp.flags ||| BitVec.ofNat 5 f
                        ric := if rounds && bits h.fp.ctl.toNat 0 3 == 5 then h.fp.ric + 1 else h.fp.ric } }

/-- No raised flag of FPCTL.EN and no non-finite result under NFT (R132). -/
def Sys2Proof.Machine.floatQuiet (h : Hart) (f : Nat) (bad : Bool) : Prop :=
  f &&& bits h.fp.ctl.toNat 3 5 = 0 ∧ (h.fp.ctl.getLsbD 8 = true → bad = false)

/-- From `s` to `t` a scalar floating-point instruction raises FPTRAP at its PC (R132, R221): TINFO0 holds the flags, and NFT in
[5]; every x and k register, FFLAGS, RIC and memory stay. -/
structure Sys2Proof.Machine.FloatTrap (f : Nat) (nft : Bool) (s t : State) : Prop where
  taken : TakesTrap false { code := 0x09, info0 := word (f + if nft then 32 else 0) } s.hart.pc s t
  x : t.hart.x = s.hart.x
  k : t.hart.k = s.hart.k
  fp : t.hart.fp = s.hart.fp
  mem : t.mem = s.mem

/-- What meets an enabled trap (R132): a raised flag of FPCTL.EN, or a non-finite result under NFT. -/
def Sys2Proof.Machine.floatTraps (h : Hart) (f : Nat) (bad : Bool) : Prop :=
  f &&& bits h.fp.ctl.toNat 3 5 ≠ 0 ∨ (h.fp.ctl.getLsbD 8 = true ∧ bad = true)

/-- R117, R118, R126 to R133, R265, R281, R283: the formats, and what conversions, relations, sums, products,
quotients, roots, minima and maxima give: one rounding in the mode, the canonical NaN, and the flags. R130 to R132,
R265: the scalar floating-point instructions of both banks, where no enabled trap arises. R97, R126, R266: conversions
between the bank's type and another, where an i32 result is sign-extended, and comparisons into k registers, where no
enabled trap arises. R97, R132, R265, R266: a raised flag whose trap is enabled, or an infinity or NaN that is produced
under NFT, raises FPTRAP on every scalar floating-point instruction, and x[d], k[d], FFLAGS and RIC stay. The choices
and readings of the model in it: log entry 15. -/
def Obligations.ScalarFloatingResults : Prop :=
  (FormatsDecode ∧ ConversionsRound ∧ RelationsHold ∧
   ArithmeticRounds (fun fn ty mode rb a b c => fpCompute fn ty ty ty mode rb a b c) ∧
   ∀ (s : State) (d a b : XReg), Settled [d.toNat, a.toNat, b.toNat] [] s →
     (∀ row ∈ floatRows d a b,
       let r := floatResult s.hart row.2.1 row.2.2 (s.hart.getX a.toNat) (s.hart.getX b.toNat) (s.hart.getX d.toNat)
       floatQuiet s.hart r.2 (nonFinite row.2.2 r.1) →
       exec row.1 s = .next (afterFloat s d.toNat (word r.1) r.2 (row.2.1 != .fmin && row.2.1 != .fmax))) ∧
     ∀ row ∈ [(Instr.fsqrtFp64 d a, 14), (Instr.fsqrtFp32 d a, 13)],
       let r := floatResult s.hart .fsqrt row.2 (s.hart.getX a.toNat) 0 (s.hart.getX d.toNat)
       floatQuiet s.hart r.2 (nonFinite row.2 r.1) →
       exec row.1 s = .next (afterFloat s d.toNat (word r.1) r.2 true)) ∧
  (∀ (s : State) (d a b : XReg) (c : BitVec 5) (k : KReg) (cc : BitVec 3),
     (∀ row ∈ [(Instr.fcvtFp64 d a c, 14), (Instr.fcvtFp32 d a c, 13)],
       Settled [d.toNat, a.toNat] [] s →
       let src := if c.getLsbD 4 then c.toNat % 16 else row.2
       let dst := if c.getLsbD 4 then row.2 else c.toNat % 16
       let r := convertTo dst (rmodeOf (bits s.hart.fp.ctl.toNat 0 3)) (randomBits s.hart.fp.seed s.hart.fp.ric 0)
         (valueOf src ((s.hart.getX a.toNat).toNat % 2 ^ typeBits src))
       floatQuiet s.hart r.2 (isFloat dst && nonFinite dst r.1) →
       exec row.1 s = .next (afterFloat s d.toNat
         (if dst = 2 then (BitVec.ofNat 32 r.1).signExtend 64 else word r.1) r.2 true)) ∧
     ∀ row ∈ [(Instr.fcmpFp64 k a b cc, 14), (Instr.fcmpFp32 k a b cc, 13)],
       Settled [a.toNat, b.toNat] [k.toNat] s →
       let v : XReg → FVal := fun r => valueOf row.2 ((s.hart.getX r.toNat).toNat % 2 ^ typeBits row.2)
       let r := fpRelation cc.toNat (v a) (v b)
       floatQuiet s.hart r.2 false →
       exec row.1 s = .next (s.modHart fun h =>
         { (h.setK k.toNat r.1).retire 4 with fp := { h.fp with flags := h.fp.flags ||| BitVec.ofNat 5 r.2 } })) ∧
  (∀ (s : State) (d a b : XReg) (c : BitVec 5) (k : KReg) (cc : BitVec 3), CanTrap s →
     let traps : Instr → Nat → Bool → Prop := fun i f bad => floatTraps s.hart f bad →
       ∃ t, exec i s = .next t ∧ FloatTrap f (s.hart.fp.ctl.getLsbD 8 && bad) s t
     (Settled [d.toNat, a.toNat, b.toNat] [] s → ∀ row ∈ floatRows d a b,
       let r := floatResult s.hart row.2.1 row.2.2 (s.hart.getX a.toNat) (s.hart.getX b.toNat) (s.hart.getX d.toNat)
       traps row.1 r.2 (nonFinite row.2.2 r.1)) ∧
     (Settled [d.toNat, a.toNat] [] s → ∀ row ∈ [(Instr.fsqrtFp64 d a, 14), (Instr.fsqrtFp32 d a, 13)],
       let r := floatResult s.hart .fsqrt row.2 (s.hart.getX a.toNat) 0 (s.hart.getX d.toNat)
       traps row.1 r.2 (nonFinite row.2 r.1)) ∧
     (Settled [d.toNat, a.toNat] [] s → ∀ row ∈ [(Instr.fcvtFp64 d a c, 14), (Instr.fcvtFp32 d a c, 13)],
       let src := if c.getLsbD 4 then c.toNat % 16 else row.2
       let dst := if c.getLsbD 4 then row.2 else c.toNat % 16
       let r := convertTo dst (rmodeOf (bits s.hart.fp.ctl.toNat 0 3)) (randomBits s.hart.fp.seed s.hart.fp.ric 0)
         (valueOf src ((s.hart.getX a.toNat).toNat % 2 ^ typeBits src))
       traps row.1 r.2 (isFloat dst && nonFinite dst r.1)) ∧
     (Settled [a.toNat, b.toNat] [k.toNat] s → ∀ row ∈ [(Instr.fcmpFp64 k a b cc, 14), (Instr.fcmpFp32 k a b cc, 13)],
       let v : XReg → FVal := fun r => valueOf row.2 ((s.hart.getX r.toNat).toNat % 2 ^ typeBits row.2)
       traps row.1 (fpRelation cc.toNat (v a) (v b)).2 false))

/-! Conditions and transfers -/

/-- R97: integer comparisons, the logic of k registers, and moves between x and k. -/
def Obligations.ConditionResults : Prop :=
  ∀ (s : State) (k a b : KReg) (d xa xb : XReg) (cc : BitVec 3),
    let put : Bool → Out := fun v => .next (s.modHart fun h => (h.setK k.toNat v).retire 4)
    let p := s.hart.getX xa.toNat
    let q := s.hart.getX xb.toNat
    (Settled [xa.toNat, xb.toNat] [k.toNat] s → cc.toNat < 6 →
      exec (.cmp k xa xb cc) s = put (match cc.toNat with
        | 0 => decide (p = q)
        | 1 => decide (p ≠ q)
        | 2 => decide (p.toInt < q.toInt)
        | 3 => decide (q.toInt ≤ p.toInt)
        | 4 => decide (p.toNat < q.toNat)
        | _ => decide (q.toNat ≤ p.toNat))) ∧
    (Settled [] [k.toNat, a.toNat, b.toNat] s →
      exec (.kand k a b) s = put (s.hart.getK a.toNat && s.hart.getK b.toNat) ∧
      exec (.kor k a b) s = put (s.hart.getK a.toNat || s.hart.getK b.toNat) ∧
      exec (.kxor k a b) s = put (s.hart.getK a.toNat ^^ s.hart.getK b.toNat)) ∧
    (Settled [] [k.toNat, a.toNat] s → exec (.knot k a) s = put (!s.hart.getK a.toNat)) ∧
    (Settled [xa.toNat] [k.toNat] s → exec (.kfromx k xa) s = put (decide (p ≠ 0))) ∧
    (Settled [d.toNat] [k.toNat] s →
      exec (.ktox d k) s = .next (s.modHart fun h =>
        (h.setX d.toNat (if s.hart.getK k.toNat then 1 else 0)).retire 4))

/-- R93 to R95, R42: what the instructions on target registers leave: an address with V = 1 whose prefetch is in flight
into an empty buffer, an address read, or V = 0 with no prefetch and no buffer. R42, R94, R98, R100: a transfer through
a prepared target register whose buffer is ready: PC takes its address and the front the bytes of the buffer up to the
last end of a 64-byte block, or PC the next instruction's address where a branch is not taken; CALL prepares b7 with
the address after it. R98: a transfer through a target register with V = 0 raises UNPREP with the register and its
address, whatever the condition, before it waits for anything. The choices and readings of the model in it: log entry
9. -/
def Obligations.TransferOutcomes : Prop :=
  (∀ (s : State) (bt : BReg) (a d : XReg) (o : BitVec 21) (hi : BitVec 4) (lo : BitVec 6),
     let h := s.hart
     let ready : BitVec 48 → TReg := fun p => { addr := p.extractLsb' 1 47, v := true, pf := 1 }
     exec (.prep bt o) s = .next (s.modHart fun h => (h.setB bt.toNat (ready (h.pc + o.signExtend 48 * 2))).retire 4) ∧
     exec (.prepC hi bt lo) s =
       .next (s.modHart fun h => (h.setB bt.toNat (ready (h.pc + (hi ++ lo).signExtend 48 * 2))).retire 2) ∧
     (Settled [a.toNat] [] s → (h.getX a.toNat).getLsbD 0 = false →
       exec (.prepr bt a) s =
         .next (s.modHart fun h => (h.setB bt.toNat (ready ((h.getX a.toNat).setWidth 48))).retire 4)) ∧
     (Settled [d.toNat] [] s →
       exec (.mvb bt d) s =
         .next (s.modHart fun h => (h.setX d.toNat ((h.getB bt.toNat).addr.zeroExtend 64 <<< 1)).retire 4)) ∧
     exec (.invb bt) s = .next (s.modHart fun h =>
       (h.setB bt.toNat { h.getB bt.toNat with v := false, pf := 0, buf := [], pages := [] }).retire 4)) ∧
  (∀ (s : State) (bt : BReg) (k : KReg),
     let t := s.hart.getB bt.toNat
     let target : BitVec 48 := t.addr.zeroExtend 48 <<< 1
     let whole := t.buf.take ((target.toNat + t.buf.length) / 64 * 64 - target.toNat)
     let lead : Lead := if whole.isEmpty then ⟨0, [], []⟩ else ⟨target, whole, t.pages⟩
     let go : Nat → Out := fun n => .next (s.modHart fun h => { h.retire n with pc := target, lead := lead })
     let past : Nat → Out := fun n => .next (s.modHart fun h => h.retire n)
     t.v = true → t.pf = 2 →
     exec (.jmp bt) s = go 4 ∧ exec (.jmpC bt) s = go 2 ∧
     exec (.call bt) s = .next (s.modHart fun h =>
       { (h.setB 7 { addr := (h.pc + 4).extractLsb' 1 47, v := true, pf := 1 }).retire 4 with pc := target, lead := lead }) ∧
     (Settled [] [k.toNat] s →
       (exec (.br bt k) s = if s.hart.getK k.toNat then go 4 else past 4) ∧
       (exec (.brC bt k) s = if s.hart.getK k.toNat then go 2 else past 2) ∧
       (exec (.brn bt k) s = if s.hart.getK k.toNat then past 4 else go 4) ∧
       (exec (.brnC bt k) s = if s.hart.getK k.toNat then past 2 else go 2))) ∧
  (∀ (s : State) (bt : BReg) (k : KReg), (s.hart.getB bt.toNat).v = false → CanTrap s →
     ∀ i ∈ [Instr.jmp bt, .jmpC bt, .br bt k, .brC bt k, .brn bt k, .brnC bt k, .call bt],
       ∃ t, exec i s = .next t ∧ wbits t.hart.tr.tcause 0 8 = 0x03 ∧ t.hart.tr.tinfo0 = word bt.toNat ∧
         t.hart.tr.tinfo1 = (s.hart.getB bt.toNat).addr.zeroExtend 64 <<< 1 ∧ t.hart.tr.tpc = word s.hart.pc.toNat ∧
         t.hart.pc = BitVec.ofNat 48 s.hart.tr.tbase.toNat ∧ t.hart.tr.sup = true ∧ t.hart.b = s.hart.b)

/-! Exceptions -/

/-- R219, R220: an exception of a user hart with a handler, on the front side and on the vector side: the registers
that it saves and where the hart goes; nothing else of the machine changes. R220, R228, R230, R231: an exception
without a handler (TBASE 0), or inside a handler (LOCK 1 at S), is logged by the front bank of the core with source
0x06 or 0x05 when it holds no record. For a hart of no group it is a fatal error, and the hart stays as it is, with its
vector side stopped at an element-group boundary. For a hart of a group it is a contained error, and no fatal one: the
group is aborted, a pre-emption that it was named for is off, and the hart ends. The choices and readings of the model
in it: log entry 21. -/
def Obligations.ExceptionEntries : Prop :=
  (∀ (s : State) (e : Exc) (resume : BitVec 48), CanTrap s →
     TakesTrap false e s.hart.pc s (trapFront e s) ∧
     TakesTrap true e resume s (takeTrap s.here s.me true resume e s)) ∧
  (∀ (s : State) (e : Exc) (source : Nat), isFerry s.me = false → (s.bank s.here 0).status.getLsbD 63 = false →
     s.hart.tr.tbase = 0 ∧ source = 0x06 ∨
       s.hart.tr.tbase ≠ 0 ∧ s.hart.tr.sup = true ∧ s.hart.tr.tcause.getLsbD 59 = true ∧ source = 0x05 →
     let t := trapFront e s
     wbits (t.bank s.here 0).status 16 8 = source ∧
     (s.hart.id.group = none → t.host.fatal = true ∧ wbits (t.bank s.here 0).status 60 2 = 3 ∧
         t.hart.x = s.hart.x ∧ t.hart.pc = s.hart.pc ∧ t.hart.tr = s.hart.tr ∧ (s.hart.vec.viq = [] → t.hart = s.hart)) ∧
     ∀ (g : Nat) (y : Group), s.hart.id.group = some g → s.group? g = some y →
       t.host.fatal = s.host.fatal ∧ wbits (t.bank s.here 0).status 60 2 = 2 ∧
       (∃ z, t.group? g = some z ∧ z.aborted = true ∧ z.victim = false) ∧
       (y.core.toNat = s.here → s.curHart ∈ y.harts → t.hart.run.running = false))

/-- R38, R47, R220, R221, R225, R245, R246: TRAP, BKPT and a bit pattern that is no instruction raise their exceptions,
TRAP and BKPT to resume after them; a BKPT of a hart that a debug session has claimed stops it with TPC and its PC past
it (R246), and its vector side at an element-group boundary (R226). R39, R85 to R87, R219, R221, R225, R259, R267:
LNGET and FILL on a user hart, and the instructions of S at U, raise PRIV with the encoding and its length, before
every other check. The choices and readings of the model in it: log entry 61. -/
def Obligations.SoftwareAndPrivilegeTraps : Prop :=
  (∀ (s : State) (n : BitVec 6), CanTrap s →
     (∃ t, exec (.trap n) s = .next t ∧
       TakesTrap false { code := 0x15, info0 := n.zeroExtend 64 } (s.hart.pc + 4) (s.modHart Hart.count) t) ∧
     (s.hart.run.claimed = false →
       ∃ t, exec .bkpt s = .next t ∧ TakesTrap false { code := 0x14 } (s.hart.pc + 4) (s.modHart Hart.count) t) ∧
     (s.hart.run.claimed = true →
       exec .bkpt s = .next (((s.modHart fun h =>
         { h.retire 4 with tr := { h.tr with tpc := (h.pc + 4).zeroExtend 64 } }).atStop false).modHart fun h =>
         { h with run := { h.run with stopped := true, wait := none, inval := none, deq := false, why := 14 } })) ∧
     ∃ t, exec .illegalEncoding s = .next t ∧
       TakesTrap false { code := 0x01, info0 := s.input.enc, info1 := s.input.encLen.zeroExtend 64 } s.hart.pc s t) ∧
  (∀ (s : State) (x a d : XReg) (c : BitVec 12), CanTrap s →
     (∀ i ∈ [Instr.lnget d, .fill x a],
       ∃ t, exec i s = .next t ∧
         TakesTrap false { code := 0x02, info0 := word i.encode, info1 := 4 } s.hart.pc s t) ∧
     (s.hart.tr.sup = false →
       ∀ i ∈ [Instr.eret, .halt, .ftload x a] ++
           (if 0x020 ≤ c.toNat ∧ c.toNat ≤ 0x02A ∨ c = 0x060 ∨ c = 0x061 ∨ 0x100 ≤ c.toNat then
             [Instr.crd d c, .crdSync d c, .cwr x c, .cset x c, .cclr x c] else []),
         ∃ t, exec i s = .next t ∧
           TakesTrap false { code := 0x02, info0 := word i.encode, info1 := 4 } s.hart.pc s t))

/-- The hart whose held entries are released (R193, R219, R220, R225, R286), with a TCAUSE whose LOCK is 0: they run before what the VIQ
holds, with a VL of at most the VLMAX in force; an MMA that raised NONFIN runs without NFT where the handler has cleared it;
and the stores that waited for them wait again, those of the handler's own instructions behind them. -/
def Sys2Proof.Machine.Hart.released (h : Hart) (cause : Word) : Hart :=
  let fit : VEntry → VEntry := fun v => { v with vl := Nat.min v.vl (vlMax h.vec.grant (wbits v.vtype 0 4)) }
  let again : List VEntry := match h.vec.held with
    | [] => []
    | v :: rest =>
      (if wbits h.tr.tcause 0 8 = 0x0B ∧ !h.fp.ctl.getLsbD 8 then { v with fpctl := v.fpctl &&& ~~~(1 <<< 8 : Word) }
        else v) :: rest
  { h with
    tr := { h.tr with tcause := cause }
    vec := { h.vec with viq := again.map fit ++ h.vec.viq, held := [] }
    ms := { h.ms with
      stq := h.ms.stq.map fun p =>
        if p.parked then { p with parked := false }
        else if p.after = 0 then p
        else { p with after := p.after + h.vec.held.length } }
    lp := { h.lp with loop := h.lp.loop.map fun l => { l with body := l.body.map fit } } }

/-- R193, R219, R220, R225, R286: ERET at S with the handler's vector instructions complete. The hart takes the
privilege PP and continues at TPC, LOCK is 0, the held entries are released, and nothing else changes. A trap that
cannot be resumed ends the hart. From R220 and R225: a software trap and its return, with nothing in the VIQ and no
store that waits for it, bring the hart back behind the TRAP with its privilege, registers and memory as they were;
only the trap registers and the counts of the hart differ, and the front fetches anew. The choices and readings of the
model in it: log entry 30. -/
def Obligations.ExceptionReturns : Prop :=
  (∀ s : State, isFerry s.me = false → s.hart.tr.sup = true → s.hart.vec.viq = [] →
     (s.hart.tr.tcause.getLsbD 63 = false →
       exec .eret s = .next (s.modHart fun h =>
         let u := h.released (h.tr.tcause &&& ~~~(1 <<< 59 : Word))
         { u with
           pc := BitVec.ofNat 48 h.tr.tpc.toNat
           lead := Lead.none
           tr := { u.tr with sup := h.tr.tcause.getLsbD 60 }
           run := { h.run with retired := h.run.retired + 1, why := 0, atBar := false } })) ∧
     (s.hart.tr.tcause.getLsbD 63 = true → Idle s → incomplete false s = false → incomplete true s = false →
       ∃ t, exec .eret s = .next t ∧ t.hart.run.running = false ∧ t.hart.run.retired = s.hart.run.retired + 1)) ∧
  (∀ (s : State) (n : BitVec 6), CanTrap s → s.hart.vec.viq = [] → s.hart.vec.held = [] → s.hart.lp.loop = none →
     (∀ p ∈ s.hart.ms.stq, p.after = 0 ∧ p.parked = false) →
     ∃ t u, exec (.trap n) s = .next t ∧ exec .eret t = .next u ∧
       u.hart.tr.sup = s.hart.tr.sup ∧ u.hart.tr.tcause.getLsbD 59 = false ∧ u.hart.tr.tbase = s.hart.tr.tbase ∧
       OnlyHart { s.hart with
         pc := s.hart.pc + 4
         lead := Lead.none
         tr := u.hart.tr
         run := { s.hart.run with
           retired := s.hart.run.retired + 2, why := 0, atBar := false, wait := none, inval := none, deq := false } } s u)

/-! System instructions and memory -/

/-- A front access of `n` bytes at `va` reaches the place `p` through a page with leaf `e`, leaving `u`: the address is aligned
and translated, no earlier access of the hart is under way, and the line is not poisoned. -/
structure Sys2Proof.Machine.Reaches (k : Access) (va : Word) (n p : Nat) (e : TlbEntry) (s u : State) : Prop where
  aligned : va.toNat % n = 0
  translated : translate s.ctx k va 0 s = .ok (p, e) u
  viq : s.hart.vec.viq = []
  stq : s.hart.ms.stq = []
  waiting : s.hart.run.wait = none
  clean : poisoned p n s = false

/-- As `Reaches`, for an arena offset (R141): the place is that of the byte of the core's LS. -/
structure Sys2Proof.Machine.ReachesLs (off : Word) (n : Nat) (s : State) : Prop where
  aligned : off.toNat % n = 0
  inside : off.toNat + n ≤ s.arenaSize
  viq : s.hart.vec.viq = []
  stq : s.hart.ms.stq = []
  clean : poisoned (lsPlace s.here (s.arenaBase + off.toNat)) n s = false

/-- A loaded number as x[d] takes it (R268): sizes 0 to 2 are sign-extended. -/
def Sys2Proof.Machine.loaded (z : BitVec 3) (w : Nat) : Word :=
  if z.toNat = 0 then (BitVec.ofNat 8 w).signExtend 64
  else if z.toNat = 1 then (BitVec.ofNat 16 w).signExtend 64
  else if z.toNat = 2 then (BitVec.ofNat 32 w).signExtend 64
  else BitVec.ofNat 64 w

/-- From `u` to `t` the hart that executes becomes `h`, and of memory only the `n` bytes from place `p` change, to those of `w`, the
lowest first (R3, R144). -/
structure Sys2Proof.Machine.Stores (p n : Nat) (w : Word) (h : Hart) (u t : State) : Prop where
  hart : t.hart = h
  bytes : ∀ i, i < n → readPlace t.mem (p + i) = BitVec.ofNat 8 (w.toNat / 256 ^ i)
  elsewhere : ∀ q, q < p ∨ p + n ≤ q → readPlace t.mem q = readPlace u.mem q
  others : ∀ c m, c ≠ u.here ∨ m ≠ u.me → (u.hartAt c m).run.wait = none → t.hartAt c m = u.hartAt c m
  poison : t.poison = u.poison
  wharf : t.wharf = u.wharf
  host : t.host = u.host

/-- R3, R42, R80, R141, R165, R170, R268, R269: loads of every size code: x[d] takes the bytes at the place that the
address reaches, the lowest first, and the page is counted once. LD of x63 reads through the constant cache, which it
fills while there is room (R14, R269), but for a line of HM (R235). R3, R42, R80, R144, R275, R276: stores of every
size code of a hart with nothing in flight, whose stores commit at once: of memory only the bytes at the place change.
Where its commits take turns of their own (log entry 5), the store joins its queue. The choices and readings of the
model in it: log entries 8, 11. -/
def Obligations.LoadStoreResults : Prop :=
  (∀ (s u : State) (d a : XReg) (z : BitVec 3) (imm : BitVec 9) (p : Nat) (e : TlbEntry) (d4 : BitVec 4) (imm5 : BitVec 5),
     let n := 2 ^ (z.toNat % 4)
     let va := s.hart.getX a.toNat + imm.signExtend 64 * BitVec.ofNat 64 n
     let ls : BitVec 64 → Nat := fun off => lsPlace s.here (s.arenaBase + off.toNat)
     (Settled [d.toNat, a.toNat] [] s → Reaches .read va n p e s u →
       (a ≠ 63 → exec (.ld d a z imm) s =
         .next ((countHeat u.here u.hart.tenantNo e u).modHart fun h => (h.setX d.toNat (loaded z (readNat u.mem p n))).retire 4)) ∧
       (a = 63 → p % n = 0 → lookup (u.core s.here).ccache (lineOf p) = none → poisoned (lineOf p) 64 s = false →
         (memoryOf (lineOf p) ≠ 2 → (u.core s.here).ccache.length < 256 → exec (.ld d a z imm) s = .next
           ((countHeat u.here u.hart.tenantNo e (u.modCore u.here fun k =>
               { k with ccache := insert k.ccache (lineOf p) (readPlaces u.mem (lineOf p) 64) })).modHart fun h =>
             (h.setX d.toNat (loaded z (readNat u.mem p n))).retire 4)) ∧
         (memoryOf (lineOf p) = 2 → exec (.ld d a z imm) s = .next
           ((countHeat u.here u.hart.tenantNo e u).modHart fun h =>
             (h.setX d.toNat (loaded z (readNat u.mem p n))).retire 4)))) ∧
     (Settled [d.toNat, a.toNat] [] s → ReachesLs va n s →
       exec (.ldl d a z imm) s =
         .next (s.modHart fun h => (h.setX d.toNat (loaded z (readNat s.mem (ls va) n))).retire 4)) ∧
     (Settled [d4.toNat] [] s → ReachesLs (BitVec.ofNat 64 (8 * imm5.toNat)) 8 s →
       exec (.ldlC d4 imm5) s = .next (s.modHart fun h =>
         (h.setX d4.toNat (BitVec.ofNat 64 (readNat s.mem (ls (BitVec.ofNat 64 (8 * imm5.toNat))) 8))).retire 2))) ∧
  (∀ (s u : State) (x a : XReg) (z : BitVec 3) (imm : BitVec 9) (p : Nat) (e : TlbEntry) (x4 : BitVec 4) (imm5 : BitVec 5),
     let n := 2 ^ (z.toNat % 4)
     let va := s.hart.getX a.toNat + imm.signExtend 64 * BitVec.ofNat 64 n
     let ls : BitVec 64 → Nat := fun off => lsPlace s.here (s.arenaBase + off.toNat)
     let off5 := BitVec.ofNat 64 (8 * imm5.toNat)
     s.Sound →
     (Idle s → s.hart.vec.lag = false → Reaches .write va n p e s u →
       ∃ t, exec (.st x a z imm) s = .next t ∧ Stores p n (s.hart.getX x.toNat) (s.hart.retire 4) u t) ∧
     (Idle s → s.hart.vec.lag = false → s.hart.run.wait = none → va.toNat % n = 0 → va.toNat + n ≤ s.arenaSize →
       ∃ t, exec (.stl x a z imm) s = .next t ∧ Stores (ls va) n (s.hart.getX x.toNat) (s.hart.retire 4) s t) ∧
     (Idle s → s.hart.vec.lag = false → s.hart.run.wait = none → off5.toNat + 8 ≤ s.arenaSize →
       ∃ t, exec (.stlC x4 imm5) s = .next t ∧ Stores (ls off5) 8 (s.hart.getX x4.toNat) (s.hart.retire 2) s t) ∧
     (Idle s → s.hart.vec.lag = true → va.toNat % n = 0 → va.toNat + n ≤ s.arenaSize →
       exec (.stl x a z imm) s = .next (s.modHart fun h =>
         (h.setStq [{ cells := cellsOf (ls va) n (h.getX x.toNat).toNat, scalar := true }]).retire 4)))

/-- The atomic rows with the new value of each, from the old one, x[b] and x[d] (R159). -/
def Sys2Proof.Machine.atomicRows (d a b : XReg) (o : BitVec 2) : List (Instr × (Word → Word → Word → Word)) :=
  [(.amoAdd d a b o, fun v y _ => v + y), (.amoAnd d a b o, fun v y _ => v &&& y), (.amoOr d a b o, fun v y _ => v ||| y),
   (.amoXor d a b o, fun v y _ => v ^^^ y), (.amoMin d a b o, fun v y _ => if v.toInt < y.toInt then v else y),
   (.amoMax d a b o, fun v y _ => if v.toInt < y.toInt then y else v),
   (.amoMinn d a b o, fun v y _ => if v.toNat < y.toNat then v else y),
   (.amoMaxn d a b o, fun v y _ => if v.toNat < y.toNat then y else v), (.amoSwap d a b o, fun _ y _ => y),
   (.amoCas d a b o, fun v y c => if v = c then y else v)]

/-- R53, R80, R159, R256, R276: an atomic operation of a hart with nothing in flight: x[d] takes the old value, the
eight bytes the new one, and no other byte changes. Behind stores of the hart that have not committed it joins them
with its operands, and the front goes on, where it does not release what a trap holds: x[d] is owed, and memory is as
it was. Here on a hart whose vector side follows the front at once (log entry 5). The choices and readings of the model
in it: log entry 73. -/
def Obligations.AtomicResults : Prop :=
  ∀ (s u : State) (d a b : XReg) (o : BitVec 2) (p : Nat) (e : TlbEntry),
    (s.Sound → Idle s → Reaches .amo (s.hart.getX a.toNat) 8 p e s u → ∀ row ∈ atomicRows d a b o,
      let old := BitVec.ofNat 64 (readNat u.mem p 8)
      ∃ t, exec row.1 s = .next t ∧
        Stores p 8 (row.2 old (s.hart.getX b.toNat) (s.hart.getX d.toNat)) ((s.hart.setX d.toNat old).retire 4) u t) ∧
    (s.hart.vec.viq = [] → s.hart.vec.lag = true → s.hart.ms.stq ≠ [] → (o.getLsbD 1 = false ∨ s.hart.vec.held = []) →
      Settled [d.toNat, a.toNat, b.toNat] [] s →
      (s.hart.getX a.toNat).toNat % 8 = 0 → translate s.ctx .amo (s.hart.getX a.toNat) 0 s = .ok (p, e) u →
      ∀ row ∈ atomicRows d a b o, ∃ q : Pending,
        exec row.1 s = .next ((countHeat u.here u.hart.tenantNo e (u.modHart fun h => h.setStq (h.ms.stq ++ [q]))).modHart fun h =>
          h.retire 4) ∧
        (∀ j, (atomicRows d a b o)[j]? = some row →
          q.amo = some ⟨j, d.toNat, s.hart.getX b.toNat, s.hart.getX d.toNat, o.getLsbD 0, s.hart.pc⟩) ∧
        q.holes = [] ∧ q.cells.map (·.place) = (List.range 8).map (p + ·) ∧
        (d ≠ 0 → ((s.hart.setStq (s.hart.ms.stq ++ [q])).retire 4).pendingX d.toNat = true))

/-- R141, R166, R221: a scalar access that is not aligned raises MISALIGN with its address, and an aligned one that
leaves the arena LSBOUND with its offset; a branch target with an odd address is MISALIGN too. -/
def Obligations.AccessTraps : Prop :=
  ∀ (s : State) (d a b : XReg) (bt : BReg) (z : BitVec 3) (imm : BitVec 9) (o : BitVec 2) (d4 : BitVec 4) (imm5 : BitVec 5),
    CanTrap s → Settled [d.toNat, a.toNat, b.toNat, d4.toNat] [] s →
    let n := 2 ^ (z.toNat % 4)
    let va := s.hart.getX a.toNat + imm.signExtend 64 * BitVec.ofNat 64 n
    let raises : Instr → Exc → Prop := fun i e => ∃ t, exec i s = .next t ∧ TakesTrap false e s.hart.pc s t
    (va.toNat % n ≠ 0 → ∀ i ∈ [Instr.ld d a z imm, .st d a z imm, .ldl d a z imm, .stl d a z imm],
      raises i { code := 0x04, info0 := va }) ∧
    ((s.hart.getX a.toNat).toNat % 8 ≠ 0 → ∀ row ∈ atomicRows d a b o,
      raises row.1 { code := 0x04, info0 := s.hart.getX a.toNat }) ∧
    ((s.hart.getX a.toNat).getLsbD 0 = true → raises (.prepr bt a) { code := 0x04, info0 := s.hart.getX a.toNat }) ∧
    (va.toNat % n = 0 → s.arenaSize < va.toNat + n →
      raises (.ldl d a z imm) { code := 0x08, info0 := va } ∧
      raises (.stl d a z imm) { code := 0x08, info0 := va, info1 := 4 }) ∧
    (s.arenaSize < 8 * imm5.toNat + 8 →
      raises (.ldlC d4 imm5) { code := 0x08, info0 := BitVec.ofNat 64 (8 * imm5.toNat) } ∧
      raises (.stlC d4 imm5) { code := 0x08, info0 := BitVec.ofNat 64 (8 * imm5.toNat), info1 := 4 })

/-- R42, R48, R99, R177, R267, R269, R272: NOP and the hints only move past themselves; FENCE, ISYNC and HALT of a hart
with nothing in flight. An acquire and a full fence drop the constant cache of the core; ISYNC also its instruction
cache, and its buffers become stale and what the fronts took from buffers is fetched anew; HALT stops the hart and
makes an interrupt. R178: FENCE at the SYSTEM scope by a hart of a tenant whose policy limits it to PACKAGE sets
FENCEDOWN. R305: WAIT reads its word once: it is done when the word differs from x[b], and else the hart waits on the
line. The choices and readings of the model in it: log entries 8, 60, 67. -/
def Obligations.SystemFenceWaitResults : Prop :=
  (∀ (s : State) (kind : BitVec 2) (scope : BitVec 3),
     exec .nop s = .next (s.modHart fun h => h.retire 4) ∧ exec .hint s = .next (s.modHart fun h => h.retire 4) ∧
     exec .nopC s = .next (s.modHart fun h => h.retire 2) ∧
     exec (.fence kind 0) s = .next (s.modHart fun h => h.retire 4) ∧
     (Idle s → scope ≠ 0 → (scope ≠ 5 ∨ s.hart.id.group = none ∨ s.myTenant.lim = false) →
       ∃ u, OnlyHart s.hart s u ∧ exec (.fence kind scope) s = .next
         ((if kind = 1 then u else u.modCore u.here fun k => { k with ccache := [] }).modHart fun h => h.retire 4)) ∧
     (Idle s → incomplete false s = false →
       ∃ u, OnlyHart s.hart s u ∧ exec .isync s = .next
         ((u.modCore u.here fun k =>
           { k with icache := [], ccache := []
                    harts := mapValues (fun _ h => { h.staleBuffers fun _ => true with lead := Lead.none }) k.harts }).modHart
           fun h => h.retire 4)) ∧
     (Idle s → s.hart.tr.sup = true →
       ∃ u, OnlyHart s.hart s u ∧ exec .halt s = .next
         ((u.modHart fun h =>
           { h.retire 4 with run := { (h.retire 4).run with stopped := true, halted := true, why := 14 } }).modHost
           fun o => { o with irqs := o.irqs ++ [.halt s.curCore s.curHart] }))) ∧
  (∀ (s : State) (kind : BitVec 2), Idle s → s.hart.id.group ≠ none → s.myTenant.lim = true →
     ∃ t, exec (.fence kind 5) s = .next t ∧ (t.tenant s.hart.tenantNo).fenceDown = true ∧ t.hart = s.hart.retire 4 ∧
       t.mem = s.mem ∧ t.poison = s.poison) ∧
  (∀ (s u : State) (a b : XReg) (p : Nat) (e : TlbEntry),
     Settled [a.toNat, b.toNat] [] s → Reaches .read (s.hart.getX a.toNat) 8 p e s u →
     (BitVec.ofNat 64 (readNat u.mem p 8) ≠ s.hart.getX b.toNat →
       exec (.wait a b) s = .next ((countHeat u.here u.hart.tenantNo e u).modHart fun h => h.retire 4)) ∧
     (BitVec.ofNat 64 (readNat u.mem p 8) = s.hart.getX b.toNat →
       ∃ t, exec (.wait a b) s = .next t ∧ t.mem = u.mem ∧ t.poison = u.poison ∧ t.wharf = s.wharf ∧
         t.hart = { s.hart with run := { s.hart.run with
           why := 9, wait := some ⟨s.hart.getX a.toNat, s.hart.getX b.toNat, p, (s.core s.here).cycles, false⟩ } }))

/-! Translation -/

/-- R165, R166: the walk of a 4 KiB page whose three upper entries are pointers: the address reaches the leaf's page,
unless the leaf is not valid, its permission or U bit refuses the access, or it blocks writes. Each entry is read where
it can be reached; a first one behind a link that is down is a contained error (R238, R241). The choices and readings
of the model in it: log entry 89. -/
def Obligations.PageWalk : Prop :=
  ∀ (s : State) (cx : Ctx) (k : Access) (va : BitVec 48) (root : Nat) (q0 q1 q2 leaf : Word),
    let index : Nat → Nat := fun l => bits va.toNat (39 - 9 * l) 9
    let entry : Word → Nat → Nat := fun q l => wbits q 9 2 * 2 ^ 56 + wbits q 16 40 * 4096 + 8 * index l
    let pointer : Word → Prop := fun q =>
      q.getLsbD 0 = true ∧ wbits q 14 2 = 0 ∧ wbits q 1 3 = 0
    let run : Res TlbEntry := walk cx k va.toNat 0 root 1 s [0, 1, 2, 3]
    let allowed : Prop := (match k with
      | .read => leaf.getLsbD 1 = true
      | .write => leaf.getLsbD 2 = true
      | .amo => leaf.getLsbD 1 = true ∧ leaf.getLsbD 2 = true
      | .fetch => leaf.getLsbD 3 = true) ∧ (cx.sup = true ∨ leaf.getLsbD 4 = false)
    let record : Word := BitVec.ofNat 64 (3 + (if k = .write ∨ k = .amo then 4 else 0) + (if k = .fetch then 8 else 0))
    let first : Nat := 2 ^ 56 + root * 4096 + 8 * index 0
    (∀ c, reachable cx.core first s = .contained c s → run = .contained c s) ∧
    (s.Sound → (∀ p ∈ [first, entry q0 1, entry q1 2, entry q2 3], reachable cx.core p s = .ok () s) →
    readNat s.mem first 8 = q0.toNat → pointer q0 →
    readNat s.mem (entry q0 1) 8 = q1.toNat → pointer q1 → readNat s.mem (entry q1 2) 8 = q2.toNat → pointer q2 →
    readNat s.mem (entry q2 3) 8 = leaf.toNat → wbits leaf 14 2 = 0 → wbits leaf 1 3 ≠ 0 → wbits leaf 11 2 = 0 →
    (leaf.getLsbD 0 = false →
      run = .exc { code := 0x05, info0 := va.zeroExtend 64, info1 := record, info2 := leaf } 0 s) ∧
    (leaf.getLsbD 0 = true → ¬ allowed →
      run = .exc { code := 0x06, info0 := va.zeroExtend 64, info1 := record, info2 := leaf } 0 s) ∧
    (leaf.getLsbD 0 = true → allowed → (k = .write ∨ k = .amo) → leaf.getLsbD 7 = true →
      run = .exc { code := 0x07, info0 := va.zeroExtend 64, info1 := record, info2 := leaf } 0 s) ∧
    (leaf.getLsbD 0 = true → allowed → ¬ ((k = .write ∨ k = .amo) ∧ leaf.getLsbD 7 = true) →
      ∃ e t, run = .ok e t ∧ physical e va.toNat = wbits leaf 16 40 * 4096 + va.toNat % 4096 ∧
        e.pte = leaf ||| 0x20 ||| (if k = .write ∨ k = .amo then 0x40 else 0) ∧
        readNat t.mem (entry q2 3) 8 = e.pte.toNat ∧
        ∀ a, a < entry q2 3 ∨ entry q2 3 + 8 ≤ a → readPlace t.mem a = readPlace s.mem a))

/-! Control registers -/

/-- What the control registers of the hart that executes read, by index (R57, R59, R62, R68, R105, R127, R131, R140, R163, R168,
R171, R172, R178, R187, R203, R218, R219, R228, R258 to R260), with no entry held by a trap and no captured loop. -/
def Sys2Proof.Machine.controlReads (s : State) : List (BitVec 12 × Word) :=
  let h := s.hart
  let flag : Bool → Nat → Word := fun b i => if b then BitVec.ofNat 64 (2 ^ i) else 0
  let heat := (s.die (s.here / 24)).heat
  let t := s.tenant (h.id.tenant.toNat % 64)
  let bank := s.bank s.here h.run.mcsel.toNat
  let rs : List (BitVec 12 × Word) :=
    [(0x000, BitVec.ofNat 64 h.vec.vl), (0x001, h.vec.vtype), (0x002, h.vec.mspace.zeroExtend 64), (0x003, 0),
     (0x004, BitVec.ofNat 64 h.vec.grant), (0x005, BitVec.ofNat 64 (32 * h.vec.grant)), (0x008, h.fp.ctl.zeroExtend 64),
     (0x009, h.fp.flags.zeroExtend 64), (0x00A, h.fp.seed), (0x00B, h.fp.ric),
     (0x00C, h.lp.cthr.zeroExtend 64 <<< 16 ||| flag h.lp.det 0), (0x010, h.lp.lcnt), (0x011, h.lp.lbody),
     (0x012, h.lp.llen.zeroExtend 64), (0x013, h.lp.liter)]
  let bs : List (BitVec 12 × Word) :=
    [(0x018, flag h.rc.objV 63 ||| h.rc.objOff.zeroExtend 64),
     (0x019, h.rc.phase.zeroExtend 64 <<< 62 ||| h.rc.rout.zeroExtend 64 <<< 60 ||| flag h.rc.act 59 ||| flag h.rc.stop 58 |||
        h.rc.batch.zeroExtend 64 <<< 48 ||| h.rc.level.zeroExtend 64 <<< 40 ||| h.rc.cells.zeroExtend 64),
     (0x020, h.tr.tpc), (0x021, h.tr.tvcp), (0x022, h.tr.tcause), (0x023, h.tr.tvst), (0x024, h.tr.tinfo0),
     (0x025, h.tr.tinfo1), (0x026, h.tr.tinfo2), (0x027, h.tr.tinfo3), (0x028, h.tr.tbase), (0x029, h.tr.tscr0),
     (0x02A, h.tr.tscr1)]
  let cs : List (BitVec 12 × Word) :=
    [(0x02B, flag h.tr.sup 0), (0x030, BitVec.ofNat 64 (16 * h.id.rank.toNat + s.me)),
     (0x031, BitVec.ofNat 64 (s.here % 24)), (0x032, BitVec.ofNat 64 (s.here / 24)), (0x033, h.id.tenant), (0x034, h.id.launchId),
     (0x035, h.id.idx.getD 0 0), (0x036, h.id.idx.getD 1 0), (0x037, h.id.idx.getD 2 0), (0x038, h.id.idx.getD 3 0),
     (0x039, h.id.idx.getD 4 0), (0x03A, h.id.idx.getD 5 0), (0x03B, h.id.args), (0x040, h.run.cycle), (0x041, h.run.retired),
     (0x050, (lookupD h.tile.amax 0 0).zeroExtend 64), (0x051, (lookupD h.tile.amax 1 0).zeroExtend 64),
     (0x052, (lookupD h.tile.amax 2 0).zeroExtend 64), (0x053, (lookupD h.tile.amax 3 0).zeroExtend 64),
     (0x060, heat.threshold.zeroExtend 64)]
  let ds : List (BitVec 12 × Word) :=
    [(0x061, flag heat.en 63 ||| heat.drops.zeroExtend 64 <<< 32 ||| heat.core.zeroExtend 64 <<< 16 ||| heat.ch.zeroExtend 64),
     (0x100, h.ms.ptbase), (0x101, h.ms.asid.zeroExtend 64), (0x102, 0),
     (0x103, t.acc.zeroExtend 64 <<< 32 ||| flag t.lim 1 ||| flag t.fenceDown 0), (0x104, h.run.mcsel.zeroExtend 64),
     (0x105, bank.status), (0x106, bank.addr), (0x107, bank.misc), (0x108, bank.ctl)]
  rs ++ bs ++ cs ++ ds

/-- No wait of R258 holds, and every index may be used: a running user hart at S with an empty VIQ, no trap's entries and no
captured loop. -/
structure Sys2Proof.Machine.ControlReady (s : State) : Prop where
  user : isFerry s.me = false
  running : s.hart.run.running = true
  sup : s.hart.tr.sup = true
  viq : s.hart.vec.viq = []
  held : s.hart.vec.held = []
  loop : s.hart.lp.loop = none

/-- R41, R59, R62, R187, R197, R203, R258, R259, R260: CRD of any index completes, and gives x[d] what the register of
its index reads; VHWn gives the high-water mark of v[n] in elements of the type of VTYPE; TGRANT the shape, what is
unclaimed of the group's reservation, and the hart's claim; CRD.sync of AMAXn completes and gives AMAXn. The choices
and readings of the model in it: log entry 113. -/
def Obligations.ControlReads : Prop :=
  ∀ (s : State) (d : XReg) (r : VReg), ControlReady s → Settled [d.toNat] [] s →
    let put : Word → Out := fun w => .next (s.modHart fun h => (h.setX d.toNat w).retire 4)
    (∀ c : BitVec 12, ∃ w, exec (.crd d c) s = put w) ∧
    (∀ row ∈ controlReads s, exec (.crd d row.1) s = put row.2) ∧
    (let claim := s.hart.tile.claim.getD ([], [])
      let ga := (s.myGroup.map fun g => g.freeAccs.length).getD 0
      let gt := (s.myGroup.map fun g => g.freeTiles.length).getD 0
      claim.1.length ≤ 8 → claim.2.length ≤ 4 → ga ≤ 4 → gt ≤ 8 →
      ∃ w, exec (.crd d 0x054) s = put w ∧ wbits w 57 7 = 0 ∧ wbits w 48 9 = s.hart.tile.k.toNat ∧
        wbits w 38 10 = s.hart.tile.n.toNat ∧ wbits w 30 8 = s.hart.tile.m.toNat ∧ w.getLsbD 29 = s.hart.tile.crew ∧
        wbits w 23 6 = 0 ∧ wbits w 20 3 = ga ∧ wbits w 16 4 = gt ∧ wbits w 11 5 = 0 ∧ wbits w 8 3 = claim.2.length ∧
        wbits w 4 4 = 0 ∧ wbits w 0 4 = claim.1.length) ∧
    exec (.crd d (0x0C0 + r.zeroExtend 12)) s =
      put (BitVec.ofNat 64
        ((lookupD s.hart.vec.written r.toNat 0 * 8 + typeBits s.hart.ty - 1) / typeBits s.hart.ty)) ∧
    exec (.crdSync d 0x050) s = put ((lookupD s.hart.tile.amax 0 0).zeroExtend 64) ∧
    exec (.crdSync d 0x051) s = put ((lookupD s.hart.tile.amax 1 0).zeroExtend 64) ∧
    exec (.crdSync d 0x052) s = put ((lookupD s.hart.tile.amax 2 0).zeroExtend 64) ∧
    exec (.crdSync d 0x053) s = put ((lookupD s.hart.tile.amax 3 0).zeroExtend 64)

/-- The control registers of a hart that keep every value that their fields hold: index, what they read, and what they become
(R57, R59, R68, R127, R131, R163, R187, R219, R258). -/
def Sys2Proof.Machine.controlWrites : List (BitVec 12 × (Hart → Word) × (Hart → Word → Hart)) :=
  let upTo : Word → Nat → Word := fun w n => w &&& BitVec.ofNat 64 (2 ^ n - 1)
  [(0x000, fun h => BitVec.ofNat 64 h.vec.vl,
      fun h w => { h with vec := { h.vec with vl := Nat.min w.toNat (vlMax h.vec.grant h.ty) } }),
   (0x009, fun h => h.fp.flags.zeroExtend 64, fun h w => { h with fp := { h.fp with flags := w.setWidth 5 } }),
   (0x00A, fun h => h.fp.seed, fun h w => { h with fp := { h.fp with seed := w } }),
   (0x00B, fun h => h.fp.ric, fun h w => { h with fp := { h.fp with ric := w } }),
   (0x010, fun h => h.lp.lcnt, fun h w => { h with lp := { h.lp with lcnt := w } }),
   (0x011, fun h => h.lp.lbody, fun h w => { h with lp := { h.lp with lbody := upTo w 48 &&& ~~~1 } }),
   (0x012, fun h => h.lp.llen.zeroExtend 64, fun h w => { h with lp := { h.lp with llen := w.setWidth 5 } }),
   (0x013, fun h => h.lp.liter, fun h w => { h with lp := { h.lp with liter := w } }),
   (0x020, fun h => h.tr.tpc, fun h w => { h with tr := { h.tr with tpc := upTo w 48 &&& ~~~1 } }),
   (0x028, fun h => h.tr.tbase, fun h w => { h with tr := { h.tr with tbase := upTo w 48 &&& ~~~0x3F } }),
   (0x029, fun h => h.tr.tscr0, fun h w => { h with tr := { h.tr with tscr0 := w } }),
   (0x02A, fun h => h.tr.tscr1, fun h w => { h with tr := { h.tr with tscr1 := w } }),
   (0x050, fun h => (lookupD h.tile.amax 0 0).zeroExtend 64,
      fun h w => { h with tile := { h.tile with amax := insert h.tile.amax 0 (w.setWidth 32) } }),
   (0x051, fun h => (lookupD h.tile.amax 1 0).zeroExtend 64,
      fun h w => { h with tile := { h.tile with amax := insert h.tile.amax 1 (w.setWidth 32) } }),
   (0x052, fun h => (lookupD h.tile.amax 2 0).zeroExtend 64,
      fun h w => { h with tile := { h.tile with amax := insert h.tile.amax 2 (w.setWidth 32) } }),
   (0x053, fun h => (lookupD h.tile.amax 3 0).zeroExtend 64,
      fun h w => { h with tile := { h.tile with amax := insert h.tile.amax 3 (w.setWidth 32) } }),
   (0x100, fun h => h.ms.ptbase,
      fun h w => { h with ms := { h.ms with ptbase := upTo w 52 &&& ~~~0xFFC } }),
   (0x101, fun h => h.ms.asid.zeroExtend 64, fun h w => { h with ms := { h.ms with asid := w.setWidth 16 } })]

/-- R5, R62, R187, R203, R219, R258, R259, R260: CWR writes x[s], CSET sets the bits of x[s] and CCLR clears them, in
the RW fields of a register; res0 bits stay 0, VL is limited by VLMAX, and a read-only register stays as it is. R57,
R127, R140, R184, R219, R220, R221, R228, R258: CWR, CSET and CCLR of the control registers whose writes have limits,
each with the value that the register would take. A type code of 15 and a rounding mode above 5 raise FORMAT; MSPACE
keeps its value for 3 and MCSEL for 4 to 7; CTHR is at most 4,096, and DET changes when the hart has nothing in flight;
TCAUSE takes PP and LOCK only, and a LOCK of 0 releases the held entries; CTL takes THRESH and LOGCE. The choices and
readings of the model in it: log entries 30, 58, 123. -/
def Obligations.ControlWriteResults : Prop :=
  (∀ (s : State) (x : XReg), ControlReady s → Settled [x.toNat] [] s →
     let w := s.hart.getX x.toNat
     (∀ row ∈ controlWrites,
       exec (.cwr x row.1) s = .next (s.modHart fun h => (row.2.2 h w).retire 4) ∧
       exec (.cset x row.1) s = .next (s.modHart fun h => (row.2.2 h (row.2.1 s.hart ||| w)).retire 4) ∧
       exec (.cclr x row.1) s = .next (s.modHart fun h => (row.2.2 h (row.2.1 s.hart &&& ~~~w)).retire 4)) ∧
     let readOnly : BitVec 12 → Prop := fun c => exec (.cwr x c) s = .next (s.modHart fun h => h.retire 4) ∧
       exec (.cset x c) s = .next (s.modHart fun h => h.retire 4) ∧ exec (.cclr x c) s = .next (s.modHart fun h => h.retire 4)
     (∀ r : VReg, readOnly (0x0C0 + r.zeroExtend 12)) ∧
     ∀ c ∈ ([0x003, 0x004, 0x005, 0x018, 0x021, 0x023, 0x024, 0x025, 0x026, 0x027, 0x02B, 0x030, 0x031, 0x032, 0x033, 0x034,
         0x035, 0x036, 0x037, 0x038, 0x039, 0x03A, 0x03B, 0x040, 0x041, 0x054, 0x106, 0x107] : List (BitVec 12)), readOnly c) ∧
  (∀ (s : State) (x : XReg),
     let w := s.hart.getX x.toNat
     let go : (Hart → Hart) → Out := fun f => .next (s.modHart fun h => (f h).retire 4)
     let forms : BitVec 12 → Word → List (Instr × Word) := fun c old =>
       [(.cwr x c, w), (.cset x c, old ||| w), (.cclr x c, old &&& ~~~w)]
     let traps : Instr → Word → Word → Prop := fun i value index => CanTrap s →
       ∃ t, exec i s = .next t ∧ TakesTrap false { code := 0x11, info0 := value, info1 := index } s.hart.pc s t
     (ControlReady s → Settled [x.toNat] [] s →
       (∀ row ∈ forms 0x001 s.hart.vec.vtype,
         (wbits row.2 0 4 ≠ 15 → wbits row.2 8 4 ≠ 15 →
           exec row.1 s = go fun h => { h with vec := { h.vec with vtype := row.2 &&& 0xF1F } }) ∧
         (wbits row.2 0 4 = 15 ∨ wbits row.2 8 4 = 15 → traps row.1 (row.2 &&& 0xF1F) 0x001)) ∧
       (∀ row ∈ forms 0x008 (s.hart.fp.ctl.zeroExtend 64),
         (wbits row.2 0 3 < 6 → exec row.1 s = go fun h => { h with fp := { h.fp with ctl := row.2.setWidth 9 } }) ∧
         (6 ≤ wbits row.2 0 3 → traps row.1 (row.2 &&& 0x1FF) 0x008)) ∧
       (∀ row ∈ forms 0x002 (s.hart.vec.mspace.zeroExtend 64), exec row.1 s =
         (go fun h => if wbits row.2 0 2 = 3 then h else { h with vec := { h.vec with mspace := row.2.setWidth 2 } })) ∧
       (∀ row ∈ forms 0x104 (s.hart.run.mcsel.zeroExtend 64), exec row.1 s =
         (go fun h => if 4 ≤ wbits row.2 0 4 ∧ wbits row.2 0 4 ≤ 7 then h
           else { h with run := { h.run with mcsel := row.2.setWidth 4 } })) ∧
       (∀ row ∈ forms 0x00C (s.hart.lp.cthr.zeroExtend 64 <<< 16 ||| if s.hart.lp.det then 1 else 0),
         (row.2.getLsbD 0 = s.hart.lp.det ∨ Idle s →
           exec row.1 s = go fun h =>
             { h with lp := { h.lp with cthr := BitVec.ofNat 13 (Nat.min (wbits row.2 16 13) 4096), det := row.2.getLsbD 0 } })) ∧
       ∀ row ∈ forms 0x108 (s.bank s.here s.hart.run.mcsel.toNat).ctl, exec row.1 s =
         .next ((s.setBank s.here s.hart.run.mcsel.toNat
           { s.bank s.here s.hart.run.mcsel.toNat with ctl := row.2 &&& 0xFFFF0001 }).modHart fun h => h.retire 4)) ∧
     (isFerry s.me = false → s.hart.tr.sup = true → Settled [x.toNat] [] s →
       ∀ row ∈ forms 0x022 s.hart.tr.tcause, ∃ cause : Word,
         exec row.1 s = (go fun h => if row.2.getLsbD 59 then { h with tr := { h.tr with tcause := cause } } else h.released cause) ∧
         wbits cause 60 2 = (if wbits row.2 60 2 = 0 then 0 else 1) ∧ cause.getLsbD 59 = row.2.getLsbD 59 ∧
         wbits cause 62 2 = wbits s.hart.tr.tcause 62 2 ∧ wbits cause 0 59 = wbits s.hart.tr.tcause 0 59))

/-- R105, R163, R168, R171, R172, R178, R228, R258, R269: writes with an effect beyond the hart. TLBINV of a hart with
nothing in flight removes entries from every TLB of the package, by its kind, and completes when no access of a hart
holds a page that it invalidated; RSTAT.STOP abandons a stopped recursion; STATUS takes CECNT, and its V clears OVER,
CLASS, AV, MV and SYNDROME with it, while SOURCE stays; HEATTH and NOTECH belong to the die; FENCEDOWN to the tenant.
CSET and CCLR write the fields as CWR does, and clear a W1C bit as CWR does or not at all. The rows of the table with a
value of their own do the same. The choices and readings of the model in it: log entries 12, 67, 113, 117. -/
def Obligations.ControlEffects : Prop :=
  ∀ (s : State) (x : XReg), ControlReady s → Settled [x.toNat] [] s →
    let w := s.hart.getX x.toNat
    let retired : State → State := fun t => t.modHart fun h => h.retire 4
    let forms : BitVec 12 → Word → List (Instr × Word × Word) := fun c old =>
      [(.cwr x c, w, w), (.cset x c, old ||| w, w), (.cclr x c, old &&& ~~~w, 0)]
    let hit : Nat → BitVec 16 → Nat → TlbEntry → Bool := fun kind asid va e => match kind with
      | 0 => (e.asid == asid || e.pte.getLsbD 13) && va / 2 ^ e.bits * 2 ^ e.bits == e.base
      | 1 => e.asid == asid && !e.pte.getLsbD 13
      | 2 => !e.pte.getLsbD 13
      | _ => true
    let removes : Nat → BitVec 16 → Nat → Instr → Prop := fun kind asid va i =>
      (s.hart.run.inval = none → Idle s → ∃ t, exec i s = .next t ∧ t.mem = s.mem ∧ t.hart.x = s.hart.x ∧
        (∀ c, (t.core c).tlb = (s.core c).tlb.filter (fun e => !hit kind asid va e) ∧ (t.core c).ccache = []) ∧
        (∀ d, (t.die d).tlb = (s.die d).tlb.filter fun e => !hit kind asid va e) ∧
        (pinnedStill ⟨kind, asid, va, s.inval⟩ s = false → t.hart.pc = s.hart.pc + 4 ∧ t.hart.run.inval = none) ∧
        (pinnedStill ⟨kind, asid, va, s.inval⟩ s = true →
          t.hart.pc = s.hart.pc ∧ t.hart.run.inval = some ⟨kind, asid, va, s.inval⟩)) ∧
      ∀ q, s.hart.run.inval = some q → pinnedStill q s = false →
        exec i s = .next (s.modHart fun h => { h.retire 4 with run := { (h.retire 4).run with inval := none } })
    let va := s.input.va.toNat * 4096
    removes (wbits w 0 2) (w.extractLsb' 48 16) (wbits w 12 36 * 4096) (.cwr x 0x102) ∧
    removes 0 s.input.asid va .tlbinvVa ∧ removes 1 s.input.asid va .tlbinvAsid ∧
    removes 2 s.input.asid va .tlbinvAllNonglobal ∧ removes 3 s.input.asid va .tlbinvAll ∧
    (s.hart.rc.stop = true →
      let abandoned := retired (s.modHart fun h =>
        { h with rc := { h.rc with stop := false, phase := 0, pontoon := none } })
      exec .rstatStopClear s = .next abandoned ∧
      ∀ row ∈ forms 0x019 0, exec row.1 s = .next (if row.2.2.getLsbD 58 then abandoned else retired s)) ∧
    (let b := s.hart.run.mcsel.toNat
      let old := s.bank s.here b
      let writes : Instr → Word → Bool → Prop := fun i v clear => ∃ t, exec i s = .next t ∧ t.hart = s.hart.retire 4 ∧
        t.mem = s.mem ∧ t.host = s.host ∧
        let q := t.bank s.here b
        q.addr = old.addr ∧ q.misc = old.misc ∧ q.ctl = old.ctl ∧ wbits q.status 32 16 = wbits v 32 16 ∧
        (if clear then wbits q.status 48 16 = 0 ∧ wbits q.status 24 8 = 0 ∧ wbits q.status 16 8 = wbits old.status 16 8 ∧ wbits q.status 0 16 = 0
          else wbits q.status 48 16 = wbits old.status 48 16 ∧ wbits q.status 0 32 = wbits old.status 0 32)
      writes .mcStatusClear s.input.value true ∧
      ∀ row ∈ forms 0x105 old.status, writes row.1 row.2.1 (row.2.2.getLsbD 63)) ∧
    (let old := (s.die (s.here / 24)).heat
      let writes : Instr → Word → Prop := fun i v => ∃ t, exec i s = .next t ∧ t.hart = s.hart.retire 4 ∧ t.mem = s.mem ∧
        let q := (t.die (s.here / 24)).heat
        q.en = v.getLsbD 63 ∧ q.drops = v.extractLsb' 32 16 ∧ q.core = v.extractLsb' 16 5 ∧ q.ch = v.setWidth 4 ∧
        q.threshold = old.threshold ∧ (q.en = false → q.waiting = []) ∧ (q.en = true → q.waiting = old.waiting)
      writes .notechWrite s.input.value ∧
      (∀ row ∈ forms 0x061 ((if old.en then BitVec.ofNat 64 (2 ^ 63) else 0) ||| old.drops.zeroExtend 64 <<< 32 |||
        old.core.zeroExtend 64 <<< 16 ||| old.ch.zeroExtend 64), writes row.1 row.2.1) ∧
      ∀ row ∈ forms 0x060 (old.threshold.zeroExtend 64), exec row.1 s = .next (retired (s.modDie (s.here / 24) fun d =>
        { d with heat := { d.heat with threshold := if wbits row.2.1 0 16 = 0 then 1 else row.2.1.setWidth 16 } }))) ∧
    ∀ row ∈ forms 0x103 0, exec row.1 s = .next (if row.2.2.getLsbD 0 then retired
      (s.modTenant (s.hart.id.tenant.toNat % 64) fun t => { t with fenceDown := false }) else retired s)

/-! Engine words, streams and channels -/

/-- R154, R155, R157, R264: the first word of a command joins no other, of a hart with nothing in flight, and that of a
copy command fixes its translation context and its place among the commands of the core; a second and a third word join
it. R154, R155, R156, R158, R239, R264: the fourth word makes a command whole. A copy command enters the FIFO of the
core behind the commands there, or, when its length is 0, posts the token 0x0F with its tag; a collective command goes
to the engine of the die, and one of no length or of no kind is answered with that token at once. R154, R176, R247,
R262, R269: DEQ and DEQT of the copy unit and of the collective unit pop the oldest token, an acquire, once no earlier
AMO that acquires is left (note 4 of R176). With no token DEQT writes 0. DEQ waits for a token that a command of the
hart with TOK = 1 owes; with commands incomplete and no token owed it waits until every one of them has completed, and
pops only then; with none it raises ENGINE reason 21. The choices and readings of the model in it: log entries 42, 43,
47. -/
def Obligations.CommandAndTokenResults : Prop :=
  (∀ (s : State) (a : XReg), isFerry s.me = false → Settled [a.toNat] [] s →
     let w := s.hart.getX a.toNat
     (Idle s → s.hart.ms.copyWords = [] → (s.core s.here).copyFifo.length < 16 →
       ∃ t, exec (.enq a 0) s = .next t ∧ t.mem = s.mem ∧ (t.core s.here).copyFifo = (s.core s.here).copyFifo ∧
         (t.core s.here).copyCount = (s.core s.here).copyCount + 1 ∧
         t.hart = { s.hart.retire 4 with ms := { s.hart.ms with
           copyWords := [w]
           copyCtx := (s.hart.ms.ptbase, s.hart.ms.asid, s.hart.tr.sup)
           copyOrder := (s.core s.here).copyCount } }) ∧
     (s.hart.ms.copyWords ≠ [] → s.hart.ms.copyWords.length < 3 → (s.core s.here).copyFifo.length < 16 →
       exec (.enq a 0) s = .next (s.modHart fun h =>
         { h.retire 4 with ms := { h.ms with copyWords := h.ms.copyWords ++ [w] } })) ∧
     (s.hart.ms.collWords ≠ [] → s.hart.ms.collWords.length < 3 →
       ((s.die (s.here / 24)).coll.filter fun q => q.core == s.curCore && !q.answered).length < 16 →
       exec (.enq a 1) s = .next (s.modHart fun h =>
         { h.retire 4 with ms := { h.ms with collWords := h.ms.collWords ++ [w] } })) ∧
     (Idle s → s.hart.ms.collWords = [] →
       ((s.die (s.here / 24)).coll.filter fun q => q.core == s.curCore && !q.answered).length < 16 →
       exec (.enq a 1) s = .next (s.modHart fun h => { h.retire 4 with ms := { h.ms with collWords := [w] } }))) ∧
  (∀ (s : State) (a : XReg) (w0 w1 w2 : Word), isFerry s.me = false → Settled [a.toNat] [] s →
     let w3 := s.hart.getX a.toNat
     (s.hart.ms.copyWords = [w0, w1, w2] → (s.core s.here).copyFifo.length < 16 →
       (wbits w0 0 2 < 2 → wbits w0 2 2 = 0 → wbits w0 4 2 < 3 → wbits w0 6 2 < 3 → wbits w0 17 47 = 0 → w3 ≠ 0 →
         w3.toNat < 2 ^ 40 →
         ∃ t, exec (.enq a 0) s = .next t ∧ t.mem = s.mem ∧ t.hart.ms.copyWords = [] ∧ t.hart.ms.copyTokens = s.hart.ms.copyTokens ∧
           t.hart.pc = s.hart.pc + 4 ∧
           (t.core s.here).copyFifo = (s.core s.here).copyFifo ++
             [⟨[w0, w1, w2, w3], s.curHart, s.hart.id.group.getD 0, s.hart.ms.copyCtx.1, s.hart.ms.copyCtx.2.1,
               s.hart.ms.copyCtx.2.2, false, s.hart.ms.copyOrder, s.hart.id.tenant.setWidth 6⟩]) ∧
       (w3 = 0 →
         ∃ t, exec (.enq a 0) s = .next t ∧ t.mem = s.mem ∧ t.hart.ms.copyWords = [] ∧
           (t.core s.here).copyFifo = (s.core s.here).copyFifo ∧
           t.hart.ms.copyTokens = s.hart.ms.copyTokens ++ [BitVec.ofNat 64 (0x0F + wbits w0 8 8 * 256)])) ∧
     (s.hart.ms.collWords = [w0, w1, w2] →
       ((s.die (s.here / 24)).coll.filter fun q => q.core == s.curCore && !q.answered).length < 16 →
       ∃ t answered, exec (.enq a 1) s = .next t ∧ t.mem = s.mem ∧ t.hart.ms.collWords = [] ∧ t.hart.pc = s.hart.pc + 4 ∧
         (t.die (s.here / 24)).coll = (s.die (s.here / 24)).coll ++
           [⟨[w0, w1, w2, w3], s.curCore, s.curHart, s.hart.id.group.getD 0, s.hart.ms.ptbase, s.hart.ms.asid, s.hart.tr.sup,
             false, answered, s.hart.id.tenant.setWidth 6⟩] ∧
         (wbits w0 2 3 ≤ 5 → wbits w0 5 3 = 0 → wbits w0 17 3 = 0 → wbits w0 20 4 ∈ [2, 3, 6, 7, 13, 14] → wbits w0 30 2 = 0 →
           wbits w0 32 8 < 4 * (wbits w0 24 6 + 1) → wbits w0 40 24 = 0 → (wbits w0 2 3 < 3 ∨ wbits w0 20 4 < 8) →
           w3 ≠ 0 → w3.toNat < 2 ^ 32 → answered = false ∧ t.hart.ms.collTokens = s.hart.ms.collTokens) ∧
         (w3 = 0 ∨ 5 < wbits w0 2 3 → answered = true ∧
           t.hart.ms.collTokens = s.hart.ms.collTokens ++ [BitVec.ofNat 64 (0x0F + wbits w0 8 8 * 256)]))) ∧
  (∀ (s : State) (d : XReg), isFerry s.me = false → Settled [d.toNat] [] s → ∀ c : Bool,
     let unit : BitVec 4 := if c then 1 else 0
     let tokens : Hart → List Word := fun h => if c then h.ms.collTokens else h.ms.copyTokens
     let keep : List Word → MemState → MemState := fun l m => if c then { m with collTokens := l } else { m with copyTokens := l }
     let due : (List Word → Bool) → Bool := fun p =>
       if c then (s.die (s.here / 24)).coll.any fun q => q.core == s.curCore && q.hart == s.curHart && !q.answered && p q.words
       else (s.core s.here).copyFifo.any fun q => q.hart == s.curHart && p q.words
     let incomplete := due fun _ => true
     let owed := due fun words => (words.getD 0 0).getLsbD 16
     let waits : Instr → BitVec 4 → Bool → Prop := fun i why deq =>
       exec i s = .next (s.modHart fun h => { h with run := { h.run with why := why, deq := deq } })
     (s.hart.ms.stq.any (fun p => p.amo.any (·.acquires)) = true →
       waits (.deq d unit) 7 s.hart.run.deq ∧ waits (.deqt d unit) 7 s.hart.run.deq) ∧
     (s.hart.ms.stq.any (fun p => p.amo.any (·.acquires)) = false →
       (∀ w rest, tokens s.hart = w :: rest →
         (s.hart.run.deq = false ∨ incomplete = false →
           exec (.deq d unit) s = .next (((s.modHart fun h =>
             { (h.setX d.toNat w).retire 4 with ms := keep rest h.ms }).modCore s.here fun k => { k with ccache := [] }).modHart fun h =>
               { h with run := { h.run with deq := false } })) ∧
         ∃ t, exec (.deqt d unit) s = .next t ∧ t.hart.getX d.toNat = (if d = 0 then 0 else w) ∧ t.hart.getK 0 = true ∧
           t.hart.ms = keep rest s.hart.ms ∧ (t.core s.here).ccache = [] ∧ (∀ r, r ≠ d.toNat → t.hart.getX r = s.hart.getX r) ∧
           (∀ k, k ≠ 0 → t.hart.getK k = s.hart.getK k) ∧ t.hart.pc = s.hart.pc + 4 ∧ t.mem = s.mem) ∧
       (s.hart.run.deq = true → incomplete = true → waits (.deq d unit) 8 true) ∧
       (tokens s.hart = [] →
         (∃ t, exec (.deqt d unit) s = .next t ∧ t.hart.getX d.toNat = 0 ∧ t.hart.getK 0 = false ∧
           (∀ r, r ≠ d.toNat → t.hart.getX r = s.hart.getX r) ∧ (∀ k, k ≠ 0 → t.hart.getK k = s.hart.getK k) ∧
           t.hart.pc = s.hart.pc + 4 ∧ t.mem = s.mem) ∧
         (owed = true → waits (.deq d unit) 8 s.hart.run.deq) ∧
         (owed = false → incomplete = true → waits (.deq d unit) 8 true) ∧
         (incomplete = false → CanTrap s →
           ∃ t, exec (.deq d unit) s = .next t ∧ TakesTrap false { code := 0x0F, info2 := 21 } s.hart.pc s t))))

/-- R152, R153, R261: CHDEF of a channel that nobody uses makes an empty ring of NSLOT slots at BASE. R152, R153, R261,
R269, R276: CHPUT, PEEK, TAKE, GET and TAIL on a channel of the hart's group. CHPUT of a hart with nothing in flight
writes word 0 of the tail slot and fills it; PEEK gives the offset of the head slot, TAKE frees it too, GET reads its
word 0 and frees it; TAIL reserves the tail slot. With no filled slot, GET, PEEK and TAKE wait. CHGET takes the
operation from x[a]. Here on a hart whose vector side follows the front at once (log entry 5). -/
def Obligations.ChannelBehaviour : Prop :=
  (∀ (s : State) (a : XReg) (n : BitVec 4), isFerry s.me = false → Settled [a.toNat] [] s →
     let w := s.hart.getX a.toNat
     let slot := 2 ^ (wbits w 40 4 + 6)
     let slots := wbits w 32 8 + 1
     lookup (s.core s.here).channels n.toNat = none → 1 < slots → wbits w 40 4 ≤ 10 → wbits w 44 20 = 0 →
     wbits w 0 32 % slot = 0 → wbits w 0 32 + slots * slot ≤ s.arenaSize →
     let ch : Channel :=
       { group := s.hart.id.group.getD 0, base := wbits w 0 32, nslot := slots, sz := wbits w 40 4, filled := 0, free := slots,
         head := 0, tail := 0, marks := [], resv := [] }
     exec (.chdef a n) s =
       .next ((s.modCore s.here fun k => { k with channels := insert k.channels n.toNat ch }).modHart fun h => h.retire 4)) ∧
  (∀ (s : State) (d a : XReg) (n : BitVec 4) (ch : Channel), isFerry s.me = false → Settled [d.toNat, a.toNat] [] s →
     lookup (s.core s.here).channels n.toNat = some ch → s.hart.id.group = some ch.group →
     let base : Nat → Nat := fun slot => ch.base + slot * 2 ^ (ch.sz + 6)
     let after : Channel → State → Prop := fun c t =>
       lookup (t.core s.here).channels n.toNat = some c ∧
       ∀ m, m ≠ n.toNat → lookup (t.core s.here).channels m = lookup (s.core s.here).channels m
     let gives : Word → Channel → State → Prop := fun w c t =>
       t.hart = (s.hart.setX d.toNat w).retire 4 ∧ t.mem = s.mem ∧ after c t
     let taken : Channel := { ch with
       filled := ch.filled - 1, free := ch.free + 1, head := (ch.head + 1) % ch.nslot
       marks := ch.marks.filter fun m => m != ch.head }
     let op : Nat → Instr → State → Prop := fun k i s' =>
       (s' = s ∧ i = .chgetGet d a n ∧ wbits (s.hart.getX a.toNat) 0 2 = k) ∨
       (s' = { s with input := { s.input with d := d, a := a, n := n } } ∧
         (i = .chgetPeek ∧ k = 1 ∨ i = .chgetTake ∧ k = 2 ∨ i = .chgetTail ∧ k = 3))
     (Idle s → s.hart.vec.lag = false → s.hart.run.wait = none → s.Sound → ch.resv = [] → 0 < ch.free →
       base ch.tail + 8 ≤ s.arenaSize → base ch.tail + 8 ≤ 2 ^ 64 →
       ∃ t, exec (.chput a n) s = .next t ∧ t.hart = s.hart.retire 4 ∧
         readNat t.mem (lsPlace s.here (s.arenaBase + base ch.tail)) 8 = (s.hart.getX a.toNat).toNat ∧
         (∀ q, q < lsPlace s.here (s.arenaBase + base ch.tail) ∨ lsPlace s.here (s.arenaBase + base ch.tail) + 8 ≤ q →
           readPlace t.mem q = readPlace s.mem q) ∧
         after { ch with filled := ch.filled + 1, free := ch.free - 1, tail := (ch.tail + 1) % ch.nslot
                         marks := ch.tail :: ch.marks } t) ∧
     (s.hart.vec.viq = [] → s.hart.ms.stq = [] → ch.head ∈ ch.marks → ∀ i s',
       (op 1 i s' → ∃ t, exec i s' = .next t ∧ gives (BitVec.ofNat 64 (base ch.head)) ch t) ∧
       (op 2 i s' → base ch.head + 2 ^ (ch.sz + 6) ≤ s.arenaSize → base ch.head + 2 ^ (ch.sz + 6) ≤ 2 ^ 64 →
         ∃ t, exec i s' = .next t ∧ gives (BitVec.ofNat 64 (base ch.head)) taken t) ∧
       (op 0 i s' → base ch.head + 2 ^ (ch.sz + 6) ≤ s.arenaSize → base ch.head + 2 ^ (ch.sz + 6) ≤ 2 ^ 64 →
         poisoned (lsPlace s.here (s.arenaBase + base ch.head)) 8 s = false →
         ∃ t, exec i s' = .next t ∧
           gives (BitVec.ofNat 64 (readNat s.mem (lsPlace s.here (s.arenaBase + base ch.head)) 8)) taken t)) ∧
     (s.hart.vec.viq = [] → ch.resv = [] → 0 < ch.free → ∀ i s', op 3 i s' →
       ∃ t, exec i s' = .next t ∧ gives (BitVec.ofNat 64 (base ch.tail))
         { ch with free := ch.free - 1, tail := (ch.tail + 1) % ch.nslot, resv := [(ch.tail, s.curHart)] } t) ∧
     (ch.head ∉ ch.marks → ∀ i s', op 0 i s' ∨ op 1 i s' ∨ op 2 i s' →
       ∃ t, exec i s' = .next t ∧ t.hart.pc = s.hart.pc ∧ t.hart.run.why = 8 ∧ t.hart.x = s.hart.x ∧ t.mem = s.mem ∧ after ch t))

/-! Recursion at the front -/

/-- R102, R107, R108, R111: RDEF of a legal object outside a batch keeps its offset and fields; RRUN without an object
raises ENGINE reason 5, and with field a = 0 and nothing to resume reason 6. R103, R108, R109, R112: RRUN starts a
recursion: the root cell takes a header of 0, the frame at offset x[a] and a result of 0, the Pontoon is taken, and the
root cell is cleared before the frame is copied; the divide batch of the root begins at the routine's address with VL
1, 64-bit elements and m7 on its element. Here on a hart whose vector side follows the front at once (log entry 5). The
choices and readings of the model in it: log entries 16, 17, 18. -/
def Obligations.RecursionStartResults : Prop :=
  (∀ (s : State) (a : XReg), isFerry s.me = false → Settled [a.toNat] [] s → s.hart.rc.act = false →
     let off := s.hart.getX a.toNat
     let p := lsPlace s.here (s.arenaBase + off.toNat)
     let at' : Nat → Nat → Nat := fun i k => readNat s.mem (p + i) k
     let even : Nat → Prop := fun w => w % 2 = 0
     let size : Nat → Prop := fun n => 8 ≤ n ∧ n ≤ 256 ∧ n % 8 = 0
     (ReachesLs off 64 s → s.hart.rc.stop = false → at' 6 2 = 0 → even (at' 0 6) → even (at' 8 4) → even (at' 12 4) →
       even (at' 16 4) → size (at' 20 2) → size (at' 22 2) → 1 ≤ at' 24 1 → at' 24 1 ≤ 8 → 1 ≤ at' 25 1 → 1 ≤ at' 26 2 →
       at' 26 2 ≤ 512 → at' 28 4 % 8 = 0 → at' 32 4 % 8 = 0 → at' 36 28 = 0 → at' 28 4 + at' 32 4 ≤ s.arenaSize →
       off.toNat < 2 ^ 22 →
       exec (.rdef a) s = .next (s.modHart fun h =>
         { h.retire 4 with rc := { h.rc with
           objV := true
           objOff := off.setWidth 22
           obj := some
             { codeBase := at' 0 6, divOff := signedOf 32 (at' 8 4), baseOff := signedOf 32 (at' 12 4)
               combOff := signedOf 32 (at' 16 4), frame := at' 20 2, result := at' 22 2, fanout := at' 24 1
               depth := at' 25 1, cap := at' 26 2, arena := at' 28 4, asize := at' 32 4 } } })) ∧
     (s.hart.vec.viq = [] → s.hart.rc.pontoon = none → CanTrap s →
       (a = 0 → ∃ t, exec (.rrun a) s = .next t ∧ TakesTrap false { code := 0x0F, info2 := 6 } s.hart.pc s t) ∧
       (a ≠ 0 → s.hart.rc.objV = false →
         ∃ t, exec (.rrun a) s = .next t ∧ TakesTrap false { code := 0x0F, info2 := 5 } s.hart.pc s t))) ∧
  (∀ (s : State) (a : XReg) (o : RObj), Idle s → Settled [a.toNat] [] s → s.hart.vec.lag = false → s.hart.run.wait = none →
     s.Sound → a ≠ 0 → s.hart.rc.act = false → s.hart.rc.stop = false → s.hart.rc.pontoon = none → s.hart.rc.objV = true →
     s.hart.rc.obj = some o → o.cap ≤ 4 * s.hart.vec.grant → 8 + o.frame + o.result ≤ o.asize →
     o.arena + o.asize ≤ s.arenaSize → (s.hart.getX a.toNat).toNat + o.frame ≤ s.arenaSize →
     poisoned (lsPlace s.here (s.arenaBase + (s.hart.getX a.toNat).toNat)) o.frame s = false →
     (s.core s.here).pontoonOwner = none →
     let ls : Nat → Nat := fun off => lsPlace s.here (s.arenaBase + off)
     ∃ t, exec (.rrun a) s = .next t ∧
       t.hart.pc = BitVec.ofInt 48 ((o.codeBase : Int) + o.divOff) ∧ t.hart.vec.vl = 1 ∧ t.hart.vec.vtype = 3 ∧
       t.hart.getM 7 = 1 ∧ t.hart.x = s.hart.x ∧ t.hart.rc.act = true ∧ t.hart.rc.phase = 1 ∧ t.hart.rc.rout = 0 ∧
       t.hart.rc.batch = 1 ∧ t.hart.rc.cells = 1 ∧ (t.core s.here).pontoonOwner = some s.curHart ∧
       (∀ i, i < 8 → readPlace t.mem (ls o.arena + i) = 0) ∧
       (∀ i, i < o.frame →
         let q := ls (s.hart.getX a.toNat).toNat + i
         readPlace t.mem (ls o.arena + 8 + i) =
           if ls o.arena ≤ q ∧ q < ls o.arena + 8 + o.frame + o.result then 0 else readPlace s.mem q) ∧
       (∀ i, i < o.result → readPlace t.mem (ls o.arena + 8 + o.frame + i) = 0) ∧
       ∀ q, q < ls o.arena ∨ ls o.arena + 8 + o.frame + o.result ≤ q → readPlace t.mem q = readPlace s.mem q)

/-! Lanes, forks and loops -/

/-- R57, R58, R221: VSETL sets the types and the strip, VL = min(x[a], VLMAX), which x[d] receives; a type code of 15
raises FORMAT. R61, R289: VGRANT of a hart with nothing in flight takes as many lanes of the pool as it can, or gives
lanes back; VL is 0 and every vector register reads zero. -/
def Obligations.StripAndGrantResults : Prop :=
  (∀ (s : State) (d a : XReg) (t2 ty : BitVec 4) (sc : BitVec 1), isFerry s.me = false → Settled [d.toNat, a.toNat] [] s →
     let vt : Word := t2.zeroExtend 64 <<< 8 ||| sc.zeroExtend 64 <<< 4 ||| ty.zeroExtend 64
     let vl := Nat.min (s.hart.getX a.toNat).toNat (256 * s.hart.vec.grant / typeBits ty.toNat)
     (t2 ≠ 15 → ty ≠ 15 →
       exec (.vsetl d a t2 sc ty) s = .next (s.modHart fun h =>
         ({ h with vec := { h.vec with vtype := vt, vl := vl } }.setX d.toNat (BitVec.ofNat 64 vl)).retire 4)) ∧
     (t2 = 15 ∨ ty = 15 → CanTrap s →
       ∃ t, exec (.vsetl d a t2 sc ty) s = .next t ∧
         TakesTrap false { code := 0x11, info0 := vt, info1 := 0x001 } s.hart.pc s t)) ∧
  (∀ (s : State) (d a : XReg), Idle s → s.hart.rc.act = false → s.hart.ms.window = none → s.hart.lp.loop = none →
     let want := Nat.min (Nat.max (s.hart.getX a.toNat).toNat 1) 64
     let pool := (s.core s.here).pool
     let g := if want < s.hart.vec.grant then want else s.hart.vec.grant + Nat.min (want - s.hart.vec.grant) pool
     ∃ t, exec (.vgrant d a) s = .next t ∧ t.mem = s.mem ∧ (t.core s.here).pool = pool + s.hart.vec.grant - g ∧
       t.hart = ({ s.hart with vec := { s.hart.vec with v := [], side := [], written := [], grant := g, vl := 0 } }.setX d.toNat
         (BitVec.ofNat 64 g)).retire 4)

/-- R63, R203, R286: VFORK starts the lowest free hart `n` of the group, with the lowest free rank `r`, at the target:
it has the parent's registers with x[d] = 0 and half of its lanes, and the parent gets the child's HARTID and keeps the
other lanes and what they hold; a register that R63 does not name has the value of admission, such as CYCLE 0. Without
two lanes, or with no free hart in the group, all of whose harts then run, x[d] is all ones. R64, R290: VJOIN with
field 0 ends a child, whose lanes are parked for its running parent; a parent's VJOIN waits until the child has parked
its lanes, and takes them. A HARTID that names no child raises BARRIER. The choices and readings of the model in it:
log entries 64, 65. -/
def Obligations.ForkJoinResults : Prop :=
  (∀ (s : State) (d : XReg) (bt : BReg), Idle s → s.hart.rc.act = false → s.hart.ms.window = none →
     (s.hart.getB bt.toNat).v = true →
     (s.hart.vec.grant < 2 ∨ s.myGroup = none ∨
         (∃ g, s.myGroup = some g ∧ ∀ h ∈ g.harts, (s.hartAt s.here h.toNat).run.running = true) →
       ∃ u, OnlyHart s.hart s u ∧
         exec (.vfork d bt) s = .next (u.modHart fun h => (h.setX d.toNat (BitVec.allOnes 64)).retire 4)) ∧
     ∀ (g : Group) (n r : Nat), 2 ≤ s.hart.vec.grant → s.myGroup = some g → n < 4 → n ≠ s.me → r < 4 →
       BitVec.ofNat 3 n ∈ g.harts → (s.hartAt s.here n).run.running = false →
       (∀ m, m < n → BitVec.ofNat 3 m ∈ g.harts → (s.hartAt s.here m).run.running = true) →
       (∀ h ∈ g.harts, (s.hartAt s.here h.toNat).run.running = true → (s.hartAt s.here h.toNat).id.rank.toNat ≠ r) →
       (∀ q, q < r → ∃ h ∈ g.harts,
         (s.hartAt s.here h.toNat).run.running = true ∧ (s.hartAt s.here h.toNat).id.rank.toNat = q) →
       ∃ t, exec (.vfork d bt) s = .next t ∧ t.mem = s.mem ∧
         let lanes := s.hart.vec.grant / 2
         let child := t.hartAt s.here n
         child.run.running = true ∧ child.pc = (s.hart.getB bt.toNat).addr.zeroExtend 48 <<< 1 ∧ child.getX d.toNat = 0 ∧
         (∀ i, i ≠ d.toNat → child.getX i = s.hart.getX i) ∧ child.k = s.hart.k ∧ child.vec.grant = lanes ∧ child.vec.vl = 0 ∧
         child.vec.vtype = s.hart.vec.vtype ∧ child.vec.mspace = s.hart.vec.mspace ∧ (∀ i, child.getV i = 0) ∧
         child.fp.ctl = s.hart.fp.ctl ∧ child.fp.flags = 0 ∧ child.tr.sup = s.hart.tr.sup ∧ child.tr.tbase = s.hart.tr.tbase ∧
         child.id.rank = BitVec.ofNat 2 r ∧ child.id.parent = some s.curHart ∧ child.id.group = s.hart.id.group ∧
         child.run.cycle = 0 ∧ child.run.claimed = (s.hartAt s.here n).run.claimed ∧ child.ms.ptbase = s.hart.ms.ptbase ∧ child.ms.asid = s.hart.ms.asid ∧ child.tile.claim = none ∧
         t.hart.getX d.toNat = (if d = 0 then 0 else BitVec.ofNat 64 (16 * r + n)) ∧
         (∀ i, i ≠ d.toNat → t.hart.getX i = s.hart.getX i) ∧ t.hart.pc = s.hart.pc + 4 ∧
         t.hart.vec.grant = s.hart.vec.grant - lanes ∧ t.hart.id.kids = s.hart.id.kids ++ [16 * r + n] ∧
         ∀ i, (t.hart.getV i).toNat = (s.hart.getV i).toNat % 2 ^ (256 * (s.hart.vec.grant - lanes))) ∧
  (∀ (s : State) (a : XReg), Idle s → s.hart.rc.act = false → s.hart.ms.window = none →
     let v := (s.hart.getX a.toNat).toNat
     (∀ p : HartNo, a = 0 → s.hart.id.parent = some p → s.hart.id.kids = [] → s.hart.id.parked = [] → p.toNat ≠ s.me →
       (s.hartAt s.here p.toNat).run.running = true → (s.hartAt s.here p.toNat).id.group = s.hart.id.group →
       s.hart.id.known ∈ (s.hartAt s.here p.toNat).id.kids →
       ∃ t, exec (.vjoin a) s = .next t ∧ t.hart.run.running = false ∧ t.mem = s.mem ∧
         (t.core s.here).pool = (s.core s.here).pool ∧
         (t.hartAt s.here p.toNat).id.parked =
           (s.hartAt s.here p.toNat).id.parked ++ [(s.hart.id.known, s.hart.vec.grant)]) ∧
     (∀ k lanes, a ≠ 0 → v ∈ s.hart.id.kids → s.hart.id.parked.find? (fun e => e.1 == v) = some (k, lanes) →
       ∃ t, exec (.vjoin a) s = .next t ∧ t.mem = s.mem ∧ (t.core s.here).ccache = [] ∧
         t.hart = Hart.retire { s.hart with
           vec := { s.hart.vec with grant := s.hart.vec.grant + lanes }
           id := { s.hart.id with kids := s.hart.id.kids.erase v, parked := s.hart.id.parked.erase (k, lanes) } } 4) ∧
     (a ≠ 0 → v ∈ s.hart.id.kids → (∀ e ∈ s.hart.id.parked, e.1 ≠ v) →
       ∃ u, OnlyHart s.hart s u ∧
         exec (.vjoin a) s = .next (u.modHart fun h => { h with run := { h.run with why := 9 } })) ∧
     (a ≠ 0 → (∀ k ∈ s.hart.id.kids, BitVec.ofNat 64 k ≠ s.hart.getX a.toNat) → CanTrap s →
       ∃ t, exec (.vjoin a) s = .next t ∧
         TakesTrap false { code := 0x10, info0 := s.hart.getX a.toNat } s.hart.pc s t))

/-- VTYPE and VL of a hart after the VSETLs among some body instructions (R58, R65). -/
def Sys2Proof.Machine.stripAfter (h : Hart) (l : List (BitVec 48 × Option Instr)) : Word × Nat :=
  l.foldl (fun acc e => match e.2 with
    | some (.vsetl _ a t2 sc ty) =>
      (t2.zeroExtend 64 <<< 8 ||| sc.zeroExtend 64 <<< 4 ||| ty.zeroExtend 64,
        Nat.min (h.getX a.toNat).toNat (256 * h.vec.grant / typeBits ty.toNat))
    | _ => acc) (h.vec.vtype, h.vec.vl)

/-- The x registers whose values the front captures for a body instruction. -/
def Sys2Proof.Machine.bodyReads : Instr → List Nat
  | .vsetl _ a _ _ _ => [a.toNat]
  | i => (usesOf i).xs

/-- The instructions whose pages the front translates at dispatch (R167, R291). -/
def Sys2Proof.Machine.pagesRow : Instr → Bool
  | .vld _ _ _ _ | .vlds _ _ _ _ _ | .vst _ _ _ _ | .vsts _ _ _ _ _ => true
  | _ => false

/-- The body instruction at POS of the loop `l` at the head of a VIQ `v :: rest` has completed, with `ending` when a VEXIT has ended
the loop (R65, R67, R68): RETIRED counts it; the next body instruction follows, or the iteration ends: LITER counts it and LCNT
loses it, and the loop ends when none remains or a VEXIT has said so. -/
def Sys2Proof.Machine.BodyDone (x y : Hart) (v : VEntry) (rest : List VEntry) (l : Loop) (ending : Bool) : Prop :=
  y.run.retired = x.run.retired + 1 ∧
  (l.pos + 1 < l.body.length →
    y.lp.liter = x.lp.liter ∧ y.lp.lcnt = x.lp.lcnt ∧ y.vec.viq = v :: rest ∧
    ∃ m, y.lp.loop = some m ∧ m.pos = l.pos + 1 ∧ m.ending = ending ∧ m.body.map (·.instr) = l.body.map (·.instr)) ∧
  (l.body.length ≤ l.pos + 1 →
    y.lp.liter = x.lp.liter + 1 ∧ y.lp.lcnt = x.lp.lcnt - 1 ∧
    (ending = true ∨ x.lp.lcnt = 1 → y.lp.loop = none ∧ y.vec.viq = rest) ∧
    (ending = false → x.lp.lcnt ≠ 1 → y.vec.viq = v :: rest ∧
      ∃ m, y.lp.loop = some m ∧ m.pos = 0 ∧ m.ending = false ∧ m.body.map (·.instr) = l.body.map (·.instr)))

/-- R65, R66, R67, R68, R270, R300: a loop body may hold the instructions that R66 lists and no other. LOOP captures
the n + 1 instructions that follow it, in order, each with the VTYPE that the VSETLs before it in the body leave, sets
the loop registers, and the front goes on behind the body; a hart whose vector side follows the front at once (log
entry 5) takes the first turn of the loop in the same step. An instruction that a body may not hold raises LOOPBODY
with its address and index, a VSETL of a type code of 15 FORMAT, and a VEXIT outside a body LOOPBODY. R50, R65, R67,
R68: a turn of a vector side whose VIQ has a captured loop at its head. With no trips left the loop ends. Else the body
instruction at POS executes: a VSETL changes nothing more; a VEXIT marks the loop to end when the condition holds of
the elements below its VL; any other completes with what it does by itself, and its flags go to FFLAGS. The choices and
readings of the model in it: log entries 13, 74. -/
def Obligations.LoopResults : Prop :=
  ((∀ i : Instr, loopAllows i = true ↔ i.length = 4 ∧
     ((((0x22 ≤ bits i.encode 26 6 ∧ bits i.encode 26 6 ≤ 0x2C) ∨ bits i.encode 26 6 = 0x2E) ∧
         (∀ d a b, i ≠ .vmvx d a b) ∧ (∀ d m, i ≠ .mpop d m ∧ i ≠ .mfirst d m ∧ i ≠ .mlast d m) ∧
         ∀ d a k m, i ≠ .vredXd d a k m) ∨
       (∃ r w, i = .vamo r w) ∨ (∃ m c, i = .vexit m c) ∨ ∃ a t2 sc ty, i = .vsetl 0 a t2 sc ty)) ∧
   ∀ (s u : State) (a : XReg) (n : BitVec 4) (l : List (BitVec 48 × Option Instr)) (m : MReg) (c : BitVec 1),
     isFerry s.me = false →
     (CanTrap s → ∃ t, exec (.vexit m c) s = .next t ∧
       TakesTrap false { code := 0x12, info0 := s.hart.pc.zeroExtend 64, info1 := BitVec.allOnes 64 } s.hart.pc s t) ∧
     (s.hart.vec.viq = [] → s.hart.vec.held = [] → s.hart.lp.loop = none → s.hart.rc.act = false → s.hart.run.wait = none →
       Settled [a.toNat] [] s → fetchBody s.ctx (s.hart.pc + 4) s (n.toNat + 1) = .ok l u →
       ((∀ e ∈ l, ∀ i, e.2 = some i → Settled (bodyReads i) [] s) → (∀ e ∈ l, ∃ i, e.2 = some i ∧ loopAllows i = true ∧ ∀ d b t2 sc ty, i = .vsetl d b t2 sc ty → t2 ≠ 15 ∧ ty ≠ 15) →
         ∃ t body, exec (.loop a n) s = (if s.hart.vec.lag then .next t else stepVector s.here s.me t) ∧
          (s.hart.getX a.toNat = 0 ∨ s.hart.vec.mspace ≠ 2 ∨ (∀ e ∈ l, ∀ i, e.2 = some i → pagesRow i = false) →
            t.mem = u.mem ∧ ∀ e ∈ body, e.pins = []) ∧
           t.hart.pc = s.hart.pc + BitVec.ofNat 48 (4 * (n.toNat + 2)) ∧ t.hart.x = s.hart.x ∧
           t.hart.vec.vtype = (stripAfter s.hart l).1 ∧ t.hart.vec.vl = (stripAfter s.hart l).2 ∧
           t.hart.lp.lcnt = s.hart.getX a.toNat ∧ t.hart.lp.lbody = (s.hart.pc + 4).zeroExtend 64 ∧
           t.hart.lp.llen = n.zeroExtend 5 + 1 ∧ t.hart.lp.liter = 0 ∧ t.hart.lp.loop = some ⟨body, 0, false⟩ ∧
           body.map (fun e => (e.pc, some e.instr)) = l ∧
           (∀ k e, body[k]? = some e → e.vtype = (stripAfter s.hart (l.take k)).1 ∧ e.start = 0 ∧ e.seq = none) ∧
           t.hart.vec.viq.map (fun e => (e.instr, e.pc, e.xs)) = [(.loop a n, s.hart.pc, [s.hart.getX a.toNat])]) ∧
       (∀ k q, k < l.length → l[k]? = some q → (∀ i, q.2 = some i → loopAllows i = false) →
         (∀ j e, j < k → l[j]? = some e → ∃ i, e.2 = some i ∧ loopAllows i = true) → CanTrap s →
         ∃ t, exec (.loop a n) s = .next t ∧
           TakesTrap false { code := 0x12, info0 := q.1.zeroExtend 64, info1 := BitVec.ofNat 64 k } s.hart.pc u t) ∧
       (∀ k q d b t2 sc ty, l[k]? = some (q, some (.vsetl d b t2 sc ty)) → t2 = 15 ∨ ty = 15 →
         (∀ e ∈ l, ∃ i, e.2 = some i ∧ loopAllows i = true ∧ Settled (bodyReads i) [] s) →
         (∀ j e d b t2 sc ty, j < k → l[j]? = some (e, some (.vsetl d b t2 sc ty)) → t2 ≠ 15 ∧ ty ≠ 15) → CanTrap s →
         ∃ t, exec (.loop a n) s = .next t ∧ t.hart.tr.tcause.getLsbD 59 = true ∧ wbits t.hart.tr.tcause 0 8 = 0x11 ∧
           t.hart.tr.tinfo1 = 0x001 ∧ t.hart.tr.tinfo2 = BitVec.ofNat 64 k ∧
           t.hart.tr.tpc = s.hart.pc.zeroExtend 64 ∧ t.hart.x = s.hart.x ∧ t.mem = u.mem))) ∧
  (∀ (s : State) (c h : Nat) (a : XReg) (n : BitVec 4) (v : VEntry) (rest : List VEntry) (l : Loop),
     let x := s.hartAt c h
     x.vec.viq = v :: rest → v.instr = .loop a n → x.lp.loop = some l → (s.core c).dbg.breakpoints = [] →
     (x.lp.lcnt = 0 → ∃ t, stepVector c h s = .next t ∧ t.mem = s.mem ∧ (t.hartAt c h).lp = { x.lp with loop := none } ∧
       (t.hartAt c h).vec = { x.vec with viq := rest } ∧ (t.hartAt c h).x = x.x) ∧
     ∀ b, x.lp.lcnt ≠ 0 → l.body[l.pos]? = some b →
       (∀ d e t2 sc ty, b.instr = .vsetl d e t2 sc ty →
         ∃ t, stepVector c h s = .next t ∧ t.mem = s.mem ∧ BodyDone x (t.hartAt c h) v rest l l.ending ∧
           (t.hartAt c h).vec.v = x.vec.v ∧ (t.hartAt c h).x = x.x) ∧
       (b.seq = none → b.binds = [] → b.strips = [] → b.old = none → b.start = 0 →
         (∀ m cond, b.instr = .vexit m cond →
           let any := (List.range b.vl).any fun e => (x.getM m.toNat).getLsbD e
           ∃ t, stepVector c h s = .next t ∧
             BodyDone x (t.hartAt c h) v rest l (l.ending || (if cond = 0 then !any else any)) ∧
             (t.hartAt c h).vec.v = x.vec.v ∧ (t.hartAt c h).x = x.x) ∧
         ((∀ d e t2 sc ty, b.instr ≠ .vsetl d e t2 sc ty) →
           let b' := { b with seq := some (s.core c).land.seq }
           let l' : Loop := { l with body := l.body.set l.pos b' }
           let s' := (s.modCore c fun k => { k with land := { k.land with seq := k.land.seq + 1 } }).modHartAt c h fun y =>
             { y with lp := { y.lp with loop := some l' } }
           let again := (l.body.filter fun e => consumesRic x e.instr e.vtype e.fpctl).length
           ∀ f u, attempt c h { b' with ric := b.ric + x.lp.liter * BitVec.ofNat 64 again, limit := none } s' = .ok (.done f) u →
             (u.hartAt c h).lp = { x.lp with loop := some l' } → (u.hartAt c h).vec.viq = v :: rest →
             (u.hartAt c h).run.retired = x.run.retired →
             ∃ t, stepVector c h s = .next t ∧ BodyDone x (t.hartAt c h) v rest l l.ending ∧
               (t.hartAt c h).vec.v = (u.hartAt c h).vec.v ∧ (t.hartAt c h).x = (u.hartAt c h).x ∧
               (t.hartAt c h).fp.flags = (u.hartAt c h).fp.flags ||| BitVec.ofNat 5 f)))

/-! Tile claims -/

/-- R186 to R188, R222, R232: TSETL takes a shape, which its registers receive; with the crew bit it raises ENGINE
reason 25 outside a gang and 26 in a gang that has lost a member; TCLAIM takes the lowest tiles and accumulators of the
group's reservation, whose data, sidecars and kinds are zero, or raises ENGINE reason 24; TFREE returns them. The
choices and readings of the model in it: log entry 113. -/
def Obligations.TileClaimResults : Prop :=
  ∀ (s : State) (fmtA : BitVec 4) (d a b : XReg), isFerry s.me = false → Settled [d.toNat, a.toNat, b.toNat] [] s →
    let p := (s.hart.getX a.toNat).toNat
    let q := (s.hart.getX b.toNat).toNat
    let shape : Bool → Out := fun crew =>
      let m := Nat.min (s.hart.getX d.toNat).toNat 128
      let n := Nat.min p (if crew then 512 else 128)
      let k := Nat.min q (1024 / (if fmtA = 15 then 8 else typeBits fmtA.toNat))
      .next (s.modHart fun h =>
        { (((h.setX d.toNat (BitVec.ofNat 64 m)).setX a.toNat (BitVec.ofNat 64 n)).setX b.toNat (BitVec.ofNat 64 k)).retire 8 with
          tile := { h.tile with m := BitVec.ofNat 8 m, n := BitVec.ofNat 10 n, k := BitVec.ofNat 9 k, crew := crew } })
    exec (.tsetl 0 fmtA d a b) s = shape false ∧
    (∀ g, s.myGroup = some g → g.gang ≠ none → (∀ m y, s.gangMember g m = some y → y.2.aborted = false) →
      exec (.tsetl 1 fmtA d a b) s = shape true) ∧
    ((∀ g, s.myGroup = some g → g.gang = none) → CanTrap s →
      ∃ t, exec (.tsetl 1 fmtA d a b) s = .next t ∧ TakesTrap false { code := 0x0F, info2 := 25 } s.hart.pc s t) ∧
    (∀ g m c y, s.myGroup = some g → g.gang ≠ none → m < 4 → s.gangMember g m = some (c, y) → y.aborted = true →
      (∀ n z, n < m → s.gangMember g n = some z → z.2.aborted = false) → CanTrap s →
      ∃ t, exec (.tsetl 1 fmtA d a b) s = .next t ∧
        TakesTrap false { code := 0x0F, info0 := BitVec.ofNat 64 m, info2 := 26 } s.hart.pc s t) ∧
    (∀ gn g, s.hart.id.group = some gn → s.group? gn = some g → s.hart.tile.claim = none → p ≤ g.freeTiles.length →
      q ≤ g.freeAccs.length →
      ∃ t, exec (.tclaim a b) s = .next t ∧ t.mem = s.mem ∧ t.hart.x = s.hart.x ∧ t.hart.pc = s.hart.pc + 8 ∧
        t.hart.tile.claim = some (g.freeTiles.take p, g.freeAccs.take q) ∧
        t.group? gn = some { g with freeTiles := g.freeTiles.drop p, freeAccs := g.freeAccs.drop q } ∧
        (∀ y ∈ g.freeTiles.take p, ∀ r, r < 128 → lookup (t.core s.here).tiles.rows (y * 128 + r) = none ∧
          (t.core s.here).tileSide y r = 0) ∧
        (∀ y ∈ g.freeAccs.take q, (∀ i, i < 16384 → lookup (t.core s.here).tiles.words (y * 16384 + i) = none) ∧
          (t.core s.here).accKind y = 0) ∧
        ∀ i, i < q → lookupD t.hart.tile.amax i 0 = 0) ∧
    (∀ gn g, s.hart.id.group = some gn → s.group? gn = some g → CanTrap s →
      (s.hart.tile.claim ≠ none ∨ g.freeTiles.length < p ∨ g.freeAccs.length < q) →
      ∃ t, exec (.tclaim a b) s = .next t ∧ TakesTrap false
        { code := 0x0F, info0 := BitVec.ofNat 64 (g.freeTiles.length + g.freeAccs.length * 16), info2 := 24 } s.hart.pc s t) ∧
    (∀ gn g ts as', s.hart.vec.viq = [] → s.hart.vec.held = [] → s.hart.id.group = some gn → s.group? gn = some g →
      s.hart.tile.claim = some (ts, as') →
      ∃ t y, exec .tfree s = .next t ∧ t.mem = s.mem ∧ t.group? gn = some y ∧ y.freeTiles.Perm (g.freeTiles ++ ts) ∧
        y.freeAccs.Perm (g.freeAccs ++ as') ∧
        t.hart = Hart.retire { s.hart with tile := { s.hart.tile with claim := none } } 8) ∧
    (s.hart.vec.viq = [] → s.hart.vec.held = [] → s.hart.tile.claim = none → exec .tfree s = .next (s.modHart fun h =>
      Hart.retire { h with tile := { h.tile with claim := none } } 8))

/-! Ferries -/

/-- R85, R86, R87, R256: FTLOAD of a ferry hart, or of a user hart at S, sets a fill handler. On a ferry hart LNGET
gives the entry that the ferry holds in eight registers, or, holding none, takes the ready entry whose hart is next in
turn, the oldest of that hart, and waits while none is ready; FILL writes the value of an entry that the ferry holds
and that owes all of its element into it and frees the entry; it poisons it where its word says so, with the cause
FPTRAP where a flag but NX meets its enables or NFT a value that is no finite number, and then raises no flag; it has
no effect with the number of another entry or with none held. Poisoned entries are those whose element the hart has not
written over under DET (log entry 125). The choices and readings of the model in it: log entry 41. -/
def Obligations.FerryResults : Prop :=
  (∀ (s : State) (x a : XReg), isFerry s.me = true ∨ s.hart.tr.sup = true → Settled [x.toNat, a.toNat] [] s →
    let addr : BitVec 48 := (s.hart.getX x.toNat).setWidth 48 &&& ~~~1
    exec (.ftload x a) s = .next ((s.modCore s.here fun k =>
      { k with land := { k.land with
          fillTable := insert k.land.fillTable (wbits (s.hart.getX a.toNat) 0 6) addr } }).modHart fun h => h.retire 4)) ∧
  (∀ (s : State) (x a d : XReg), isFerry s.me = true → s.hart.hole.ferry = none →
    exec (.fill x a) s = .next (s.modHart fun h => h.retire 4) ∧
    ((∀ q ∈ (s.core s.here).land.entries, q.2.state ≠ .ready) →
      exec (.lnget d) s = .next (s.modHart fun h => { h with run := { h.run with why := 15 } }))) ∧
  ∀ (s : State) (x a d : XReg) (n : Nat) (e : LEntry), isFerry s.me = true → lookup (s.core s.here).land.entries n = some e →
    n < 256 →
    let w := s.hart.getX a.toNat
    let gives : State → Prop := fun t => t.mem = s.mem ∧ t.hart.pc = s.hart.pc + 4 ∧ t.hart.hole.ferry = some n ∧
      t.hart.hole.lastLnget = s.hart.pc ∧
      t.hart.getX d.toNat = BitVec.ofNat 64 (n + e.hart.toNat * 2 ^ 8 + e.cls.toNat * 2 ^ 10 + e.ty.toNat * 2 ^ 16 +
        e.rm.toNat * 2 ^ 20 + e.en.toNat * 2 ^ 23 + (if e.nft then 2 ^ 28 else 0) + e.index.toNat * 2 ^ 32) ∧
      t.hart.getX (d.toNat + 1) = e.pc.zeroExtend 64 ∧ t.hart.getX (d.toNat + 2) = e.opa ∧
      t.hart.getX (d.toNat + 3) = e.opb ∧ t.hart.getX (d.toNat + 4) = e.opc ∧
      t.hart.getX (d.toNat + 5) = e.handler.zeroExtend 64 ∧
      t.hart.getX (d.toNat + 6) = BitVec.ofNat 64 (e.srb.toNat + e.tgt.toNat * 2 ^ 16) ∧
      t.hart.getX (d.toNat + 7) = e.seq.zeroExtend 64 ∧
      ∀ r, r < d.toNat ∨ d.toNat + 8 ≤ r → t.hart.getX r = s.hart.getX r
    let turn (q : LEntry) : Nat := (q.hart.toNat + 7 - (s.core s.here).land.turn % 4) % 4
    let before (p q : LEntry) : Prop := turn p < turn q ∨ (turn p = turn q ∧
      (p.seq.toNat < q.seq.toNat ∨ (p.seq = q.seq ∧ p.index.toNat < q.index.toNat)))
    (0 < d.toNat → d.toNat + 8 ≤ 64 → s.hart.hole.ferry = none → e.state = .ready →
      ((s.core s.here).land.entries.map (·.1)).Nodup →
      (∀ q ∈ (s.core s.here).land.entries, q.2.state = .ready → q.1 ≠ n → before e q.2) →
      ∃ t, exec (.lnget d) s = .next t ∧ gives t ∧ (t.core s.here).land.turn = e.hart.toNat ∧
        lookup (t.core s.here).land.entries n = some { e with state := .inFerry (s.me == 5) } ∧
        ∀ m, m ≠ n → lookup (t.core s.here).land.entries m = lookup (s.core s.here).land.entries m) ∧
    (s.hart.hole.ferry = some n → e.state ≠ .inFerry (s.me == 5) →
      exec (.fill x a) s = .next (s.modHart fun h => h.retire 4)) ∧
    (s.hart.hole.ferry = some n → e.state = .inFerry (s.me == 5) →
    (0 < d.toNat → d.toNat + 8 ≤ 64 → ∃ t, exec (.lnget d) s = .next t ∧ gives t ∧
      ∀ m, lookup (t.core s.here).land.entries m = lookup (s.core s.here).land.entries m) ∧
    (wbits w 0 8 = n → e.live ≠ 0 → e.written = none →
      let value := (s.hart.getX x.toNat).toNat % 2 ^ e.width
      let meetsEnable : Prop := wbits w 8 5 &&& e.en.toNat &&& 15 ≠ 0
      let poisons : BitVec 8 → BitVec 8 → Prop := fun cause detail =>
        ∃ t, exec (.fill x a) s = .next t ∧ t.hart.hole.ferry = none ∧ t.hart.pc = s.hart.pc + 4 ∧ t.mem = s.mem ∧
          (t.hartAt s.here e.hart.toNat).fp = (s.hartAt s.here e.hart.toNat).fp ∧
          ∃ l, lookup (t.core s.here).land.entries n = some l ∧ l.state = .poisoned ∧ l.cause = cause ∧ l.detail = detail
      (w.getLsbD 15 = true → poisons (w.extractLsb' 16 8) (w.extractLsb' 24 8)) ∧
      (w.getLsbD 15 = false → meetsEnable → poisons 0x09 (BitVec.ofNat 8 (wbits w 8 4))) ∧
      (w.getLsbD 15 = false → ¬ meetsEnable → e.nft = true → isFloat e.dty.toNat = true →
        (valueOf e.dty.toNat value).special = true → poisons 0x09 0x20)) ∧
    (wbits w 0 8 = n → w.getLsbD 15 = false → wbits w 8 5 &&& e.en.toNat &&& 15 = 0 →
      (e.nft = false ∨ isFloat e.dty.toNat = false ∨
        (valueOf e.dty.toNat ((s.hart.getX x.toNat).toNat % 2 ^ e.width)).special = false) →
      0 < e.width → e.width ≤ 64 → e.live.toNat = 2 ^ e.width - 1 → (e.index.toNat + 1) * e.width ≤ 16384 →
      ∃ t, exec (.fill x a) s = .next t ∧ t.hart.hole.ferry = none ∧ t.hart.pc = s.hart.pc + 4 ∧
        elemOf ((t.hartAt s.here e.hart.toNat).getV e.reg.toNat) e.width e.index.toNat =
          (s.hart.getX x.toNat).toNat % 2 ^ e.width ∧
        (t.hartAt s.here e.hart.toNat).fp.flags = (s.hartAt s.here e.hart.toNat).fp.flags ||| w.extractLsb' 8 5) ∧
    (wbits w 0 8 ≠ n → exec (.fill x a) s = .next (s.modHart fun h => h.retire 4)))

/-! The Wharf's instructions -/

/-- R213, R214, R215: WQRY asks for the next index of its launch; GBAR completes when every other hart that takes part
has arrived as often, and else waits; EXIT ends the hart, whose lanes return to the pool. The choices and readings of
the model in it: log entries 66, 81. -/
def Obligations.GroupInstructionResults : Prop :=
  ∀ (s : State) (n : BitVec 4) (g : Group) (gn : Nat), Idle s → s.hart.id.group = some gn → s.group? gn = some g →
    (∀ l ch y, lookup s.wharf.launches g.launch = some l → yCount l = some y → lookup (s.core s.here).channels n.toNat = some ch →
      ch.group = gn → (l.requests.filter fun q => q.1 == gn).length < 16 →
      exec (.wqry n) s = .next ((s.modWharf fun w =>
        { w with launches := insert w.launches g.launch { l with requests := l.requests ++ [(gn, n.toNat, none)] } }).modHart
        fun h => h.retire 4)) ∧
    (∀ sc : BitVec 4, sc.toNat < 3 → s.hart.run.atBar = false →
      let gang := (lookup s.wharf.launches g.launch).any fun l => l.record.gang
      let allowed := ¬ (sc = 1 ∧ g.gang = none) ∧ ¬ (sc = 2 ∧ gang = false)
      let mine := lookupD s.hart.run.arrived sc.toNat 0 + 1
      (allowed → (∀ p ∈ barHarts g gn sc.toNat s, p ≠ (s.here, s.me) → mine ≤ lookupD (s.hartAt p.1 p.2).run.arrived sc.toNat 0) →
        ∃ t, exec (.gbar sc) s = .next t ∧ t.mem = s.mem ∧ (t.core s.here).ccache = [] ∧
          t.hart = Hart.retire { s.hart with run := { s.hart.run with arrived := insert s.hart.run.arrived sc.toNat mine } } 4) ∧
      (allowed → (∃ p ∈ barHarts g gn sc.toNat s,
          p ≠ (s.here, s.me) ∧ lookupD (s.hartAt p.1 p.2).run.arrived sc.toNat 0 < mine) →
        ∃ t, exec (.gbar sc) s = .next t ∧ t.mem = s.mem ∧
          t.hart = { s.hart with run := { s.hart.run with
            arrived := insert s.hart.run.arrived sc.toNat mine, atBar := true, why := 9 } }) ∧
      (¬ allowed → CanTrap s → ∃ t, exec (.gbar sc) s = .next t ∧
        TakesTrap false { code := 0x10, info0 := sc.zeroExtend 64 } s.hart.pc s t)) ∧
    (s.hart.rc.act = false → incomplete false s = false → incomplete true s = false →
      ∃ t, exec .exit s = .next t ∧ t.mem = s.mem ∧ t.hart.run.running = false ∧ t.hart.vec.grant = 0 ∧
        t.hart.tile.claim = none ∧ t.hart.run.retired = s.hart.run.retired + 1 ∧
        (t.core s.here).pool = (s.core s.here).pool + s.hart.vec.grant + (s.hart.id.parked.map (·.2)).sum)

/-! Vector instructions -/

/-- The vector and tile instructions that the front dispatches into the VIQ (R53). -/
def Sys2Proof.Machine.viqRow : Instr → Bool
  | .vadd _ _ _ _ | .vaddX _ _ _ _ | .vsub _ _ _ _ | .vsubX _ _ _ _ | .vrsub _ _ _ _ | .vrsubX _ _ _ _ | .vmul _ _ _ _
  | .vmulX _ _ _ _ | .vmulh _ _ _ _ | .vmulhX _ _ _ _ | .vmulhn _ _ _ _ | .vmulhnX _ _ _ _ | .vand _ _ _ _ | .vandX _ _ _ _
  | .vor _ _ _ _ | .vorX _ _ _ _ | .vxor _ _ _ _ | .vxorX _ _ _ _ | .vshl _ _ _ _ | .vshlX _ _ _ _ | .vshr _ _ _ _
  | .vshrX _ _ _ _ | .vshra _ _ _ _ | .vshraX _ _ _ _ | .vmin _ _ _ _ | .vminX _ _ _ _ | .vmax _ _ _ _ | .vmaxX _ _ _ _
  | .vminn _ _ _ _ | .vminnX _ _ _ _ | .vmaxn _ _ _ _ | .vmaxnX _ _ _ _ | .vfadd _ _ _ _ | .vfaddX _ _ _ _ | .vfsub _ _ _ _
  | .vfsubX _ _ _ _ | .vfmul _ _ _ _ | .vfmulX _ _ _ _ | .vfma _ _ _ _ | .vfmaX _ _ _ _ | .vfmin _ _ _ _ | .vfminX _ _ _ _
  | .vfmax _ _ _ _ | .vfmaxX _ _ _ _ | .vfdiv _ _ _ _ | .vfdivX _ _ _ _ | .vfrcp _ _ _ | .vfrsq _ _ _ | .vfsqrt _ _ _
  | .vfexp _ _ _ | .vflog _ _ _ | .vfsin _ _ _ | .vfcos _ _ _ | .vmerge _ _ _ _ | .vmergeX _ _ _ _ | .vadc _ _ _ _
  | .vadcX _ _ _ _ | .vsbc _ _ _ _ | .vsbcX _ _ _ _ | .vwmul _ _ _ _ | .vwmulX _ _ _ _ | .vfcvt _ _ _ _ | .vfwmul _ _ _ _
  | .vcmp _ _ _ _ _ | .vcmpX _ _ _ _ _ | .vfcmp _ _ _ _ _ | .vfcmpX _ _ _ _ _ | .mand _ _ _ | .mor _ _ _ | .mxor _ _ _
  | .mnot _ _ | .mshl _ _ _ | .mset _ | .mclr _ | .mpop _ _ | .mfirst _ _ | .mlast _ _ | .vgath _ _ _ _ | .vcomp _ _ _
  | .vxpnd _ _ _ | .vred _ _ _ _ | .vredXd _ _ _ _ | .vscan _ _ _ _ | .vslideupZero _ _ _ _ | .vslideupOne _ _ _ _
  | .vslideupKeep _ _ _ _ | .vslidednZero _ _ _ _ | .vslidednOne _ _ _ _ | .vslidednKeep _ _ _ _ | .vmvx _ _ _ | .vmvs _ _ _
  | .vsplat _ _ _ | .vld _ _ _ _ | .vlds _ _ _ _ _ | .vldx _ _ _ _ _ | .vst _ _ _ _ | .vsts _ _ _ _ _ | .vstx _ _ _ _ _
  | .awin _ _ _ | .vamo _ _ | .amerge | .vrand _ _ | .pres _ _ | .vrel _ | .settle _ _ _ | .vtest _ _ _ | .rfld _ _
  | .rput _ _ _ | .rspawn _ | .rres _ _ | .rkid _ _ _ | .rdone | .tld _ _ _ | .tst _ _ _ | .tldp _ _ _ | .tzero _
  | .tmvr _ _ _ | .tmvc _ _ _ | .mma _ _ _ _ _ | .mmaC _ _ _ _ _ | .mman _ _ _ _ _ | .mdrain _ _ _ _ | .azero _ => true
  | _ => false

/-- MMA.c (R191). -/
def Sys2Proof.Machine.crewRow : Instr → Bool
  | .mmaC _ _ _ _ _ => true
  | _ => false

/-- R53, R75, R130, R167, R191, R247: the front dispatches a vector or tile instruction into the VIQ, with its address,
the values of its x operands and the control registers as they are, and goes on behind it; here on a hart whose vector
side takes turns of its own (log entry 5) and without streams. It translates and pins the pages of VLD, VLDS, VST and
VSTS in GV, such as that of a store of one element; an MMA.c joins those that its group has dispatched. With the VIQ
full it waits, with reason 2; with an x operand owed, with reason 3, or 15 where only an AMO owes it. The choices and
readings of the model in it: log entry 40. -/
def Obligations.VectorDispatch : Prop :=
  ∀ (s : State) (i : Instr), viqRow i = true → isFerry s.me = false →
    let h := s.hart
    (Settled (usesOf i).xs [] s → h.viqRoom = true → h.vec.lag = true → h.ms.streams = [] → h.reserved < 16 → h.VlFits →
      ∃ t : State, ∃ e : VEntry, ∃ ric : Word,
        exec i s = .next t ∧
        t.hart = { h with pc := h.pc + BitVec.ofNat 48 i.length
                          fp := { h.fp with ric := ric }
                          vec := { h.vec with viq := h.vec.viq ++ [e] }
                          run := { h.run with why := 0, atBar := false } } ∧
        e.instr = i ∧ e.pc = h.pc ∧ e.xs = (usesOf i).xs.map h.getX ∧ e.vl = h.vec.vl ∧ e.vtype = h.vec.vtype ∧
        e.mspace = h.vec.mspace.toNat ∧ e.fpctl = h.fp.ctl.zeroExtend 64 ∧ e.seed = h.fp.seed ∧ e.ric = h.fp.ric ∧
        e.ptbase = h.ms.ptbase ∧ e.asid = h.ms.asid.zeroExtend 64 ∧ e.sup = h.tr.sup ∧ e.start = 0 ∧ e.flags = 0 ∧
        e.strips = [] ∧ (ric = h.fp.ric ∨ ric = h.fp.ric + 1) ∧
        (h.vec.mspace ≠ 2 ∨ pagesRow i = false →
          e.pins = [] ∧ t.mem = s.mem ∧ t.poison = s.poison ∧ t.dies = s.dies ∧ t.host = s.host ∧ t.agenda = s.agenda ∧
          ∀ c n, c ≠ s.here ∨ n ≠ s.me → t.hartAt c n = s.hartAt c n) ∧
        (∀ r a o p leaf u, i = .vst r a 0 o → h.vec.mspace = 2 → h.vec.vl = 1 → h.vec.vtype.getLsbD 4 = false →
          translate s.ctx .write (h.getX a.toNat) 0 s = .ok (p, leaf) u → e.pins = [⟨leaf, s.inval⟩]) ∧
        (crewRow i = false → t.wharf = s.wharf) ∧
        (∀ gn g, crewRow i = true → h.id.group = some gn → s.group? gn = some g →
          t.group? gn = some { g with crewQueue := g.crewQueue ++ [s.curHart] })) ∧
    (Settled (usesOf i).xs [] s → h.viqRoom = false →
      exec i s = .next (s.modHart fun h => { h with run := { h.run with why := 2 } })) ∧
    (¬ Settled (usesOf i).xs [] s → exec i s = .next (stall (owedReason (usesOf i).xs [] s) s))

/-- From `s` a vector instruction of a hart with nothing in flight completes at once with flags `f`: the hart becomes `h` behind the
instruction of `n` bytes, RIC moves on when the instruction consumes a value of it, and nothing else changes. -/
def Sys2Proof.Machine.Completes (i : Instr) (h : Hart) (n f : Nat) (consumes : Bool) (s : State) : Prop :=
  ∃ t, exec i s = .next t ∧ OnlyVector (h.afterVector n f consumes) s t

/-- The integer lane rows: the form of two vectors, the form with an x register, whether every type of R279's kind "bits" is
legal, and element e of the destination from the bits, `n` of them, of the two sources. -/
def Sys2Proof.Machine.intLaneRows (d a b : VReg) (x : XReg) (m : MReg) :
    List (Instr × Instr × Bool × (Nat → Nat → Nat → Nat)) :=
  [(.vadd d a b m, .vaddX d a x m, false, fun n p q => (p + q) % 2 ^ n),
   (.vsub d a b m, .vsubX d a x m, false, fun n p q => (p + 2 ^ n - q) % 2 ^ n),
   (.vrsub d a b m, .vrsubX d a x m, false, fun n p q => (q + 2 ^ n - p) % 2 ^ n),
   (.vmul d a b m, .vmulX d a x m, false, fun n p q => p * q % 2 ^ n),
   (.vmulh d a b m, .vmulhX d a x m, false, fun n p q => wrap n (signedOf n p * signedOf n q / (2 ^ n : Nat))),
   (.vmulhn d a b m, .vmulhnX d a x m, false, fun n p q => p * q / 2 ^ n),
   (.vand d a b m, .vandX d a x m, true, fun _ p q => p &&& q), (.vor d a b m, .vorX d a x m, true, fun _ p q => p ||| q),
   (.vxor d a b m, .vxorX d a x m, true, fun _ p q => p ^^^ q),
   (.vshl d a b m, .vshlX d a x m, true, fun n p q => p * 2 ^ (q % n) % 2 ^ n),
   (.vshr d a b m, .vshrX d a x m, true, fun n p q => p / 2 ^ (q % n)),
   (.vshra d a b m, .vshraX d a x m, false, fun n p q => wrap n (signedOf n p / (2 ^ (q % n) : Nat))),
   (.vmin d a b m, .vminX d a x m, false, fun n p q => if signedOf n p ≤ signedOf n q then p else q),
   (.vmax d a b m, .vmaxX d a x m, false, fun n p q => if signedOf n p ≤ signedOf n q then q else p),
   (.vminn d a b m, .vminnX d a x m, false, fun _ p q => Nat.min p q),
   (.vmaxn d a b m, .vmaxnX d a x m, false, fun _ p q => Nat.max p q)]

/-- R50, R60, R74, R279: the integer lane instructions on types that they accept: every active element of v[d] takes
the function of the elements of v[a] and v[b], or of the low bits of x[b], all read before; no flag is raised, and no
other register, byte of memory or hart changes. On another type they raise FORMAT at element 0. Here on a hart whose
vector side follows the front at once (log entry 5). The choices and readings of the model in it: log entry 40. -/
def Obligations.IntegerLaneResults : Prop :=
  ∀ (s : State) (d a b : VReg) (x : XReg) (m : MReg), VectorReady s → s.hart.VlFits → ∀ row ∈ intLaneRows d a b x m,
    let h := s.hart
    let n := typeBits h.ty
    let result : (Nat → Nat) → Hart := fun q =>
      h.setElems d.toNat n ((h.active m).map fun e => (e, row.2.2.2 n (elemOf (h.getV a.toNat) n e) (q e)))
    let legal : Prop := h.vec.vtype.getLsbD 4 = false ∧ (if row.2.2.1 then h.ty ≠ 10 ∧ h.ty < 15 else h.ty < 8)
    (legal →
      Completes row.1 (result fun e => elemOf (h.getV b.toNat) n e) 4 0 false s ∧
      Completes row.2.1 (result fun _ => (h.getX x.toNat).toNat % 2 ^ n) 4 0 false s) ∧
    (h.vec.vtype.getLsbD 4 = true ∨ (if row.2.2.1 then h.ty = 10 else 8 ≤ h.ty) → CanTrap s →
      ∀ i ∈ [row.1, row.2.1], ∃ t, exec i s = .next t ∧ t.hart.tr.tcause.getLsbD 62 = true ∧
        wbits t.hart.tr.tcause 0 8 = 0x11 ∧ t.hart.tr.tinfo0 = h.vec.vtype ∧ t.hart.tr.tvcp = h.pc.zeroExtend 64 ∧
        t.hart.tr.tvst = 0 ∧ t.hart.tr.tpc = (h.pc + 4).zeroExtend 64 ∧
        t.hart.pc = BitVec.ofNat 48 h.tr.tbase.toNat ∧ t.hart.vec.v = h.vec.v ∧ t.mem = s.mem)

/-- The floating lane rows: the form of two vectors and its form with an x register, each with its function. -/
def Sys2Proof.Machine.floatPairs (d a b : VReg) (x : XReg) (m : MReg) : List (Instr × Instr × LaneFn) :=
  [(.vfadd d a b m, .vfaddX d a x m, .fadd), (.vfsub d a b m, .vfsubX d a x m, .fsub), (.vfmul d a b m, .vfmulX d a x m, .fmul),
   (.vfma d a b m, .vfmaX d a x m, .fma), (.vfmin d a b m, .vfminX d a x m, .fmin), (.vfmax d a b m, .vfmaxX d a x m, .fmax),
   (.vfdiv d a b m, .vfdivX d a x m, .fdiv)]

/-- The floating lane rows of one operand; those of the second list are for fp32 only (R284). -/
def Sys2Proof.Machine.floatSingles (d a : VReg) (m : MReg) : List (Instr × LaneFn × Bool) :=
  [(.vfrcp d a m, .frcp, false), (.vfrsq d a m, .frsq, false), (.vfsqrt d a m, .fsqrt, false), (.vfexp d a m, .fexp, true),
   (.vflog d a m, .flog, true), (.vfsin d a m, .fsin, true), (.vfcos d a m, .fcos, true)]

/-- An element-wise floating operation of a hart (R75, R283): the destination from the captured mode and random bits, with element
e's result and flags; `easy` that the lanes compute every active element, which they do for all types but fp32 and fp64 (R72). -/
structure Sys2Proof.Machine.LaneRun where
  fn : LaneFn
  sty : Nat
  sty2 : Nat
  dty : Nat
  p : Nat → Nat
  q : Nat → Nat
  c : Nat → Nat

/-- Element e of a floating operation. -/
def Sys2Proof.Machine.LaneRun.elem (r : LaneRun) (h : Hart) (e : Nat) : Nat × Nat :=
  fpCompute r.fn r.sty r.sty2 r.dty (rmodeOf (bits h.fp.ctl.toNat 0 3)) (randomBits h.fp.seed h.fp.ric e) (r.p e) (r.q e) (r.c e)

/-- Every active element is in the easy range, or the type has none that is hard. -/
def Sys2Proof.Machine.LaneRun.Easy (r : LaneRun) (h : Hart) (m : MReg) : Prop :=
  (r.sty = 13 ∨ r.sty = 14) → ∀ e ∈ h.active m,
    easyElement r.fn r.sty r.sty2 r.dty (rmodeOf (bits h.fp.ctl.toNat 0 3)) (randomBits h.fp.seed h.fp.ric e) (r.p e) (r.q e)
      (r.c e) = true

/-- v[d] with the results of the active elements, and the flags of all of them. -/
def Sys2Proof.Machine.LaneRun.hart (r : LaneRun) (h : Hart) (d : Nat) (m : MReg) : Hart :=
  h.setElems d (typeBits r.dty) ((h.active m).map fun e => (e, (r.elem h e).1))

def Sys2Proof.Machine.LaneRun.flags (r : LaneRun) (h : Hart) (m : MReg) : Nat :=
  (h.active m).foldl (fun f e => f ||| (r.elem h e).2) 0

/-- From `s` a floating lane operation `r` of class `cls` completes with a hole for each element that the lanes do not compute: the
elements become entries 0, 1, … of the Landing in element order, each ready, with its operands and the captured control, and
are absent from v[d]; the other active elements take their values and raise their flags, and the rest of v[d] stays. -/
def Sys2Proof.Machine.LeavesHoles (i : Instr) (r : LaneRun) (h : Hart) (d : VReg) (cls : Nat) (consumes : Bool) (m : MReg)
    (s : State) : Prop :=
  let n := typeBits r.dty
  let easy : Nat → Bool := fun e =>
    easyElement r.fn r.sty r.sty2 r.dty (rmodeOf (bits h.fp.ctl.toNat 0 3)) (randomBits h.fp.seed h.fp.ric e) (r.p e) (r.q e) (r.c e)
  let soft := (h.active m).filter easy
  let hard := (h.active m).filter fun e => !easy e
  hard.length ≤ 112 → hard ≠ [] → h.vec.grant ≤ 64 →
  ∃ t, exec i s = .next t ∧ t.mem = s.mem ∧ t.hart.pc = h.pc + 4 ∧ t.hart.x = h.x ∧
    t.hart.run.retired = h.run.retired + 1 ∧ t.hart.fp.ric = (if consumes then h.fp.ric + 1 else h.fp.ric) ∧
    t.hart.fp.flags = h.fp.flags ||| BitVec.ofNat 5 (soft.foldl (fun f e => f ||| (r.elem h e).2) 0) ∧
    (∀ e ∈ soft, elemOf (t.hart.getV d.toNat) n e = (r.elem h e).1 % 2 ^ n) ∧
    (∀ e, e ∉ h.active m → (e + 1) * n ≤ 16384 → elemOf (t.hart.getV d.toNat) n e = elemOf (h.getV d.toNat) n e) ∧
    (∀ v, v ≠ d.toNat → t.hart.getV v = h.getV v) ∧
    (t.core s.here).land.entries.length = hard.length ∧ (t.core s.here).land.seq = (s.core s.here).land.seq + 1 ∧
    ∀ k e, hard[k]? = some e → presentElem s.here s.me d.toNat n e t = false ∧
      ∃ q, lookup (t.core s.here).land.entries k = some q ∧ q.hart = BitVec.ofNat 2 s.me ∧
        q.seq = (s.core s.here).land.seq ∧ q.pc = h.pc ∧ q.cls = BitVec.ofNat 6 cls ∧ q.ty = BitVec.ofNat 4 r.sty ∧
        q.index = BitVec.ofNat 13 e ∧ q.reg = d ∧ q.live = BitVec.ofNat 64 (2 ^ n - 1) ∧ q.opa = BitVec.ofNat 64 (r.p e) ∧
        q.opb = BitVec.ofNat 64 (r.q e) ∧ q.opc = BitVec.ofNat 64 (r.c e) ∧ q.rm = h.fp.ctl.extractLsb' 0 3 ∧
        q.en = h.fp.ctl.extractLsb' 3 5 ∧ q.nft = h.fp.ctl.getLsbD 8 ∧
        q.srb = BitVec.ofNat 16 (randomBits h.fp.seed h.fp.ric e) ∧ q.links = [] ∧
        q.handler = lookupD (s.core s.here).land.fillTable cls 0 ∧ q.state = .ready ∧ q.cause = 0 ∧ q.detail = 0

/-- R72, R74, R75, R127 to R131, R283, R284: what the lane functions give on each type, rounded once; the floating lane
instructions on a type that they accept, where the lanes compute every active element: each active element is rounded
once in the captured mode, the flags of the active elements are ORed into FFLAGS, and under SR RIC moves on, but for
the minimum and maximum. R54, R72, R76, R78, R81, R82, R87: an fp32 or fp64 element that the lanes do not compute
becomes a hole: an entry of the Landing, ready for a ferry, whose destination element is absent; class 16 and up is
fp64. An operation that reads a hole makes one of its own, a waiting entry of class 63 linked to the entry that it
reads, for that element only. Here on a hart whose vector side follows the front at once (log entry 5). The choices and
readings of the model in it: log entries 96, 102. -/
def Obligations.FloatLaneResults : Prop :=
  (ArithmeticRounds (fun fn ty mode rb a b c => laneCompute fn ty ty ty none mode rb a b c) ∧
   SingleResults (fun fn ty mode rb a => laneCompute fn ty ty ty none mode rb a 0 0) ∧
   ∀ (s : State) (d a b : VReg) (x : XReg) (m : MReg), VectorReady s → s.hart.VlFits → s.hart.vec.vtype.getLsbD 4 = false →
     s.hart.ty ∈ [8, 9, 11, 12, 13, 14] →
     let h := s.hart
     let n := typeBits h.ty
     let va : Nat → Nat := elemOf (h.getV a.toNat) n
     let sr := bits h.fp.ctl.toNat 0 3 == 5
     (∀ row ∈ floatPairs d a b x m,
       let old : Nat → Nat := fun e => if row.2.2 = .fma then elemOf (h.getV d.toNat) n e else 0
       let run : (Nat → Nat) → LaneRun := fun q => ⟨row.2.2, h.ty, h.ty, h.ty, va, q, old⟩
       let consumes := sr && row.2.2 != .fmin && row.2.2 != .fmax
       let vv := run (elemOf (h.getV b.toNat) n)
       let vx := run fun _ => (h.getX x.toNat).toNat % 2 ^ n
       (vv.Easy h m → Completes row.1 (vv.hart h d.toNat m) 4 (vv.flags h m) consumes s) ∧
       (vx.Easy h m → Completes row.2.1 (vx.hart h d.toNat m) 4 (vx.flags h m) consumes s)) ∧
     ∀ row ∈ floatSingles d a m, (row.2.2 = true → h.ty = 13) →
       let run : LaneRun := ⟨row.2.1, h.ty, h.ty, h.ty, va, fun _ => 0, fun _ => 0⟩
       run.Easy h m → Completes row.1 (run.hart h d.toNat m) 4 (run.flags h m) sr s) ∧
  ((∀ (s : State) (d a b : VReg) (x : XReg) (m : MReg), VectorReady s → s.hart.VlFits → s.hart.vec.vtype.getLsbD 4 = false →
     s.hart.ty = 13 ∨ s.hart.ty = 14 →
     let h := s.hart
     let n := typeBits h.ty
     let va : Nat → Nat := elemOf (h.getV a.toNat) n
     let sr := bits h.fp.ctl.toNat 0 3 == 5
     let wide := if h.ty = 14 then 16 else 0
     (∀ row ∈ (floatPairs d a b x m).zipIdx,
       let fn := row.1.2.2
       let old : Nat → Nat := fun e => if fn = .fma then elemOf (h.getV d.toNat) n e else 0
       let consumes := sr && fn != .fmin && fn != .fmax
       LeavesHoles row.1.1 ⟨fn, h.ty, h.ty, h.ty, va, elemOf (h.getV b.toNat) n, old⟩ h d (row.2 + wide) consumes m s ∧
       LeavesHoles row.1.2.1 ⟨fn, h.ty, h.ty, h.ty, va, fun _ => (h.getX x.toNat).toNat % 2 ^ n, old⟩ h d (row.2 + wide) consumes
         m s) ∧
     ∀ row ∈ (floatSingles d a m).zipIdx, (row.1.2.2 = true → h.ty = 13) →
       LeavesHoles row.1.1 ⟨row.1.2.1, h.ty, h.ty, h.ty, va, fun _ => 0, fun _ => 0⟩ h d (row.2 + 7 + wide) sr m s) ∧
   ∀ (s : State) (d a b : VReg) (m : MReg) (k j : Nat) (p : LEntry), isFerry s.me = false → s.hart.vec.viq = [] →
     s.hart.vec.held = [] → s.hart.ms.stq = [] → s.hart.vec.lag = false → s.hart.ms.streams = [] → s.hart.lp.loop = none →
     (s.core s.here).dbg.breakpoints = [] → s.hart.VlFits → s.hart.vec.grant ≤ 64 →
     s.hart.vec.vtype.getLsbD 4 = false → s.hart.ty < 8 →
     (s.core s.here).land.entries = [(k, p)] → k < 256 → d ≠ a → b ≠ a → j ∈ s.hart.active m →
     let h := s.hart
     let n := typeBits h.ty
     p.hart.toNat = s.me → p.reg = a → p.index.toNat = j → p.width = n → p.live.toNat = 2 ^ n - 1 → p.state = .ready →
     ∃ t k' q, exec (.vadd d a b m) s = .next t ∧ k' ≠ k ∧ t.mem = s.mem ∧ t.hart.pc = h.pc + 4 ∧ t.hart.fp = h.fp ∧
       (∀ o, lookup (t.core s.here).land.entries o = if o = k then some p else if o = k' then some q else none) ∧
       q.hart = p.hart ∧ q.seq = (s.core s.here).land.seq ∧ q.pc = h.pc ∧ q.cls = 63 ∧ q.index = p.index ∧ q.reg = d ∧
       q.live = p.live ∧ q.links = [⟨k, 0, 0, 0, n⟩] ∧ q.opb = BitVec.ofNat 64 (elemOf (h.getV b.toNat) n j) ∧
       q.state = .waiting ∧ presentElem s.here s.me d.toNat n j t = false ∧
       (∀ e ∈ h.active m, e ≠ j →
         elemOf (t.hart.getV d.toNat) n e = (elemOf (h.getV a.toNat) n e + elemOf (h.getV b.toNat) n e) % 2 ^ n) ∧
       ∀ e, e ∉ h.active m → (e + 1) * n ≤ 16384 → elemOf (t.hart.getV d.toNat) n e = elemOf (h.getV d.toNat) n e)

/-- A hart whose sidecar of v[r] has the scales of some blocks of a type written; the odd byte of an FP8 block becomes 0 (R120). -/
def Sys2Proof.Machine.Hart.withScales (h : Hart) (r ty : Nat) (l : List (Nat × Nat)) : Hart :=
  if l = [] then h
  else h.setSide r (l.foldl (fun y b =>
    if ty = 10 then putSideByte y b.1 b.2 else putSideByte (putSideByte y (2 * b.1) b.2) (2 * b.1 + 1) 0) (h.getSide r))

/-- VTYPE.S = 1 with a scaled type, whole blocks of which a mask takes or leaves (R121). -/
def Sys2Proof.Machine.Hart.Blocks (h : Hart) (m : MReg) : Prop :=
  h.vec.vtype.getLsbD 4 = true ∧ h.vec.vl % 16 = 0 ∧
  ∀ b, b < h.vec.vl / 16 → ∀ i, i < 16 → maskBit (h.getM m.toNat) (16 * b + i) = maskBit (h.getM m.toNat) (16 * b)

/-- R117 to R122, R126, R138, R285, R287, R303: what a block scale, the elements of a block, and a wide product are;
products into a wider type and conversions, unscaled, from a scaled type, and to a scaled type, whose blocks get the
scale of their greatest element. R121, R251, R294: VMERGE takes every element below VL from b where the mask is 1 and
from v[a] where it is 0, under S = 1 with the scales of its blocks, 0x7F for a scalar; VADC and VSBC add and subtract
with the carry that the mask register holds for each element, which takes the carry or borrow of the element. Here on a
hart whose vector side follows the front at once (log entry 5). -/
def Obligations.WideningMergeCarryResults : Prop :=
  (BlocksRound ∧
   (∀ row ∈ [(8, 8, 11), (8, 9, 11), (9, 8, 11), (9, 9, 11), (11, 11, 13), (12, 12, 13), (13, 13, 14)], ∀ (mode : RMode) (rb a b : Nat),
     rb < 2 ^ 16 →
     let (sty, sty2, wide) := row
     let f := fmtOf wide
     let va := valueOf sty a
     let vb := valueOf sty2 b
     let x := va.rat * vb.rat
     let r := laneCompute .fwmul sty sty2 wide none mode rb a b 0
     (va.special = false → vb.special = false → (x ≠ 0 → RoundsTo f mode rb (decide (x < 0)) |x| r) ∧
       (x = 0 → r = (f.sign (va.isNeg != vb.isNeg), 0))) ∧
     (va.isNan = true ∨ vb.isNan = true → r = (f.nan, if va.isSnan || vb.isSnan then NV else 0))) ∧
   (∀ (s : Nat) (v : FVal), scaledBy 0xFF v = .nan false ∧
     (s < 255 → v.special = false → (scaledBy s v).rat = v.rat * 2 ^ ((s : Int) - 127) ∧ (scaledBy s v).isNeg = v.isNeg)) ∧
   ∀ (s : State) (d a b : VReg) (x : XReg) (m : MReg) (g : BitVec 5), VectorReady s → s.hart.VlFits →
     let h := s.hart
     let n := typeBits h.ty
     let va : Nat → Nat := elemOf (h.getV a.toNat) n
     let sr := bits h.fp.ctl.toNat 0 3 == 5
     let mode := rmodeOf (bits h.fp.ctl.toNat 0 3)
     let rb : Nat → Nat := randomBits h.fp.seed h.fp.ric
     let S := h.vec.vtype.getLsbD 4
     (S = false → h.ty ∈ [0, 1, 2, 4, 5, 6] → h.ty2 < 8 → typeBits h.ty2 = n →
       let wide := if h.ty < 4 ∨ h.ty2 < 4 then h.ty % 4 + 1 else h.ty % 4 + 5
       h.vec.vl ≤ vlMax h.vec.grant wide →
       let result : (Nat → Nat) → Hart := fun q => h.setElems d.toNat (2 * n) ((h.active m).map fun e =>
         (e, wrap (2 * n) (intOf h.ty (va e) * intOf h.ty2 (q e))))
       Completes (.vwmul d a b m) (result (elemOf (h.getV b.toNat) n)) 4 0 false s ∧
       Completes (.vwmulX d a x m) (result fun _ => (h.getX x.toNat).toNat % 2 ^ n) 4 0 false s) ∧
     (∀ wide, S = false → (h.ty, h.ty2, wide) ∈ [(8, 8, 11), (8, 9, 11), (9, 8, 11), (9, 9, 11), (11, 11, 13), (12, 12, 13),
         (13, 13, 14)] → h.vec.vl ≤ vlMax h.vec.grant wide →
       let run : LaneRun := ⟨.fwmul, h.ty, h.ty2, wide, va, elemOf (h.getV b.toNat) (typeBits h.ty2), fun _ => 0⟩
       run.Easy h m → Completes (.vfwmul d a b m) (run.hart h d.toNat m) 4 (run.flags h m) sr s) ∧
     (g.toNat ≠ h.ty → g.toNat < 15 → h.ty < 15 → (8 ≤ h.ty ∨ 8 ≤ g.toNat) → h.vec.vl ≤ vlMax h.vec.grant g.toNat →
       (S = false → h.ty ≠ 10 → g.toNat ≠ 10 →
         let run : LaneRun := ⟨.fcvt, h.ty, h.ty, g.toNat, va, fun _ => 0, fun _ => 0⟩
         run.Easy h m → Completes (.vfcvt d a g m) (run.hart h d.toNat m) 4 (run.flags h m) sr s) ∧
       (h.Blocks m → h.ty ∈ [8, 9, 10] → g.toNat ∉ [8, 9, 10] →
         let r : Nat → Nat × Nat := fun e => convertTo g.toNat mode (rb e)
           (scaledBy (sideByte (h.getSide a.toNat) (scaleIndex h.ty (e / 16))) (valueOf h.ty (va e)))
         Completes (.vfcvt d a g m)
           (h.setElems d.toNat (typeBits g.toNat) ((h.active m).map fun e => (e, (r e).1))) 4
           ((h.active m).foldl (fun f e => f ||| (r e).2) 0) sr s) ∧
       (h.Blocks m → g.toNat ∈ [8, 9, 10] → h.ty ≠ 13 → h.ty ≠ 14 →
         let value : Nat → FVal := fun e =>
           if h.ty ∈ [8, 9, 10] then scaledBy (sideByte (h.getSide a.toNat) (scaleIndex h.ty (e / 16))) (valueOf h.ty (va e))
           else valueOf h.ty (va e)
         let scale : Nat → Nat := fun b => blockScale g.toNat ((List.range 16).map fun i => value (16 * b + i))
         let r : Nat → Nat × Nat := fun e => blockElem g.toNat mode (rb e) (scale (e / 16)) (value e)
         let blocks := (List.range (h.vec.vl / 16)).filter fun b => maskBit (h.getM m.toNat) (16 * b)
         Completes (.vfcvt d a g m)
           ((h.withScales d.toNat g.toNat (blocks.map fun b => (b, scale b))).setElems d.toNat (typeBits g.toNat)
             ((h.active m).map fun e => (e, (r e).1))) 4
           ((h.active m).foldl (fun f e => f ||| (r e).2) 0) sr s))) ∧
  (∀ (s : State) (d a b : VReg) (x : XReg) (m : MReg), VectorReady s → s.hart.VlFits → s.hart.vec.vl ≤ 4096 →
     let h := s.hart
     let n := typeBits h.ty
     let va : Nat → Nat := elemOf (h.getV a.toNat) n
     let vb : Nat → Nat := elemOf (h.getV b.toNat) n
     let xb : Nat → Nat := fun _ => (h.getX x.toNat).toNat % 2 ^ n
     let mk : Nat → Bool := maskBit (h.getM m.toNat)
     let merged : (Nat → Nat) → Hart → Hart := fun q h =>
       h.setElems d.toNat n ((List.range h.vec.vl).map fun e => (e, if mk e then q e else va e))
     let sc : VReg → Nat → Nat := fun r i => sideByte (h.getSide r.toNat) (scaleIndex h.ty i)
     let scaled : (Nat → Nat) → Hart := fun q =>
       h.withScales d.toNat h.ty ((List.range (h.vec.vl / 16)).map fun i => (i, if mk (16 * i) then q i else sc a i))
     (h.vec.vtype.getLsbD 4 = false → h.ty ≠ 10 →
       Completes (.vmerge d a b m) (merged vb h) 4 0 false s ∧ Completes (.vmergeX d a x m) (merged xb h) 4 0 false s) ∧
     (h.Blocks m → h.ty ∈ [8, 9, 10] →
       Completes (.vmerge d a b m) (merged vb (scaled (sc b))) 4 0 false s ∧
       Completes (.vmergeX d a x m) (merged xb (scaled fun _ => 0x7F)) 4 0 false s) ∧
     (h.vec.vtype.getLsbD 4 = false → h.ty < 8 →
       ∀ row ∈ [(Instr.vadc d a b m, false, vb), (.vadcX d a x m, false, xb), (.vsbc d a b m, true, vb), (.vsbcX d a x m, true, xb)],
         let q : Nat → Nat := fun e => row.2.2 e + if mk e then 1 else 0
         let out : Nat → Nat := fun e => if row.2.1 then (va e + 2 ^ (n + 1) - q e) % 2 ^ n else (va e + q e) % 2 ^ n
         let carry : Nat → Bool := fun e => if row.2.1 then decide (va e < q e) else decide (2 ^ n ≤ va e + q e)
         ∃ y : MaskBits,
           (∀ e, e < 4096 → maskBit y e = if e < h.vec.vl then carry e else mk e) ∧
           Completes row.1 ((h.setElems d.toNat n ((List.range h.vec.vl).map fun e => (e, out e))).setM m.toNat y) 4 0 false s))

/-- R46, R97, R251 to R253, R271, R281: compares write the bits of the active elements of a mask, the six relations of
VCMP on the bits of the elements, LT and GE signed and LTN and GEN natural, and mask logic those below VL; the others
stay; m0 is not writable. MPOP, MFIRST and MLAST count and find set elements for x[d], all ones where there is none;
VTEST sets k from the elements of a mask: 0 any, 1 none, 2 all. Here on a hart whose vector side follows the front at
once (log entry 5). -/
def Obligations.MaskResults : Prop :=
  ∀ (s : State) (d p q m : MReg) (a b : VReg) (x : XReg) (cc : BitVec 3) (sh : BitVec 5) (dx : BitVec 5) (k : KReg),
    VectorReady s → s.hart.vec.vl ≤ 4096 →
    let h := s.hart
    let n := typeBits h.ty
    let va : Nat → Nat := elemOf (h.getV a.toNat) n
    let vb : Nat → Nat := elemOf (h.getV b.toNat) n
    let xb : Nat → Nat := fun _ => (h.getX x.toNat).toNat % 2 ^ n
    let bitOf : MReg → Nat → Bool := fun r => maskBit (h.getM r.toNat)
    let sets : Instr → (Nat → Bool) → (Nat → Bool) → Nat → Prop := fun i on value f =>
      ∃ y : MaskBits,
        (∀ e, e < 4096 → maskBit y e = if e < h.vec.vl ∧ on e = true then value e else bitOf d e) ∧
        Completes i (h.setM d.toNat y) 4 f false s
    let signed : Nat → Int := fun p => (BitVec.ofNat n p).toInt
    let relation : Nat → Nat → Bool := fun p q => match cc.toNat with
      | 0 => decide (p = q)
      | 1 => decide (p ≠ q)
      | 2 => decide (signed p < signed q)
      | 3 => decide (signed q ≤ signed p)
      | 4 => decide (p < q)
      | _ => decide (q ≤ p)
    (h.VlFits → h.vec.vtype.getLsbD 4 = false →
      (h.ty < 8 → cc.toNat < 6 →
        sets (.vcmp d a b m cc) (bitOf m) (fun e => relation (va e) (vb e)) 0 ∧
        sets (.vcmpX d a x m cc) (bitOf m) (fun e => relation (va e) (xb e)) 0) ∧
      (h.ty ∈ [8, 9, 11, 12, 13, 14] →
        let rel : (Nat → Nat) → Nat → Bool × Nat := fun v e => fpRelation cc.toNat (valueOf h.ty (va e)) (valueOf h.ty (v e))
        let flags : (Nat → Nat) → Nat := fun v => (h.active m).foldl (fun f e => f ||| (rel v e).2) 0
        sets (.vfcmp d a b m cc) (bitOf m) (fun e => (rel vb e).1) (flags vb) ∧
        sets (.vfcmpX d a x m cc) (bitOf m) (fun e => (rel xb e).1) (flags xb))) ∧
    sets (.mand d p q) (fun _ => true) (fun e => bitOf p e && bitOf q e) 0 ∧
    sets (.mor d p q) (fun _ => true) (fun e => bitOf p e || bitOf q e) 0 ∧
    sets (.mxor d p q) (fun _ => true) (fun e => bitOf p e ^^ bitOf q e) 0 ∧
    sets (.mnot d p) (fun _ => true) (fun e => !bitOf p e) 0 ∧
    sets (.mshl d p sh) (fun _ => true) (fun e => decide (sh.toNat ≤ e) && bitOf p (e - sh.toNat)) 0 ∧
    sets (.mset d) (fun _ => true) (fun _ => true) 0 ∧ sets (.mclr d) (fun _ => true) (fun _ => false) 0 ∧
    (let on := (List.range h.vec.vl).filter (bitOf p)
     Completes (.mpop dx p) (h.setX dx.toNat (BitVec.ofNat 64 on.length)) 4 0 false s ∧
     (∀ e, e ∈ on → (∀ f ∈ on, e ≤ f) → Completes (.mfirst dx p) (h.setX dx.toNat (BitVec.ofNat 64 e)) 4 0 false s) ∧
     (∀ e, e ∈ on → (∀ f ∈ on, f ≤ e) → Completes (.mlast dx p) (h.setX dx.toNat (BitVec.ofNat 64 e)) 4 0 false s) ∧
     (on = [] → Completes (.mfirst dx p) (h.setX dx.toNat (BitVec.allOnes 64)) 4 0 false s ∧
       Completes (.mlast dx p) (h.setX dx.toNat (BitVec.allOnes 64)) 4 0 false s) ∧
     Completes (.vtest k p 0) (h.setK k.toNat (on.any fun _ => true)) 4 0 false s ∧
     Completes (.vtest k p 1) (h.setK k.toNat on.isEmpty) 4 0 false s ∧
     Completes (.vtest k p 2) (h.setK k.toNat ((List.range h.vec.vl).all (bitOf p))) 4 0 false s)

/-- The word that R129 makes of the seed, the counter and a key, by its five lines. -/
def Sys2Proof.Machine.generator (seed ric : Word) (key : Nat) : Word :=
  let z := seed ^^^ (ric <<< 20) ^^^ BitVec.ofNat 64 key
  let z := z ^^^ (z >>> 33)
  let z := z * 0x9E3779B97F4A7C15
  let z := z ^^^ (z >>> 29)
  let z := z * 0xBF58476D1CE4E5B9
  z ^^^ (z >>> 32)

/-- R77, R120, R121, R129, R130, R282, R288, R295, R296, R298, R301, R304: the permutes, slides and moves of a hart
with nothing in flight. A slide by x[b] fills with 0, the value 1 of the type, or keeps the element; under S = 1 it
moves blocks with their scales. VRAND writes the low bits of the generator of R129, whose lowest 16 the rounding takes.
VMVX sign-extends i8, i16 and i32. VREL makes a register zero, and PRES, where the type and VL suit S, finds every
element present. Here on a hart whose vector side follows the front at once (log entry 5). The choices and readings of
the model in it: log entries 22, 27. -/
def Obligations.PermuteResults : Prop :=
  (∀ (seed ric : Word) (key : Nat), randomBits seed ric key = (generator seed ric key).toNat % 2 ^ 16) ∧
  ∀ (s : State) (d a b : VReg) (x : XReg) (m : MReg) (dx : BitVec 5), VectorReady s → s.hart.VlFits → s.hart.vec.vl ≤ 4096 →
    let h := s.hart
    let n := typeBits h.ty
    let vl := h.vec.vl
    let va : Nat → Nat := elemOf (h.getV a.toNat) n
    let w := h.getX x.toNat
    let put : List (Nat × Nat) → Hart := fun l => h.setElems d.toNat n l
    let one : Nat := match h.ty with
      | 8 => 0x38 | 9 => 0x3C | 10 => 2 | 11 => 0x3C00 | 12 => 0x3F80 | 13 => 0x3F800000 | 14 => 0x3FF0000000000000
      | _ => 1
    let slides : List (Instr × Bool × Option Nat × Option Nat) :=
      [(.vslideupZero d a x m, true, some 0, some 0x7F), (.vslideupOne d a x m, true, some one, some 0x7F),
       (.vslideupKeep d a x m, true, none, none), (.vslidednZero d a x m, false, some 0, some 0x7F),
       (.vslidednOne d a x m, false, some one, some 0x7F), (.vslidednKeep d a x m, false, none, none)]
    let source : Bool → Nat → Nat → Nat → Option Nat := fun up e k lim =>
      if up then (if k ≤ e then some (e - k) else none) else if e + k < lim then some (e + k) else none
    let slid : Bool → Option Nat → List (Nat × Nat) := fun up fill => (h.active m).filterMap fun e =>
      match source up e w.toNat vl, fill with
      | some j, _ => some (e, va j)
      | none, some v => some (e, v)
      | none, none => none
    (h.vec.vtype.getLsbD 4 = false → h.ty ≠ 10 → h.ty < 15 →
      Completes (.vgath d a b m) (put ((h.active m).map fun e =>
        (e, if elemOf (h.getV b.toNat) n e < vl then va (elemOf (h.getV b.toNat) n e) else 0))) 4 0 false s ∧
      Completes (.vcomp d a m) (put ((h.active m).zipIdx.map fun e => (e.2, va e.1))) 4 0 false s ∧
      Completes (.vxpnd d a m) (put ((h.active m).zipIdx.map fun e => (e.1, va e.2))) 4 0 false s ∧
      (∀ row ∈ slides, Completes row.1 (put (slid row.2.1 row.2.2.1)) 4 0 false s) ∧
      Completes (.vmvx dx a x) (h.setX dx.toNat
        (if w.toNat < vl then (if h.ty < 3 then BitVec.ofInt 64 (signedOf n (va w.toNat)) else BitVec.ofNat 64 (va w.toNat))
         else 0)) 4 0 false s ∧
      Completes (.vmvs d x m) (put (if 0 < vl ∧ maskBit (h.getM m.toNat) 0 = true then [(0, w.toNat % 2 ^ n)] else [])) 4 0 false s ∧
      Completes (.vsplat d x m) (put ((h.active m).map fun e => (e, w.toNat % 2 ^ n))) 4 0 false s ∧
      Completes (.vrand d m) (put ((h.active m).map fun e => (e, (generator h.fp.seed h.fp.ric e).toNat % 2 ^ n))) 4 0 true s) ∧
    (h.Blocks m → h.ty ∈ [8, 9, 10] → w.toNat % 16 = 0 → ∀ row ∈ slides,
      let blocks := (List.range (vl / 16)).filter fun b => maskBit (h.getM m.toNat) (16 * b)
      let scales := blocks.filterMap fun b => match source row.2.1 b (w.toNat / 16) (vl / 16), row.2.2.2 with
        | some j, _ => some (b, sideByte (h.getSide a.toNat) (scaleIndex h.ty j))
        | none, some v => some (b, v)
        | none, none => none
      Completes row.1 ((h.withScales d.toNat h.ty scales).setElems d.toNat n (slid row.2.1 row.2.2.1)) 4 0 false s) ∧
    Completes (.vrel d) { (h.setV d.toNat 0).setSide d.toNat 0 with
      vec := { ((h.setV d.toNat 0).setSide d.toNat 0).vec with written := insert h.vec.written d.toNat 0 } } 4 0 false s ∧
    let fits : Prop := if h.vec.vtype.getLsbD 4 = true then h.ty ∈ [8, 9, 10] ∧ vl % 16 = 0 else h.ty ≠ 10
    (fits → ∃ y : MaskBits, (∀ e, e < 4096 → maskBit y e = (decide (e < vl) || maskBit (h.getM m.toNat) e)) ∧
      Completes (.pres m a) (h.setM m.toNat y) 4 0 false s) ∧
    (¬ fits → CanTrap s → ∃ t, exec (.pres m a) s = .next t ∧ t.hart.tr.tcause.getLsbD 62 = true ∧
      wbits t.hart.tr.tcause 0 8 = 0x11 ∧ t.hart.tr.tinfo0 = h.vec.vtype ∧ t.hart.vec.m = h.vec.m)

/-- A reduction's operation on two positions of an integer type of `n` bits, and what it leaves alone (R134): 0 the sum, 1 the
least, 2 the greatest, 3 and, 4 or, 5 exclusive or. -/
def Sys2Proof.Machine.reduceOp (signed : Bool) (n kind p q : Nat) : Nat :=
  match kind with
  | 0 => (p + q) % 2 ^ n
  | 1 => if signed then (if signedOf n p ≤ signedOf n q then p else q) else Nat.min p q
  | 2 => if signed then (if signedOf n p ≤ signedOf n q then q else p) else Nat.max p q
  | 3 => p &&& q
  | 4 => p ||| q
  | _ => p ^^^ q

def Sys2Proof.Machine.reduceUnit (signed : Bool) (n kind : Nat) : Nat :=
  match kind with
  | 1 => if signed then 2 ^ (n - 1) - 1 else 2 ^ n - 1
  | 2 => if signed then 2 ^ (n - 1) else 0
  | 3 => 2 ^ n - 1
  | _ => 0

/-- The tree of R134 over 2^n positions: every level combines position i with position i + 2^(n - 1), and its flags join. -/
def Sys2Proof.Machine.tree (op : Nat → Option Nat → Option Nat → Option Nat × Nat) :
    Nat → (Nat → Option Nat) → Nat → Option Nat × Nat
  | 0, s, f => (s 0, f)
  | n + 1, s, f => tree op n (fun i => (op i (s i) (s (i + 2 ^ n))).1)
      ((List.range (2 ^ n)).foldl (fun f i => f ||| (op i (s i) (s (i + 2 ^ n))).2) f)

/-- The steps of the scan of R135 at distances d, 2 d, … below `vl`. -/
def Sys2Proof.Machine.scanTree (op : Nat → Option Nat → Option Nat → Option Nat × Nat) (vl : Nat) :
    Nat → Nat → (Nat → Option Nat) → Nat → (Nat → Option Nat) × Nat
  | 0, _, s, f => (s, f)
  | fuel + 1, d, s, f =>
    if vl ≤ d then (s, f)
    else scanTree op vl fuel (2 * d) (fun i => if i < d then s i else (op i (s (i - d)) (s i)).1)
      ((List.range vl).foldl (fun f i => if i < d then f else f ||| (op i (s (i - d)) (s i)).2) f)

/-- R58, R134, R135, R297, R299: reductions and scans. On an integer type the result is that of the active elements
taken in order, and position e of a scan that of those up to e; on a floating type of up to 32 bits the elements are
widened to fp32, the tree combines them with the mode and random bits of each position, and a scan rounds back. Here on
a hart whose vector side follows the front at once (log entry 5). The choices and readings of the model in it: log
entries 78, 105. -/
def Obligations.ReductionResults : Prop :=
  ∀ (s : State) (d a : VReg) (m : MReg) (k : BitVec 3) (dx : BitVec 5), VectorReady s → s.hart.VlFits → s.hart.vec.vl ≤ 4096 →
    s.hart.vec.vtype.getLsbD 4 = false →
    let h := s.hart
    let n := typeBits h.ty
    let vl := h.vec.vl
    let va : Nat → Nat := elemOf (h.getV a.toNat) n
    (h.ty < 8 → k.toNat < 6 →
      let fold : List Nat → Nat := fun l =>
        l.foldl (fun p e => reduceOp (h.ty < 4) n k.toNat p (va e)) (reduceUnit (h.ty < 4) n k.toNat)
      Completes (.vred d a k m) (if vl = 0 then h else h.setElems d.toNat n [(0, fold (h.active m))]) 4 0 false s ∧
      Completes (.vredXd dx a k m) (h.setX dx.toNat (BitVec.ofNat 64 (fold (h.active m)))) 4 0 false s ∧
      Completes (.vscan d a k m) (h.setElems d.toNat n
        ((h.active m).map fun e => (e, fold ((h.active m).filter fun j => decide (j ≤ e))))) 4 0 false s) ∧
    (h.ty ∈ [8, 9, 11, 12, 13, 14] → k.toNat < 3 →
      let mode := rmodeOf (bits h.fp.ctl.toNat 0 3)
      let wide := if h.ty = 14 then 14 else 13
      let fn : LaneFn := if k.toNat = 0 then .fadd else if k.toNat = 1 then .fmin else .fmax
      let op : Nat → Option Nat → Option Nat → Option Nat × Nat := fun i p q => match p, q with
        | none, q => (q, 0)
        | p, none => (p, 0)
        | some p, some q =>
          let r := fpCompute fn wide wide wide mode (randomBits h.fp.seed h.fp.ric i) p q 0
          (some r.1, r.2)
      let widened : Nat → Nat × Nat := fun e => if h.ty = wide then (va e, 0) else convertTo 13 .rne 0 (valueOf h.ty (va e))
      let start : Nat → Option Nat := fun e =>
        if e < vl ∧ maskBit (h.getM m.toNat) e = true then some (widened e).1 else none
      let flags := (h.active m).foldl (fun f e => f ||| (widened e).2) 0
      let sr := bits h.fp.ctl.toNat 0 3 == 5 && k == 0
      let unit : Nat := match k.toNat with
        | 1 => (fmtOf wide).top + 1
        | 2 => (fmtOf wide).signBit + (fmtOf wide).top + 1
        | _ => 0
      (∀ p, vl ≤ 2 ^ p → (p = 0 ∨ 2 ^ (p - 1) < vl) →
        let r := tree op p start flags
        Completes (.vred d a k m) (if vl = 0 then h else h.setElems d.toNat (typeBits wide) [(0, r.1.getD unit)]) 4 r.2 sr s ∧
        Completes (.vredXd dx a k m) (h.setX dx.toNat (BitVec.ofNat 64 (r.1.getD unit))) 4 r.2 sr s) ∧
      let r := scanTree op vl 13 1 start flags
      let back : Nat → Nat × Nat := fun e =>
        let w := (r.1 e).getD 0
        if h.ty = wide then (w, 0) else convertTo h.ty mode (randomBits h.fp.seed h.fp.ric e) (valueOf 13 w)
      Completes (.vscan d a k m) (h.setElems d.toNat n ((h.active m).map fun e => (e, (back e).1))) 4
        ((h.active m).foldl (fun f e => f ||| (back e).2) r.2) sr s)

/-! Vector memory -/

/-- An access of `n` bytes at `addr` of a space reaches the place `p` (R140 to R142, R165): 0 the arena of the hart's group, 1 the
arena of a member of its gang, else GV through a page that the core's TLB holds and whose heat is not counted. Every entry of
the TLB for the address gives the same place, so that the page that an instruction holds since its dispatch does too. A read
meets no poison. -/
structure Sys2Proof.Machine.PlaceAt (space : Nat) (k : Access) (addr : Word) (n p : Nat) (s : State) : Prop where
  clean : k = .write ∨ poisoned p n s = false
  ls : space = 0 → addr.toNat + n ≤ s.arenaSize ∧ p = lsPlace s.here (s.arenaBase + addr.toNat)
  cls : space = 1 → ∃ g i y, s.myGroup = some g ∧ s.gangMember g (addr.toNat / Config.lsSize) = some (i, y) ∧
    addr.toNat % Config.lsSize + n ≤ y.size ∧ y.aborted = false ∧
    p = lsPlace y.core.toNat (y.lsBase + addr.toNat % Config.lsSize)
  gv : 2 ≤ space → addr.toNat < 2 ^ 48 ∧ (tlbFind (s.core s.here).tlb s.hart.ms.asid addr.toNat).isSome = true ∧
    reachable s.here p s = .ok () s ∧
    ∀ leaf ∈ (s.core s.here).tlb, leaf.asid = s.hart.ms.asid ∨ leaf.pte.getLsbD 13 = true →
      addr.toNat / 2 ^ leaf.bits * 2 ^ leaf.bits = leaf.base →
      leafRefuses leaf.pte k s.hart.tr.sup = none ∧ (k.writes = true → leaf.pte.getLsbD 6 = true) ∧
      leaf.pte.getLsbD 8 = false ∧ p = wbits leaf.pte 9 2 * 2 ^ 56 + physical leaf addr.toNat

/-- As `PlaceAt`, for an access that must be aligned (R291). -/
structure Sys2Proof.Machine.SpanAt (space : Nat) (k : Access) (addr : Word) (n p : Nat) (s : State) : Prop
    extends PlaceAt space k addr n p s where
  aligned : addr.toNat % n = 0

/-- The forms of a vector load or store: its instruction and the address of element e, of `sz` bytes (R291). -/
def Sys2Proof.Machine.vectorAddrs (h : Hart) (a b : XReg) (vb : VReg) (sz : Nat) : Nat → Nat → Word := fun form e =>
  h.getX a.toNat + (match form with
    | 0 => BitVec.ofNat 64 (e * sz)
    | 1 => BitVec.ofNat 64 e * h.getX b.toNat
    | _ => BitVec.ofNat 64 (elemOf (h.getV vb.toNat) (typeBits h.ty) e))

/-- The data address and scale address of block b with S = 1 (R292): data of `db` bytes; the scale bytes of a unit access follow
all its data, those of a strided one the data of their block. -/
def Sys2Proof.Machine.blockAddrs (h : Hart) (a b : XReg) (db : Nat) : Nat → Nat → Word × Word := fun form k =>
  if form = 0 then (h.getX a.toNat + BitVec.ofNat 64 (k * db), h.getX a.toNat + BitVec.ofNat 64 (h.vec.vl / 16 * db + k))
  else
    let p := h.getX a.toNat + BitVec.ofNat 64 k * h.getX b.toNat
    (p, p + BitVec.ofNat 64 db)

/-- No sample of a vector memory instruction is due on the core (R248). -/
def Sys2Proof.Machine.NoSample (s : State) : Prop := (s.core s.here).dbg.sampled + 1 < 2 ^ (s.core s.here).dbg.sampleExp

/-- Memory with the `n` low bytes of numbers written at places, in order, the lowest byte first (R3). -/
def Sys2Proof.Machine.written (m : Memory) (n : Nat) (l : List (Nat × Nat)) : Memory :=
  l.foldl (fun m e => writeNat m e.1 n e.2) m

/-- R79, R80, R120, R140, R248, R291 to R293: vector loads of a hart with nothing in flight, of every form and space:
each active element takes the bytes at its address, the lowest first, and under S = 1 each active block its 16 elements
and its scale; the masked elements stay. The core counts the instruction towards its next sample. R79, R80, R140, R144,
R230, R248, R302: vector stores of a hart with nothing in flight whose stores commit at once, of every form and space:
the active elements are written at their addresses in element order, and no other byte changes; a line of which all 64
bytes are written is no longer poisoned, and no other; under S = 1 the active blocks with their scale bytes. Here on a
hart whose vector side follows the front at once (log entry 5). The choices and readings of the model in it: log entry
13. -/
def Obligations.VectorLoadStoreResults : Prop :=
  (∀ (s : State) (r vb : VReg) (a b : XReg) (m : MReg) (o : BitVec 2), VectorReady s → s.hart.VlFits → NoSample s →
     let h := s.hart
     let n := typeBits h.ty
     let space := h.vec.mspace.toNat
     let loads : Instr → Hart → Prop := fun i g =>
       ∃ t, exec i s = .next (t.modCore s.here fun k => { k with dbg := { k.dbg with sampled := k.dbg.sampled + 1 } }) ∧
         OnlyVector (g.afterVector 4 0 false) s t
     (h.vec.vtype.getLsbD 4 = false → h.ty ≠ 10 → ∀ row ∈ [(Instr.vld r a m o, 0), (.vlds r a b m o, 1), (.vldx r a vb m o, 2)],
       ∀ p : Nat → Nat, (∀ e ∈ h.active m, SpanAt space .read (vectorAddrs h a b vb (n / 8) row.2 e) (n / 8) (p e) s) →
         loads row.1 (h.setElems r.toNat n ((h.active m).map fun e => (e, readNat s.mem (p e) (n / 8))))) ∧
     (h.Blocks m → h.ty ∈ [8, 9, 10] → ∀ row ∈ [(Instr.vld r a m o, 0), (.vlds r a b m o, 1)],
       let db := if h.ty = 10 then 8 else 16
       let blocks := (List.range (h.vec.vl / 16)).filter fun k => maskBit (h.getM m.toNat) (16 * k)
       ∀ (p : Nat → Nat → Nat) (q : Nat → Nat),
         (∀ k ∈ blocks, (∀ i, i < db →
           SpanAt space .read ((blockAddrs h a b db row.2 k).1 + BitVec.ofNat 64 i) 1 (p k i) s) ∧
           SpanAt space .read (blockAddrs h a b db row.2 k).2 1 (q k) s) →
         let byte : Nat → Nat → Nat := fun k i => (readPlace s.mem (p k i)).toNat
         loads row.1 ((h.setElems r.toNat n (blocks.flatMap fun k => (List.range 16).map fun i =>
           (16 * k + i, if h.ty = 10 then byte k (i / 2) / 16 ^ (i % 2) % 16 else byte k i))).withScales r.toNat h.ty
             (blocks.map fun k => (k, (readPlace s.mem (q k)).toNat))))) ∧
  (∀ (s : State) (r vb : VReg) (a b : XReg) (m : MReg) (o : BitVec 2), VectorReady s → s.hart.VlFits → s.Sound → NoSample s →
     s.hart.run.wait = none →
     let h := s.hart
     let n := typeBits h.ty
     let vr : Nat → Nat := elemOf (h.getV r.toNat) n
     let space := h.vec.mspace.toNat
     let stores : Instr → List Nat → Memory → Prop := fun i bytes mem =>
       ∃ t, exec i s = .next t ∧ t.hart = h.afterVector 4 0 false ∧ (∀ p, readPlace t.mem p = readPlace mem p) ∧
         t.poison = s.poison.filter (fun l => !(l % 64 == 0 && (List.range 64).all fun i => bytes.contains (l + i))) ∧ t.wharf = s.wharf ∧ t.host = s.host ∧ t.dies = s.dies ∧
         ∀ c k, c ≠ s.here ∨ k ≠ s.me → (s.hartAt c k).run.wait = none → t.hartAt c k = s.hartAt c k
     (h.vec.vtype.getLsbD 4 = false → h.ty ≠ 10 → ∀ row ∈ [(Instr.vst r a m o, 0), (.vsts r a b m o, 1), (.vstx r a vb m o, 2)],
       ∀ p : Nat → Nat, (∀ e ∈ h.active m, SpanAt space .write (vectorAddrs h a b vb (n / 8) row.2 e) (n / 8) (p e) s) →
         stores row.1 ((h.active m).flatMap fun e => (List.range (n / 8)).map fun i => p e + i)
           (written s.mem (n / 8) ((h.active m).map fun e => (p e, vr e)))) ∧
     (h.Blocks m → h.ty ∈ [8, 9, 10] → ∀ row ∈ [(Instr.vst r a m o, 0), (.vsts r a b m o, 1)],
       let db := if h.ty = 10 then 8 else 16
       let blocks := (List.range (h.vec.vl / 16)).filter fun k => maskBit (h.getM m.toNat) (16 * k)
       ∀ (p : Nat → Nat → Nat) (q : Nat → Nat),
         (∀ k ∈ blocks, (∀ i, i < db →
           SpanAt space .write ((blockAddrs h a b db row.2 k).1 + BitVec.ofNat 64 i) 1 (p k i) s) ∧
           SpanAt space .write (blockAddrs h a b db row.2 k).2 1 (q k) s) →
         stores row.1 (blocks.flatMap fun k => (List.range db).map (p k) ++ [q k]) (written s.mem 1 (blocks.flatMap fun k =>
           ((List.range db).map fun i =>
             (p k i, if h.ty = 10 then vr (16 * k + 2 * i) + 16 * vr (16 * k + 2 * i + 1) else vr (16 * k + i))) ++
             [(q k, sideByte (h.getSide r.toNat) (scaleIndex h.ty k))]))))

/-! Strips of streams -/

/-- The byte offset of element `p` of a pattern from BASE, its levels innermost first (R145). -/
def Sys2Proof.Machine.patternOffset : List (Nat × Int) → Nat → Int
  | [], _ => 0
  | (n, st) :: rest, p => ((p % n : Nat) : Int) * st + patternOffset rest (p / n)

/-- The number of elements of a pattern (R145). -/
def Sys2Proof.Machine.patternSize : List (Nat × Int) → Nat
  | [] => 1
  | (n, _) :: rest => n * patternSize rest

/-- A hart with nothing in flight whose one stream is that of a slot, with its vector side behind the front at once. -/
structure Sys2Proof.Machine.StreamReady (slot : Nat) (q : Stream) (s : State) : Prop extends Idle s where
  lag : s.hart.vec.lag = false
  streams : s.hart.ms.streams = [(slot, q)]
  loop : s.hart.lp.loop = none
  breakpoints : (s.core s.here).dbg.breakpoints = []
  lanes : s.hart.vec.grant ≤ 64
  sample : NoSample s
  levels : ∀ l ∈ q.desc.levels, 1 ≤ l.1
  unscaled : s.hart.vec.vtype.getLsbD 4 = false
  strip : 0 < s.hart.vec.vl

/-- The address of element `e` of the next strip of a stream whose pattern lies `off` bytes on (R145, R150). -/
def Sys2Proof.Machine.stripAddr (q : Stream) (off e : Nat) : Word :=
  BitVec.ofInt 64 ((off + q.desc.base : Nat) + patternOffset q.desc.levels (q.pos + e))

/-- A vector-side exception of the instruction of 4 bytes that the hart has just dispatched, at its first element. -/
def Sys2Proof.Machine.TrapsAtDispatched (i : Instr) (code : Nat) (info0 info2 : Word) (h : Hart) (t : State) : Prop :=
  t.hart.tr.tcause.getLsbD 62 = true ∧ wbits t.hart.tr.tcause 0 8 = code ∧ t.hart.tr.tinfo0 = info0 ∧
  t.hart.tr.tinfo2 = info2 ∧ t.hart.tr.tvcp = h.pc.zeroExtend 64 ∧ t.hart.tr.tvst = 0 ∧
  t.hart.vec.held.map (fun e => (e.instr, e.pc)) = [(i, h.pc)] ∧ t.hart.vec.v = h.vec.v

/-- R145, R146, R273: SDEF of an LS descriptor whose fields are legal, with no captured loop: base, space, type,
direction and the six levels as the 64 bytes hold them, position 0, and not bound. SBIND binds a register to it, and
SUNB unbinds it. R145, R147 to R150, R151, R273: an integer sum whose source is bound to a load stream pops the next
strip into the source: the elements of the pattern from P on in pattern order, and zero beyond its end; P moves past
them. One whose destination is bound to a store stream appends the active elements of its result in element order; P
moves as for a pop. At P = N both raise STREAM, and so does a write of a register that a load stream is bound to; an
element of another width raises FORMAT. A stream over a channel pops its head slot, which it takes at the end of the
pattern, and waits while that is not filled; it appends to the tail slot, which it fills at the end of the pattern; and
the pattern starts again at the next slot (R148, R149). The choices and readings of the model in it: log entries 38,
104. -/
def Obligations.StreamResults : Prop :=
  (∀ (s : State) (a : XReg) (n : BitVec 3) (v : VReg), isFerry s.me = false → s.hart.lp.loop = none →
     let p := lsPlace s.here (s.arenaBase + (s.hart.getX a.toNat).toNat)
     let at' : Nat → Nat → Nat := fun i k => readNat s.mem (p + i) k
     let sizes : Nat → Int := fun ty => ((typeBits ty / 8 : Nat) : Int)
     (Settled [a.toNat] [] s → ReachesLs (s.hart.getX a.toNat) 64 s →
       (∀ q, lookup s.hart.ms.streams n.toNat = some q → q.bound = none) →
       at' 6 2 = 0 → at' 8 1 < 4 → at' 9 1 < 15 → at' 9 1 ≠ 10 → at' 10 1 < 2 → at' 11 1 < 16 → at' 12 4 = 0 →
       (∀ j, j < 6 → at' (16 + 8 * j) 4 ≠ 0 ∧ signedOf 32 (at' (20 + 8 * j) 4) % sizes (at' 9 1) = 0) →
       let desc : StreamDesc :=
         { base := at' 0 8
           space := if at' 8 1 = 3 then s.hart.vec.mspace.toNat else at' 8 1
           ty := BitVec.ofNat 4 (at' 9 1)
           store := decide (at' 10 1 = 1)
           chv := false
           ch := at' 11 1
           levels := (List.range 6).map fun j => (at' (16 + 8 * j) 4, signedOf 32 (at' (20 + 8 * j) 4)) }
       exec (.sdef a n) s = .next (s.modHart fun h =>
         { h.retire 4 with ms := { h.ms with
           passes := h.ms.passes + 1
           streams := insert h.ms.streams n.toNat ⟨desc, 0, none, h.ms.passes⟩ } })) ∧
     (∀ q, lookup s.hart.ms.streams n.toNat = some q →
       (q.bound = none → (∀ e ∈ s.hart.ms.streams, e.2.bound ≠ some v) →
         exec (.sbind v n) s = .next (s.modHart fun h =>
           { h.retire 4 with ms := { h.ms with streams := insert h.ms.streams n.toNat { q with bound := some v } } })) ∧
       (q.bound ≠ none → CanTrap s →
         ∃ t, exec (.sbind v n) s = .next t ∧
           TakesTrap false { code := 0x0E, info0 := n.zeroExtend 64, info2 := 3 } s.hart.pc s t) ∧
       exec (.sunb n) s = .next (s.modHart fun h =>
         { h.retire 4 with ms := { h.ms with streams := insert h.ms.streams n.toNat { q with bound := none } } })) ∧
     (lookup s.hart.ms.streams n.toNat = none →
       exec (.sunb n) s = .next (s.modHart fun h => h.retire 4) ∧
       (CanTrap s →
         ∃ t, exec (.sbind v n) s = .next t ∧
           TakesTrap false { code := 0x0E, info0 := n.zeroExtend 64, info2 := 3 } s.hart.pc s t))) ∧
  (∀ (s : State) (slot : Nat) (q : Stream) (d a b : VReg) (m : MReg), StreamReady slot q s → s.hart.VlFits → s.hart.ty < 8 →
     a ≠ d → b ≠ a → b ≠ d →
     let h := s.hart
     let n := typeBits h.ty
     let size := patternSize q.desc.levels
     let count := Nat.min h.vec.vl (size - q.pos)
     let i := Instr.vadd d a b m
     let sum : (Nat → Nat) → Nat → Nat := fun va e => (va e + elemOf (h.getV b.toNat) n e) % 2 ^ n
     let moved : Nat → State → Prop := fun p t =>
       ∃ u, t.hart.ms.streams = [(slot, u)] ∧ u.desc = q.desc ∧ u.bound = q.bound ∧ u.pos = p
     let popped : (Nat → Nat) → Nat → State → Prop := fun p next t =>
       t.mem = s.mem ∧ t.hart.pc = h.pc + 4 ∧ t.hart.fp = h.fp ∧ t.hart.vec.viq = [] ∧ moved next t ∧
       (∀ e, e < h.vec.vl → elemOf (t.hart.getV a.toNat) n e = if e < count then readNat s.mem (p e) (n / 8) else 0) ∧
       ∀ e ∈ h.active m, elemOf (t.hart.getV d.toNat) n e = sum (elemOf (t.hart.getV a.toNat) n) e
     let own := sum (elemOf (h.getV a.toNat) n)
     let appends := (h.active m).filter fun e => decide (e < count)
     let appended : (Nat → Nat) → Nat → State → Prop := fun p next t =>
       t.hart.pc = h.pc + 4 ∧ t.hart.fp = h.fp ∧ t.hart.vec.viq = [] ∧ t.hart.ms.stq = [] ∧ moved next t ∧
       (∀ e ∈ h.active m, elemOf (t.hart.getV d.toNat) n e = own e) ∧
       ∀ x, readPlace t.mem x = readPlace (written s.mem (n / 8) (appends.map fun e => (p e, own e))) x
     (typeBits q.desc.ty.toNat = n → q.desc.store = false → q.bound = some a →
       (q.desc.chv = false → q.pos < size → ∀ p : Nat → Nat,
         (∀ e, e < count → SpanAt q.desc.space .read (stripAddr q 0 e) (n / 8) (p e) s) →
         ∃ t, exec i s = .next t ∧ popped p (q.pos + count) t) ∧
       (q.desc.chv = false → q.pos = size → CanTrap s →
         ∃ t, exec i s = .next t ∧ TrapsAtDispatched i 0x0E (BitVec.ofNat 64 slot) 1 h t ∧ moved size t) ∧
       ∀ ch, q.desc.chv = true → q.desc.space = 0 → q.pos < size → lookup (s.core s.here).channels q.desc.ch = some ch →
         (ch.head ∈ ch.marks → ∀ p : Nat → Nat,
           (∀ e, e < count → SpanAt 0 .read (stripAddr q (ch.base + ch.head * 2 ^ (ch.sz + 6)) e) (n / 8) (p e) s) →
           ∃ t, exec i s = .next t ∧ popped p (if q.pos + count = size then 0 else q.pos + count) t ∧
             lookup (t.core s.here).channels q.desc.ch = some (if q.pos + count = size then
               { ch with filled := ch.filled - 1, free := ch.free + 1, head := (ch.head + 1) % ch.nslot,
                         marks := ch.marks.filter fun k => k != ch.head } else ch)) ∧
         (ch.head ∉ ch.marks → ∃ t, exec i s = .next t ∧ t.mem = s.mem ∧ t.hart.pc = h.pc + 4 ∧ t.hart.vec.v = h.vec.v ∧
           t.hart.vec.viq.map (fun e => (e.instr, e.pc)) = [(i, h.pc)] ∧
           lookup (t.core s.here).channels q.desc.ch = some ch)) ∧
     (typeBits q.desc.ty.toNat = n → q.desc.store = true → q.bound = some d → s.Sound → s.hart.run.wait = none →
       (q.desc.chv = false → q.pos < size → ∀ p : Nat → Nat,
         (∀ e ∈ appends, SpanAt q.desc.space .write (stripAddr q 0 e) (n / 8) (p e) s) →
         ∃ t, exec i s = .next t ∧ appended p (q.pos + count) t) ∧
       (q.desc.chv = false → q.pos = size → CanTrap s →
         ∃ t, exec i s = .next t ∧ TrapsAtDispatched i 0x0E (BitVec.ofNat 64 slot) 1 h t ∧ moved size t) ∧
       ∀ ch, q.desc.chv = true → q.desc.space = 0 → q.pos = 0 → 0 < size → size ≤ h.vec.vl →
         lookup (s.core s.here).channels q.desc.ch = some ch → lookup h.ms.tails q.pass = none → ch.free ≠ 0 →
         ch.resv.all (fun r => r.1 != ch.tail) = true → ∀ p : Nat → Nat,
         (∀ e ∈ appends, SpanAt 0 .write (stripAddr q (ch.base + ch.tail * 2 ^ (ch.sz + 6)) e) (n / 8) (p e) s) →
         ∃ t, exec i s = .next t ∧ appended p 0 t ∧ lookup (t.core s.here).channels q.desc.ch =
           some { ch with filled := ch.filled + 1, free := ch.free - 1, tail := (ch.tail + 1) % ch.nslot,
                          marks := ch.tail :: ch.marks }) ∧
     (typeBits q.desc.ty.toNat = n → q.desc.store = false → q.bound = some d → CanTrap s →
       ∃ t, exec i s = .next t ∧ TrapsAtDispatched i 0x0E (BitVec.ofNat 64 d.toNat) 4 h t) ∧
     (typeBits q.desc.ty.toNat ≠ n → q.bound = some a ∧ q.desc.store = false ∨ q.bound = some d → CanTrap s →
       ∃ t, exec i s = .next t ∧ TrapsAtDispatched i 0x11 h.vec.vtype 0 h t))

/-! The accumulation window and SETTLE -/

/-- R160 to R162, R137, R280: AWIN opens a window of x[d] elements at x[a]; VAMO combines element e into copy e mod 64
of the element that its index names; AMERGE combines every element of the window with its copies in lane order, writes
it, and closes the window. Elements outside the window stay. Integer windows raise no flag. R88 to R90, R220: SETTLE of
a hart that owes nothing completes at once. With one entry left, poisoned by its own cause, whose destination is
current, it raises DEFERRED on the vector side with the record of the entry, and stays to run again. Here on a hart
whose vector side follows the front at once (log entry 5). The choices and readings of the model in it: log entry 80. -/
def Obligations.WindowSettleResults : Prop :=
  (∀ (s : State) (xd xa : XReg) (o : BitVec 4) (v w : VReg) (mode : RMode), VectorReady s → s.hart.run.wait = none → s.Sound →
     mode = rmodeOf (bits s.hart.fp.ctl.toNat 0 3) →
     let h := s.hart
     let n := typeBits h.ty
     let size := n / 8
     let sr : Nat → Bool := fun ty => bits h.fp.ctl.toNat 0 3 == 5 && isFloat ty
     let step : Window → Nat → Option Nat → Nat → Option Nat := fun win rb p q =>
       (combine (if win.op = 3 then 4 else win.op.toNat) win.ty.toNat mode rb p (some q)).1
     (h.vec.vtype.getLsbD 4 = false → h.ty ∈ [2, 3, 6, 7, 13, 14] → o.toNat < 4 → (o = 3 → h.ty < 8) → h.ms.window = none →
       0 < (h.getX xd.toNat).toNat → (h.getX xd.toNat).toNat ≤ 4096 → (h.getX xd.toNat).toNat * size ≤ 256 * h.vec.grant →
       let win : Window := ⟨BitVec.ofNat 4 h.ty, o.setWidth 2, (h.getX xd.toNat).toNat, h.getX xa.toNat, h.vec.mspace.toNat, []⟩
       Completes (.awin xd xa o) { h with ms := { h.ms with window := some win } } 4 0 false s) ∧
     (∀ win, h.ms.window = some win → h.VlFits → h.vec.vtype.getLsbD 4 = false → win.ty.toNat = h.ty →
       win.ty.toNat ∈ [2, 3, 6, 7, 13, 14] →
       let index : Nat → Nat := elemOf (h.getV v.toNat) n
       (∀ e, e < h.vec.vl → index e < win.count) → win.count ≤ 4096 →
       ∃ copies f, (h.ty < 8 → f = 0) ∧
         (∀ l j, l < 64 → j < 4096 → (lookup copies (l * 4096 + j)).map (·.toNat) =
           (((List.range h.vec.vl).filter fun e => e % 64 == l && index e == j).foldl
             (fun p e => step win (randomBits h.fp.seed h.fp.ric e) p (elemOf (h.getV w.toNat) n e))
             ((lookup win.copies (l * 4096 + j)).map (·.toNat)))) ∧
         Completes (.vamo v w) { h with ms := { h.ms with window := some { win with copies := copies } } } 4 f (sr h.ty) s) ∧
     (∀ win, h.ms.window = some win → win.ty.toNat ∈ [2, 3, 6, 7, 13, 14] → ∀ p : Nat → Nat,
       let z := typeBits win.ty.toNat / 8
       (∀ j, j < win.count → SpanAt win.space .amo (win.base + BitVec.ofNat 64 (j * z)) z (p j) s) →
       (∀ i j, i < win.count → j < win.count → i ≠ j → p i + z ≤ p j ∨ p j + z ≤ p i) →
       ∃ t f, exec .amerge s = .next t ∧ (win.ty.toNat < 8 → f = 0) ∧
         t.hart = { h with ms := { h.ms with window := none } }.afterVector 4 f (sr win.ty.toNat) ∧ t.poison = s.poison ∧
         (∀ j, j < win.count → some (readNat t.mem (p j) z) =
           ((List.range 64).filterMap fun l => (lookup win.copies (l * 4096 + j)).map fun y => (l, y.toNat)).foldl
             (fun acc y => (step win (randomBits h.fp.seed h.fp.ric (64 * j + y.1)) acc y.2).map (· % 256 ^ z))
             (some (readNat s.mem (p j) z))) ∧
         ∀ q, (∀ j, j < win.count → q < p j ∨ p j + z ≤ q) → readPlace t.mem q = readPlace s.mem q)) ∧
  (∀ (s : State) (v w : VReg) (n : BitVec 4),
     (VectorReady s → Completes (.settle v w n) s.hart 4 0 false s) ∧
     ∀ (k : Nat) (e : LEntry), CanTrap s → s.hart.vec.viq = [] → s.hart.vec.held = [] → s.hart.ms.stq = [] →
       s.hart.ms.streams = [] → s.hart.vec.lag = false → (s.core s.here).dbg.breakpoints = [] →
       (s.core s.here).land.entries = [(k, e)] → e.hart.toNat = s.me → e.state = .poisoned → e.live ≠ 0 → e.links = [] → k < 256 →
       ∃ t, exec (.settle v w 0) s = .next t ∧ wbits t.hart.tr.tcause 0 8 = 0x0A ∧ t.hart.tr.tcause.getLsbD 62 = true ∧
         t.hart.tr.tinfo0 = e.pc.zeroExtend 64 ∧
         t.hart.tr.tinfo1 = BitVec.ofNat 64 (e.index.toNat + e.reg.toNat * 2 ^ 16 + e.cls.toNat * 2 ^ 21 +
           e.cause.toNat * 2 ^ 32 + e.detail.toNat * 2 ^ 40 + e.liter.toNat * 2 ^ 49) ∧
         t.hart.tr.tinfo2 = (if e.cls.getLsbD 4 then e.opa else (e.opb.setWidth 32 ++ e.opa.setWidth 32 : BitVec 64)) ∧
         t.hart.tr.tinfo3 = (if e.cls.getLsbD 4 then e.opb else (e.opc.setWidth 32).zeroExtend 64) ∧
         t.hart.tr.tvcp = s.hart.pc.zeroExtend 64 ∧ t.hart.pc = BitVec.ofNat 48 s.hart.tr.tbase.toNat ∧
         t.hart.vec.held.map (fun q => (q.instr, q.pc)) = [(.settle v w 0, s.hart.pc)] ∧ t.hart.hole.reported = some k ∧
         (t.core s.here).land.entries = [(k, e)] ∧ t.mem = s.mem)

/-! Routine instructions of the Pontoon -/

/-- R103, R110, R111: in a batch, RFLD reads a word of each active frame, whatever VL is, and RKID one of a child's
result, 0 where there is no such child; RPUT writes a word of a child's frame and RRES one of the frame's result. An
index at or beyond the size raises ENGINE reason 2, and outside a batch each raises reason 1. R103, R109, R110, R112 to
R116: RSPAWN of a divide batch in the breadth-first phase gives each active frame the children that its element asks
for, cells of 0 one after another from the end of the breadth region; too many raise ENGINE reason 3, and no room
undoes the batch at its end. RDONE ends a divide batch: DV of each frame becomes 1, and the next run of the level
begins; a batch that is undone stops the recursion at its RRUN. After the last combine the front is back at the RRUN,
which completes. R104, R108, R112, R116, R220: RRUN of a hart whose recursion has stopped between batches goes on with
the next run of the step, a divide, base or combine batch, under the object that ROBJ now names, once no other hart
holds the Pontoon. Here on a hart whose vector side follows the front at once (log entry 5). The choices and readings
of the model in it: log entries 18, 90, 106. -/
def Obligations.RecursionBatchResults : Prop :=
  (∀ (s : State) (r : VReg) (a : XReg) (i : BitVec 3), VectorReady s → s.Sound → s.hart.run.wait = none →
     let h := s.hart
     let w := (h.getX a.toNat).toNat
     let ls : Nat → Nat := fun off => lsPlace s.here (s.arenaBase + off)
     let el : Nat → Nat := elemOf (h.getV r.toNat) 64
     let stores : Instr → List (Nat × Nat) → Prop := fun j l =>
       ∃ t, exec j s = .next t ∧ t.hart = h.afterVector 4 0 false ∧ t.wharf = s.wharf ∧
         t.poison = s.poison.filter (fun y => !(y % 64 == 0 && (List.range 64).all fun i =>
           l.any fun e => decide (e.1 ≤ y + i ∧ y + i < e.1 + 8))) ∧
         ∀ p, readPlace t.mem p = readPlace (written s.mem 8 l) p
     let within : Nat → Prop := fun off => off + 8 ≤ s.arenaSize ∧ off + 8 ≤ 2 ^ 64 ∧ off % 8 = 0
     let readable : Nat → Prop := fun off => within off ∧ poisoned (ls off) 8 s = false
     let raises : Instr → Nat → Word → Prop := fun j reason info => CanTrap s →
       ∃ t, exec j s = .next t ∧ wbits t.hart.tr.tcause 0 8 = 0x0F ∧ t.hart.tr.tcause.getLsbD 62 = true ∧ t.hart.tr.tinfo0 = info ∧
         t.hart.tr.tinfo2 = BitVec.ofNat 64 reason ∧ t.hart.vec.v = h.vec.v ∧ t.mem = s.mem
     (∀ p, h.rc.pontoon = some p → h.rc.act = true →
       let kid : Nat → Option Nat := fun cell => (p.children cell)[i.toNat]?
       (h.rc.rout.toNat < 3 →
         (w < p.obj.frame / 8 → h.VlFits → (∀ f ∈ p.frames, readable (f.2 + 8 + 8 * w)) →
           Completes (.rfld r a) (h.setElems r.toNat 64 (p.frames.map fun f => (f.1, readNat s.mem (ls (f.2 + 8 + 8 * w)) 8)))
             4 0 false s) ∧
         (p.obj.frame / 8 ≤ w → raises (.rfld r a) 2 (h.getX a.toNat))) ∧
       (h.rc.rout = 0 → p.obj.frame / 8 ≤ w → raises (.rput r a i) 2 (h.getX a.toNat)) ∧
       (h.rc.rout = 1 ∨ h.rc.rout = 2 → p.obj.result / 8 ≤ w → raises (.rres r a) 2 (h.getX a.toNat)) ∧
       (h.rc.rout = 2 → p.obj.result / 8 ≤ w → raises (.rkid r a i) 2 (h.getX a.toNat)) ∧
       (h.rc.rout = 0 → w < p.obj.frame / 8 →
         (∀ f ∈ p.frames, ∀ k, kid f.2 = some k → within (k + 8 + 8 * w)) →
         stores (.rput r a i) (p.frames.filterMap fun f => (kid f.2).map fun k => (ls (k + 8 + 8 * w), el f.1))) ∧
       (h.rc.rout = 1 ∨ h.rc.rout = 2 → w < p.obj.result / 8 →
         (∀ f ∈ p.frames, within (f.2 + 8 + p.obj.frame + 8 * w)) →
         stores (.rres r a) (p.frames.map fun f => (ls (f.2 + 8 + p.obj.frame + 8 * w), el f.1))) ∧
       (h.rc.rout = 2 → w < p.obj.result / 8 → h.VlFits →
         (∀ f ∈ p.frames, ∀ k, kid f.2 = some k → readable (k + 8 + p.obj.frame + 8 * w)) →
         Completes (.rkid r a i) (h.setElems r.toNat 64
           ((p.frames.filterMap fun f => (kid f.2).map fun k => (f.1, readNat s.mem (ls (k + 8 + p.obj.frame + 8 * w)) 8)) ++
             p.frames.filterMap fun f => if kid f.2 = none then some (f.1, 0) else none)) 4 0 false s)) ∧
     (h.rc.act = false → ∀ j ∈ [Instr.rfld r a, .rput r a i, .rres r a, .rkid r a i, .rspawn r, .rdone], raises j 1 0)) ∧
  (∀ (s : State) (r : VReg) (p : Pontoon), VectorReady s → s.Sound → s.hart.run.wait = none → s.hart.rc.pontoon = some p →
     let h := s.hart
     let ls : Nat → Nat := fun off => lsPlace s.here (s.arenaBase + off)
     let z := p.obj.cellSize
     let want : Nat → Nat := elemOf (h.getV r.toNat) 64
     let sum := (p.frames.map fun f => want f.1).sum
     (h.rc.act = true → h.rc.rout = 0 → p.spawned = false → p.step = .divide → (p.frames.map (·.2)).Nodup →
       (∀ f ∈ p.frames, f.2 < p.top) →
       ((∀ f ∈ p.frames, want f.1 ≤ p.obj.fanout) → p.top + z * sum - p.obj.arena ≤ p.obj.asize →
         ∃ t q, exec (.rspawn r) s = .next t ∧ t.hart.rc.pontoon = some q ∧ q.spawned = true ∧ q.top = p.top + z * sum ∧
           t.hart.pc = h.pc + 4 ∧ t.hart.vec.v = h.vec.v ∧ t.hart.rc.cells = h.rc.cells + BitVec.ofNat 32 sum ∧
           (∀ l f l', p.frames = l ++ f :: l' →
             (q.node f.2).nkid = want f.1 ∧
             (q.node f.2).kids = if want f.1 = 0 then 0 else p.top + z * (l.map fun g => want g.1).sum) ∧
           (∀ a, ls p.top ≤ a → a < ls (p.top + z * sum) → readPlace t.mem a = 0) ∧
           ∀ a, a < ls p.top ∨ ls (p.top + z * sum) ≤ a → readPlace t.mem a = readPlace s.mem a) ∧
       ((∀ f ∈ p.frames, want f.1 ≤ p.obj.fanout) → p.obj.asize < p.top + z * sum - p.obj.arena →
         ∃ t q, exec (.rspawn r) s = .next t ∧ t.hart.rc.pontoon = some q ∧ t.mem = s.mem ∧ q.fail =
           some (0x0D, BitVec.allOnes 64, BitVec.ofNat 64 (p.cells.headD 0), BitVec.ofNat 64 (p.levels.length - 1),
             BitVec.ofNat 64 (p.top + z * sum - p.obj.arena))) ∧
       (∀ f l l', p.frames = l ++ f :: l' → (∀ g ∈ l, want g.1 ≤ p.obj.fanout) → p.obj.fanout < want f.1 → CanTrap s →
         ∃ t, exec (.rspawn r) s = .next t ∧ wbits t.hart.tr.tcause 0 8 = 0x0F ∧ t.hart.tr.tinfo2 = 3 ∧
           t.hart.tr.tinfo0 = BitVec.ofNat 64 f.1 ∧ t.hart.tr.tinfo1 = BitVec.ofNat 64 (want f.1) ∧ t.mem = s.mem)) ∧
     (h.rc.act = true → h.rc.rout = 0 → p.fail = none → p.step = .divide → (p.frames.map (·.2)).Nodup →
       (∀ f ∈ p.frames, ∀ g ∈ p.frames, f.2 ≠ g.2 → f.2 + 8 ≤ g.2 ∨ g.2 + 8 ≤ f.2) →
       ∀ l cells rest, p.runs = (l, cells) :: rest → cells.length < 1024 →
         ∃ t q, exec .rdone s = .next t ∧ t.hart.rc.pontoon = some q ∧ q.runs = rest ∧ q.cells = cells ∧ q.spawned = false ∧
           t.hart.pc = BitVec.ofInt 48 ((p.obj.codeBase : Int) + p.obj.divOff) ∧ t.hart.vec.vl = cells.length ∧
           t.hart.vec.vtype = 3 ∧ t.hart.rc.batch.toNat = cells.length ∧ t.hart.rc.level = BitVec.ofNat 8 l ∧
           t.hart.rc.act = true ∧ t.hart.x = h.x ∧ t.hart.vec.v = h.vec.v ∧
           (∀ e, e < 4096 → maskBit (t.hart.getM 7) e = decide (e < cells.length)) ∧
           (∀ f ∈ p.frames, (q.node f.2).dv = true ∧
             readNat t.mem (ls f.2) 8 = ((p.node f.2).kids * 2 ^ 32 + (p.node f.2).ndone % 16 * 2 ^ 12 + (p.node f.2).nkid * 2 ^ 8 +
               (if (p.node f.2).rv then 2 else 0) + 1) % 2 ^ 64) ∧
           ∀ a, (∀ f ∈ p.frames, a < ls f.2 ∨ ls f.2 + 8 ≤ a) → readPlace t.mem a = readPlace s.mem a) ∧
     (h.rc.act = true → h.rc.rout.toNat < 3 → CanTrap s → ∀ code i0 i1 i2 i3, p.fail = some (code, i0, i1, i2, i3) → code < 256 →
       ∃ t, exec .rdone s = .next t ∧ wbits t.hart.tr.tcause 0 8 = code ∧ t.hart.tr.tinfo0 = i0 ∧ t.hart.tr.tinfo1 = i1 ∧
         t.hart.tr.tinfo2 = i2 ∧ t.hart.tr.tinfo3 = i3 ∧ t.hart.tr.tpc = p.pc.zeroExtend 64 ∧
         t.hart.tr.tvcp = p.pc.zeroExtend 64 ∧ t.hart.vec.held = [] ∧ t.hart.rc.stop = true ∧
         t.hart.rc.act = false ∧ t.hart.vec.vl = p.savedVl ∧ t.hart.vec.vtype = p.savedVtype ∧ t.hart.getM 7 = p.savedM7 ∧
         (t.core s.here).pontoonOwner = none ∧ t.hart.x = h.x ∧ t.mem = s.mem) ∧
     (h.rc.act = true → h.rc.rout = 2 → p.fail = none → p.step = .combine → p.runs = [] →
       ∃ t q, exec .rdone s = .next t ∧ t.hart.pc = p.pc ∧ t.hart.rc.act = false ∧ t.hart.rc.rout = 3 ∧
         t.hart.rc.pontoon = some q ∧ q.step = .settle) ∧
     ∀ a : XReg, h.rc.act = false → h.rc.stop = false → p.step = .settle → p.pc = h.pc →
       ∃ t, exec (.rrun a) s = .next t ∧ t.hart.pc = h.pc + 4 ∧ t.hart.rc.pontoon = none ∧ t.hart.rc.phase = 0 ∧
         t.hart.vec.vl = p.savedVl ∧ t.hart.vec.vtype = p.savedVtype ∧ t.hart.getM 7 = p.savedM7 ∧ t.hart.x = h.x ∧
         (t.core s.here).pontoonOwner = none ∧ t.mem = s.mem) ∧
  (∀ (s : State) (a : XReg) (p : Pontoon), isFerry s.me = false → Settled [a.toNat] [] s → s.hart.vec.viq = [] →
     s.hart.rc.act = false → s.hart.rc.stop = true → s.hart.rc.pontoon = some p →
     let h := s.hart
     let obj := h.rc.obj.getD p.obj
     ((s.core s.here).pontoonOwner = none ∨ (s.core s.here).pontoonOwner = some s.curHart →
       ∀ row ∈ [(RStep.divide, (0 : BitVec 2), obj.divOff), (.base, 1, obj.baseOff), (.combine, 2, obj.combOff)],
         ∀ l cells rest, p.step = row.1 → p.runs = (l, cells) :: rest → cells.length < 1024 →
         ∃ t q, exec (.rrun a) s = .next t ∧ t.hart.rc.pontoon = some q ∧ q.runs = rest ∧ q.cells = cells ∧ q.obj = obj ∧
           q.spawned = false ∧ q.fail = none ∧ t.hart.pc = BitVec.ofInt 48 ((obj.codeBase : Int) + row.2.2) ∧
           t.hart.vec.vl = cells.length ∧ t.hart.vec.vtype = 3 ∧ t.hart.rc.batch.toNat = cells.length ∧
           t.hart.rc.level = BitVec.ofNat 8 l ∧ t.hart.rc.rout = row.2.1 ∧ t.hart.rc.act = true ∧ t.hart.rc.stop = false ∧
           t.hart.rc.phase = h.rc.phase ∧ (∀ e, e < 4096 → maskBit (t.hart.getM 7) e = decide (e < cells.length)) ∧
           (t.core s.here).pontoonOwner = some s.curHart ∧ t.hart.x = h.x ∧ t.hart.vec.v = h.vec.v ∧
           t.hart.run.retired = h.run.retired ∧ t.mem = s.mem) ∧
     ∀ o, (s.core s.here).pontoonOwner = some o → o ≠ s.curHart →
       exec (.rrun a) s = .next (s.modHart fun h => { h with run := { h.run with why := 10 } }))

/-! Tiles and accumulators -/

/-- The hart holds a claim of tiles `ts` and accumulators `as'` of its core (R186), and the counts are those that the package has. -/
structure Sys2Proof.Machine.TileReady (s : State) (ts as' : List Nat) : Prop extends VectorReady s where
  claim : s.hart.tile.claim = some (ts, as')
  tiles : ts.length ≤ 8
  accs : as'.length ≤ 4
  free : ∀ g, s.myGroup = some g → g.freeTiles.length ≤ 8 ∧ g.freeAccs.length ≤ 4

/-- A tile instruction completes at once: as a vector instruction does, with the tiles of the core as `P` says. -/
def Sys2Proof.Machine.TilesBecome (i : Instr) (h : Hart) (f : Nat) (consumes : Bool) (s : State) (P : TileState → Prop) : Prop :=
  ∃ u x, OnlyVector (h.afterVector 8 f consumes) s u ∧
    exec i s = .next (u.modCore s.here fun k => { k with tiles := x }) ∧ P x

/-- Row r of tile y with its sidecar, and word (m, n) and kind of accumulator a. -/
def Sys2Proof.Machine.TileState.row (x : TileState) (y r : Nat) : TileRow := lookupD x.rows (y * 128 + r) 0
def Sys2Proof.Machine.TileState.side (x : TileState) (y r : Nat) : TileSide := lookupD x.sides (y * 128 + r) 0
def Sys2Proof.Machine.TileState.word (x : TileState) (a m n : Nat) : BitVec 32 := lookupD x.words (a * 16384 + m * 128 + n) 0
def Sys2Proof.Machine.TileState.kind (x : TileState) (a : Nat) : BitVec 2 := lookupD x.kinds a 0

/-- Of the tiles of a core only rows of tile `y` differ, those that `p` selects. -/
def Sys2Proof.Machine.OnlyRows (y : Nat) (p : Nat → Prop) (x x' : TileState) : Prop :=
  x'.words = x.words ∧ x'.kinds = x.kinds ∧
  ∀ t r, r < 128 → t ≠ y ∨ ¬ p r → x'.row t r = x.row t r ∧ x'.side t r = x.side t r

/-- Of the accumulators of a core only words of `a` differ, those that `p` selects. -/
def Sys2Proof.Machine.OnlyWords (a : Nat) (p : Nat → Nat → Prop) (x x' : TileState) : Prop :=
  x'.rows = x.rows ∧ x'.sides = x.sides ∧ (∀ b, b ≠ a → x'.kind b = x.kind b) ∧
  ∀ b m n, m < 128 → n < 128 → b ≠ a ∨ ¬ p m n → x'.word b m n = x.word b m n

/-- R124, R185, R188, R194, R195, R198: TLD and TLDP move rows from the arena or the crew window into a tile of the
claim, TST moves them out, TZERO and AZERO clear, TMVR writes the first bytes of a row from a vector register, and TMVC
reads a column. Here on a hart whose vector side follows the front at once (log entry 5). -/
def Obligations.TileResults : Prop :=
  ∀ (s : State) (ts as' : List Nat) (td : BitVec 3) (ad : BitVec 2) (a b : XReg) (v : VReg), TileReady s ts as' →
    let h := s.hart
    let x := (s.core s.here).tiles
    (ad.toNat < as'.length →
      let k := as'.getD ad.toNat 0
      TilesBecome (.azero ad) h 0 false s (fun x' => OnlyWords k (fun _ _ => True) x x' ∧ x'.kind k = 0 ∧
        ∀ m n, m < 128 → n < 128 → x'.word k m n = 0)) ∧
    (∀ k : BitVec 2, decodeTableWord 64 (0x1CC800003 + k.toNat * 4096) = some (.azero k)) ∧
    (td.toNat < ts.length →
     let y := ts.getD td.toNat 0
     let w := h.getX b.toNat
     let stride := wbits w 0 32
     let rows := if wbits w 32 8 = 0 then 128 else wbits w 32 8
     let bytes := if wbits w 40 8 = 0 then 128 else wbits w 40 8
     let sc := w.getLsbD 48
     let space := h.vec.mspace.toNat
     let row : Nat → Word := fun r => h.getX a.toNat + BitVec.ofNat 64 (r * stride)
     let side : Nat → Word := fun r => h.getX a.toNat + BitVec.ofNat 64 (rows * stride + 16 * r)
     let moves : Access → (Nat → Nat) → (Nat → Nat) → Prop := fun k p q =>
       rows ≤ 128 ∧ bytes ≤ 128 ∧ stride % 8 = 0 ∧ bytes ≤ stride ∧ space < 2 ∧ (h.getX a.toNat).toNat % 8 = 0 ∧
       ∀ r, r < rows → PlaceAt space k (row r) bytes (p r) s ∧ (sc = true → PlaceAt space k (side r) 16 (q r) s)
     (∀ p q, moves .read p q →
       TilesBecome (.tld td a b) h 0 false s (fun x' => OnlyRows y (· < rows) x x' ∧ ∀ r, r < rows →
         x'.row y r = BitVec.ofNat 1024 (readNat s.mem (p r) bytes) ∧
         x'.side y r = if sc then BitVec.ofNat 128 (readNat s.mem (q r) 16) else 0x7F7F7F7F7F7F7F7F7F7F7F7F7F7F7F7F) ∧
       (sc = false → TilesBecome (.tldp td a b) h 0 false s (fun x' => OnlyRows y (· < rows) x x' ∧ ∀ r, r < rows →
         x'.side y r = 0 ∧ ∀ i j, i < 8 → j < 128 →
           (x'.row y r).getLsbD (128 * i + j) = (decide (j < bytes) && (readPlace s.mem (p r + j)).getLsbD (7 - i))))) ∧
     (∀ p q, moves .write p q → s.Sound → s.hart.run.wait = none →
       ∃ t, exec (.tst td a b) s = .next t ∧ t.hart = h.afterVector 8 0 false ∧ (t.core s.here).tiles = x ∧ t.wharf = s.wharf ∧
         ∀ c, readPlace t.mem c = readPlace ((List.range rows).foldl (fun m r =>
           let m := writeNat m (p r) bytes (x.row y r).toNat
           if sc then writeNat m (q r) 16 (x.side y r).toNat else m) s.mem) c) ∧
     TilesBecome (.tzero td) h 0 false s (fun x' => OnlyRows y (fun _ => True) x x' ∧ ∀ r, r < 128 →
       x'.row y r = 0 ∧ x'.side y r = 0) ∧
     (let n := typeBits h.ty
      let r := (h.getX a.toNat).toNat
      let S := h.vec.vtype.getLsbD 4
      (h.VlFits → h.vec.vl * n ≤ 1024 → r < 128 → (S = false ∧ h.ty ≠ 10 ∨ h.Blocks 0 ∧ h.ty ∈ [8, 9, 10]) →
        TilesBecome (.tmvr td v a) h 0 false s (fun x' => OnlyRows y (· = r) x x' ∧
          (∀ i, i < 1024 → (x'.row y r).getLsbD i =
            if i < h.vec.vl * n then (h.getV v.toNat).getLsbD i else (x.row y r).getLsbD i) ∧
          ∀ i, i < 16 → (x'.side y r).toNat / 256 ^ i % 256 =
            if S = true ∧ i < (h.vec.vl * n + 63) / 64 then
              (if h.ty = 10 ∨ i % 2 = 0 then (h.getSide v.toNat).toNat / 256 ^ i % 256 else 0)
            else (x.side y r).toNat / 256 ^ i % 256)) ∧
      (h.VlFits → S = false → h.ty ≠ 10 → h.vec.vl ≤ 128 → r < 256 → r * n < 1024 →
        ∃ t, exec (.tmvc td v a) s = .next t ∧ OnlyVector ((h.setElems v.toNat n ((List.range h.vec.vl).map fun e =>
          (e, (x.row y e).toNat / 2 ^ (n * r) % 2 ^ n))).afterVector 8 0 false) s t)))

/-- An accumulator word after the products of `k` elements of two rows (R190): for i8 the sum modulo 2^32, else fp32 block by block. -/
def Sys2Proof.Machine.dotWord (fa fb k : Nat) (old : BitVec 32) (ra rb : TileRow) (sa sb : TileSide) : BitVec 32 :=
  if fa = 0 then
    BitVec.ofInt 32 ((old.toNat : Int) +
      ((List.range k).map fun i => (ra.extractLsb' (8 * i) 8).toInt * (rb.extractLsb' (8 * i) 8).toInt).sum)
  else BitVec.ofNat 32 (floatDot fa fb k old.toNat ra rb sa sb).1

/-- The bits of a drain's format: 8 for ni8. -/
def Sys2Proof.Machine.formatBits (ty : Nat) : Nat := if ty = 15 then 8 else typeBits ty

/-- R136: an FP32 accumulator word after the products of `k` elements of two rows: the exact sum of the last block of products, scaled
for FP8 and FP4, is added with one rounding under RNE to the word after the blocks before it; an exact zero is −0 only where the
word and every product are, and a NaN or a scale of 0xFF makes the word the canonical NaN. -/
def Sys2Proof.Machine.DotsRound : Prop :=
  ∀ (fa fb k acc : Nat) (ra rb : TileRow) (sa sb : TileSide), fa ∈ [8, 9] ∧ fb ∈ [8, 9] ∨ fa = fb ∧ fa ∈ [10, 11, 12] →
    k * typeBits fa ≤ 1024 → acc < 2 ^ 32 →
    let block := (k - 1) / 16
    let old := if k = 0 then acc else (floatDot fa fb (16 * block) acc ra rb sa sb).1
    let new := (floatDot fa fb k acc ra rb sa sb).1
    let x : Nat → FVal := fun i => valueOf fa (ra.toNat / 2 ^ (typeBits fa * i) % 2 ^ typeBits fa)
    let y : Nat → FVal := fun i => valueOf fb (rb.toNat / 2 ^ (typeBits fb * i) % 2 ^ typeBits fb)
    let scale : TileSide → Nat := fun z => if fa < 11 then z.toNat / 256 ^ (if fa = 10 then block else 2 * block) % 256 else 127
    let elems := (List.range k).drop (16 * block)
    let sum : ℚ := (elems.map fun i => (x i).rat * (y i).rat).sum * 2 ^ ((scale sa : Int) + scale sb - 254)
    let total := (valueOf 13 old).rat + sum
    (k = 0 → new = acc) ∧
    (0 < k → ((valueOf 13 old).isNan = true ∨ scale sa = 255 ∨ scale sb = 255 ∨
        ∃ i ∈ elems, (x i).isNan = true ∨ (y i).isNan = true) → new = 0x7FC00000) ∧
    (0 < k → (valueOf 13 old).special = false → scale sa ≠ 255 → scale sb ≠ 255 →
      (∀ i ∈ elems, (x i).special = false ∧ (y i).special = false) →
      (total ≠ 0 → ∃ f, RoundsTo (fmtOf 13) .rne 0 (decide (total < 0)) |total| (new, f)) ∧
      (total = 0 → new = if old = 0x80000000 ∧ ∀ i ∈ elems, (x i).rat * (y i).rat = 0 ∧ (x i).isNeg ≠ (y i).isNeg then 0x80000000 else 0))

/-- R124, R136, R187, R190 to R193, R196, R197, R232: what the products of two rows add to an FP32 word; products and
drains over the shape M, N, K that the hart has set. MMA adds the products of two tiles of the claim to an accumulator
whose kind fits, and with M, N or K of 0 changes nothing; MMA.c of a member of a W gang takes the leader's tile and the
columns of the member; MMAN sums over planes; MDRAIN converts an accumulator into rows of a tile, with block scales for
the scaled formats, and AMAX takes the greatest in FP32 of itself and the magnitudes drained, a NaN counting as
greatest. Columns that a core does not hold are free values. Here on a hart whose vector side follows the front at once
(log entry 5). The choices and readings of the model in it: log entries 75, 76, 121. -/
def Obligations.ProductResults : Prop :=
  DotsRound ∧
  ∀ (s : State) (ts as' : List Nat) (ta tb : BitVec 3) (ad : BitVec 2) (fa fb : BitVec 4) (pa pb : BitVec 3) (sy : BitVec 1),
    TileReady s ts as' → ta.toNat < ts.length → tb.toNat < ts.length → ad.toNat < as'.length →
    let h := s.hart
    let x := (s.core s.here).tiles
    let y := ts.getD ta.toNat 0
    let y' := ts.getD tb.toNat 0
    let k := as'.getD ad.toNat 0
    let M := h.tile.m.toNat
    let N := h.tile.n.toNat
    let K := h.tile.k.toNat
    let int := decide (fa = 0)
    let cells : Nat → Nat → Nat → Prop := fun cols m n => m < M ∧ n < Nat.min cols 128
    let allowed : Prop := K * Nat.max (formatBits fa.toNat) (formatBits fb.toNat) ≤ 1024 ∧
      (x.kind k = 0 ∨ x.kind k = if int then 2 else 1) ∧ h.fp.ctl.getLsbD 8 = false ∧ 0 < M ∧ M ≤ 128 ∧ 0 < N ∧ 0 < K
    (allowed → TilesBecome (.mma ta tb ad fa fb) h 0 false s (fun x' => OnlyWords k (cells N) x x' ∧
      x'.kind k = (if int then 2 else 1) ∧ ∀ m n, cells N m n →
        x'.word k m n = dotWord fa.toNat fb.toNat K (x.word k m n) (x.row y m) (x.row y' n) (x.side y m) (x.side y' n))) ∧
    (K * Nat.max (formatBits fa.toNat) (formatBits fb.toNat) ≤ 1024 → x.kind k = 0 ∨ x.kind k = (if int then 2 else 1) →
      M = 0 ∨ N = 0 ∨ K = 0 → Completes (.mma ta tb ad fa fb) h 8 0 false s) ∧
    (∀ gn g gang i l e q qs, h.id.group = some gn → s.group? gn = some g → g.core = s.curCore → g.aborted = false →
      g.crewQueue = [] → g.gang = some (gang, i) → 0 < i → i < 4 → s.gangMember g i = some (gn, g) →
      s.gangMember g 0 = some l → l.2.aborted = false → l.2.crewDone = g.crewDone → l.2.crewQueue = q :: qs → q ∈ l.2.harts →
      (let far := s.hartAt l.2.core.toNat q.toNat
       (far.vec.held ++ far.vec.viq).head? = some e) →
      h.tile.crew = true → crewShape e = some (fa, fb, M, N, K) →
      (∀ j, j < 4 → j ≠ i → ∃ z, s.gangMember g j = some z ∧ z.2.core ≠ s.curCore ∧ z.2.aborted = false ∧
        (g.crewDone < z.2.crewDone ∨ z.2.crewDone ≤ g.crewDone ∧
          ∃ v, (s.crewPending z.2)[g.crewDone - z.2.crewDone]? = some v ∧ crewShape v.entry = some (fa, fb, M, N, K))) →
      allowed →
      let far := (s.core l.2.core.toNat).tiles
      let z := physTile (s.hartAt l.2.core.toNat q.toNat) (crewTile e)
      let cols := Nat.min N (128 * i + 128) - 128 * i
      ∃ u x', OnlyVector (h.afterVector 8 0 false) s u ∧
        exec (.mmaC ta tb ad fa fb) s = .next ((u.modCore s.here fun k => { k with tiles := x' }).modWharf fun w =>
          { w with groups := insert w.groups gn { g with crewDone := g.crewDone + 1 } }) ∧
        OnlyWords k (cells cols) x x' ∧ x'.kind k = (if int then 2 else 1) ∧ ∀ m n, cells cols m n →
          x'.word k m n = dotWord fa.toNat fb.toNat K (x.word k m n) (far.row z m) (x.row y' n) (far.side z m) (x.side y' n)) ∧
    (K ≤ 128 → x.kind k ≠ 1 → M ≤ 128 →
      TilesBecome (.mman ta tb ad pa pb) h 0 false s (fun x' => OnlyWords k (cells N) x x' ∧ x'.kind k = 2 ∧ ∀ m n, cells N m n →
        x'.word k m n = BitVec.ofInt 32 (((x.word k m n).toNat : Int) + ((List.range K).map fun i =>
          planeValue (pa.toNat + 1) (x.row y m) i * planeValue (pb.toNat + 1) (x.row y' n) i).sum))) ∧
    (let w := formatBits fa.toNat
     N * w ≤ 1024 → fa ≠ 15 → M ≤ 128 →
      let mode := rmodeOf (bits h.fp.ctl.toNat 0 3)
      let rb : Nat → Nat → Nat := fun m n => randomBits h.fp.seed h.fp.ric (128 * m + n)
      let value : Nat → Nat → FVal := drainValue (s.core s.here) k
      let scaled := decide (fa.toNat ∈ [8, 9, 10])
      let scale : Nat → Nat → Nat := fun m b =>
        blockScale fa.toNat (((List.range 16).filter fun i => decide (16 * b + i < N)).map fun i => value m (16 * b + i))
      let out : Nat → Nat → Nat × Nat := fun m n =>
        if scaled then blockElem fa.toNat mode (rb m n) (scale m (n / 16)) (value m n)
        else convertTo fa.toNat mode (rb m n) (value m n)
      let flags := (List.range M).foldl (fun f m => (List.range N).foldl (fun f n => f ||| (out m n).2) f) 0
      let old := (lookupD h.tile.amax ad.toNat 0).toNat
      let nan : Nat → Prop := fun w => 0x7F800000 < w % 2 ^ 31
      let drained : Nat → Prop := fun w => ∃ m n, m < M ∧ n < N ∧ w = magnitude (value m n)
      ∃ top,
      (0 < M → 0 < N → nan old ∨ (∃ w, drained w ∧ nan w) → top = 0x7FC00000) ∧
      (¬ nan old → (¬ ∃ w, drained w ∧ nan w) →
        (top = old ∨ drained top) ∧ ∀ w, w = old ∨ drained w → fp32Rank w ≤ fp32Rank top) ∧
      (M = 0 ∨ N = 0 → top = old) ∧
      TilesBecome (.mdrain ta ad fa sy)
        { h with tile := { h.tile with amax := insert h.tile.amax ad.toNat (BitVec.ofNat 32 top) } } flags
        (bits h.fp.ctl.toNat 0 3 == 5) s (fun x' => OnlyRows y (· < M) x x' ∧ ∀ m, m < M →
          (∀ n, n < N → (x'.row y m).toNat / 2 ^ (w * n) % 2 ^ w = (out m n).1) ∧ (x'.row y m).toNat < 2 ^ (w * N) ∧
          ∀ i, i < 16 → (x'.side y m).toNat / 256 ^ i % 256 =
            if scaled = true ∧ (fa = 10 ∨ i % 2 = 0) ∧ 16 * (if fa = 10 then i else i / 2) < N then
              scale m (if fa = 10 then i else i / 2)
            else 0))

/-! Agents that go on by themselves -/

/-- R80, R83, R93, R94, R168, R305: a prefetch that is done leaves its target register ready, PF 2, with the bytes from
its address on in its buffer, up to the end of their block and with their page, and a block of its own in the
instruction cache; the oldest uncommitted store of a hart commits once it owes nothing, and its bytes or its slot are
written, those of one that was restored where its address now translates to, and an atomic operation gives its x
register the old value; a waiting entry whose producers are filled becomes filled, with its flags, or is ready for a
ferry when it is hard; and a WAIT whose line was stored to, outside HM and PM, or which has waited 4,096 cycles reads
its word again, and goes on when it differs. R170 to R172: an access counts its page once; a count that reaches HEATTH
resets and is an event; with EN 0 that is all, and with EN 1 a notification with the page, its size, the tenant and the
count waits when its channel is not defined. The oldest waiting notification fills a slot of the channel that NOTECH
names, with zeros up to 64 bytes. The choices and readings of the model in it: log entries 60, 87, 101, 116. -/
def Obligations.AgentAndHeatResults : Prop :=
  (∀ (s : State),
     let c := s.input.core.toNat
     let h := s.input.hart.toNat
     let x := s.hartAt c h
     let b := s.input.bt.toNat
     let k := s.input.entry.toNat
     (let va : BitVec 48 := (x.getB b).addr.zeroExtend 48 <<< 1
      (x.getB b).pf = 1 →
       ∃ t, exec .targetPrefetchDone s = .next t ∧ (t.hartAt c h).x = x.x ∧ (t.hartAt c h).pc = x.pc ∧
         let y := (t.hartAt c h).getB b
         y.addr = (x.getB b).addr ∧ y.v = (x.getB b).v ∧ y.pf = 2 ∧
         ∀ p e u, translate ⟨c, x.ms.ptbase, x.ms.asid, x.tr.sup⟩ .fetch (va.zeroExtend 64) 0 s = .ok (p, e) u →
           p % 64 = va.toNat % 64 → poisoned (p / 64 * 64) 64 u = false → lookup (u.core c).icache (p / 64 * 64) = none →
           e ∈ y.pages ∧
           (∀ i, i < 64 - va.toNat % 64 → y.buf[i]? = some (p + i, readPlace u.mem (p + i))) ∧
           (va.toNat % 64 = 0 → y.buf.length = 64 ∧ y.pages = [e] ∧
             (memoryOf p ≠ 2 → lookup (t.core c).icache p = some (readPlaces u.mem p 64)))) ∧
     (∀ p rest, x.ms.stq = p :: rest → p.holes = [] → p.after = 0 →
       (p.again = false → p.amo = none → p.fill = none → x.run.wait = none → s.Sound → p.cells.Pairwise (fun i j => i.place ≠ j.place) →
         ∃ t, exec .storeElementCommit s = .next t ∧ t.hartAt c h = { x.setStq rest with hole := (t.hartAt c h).hole } ∧
           (∀ i ∈ p.cells, readPlace t.mem i.place = (readPlace s.mem i.place &&& ~~~i.mask) ||| (i.data &&& i.mask)) ∧
           ∀ q, (∀ i ∈ p.cells, i.place ≠ q) → readPlace t.mem q = readPlace s.mem q) ∧
       (∀ a i q e u, p.again = true → p.amo = none → p.fill = none → p.addr = some a → p.cells = [i] → u.Sound →
         translate ⟨c, a.ptbase, a.asid, a.sup⟩ .write a.va 0 s = .ok (q, e) u →
         ∃ t, exec .storeElementCommit s = .next t ∧ (t.hartAt c h).ms.stq = rest ∧
           readPlace t.mem q = (readPlace u.mem q &&& ~~~i.mask) ||| (i.data &&& i.mask) ∧
           ∀ r, r ≠ q → readPlace t.mem r = readPlace u.mem r) ∧
       (∀ (a : Atomic) (i : StoreCell) (cells : List StoreCell), p.again = false → p.amo = some a → p.cells = i :: cells →
         (∀ j ∈ p.cells, poisoned j.place 1 s = false) → x.run.wait = none → s.Sound → ∀ row, (atomicRows 0 0 0 0)[a.op]? = some row →
         let old := BitVec.ofNat 64 (readNat s.mem i.place 8)
         ∃ t, exec .storeElementCommit s = .next t ∧ t.hartAt c h = { (x.setX a.d old).setStq rest with hole := (t.hartAt c h).hole } ∧
           readNat t.mem i.place 8 = (row.2 old a.b a.c).toNat ∧
           ∀ q, q < i.place ∨ i.place + 8 ≤ q → readPlace t.mem q = readPlace s.mem q) ∧
       ∀ n slot ch, p.again = false → p.amo = none → p.cells = [] → p.fill = some (n, slot) → lookup (s.core c).channels n = some ch →
         ∃ t, exec .storeElementCommit s = .next t ∧ (t.hartAt c h).ms.stq = rest ∧ t.mem = s.mem ∧
           lookup (t.core c).channels n = some { ch with
             filled := ch.filled + 1, marks := slot :: ch.marks, resv := ch.resv.filter fun r => r.1 != slot }) ∧
     (∀ p rest, x.ms.stq = p :: rest → p.holes ≠ [] ∨ 0 < p.after →
       ∃ t, exec .storeElementCommit s = .next t ∧ t.mem = s.mem ∧ (t.hartAt c h).ms.stq = p :: rest) ∧
     (∀ e : LEntry, lookup (s.core c).land.entries k = some e → e.state = .waiting → e.links = [] → e.gather = none →
       let y := s.hartAt c e.hart.toNat
       let mode := rmodeOf e.rm.toNat
       let r := laneCompute e.fn e.ty.toNat e.ty2.toNat e.dty.toNat e.scale mode e.srb.toNat e.opa.toNat e.opb.toNat e.opc.toNat
       (hardType e.ty.toNat = false ∨ e.cls = 63 → (s.core c).land.entries.Pairwise (fun i j => i.1 ≠ j.1) →
         (∀ n, (s.hartAt c n).ms.stq = []) → e.live.toNat = 2 ^ e.width - 1 → 0 < e.width → e.width ≤ 64 →
         e.width * (e.index.toNat + 1) ≤ 16384 →
         ∃ t, exec .replayComplete s = .next t ∧ lookup (t.core c).land.entries k = none ∧ t.mem = s.mem ∧
           let z := t.hartAt c e.hart.toNat
           z.fp.flags = y.fp.flags ||| BitVec.ofNat 5 r.2 ∧
           elemOf (z.getV e.reg.toNat) e.width e.index.toNat = r.1 % 2 ^ e.width ∧
           (∀ j, j ≠ e.index.toNat → elemOf (z.getV e.reg.toNat) e.width j = elemOf (y.getV e.reg.toNat) e.width j) ∧
           (∀ v, v ≠ e.reg.toNat → z.getV v = y.getV v) ∧ z.x = y.x ∧ z.k = y.k ∧ z.pc = y.pc) ∧
       (hardType e.ty.toNat = true → e.cls ≠ 63 → e.scale = none →
         easyElement e.fn e.ty.toNat e.ty2.toNat e.dty.toNat mode e.srb.toNat e.opa.toNat e.opb.toNat e.opc.toNat = false →
         exec .replayComplete s = .next (s.modCore c fun q =>
           { q with land := { q.land with entries := insert q.land.entries k { e with state := .ready } } }))) ∧
     (∀ (w : Waiting) (p : Nat) (e : TlbEntry) (i : Instr), x.run.wait = some w → x.ms.stq = [] → x.vec.viq = [] →
       let t := s.focus c h
       translate t.ctx .read w.va 0 t = .ok (p, e) t → w.va.toNat % 8 = 0 → e.pte.getLsbD 8 = false → poisoned p 8 s = false →
       (i = .waitWakeup ∧ w.hit = true ∧ memoryOf w.place ≠ 2 ∧ memoryOf w.place ≠ 3 ∨
         i = .waitTimeout ∧ w.since + 4096 ≤ (s.core c).cycles) →
       (readNat s.mem p 8 ≠ w.value.toNat →
         exec i s = .next (t.modHart fun y => let z := y.retire 4; { z with run := { z.run with wait := none } })) ∧
       (readNat s.mem p 8 = w.value.toNat →
         exec i s = .next (t.modHart fun y => { y with run := { y.run with
           why := 9, wait := some ⟨w.va, w.value, p, (s.core c).cycles, false⟩ } }))) ∧
     ∀ w : Waiting, x.run.wait = some w → memoryOf w.place = 2 ∨ memoryOf w.place = 3 → exec .waitWakeup s = .next s) ∧
  (∀ s : State,
     let i := s.input
     let d := i.die.toNat
     let y := (s.die d).heat
     let target := 24 * d + y.core.toNat
     let set := i.page.toNat / 4096 % 1024
     let cleared := (lookupD y.sets set []).map fun e =>
       if e.tenant = i.tenant ∧ e.page = i.page.toNat ∧ e.size = i.size.toNat ∧ y.threshold.toNat ≤ e.count then { e with count := 0 } else e
     let note : Heat := ⟨BitVec.ofNat 64 (i.page.toNat / 16 * 16 + i.size.toNat),
       BitVec.ofNat 64 (i.tenant.toNat + i.value.toNat % 65536 * 65536)⟩
     (∀ (c tenant : Nat) (e : TlbEntry), e.pte.getLsbD 8 = true →
       let z := (s.die (c / 24)).heat
       let count : State → Nat := fun t => (((lookupD (t.die (c / 24)).heat.sets (e.base / 4096 % 1024) []).find? fun q =>
         q.tenant == BitVec.ofNat 6 tenant && q.page == e.base && q.size == sizeIndex e.bits).map (·.count)).getD 0
       let n := count s + 1
       let t := countHeat c tenant e s
       t.mem = s.mem ∧ t.cores = s.cores ∧ (n < z.threshold.toNat → count t = n ∧ t.agenda = s.agenda) ∧
       (z.threshold.toNat ≤ n → count t = 0 ∧ t.agenda = .event .heatThreshold {
         die := BitVec.ofNat 2 (c / 24), tenant := BitVec.ofNat 6 tenant, page := BitVec.ofNat 48 e.base
         size := BitVec.ofNat 3 (sizeIndex e.bits), value := BitVec.ofNat 64 n } :: s.agenda)) ∧
     (y.threshold.toNat ≤ i.value.toNat →
       (y.en = false → ∃ t, exec .heatThreshold s = .next t ∧ (t.die d).heat = { y with sets := insert y.sets set cleared } ∧
         t.cores = s.cores ∧ t.mem = s.mem) ∧
       (y.en = true → lookup (s.core target).channels y.ch.toNat = none ∨ 24 ≤ y.core.toNat → y.waiting.length < 16 →
         ∃ t, exec .heatThreshold s = .next t ∧ t.cores = s.cores ∧ t.mem = s.mem ∧
           (t.die d).heat = { y with sets := insert y.sets set cleared, waiting := y.waiting ++ [note] }) ∧
       (y.en = true → lookup (s.core target).channels y.ch.toNat = none ∨ 24 ≤ y.core.toNat → 16 ≤ y.waiting.length →
         ∃ t, exec .heatThreshold s = .next t ∧ t.cores = s.cores ∧ t.mem = s.mem ∧
           (t.die d).heat = { y with
             sets := insert y.sets set cleared, drops := if y.drops = 0xFFFF then y.drops else y.drops + 1 })) ∧
     ∀ q rest ch g, y.waiting = q :: rest → y.core.toNat < 24 → lookup (s.core target).channels y.ch.toNat = some ch →
       lookup s.wharf.groups ch.group = some g → 0 < ch.free → s.Sound →
       let p := lsPlace target (g.lsBase + ch.base + ch.tail * 2 ^ (ch.sz + 6))
       ∃ t, exec .heatNotificationSend s = .next t ∧ (t.die d).heat = { y with waiting := rest } ∧
         lookup (t.core target).channels y.ch.toNat = some { ch with
           filled := ch.filled + 1, free := ch.free - 1, tail := (ch.tail + 1) % ch.nslot, marks := ch.tail :: ch.marks
           resv := ch.resv.filter fun r => r.1 != ch.tail } ∧
         readNat t.mem p 8 = q.word0.toNat ∧ readNat t.mem (p + 8) 8 = q.word1.toNat ∧
         (∀ j, 16 ≤ j → j < 64 → readPlace t.mem (p + j) = 0) ∧
         ∀ j, j < p ∨ p + 64 ≤ j → readPlace t.mem j = readPlace s.mem j)

/-! The copy engine and the collective engines -/

/-- R155 to R157, R264: with no earlier command that it must follow, a command of the FIFO executes: its bytes, or the
fill pattern, go to its destination or to the tail slot of its channel, which is filled; the command leaves the FIFO,
and its token is posted when TOK is 1. A command whose byte `n` fails writes the bytes before it, and always posts the
status and the address. The choices and readings of the model in it: log entries 45, 47, 48, 49. -/
def Obligations.CopyResults : Prop :=
  ∀ (s : State) (q : CopyCmd) (i : Instr) (sp dp : Nat → Nat) (sl dl : Nat → Option TlbEntry) (n : Nat),
    let c := s.input.core.toNat
    let pos := s.input.pos.toNat
    let h := q.hart.toNat
    let w0 := q.words.getD 0 0
    let src := q.words.getD 1 0
    let dst := q.words.getD 2 0
    let len := (q.words.getD 3 0).toNat
    let cx : Ctx := ⟨c, q.ptbase, q.asid, q.sup⟩
    let chan := if w0.getLsbD 17 then lookup (s.core c).channels (wbits w0 18 4) else none
    let u0 := s.modCore c fun k => { k with copyFifo := k.copyFifo.eraseIdx pos }
    let u := if w0.getLsbD 17 then reserveSlot c (wbits w0 18 4) none u0 else u0
    let space := match chan with
      | none => wbits w0 6 2
      | some _ => 0
    let goal := match chan with
      | none => dst
      | some ch => BitVec.ofNat 64 (ch.base + ch.tail * 2 ^ (ch.sz + 6))
    (s.core c).copyFifo[pos]? = some q → (i = .copy ∧ wbits w0 0 2 = 0 ∨ i = .copyFill ∧ wbits w0 0 2 = 1) → q.dropped = false →
    s.Sound → (∀ p ∈ (s.core c).copyFifo, q.order ≤ p.order) → (∀ x ∈ (s.core c).harts, x.2.ms.copyWords = []) →
    (w0.getLsbD 17 = true → ∃ ch, chan = some ch ∧ 0 < ch.free) →
    (∀ j, j < n →
      (i = .copy → placeFor c h [] cx (wbits w0 4 2) .read (src + BitVec.ofNat 64 j) 1 0 u = .ok (sp j, sl j) u ∧
        poisoned (sp j) 1 s = false) ∧
      placeFor c h [] cx space .write (goal + BitVec.ofNat 64 j) 1 0 u = .ok (dp j, dl j) u) →
    (∀ j k, j < n → k < n → (dp j = dp k → j = k) ∧ (i = .copy → sp j ≠ dp k)) →
    let moved : State → Prop := fun t =>
      (t.core c).copyFifo = (s.core c).copyFifo.eraseIdx pos ∧
      (∀ j, j < n → readPlace t.mem (dp j) =
        if i = .copy then readPlace s.mem (sp j) else BitVec.ofNat 8 (src.toNat / 256 ^ (j % 8))) ∧
      (∀ p, (∀ j, j < n → dp j ≠ p) → readPlace t.mem p = readPlace s.mem p) ∧
      ∀ ch, chan = some ch → lookup (t.core c).channels (wbits w0 18 4) = some { ch with
        filled := ch.filled + 1, free := ch.free - 1, tail := (ch.tail + 1) % ch.nslot, marks := ch.tail :: ch.marks
        resv := ch.resv.filter fun r => r.1 != ch.tail }
    let old := (s.hartAt c h).ms.copyTokens
    let tag := wbits w0 8 8
    (n = len → ∃ t, exec i s = .next t ∧ moved t ∧
      (t.hartAt c h).ms.copyTokens = old ++ if w0.getLsbD 16 then [BitVec.ofNat 64 (tag * 256)] else []) ∧
    ∀ (e : Exc) (k : Nat), n < len →
      ((i = .copy ∧ placeFor c h [] cx (wbits w0 4 2) .read (src + BitVec.ofNat 64 n) 1 0 u = .exc e k u) ∨
        ((i = .copy → ∃ p l, placeFor c h [] cx (wbits w0 4 2) .read (src + BitVec.ofNat 64 n) 1 0 u = .ok (p, l) u ∧
          poisoned p 1 s = false) ∧
          placeFor c h [] cx space .write (goal + BitVec.ofNat 64 n) 1 0 u = .exc e k u)) →
      ∃ t, exec i s = .next t ∧ moved t ∧
        (t.hartAt c h).ms.copyTokens = old ++ [BitVec.ofNat 64 (e.code + tag * 256 + e.info0.toNat % 2 ^ 48 * 65536)]

/-- A GV byte at a place, in a page that the TLB of its core holds and that allows the access. -/
structure Sys2Proof.Machine.HeldByte (cx : Ctx) (k : Access) (va : Word) (p : Nat) (s : State) : Prop where
  canonical : wbits va 48 16 = 0
  leaf : ∃ e, tlbFind (s.core cx.core).tlb cx.asid va.toNat = some e ∧ leafRefuses e.pte k cx.sup = none ∧
    (k.writes = true → e.pte.getLsbD 6 = true) ∧ p = paPlace (wbits e.pte 9 2) (physical e va.toNat)
  up : reachable cx.core p s = .ok () s

/-- R156, R158, R239, R240: with one command of each die with a tag, which agree and whose limits hold, a collective
operation of one package executes. Reduce and all-reduce combine the sources over the fixed tree, by rank relative to
ROOT, and write the root's destination or every one; all-gather writes the sources in rank order, and broadcast that of
the root, whose source alone it reads. Each command with TOK 1 gets its token. A KIND above 5 gives each that has not
been answered yet the token 0x0F, and no byte is written. The choices and readings of the model in it: log entries 43,
44, 45. -/
def Obligations.CollectiveResults : Prop :=
  ∀ (s : State) (q : Nat → CollCmd) (w0 src dst : Nat → Word) (w3 : Word) (op kind ty root : Nat) (sp dp : Nat → Nat → Nat)
    (i : Instr),
    let tag := s.input.tag.toNat
    let size := typeBits ty / 8
    let count := w3.toNat
    let out := if op = 2 then 4 * count * size else count * size
    let writes : Nat → Prop := fun r => op ≠ 0 ∨ r = root
    let fn : LaneFn := match kind with
      | 0 => if ty = 13 ∨ ty = 14 then .fadd else .add
      | 1 => if ty = 13 ∨ ty = 14 then .fmin else if 4 ≤ ty then .minn else .min
      | 2 => if ty = 13 ∨ ty = 14 then .fmax else if 4 ≤ ty then .maxn else .max
      | 3 => .and
      | 4 => .or
      | _ => .xor
    let plus : Nat → Nat → Nat := fun a b => (laneCompute fn ty ty ty none .rne 0 a b 0).1
    let byte : Nat → Nat → Byte := fun r j => readPlace s.mem (sp r j)
    let elem : Nat → Nat → Nat := fun k e =>
      ((List.range size).map fun j => (byte ((k + root) % 4) (e * size + j)).toNat * 256 ^ j).sum
    let sum : Nat → Nat := fun e => plus (plus (elem 0 e) (elem 1 e)) (plus (elem 2 e) (elem 3 e))
    let result : Nat → Byte := fun j =>
      if op = 2 then byte (j / (count * size)) (j % (count * size))
      else if op = 3 then byte root j
      else BitVec.ofNat 8 (sum (j / size) / 256 ^ (j % size))
    (i = .reduce ∧ op = 0 ∨ i = .allReduce ∧ op = 1 ∨ i = .allGather ∧ op = 2 ∨ i = .broadcast ∧ op = 3) →
    s.host.podId = 0 → s.input.remote = [] → s.Sound →
    (∀ r, r < 4 →
      (s.die r).coll.find? (fun c => wbits (c.words.getD 0 0) 8 8 == tag) = some (q r) ∧
      (q r).words = [w0 r, src r, dst r, w3] ∧ (q r).core.toNat / 24 = r ∧ (q r).dropped = false ∧
      wbits (w0 r) 0 2 = op ∧ wbits (w0 r) 2 3 = kind ∧ wbits (w0 r) 5 3 = 0 ∧ wbits (w0 r) 17 3 = 0 ∧ wbits (w0 r) 20 4 = ty ∧
      wbits (w0 r) 24 8 = 0 ∧ wbits (w0 r) 32 8 = root ∧ wbits (w0 r) 40 24 = 0) →
    let answered : State → Nat → Nat → Prop := fun t r st =>
      (t.hartAt (q r).core.toNat (q r).hart.toNat).ms.collTokens =
        (s.hartAt (q r).core.toNat (q r).hart.toNat).ms.collTokens ++ [BitVec.ofNat 64 (st + tag * 256)]
    (kind < 6 → ty ∈ [2, 3, 6, 7, 13, 14] → (3 ≤ kind → ty < 8) → root < 4 → 0 < count → count < 2 ^ 32 →
      (∀ r j, r < 4 → j < count * size →
        op ≠ 3 ∨ r = root →
        HeldByte (q r).ctx .read (src r + BitVec.ofNat 64 j) (sp r j) s ∧ poisoned (sp r j) 1 s = false) →
      (∀ r j, r < 4 → writes r → j < out → HeldByte (q r).ctx .write (dst r + BitVec.ofNat 64 j) (dp r j) s) →
      (∀ r j r' j', r < 4 → r' < 4 → writes r → writes r' → j < out → j' < out → dp r j = dp r' j' → r = r' ∧ j = j') →
      ∃ t, exec i s = .next t ∧
        (∀ r, r < 4 → (t.die r).coll = (s.die r).coll.erase (q r) ∧
          (writes r → ∀ j, j < out → readPlace t.mem (dp r j) = result j) ∧
          ((w0 r).getLsbD 16 = true → answered t r 0)) ∧
        ∀ p, (∀ r j, r < 4 → writes r → j < out → dp r j ≠ p) → readPlace t.mem p = readPlace s.mem p) ∧
    (6 ≤ kind → ∃ t, exec i s = .next t ∧ t.mem = s.mem ∧
      ∀ r, r < 4 → (t.die r).coll = (s.die r).coll.erase (q r) ∧
        ((q r).answered = false → answered t r 0x0F) ∧
        ((q r).answered = true → (t.hartAt (q r).core.toNat (q r).hart.toNat).ms.collTokens =
          (s.hartAt (q r).core.toNat (q r).hart.toNat).ms.collTokens))

/-! The Wharf -/

/-- R201: the fields of a launch record of 64 bytes, the lowest byte first. R203, R205: LAUNCH of a record that passes
every check, of a hart with nothing in flight, counts it in ACC, and appends it to the queue of its tenant and priority
with the next sequence number. R204, R205, R218, R255, R306: a store to a launch window is rejected with reason 3 while
the Wharf is not ready, and with reason 1 unless it is one aligned 64-byte store to the enqueue area, the first 2 KiB;
a record that passes the checks joins the queue of its tenant and priority as a new launch, at U from a tenant's window
and at S from the hypervisor's. The choices and readings of the model in it: log entries 26, 36. -/
def Obligations.LaunchOutcomes : Prop :=
  (∀ w : Nat, w < 2 ^ 512 →
     let f : Nat → Nat → Nat := fun off n => w / 256 ^ off % 256 ^ n
     let r := (parseRecord w).1
     r.entry.toNat = f 0 8 ∧ (tableAddr w).toNat = f 8 8 ∧ r.args.toNat = f 16 8 ∧ r.waitAddr.toNat = f 24 8 ∧
     r.waitVal.toNat = f 32 8 ∧ r.doneAddr.toNat = f 40 8 ∧ r.tenant.toNat = f 48 1 % 64 ∧ r.prio.toNat = f 48 1 / 64 ∧
     r.harts = f 49 1 % 8 ∧ r.run = f 49 1 / 8 % 8 ∧ r.lanes = f 50 1 % 128 ∧ r.tiles = f 51 1 % 16 ∧
     r.accs = f 51 1 / 16 % 8 ∧ r.lsb = f 52 4 ∧ r.gang = decide (f 56 1 % 2 = 1) ∧
     ((parseRecord w).2 = none → 1 ≤ r.harts ∧ r.harts ≤ 4 ∧ 1 ≤ r.run ∧ r.run ≤ r.harts ∧ 1 ≤ r.lanes ∧ r.run * r.lanes ≤ 64 ∧
       r.tiles ≤ 8 ∧ r.accs ≤ 4 ∧ r.entry.toNat ≠ 0 ∧ r.entry.toNat % 64 = 0)) ∧
  (∀ (s u : State) (a : XReg) (r : LaunchRec) (pages : List TlbEntry), Idle s → s.hart.rc.act = false → s.hart.run.wait = none →
     checkedRecord (s.hart.getX a.toNat) s = .ok (r, pages) u → Idle u → (u.tenant r.tenant.toNat).queued < 1024 →
     let tn := r.tenant.toNat
     ∃ t, exec (.launch a) s = .next t ∧ t.mem = u.mem ∧ t.hart = u.hart.retire 4 ∧
       (t.tenant tn).acc = (u.tenant tn).acc + 1 ∧
       lookupD (t.tenant tn).queues r.prio.toNat [] = lookupD (u.tenant tn).queues r.prio.toNat [] ++ [u.wharf.nextId] ∧
       t.wharf.nextId = u.wharf.nextId + 1 ∧ t.wharf.groups = u.wharf.groups ∧
       lookup t.wharf.launches u.wharf.nextId =
         some ⟨{ r with seq := (u.tenant tn).acc + 1 }, 0, 0, 0, [], false⟩) ∧
  (∀ (s : State),
     let i := s.input
     let n := i.tenant.toNat
     let up : BitVec 16 → BitVec 16 := fun r => if r = 0xFFFF then r else r + 1
     let wrong : Nat → Prop := fun k =>
       exec .launchWindowStore s = .next (s.modTenant n fun t => { t with rej := up t.rej, reason := BitVec.ofNat 8 k }) ∧
       exec .hypervisorLaunchStore s = .next (s.modWharf fun w =>
         { w with hyperRej := up w.hyperRej, hyperReason := BitVec.ofNat 8 k })
     (wbits s.host.ready 52 4 ≠ 15 → wrong 3) ∧
     (wbits s.host.ready 52 4 = 15 → i.bytes.length ≠ 64 ∨ i.off.toNat % 64 ≠ 0 ∨ 0x800 ≤ i.off.toNat → wrong 1) ∧
     (wbits s.host.ready 52 4 = 15 → i.bytes.length = 64 → i.off.toNat % 64 = 0 → i.off.toNat < 0x800 →
       ∀ (tenant : Option Nat) (r : LaunchRec) (u : State) (row : Instr),
         row = .launchWindowStore ∧ tenant = some n ∨ row = .hypervisorLaunchStore ∧ tenant = none →
         windowRecord tenant (numberOf i.bytes) s = .ok (.inl r) u →
         let tn := r.tenant.toNat
         r.sup = tenant.isNone ∧ (∀ m, tenant = some m → m < 64 → tn = m) ∧
         ∃ t, exec row s = .next t ∧ t.mem = u.mem ∧ t.wharf.nextId = u.wharf.nextId + 1 ∧
           (t.tenant tn).acc = (u.tenant tn).acc + 1 ∧
           lookupD (t.tenant tn).queues r.prio.toNat [] = lookupD (u.tenant tn).queues r.prio.toNat [] ++ [u.wharf.nextId] ∧
           lookup t.wharf.launches u.wharf.nextId =
             some ⟨{ r with seq := (u.tenant tn).acc + 1 }, 0, 0, 0, [], false⟩ ∧
           t.wharf.hyperAcc = u.wharf.hyperAcc + (if tenant.isNone then 1 else 0)))

/-- R202, R203, R208, R209, R211, R218: with one tenant, whose only queued launch has one C level, an empty package,
and a positive deficit, the Wharf admits the next group on core 0 as the record asks: each hart it starts has the
registers that R211 names and every other at its reset value, the arena is zero, and the tenant pays 2^14. With no
positive deficit, a new round adds the weight. Here on a hart whose vector side follows the front at once (log entry
5). The choices and readings of the model in it: log entry 82. -/
def Obligations.AdmissionResults : Prop :=
  ∀ (s : State) (tn p id n : Nat) (x : Tenant) (l : Launch), wbits s.host.ready 52 4 = 15 →
    s.wharf.tenants = [(tn, x)] → tn < 64 → x.wgt ≠ 0 → p < 4 → x.queues = [(p, [id])] → s.wharf.launches = [(id, l)] →
    s.wharf.groups = [] → l.record.waitAddr = 0 → l.record.gang = false → l.record.levels = [(1, n)] → l.nextGroup < n →
    l.record.prio.toNat = p → l.record.tenant.toNat = tn →
    let r := l.record
    let g := s.wharf.nextId
    1 ≤ r.run → r.run ≤ r.harts → r.harts ≤ 4 → 1 ≤ r.lanes → r.run * r.lanes ≤ 64 → r.tiles ≤ 8 → r.accs ≤ 4 →
    r.lsb ≤ 0x3F0000 → coreOpen 0 s = true → (s.core 0).pool = 64 →
    let arena := (r.lsb + 1023) / 1024 * 1024
    (0 < x.deficit.toInt →
      ∃ t, exec .wharfAdmit s = .next t ∧
        (t.tenant tn).deficit = x.deficit - 0x4000 ∧ t.wharf.ptr = tn + 1 ∧ (t.core 0).pool = 64 - r.run * r.lanes ∧
        lookup t.wharf.launches id = some { l with nextGroup := l.nextGroup + 1 } ∧
        (t.tenant tn).queues = [(p, if l.nextGroup + 1 < n then [id] else [])] ∧
        (∃ y, lookup t.wharf.groups g = some y ∧ y.launch = id ∧ y.number = l.nextGroup ∧ y.core = 0 ∧
          y.harts = (List.range r.harts).map (BitVec.ofNat 3) ∧ y.lsBase = 0 ∧ y.size = arena ∧
          y.tiles = List.range r.tiles ∧ y.accs = List.range r.accs) ∧
        (∀ k, k < r.harts → ∃ lag,
          let z := Hart.reset
          t.hartAt 0 k = { z with
            pc := r.entry.setWidth 48
            vec := { z.vec with grant := if k < r.run then r.lanes else 0, lag := lag }
            tr := { z.tr with tbase := x.tbase, sup := decide (k < r.run) && r.sup }
            id := { z.id with
              rank := if k < r.run then BitVec.ofNat 2 k else 0
              tenant := if k < r.run then BitVec.ofNat 64 (p * 64 + tn) else 0
              launchId := if k < r.run then BitVec.ofNat 64 (l.nextGroup % 65536 * 2 ^ 32 + r.seq.toNat) else 0
              idx := if k < r.run then [BitVec.ofNat 64 l.nextGroup] else []
              args := if k < r.run then r.args else 0
              group := some g }
            ms := { z.ms with ptbase := x.ptbase, asid := x.asid }
            run := { z.run with running := decide (k < r.run) } }) ∧
        (∀ k, k < arena → readPlace t.mem (lsPlace 0 k) = 0) ∧
        ∀ q, (∀ k, k < arena → lsPlace 0 k ≠ q) → readPlace t.mem q = readPlace s.mem q) ∧
    (x.deficit.toInt ≤ 0 →
      let w := x.wgt.toNat
      exec .wharfAdmit s = .next (s.modWharf fun y => { y with tenants := [(tn,
        { x with deficit := BitVec.ofInt 64 (Min.min (x.deficit.toInt + ((w * 2 ^ 20 : Nat) : Int)) ((w * 2 ^ 21 : Nat) : Int)) })] }))

/-- R206 to R208, R213: a wait is met when the counter at WAITADDR is at or above WAITVAL; a group's use is charged at
each 2^16 cycles; a group whose harts have ended leaves its core, is counted at DONEADDR, and the launch ends with its
last group; and the oldest request of a launch gets its next index, or the end token, in a slot of the channel that it
names. The choices and readings of the model in it: log entries 35, 60, 81. -/
def Obligations.WharfResults : Prop :=
  ∀ (s : State),
    let i := s.input
    let g := i.group
    let tn := i.tenant.toNat
    (∀ id rest l w u, lookupD (s.tenant tn).queues i.prio.toNat [] = id :: rest → lookup s.wharf.launches id = some l →
      l.met = false → l.record.waitAddr ≠ 0 → wharfRead tn l.record.sup l.record.waitAddr s = .ok w u →
      (l.record.waitVal.toNat ≤ w → exec .waitCounterRead s = .next (u.modWharf fun y =>
        { y with launches := insert y.launches id { l with met := true } })) ∧
      (w < l.record.waitVal.toNat → exec .waitCounterRead s = .next u)) ∧
    (∀ x l, lookup s.wharf.groups g = some x → x.gone = false → lookup s.wharf.launches x.launch = some l →
      let use := x.carried + ((s.core x.core.toNat).cycles - x.admitted)
      let owner := l.record.tenant.toNat
      let part : Nat → Nat := fun c => c * x.harts.length / 4
      (x.charged < part (use / 65536 * 65536) → ∃ t, exec .usageCharge s = .next t ∧ t.mem = s.mem ∧ t.cores = s.cores ∧
        (t.tenant owner).deficit = (s.tenant owner).deficit - BitVec.ofNat 64 (part (use / 65536 * 65536) - x.charged) ∧
        lookup t.wharf.groups g = some { x with charged := part (use / 65536 * 65536) }) ∧
      (part (use / 65536 * 65536) ≤ x.charged → exec .usageCharge s = .next s) ∧
      (x.aborted = false → x.gang = none → (∀ h ∈ x.harts, (s.hartAt x.core.toNat h.toNat).run.running = false) →
        (s.core x.core.toNat).copyFifo = [] → (s.die (x.core.toNat / 24)).coll = [] →
        (s.core x.core.toNat).dbg.profile = [] →
        let ended : State → Prop := fun t =>
          lookup t.wharf.groups g = none ∧ (∀ h ∈ x.harts, (t.hartAt x.core.toNat h.toNat).id.group = none) ∧
          (t.tenant owner).deficit = (s.tenant owner).deficit - BitVec.ofNat 64 (part use - x.charged) ∧
          (l.ended + 1 < l.record.groups → lookup t.wharf.launches x.launch =
            some { l with ended := l.ended + 1, requests := l.requests.filter fun q => q.1 != g }) ∧
          (l.record.groups ≤ l.ended + 1 → t.wharf.launches = erase s.wharf.launches x.launch) ∧
          ∀ e ∈ (t.core x.core.toNat).channels, e.2.group ≠ g
        (l.record.doneAddr = 0 → ∃ t, exec .groupEnd s = .next t ∧ ended t ∧ t.mem = s.mem) ∧
        (∀ p u, l.record.doneAddr ≠ 0 → wharfPlace owner l.record.sup .amo l.record.doneAddr (chargeUse g use s) = .ok p u →
          poisoned p 8 u = false → s.Sound →
          ∃ t, exec .groupEnd s = .next t ∧ ended t ∧ t.host.irqs = s.host.irqs ∧
            readNat t.mem p 8 = (readNat u.mem p 8 + 1) % 2 ^ 64 ∧
            ∀ q, q < p ∨ p + 8 ≤ q → readPlace t.mem q = readPlace u.mem q))) ∧
    ∀ l x ch n y, lookup s.wharf.launches i.launch = some l → l.requests = [(g, n, none)] → yCount l = some y →
      lookup s.wharf.groups g = some x → lookup s.wharf.saved g = none →
      lookup (s.core x.core.toNat).channels n = some ch → ch.group = g → 0 < ch.free → s.Sound →
      let p := lsPlace x.core.toNat (x.lsBase + ch.base + ch.tail * 2 ^ (ch.sz + 6))
      ∃ t, exec .wqryAnswer s = .next t ∧
        lookup t.wharf.launches i.launch = some { l with nextIndex := l.nextIndex + 1, requests := [] } ∧
        readNat t.mem p 8 = (if l.nextIndex < y then l.nextIndex % 2 ^ 64 else 2 ^ 64 - 1) ∧
        (∀ j, 8 ≤ j → j < 2 ^ (ch.sz + 6) → readPlace t.mem (p + j) = 0) ∧
        (∀ j, j < p ∨ p + 2 ^ (ch.sz + 6) ≤ j → readPlace t.mem j = readPlace s.mem j) ∧
        lookup (t.core x.core.toNat).channels n = some { ch with
          filled := ch.filled + 1, free := ch.free - 1, tail := (ch.tail + 1) % ch.nslot, marks := ch.tail :: ch.marks
          resv := ch.resv.filter fun r => r.1 != ch.tail }

/-- R91, R101, R209, R211, R215 to R217: a group that the host names becomes a victim. A victim with nothing in flight
is saved: its harts become free with their lanes, and its save area in near memory holds LAUNCHID, IDX, ARGS and the
arena size in the header, x, k and the images of b in the record of each running hart, and the arena. A saved group
comes back on the first core of its die that has room, with its registers and its arena from the save area, each target
register that held an address to be fetched again. Here on a hart whose vector side follows the front at once (log
entry 5). The choices and readings of the model in it: log entries 83, 84, 85, 108. -/
def Obligations.PreemptionResults : Prop :=
  ∀ (s : State),
    let g := s.input.group
    let image : TReg → Nat := fun b => b.pf.toNat * 2 ^ 48 + b.addr.toNat * 2 + (if b.v then 1 else 0)
    (∀ x, lookup s.wharf.groups g = some x → x.gang = none → x.aborted = false → x.gone = false →
      (∀ l, lookup s.wharf.launches x.launch = some l → l.record.gang = false) →
      s.wharf.groups.Pairwise (fun a b => a.1 ≠ b.1) →
      let c := x.core.toNat
      exec .hostPreempt s = .next (s.modWharf fun w => { w with groups := insert w.groups g { x with victim := true } }) ∧
      (x.victim = true → (s.core c).land.entries = [] → (s.core c).copyFifo = [] → (s.die (c / 24)).coll = [] →
        x.harts.Pairwise (· ≠ ·) → (∀ h ∈ x.harts, (s.hartAt c h.toNat).ms.stq = []) →
        (∀ h ∈ x.harts, ∀ v rest, (s.hartAt c h.toNat).vec.viq = v :: rest → (∀ a b, v.instr ≠ .loop a b) ∧ v.start % 8 = 0) →
       saveBase (groupTenant x s) s + (saveMap g x s).2 ≤ 6 * 2 ^ 30 →
        let running := x.harts.filter fun h => (s.hartAt c h.toNat).run.running
        ∃ t v, exec .preempt s = .next t ∧ lookup t.wharf.groups g = none ∧ lookup t.wharf.saved g = some v ∧
          v.group = { x with victim := false, carried := x.carried + ((s.core c).cycles - x.admitted) } ∧
          v.harts = x.harts.map (fun h => (h, (s.hartAt c h.toNat).suspend.bare)) ∧ v.landing = [] ∧
          (∀ l, lookup s.wharf.launches x.launch = some l → s.wharf.saved = [] →
            v.base = (s.tenant l.record.tenant.toNat).saveBase.toNat) ∧
          v.map.records.map (·.1) = running ∧ (∀ e rest, v.map.records = e :: rest → e.2 = 256) ∧
          (s.Sound →
            let area := paPlace 0 v.base
            (∀ q, q < area ∨ area + v.size ≤ q → readPlace t.mem q = readPlace s.mem q) ∧
            (∀ h rest, running = h :: rest →
              let id := (s.hartAt c h.toNat).id
              readNat t.mem (area + 64) 8 = id.launchId.toNat ∧
              (∀ i, i < 6 → readNat t.mem (area + 72 + 8 * i) 8 = (id.idx.getD i 0).toNat) ∧
              readNat t.mem (area + 120) 8 = id.args.toNat) ∧
            readNat t.mem (area + 128) 8 = x.size % 2 ^ 64 ∧ readNat t.mem (area + 136) 8 = running.length ∧
            (∀ e ∈ v.map.records,
              let y := s.hartAt c e.1.toNat
              let p := area + e.2
              (∀ r, r < 64 → readNat t.mem (p + 8 * r) 8 = (y.getX r).toNat) ∧
              (∀ k, k < 8 → readNat t.mem (p + 512 + k) 1 = if y.k.getLsbD k then 1 else 0) ∧
              (∀ b, b < 8 → readNat t.mem (p + 576 + 8 * b) 8 = image (y.getB b)) ∧
             readNat t.mem (p + 640) 8 = y.pc.toNat ∧ readNat t.mem (p + 664) 8 = y.vec.vtype.toNat ∧
             readNat t.mem (p + 672) 8 = y.vec.vl % 2 ^ 64 ∧ readNat t.mem (p + 752) 8 = y.tr.tpc.toNat ∧
             readNat t.mem (p + 768) 8 = y.tr.tcause.toNat ∧ readNat t.mem (p + 840) 8 = (if y.tr.sup then 1 else 0) ∧
             readNat t.mem (p + 872) 8 = y.ms.ptbase.toNat) ∧
            ∀ k, k < x.size → readPlace t.mem (area + v.map.arena + k) = readPlace s.mem (lsPlace c (x.lsBase + k))) ∧
          (∀ h ∈ x.harts, (t.hartAt c h.toNat).run.running = false ∧ (t.hartAt c h.toNat).id.group = none) ∧
          (t.core c).pool = (s.core c).pool +
            (x.harts.map fun h =>
              (s.hartAt c h.toNat).vec.grant + ((s.hartAt c h.toNat).id.parked.map (·.2)).sum).sum)) ∧
    ∀ v c, s.wharf.saved = [(g, v)] → v.group.gang = none →
      (∀ l, lookup s.wharf.launches v.group.launch = some l → l.record.gang = false ∧ (s.tenant l.record.tenant.toNat).queues = []) →
      v.landing = [] → v.channels = [] → v.pontoon = none → v.harts.Pairwise (fun a b => a.1 ≠ b.1) →
      (∀ e ∈ v.harts, e.1 ∈ freeHarts c s ∧ e.2.ms.stq = [] ∧ ∀ q ∈ e.2.allEntries, q.old = none ∧ q.ahead = []) →
      c < 96 → c / 24 = v.group.core.toNat / 24 →
      v.fits c s = true → (∀ k, k < c → k / 24 = c / 24 → v.fits k s = false) → (s.core c).land.entries = [] → s.Sound →
      let area := paPlace 0 v.base
      ∃ t y, exec .restore s = .next t ∧ t.wharf.saved = [] ∧ lookup t.wharf.groups g = some y ∧ y.core = BitVec.ofNat 7 c ∧
        y.harts = v.harts.map (·.1) ∧ y.launch = v.group.launch ∧ y.number = v.group.number ∧ y.size = v.group.size ∧
        (t.core c).pool = (s.core c).pool - (v.harts.map fun e => e.2.vec.grant + (e.2.id.parked.map (·.2)).sum).sum ∧
        (t.core c).icache = [] ∧
        (∀ e ∈ v.harts,
          let z := t.hartAt c e.1.toNat
          z.run.running = e.2.run.running ∧ z.vec.grant = e.2.vec.grant ∧ z.vec.written = e.2.vec.written ∧
         (v.map.records.find? (fun r => r.1 == e.1) = none →
           z.pc = e.2.pc ∧ z.fp = e.2.fp ∧ z.lp = e.2.lp ∧ z.rc = e.2.rc ∧ z.tr = e.2.tr ∧
           z.vec = { e.2.vec with lag := z.vec.lag } ∧ z.ms.ptbase = e.2.ms.ptbase ∧ z.ms.asid = e.2.ms.asid) ∧
         ∀ off, v.map.records.find? (fun r => r.1 == e.1) = some (e.1, off) →
           let p := area + off
           z.pc = BitVec.ofNat 48 (readNat s.mem (p + 640) 8) ∧ z.vec.vtype.toNat = readNat s.mem (p + 664) 8 ∧
           z.vec.vl = readNat s.mem (p + 672) 8 ∧ z.tr.tpc.toNat = readNat s.mem (p + 752) 8 ∧
           z.tr.tcause.toNat = readNat s.mem (p + 768) 8 ∧ (z.tr.sup = true ↔ readNat s.mem (p + 840) 8 % 2 = 1) ∧
           z.ms.ptbase.toNat = readNat s.mem (p + 872) 8 ∧
            (∀ r, 0 < r → r < 64 → (z.getX r).toNat = readNat s.mem (p + 8 * r) 8) ∧
            (∀ k, k < 8 → (z.k.getLsbD k = true ↔ readNat s.mem (p + 512 + k) 1 % 2 = 1)) ∧
            (∀ b, b < 8 →
              let w := readNat s.mem (p + 576 + 8 * b) 8
              (z.getB b).addr = BitVec.ofNat 47 (w / 2 % 2 ^ 47) ∧ ((z.getB b).v = true ↔ w % 2 = 1) ∧
              (z.getB b).pf = if w % 2 = 1 then 1 else 0) ∧
            ∀ r n rest, e.2.vec.written = (r, n) :: rest → z.getV r = BitVec.ofNat 16384 (readNat s.mem (p + 7872) n)) ∧
        ∀ k, k < v.group.size → readPlace t.mem (lsPlace c (y.lsBase + k)) = readPlace s.mem (area + v.map.arena + k)

/-! Hardware events -/

/-- R226, R228 to R231, R233, R238: a corrected error is counted, and recorded when no record is held and LOGCE is 1,
and a structure that can be read again drops the entry; a count at THRESH interrupts the host; an error in memory data
poisons its line and logs a contained record; a contained error of a hart aborts its group, which is no longer to be
pre-empted, whose copy commands that wait for a slot are cancelled and whose others run on without a token, and whose
harts with a handler enter it at S with cause 0x13; an error of the Landing aborts the group of the hart that made the
entry; fatal errors stop the package, each vector instruction at a boundary of an element group, and interrupt the
host; and a peer link goes down. The choices and readings of the model in it: log entries 14, 21, 52, 119. -/
def Obligations.ErrorResults : Prop :=
  ∀ (s : State),
    let i := s.input
    let r := i.report
    let c := r.core.toNat
    let b := r.bank.toNat
    let k := s.bank c b
    let record : Nat → Nat → Word := fun cls n => BitVec.ofNat 64 (2 ^ 63 + cls * 2 ^ 60 +
      (if r.addr.isSome then 2 ^ 59 else 0) + 2 ^ 58 + n * 2 ^ 32 + r.source.toNat * 2 ^ 16 + r.syndrome.toNat)
    let owner := if r.hart.toNat < 4 then wbits (s.hartAt c r.hart.toNat).id.tenant 0 6 else 0
    let misc : Word := BitVec.ofNat 64 (owner * 2 ^ 58 + c * 2 ^ 51 + r.hart.toNat * 2 ^ 48 + r.pc.toNat)
    let count := wbits k.status 32 16
    let logged : Nat → State → Prop := fun cls t => t.bank c b = { k with status := record cls count, addr := r.addr.getD 0, misc := misc }
    (let n := if count = 0xFFFF then count else count + 1
     (k.status.getLsbD 63 = false → k.ctl.getLsbD 0 = true → ∃ t, exec .correctedError s = .next t ∧ t.mem = s.mem ∧
       t.bank c b = { k with status := record 1 n, addr := r.addr.getD 0, misc := misc }) ∧
     (k.status.getLsbD 63 = true ∨ k.ctl.getLsbD 0 = false → ∃ t, exec .correctedError s = .next t ∧ t.mem = s.mem ∧
       t.bank c b = { k with status := (k.status &&& 0xFFFF0000FFFFFFFF) ||| (BitVec.ofNat 64 n <<< 32) }) ∧
     (n = wbits k.ctl 16 16 → n ≠ count → ∃ t, exec .correctedError s = .next t ∧
       t.agenda = .event .ceThreshold { core := r.core, bank := r.bank } :: s.agenda)) ∧
    (∃ t, exec .correctedError s = .next t ∧ (r.source = 0x01 → (t.core c).icache = []) ∧ (r.source = 0x02 → (t.core c).tlb = []) ∧
      ∀ n, r.source = 0x60 → r.addr = some n → (t.die (c / 24)).tlb = (s.die (c / 24)).tlb.eraseIdx n.toNat) ∧
    (let q := s.bank i.core.toNat i.bank.toNat
     (wbits q.ctl 16 16 ≠ 0 → wbits q.ctl 16 16 ≤ wbits q.status 32 16 →
       exec .ceThreshold s = .next (s.modHost fun o => { o with irqs := o.irqs ++ [.threshold i.core i.bank] })) ∧
     (wbits q.ctl 16 16 = 0 ∨ wbits q.status 32 16 < wbits q.ctl 16 16 → exec .ceThreshold s = .next s)) ∧
    (∀ a, r.addr = some a → r.source = 0x40 → r.hart = 7 → a.toNat < 2 ^ 52 → k.status.getLsbD 63 = false →
      ∃ t, exec .containedError s = .next t ∧ logged 2 t ∧ t.mem = s.mem ∧ a.toNat / 64 * 64 ∈ t.poison ∧
        (∀ p, p ≠ a.toNat / 64 * 64 → (p ∈ t.poison ↔ p ∈ s.poison)) ∧ t.host = s.host) ∧
    (∀ g x, r.hart.toNat < 4 → (s.hartAt c r.hart.toNat).id.group = some g → lookup s.wharf.groups g = some x →
      x.harts.Pairwise (· ≠ ·) → (∀ h ∈ x.harts, h.toNat < 4) → k.status.getLsbD 63 = false → r.source = 0x10 →
      ∃ t, exec .containedError s = .next t ∧ logged 2 t ∧ t.mem = s.mem ∧ t.host = s.host ∧
        (lookup t.wharf.groups g).map (fun y => (y.aborted, y.victim)) = some (true, false) ∧
        (t.core x.core.toNat).copyFifo = ((s.core x.core.toNat).copyFifo.filter fun q => !(q.group == g && (q.words.getD 0 0).getLsbD 17 &&
          match lookup (s.core x.core.toNat).channels (wbits (q.words.getD 0 0) 18 4) with
          | none => true
          | some ch => ch.free == 0)).map (fun q => if q.group = g then { q with dropped := true } else q) ∧
        ∀ h ∈ x.harts,
          let y := s.hartAt x.core.toNat h.toNat
          let z := t.hartAt x.core.toNat h.toNat
          (∀ e ∈ (t.core x.core.toNat).land.entries, e.2.hart.toNat ≠ h.toNat) ∧ z.vec.viq = [] ∧ z.vec.held = [] ∧ z.ms.stq = [] ∧
          (y.run.running = true → y.tr.tbase ≠ 0 → y.tr.tcause.getLsbD 59 = false →
            wbits y.tr.tcause 0 8 ≠ 0x13 ∨ y.tr.tcause.getLsbD 63 = false →
            z.run.running = true ∧ z.tr.sup = true ∧ z.tr.tpc = BitVec.ofNat 64 y.pc.toNat ∧ z.pc = y.tr.tbase.setWidth 48 ∧
            z.tr.tcause = BitVec.ofNat 64 (2 ^ 63 + (if y.tr.sup then 2 ^ 60 else 0) + 2 ^ 59 + 0x13) ∧
            z.tr.tinfo0 = BitVec.ofNat 64 (b + c * 16) ∧ z.tr.tinfo1 = record 2 count ∧ z.tr.tinfo2 = r.addr.getD 0 ∧
            z.tr.tinfo3 = misc ∧ z.rc.phase = 0 ∧ z.rc.act = false ∧ z.rc.rout = 3 ∧ z.rc.batch = 0) ∧
          (y.tr.tbase = 0 → z.run.running = false)) ∧
    (∀ n e g x, r.source = 0x12 → r.addr = some n → lookup (s.core c).land.entries n.toNat = some e →
      (s.hartAt c e.hart.toNat).id.group = some g → lookup s.wharf.groups g = some x →
      ∃ t, exec .containedError s = .next t ∧ t.host = s.host ∧ (lookup t.wharf.groups g).map (·.aborted) = some true) ∧
    (k.status.getLsbD 63 = false → ∃ t, exec .fatalError s = .next t ∧ logged 3 t ∧ t.mem = s.mem ∧
      t.host = { s.host with fatal := true, irqs := s.host.irqs ++ [.fatal] } ∧
      ∀ d n v rest, (s.hartAt d n).vec.viq = v :: rest → (∀ a b, v.instr ≠ .loop a b) → v.old = none →
        (t.hartAt d n).vec.viq = { v with start := v.start / 8 * 8 } :: rest) ∧
    (let q := s.bank (i.die.toNat * 24) 12
     q.status.getLsbD 63 = false → ∃ t, exec .ucieLinkDown s = .next t ∧ t.mem = s.mem ∧
      t.bank (i.die.toNat * 24) 12 = { q with
        status := BitVec.ofNat 64 (2 ^ 63 + 3 * 2 ^ 60 + 2 ^ 58 + wbits q.status 32 16 * 2 ^ 32 + 0x81 * 2 ^ 16)
        addr := 0, misc := BitVec.ofNat 64 (7 * 2 ^ 48) } ∧
      t.host = { s.host with fatal := true, irqs := s.host.irqs ++ [.fatal] }) ∧
    exec .peerLinkDown s = .next (s.modHost fun o => { o with linksDown := o.linksDown ||| (1 <<< i.link.toNat : BitVec 16) })

/-- R7, R11, R87, R234, R241, R242: a self-test waits for its core to be empty, leaves a record in banks 0 to 3, clears
the core, and takes it out of service when it failed, where it stays whatever a later test gives; the power states
change as R241 says, and those of the SerDes that a die has; a device reset gives every register its reset value and
keeps only the memories outside the device; and a function that becomes ready scrubs near memory, or loads the fill
tables. The choices and readings of the model in it: log entries 54, 55, 56. -/
def Obligations.ServiceResults : Prop :=
  ∀ (s : State),
    let i := s.input
    let c := i.core.toNat
    let p := (s.core c).power
    let cleared : Nat → State → Prop := fun n t =>
      (∀ o, o < n → readPlace t.mem (lsPlace c o) = 0) ∧
      (∀ q, (∀ o, o < n → lsPlace c o ≠ q) → readPlace t.mem q = readPlace s.mem q)
    exec .selfTestRequest s = .next (s.modCore c fun k => { k with power := { k.power with test := some i.seqNo } }) ∧
    (∀ n, p.test = some n → groupsOn c s ≠ [] → exec .selfTestComplete s = .next s) ∧
    (∀ n, p.test = some n → groupsOn c s = [] →
      let bad := i.signature ≠ 0
      ∃ t, exec .selfTestComplete s = .next t ∧ cleared 0x400000 t ∧ (t.core c).tiles = ⟨[], [], [], []⟩ ∧
        (t.core c).power = { p with test := none, outOfService := p.outOfService || decide bad } ∧
        ∀ b, b < 4 → (t.bank c b).status = BitVec.ofNat 64 (2 ^ 63 + (if bad then 2 * 2 ^ 60 else 0) + 2 ^ 58 +
            wbits (s.bank c b).status 32 16 * 2 ^ 32 + 0xF0 * 2 ^ 16) ∧
          (t.bank c b).misc = BitVec.ofNat 64 ((if bad then 2 ^ 63 else 0) + n.toNat * 2 ^ 32 + i.signature.toNat)) ∧
    (i.req.toNat < 5 → exec .pctlRequest s = .next (s.modCore c fun k => { k with power := { k.power with req := i.req } })) ∧
    (5 ≤ i.req.toNat → exec .pctlRequest s = .next s) ∧
    (p.trip = false → p.req ≠ p.cur →
      (p.req ≠ 4 → exec .powerStateChange s = .next (s.modCore c fun k => { k with power := { k.power with cur := p.req } })) ∧
      (p.req = 4 → groupsOn c s = [] → p.test = none → ∃ t, exec .powerStateChange s = .next t ∧ cleared 0x400000 t ∧
        (t.core c).tiles = ⟨[], [], [], []⟩ ∧ (t.core c).power = { p with cur := 4 }) ∧
      (p.req = 4 → groupsOn c s ≠ [] ∨ p.test.isSome = true → exec .powerStateChange s = .next s)) ∧
    (p.trip = true → exec .powerStateChange s = .next s) ∧
    exec .pctlTripClear s = .next (s.modCore c fun k => { k with power := { k.power with trip := false } }) ∧
    (∃ t, exec .thermalTrip s = .next t ∧ t.mem = s.mem ∧ t.host = { s.host with irqs := s.host.irqs ++ [.thermal i.die] } ∧
      (∀ k, k / 24 = i.die.toNat → (t.core k).power = { (s.core k).power with trip := true, cur := 3 }) ∧
      ∀ k, k / 24 ≠ i.die.toNat → t.core k = s.core k) ∧
    (let exists_ := i.link.toNat < 6 ∨ 8 ≤ i.link.toNat ∧ i.link.toNat < 12
     (i.st ≠ 3 → exists_ → exec .serdesStateSet s =
       .next (s.modDie i.die.toNat fun d => { d with serdes := insert d.serdes i.link.toNat i.st })) ∧
     (i.st = 3 ∨ ¬ exists_ → exec .serdesStateSet s = .next s)) ∧
    (∃ t, exec .deviceReset s = .next t ∧ t.cores = [] ∧ t.dies = [] ∧ t.wharf = State.reset.wharf ∧ t.host = State.reset.host ∧
      (s.Sound → ∀ q, readPlace t.mem q = if 1 ≤ q / 2 ^ 56 ∧ q / 2 ^ 56 ≤ 3 then readPlace s.mem q else 0)) ∧
    (i.bit.toNat < 58 → s.host.ready.getLsbD i.bit.toNat = false →
      ∃ t, exec .functionReady s = .next t ∧
        t.host = { s.host with ready := s.host.ready ||| (1 <<< i.bit.toNat : BitVec 64) } ∧
        (∀ d, d < 4 → i.bit.toNat = 4 + d →
          (∀ a, d * 0x60000000 ≤ a → a < (d + 1) * 0x60000000 → readPlace t.mem (paPlace 0 a) = 0) ∧
          ∀ q, (∀ a, d * 0x60000000 ≤ a → a < (d + 1) * 0x60000000 → paPlace 0 a ≠ q) → readPlace t.mem q = readPlace s.mem q) ∧
        (i.bit.toNat < 4 ∨ 8 ≤ i.bit.toNat → t.mem = s.mem) ∧
        (i.bit = 56 → ∀ k n, k < 96 → n < 32 →
          lookup (t.core k).land.fillTable n = some (Config.defaultHandler n)))

/-! The host and the peers -/

/-- R3, R216, R219, R228, R234, R236, R237, R245, R246, R248 to R250: what a write of eight bytes, the lowest first,
through the register window changes, and a read gives its bytes in that order. Through a virtual function, only
registers of its own tenant and of a counter bank that its guest holds take the write, and others read 0; a guest whose
bank the hypervisor has taken reads its frozen counters, and no one else clears its PREEMPTED. A stopped hart takes its
front PC, VCP, VSTART and the words of its VIQ entries from the window. Every write completes. The choices and readings
of the model in it: log entries 57, 58, 95, 111. -/
def Obligations.RegisterWindowResults : Prop :=
  ∀ (s : State) (w : Word) (t v : BitVec 6) (c : CoreNo) (h : HartNo) (n : BitVec 2) (b : BitVec 4) (m : BitVec 3),
    let put : WindowUser → WindowReg → State := fun u r => { s with input := { s.input with
      user := u, reg := r
      bytes := (List.range 8).map fun j => BitVec.ofNat 8 (w.toNat / 256 ^ j) } }
    let writes : WindowReg → (State → State) → Prop := fun r f =>
      exec .registerWindowWrite (put .physical r) = .next (f (put .physical r))
    let tenantRegs : List (WindowReg × (Tenant → Tenant)) :=
      [(.wgt t, fun x => { x with wgt := w.setWidth 8 }), (.deficit t, fun x => { x with deficit := w }),
       (.lim t, fun x => { x with lim := w.getLsbD 0 }), (.saveBase t, fun x => { x with saveBase := w }),
       (.tbase t, fun x => { x with tbase := w &&& 0x0000FFFFFFFFFFC0 }),
       (.ptbase t, fun x => { x with ptbase := w &&& 0x000FFFFFFFFFF003 }),
       (.asid t, fun x => { x with asid := w.setWidth 16 })]
    (∀ u r, ∃ z, exec .registerWindowWrite (put u r) = .next z) ∧
    (∀ u r, windowReadBytes u r s = (List.range 8).map fun j => BitVec.ofNat 8 ((readWindow u r s).toNat / 256 ^ j)) ∧
    (∀ e ∈ tenantRegs,
      writes e.1 (fun s => s.modTenant t.toNat e.2) ∧
      (v = t → exec .registerWindowWrite (put (.virtual v) e.1) = .next ((put (.virtual v) e.1).modTenant t.toNat e.2)) ∧
      (v ≠ t → exec .registerWindowWrite (put (.virtual v) e.1) = .next (put (.virtual v) e.1))) ∧
    writes .podid (fun s => s.modHost fun o => { o with podId := w.setWidth 6 }) ∧
    writes (.claim c h) (fun s => s.modHartAt c.toNat h.toNat fun x => { x with run := { x.run with claimed := w.getLsbD 3 } }) ∧
    writes (.breakpoint c n) (fun s => s.modCore c.toNat fun k => { k with dbg := { k.dbg with
      breakpoints := insert k.dbg.breakpoints n.toNat ⟨w.setWidth 48, w.getLsbD 48, (w >>> 52).setWidth 4⟩ } }) ∧
    writes (.bankCtl c b) (fun s => s.setBank c.toNat b.toNat { s.bank c.toNat b.toNat with ctl := w &&& 0xFFFF0001 }) ∧
    writes (.bankStatus c b) (fun s =>
      let k := s.bank c.toNat b.toNat
      let low := k.status &&& (if w.getLsbD 63 then 0x0000FFFF00FF0000 else 0xFFFFFFFFFFFFFFFF)
      s.setBank c.toNat b.toNat { k with status := (low &&& ~~~0x0000FFFF00000000) ||| (w &&& 0x0000FFFF00000000) }) ∧
    (4 ≤ w.toNat → w.toNat ≤ 20 → writes (.sample c) (fun s => s.modCore c.toNat fun k =>
      { k with dbg := { k.dbg with sampleExp := w.toNat, sampled := 0 } })) ∧
    writes (.ringBase c) (fun s => s.modCore c.toNat fun k => { k with dbg := { k.dbg with ringBase := w, ringPos := 0 } }) ∧
    writes (.ringSize c) (fun s => s.modCore c.toNat fun k => { k with dbg := { k.dbg with ringSize := w, ringPos := 0 } }) ∧
    writes (.service c) (fun s => s.modCore c.toNat fun k => { k with power := { k.power with outOfService := false } }) ∧
    (let stops : WindowReg → (Hart → Hart) → Prop := fun r f =>
       ((s.hartAt c.toNat h.toNat).run.stopped = true → writes r (fun s => s.modHartAt c.toNat h.toNat f)) ∧
       ((s.hartAt c.toNat h.toNat).run.stopped = false → writes r (fun s => s.modHartAt c.toNat h.toNat fun x => x))
     let x := s.hartAt c.toNat h.toNat
     let queue : List VEntry → Hart → Hart := fun l x => { x with vec := { x.vec with
       held := l.take x.vec.held.length, viq := l.drop x.vec.held.length } }
     let pc := w.setWidth 48
     stops (.frontPc c h) (fun x => { x with pc := pc &&& 0xFFFFFFFFFFFE, lead := ⟨0, [], []⟩ }) ∧
     (∀ e rest, x.vec.held ++ x.vec.viq = e :: rest →
       ((∀ i j, e.instr ≠ .loop i j) → stops (.vstart c h) (queue ({ e with start := (w.setWidth 13).toNat } :: rest))) ∧
       (∀ i < 2, stops (.viq c h 0 (BitVec.ofNat 3 i)) (queue ({ e with xs := e.xs.set i w } :: rest))) ∧
       (∀ j, decodeTableWord 64 w.toNat = some j → stops (.viq c h 0 2) (queue ({ e with instr := j } :: rest))) ∧
       (decodeTableWord 64 w.toNat = none → stops (.viq c h 0 2) (queue (e :: rest))) ∧
       stops (.viq c h 0 3) (queue ({ e with seed := w } :: rest)) ∧
       stops (.viq c h 0 4) (queue ({ e with ric := w } :: rest)) ∧
       stops (.viq c h 0 5) (queue ({ e with tgrant := w } :: rest)) ∧
       stops (.viq c h 0 6) (queue ({ e with
         ptbase := BitVec.ofNat 64 (w.toNat % 2 ^ 40 * 4096 + w.toNat / 2 ^ 40 % 4)
         fpctl := BitVec.ofNat 64 (w.toNat / 2 ^ 42 % 2 ^ 9), vl := w.toNat / 2 ^ 51 } :: rest)) ∧
       stops (.viq c h 0 7) (queue ({ e with
         vtype := BitVec.ofNat 64 (w.toNat % 2 ^ 12), mspace := w.toNat / 2 ^ 12 % 4, sup := w.getLsbD 14
         asid := BitVec.ofNat 64 (w.toNat / 2 ^ 16 % 2 ^ 16) } :: rest)) ∧
       (e.pc = pc → stops (.vcp c h) id) ∧
       (∀ e2 later, x.vec.held = [] → rest = e2 :: later → x.ms.stq = [] → (∀ i j, e.instr ≠ .loop i j) → e.pc ≠ pc →
         e2.pc = pc → stops (.vcp c h) (fun x => { x with vec := { x.vec with viq := rest } }))) ∧
     ((∀ e ∈ x.vec.held ++ x.vec.viq, e.pc ≠ pc) → x.pc ≠ pc → stops (.vcp c h) id)) ∧
    (let k := lookupD (s.core c.toNat).dbg.counters n.toNat ⟨false, none, false, [], []⟩
     let x := lookupD k.counters m.toNat ⟨0, false, 0, false⟩
     let bank : CounterBank → State → State := fun k s => s.modCore c.toNat fun q =>
       { q with dbg := { q.dbg with counters := insert q.dbg.counters n.toNat k } }
     let counter : Counter → State → State := fun x => bank { k with counters := insert k.counters m.toNat x }
     let lacks := Config.lacksEvent (w.setWidth 63)
     let selected : Counter := ⟨w.setWidth 63, w.getLsbD 63, if lacks then 0 else x.count, lacks⟩
     let event : WindowReg := .counterEvent c n m
     writes event (counter selected) ∧
     (k.guest = some v → k.hyper = false →
       exec .registerWindowWrite (put (.virtual v) event) = .next (counter selected (put (.virtual v) event))) ∧
     (k.guest ≠ some v ∨ k.hyper = true → exec .registerWindowWrite (put (.virtual v) event) = .next (put (.virtual v) event)) ∧
     (x.absent = false → writes (.counterValue c n m) (counter { x with count := w.setWidth 48 })) ∧
     writes (.counterSession c n) (bank { k with
       guest := if w.getLsbD 63 then some (w.setWidth 6) else none
       preempted := w.getLsbD 62 || (w.getLsbD 63 && k.preempted && k.guest == some (w.setWidth 6)) }) ∧
     (k.guest = some v → exec .registerWindowWrite (put (.virtual v) (.counterStatus c n)) =
         .next (bank { k with preempted := false } (put (.virtual v) (.counterStatus c n)))) ∧
     exec .registerWindowWrite (put .physical (.counterStatus c n)) = .next (put .physical (.counterStatus c n)) ∧
     (k.guest ≠ some v →
       exec .registerWindowWrite (put (.virtual v) (.counterStatus c n)) = .next (put (.virtual v) (.counterStatus c n)) ∧
       readWindow (.virtual v) (.reg event) s = 0 ∧ readWindow (.virtual v) (.counter c n m) s = 0) ∧
     let y := lookupD (if k.hyper then k.frozen else k.counters) m.toNat ⟨0, false, 0, false⟩
     (k.guest = some v →
       readWindow (.virtual v) (.reg event) s = BitVec.ofNat 64 (y.event.toNat + if y.sampling then 2 ^ 63 else 0) ∧
       readWindow (.virtual v) (.counter c n m) s = BitVec.ofNat 64 (y.count.toNat + if y.absent then 2 ^ 63 else 0))) ∧
    (∀ r ∈ [WindowReg.podid, .claim c h, .breakpoint c n, .bankStatus c b, .bankCtl c b, .ringBase c, .ringSize c, .sample c,
        .service c, .frontPc c h, .vcp c h, .vstart c h, .viq c h 0 m, .counterValue c n m, .counterSession c n],
      exec .registerWindowWrite (put (.virtual v) r) = .next (put (.virtual v) r) ∧ readWindow (.virtual v) (.reg r) s = 0) ∧
    ∀ e ∈ ([(.wgt t, 0xFF), (.deficit t, 0xFFFFFFFFFFFFFFFF), (.lim t, 1), (.saveBase t, 0xFFFFFFFFFFFFFFFF),
        (.tbase t, 0x0000FFFFFFFFFFC0), (.ptbase t, 0x000FFFFFFFFFF003), (.asid t, 0xFFFF)] : List (WindowReg × Word)),
      (∃ u, exec .registerWindowWrite (put .physical e.1) = .next u ∧ readWindow .physical (.reg e.1) u = w &&& e.2) ∧
      readWindow (.virtual v) (.reg e.1) s = if v = t then readWindow .physical (.reg e.1) s else 0

/-- R143, R159, R235, R242, R244: reads and writes of near memory by the host and by a peer; an access of the host that
meets near memory that is not ready answers with poison, and such memory keeps nothing of a write; beyond 6 GiB there
is no address; and the answers of SPDM, which is silent while ATT is 0. The choices and readings of the model in it:
log entries 50, 88, 110. -/
def Obligations.HostAccessResults : Prop :=
  ∀ (s : State),
    let i := s.input
    let p := i.pa.toNat
    let open_ : Nat → Bool := fun j => s.host.ready.getLsbD (4 + (p + j) / 0x60000000)
    let ready : Nat → Prop := fun n => ∀ j, j < n → open_ j = true
    let gives : Instr → Answer → Prop := fun r a => exec r s = .next (s.modHost fun o => { o with answers := o.answers ++ [a] })
    let bytes : Nat → List Byte := fun n => (List.range n).map fun j => readPlace s.mem (p + j)
    let fits : Nat → Prop := fun n => p + n ≤ 0x180000000
    let stores : Instr → List Byte → Prop := fun r l => s.Sound → ∃ t, exec r s = .next t ∧ t.host = s.host ∧
      (∀ j, j < l.length → readPlace t.mem (p + j) = l.getD j 0) ∧
      ∀ q, q < p ∨ p + l.length ≤ q → readPlace t.mem q = readPlace s.mem q
    (fits i.len.toNat →
      (ready i.len.toNat → poisoned p i.len.toNat s = false → gives .hostNmRead (.bytes (bytes i.len.toNat) false)) ∧
      (¬ ready i.len.toNat ∨ poisoned p i.len.toNat s = true → gives .hostNmRead (.bytes [] true))) ∧
    (¬ fits i.len.toNat → exec .hostNmRead s = .fault .noSuchAddress) ∧
    (fits i.bytes.length → (ready i.bytes.length → stores .hostNmWrite i.bytes) ∧
      ((∀ j, j < i.bytes.length → open_ j = false) → exec .hostNmWrite s = .next s) ∧
      (s.Sound → ∃ t, exec .hostNmWrite s = .next t ∧ t.host = s.host ∧
        (∀ j, j < i.bytes.length → readPlace t.mem (p + j) = if open_ j then i.bytes.getD j 0 else readPlace s.mem (p + j)) ∧
        ∀ q, q < p ∨ p + i.bytes.length ≤ q → readPlace t.mem q = readPlace s.mem q)) ∧
    (∀ n, i.access = .read n → fits n.toNat →
      (poisoned p n.toNat s = false → gives .peerAccessToNearMemory (.bytes (bytes n.toNat) false)) ∧
      (poisoned p n.toNat s = true → gives .peerAccessToNearMemory (.bytes [] true))) ∧
    (∀ l, i.access = .write l → fits l.length → stores .peerAccessToNearMemory l) ∧
    (∀ op w e, i.access = .amo op w e → fits 8 → poisoned p 8 s = false → s.Sound →
      let old := BitVec.ofNat 64 (readNat s.mem p 8)
      let new : Word := match op.toNat with
        | 0 => old + w
        | 1 => old &&& w
        | 2 => old ||| w
        | 3 => old ^^^ w
        | 4 => if old.toInt < w.toInt then old else w
        | 5 => if old.toInt < w.toInt then w else old
        | 6 => if old.toNat < w.toNat then old else w
        | 7 => if old.toNat < w.toNat then w else old
        | 8 => w
        | _ => if old = e then w else old
      ∃ t, exec .peerAccessToNearMemory s = .next t ∧ t.host = { s.host with answers := s.host.answers ++ [.amo old] } ∧
        readNat t.mem p 8 = new.toNat ∧ ∀ q, q < p ∨ p + 8 ≤ q → readPlace t.mem q = readPlace s.mem q) ∧
    (s.host.ready.getLsbD 57 = true →
      gives .getVersion (.spdmVersion 1 3) ∧ gives .getCapabilities .spdmCapabilities ∧ gives .negotiateAlgorithms (.spdmAlgorithms .rsassaPss 4096 .sha512) ∧
      gives .getDigests (.spdmDigests Config.chainDigest) ∧
      gives .getCertificate (.spdmCertificate i.off.toNat i.len.toNat
        ((List.range i.len.toNat).map fun j => Config.certificate (i.off.toNat + j))) ∧
      gives .challenge (.spdmChallenge i.nonce
        (Config.signature ((List.range 32).map fun j => BitVec.ofNat 8 (i.nonce.toNat / 256 ^ j)))) ∧
      (i.code ≠ 0xF0 → gives .getMeasurements
        (.spdmMeasurements i.code (Config.measurement i.code) (Config.signature (Config.measurement i.code)))) ∧
      (i.code = 0xF0 →
        let table := (List.range 96).flatMap fun c => (List.range 64).flatMap fun n => (List.range 8).map fun j =>
          BitVec.ofNat 8 ((lookupD (s.core c).land.fillTable n 0).toNat / 256 ^ j)
        let all := Config.measurement 0xF0 ++ sha512 table ++ [0, 0, 1]
        gives .getMeasurements (.spdmMeasurements 0xF0 all (Config.signature all))) ∧
      gives .spdmUnsupportedRequest (.spdmUnsupported i.code)) ∧
    (s.host.ready.getLsbD 57 = false → ∀ r ∈ [Instr.getVersion, .getCapabilities, .negotiateAlgorithms, .getDigests, .getCertificate,
      .challenge, .getMeasurements, .spdmUnsupportedRequest], gives r .none)

/-- R245 to R250, R267: DBGCTL stops a claimed hart at an element-group boundary and lets a stopped one run; the claims
of a counter bank, where the hypervisor wins and a guest's counters freeze; a counter that overflows with sampling
records the next PC and holds the front for a cycle; and one cycle of a core counts in the table of PCs and reasons and
in CYCLE of its running harts, and lets its counters advance. A hart that is being pre-empted counts with reason 5, one
that could have issued and was not chosen with reason 1, and one whose code has yet to be fetched with reason 12. The
choices and readings of the model in it: log entries 57, 59, 60, 62, 120. -/
def Obligations.ObservationResults : Prop :=
  ∀ (s : State) (v : BitVec 6),
    let i := s.input
    let c := i.core.toNat
    let h := i.hart.toNat
    let b := i.bank.toNat % 4
    let bank : State → CounterBank := fun t => lookupD (t.core c).dbg.counters b ⟨false, none, false, [], []⟩
    let k := bank s
    let becomes : Instr → WindowUser → CounterBank → Prop := fun r u k' => i.user = u →
      ∃ t, exec r s = .next t ∧ bank t = k' ∧ t.mem = s.mem ∧
        (t.core c).harts = (s.core c).harts ∧ ∀ d, d ≠ c → t.core d = s.core d
    ((s.hartAt c h).run.claimed = true →
      (∀ v rest, (s.hartAt c h).vec.viq = v :: rest → (∀ a b, v.instr ≠ .loop a b) ∧ v.start % 8 = 0) →
      exec .dbgctlStop s = .next (s.modHartAt c h fun x =>
      { x with run := { x.run with stopped := true, wait := none, inval := none, deq := false, why := 14 } })) ∧
    ((s.hartAt c h).run.claimed = false → exec .dbgctlStop s = .next s) ∧
    (∃ t, exec .dbgctlRun s = .next t ∧ t.mem = s.mem ∧
      t.hartAt c h = { s.hartAt c h with run := { (s.hartAt c h).run with stopped := false, halted := false, why := 0 } } ∧
      ∀ d n, d ≠ c ∨ n ≠ h → t.hartAt d n = s.hartAt d n) ∧
    (k.hyper = false → becomes .counterBankClaim .physical
      { k with hyper := true, preempted := k.preempted || k.guest.isSome, frozen := k.counters, counters := [] }) ∧
    (k.guest = none → becomes .counterBankClaim (.virtual v) { k with guest := some v, preempted := k.hyper }) ∧
    (k.guest ≠ none → becomes .counterBankClaim (.virtual v) k) ∧
    (k.hyper = true → becomes .counterBankRelease .physical { k with hyper := false, counters := k.frozen, frozen := [] }) ∧
    (k.guest = some v → becomes .counterBankRelease (.virtual v) { k with guest := none, preempted := false }) ∧
    (∀ x, lookup k.counters i.ctr.toNat = some x → x.absent = false →
      (x.sampling = false → becomes .counterOverflow i.user { k with counters := insert k.counters i.ctr.toNat { x with count := 0 } }) ∧
      (x.sampling = true → s.Sound →
        let d := (s.core c).dbg
        let base := d.ringBase.toNat + 32 * d.ringPos
        let y := s.hartAt c h
        32 * d.ringPos + 32 ≤ d.ringSize.toNat → base + 32 ≤ 0x180000000 →
        ∃ t, exec .counterOverflow s = .next t ∧
          bank t = { k with counters := insert k.counters i.ctr.toNat { x with count := 0 } } ∧
          (t.core c).dbg.hold = true ∧ (t.core c).dbg.ringPos = d.ringPos + 1 ∧
          readNat t.mem base 8 = y.pc.toNat + 3 * 2 ^ 56 ∧ readNat t.mem (base + 8) 8 = y.vcp.1.toNat ∧
          readNat t.mem (base + 16) 8 = 8 * b + i.ctr.toNat ∧ readNat t.mem (base + 24) 8 = y.run.cycle.toNat ∧
          ∀ q, q < base ∨ base + 32 ≤ q → readPlace t.mem q = readPlace s.mem q)) ∧
    ((∀ n, n < 4 → n ≠ h → (s.hartAt c n).run.running = false) → h < 4 → (s.hartAt c h).run.running = true →
      let x := s.hartAt c h
      let near := (x.lead.half x.pc).isSome || match translate ⟨c, x.ms.ptbase, x.ms.asid, x.tr.sup⟩ .fetch (x.pc.zeroExtend 64) 0 s with
        | .ok (p, _) _ => (lookup (s.core c).icache (p / 64 * 64)).isSome
        | _ => false
      let reason : BitVec 4 := match x.blocked with
        | some n => BitVec.ofNat 4 n
        | none => if victimised x s then 5 else if x.run.turned || x.run.why != 0 then x.waitReason else if near then 1 else 12
      let slot := ((x.pc.toNat / 2) % 4096 ^^^ reason.toNat * 16) % 4096
      let old := lookup (s.core c).dbg.profile slot
      ∃ t, exec .pcReasonCycleCount s = .next t ∧ (t.core c).cycles = (s.core c).cycles + 1 ∧ (t.core c).dbg.hold = false ∧
        (t.hartAt c h).run.cycle = x.run.cycle + 1 ∧ (t.hartAt c h).run.turned = false ∧
        (t.hartAt c h).x = x.x ∧ (t.hartAt c h).pc = x.pc ∧
        ((s.core c).dbg.counters.Pairwise (fun a b => a.1 ≠ b.1) → k.counters.Pairwise (fun a b => a.1 ≠ b.1) →
          ∀ n e, lookup k.counters n = some e →
            ∃ e', lookup (bank t).counters n = some e' ∧ e.count.toNat ≤ e'.count.toNat ∧ e'.event = e.event ∧
              (e.absent = true → e' = e)) ∧
        (∀ e, old = some e → e.pc = x.pc → e.reason = reason →
          lookup (t.core c).dbg.profile slot = some { e with count := e.count + 1 } ∧ t.mem = s.mem) ∧
        (old = none → lookup (t.core c).dbg.profile slot = some ⟨x.pc, reason, 1, BitVec.ofNat 6 (wbits x.id.tenant 0 6),
          BitVec.ofNat 2 h⟩ ∧ t.mem = s.mem))
end

