-- ==== Sys2Proof/Laws/Dispatch.lean ====
section
/-! SUPPORT. The arm of each instruction, as a rewrite. -/

namespace Sys2Proof.Machine

@[simp] theorem exec_add {d a b} {s} : exec (.add d a b) s = execAdd d a b s := rfl
@[simp] theorem exec_addC {d b} {s} : exec (.addC d b) s = execAddC d b s := rfl
@[simp] theorem exec_sub {d a b} {s} : exec (.sub d a b) s = execSub d a b s := rfl
@[simp] theorem exec_and {d a b} {s} : exec (.and d a b) s = execAnd d a b s := rfl
@[simp] theorem exec_or {d a b} {s} : exec (.or d a b) s = execOr d a b s := rfl
@[simp] theorem exec_xor {d a b} {s} : exec (.xor d a b) s = execXor d a b s := rfl
@[simp] theorem exec_shl {d a b} {s} : exec (.shl d a b) s = execShl d a b s := rfl
@[simp] theorem exec_shr {d a b} {s} : exec (.shr d a b) s = execShr d a b s := rfl
@[simp] theorem exec_shra {d a b} {s} : exec (.shra d a b) s = execShra d a b s := rfl
@[simp] theorem exec_min {d a b} {s} : exec (.min d a b) s = execMin d a b s := rfl
@[simp] theorem exec_max {d a b} {s} : exec (.max d a b) s = execMax d a b s := rfl
@[simp] theorem exec_minn {d a b} {s} : exec (.minn d a b) s = execMinn d a b s := rfl
@[simp] theorem exec_maxn {d a b} {s} : exec (.maxn d a b) s = execMaxn d a b s := rfl
@[simp] theorem exec_slt {d a b} {s} : exec (.slt d a b) s = execSlt d a b s := rfl
@[simp] theorem exec_sltn {d a b} {s} : exec (.sltn d a b) s = execSltn d a b s := rfl
@[simp] theorem exec_clz {d a} {s} : exec (.clz d a) s = execClz d a s := rfl
@[simp] theorem exec_popc {d a} {s} : exec (.popc d a) s = execPopc d a s := rfl
@[simp] theorem exec_mv {d a} {s} : exec (.mv d a) s = execMv d a s := rfl
@[simp] theorem exec_mvC {d a} {s} : exec (.mvC d a) s = execMvC d a s := rfl
@[simp] theorem exec_addi {d a imm} {s} : exec (.addi d a imm) s = execAddi d a imm s := rfl
@[simp] theorem exec_addiC {j d imm} {s} : exec (.addiC j d imm) s = execAddiC j d imm s := rfl
@[simp] theorem exec_andi {d a imm} {s} : exec (.andi d a imm) s = execAndi d a imm s := rfl
@[simp] theorem exec_ori {d a imm} {s} : exec (.ori d a imm) s = execOri d a imm s := rfl
@[simp] theorem exec_xori {d a imm} {s} : exec (.xori d a imm) s = execXori d a imm s := rfl
@[simp] theorem exec_shli {d a n} {s} : exec (.shli d a n) s = execShli d a n s := rfl
@[simp] theorem exec_shri {d a n} {s} : exec (.shri d a n) s = execShri d a n s := rfl
@[simp] theorem exec_shrai {d a n} {s} : exec (.shrai d a n) s = execShrai d a n s := rfl
@[simp] theorem exec_lih {d imm} {s} : exec (.lih d imm) s = execLih d imm s := rfl
@[simp] theorem exec_mul {d a b} {s} : exec (.mul d a b) s = execMul d a b s := rfl
@[simp] theorem exec_mulh {d a b} {s} : exec (.mulh d a b) s = execMulh d a b s := rfl
@[simp] theorem exec_mulhn {d a b} {s} : exec (.mulhn d a b) s = execMulhn d a b s := rfl
@[simp] theorem exec_div {d a b} {s} : exec (.div d a b) s = execDiv d a b s := rfl
@[simp] theorem exec_divn {d a b} {s} : exec (.divn d a b) s = execDivn d a b s := rfl
@[simp] theorem exec_rem {d a b} {s} : exec (.rem d a b) s = execRem d a b s := rfl
@[simp] theorem exec_remn {d a b} {s} : exec (.remn d a b) s = execRemn d a b s := rfl
@[simp] theorem exec_faddFp64 {d a b} {s} : exec (.faddFp64 d a b) s = execFaddFp64 d a b s := rfl
@[simp] theorem exec_fsubFp64 {d a b} {s} : exec (.fsubFp64 d a b) s = execFsubFp64 d a b s := rfl
@[simp] theorem exec_fmulFp64 {d a b} {s} : exec (.fmulFp64 d a b) s = execFmulFp64 d a b s := rfl
@[simp] theorem exec_fdivFp64 {d a b} {s} : exec (.fdivFp64 d a b) s = execFdivFp64 d a b s := rfl
@[simp] theorem exec_fmaFp64 {d a b} {s} : exec (.fmaFp64 d a b) s = execFmaFp64 d a b s := rfl
@[simp] theorem exec_fminFp64 {d a b} {s} : exec (.fminFp64 d a b) s = execFminFp64 d a b s := rfl
@[simp] theorem exec_fmaxFp64 {d a b} {s} : exec (.fmaxFp64 d a b) s = execFmaxFp64 d a b s := rfl
@[simp] theorem exec_fsqrtFp64 {d a} {s} : exec (.fsqrtFp64 d a) s = execFsqrtFp64 d a s := rfl
@[simp] theorem exec_fcvtFp64 {d a c} {s} : exec (.fcvtFp64 d a c) s = execFcvtFp64 d a c s := rfl
@[simp] theorem exec_faddFp32 {d a b} {s} : exec (.faddFp32 d a b) s = execFaddFp32 d a b s := rfl
@[simp] theorem exec_fsubFp32 {d a b} {s} : exec (.fsubFp32 d a b) s = execFsubFp32 d a b s := rfl
@[simp] theorem exec_fmulFp32 {d a b} {s} : exec (.fmulFp32 d a b) s = execFmulFp32 d a b s := rfl
@[simp] theorem exec_fdivFp32 {d a b} {s} : exec (.fdivFp32 d a b) s = execFdivFp32 d a b s := rfl
@[simp] theorem exec_fmaFp32 {d a b} {s} : exec (.fmaFp32 d a b) s = execFmaFp32 d a b s := rfl
@[simp] theorem exec_fminFp32 {d a b} {s} : exec (.fminFp32 d a b) s = execFminFp32 d a b s := rfl
@[simp] theorem exec_fmaxFp32 {d a b} {s} : exec (.fmaxFp32 d a b) s = execFmaxFp32 d a b s := rfl
@[simp] theorem exec_fsqrtFp32 {d a} {s} : exec (.fsqrtFp32 d a) s = execFsqrtFp32 d a s := rfl
@[simp] theorem exec_fcvtFp32 {d a c} {s} : exec (.fcvtFp32 d a c) s = execFcvtFp32 d a c s := rfl
@[simp] theorem exec_cmp {k a b c} {s} : exec (.cmp k a b c) s = execCmp k a b c s := rfl
@[simp] theorem exec_fcmpFp64 {k a b c} {s} : exec (.fcmpFp64 k a b c) s = execFcmpFp64 k a b c s := rfl
@[simp] theorem exec_fcmpFp32 {k a b c} {s} : exec (.fcmpFp32 k a b c) s = execFcmpFp32 k a b c s := rfl
@[simp] theorem exec_kand {k a b} {s} : exec (.kand k a b) s = execKand k a b s := rfl
@[simp] theorem exec_kor {k a b} {s} : exec (.kor k a b) s = execKor k a b s := rfl
@[simp] theorem exec_kxor {k a b} {s} : exec (.kxor k a b) s = execKxor k a b s := rfl
@[simp] theorem exec_knot {k a} {s} : exec (.knot k a) s = execKnot k a s := rfl
@[simp] theorem exec_kfromx {k a} {s} : exec (.kfromx k a) s = execKfromx k a s := rfl
@[simp] theorem exec_ktox {d k} {s} : exec (.ktox d k) s = execKtox d k s := rfl
@[simp] theorem exec_prep {bt o} {s} : exec (.prep bt o) s = execPrep bt o s := rfl
@[simp] theorem exec_prepC {h bt o} {s} : exec (.prepC h bt o) s = execPrepC h bt o s := rfl
@[simp] theorem exec_prepr {bt a} {s} : exec (.prepr bt a) s = execPrepr bt a s := rfl
@[simp] theorem exec_mvb {bt d} {s} : exec (.mvb bt d) s = execMvb bt d s := rfl
@[simp] theorem exec_jmp {bt} {s} : exec (.jmp bt) s = execJmp bt s := rfl
@[simp] theorem exec_jmpC {bt} {s} : exec (.jmpC bt) s = execJmpC bt s := rfl
@[simp] theorem exec_br {bt k} {s} : exec (.br bt k) s = execBr bt k s := rfl
@[simp] theorem exec_brC {bt k} {s} : exec (.brC bt k) s = execBrC bt k s := rfl
@[simp] theorem exec_brn {bt k} {s} : exec (.brn bt k) s = execBrn bt k s := rfl
@[simp] theorem exec_brnC {bt k} {s} : exec (.brnC bt k) s = execBrnC bt k s := rfl
@[simp] theorem exec_call {bt} {s} : exec (.call bt) s = execCall bt s := rfl
@[simp] theorem exec_invb {bt} {s} : exec (.invb bt) s = execInvb bt s := rfl
@[simp] theorem exec_nop {s} : exec .nop s = execNop s := rfl
@[simp] theorem exec_nopC {s} : exec .nopC s = execNopC s := rfl
@[simp] theorem exec_trap {n} {s} : exec (.trap n) s = execTrap n s := rfl
@[simp] theorem exec_eret {s} : exec .eret s = execEret s := rfl
@[simp] theorem exec_halt {s} : exec .halt s = execHalt s := rfl
@[simp] theorem exec_wait {a b} {s} : exec (.wait a b) s = execWait a b s := rfl
@[simp] theorem exec_isync {s} : exec .isync s = execIsync s := rfl
@[simp] theorem exec_fence {kind scope} {s} : exec (.fence kind scope) s = execFence kind scope s := rfl
@[simp] theorem exec_bkpt {s} : exec .bkpt s = execBkpt s := rfl
@[simp] theorem exec_ld {d a z imm} {s} : exec (.ld d a z imm) s = execLd d a z imm s := rfl
@[simp] theorem exec_st {xs a z imm} {s} : exec (.st xs a z imm) s = execSt xs a z imm s := rfl
@[simp] theorem exec_ldl {d a z imm} {s} : exec (.ldl d a z imm) s = execLdl d a z imm s := rfl
@[simp] theorem exec_ldlC {d imm} {s} : exec (.ldlC d imm) s = execLdlC d imm s := rfl
@[simp] theorem exec_stl {xs a z imm} {s} : exec (.stl xs a z imm) s = execStl xs a z imm s := rfl
@[simp] theorem exec_stlC {xs imm} {s} : exec (.stlC xs imm) s = execStlC xs imm s := rfl
@[simp] theorem exec_amoAdd {d a b o} {s} : exec (.amoAdd d a b o) s = execAmoAdd d a b o s := rfl
@[simp] theorem exec_amoAnd {d a b o} {s} : exec (.amoAnd d a b o) s = execAmoAnd d a b o s := rfl
@[simp] theorem exec_amoOr {d a b o} {s} : exec (.amoOr d a b o) s = execAmoOr d a b o s := rfl
@[simp] theorem exec_amoXor {d a b o} {s} : exec (.amoXor d a b o) s = execAmoXor d a b o s := rfl
@[simp] theorem exec_amoMin {d a b o} {s} : exec (.amoMin d a b o) s = execAmoMin d a b o s := rfl
@[simp] theorem exec_amoMax {d a b o} {s} : exec (.amoMax d a b o) s = execAmoMax d a b o s := rfl
@[simp] theorem exec_amoMinn {d a b o} {s} : exec (.amoMinn d a b o) s = execAmoMinn d a b o s := rfl
@[simp] theorem exec_amoMaxn {d a b o} {s} : exec (.amoMaxn d a b o) s = execAmoMaxn d a b o s := rfl
@[simp] theorem exec_amoSwap {d a b o} {s} : exec (.amoSwap d a b o) s = execAmoSwap d a b o s := rfl
@[simp] theorem exec_amoCas {d a b o} {s} : exec (.amoCas d a b o) s = execAmoCas d a b o s := rfl
@[simp] theorem exec_crd {d c} {s} : exec (.crd d c) s = execCrd d c s := rfl
@[simp] theorem exec_crdSync {d c} {s} : exec (.crdSync d c) s = execCrdSync d c s := rfl
@[simp] theorem exec_cwr {xs c} {s} : exec (.cwr xs c) s = execCwr xs c s := rfl
@[simp] theorem exec_cset {xs c} {s} : exec (.cset xs c) s = execCset xs c s := rfl
@[simp] theorem exec_cclr {xs c} {s} : exec (.cclr xs c) s = execCclr xs c s := rfl
@[simp] theorem exec_tlbinvVa {s} : exec .tlbinvVa s = execTlbinvVa s := rfl
@[simp] theorem exec_tlbinvAsid {s} : exec .tlbinvAsid s = execTlbinvAsid s := rfl
@[simp] theorem exec_tlbinvAllNonglobal {s} : exec .tlbinvAllNonglobal s = execTlbinvAllNonglobal s := rfl
@[simp] theorem exec_tlbinvAll {s} : exec .tlbinvAll s = execTlbinvAll s := rfl
@[simp] theorem exec_rstatStopClear {s} : exec .rstatStopClear s = execRstatStopClear s := rfl
@[simp] theorem exec_mcStatusClear {s} : exec .mcStatusClear s = execMcStatusClear s := rfl
@[simp] theorem exec_notechWrite {s} : exec .notechWrite s = execNotechWrite s := rfl
@[simp] theorem exec_enq {a u} {s} : exec (.enq a u) s = execEnq a u s := rfl
@[simp] theorem exec_deq {d u} {s} : exec (.deq d u) s = execDeq d u s := rfl
@[simp] theorem exec_deqt {d u} {s} : exec (.deqt d u) s = execDeqt d u s := rfl
@[simp] theorem exec_launch {a} {s} : exec (.launch a) s = execLaunch a s := rfl
@[simp] theorem exec_wqry {n} {s} : exec (.wqry n) s = execWqry n s := rfl
@[simp] theorem exec_gbar {scope} {s} : exec (.gbar scope) s = execGbar scope s := rfl
@[simp] theorem exec_exit {s} : exec .exit s = execExit s := rfl
@[simp] theorem exec_sdef {a n} {s} : exec (.sdef a n) s = execSdef a n s := rfl
@[simp] theorem exec_sbind {v n} {s} : exec (.sbind v n) s = execSbind v n s := rfl
@[simp] theorem exec_sunb {n} {s} : exec (.sunb n) s = execSunb n s := rfl
@[simp] theorem exec_chdef {a n} {s} : exec (.chdef a n) s = execChdef a n s := rfl
@[simp] theorem exec_chput {a n} {s} : exec (.chput a n) s = execChput a n s := rfl
@[simp] theorem exec_chgetGet {d a n} {s} : exec (.chgetGet d a n) s = execChgetGet d a n s := rfl
@[simp] theorem exec_chgetPeek {s} : exec .chgetPeek s = execChgetPeek s := rfl
@[simp] theorem exec_chgetTake {s} : exec .chgetTake s = execChgetTake s := rfl
@[simp] theorem exec_chgetTail {s} : exec .chgetTail s = execChgetTail s := rfl
@[simp] theorem exec_rdef {a} {s} : exec (.rdef a) s = execRdef a s := rfl
@[simp] theorem exec_rrun {a} {s} : exec (.rrun a) s = execRrun a s := rfl
@[simp] theorem exec_rfld {v a} {s} : exec (.rfld v a) s = execRfld v a s := rfl
@[simp] theorem exec_rput {v a c} {s} : exec (.rput v a c) s = execRput v a c s := rfl
@[simp] theorem exec_rspawn {v} {s} : exec (.rspawn v) s = execRspawn v s := rfl
@[simp] theorem exec_rres {v a} {s} : exec (.rres v a) s = execRres v a s := rfl
@[simp] theorem exec_rkid {v a c} {s} : exec (.rkid v a c) s = execRkid v a c s := rfl
@[simp] theorem exec_rdone {s} : exec .rdone s = execRdone s := rfl
@[simp] theorem exec_lnget {d} {s} : exec (.lnget d) s = execLnget d s := rfl
@[simp] theorem exec_fill {xs a} {s} : exec (.fill xs a) s = execFill xs a s := rfl
@[simp] theorem exec_ftload {xs a} {s} : exec (.ftload xs a) s = execFtload xs a s := rfl
@[simp] theorem exec_pres {m v} {s} : exec (.pres m v) s = execPres m v s := rfl
@[simp] theorem exec_vsetl {d a t2 sc ty} {s} : exec (.vsetl d a t2 sc ty) s = execVsetl d a t2 sc ty s := rfl
@[simp] theorem exec_vgrant {d a} {s} : exec (.vgrant d a) s = execVgrant d a s := rfl
@[simp] theorem exec_vfork {d bt} {s} : exec (.vfork d bt) s = execVfork d bt s := rfl
@[simp] theorem exec_vjoin {a} {s} : exec (.vjoin a) s = execVjoin a s := rfl
@[simp] theorem exec_loop {a n} {s} : exec (.loop a n) s = execLoop a n s := rfl
@[simp] theorem exec_vexit {m c} {s} : exec (.vexit m c) s = execVexit m c s := rfl
@[simp] theorem exec_vrel {v} {s} : exec (.vrel v) s = execVrel v s := rfl
@[simp] theorem exec_settle {v w n} {s} : exec (.settle v w n) s = execSettle v w n s := rfl
@[simp] theorem exec_vtest {k m c} {s} : exec (.vtest k m c) s = execVtest k m c s := rfl
@[simp] theorem exec_vadd {d a b m} {s} : exec (.vadd d a b m) s = execVadd d a b m s := rfl
@[simp] theorem exec_vsub {d a b m} {s} : exec (.vsub d a b m) s = execVsub d a b m s := rfl
@[simp] theorem exec_vrsub {d a b m} {s} : exec (.vrsub d a b m) s = execVrsub d a b m s := rfl
@[simp] theorem exec_vmul {d a b m} {s} : exec (.vmul d a b m) s = execVmul d a b m s := rfl
@[simp] theorem exec_vmulh {d a b m} {s} : exec (.vmulh d a b m) s = execVmulh d a b m s := rfl
@[simp] theorem exec_vmulhn {d a b m} {s} : exec (.vmulhn d a b m) s = execVmulhn d a b m s := rfl
@[simp] theorem exec_vand {d a b m} {s} : exec (.vand d a b m) s = execVand d a b m s := rfl
@[simp] theorem exec_vor {d a b m} {s} : exec (.vor d a b m) s = execVor d a b m s := rfl
@[simp] theorem exec_vxor {d a b m} {s} : exec (.vxor d a b m) s = execVxor d a b m s := rfl
@[simp] theorem exec_vshl {d a b m} {s} : exec (.vshl d a b m) s = execVshl d a b m s := rfl
@[simp] theorem exec_vshr {d a b m} {s} : exec (.vshr d a b m) s = execVshr d a b m s := rfl
@[simp] theorem exec_vshra {d a b m} {s} : exec (.vshra d a b m) s = execVshra d a b m s := rfl
@[simp] theorem exec_vmin {d a b m} {s} : exec (.vmin d a b m) s = execVmin d a b m s := rfl
@[simp] theorem exec_vmax {d a b m} {s} : exec (.vmax d a b m) s = execVmax d a b m s := rfl
@[simp] theorem exec_vminn {d a b m} {s} : exec (.vminn d a b m) s = execVminn d a b m s := rfl
@[simp] theorem exec_vmaxn {d a b m} {s} : exec (.vmaxn d a b m) s = execVmaxn d a b m s := rfl
@[simp] theorem exec_vmerge {d a b m} {s} : exec (.vmerge d a b m) s = execVmerge d a b m s := rfl
@[simp] theorem exec_vadc {d a b m} {s} : exec (.vadc d a b m) s = execVadc d a b m s := rfl
@[simp] theorem exec_vsbc {d a b m} {s} : exec (.vsbc d a b m) s = execVsbc d a b m s := rfl
@[simp] theorem exec_vwmul {d a b m} {s} : exec (.vwmul d a b m) s = execVwmul d a b m s := rfl
@[simp] theorem exec_vaddX {d a b m} {s} : exec (.vaddX d a b m) s = execVaddX d a b m s := rfl
@[simp] theorem exec_vsubX {d a b m} {s} : exec (.vsubX d a b m) s = execVsubX d a b m s := rfl
@[simp] theorem exec_vrsubX {d a b m} {s} : exec (.vrsubX d a b m) s = execVrsubX d a b m s := rfl
@[simp] theorem exec_vmulX {d a b m} {s} : exec (.vmulX d a b m) s = execVmulX d a b m s := rfl
@[simp] theorem exec_vmulhX {d a b m} {s} : exec (.vmulhX d a b m) s = execVmulhX d a b m s := rfl
@[simp] theorem exec_vmulhnX {d a b m} {s} : exec (.vmulhnX d a b m) s = execVmulhnX d a b m s := rfl
@[simp] theorem exec_vandX {d a b m} {s} : exec (.vandX d a b m) s = execVandX d a b m s := rfl
@[simp] theorem exec_vorX {d a b m} {s} : exec (.vorX d a b m) s = execVorX d a b m s := rfl
@[simp] theorem exec_vxorX {d a b m} {s} : exec (.vxorX d a b m) s = execVxorX d a b m s := rfl
@[simp] theorem exec_vshlX {d a b m} {s} : exec (.vshlX d a b m) s = execVshlX d a b m s := rfl
@[simp] theorem exec_vshrX {d a b m} {s} : exec (.vshrX d a b m) s = execVshrX d a b m s := rfl
@[simp] theorem exec_vshraX {d a b m} {s} : exec (.vshraX d a b m) s = execVshraX d a b m s := rfl
@[simp] theorem exec_vminX {d a b m} {s} : exec (.vminX d a b m) s = execVminX d a b m s := rfl
@[simp] theorem exec_vmaxX {d a b m} {s} : exec (.vmaxX d a b m) s = execVmaxX d a b m s := rfl
@[simp] theorem exec_vminnX {d a b m} {s} : exec (.vminnX d a b m) s = execVminnX d a b m s := rfl
@[simp] theorem exec_vmaxnX {d a b m} {s} : exec (.vmaxnX d a b m) s = execVmaxnX d a b m s := rfl
@[simp] theorem exec_vmergeX {d a b m} {s} : exec (.vmergeX d a b m) s = execVmergeX d a b m s := rfl
@[simp] theorem exec_vadcX {d a b m} {s} : exec (.vadcX d a b m) s = execVadcX d a b m s := rfl
@[simp] theorem exec_vsbcX {d a b m} {s} : exec (.vsbcX d a b m) s = execVsbcX d a b m s := rfl
@[simp] theorem exec_vwmulX {d a b m} {s} : exec (.vwmulX d a b m) s = execVwmulX d a b m s := rfl
@[simp] theorem exec_vfadd {d a b m} {s} : exec (.vfadd d a b m) s = execVfadd d a b m s := rfl
@[simp] theorem exec_vfsub {d a b m} {s} : exec (.vfsub d a b m) s = execVfsub d a b m s := rfl
@[simp] theorem exec_vfmul {d a b m} {s} : exec (.vfmul d a b m) s = execVfmul d a b m s := rfl
@[simp] theorem exec_vfma {d a b m} {s} : exec (.vfma d a b m) s = execVfma d a b m s := rfl
@[simp] theorem exec_vfmin {d a b m} {s} : exec (.vfmin d a b m) s = execVfmin d a b m s := rfl
@[simp] theorem exec_vfmax {d a b m} {s} : exec (.vfmax d a b m) s = execVfmax d a b m s := rfl
@[simp] theorem exec_vfdiv {d a b m} {s} : exec (.vfdiv d a b m) s = execVfdiv d a b m s := rfl
@[simp] theorem exec_vfrcp {d a m} {s} : exec (.vfrcp d a m) s = execVfrcp d a m s := rfl
@[simp] theorem exec_vfrsq {d a m} {s} : exec (.vfrsq d a m) s = execVfrsq d a m s := rfl
@[simp] theorem exec_vfsqrt {d a m} {s} : exec (.vfsqrt d a m) s = execVfsqrt d a m s := rfl
@[simp] theorem exec_vfexp {d a m} {s} : exec (.vfexp d a m) s = execVfexp d a m s := rfl
@[simp] theorem exec_vflog {d a m} {s} : exec (.vflog d a m) s = execVflog d a m s := rfl
@[simp] theorem exec_vfsin {d a m} {s} : exec (.vfsin d a m) s = execVfsin d a m s := rfl
@[simp] theorem exec_vfcos {d a m} {s} : exec (.vfcos d a m) s = execVfcos d a m s := rfl
@[simp] theorem exec_vfcvt {d a g m} {s} : exec (.vfcvt d a g m) s = execVfcvt d a g m s := rfl
@[simp] theorem exec_vfwmul {d a b m} {s} : exec (.vfwmul d a b m) s = execVfwmul d a b m s := rfl
@[simp] theorem exec_vfaddX {d a b m} {s} : exec (.vfaddX d a b m) s = execVfaddX d a b m s := rfl
@[simp] theorem exec_vfsubX {d a b m} {s} : exec (.vfsubX d a b m) s = execVfsubX d a b m s := rfl
@[simp] theorem exec_vfmulX {d a b m} {s} : exec (.vfmulX d a b m) s = execVfmulX d a b m s := rfl
@[simp] theorem exec_vfmaX {d a b m} {s} : exec (.vfmaX d a b m) s = execVfmaX d a b m s := rfl
@[simp] theorem exec_vfminX {d a b m} {s} : exec (.vfminX d a b m) s = execVfminX d a b m s := rfl
@[simp] theorem exec_vfmaxX {d a b m} {s} : exec (.vfmaxX d a b m) s = execVfmaxX d a b m s := rfl
@[simp] theorem exec_vfdivX {d a b m} {s} : exec (.vfdivX d a b m) s = execVfdivX d a b m s := rfl
@[simp] theorem exec_vcmp {d a b m c} {s} : exec (.vcmp d a b m c) s = execVcmp d a b m c s := rfl
@[simp] theorem exec_vfcmp {d a b m c} {s} : exec (.vfcmp d a b m c) s = execVfcmp d a b m c s := rfl
@[simp] theorem exec_vcmpX {d a b m c} {s} : exec (.vcmpX d a b m c) s = execVcmpX d a b m c s := rfl
@[simp] theorem exec_vfcmpX {d a b m c} {s} : exec (.vfcmpX d a b m c) s = execVfcmpX d a b m c s := rfl
@[simp] theorem exec_mand {d a b} {s} : exec (.mand d a b) s = execMand d a b s := rfl
@[simp] theorem exec_mor {d a b} {s} : exec (.mor d a b) s = execMor d a b s := rfl
@[simp] theorem exec_mxor {d a b} {s} : exec (.mxor d a b) s = execMxor d a b s := rfl
@[simp] theorem exec_mnot {d a} {s} : exec (.mnot d a) s = execMnot d a s := rfl
@[simp] theorem exec_mshl {d a n} {s} : exec (.mshl d a n) s = execMshl d a n s := rfl
@[simp] theorem exec_mpop {d a} {s} : exec (.mpop d a) s = execMpop d a s := rfl
@[simp] theorem exec_mfirst {d a} {s} : exec (.mfirst d a) s = execMfirst d a s := rfl
@[simp] theorem exec_mlast {d a} {s} : exec (.mlast d a) s = execMlast d a s := rfl
@[simp] theorem exec_mset {d} {s} : exec (.mset d) s = execMset d s := rfl
@[simp] theorem exec_mclr {d} {s} : exec (.mclr d) s = execMclr d s := rfl
@[simp] theorem exec_vgath {d a b m} {s} : exec (.vgath d a b m) s = execVgath d a b m s := rfl
@[simp] theorem exec_vcomp {d a m} {s} : exec (.vcomp d a m) s = execVcomp d a m s := rfl
@[simp] theorem exec_vxpnd {d a m} {s} : exec (.vxpnd d a m) s = execVxpnd d a m s := rfl
@[simp] theorem exec_vred {d a k m} {s} : exec (.vred d a k m) s = execVred d a k m s := rfl
@[simp] theorem exec_vredXd {d a k m} {s} : exec (.vredXd d a k m) s = execVredXd d a k m s := rfl
@[simp] theorem exec_vscan {d a k m} {s} : exec (.vscan d a k m) s = execVscan d a k m s := rfl
@[simp] theorem exec_vslideupZero {d a b m} {s} : exec (.vslideupZero d a b m) s = execVslideupZero d a b m s := rfl
@[simp] theorem exec_vslideupOne {d a b m} {s} : exec (.vslideupOne d a b m) s = execVslideupOne d a b m s := rfl
@[simp] theorem exec_vslideupKeep {d a b m} {s} : exec (.vslideupKeep d a b m) s = execVslideupKeep d a b m s := rfl
@[simp] theorem exec_vslidednZero {d a b m} {s} : exec (.vslidednZero d a b m) s = execVslidednZero d a b m s := rfl
@[simp] theorem exec_vslidednOne {d a b m} {s} : exec (.vslidednOne d a b m) s = execVslidednOne d a b m s := rfl
@[simp] theorem exec_vslidednKeep {d a b m} {s} : exec (.vslidednKeep d a b m) s = execVslidednKeep d a b m s := rfl
@[simp] theorem exec_vmvx {d a b} {s} : exec (.vmvx d a b) s = execVmvx d a b s := rfl
@[simp] theorem exec_vmvs {d b m} {s} : exec (.vmvs d b m) s = execVmvs d b m s := rfl
@[simp] theorem exec_vsplat {d b m} {s} : exec (.vsplat d b m) s = execVsplat d b m s := rfl
@[simp] theorem exec_vld {v a m o} {s} : exec (.vld v a m o) s = execVld v a m o s := rfl
@[simp] theorem exec_vlds {v a b m o} {s} : exec (.vlds v a b m o) s = execVlds v a b m o s := rfl
@[simp] theorem exec_vldx {v a b m o} {s} : exec (.vldx v a b m o) s = execVldx v a b m o s := rfl
@[simp] theorem exec_vst {v a m o} {s} : exec (.vst v a m o) s = execVst v a m o s := rfl
@[simp] theorem exec_vsts {v a b m o} {s} : exec (.vsts v a b m o) s = execVsts v a b m o s := rfl
@[simp] theorem exec_vstx {v a b m o} {s} : exec (.vstx v a b m o) s = execVstx v a b m o s := rfl
@[simp] theorem exec_awin {d a o} {s} : exec (.awin d a o) s = execAwin d a o s := rfl
@[simp] theorem exec_vamo {v w} {s} : exec (.vamo v w) s = execVamo v w s := rfl
@[simp] theorem exec_amerge {s} : exec .amerge s = execAmerge s := rfl
@[simp] theorem exec_vrand {d m} {s} : exec (.vrand d m) s = execVrand d m s := rfl
@[simp] theorem exec_hint {s} : exec .hint s = execHint s := rfl
@[simp] theorem exec_illegalEncoding {s} : exec .illegalEncoding s = execIllegalEncoding s := rfl
@[simp] theorem exec_tsetl {crew fmtA d a b} {s} : exec (.tsetl crew fmtA d a b) s = execTsetl crew fmtA d a b s := rfl
@[simp] theorem exec_tclaim {a b} {s} : exec (.tclaim a b) s = execTclaim a b s := rfl
@[simp] theorem exec_tfree {s} : exec .tfree s = execTfree s := rfl
@[simp] theorem exec_tld {td a b} {s} : exec (.tld td a b) s = execTld td a b s := rfl
@[simp] theorem exec_tst {ta a b} {s} : exec (.tst ta a b) s = execTst ta a b s := rfl
@[simp] theorem exec_tldp {td a b} {s} : exec (.tldp td a b) s = execTldp td a b s := rfl
@[simp] theorem exec_tzero {td} {s} : exec (.tzero td) s = execTzero td s := rfl
@[simp] theorem exec_tmvr {td v a} {s} : exec (.tmvr td v a) s = execTmvr td v a s := rfl
@[simp] theorem exec_tmvc {ta v a} {s} : exec (.tmvc ta v a) s = execTmvc ta v a s := rfl
@[simp] theorem exec_mma {ta tb ad fmtA fmtB} {s} : exec (.mma ta tb ad fmtA fmtB) s = execMma ta tb ad fmtA fmtB s := rfl
@[simp] theorem exec_mmaC {ta tb ad fmtA fmtB} {s} : exec (.mmaC ta tb ad fmtA fmtB) s = execMmaC ta tb ad fmtA fmtB s := rfl
@[simp] theorem exec_mman {ta tb ad pA pB} {s} : exec (.mman ta tb ad pA pB) s = execMman ta tb ad pA pB s := rfl
@[simp] theorem exec_mdrain {td ad fmtA sync} {s} : exec (.mdrain td ad fmtA sync) s = execMdrain td ad fmtA sync s := rfl
@[simp] theorem exec_azero {ad} {s} : exec (.azero ad) s = execAzero ad s := rfl
@[simp] theorem exec_targetPrefetchDone {s} : exec .targetPrefetchDone s = execTargetPrefetchDone s := rfl
@[simp] theorem exec_storeElementCommit {s} : exec .storeElementCommit s = execStoreElementCommit s := rfl
@[simp] theorem exec_replayComplete {s} : exec .replayComplete s = execReplayComplete s := rfl
@[simp] theorem exec_copy {s} : exec .copy s = execCopy s := rfl
@[simp] theorem exec_copyFill {s} : exec .copyFill s = execCopyFill s := rfl
@[simp] theorem exec_reduce {s} : exec .reduce s = execReduce s := rfl
@[simp] theorem exec_allReduce {s} : exec .allReduce s = execAllReduce s := rfl
@[simp] theorem exec_allGather {s} : exec .allGather s = execAllGather s := rfl
@[simp] theorem exec_broadcast {s} : exec .broadcast s = execBroadcast s := rfl
@[simp] theorem exec_heatThreshold {s} : exec .heatThreshold s = execHeatThreshold s := rfl
@[simp] theorem exec_heatNotificationSend {s} : exec .heatNotificationSend s = execHeatNotificationSend s := rfl
@[simp] theorem exec_waitWakeup {s} : exec .waitWakeup s = execWaitWakeup s := rfl
@[simp] theorem exec_waitTimeout {s} : exec .waitTimeout s = execWaitTimeout s := rfl
@[simp] theorem exec_launchWindowStore {s} : exec .launchWindowStore s = execLaunchWindowStore s := rfl
@[simp] theorem exec_hypervisorLaunchStore {s} : exec .hypervisorLaunchStore s = execHypervisorLaunchStore s := rfl
@[simp] theorem exec_wharfAdmit {s} : exec .wharfAdmit s = execWharfAdmit s := rfl
@[simp] theorem exec_waitCounterRead {s} : exec .waitCounterRead s = execWaitCounterRead s := rfl
@[simp] theorem exec_usageCharge {s} : exec .usageCharge s = execUsageCharge s := rfl
@[simp] theorem exec_groupEnd {s} : exec .groupEnd s = execGroupEnd s := rfl
@[simp] theorem exec_wqryAnswer {s} : exec .wqryAnswer s = execWqryAnswer s := rfl
@[simp] theorem exec_hostPreempt {s} : exec .hostPreempt s = execHostPreempt s := rfl
@[simp] theorem exec_preempt {s} : exec .preempt s = execPreempt s := rfl
@[simp] theorem exec_restore {s} : exec .restore s = execRestore s := rfl
@[simp] theorem exec_correctedError {s} : exec .correctedError s = execCorrectedError s := rfl
@[simp] theorem exec_ceThreshold {s} : exec .ceThreshold s = execCeThreshold s := rfl
@[simp] theorem exec_containedError {s} : exec .containedError s = execContainedError s := rfl
@[simp] theorem exec_fatalError {s} : exec .fatalError s = execFatalError s := rfl
@[simp] theorem exec_ucieLinkDown {s} : exec .ucieLinkDown s = execUcieLinkDown s := rfl
@[simp] theorem exec_peerLinkDown {s} : exec .peerLinkDown s = execPeerLinkDown s := rfl
@[simp] theorem exec_selfTestRequest {s} : exec .selfTestRequest s = execSelfTestRequest s := rfl
@[simp] theorem exec_selfTestComplete {s} : exec .selfTestComplete s = execSelfTestComplete s := rfl
@[simp] theorem exec_pctlRequest {s} : exec .pctlRequest s = execPctlRequest s := rfl
@[simp] theorem exec_powerStateChange {s} : exec .powerStateChange s = execPowerStateChange s := rfl
@[simp] theorem exec_pctlTripClear {s} : exec .pctlTripClear s = execPctlTripClear s := rfl
@[simp] theorem exec_thermalTrip {s} : exec .thermalTrip s = execThermalTrip s := rfl
@[simp] theorem exec_serdesStateSet {s} : exec .serdesStateSet s = execSerdesStateSet s := rfl
@[simp] theorem exec_deviceReset {s} : exec .deviceReset s = execDeviceReset s := rfl
@[simp] theorem exec_functionReady {s} : exec .functionReady s = execFunctionReady s := rfl
@[simp] theorem exec_registerWindowWrite {s} : exec .registerWindowWrite s = execRegisterWindowWrite s := rfl
@[simp] theorem exec_hostNmRead {s} : exec .hostNmRead s = execHostNmRead s := rfl
@[simp] theorem exec_hostNmWrite {s} : exec .hostNmWrite s = execHostNmWrite s := rfl
@[simp] theorem exec_getVersion {s} : exec .getVersion s = execGetVersion s := rfl
@[simp] theorem exec_getCapabilities {s} : exec .getCapabilities s = execGetCapabilities s := rfl
@[simp] theorem exec_negotiateAlgorithms {s} : exec .negotiateAlgorithms s = execNegotiateAlgorithms s := rfl
@[simp] theorem exec_getDigests {s} : exec .getDigests s = execGetDigests s := rfl
@[simp] theorem exec_getCertificate {s} : exec .getCertificate s = execGetCertificate s := rfl
@[simp] theorem exec_challenge {s} : exec .challenge s = execChallenge s := rfl
@[simp] theorem exec_getMeasurements {s} : exec .getMeasurements s = execGetMeasurements s := rfl
@[simp] theorem exec_spdmUnsupportedRequest {s} : exec .spdmUnsupportedRequest s = execSpdmUnsupportedRequest s := rfl
@[simp] theorem exec_dbgctlStop {s} : exec .dbgctlStop s = execDbgctlStop s := rfl
@[simp] theorem exec_dbgctlRun {s} : exec .dbgctlRun s = execDbgctlRun s := rfl
@[simp] theorem exec_counterBankClaim {s} : exec .counterBankClaim s = execCounterBankClaim s := rfl
@[simp] theorem exec_counterBankRelease {s} : exec .counterBankRelease s = execCounterBankRelease s := rfl
@[simp] theorem exec_counterOverflow {s} : exec .counterOverflow s = execCounterOverflow s := rfl
@[simp] theorem exec_pcReasonCycleCount {s} : exec .pcReasonCycleCount s = execPcReasonCycleCount s := rfl
@[simp] theorem exec_peerAccessToNearMemory {s} : exec .peerAccessToNearMemory s = execPeerAccessToNearMemory s := rfl

end Sys2Proof.Machine
end

