-- ==== Sys2Proof/Laws/Memory.lean ====
section
/-! SUPPORT. The memory: every operation keeps its canonical form, and what is read after a write. -/

namespace Sys2Proof.Machine

/-! Key-value lists -/

theorem lookup_insert_same (m : AMap α) (k : Nat) (v : α) : lookup (insert m k v) k = some v := by
  induction m with
  | nil => simp [insert, lookup]
  | cons e rest ih =>
    obtain ⟨j, u⟩ := e
    simp only [insert]
    split
    · simp [lookup]
    · split
      · simp [lookup]
      · have : j ≠ k := fun h => by simp_all
        simp [lookup, this, ih]

theorem lookup_insert_ne (m : AMap α) {k l : Nat} (v : α) (h : l ≠ k) : lookup (insert m k v) l = lookup m l := by
  induction m with
  | nil => simp [insert, lookup, Ne.symm h]
  | cons e rest ih =>
    obtain ⟨j, u⟩ := e
    simp only [insert]
    split
    · simp [lookup, Ne.symm h]
    · split
      · rename_i hk
        subst hk
        simp [lookup, Ne.symm h]
      · simp only [lookup, ih]

theorem lookup_erase_ne (m : AMap α) {p q : Nat} (n : q ≠ p) : lookup (erase m p) q = lookup m q := by
  induction m with
  | nil => rfl
  | cons e rest ih =>
    obtain ⟨j, u⟩ := e
    simp only [erase]
    split
    · rename_i hj
      subst hj
      simp [lookup, Ne.symm n]
    · simp only [lookup, ih]

@[simp] theorem lookupD_insert_same (m : AMap α) (k : Nat) (v d : α) : lookupD (insert m k v) k d = v := by
  simp [lookupD, lookup_insert_same]

theorem lookupD_insert_ne (m : AMap α) {k l : Nat} (v d : α) (h : l ≠ k) :
    lookupD (insert m k v) l d = lookupD m l d := by
  simp [lookupD, lookup_insert_ne m v h]

/-! Canonical form -/

/-- A lower bound of a list's keys. -/
def below (lo : Option Nat) (p : Nat) : Bool :=
  match lo with
  | none => true
  | some l => decide (l < p)

theorem wfFrom_cons (lo : Option Nat) (p : Nat) (b : Byte) (rest : Memory) :
    Memory.wfFrom lo ((p, b) :: rest) = (below lo p && b != unlistedByte && Memory.wfFrom (some p) rest) := by
  cases lo <;> rfl

theorem wfFrom_weaken {m : Memory} {l : Option Nat} {k : Nat} (h : Memory.wfFrom (some k) m = true)
    (hl : below l k = true) : Memory.wfFrom l m = true := by
  cases m with
  | nil => rfl
  | cons e rest =>
    obtain ⟨p, b⟩ := e
    rw [wfFrom_cons] at *
    simp only [Bool.and_eq_true] at *
    refine ⟨⟨?_, h.1.2⟩, h.2⟩
    cases l with
    | none => rfl
    | some l =>
      simp only [below, decide_eq_true_eq] at *
      omega

theorem insert_wfFrom (m : Memory) (lo : Option Nat) (p : Nat) (b : Byte) (h : Memory.wfFrom lo m = true)
    (hl : below lo p = true) (hb : b ≠ unlistedByte) : Memory.wfFrom lo (insert m p b) = true := by
  induction m generalizing lo with
  | nil => simp [insert, wfFrom_cons, hl, hb, Memory.wfFrom]
  | cons e rest ih =>
    obtain ⟨j, u⟩ := e
    rw [wfFrom_cons] at h
    simp only [Bool.and_eq_true, bne_iff_ne, ne_eq] at h
    simp only [insert]
    split
    · rename_i hk
      rw [wfFrom_cons lo, wfFrom_cons (some p)]
      have hj : below (some p) j = true := decide_eq_true hk
      simp [hl, hb, hj, h.1.2, h.2]
    · split
      · rename_i _ hk
        subst hk
        rw [wfFrom_cons]
        simp [hl, hb, h.2]
      · rw [wfFrom_cons]
        simp only [h.1.1, Bool.true_and, Bool.and_eq_true, bne_iff_ne, ne_eq]
        refine ⟨h.1.2, ih _ h.2 ?_⟩
        simp only [below, decide_eq_true_eq]
        omega

theorem erase_wfFrom (m : Memory) (lo : Option Nat) (p : Nat) (h : Memory.wfFrom lo m = true) :
    Memory.wfFrom lo (erase m p) = true := by
  induction m generalizing lo with
  | nil => rfl
  | cons e rest ih =>
    obtain ⟨j, u⟩ := e
    have h' := h
    rw [wfFrom_cons] at h'
    simp only [Bool.and_eq_true] at h'
    simp only [erase]
    split
    · exact wfFrom_weaken h'.2 h'.1.1
    · rw [wfFrom_cons]
      simp only [Bool.and_eq_true]
      exact ⟨h'.1, ih _ h'.2⟩

theorem filter_wfFrom (m : Memory) (lo : Option Nat) (f : Host.Cell → Bool) (h : Memory.wfFrom lo m = true) :
    Memory.wfFrom lo (m.filter f) = true := by
  induction m generalizing lo with
  | nil => rfl
  | cons e rest ih =>
    obtain ⟨j, u⟩ := e
    have h' := h
    rw [wfFrom_cons] at h'
    simp only [Bool.and_eq_true] at h'
    simp only [List.filter_cons]
    split
    · rw [wfFrom_cons]
      simp only [Bool.and_eq_true]
      exact ⟨h'.1, ih _ h'.2⟩
    · exact ih lo (wfFrom_weaken h'.2 h'.1.1)

/-- Writing a byte keeps the canonical form. -/
theorem writePlace_wf {m : Memory} (p : Nat) (b : Byte) (h : m.wf = true) : (writePlace m p b).wf = true := by
  unfold writePlace
  split
  · exact erase_wfFrom m none p h
  · exact insert_wfFrom m none p b h rfl ‹_›

/-- Writing bytes keeps the canonical form. -/
theorem writePlaces_wf {m : Memory} (p : Nat) (bs : List Byte) (h : m.wf = true) : (writePlaces m p bs).wf = true := by
  induction bs generalizing m p with
  | nil => exact h
  | cons b bs ih => exact ih (p + 1) (writePlace_wf p b h)

/-- Writing a number keeps the canonical form. -/
theorem writeNat_wf {m : Memory} (p n w : Nat) (h : m.wf = true) : (writeNat m p n w).wf = true := by
  induction n generalizing m p w with
  | zero => exact h
  | succ n ih => exact ih (p + 1) (w / 256) (writePlace_wf p _ h)

/-- Clearing places keeps the canonical form. -/
theorem clearPlaces_wf {m : Memory} (p n : Nat) (h : m.wf = true) : (clearPlaces m p n).wf = true :=
  filter_wfFrom m none _ h

theorem foldl_writePlace_wf (cells : List StoreCell) (f : Memory → StoreCell → Byte) {m : Memory} (h : m.wf = true) :
    (cells.foldl (fun m c => writePlace m c.place (f m c)) m).wf = true := by
  induction cells generalizing m with
  | nil => exact h
  | cons c cs ih => exact ih (writePlace_wf c.place _ h)

@[simp] theorem wake_mem (places : List Nat) (s : State) : (wake places s).mem = s.mem := rfl

/-- The bytes of a store keep the canonical form. -/
theorem performCells_wf (cells : List StoreCell) (s : State) (h : s.mem.wf = true) :
    (performCells cells s).mem.wf = true :=
  foldl_writePlace_wf cells (fun m c => (readPlace m c.place &&& ~~~c.mask) ||| (c.data &&& c.mask)) h

/-! Reading after writing -/

theorem lookup_wfFrom_none {m : Memory} {k p : Nat} (h : Memory.wfFrom (some k) m = true) (hp : p ≤ k) :
    lookup m p = none := by
  induction m generalizing k with
  | nil => rfl
  | cons e rest ih =>
    obtain ⟨j, u⟩ := e
    rw [wfFrom_cons] at h
    simp only [Bool.and_eq_true, below, decide_eq_true_eq] at h
    have : j ≠ p := by omega
    simp only [lookup, this, if_false]
    exact ih h.2 (by omega)

theorem lookup_erase_same {m : Memory} {lo : Option Nat} (p : Nat) (h : Memory.wfFrom lo m = true) :
    lookup (erase m p) p = none := by
  induction m generalizing lo with
  | nil => rfl
  | cons e rest ih =>
    obtain ⟨j, u⟩ := e
    rw [wfFrom_cons] at h
    simp only [Bool.and_eq_true] at h
    simp only [erase]
    split
    · rename_i hj
      exact lookup_wfFrom_none h.2 (by omega)
    · rename_i hj
      simp only [lookup, hj, if_false]
      exact ih h.2

/-- A byte written is read back. -/
theorem readPlace_writePlace_same {m : Memory} (p : Nat) (b : Byte) (h : m.wf = true) :
    readPlace (writePlace m p b) p = b := by
  unfold writePlace readPlace lookupD
  split
  · rename_i hb
    rw [lookup_erase_same p h]
    exact hb.symm
  · rw [lookup_insert_same]
    rfl

/-- A write of a byte leaves every other place alone. -/
theorem readPlace_writePlace_ne (m : Memory) {p q : Nat} (b : Byte) (n : q ≠ p) :
    readPlace (writePlace m p b) q = readPlace m q := by
  unfold writePlace readPlace lookupD
  split
  · rw [lookup_erase_ne m n]
  · rw [lookup_insert_ne m b n]

/-- A write of a number leaves the places below it and above it alone. -/
theorem readPlace_writeNat_ne (m : Memory) {p q : Nat} (n w : Nat) (h : q < p ∨ p + n ≤ q) :
    readPlace (writeNat m p n w) q = readPlace m q := by
  induction n generalizing m p w with
  | zero => rfl
  | succ n ih =>
    rw [writeNat, ih _ _ (by omega), readPlace_writePlace_ne _ _ (by omega)]

theorem readNat_congr {m k : Memory} {p n : Nat} (h : ∀ q, p ≤ q → q < p + n → readPlace m q = readPlace k q) :
    readNat m p n = readNat k p n := by
  induction n generalizing p with
  | zero => rfl
  | succ n ih =>
    rw [readNat, readNat, h p (by omega) (by omega), ih fun q a b => h q (by omega) (by omega)]

/-- A number written is read back. -/
theorem readNat_writeNat {m : Memory} (p n w : Nat) (h : m.wf = true) :
    readNat (writeNat m p n w) p n = w % 256 ^ n := by
  induction n generalizing m p w with
  | zero => simp [readNat, Nat.mod_one]
  | succ n ih =>
    rw [writeNat, readNat, ih _ _ (writePlace_wf p _ h), readPlace_writeNat_ne _ _ _ (by omega),
      readPlace_writePlace_same p _ h, BitVec.toNat_ofNat, Nat.pow_succ 256, Nat.mul_comm (256 ^ n) 256, Nat.mod_mul]

/-- The cells of a store leave every place that none of them names alone. -/
theorem readPlace_performCells_ne (cells : List StoreCell) (s : State) {q : Nat} (h : ∀ c ∈ cells, c.place ≠ q) :
    readPlace (performCells cells s).mem q = readPlace s.mem q := by
  show readPlace (cells.foldl (fun m c =>
    writePlace m c.place ((readPlace m c.place &&& ~~~c.mask) ||| (c.data &&& c.mask))) s.mem) q = _
  generalize s.mem = m
  induction cells generalizing m with
  | nil => rfl
  | cons c cs ih =>
    rw [List.foldl_cons, ih (fun d hd => h d (List.mem_cons_of_mem _ hd)),
      readPlace_writePlace_ne _ _ (fun e => h c (List.mem_cons_self ..) e.symm)]

end Sys2Proof.Machine
end

