-- ==== Sys2Proof/Laws/State.lean ====
section
/-! SUPPORT. Reads of the state after its updates: one lemma for each field of each update. -/

namespace Sys2Proof.Machine

/-! Cores and harts -/

@[simp] theorem core_setCore_same (s : State) (c : Nat) (k : Core) : (s.setCore c k).core c = k := by
  simp [State.core, State.setCore]

theorem core_setCore_ne (s : State) {c d : Nat} (k : Core) (h : d ≠ c) : (s.setCore c k).core d = s.core d := by
  simp [State.core, State.setCore, lookupD_insert_ne _ _ _ h]

@[simp] theorem core_modCore_same (s : State) (c : Nat) (f : Core → Core) : (s.modCore c f).core c = f (s.core c) := by
  simp [State.modCore]

theorem core_modCore_ne (s : State) {c d : Nat} (f : Core → Core) (h : d ≠ c) : (s.modCore c f).core d = s.core d :=
  core_setCore_ne s _ h

@[simp] theorem hart_setHart_core (k : Core) (h : Nat) (x : Hart) : (k.setHart h x).hart h = x := by
  simp [Core.hart, Core.setHart]

theorem hart_setHart_core_ne (k : Core) {h i : Nat} (x : Hart) (n : i ≠ h) : (k.setHart h x).hart i = k.hart i := by
  simp [Core.hart, Core.setHart, lookupD_insert_ne _ _ _ n]

@[simp] theorem hartAt_setHartAt_same (s : State) (c h : Nat) (x : Hart) : (s.setHartAt c h x).hartAt c h = x := by
  simp [State.hartAt, State.setHartAt]

theorem hartAt_setHartAt_ne (s : State) {c h d i : Nat} (x : Hart) (n : d ≠ c ∨ i ≠ h) :
    (s.setHartAt c h x).hartAt d i = s.hartAt d i := by
  simp only [State.hartAt, State.setHartAt]
  by_cases hd : d = c
  · subst hd
    rw [core_setCore_same]
    exact hart_setHart_core_ne _ _ (n.resolve_left (fun a => a rfl))
  · rw [core_setCore_ne _ _ hd]

@[simp] theorem hartAt_modHartAt_same (s : State) (c h : Nat) (f : Hart → Hart) :
    (s.modHartAt c h f).hartAt c h = f (s.hartAt c h) := by
  simp [State.modHartAt]

theorem hartAt_modHartAt_ne (s : State) {c h d i : Nat} (f : Hart → Hart) (n : d ≠ c ∨ i ≠ h) :
    (s.modHartAt c h f).hartAt d i = s.hartAt d i :=
  hartAt_setHartAt_ne s _ n


/-! `setCore` -/

@[simp] theorem setCore_mem (s : State) (c : Nat) (k : Core) : (s.setCore c k).mem = s.mem := rfl
@[simp] theorem setCore_poison (s : State) (c : Nat) (k : Core) : (s.setCore c k).poison = s.poison := rfl
@[simp] theorem setCore_dies (s : State) (c : Nat) (k : Core) : (s.setCore c k).dies = s.dies := rfl
@[simp] theorem setCore_wharf (s : State) (c : Nat) (k : Core) : (s.setCore c k).wharf = s.wharf := rfl
@[simp] theorem setCore_host (s : State) (c : Nat) (k : Core) : (s.setCore c k).host = s.host := rfl
@[simp] theorem setCore_curCore (s : State) (c : Nat) (k : Core) : (s.setCore c k).curCore = s.curCore := rfl
@[simp] theorem setCore_curHart (s : State) (c : Nat) (k : Core) : (s.setCore c k).curHart = s.curHart := rfl
@[simp] theorem setCore_input (s : State) (c : Nat) (k : Core) : (s.setCore c k).input = s.input := rfl
@[simp] theorem setCore_agenda (s : State) (c : Nat) (k : Core) : (s.setCore c k).agenda = s.agenda := rfl
@[simp] theorem setCore_rr (s : State) (c : Nat) (k : Core) : (s.setCore c k).rr = s.rr := rfl
@[simp] theorem setCore_free (s : State) (c : Nat) (k : Core) : (s.setCore c k).free = s.free := rfl
@[simp] theorem setCore_here (s : State) (c : Nat) (k : Core) : (s.setCore c k).here = s.here := rfl
@[simp] theorem setCore_me (s : State) (c : Nat) (k : Core) : (s.setCore c k).me = s.me := rfl
@[simp] theorem setCore_die (s : State) (c : Nat) (k : Core) (e : Nat) : (s.setCore c k).die e = s.die e := rfl
@[simp] theorem setCore_tenant (s : State) (c : Nat) (k : Core) (e : Nat) : (s.setCore c k).tenant e = s.tenant e := rfl
@[simp] theorem setCore_group? (s : State) (c : Nat) (k : Core) (e : Nat) : (s.setCore c k).group? e = s.group? e := rfl

/-! `modCore` -/

@[simp] theorem modCore_mem (s : State) (c : Nat) (f : Core → Core) : (s.modCore c f).mem = s.mem := rfl
@[simp] theorem modCore_poison (s : State) (c : Nat) (f : Core → Core) : (s.modCore c f).poison = s.poison := rfl
@[simp] theorem modCore_dies (s : State) (c : Nat) (f : Core → Core) : (s.modCore c f).dies = s.dies := rfl
@[simp] theorem modCore_wharf (s : State) (c : Nat) (f : Core → Core) : (s.modCore c f).wharf = s.wharf := rfl
@[simp] theorem modCore_host (s : State) (c : Nat) (f : Core → Core) : (s.modCore c f).host = s.host := rfl
@[simp] theorem modCore_curCore (s : State) (c : Nat) (f : Core → Core) : (s.modCore c f).curCore = s.curCore := rfl
@[simp] theorem modCore_curHart (s : State) (c : Nat) (f : Core → Core) : (s.modCore c f).curHart = s.curHart := rfl
@[simp] theorem modCore_input (s : State) (c : Nat) (f : Core → Core) : (s.modCore c f).input = s.input := rfl
@[simp] theorem modCore_agenda (s : State) (c : Nat) (f : Core → Core) : (s.modCore c f).agenda = s.agenda := rfl
@[simp] theorem modCore_rr (s : State) (c : Nat) (f : Core → Core) : (s.modCore c f).rr = s.rr := rfl
@[simp] theorem modCore_free (s : State) (c : Nat) (f : Core → Core) : (s.modCore c f).free = s.free := rfl
@[simp] theorem modCore_here (s : State) (c : Nat) (f : Core → Core) : (s.modCore c f).here = s.here := rfl
@[simp] theorem modCore_me (s : State) (c : Nat) (f : Core → Core) : (s.modCore c f).me = s.me := rfl
@[simp] theorem modCore_die (s : State) (c : Nat) (f : Core → Core) (e : Nat) : (s.modCore c f).die e = s.die e := rfl
@[simp] theorem modCore_tenant (s : State) (c : Nat) (f : Core → Core) (e : Nat) : (s.modCore c f).tenant e = s.tenant e := rfl
@[simp] theorem modCore_group? (s : State) (c : Nat) (f : Core → Core) (e : Nat) : (s.modCore c f).group? e = s.group? e := rfl

/-! `setHartAt` -/

@[simp] theorem setHartAt_mem (s : State) (c h : Nat) (x : Hart) : (s.setHartAt c h x).mem = s.mem := rfl
@[simp] theorem setHartAt_poison (s : State) (c h : Nat) (x : Hart) : (s.setHartAt c h x).poison = s.poison := rfl
@[simp] theorem setHartAt_dies (s : State) (c h : Nat) (x : Hart) : (s.setHartAt c h x).dies = s.dies := rfl
@[simp] theorem setHartAt_wharf (s : State) (c h : Nat) (x : Hart) : (s.setHartAt c h x).wharf = s.wharf := rfl
@[simp] theorem setHartAt_host (s : State) (c h : Nat) (x : Hart) : (s.setHartAt c h x).host = s.host := rfl
@[simp] theorem setHartAt_curCore (s : State) (c h : Nat) (x : Hart) : (s.setHartAt c h x).curCore = s.curCore := rfl
@[simp] theorem setHartAt_curHart (s : State) (c h : Nat) (x : Hart) : (s.setHartAt c h x).curHart = s.curHart := rfl
@[simp] theorem setHartAt_input (s : State) (c h : Nat) (x : Hart) : (s.setHartAt c h x).input = s.input := rfl
@[simp] theorem setHartAt_agenda (s : State) (c h : Nat) (x : Hart) : (s.setHartAt c h x).agenda = s.agenda := rfl
@[simp] theorem setHartAt_rr (s : State) (c h : Nat) (x : Hart) : (s.setHartAt c h x).rr = s.rr := rfl
@[simp] theorem setHartAt_free (s : State) (c h : Nat) (x : Hart) : (s.setHartAt c h x).free = s.free := rfl
@[simp] theorem setHartAt_here (s : State) (c h : Nat) (x : Hart) : (s.setHartAt c h x).here = s.here := rfl
@[simp] theorem setHartAt_me (s : State) (c h : Nat) (x : Hart) : (s.setHartAt c h x).me = s.me := rfl
@[simp] theorem setHartAt_die (s : State) (c h : Nat) (x : Hart) (e : Nat) : (s.setHartAt c h x).die e = s.die e := rfl
@[simp] theorem setHartAt_tenant (s : State) (c h : Nat) (x : Hart) (e : Nat) : (s.setHartAt c h x).tenant e = s.tenant e := rfl
@[simp] theorem setHartAt_group? (s : State) (c h : Nat) (x : Hart) (e : Nat) : (s.setHartAt c h x).group? e = s.group? e := rfl

/-! `modHartAt` -/

@[simp] theorem modHartAt_mem (s : State) (c h : Nat) (f : Hart → Hart) : (s.modHartAt c h f).mem = s.mem := rfl
@[simp] theorem modHartAt_poison (s : State) (c h : Nat) (f : Hart → Hart) : (s.modHartAt c h f).poison = s.poison := rfl
@[simp] theorem modHartAt_dies (s : State) (c h : Nat) (f : Hart → Hart) : (s.modHartAt c h f).dies = s.dies := rfl
@[simp] theorem modHartAt_wharf (s : State) (c h : Nat) (f : Hart → Hart) : (s.modHartAt c h f).wharf = s.wharf := rfl
@[simp] theorem modHartAt_host (s : State) (c h : Nat) (f : Hart → Hart) : (s.modHartAt c h f).host = s.host := rfl
@[simp] theorem modHartAt_curCore (s : State) (c h : Nat) (f : Hart → Hart) : (s.modHartAt c h f).curCore = s.curCore := rfl
@[simp] theorem modHartAt_curHart (s : State) (c h : Nat) (f : Hart → Hart) : (s.modHartAt c h f).curHart = s.curHart := rfl
@[simp] theorem modHartAt_input (s : State) (c h : Nat) (f : Hart → Hart) : (s.modHartAt c h f).input = s.input := rfl
@[simp] theorem modHartAt_agenda (s : State) (c h : Nat) (f : Hart → Hart) : (s.modHartAt c h f).agenda = s.agenda := rfl
@[simp] theorem modHartAt_rr (s : State) (c h : Nat) (f : Hart → Hart) : (s.modHartAt c h f).rr = s.rr := rfl
@[simp] theorem modHartAt_free (s : State) (c h : Nat) (f : Hart → Hart) : (s.modHartAt c h f).free = s.free := rfl
@[simp] theorem modHartAt_here (s : State) (c h : Nat) (f : Hart → Hart) : (s.modHartAt c h f).here = s.here := rfl
@[simp] theorem modHartAt_me (s : State) (c h : Nat) (f : Hart → Hart) : (s.modHartAt c h f).me = s.me := rfl
@[simp] theorem modHartAt_die (s : State) (c h : Nat) (f : Hart → Hart) (e : Nat) : (s.modHartAt c h f).die e = s.die e := rfl
@[simp] theorem modHartAt_tenant (s : State) (c h : Nat) (f : Hart → Hart) (e : Nat) : (s.modHartAt c h f).tenant e = s.tenant e := rfl
@[simp] theorem modHartAt_group? (s : State) (c h : Nat) (f : Hart → Hart) (e : Nat) : (s.modHartAt c h f).group? e = s.group? e := rfl

/-! `setHart` -/

@[simp] theorem setHart_mem (s : State) (x : Hart) : (s.setHart x).mem = s.mem := rfl
@[simp] theorem setHart_poison (s : State) (x : Hart) : (s.setHart x).poison = s.poison := rfl
@[simp] theorem setHart_dies (s : State) (x : Hart) : (s.setHart x).dies = s.dies := rfl
@[simp] theorem setHart_wharf (s : State) (x : Hart) : (s.setHart x).wharf = s.wharf := rfl
@[simp] theorem setHart_host (s : State) (x : Hart) : (s.setHart x).host = s.host := rfl
@[simp] theorem setHart_curCore (s : State) (x : Hart) : (s.setHart x).curCore = s.curCore := rfl
@[simp] theorem setHart_curHart (s : State) (x : Hart) : (s.setHart x).curHart = s.curHart := rfl
@[simp] theorem setHart_input (s : State) (x : Hart) : (s.setHart x).input = s.input := rfl
@[simp] theorem setHart_agenda (s : State) (x : Hart) : (s.setHart x).agenda = s.agenda := rfl
@[simp] theorem setHart_rr (s : State) (x : Hart) : (s.setHart x).rr = s.rr := rfl
@[simp] theorem setHart_free (s : State) (x : Hart) : (s.setHart x).free = s.free := rfl
@[simp] theorem setHart_here (s : State) (x : Hart) : (s.setHart x).here = s.here := rfl
@[simp] theorem setHart_me (s : State) (x : Hart) : (s.setHart x).me = s.me := rfl
@[simp] theorem setHart_die (s : State) (x : Hart) (e : Nat) : (s.setHart x).die e = s.die e := rfl
@[simp] theorem setHart_tenant (s : State) (x : Hart) (e : Nat) : (s.setHart x).tenant e = s.tenant e := rfl
@[simp] theorem setHart_group? (s : State) (x : Hart) (e : Nat) : (s.setHart x).group? e = s.group? e := rfl

/-! `modHart` -/

@[simp] theorem modHart_mem (s : State) (f : Hart → Hart) : (s.modHart f).mem = s.mem := rfl
@[simp] theorem modHart_poison (s : State) (f : Hart → Hart) : (s.modHart f).poison = s.poison := rfl
@[simp] theorem modHart_dies (s : State) (f : Hart → Hart) : (s.modHart f).dies = s.dies := rfl
@[simp] theorem modHart_wharf (s : State) (f : Hart → Hart) : (s.modHart f).wharf = s.wharf := rfl
@[simp] theorem modHart_host (s : State) (f : Hart → Hart) : (s.modHart f).host = s.host := rfl
@[simp] theorem modHart_curCore (s : State) (f : Hart → Hart) : (s.modHart f).curCore = s.curCore := rfl
@[simp] theorem modHart_curHart (s : State) (f : Hart → Hart) : (s.modHart f).curHart = s.curHart := rfl
@[simp] theorem modHart_input (s : State) (f : Hart → Hart) : (s.modHart f).input = s.input := rfl
@[simp] theorem modHart_agenda (s : State) (f : Hart → Hart) : (s.modHart f).agenda = s.agenda := rfl
@[simp] theorem modHart_rr (s : State) (f : Hart → Hart) : (s.modHart f).rr = s.rr := rfl
@[simp] theorem modHart_free (s : State) (f : Hart → Hart) : (s.modHart f).free = s.free := rfl
@[simp] theorem modHart_here (s : State) (f : Hart → Hart) : (s.modHart f).here = s.here := rfl
@[simp] theorem modHart_me (s : State) (f : Hart → Hart) : (s.modHart f).me = s.me := rfl
@[simp] theorem modHart_die (s : State) (f : Hart → Hart) (e : Nat) : (s.modHart f).die e = s.die e := rfl
@[simp] theorem modHart_tenant (s : State) (f : Hart → Hart) (e : Nat) : (s.modHart f).tenant e = s.tenant e := rfl
@[simp] theorem modHart_group? (s : State) (f : Hart → Hart) (e : Nat) : (s.modHart f).group? e = s.group? e := rfl

/-! `modDie` -/

@[simp] theorem modDie_mem (s : State) (d : Nat) (f : Die → Die) : (s.modDie d f).mem = s.mem := rfl
@[simp] theorem modDie_poison (s : State) (d : Nat) (f : Die → Die) : (s.modDie d f).poison = s.poison := rfl
@[simp] theorem modDie_cores (s : State) (d : Nat) (f : Die → Die) : (s.modDie d f).cores = s.cores := rfl
@[simp] theorem modDie_wharf (s : State) (d : Nat) (f : Die → Die) : (s.modDie d f).wharf = s.wharf := rfl
@[simp] theorem modDie_host (s : State) (d : Nat) (f : Die → Die) : (s.modDie d f).host = s.host := rfl
@[simp] theorem modDie_curCore (s : State) (d : Nat) (f : Die → Die) : (s.modDie d f).curCore = s.curCore := rfl
@[simp] theorem modDie_curHart (s : State) (d : Nat) (f : Die → Die) : (s.modDie d f).curHart = s.curHart := rfl
@[simp] theorem modDie_input (s : State) (d : Nat) (f : Die → Die) : (s.modDie d f).input = s.input := rfl
@[simp] theorem modDie_agenda (s : State) (d : Nat) (f : Die → Die) : (s.modDie d f).agenda = s.agenda := rfl
@[simp] theorem modDie_rr (s : State) (d : Nat) (f : Die → Die) : (s.modDie d f).rr = s.rr := rfl
@[simp] theorem modDie_free (s : State) (d : Nat) (f : Die → Die) : (s.modDie d f).free = s.free := rfl
@[simp] theorem modDie_here (s : State) (d : Nat) (f : Die → Die) : (s.modDie d f).here = s.here := rfl
@[simp] theorem modDie_me (s : State) (d : Nat) (f : Die → Die) : (s.modDie d f).me = s.me := rfl
@[simp] theorem modDie_core (s : State) (d : Nat) (f : Die → Die) (e : Nat) : (s.modDie d f).core e = s.core e := rfl
@[simp] theorem modDie_hartAt (s : State) (d : Nat) (f : Die → Die) (e i : Nat) : (s.modDie d f).hartAt e i = s.hartAt e i := rfl
@[simp] theorem modDie_hart (s : State) (d : Nat) (f : Die → Die) : (s.modDie d f).hart = s.hart := rfl
@[simp] theorem modDie_tenant (s : State) (d : Nat) (f : Die → Die) (e : Nat) : (s.modDie d f).tenant e = s.tenant e := rfl
@[simp] theorem modDie_group? (s : State) (d : Nat) (f : Die → Die) (e : Nat) : (s.modDie d f).group? e = s.group? e := rfl

/-! `modWharf` -/

@[simp] theorem modWharf_mem (s : State) (f : Wharf → Wharf) : (s.modWharf f).mem = s.mem := rfl
@[simp] theorem modWharf_poison (s : State) (f : Wharf → Wharf) : (s.modWharf f).poison = s.poison := rfl
@[simp] theorem modWharf_cores (s : State) (f : Wharf → Wharf) : (s.modWharf f).cores = s.cores := rfl
@[simp] theorem modWharf_dies (s : State) (f : Wharf → Wharf) : (s.modWharf f).dies = s.dies := rfl
@[simp] theorem modWharf_host (s : State) (f : Wharf → Wharf) : (s.modWharf f).host = s.host := rfl
@[simp] theorem modWharf_curCore (s : State) (f : Wharf → Wharf) : (s.modWharf f).curCore = s.curCore := rfl
@[simp] theorem modWharf_curHart (s : State) (f : Wharf → Wharf) : (s.modWharf f).curHart = s.curHart := rfl
@[simp] theorem modWharf_input (s : State) (f : Wharf → Wharf) : (s.modWharf f).input = s.input := rfl
@[simp] theorem modWharf_agenda (s : State) (f : Wharf → Wharf) : (s.modWharf f).agenda = s.agenda := rfl
@[simp] theorem modWharf_rr (s : State) (f : Wharf → Wharf) : (s.modWharf f).rr = s.rr := rfl
@[simp] theorem modWharf_free (s : State) (f : Wharf → Wharf) : (s.modWharf f).free = s.free := rfl
@[simp] theorem modWharf_here (s : State) (f : Wharf → Wharf) : (s.modWharf f).here = s.here := rfl
@[simp] theorem modWharf_me (s : State) (f : Wharf → Wharf) : (s.modWharf f).me = s.me := rfl
@[simp] theorem modWharf_core (s : State) (f : Wharf → Wharf) (e : Nat) : (s.modWharf f).core e = s.core e := rfl
@[simp] theorem modWharf_hartAt (s : State) (f : Wharf → Wharf) (e i : Nat) : (s.modWharf f).hartAt e i = s.hartAt e i := rfl
@[simp] theorem modWharf_hart (s : State) (f : Wharf → Wharf) : (s.modWharf f).hart = s.hart := rfl
@[simp] theorem modWharf_die (s : State) (f : Wharf → Wharf) (e : Nat) : (s.modWharf f).die e = s.die e := rfl

/-! `modTenant` -/

@[simp] theorem modTenant_mem (s : State) (t : Nat) (f : Tenant → Tenant) : (s.modTenant t f).mem = s.mem := rfl
@[simp] theorem modTenant_poison (s : State) (t : Nat) (f : Tenant → Tenant) : (s.modTenant t f).poison = s.poison := rfl
@[simp] theorem modTenant_cores (s : State) (t : Nat) (f : Tenant → Tenant) : (s.modTenant t f).cores = s.cores := rfl
@[simp] theorem modTenant_dies (s : State) (t : Nat) (f : Tenant → Tenant) : (s.modTenant t f).dies = s.dies := rfl
@[simp] theorem modTenant_host (s : State) (t : Nat) (f : Tenant → Tenant) : (s.modTenant t f).host = s.host := rfl
@[simp] theorem modTenant_curCore (s : State) (t : Nat) (f : Tenant → Tenant) : (s.modTenant t f).curCore = s.curCore := rfl
@[simp] theorem modTenant_curHart (s : State) (t : Nat) (f : Tenant → Tenant) : (s.modTenant t f).curHart = s.curHart := rfl
@[simp] theorem modTenant_input (s : State) (t : Nat) (f : Tenant → Tenant) : (s.modTenant t f).input = s.input := rfl
@[simp] theorem modTenant_agenda (s : State) (t : Nat) (f : Tenant → Tenant) : (s.modTenant t f).agenda = s.agenda := rfl
@[simp] theorem modTenant_rr (s : State) (t : Nat) (f : Tenant → Tenant) : (s.modTenant t f).rr = s.rr := rfl
@[simp] theorem modTenant_free (s : State) (t : Nat) (f : Tenant → Tenant) : (s.modTenant t f).free = s.free := rfl
@[simp] theorem modTenant_here (s : State) (t : Nat) (f : Tenant → Tenant) : (s.modTenant t f).here = s.here := rfl
@[simp] theorem modTenant_me (s : State) (t : Nat) (f : Tenant → Tenant) : (s.modTenant t f).me = s.me := rfl
@[simp] theorem modTenant_core (s : State) (t : Nat) (f : Tenant → Tenant) (e : Nat) : (s.modTenant t f).core e = s.core e := rfl
@[simp] theorem modTenant_hartAt (s : State) (t : Nat) (f : Tenant → Tenant) (e i : Nat) : (s.modTenant t f).hartAt e i = s.hartAt e i := rfl
@[simp] theorem modTenant_hart (s : State) (t : Nat) (f : Tenant → Tenant) : (s.modTenant t f).hart = s.hart := rfl
@[simp] theorem modTenant_die (s : State) (t : Nat) (f : Tenant → Tenant) (e : Nat) : (s.modTenant t f).die e = s.die e := rfl

/-! `modHost` -/

@[simp] theorem modHost_mem (s : State) (f : HostState → HostState) : (s.modHost f).mem = s.mem := rfl
@[simp] theorem modHost_poison (s : State) (f : HostState → HostState) : (s.modHost f).poison = s.poison := rfl
@[simp] theorem modHost_cores (s : State) (f : HostState → HostState) : (s.modHost f).cores = s.cores := rfl
@[simp] theorem modHost_dies (s : State) (f : HostState → HostState) : (s.modHost f).dies = s.dies := rfl
@[simp] theorem modHost_wharf (s : State) (f : HostState → HostState) : (s.modHost f).wharf = s.wharf := rfl
@[simp] theorem modHost_curCore (s : State) (f : HostState → HostState) : (s.modHost f).curCore = s.curCore := rfl
@[simp] theorem modHost_curHart (s : State) (f : HostState → HostState) : (s.modHost f).curHart = s.curHart := rfl
@[simp] theorem modHost_input (s : State) (f : HostState → HostState) : (s.modHost f).input = s.input := rfl
@[simp] theorem modHost_agenda (s : State) (f : HostState → HostState) : (s.modHost f).agenda = s.agenda := rfl
@[simp] theorem modHost_rr (s : State) (f : HostState → HostState) : (s.modHost f).rr = s.rr := rfl
@[simp] theorem modHost_free (s : State) (f : HostState → HostState) : (s.modHost f).free = s.free := rfl
@[simp] theorem modHost_here (s : State) (f : HostState → HostState) : (s.modHost f).here = s.here := rfl
@[simp] theorem modHost_me (s : State) (f : HostState → HostState) : (s.modHost f).me = s.me := rfl
@[simp] theorem modHost_core (s : State) (f : HostState → HostState) (e : Nat) : (s.modHost f).core e = s.core e := rfl
@[simp] theorem modHost_hartAt (s : State) (f : HostState → HostState) (e i : Nat) : (s.modHost f).hartAt e i = s.hartAt e i := rfl
@[simp] theorem modHost_hart (s : State) (f : HostState → HostState) : (s.modHost f).hart = s.hart := rfl
@[simp] theorem modHost_die (s : State) (f : HostState → HostState) (e : Nat) : (s.modHost f).die e = s.die e := rfl
@[simp] theorem modHost_tenant (s : State) (f : HostState → HostState) (e : Nat) : (s.modHost f).tenant e = s.tenant e := rfl
@[simp] theorem modHost_group? (s : State) (f : HostState → HostState) (e : Nat) : (s.modHost f).group? e = s.group? e := rfl

/-! `push` -/

@[simp] theorem push_mem (s : State) (t : Turn) : (s.push t).mem = s.mem := rfl
@[simp] theorem push_poison (s : State) (t : Turn) : (s.push t).poison = s.poison := rfl
@[simp] theorem push_cores (s : State) (t : Turn) : (s.push t).cores = s.cores := rfl
@[simp] theorem push_dies (s : State) (t : Turn) : (s.push t).dies = s.dies := rfl
@[simp] theorem push_wharf (s : State) (t : Turn) : (s.push t).wharf = s.wharf := rfl
@[simp] theorem push_host (s : State) (t : Turn) : (s.push t).host = s.host := rfl
@[simp] theorem push_curCore (s : State) (t : Turn) : (s.push t).curCore = s.curCore := rfl
@[simp] theorem push_curHart (s : State) (t : Turn) : (s.push t).curHart = s.curHart := rfl
@[simp] theorem push_input (s : State) (t : Turn) : (s.push t).input = s.input := rfl
@[simp] theorem push_rr (s : State) (t : Turn) : (s.push t).rr = s.rr := rfl
@[simp] theorem push_free (s : State) (t : Turn) : (s.push t).free = s.free := rfl
@[simp] theorem push_here (s : State) (t : Turn) : (s.push t).here = s.here := rfl
@[simp] theorem push_me (s : State) (t : Turn) : (s.push t).me = s.me := rfl
@[simp] theorem push_core (s : State) (t : Turn) (e : Nat) : (s.push t).core e = s.core e := rfl
@[simp] theorem push_hartAt (s : State) (t : Turn) (e i : Nat) : (s.push t).hartAt e i = s.hartAt e i := rfl
@[simp] theorem push_hart (s : State) (t : Turn) : (s.push t).hart = s.hart := rfl
@[simp] theorem push_die (s : State) (t : Turn) (e : Nat) : (s.push t).die e = s.die e := rfl
@[simp] theorem push_tenant (s : State) (t : Turn) (e : Nat) : (s.push t).tenant e = s.tenant e := rfl
@[simp] theorem push_group? (s : State) (t : Turn) (e : Nat) : (s.push t).group? e = s.group? e := rfl

/-! The hart that executes -/

@[simp] theorem hart_setHart (s : State) (x : Hart) : (s.setHart x).hart = x :=
  hartAt_setHartAt_same s s.here s.me x

@[simp] theorem hart_modHart (s : State) (f : Hart → Hart) : (s.modHart f).hart = f s.hart :=
  hart_setHart s _

theorem hartAt_modHart_ne (s : State) {d i : Nat} (f : Hart → Hart) (n : d ≠ s.here ∨ i ≠ s.me) :
    (s.modHart f).hartAt d i = s.hartAt d i :=
  hartAt_setHartAt_ne s _ n

@[simp] theorem die_modDie_same (s : State) (d : Nat) (f : Die → Die) : (s.modDie d f).die d = f (s.die d) := by
  simp [State.die, State.modDie]

@[simp] theorem tenant_modTenant_same (s : State) (t : Nat) (f : Tenant → Tenant) :
    (s.modTenant t f).tenant t = f (s.tenant t) := by
  simp [State.tenant, State.modTenant, State.modWharf]

/-! Fields of a hart -/

@[simp] theorem setK_pc (h : Hart) (k : Nat) (v : Bool) : (h.setK k v).pc = h.pc := rfl
@[simp] theorem setK_x (h : Hart) (k : Nat) (v : Bool) : (h.setK k v).x = h.x := rfl
@[simp] theorem setK_b (h : Hart) (k : Nat) (v : Bool) : (h.setK k v).b = h.b := rfl
@[simp] theorem setK_vec (h : Hart) (k : Nat) (v : Bool) : (h.setK k v).vec = h.vec := rfl
@[simp] theorem setK_fp (h : Hart) (k : Nat) (v : Bool) : (h.setK k v).fp = h.fp := rfl
@[simp] theorem setK_lp (h : Hart) (k : Nat) (v : Bool) : (h.setK k v).lp = h.lp := rfl
@[simp] theorem setK_rc (h : Hart) (k : Nat) (v : Bool) : (h.setK k v).rc = h.rc := rfl
@[simp] theorem setK_tr (h : Hart) (k : Nat) (v : Bool) : (h.setK k v).tr = h.tr := rfl
@[simp] theorem setK_id (h : Hart) (k : Nat) (v : Bool) : (h.setK k v).id = h.id := rfl
@[simp] theorem setK_tile (h : Hart) (k : Nat) (v : Bool) : (h.setK k v).tile = h.tile := rfl
@[simp] theorem setK_ms (h : Hart) (k : Nat) (v : Bool) : (h.setK k v).ms = h.ms := rfl
@[simp] theorem setK_run (h : Hart) (k : Nat) (v : Bool) : (h.setK k v).run = h.run := rfl
@[simp] theorem setK_hole (h : Hart) (k : Nat) (v : Bool) : (h.setK k v).hole = h.hole := rfl
@[simp] theorem setB_pc (h : Hart) (b : Nat) (t : TReg) : (h.setB b t).pc = h.pc := rfl
@[simp] theorem setB_x (h : Hart) (b : Nat) (t : TReg) : (h.setB b t).x = h.x := rfl
@[simp] theorem setB_k (h : Hart) (b : Nat) (t : TReg) : (h.setB b t).k = h.k := rfl
@[simp] theorem setB_vec (h : Hart) (b : Nat) (t : TReg) : (h.setB b t).vec = h.vec := rfl
@[simp] theorem setB_fp (h : Hart) (b : Nat) (t : TReg) : (h.setB b t).fp = h.fp := rfl
@[simp] theorem setB_lp (h : Hart) (b : Nat) (t : TReg) : (h.setB b t).lp = h.lp := rfl
@[simp] theorem setB_rc (h : Hart) (b : Nat) (t : TReg) : (h.setB b t).rc = h.rc := rfl
@[simp] theorem setB_tr (h : Hart) (b : Nat) (t : TReg) : (h.setB b t).tr = h.tr := rfl
@[simp] theorem setB_id (h : Hart) (b : Nat) (t : TReg) : (h.setB b t).id = h.id := rfl
@[simp] theorem setB_tile (h : Hart) (b : Nat) (t : TReg) : (h.setB b t).tile = h.tile := rfl
@[simp] theorem setB_ms (h : Hart) (b : Nat) (t : TReg) : (h.setB b t).ms = h.ms := rfl
@[simp] theorem setB_run (h : Hart) (b : Nat) (t : TReg) : (h.setB b t).run = h.run := rfl
@[simp] theorem setB_hole (h : Hart) (b : Nat) (t : TReg) : (h.setB b t).hole = h.hole := rfl
@[simp] theorem setPc_x (h : Hart) (p : BitVec 48) : (h.setPc p).x = h.x := rfl
@[simp] theorem setPc_k (h : Hart) (p : BitVec 48) : (h.setPc p).k = h.k := rfl
@[simp] theorem setPc_b (h : Hart) (p : BitVec 48) : (h.setPc p).b = h.b := rfl
@[simp] theorem setPc_vec (h : Hart) (p : BitVec 48) : (h.setPc p).vec = h.vec := rfl
@[simp] theorem setPc_fp (h : Hart) (p : BitVec 48) : (h.setPc p).fp = h.fp := rfl
@[simp] theorem setPc_lp (h : Hart) (p : BitVec 48) : (h.setPc p).lp = h.lp := rfl
@[simp] theorem setPc_rc (h : Hart) (p : BitVec 48) : (h.setPc p).rc = h.rc := rfl
@[simp] theorem setPc_tr (h : Hart) (p : BitVec 48) : (h.setPc p).tr = h.tr := rfl
@[simp] theorem setPc_id (h : Hart) (p : BitVec 48) : (h.setPc p).id = h.id := rfl
@[simp] theorem setPc_tile (h : Hart) (p : BitVec 48) : (h.setPc p).tile = h.tile := rfl
@[simp] theorem setPc_ms (h : Hart) (p : BitVec 48) : (h.setPc p).ms = h.ms := rfl
@[simp] theorem setPc_run (h : Hart) (p : BitVec 48) : (h.setPc p).run = h.run := rfl
@[simp] theorem setPc_hole (h : Hart) (p : BitVec 48) : (h.setPc p).hole = h.hole := rfl
@[simp] theorem setV_pc (h : Hart) (v : Nat) (i : VImage) : (h.setV v i).pc = h.pc := rfl
@[simp] theorem setV_x (h : Hart) (v : Nat) (i : VImage) : (h.setV v i).x = h.x := rfl
@[simp] theorem setV_k (h : Hart) (v : Nat) (i : VImage) : (h.setV v i).k = h.k := rfl
@[simp] theorem setV_b (h : Hart) (v : Nat) (i : VImage) : (h.setV v i).b = h.b := rfl
@[simp] theorem setV_fp (h : Hart) (v : Nat) (i : VImage) : (h.setV v i).fp = h.fp := rfl
@[simp] theorem setV_lp (h : Hart) (v : Nat) (i : VImage) : (h.setV v i).lp = h.lp := rfl
@[simp] theorem setV_rc (h : Hart) (v : Nat) (i : VImage) : (h.setV v i).rc = h.rc := rfl
@[simp] theorem setV_tr (h : Hart) (v : Nat) (i : VImage) : (h.setV v i).tr = h.tr := rfl
@[simp] theorem setV_id (h : Hart) (v : Nat) (i : VImage) : (h.setV v i).id = h.id := rfl
@[simp] theorem setV_tile (h : Hart) (v : Nat) (i : VImage) : (h.setV v i).tile = h.tile := rfl
@[simp] theorem setV_ms (h : Hart) (v : Nat) (i : VImage) : (h.setV v i).ms = h.ms := rfl
@[simp] theorem setV_run (h : Hart) (v : Nat) (i : VImage) : (h.setV v i).run = h.run := rfl
@[simp] theorem setV_hole (h : Hart) (v : Nat) (i : VImage) : (h.setV v i).hole = h.hole := rfl
@[simp] theorem setSide_pc (h : Hart) (v : Nat) (i : VSide) : (h.setSide v i).pc = h.pc := rfl
@[simp] theorem setSide_x (h : Hart) (v : Nat) (i : VSide) : (h.setSide v i).x = h.x := rfl
@[simp] theorem setSide_k (h : Hart) (v : Nat) (i : VSide) : (h.setSide v i).k = h.k := rfl
@[simp] theorem setSide_b (h : Hart) (v : Nat) (i : VSide) : (h.setSide v i).b = h.b := rfl
@[simp] theorem setSide_fp (h : Hart) (v : Nat) (i : VSide) : (h.setSide v i).fp = h.fp := rfl
@[simp] theorem setSide_lp (h : Hart) (v : Nat) (i : VSide) : (h.setSide v i).lp = h.lp := rfl
@[simp] theorem setSide_rc (h : Hart) (v : Nat) (i : VSide) : (h.setSide v i).rc = h.rc := rfl
@[simp] theorem setSide_tr (h : Hart) (v : Nat) (i : VSide) : (h.setSide v i).tr = h.tr := rfl
@[simp] theorem setSide_id (h : Hart) (v : Nat) (i : VSide) : (h.setSide v i).id = h.id := rfl
@[simp] theorem setSide_tile (h : Hart) (v : Nat) (i : VSide) : (h.setSide v i).tile = h.tile := rfl
@[simp] theorem setSide_ms (h : Hart) (v : Nat) (i : VSide) : (h.setSide v i).ms = h.ms := rfl
@[simp] theorem setSide_run (h : Hart) (v : Nat) (i : VSide) : (h.setSide v i).run = h.run := rfl
@[simp] theorem setSide_hole (h : Hart) (v : Nat) (i : VSide) : (h.setSide v i).hole = h.hole := rfl
@[simp] theorem retire_x (h : Hart) (n : Nat) : (h.retire n).x = h.x := rfl
@[simp] theorem retire_k (h : Hart) (n : Nat) : (h.retire n).k = h.k := rfl
@[simp] theorem retire_b (h : Hart) (n : Nat) : (h.retire n).b = h.b := rfl
@[simp] theorem retire_vec (h : Hart) (n : Nat) : (h.retire n).vec = h.vec := rfl
@[simp] theorem retire_fp (h : Hart) (n : Nat) : (h.retire n).fp = h.fp := rfl
@[simp] theorem retire_lp (h : Hart) (n : Nat) : (h.retire n).lp = h.lp := rfl
@[simp] theorem retire_rc (h : Hart) (n : Nat) : (h.retire n).rc = h.rc := rfl
@[simp] theorem retire_tr (h : Hart) (n : Nat) : (h.retire n).tr = h.tr := rfl
@[simp] theorem retire_id (h : Hart) (n : Nat) : (h.retire n).id = h.id := rfl
@[simp] theorem retire_tile (h : Hart) (n : Nat) : (h.retire n).tile = h.tile := rfl
@[simp] theorem retire_ms (h : Hart) (n : Nat) : (h.retire n).ms = h.ms := rfl
@[simp] theorem retire_hole (h : Hart) (n : Nat) : (h.retire n).hole = h.hole := rfl
@[simp] theorem count_pc (h : Hart) : (h.count).pc = h.pc := rfl
@[simp] theorem count_x (h : Hart) : (h.count).x = h.x := rfl
@[simp] theorem count_k (h : Hart) : (h.count).k = h.k := rfl
@[simp] theorem count_b (h : Hart) : (h.count).b = h.b := rfl
@[simp] theorem count_vec (h : Hart) : (h.count).vec = h.vec := rfl
@[simp] theorem count_fp (h : Hart) : (h.count).fp = h.fp := rfl
@[simp] theorem count_lp (h : Hart) : (h.count).lp = h.lp := rfl
@[simp] theorem count_rc (h : Hart) : (h.count).rc = h.rc := rfl
@[simp] theorem count_tr (h : Hart) : (h.count).tr = h.tr := rfl
@[simp] theorem count_id (h : Hart) : (h.count).id = h.id := rfl
@[simp] theorem count_tile (h : Hart) : (h.count).tile = h.tile := rfl
@[simp] theorem count_ms (h : Hart) : (h.count).ms = h.ms := rfl
@[simp] theorem count_hole (h : Hart) : (h.count).hole = h.hole := rfl
@[simp] theorem setStq_pc (h : Hart) (l : List Pending) : (h.setStq l).pc = h.pc := rfl
@[simp] theorem setStq_x (h : Hart) (l : List Pending) : (h.setStq l).x = h.x := rfl
@[simp] theorem setStq_k (h : Hart) (l : List Pending) : (h.setStq l).k = h.k := rfl
@[simp] theorem setStq_b (h : Hart) (l : List Pending) : (h.setStq l).b = h.b := rfl
@[simp] theorem setStq_vec (h : Hart) (l : List Pending) : (h.setStq l).vec = h.vec := rfl
@[simp] theorem setStq_fp (h : Hart) (l : List Pending) : (h.setStq l).fp = h.fp := rfl
@[simp] theorem setStq_lp (h : Hart) (l : List Pending) : (h.setStq l).lp = h.lp := rfl
@[simp] theorem setStq_rc (h : Hart) (l : List Pending) : (h.setStq l).rc = h.rc := rfl
@[simp] theorem setStq_tr (h : Hart) (l : List Pending) : (h.setStq l).tr = h.tr := rfl
@[simp] theorem setStq_id (h : Hart) (l : List Pending) : (h.setStq l).id = h.id := rfl
@[simp] theorem setStq_tile (h : Hart) (l : List Pending) : (h.setStq l).tile = h.tile := rfl
@[simp] theorem setStq_run (h : Hart) (l : List Pending) : (h.setStq l).run = h.run := rfl
@[simp] theorem setStq_hole (h : Hart) (l : List Pending) : (h.setStq l).hole = h.hole := rfl
@[simp] theorem noteWritten_pc (h : Hart) (r n : Nat) : (h.noteWritten r n).pc = h.pc := rfl
@[simp] theorem noteWritten_x (h : Hart) (r n : Nat) : (h.noteWritten r n).x = h.x := rfl
@[simp] theorem noteWritten_k (h : Hart) (r n : Nat) : (h.noteWritten r n).k = h.k := rfl
@[simp] theorem noteWritten_b (h : Hart) (r n : Nat) : (h.noteWritten r n).b = h.b := rfl
@[simp] theorem noteWritten_fp (h : Hart) (r n : Nat) : (h.noteWritten r n).fp = h.fp := rfl
@[simp] theorem noteWritten_lp (h : Hart) (r n : Nat) : (h.noteWritten r n).lp = h.lp := rfl
@[simp] theorem noteWritten_rc (h : Hart) (r n : Nat) : (h.noteWritten r n).rc = h.rc := rfl
@[simp] theorem noteWritten_tr (h : Hart) (r n : Nat) : (h.noteWritten r n).tr = h.tr := rfl
@[simp] theorem noteWritten_id (h : Hart) (r n : Nat) : (h.noteWritten r n).id = h.id := rfl
@[simp] theorem noteWritten_tile (h : Hart) (r n : Nat) : (h.noteWritten r n).tile = h.tile := rfl
@[simp] theorem noteWritten_ms (h : Hart) (r n : Nat) : (h.noteWritten r n).ms = h.ms := rfl
@[simp] theorem noteWritten_run (h : Hart) (r n : Nat) : (h.noteWritten r n).run = h.run := rfl
@[simp] theorem noteWritten_hole (h : Hart) (r n : Nat) : (h.noteWritten r n).hole = h.hole := rfl
@[simp] theorem setElem_pc (h : Hart) (r n e w : Nat) : (h.setElem r n e w).pc = h.pc := rfl
@[simp] theorem setElem_x (h : Hart) (r n e w : Nat) : (h.setElem r n e w).x = h.x := rfl
@[simp] theorem setElem_k (h : Hart) (r n e w : Nat) : (h.setElem r n e w).k = h.k := rfl
@[simp] theorem setElem_b (h : Hart) (r n e w : Nat) : (h.setElem r n e w).b = h.b := rfl
@[simp] theorem setElem_fp (h : Hart) (r n e w : Nat) : (h.setElem r n e w).fp = h.fp := rfl
@[simp] theorem setElem_lp (h : Hart) (r n e w : Nat) : (h.setElem r n e w).lp = h.lp := rfl
@[simp] theorem setElem_rc (h : Hart) (r n e w : Nat) : (h.setElem r n e w).rc = h.rc := rfl
@[simp] theorem setElem_tr (h : Hart) (r n e w : Nat) : (h.setElem r n e w).tr = h.tr := rfl
@[simp] theorem setElem_id (h : Hart) (r n e w : Nat) : (h.setElem r n e w).id = h.id := rfl
@[simp] theorem setElem_tile (h : Hart) (r n e w : Nat) : (h.setElem r n e w).tile = h.tile := rfl
@[simp] theorem setElem_ms (h : Hart) (r n e w : Nat) : (h.setElem r n e w).ms = h.ms := rfl
@[simp] theorem setElem_run (h : Hart) (r n e w : Nat) : (h.setElem r n e w).run = h.run := rfl
@[simp] theorem setElem_hole (h : Hart) (r n e w : Nat) : (h.setElem r n e w).hole = h.hole := rfl
@[simp] theorem prepare_pc (h : Hart) (bt : Nat) (a : BitVec 48) : (h.prepare bt a).pc = h.pc := rfl
@[simp] theorem prepare_x (h : Hart) (bt : Nat) (a : BitVec 48) : (h.prepare bt a).x = h.x := rfl
@[simp] theorem prepare_k (h : Hart) (bt : Nat) (a : BitVec 48) : (h.prepare bt a).k = h.k := rfl
@[simp] theorem prepare_vec (h : Hart) (bt : Nat) (a : BitVec 48) : (h.prepare bt a).vec = h.vec := rfl
@[simp] theorem prepare_fp (h : Hart) (bt : Nat) (a : BitVec 48) : (h.prepare bt a).fp = h.fp := rfl
@[simp] theorem prepare_lp (h : Hart) (bt : Nat) (a : BitVec 48) : (h.prepare bt a).lp = h.lp := rfl
@[simp] theorem prepare_rc (h : Hart) (bt : Nat) (a : BitVec 48) : (h.prepare bt a).rc = h.rc := rfl
@[simp] theorem prepare_tr (h : Hart) (bt : Nat) (a : BitVec 48) : (h.prepare bt a).tr = h.tr := rfl
@[simp] theorem prepare_id (h : Hart) (bt : Nat) (a : BitVec 48) : (h.prepare bt a).id = h.id := rfl
@[simp] theorem prepare_tile (h : Hart) (bt : Nat) (a : BitVec 48) : (h.prepare bt a).tile = h.tile := rfl
@[simp] theorem prepare_ms (h : Hart) (bt : Nat) (a : BitVec 48) : (h.prepare bt a).ms = h.ms := rfl
@[simp] theorem prepare_run (h : Hart) (bt : Nat) (a : BitVec 48) : (h.prepare bt a).run = h.run := rfl
@[simp] theorem prepare_hole (h : Hart) (bt : Nat) (a : BitVec 48) : (h.prepare bt a).hole = h.hole := rfl
@[simp] theorem setVl_pc (h : Hart) (q : Nat) (t : Word) : (h.setVl q t).pc = h.pc := rfl
@[simp] theorem setVl_x (h : Hart) (q : Nat) (t : Word) : (h.setVl q t).x = h.x := rfl
@[simp] theorem setVl_k (h : Hart) (q : Nat) (t : Word) : (h.setVl q t).k = h.k := rfl
@[simp] theorem setVl_b (h : Hart) (q : Nat) (t : Word) : (h.setVl q t).b = h.b := rfl
@[simp] theorem setVl_fp (h : Hart) (q : Nat) (t : Word) : (h.setVl q t).fp = h.fp := rfl
@[simp] theorem setVl_lp (h : Hart) (q : Nat) (t : Word) : (h.setVl q t).lp = h.lp := rfl
@[simp] theorem setVl_rc (h : Hart) (q : Nat) (t : Word) : (h.setVl q t).rc = h.rc := rfl
@[simp] theorem setVl_tr (h : Hart) (q : Nat) (t : Word) : (h.setVl q t).tr = h.tr := rfl
@[simp] theorem setVl_id (h : Hart) (q : Nat) (t : Word) : (h.setVl q t).id = h.id := rfl
@[simp] theorem setVl_tile (h : Hart) (q : Nat) (t : Word) : (h.setVl q t).tile = h.tile := rfl
@[simp] theorem setVl_ms (h : Hart) (q : Nat) (t : Word) : (h.setVl q t).ms = h.ms := rfl
@[simp] theorem setVl_run (h : Hart) (q : Nat) (t : Word) : (h.setVl q t).run = h.run := rfl
@[simp] theorem setVl_hole (h : Hart) (q : Nat) (t : Word) : (h.setVl q t).hole = h.hole := rfl

@[simp] theorem setX_pc (h : Hart) (r : Nat) (w : Word) : (h.setX r w).pc = h.pc := by
  unfold Hart.setX; split <;> rfl
@[simp] theorem setX_k (h : Hart) (r : Nat) (w : Word) : (h.setX r w).k = h.k := by
  unfold Hart.setX; split <;> rfl
@[simp] theorem setX_b (h : Hart) (r : Nat) (w : Word) : (h.setX r w).b = h.b := by
  unfold Hart.setX; split <;> rfl
@[simp] theorem setX_vec (h : Hart) (r : Nat) (w : Word) : (h.setX r w).vec = h.vec := by
  unfold Hart.setX; split <;> rfl
@[simp] theorem setX_fp (h : Hart) (r : Nat) (w : Word) : (h.setX r w).fp = h.fp := by
  unfold Hart.setX; split <;> rfl
@[simp] theorem setX_lp (h : Hart) (r : Nat) (w : Word) : (h.setX r w).lp = h.lp := by
  unfold Hart.setX; split <;> rfl
@[simp] theorem setX_rc (h : Hart) (r : Nat) (w : Word) : (h.setX r w).rc = h.rc := by
  unfold Hart.setX; split <;> rfl
@[simp] theorem setX_tr (h : Hart) (r : Nat) (w : Word) : (h.setX r w).tr = h.tr := by
  unfold Hart.setX; split <;> rfl
@[simp] theorem setX_id (h : Hart) (r : Nat) (w : Word) : (h.setX r w).id = h.id := by
  unfold Hart.setX; split <;> rfl
@[simp] theorem setX_tile (h : Hart) (r : Nat) (w : Word) : (h.setX r w).tile = h.tile := by
  unfold Hart.setX; split <;> rfl
@[simp] theorem setX_ms (h : Hart) (r : Nat) (w : Word) : (h.setX r w).ms = h.ms := by
  unfold Hart.setX; split <;> rfl
@[simp] theorem setX_run (h : Hart) (r : Nat) (w : Word) : (h.setX r w).run = h.run := by
  unfold Hart.setX; split <;> rfl
@[simp] theorem setX_hole (h : Hart) (r : Nat) (w : Word) : (h.setX r w).hole = h.hole := by
  unfold Hart.setX; split <;> rfl
@[simp] theorem setM_pc (h : Hart) (r : Nat) (w : MaskBits) : (h.setM r w).pc = h.pc := by
  unfold Hart.setM; split <;> rfl
@[simp] theorem setM_x (h : Hart) (r : Nat) (w : MaskBits) : (h.setM r w).x = h.x := by
  unfold Hart.setM; split <;> rfl
@[simp] theorem setM_k (h : Hart) (r : Nat) (w : MaskBits) : (h.setM r w).k = h.k := by
  unfold Hart.setM; split <;> rfl
@[simp] theorem setM_b (h : Hart) (r : Nat) (w : MaskBits) : (h.setM r w).b = h.b := by
  unfold Hart.setM; split <;> rfl
@[simp] theorem setM_fp (h : Hart) (r : Nat) (w : MaskBits) : (h.setM r w).fp = h.fp := by
  unfold Hart.setM; split <;> rfl
@[simp] theorem setM_lp (h : Hart) (r : Nat) (w : MaskBits) : (h.setM r w).lp = h.lp := by
  unfold Hart.setM; split <;> rfl
@[simp] theorem setM_rc (h : Hart) (r : Nat) (w : MaskBits) : (h.setM r w).rc = h.rc := by
  unfold Hart.setM; split <;> rfl
@[simp] theorem setM_tr (h : Hart) (r : Nat) (w : MaskBits) : (h.setM r w).tr = h.tr := by
  unfold Hart.setM; split <;> rfl
@[simp] theorem setM_id (h : Hart) (r : Nat) (w : MaskBits) : (h.setM r w).id = h.id := by
  unfold Hart.setM; split <;> rfl
@[simp] theorem setM_tile (h : Hart) (r : Nat) (w : MaskBits) : (h.setM r w).tile = h.tile := by
  unfold Hart.setM; split <;> rfl
@[simp] theorem setM_ms (h : Hart) (r : Nat) (w : MaskBits) : (h.setM r w).ms = h.ms := by
  unfold Hart.setM; split <;> rfl
@[simp] theorem setM_run (h : Hart) (r : Nat) (w : MaskBits) : (h.setM r w).run = h.run := by
  unfold Hart.setM; split <;> rfl
@[simp] theorem setM_hole (h : Hart) (r : Nat) (w : MaskBits) : (h.setM r w).hole = h.hole := by
  unfold Hart.setM; split <;> rfl

@[simp] theorem retire_pc (h : Hart) (n : Nat) : (h.retire n).pc = h.pc + BitVec.ofNat 48 n := rfl
@[simp] theorem retire_retired (h : Hart) (n : Nat) : (h.retire n).run.retired = h.run.retired + 1 := rfl
@[simp] theorem setPc_pc (h : Hart) (p : BitVec 48) : (h.setPc p).pc = p := rfl

/-! x, k, b and m registers -/

@[simp] theorem getX_zero (h : Hart) : h.getX 0 = 0 := rfl

@[simp] theorem setX_zero (h : Hart) (w : Word) : h.setX 0 w = h := rfl

theorem getX_setX_same (h : Hart) {r : Nat} (w : Word) (n : r ≠ 0) : (h.setX r w).getX r = w := by
  simp [Hart.getX, Hart.setX, n]

theorem getX_setX_ne (h : Hart) {r q : Nat} (w : Word) (n : q ≠ r) : (h.setX r w).getX q = h.getX q := by
  unfold Hart.setX
  split
  · rfl
  · simp [Hart.getX, lookupD_insert_ne _ _ _ n]

@[simp] theorem getX_retire (h : Hart) (n r : Nat) : (h.retire n).getX r = h.getX r := rfl

@[simp] theorem getB_setB_same (h : Hart) (b : Nat) (t : TReg) : (h.setB b t).getB b = t := by
  simp [Hart.getB, Hart.setB]

theorem getB_setB_ne (h : Hart) {b c : Nat} (t : TReg) (n : c ≠ b) : (h.setB b t).getB c = h.getB c := by
  simp [Hart.getB, Hart.setB, lookupD_insert_ne _ _ _ n]

theorem getM_setM_same (h : Hart) {r : Nat} (w : MaskBits) (n : r ≠ 0) : (h.setM r w).getM r = w := by
  simp [Hart.getM, Hart.setM, n]

@[simp] theorem getV_setV_same (h : Hart) (v : Nat) (i : VImage) : (h.setV v i).getV v = i := by
  simp [Hart.getV, Hart.setV]

theorem getV_setV_ne (h : Hart) {v w : Nat} (i : VImage) (n : w ≠ v) : (h.setV v i).getV w = h.getV w := by
  simp [Hart.getV, Hart.setV, lookupD_insert_ne _ _ _ n]

end Sys2Proof.Machine
end

