-- ==== Sys2Proof/Laws/Ops.lean ====
section
/-! SUPPORT. What the operations that instructions share come to, each in one lemma. -/

namespace Sys2Proof.Machine

/-! Sequencing -/

@[simp] theorem bind_ok (a : α) (s : State) (f : α → State → Res β) : (Res.ok a s).bind f = f a s := rfl
@[simp] theorem bind_wait (n : Nat) (s : State) (f : α → State → Res β) : (Res.wait n s).bind f = .wait n s := rfl
@[simp] theorem bind_exc (e : Exc) (k : Nat) (s : State) (f : α → State → Res β) :
    (Res.exc e k s).bind f = .exc e k s := rfl
@[simp] theorem bind_contained (c : Contained) (s : State) (f : α → State → Res β) :
    (Res.contained c s).bind f = .contained c s := rfl
@[simp] theorem bind_stop (f : Fault) (g : α → State → Res β) : (Res.stop f).bind g = .stop f := rfl
@[simp] theorem raise_bind (e : Exc) (s : State) (f : α → State → Res β) : (raise e s).bind f = .exc e 0 s := rfl

@[simp] theorem finish_ok (u : Unit) (s : State) : finish (.ok u s) = .next s := rfl
@[simp] theorem finish_wait (n : Nat) (s : State) : finish (.wait n s) = .next (stall n s) := rfl
@[simp] theorem finish_exc (e : Exc) (k : Nat) (s : State) : finish (.exc e k s) = .next (trapFront e s) := rfl
@[simp] theorem finish_raise (e : Exc) (s : State) : finish (raise e s) = .next (trapFront e s) := rfl
@[simp] theorem finish_contained (c : Contained) (s : State) :
    finish (.contained c s) = .next (contain c s.here s.me s.hart.pc s) := rfl
@[simp] theorem finish_stop (f : Fault) : finish (.stop f) = .fault f := rfl

@[simp] theorem check_true (e : Exc) (s : State) : check true e s = .ok () s := rfl
@[simp] theorem check_false (e : Exc) (s : State) : check false e s = .exc e 0 s := rfl

/-! Updates of one hart after another -/

theorem insert_insert (m : AMap α) (k : Nat) (v w : α) : insert (insert m k v) k w = insert m k w := by
  induction m with
  | nil => simp [insert]
  | cons e rest ih =>
    obtain ⟨j, u⟩ := e
    simp only [insert]
    split
    · simp [insert]
    · rename_i hk
      split
      · simp [insert]
      · rename_i hj
        simp [insert, hk, hj, ih]

@[simp] theorem setCore_setCore (s : State) (c : Nat) (k l : Core) : (s.setCore c k).setCore c l = s.setCore c l := by
  simp [State.setCore, insert_insert]

@[simp] theorem modCore_modCore (s : State) (c : Nat) (f g : Core → Core) :
    (s.modCore c f).modCore c g = s.modCore c fun k => g (f k) := by
  simp [State.modCore]

@[simp] theorem setHartAt_setHartAt (s : State) (c h : Nat) (x y : Hart) :
    (s.setHartAt c h x).setHartAt c h y = s.setHartAt c h y := by
  simp [State.setHartAt, Core.setHart, insert_insert]

@[simp] theorem modHartAt_modHartAt (s : State) (c h : Nat) (f g : Hart → Hart) :
    (s.modHartAt c h f).modHartAt c h g = s.modHartAt c h fun x => g (f x) := by
  simp [State.modHartAt]

@[simp] theorem modHart_modHart (s : State) (f g : Hart → Hart) :
    (s.modHart f).modHart g = s.modHart fun x => g (f x) := by
  show ((s.setHart (f s.hart)).setHart (g (s.setHart (f s.hart)).hart)) = _
  rw [hart_setHart]
  exact setHartAt_setHartAt s s.here s.me _ _

theorem modHartAt_self (s : State) (f : Hart → Hart) : s.modHartAt s.here s.me f = s.modHart f := rfl

@[simp] theorem retireHere_modHart (s : State) (n : Nat) (f : Hart → Hart) :
    retireHere n (s.modHart f) = s.modHart fun x => (f x).retire n := by
  simp [retireHere]

/-! Waits and checks at the front -/

/-- The front waits for no register that is owed none. -/
theorem awaitRegs_settled {xs ks : List Nat} {s : State} (h : Settled xs ks s) : awaitRegs xs ks s = .ok () s := by
  have hr : (xs.any fun r => s.hart.returnDue r) = false := List.any_eq_false.2 fun r hr => by
    have := h.1 r hr
    simp only [Hart.pendingX, Bool.or_eq_false_iff] at this
    simp [this.1]
  have ha : (xs.any fun r => s.hart.atomicDue r) = false := List.any_eq_false.2 fun r hr => by
    have := h.1 r hr
    simp only [Hart.pendingX, Bool.or_eq_false_iff] at this
    simp [this.2]
  have hk : (ks.any fun k => s.hart.pendingK k) = false := List.any_eq_false.2 fun r hr => by simp [h.2 r hr]
  simp [awaitRegs, hr, ha, hk]

/-- One that the return queue owes a value makes the front wait with reason 3. -/
theorem awaitRegs_returns {xs ks : List Nat} {s : State}
    (h : ((xs.any fun r => s.hart.returnDue r) || ks.any fun k => s.hart.pendingK k) = true) :
    awaitRegs xs ks s = .wait 3 s := by
  unfold awaitRegs
  rw [if_pos h]

/-- One that only an AMO owes its old value makes it wait with reason 15. -/
theorem awaitRegs_atomic {xs ks : List Nat} {s : State}
    (h : ((xs.any fun r => s.hart.returnDue r) || ks.any fun k => s.hart.pendingK k) = false) (ha : ¬ Settled xs ks s) :
    awaitRegs xs ks s = .wait 15 s := by
  unfold awaitRegs
  rw [if_neg (by simp [h]), if_pos]
  by_contra hc
  apply ha
  simp only [Bool.or_eq_false_iff, List.any_eq_false, Bool.not_eq_true, List.any_eq_true, not_exists, not_and] at h hc
  exact ⟨fun r hr => by simp [Hart.pendingX, h.1 r hr, hc r hr], h.2⟩

/-- The front waits for a register that is owed, with the reason of what owes it. -/
theorem awaitRegs_owed {xs ks : List Nat} {s : State} (h : ¬ Settled xs ks s) :
    awaitRegs xs ks s = .wait (owedReason xs ks s) s := by
  unfold owedReason
  split
  · exact awaitRegs_returns ‹_›
  · exact awaitRegs_atomic (Bool.eq_false_iff.2 ‹_›) h

theorem settled_mono {xs ks ys ls : List Nat} {s : State} (h : Settled xs ks s) (hx : ys ⊆ xs) (hk : ls ⊆ ks) :
    Settled ys ls s :=
  ⟨fun r hr => h.1 r (hx hr), fun r hr => h.2 r (hk hr)⟩

@[simp] theorem settled_modHart_iff (s : State) (f : Hart → Hart) (xs ks : List Nat)
    (hv : (f s.hart).vec = s.hart.vec) (hq : (f s.hart).ms.stq = s.hart.ms.stq) :
    Settled xs ks (s.modHart f) ↔ Settled xs ks s := by
  simp [Settled, Hart.pendingX, Hart.returnDue, Hart.atomicDue, Hart.pendingK, hv, hq]

theorem noFerry_user {s : State} (i : Instr) (h : isFerry s.me = false) : noFerry i s = .ok () s := by
  simp [noFerry, h]

theorem needsS_sup {s : State} (i : Instr) (h : s.hart.tr.sup = true) : needsS i s = .ok () s := by
  simp [needsS, h]

theorem needsS_ferry {s : State} (i : Instr) (h : isFerry s.me = true) : needsS i s = .ok () s := by
  simp [needsS, h]

/-- An instruction of S at U raises PRIV on a user hart. -/
theorem needsS_user {s : State} (i : Instr) (h : s.hart.tr.sup = false) (hu : isFerry s.me = false) :
    needsS i s = .exc (privExc i) 0 s := by
  simp [needsS, h, hu]

theorem waitVector_empty {s : State} (n : Nat) (h : s.hart.vec.viq = []) : waitVector n s = .ok () s := by
  simp [waitVector, h]

theorem followVector_empty {s : State} (n : Nat) (p : VEntry → Bool) (h : s.hart.vec.viq = []) :
    followVector n p s = .ok () s := by
  simp [followVector, Hart.anyPart, h]

theorem due_empty {x : Hart} (h : x.vec.viq = []) : x.due = [] := by
  simp [Hart.due, h]

theorem followed_empty {s : State} (p : List VEntry → VEntry → Bool) (h : s.hart.vec.viq = []) : followed p s = 0 := by
  simp [followed, due_empty h]

theorem storeFollows_empty {s : State} (p n : Nat) (h : s.hart.vec.viq = []) : storeFollows p n s = 0 := followed_empty _ h

theorem releaseFollows_empty {s : State} (h : s.hart.vec.viq = []) : releaseFollows s = 0 := followed_empty _ h

theorem outsideBatch_idle {s : State} (h : s.hart.rc.act = false) : outsideBatch s = .ok () s := by
  simp [outsideBatch, h]

theorem noWindow_none {s : State} (h : s.hart.ms.window = none) : noWindow s = .ok () s := by
  simp [noWindow, h]

/-- A scalar instruction with nothing owed writes x[d] and retires. -/
theorem scalarOp_settled {n d : Nat} {srcs : List Nat} {f : Hart → Word} {s : State} (h : Settled (d :: srcs) [] s) :
    scalarOp n d srcs f s = .next (s.modHart fun x => (x.setX d (f s.hart)).retire n) := by
  simp [scalarOp, awaitRegs_settled h, writeX]

/-- Everything that a scalar instruction can do: retire with its result, or wait. -/
theorem scalarOp_cases (n d : Nat) (srcs : List Nat) (f : Hart → Word) (s : State) :
    scalarOp n d srcs f s = .next (s.modHart fun x => (x.setX d (f s.hart)).retire n) ∨
      scalarOp n d srcs f s = .next (stall (owedReason (d :: srcs) [] s) s) := by
  by_cases h : Settled (d :: srcs) [] s
  · exact .inl (scalarOp_settled h)
  · exact .inr (by simp [scalarOp, awaitRegs_owed h])

/-- An instruction that writes k[d], with nothing owed. -/
theorem kOp_settled {k : KReg} {xs ks : List Nat} {f : Hart → Bool} {s : State} (h : Settled xs (k.toNat :: ks) s) :
    kOp k xs ks f s = .next (s.modHart fun x => (x.setK k.toNat (f x)).retire 4) := by
  simp [kOp, awaitRegs_settled h]

/-! Only the current hart changes -/

theorem OnlyHart.modHart (s : State) (f : Hart → Hart) : OnlyHart (f s.hart) s (s.modHart f) where
  hart := hart_modHart s f
  here := rfl
  me := rfl
  others := fun _ _ n => hartAt_modHart_ne s f n
  cores := fun c => by
    by_cases hc : c = s.here
    · subst hc
      show { (s.setCore s.here _).core s.here with harts := [] } = _
      rw [core_setCore_same]
      rfl
    · show { (s.setCore s.here _).core c with harts := [] } = _
      rw [core_setCore_ne _ _ hc]
  mem := rfl
  poison := rfl
  dies := rfl
  wharf := rfl
  host := rfl
  agenda := rfl

theorem OnlyHart.modHart_eq {s : State} {f : Hart → Hart} {h : Hart} (e : h = f s.hart) : OnlyHart h s (s.modHart f) := by
  subst e
  exact OnlyHart.modHart s f

theorem OnlyHart.refl (s : State) : OnlyHart s.hart s s :=
  ⟨rfl, rfl, rfl, fun _ _ _ => rfl, fun _ => rfl, rfl, rfl, rfl, rfl, rfl, rfl⟩

theorem OnlyHart.trans {g h : Hart} {s t u : State} (a : OnlyHart g s t) (b : OnlyHart h t u) : OnlyHart h s u where
  hart := b.hart
  here := b.here.trans a.here
  me := b.me.trans a.me
  others := fun c n hn => by
    have e1 : t.here = s.here := by simp [State.here, a.here]
    have e2 : t.me = s.me := by simp [State.me, a.me]
    rw [b.others c n (by rw [e1, e2]; exact hn), a.others c n hn]
  cores := fun c => (b.cores c).trans (a.cores c)
  mem := b.mem.trans a.mem
  poison := b.poison.trans a.poison
  dies := b.dies.trans a.dies
  wharf := b.wharf.trans a.wharf
  host := b.host.trans a.host
  agenda := b.agenda.trans a.agenda

theorem OnlyHart.then {h : Hart} {s t : State} (a : OnlyHart h s t) (f : Hart → Hart) :
    OnlyHart (f h) s (t.modHart f) := by
  have b := OnlyHart.modHart t f
  rw [a.hart] at b
  exact a.trans b

theorem OnlyHart.hartAt {h : Hart} {s t : State} (a : OnlyHart h s t) : t.hartAt s.here s.me = h := by
  have e := a.hart
  unfold State.hart State.here State.me at e
  rw [a.here, a.me] at e
  exact e

theorem OnlyHart.landing {h : Hart} {s t : State} (a : OnlyHart h s t) (c : Nat) : (t.core c).land = (s.core c).land := by
  have := congrArg Core.land (a.cores c)
  exact this

/-! A hart with nothing in flight -/

theorem sweep_empty {c : Nat} {s : State} (h : (s.core c).land.entries = []) : sweep c s = s := by
  simp [sweep, Core.entries, h]

theorem settlePoison_empty {c : Nat} {s : State} (h : (s.core c).land.entries = []) : settlePoison c s = s := by
  simp [settlePoison, Core.entries, h]

theorem hart_setStq_self (x : Hart) (h : x.ms.stq = []) : x.setStq [] = x := by
  unfold Hart.setStq
  rw [← h]

/-- A hart with no uncommitted store commits nothing. -/
theorem drain_nothing {s : State} (hs : s.hart.ms.stq = []) (hl : (s.core s.here).land.entries = []) :
    OnlyHart s.hart s (drain s.here s.me s) := by
  have hq : (s.hartAt s.here s.me).ms.stq = [] := hs
  unfold drain
  simp only [hq, commitAll]
  split
  · exact OnlyHart.refl s
  · have a := OnlyHart.modHart s fun x => x.setStq []
    have e : s.hart.setStq [] = s.hart := hart_setStq_self _ hs
    simp only [e] at a
    rw [modHartAt_self, sweep_empty]
    · exact a
    · rw [a.landing]
      exact hl

theorem drain_idle {s : State} (h : Idle s) : OnlyHart s.hart s (drain s.here s.me s) := drain_nothing h.stq h.landing

theorem Idle.of_onlyHart {s t : State} (h : Idle s) (a : OnlyHart s.hart s t) : Idle t where
  user := by have := h.user; simpa [State.me, a.me] using this
  viq := by rw [a.hart]; exact h.viq
  held := by rw [a.hart]; exact h.held
  stq := by rw [a.hart]; exact h.stq
  landing := by
    have e : t.here = s.here := by simp [State.here, a.here]
    rw [e, a.landing]
    exact h.landing

theorem Idle.settled {s : State} (h : Idle s) (xs ks : List Nat) : Settled xs ks s := by
  simp [Settled, Hart.pendingX, Hart.returnDue, Hart.atomicDue, Hart.pendingK, h.viq, h.held, h.stq]

/-- The settle of a hart with nothing in flight. -/
theorem settleHere_idle {s : State} (h : Idle s) : ∃ t, settleHere s = .ok () t ∧ OnlyHart s.hart s t := by
  have hd := drain_idle h
  have e1 := hd.hartAt
  refine ⟨_, ?_, hd⟩
  unfold settleHere settleAll
  simp only [e1, h.stq]
  have he : entriesOf s.here s.me s = [] := by simp [entriesOf, Core.entries, h.landing]
  have he' : entriesOf s.here s.me (drain s.here s.me s) = [] := by
    simp [entriesOf, Core.entries, hd.landing, h.landing]
  simp [he, he', raiseDeferred, rootsIn, oldest]

/-- A release of a hart with nothing in flight. -/
theorem releaseHere_idle {s : State} (n : Nat) (h : Idle s) : ∃ t, releaseHere n s = .ok () t ∧ OnlyHart s.hart s t := by
  have hd := drain_idle h
  have e1 := hd.hartAt
  have e2 : (drain s.here s.me s).hart = s.hart := hd.hart
  exact ⟨_, by simp [releaseHere, e2, h.stq], hd⟩

theorem rootsOf_nil (c : Nat) (s : State) : rootsOf c [] s = [] := by
  unfold rootsOf
  generalize indices 256 = l
  induction l with
  | nil => rfl
  | cons a l ih => exact ih

/-- A fence of a hart with nothing in flight. -/
theorem fenceStores_idle {s : State} (n : Nat) (h : Idle s) : ∃ t, fenceStores n s = .ok () t ∧ OnlyHart s.hart s t := by
  have hd := drain_idle h
  refine ⟨_, ?_, hd⟩
  have e : (drain s.here s.me s).hart = s.hart := hd.hart
  unfold fenceStores
  generalize drain s.here s.me s = d at hd
  have b : blockedBy d.here d.hart.ms.stq d = [] := by
    rw [hd.hart, h.stq]
    rfl
  simp only [b, rootsOf_nil]
  rw [hd.hart, h.stq]
  rfl

end Sys2Proof.Machine
end

