-- ==== Sys2Proof/Laws/Translation.lean ====
section
/-! SUPPORT. What a translation and a performed store change, each in one lemma. -/

namespace Sys2Proof.Machine

/-! Waking -/

theorem lookup_mapValues (f : Nat → α → α) (m : AMap α) (k : Nat) :
    lookup (mapValues f m) k = (lookup m k).map (f k) := by
  induction m with
  | nil => rfl
  | cons e rest ih =>
    obtain ⟨j, v⟩ := e
    simp only [mapValues, List.map_cons, lookup]
    split
    · rename_i h
      subst h
      rfl
    · exact ih

/-- A function that keeps the default value may be taken out of a lookup. -/
theorem lookupD_mapValues (f : Nat → α → α) (m : AMap α) (k : Nat) (d : α) (h : f k d = d) :
    lookupD (mapValues f m) k d = f k (lookupD m k d) := by
  unfold lookupD
  rw [lookup_mapValues]
  cases lookup m k with
  | none => exact h.symm
  | some v => rfl

/-- From `s` to `t` only memory, TLBs, constant caches, page heat, and the wake-ups of waiting harts differ. -/
structure Walked (s t : State) : Prop where
  harts : ∀ c n, (s.hartAt c n).run.wait = none → t.hartAt c n = s.hartAt c n
  cores : ∀ c, { t.core c with harts := [], tlb := [], ccache := [] } = { s.core c with harts := [], tlb := [], ccache := [] }
  here : t.curCore = s.curCore
  me : t.curHart = s.curHart
  poison : t.poison = s.poison
  wharf : t.wharf = s.wharf
  host : t.host = s.host
  agenda : t.agenda = s.agenda
  input : t.input = s.input
  sound : s.mem.wf = true → t.mem.wf = true

theorem Walked.refl (s : State) : Walked s s :=
  ⟨fun _ _ _ => rfl, fun _ => rfl, rfl, rfl, rfl, rfl, rfl, rfl, rfl, id⟩

theorem Walked.trans {s t u : State} (a : Walked s t) (b : Walked t u) : Walked s u where
  harts := fun c n h => by
    have e := a.harts c n h
    rw [b.harts c n (by rw [e]; exact h), e]
  cores := fun c => (b.cores c).trans (a.cores c)
  here := b.here.trans a.here
  me := b.me.trans a.me
  poison := b.poison.trans a.poison
  wharf := b.wharf.trans a.wharf
  host := b.host.trans a.host
  agenda := b.agenda.trans a.agenda
  input := b.input.trans a.input
  sound := fun h => b.sound (a.sound h)

/-- The hart that executes is as it was, when it does not wait. -/
theorem Walked.hart {s t : State} (a : Walked s t) (h : s.hart.run.wait = none) : t.hart = s.hart := by
  unfold State.hart State.here State.me
  rw [a.here, a.me]
  exact a.harts _ _ h

theorem Walked.land {s t : State} (a : Walked s t) (c : Nat) : (t.core c).land = (s.core c).land :=
  have e := congrArg Core.land (a.cores c)
  e

/-- A hart with its WAIT woken when it waits on one of the lines. -/
def Hart.woken (places : List Nat) (h : Hart) : Hart :=
  match h.run.wait with
  | none => h
  | some w =>
    if places.any fun p => lineOf p == lineOf w.place then
      { h with run := { h.run with wait := some { w with hit := true } } }
    else h

theorem wake_core (places : List Nat) (s : State) (c : Nat) :
    (wake places s).core c =
      { s.core c with harts := mapValues (fun _ => Hart.woken places) (s.core c).harts } := by
  unfold wake State.core
  simp only
  rw [lookupD_mapValues _ _ _ _ rfl]
  rfl

/-- Waking changes no hart that does not wait. -/
theorem wake_hartAt (places : List Nat) (s : State) (c n : Nat) (h : (s.hartAt c n).run.wait = none) :
    (wake places s).hartAt c n = s.hartAt c n := by
  unfold State.hartAt
  rw [wake_core]
  unfold Core.hart
  simp only
  rw [lookupD_mapValues _ _ _ _ rfl]
  have e : (lookupD (s.core c).harts n Hart.reset).run.wait = none := h
  show Hart.woken places _ = _
  unfold Hart.woken
  rw [e]

theorem wholeLines_short {places : List Nat} (h : places.length < 64) : wholeLines places = [] := by
  simp [wholeLines, h]

/-- A store of less than a line performs. -/
theorem performCells_walked (cells : List StoreCell) (s : State) (h : cells.length < 64) : Walked s (performCells cells s) where
  harts := fun c n hn => by
    unfold performCells
    exact wake_hartAt _ _ c n hn
  cores := fun c => by
    unfold performCells
    simp only [wake_core]
    rfl
  here := rfl
  me := rfl
  poison := by
    show s.poison.filter _ = s.poison
    rw [wholeLines_short (by simpa using h)]
    simp
  wharf := rfl
  host := rfl
  agenda := rfl
  input := rfl
  sound := performCells_wf cells s

theorem modCore_tlb_walked (s : State) (c : Nat) (l : Core → List TlbEntry) :
    Walked s (s.modCore c fun k => { k with tlb := l k }) where
  harts := fun d n _ => by
    by_cases e : d = c
    · subst e
      simp [State.hartAt, Core.hart]
    · unfold State.hartAt
      rw [core_modCore_ne _ _ e]
  cores := fun d => by
    by_cases e : d = c
    · subst e
      simp
    · rw [core_modCore_ne _ _ e]
  here := rfl
  me := rfl
  poison := rfl
  wharf := rfl
  host := rfl
  agenda := rfl
  input := rfl
  sound := id

theorem modCore_ccache_walked (s : State) (c : Nat) (l : Core → AMap (List Byte)) :
    Walked s (s.modCore c fun k => { k with ccache := l k }) where
  harts := fun d n _ => by
    by_cases e : d = c
    · subst e
      simp [State.hartAt, Core.hart]
    · unfold State.hartAt
      rw [core_modCore_ne _ _ e]
  cores := fun d => by
    by_cases e : d = c
    · subst e
      simp
    · rw [core_modCore_ne _ _ e]
  here := rfl
  me := rfl
  poison := rfl
  wharf := rfl
  host := rfl
  agenda := rfl
  input := rfl
  sound := id

theorem modDie_walked (s : State) (d : Nat) (f : Die → Die) : Walked s (s.modDie d f) :=
  ⟨fun _ _ _ => rfl, fun _ => rfl, rfl, rfl, rfl, rfl, rfl, rfl, rfl, id⟩

theorem heldInTlbs_walked (e : TlbEntry) (c : Nat) (s : State) : Walked s (heldInTlbs e c s) := by
  unfold heldInTlbs
  exact (modCore_tlb_walked s c _).trans (modDie_walked _ _ _)

/-- All that a part of a translation can do: a result, an exception with nothing changed, a contained error, or a stop at an address
that does not exist. -/
def Translates {α : Type} (s : State) (r : Res α) : Prop :=
  (∃ e t, r = .ok e t ∧ Walked s t) ∨ (∃ x, r = .exc x 0 s) ∨ (∃ c t, r = .contained c t ∧ Walked s t) ∨
    r = .stop .noSuchAddress

theorem Translates.ok {α : Type} {s t : State} (e : α) (w : Walked s t) : Translates s (.ok e t) := .inl ⟨e, t, rfl, w⟩
theorem Translates.exc {α : Type} (s : State) (x : Exc) : Translates s (.exc x 0 s : Res α) := .inr (.inl ⟨x, rfl⟩)

theorem reachable_cases (core p : Nat) (s : State) :
    reachable core p s = .ok () s ∨ (∃ c, reachable core p s = .contained c s) ∨
      reachable core p s = .stop .noSuchAddress := by
  unfold reachable
  simp only
  repeat' split
  all_goals first
    | exact .inl rfl
    | exact .inr (.inl ⟨_, rfl⟩)
    | exact .inr (.inr rfl)

/-- What is done at an address that can be reached. -/
theorem Translates.reach {α : Type} {s t : State} (v : Walked s t) (core p : Nat) (f : Unit → State → Res α)
    (h : Translates s (f () t)) : Translates s ((reachable core p t).bind f) := by
  rcases reachable_cases core p t with e | ⟨c, e⟩ | e <;> rw [e]
  · exact h
  · exact .inr (.inr (.inl ⟨c, t, rfl, v⟩))
  · exact .inr (.inr (.inr rfl))

theorem walk_walked (cx : Ctx) (k : Access) (va elem : Nat) (levels : List Nat) (node mt : Nat) (s : State) :
    Translates s (walk cx k va elem node mt s levels) := by
  induction levels generalizing node mt with
  | nil => exact .exc s _
  | cons lvl rest ih =>
    unfold walk
    refine .reach (.refl s) _ _ _ ?_
    simp only
    split
    · exact .exc s _
    · split
      · split
        · exact .exc s _
        · exact ih _ _
      · split
        · exact .exc s _
        · split
          · exact .exc s _
          · refine .ok _ ?_
            by_cases hn : word (readNat s.mem (paPlace mt (node * 4096 + 8 * bits va (39 - 9 * lvl) 9)) 8) ||| 0x20 |||
                (if k.writes then 0x40 else 0) = word (readNat s.mem (paPlace mt (node * 4096 + 8 * bits va (39 - 9 * lvl) 9)) 8)
            · rw [if_pos hn]
              exact Walked.refl s
            · rw [if_neg hn]
              exact performCells_walked _ _ (by simp [cellsOf, indices])

/-- A leaf that has been found is held in the TLBs. -/
theorem Translates.held {s : State} {r : Res TlbEntry} (h : Translates s r) (c : Nat) :
    Translates s (r.bind fun e s => .ok e (heldInTlbs e c s)) := by
  rcases h with ⟨e, t, rfl, v⟩ | ⟨x, rfl⟩ | ⟨d, t, rfl, v⟩ | rfl
  · exact .inl ⟨_, _, rfl, v.trans (heldInTlbs_walked e c t)⟩
  · exact .inr (.inl ⟨x, rfl⟩)
  · exact .inr (.inr (.inl ⟨d, t, rfl, v⟩))
  · exact .inr (.inr (.inr rfl))

/-- The leaf of an address. -/
theorem leafOf_walked (cx : Ctx) (k : Access) (va : Word) (elem : Nat) (s : State) : Translates s (leafOf cx k va elem s) := by
  have hw := (walk_walked cx k va.toNat elem [0, 1, 2, 3] (wbits cx.ptbase 12 40) (wbits cx.ptbase 0 2) s).held cx.core
  unfold leafOf
  simp only
  generalize ((walk cx k va.toNat elem (wbits cx.ptbase 12 40) (wbits cx.ptbase 0 2) s [0, 1, 2, 3]).bind fun e s =>
    .ok e (heldInTlbs e cx.core s)) = r at hw ⊢
  have hu : ∀ e : TlbEntry, Translates s (match leafRefuses e.pte k cx.sup with
      | some code => Res.exc (pageExc code k va.toNat elem e.level e.pte) 0 s
      | none => if k.writes && !e.pte.getLsbD 6 then r else .ok e s) := by
    intro e
    split
    · exact .exc s _
    · split
      · exact hw
      · exact .ok _ (.refl s)
  split
  · exact .exc s _
  · split
    · exact hu _
    · split
      · exact hu _
      · exact hw

/-- Everything that a translation can do: a place, an exception with nothing changed, a contained error, or a stop. -/
theorem translate_cases (cx : Ctx) (k : Access) (va : Word) (elem : Nat) (s : State) :
    Translates s (translate cx k va elem s) := by
  have hl := leafOf_walked cx k va elem s
  have tail : ∀ e p (t : State), Walked s t →
      Translates s ((reachable cx.core p t).bind fun _ s => .ok (p, e) s : Res (Nat × TlbEntry)) :=
    fun e p t w => .reach w _ _ _ (.ok _ w)
  unfold translate
  generalize leafOf cx k va elem s = r at hl
  rcases hl with ⟨e, t, rfl, w⟩ | ⟨x, rfl⟩ | ⟨c, t, rfl, w⟩ | rfl
  · rw [bind_ok]
    exact tail e (paPlace (wbits e.pte 9 2) (physical e va.toNat)) t w
  · exact .exc s x
  · exact .inr (.inr (.inl ⟨c, t, rfl, w⟩))
  · exact .inr (.inr (.inr rfl))

/-- A translation that gives a place. -/
theorem translate_walked {cx : Ctx} {k : Access} {va : Word} {elem : Nat} {s t : State} {r : Nat × TlbEntry}
    (h : translate cx k va elem s = .ok r t) : Walked s t := by
  rcases translate_cases cx k va elem s with ⟨_, _, h', w⟩ | ⟨_, h'⟩ | ⟨_, _, h', _⟩ | h' <;> rw [h] at h' <;> cases h'
  exact w

end Sys2Proof.Machine
end

