-- ==== Sys2Proof/Laws/Stores.lean ====
section
/-! SUPPORT. What a store that commits at once changes. -/

namespace Sys2Proof.Machine

/-- The bytes of a number, stored from a place upwards, are read back. -/
theorem readPlace_cellsOf {m : Memory} (hm : m.wf = true) (p n w i : Nat) (hi : i < n) :
    readPlace ((cellsOf p n w).foldl (fun m c =>
      writePlace m c.place ((readPlace m c.place &&& ~~~c.mask) ||| (c.data &&& c.mask))) m) (p + i) =
      BitVec.ofNat 8 (w / 256 ^ i) := by
  induction n with
  | zero => omega
  | succ n ih =>
    have hs : cellsOf p (n + 1) w = cellsOf p n w ++ [⟨p + n, BitVec.ofNat 8 (w / 256 ^ n), 0xFF⟩] := by
      simp [cellsOf, indices, List.range_succ]
    rw [hs, List.foldl_append]
    simp only [List.foldl_cons, List.foldl_nil]
    have hb : ∀ b v : Byte, (b &&& ~~~(0xFF : Byte)) ||| (v &&& 0xFF) = v := by
      intro b v
      rw [show (0xFF : Byte) = BitVec.allOnes 8 from rfl, BitVec.not_allOnes, BitVec.and_zero, BitVec.zero_or,
        BitVec.and_allOnes]
    rw [hb]
    by_cases e : i = n
    · subst e
      exact readPlace_writePlace_same _ _
        (foldl_writePlace_wf _ (fun m c => (readPlace m c.place &&& ~~~c.mask) ||| (c.data &&& c.mask)) hm)
    · rw [readPlace_writePlace_ne _ _ (by omega)]
      exact ih (by omega)

theorem mem_performNat (p n w : Nat) (s : State) : (performNat p n w s).mem = (cellsOf p n w).foldl (fun m c =>
    writePlace m c.place ((readPlace m c.place &&& ~~~c.mask) ||| (c.data &&& c.mask))) s.mem := rfl

theorem cellsOf_place {p n w : Nat} {c : StoreCell} (h : c ∈ cellsOf p n w) : p ≤ c.place ∧ c.place < p + n := by
  simp only [cellsOf, indices, List.mem_map, List.mem_range] at h
  obtain ⟨i, hi, rfl⟩ := h
  exact ⟨Nat.le_add_right _ _, Nat.add_lt_add_left hi p⟩

/-- A number stored is read back byte by byte, and leaves every other place alone. -/
theorem performNat_reads {s : State} (hm : s.mem.wf = true) (p n w : Nat) :
    (∀ i, i < n → readPlace (performNat p n w s).mem (p + i) = BitVec.ofNat 8 (w / 256 ^ i)) ∧
      ∀ q, q < p ∨ p + n ≤ q → readPlace (performNat p n w s).mem q = readPlace s.mem q := by
  refine ⟨fun i hi => ?_, fun q hq => ?_⟩
  · rw [mem_performNat]
    exact readPlace_cellsOf hm p n w i hi
  · refine readPlace_performCells_ne _ _ fun c hc => ?_
    have := cellsOf_place hc
    omega

theorem updateConst_walked (c : Nat) (cells : List StoreCell) (s : State) : Walked s (updateConst c cells s) := by
  unfold updateConst
  split
  · exact Walked.refl s
  · exact modCore_ccache_walked s c _

theorem updateConst_mem (c : Nat) (cells : List StoreCell) (s : State) : (updateConst c cells s).mem = s.mem := by
  unfold updateConst
  split <;> rfl

/-- A store element of less than a line, with no slot to fill, commits. -/
theorem commit_walked (c : Nat) {P : Pending} {p n w : Nat} (hc : P.cells = cellsOf p n w) (hf : P.fill = none) (hk : P.cleans = []) (s : State)
    (hn : n < 64) (h0 : 0 < n) : Walked s (commit c P s) ∧ (commit c P s).mem = (performNat p n w s).mem := by
  have e : (cellsOf p n w).isEmpty = false := by
    cases n with
    | zero => omega
    | succ n => simp [cellsOf, indices, List.range_succ]
  unfold commit
  simp only [hc, hf, hk, cleanLines, List.isEmpty_nil, if_true, e, Bool.false_eq_true, if_false]
  exact ⟨(performCells_walked _ s (by simpa [cellsOf, indices] using hn)).trans (updateConst_walked _ _ _), updateConst_mem _ _ _⟩

/-- A store of a hart with nothing in flight, whose stores commit at once, performs at once. -/
theorem enqueueFront_walked {s : State} (h : Idle s) (hl : s.hart.vec.lag = false) (hw : s.hart.run.wait = none)
    {Q : Pending} {p n w : Nat} (hc : Q.cells = cellsOf p n w) (hh : Q.holes = []) (hf : Q.fill = none)
    (hg : Q.again = false) (hk : Q.cleans = []) (ha : Q.amo = none) (hn : n < 64) (h0 : 0 < n) :
    Walked s (enqueueFront s.here s.me 0 Q s) ∧ (enqueueFront s.here s.me 0 Q s).mem = (performNat p n w s).mem := by
  let P : Pending := { Q with after := 0 }
  have hq : s.hart.ms.stq = [] := h.stq
  let s1 := s.modHart fun x => x.setStq [P]
  have e1 : s.modHartAt s.here s.me (fun x => x.setStq (x.ms.stq ++
      [{ Q with after := Nat.max 0 (lastAfter x.ms.stq) }])) = s1 := by
    show s.setHart _ = s.setHart _
    have : (s.hartAt s.here s.me).ms.stq = [] := hq
    simp only [this]
    rfl
  have hs1 : s1.hartAt s.here s.me = s.hart.setStq [P] := hart_modHart s _
  obtain ⟨w1, m1⟩ := commit_walked s.here (P := P) hc hf hk s1 hn h0
  let s2 := commit s.here P s1
  have hs2 : s2.hartAt s.here s.me = s.hart.setStq [P] := by
    rw [w1.harts s.here s.me (by rw [hs1]; exact hw), hs1]
  have e2 : enqueueFront s.here s.me 0 Q s = s2.modHartAt s.here s.me fun x => x.setStq [] := by
    unfold enqueueFront
    rw [e1]
    unfold drain
    simp only [hs1]
    rw [show (s.hart.setStq [P]).vec.lag = false from hl]
    simp only [Bool.false_eq_true, if_false]
    rw [show (s.hart.setStq [P]).ms.stq = [P] from rfl]
    have hr : retranslate s.here P s1 = (P, s1) := by
      unfold retranslate
      simp only [show P.again = false from hg, Bool.false_eq_true, if_false]
      simp [P, hg]
    have hc : commitAll s.here s.me [P] s1 = ([], s2) := by
      simp [commitAll, hr, Pending.refused, show P.amo = none from ha, show P.holes = [] from hh, show P.after = 0 from rfl, show P.again = false from hg, s2]
    rw [hc]
    refine sweep_empty ?_
    have hh : ((s2.modHartAt s.here s.me fun x => x.setStq []).core s.here).land = (s.core s.here).land := by
      unfold State.modHartAt State.setHartAt
      rw [core_setCore_same]
      show (s2.core s.here).land = _
      rw [w1.land]
      unfold s1 State.modHart State.setHart State.setHartAt
      rw [core_setCore_same]
      rfl
    rw [hh]
    exact h.landing
  rw [e2]
  have hfin : (s.hart.setStq [P]).setStq [] = s.hart := hart_setStq_self s.hart hq
  refine ⟨⟨?_, ?_, w1.here, w1.me, w1.poison, w1.wharf, w1.host, w1.agenda, w1.input, w1.sound⟩, ?_⟩
  · intro d i hi
    by_cases k : d = s.here ∧ i = s.me
    · obtain ⟨rfl, rfl⟩ := k
      rw [hartAt_modHartAt_same, hs2, hfin]
      rfl
    · have k' : d ≠ s.here ∨ i ≠ s.me := by omega
      have e : s1.hartAt d i = s.hartAt d i := hartAt_modHart_ne s _ k'
      rw [hartAt_modHartAt_ne _ _ k', w1.harts d i (by rw [e]; exact hi), e]
  · intro d
    have c1 := w1.cores d
    by_cases k : d = s.here
    · subst k
      unfold State.modHartAt State.setHartAt
      rw [core_setCore_same]
      refine Eq.trans ?_ (c1.trans ?_)
      · rfl
      · unfold s1 State.modHart State.setHart State.setHartAt
        rw [core_setCore_same]
        rfl
    · unfold State.modHartAt State.setHartAt
      rw [core_setCore_ne _ _ k]
      refine c1.trans ?_
      unfold s1 State.modHart State.setHart State.setHartAt
      rw [core_setCore_ne _ _ k]
  · exact m1

end Sys2Proof.Machine
end

