-- ==== Sys2Proof/Laws/Vector.lean ====
section
/-! SUPPORT. A vector instruction of a hart with nothing in flight, from its dispatch to its completion. -/

namespace Sys2Proof.Machine

/-- A hart with its front, its floating-point state, its counts and its VIQ replaced. -/
def Hart.front (h : Hart) (pc : BitVec 48) (fp : FpState) (run : RunState) (viq : List VEntry) : Hart :=
  { h with pc := pc, fp := fp, run := run, vec := { h.vec with viq := viq } }

/-- What an instruction does to the registers of a hart does not touch its front, its floating-point state, its counts or its
VIQ. -/
def Commutes (g : Hart → Hart) : Prop :=
  ∀ h pc fp run viq, g (h.front pc fp run viq) = (g h).front pc fp run viq

/-- The entry of an instruction that the front dispatches, with its sequence tag. -/
def entryOf (s : State) (i : Instr) : VEntry :=
  { captureFor s i with binds := [], strips := [], seq := some (s.core s.here).land.seq }

/-- Whether an instruction at the front consumes a RIC value. -/
def consumesHere (s : State) (i : Instr) : Bool := consumesRic s.hart i (captureFor s i).vtype (captureFor s i).fpctl

/-- The hart behind the dispatch of an instruction, with its VIQ. -/
def behind (s : State) (i : Instr) (viq : List VEntry) : Hart :=
  s.hart.front (s.hart.pc + BitVec.ofNat 48 i.length)
    { s.hart.fp with ric := if consumesHere s i then s.hart.fp.ric + 1 else s.hart.fp.ric }
    { s.hart.run with why := 0, atBar := false } viq

/-- The state right before the only vector instruction of a hart executes. -/
def dispatchedState (s : State) (i : Instr) : State :=
  (s.modCore s.here fun k => { k with land := { k.land with seq := k.land.seq + 1 } }).modHart fun _ =>
    behind s i [entryOf s i]

theorem claimStrips_nil (vl : Nat) (x : Hart) : claimStrips vl [] x = ([], x) := by
  unfold claimStrips
  split <;> rfl

theorem bindsFor_nil {x : Hart} (h : x.ms.streams = []) (srcs : List Nat) (dst : Option Nat) : bindsFor x srcs dst = [] := by
  simp [bindsFor, h]

theorem bindsOf_nil {x : Hart} (h : x.ms.streams = []) (i : Instr) : bindsOf x i = [] := by
  unfold bindsOf
  split
  · simp [h]
  · exact bindsFor_nil h _ _

theorem claimsFor_nil (x : Hart) (i : Instr) (vl : Nat) : claimsFor x i vl [] = ([], x) := by
  unfold claimsFor
  split
  · rfl
  · exact claimStrips_nil vl x

/-- What the front captures for an instruction is about that instruction, and fresh. -/
structure Fresh (i : Instr) (v : VEntry) : Prop where
  instr : v.instr = i
  seq : v.seq = none
  start : v.start = 0
  flags : v.flags = 0
  old : v.old = none
  pins : v.pins = []
  limit : v.limit = none

theorem captureFor_fresh (s : State) (i : Instr) : Fresh i (captureFor s i) := by
  unfold captureFor
  split <;> dsimp only <;> split <;> exact ⟨rfl, rfl, rfl, rfl, rfl, rfl, rfl⟩

theorem entry_noPins {v : VEntry} (h : v.pins = []) : { v with pins := [] } = v := by rw [← h]
theorem entry_noLimit {v : VEntry} (h : v.limit = none) : { v with limit := none } = v := by rw [← h]

/-- An instruction that the front dispatches touches registers only: it is no LOOP, MMA.c, nor an access to memory. -/
structure RegisterOnly (s : State) (i : Instr) : Prop where
  notLoop : ∀ a n, i ≠ .loop a n
  crew : ∀ t, noteCrew i t = t
  spans : dispatchSpans s.hart { captureFor s i with binds := [], strips := [] } = []
  stride : strideClass (entryOf s i) = none

/-- An instruction without strips and without addresses holds no page. -/
theorem pinAtDispatch_none {x : Hart} {v : VEntry} {s : State} (hp : v.pins = []) (h : dispatchSpans x v = []) :
    pinAtDispatch x v s = (v, s) := by
  unfold pinAtDispatch
  rw [h]
  exact congrArg (·, s) (entry_noPins hp)

/-- The dispatch of a vector instruction of a hart with nothing in flight. -/
theorem dispatchVector_ready {s : State} (h : VectorReady s) {i : Instr} (hi : RegisterOnly s i) :
    dispatchVector i s = .ok () (s.setHart (behind s i [{ captureFor s i with binds := [], strips := [] }])) := by
  have hb : bindsOf s.hart i = [] := bindsOf_nil h.streams i
  have hroom : s.hart.viqRoom = true := by
    unfold Hart.viqRoom
    rw [h.viq]
    split <;> decide
  have hres : s.hart.reserved = 0 := by simp [Hart.reserved, h.viq, h.held]
  have hp := pinAtDispatch_none (x := s.hart) (s := s) (v := { captureFor s i with binds := [], strips := [] }) (captureFor_fresh s i).pins hi.spans
  unfold dispatchVector
  rw [noFerry_user i h.user, bind_ok]
  simp only [awaitRegs_settled (h.toIdle.settled (usesOf i).xs []), bind_ok, hroom, hres, hb, claimsFor_nil, hp, hi.crew]
  simp [Config.returnQueue, h.viq, behind, Hart.front, consumesHere]
  rfl

/-- Tagging the dispatched entry. -/
theorem tag_dispatched (s : State) (i : Instr) (y : Hart) (v : VEntry) :
    (((s.setHart y).modCore s.here fun k => { k with land := { k.land with seq := k.land.seq + 1 } }).modHartAt s.here s.me
      fun _ => behind s i [v]) =
    (s.modCore s.here fun k => { k with land := { k.land with seq := k.land.seq + 1 } }).modHart fun _ => behind s i [v] := by
  unfold State.modHart State.setHart State.modHartAt State.setHartAt
  simp only [modCore_here, modCore_me]
  unfold State.modCore
  simp only [setCore_setCore, core_setCore_same, Core.setHart, insert_insert]

/-- A turn of a vector side whose VIQ starts with an ordinary instruction, with no breakpoint on the core. -/
theorem stepVector_entry {c h : Nat} {s : State} {v : VEntry} {rest : List VEntry} (hv : (s.hartAt c h).vec.viq = v :: rest)
    (hb : (s.core c).dbg.breakpoints = []) (hl : ∀ a n, v.instr ≠ .loop a n) :
    stepVector c h s = stepEntry c h none v s := by
  have hbp : ∀ pc, breakpointAt c h true pc s = false := by
    intro pc
    simp [breakpointAt, hb]
  unfold stepVector stepVectorTo
  simp only [hv, hbp, Bool.and_false, Bool.false_eq_true, if_false]

/-- An instruction without strips has none to base. -/
theorem based_none {c h : Nat} {v : VEntry} (hs : v.strips = []) (s : State) : v.based c h s = v := by
  unfold VEntry.based
  rw [hs]
  simp only [List.map_nil, ite_self]
  rw [← hs]

/-- A turn of an entry that has not started, without strips: it gets its tag, `w`, and executes. -/
theorem stepEntry_fresh {c h : Nat} {v w : VEntry} {s t : State} (hs : v.seq = none)
    (hw : { v with seq := some (s.core c).land.seq } = w)
    (ht : setHead c h w (s.modCore c fun k => { k with land := { k.land with seq := k.land.seq + 1 } }) = t)
    (hn : w.strips = []) (hl : w.limit = none) :
    stepEntry c h none v s = match attempt c h w t with
      | .ok (.done f) u => .next (sweep c (sampleVector c h w t
          (drain c h ((orFlags c h f (dropHead c h u)).modHartAt c h Hart.count))))
      | .ok (.part e _) u => .next (sweep c (setHead c h { e with limit := none } u))
      | .wait _ u => .next u
      | .exc e k u => .next (trapVector c h e (setHead c h (w.stopAt k) u))
      | .contained e u => .next (contain e c h w.pc u)
      | .stop f => .fault f := by
  unfold stepEntry tagEntry
  simp only [hs, Option.isSome_none, Bool.false_eq_true, if_false, hw, ht]
  rw [based_none hn, entry_noLimit hl]
  all_goals rfl

/-- The hart right before a vector instruction executes. -/
theorem hart_dispatched (s : State) (i : Instr) : (dispatchedState s i).hartAt s.here s.me = behind s i [entryOf s i] :=
  hart_modHart _ _

theorem entries_dispatched {s : State} (h : VectorReady s) (i : Instr) : ((dispatchedState s i).core s.here).land.entries = [] := by
  unfold dispatchedState State.modHart State.setHart State.setHartAt
  simp only [modCore_here, core_setCore_same, Core.setHart, core_modCore_same]
  exact h.landing

/-- A vector instruction that the front dispatches, of a hart with nothing in flight, executes at once. -/
theorem issueVector_ready {s : State} (h : VectorReady s) {i : Instr} (hi : RegisterOnly s i) :
    issueVector i s = match attempt s.here s.me (entryOf s i) (dispatchedState s i) with
      | .ok (.done f) t => .next (sweep s.here (sampleVector s.here s.me (entryOf s i) (dispatchedState s i)
          (drain s.here s.me ((orFlags s.here s.me f (dropHead s.here s.me t)).modHartAt s.here s.me Hart.count))))
      | .ok (.part w _) t => .next (sweep s.here (setHead s.here s.me { w with limit := none } t))
      | .wait _ t => .next t
      | .exc e k t => .next (trapVector s.here s.me e (setHead s.here s.me ((entryOf s i).stopAt k) t))
      | .contained e t => .next (contain e s.here s.me (entryOf s i).pc t)
      | .stop f => .fault f := by
  have hf := captureFor_fresh s i
  let y := behind s i [{ captureFor s i with binds := [], strips := [] }]
  have e0 : (s.setHart y).hartAt s.here s.me = y := by
    show (s.setHart y).hart = y
    exact hart_setHart s y
  have hviq : y.vec.viq = [{ captureFor s i with binds := [], strips := [] }] := rfl
  have hbp : ((s.setHart y).core s.here).dbg.breakpoints = [] := by
    unfold State.setHart State.setHartAt
    rw [core_setCore_same]
    exact h.breakpoints
  unfold issueVector
  rw [dispatchVector_ready h hi]
  simp only [hart_setHart]
  rw [show y.vec.lag = false from h.lag, hviq]
  simp only [List.length_singleton, Nat.lt_irrefl, decide_false, Bool.or_false, Bool.false_eq_true, if_false,
    setHart_here, setHart_me]
  rw [stepVector_entry (v := { captureFor s i with binds := [], strips := [] }) (rest := []) (by rw [e0, hviq]) hbp
    (fun a n he => hi.notLoop a n (hf.instr.symm.trans he))]
  have hseq : ((s.setHart y).core s.here).land.seq = (s.core s.here).land.seq := by
    unfold State.setHart State.setHartAt
    rw [core_setCore_same]
    rfl
  have hst : ∀ w : VEntry, setHead s.here s.me w
      ((s.setHart y).modCore s.here fun k => { k with land := { k.land with seq := k.land.seq + 1 } }) =
      (s.modCore s.here fun k => { k with land := { k.land with seq := k.land.seq + 1 } }).modHart fun _ => behind s i [w] := by
    intro w
    rw [← tag_dispatched s i y w]
    unfold setHead State.modHartAt
    congr 1
    have : ((s.setHart y).modCore s.here fun k => { k with land := { k.land with seq := k.land.seq + 1 } }).hartAt s.here s.me
        = y := by
      unfold State.hartAt
      rw [core_modCore_same]
      exact e0
    rw [this]
    rfl
  exact stepEntry_fresh hf.seq (by rw [hseq]; rfl) (hst _) rfl hf.limit

/-- A hart that holds no entry keeps no tile for its crew. -/
theorem awaitCrew_open {c h : Nat} {s : State} (hh : (s.hartAt c h).vec.held = []) (v : VEntry) : awaitCrew c h v s = .ok () s := by
  unfold awaitCrew
  split
  · rw [if_neg]
    unfold crewKeeps
    simp only [hh, List.contains_nil, Bool.false_and]
    split
    · simp
    · split <;> simp
  · rfl

/-- The attempt at the dispatched instruction is its execution: it finds a row, and has no strip. -/
theorem attempt_ready {s : State} (h : VectorReady s) (i : Instr) :
    attempt s.here s.me (entryOf s i) (dispatchedState s i) =
      match vexec s.here s.me (entryOf s i) (dispatchedState s i) with
      | .wait n _ => .wait n (dispatchedState s i)
      | .exc e k t => if k ≤ 0 then .exc e 0 (undone s.here s.me (dispatchedState s i) t) else .exc e k t
      | r => r := by
  have hrow : takeRow s.here s.me (entryOf s i) (dispatchedState s i) = .ok () (dispatchedState s i) := by
    unfold takeRow
    rw [if_pos]
    have e : oldRows ((dispatchedState s i).core s.here) s.me = 0 := by
      simp [oldRows, Core.entries, entries_dispatched h i]
    simp [e, Config.spareRows]
  have hold : (entryOf s i).old = none := (captureFor_fresh s i).old
  have hheld : ((dispatchedState s i).hartAt s.here s.me).vec.held = [] := by
    rw [hart_dispatched]
    exact h.held
  unfold attempt
  rw [awaitCrew_open hheld, bind_ok, hrow]
  have e : vexecFrom s.here s.me (entryOf s i) (dispatchedState s i) =
      vexec s.here s.me (entryOf s i) (dispatchedState s i) := by unfold vexecFrom; rw [hold]
  rw [show (entryOf s i).start = 0 from (captureFor_fresh s i).start]
  simp only [bind_ok, show (entryOf s i).strips.isEmpty = true from rfl, if_true, Nat.not_lt_zero, decide_false, Bool.and_false,
    Bool.false_eq_true, if_false]
  exact e ▸ rfl

/-- An instruction that changes only registers of the hart, with flags `f`, completes at once. -/
theorem issueVector_done {s : State} (h : VectorReady s) {i : Instr} {g : Hart → Hart} {f : Nat} {t : State}
    (hi : RegisterOnly s i) (hg : Commutes g) (hq : (g s.hart).ms.stq = [])
    (he : vexec s.here s.me (entryOf s i) (dispatchedState s i) = .ok (.done f) t)
    (ht : OnlyHart (g (behind s i [entryOf s i])) (dispatchedState s i) t) :
    ∃ u, issueVector i s = .next u ∧
      OnlyVector ((g s.hart).afterVector i.length f (consumesHere s i)) s u := by
  have hh : t.here = s.here := by simp [State.here, ht.here, dispatchedState]
  have hm : t.me = s.me := by simp [State.me, ht.me, dispatchedState]
  let F : Hart → Hart := fun x =>
    let x := match x.vec.viq with
      | [] => x
      | _ :: rest => { x with vec := { x.vec with viq := rest } }.oneDone
    Hart.count { x with fp := { x.fp with flags := x.fp.flags ||| BitVec.ofNat 5 f } }
  have hu : (orFlags s.here s.me f (dropHead s.here s.me t)).modHartAt s.here s.me Hart.count = t.modHart F := by
    unfold orFlags dropHead
    simp only [modHartAt_modHartAt]
    rw [← hh, ← hm]
    rfl
  have hF := ht.then F
  have hb := hg s.hart (s.hart.pc + BitVec.ofNat 48 i.length)
    { s.hart.fp with ric := if consumesHere s i then s.hart.fp.ric + 1 else s.hart.fp.ric }
    { s.hart.run with why := 0, atBar := false } [entryOf s i]
  have hs0 : g s.hart = (g s.hart).front s.hart.pc s.hart.fp s.hart.run [] := by
    have e := hg s.hart s.hart.pc s.hart.fp s.hart.run s.hart.vec.viq
    rw [h.viq] at e
    refine Eq.trans ?_ e
    congr 1
    rw [← h.viq]
    rfl
  have hfin : F (g (behind s i [entryOf s i])) = (g s.hart).afterVector i.length f (consumesHere s i) := by
    unfold behind
    rw [hb]
    generalize g s.hart = y at hs0 hq
    simp only [F, Hart.front, Hart.oneDone, hq, List.all_nil, if_true]
    rw [hs0]
    rfl
  rw [hfin] at hF
  have hland : ((t.modHart F).core (t.modHart F).here).land.entries = [] := by
    rw [(OnlyHart.modHart t F).landing, ht.landing]
    rw [show (t.modHart F).here = s.here from hh]
    exact entries_dispatched h i
  have hstq : (t.modHart F).hart.ms.stq = [] := by
    rw [hF.hart]
    exact hq
  have hd := drain_nothing hstq hland
  rw [hF.hart] at hd
  have hD := hF.trans hd
  have hland' : ((drain (t.modHart F).here (t.modHart F).me (t.modHart F)).core s.here).land.entries = [] := by
    rw [hd.landing, ← hh]
    exact hland
  refine ⟨drain (t.modHart F).here (t.modHart F).me (t.modHart F), ?_, ?_⟩
  · rw [issueVector_ready h hi, attempt_ready h i, he]
    simp only [hu]
    unfold sampleVector
    rw [hi.stride]
    show Host.Outcome.next (sweep s.here (drain s.here s.me (t.modHart F))) = _
    rw [show (t.modHart F).here = s.here from hh, show (t.modHart F).me = s.me from hm] at hland' ⊢
    rw [sweep_empty hland']
  · have hd : ∀ c, { (dispatchedState s i).core c with harts := [] } = { s.core c with
        harts := []
        land := { (s.core c).land with seq := if c = s.here then (s.core c).land.seq + 1 else (s.core c).land.seq } } := by
      intro c
      unfold dispatchedState State.modHart State.setHart State.setHartAt
      by_cases hc : c = s.here
      · subst hc
        simp [core_setCore_same, Core.setHart]
      · simp only [modCore_here]
        rw [core_setCore_ne _ _ hc, core_modCore_ne _ _ hc]
        simp [hc]
    have hoth : ∀ c n, c ≠ s.here ∨ n ≠ s.me → (dispatchedState s i).hartAt c n = s.hartAt c n := by
      intro c n hn
      unfold dispatchedState
      rw [hartAt_modHart_ne _ _ (by simpa using hn)]
      unfold State.hartAt
      by_cases hc : c = s.here
      · subst hc
        rw [core_modCore_same]
        rfl
      · rw [core_modCore_ne _ _ hc]
    exact ⟨hD.hart, hD.here, hD.me, fun c n hn => (hD.others c n hn).trans (hoth c n hn), fun c => (hD.cores c).trans (hd c),
      hD.mem, hD.poison, hD.dies, hD.wharf, hD.host, hD.agenda⟩

end Sys2Proof.Machine
end

