-- ==== Sys2Proof/Laws/Lanes.lean ====
section
/-! SUPPORT. What the element engine of the vector side comes to where no element is a hole. -/

namespace Sys2Proof.Machine

theorem cutAt_noHoles (n : Nat) (l : List Elem) (h : ∀ x ∈ l, x.res.isHole = false) : cutAt none n l = (l, []) := by
  induction l with
  | nil => rfl
  | cons a rest ih =>
    have hr : a.res.isHole = false := h a (by simp)
    simp [cutAt, beyond, hr, ih fun x hx => h x (by simp [hx])]

theorem holesOf_empty {s : State} {c : Nat} (h : (s.core c).land.entries = []) (x r : Nat) : holesOf c x r s = [] := by
  simp [holesOf, Core.entries, h]

theorem presentElem_empty {s : State} {c : Nat} (h : (s.core c).land.entries = []) (x r n e : Nat) :
    presentElem c x r n e s = true := by
  simp [presentElem, holesOf_empty h]

/-- Results as values, with their flags. -/
def vals (l : List (Nat × Nat × Nat)) : List Elem := l.map fun e => ⟨e.1, .val e.2.1, e.2.2⟩

/-- The elements and values of some results. -/
def writesOf (l : List (Nat × Nat × Nat)) : List (Nat × Nat) := l.map fun e => (e.1, e.2.1)

theorem entries_modHartAt (s : State) (c h : Nat) (f : Hart → Hart) :
    ((s.modHartAt c h f).core c).land.entries = (s.core c).land.entries := by
  unfold State.modHartAt State.setHartAt
  simp [core_setCore_same, Core.setHart]

theorem repair_empty {s : State} {c : Nat} (he : (s.core c).land.entries = []) (h r n : Nat) (l : List (Nat × Nat)) :
    repair c h r n l s = s := by
  simp [repair, noteOver, Core.entries, he]

/-- Whether no instruction that the hart has captured keeps an old row. -/
def NoOldRow (x : Hart) : Prop := ∀ v ∈ x.allEntries, v.old = none

theorem followRow_none {s : State} {c h : Nat} (hx : NoOldRow (s.hartAt c h)) (r : VReg) (n : Nat) (es : List Nat) :
    followRow c h r n es s = s := by
  unfold followRow
  rw [if_pos]
  simp only [Bool.not_eq_true', List.any_eq_false]
  intro v hv
  simp [hx v hv]

theorem foldl_vals (f : State → Elem → State) (hf : ∀ s e w g, f s ⟨e, .val w, g⟩ = s) (l : List (Nat × Nat × Nat))
    (s : State) : (vals l).foldl f s = s := by
  induction l generalizing s with
  | nil => rfl
  | cons a rest ih =>
    show (vals rest).foldl f (f s ⟨a.1, .val a.2.1, a.2.2⟩) = s
    rw [hf]
    exact ih s

theorem filterMap_vals (f : Elem → Option (Nat × Nat)) (hf : ∀ e w g, f ⟨e, .val w, g⟩ = some (e, w))
    (l : List (Nat × Nat × Nat)) : (vals l).filterMap f = writesOf l := by
  induction l with
  | nil => rfl
  | cons a rest ih =>
    show ((⟨a.1, .val a.2.1, a.2.2⟩ : Elem) :: vals rest).filterMap f = _
    simp [hf, ih, writesOf]

theorem setElems_entries (l : List (Nat × Nat)) (x : Hart) (r n : Nat) : (x.setElems r n l).allEntries = x.allEntries := by
  unfold Hart.setElems
  induction l generalizing x with
  | nil => rfl
  | cons a t ih =>
    rw [List.foldl_cons, ih]
    rfl

/-- Results that are all values reach the destination. -/
theorem applyRow_vals {s : State} {c h : Nat} (he : (s.core c).land.entries = []) (hx : NoOldRow (s.hartAt c h))
    (v : VEntry) (hl : v.limit = none) (r : VReg) (n sty : Nat) (l : List (Nat × Nat × Nat)) :
    applyRow c h v r n (vals l) sty [] s =
      .ok (.done (l.foldl (fun f e => f ||| e.2.2) v.flags)) (s.modHartAt c h fun x => x.setElems r.toNat n (writesOf l)) := by
  have hc : cutAt none (entriesLeft (s.core c) h) (vals l) = (vals l, []) := by
    refine cutAt_noHoles _ _ fun x hx => ?_
    obtain ⟨y, -, rfl⟩ := List.mem_map.mp hx
    rfl
  have hb : ∀ l : List Elem, l.filter (fun e => !beyond none e.elem) = l := fun l => by simp [beyond]
  unfold applyRow
  simp only [holesOf_empty he, List.filter_nil, List.filterMap_nil, List.isEmpty_nil, if_true, hl, hc, List.head?_nil,
    Option.map_none, hb, List.map_nil, Bool.not_true, Bool.and_false, Bool.false_and, Bool.false_eq_true, if_false]
  rw [foldl_vals _ (fun _ _ _ _ => rfl), filterMap_vals _ (fun _ _ _ => rfl), repair_empty he]
  simp only [leaveRow, List.isEmpty_nil, if_true, settlePoison_empty he, writeScales]
  rw [followRow_none]
  · congr 2
    simp [vals, List.foldl_map]
  · rw [hartAt_modHartAt_same]
    intro w hw
    exact hx w ((setElems_entries _ _ _ _) ▸ hw)

theorem applyResults_vals {s : State} {c h : Nat} (he : (s.core c).land.entries = []) (hx : NoOldRow (s.hartAt c h))
    (v : VEntry) (hl : v.limit = none) (hv : v.vl ≠ 0) (r : VReg) (n sty : Nat) (l : List (Nat × Nat × Nat)) :
    applyResults c h v r n (vals l) sty [] s =
      .ok (.done (l.foldl (fun f e => f ||| e.2.2) v.flags)) (s.modHartAt c h fun x => x.setElems r.toNat n (writesOf l)) := by
  unfold applyResults
  rw [if_neg hv]
  exact applyRow_vals he hx v hl r n sty l

theorem linksTo_empty {s : State} {c : Nat} (h : (s.core c).land.entries = []) (x r n e o : Nat) :
    linksTo c x r n e o s = [] := by
  simp [linksTo, holesOf_empty h]

/-- Elements, values and flags of an operation on some elements. -/
def results (w : Nat → Nat × Nat) (es : List Nat) : List (Nat × Nat × Nat) := es.map fun e => (e, (w e).1, (w e).2)

/-- An element-wise operation where no element is a hole: every active element takes its value. -/
theorem elementwise_vals {s : State} {c h : Nat} (he : (s.core c).land.entries = []) (hx : NoOldRow (s.hartAt c h)) (v : VEntry)
    (op : LaneOp) (d : VReg) (hd : op.dst = d.toNat) (mk : Nat) (hs : v.start = 0) (hl : v.limit = none) (hv : v.vl ≠ 0)
    (w : Nat → Nat × Nat)
    (hw : ∀ e ∈ activeElems (s.hartAt c h) mk v.vl, laneElem c h v op none s e = ⟨e, .val (w e).1, (w e).2⟩) :
    elementwise c h v op mk s =
      .ok (.done ((activeElems (s.hartAt c h) mk v.vl).foldl (fun f e => f ||| (w e).2) v.flags))
        (s.modHartAt c h fun x => x.setElems d.toNat (typeBits op.dty)
          ((activeElems (s.hartAt c h) mk v.vl).map fun e => (e, (w e).1))) := by
  have hr : v.remaining (s.hartAt c h) mk = activeElems (s.hartAt c h) mk v.vl := by simp [VEntry.remaining, hs]
  have hreg : BitVec.ofNat 5 op.dst = d := by simp [hd]
  have hm : (activeElems (s.hartAt c h) mk v.vl).map (laneElem c h v op none s) =
      vals (results w (activeElems (s.hartAt c h) mk v.vl)) := by
    rw [vals, results, List.map_map]
    exact List.map_congr_left fun e h => hw e h
  unfold elementwise
  simp only [hr, hm, hreg]
  rw [applyResults_vals he hx v hl hv]
  simp [results, writesOf, List.foldl_map, Function.comp_def]

theorem setElem_front (h : Hart) (r n e w : Nat) (pc fp run viq) :
    (h.front pc fp run viq).setElem r n e w = (h.setElem r n e w).front pc fp run viq := rfl

theorem setElems_front (l : List (Nat × Nat)) (h : Hart) (r n : Nat) (pc fp run viq) :
    (h.front pc fp run viq).setElems r n l = (h.setElems r n l).front pc fp run viq := by
  unfold Hart.setElems
  induction l generalizing h with
  | nil => rfl
  | cons a t ih =>
    simp only [List.foldl_cons, setElem_front]
    exact ih _

theorem setElems_ms (l : List (Nat × Nat)) (h : Hart) (r n : Nat) : (h.setElems r n l).ms = h.ms := by
  unfold Hart.setElems
  induction l generalizing h with
  | nil => rfl
  | cons a t ih => rw [List.foldl_cons, ih]; rfl

theorem getV_behind (s i viq r) : (behind s i viq).getV r = s.hart.getV r := rfl
theorem active_behind (s i viq m vl) : activeElems (behind s i viq) m vl = activeElems s.hart m vl := rfl

/-- An element-wise vector instruction whose active elements all have values. -/
theorem lane_done {s : State} (h : VectorReady s) {i : Instr} (hi : RegisterOnly s i) {op : LaneOp} {d : VReg}
    (hd : op.dst = d.toNat) {mk : Nat} {w : Nat → Nat × Nat}
    (hx : vexec s.here s.me (entryOf s i) (dispatchedState s i) = elementwise s.here s.me (entryOf s i) op mk (dispatchedState s i))
    (hw : ∀ e ∈ activeElems s.hart mk (captureFor s i).vl,
      laneElem s.here s.me (entryOf s i) op none (dispatchedState s i) e = ⟨e, .val (w e).1, (w e).2⟩) :
    ∃ u, issueVector i s = .next u ∧ OnlyVector
      ((s.hart.setElems d.toNat (typeBits op.dty)
          ((activeElems s.hart mk (captureFor s i).vl).map fun e => (e, (w e).1))).afterVector i.length
        ((activeElems s.hart mk (captureFor s i).vl).foldl (fun f e => f ||| (w e).2) 0) (consumesHere s i)) s u := by
  have hf := captureFor_fresh s i
  let g : Hart → Hart := fun x => x.setElems d.toNat (typeBits op.dty)
    ((activeElems s.hart mk (captureFor s i).vl).map fun e => (e, (w e).1))
  have hg : Commutes g := fun h pc fp run viq => setElems_front _ _ _ _ _ _ _ _
  have hq : (g s.hart).ms.stq = [] := by rw [show (g s.hart).ms = s.hart.ms from setElems_ms _ _ _ _]; exact h.stq
  have e1 : (dispatchedState s i).here = s.here := rfl
  have e2 : (dispatchedState s i).me = s.me := rfl
  have e3 : (dispatchedState s i).hart = behind s i [entryOf s i] := hart_dispatched s i
  have hold : NoOldRow ((dispatchedState s i).hartAt s.here s.me) := by
    rw [hart_dispatched]
    intro v hv
    simp only [Hart.allEntries, behind, Hart.front, h.held, h.loop, List.nil_append, List.append_nil,
      List.mem_singleton] at hv
    rw [hv]
    exact hf.old
  by_cases hv : (captureFor s i).vl = 0
  · have ha : activeElems s.hart mk (captureFor s i).vl = [] := by
      rw [hv]
      simp [activeElems, positions]
    have hr : vexec s.here s.me (entryOf s i) (dispatchedState s i) = .ok (.done 0) (dispatchedState s i) := by
      rw [hx]
      unfold elementwise applyResults
      have hv' : (entryOf s i).vl = 0 := hv
      have hfl : (entryOf s i).flags = 0 := hf.flags
      simp only [hv', hfl, if_true]
    have hgb : g (behind s i [entryOf s i]) = (dispatchedState s i).hart := by
      rw [e3]
      simp only [g, ha, List.map_nil, Hart.setElems, List.foldl_nil]
    have ht : OnlyHart (g (behind s i [entryOf s i])) (dispatchedState s i) (dispatchedState s i) :=
      hgb ▸ OnlyHart.refl (dispatchedState s i)
    have := issueVector_done h hi hg hq hr ht
    simp only [ha, List.foldl_nil, g] at this ⊢
    exact this
  · have hr : vexec s.here s.me (entryOf s i) (dispatchedState s i) =
        .ok (.done ((activeElems s.hart mk (captureFor s i).vl).foldl (fun f e => f ||| (w e).2) 0))
          ((dispatchedState s i).modHartAt s.here s.me g) := by
      have hf0 : (entryOf s i).flags = 0 := hf.flags
      have e := elementwise_vals (entries_dispatched h i) hold (entryOf s i) op d hd mk hf.start hf.limit hv w
        (by rw [hart_dispatched, active_behind]; exact hw)
      rw [hx, e]
      simp only [hart_dispatched, active_behind, hf0]
      rfl
    have ht : OnlyHart (g (behind s i [entryOf s i])) (dispatchedState s i) ((dispatchedState s i).modHartAt s.here s.me g) := by
      have := OnlyHart.modHart (dispatchedState s i) g
      rw [← modHartAt_self, e1, e2, e3] at this
      exact this
    have := issueVector_done (g := g) h hi hg hq hr ht
    simp only [g] at this
    exact this

end Sys2Proof.Machine
end

