-- ==== Sys2Proof/Laws/Traps.lean ====
section
/-! SUPPORT. What taking an exception and returning from one come to. -/

namespace Sys2Proof.Machine

/-- A change to the Landing of a core changes no hart. -/
theorem hartAt_setEntries (s : State) (c d i : Nat) (g : Core → AMap LEntry) :
    (s.modCore c fun q => q.setEntries (g q)).hartAt d i = s.hartAt d i := by
  by_cases h : d = c
  · subst h
    simp only [State.hartAt, core_modCore_same]
    rfl
  · simp only [State.hartAt, core_modCore_ne _ _ h]

/-- What a stop at an element-group boundary leaves alone. -/
structure StopKeeps (c h : Nat) (s t : State) : Prop where
  tr : (t.hartAt c h).tr = (s.hartAt c h).tr
  run : (t.hartAt c h).run = (s.hartAt c h).run
  here : t.here = s.here
  me : t.me = s.me

theorem StopKeeps.refl (c h : Nat) (s : State) : StopKeeps c h s s := ⟨rfl, rfl, rfl, rfl⟩

theorem StopKeeps.modHartAt {c h : Nat} {s t : State} (a : StopKeeps c h s t) {f : Hart → Hart}
    (hf : ∀ x, (f x).tr = x.tr ∧ (f x).run = x.run) : StopKeeps c h s (t.modHartAt c h f) where
  tr := by simp [hf, a.tr]
  run := by simp [hf, a.run]
  here := a.here
  me := a.me

theorem StopKeeps.setEntries {c h : Nat} {s t : State} (a : StopKeeps c h s t) (d : Nat) (g : Core → AMap LEntry) :
    StopKeeps c h s (t.modCore d fun q => q.setEntries (g q)) where
  tr := by rw [hartAt_setEntries, a.tr]
  run := by rw [hartAt_setEntries, a.run]
  here := a.here
  me := a.me

theorem roundEntry_keeps (c h : Nat) (v : VEntry) (s : State) : StopKeeps c h s (roundEntry c h v s).2 := by
  unfold roundEntry
  split
  · exact .refl c h s
  · dsimp only
    split
    · exact .refl c h s
    · refine StopKeeps.setEntries (t := State.modHartAt s c h _) (.modHartAt (.refl c h s) ?_) c fun q => ?_
      intro x
      split
      · exact ⟨by simp, by simp⟩
      · exact ⟨rfl, rfl⟩

theorem roundStop_keeps (c h : Nat) (s : State) : StopKeeps c h s (roundStop c h s) := by
  unfold roundStop
  dsimp only
  split
  · exact .refl c h s
  · split
    · split
      · exact .refl c h s
      · split
        · exact .refl c h s
        · exact (roundEntry_keeps c h _ s).modHartAt fun x => ⟨rfl, rfl⟩
    · split
      · exact .refl c h s
      · exact (roundEntry_keeps c h _ s).modHartAt fun x => ⟨rfl, rfl⟩

theorem atStop_keeps (vs : Bool) (s : State) : StopKeeps s.here s.me s (s.atStop vs) := by
  cases vs
  · exact roundStop_keeps s.here s.me s
  · exact .refl _ _ s

/-- With nothing on the vector side there is nothing to stop. -/
theorem atStop_empty {s : State} (vs : Bool) (h : s.hart.vec.viq = []) : s.atStop vs = s := by
  cases vs
  · have h' : (s.hartAt s.here s.me).vec.viq = [] := h
    simp [State.atStop, roundStop, h']
  · rfl

/-- A hart with a handler takes an exception. -/
theorem takeTrap_taken {s : State} (h : CanTrap s) (vs : Bool) (e : Exc) (resume : BitVec 48) :
    TakesTrap vs e resume s (takeTrap s.here s.me vs resume e s) := by
  have hu : isFerry s.me = false := h.user
  have r := atStop_keeps vs s
  have e0 : (s.atStop vs).hart = (s.atStop vs).hartAt s.here s.me := by unfold State.hart; rw [r.here, r.me]
  have e1 : takeTrap s.here s.me vs resume e s = (s.atStop vs).modHart fun x =>
      { x.holdQueue with
        tr := { x.tr with
          tpc := word resume.toNat
          tvcp := word ({ x with pc := resume } : Hart).vcp.1.toNat
          tvst := word ({ x with pc := resume } : Hart).vcp.2
          tcause := word (bit vs * 2 ^ 62 + bit x.tr.sup * 2 ^ 60 + 2 ^ 59 + e.code)
          tinfo0 := e.info0
          tinfo1 := e.info1
          tinfo2 := e.info2
          tinfo3 := e.info3
          sup := true }
        pc := BitVec.ofNat 48 x.tr.tbase.toNat
        lead := Lead.none
        run := { x.run with why := 0, atBar := false, wait := none, inval := none, deq := false } } := by
    unfold takeTrap
    simp only [show s.hartAt s.here s.me = s.hart from rfl, hu, Bool.false_eq_true, if_false, h.handler, h.unlocked]
    unfold State.modHart State.setHart State.hart
    rw [r.here, r.me]
    rfl
  have htr : (s.atStop vs).hart.tr = s.hart.tr := by rw [e0]; exact r.tr
  have hrun : (s.atStop vs).hart.run = s.hart.run := by rw [e0]; exact r.run
  rw [e1]
  refine ⟨?_, ?_, ?_, ?_, ?_, ?_, ?_, ?_, ?_, ?_, ?_, ?_, ?_⟩
  case refine_13 =>
    rw [hart_modHart]
    exact OnlyHart.modHart_eq (by rw [← hrun])
  case refine_1 => cases vs <;> cases hs : s.hart.tr.sup <;> simp [bit, word, hs, htr]
  all_goals simp [htr, hrun]

theorem trapFront_taken {s : State} (h : CanTrap s) (e : Exc) : TakesTrap false e s.hart.pc s (trapFront e s) :=
  takeTrap_taken h false e s.hart.pc

/-- An instruction that raises an exception takes it. -/
theorem raise_taken {s : State} (h : CanTrap s) (e : Exc) :
    ∃ t, finish (raise e s) = .next t ∧ TakesTrap false e s.hart.pc s t :=
  ⟨_, rfl, trapFront_taken h e⟩

theorem CanTrap.modHart {s : State} (h : CanTrap s) (f : Hart → Hart) (hf : (f s.hart).tr = s.hart.tr) :
    CanTrap (s.modHart f) where
  user := h.user
  handler := by simpa [hf] using h.handler
  unlocked := by simpa [hf] using h.unlocked

end Sys2Proof.Machine
end

