-- ==== Sys2Proof/Tests/Slice0.lean ====
section
/-! SUPPORT. Tests: ill-formed terms that the checks refuse, words written out from the spec's encodings, states that meet the
hypotheses of the statements, and single steps. The tests of decoding, one or more for every family, with the words written out
beside the encoding tables, stand in Sys2Proof/Decode.lean under the names decode_…. -/

namespace Sys2Proof.Tests

set_option Elab.async false

open Sys2Proof Sys2Proof.Machine

/-! Small states -/

/-- A user hart at S with a handler at 0x8000, one lane, an arena and the page table of `tlb1`. -/
def hart0 : Hart :=
  { startProgram Hart.reset with
    x := [(1, 0x100), (2, 0x108), (3, 5), (4, 0x8000000000000000), (5, 0xFFFFFFFFFFFFFFFF), (6, 0xFFF8), (7, 0x101)]
    k := 2
    b := [(1, ⟨0x2800, true, 2, [], []⟩)]
    tr := { Hart.reset.tr with tbase := 0x8000, sup := true } }

/-- A 1 GiB page of near memory at address 0 with every permission and A and D set (R164). -/
def tlb1 : TlbEntry := ⟨0, 0, 30, 1, 0x6F⟩

def group0 : Group := { programGroup with size := 0x10000 }

/-- Core 0 runs hart h0 with `h` in group 0, and every function is ready. -/
def state (h : Hart) : State :=
  { State.reset with
    cores := [(0, { Core.reset with harts := [(0, h)], tlb := [tlb1], pool := 63 })]
    wharf := { State.reset.wharf with groups := [(0, group0)], nextId := 1 }
    host := { State.reset.host with ready := 0xFFFFFFFFFFFFFFFF } }

def base : State := state hart0

/-- The hart at U. -/
def user (h : Hart) : Hart := { h with tr := { h.tr with sup := false } }

def withX (h : Hart) (l : AMap Word) : Hart := { h with x := l }

/-- VL and VTYPE of a hart with one lane. -/
def typed (h : Hart) (vtype : Word) (vl : Nat) : Hart := { h with vec := { h.vec with vtype := vtype, vl := vl } }

theorem settled_mk {xs ks : List Nat} {s : State}
    (h : (xs.all (fun r => !s.hart.pendingX r) && ks.all fun k => !s.hart.pendingK k) = true) : Settled xs ks s := by
  simp only [Bool.and_eq_true, List.all_eq_true, Bool.not_eq_eq_eq_not, Bool.not_true] at h
  exact h

theorem base_idle : Idle base := ⟨by decide, rfl, rfl, rfl, rfl⟩
theorem base_ready : VectorReady base := ⟨base_idle, rfl, rfl, rfl, rfl⟩
theorem base_canTrap : CanTrap base := ⟨by decide, by decide, by decide⟩
theorem base_control : ControlReady base := ⟨by decide, by decide, by decide, rfl, rfl, rfl⟩
theorem base_sound : base.Sound := rfl

/-- Hypotheses on the hart alone, for a state of one hart. -/
theorem state_ready (h : Hart) (a : h.vec.viq = []) (b : h.vec.held = []) (c : h.ms.stq = []) (d : h.vec.lag = false)
    (e : h.ms.streams = []) (f : h.lp.loop = none := by rfl) : VectorReady (state h) := ⟨⟨rfl, a, b, c, rfl⟩, d, e, f, rfl⟩

theorem state_canTrap (h : Hart) (a : h.tr.tbase ≠ 0) (b : (h.tr.sup && h.tr.tcause.getLsbD 59) = false) :
    CanTrap (state h) := ⟨rfl, a, b⟩

/-- What an operation comes to, as checks that evaluate. -/
def okIs [DecidableEq α] (r : Res α) (a : α) (s : State) : Bool :=
  match r with
  | .ok b t => decide (b = a) && decide (t = s)
  | _ => false

def okWith [DecidableEq α] (r : Res α) (a : α) : Bool :=
  match r with
  | .ok b _ => decide (b = a)
  | _ => false

theorem ok_of [DecidableEq α] {r : Res α} {a : α} {s : State} (h : okIs r a s = true) : r = .ok a s := by
  cases r <;> simp_all [okIs]

theorem ok_with [DecidableEq α] {r : Res α} {a : α} (h : okWith r a = true) : ∃ t, r = .ok a t := by
  cases r <;> simp_all [okWith]

/-- A check of the state that an instruction leaves. -/
def after (o : Out) (p : State → Bool) : Bool :=
  match o with
  | .next t => p t
  | _ => false

theorem next_of {o : Out} (h : after o (fun _ => true) = true) : ∃ t, o = .next t := by
  cases o <;> simp_all [after]

/-- As `okWith`, with a check of the state. -/
def okThen [DecidableEq α] (r : Res α) (a : α) (p : State → Bool) : Bool :=
  match r with
  | .ok b t => decide (b = a) && p t
  | _ => false

theorem ok_then [DecidableEq α] {r : Res α} {a : α} {p : State → Bool} (h : okThen r a p = true) : ∃ t, r = .ok a t ∧ p t = true := by
  cases r <;> simp_all [okThen]

/-! Ill-formed terms -/

theorem test_illformed_float :
    (Instr.fcvtFp64 1 2 14).wellFormed = false ∧ (Instr.fcvtFp64 1 2 4).wellFormed = false ∧
    (Instr.fcvtFp32 1 2 13).wellFormed = false ∧ (Instr.fcvtFp32 1 2 0).wellFormed = false ∧
    (Instr.cmp 0 1 2 6).wellFormed = false ∧ (Instr.fcmpFp64 0 1 2 4).wellFormed = false ∧
    (Instr.fcmpFp32 0 1 2 4).wellFormed = false := by decide

theorem test_illformed_system :
    (Instr.fence 3 0).wellFormed = false ∧ (Instr.fence 0 6).wellFormed = false ∧ (Instr.ld 1 2 7 0).wellFormed = false ∧
    (Instr.st 1 2 7 0).wellFormed = false ∧ (Instr.ldl 1 2 7 0).wellFormed = false ∧ (Instr.stl 1 2 7 0).wellFormed = false ∧
    (Instr.enq 1 2).wellFormed = false ∧ (Instr.deq 1 2).wellFormed = false ∧ (Instr.deqt 1 2).wellFormed = false ∧
    (Instr.gbar 3).wellFormed = false ∧ (Instr.lnget 0).wellFormed = false ∧ (Instr.lnget 9).wellFormed = false := by decide

theorem test_illformed_control :
    (Instr.crd 1 0x006).wellFormed = false ∧ (Instr.cwr 1 0x109).wellFormed = false ∧ (Instr.cset 1 0x102).wellFormed = false ∧
    (Instr.cclr 1 0x102).wellFormed = false ∧ (Instr.cset 1 0x0E0).wellFormed = false ∧ (Instr.cclr 1 0x042).wellFormed = false ∧
    (Instr.crdSync 1 0x054).wellFormed = false ∧ (Instr.crdSync 1 0x04F).wellFormed = false := by decide

theorem test_illformed_vector :
    (Instr.pres 0 1).wellFormed = false ∧ (Instr.vadc 1 2 3 0).wellFormed = false ∧ (Instr.vsbc 1 2 3 0).wellFormed = false ∧
    (Instr.vadcX 1 2 3 0).wellFormed = false ∧ (Instr.vsbcX 1 2 3 0).wellFormed = false ∧
    (Instr.vsetl 1 2 3 1 2).wellFormed = false ∧ (Instr.settle 1 0 0).wellFormed = false ∧
    (Instr.settle 1 2 1).wellFormed = false ∧ (Instr.settle 1 2 3).wellFormed = false ∧ (Instr.vtest 0 1 3).wellFormed = false ∧
    (Instr.vfcvt 1 2 15 0).wellFormed = false ∧ (Instr.vcmp 0 1 2 1 0).wellFormed = false ∧
    (Instr.vcmp 1 1 2 1 6).wellFormed = false ∧ (Instr.vfcmp 0 1 2 1 0).wellFormed = false ∧
    (Instr.vfcmp 1 1 2 1 4).wellFormed = false ∧ (Instr.vcmpX 0 1 2 1 0).wellFormed = false ∧
    (Instr.vcmpX 1 1 2 1 6).wellFormed = false ∧ (Instr.vfcmpX 0 1 2 1 0).wellFormed = false ∧
    (Instr.vfcmpX 1 1 2 1 4).wellFormed = false := by decide

theorem test_illformed_masks :
    (Instr.mand 0 1 2).wellFormed = false ∧ (Instr.mor 0 1 2).wellFormed = false ∧ (Instr.mxor 0 1 2).wellFormed = false ∧
    (Instr.mnot 0 1).wellFormed = false ∧ (Instr.mshl 0 1 2).wellFormed = false ∧ (Instr.mset 0).wellFormed = false ∧
    (Instr.mclr 0).wellFormed = false ∧ (Instr.vred 1 2 6 0).wellFormed = false ∧ (Instr.vredXd 1 2 6 0).wellFormed = false ∧
    (Instr.vscan 1 2 7 0).wellFormed = false := by decide

theorem test_illformed_memory_and_tiles :
    (Instr.vld 1 2 0 2).wellFormed = false ∧ (Instr.vlds 1 2 3 0 2).wellFormed = false ∧
    (Instr.vldx 1 2 3 0 2).wellFormed = false ∧ (Instr.vst 1 2 0 2).wellFormed = false ∧
    (Instr.vsts 1 2 3 0 3).wellFormed = false ∧ (Instr.vstx 1 2 3 0 2).wellFormed = false ∧
    (Instr.awin 1 2 4).wellFormed = false ∧ (Instr.mma 0 1 0 8 11).wellFormed = false ∧
    (Instr.mmaC 0 1 0 13 13).wellFormed = false ∧ (Instr.mman 0 1 0 0 1).wellFormed = false ∧
    (Instr.mman 0 1 0 1 0).wellFormed = false ∧ (Instr.mdrain 0 1 13 0).wellFormed = false := by decide

theorem test_illformed_inputs :
    Input.wellFormed { core := 96 } = false ∧ Input.wellFormed { hart := 6 } = false ∧
    Input.wellFormed { report := ⟨96, 0, 0, 0, none, 0, 0, 7⟩ } = false ∧ Input.wellFormed { report := ⟨0, 4, 0, 0, none, 0, 0, 7⟩ } = false ∧
    Input.wellFormed { encLen := 3 } = false ∧ Input.wellFormed { encLen := 2, enc := 0x10000 } = false ∧
    Input.wellFormed {} = true := by decide

/-! States that meet the hypotheses: encoding and the step -/

theorem test_wit_EncodeThenDecode :
    (Instr.cmp 7 63 62 5).encoded = true ∧ (Instr.cmp 7 63 62 5).wellFormed = true ∧ Instr.tfree.encoded = true ∧
    Instr.tfree.wellFormed = true := by decide

/-- The machine after reset with a word placed. -/
def placed (w : Nat) : State := State.reset.withFetchWord 32 w

/-- That state with its agenda taken. -/
def placed' (w : Nat) : State := { placed w with agenda := [] }

/-- The state in which the fetch takes place. -/
def fetching (w : Nat) : State := State.focus 0 0 (noteTurn 0 0 (holdPontoon 0 0 (placed' w)))

theorem test_wit_StepRunsTheDecodedInstruction :
    ((placed 0x05045201).host.fatal = false ∧ (placed 0x05045201).agenda = .hart 0 0 :: [] ∧
      frontMoves 0 0 (placed' 0x05045201) = true ∧
      breakpointAt 0 0 false ((placed 0x05045201).hartAt 0 0).pc (placed 0x05045201) = false ∧
      commitAtFront 0 0 (placed 0x05045201) = false ∧ lacksPontoon 0 0 (placed 0x05045201) = false ∧
      decodeTableWord (8 * 4) 0x05045201 = some (.add 16 17 18) ∧
      ∃ t, fetchInstr (fetching 0x05045201).ctx ((placed 0x05045201).hartAt 0 0).pc (fetching 0x05045201) =
        .ok (4, 0x05045201) t) ∧
    (frontMoves 0 0 (placed' 0) = true ∧
      ∃ t, fetchInstr (fetching 0).ctx ((placed 0).hartAt 0 0).pc (fetching 0) = .ok (0, 0) t) :=
  ⟨⟨rfl, rfl, by decide +kernel, by decide +kernel, by decide +kernel, by decide +kernel, by decide +kernel,
    ok_with (by decide +kernel)⟩, by decide +kernel, ok_with (by decide +kernel)⟩

/-- `base` with some bytes of memory. -/
def withMem (l : Memory) : State := { base with mem := l }

/-- `base` after fetches of the halfwords at some addresses, of memory with some bytes. -/
def fetched (l : Memory) : List (BitVec 48) → Res Nat
  | [] => .ok 0 (withMem l)
  | a :: rest => (fetched l rest).bind fun _ s => fetchHalf base.ctx a s

theorem test_wit_FetchReadsTheBytesAtPc :
    (hart0.lead.half 0x4000 = none ∧ translate base.ctx .fetch (word 0x4000) 0 base = .ok (0x4000, tlb1) base ∧
      lookup (base.core base.ctx.core).icache (lineOf 0x4000) = none ∧ poisoned (lineOf 0x4000) 64 base = false) ∧
    ({ hart0 with lead := ⟨0x4000, [(0x4000, 7), (0x4001, 8)], []⟩ } : Hart).lead.half 0x4000 = some 0x807 ∧
    (∃ t, fetched [] [0x4000] = .ok 0 t) ∧ (∃ t, fetched [(0x4000, 2)] [0x4000] = .ok 2 t) ∧
    (∃ t, fetched [(0x4000, 1)] [0x4000] = .ok 1 t) ∧ (∃ t, fetched [(0x4000, 1), (0x4002, 9)] [0x4002, 0x4000] = .ok 9 t) ∧
    (∃ t, fetched [(0x4000, 3)] [0x4000] = .ok 3 t) ∧
    (∃ t, fetched [(0x4000, 3), (0x4002, 9)] [0x4002, 0x4000] = .ok 9 t) ∧
    (∃ t, fetched [(0x4000, 3), (0x4004, 8)] [0x4004, 0x4002, 0x4000] = .ok 8 t) ∧
    ∃ t, fetched [(0x4000, 3), (0x4006, 7)] [0x4006, 0x4004, 0x4002, 0x4000] = .ok 7 t :=
  ⟨⟨rfl, ok_of (by decide +kernel), rfl, rfl⟩, by decide, ok_with (by decide +kernel), ok_with (by decide +kernel),
    ok_with (by decide +kernel), ok_with (by decide +kernel), ok_with (by decide +kernel), ok_with (by decide +kernel),
    ok_with (by decide +kernel), ok_with (by decide +kernel)⟩

theorem test_wit_DecodedIsWellFormed :
    (decodeTableWord 32 0x05045201 = some (.add 16 17 18) ∧ decodeTableWord 16 0x09AA = some (.addC 3 5) ∧
      decodeTableWord 64 0x00000001C1000003 = some .tfree) ∧
    (decodeTableWord 32 0x05045200 = none ∧ decodeTableWord 64 0x00000002C1000003 = none ∧
      decodeTableWord 64 0x04000001C1000003 = none) ∧
    (∃ t, fetched [] [0x4000] = .ok 0 t) ∧ (∃ t, fetched [(0x4000, 2)] [0x4000] = .ok 2 t) ∧
    (∃ t, fetched [(0x4000, 1), (0x4002, 9)] [0x4002, 0x4000] = .ok 9 t) ∧
    ∃ t, fetched [(0x4000, 3), (0x4006, 7)] [0x4006, 0x4004, 0x4002, 0x4000] = .ok 7 t :=
  ⟨by decide +kernel, by decide +kernel, ok_with (by decide +kernel), ok_with (by decide +kernel), ok_with (by decide +kernel),
    ok_with (by decide +kernel)⟩

theorem test_wit_ResetValues : (95 < 96 ∧ 5 < 6) ∧ (0 < 96 ∧ 0 < 6) := by decide

/-- The device clears the trip of a core next. -/
def tripClear : State := { base with agenda := [.event .pctlTripClear {}] }

theorem test_wit_MemoryStaysCanonical : tripClear.Sound ∧ ∃ t, step tripClear = .next t := ⟨rfl, _, rfl⟩

def stopped (l : List Turn) : State := { base with agenda := l, host := { base.host with fatal := true } }

theorem test_wit_FatalErrorStopsThePackage :
    ((stopped []).host.fatal = true ∧ (stopped []).agenda = []) ∧
    ((stopped [.event .hostNmRead {}]).host.fatal = true ∧
      (∀ n, (stopped [.event .hostNmRead {}]).agenda.head? ≠ some (.event .deviceReset n)) ∧
      ∃ t, step (stopped [.event .hostNmRead {}]) = .next t) ∧
    (({} : Input).wellFormed = true ∧ ∀ r, (stopped [.event r {}]).host.fatal = true ∧ (stopped [.event r {}]).agenda = [.event r {}]) :=
  ⟨⟨rfl, rfl⟩, ⟨rfl, (by simp [stopped]), _, rfl⟩, by decide, fun _ => ⟨rfl, rfl⟩⟩

/-! Scalar instructions -/

theorem test_wit_ScalarIntegerResults :
    Settled [8, 1, 2] [] base ∧ Settled [0, 63, 1] [] base ∧ Settled [8, 1] [] base ∧ Settled [8] [] base :=
  ⟨settled_mk rfl, settled_mk rfl, settled_mk rfl, settled_mk rfl⟩

/-- A VIQ entry of an instruction, with the captures of a hart after reset. -/
def viqEntry (i : Instr) : VEntry :=
  { instr := i, pc := 0, xs := [0, 0, 0], vl := 0, vtype := 0, mspace := 0, fpctl := 0, seed := 0, ric := 0, tgrant := 0, ptbase := 0
    asid := 0, sup := true, det := false, start := 0, seq := none, binds := [], strips := [], popped := false, flags := 0, old := none
    pins := [], ahead := [], limit := none }

/-- The last function or selector that each major has, and the first that it has not; and a hart to which x1 is owed. -/
theorem test_wit_ScalarIntegerWords :
    (decodeTableWord 32 0x05044041 = some (.mv 16 17) ∧ decodeTableWord 32 0x05044141 = none ∧
      decodeTableWord 32 0x05044045 = none ∧ decodeTableWord 32 0x185182FD = some (.shrai 5 6 63) ∧
      decodeTableWord 32 0x185183FD = none ∧ decodeTableWord 32 0x185184FD = none) ∧
    ¬ Settled [8, 1, 2] [] (state { hart0 with vec := { hart0.vec with viq := [viqEntry (.mpop 1 1)] } }) :=
  ⟨by decide +kernel, fun h => absurd (h.1 1 (by simp)) (by decide)⟩

/-- Also one whose x1 an AMO that has not committed is to give. -/
theorem test_wit_ScalarMultiplyDivideResults :
    (Settled [8, 1, 2] [] base ∧ base.hart.getX 0 = 0 ∧ base.hart.getX 1 ≠ 0 ∧ base.hart.getX 4 = BitVec.intMin 64 ∧
      base.hart.getX 5 = BitVec.allOnes 64) ∧
    (decodeTableWord 32 0x21045219 = some (.remn 16 17 18) ∧ decodeTableWord 32 0x2104521D = none) ∧
    ¬ Settled [8, 1, 2] [] (state { hart0 with ms := { hart0.ms with stq := [{ cells := [], amo := some ⟨0, 1, 0, 0, false, 0⟩ }] } }) :=
  ⟨⟨settled_mk rfl, by decide⟩, by decide +kernel, fun h => absurd (h.1 1 (by simp)) (by decide)⟩

theorem test_wit_ScalarIntegerFrame : scalarDest (.add 8 1 2) = some 8 ∧ ∃ t, exec (.add 8 1 2) base = .next t := ⟨rfl, _, rfl⟩

/-- x1 is 1.0 and x2 is 0 in fp64, with the trap of a division by zero enabled or not. -/
def divides (en : BitVec 9) : State := state { withX hart0 [(1, 0x3FF0000000000000)] with fp := { hart0.fp with ctl := en } }

theorem test_wit_ScalarFloatingResults :
    (Settled [8, 1, 2] [] (divides 0) ∧
      (let r := floatResult (divides 0).hart .fdiv 14 ((divides 0).hart.getX 1) ((divides 0).hart.getX 2) ((divides 0).hart.getX 8)
       floatQuiet (divides 0).hart r.2 (nonFinite 14 r.1))) ∧
    (let r := floatResult (divides 0).hart .fsqrt 14 ((divides 0).hart.getX 1) 0 ((divides 0).hart.getX 8)
     floatQuiet (divides 0).hart r.2 (nonFinite 14 r.1)) ∧
    (Settled [8, 1] [] (divides 0) ∧
      (let r := convertTo 2 (rmodeOf (bits (divides 0).hart.fp.ctl.toNat 0 3))
         (randomBits (divides 0).hart.fp.seed (divides 0).hart.fp.ric 0)
         (valueOf 14 (((divides 0).hart.getX 1).toNat % 2 ^ typeBits 14))
       floatQuiet (divides 0).hart r.2 (isFloat 2 && nonFinite 2 r.1))) ∧
    (Settled [1, 2] [3] (divides 0) ∧
      floatQuiet (divides 0).hart (fpRelation 2 (valueOf 14 0x3FF0000000000000) (valueOf 14 0)).2 false) ∧
    (Settled [8, 1, 2] [] (divides 0xF8) ∧ CanTrap (divides 0xF8) ∧
      (floatResult (divides 0xF8).hart .fdiv 14 ((divides 0xF8).hart.getX 1) ((divides 0xF8).hart.getX 2)
        ((divides 0xF8).hart.getX 8)).2 &&& bits (divides 0xF8).hart.fp.ctl.toNat 3 5 ≠ 0) ∧
    (Settled [8, 1, 2] [] (divides 0x100) ∧ CanTrap (divides 0x100) ∧
      (let r := floatResult (divides 0x100).hart .fdiv 14 ((divides 0x100).hart.getX 1) ((divides 0x100).hart.getX 2)
         ((divides 0x100).hart.getX 8)
       floatTraps (divides 0x100).hart r.2 (nonFinite 14 r.1))) := by
  refine ⟨⟨settled_mk rfl, ?_⟩, ?_, ⟨settled_mk rfl, ?_⟩, ⟨settled_mk rfl, ?_⟩, ⟨settled_mk rfl, ?_, ?_⟩, settled_mk rfl, ?_, ?_⟩
  all_goals first
    | exact state_canTrap _ (by decide) (by decide)
    | exact ⟨by decide +kernel, fun h => absurd h (by decide +kernel)⟩
    | exact .inr ⟨by decide +kernel, by decide +kernel⟩
    | decide +kernel

/-- −2.75 in each format, from the table of R118; 464 is the tie above the 448 of E4M3, and 1 + 2⁻¹¹ one of fp16. -/
theorem test_round_spec_table :
    convertTo 13 .rne 0 (.num true 11 (-2)) = (0xC0300000, 0) ∧ convertTo 11 .rne 0 (.num true 11 (-2)) = (0xC180, 0) ∧
      convertTo 12 .rne 0 (.num true 11 (-2)) = (0xC030, 0) ∧ convertTo 8 .rne 0 (.num true 11 (-2)) = (0xC3, 0) ∧
      convertTo 9 .rne 0 (.num true 11 (-2)) = (0xC2, NX) ∧ blockElem 10 .rne 0 0x7F (.num true 11 (-2)) = (0xD, NX) := by
  decide +kernel

theorem test_wit_RoundsTo :
    ((fmtOf 11).mag 0x3C00 = (1 : Nat) * 2 ^ (0 : Int) ∧ 0x3C00 ≤ (fmtOf 11).top) ∧
    ((fmtOf 11).mag 0x3C00 < (2049 : Nat) * 2 ^ (-11 : Int) ∧ (2049 : Nat) * 2 ^ (-11 : Int) < (fmtOf 11).mag 0x3C01) ∧
    (fmtOf 8).mag (fmtOf 8).top < (464 : Nat) * 2 ^ (0 : Int) ∧ (((2 : Nat) : ℚ) ≤ (11 : Nat) * 2 ^ (-2 : Int) ∧
      ((11 : Nat) * 2 ^ (-2 : Int) : ℚ) < (2 : Nat) + 1) := by decide +kernel

theorem test_wit_FloatLaws :
    (let one := valueOf 13 0x3F800000
     let zero := valueOf 13 0
     let inf := valueOf 13 0x7F800000
     let two := valueOf 13 0x40000000
     let three := valueOf 13 0x40400000
     one.special = false ∧ one.rat + one.rat ≠ 0 ∧ one.rat - one.rat = 0 ∧ one.rat ≠ 0 ∧ (fmtOf 13).mag 0x3F800000 = |one.rat / one.rat| ∧
       (fmtOf 13).mag 0x3EAAAAAA < |one.rat / three.rat| ∧ |one.rat / three.rat| < (fmtOf 13).mag 0x3EAAAAAB ∧
       0 < two.rat ∧ (fmtOf 13).mag 0x3F800000 ^ 2 / one.rat = 1 ∧ (fmtOf 13).mag 0x3FB504F3 ^ 2 / two.rat < 1 ∧
       1 < (fmtOf 13).mag 0x3FB504F4 ^ 2 / two.rat ∧ (fmtOf 13).mag 0x3F13CD3A ^ 2 * three.rat < 1 ∧
       1 < (fmtOf 13).mag 0x3F13CD3B ^ 2 * three.rat ∧ zero = .zero false ∧ zero.rat = 0 ∧ (valueOf 13 0xBF800000).rat < 0 ∧
       inf = .inf false ∧ inf.special = true ∧ inf.isNan = false ∧ (valueOf 13 0x7FC00000).isNan = true ∧
       (valueOf 13 0x7F800001).isSnan = true) ∧
    (let l : List FVal := [.num true 3 0, .zero false]
     (∀ v ∈ l, v.special = false ∧ |v.rat| < 2 ^ ((1 : Int) + 1)) ∧ ∃ v ∈ l, 2 ^ (1 : Int) ≤ |v.rat|) ∧
    (∃ v ∈ [FVal.inf true], v.special = true) ∧ (∀ v ∈ [FVal.zero true], v = .zero v.isNeg) := by
  refine ⟨by decide +kernel, by decide +kernel, ⟨_, List.mem_singleton.mpr rfl, rfl⟩, ?_⟩
  intro v h
  rw [List.mem_singleton.mp h]
  rfl

/-- Square root of -1, conversion to i32 of 2^31 and comparison with a signalling NaN raise NV, whose trap is enabled. -/
def invalid (w : Word) : State := state { withX hart0 [(1, w)] with fp := { hart0.fp with ctl := 8 } }

theorem test_wit_FloatTrapOfOneOperand :
    (let h := (invalid 0xBFF0000000000000).hart
     let r := floatResult h .fsqrt 14 (h.getX 1) 0 (h.getX 8)
     floatTraps h r.2 (nonFinite 14 r.1)) ∧
    (let h := (invalid 0x41E0000000000000).hart
     let r := convertTo 2 (rmodeOf (bits h.fp.ctl.toNat 0 3)) (randomBits h.fp.seed h.fp.ric 0) (valueOf 14 ((h.getX 1).toNat % 2 ^ 64))
     floatTraps h r.2 false) ∧
    (let h := (invalid 0x7FF0000000000001).hart
     floatTraps h (fpRelation 2 (valueOf 14 ((h.getX 1).toNat % 2 ^ 64)) (valueOf 14 0)).2 false) ∧
    (∀ w, CanTrap (invalid w)) :=
  ⟨.inl (by decide +kernel), .inl (by decide +kernel), .inl (by decide +kernel), fun _ =>
    state_canTrap _ (show hart0.tr.tbase ≠ 0 by decide) (show (hart0.tr.sup && hart0.tr.tcause.getLsbD 59) = false by decide)⟩

theorem test_wit_ConditionResults :
    (Settled [1, 2] [0] base ∧ (5 : BitVec 3).toNat < 6) ∧ Settled [] [0, 1, 7] base ∧ Settled [] [0, 1] base ∧
    Settled [1] [0] base ∧ Settled [63] [7] base :=
  ⟨⟨settled_mk rfl, by decide⟩, settled_mk rfl, settled_mk rfl, settled_mk rfl, settled_mk rfl⟩

theorem test_wit_TransferOutcomes :
    (Settled [1] [] base ∧ (base.hart.getX 1).getLsbD 0 = false ∧ Settled [63] [] base) ∧
    ((base.hart.getB 1).v = true ∧ (base.hart.getB 1).pf = 2 ∧ Settled [] [1] base ∧ base.hart.getK 1 = true ∧
      base.hart.getK 0 = false) ∧
    ((base.hart.getB 0).v = false ∧ CanTrap base) :=
  ⟨⟨settled_mk rfl, by decide, settled_mk rfl⟩, ⟨rfl, rfl, settled_mk rfl, rfl, rfl⟩, rfl, base_canTrap⟩

/-! Exceptions -/

/-- A hart of no group, with a handler or none, in an exception or not. -/
def alone (tbase tcause : Word) : State :=
  state { hart0 with id := { hart0.id with group := none }, tr := { hart0.tr with tbase := tbase, tcause := tcause } }

/-- A hart of a group without a handler. -/
def noHandler : State := state { hart0 with tr := { hart0.tr with tbase := 0 } }

theorem test_wit_ExceptionEntries :
    CanTrap base ∧
    (isFerry (alone 0 0).me = false ∧ (alone 0 0).hart.id.group = none ∧
      ((alone 0 0).bank (alone 0 0).here 0).status.getLsbD 63 = false ∧ (alone 0 0).hart.tr.tbase = 0) ∧
    (isFerry (alone 0x8000 0x0800000000000000).me = false ∧ (alone 0x8000 0x0800000000000000).hart.id.group = none ∧
      ((alone 0x8000 0x0800000000000000).bank (alone 0x8000 0x0800000000000000).here 0).status.getLsbD 63 = false ∧
      (alone 0x8000 0x0800000000000000).hart.tr.tbase ≠ 0 ∧ (alone 0x8000 0x0800000000000000).hart.tr.sup = true ∧
      (alone 0x8000 0x0800000000000000).hart.tr.tcause.getLsbD 59 = true) ∧
    (noHandler.hart.tr.tbase = 0 ∧ (noHandler.bank noHandler.here 0).status.getLsbD 63 = false ∧
      noHandler.hart.id.group = some 0 ∧ noHandler.group? 0 = some group0 ∧ group0.core.toNat = noHandler.here ∧
      noHandler.curHart ∈ group0.harts) :=
  ⟨base_canTrap, ⟨rfl, rfl, rfl, rfl⟩, ⟨rfl, rfl, rfl, by decide, rfl, rfl⟩, rfl, rfl, rfl, rfl, rfl, by decide⟩

def claimed : State := state { hart0 with run := { hart0.run with claimed := true } }
def atU : State := state (user hart0)

theorem test_wit_SoftwareAndPrivilegeTraps :
    (CanTrap base ∧ base.hart.run.claimed = false) ∧ (CanTrap claimed ∧ claimed.hart.run.claimed = true) ∧
    (CanTrap atU ∧ atU.hart.tr.sup = false) ∧
    ([0x020, 0x02A, 0x060, 0x061, 0x100, 0x108] : List (BitVec 12)).all (fun c =>
      decide (0x020 ≤ c.toNat ∧ c.toNat ≤ 0x02A ∨ c = 0x060 ∨ c = 0x061 ∨ 0x100 ≤ c.toNat)) = true :=
  ⟨⟨base_canTrap, rfl⟩, ⟨state_canTrap _ (by decide) (by decide), rfl⟩, ⟨state_canTrap _ (by decide) (by decide), rfl⟩,
    by decide⟩

/-- In a handler whose trap cannot be resumed. -/
def lost : State := state { hart0 with tr := { hart0.tr with tcause := 0x8800000000000013 } }

theorem test_wit_ExceptionReturns :
    (isFerry base.me = false ∧ base.hart.tr.sup = true ∧ base.hart.vec.viq = [] ∧ base.hart.tr.tcause.getLsbD 63 = false) ∧
    (isFerry lost.me = false ∧ lost.hart.tr.sup = true ∧ lost.hart.vec.viq = [] ∧ lost.hart.tr.tcause.getLsbD 63 = true ∧
      Idle lost ∧ incomplete false lost = false ∧ incomplete true lost = false) ∧
    (CanTrap base ∧ base.hart.vec.viq = [] ∧ base.hart.vec.held = [] ∧ base.hart.lp.loop = none ∧
      ∀ p ∈ base.hart.ms.stq, p.after = 0 ∧ p.parked = false) :=
  ⟨⟨rfl, rfl, rfl, rfl⟩, ⟨rfl, rfl, rfl, rfl, ⟨rfl, rfl, rfl, rfl, rfl⟩, rfl, rfl⟩, base_canTrap, rfl, rfl, rfl, nofun⟩

/-! Memory and system instructions -/

theorem base_reads (va : Word) (n p : Nat) (a : va.toNat % n = 0) (b : okIs (translate base.ctx .read va 0 base) (p, tlb1) base = true) :
    Reaches .read va n p tlb1 base base := ⟨a, ok_of b, rfl, rfl, rfl, rfl⟩

/-- A hart with nothing in flight whose commits take turns of their own. -/
def lagging : State := state { hart0 with vec := { hart0.vec with lag := true } }

theorem lagging_idle : Idle lagging := ⟨rfl, rfl, rfl, rfl, rfl⟩

/-- A page of host memory at address 0. -/
def hostPage : TlbEntry := { tlb1 with pte := 0x46F }
def hostSide : State := base.modCore 0 fun k => { k with tlb := [hostPage] }

theorem test_wit_LoadStoreResults :
    (Settled [8, 1] [] base ∧
      Reaches .read (base.hart.getX 1 + (0x1FF : BitVec 9).signExtend 64 * BitVec.ofNat 64 8) 8 0xF8 tlb1 base base) ∧
    (Settled [8, 63] [] base ∧ Reaches .read (base.hart.getX 63 + (3 : BitVec 9).signExtend 64 * BitVec.ofNat 64 1) 1 3 tlb1 base base ∧
      3 % 1 = 0 ∧ lookup (base.core base.here).ccache (lineOf 3) = none ∧ poisoned (lineOf 3) 64 base = false ∧
      memoryOf (lineOf 3) ≠ 2 ∧ (base.core base.here).ccache.length < 256) ∧
    (Settled [8, 63] [] hostSide ∧ Reaches .read 3 1 (2 * 2 ^ 56 + 3) hostPage hostSide hostSide ∧
      (hostSide.hart.getX 63 + (3 : BitVec 9).signExtend 64 * BitVec.ofNat 64 1) = 3 ∧
      memoryOf (lineOf (2 * 2 ^ 56 + 3)) = 2) ∧
    (Settled [8, 6] [] base ∧ ReachesLs (base.hart.getX 6 + (0 : BitVec 9).signExtend 64 * BitVec.ofNat 64 8) 8 base) ∧
    (Settled [15] [] base ∧ ReachesLs (BitVec.ofNat 64 (8 * 31)) 8 base) ∧
    (base.Sound ∧ Idle base ∧ base.hart.vec.lag = false ∧ base.hart.run.wait = none ∧
      Reaches .write (base.hart.getX 1 + (0 : BitVec 9).signExtend 64 * BitVec.ofNat 64 8) 8 0x100 tlb1 base base ∧
      (base.hart.getX 6).toNat % 8 = 0 ∧ (base.hart.getX 6).toNat + 8 ≤ base.arenaSize ∧
      (BitVec.ofNat 64 (8 * 31)).toNat + 8 ≤ base.arenaSize) ∧
    (lagging.Sound ∧ Idle lagging ∧ lagging.hart.vec.lag = true ∧ (lagging.hart.getX 6).toNat % 8 = 0 ∧
      (lagging.hart.getX 6).toNat + 8 ≤ lagging.arenaSize) :=
  ⟨⟨settled_mk rfl, base_reads _ _ _ (by decide) (by decide +kernel)⟩,
    ⟨settled_mk rfl, base_reads _ _ _ (by decide) (by decide +kernel), rfl, rfl, rfl, by decide, by decide⟩,
    ⟨settled_mk rfl, ⟨by decide, ok_of (by decide +kernel), rfl, rfl, rfl, rfl⟩, by decide, by decide⟩,
    ⟨settled_mk rfl, by decide, by decide, rfl, rfl, rfl⟩, ⟨settled_mk rfl, by decide, by decide, rfl, rfl, rfl⟩,
    ⟨rfl, base_idle, rfl, rfl, ⟨by decide, ok_of (by decide +kernel), rfl, rfl, rfl, rfl⟩, by decide, by decide, by decide⟩,
    rfl, lagging_idle, rfl, by decide, by decide⟩

/-- A hart with a store of its own that has not committed. -/
def behind : State := state { hart0 with
  vec := { hart0.vec with lag := true }
  ms := { hart0.ms with stq := [{ cells := cellsOf 0x200 8 5, scalar := true }] } }

theorem test_wit_AtomicResults :
    (base.Sound ∧ Idle base ∧ Reaches .amo (base.hart.getX 1) 8 0x100 tlb1 base base) ∧
    (behind.hart.vec.viq = [] ∧ behind.hart.vec.lag = true ∧ behind.hart.ms.stq ≠ [] ∧
      ((3 : BitVec 2).getLsbD 1 = false ∨ behind.hart.vec.held = []) ∧ Settled [8, 1, 2] [] behind ∧
      (behind.hart.getX 1).toNat % 8 = 0 ∧ translate behind.ctx .amo (behind.hart.getX 1) 0 behind = .ok (0x100, tlb1) behind) :=
  ⟨⟨rfl, base_idle, by decide, ok_of (by decide +kernel), rfl, rfl, rfl, rfl⟩, rfl, rfl, by decide, .inr rfl, settled_mk rfl, by decide,
    ok_of (by decide +kernel)⟩

theorem test_wit_AccessTraps :
    (CanTrap base ∧ Settled [8, 7, 2, 15] [] base ∧
      (base.hart.getX 7 + (0 : BitVec 9).signExtend 64 * BitVec.ofNat 64 2).toNat % 2 ≠ 0 ∧
      (base.hart.getX 7).toNat % 8 ≠ 0 ∧ (base.hart.getX 7).getLsbD 0 = true) ∧
    (Settled [8, 6, 2, 15] [] base ∧ (base.hart.getX 6 + (1 : BitVec 9).signExtend 64 * BitVec.ofNat 64 8).toNat % 8 = 0 ∧
      base.arenaSize < (base.hart.getX 6 + (1 : BitVec 9).signExtend 64 * BitVec.ofNat 64 8).toNat + 8) ∧
    (CanTrap (alone 0x8000 0) ∧ Settled [8, 7, 2, 15] [] (alone 0x8000 0) ∧
      (alone 0x8000 0).arenaSize < 8 * (0 : BitVec 5).toNat + 8) :=
  ⟨⟨base_canTrap, settled_mk rfl, by decide, by decide, rfl⟩, ⟨settled_mk rfl, by decide, by decide⟩,
    state_canTrap _ (by decide) (by decide), settled_mk rfl, by decide⟩

/-- The policy of tenant 0 limits its fences to the package. -/
def limited : State := base.modTenant 0 fun t => { t with lim := true }

theorem test_wit_SystemFenceWaitResults :
    (Idle base ∧ (5 : BitVec 3) ≠ 0 ∧ base.myTenant.lim = false ∧ incomplete false base = false ∧ base.hart.tr.sup = true) ∧
    (Idle (alone 0 0) ∧ (alone 0 0).hart.id.group = none) ∧
    (Idle limited ∧ limited.hart.id.group ≠ none ∧ limited.myTenant.lim = true) ∧
    (Settled [1, 2] [] base ∧ Reaches .read (base.hart.getX 1) 8 0x100 tlb1 base base ∧
      BitVec.ofNat 64 (readNat base.mem 0x100 8) ≠ base.hart.getX 2) ∧
    (Settled [1, 0] [] base ∧ BitVec.ofNat 64 (readNat base.mem 0x100 8) = base.hart.getX 0) :=
  ⟨⟨base_idle, by decide, rfl, rfl, rfl⟩, ⟨⟨rfl, rfl, rfl, rfl, rfl⟩, rfl⟩, ⟨⟨rfl, rfl, rfl, rfl, rfl⟩, by decide, rfl⟩,
    ⟨settled_mk rfl, base_reads _ _ _ (by decide) (by decide +kernel), by decide⟩, settled_mk rfl, by decide⟩

/-- Far memory with the nodes of a walk to page 0: the root at page 1, and nodes at pages 2 to 4. -/
def pages (leaf : Word) : State :=
  let node : Nat → Nat := fun n => 2 ^ 56 + 4096 * n
  let m : Memory := []
  { base with mem := writeNat (writeNat (writeNat (writeNat m (node 1) 8 0x20201) (node 2) 8 0x30201) (node 3) 8 0x40201) (node 4) 8
                leaf.toNat }

/-- What the statement asks of the memory, the pointers and the leaf. -/
def walks (leaf : Word) : Bool :=
  let m := (pages leaf).mem
  ([0x20201, 0x30201, 0x40201] : List Word).all (fun q =>
    q.getLsbD 0 && wbits q 14 2 == 0 && wbits q 1 3 == 0 && wbits q 9 2 == 1) &&
  m.wf && readNat m (2 ^ 56 + 1 * 4096 + 8 * bits 0 39 9) 8 == (0x20201 : Word).toNat &&
  readNat m (1 * 2 ^ 56 + wbits (0x20201 : Word) 16 40 * 4096 + 8 * bits 0 30 9) 8 == (0x30201 : Word).toNat &&
  readNat m (1 * 2 ^ 56 + wbits (0x30201 : Word) 16 40 * 4096 + 8 * bits 0 21 9) 8 == (0x40201 : Word).toNat &&
  readNat m (1 * 2 ^ 56 + wbits (0x40201 : Word) 16 40 * 4096 + 8 * bits 0 12 9) 8 == leaf.toNat &&
  wbits leaf 14 2 == 0 && wbits leaf 1 3 != 0 && wbits leaf 11 2 == 0

/-- The leaves: not valid, without the permission to read, with writes blocked, and one that allows a read. -/
theorem test_wit_PageWalk :
    (walks 0x1006E = true ∧ (0x1006E : Word).getLsbD 0 = false) ∧
    (walks 0x10005 = true ∧ (0x10005 : Word).getLsbD 0 = true ∧ (0x10005 : Word).getLsbD 1 = false) ∧
    (walks 0x1008F = true ∧ (0x1008F : Word).getLsbD 0 = true ∧ (0x1008F : Word).getLsbD 2 = true ∧
      (0x1008F : Word).getLsbD 4 = false ∧ (0x1008F : Word).getLsbD 7 = true) ∧
    (walks 0x1000F = true ∧ (0x1000F : Word).getLsbD 0 = true ∧ (0x1000F : Word).getLsbD 1 = true ∧
      (0x1000F : Word).getLsbD 4 = false) := by decide +kernel

/-! Control registers -/

theorem test_wit_ControlReads :
    ControlReady base ∧ Settled [8] [] base ∧ (base.hart.tile.claim.getD ([], [])).1.length ≤ 8 ∧
      (base.hart.tile.claim.getD ([], [])).2.length ≤ 4 ∧ ((base.myGroup.map fun g => g.freeAccs.length).getD 0) ≤ 4 ∧
      ((base.myGroup.map fun g => g.freeTiles.length).getD 0) ≤ 8 := ⟨base_control, settled_mk rfl, by decide⟩

def withW (w : Word) : State := state (withX hart0 [(1, w)])

theorem withW_control (w : Word) : ControlReady (withW w) := ⟨rfl, rfl, rfl, rfl, rfl, rfl⟩
theorem withW_settled (w : Word) : Settled [1] [] (withW w) := settled_mk rfl
theorem withW_canTrap (w : Word) : CanTrap (withW w) := state_canTrap _ (by change (0x8000 : Word) ≠ 0; decide) (by change (true && (0 : Word).getLsbD 59) = false; decide)

/-- In a handler, with an instruction that the trap holds. -/
def holding : State := state { hart0 with
  tr := { hart0.tr with tcause := 0x0800000000000000 }
  vec := { hart0.vec with held := [viqEntry (.vadd 1 2 3 0)] } }

theorem test_wit_ControlWriteResults :
    (ControlReady base ∧ ∀ w, Settled [1] [] (withW w)) ∧
    (ControlReady (withW 0x0E0E) ∧ wbits ((withW 0x0E0E).hart.getX 1) 0 4 ≠ 15 ∧ wbits ((withW 0x0E0E).hart.getX 1) 8 4 ≠ 15) ∧
    (ControlReady (withW 0x0F) ∧ CanTrap (withW 0x0F) ∧ wbits ((withW 0x0F).hart.getX 1) 0 4 = 15) ∧
    (ControlReady (withW 5) ∧ wbits ((withW 5).hart.getX 1) 0 3 < 6 ∧ ControlReady (withW 6) ∧ CanTrap (withW 6) ∧
      6 ≤ wbits ((withW 6).hart.getX 1) 0 3) ∧
    (ControlReady (withW 0) ∧ ((withW 0).hart.getX 1).getLsbD 0 = (withW 0).hart.lp.det) ∧
    Idle base ∧
    (isFerry holding.me = false ∧ holding.hart.tr.sup = true ∧ Settled [1] [] holding ∧ holding.hart.vec.held ≠ [] ∧
      (holding.hart.getX 1).getLsbD 59 = false) :=
  ⟨⟨base_control, withW_settled⟩, ⟨withW_control _, by decide, by decide⟩, ⟨withW_control _, withW_canTrap _, by decide⟩,
    ⟨withW_control _, by decide, withW_control _, withW_canTrap _, by decide⟩, ⟨withW_control _, by decide⟩, base_idle,
    rfl, rfl, settled_mk rfl, by decide, by decide⟩

/-- A hart whose recursion has stopped, with x1 = `w`. -/
def halfway (w : Word) : State := state { withX hart0 [(1, w)] with rc := { hart0.rc with stop := true } }

/-- Another hart keeps the page pinned. -/
def pinned : State := base.modHartAt 0 1 fun h =>
  { h with vec := { h.vec with viq := [{ viqEntry (.vld 1 1 0 0) with pins := [⟨tlb1, 0⟩] }] } }

/-- A hart whose TLBINV waits for pins that are gone. -/
def invalidating : State := state { hart0 with run := { hart0.run with inval := some ⟨3, 0, 0, 0⟩ } }

theorem test_wit_ControlEffects :
    (ControlReady base ∧ Settled [1] [] base ∧ Idle base ∧ base.hart.run.inval = none ∧ pinnedStill ⟨0, 0, 0, base.inval⟩ base = false) ∧
    (ControlReady pinned ∧ Settled [1] [] pinned ∧ Idle pinned ∧ pinnedStill ⟨3, 0, 0, pinned.inval⟩ pinned = true) ∧
    (ControlReady invalidating ∧ Settled [1] [] invalidating ∧ invalidating.hart.run.inval = some ⟨3, 0, 0, 0⟩ ∧
      pinnedStill ⟨3, 0, 0, 0⟩ invalidating = false) ∧
    (ControlReady (halfway 0x0400000000000000) ∧ Settled [1] [] (halfway 0x0400000000000000) ∧ (halfway 0x0400000000000000).hart.rc.stop = true ∧
      ((halfway 0x0400000000000000).hart.getX 1).getLsbD 58 = true) ∧
    (ControlReady (withW 1) ∧ Settled [1] [] (withW 1) ∧ ((withW 1).hart.getX 1).getLsbD 0 = true) :=
  ⟨⟨base_control, settled_mk rfl, base_idle, rfl, rfl⟩,
    ⟨⟨rfl, rfl, rfl, rfl, rfl, rfl⟩, settled_mk rfl, ⟨rfl, rfl, rfl, rfl, rfl⟩, by decide⟩,
    ⟨⟨rfl, rfl, rfl, rfl, rfl, rfl⟩, settled_mk rfl, rfl, rfl⟩, ⟨⟨rfl, rfl, rfl, rfl, rfl, rfl⟩, settled_mk rfl, rfl, by decide⟩,
    withW_control _, withW_settled _, by decide⟩

/-! Engine words, streams and channels -/

/-- `base` with the engine words of its hart as `f` says. -/
def withMs (f : MemState → MemState) : State := state { hart0 with ms := f hart0.ms }

/-- x[1] is 0, or the words pushed and the tokens are as given. -/
def words0 (l : List Word) : State := withMs fun m => { m with copyWords := l }

def cmd0 : CopyCmd := ⟨[0, 0, 0, 1], 0, 0, 0, 0, true, false, 0, 0⟩

/-- A command of the copy FIFO or of the engine of die 0 with first word `w`, and a hart that has found no token due, or not. -/
def busyWith (w : Word) (deq : Bool) : State :=
  (state { hart0 with run := { hart0.run with deq := deq } }).modCore 0 fun k => { k with copyFifo := [{ cmd0 with words := [w, 0, 0, 1] }] }
def collBusy (w : Word) (deq : Bool) : State :=
  (state { hart0 with run := { hart0.run with deq := deq } }).modDie 0 fun d => { d with coll := [⟨[w, 0, 0, 1], 0, 0, 0, 0, 0, true, false, false, 0⟩] }

/-- An AMO of the hart that acquires has not committed. -/
def acquiring : State := withMs fun m => { m with stq := [{ cells := [], amo := some ⟨0, 1, 0, 0, true, 0⟩ }] }

/-- Whether a command of the hart is incomplete on a unit, and one whose token is due. -/
def dueOn (c : Bool) (s : State) (p : List Word → Bool) : Bool :=
  if c then (s.die (s.here / 24)).coll.any fun q => q.core == s.curCore && q.hart == s.curHart && !q.answered && p q.words
  else (s.core s.here).copyFifo.any fun q => q.hart == s.curHart && p q.words
def owes (words : List Word) : Bool := (words.getD 0 0).getLsbD 16

/-- What the statement asks of the first word of a collective command. -/
def collLegal (w : Word) : Bool :=
  decide (wbits w 2 3 < 3) && wbits w 5 3 == 0 && wbits w 17 3 == 0 && [2, 3, 6, 7, 13, 14].contains (wbits w 20 4) &&
  wbits w 30 2 == 0 && decide (wbits w 32 8 < 4 * (wbits w 24 6 + 1)) && wbits w 40 24 == 0

theorem test_wit_CommandAndTokenResults :
    (isFerry base.me = false ∧ Settled [1] [] base ∧ Idle base ∧ base.hart.ms.copyWords = [] ∧
      (base.core base.here).copyFifo.length < 16) ∧
    ((words0 [1]).hart.ms.copyWords ≠ [] ∧ (words0 [1]).hart.ms.copyWords.length < 3 ∧
      ((words0 [1]).core (words0 [1]).here).copyFifo.length < 16 ∧ Settled [1] [] (words0 [1])) ∧
    ((withMs fun m => { m with collWords := [1, 2] }).hart.ms.collWords ≠ [] ∧
      (withMs fun m => { m with collWords := [1, 2] }).hart.ms.collWords.length < 3) ∧
    ((words0 [0x500, 0, 0]).hart.ms.copyWords = [0x500, 0, 0] ∧ wbits (0x500 : Word) 0 2 < 2 ∧ wbits (0x500 : Word) 2 2 = 0 ∧
      wbits (0x500 : Word) 4 2 < 3 ∧ wbits (0x500 : Word) 6 2 < 3 ∧ wbits (0x500 : Word) 17 47 = 0 ∧
      (words0 [0x500, 0, 0]).hart.getX 1 ≠ 0 ∧ ((words0 [0x500, 0, 0]).hart.getX 1).toNat < 2 ^ 40 ∧
      Settled [0] [] (words0 [0x500, 0, 0]) ∧ (words0 [0x500, 0, 0]).hart.getX 0 = 0) ∧
    ((withMs fun m => { m with collWords := [0xD00000, 0, 0] }).hart.ms.collWords = [0xD00000, 0, 0] ∧
      collLegal 0xD00000 = true ∧ (0x100 : Word) ≠ 0 ∧ (withMs fun m => { m with collWords := [0xD00000, 0, 0] }).hart.getX 1 = 0x100 ∧
      ((withMs fun m => { m with collWords := [0xD00000, 0, 0] }).die 0).coll.length < 16) ∧
    ((withMs fun m => { m with collWords := [0x18, 0, 0] }).hart.ms.collWords = [0x18, 0, 0] ∧ 5 < wbits (0x18 : Word) 2 3) ∧
    (base.hart.ms.collWords = [] ∧ (base.die (base.here / 24)).coll = []) ∧
    ((withMs fun m => { m with copyTokens := [7] }).hart.ms.copyTokens = 7 :: [] ∧
      Settled [8] [] (withMs fun m => { m with copyTokens := [7] })) ∧
    (withMs fun m => { m with collTokens := [7] }).hart.ms.collTokens = 7 :: [] ∧
    (Settled [8] [] acquiring ∧ acquiring.hart.ms.stq.any (fun p => p.amo.any (·.acquires)) = true) ∧
    (∀ w b, Settled [8] [] (busyWith w b) ∧ Settled [8] [] (collBusy w b) ∧ (busyWith w b).hart.ms.stq = [] ∧
      (collBusy w b).hart.ms.stq = [] ∧ (busyWith w b).hart.ms.copyTokens = [] ∧ (collBusy w b).hart.ms.collTokens = [] ∧
      (busyWith w b).hart.run.deq = b ∧ (collBusy w b).hart.run.deq = b) ∧
    (dueOn false (busyWith 0 true) (fun _ => true) = true ∧ dueOn true (collBusy 0 true) (fun _ => true) = true) ∧
    (dueOn false (busyWith 0x10000 false) owes = true ∧ dueOn true (collBusy 0x10000 false) owes = true ∧
      dueOn false (busyWith 0 false) owes = false ∧ dueOn true (collBusy 0 false) owes = false) ∧
    (base.hart.ms.copyTokens = [] ∧ base.hart.ms.collTokens = [] ∧ dueOn false base (fun _ => true) = false ∧
      dueOn true base (fun _ => true) = false ∧ CanTrap base) :=
  ⟨⟨rfl, settled_mk rfl, base_idle, rfl, by decide⟩, ⟨by decide, by decide, by decide, settled_mk rfl⟩, ⟨by decide, by decide⟩,
    ⟨rfl, by decide, by decide, by decide, by decide, by decide, by decide, by decide, settled_mk rfl, rfl⟩,
    ⟨rfl, by decide, by decide, rfl, by decide⟩, ⟨rfl, by decide⟩, ⟨rfl, rfl⟩,
    ⟨rfl, settled_mk rfl⟩, rfl, ⟨settled_mk rfl, rfl⟩,
    fun _ _ => ⟨settled_mk rfl, settled_mk rfl, rfl, rfl, rfl, rfl, rfl, rfl⟩, ⟨rfl, rfl⟩, ⟨rfl, rfl, rfl, rfl⟩, rfl, rfl, rfl, rfl, base_canTrap⟩

/-- A descriptor of six levels of one element at LS offset 0x100. -/
def descriptor : State :=
  withMem ((List.range 6).map fun j => (lsPlace 0 (0x100 + 16 + 8 * j), 1))

def slot (b : Option VReg) : Stream := ⟨⟨0, 0, 0, false, false, 0, []⟩, 0, b, 0⟩
def withSlot (b : Option VReg) : State := withMs fun m => { m with streams := [(2, slot b)] }

/-- What the statement asks of a descriptor's fields. -/
def legalDescriptor (s : State) (p : Nat) : Bool :=
  let at' : Nat → Nat → Nat := fun i k => readNat s.mem (p + i) k
  at' 6 2 == 0 && decide (at' 8 1 < 4) && decide (at' 9 1 < 15) && at' 9 1 != 10 && decide (at' 10 1 < 2) && decide (at' 11 1 < 16) &&
  at' 12 4 == 0 && (List.range 6).all fun j => at' (16 + 8 * j) 4 != 0 && signedOf 32 (at' (20 + 8 * j) 4) % 1 == 0

theorem test_wit_StreamDefinition :
    (isFerry descriptor.me = false ∧ descriptor.hart.lp.loop = none ∧ Settled [1] [] descriptor ∧
      ReachesLs (descriptor.hart.getX 1) 64 descriptor ∧ (∀ q, lookup descriptor.hart.ms.streams 0 = some q → q.bound = none) ∧
      legalDescriptor descriptor (lsPlace descriptor.here (descriptor.arenaBase + (descriptor.hart.getX 1).toNat)) = true) ∧
    (lookup (withSlot none).hart.ms.streams 2 = some (slot none) ∧ (slot none).bound = none ∧
      ∀ e ∈ (withSlot none).hart.ms.streams, e.2.bound ≠ some 5) ∧
    (lookup (withSlot (some 5)).hart.ms.streams 2 = some (slot (some 5)) ∧ (slot (some 5)).bound ≠ none ∧
      CanTrap (withSlot (some 5))) ∧
    (lookup base.hart.ms.streams 2 = none ∧ CanTrap base) := by
  refine ⟨⟨rfl, rfl, settled_mk rfl, ⟨by decide, by decide, rfl, rfl, rfl⟩, nofun, by decide +kernel⟩, ⟨rfl, rfl, ?_⟩,
    ⟨rfl, by decide, state_canTrap _ (by decide) (by decide)⟩, rfl, base_canTrap⟩
  intro e he
  rw [List.mem_singleton.mp he]
  decide

/-- Two slots of 64 bytes at offset 0 of group 0. -/
def ring (filled : Bool) : Channel :=
  { group := 0, base := 0, nslot := 2, sz := 0, filled := bit filled, free := 2 - bit filled, head := 0, tail := bit filled
    marks := if filled then [0] else [], resv := [] }

def withRing (filled : Bool) : State := base.modCore 0 fun k => { k with channels := [(3, ring filled)] }

theorem test_wit_ChannelBehaviour :
    (isFerry (withW 0x100000000).me = false ∧ Settled [1] [] (withW 0x100000000) ∧
      lookup ((withW 0x100000000).core (withW 0x100000000).here).channels 3 = none ∧
      1 < wbits ((withW 0x100000000).hart.getX 1) 32 8 + 1 ∧ wbits ((withW 0x100000000).hart.getX 1) 40 4 ≤ 10 ∧
      wbits ((withW 0x100000000).hart.getX 1) 44 20 = 0 ∧ wbits ((withW 0x100000000).hart.getX 1) 0 32 % 2 ^ (0 + 6) = 0 ∧
      wbits ((withW 0x100000000).hart.getX 1) 0 32 + 2 * 2 ^ (0 + 6) ≤ (withW 0x100000000).arenaSize) ∧
    (isFerry (withRing false).me = false ∧ Settled [8, 1] [] (withRing false) ∧
      lookup ((withRing false).core (withRing false).here).channels 3 = some (ring false) ∧
      (withRing false).hart.id.group = some (ring false).group ∧ Idle (withRing false) ∧ (withRing false).hart.vec.lag = false ∧
      (withRing false).hart.run.wait = none ∧ (withRing false).Sound ∧ (ring false).resv = [] ∧ 0 < (ring false).free ∧
      (ring false).base + (ring false).tail * 2 ^ ((ring false).sz + 6) + 8 ≤ (withRing false).arenaSize ∧
      (ring false).head ∉ (ring false).marks ∧ wbits ((withRing false).hart.getX 1) 0 2 = 0) ∧
    (lookup ((withRing true).core (withRing true).here).channels 3 = some (ring true) ∧ (ring true).head ∈ (ring true).marks ∧
      (withRing true).hart.vec.viq = [] ∧ (withRing true).hart.ms.stq = [] ∧
      wbits ((withRing true).hart.getX 1) 0 2 = 0 ∧ wbits ((withRing true).hart.getX 7) 0 2 = 1 ∧
      poisoned (lsPlace (withRing true).here ((withRing true).arenaBase + 0)) 8 (withRing true) = false) :=
  ⟨⟨rfl, settled_mk rfl, rfl, by decide, by decide, by decide, by decide, by decide⟩,
    ⟨rfl, settled_mk rfl, rfl, rfl, ⟨rfl, rfl, rfl, rfl, rfl⟩, rfl, rfl, rfl, rfl, by decide, by decide, by decide, by decide⟩,
    rfl, by decide, rfl, rfl, by decide, by decide, rfl⟩

/-! Recursion at the front -/

/-- An object of 8-byte frames and results, of one child, one level and one frame a batch, at LS offset 0x100. -/
def object : State :=
  withMem [(lsPlace 0 (0x100 + 20), 8), (lsPlace 0 (0x100 + 22), 8), (lsPlace 0 (0x100 + 24), 1), (lsPlace 0 (0x100 + 25), 1),
    (lsPlace 0 (0x100 + 26), 1)]

/-- What the statement asks of an object's fields. -/
def legalObject (s : State) (p : Nat) : Bool :=
  let at' : Nat → Nat → Nat := fun i k => readNat s.mem (p + i) k
  let size : Nat → Bool := fun n => decide (8 ≤ n) && decide (n ≤ 256) && n % 8 == 0
  at' 6 2 == 0 && at' 0 6 % 2 == 0 && at' 8 4 % 2 == 0 && at' 12 4 % 2 == 0 && at' 16 4 % 2 == 0 && size (at' 20 2) && size (at' 22 2) &&
  decide (1 ≤ at' 24 1) && decide (at' 24 1 ≤ 8) && decide (1 ≤ at' 25 1) && decide (1 ≤ at' 26 2) && decide (at' 26 2 ≤ 512) &&
  at' 28 4 % 8 == 0 && at' 32 4 % 8 == 0 && at' 36 28 == 0 && decide (at' 28 4 + at' 32 4 ≤ s.arenaSize)

def obj0 : RObj := ⟨0x4000, 0x100, 0x200, 0x300, 8, 8, 2, 4, 1, 0x1000, 64⟩

/-- A hart with an object in force. -/
def defined : State := state { hart0 with rc := { hart0.rc with objV := true, obj := some obj0 } }

theorem test_wit_RecursionStartResults :
    (isFerry object.me = false ∧ Settled [1] [] object ∧ object.hart.rc.act = false ∧ ReachesLs (object.hart.getX 1) 64 object ∧
      object.hart.rc.stop = false ∧ (object.hart.getX 1).toNat < 2 ^ 22 ∧
      legalObject object (lsPlace object.here (object.arenaBase + (object.hart.getX 1).toNat)) = true) ∧
    (base.hart.vec.viq = [] ∧ base.hart.rc.pontoon = none ∧ CanTrap base ∧ Settled [0] [] base ∧ (1 : XReg) ≠ 0 ∧
      base.hart.rc.objV = false) ∧
    (Idle defined ∧ Settled [1] [] defined ∧ defined.hart.vec.lag = false ∧ defined.hart.run.wait = none ∧ defined.Sound ∧
      defined.hart.rc.act = false ∧ defined.hart.rc.stop = false ∧ defined.hart.rc.pontoon = none ∧
      defined.hart.rc.objV = true ∧ defined.hart.rc.obj = some obj0 ∧ obj0.cap ≤ 4 * defined.hart.vec.grant ∧
      8 + obj0.frame + obj0.result ≤ obj0.asize ∧ obj0.arena + obj0.asize ≤ defined.arenaSize ∧
      (defined.hart.getX 1).toNat + obj0.frame ≤ defined.arenaSize ∧
      poisoned (lsPlace defined.here (defined.arenaBase + (defined.hart.getX 1).toNat)) obj0.frame defined = false ∧
      (defined.core defined.here).pontoonOwner = none) :=
  ⟨⟨rfl, settled_mk rfl, rfl, ⟨by decide, by decide, rfl, rfl, rfl⟩, rfl, by decide, by decide +kernel⟩,
    ⟨rfl, rfl, base_canTrap, settled_mk rfl, by decide, rfl⟩,
    ⟨rfl, rfl, rfl, rfl, rfl⟩, settled_mk rfl, rfl, rfl, rfl, rfl, rfl, rfl, rfl, rfl, by decide, by decide, by decide, by decide, rfl, rfl⟩

/-! Lanes, forks and loops -/

theorem test_wit_StripAndGrantResults :
    (isFerry base.me = false ∧ Settled [8, 1] [] base ∧ (14 : BitVec 4) ≠ 15 ∧ CanTrap base) ∧
    (Idle base ∧ base.hart.rc.act = false ∧ base.hart.ms.window = none) :=
  ⟨⟨rfl, settled_mk rfl, by decide, base_canTrap⟩, base_idle, rfl, rfl⟩

/-- Harts h0 and h1 of group 0, of which h0 or h1 executes. -/
def pair (x y : Hart) (me : HartNo) : State :=
  { base with
    cores := [(0, { Core.reset with harts := [(0, x), (1, y)], tlb := [tlb1], pool := 62 })]
    wharf := { base.wharf with groups := [(0, { group0 with harts := [0, 1] })] }
    curHart := me }

def withGrant (h : Hart) (n : Nat) : Hart := { h with vec := { h.vec with grant := n } }
def idle1 : Hart := { Hart.reset with id := { Hart.reset.id with group := some 0 } }
def forks : State := pair (withGrant hart0 2) idle1 0

/-- A child of h0, and h0 with that child, whose lane it may have parked. -/
def child : Hart := { hart0 with id := { hart0.id with rank := 1, parent := some 0, known := 17 } }
def parent (parked : AMap Nat) : Hart :=
  { withX hart0 [(1, 17), (2, 18)] with id := { hart0.id with kids := [17], parked := parked } }

theorem test_wit_ForkJoinResults :
    (Idle base ∧ base.hart.rc.act = false ∧ base.hart.ms.window = none ∧ (base.hart.getB 1).v = true ∧ base.hart.vec.grant < 2) ∧
    (let s := pair (withGrant hart0 2) hart0 0
     Idle s ∧ s.hart.rc.act = false ∧ s.hart.ms.window = none ∧ (s.hart.getB 1).v = true ∧
       s.myGroup = some { group0 with harts := [0, 1] } ∧
       ∀ h ∈ ({ group0 with harts := [0, 1] } : Group).harts, (s.hartAt s.here h.toNat).run.running = true) ∧
    ((Idle forks ∧ forks.hart.rc.act = false ∧ forks.hart.ms.window = none ∧ (forks.hart.getB 1).v = true ∧
        2 ≤ forks.hart.vec.grant ∧ forks.myGroup = some { group0 with harts := [0, 1] }) ∧
      1 ≠ forks.me ∧ BitVec.ofNat 3 1 ∈ ({ group0 with harts := [0, 1] } : Group).harts ∧ (forks.hartAt forks.here 1).run.running = false ∧
      (∀ m, m < 1 → BitVec.ofNat 3 m ∈ ({ group0 with harts := [0, 1] } : Group).harts → (forks.hartAt forks.here m).run.running = true) ∧
      (∀ h ∈ ({ group0 with harts := [0, 1] } : Group).harts, (forks.hartAt forks.here h.toNat).run.running = true →
        (forks.hartAt forks.here h.toNat).id.rank.toNat ≠ 1) ∧
      ∀ q, q < 1 → ∃ h ∈ ({ group0 with harts := [0, 1] } : Group).harts,
        (forks.hartAt forks.here h.toNat).run.running = true ∧ (forks.hartAt forks.here h.toNat).id.rank.toNat = q) ∧
    (let s := pair (parent []) child 1
     Idle s ∧ s.hart.rc.act = false ∧ s.hart.ms.window = none ∧ s.hart.id.parent = some 0 ∧ s.hart.id.kids = [] ∧
       s.hart.id.parked = [] ∧ (0 : HartNo).toNat ≠ s.me ∧ (s.hartAt s.here 0).run.running = true ∧
       (s.hartAt s.here 0).id.group = s.hart.id.group ∧ s.hart.id.known ∈ (s.hartAt s.here 0).id.kids ∧ s.hart.id.known < 64) ∧
    (let s := pair (parent [(17, 1)]) idle1 0
     Idle s ∧ (s.hart.getX 1).toNat ∈ s.hart.id.kids ∧
       s.hart.id.parked.find? (fun e => e.1 == (s.hart.getX 1).toNat) = some (17, 1)) ∧
    (let s := pair (parent []) child 0
     Idle s ∧ (s.hart.getX 1).toNat ∈ s.hart.id.kids ∧ (∀ e ∈ s.hart.id.parked, e.1 ≠ (s.hart.getX 1).toNat) ∧
       (∀ k ∈ s.hart.id.kids, BitVec.ofNat 64 k ≠ s.hart.getX 2) ∧ CanTrap s) :=
  ⟨⟨base_idle, rfl, rfl, rfl, by decide⟩, ⟨⟨rfl, rfl, rfl, rfl, rfl⟩, rfl, rfl, rfl, rfl, by decide⟩,
    ⟨⟨⟨rfl, rfl, rfl, rfl, rfl⟩, rfl, rfl, rfl, by decide, rfl⟩, by decide, by decide, rfl, by decide, by decide, by decide⟩,
    ⟨⟨rfl, rfl, rfl, rfl, rfl⟩, rfl, rfl, rfl, rfl, rfl, by decide, rfl, rfl, by decide, by decide⟩,
    ⟨⟨rfl, rfl, rfl, rfl, rfl⟩, by decide, by decide⟩,
    ⟨rfl, rfl, rfl, rfl, rfl⟩, by decide, by decide, by decide, rfl, by decide, by decide⟩

/-! Loops, claims, ferries and the instructions of a group -/

/-- The instruction after the one at the PC of a hart, whose vector side takes turns of its own or not. -/
def before (lag : Bool) (w : Nat) : State :=
  { state { hart0 with vec := { hart0.vec with lag := lag } } with mem := writeNat ([] : Memory) 0x4004 4 w }

theorem test_wit_LoopCapture :
    (let s := before true 0x88811219
     isFerry s.me = false ∧ CanTrap s ∧ s.hart.vec.viq = [] ∧ s.hart.vec.held = [] ∧ s.hart.lp.loop = none ∧ s.hart.rc.act = false ∧
       s.hart.run.wait = none ∧ s.hart.vec.lag = true ∧ Settled [1] [] s ∧ Settled (bodyReads (.vand 4 1 2 2)) [] s ∧
       (∃ u, fetchBody s.ctx (s.hart.pc + 4) s ((0 : BitVec 4).toNat + 1) = .ok [(0x4004, some (.vand 4 1 2 2))] u) ∧
       loopAllows (.vand 4 1 2 2) = true) ∧
    (let s := before false 0x05045201
     CanTrap s ∧ (∃ u, fetchBody s.ctx (s.hart.pc + 4) s ((0 : BitVec 4).toNat + 1) = .ok [(0x4004, some (.add 16 17 18))] u) ∧
       loopAllows (.add 16 17 18) = false) ∧
    (let s := before false (BitVec.ofNat 32 (Instr.vsetl 0 2 0 0 15).encode).toNat
     CanTrap s ∧ Settled (bodyReads (.vsetl 0 2 0 0 15)) [] s ∧
       (∃ u, fetchBody s.ctx (s.hart.pc + 4) s ((0 : BitVec 4).toNat + 1) = .ok [(0x4004, some (.vsetl 0 2 0 0 15))] u) ∧
       loopAllows (.vsetl 0 2 0 0 15) = true) :=
  ⟨⟨rfl, ⟨rfl, by decide, by decide⟩, rfl, rfl, rfl, rfl, rfl, rfl, settled_mk rfl, settled_mk rfl,
      ok_with (by decide +kernel), rfl⟩,
    ⟨⟨rfl, by decide, by decide⟩, ok_with (by decide +kernel), rfl⟩, ⟨rfl, by decide, by decide⟩, settled_mk rfl, ok_with (by decide +kernel), rfl⟩

/-- A loop at the head of the VIQ, with the body instructions and the trips that remain. -/
def looping (l : List Instr) (pos : Nat) (trips : Word) : State := state { hart0 with
  vec := { hart0.vec with viq := [viqEntry (.loop 1 0)], vtype := 2, vl := 1 }
  lp := { hart0.lp with lcnt := trips, loop := some ⟨l.map fun i => { viqEntry i with vtype := 2, vl := 1 }, pos, false⟩ } }

/-- What the turn that runs the only body instruction attempts, with the tag of its execution. -/
def attempted (i : Instr) : Res VOut :=
  let b := { viqEntry i with vtype := 2, vl := 1, seq := some 0 }
  attempt 0 0 { b with ric := b.ric + 0 * BitVec.ofNat 64 0, limit := none }
    (((looping [i] 0 2).modCore 0 fun k => { k with land := { k.land with seq := k.land.seq + 1 } }).modHartAt 0 0 fun y =>
      { y with lp := { y.lp with loop := some ⟨[b], 0, false⟩ } })

theorem test_wit_LoopTurns :
    (∀ l p t, ((looping l p t).hartAt 0 0).vec.viq = [viqEntry (.loop 1 0)] ∧ ((looping l p t).core 0).dbg.breakpoints = [] ∧
      ((looping l p t).hartAt 0 0).lp.lcnt = t) ∧
    (let l : Loop := ⟨[{ viqEntry (.vexit 1 0) with vtype := 2, vl := 1 }, { viqEntry (.vsetl 0 2 0 0 2) with vtype := 2, vl := 1 }], 0,
       false⟩
     ((looping [.vexit 1 0, .vsetl 0 2 0 0 2] 0 2).hartAt 0 0).lp.loop = some l ∧
       l.body[l.pos]? = some { viqEntry (.vexit 1 0) with vtype := 2, vl := 1 }) ∧
    (let l : Loop := ⟨[{ viqEntry (.vsetl 0 2 0 0 2) with vtype := 2, vl := 1 }], 0, false⟩
     ((looping [.vsetl 0 2 0 0 2] 0 1).hartAt 0 0).lp.loop = some l) ∧
    ([{ viqEntry (.vadd 1 2 3 0) with vtype := 2, vl := 1 }].filter fun e =>
      consumesRic ((looping [.vadd 1 2 3 0] 0 2).hartAt 0 0) e.instr e.vtype e.fpctl).length = 0 ∧
    ∃ u, attempted (.vadd 1 2 3 0) = .ok (.done 0) u ∧
      (decide ((u.hartAt 0 0).lp.lcnt = 2 ∧ (u.hartAt 0 0).vec.viq = [viqEntry (.loop 1 0)] ∧ (u.hartAt 0 0).run.retired = 0)) = true :=
  ⟨fun _ _ _ => ⟨rfl, rfl, rfl⟩, ⟨rfl, rfl⟩, rfl, by decide +kernel, ok_then (by decide +kernel)⟩

/-- A hart in a group with two free tiles and one free accumulator, and the group as `f` makes it. -/
def tileGroup (f : Group → Group) : Group := f { group0 with tiles := [0, 1, 2], accs := [0, 1], freeTiles := [1, 2], freeAccs := [1] }
def tileState (h : Hart) (f : Group → Group) : State :=
  { state h with wharf := { base.wharf with groups := [(0, tileGroup f)] } }

def claims : Hart := withX hart0 [(1, 2), (2, 1), (3, 3)]
def holds : Hart := { claims with tile := { claims.tile with claim := some ([0], [0]) } }
def ganged : Group → Group := fun g => { g with gang := some (0, 0) }
def lostMember : Group → Group := fun g => { g with gang := some (0, 0), aborted := true }

theorem test_wit_TileClaimResults :
    (let s := tileState claims id
     isFerry s.me = false ∧ Settled [8, 1, 2] [] s ∧ s.hart.id.group = some 0 ∧ s.group? 0 = some (tileGroup id) ∧
       s.hart.tile.claim = none ∧ (s.hart.getX 1).toNat ≤ (tileGroup id).freeTiles.length ∧
       (s.hart.getX 2).toNat ≤ (tileGroup id).freeAccs.length ∧ CanTrap s ∧
       (tileGroup id).freeTiles.length < (s.hart.getX 3).toNat ∧ s.hart.vec.viq = []) ∧
    (let s := tileState claims ganged
     s.myGroup = some (tileGroup ganged) ∧ (tileGroup ganged).gang ≠ none ∧
       ∀ m y, s.gangMember (tileGroup ganged) m = some y → y.2.aborted = false) ∧
    (let s := tileState holds id
     s.hart.tile.claim = some ([0], [0]) ∧ s.hart.vec.viq = [] ∧ s.hart.vec.held = [] ∧ s.hart.id.group = some 0 ∧
       s.group? 0 = some (tileGroup id)) ∧
    (CanTrap (tileState claims id) ∧ (tileState claims id).myGroup = some (tileGroup id) ∧ (tileGroup id).gang = none) ∧
    (let s := tileState claims lostMember
     CanTrap s ∧ s.myGroup = some (tileGroup lostMember) ∧ (tileGroup lostMember).gang ≠ none ∧
       (tileGroup lostMember).aborted = true ∧ s.gangMember (tileGroup lostMember) 0 = some (0, tileGroup lostMember)) := by
  refine ⟨⟨rfl, settled_mk rfl, rfl, rfl, rfl, by decide, by decide, ⟨rfl, by decide, by decide⟩, by decide, rfl⟩,
    ⟨rfl, by decide, ?_⟩, ⟨rfl, rfl, rfl, rfl, rfl⟩, ⟨⟨rfl, by decide, by decide⟩, rfl, rfl⟩,
    ⟨rfl, by decide, by decide⟩, rfl, by decide, rfl, rfl⟩
  intro m y h
  simp only [State.gangMember, tileGroup, ganged, State.groupsOf, tileState, state, base] at h
  have := List.mem_of_find?_eq_some h
  simp only [List.mem_filter, List.mem_singleton] at this
  rw [this.1]
  rfl

/-- A Landing entry of 32 bits of v1 of h0 that ferry f0 holds. -/
def entry0 : LEntry :=
  { hart := 0, seq := 1, pc := 0x4000, cls := 1, ty := 13, tgt := 0, index := 0, reg := 1, live := 0xFFFFFFFF, opa := 0, opb := 0
    opc := 0, rm := 0, en := 0, nft := false, srb := 0, links := [], handler := 0, state := .inFerry false, cause := 0, detail := 0
    fn := .fadd, ty2 := 13, dty := 13, width := 32, scale := none, row := 0, gather := none, liter := 0 }

/-- Ferry f0 executes, with x1 = `w`. -/
def ferry (w : Word) : State :=
  { base with
    cores := [(0, { Core.reset with
      harts := [(0, hart0), (4, { Hart.reset with x := [(1, w)], hole := { Hart.reset.hole with ferry := some 3 } })]
      land := { Core.reset.land with entries := [(3, entry0)] } })]
    curHart := 4 }

/-- The ferry holds no entry, and two are ready. -/
def ready : State := (ferry 3).modCore 0 fun k =>
  { k with harts := [(0, hart0), (4, Hart.reset)]
           land := { k.land with entries := [(3, { entry0 with state := .ready }), (7, { entry0 with state := .ready, seq := 2 })] } }

/-- The number that the ferry holds names another entry now. -/
def reused : State := (ferry 3).modCore 0 fun k => { k with land := { k.land with entries := [(3, { entry0 with state := .waiting })] } }

/-- The ferry holds an entry as `f` makes it, with x1 = `w` and x2 = `v`; or it holds none. -/
def ferryOf (w v : Word) (f : LEntry → LEntry) : State := (ferry w).modCore 0 fun k =>
  { k with harts := [(0, hart0), (4, { Hart.reset with x := [(1, w), (2, v)], hole := { Hart.reset.hole with ferry := some 3 } })]
           land := { k.land with entries := [(3, f entry0)] } }
def emptyHanded : State := (ferry 3).modCore 0 fun k => { k with harts := [(0, hart0), (4, Hart.reset)] }

theorem test_wit_FerryResults :
    (base.hart.tr.sup = true ∧ isFerry base.me = false ∧ Settled [1, 2] [] base ∧ (base.core base.here).land.entries = []) ∧
    (isFerry emptyHanded.me = true ∧ emptyHanded.hart.hole.ferry = none ∧
      ∀ q ∈ (emptyHanded.core emptyHanded.here).land.entries, q.2.state ≠ .ready) ∧
    (entry0.live ≠ 0 ∧ entry0.written = none) ∧
    (let s := ferryOf 0x103 0 fun e => { e with en := 1 }
     (s.hart.getX 1).getLsbD 15 = false ∧ wbits (s.hart.getX 1) 8 5 &&& (1 : BitVec 5).toNat &&& 15 ≠ 0) ∧
    (let s := ferryOf 3 0x7F800000 fun e => { e with nft := true }
     (s.hart.getX 1).getLsbD 15 = false ∧ isFloat entry0.dty.toNat = true ∧
       (valueOf entry0.dty.toNat ((s.hart.getX 2).toNat % 2 ^ entry0.width)).special = true) ∧
    (isFerry (ferry 3).me = true ∧ lookup ((ferry 3).core (ferry 3).here).land.entries 3 = some entry0 ∧
      (ferry 3).hart.hole.ferry = some 3 ∧ 3 < 256) ∧
    (0 < (56 : XReg).toNat ∧ (56 : XReg).toNat + 8 ≤ 64) ∧
    (wbits ((ferry 0x8003).hart.getX 1) 0 8 = 3 ∧ ((ferry 0x8003).hart.getX 1).getLsbD 15 = true) ∧
    (wbits ((ferry 3).hart.getX 1) 0 8 = 3 ∧ ((ferry 3).hart.getX 1).getLsbD 15 = false ∧
      wbits ((ferry 3).hart.getX 1) 8 5 &&& entry0.en.toNat &&& 15 = 0 ∧ entry0.nft = false ∧ 0 < entry0.width ∧ entry0.width ≤ 64 ∧
      entry0.live.toNat = 2 ^ entry0.width - 1 ∧ (entry0.index.toNat + 1) * entry0.width ≤ 16384) ∧
    (wbits ((ferry 4).hart.getX 1) 0 8 ≠ 3 ∧ Settled [2, 1] [] (ferry 4)) ∧
    (isFerry ready.me = true ∧ lookup (ready.core ready.here).land.entries 3 = some { entry0 with state := .ready } ∧
      ready.hart.hole.ferry = none ∧ ((ready.core ready.here).land.entries.map (·.1)).Nodup ∧
      ∀ q ∈ (ready.core ready.here).land.entries, q.2.state = .ready → q.1 ≠ 3 → entry0.seq.toNat < q.2.seq.toNat) ∧
    (lookup (reused.core reused.here).land.entries 3 = some { entry0 with state := .waiting } ∧ reused.hart.hole.ferry = some 3) :=
  ⟨⟨rfl, rfl, settled_mk rfl, rfl⟩, ⟨by decide, rfl, by decide⟩, ⟨by decide, rfl⟩, ⟨by decide, by decide⟩, ⟨by decide, by decide, by decide⟩,
    ⟨by decide, rfl, rfl, by decide⟩, ⟨by decide, by decide⟩, ⟨by decide, by decide⟩,
    ⟨by decide, by decide, by decide, rfl, by decide, by decide, by decide, by decide⟩, ⟨by decide, settled_mk rfl⟩,
    ⟨by decide, rfl, rfl, by decide, by decide⟩, rfl, rfl⟩

def record0 : LaunchRec :=
  { entry := 0x4000, args := 0, waitAddr := 0, waitVal := 0, doneAddr := 0, tenant := 0, prio := 0, harts := 1, run := 1, lanes := 1
    tiles := 1, accs := 1, lsb := 1024, gang := false, levels := [(1, 4)], seq := 1, sup := false }

/-- A launch with a Y level of five, and one with a C level. -/
def launchY : Launch := ⟨{ record0 with levels := [(4, 5)] }, 1, 0, 0, [], false⟩
def launchC : Launch := ⟨record0, 0, 0, 0, [], false⟩

def asking : State :=
  { withRing false with wharf := { base.wharf with launches := [(0, launchY)] } }

/-- A group of h0 and h1, both running. -/
def pairRuns : State := pair hart0 hart0 0

theorem test_wit_GroupInstructionResults :
    (Idle asking ∧ asking.hart.id.group = some 0 ∧ asking.group? 0 = some group0 ∧
      lookup asking.wharf.launches group0.launch = some launchY ∧ yCount launchY = some 5 ∧
      lookup (asking.core asking.here).channels 3 = some (ring false) ∧ (ring false).group = 0 ∧
      (launchY.requests.filter fun q => q.1 == 0).length < 16) ∧
    (Idle base ∧ base.hart.id.group = some 0 ∧ base.group? 0 = some group0 ∧ base.hart.run.atBar = false ∧
      (∀ p ∈ barHarts group0 0 0 base, p ≠ (base.here, base.me) →
        lookupD base.hart.run.arrived 0 0 + 1 ≤ lookupD (base.hartAt p.1 p.2).run.arrived 0 0) ∧
      group0.gang = none ∧ CanTrap base ∧ base.hart.rc.act = false ∧ incomplete false base = false ∧ incomplete true base = false) ∧
    (Idle pairRuns ∧ pairRuns.hart.id.group = some 0 ∧ pairRuns.group? 0 = some { group0 with harts := [0, 1] } ∧
      pairRuns.hart.run.atBar = false ∧
      ∃ p ∈ barHarts { group0 with harts := [0, 1] } 0 0 pairRuns, p ≠ (pairRuns.here, pairRuns.me) ∧
        lookupD (pairRuns.hartAt p.1 p.2).run.arrived 0 0 < lookupD pairRuns.hart.run.arrived 0 0 + 1) :=
  ⟨⟨⟨rfl, rfl, rfl, rfl, rfl⟩, rfl, rfl, rfl, rfl, rfl, rfl, by decide⟩,
    ⟨base_idle, rfl, rfl, rfl, by decide +kernel, rfl, base_canTrap, rfl, rfl, rfl⟩,
    ⟨rfl, rfl, rfl, rfl, rfl⟩, rfl, rfl, rfl, (0, 1), by decide +kernel, by decide +kernel, by decide +kernel⟩

/-! Vector instructions -/

def queued (l : List VEntry) : State := state { hart0 with vec := { hart0.vec with viq := l, lag := true } }

theorem test_wit_VectorDispatch :
    (viqRow (.vaddX 1 2 3 0) = true ∧ isFerry lagging.me = false ∧ Settled (usesOf (.vaddX 1 2 3 0)).xs [] lagging ∧
      lagging.hart.viqRoom = true ∧ lagging.hart.vec.lag = true ∧ lagging.hart.ms.streams = [] ∧ lagging.hart.reserved < 16 ∧
      lagging.hart.VlFits) ∧
    (Settled (usesOf (.vaddX 1 2 3 0)).xs [] (queued (List.replicate 64 (viqEntry (.mset 1)))) ∧
      (queued (List.replicate 64 (viqEntry (.mset 1)))).hart.viqRoom = false) ∧
    ¬ Settled (usesOf (.vaddX 1 2 3 0)).xs [] (queued [viqEntry (.mpop 3 1)]) := by
  refine ⟨⟨rfl, rfl, settled_mk (by decide +kernel), by decide +kernel, rfl, rfl, by decide +kernel, Nat.zero_le _⟩,
    ⟨settled_mk (by decide +kernel), by decide +kernel⟩, fun h => ?_⟩
  have := h.1 3 (by decide +kernel)
  revert this
  decide +kernel

/-- A hart with nothing in flight, with VTYPE and VL. -/
def typedState (vtype : Word) (vl : Nat) : State := state (typed hart0 vtype vl)

theorem typed_ready (t : Word) (n : Nat) : VectorReady (typedState t n) := state_ready _ rfl rfl rfl rfl rfl
theorem typed_canTrap (t : Word) (n : Nat) : CanTrap (typedState t n) :=
  ⟨rfl, by change (0x8000 : Word) ≠ 0; decide, by change (true && (0 : Word).getLsbD 59) = false; decide⟩
theorem fits_of {h : Hart} (a : decide (h.vec.vl ≤ vlMax h.vec.grant h.ty) = true) : h.VlFits := by
  unfold Hart.VlFits
  exact of_decide_eq_true a

theorem test_wit_IntegerLaneResults :
    (VectorReady (typedState 2 8) ∧ (typedState 2 8).hart.VlFits ∧ (typedState 2 8).hart.vec.vtype.getLsbD 4 = false ∧
      (typedState 2 8).hart.ty < 8) ∧
    (VectorReady (typedState 14 4) ∧ (typedState 14 4).hart.VlFits ∧ (typedState 14 4).hart.vec.vtype.getLsbD 4 = false ∧
      (typedState 14 4).hart.ty ≠ 10 ∧ (typedState 14 4).hart.ty < 15 ∧ 8 ≤ (typedState 14 4).hart.ty ∧ CanTrap (typedState 14 4)) ∧
    ((typedState 10 64).hart.VlFits ∧ (typedState 10 64).hart.ty = 10 ∧ CanTrap (typedState 10 64)) ∧
    ((typedState 0x12 8).hart.VlFits ∧ (typedState 0x12 8).hart.vec.vtype.getLsbD 4 = true ∧ CanTrap (typedState 0x12 8)) :=
  ⟨⟨typed_ready _ _, fits_of (by decide), by decide, by decide⟩,
    ⟨typed_ready _ _, fits_of (by decide), by decide, by decide, by decide, by decide, typed_canTrap _ _⟩,
    ⟨fits_of (by decide), by decide, typed_canTrap _ _⟩, fits_of (by decide), by decide, typed_canTrap _ _⟩

/-- Lanes that compute zeros. -/
def zeros (fn : LaneFn) (ty : Nat) : LaneRun := ⟨fn, ty, ty, ty, elemOf 0 (typeBits ty), elemOf 0 (typeBits ty), fun _ => 0⟩

/-- v1 has a hole at element 0, ready for a ferry. -/
def hole0 : LEntry := { entry0 with state := .ready }
def holed : State := (typedState 2 8).modCore 0 fun k => { k with land := { k.land with entries := [(3, hole0)] } }

theorem test_wit_FloatLaneResults :
    (VectorReady (typedState 13 8) ∧ (typedState 13 8).hart.VlFits ∧ (typedState 13 8).hart.vec.vtype.getLsbD 4 = false ∧
      (typedState 13 8).hart.ty ∈ [8, 9, 11, 12, 13, 14] ∧ (zeros .fadd 13).Easy (typedState 13 8).hart 0 ∧
      (zeros .fsqrt 13).Easy (typedState 13 8).hart 0) ∧
    (VectorReady (typedState 11 16) ∧ (typedState 11 16).hart.VlFits ∧ (typedState 11 16).hart.ty ∈ [8, 9, 11, 12, 13, 14] ∧
      (zeros .fdiv 11).Easy (typedState 11 16).hart 0) ∧
    (let h := (typedState 13 8).hart
     ((h.active 0).filter fun e => !easyElement .fdiv 13 13 13 (rmodeOf (bits h.fp.ctl.toNat 0 3)) (randomBits h.fp.seed h.fp.ric e)
        (elemOf (h.getV 1) 32 e) (elemOf (h.getV 2) 32 e) 0).length = 8) ∧
    (isFerry holed.me = false ∧ holed.hart.VlFits ∧ holed.hart.ty < 8 ∧ (holed.core holed.here).land.entries = [(3, hole0)] ∧
      0 ∈ holed.hart.active 0 ∧ hole0.hart.toNat = holed.me ∧ hole0.reg = 1 ∧ hole0.index.toNat = 0 ∧
      hole0.width = typeBits holed.hart.ty ∧ hole0.live.toNat = 2 ^ typeBits holed.hart.ty - 1) := by
  refine ⟨⟨typed_ready _ _, fits_of (by decide), by decide, by decide, fun _ => ?_, fun _ => ?_⟩, ⟨typed_ready _ _,
    fits_of (by decide), by decide, fun h => ?_⟩, by decide +kernel, rfl, fits_of (by decide), by decide, rfl, by decide +kernel,
    by decide, rfl, by decide, by decide, by decide⟩
  · decide +kernel
  · decide +kernel
  · exact absurd h (by decide)

theorem blocks_mk {h : Hart} {m : MReg} (a : (h.vec.vtype.getLsbD 4 && h.vec.vl % 16 == 0 &&
    (List.range (h.vec.vl / 16)).all fun b => (List.range 16).all fun i =>
      maskBit (h.getM m.toNat) (16 * b + i) == maskBit (h.getM m.toNat) (16 * b)) = true) : h.Blocks m := by
  simp only [Bool.and_eq_true, beq_iff_eq, List.all_eq_true, List.mem_range] at a
  exact ⟨a.1.1, a.1.2, a.2⟩

theorem test_wit_WideningMergeCarryResults :
    (VectorReady (typedState 0 16) ∧ (typedState 0 16).hart.VlFits ∧ (typedState 0 16).hart.vec.vtype.getLsbD 4 = false ∧
      (typedState 0 16).hart.ty ∈ [0, 1, 2, 4, 5, 6] ∧ (typedState 0 16).hart.ty2 < 8 ∧
      typeBits (typedState 0 16).hart.ty2 = typeBits (typedState 0 16).hart.ty ∧
      (typedState 0 16).hart.vec.vl ≤ vlMax (typedState 0 16).hart.vec.grant 1) ∧
    (((typedState 0x908 16).hart.ty, (typedState 0x908 16).hart.ty2, 11) ∈
        [(8, 8, 11), (8, 9, 11), (9, 8, 11), (9, 9, 11), (11, 11, 13), (12, 12, 13), (13, 13, 14)] ∧
      (typedState 0x908 16).hart.VlFits ∧ (typedState 0x908 16).hart.vec.vl ≤ vlMax (typedState 0x908 16).hart.vec.grant 11 ∧
      LaneRun.Easy ⟨.fwmul, 8, 9, 11, fun _ => 0, fun _ => 0, fun _ => 0⟩ (typedState 0x908 16).hart 0) ∧
    ((2 : BitVec 5).toNat ≠ (typedState 11 8).hart.ty ∧ (typedState 11 8).hart.ty < 15 ∧ 8 ≤ (typedState 11 8).hart.ty ∧
      (typedState 11 8).hart.VlFits ∧ (typedState 11 8).hart.vec.vl ≤ vlMax (typedState 11 8).hart.vec.grant 2 ∧
      LaneRun.Easy ⟨.fcvt, 11, 11, 2, fun _ => 0, fun _ => 0, fun _ => 0⟩ (typedState 11 8).hart 0) ∧
    (VectorReady (typedState 0x18 16) ∧ (typedState 0x18 16).hart.VlFits ∧ (typedState 0x18 16).hart.Blocks 0 ∧
      (typedState 0x18 16).hart.ty ∈ [8, 9, 10] ∧ (11 : BitVec 5).toNat ∉ [8, 9, 10] ∧
      (typedState 0x18 16).hart.vec.vl ≤ vlMax (typedState 0x18 16).hart.vec.grant 11 ∧ (typedState 0x18 16).hart.vec.vl ≤ 4096) ∧
    (VectorReady (typedState 0x1B 16) ∧ (typedState 0x1B 16).hart.VlFits ∧ (typedState 0x1B 16).hart.Blocks 0 ∧
      (typedState 0x1B 16).hart.ty ≠ 13 ∧ (typedState 0x1B 16).hart.ty ≠ 14 ∧ (10 : BitVec 5).toNat ∈ [8, 9, 10] ∧
      (typedState 0x1B 16).hart.vec.vl ≤ vlMax (typedState 0x1B 16).hart.vec.grant 10) ∧
    ((typedState 0 16).hart.vec.vl ≤ 4096 ∧ (typedState 0 16).hart.ty ≠ 10 ∧ (typedState 0 16).hart.ty < 8) := by
  refine ⟨⟨typed_ready _ _, fits_of (by decide), by decide, by decide, by decide, by decide, by decide⟩,
    ⟨by decide, fits_of (by decide), by decide, fun h => absurd h (by decide)⟩,
    ⟨by decide, by decide, by decide, fits_of (by decide), by decide, fun h => absurd h (by decide)⟩,
    ⟨typed_ready _ _, fits_of (by decide), blocks_mk (by decide +kernel), by decide, by decide, by decide, by decide⟩,
    ⟨typed_ready _ _, fits_of (by decide), blocks_mk (by decide +kernel), by decide, by decide, by decide, by decide⟩,
    by decide, by decide, by decide⟩

theorem test_wit_MaskResults :
    (VectorReady (typedState 2 8) ∧ (typedState 2 8).hart.vec.vl ≤ 4096 ∧ (typedState 2 8).hart.VlFits ∧
      (typedState 2 8).hart.vec.vtype.getLsbD 4 = false ∧ (typedState 2 8).hart.ty < 8 ∧ (5 : BitVec 3).toNat < 6) ∧
    ((typedState 13 8).hart.VlFits ∧ (typedState 13 8).hart.vec.vtype.getLsbD 4 = false ∧
      (typedState 13 8).hart.ty ∈ [8, 9, 11, 12, 13, 14]) ∧
    (let on := (List.range (typedState 2 8).hart.vec.vl).filter (maskBit ((typedState 2 8).hart.getM (0 : MReg).toNat))
     (0 ∈ on ∧ ∀ f ∈ on, 0 ≤ f) ∧ 7 ∈ on ∧ ∀ f ∈ on, f ≤ 7) ∧
    (List.range (typedState 2 8).hart.vec.vl).filter (maskBit ((typedState 2 8).hart.getM (1 : MReg).toNat)) = [] :=
  ⟨⟨typed_ready _ _, by decide, fits_of (by decide), by decide, by decide, by decide⟩, ⟨fits_of (by decide), by decide, by decide⟩,
    ⟨⟨by decide +kernel, by decide +kernel⟩, by decide +kernel, by decide +kernel⟩, by decide +kernel⟩

theorem test_wit_PermuteResults :
    (VectorReady (typedState 2 8) ∧ (typedState 2 8).hart.VlFits ∧ (typedState 2 8).hart.vec.vl ≤ 4096 ∧
      (typedState 2 8).hart.vec.vtype.getLsbD 4 = false ∧ (typedState 2 8).hart.ty ≠ 10 ∧ (typedState 2 8).hart.ty < 15) ∧
    ((typedState 10 16).hart.VlFits ∧ (typedState 10 16).hart.vec.vtype.getLsbD 4 = false ∧ (typedState 10 16).hart.ty = 10 ∧
      CanTrap (typedState 10 16)) ∧
    (VectorReady (typedState 0x18 16) ∧ (typedState 0x18 16).hart.VlFits ∧ (typedState 0x18 16).hart.Blocks 0 ∧
      (typedState 0x18 16).hart.ty ∈ [8, 9, 10] ∧ ((typedState 0x18 16).hart.getX 1).toNat % 16 = 0) :=
  ⟨⟨typed_ready _ _, fits_of (by decide), by decide, by decide, by decide, by decide⟩,
    ⟨fits_of (by decide), by decide, by decide, typed_canTrap _ _⟩,
    typed_ready _ _, fits_of (by decide), blocks_mk (by decide +kernel), by decide, by decide⟩

theorem test_wit_ReductionResults :
    (VectorReady (typedState 2 8) ∧ (typedState 2 8).hart.VlFits ∧ (typedState 2 8).hart.vec.vl ≤ 4096 ∧
      (typedState 2 8).hart.vec.vtype.getLsbD 4 = false ∧ (typedState 2 8).hart.ty < 8 ∧ (5 : BitVec 3).toNat < 6) ∧
    (VectorReady (typedState 11 16) ∧ (typedState 11 16).hart.VlFits ∧ (typedState 11 16).hart.vec.vl ≤ 4096 ∧
      (typedState 11 16).hart.vec.vtype.getLsbD 4 = false ∧ (typedState 11 16).hart.ty ∈ [8, 9, 11, 12, 13, 14] ∧
      (2 : BitVec 3).toNat < 3 ∧ (typedState 11 16).hart.vec.vl ≤ 2 ^ 4 ∧ 2 ^ (4 - 1) < (typedState 11 16).hart.vec.vl) ∧
    (VectorReady (typedState 11 0) ∧ (typedState 11 0).hart.VlFits ∧ (typedState 11 0).hart.vec.vl ≤ 2 ^ 0) :=
  ⟨⟨typed_ready _ _, fits_of (by decide), by decide, by decide, by decide, by decide⟩,
    ⟨typed_ready _ _, fits_of (by decide), by decide, by decide, by decide, by decide, by decide, by decide⟩,
    typed_ready _ _, fits_of (by decide), by decide⟩

/-! Vector memory -/

/-- A hart with a memory space, and core 1 the second member of a W gang. -/
def spaced (h : Hart) (space : BitVec 2) : State :=
  { state { h with vec := { h.vec with mspace := space } } with
    wharf := { base.wharf with groups := [(0, { group0 with gang := some (0, 0) }), (1, { group0 with core := 1, gang := some (0, 1) })] } }

theorem spaced_ready (t : Word) (n : Nat) (m : BitVec 2) : VectorReady (spaced (typed hart0 t n) m) :=
  ⟨⟨rfl, rfl, rfl, rfl, rfl⟩, rfl, rfl, rfl, rfl⟩

/-- The arena's address of element or byte e, and of the member's, and a GV address. -/
theorem place_ls (k : Access) (h : Hart) (a : Word) (n : Nat) (g : (spaced h 0).myGroup = some { group0 with gang := some (0, 0) })
    (b : a.toNat + n ≤ 0x10000) (c : a.toNat % n = 0) : SpanAt 0 k a n (lsPlace 0 (0 + a.toNat)) (spaced h 0) :=
  ⟨⟨.inr rfl, fun _ => ⟨by simp only [State.arenaSize, g]; exact b, by simp only [State.arenaBase, g]; rfl⟩,
    fun x => absurd x (by decide), fun x => absurd x (by decide)⟩, c⟩

theorem active_range {h : Hart} {x : Nat} (n : Nat) (e : h.vec.vl = n) (hx : x ∈ h.active 0) : x < n := by
  have := List.mem_of_mem_filter hx
  rw [e] at this
  exact List.mem_range.mp this

/-- Two elements of i32, and one block of 16 scaled FP8 elements. -/
def two : Hart := typed hart0 2 2
def oneBlock : Hart := typed hart0 0x18 16
def far : Hart := withX two [(1, 0x400100)]

theorem test_wit_VectorLoadStoreResults :
    (∀ m : BitVec 2, VectorReady (spaced two m) ∧ (spaced two m).hart.VlFits ∧ NoSample (spaced two m) ∧ (spaced two m).Sound ∧
      (spaced two m).hart.run.wait = none ∧ (spaced two m).hart.vec.vtype.getLsbD 4 = false ∧ (spaced two m).hart.ty ≠ 10) ∧
    (∀ k : Access, ∀ form ∈ [0, 1, 2], ∀ e ∈ (spaced two 0).hart.active 0,
      SpanAt 0 k (vectorAddrs (spaced two 0).hart 1 8 0 4 form e) 4
        (lsPlace 0 (0 + (vectorAddrs (spaced two 0).hart 1 8 0 4 form e).toNat)) (spaced two 0)) ∧
    (∀ k : Access, ∀ e ∈ (spaced far 1).hart.active 0,
      SpanAt 1 k (vectorAddrs (spaced far 1).hart 1 0 0 4 0 e) 4 (lsPlace 1 (0x100 + 4 * e)) (spaced far 1)) ∧
    (∀ k : Access, ∀ e ∈ (spaced two 2).hart.active 0,
      SpanAt 2 k (vectorAddrs (spaced two 2).hart 1 0 0 4 0 e) 4 (0x100 + 4 * e) (spaced two 2)) ∧
    (VectorReady (spaced oneBlock 0) ∧ (spaced oneBlock 0).hart.VlFits ∧ NoSample (spaced oneBlock 0) ∧ (spaced oneBlock 0).Sound ∧
      (spaced oneBlock 0).hart.Blocks 0 ∧ (spaced oneBlock 0).hart.ty ∈ [8, 9, 10]) ∧
    ∀ k : Access, ∀ form ∈ [0, 1],
      (∀ i, i < 16 → SpanAt 0 k ((blockAddrs (spaced oneBlock 0).hart 1 8 16 form 0).1 + BitVec.ofNat 64 i) 1
        (lsPlace 0 (0 + ((blockAddrs (spaced oneBlock 0).hart 1 8 16 form 0).1 + BitVec.ofNat 64 i).toNat)) (spaced oneBlock 0)) ∧
      SpanAt 0 k (blockAddrs (spaced oneBlock 0).hart 1 8 16 form 0).2 1
        (lsPlace 0 (0 + (blockAddrs (spaced oneBlock 0).hart 1 8 16 form 0).2.toNat)) (spaced oneBlock 0) := by
  refine ⟨fun m => ⟨spaced_ready _ _ _, fits_of (by revert m; decide), by unfold NoSample; revert m; decide, rfl, rfl,
    by revert m; decide, by revert m; decide⟩, ?_, ?_, ?_,
    ⟨spaced_ready _ _ _, fits_of (by decide), by unfold NoSample; decide, rfl, blocks_mk (by decide +kernel), by decide⟩, ?_⟩
  · intro k form hf e he
    have := active_range 2 rfl he
    refine place_ls k _ _ _ rfl ?_ ?_ <;> fin_cases hf <;> interval_cases e <;> decide +kernel
  · intro k e he
    have := active_range 2 rfl he
    interval_cases e <;>
      exact ⟨⟨.inr rfl, fun x => absurd x (by decide), fun _ => ⟨{ group0 with gang := some (0, 0) }, 1,
        { group0 with core := 1, gang := some (0, 1) }, rfl, by decide +kernel, by decide +kernel, rfl, by decide +kernel⟩,
        fun x => absurd x (by decide)⟩, by decide +kernel⟩
  · intro k e he
    have := active_range 2 rfl he
    interval_cases e <;>
      exact ⟨⟨.inr rfl, fun x => absurd x (by decide), fun x => absurd x (by decide), fun _ => ⟨by decide +kernel,
        by decide +kernel, ok_of (by decide +kernel), fun leaf hl _ _ => by
          rw [List.mem_singleton.mp hl]
          cases k <;> decide +kernel⟩⟩, by decide +kernel⟩
  · intro k form hf
    refine ⟨fun i hi => place_ls k _ _ _ rfl ?_ (Nat.mod_one _), place_ls k _ _ _ rfl ?_ (Nat.mod_one _)⟩
    · fin_cases hf <;> interval_cases i <;> decide +kernel
    · fin_cases hf <;> decide +kernel

/-! The window, SETTLE and the batches of a recursion -/

/-- A hart with a window of one i32 at arena offset 0x100. -/
def window0 : Window := ⟨2, 0, 1, 0x100, 0, []⟩
def windowed : Hart := { two with ms := { two.ms with window := some window0 } }

/-- A Landing entry of the hart, poisoned by its own cause. -/
def deferred : State :=
  base.modCore 0 fun k => { k with land := { k.land with entries := [(3, { entry0 with state := .poisoned, cause := 2 })] } }

theorem test_wit_WindowSettleResults :
    (VectorReady (spaced two 0) ∧ (spaced two 0).hart.run.wait = none ∧ (spaced two 0).Sound ∧
      (spaced two 0).hart.vec.vtype.getLsbD 4 = false ∧ (spaced two 0).hart.ty ∈ [2, 3, 6, 7, 13, 14] ∧ (3 : BitVec 4).toNat < 4 ∧
      (spaced two 0).hart.ty < 8 ∧ (spaced two 0).hart.ms.window = none ∧ 0 < ((spaced two 0).hart.getX 3).toNat ∧
      ((spaced two 0).hart.getX 3).toNat ≤ 4096 ∧
      ((spaced two 0).hart.getX 3).toNat * (typeBits (spaced two 0).hart.ty / 8) ≤ 256 * (spaced two 0).hart.vec.grant) ∧
    (VectorReady (spaced windowed 0) ∧ (spaced windowed 0).hart.ms.window = some window0 ∧ (spaced windowed 0).hart.VlFits ∧
      window0.ty.toNat = (spaced windowed 0).hart.ty ∧ window0.ty.toNat ∈ [2, 3, 6, 7, 13, 14] ∧
      (∀ e, e < (spaced windowed 0).hart.vec.vl → elemOf ((spaced windowed 0).hart.getV 1) 32 e < window0.count) ∧
      window0.count ≤ 4096 ∧ (spaced windowed 0).Sound ∧ (spaced windowed 0).hart.run.wait = none ∧
      (∀ j, j < window0.count → SpanAt window0.space .amo (window0.base + BitVec.ofNat 64 (j * 4)) 4
        (lsPlace 0 (0 + (window0.base + BitVec.ofNat 64 (j * 4)).toNat)) (spaced windowed 0)) ∧
      ∀ i j, i < window0.count → j < window0.count → i = j) ∧
    (CanTrap deferred ∧ deferred.hart.vec.viq = [] ∧ deferred.hart.vec.held = [] ∧ deferred.hart.ms.stq = [] ∧
      deferred.hart.ms.streams = [] ∧ deferred.hart.vec.lag = false ∧ (deferred.core deferred.here).dbg.breakpoints = [] ∧
      (deferred.core deferred.here).land.entries = [(3, { entry0 with state := .poisoned, cause := 2 })] ∧
      entry0.hart.toNat = deferred.me ∧ entry0.live ≠ 0 ∧ entry0.links = [] ∧ 3 < 256) := by
  refine ⟨⟨spaced_ready _ _ _, rfl, rfl, by decide, by decide, by decide, by decide, rfl, by decide, by decide, by decide⟩,
    ⟨⟨⟨rfl, rfl, rfl, rfl, rfl⟩, rfl, rfl, rfl, rfl⟩, rfl, fits_of (by decide), by decide, by decide, by decide +kernel, by decide, rfl, rfl,
      fun j hj => ?_, fun i j hi hj => ?_⟩,
    ⟨rfl, by decide, by decide⟩, rfl, rfl, rfl, rfl, rfl, rfl, rfl, rfl, by decide, rfl, by decide⟩
  · change j < 1 at hj
    refine place_ls .amo windowed _ 4 rfl ?_ ?_ <;> interval_cases j <;> decide
  · change i < 1 at hi
    change j < 1 at hj
    omega

/-- The Pontoon's state of a batch of one frame at 0x1000, with a child of nothing at 0x1018. -/
def pontoon0 : Pontoon :=
  { obj := obj0, pc := 0x4000, savedVl := 0, savedVtype := 0, savedM7 := 0, step := .divide, levels := [[0x1000]]
    runs := [(1, [0x1018])], nodes := [(0x1000, ⟨none, false, false, 1, 0, 0x1018, 1⟩)], top := 0x1018, sb := 0, slots := []
    cells := [0x1000], active := 1, spawned := false, fail := none }

/-- A hart in a batch of a routine, whose v1 holds `w`; or with its batches over. -/
def batch (act : Bool) (rout : BitVec 2) (p : Pontoon) (w : VImage) : State :=
  state { hart0 with vec := { hart0.vec with v := [(1, w)], vl := 1, vtype := 3 }
                     rc := { hart0.rc with act := act, rout := rout, pontoon := some p } }

theorem batch_ready (act : Bool) (r : BitVec 2) (p : Pontoon) (w : VImage) : VectorReady (batch act r p w) :=
  state_ready _ rfl rfl rfl rfl rfl

theorem batch_canTrap (act : Bool) (r : BitVec 2) (p : Pontoon) (w : VImage) : CanTrap (batch act r p w) :=
  ⟨rfl, by change (0x8000 : Word) ≠ 0; decide, by change (true && (0 : Word).getLsbD 59) = false; decide⟩

theorem frames0 : pontoon0.frames = [(0, 0x1000)] := by decide +kernel
theorem kids0 : pontoon0.children 0x1000 = [0x1018] := by decide +kernel

theorem test_wit_RecursionBatchResults_words :
    ∀ r : BitVec 2, VectorReady (batch true r pontoon0 0) ∧ (batch true r pontoon0 0).Sound ∧ (batch true r pontoon0 0).hart.run.wait = none ∧
      (batch true r pontoon0 0).hart.rc.pontoon = some pontoon0 ∧ (batch true r pontoon0 0).hart.rc.act = true ∧
      (batch true r pontoon0 0).hart.rc.rout = r ∧ CanTrap (batch true r pontoon0 0) ∧
      ((batch true r pontoon0 0).hart.getX 0).toNat < pontoon0.obj.frame / 8 ∧
      ((batch true r pontoon0 0).hart.getX 0).toNat < pontoon0.obj.result / 8 ∧
      pontoon0.obj.frame / 8 ≤ ((batch true r pontoon0 0).hart.getX 1).toNat ∧
      (∀ f ∈ pontoon0.frames, f.2 + 8 + pontoon0.obj.frame + 8 ≤ (batch true r pontoon0 0).arenaSize ∧
        poisoned (lsPlace 0 (0 + (f.2 + 8))) 8 (batch true r pontoon0 0) = false ∧
        ∀ k, (pontoon0.children f.2)[(0 : BitVec 3).toNat]? = some k →
          k + 8 + pontoon0.obj.frame + 8 ≤ (batch true r pontoon0 0).arenaSize ∧
          poisoned (lsPlace 0 (0 + (k + 8 + pontoon0.obj.frame))) 8 (batch true r pontoon0 0) = false) ∧
      (batch false r pontoon0 0).hart.rc.act = false := by
  intro r
  refine ⟨batch_ready _ _ _ _, rfl, rfl, rfl, rfl, rfl, batch_canTrap _ _ _ _, by change 0 < 1; decide, by change 0 < 1; decide,
    by change 1 ≤ 0x100; decide, ?_, rfl⟩
  rw [frames0]
  intro f hf
  rw [List.mem_singleton.mp hf, kids0]
  refine ⟨by change 0x1000 + 8 + 8 + 8 ≤ 0x10000; decide, rfl, fun k hk => ?_⟩
  have : k = 0x1018 := by simpa using hk.symm
  rw [this]
  exact ⟨by change 0x1018 + 8 + 8 + 8 ≤ 0x10000; decide, rfl⟩

/-- Numbers of children that the frame asks for: one fits, two do not fit in the arena, and three are too many. -/
theorem test_wit_RecursionBatchResults_spawn :
    (VectorReady (batch true 0 pontoon0 1) ∧ (batch true 0 pontoon0 1).Sound ∧ (batch true 0 pontoon0 1).hart.run.wait = none ∧
      (batch true 0 pontoon0 1).hart.rc.pontoon = some pontoon0 ∧ (batch true 0 pontoon0 1).hart.rc.act = true ∧
      (batch true 0 pontoon0 1).hart.rc.rout = 0 ∧ pontoon0.spawned = false ∧ pontoon0.step = .divide ∧
      (pontoon0.frames.map (·.2)).Nodup ∧ ∀ f ∈ pontoon0.frames, f.2 < pontoon0.top) ∧
    (let want := fun (w : VImage) (e : Nat) => elemOf ((batch true 0 pontoon0 w).hart.getV 1) 64 e
     let sum := fun w => (pontoon0.frames.map fun f => want w f.1).sum
     ((∀ f ∈ pontoon0.frames, want 1 f.1 ≤ pontoon0.obj.fanout) ∧
       pontoon0.top + pontoon0.obj.cellSize * sum 1 - pontoon0.obj.arena ≤ pontoon0.obj.asize) ∧
     ((∀ f ∈ pontoon0.frames, want 2 f.1 ≤ pontoon0.obj.fanout) ∧
       pontoon0.obj.asize < pontoon0.top + pontoon0.obj.cellSize * sum 2 - pontoon0.obj.arena) ∧
     pontoon0.frames = [] ++ (0, 0x1000) :: [] ∧ pontoon0.obj.fanout < want 3 0 ∧ CanTrap (batch true 0 pontoon0 3)) :=
  ⟨⟨batch_ready _ _ _ _, rfl, rfl, rfl, rfl, rfl, rfl, rfl, by decide +kernel, by decide +kernel⟩,
    ⟨by decide +kernel, by decide +kernel⟩, ⟨by decide +kernel, by decide +kernel⟩, by decide +kernel, by decide +kernel,
    batch_canTrap _ _ _ _⟩

def undone : Pontoon := { pontoon0 with fail := some (0x0D, 0, 0, 0, 0) }
def combined : Pontoon := { pontoon0 with step := .combine, runs := [] }
def settled : Pontoon := { pontoon0 with step := .settle }

theorem test_wit_RecursionBatchResults_done :
    (pontoon0.fail = none ∧ (∀ f ∈ pontoon0.frames, ∀ g ∈ pontoon0.frames, f.2 ≠ g.2 → f.2 + 8 ≤ g.2 ∨ g.2 + 8 ≤ f.2) ∧
      pontoon0.runs = (1, [0x1018]) :: [] ∧ [0x1018].length < 1024) ∧
    (VectorReady (batch true 1 undone 0) ∧ (batch true 1 undone 0).Sound ∧ (batch true 1 undone 0).hart.rc.pontoon = some undone ∧
      (batch true 1 undone 0).hart.rc.rout.toNat < 3 ∧ CanTrap (batch true 1 undone 0) ∧
      undone.fail = some (0x0D, 0, 0, 0, 0) ∧ 0x0D < 256) ∧
    (VectorReady (batch true 2 combined 0) ∧ (batch true 2 combined 0).hart.rc.pontoon = some combined ∧
      (batch true 2 combined 0).hart.rc.rout = 2 ∧ combined.fail = none ∧ combined.step = .combine ∧ combined.runs = []) ∧
    (VectorReady (batch false 3 settled 0) ∧ (batch false 3 settled 0).hart.rc.pontoon = some settled ∧
      (batch false 3 settled 0).hart.rc.act = false ∧ (batch false 3 settled 0).hart.rc.stop = false ∧ settled.step = .settle ∧
      settled.pc = (batch false 3 settled 0).hart.pc) :=
  ⟨⟨rfl, by decide +kernel, rfl, by decide⟩, ⟨batch_ready _ _ _ _, rfl, rfl, by decide, batch_canTrap _ _ _ _, rfl, by decide⟩,
    ⟨batch_ready _ _ _ _, rfl, rfl, rfl, rfl, rfl⟩, batch_ready _ _ _ _, rfl, rfl, rfl, rfl, rfl⟩

/-! Tiles -/

/-- A hart that has claimed tiles 0 and 1 and accumulator 0, with the shape M = 1, N, K = 16; x1 is an address and x2 says one row
of eight bytes, with the scales or not. -/
def tiled (n : BitVec 10) (vtype : Word) (vl : Nat) (sc : Word) : Hart :=
  { typed hart0 vtype vl with
    x := [(1, 0x100), (2, sc <<< 48 ||| 0x080100000008), (3, 3)]
    tile := { hart0.tile with claim := some ([0, 1], [0]), m := 1, n := n, k := 16 } }

def tiles (n : BitVec 10) (t : Word) (vl : Nat) (sc : Word) : State := spaced (tiled n t vl sc) 0

theorem tiles_ready (n : BitVec 10) (t : Word) (vl : Nat) (sc : Word) : TileReady (tiles n t vl sc) [0, 1] [0] where
  user := rfl
  viq := rfl
  held := rfl
  stq := rfl
  landing := rfl
  lag := rfl
  streams := rfl
  loop := rfl
  breakpoints := rfl
  claim := rfl
  tiles := by decide
  accs := by decide
  free := by
    intro g h
    have : g = { group0 with gang := some (0, 0) } := (Option.some.inj (h.symm.trans rfl))
    rw [this]
    decide

/-- What the statement asks of the operands of a row move, for one row of eight bytes at 0x100. -/
theorem rows_moved (k : Access) (sc : Word) :
    wbits (0x080100000008 : Word) 32 8 ≤ 128 ∧ wbits (0x080100000008 : Word) 40 8 ≤ wbits (0x080100000008 : Word) 0 32 ∧
    PlaceAt 0 k (0x100 + BitVec.ofNat 64 (0 * 8)) 8 (lsPlace 0 (0 + 0x100)) (tiles 1 0 0 sc) ∧
    PlaceAt 0 k (0x100 + BitVec.ofNat 64 (1 * 8 + 16 * 0)) 16 (lsPlace 0 (0 + 0x108)) (tiles 1 0 0 sc) :=
  ⟨by decide, by decide,
    ⟨.inr rfl, fun _ => ⟨by change 0x100 + 8 ≤ 0x10000; decide, rfl⟩, fun x => absurd x (by decide), fun x => absurd x (by decide)⟩,
    ⟨.inr rfl, fun _ => ⟨by change 0x108 + 16 ≤ 0x10000; decide, rfl⟩, fun x => absurd x (by decide), fun x => absurd x (by decide)⟩⟩

theorem test_wit_TileResults :
    (∀ sc : Word, TileReady (tiles 1 0 0 sc) [0, 1] [0] ∧ (0 : BitVec 3).toNat < [0, 1].length ∧ (0 : BitVec 2).toNat < [0].length ∧
      (tiles 1 0 0 sc).Sound ∧ (tiles 1 0 0 sc).hart.run.wait = none ∧ (tiles 1 0 0 sc).hart.vec.mspace.toNat < 2) ∧
    ((∀ sc ∈ ([0, 1] : List Nat), let w := (tiles 1 0 0 (BitVec.ofNat 64 sc)).hart.getX 2
      wbits w 32 8 = 1 ∧ wbits w 40 8 = 8 ∧ wbits w 0 32 = 8 ∧ w.getLsbD 48 = decide (sc = 1))) ∧
    (∀ k sc, PlaceAt 0 k (0x100 + BitVec.ofNat 64 (0 * 8)) 8 (lsPlace 0 (0 + 0x100)) (tiles 1 0 0 sc)) ∧
    (let h := (tiles 1 2 4 0).hart
     h.VlFits ∧ h.vec.vl * typeBits h.ty ≤ 1024 ∧ (h.getX 3).toNat < 128 ∧ h.vec.vtype.getLsbD 4 = false ∧ h.ty ≠ 10 ∧
       h.vec.vl ≤ 128 ∧ (h.getX 3).toNat < 256 ∧ (h.getX 3).toNat * typeBits h.ty < 1024) ∧
    (let h := (tiles 1 0x18 16 0).hart
     h.VlFits ∧ h.vec.vl * typeBits h.ty ≤ 1024 ∧ h.Blocks 0 ∧ h.ty ∈ [8, 9, 10]) :=
  ⟨fun sc => ⟨tiles_ready _ _ _ _, by decide, by decide, rfl, rfl, by change 0 < 2; decide⟩, by decide +kernel,
    fun k sc => (rows_moved k sc).2.2.1, ⟨fits_of (by decide), by decide, by decide, by decide, by decide, by decide, by decide, by decide⟩,
    fits_of (by decide), by decide, blocks_mk (by decide +kernel), by decide⟩

/-- Four members of a W gang on cores 0 to 3: member 1 executes and has dispatched nothing else; the others have their MMA.c at
the head of the VIQ. -/
def crewEntry : VEntry :=
  { viqEntry (.mmaC 0 0 0 8 8) with tgrant := BitVec.ofNat 64 (2 ^ 30 + 200 * 2 ^ 38 + 16 * 2 ^ 48 + 2 ^ 29) }
def crewHart (l : List VEntry) : Hart :=
  { tiled 200 0 0 0 with vec := { hart0.vec with viq := l }, tile := { (tiled 200 0 0 0).tile with crew := true } }
def crewGroup (i : Nat) : Group :=
  { group0 with core := BitVec.ofNat 7 i, gang := some (0, i), crewQueue := if i = 1 then [] else [0] }
def crew : State :=
  { base with
    cores := (List.range 4).map fun i =>
      (i, { Core.reset with harts := [(0, { crewHart (if i = 1 then [] else [crewEntry]) with
        id := { hart0.id with group := some i } })] })
    wharf := { base.wharf with groups := (List.range 4).map fun i => (i, crewGroup i) }
    curCore := 1 }

theorem test_wit_ProductResults_crew :
    TileReady crew [0, 1] [0] ∧
    (crew.hart.id.group = some 1 ∧ crew.group? 1 = some (crewGroup 1) ∧ (crewGroup 1).core = crew.curCore ∧
      (crewGroup 1).aborted = false ∧ (crewGroup 1).crewQueue = [] ∧ (crewGroup 1).gang = some (0, 1) ∧
      crew.gangMember (crewGroup 1) 1 = some (1, crewGroup 1) ∧ crew.gangMember (crewGroup 1) 0 = some (0, crewGroup 0) ∧
      (crewGroup 0).aborted = false ∧ (crewGroup 0).crewDone = (crewGroup 1).crewDone ∧ (crewGroup 0).crewQueue = 0 :: [] ∧
      0 ∈ (crewGroup 0).harts) ∧
    (((crew.hartAt 0 0).vec.held ++ (crew.hartAt 0 0).vec.viq).head? = some crewEntry ∧ crew.hart.tile.crew = true ∧
      crewShape crewEntry = some (8, 8, 1, 200, 16)) ∧
    (∀ j, j < 4 → j ≠ 1 → ∃ z, crew.gangMember (crewGroup 1) j = some z ∧ z.2.core ≠ crew.curCore ∧ z.2.aborted = false ∧
      ((crewGroup 1).crewDone < z.2.crewDone ∨ z.2.crewDone ≤ (crewGroup 1).crewDone ∧
        ∃ v, (crew.crewPending z.2)[(crewGroup 1).crewDone - z.2.crewDone]? = some v ∧
          crewShape v.entry = some (8, 8, 1, 200, 16))) ∧
    (16 * Nat.max (formatBits 8) (formatBits 8) ≤ 1024 ∧ (crew.core crew.here).tiles.kind 0 = 0 ∧
      crew.hart.fp.ctl.getLsbD 8 = false ∧ crew.hart.tile.m.toNat = 1 ∧ crew.hart.tile.n.toNat = 200 ∧ crew.hart.tile.k.toNat = 16) := by
  refine ⟨⟨⟨⟨rfl, rfl, rfl, rfl, rfl⟩, rfl, rfl, rfl, rfl⟩, rfl, by decide, by decide, fun g h => ?_⟩,
    ⟨rfl, rfl, by decide, rfl, rfl, rfl, by decide +kernel, by decide +kernel, rfl, rfl, rfl, by decide⟩,
    ⟨rfl, rfl, by decide +kernel⟩, fun j hj hn => ?_, by decide, rfl, by decide, by decide, by decide, by decide⟩
  · have : g = crewGroup 1 := Option.some.inj (h.symm.trans rfl)
    rw [this]
    decide
  · interval_cases j
    · exact ⟨(0, crewGroup 0), by decide +kernel, by decide, rfl, .inr ⟨by decide +kernel, ⟨crewEntry, 0, none⟩, by decide +kernel, by decide +kernel⟩⟩
    · exact absurd rfl hn
    · exact ⟨(2, crewGroup 2), by decide +kernel, by decide, rfl, .inr ⟨by decide +kernel, ⟨crewEntry, 0, none⟩, by decide +kernel, by decide +kernel⟩⟩
    · exact ⟨(3, crewGroup 3), by decide +kernel, by decide, rfl, .inr ⟨by decide +kernel, ⟨crewEntry, 0, none⟩, by decide +kernel, by decide +kernel⟩⟩

theorem test_wit_ProductResults :
    TileReady (tiles 8 0 0 0) [0, 1] [0] ∧ (1 : BitVec 3).toNat < [0, 1].length ∧ (0 : BitVec 2).toNat < [0].length ∧
    (let h := (tiles 8 0 0 0).hart
     h.tile.k.toNat * Nat.max (formatBits 0) (formatBits 0) ≤ 1024 ∧ ((tiles 8 0 0 0).core (tiles 8 0 0 0).here).tiles.kind 0 = 0 ∧
       h.fp.ctl.getLsbD 8 = false ∧ 0 < h.tile.m.toNat ∧ h.tile.m.toNat ≤ 128 ∧ 0 < h.tile.n.toNat ∧ 0 < h.tile.k.toNat ∧
       h.tile.k.toNat ≤ 128 ∧ h.tile.n.toNat * formatBits 8 ≤ 1024 ∧ (8 : BitVec 4) ≠ 15) ∧
    (TileReady (tiles 0 0 0 0) [0, 1] [0] ∧ (tiles 0 0 0 0).hart.tile.n.toNat = 0 ∧ (tiles 0 0 0 0).hart.tile.k.toNat * 8 ≤ 1024) :=
  ⟨tiles_ready _ _ _ _, by decide, by decide, ⟨by decide, rfl, by decide, by decide, by decide, by decide, by decide, by decide,
    by decide, by decide⟩, tiles_ready _ _ _ _, rfl, by decide⟩

/-- A block of one product of 1 and −1 in fp16 on words 1, 0, −0, and one with a NaN. -/
theorem test_wit_DotsRound :
    (11 ∈ [10, 11, 12] ∧ 1 * typeBits 11 ≤ 1024 ∧ (valueOf 13 0x3F800000).special = false ∧
      (valueOf 11 0x3C00).special = false ∧ (valueOf 13 0x3F800000).rat + (valueOf 11 0x3C00).rat * (valueOf 11 0x3C00).rat ≠ 0 ∧
      (valueOf 13 0x3F800000).rat + (valueOf 11 0x3C00).rat * (valueOf 11 0xBC00).rat = 0 ∧ (valueOf 11 0x7E00).isNan = true) ∧
    (floatDot 11 11 1 0x3F800000 0x3C00 0xBC00 0 0).1 = 0 ∧ (floatDot 11 11 1 0x80000000 0x8000 0 0 0).1 = 0x80000000 ∧
    (floatDot 11 11 1 0 0x7E00 0 0 0).1 = 0x7FC00000 := by decide +kernel

/-! Resumed recursions and streams -/

/-- A hart whose recursion has stopped before the next batch of a step, on a core whose Pontoon a hart holds or none. -/
def halted (step : RStep) (owner : Option HartNo) : State :=
  (state { hart0 with rc := { hart0.rc with stop := true, obj := some obj0, pontoon := some { pontoon0 with step := step } } }).modCore 0
    fun k => { k with pontoonOwner := owner }

theorem test_wit_RecursionResumes :
    (∀ r ∈ [RStep.divide, .base, .combine],
      isFerry (halted r none).me = false ∧ Settled [0] [] (halted r none) ∧ (halted r none).hart.vec.viq = [] ∧
      (halted r none).hart.rc.act = false ∧ (halted r none).hart.rc.stop = true ∧
      (halted r none).hart.rc.pontoon = some { pontoon0 with step := r } ∧ pontoon0.runs = (1, [0x1018]) :: [] ∧
      [0x1018].length < 1024 ∧ ((halted r none).core (halted r none).here).pontoonOwner = none) ∧
    (((halted .divide (some 1)).core (halted .divide (some 1)).here).pontoonOwner = some 1 ∧
      (1 : HartNo) ≠ (halted .divide (some 1)).curHart) ∧
    ((batch true 0 pontoon0 0).hart.VlFits ∧ 0 < (batch true 0 pontoon0 0).hart.vec.vl ∧ (0x1000 + 8 + 8 * 0) % 8 = 0) :=
  ⟨fun _ _ => ⟨rfl, settled_mk rfl, rfl, rfl, rfl, rfl, rfl, by decide, rfl⟩, ⟨rfl, by decide⟩, fits_of (by decide), by decide, by decide⟩

/-- A stream of four or two i32 of the arena from offset 0x100, or of a slot, bound to a register, at a position. -/
def flow (store chv : Bool) (n pos : Nat) (r : VReg) : Stream := ⟨⟨0x100, 0, 2, store, chv, 3, [(n, 4)]⟩, pos, some r, 0⟩
def flowing (q : Stream) (ch : Bool) : State :=
  (spaced { two with ms := { two.ms with streams := [(2, q)] } } 0).modCore 0 fun k => { k with channels := [(3, ring ch)] }

theorem flowing_ready (q : Stream) (ch : Bool) (h : ∀ l ∈ q.desc.levels, 1 ≤ l.1) : StreamReady 2 q (flowing q ch) where
  user := rfl
  viq := rfl
  held := rfl
  stq := rfl
  landing := rfl
  lag := rfl
  streams := rfl
  loop := rfl
  breakpoints := rfl
  lanes := by change 1 ≤ 64; decide
  sample := by unfold NoSample; change Core.reset.dbg.sampled + 1 < 2 ^ Core.reset.dbg.sampleExp; decide
  levels := h
  unscaled := by change (2 : Word).getLsbD 4 = false; decide
  strip := by change 0 < 2; decide

/-- The address of element e of the strip, in the arena. -/
theorem flow_place (k : Access) (q : Stream) (ch : Bool) (a : Word) (b : a.toNat + 4 ≤ 0x10000) (c : a.toNat % 4 = 0) :
    SpanAt 0 k a 4 (lsPlace 0 (0 + a.toNat)) (flowing q ch) :=
  ⟨⟨.inr rfl, fun _ => ⟨b, rfl⟩, fun x => absurd x (by decide), fun x => absurd x (by decide)⟩, c⟩

theorem test_wit_StreamResults :
    (∀ store chv n pos r ch, 1 ≤ n → StreamReady 2 (flow store chv n pos r) (flowing (flow store chv n pos r) ch)) ∧
    (∀ q ch, (flowing q ch).hart.VlFits ∧ (flowing q ch).hart.ty < 8 ∧ (flowing q ch).Sound ∧ (flowing q ch).hart.run.wait = none ∧
      CanTrap (flowing q ch) ∧ typeBits 2 = typeBits (flowing q ch).hart.ty ∧ typeBits 3 ≠ typeBits (flowing q ch).hart.ty) ∧
    ((patternSize [(4, (4 : Int))] = 4 ∧ 0 < 4) ∧ patternSize [(2, (4 : Int))] = 2 ∧ 2 ≤ two.vec.vl) ∧
    (∀ k e, e < 2 → ∀ off ∈ [0, 0 + 0 * 2 ^ (0 + 6), 0 + 1 * 2 ^ (0 + 6)], ∀ q ch, q = flow false false 4 0 1 →
      SpanAt 0 k (stripAddr q off e) 4 (lsPlace 0 (0 + (stripAddr q off e).toNat)) (flowing q ch)) ∧
    (lookup ((flowing (flow false true 4 0 1) true).core (flowing (flow false true 4 0 1) true).here).channels 3 = some (ring true) ∧
      (ring true).head ∈ (ring true).marks ∧ (ring false).head ∉ (ring false).marks) ∧
    (lookup (flowing (flow true true 2 0 8) false).hart.ms.tails (flow true true 2 0 8).pass = none ∧ (ring false).free ≠ 0 ∧
      (ring false).resv.all (fun r => r.1 != (ring false).tail) = true) := by
  refine ⟨fun store chv n pos r ch h => flowing_ready _ _ fun l hl => ?_, fun q ch => ⟨fits_of (by change decide (two.vec.vl ≤ vlMax two.vec.grant two.ty) = true; decide), ?_,
    rfl, rfl, ⟨rfl, ?_, ?_⟩, ?_, ?_⟩, ⟨by decide, by decide⟩, fun k e he off ho q ch hq => ?_, ⟨rfl, by decide, by decide⟩, rfl, by decide, rfl⟩
  · rw [List.mem_singleton.mp hl]
    exact h
  · change two.ty < 8
    decide
  · change (0x8000 : Word) ≠ 0
    decide
  · change (true && (0 : Word).getLsbD 59) = false
    decide
  · change typeBits 2 = typeBits two.ty
    decide
  · change typeBits 3 ≠ typeBits two.ty
    decide
  · subst hq
    refine flow_place k _ _ _ ?_ ?_ <;> fin_cases ho <;> interval_cases e <;> decide +kernel
/-! Agents, heat, copies and collectives -/

def withIn (s : State) (n : Input) : State := { s with input := n }

def prefetching : State := state { hart0 with b := [(1, ⟨0x2000, true, 1, [], []⟩)] }

def pend (holes : List Patch) (cells : List StoreCell) (fill : Option (Nat × Nat)) : Pending := { cells := cells, holes := holes, fill := fill }
/-- A store of a byte at 0x100 of GV that is to be translated again. -/
def restored : Pending := { cells := [⟨0x100, 1, 0xFF⟩], again := true, addr := some ⟨0x100, 0x1000, 0, true⟩ }
def storing (p : Pending) : State :=
  let s := withMs fun m => { m with stq := [p] }
  s.modCore 0 fun k => { k with channels := [(3, ring false)] }

/-- A waiting entry of f32, or of i32 work that the replay pipe can always do. -/
def replays (cls : BitVec 6) (opa : Word) : State :=
  base.modCore 0 fun k => { k with land := { k.land with entries := [(3, { entry0 with state := .waiting, cls := cls, opa := opa })] } }

def waits (hit : Bool) (since place : Nat) (value : Word) (cycles : Nat) : State :=
  (state { hart0 with run := { hart0.run with wait := some ⟨0x100, value, place, since, hit⟩ } }).modCore 0 fun k => { k with cycles := cycles }

theorem waits_reads (hit : Bool) (value : Word) (n : Nat) (a : okIs (translate ((waits hit 0 0x100 value n).focus 0 0).ctx .read 0x100 0
    ((waits hit 0 0x100 value n).focus 0 0)) (0x100, tlb1) ((waits hit 0 0x100 value n).focus 0 0) = true) :
    translate ((waits hit 0 0x100 value n).focus 0 0).ctx .read 0x100 0 ((waits hit 0 0x100 value n).focus 0 0) =
      .ok (0x100, tlb1) ((waits hit 0 0x100 value n).focus 0 0) := ok_of a

theorem test_wit_AgentAndHeatResults_stores :
    (let s := withIn prefetching { bt := 1 }
     let va : BitVec 48 := ((s.hartAt 0 0).getB 1).addr.zeroExtend 48 <<< 1
     ((s.hartAt 0 0).getB 1).pf = 1 ∧
       translate ⟨0, (s.hartAt 0 0).ms.ptbase, (s.hartAt 0 0).ms.asid, (s.hartAt 0 0).tr.sup⟩ .fetch (va.zeroExtend 64) 0 s =
         .ok (0x4000, tlb1) s ∧
       0x4000 % 64 = va.toNat % 64 ∧ poisoned (0x4000 / 64 * 64) 64 s = false ∧ lookup (s.core 0).icache (0x4000 / 64 * 64) = none ∧
       va.toNat % 64 = 0 ∧ memoryOf 0x4000 ≠ 2) ∧
    (let p := pend [] [⟨0x100, 1, 0xFF⟩, ⟨0x101, 2, 0xFF⟩] none
     let s := storing p
     (s.hartAt 0 0).ms.stq = p :: [] ∧ p.holes = [] ∧ p.after = 0 ∧ p.again = false ∧ p.amo = none ∧ p.fill = none ∧ (s.hartAt 0 0).run.wait = none ∧
       s.Sound ∧ p.cells.Pairwise fun i j => i.place ≠ j.place) ∧
    (let s := storing restored
     (s.hartAt 0 0).ms.stq = restored :: [] ∧ restored.holes = [] ∧ restored.after = 0 ∧ restored.again = true ∧ restored.amo = none ∧
       restored.fill = none ∧ restored.addr = some ⟨0x100, 0x1000, 0, true⟩ ∧ restored.cells = [⟨0x100, 1, 0xFF⟩] ∧ s.Sound ∧
       translate ⟨0, 0x1000, 0, true⟩ .write 0x100 0 s = .ok (0x100, tlb1) s) ∧
    (let a : Atomic := ⟨9, 1, 5, 0, true, 0x4000⟩
     let p : Pending := { cells := cellsOf 0x100 8 0, amo := some a }
     let s := storing p
     (s.hartAt 0 0).ms.stq = p :: [] ∧ p.holes = [] ∧ p.after = 0 ∧ p.again = false ∧ p.amo = some a ∧
       p.cells = ⟨0x100, 0, 0xFF⟩ :: cellsOf 0x101 7 0 ∧ (∀ j ∈ p.cells, poisoned j.place 1 s = false) ∧
       (s.hartAt 0 0).run.wait = none ∧ s.Sound ∧ ((atomicRows 0 0 0 0)[a.op]?).isSome = true ∧ (atomicRows 0 0 0 0)[10]?.isSome = false) ∧
    (let p := pend [] [] (some (3, 0))
     let s := storing p
     (s.hartAt 0 0).ms.stq = p :: [] ∧ p.holes = [] ∧ p.after = 0 ∧ p.again = false ∧ p.amo = none ∧ p.cells = [] ∧ p.fill = some (3, 0) ∧
       lookup (s.core 0).channels 3 = some (ring false)) ∧
    (let p := pend [⟨3, 0, 0, 32⟩] [] none
     ((storing p).hartAt 0 0).ms.stq = p :: [] ∧ (p.holes ≠ [] ∨ 0 < p.after)) := by
  refine ⟨⟨rfl, ok_of (by decide +kernel), rfl, rfl, rfl, rfl, by decide⟩, ⟨rfl, rfl, rfl, rfl, rfl, rfl, rfl, rfl, by decide⟩,
    ⟨rfl, rfl, rfl, rfl, rfl, rfl, rfl, rfl, rfl, ok_of (by decide +kernel)⟩,
    ⟨rfl, rfl, rfl, rfl, rfl, rfl, by decide, rfl, rfl, rfl, rfl⟩, ⟨rfl, rfl, rfl, rfl, rfl, rfl, rfl, rfl⟩, rfl, .inl (by decide)⟩

theorem test_wit_AgentAndHeatResults_replay :
    (let s := withIn (replays 63 0) { entry := 3 }
     let e := { entry0 with state := .waiting, cls := 63, opa := 0 }
     lookup (s.core 0).land.entries 3 = some e ∧ e.state = .waiting ∧ e.links = [] ∧ e.gather = none ∧ e.cls = 63 ∧
       (s.core 0).land.entries.Pairwise (fun i j => i.1 ≠ j.1) ∧ (∀ n, (s.hartAt 0 n).ms.stq = []) ∧
       e.live.toNat = 2 ^ e.width - 1 ∧ 0 < e.width ∧ e.width ≤ 64 ∧ e.width * (e.index.toNat + 1) ≤ 16384) ∧
    (let e := { entry0 with state := .waiting, cls := 1, opa := 0x7F800001 }
     hardType e.ty.toNat = true ∧ e.cls ≠ 63 ∧ e.scale = none ∧
       easyElement e.fn e.ty.toNat e.ty2.toNat e.dty.toNat (rmodeOf e.rm.toNat) e.srb.toNat e.opa.toNat e.opb.toNat e.opc.toNat = false) ∧
    (let s := withIn (waits true 0 0x100 5 0) {}
     (s.hartAt 0 0).run.wait = some ⟨0x100, 5, 0x100, 0, true⟩ ∧ (s.hartAt 0 0).ms.stq = [] ∧ (s.hartAt 0 0).vec.viq = [] ∧
       translate ((waits true 0 0x100 5 0).focus 0 0).ctx .read 0x100 0 ((waits true 0 0x100 5 0).focus 0 0) =
         .ok (0x100, tlb1) ((waits true 0 0x100 5 0).focus 0 0) ∧
       (0x100 : Word).toNat % 8 = 0 ∧ poisoned 0x100 8 s = false ∧ memoryOf 0x100 ≠ 2 ∧ memoryOf 0x100 ≠ 3 ∧
       readNat s.mem 0x100 8 ≠ (5 : Word).toNat) ∧
    (let s := withIn (waits false 0 0x100 0 4096) {}
     0 + 4096 ≤ (s.core 0).cycles ∧ readNat s.mem 0x100 8 = (0 : Word).toNat) ∧
    (memoryOf (2 * 2 ^ 56) = 2 ∧ ((waits true 0 (2 * 2 ^ 56) 0 0).hartAt 0 0).run.wait = some ⟨0x100, 0, 2 * 2 ^ 56, 0, true⟩) := by
  refine ⟨⟨rfl, rfl, rfl, rfl, rfl, by decide, fun n => ?_, by decide, by decide, by decide, by decide⟩,
    ⟨by decide, by decide, rfl, by decide +kernel⟩,
    ⟨rfl, rfl, rfl, waits_reads _ _ _ (by decide +kernel), by decide, rfl, by decide, by decide, by decide⟩, ⟨by decide, by decide⟩,
    by decide, rfl⟩
  by_cases h : 0 = n
  · rw [← h]; rfl
  · change (lookupD [(0, hart0)] n Hart.reset).ms.stq = []
    simp [lookupD, lookup, h, Hart.reset]

def heats (en : Bool) (waiting : List Heat) : State :=
  withIn (base.modDie 0 fun d => { d with heat := { d.heat with en := en, waiting := waiting } }) { value := 256, page := 0x40000000, size := 6 }

def sends : State :=
  (withRing false).modDie 0 fun d => { d with heat := { d.heat with en := true, ch := 3, waiting := [⟨1, 2⟩] } }

/-- A page that is counted, with the first count of a page below HEATTH or at it. -/
def counted : TlbEntry := { tlb1 with pte := 0x16F }
def threshold (n : BitVec 16) : State := base.modDie 0 fun d => { d with heat := { d.heat with threshold := n } }

theorem test_wit_AgentAndHeatResults_heat :
    (counted.pte.getLsbD 8 = true ∧ 0 + 1 < (base.die 0).heat.threshold.toNat ∧ ((threshold 1).die 0).heat.threshold.toNat ≤ 0 + 1 ∧
      lookupD (base.die 0).heat.sets 0 [] = [] ∧ lookupD ((threshold 1).die 0).heat.sets 0 [] = []) ∧
    (let s := heats false []
     ((s.die 0).heat.threshold.toNat ≤ s.input.value.toNat ∧ (s.die 0).heat.en = false)) ∧
    (let s := heats true []
     (s.die 0).heat.threshold.toNat ≤ s.input.value.toNat ∧ (s.die 0).heat.en = true ∧
       lookup (s.core (24 * 0 + (s.die 0).heat.core.toNat)).channels (s.die 0).heat.ch.toNat = none ∧
       (s.die 0).heat.waiting.length < 16) ∧
    (let s := heats true (List.replicate 16 ⟨1, 2⟩)
     (s.die 0).heat.en = true ∧ 16 ≤ (s.die 0).heat.waiting.length ∧
       lookup (s.core (24 * 0 + (s.die 0).heat.core.toNat)).channels (s.die 0).heat.ch.toNat = none) ∧
    ((sends.die 0).heat.waiting = ⟨1, 2⟩ :: [] ∧ (sends.die 0).heat.core.toNat < 24 ∧
      lookup (sends.core (24 * 0 + (sends.die 0).heat.core.toNat)).channels (sends.die 0).heat.ch.toNat = some (ring false) ∧
      lookup sends.wharf.groups (ring false).group = some group0 ∧ 0 < (ring false).free ∧ sends.Sound) :=
  ⟨by decide, ⟨by decide, rfl⟩, ⟨by decide, rfl, rfl, by decide⟩, ⟨rfl, by decide, rfl⟩, rfl, by decide, rfl, rfl, by decide, rfl⟩

/-- A copy or a fill of one byte of the arena, with a token; to the tail slot of channel 3; or from beyond the arena. -/
def copyCmd (w0 src : Word) : CopyCmd := ⟨[0x10000 ||| w0, src, 0x200, 1], 0, 0, 0x1000, 0, true, false, 0, 0⟩
def copies (w0 src : Word) : State := (withRing false).modCore 0 fun k => { k with copyFifo := [copyCmd w0 src] }
def taken (w0 src : Word) : State := (copies w0 src).modCore 0 fun k => { k with copyFifo := k.copyFifo.eraseIdx 0 }
def slotted (w0 src : Word) : State := reserveSlot 0 3 none (taken w0 src)

def excIs (r : Res α) (e : Exc) (k : Nat) (s : State) : Bool :=
  match r with
  | .exc e' k' t => decide (e' = e) && decide (k' = k) && decide (t = s)
  | _ => false

theorem exc_of {r : Res α} {e : Exc} {k : Nat} {s : State} (h : excIs r e k s = true) : r = .exc e k s := by
  cases r <;> simp_all [excIs]

/-- The copy engine's context. -/
def copyCx : Ctx := ⟨0, 0x1000, 0, true⟩

theorem copies_all (w0 src : Word) :
    (∀ p ∈ ((copies w0 src).core 0).copyFifo, (copyCmd w0 src).order ≤ p.order) ∧
    ∀ x ∈ ((copies w0 src).core 0).harts, x.2.ms.copyWords = [] := by
  refine ⟨fun p hp => ?_, fun x hx => ?_⟩
  · rw [List.mem_singleton.mp (show p ∈ [copyCmd w0 src] from hp)]
  · rw [List.mem_singleton.mp (show x ∈ [(0, hart0)] from hx)]; rfl

theorem test_wit_CopyResults :
    (let s := copies 0 0x100
     (s.core 0).copyFifo[0]? = some (copyCmd 0 0x100) ∧ wbits ((copyCmd 0 0x100).words.getD 0 0) 0 2 = 0 ∧
       (copyCmd 0 0x100).dropped = false ∧ s.Sound ∧ ((copyCmd 0 0x100).words.getD 0 0).getLsbD 17 = false ∧
       (∀ j, j < 1 →
         placeFor 0 0 [] copyCx 0 .read (0x100 + BitVec.ofNat 64 j) 1 0 (taken 0 0x100) = .ok (lsPlace 0 0x100, none) (taken 0 0x100) ∧
         poisoned (lsPlace 0 0x100) 1 s = false ∧
         placeFor 0 0 [] copyCx 0 .write (0x200 + BitVec.ofNat 64 j) 1 0 (taken 0 0x100) = .ok (lsPlace 0 0x200, none) (taken 0 0x100)) ∧
       (∀ j k, j < 1 → k < 1 → j = k) ∧ lsPlace 0 0x100 ≠ lsPlace 0 0x200 ∧ 1 = ((copyCmd 0 0x100).words.getD 3 0).toNat) ∧
    (let q := copyCmd 0x0E0001 0x100
     wbits (q.words.getD 0 0) 0 2 = 1 ∧ (q.words.getD 0 0).getLsbD 17 = true ∧
       lookup ((copies 0x0E0001 0x100).core 0).channels (wbits (q.words.getD 0 0) 18 4) = some (ring false) ∧ 0 < (ring false).free ∧
       placeFor 0 0 [] copyCx 0 .write (BitVec.ofNat 64 0 + BitVec.ofNat 64 0) 1 0 (slotted 0x0E0001 0x100) =
         .ok (lsPlace 0 0, none) (slotted 0x0E0001 0x100)) ∧
    (placeFor 0 0 [] copyCx 0 .read (0x20000 + BitVec.ofNat 64 0) 1 0 (taken 0 0x20000) =
      .exc { code := 0x08, info0 := 0x20000 } 0 (taken 0 0x20000) ∧ 0 < ((copyCmd 0 0x20000).words.getD 3 0).toNat) := by
  refine ⟨⟨rfl, by decide, rfl, rfl, by decide, fun j hj => ?_, fun j k hj hk => by omega, by decide, by decide⟩,
    ⟨by decide, by decide, rfl, by decide, ok_of (by decide +kernel)⟩, exc_of (by decide +kernel), by decide⟩
  have : j = 0 := by omega
  rw [this]
  exact ⟨ok_of (by decide +kernel), rfl, ok_of (by decide +kernel)⟩

/-- One command of each die on its first core, with one i32 element, or of an operation with no such kind. -/
def collWord (kind : Nat) : Word := BitVec.ofNat 64 (1 + kind * 4 + 5 * 2 ^ 8 + 2 ^ 16 + 2 * 2 ^ 20)
def collCmd (kind r : Nat) : CollCmd :=
  ⟨[collWord kind, BitVec.ofNat 64 (0x100 * r), BitVec.ofNat 64 (0x1000 + 0x100 * r), 1], BitVec.ofNat 7 (24 * r), 0, 0, 0x1000, 0, true, false, false, 0⟩
def collects (kind : Nat) : State :=
  { base with
    cores := (List.range 4).map fun r => (24 * r, { Core.reset with harts := [(0, hart0)], tlb := [tlb1] })
    dies := (List.range 4).map fun r => (r, { Die.reset with coll := [collCmd kind r] })
    input := { tag := 5 } }

theorem test_wit_CollectiveResults :
    (let s := collects 0
     s.host.podId = 0 ∧ s.input.remote = [] ∧ s.Sound ∧
       (∀ r, r < 4 →
         ((s.die r).coll.find? (fun c => wbits (c.words.getD 0 0) 8 8 == 5)) = some (collCmd 0 r) ∧
         (collCmd 0 r).words = [collWord 0, BitVec.ofNat 64 (0x100 * r), BitVec.ofNat 64 (0x1000 + 0x100 * r), 1] ∧
         (collCmd 0 r).core.toNat / 24 = r ∧ (collCmd 0 r).dropped = false) ∧
       wbits (collWord 0) 0 2 = 1 ∧ wbits (collWord 0) 2 3 = 0 ∧ wbits (collWord 0) 5 3 = 0 ∧ wbits (collWord 0) 17 3 = 0 ∧
       wbits (collWord 0) 20 4 = 2 ∧ wbits (collWord 0) 24 8 = 0 ∧ wbits (collWord 0) 32 8 = 0 ∧ wbits (collWord 0) 40 24 = 0 ∧
       2 ∈ [2, 3, 6, 7, 13, 14] ∧ 0 < (1 : Word).toNat ∧ (1 : Word).toNat < 2 ^ 32 ∧
       (∀ r j, r < 4 → j < 4 →
         HeldByte (collCmd 0 r).ctx .read (BitVec.ofNat 64 (0x100 * r) + BitVec.ofNat 64 j) (0x100 * r + j) s ∧
         poisoned (0x100 * r + j) 1 s = false ∧
         HeldByte (collCmd 0 r).ctx .write (BitVec.ofNat 64 (0x1000 + 0x100 * r) + BitVec.ofNat 64 j) (0x1000 + 0x100 * r + j) s) ∧
       ∀ r j r' j' : Nat, j < 4 → j' < 4 → 0x1000 + 0x100 * r + j = 0x1000 + 0x100 * r' + j' → r = r' ∧ j = j') ∧
    (6 ≤ wbits (collWord 7) 2 3 ∧ (collCmd 7 0).answered = false ∧ ({ collCmd 7 0 with answered := true } : CollCmd).answered = true) := by
  refine ⟨⟨rfl, rfl, rfl, fun r hr => ?_, by decide, by decide, by decide, by decide, by decide, by decide, by decide, by decide,
    by decide, by decide, by decide, fun r j hr hj => ?_, fun r j r' j' hj hj' h => by omega⟩, by decide, rfl, rfl⟩
  · interval_cases r <;> exact ⟨by decide +kernel, rfl, by decide, rfl⟩
  · interval_cases r <;> interval_cases j <;>
      exact ⟨⟨by decide +kernel, ⟨tlb1, by decide +kernel, by decide, by decide, by decide +kernel⟩, ok_of (by decide +kernel)⟩, rfl,
        by decide +kernel, ⟨tlb1, by decide +kernel, by decide, by decide, by decide +kernel⟩, ok_of (by decide +kernel)⟩

/-! The Wharf -/

/-- A legal record: entry 0x4000, its table at 0x6000, one hart of one lane. -/
def recordBits : Nat := 0x4000 + 0x6000 * 2 ^ 64 + 9 * 2 ^ 392 + 1 * 2 ^ 400

/-- Near memory with the page table of `programTable`, the table of one C level of four groups, and the record at 0x100. -/
def launchMem : Memory :=
  writeNat (writeNat (writeNat (programTable.foldl (fun (m : Memory) e => writeNat m e.1 8 e.2) []) 0x100 64 recordBits) 0x6000 8 1) 0x6008 8
    (4 + 2 ^ 32)

def launching : State := { base with mem := launchMem, wharf := { base.wharf with tenants := [(0, { Tenant.reset with ptbase := 0x1000 })] } }

/-- The record of `recordBits` as the Wharf keeps it. -/
def checked (sup : Bool) : LaunchRec := { (parseRecord recordBits).1 with levels := [(1, 4)], tenant := 0, sup := sup }

def stores (ready : Word) (off : BitVec 16) (n : Nat) : State :=
  withIn { launching with host := { launching.host with ready := ready } } { off := off, bytes := natToBytes n recordBits }

theorem test_wit_LaunchOutcomes :
    (recordBits < 2 ^ 512 ∧ (parseRecord recordBits).2 = none) ∧
    (Idle launching ∧ launching.hart.rc.act = false ∧ launching.hart.run.wait = none ∧
      (∃ pages, checkedRecord (launching.hart.getX 1) launching = .ok (checked true, pages) launching) ∧ Idle launching ∧
      (launching.tenant (checked true).tenant.toNat).queued < 1024) ∧
    wbits (stores 0 0 64).host.ready 52 4 ≠ 15 ∧
    (let s := stores 0xFFFFFFFFFFFFFFFF 0x7C0 63
     wbits s.host.ready 52 4 = 15 ∧ s.input.bytes.length ≠ 64) ∧
    (let s := stores 0xFFFFFFFFFFFFFFFF 0x800 64
     wbits s.host.ready 52 4 = 15 ∧ 0x800 ≤ s.input.off.toNat) ∧
    (let s := stores 0xFFFFFFFFFFFFFFFF 0x7C0 64
     wbits s.host.ready 52 4 = 15 ∧ s.input.bytes.length = 64 ∧ s.input.off.toNat % 64 = 0 ∧ s.input.off.toNat < 0x800 ∧
       windowRecord (some s.input.tenant.toNat) (numberOf s.input.bytes) s = .ok (.inl (checked false)) s ∧
       ∃ r u, windowRecord none (numberOf s.input.bytes) s = .ok (.inl r) u) := by
  refine ⟨⟨by decide +kernel, by decide +kernel⟩, ⟨⟨rfl, rfl, rfl, rfl, rfl⟩, rfl, rfl, ⟨[tlb1, tlb1, tlb1], ok_of (by decide +kernel)⟩,
      ⟨rfl, rfl, rfl, rfl, rfl⟩, by decide +kernel⟩,
    by decide, ⟨by decide +kernel, by decide +kernel⟩, ⟨by decide +kernel, by decide⟩, by decide +kernel, by decide +kernel, by decide, by decide,
    ok_of (by decide +kernel), checked true, ok_with (by decide +kernel)⟩

/-- An empty package whose tenant 0 has one launch of four groups and a deficit. -/
def admits (deficit : BitVec 64) : State :=
  { State.reset with
    host := { State.reset.host with ready := 0xFFFFFFFFFFFFFFFF }
    wharf := { State.reset.wharf with
      tenants := [(0, { Tenant.reset with wgt := 1, deficit := deficit, queues := [(0, [0])] })], launches := [(0, launchC)], nextId := 1 } }

theorem test_wit_AdmissionResults :
    (let s := admits 1
     wbits s.host.ready 52 4 = 15 ∧ s.wharf.tenants = [(0, { Tenant.reset with wgt := 1, deficit := 1, queues := [(0, [0])] })] ∧
       s.wharf.launches = [(0, launchC)] ∧ s.wharf.groups = [] ∧ (s.tenant 0).wgt ≠ 0) ∧
    (launchC.record.waitAddr = 0 ∧ launchC.record.gang = false ∧ launchC.record.levels = [(1, 4)] ∧ launchC.nextGroup < 4 ∧
      launchC.record.prio.toNat = 0 ∧ launchC.record.tenant.toNat = 0 ∧ 1 ≤ record0.run ∧ record0.run ≤ record0.harts ∧
      record0.harts ≤ 4 ∧ 1 ≤ record0.lanes ∧ record0.run * record0.lanes ≤ 64 ∧ record0.tiles ≤ 8 ∧ record0.accs ≤ 4 ∧
      record0.lsb ≤ 0x3F0000) ∧
    (coreOpen 0 (admits 1) = true ∧ ((admits 1).core 0).pool = 64 ∧ 0 < ((admits 1).tenant 0).deficit.toInt) ∧
    ((admits 0).tenant 0).deficit.toInt ≤ 0 :=
  ⟨⟨by decide, rfl, rfl, rfl, by decide⟩,
    ⟨rfl, rfl, rfl, by decide, rfl, rfl, by decide, by decide, by decide, by decide, by decide, by decide, by decide, by decide⟩,
    ⟨by decide, rfl, by decide⟩, by decide⟩

/-- Tenant 0 with a launch that waits for 0x100 to reach `val`, and a group of it whose hart has ended, after `n` cycles. -/
def waitsFor (val : Word) : LaunchRec := { record0 with waitAddr := 0x100, waitVal := val, doneAddr := 0x200 }
def wharf1 (r : LaunchRec) (n : Nat) (req : List (Nat × Nat × Option Nat)) : State :=
  withIn
    { launching with
      cores := [(0, { (launching.core 0) with harts := [(0, { hart0 with run := { hart0.run with running := false } })], cycles := n,
                                              channels := [(3, ring false)] })]
      wharf := { launching.wharf with
        tenants := [(0, { Tenant.reset with ptbase := 0x1000, queues := [(0, [0])] })]
        launches := [(0, ⟨r, 1, 0, 0, req, false⟩)] } } {}

theorem test_wit_WharfResults :
    (let s := wharf1 (waitsFor 0) 0 []
     lookupD (s.tenant 0).queues 0 [] = 0 :: [] ∧ lookup s.wharf.launches 0 = some ⟨waitsFor 0, 1, 0, 0, [], false⟩ ∧
       (waitsFor 0).waitAddr ≠ 0 ∧ (∃ u, wharfRead 0 (waitsFor 0).sup (waitsFor 0).waitAddr s = .ok (recordBits % 2 ^ 64) u) ∧
       (waitsFor 0).waitVal.toNat ≤ recordBits % 2 ^ 64 ∧ recordBits % 2 ^ 64 < (waitsFor 0x4001).waitVal.toNat) ∧
    (let s := wharf1 record0 0x40000 []
     let use := group0.carried + ((s.core group0.core.toNat).cycles - group0.admitted)
     lookup s.wharf.groups 0 = some group0 ∧ group0.gone = false ∧
       lookup s.wharf.launches group0.launch = some ⟨record0, 1, 0, 0, [], false⟩ ∧
       group0.charged < use / 65536 * 65536 * group0.harts.length / 4) ∧
    (let s := wharf1 (waitsFor 0) 0 []
     let use := group0.carried + ((s.core group0.core.toNat).cycles - group0.admitted)
     use / 65536 * 65536 * group0.harts.length / 4 ≤ group0.charged ∧ group0.aborted = false ∧ group0.gang = none ∧
       (∀ h ∈ group0.harts, (s.hartAt group0.core.toNat h.toNat).run.running = false) ∧ (s.core group0.core.toNat).copyFifo = [] ∧
       (s.die (group0.core.toNat / 24)).coll = [] ∧ (s.core group0.core.toNat).dbg.profile = [] ∧ record0.doneAddr = 0 ∧
       (waitsFor 0).doneAddr ≠ 0 ∧
       (∃ u, wharfPlace 0 (waitsFor 0).sup .amo (waitsFor 0).doneAddr (chargeUse 0 use s) = .ok 0x200 u ∧
         (!poisoned 0x200 8 u) = true) ∧ s.Sound) ∧
    (let l : Launch := ⟨{ record0 with levels := [(4, 5)] }, 1, 0, 0, [(0, 3, none)], false⟩
     let s := wharf1 l.record 0 l.requests
     lookup s.wharf.launches s.input.launch = some l ∧ l.requests = [(0, 3, none)] ∧ yCount l = some 5 ∧
       lookup s.wharf.groups 0 = some group0 ∧ lookup s.wharf.saved 0 = none ∧
       lookup (s.core group0.core.toNat).channels 3 = some (ring false) ∧ (ring false).group = 0 ∧ 0 < (ring false).free ∧ s.Sound) := by
  refine ⟨⟨rfl, rfl, by decide, ok_with (by decide +kernel), by decide +kernel, by decide +kernel⟩, ⟨rfl, rfl, rfl, by decide +kernel⟩,
    ⟨by decide +kernel, rfl, rfl, by decide +kernel, rfl, rfl, rfl, rfl, by decide, ok_then (by decide +kernel), by unfold State.Sound; decide +kernel⟩,
    rfl, rfl, rfl, rfl, rfl, rfl, rfl, by decide, by unfold State.Sound; decide +kernel⟩

def victim : Group := { group0 with victim := true }
def yields (g : Group) : State := withIn { base with wharf := { base.wharf with groups := [(0, g)], launches := [(0, launchC)] } } {}

/-- A saved group of h0 with one byte of its arena, and an empty core 0. -/
def saved0 : Saved :=
  { base := 0x100000, size := 0x20000, map := ⟨[(0, 256)], 0x3000, [], 0x3000, [], 0x3000, 0x3000, []⟩, group := group0
    harts := [(0, { hart0.suspend.bare with vec := { hart0.suspend.bare.vec with written := [(2, 8)] } })], landing := [], channels := [], poison := [], pontoon := none }
def restores : State :=
  { State.reset with
    host := { State.reset.host with ready := 0xFFFFFFFFFFFFFFFF }
    wharf := { State.reset.wharf with saved := [(0, saved0)], launches := [(0, launchC)], nextId := 1 } }

theorem test_wit_PreemptionResults :
    (let s := yields victim
     lookup s.wharf.groups 0 = some victim ∧ victim.gang = none ∧ victim.aborted = false ∧ victim.gone = false ∧
       lookup s.wharf.launches victim.launch = some launchC ∧ launchC.record.gang = false ∧
       s.wharf.groups.Pairwise (fun a b => a.1 ≠ b.1) ∧ victim.victim = true ∧ (s.core victim.core.toNat).land.entries = [] ∧
       (s.core victim.core.toNat).copyFifo = [] ∧ (s.die (victim.core.toNat / 24)).coll = [] ∧ victim.harts.Pairwise (· ≠ ·) ∧
       (∀ h ∈ victim.harts, (s.hartAt victim.core.toNat h.toNat).ms.stq = []) ∧
       (∀ h ∈ victim.harts, ∀ v rest, (s.hartAt victim.core.toNat h.toNat).vec.viq = v :: rest →
         (∀ a b, v.instr ≠ .loop a b) ∧ v.start % 8 = 0) ∧
       saveBase (groupTenant victim s) s + (saveMap 0 victim s).2 ≤ 6 * 2 ^ 30 ∧ s.wharf.saved = [] ∧ s.Sound ∧ (victim.harts.filter fun h => (s.hartAt victim.core.toNat h.toNat).run.running) = 0 :: []) ∧
    (let s := restores
     s.wharf.saved = [(0, saved0)] ∧ saved0.group.gang = none ∧ lookup s.wharf.launches saved0.group.launch = some launchC ∧
       (s.tenant launchC.record.tenant.toNat).queues = [] ∧ saved0.landing = [] ∧ saved0.channels = [] ∧ saved0.pontoon = none ∧
       saved0.harts.Pairwise (fun a b => a.1 ≠ b.1) ∧ (∀ e ∈ saved0.harts, e.1 ∈ freeHarts 0 s ∧ e.2.ms.stq = [] ∧ (∀ q ∈ e.2.allEntries, q.old = none ∧ q.ahead = []) ∧
         saved0.map.records.find? (fun r => r.1 == e.1) = some (e.1, 256) ∧ e.2.vec.written = (2, 8) :: []) ∧
       0 / 24 = saved0.group.core.toNat / 24 ∧ saved0.fits 0 s = true ∧ (∀ k, k < 0 → k / 24 = 0 / 24 → saved0.fits k s = false) ∧
       (s.core 0).land.entries = [] ∧ s.Sound) ∧
    (let v : Saved := { saved0 with map := { saved0.map with records := [] } }
     (∀ e ∈ v.harts, v.map.records.find? (fun r => r.1 == e.1) = none) ∧ v.fits 0 restores = true) := by
  refine ⟨⟨rfl, rfl, rfl, rfl, rfl, rfl, by simp [yields, withIn], rfl, rfl, rfl, rfl, by decide, ?_, ?_, by decide +kernel, rfl, rfl, by decide⟩,
    ⟨rfl, rfl, rfl, rfl, rfl, rfl, rfl, by simp [saved0], ?_, by decide, by decide +kernel, fun k hk => absurd hk (by omega), rfl, rfl⟩, fun _ _ => rfl, by decide +kernel⟩
  · intro h hh
    rw [List.mem_singleton.mp (show h ∈ [(0 : HartNo)] from hh)]
    rfl
  · intro h hh
    rw [List.mem_singleton.mp (show h ∈ [(0 : HartNo)] from hh)]
    exact fun v rest hv => absurd (show ([] : List VEntry) = v :: rest from hv) (by simp)
  · intro e he
    rw [List.mem_singleton.mp (show e ∈ saved0.harts from he)]
    exact ⟨by decide +kernel, rfl, fun q hq => absurd (show q ∈ ([] : List VEntry) from hq) (by simp), rfl, rfl⟩

/-! Errors, services, the host and what it observes -/

/-- A report of a source, for a hart, with an address; and bank 0 of core 0 as given. -/
def report (source : BitVec 8) (hart : HartNo) (bank : BitVec 4) (a : Option Word) (k : Bank) : State :=
  withIn (base.setBank 0 bank.toNat k) { report := ⟨0, bank, source, 0, a, hart, 0, 7⟩, bank := bank }

theorem test_wit_ErrorResults :
    (let s := report 0x10 0 0 none ⟨0, 0, 0, 0x00010001⟩
     (s.bank 0 0).status.getLsbD 63 = false ∧ (s.bank 0 0).ctl.getLsbD 0 = true ∧
       wbits (s.bank 0 0).status 32 16 + 1 = wbits (s.bank 0 0).ctl 16 16) ∧
    (let s := report 0x10 0 0 none ⟨0x8000000100000000, 0, 0, 0x00010001⟩
     (s.bank 0 0).status.getLsbD 63 = true ∧ wbits (s.bank 0 0).ctl 16 16 ≠ 0 ∧
       wbits (s.bank 0 0).ctl 16 16 ≤ wbits (s.bank 0 0).status 32 16) ∧
    (let s := report 0x10 0 0 none ⟨0, 0, 0, 0⟩
     (s.bank 0 0).ctl.getLsbD 0 = false ∧ wbits (s.bank 0 0).ctl 16 16 = 0) ∧
    (let s := report 0x40 7 8 (some 0x1000) ⟨0, 0, 0, 0⟩
     s.input.report.addr = some 0x1000 ∧ s.input.report.source = 0x40 ∧ s.input.report.hart = 7 ∧ (0x1000 : Word).toNat < 2 ^ 52 ∧
       (s.bank 0 8).status.getLsbD 63 = false) ∧
    (let s := report 0x10 0 0 none ⟨0, 0, 0, 0⟩
     s.input.report.hart.toNat < 4 ∧ (s.hartAt 0 0).id.group = some 0 ∧ lookup s.wharf.groups 0 = some group0 ∧
       group0.harts.Pairwise (· ≠ ·) ∧ (∀ h ∈ group0.harts, h.toNat < 4) ∧ (s.bank 0 0).status.getLsbD 63 = false ∧
       s.input.report.source = 0x10 ∧ (s.hartAt 0 0).run.running = true ∧ (s.hartAt 0 0).tr.tbase ≠ 0 ∧
       (s.hartAt 0 0).tr.tcause.getLsbD 59 = false ∧ (s.hartAt 0 0).tr.tcause.getLsbD 63 = false) ∧
    (let s := (report 0x12 4 1 (some 5) ⟨0, 0, 0, 0⟩).modCore 0 fun k => { k with land := { k.land with entries := [(5, entry0)] } }
     s.input.report.source = 0x12 ∧ s.input.report.addr = some 5 ∧ lookup (s.core 0).land.entries 5 = some entry0 ∧
       (s.hartAt 0 entry0.hart.toNat).id.group = some 0 ∧ lookup s.wharf.groups 0 = some group0) ∧
    ((state { hart0 with vec := { hart0.vec with viq := [{ viqEntry (.vst 1 1 0 0) with start := 3 }] } }).hartAt 0 0).vec.viq =
      { viqEntry (.vst 1 1 0 0) with start := 3 } :: [] ∧
    ((alone 0 0).hartAt 0 0).tr.tbase = 0 ∧ (base.bank 0 12).status.getLsbD 63 = false := by
  refine ⟨⟨by decide, by decide, by decide⟩, ⟨by decide, by decide, by decide⟩, ⟨by decide, by decide⟩,
    ⟨rfl, rfl, rfl, by decide, by decide⟩, ⟨by decide, rfl, rfl, by decide, by decide, by decide, rfl, rfl, by decide, by decide, by decide⟩,
    ⟨rfl, rfl, rfl, rfl, rfl⟩, rfl, rfl, by decide⟩

def power (p : PowerState) (groups : AMap Group) (n : Input) : State :=
  withIn { base.modCore 0 fun k => { k with power := p } with wharf := { base.wharf with groups := groups } } n

theorem test_wit_ServiceResults :
    (let s := power ⟨false, 0, 4, some 1, false⟩ [(0, group0)] {}
     (s.core 0).power.test = some 1 ∧ groupsOn 0 s ≠ [] ∧ (s.core 0).power.trip = false ∧
       (s.core 0).power.req ≠ (s.core 0).power.cur ∧ (s.core 0).power.req = 4) ∧
    (groupsOn 0 (power ⟨false, 0, 4, some 1, false⟩ [] {}) = [] ∧
      ((power ⟨false, 0, 4, some 1, false⟩ [] {}).core 0).power.test.isSome = true) ∧
    (let s := power ⟨false, 0, 4, none, false⟩ [] { req := 4 }
     s.input.req.toNat < 5 ∧ groupsOn 0 s = [] ∧ (s.core 0).power.test = none ∧ (s.core 0).power.req = 4) ∧
    (5 ≤ (power ⟨false, 0, 0, none, false⟩ [] { req := 5 }).input.req.toNat) ∧
    ((5 : BitVec 4).toNat < 6 ∧ 8 ≤ (11 : BitVec 4).toNat ∧ (11 : BitVec 4).toNat < 12 ∧ ¬ ((6 : BitVec 4).toNat < 6 ∨ 8 ≤ (6 : BitVec 4).toNat ∧ (6 : BitVec 4).toNat < 12)) ∧
    (((power ⟨false, 0, 3, none, false⟩ [] {}).core 0).power.req ≠ 4 ∧
      ((power ⟨false, 0, 3, none, false⟩ [] {}).core 0).power.req ≠ ((power ⟨false, 0, 3, none, false⟩ [] {}).core 0).power.cur) ∧
    ((power ⟨true, 3, 0, none, false⟩ [] {}).core 0).power.trip = true ∧ (power ⟨true, 3, 0, none, false⟩ [] { st := 2 }).input.st ≠ 3 ∧
    (let s := withIn State.reset { bit := 57 }
     s.input.bit.toNat < 58 ∧ s.host.ready.getLsbD s.input.bit.toNat = false ∧ 8 ≤ s.input.bit.toNat) ∧
    (let s := withIn State.reset { bit := 7 }
     3 < 4 ∧ s.input.bit.toNat = 4 + 3 ∧ s.host.ready.getLsbD s.input.bit.toNat = false) ∧
    (withIn State.reset { bit := 56 }).input.bit = 56 ∧ base.Sound := by
  refine ⟨⟨rfl, by decide +kernel, rfl, by decide, rfl⟩, ⟨by decide +kernel, rfl⟩, ⟨by decide, by decide +kernel, rfl, rfl⟩, by decide, by decide,
    ⟨by decide, by decide⟩, rfl, by decide, ⟨by decide, by decide, by decide⟩, ⟨by decide, by decide, by decide⟩, rfl, rfl⟩

/-- Bank 0 of core 0 with claims and one counter. -/
def banks (hyper : Bool) (guest : Option (BitVec 6)) (sampling : Bool) : State :=
  base.modCore 0 fun k => { k with dbg := { k.dbg with ringBase := 0x1000, ringSize := 32,
                                                        counters := [(0, ⟨hyper, guest, false, [(0, ⟨1, sampling, 5, false⟩)], []⟩)] } }

theorem test_wit_RegisterWindowResults :
    ((5 : BitVec 6) = 5 ∧ (6 : BitVec 6) ≠ 5 ∧ 4 ≤ (20 : Word).toNat ∧ (20 : Word).toNat ≤ 20) ∧
    (base.hartAt (0 : CoreNo).toNat (0 : HartNo).toNat).run.stopped = false ∧
    (let s := state { hart0 with run := { hart0.run with stopped := true }, vec := { hart0.vec with viq := [viqEntry (.mmaC 0 0 0 8 8)] } }
     (s.hartAt (0 : CoreNo).toNat (0 : HartNo).toNat).run.stopped = true ∧
     (s.hartAt (0 : CoreNo).toNat (0 : HartNo).toNat).vec.viq = viqEntry (.mmaC 0 0 0 8 8) :: [] ∧
     (s.hartAt (0 : CoreNo).toNat (0 : HartNo).toNat).vec.held = [] ∧
     (s.hartAt (0 : CoreNo).toNat (0 : HartNo).toNat).ms.stq = [] ∧ (∀ i j, (viqEntry (.mmaC 0 0 0 8 8)).instr ≠ .loop i j) ∧
     decodeTableWord 64 0 = none) ∧
    (let x := holding.hartAt 0 0
     x.vec.held ++ x.vec.viq = viqEntry (.vadd 1 2 3 0) :: []) ∧
    (let e2 := { viqEntry (.vsub 1 2 3 0) with pc := 4 }
     let x := (state { hart0 with run := { hart0.run with stopped := true }, vec := { hart0.vec with viq := [viqEntry (.vadd 1 2 3 0), e2] } }).hartAt 0 0
     x.vec.held = [] ∧ x.vec.viq = viqEntry (.vadd 1 2 3 0) :: e2 :: [] ∧ x.ms.stq = [] ∧ (viqEntry (.vadd 1 2 3 0)).pc ≠ 4 ∧ e2.pc = 4 ∧
       x.pc ≠ 0x5000 ∧ (∀ e ∈ x.vec.held ++ x.vec.viq, e.pc ≠ 0x5000)) ∧
    (let k := fun s : State => lookupD (s.core 0).dbg.counters 0 ⟨false, none, false, [], []⟩
     (k (banks false (some 5) true)).guest = some 5 ∧ (k (banks false (some 5) true)).hyper = false ∧
       (k (banks true (some 5) true)).hyper = true ∧ (k (banks true (some 5) true)).guest ≠ some 6 ∧
       (lookupD (k (banks true (some 5) true)).counters 0 ⟨0, false, 0, false⟩).absent = false) :=
  ⟨by decide, rfl, ⟨rfl, rfl, rfl, rfl, fun _ _ => nofun, by decide +kernel⟩, rfl, ⟨rfl, rfl, rfl, by decide, rfl, by decide, by decide⟩, rfl, rfl, rfl, by decide, rfl⟩

/-- R236: another tenant's weight reads 0 through a virtual function; R204: a status word with ACC 2 and one rejection. -/
theorem test_window_reads :
    (let s := base.modTenant 5 fun x => { x with wgt := 7, acc := 2, rej := 1, reason := 3 }
     (readWindow .physical (.reg (.wgt 5)) s, readWindow (.virtual 4) (.reg (.wgt 5)) s, readWindow (.virtual 5) (.status 5) s)) =
      (7, 0, 0x0003_0001_0000_0002) := by decide

def hosts (n : Input) : State := withIn base n
def poisonedAt (n : Input) : State := { withIn base n with poison := [0] }
def unready (n : Input) : State := withIn { base with host := State.reset.host } n

theorem test_wit_HostAccessResults :
    (let s := hosts { pa := 0x17FFFFFF8, len := 8, bytes := [1, 2] }
     s.input.pa.toNat + s.input.len.toNat ≤ 0x180000000 ∧ s.input.pa.toNat + s.input.bytes.length ≤ 0x180000000 ∧
       (∀ j, j < 8 → s.host.ready.getLsbD (4 + (s.input.pa.toNat + j) / 0x60000000) = true) ∧ s.input.len.toNat = 8 ∧
       s.input.bytes.length ≤ 8 ∧ poisoned s.input.pa.toNat s.input.len.toNat s = false ∧ s.Sound ∧
       s.host.ready.getLsbD 57 = true ∧ s.input.code ≠ 0xF0) ∧
    (poisoned (poisonedAt { len := 8 }).input.pa.toNat (poisonedAt { len := 8 }).input.len.toNat (poisonedAt { len := 8 }) = true ∧
      (∀ j, j < 8 → (unready { len := 8, bytes := List.replicate 8 1 }).host.ready.getLsbD
        (4 + ((unready { len := 8, bytes := List.replicate 8 1 }).input.pa.toNat + j) / 0x60000000) = false) ∧
      (unready {}).host.ready.getLsbD 57 = false) ∧
    (¬ (hosts { pa := 0x17FFFFFF8, len := 9 }).input.pa.toNat + (hosts { pa := 0x17FFFFFF8, len := 9 }).input.len.toNat ≤ 0x180000000) ∧
    ((hosts { access := .read 8 }).input.access = .read 8 ∧ poisoned 0 8 (hosts {}) = false ∧ poisoned 0 8 (poisonedAt {}) = true) ∧
    (hosts { access := .write [1] }).input.access = .write [1] ∧ (hosts { access := .amo 0 1 0 }).input.access = .amo 0 1 0 ∧
    (hosts { code := 0xF0 }).input.code = 0xF0 := by
  refine ⟨⟨by decide, by decide, by decide, by decide, by decide, by decide, rfl, by decide, by decide⟩, ⟨by decide, by decide, by decide⟩, by decide,
    ⟨rfl, by decide, by decide⟩, rfl, rfl, rfl⟩

def profiled : State :=
  base.modCore 0 fun k => { k with dbg := { k.dbg with profile := [(0, ⟨0x4000, 0, 1, 0, 0⟩)] } }

theorem test_wit_ObservationResults :
    ((claimed.hartAt 0 0).run.claimed = true ∧ (base.hartAt 0 0).run.claimed = false ∧
      (state { hart0 with run := { hart0.run with claimed := true }, vec := { hart0.vec with viq := [{ viqEntry (.vadd 1 2 3 0) with start := 8 }] } }).hart.vec.viq =
        { viqEntry (.vadd 1 2 3 0) with start := 8 } :: [] ∧ 8 % 8 = 0) ∧
    (let k := fun s : State => lookupD (s.core 0).dbg.counters 0 ⟨false, none, false, [], []⟩
     (k (banks false none true)).hyper = false ∧ (k (banks false none true)).guest = none ∧ (k (banks true (some 5) true)).guest ≠ none ∧
       (k (banks true (some 5) true)).hyper = true ∧ (k (banks true (some 5) true)).guest = some 5 ∧
       lookup (k (banks false none false)).counters 0 = some ⟨1, false, 5, false⟩ ∧
       lookup (k (banks false none true)).counters 0 = some ⟨1, true, 5, false⟩ ∧
       ((banks false none true).core 0).dbg.counters.Pairwise (fun a b => a.1 ≠ b.1) ∧
       (k (banks false none true)).counters.Pairwise (fun a b => a.1 ≠ b.1)) ∧
    ((banks false none true).Sound ∧
      32 * ((banks false none true).core 0).dbg.ringPos + 32 ≤ ((banks false none true).core 0).dbg.ringSize.toNat ∧
      ((banks false none true).core 0).dbg.ringBase.toNat + 32 * ((banks false none true).core 0).dbg.ringPos + 32 ≤ 0x180000000) ∧
    ((∀ n, n < 4 → n ≠ 0 → (profiled.hartAt 0 n).run.running = false) ∧ (profiled.hartAt 0 0).run.running = true ∧
      lookup (profiled.core 0).dbg.profile (((profiled.hartAt 0 0).pc.toNat / 2 % 4096 ^^^ 0 * 16) % 4096) = some ⟨0x4000, 0, 1, 0, 0⟩ ∧
      (profiled.hartAt 0 0).pc = 0x4000 ∧ (profiled.hartAt 0 0).blocked = none ∧ (profiled.hartAt 0 0).run.why = 0 ∧
      lookup (base.core 0).dbg.profile 0 = none) := by
  refine ⟨⟨rfl, rfl, rfl, rfl⟩, ⟨rfl, rfl, by decide, rfl, rfl, rfl, rfl, List.pairwise_singleton .., List.pairwise_singleton ..⟩, ⟨rfl, by decide, by decide⟩, ⟨by decide, rfl, by decide, rfl, rfl, rfl, rfl⟩⟩

/-! Single steps, with results from the spec's examples and tables -/

/-- A hart with x registers, and the state with it. -/
def xs (l : AMap Word) : State := state (withX hart0 l)

/-- Elements of `n` bits, the first lowest. -/
def image (n : Nat) (l : List Nat) : VImage :=
  BitVec.ofNat 16384 (l.foldr (fun e acc => acc * 2 ^ n + e % 2 ^ n) 0)

/-- The step runs the word placed at its PC: ADD x16, x17, x18 (R41). -/
theorem test_step_runs_placed_word :
    after (step (placed 0x05045201)) (fun t => decide ((t.hartAt 0 0).pc = 0x4004 ∧ (t.hartAt 0 0).run.retired = 1)) = true := by
  decide +kernel

/-- R257: ADD wraps, and a write of x0 is discarded. -/
theorem test_add_wraps :
    after (exec (.add 1 2 3) (xs [(2, 0xFFFFFFFFFFFFFFFF), (3, 2)])) (fun t => t.hart.getX 1 == 1 && t.hart.pc == 0x4004) = true ∧
    after (exec (.addi 0 2 0xFFD) (xs [(2, 5)])) (fun t => t.hart.x == [(2, 5)] && t.hart.pc == 0x4004) = true := by decide +kernel

/-- 21_reference_m_to_t, MUL: −1 and 2. -/
theorem test_mul_example :
    let s := xs [(6, 0xFFFFFFFFFFFFFFFF), (7, 2)]
    after (exec (.mul 1 6 7) s) (fun t => t.hart.getX 1 == 0xFFFFFFFFFFFFFFFE) = true ∧
    after (exec (.mulh 1 6 7) s) (fun t => t.hart.getX 1 == 0xFFFFFFFFFFFFFFFF) = true ∧
    after (exec (.mulhn 1 6 7) s) (fun t => t.hart.getX 1 == 1) = true := by decide +kernel

/-- 21_reference_m_to_t, REM and REMN: −7 by 2, −2^63 by −1, and 7 by 0. -/
theorem test_rem_example :
    after (exec (.rem 5 6 7) (xs [(6, 0xFFFFFFFFFFFFFFF9), (7, 2)])) (fun t => t.hart.getX 5 == 0xFFFFFFFFFFFFFFFF) = true ∧
    after (exec (.rem 5 6 7) (xs [(6, 0x8000000000000000), (7, 0xFFFFFFFFFFFFFFFF)])) (fun t => t.hart.getX 5 == 0) = true ∧
    after (exec (.remn 5 6 7) (xs [(6, 7), (7, 0)])) (fun t => t.hart.getX 5 == 7) = true := by decide +kernel

/-- 21_reference_m_to_t, SHR and SHRA. -/
theorem test_shift_example :
    after (exec (.shrai 1 6 3) (xs [(6, 0x8000000000000010)])) (fun t => t.hart.getX 1 == 0xF000000000000002) = true ∧
    after (exec (.shri 1 6 3) (xs [(6, 0x8000000000000010)])) (fun t => t.hart.getX 1 == 0x1000000000000002) = true := by
  decide +kernel

/-- 20_reference_a_to_l, FMA, FMUL, FADD in fp32. -/
theorem test_fma_example :
    let s := xs [(5, 0x3F800800), (6, 0xBF801000), (7, 0xBF801000), (8, 0x3F801000)]
    after (exec (.fmulFp32 8 5 5) s) (fun t => t.hart.getX 8 == 0x3F801000 && t.hart.fp.flags == 0x10) = true ∧
    after (exec (.faddFp32 9 8 6) s) (fun t => t.hart.getX 9 == 0 && t.hart.fp.flags == 0) = true ∧
    after (exec (.fmaFp32 7 5 5) s) (fun t => t.hart.getX 7 == 0x33800000 && t.hart.fp.flags == 0) = true := by decide +kernel

/-- The same FMUL rounded up, and with NXE = 1, where it traps. -/
theorem test_fmul_modes :
    let s := fun c : BitVec 9 => state { withX hart0 [(5, 0x3F800800)] with fp := { hart0.fp with ctl := c } }
    after (exec (.fmulFp32 8 5 5) (s 3)) (fun t => t.hart.getX 8 == 0x3F801001) = true ∧
    after (exec (.fmulFp32 8 5 5) (s 0x80)) (fun t =>
      wbits t.hart.tr.tcause 0 8 == 9 && t.hart.tr.tinfo0 == 0x10 && t.hart.getX 8 == 0 && t.hart.pc == 0x8000) = true := by
  decide +kernel

/-- R221: a misaligned load raises MISALIGN with its address, and the front resumes at it. -/
theorem test_load_misaligned :
    after (exec (.ld 1 7 3 0) base) (fun t =>
      t.hart.tr.tcause == 0x1800000000000004 && t.hart.tr.tinfo0 == 0x101 && t.hart.tr.tpc == 0x4000 && t.hart.pc == 0x8000) = true := by
  decide +kernel

/-- R3, R268: bytes are little-endian, and a load of a halfword is sign-extended. -/
theorem test_store_and_load_bytes :
    after (exec (.st 3 1 1 0) (xs [(1, 0x100), (3, 0x12FE80)])) (fun t => t.mem == [(0x100, 0x80), (0x101, 0xFE)]) = true ∧
    after (exec (.ld 4 1 1 0) (withMem [(0x100, 0x80), (0x101, 0xFE)])) (fun t => t.hart.getX 4 == 0xFFFFFFFFFFFFFE80) = true := by
  decide +kernel

/-- R159: AMO.cas stores when the old value is that of x[d]. -/
theorem test_amo_cas :
    after (exec (.amoCas 5 1 3 3) (xs [(1, 0x100), (3, 9)])) (fun t => t.mem == [(0x100, 9)] && t.hart.getX 5 == 0) = true ∧
    after (exec (.amoCas 5 1 3 3) (xs [(1, 0x100), (3, 9), (5, 1)])) (fun t => t.mem == [] && t.hart.getX 5 == 0) = true := by
  decide +kernel

/-- R98: CALL prepares b7 with the address after it. -/
theorem test_call :
    after (exec (.call 1) base) (fun t => t.hart.pc == 0x5000 && (t.hart.getB 7).target == 0x4004 && (t.hart.getB 7).v) = true := by
  decide +kernel

/-- R220, R225: a trap at S saves PP = 1, and ERET goes behind it. -/
theorem test_trap_and_return :
    after (exec (.trap 5) base) (fun t =>
      t.hart.tr.tcause == 0x1800000000000015 && t.hart.tr.tinfo0 == 5 && t.hart.pc == 0x8000 &&
        after (exec .eret t) fun u => u.hart.pc == 0x4004 && u.hart.tr.sup) = true := by decide +kernel

/-- R57: VSETL under two lanes of fp32. -/
theorem test_vsetl :
    after (exec (.vsetl 5 6 13 0 13) (state { withX (withGrant hart0 2) [(6, 100)] with k := 0 })) (fun t =>
      t.hart.getX 5 == 16 && t.hart.vec.vl == 16 && t.hart.vec.vtype == 0xD0D) = true := by decide +kernel

/-- 23_reference_vj_to_z, VFORK: 60 lanes, and h2 is the child. -/
theorem test_vfork_example :
    let s : State := { base with
      cores := [(0, { Core.reset with harts := [(0, withGrant hart0 60), (2, idle1)], tlb := [tlb1], pool := 4 })]
      wharf := { base.wharf with groups := [(0, { group0 with harts := [0, 2] })] } }
    after (exec (.vfork 5 1) s) (fun t => t.hart.getX 5 == 0x12 && t.hart.vec.grant == 30 && (t.hartAt 0 2).vec.grant == 30 &&
      (t.hartAt 0 2).pc == 0x5000 && (t.hartAt 0 2).run.running) = true := by decide +kernel

/-- 08_numbers: where a tree reduction lands. -/
theorem test_vred_example :
    let h := typed hart0 13 5
    let s := state { h with vec := { h.vec with v := [(1, image 32 [0x3F800000, 0x4B800000, 0x3F800000, 0x3F800000, 0xCB800000])] } }
    after (exec (.vred 2 1 0 0) s) (fun t => elemOf (t.hart.getV 2) 32 0 == 0x40000000 && t.hart.fp.flags == 0x10) = true := by
  decide +kernel

/-- 08_numbers: one FP4 block. -/
theorem test_fp4_block_example :
    let h := typed (withGrant hart0 2) 0x1D 16
    let s := state { h with vec := { h.vec with v := [(1, image 32 [0x41200000, 0x40300000, 0xBE99999A])] } }
    after (exec (.vfcvt 2 1 10 0) s) (fun t =>
      (t.hart.getV 2).toNat == 0x0836 && (t.hart.getSide 2).toNat % 256 == 0x80 && t.hart.fp.flags == 0x10) = true := by
  decide +kernel

/-- 08_numbers: random bits for a masked instruction, 1 + 0.75 · 2^−23 in element 5. -/
theorem test_random_bits_example :
    let h := typed hart0 13 6
    let s := state { h with
      fp := { h.fp with ctl := 5, seed := 0x00300005, ric := 3 }
      vec := { h.vec with v := [(1, image 32 (List.replicate 6 0x3F800000)), (2, image 32 (List.replicate 6 0x33C00000))]
                          m := [(1, 0x30)] } }
    after (exec (.vfadd 3 1 2 1) s) (fun t =>
      elemOf (t.hart.getV 3) 32 5 == 0x3F800001 && elemOf (t.hart.getV 3) 32 0 == 0 && t.hart.fp.ric == 4) = true := by
  decide +kernel

/-- 05_holes: one subtraction, three holes. -/
theorem test_holes_example :
    let h := typed hart0 13 4
    let s := state { h with vec := { h.vec with
      v := [(1, image 32 [0x40400000, 0x3F800000, 0x40A00000, 1]), (2, image 32 [0x3F800000, 0x3F7FFFF0, 0x40A00000, 0])] } }
    after (exec (.vfsub 3 1 2 0) s) (fun t => elemOf (t.hart.getV 3) 32 0 == 0x40000000 &&
      (t.core 0).land.entries.map (fun e => e.2.index.toNat) == [1, 2, 3] &&
      (t.core 0).land.entries.all fun e => e.2.state == .ready) = true := by decide +kernel

/-- A core's tiles: rows as numbers by tile and row. -/
def withRows (s : State) (l : List (Nat × Nat)) : State :=
  s.modCore 0 fun k => { k with tiles := { k.tiles with rows := l.map fun e => (e.1, BitVec.ofNat 1024 e.2) } }

/-- 11_matrix: a 2 × 2 BF16 product, and its drain. -/
theorem test_bf16_product_example :
    let h := tiled 2 0 0 0
    let s := withRows (state { h with tile := { h.tile with m := 2, n := 2, k := 4, claim := some ([0, 1, 2], [0]) } })
      [(0, 0x4080404040003F80), (1, 0x3F003F003F003F00), (128, 0x3F803F803F803F80), (129, 0x4080404040003F80)]
    after (exec (.mma 0 1 0 12 12) s) (fun t =>
      (t.core 0).tiles.word 0 0 0 == 0x41200000 && (t.core 0).tiles.word 0 0 1 == 0x41F00000 &&
      (t.core 0).tiles.word 0 1 0 == 0x40000000 && (t.core 0).tiles.word 0 1 1 == 0x40A00000 && (t.core 0).tiles.kind 0 == 1 &&
      after (exec (.mdrain 2 0 12 0) t) fun u => (u.core 0).tiles.row 2 0 == 0x41F04120 && (u.core 0).tiles.row 2 1 == 0x40A04000)
      = true := by decide +kernel

/-- 21_reference_m_to_t, MMAN: planes of −3 and 100 at four bits, by 2 and 1 at eight. -/
theorem test_mman_example :
    let h := tiled 1 0 0 0
    let plane : Nat → Nat → Nat := fun i b => b * 2 ^ (128 * i)
    let s := withRows (state { h with tile := { h.tile with m := 1, n := 1, k := 2 } })
      [(0, plane 0 1 + plane 1 3 + plane 2 3 + plane 3 1 + plane 4 1 + plane 5 3 + plane 7 1), (128, plane 6 1 + plane 7 2)]
    after (exec (.mman 0 1 0 3 7) s) (fun t => (t.core 0).tiles.word 0 0 0 == 4 && (t.core 0).tiles.kind 0 == 2) = true := by
  decide +kernel

/-- R87: a fill of an entry on the ferry writes the element and frees the ferry. -/
theorem test_fill :
    let s := ferry 3
    let s := s.modHart fun h => { h with x := [(1, 3), (2, 0x35800000)] }
    after (exec (.fill 2 1) s) (fun t =>
      elemOf ((t.hartAt 0 0).getV 1) 32 0 == 0x35800000 && t.hart.hole.ferry == none && (t.core 0).land.entries == []) = true := by
  decide +kernel

/-- R228: a first corrected error leaves a record of class 1 and counts 1. -/
theorem test_corrected_error :
    after (exec .correctedError (report 0x10 7 0 none Bank.reset)) (fun t =>
      wbits (t.bank 0 0).status 60 4 == 9 && wbits (t.bank 0 0).status 32 16 == 1 && wbits (t.bank 0 0).status 16 8 == 0x10) = true := by
  decide +kernel

end Sys2Proof.Tests
end

/-! ## Every step keeps memory canonical

A result, an outcome or an optional state is sound when each state in it has its memory in canonical form
(`Res.Sound`, `SoundOut`, `SoundOpt`). The rules for `bind`, folds and conditionals carry soundness through the model's
combinators. One lemma per operation follows, in the order of the model's files: the operations that write memory rest
on the laws of `Laws/Memory`, and one that leaves memory alone keeps its hypothesis as it is. -/

namespace Sys2Proof.Machine

/-- Every state that a result carries has its memory in canonical form. -/
inductive Res.Sound : Res α → Prop
  | ok {a s} (hs : s.Sound) : Sound (.ok a s)
  | wait {n s} (hs : s.Sound) : Sound (.wait n s)
  | exc {e k s} (hs : s.Sound) : Sound (.exc e k s)
  | contained {c s} (hs : s.Sound) : Sound (.contained c s)
  | stop {f} : Sound (.stop f)

/-- The next state of an outcome, if there is one, has its memory in canonical form. -/
inductive SoundOut : Out → Prop
  | next {s} (hs : s.Sound) : SoundOut (.next s)
  | fault {f} : SoundOut (.fault f)
  | refused {r} : SoundOut (.refused r)

/-- The state in what an operation may give, if there is one, has its memory in canonical form. -/
inductive SoundOpt (f : α → State) : Option α → Prop
  | some {a} (hs : (f a).Sound) : SoundOpt f (some a)
  | none : SoundOpt f none

theorem Res.Sound.bind {r : Res α} {f : α → State → Res β} (hr : r.Sound) (hf : ∀ a t, t.Sound → (f a t).Sound) :
    (r.bind f).Sound := by
  cases hr with
  | ok hs => exact hf _ _ hs
  | wait hs => exact .wait hs
  | exc hs => exact .exc hs
  | contained hs => exact .contained hs
  | stop => exact .stop

theorem foldl_sound {f : State → α → State} {l : List α} {s : State} (hf : ∀ s a, s.Sound → (f s a).Sound)
      (hs : s.Sound) :
    (l.foldl f s).Sound := by
  induction l generalizing s with
  | nil => exact hs
  | cons a l ih => exact ih (hf s a hs)

theorem foldl_snd_sound {f : α × State → β → α × State} {l : List β} {p : α × State}
    (hf : ∀ p b, p.2.Sound → (f p b).2.Sound) (hp : p.2.Sound) : (l.foldl f p).2.Sound := by
  induction l generalizing p with
  | nil => exact hp
  | cons b l ih => exact ih (hf p b hp)

section
variable {c : Prop} [Decidable c]

theorem State.Sound.ite {s t : State} (hs : s.Sound) (ht : t.Sound) : (if c then s else t).Sound := by
  split
  · exact hs
  · exact ht

theorem Res.Sound.ite {q r : Res α} (hq : q.Sound) (hr : r.Sound) : (if c then q else r).Sound := by
  split
  · exact hq
  · exact hr

theorem SoundOut.ite {o q : Out} (ho : SoundOut o) (hq : SoundOut q) : SoundOut (if c then o else q) := by
  split
  · exact ho
  · exact hq

theorem snd_ite_sound {p q : α × State} (hp : p.2.Sound) (hq : q.2.Sound) : (if c then p else q).2.Sound := by
  split
  · exact hp
  · exact hq

theorem SoundOpt.ite {f : α → State} {o q : Option α} (ho : SoundOpt f o) (hq : SoundOpt f q) : SoundOpt f
      (if c then o else q) := by
  split
  · exact ho
  · exact hq

end

theorem SoundOpt.map {f : α → State} {g : β → State} {k : α → β} {o : Option α} (ho : SoundOpt f o)
    (hk : ∀ a, (f a).Sound → (g (k a)).Sound) : SoundOpt g (o.map k) := by
  cases ho with
  | some hs => exact .some (hk _ hs)
  | none => exact .none

theorem SoundOpt.getD {o : Option State} {s : State} (ho : SoundOpt id o) (hs : s.Sound) : (o.getD s).Sound := by
  cases ho with
  | some ht => exact ht
  | none => exact hs

theorem SoundOpt.bind {f : α → State} {g : β → State} {k : α → Option β} {o : Option α} (ho : SoundOpt f o)
    (hk : ∀ a, (f a).Sound → SoundOpt g (k a)) : SoundOpt g (o.bind k) := by
  cases ho with
  | some hs => exact hk _ hs
  | none => exact .none

theorem foldl_res_sound {f : Res α → β → Res α} {l : List β} {r : Res α} (hf : ∀ r b, r.Sound → (f r b).Sound)
    (hr : r.Sound) : (l.foldl f r).Sound := by
  induction l generalizing r with
  | nil => exact hr
  | cons b l ih => exact ih (hf r b hr)

theorem foldl_opt_sound {f : Option State → β → Option State} {l : List β} {o : Option State}
    (hf : ∀ o b, SoundOpt id o → SoundOpt id (f o b)) (ho : SoundOpt id o) : SoundOpt id (l.foldl f o) := by
  induction l generalizing o with
  | nil => exact ho
  | cons b l ih => exact ih (hf o b ho)


section
variable {s : State}

/-! ### Operations of `Machine/Ops` -/

theorem check_sound {b e} (hs : s.Sound) : (check b e s).Sound := .ite (.ok hs) (.exc hs)

theorem forEach_sound {l : List α} {f : α → State → Res Unit} (hf : ∀ a s, s.Sound → (f a s).Sound) (hs : s.Sound) :
    (forEach l f s).Sound := by
  induction l generalizing s with
  | nil => exact .ok hs
  | cons a l ih => exact .bind (hf a s hs) fun _ _ hs1 => ih hs1

theorem mapEach_sound {l : List α} {f : α → State → Res β} (hf : ∀ a s, s.Sound → (f a s).Sound) (hs : s.Sound) :
    (mapEach l f s).Sound := by
  induction l generalizing s with
  | nil => exact .ok hs
  | cons a l ih => exact .bind (hf a s hs) fun _ _ hs1 => .bind (ih hs1) fun _ _ hs2 => .ok hs2

theorem freshWord_sound (hs : s.Sound) : (freshWord s).2.Sound := hs

theorem modCore_sound {c f} (hs : s.Sound) : (State.modCore s c f).Sound := hs

theorem setHart_sound {h} (hs : s.Sound) : (State.setHart s h).Sound := hs

theorem setHartAt_sound {c h x} (hs : s.Sound) : (State.setHartAt s c h x).Sound := hs

theorem modHartAt_sound {c h f} (hs : s.Sound) : (State.modHartAt s c h f).Sound := hs

theorem modHart_sound {f} (hs : s.Sound) : (State.modHart s f).Sound := hs

theorem modDie_sound {d f} (hs : s.Sound) : (State.modDie s d f).Sound := hs

theorem modWharf_sound {f} (hs : s.Sound) : (State.modWharf s f).Sound := hs

theorem modHost_sound {f} (hs : s.Sound) : (State.modHost s f).Sound := hs

theorem push_sound {t} (hs : s.Sound) : (State.push s t).Sound := hs

theorem stall_sound {reason} (hs : s.Sound) : (stall reason s).Sound := hs

theorem writeX_sound {n d w} (hs : s.Sound) : (writeX n d w s).Sound := hs

theorem modGroup_sound {g f} (hs : s.Sound) : (State.modGroup s g f).Sound := by
  unfold State.modGroup
  split <;> exact hs

theorem setBank_sound {c b x} (hs : s.Sound) : (State.setBank s c b x).Sound := .ite hs hs

theorem logBank_sound {c b cls source syndrome addr misc} (hs : s.Sound) :
    (logBank c b cls source syndrome addr misc s).Sound :=
  setBank_sound hs

theorem releaseClaim_sound {c h} (hs : s.Sound) : (releaseClaim c h s).Sound := by
  unfold releaseClaim
  dsimp only
  split
  · exact modHartAt_sound (modGroup_sound hs)
  · exact hs

theorem endHart_sound {c h} (hs : s.Sound) : (endHart c h s).Sound :=
  modCore_sound (modHartAt_sound (releaseClaim_sound hs))

theorem cancelCopies_sound {c g} (hs : s.Sound) : (cancelCopies c g s).Sound := hs

theorem abortHart_sound {c h bank core status addr misc} (hs : s.Sound) :
    (abortHart c h bank core status addr misc s).Sound :=
  .ite hs (.ite hs (endHart_sound hs))

theorem abortGroup_sound {g bank core status addr misc} (hs : s.Sound) :
    (abortGroup g bank core status addr misc s).Sound := by
  unfold abortGroup
  split
  · exact hs
  · exact modDie_sound (modCore_sound (cancelCopies_sound
        (foldl_sound (fun _ _ hs1 => abortHart_sound hs1) (modGroup_sound hs))))

theorem correctError_sound {c b source syndrome addr misc} (hs : s.Sound) :
    (correctError c b source syndrome addr misc s).Sound :=
  .ite (push_sound (setBank_sound hs)) (setBank_sound hs)

theorem setEntry_sound {c n e} (hs : s.Sound) : (State.setEntry s c n e).Sound := hs

theorem settlePoison_sound {c} (hs : s.Sound) : (settlePoison c s).Sound := .ite hs hs

theorem completeEntry_sound {c n val} (hs : s.Sound) : (completeEntry c n val s).Sound := by
  unfold completeEntry
  split
  · exact hs
  · exact settlePoison_sound hs

theorem resolveWritten_sound {c} (hs : s.Sound) : (resolveWritten c s).Sound := by
  refine .ite hs (foldl_sound (fun _ _ hs1 => ?_) hs)
  split
  · exact hs1
  · exact completeEntry_sound hs1

theorem poisonEntry_sound {c n cause detail} (hs : s.Sound) : (poisonEntry c n cause detail s).Sound := by
  unfold poisonEntry
  split
  · exact hs
  · exact resolveWritten_sound (settlePoison_sound hs)

theorem ferryException_sound {c h e} (hs : s.Sound) : (ferryException c h e s).Sound := by
  unfold ferryException
  split
  · exact modHartAt_sound (poisonEntry_sound hs)
  · exact modHartAt_sound (correctError_sound hs)

theorem roundEntry_sound {c h v} (hs : s.Sound) : (roundEntry c h v s).2.Sound := by
  unfold roundEntry
  split
  · exact hs
  · exact snd_ite_sound hs hs

theorem roundStop_sound {c h} (hs : s.Sound) : (roundStop c h s).Sound := by
  unfold roundStop
  dsimp only
  generalize VecState.viq _ = r
  split
  · exact hs
  · split
    · split
      · exact hs
      · exact .ite hs (modHartAt_sound (roundEntry_sound hs))
    · exact .ite hs (modHartAt_sound (roundEntry_sound hs))

theorem stopPackage_sound (hs : s.Sound) : (stopPackage s).Sound :=
  modHost_sound (foldl_sound (fun _ _ hs1 => foldl_sound (fun _ _ hs2 => roundStop_sound hs2) hs1) hs)

theorem contain_sound {e c h pc} (hs : s.Sound) : (contain e c h pc s).Sound := by
  unfold contain
  dsimp only
  split
  · exact stopPackage_sound (logBank_sound hs)
  · exact abortGroup_sound (logBank_sound hs)

theorem takeTrap_sound {c h vs tpc e} (hs : s.Sound) : (takeTrap c h vs tpc e s).Sound :=
  .ite (ferryException_sound hs) (.ite (contain_sound hs)
      (.ite (contain_sound hs) (setHartAt_sound (.ite hs (roundStop_sound hs)))))

theorem trapFront_sound {e} (hs : s.Sound) : (trapFront e s).Sound := takeTrap_sound hs

theorem trapAfter_sound {n e} (hs : s.Sound) : (trapAfter n e s).Sound := takeTrap_sound hs

theorem finish_sound {r} (hr : Res.Sound r) : SoundOut (finish r) := by
  cases hr with
  | ok hs => exact .next hs
  | wait hs => exact .next hs
  | exc hs => exact .next (trapFront_sound hs)
  | contained hs => exact .next (contain_sound hs)
  | stop => exact .fault

theorem cleanLines_sound {l} (hs : s.Sound) : (cleanLines l s).Sound := .ite hs hs

theorem performCells_sound {cells} (hs : s.Sound) : (performCells cells s).Sound :=
  performCells_wf cells s hs

theorem performNat_sound {p n w} (hs : s.Sound) : (performNat p n w s).Sound := performCells_sound hs

theorem reachable_sound {core p} (hs : s.Sound) : (reachable core p s).Sound := by
  unfold reachable
  dsimp only
  split
  · exact .ite .stop (.ok hs)
  · exact .ite .stop (.ite (.contained hs) (.ok hs))
  · exact .ite .stop (.ite (.contained hs) (.ok hs))
  · exact .ok hs

theorem walk_sound {cx k va elem node mt l} (hs : s.Sound) : (walk cx k va elem node mt s l).Sound := by
  induction l generalizing node mt s with
  | nil => exact .exc hs
  | cons lvl rest ih =>
    refine .bind (reachable_sound hs) fun _ t ht => .ite (.exc ht) (.ite ?_ ?_)
    · cases rest with
      | nil => exact .exc ht
      | cons => exact ih ht
    · split
      · exact .exc ht
      · split
        · exact .exc ht
        · exact .ok (.ite ht (performNat_sound ht))

theorem leafOf_sound {cx k va elem} (hs : s.Sound) : (leafOf cx k va elem s).Sound := by
  rcases leafOf_walked cx k va elem s with ⟨e, t, h, w⟩ | ⟨x, h⟩ | ⟨c, t, h, w⟩ | h <;> rw [h]
  · exact .ok (w.sound hs)
  · exact .exc hs
  · exact .contained (w.sound hs)
  · exact .stop

theorem translate_sound {cx k va elem} (hs : s.Sound) : (translate cx k va elem s).Sound :=
  .bind (leafOf_sound hs) fun _ _ hs1 => .bind (reachable_sound hs1) fun _ _ hs2 => .ok hs2

theorem translateHeld_sound {pins cx k va elem} (hs : s.Sound) : (translateHeld pins cx k va elem s).Sound := by
  unfold translateHeld
  split
  · exact .bind (reachable_sound hs) fun _ _ hs1 => .ok hs1
  · exact translate_sound hs

theorem countHeat_sound {core tenant e} (hs : s.Sound) : (countHeat core tenant e s).Sound := .ite hs (.ite hs hs)

theorem countPages_sound {core tenant es} (hs : s.Sound) : (countPages core tenant es s).Sound :=
  foldl_sound (fun _ _ hs1 => countHeat_sound hs1) hs

theorem loadPlace_sound {core p n} (hs : s.Sound) : (loadPlace core p n s).Sound := .ite (.contained hs) (.ok hs)

theorem lsPlaceOf_sound {c base size off n elem write} (hs : s.Sound) :
    (lsPlaceOf c base size off n elem write s).Sound :=
  .ite (.ok hs) (.exc hs)

theorem clsPlaceOf_sound {g off n elem write} (hs : s.Sound) : (clsPlaceOf g off n elem write s).Sound := by
  unfold clsPlaceOf
  dsimp only
  split
  · exact .exc hs
  · split
    · exact .exc hs
    · exact .ite (.ok hs) (.exc hs)

theorem cacheLine_sound {cap l b m} (hs : s.Sound) : (cacheLine cap l b m s).2.Sound :=
  snd_ite_sound hs (freshWord_sound hs)

theorem fetchBlock_sound {core p} (hs : s.Sound) : (fetchBlock core p s).2.Sound := by
  unfold fetchBlock
  split
  · exact hs
  · exact modCore_sound (snd_ite_sound hs (cacheLine_sound hs))

theorem fetchHalf_sound {cx va} (hs : s.Sound) : (fetchHalf cx va s).Sound := by
  unfold fetchHalf
  split
  · split
    · exact .exc hs
    · exact .ok hs
  · exact .bind (translate_sound hs) fun _ _ hs1 => .ite (.contained hs1) (.ok (fetchBlock_sound hs1))

theorem fetchRest_sound {cx va n} (hs : s.Sound) : (fetchRest cx va s n).Sound := by
  induction n generalizing va s with
  | zero => exact .ok hs
  | succ n ih => exact .bind (fetchHalf_sound hs) fun _ _ hs1 => .bind (ih hs1) fun _ _ hs2 => .ok hs2

theorem fetchInstr_sound {cx va} (hs : s.Sound) : (fetchInstr cx va s).Sound :=
  .bind (fetchHalf_sound hs) fun _ _ hs1 => .bind (fetchRest_sound hs1) fun _ _ hs2 => .ok hs2

/-! ### Operations of `Machine/Operands` -/

theorem sweep_sound {c} (hs : s.Sound) : (sweep c s).Sound := .ite hs hs

theorem noteOver_sound {c h r n l} (hs : s.Sound) : (noteOver c h r n l s).Sound := .ite hs hs

theorem repair_sound {c h r n l} (hs : s.Sound) : (repair c h r n l s).Sound :=
  .ite (noteOver_sound hs) (noteOver_sound (foldl_sound
      (fun _ _ hs1 => foldl_sound (fun _ _ hs2 => completeEntry_sound hs2) hs1) hs))

theorem writeElems_sound {c h r n l} (hs : s.Sound) : (writeElems c h r n l s).Sound :=
  modHartAt_sound (.ite (repair_sound hs) (modCore_sound (repair_sound hs)))

theorem fillSlot_sound {c ch slot} (hs : s.Sound) : (fillSlot c ch slot s).Sound := hs

theorem updateConst_sound {c cells} (hs : s.Sound) : (updateConst c cells s).Sound := .ite hs hs

theorem commit_sound {c p} (hs : s.Sound) : (commit c p s).Sound := by
  unfold commit
  dsimp only
  split
  · exact .ite hs (updateConst_sound (cleanLines_sound (performCells_sound hs)))
  · exact fillSlot_sound (.ite hs (updateConst_sound (cleanLines_sound (performCells_sound hs))))

theorem commitAtomic_sound {c h p a} (hs : s.Sound) : (commitAtomic c h p a s).Sound :=
  modHartAt_sound (.ite (modCore_sound (commit_sound hs)) (commit_sound hs))

theorem retranslate_sound {c p} (hs : s.Sound) : (retranslate c p s).2.Sound := by
  unfold retranslate
  split
  · exact hs
  · generalize hr : translate _ _ _ _ _ = r
    cases (hr ▸ translate_sound hs : r.Sound) with
    | ok hs2 => exact hs2
    | wait | exc | contained | stop => exact hs

theorem commitAll_sound {c h l} (hs : s.Sound) : (commitAll c h l s).2.Sound := by
  induction l generalizing s with
  | nil => exact hs
  | cons p ps ih =>
    have ht : (retranslate c p s).2.Sound := retranslate_sound hs
    unfold commitAll
    dsimp only
    split
    · split
      · exact ht
      · split
        · exact ih (commit_sound ht)
        · exact ih (commitAtomic_sound ht)
    · exact hs

theorem drain_sound {c h} (hs : s.Sound) : (drain c h s).Sound :=
  .ite hs (sweep_sound (modHartAt_sound (commitAll_sound hs)))

theorem enqueue_sound {c h ps} (hs : s.Sound) : (enqueue c h ps s).Sound := drain_sound hs

theorem enqueueFront_sound {c h after p} (hs : s.Sound) : (enqueueFront c h after p s).Sound := drain_sound hs

theorem raiseDeferred_sound {c h roots k} (hs : s.Sound) : (raiseDeferred c h roots k s).Sound := by
  unfold raiseDeferred
  split
  · exact .ok hs
  · exact .exc hs

theorem settleEntries_sound {c h ns} (hs : s.Sound) : (settleEntries c h ns s).Sound :=
  .ite (.wait hs) (raiseDeferred_sound hs)

theorem settleAll_sound {c h} (hs : s.Sound) : (settleAll c h s).Sound := by
  refine .ite (.wait hs) ?_
  split
  · exact .ite (.wait (drain_sound hs)) (raiseDeferred_sound (drain_sound hs))
  · exact raiseDeferred_sound (drain_sound hs)

/-! ### Operations of `Machine/Vector` -/

theorem takeEntry_sound {c h row x} (hs : s.Sound) : (takeEntry c h row x s).Sound := by
  unfold takeEntry
  generalize freeEntry _ _ = r
  split <;> exact hs

theorem writeScales_sound {c h r ty l} (hs : s.Sound) : (writeScales c h r ty l s).Sound := .ite hs hs

theorem leaveRow_sound {c l} (hs : s.Sound) : (leaveRow c l s).Sound := .ite hs hs

theorem stuckExc_sound {c h k} {r : Res α} (hs : s.Sound) (hr : r.Sound) : ((stuckExc c h k s).getD r).Sound := by
  unfold stuckExc
  split
  · exact hr
  · split
    · exact hr
    · exact .exc hs

theorem followRow_sound {c h r n es} (hs : s.Sound) : (followRow c h r n es s).Sound := .ite hs hs

theorem takeResult_sound {c h row} {e : Elem} (hs : s.Sound) :
    (match e.res with
      | .hole x => takeEntry c h row x s
      | .val _ => s).Sound := by
  split
  · exact takeEntry_sound hs
  · exact hs

/-- What an instruction raises when its hart is stuck, and may find no reason to. -/
theorem stuckExc_some {c h k} {p : Prop} [Decidable p] {r : Res α} (hs : s.Sound)
    (hr : (if p then stuckExc c h k s else none) = some r) : r.Sound := by
  have h0 := stuckExc_sound (α := α) (c := c) (h := h) (k := k) hs (.wait (n := 0) hs)
  split at hr
  · rwa [hr] at h0
  · cases hr

theorem applyRow_sound {c h v r n rs sty scales} (hs : s.Sound) : (applyRow c h v r n rs sty scales s).Sound := by
  unfold applyRow
  dsimp only
  split
  · rename_i hout
    exact stuckExc_some hs hout
  · split <;> exact .ok (followRow_sound (writeScales_sound (settlePoison_sound (leaveRow_sound (repair_sound
      (foldl_sound (fun _ _ hs => takeResult_sound hs) hs))))))

theorem applyResults_sound {c h v r n rs sty scales} (hs : s.Sound) : (applyResults c h v r n rs sty scales s).Sound :=
  .ite (.ok hs) (applyRow_sound hs)

theorem elementwise_sound {c h v op mk} (hs : s.Sound) : (elementwise c h v op mk s).Sound := applyResults_sound hs

theorem applyCopies_sound {c h v ty d l} (hs : s.Sound) : (applyCopies c h v ty d l s).Sound := applyResults_sound hs

theorem requirePresent_sound {c h l n} (hs : s.Sound) : (requirePresent c h l n s).Sound := .ite (.ok hs) (.wait hs)

theorem awaitThese_sound {c h det l ranges} (hs : s.Sound) : (awaitThese c h det l ranges s).Sound := by
  refine .ite (.ok hs) (.ite (.ok hs) ?_)
  generalize rootsOf _ _ _ = r
  split
  · exact .wait hs
  · exact raiseDeferred_sound hs

theorem awaitStores_sound {c h det ranges} (hs : s.Sound) : (awaitStores c h det ranges s).Sound := by
  unfold awaitStores
  exact awaitThese_sound hs

theorem placeFor_sound {c h pins cx space k addr n elem} (hs : s.Sound) :
    (placeFor c h pins cx space k addr n elem s).Sound := by
  unfold placeFor
  dsimp only
  split
  · exact .bind (lsPlaceOf_sound hs) fun _ _ hs1 => .ok hs1
  · exact .bind (clsPlaceOf_sound hs) fun _ _ hs1 => .ok hs1
  · exact .bind (translateHeld_sound hs) fun _ _ hs1 => .ok hs1

theorem placeIn_sound {c h v space k addr n elem} (hs : s.Sound) : (placeIn c h v space k addr n elem s).Sound :=
  placeFor_sound hs

theorem atZero_sound {r : Res α} (hr : r.Sound) : (atZero r).Sound := by
  cases hr with
  | ok hs => exact .ok hs
  | wait hs => exact .wait hs
  | exc hs => exact .exc hs
  | contained hs => exact .contained hs
  | stop => exact .stop

theorem spanPlace_sound {c h v space k p} (hs : s.Sound) : (spanPlace c h v space k p s).Sound :=
  .ite (.exc hs) (.bind (atZero_sound (placeIn_sound hs)) fun _ _ hs1 => .ok hs1)

theorem readAt_sound {v c p n} (hs : s.Sound) : (VEntry.readAt v c p n s).Sound :=
  .ite (loadPlace_sound hs) (.bind (.ite (.ok hs) (loadPlace_sound hs)) fun _ _ hs1 => .ok hs1)

theorem readPlaced_sound {c h v ps} (hs : s.Sound) : (readPlaced c h v ps s).Sound :=
  .bind (awaitStores_sound hs) fun _ _ hs1 => mapEach_sound
      (fun _ _ hs2 => .bind (readAt_sound hs2) fun _ _ hs3 => .ok hs3) hs1

theorem countPlaced_sound {c h ps} (hs : s.Sound) : (countPlaced c h ps s).Sound := countPages_sound hs

theorem pinPages_sound {cx k l} (hs : s.Sound) : (pinPages cx k l s).2.Sound := by
  refine foldl_snd_sound (fun _ _ hs1 => snd_ite_sound hs1 ?_) hs
  generalize hr : translate _ _ _ _ _ = r
  cases (hr ▸ translate_sound hs1 : r.Sound) with
  | ok hs3 => exact hs3
  | wait | exc | contained | stop => exact hs1

theorem reserveSlot_sound {c n h} (hs : s.Sound) : (reserveSlot c n h s).Sound := hs

theorem stripPlaces_sound {c h v t base es} (hs : s.Sound) : (stripPlaces c h v t base es s).Sound :=
  mapEach_sound (fun _ _ hs1 => spanPlace_sound hs1) hs

theorem popStrip_sound {c h v t} (hs : s.Sound) : (popStrip c h v t s).Sound := by
  refine .ite ?_ (.bind (stripPlaces_sound hs) fun _ _ hs1 => .bind (readPlaced_sound hs1) fun _ _ hs2 => .ok
      (countPlaced_sound (writeElems_sound hs2)))
  split
  · exact .wait hs
  · exact .ite (.wait hs) (.bind (.bind (stripPlaces_sound hs) fun _ _ hs1 => .bind (readPlaced_sound hs1)
        fun _ _ hs2 => .ok (countPlaced_sound (writeElems_sound hs2))) fun _ _ hs1 => .ok (.ite hs1 hs1))

theorem appendPlaces_sound {c h v t mk} (hs : s.Sound) : (appendPlaces c h v t mk s).Sound := by
  refine .ite ?_ (stripPlaces_sound hs)
  split
  · exact .wait hs
  · split
    · exact stripPlaces_sound hs
    · exact .ite (.wait hs) (stripPlaces_sound hs)

theorem appendStrip_sound {c h v t ps} (hs : s.Sound) : (appendStrip c h v t ps s).Sound := by
  unfold appendStrip
  dsimp only
  split
  · exact enqueue_sound (modHartAt_sound (countPlaced_sound hs))
  · exact enqueue_sound (countPlaced_sound hs)

/-! ### Operations of `Machine/Lanes` -/

theorem intLane_sound {c h v fn anyBits d a b m} (hs : s.Sound) : (intLane c h v fn anyBits d a b m s).Sound :=
  .ite (.exc hs) (elementwise_sound hs)

theorem floatLane_sound {c h v fn code d a b m} (hs : s.Sound) : (floatLane c h v fn code d a b m s).Sound :=
  .ite (.exc hs) (elementwise_sound hs)

theorem convertBlocks_sound {c h v d a g m} (hs : s.Sound) : (convertBlocks c h v d a g m s).Sound :=
  .bind (requirePresent_sound hs) fun _ _ hs1 => applyResults_sound hs1

theorem runVfcvt_sound {c h v d a g m} (hs : s.Sound) : (runVfcvt c h v d a g m s).Sound :=
  .ite (.exc hs) (.ite (.exc hs) (.ite (.exc hs) (.ite (convertBlocks_sound hs)
      (.ite (applyResults_sound hs) (elementwise_sound hs)))))

theorem intWide_sound {c h v d a b m} (hs : s.Sound) : (intWide c h v d a b m s).Sound :=
  .ite (.exc hs) (.ite (.exc hs) (elementwise_sound hs))

theorem runVfwmul_sound {c h v d a b m} (hs : s.Sound) : (runVfwmul c h v d a b m s).Sound := by
  unfold runVfwmul
  split
  · exact .exc hs
  · exact .ite (.exc hs) (elementwise_sound hs)

theorem merge_sound {c h v d a b m} (hs : s.Sound) : (merge c h v d a b m s).Sound :=
  .ite (.exc hs) (applyResults_sound hs)

theorem carry_sound {c h v sub d a b m} (hs : s.Sound) : (carry c h v sub d a b m s).Sound :=
  .ite (.exc hs) (.bind (requirePresent_sound hs) fun _ _ hs1 => .bind (applyResults_sound hs1) fun _ _ hs2 => .ok hs2)

theorem compare_sound {c h v float d a b m cc} (hs : s.Sound) : (compare c h v float d a b m cc s).Sound := by
  unfold compare
  refine .ite (.exc hs) (.bind (requirePresent_sound hs) fun _ t ht => ?_)
  dsimp only
  split
  · exact .ok ht
  · exact .ok ht

/-! ### Operations of `Machine/Permutes` -/

theorem gather_sound {c h v d a b m} (hs : s.Sound) : (gather c h v d a b m s).Sound :=
  .ite (.exc hs) (applyResults_sound hs)

theorem compress_sound {c h v d a m} (hs : s.Sound) : (compress c h v d a m s).Sound :=
  .ite (.exc hs) (applyCopies_sound hs)

theorem expand_sound {c h v d a m} (hs : s.Sound) : (expand c h v d a m s).Sound :=
  .ite (.exc hs) (applyCopies_sound hs)

theorem slide_sound {c h v up fill d a m} (hs : s.Sound) : (slide c h v up fill d a m s).Sound :=
  .ite (.exc hs) (applyResults_sound hs)

theorem reduction_sound {c h v a kind m} (hs : s.Sound) : (reduction c h v a kind m s).Sound :=
  .ite (.exc hs) (.bind (requirePresent_sound hs) fun _ _ hs1 => .ok hs1)

theorem reduce_sound {c h v d a kind m} (hs : s.Sound) : (reduce c h v d a kind m s).Sound :=
  .bind (reduction_sound hs) fun _ _ hs1 => .ite (applyResults_sound hs1) (applyResults_sound hs1)

theorem reduceX_sound {c h v d a kind m} (hs : s.Sound) : (reduceX c h v d a kind m s).Sound :=
  .bind (reduction_sound hs) fun _ _ hs1 => .ok hs1

theorem scan_sound {c h v d a kind m} (hs : s.Sound) : (scan c h v d a kind m s).Sound :=
  .ite (.exc hs) (.bind (requirePresent_sound hs) fun _ _ hs1 => applyResults_sound hs1)

theorem moveToX_sound {c h v d a} (hs : s.Sound) : (moveToX c h v d a s).Sound :=
  .ite (.exc hs) (.ite (.ok hs) (.bind (requirePresent_sound hs) fun _ _ hs1 => .ok hs1))

theorem splat_sound {c h v all d m} (hs : s.Sound) : (splat c h v all d m s).Sound :=
  .ite (.exc hs) (applyResults_sound hs)

theorem runVrand_sound {c h v d m} (hs : s.Sound) : (runVrand c h v d m s).Sound :=
  .ite (.exc hs) (applyResults_sound hs)

theorem runVrel_sound {c h v r} (hs : s.Sound) : (runVrel c h v r s).Sound := by
  unfold runVrel
  generalize VEntry.binds _ = r
  split
  · exact .exc hs
  · exact .ok hs

theorem writeMask_sound {c h v d f} (hs : s.Sound) : (writeMask c h v d f s).Sound := .ok hs

theorem runPres_sound {c h v d a} (hs : s.Sound) : (runPres c h v d a s).Sound :=
  .ite (.exc hs) (.ite (.bind (requirePresent_sound hs) fun _ _ hs1 => writeMask_sound hs) (writeMask_sound hs))

theorem maskToX_sound {c h v d a f} (hs : s.Sound) : (maskToX c h v d a f s).Sound := .ok hs

theorem runVtest_sound {c h v k m cond} (hs : s.Sound) : (runVtest c h v k m cond s).Sound := .ok hs

theorem runVexit_sound {c h v m cond} (hs : s.Sound) : (runVexit c h v m cond s).Sound := .ok (.ite hs hs)

/-! ### Operations of `Machine/VectorMemory` -/

theorem requireIndices_sound {c h v form m} (hs : s.Sound) : (requireIndices c h v form m s).Sound := by
  unfold requireIndices
  split
  · exact requirePresent_sound hs
  · exact .ok hs

theorem readSpans_sound {c h v l f} (hf : ∀ l s, s.Sound → (f l s).Sound) (hs : s.Sound) :
      (readSpans c h v l f s).Sound :=
  .bind (mapEach_sound (fun _ _ hs1 => spanPlace_sound hs1) hs) fun _ _ hs1 =>
    .bind (readPlaced_sound hs1) fun _ _ hs2 => .bind (hf _ _ hs2) fun _ _ hs3 =>
      .ok (.ite (countPlaced_sound hs3) hs3)

theorem vectorLoad_sound {c h v form d m} (hs : s.Sound) : (vectorLoad c h v form d m s).Sound :=
  .ite (.exc hs) (.bind (requireIndices_sound hs) fun _ _ hs1 => .ite
      (readSpans_sound (fun _ _ hs2 => applyResults_sound hs2) hs1)
      (readSpans_sound (fun _ _ hs2 => applyResults_sound hs2) hs1))

theorem joinStores_sound {c h v l ps} (hs : s.Sound) : (joinStores c h v l ps s).Sound := by
  unfold joinStores
  dsimp only
  split
  · exact .ok (enqueue_sound (countPlaced_sound hs))
  · exact .ok (enqueue_sound hs)

theorem vectorStore_sound {c h v form r m} (hs : s.Sound) : (vectorStore c h v form r m s).Sound :=
  .ite (.exc hs) (.bind (requireIndices_sound hs) fun _ _ hs1 => .ite
      (.bind (mapEach_sound (fun _ _ hs2 => spanPlace_sound hs2) hs1) fun _ _ hs2 => joinStores_sound hs2)
      (.bind (mapEach_sound (fun _ _ hs2 => spanPlace_sound hs2) hs1) fun _ _ hs2 => joinStores_sound hs2))

theorem openWindow_sound {c h v op} (hs : s.Sound) : (openWindow c h v op s).Sound :=
  .ite (.exc hs) (.ite (.exc hs) (.ok hs))

theorem updateWindow_sound {c h v a b} (hs : s.Sound) : (updateWindow c h v a b s).Sound := by
  unfold updateWindow
  split
  · exact .exc hs
  · exact .ite (.exc hs) (.bind (requirePresent_sound hs) fun _ _ hs1 => .ite (.exc hs1) (.ok hs1))

theorem releaseStores_sound {c h reason} (hs : s.Sound) : (releaseStores c h reason s).Sound :=
  .ite (.ok (drain_sound hs)) (.wait (drain_sound hs))

theorem closeWindow_sound {c h v} (hs : s.Sound) : (closeWindow c h v s).Sound := by
  unfold closeWindow
  split
  · exact .exc hs
  · exact .bind (releaseStores_sound hs) fun _ _ hs1 => .bind (mapEach_sound (fun _ _ hs2 => spanPlace_sound hs2) hs1)
        fun _ _ hs2 => .bind (mapEach_sound (fun _ _ hs3 => .bind (loadPlace_sound hs3) fun _ _ hs4 => .ok hs4) hs2)
        fun _ _ hs3 => .ok (modHartAt_sound (countPlaced_sound (commit_sound hs3)))

/-! ### Operations of `Machine/Tiles` -/

theorem claimCheck_sound {v tiles accs} (hs : s.Sound) : (claimCheck v tiles accs s).Sound := by
  unfold claimCheck
  split
  · exact .exc hs
  · split
    · exact .exc hs
    · exact .ok hs

theorem rowPlaces_sound {c h v k stride rows bytes sc} (hs : s.Sound) :
    (rowPlaces c h v k stride rows bytes sc s).Sound :=
  mapEach_sound (fun _ _ hs1 => .bind (atZero_sound (placeIn_sound hs1)) fun _ _ hs2 => .ite
      (.bind (atZero_sound (placeIn_sound hs2)) fun _ _ hs3 => .ok hs3) (.ok hs2)) hs

theorem moveChecked_sound {c h v tile plane k} (hs : s.Sound) : (moveChecked c h v tile plane k s).Sound := by
  refine .bind (claimCheck_sound hs) fun _ _ hs1 => ?_
  split
  · exact .exc hs1
  · exact .ite (.exc hs1) (.ite (.exc hs1) (.bind (rowPlaces_sound hs1) fun _ _ hs2 => .ok hs2))

theorem readRows_sound {c h v bytes ps} (hs : s.Sound) : (readRows c h v bytes ps s).Sound := by
  refine .bind (awaitStores_sound hs) fun _ _ hs1 => mapEach_sound
      (fun _ _ hs2 => .bind (readAt_sound hs2) fun _ _ hs3 => ?_) hs1
  split
  · exact .ok hs3
  · exact .bind (readAt_sound hs3) fun _ _ hs4 => .ok hs4

theorem runTld_sound {c h v td} (hs : s.Sound) : (runTld c h v td s).Sound :=
  .bind (moveChecked_sound hs) fun _ _ hs1 => .bind (readRows_sound hs1) fun _ _ hs2 => .ok hs2

theorem runTldp_sound {c h v td} (hs : s.Sound) : (runTldp c h v td s).Sound :=
  .bind (moveChecked_sound hs) fun _ _ hs1 => .bind (readRows_sound hs1) fun _ _ hs2 => .ok hs2

theorem runTst_sound {c h v ta} (hs : s.Sound) : (runTst c h v ta s).Sound :=
  .bind (moveChecked_sound hs) fun _ _ hs1 => .ok (enqueue_sound hs1)

theorem runTzero_sound {c h v td} (hs : s.Sound) : (runTzero c h v td s).Sound :=
  .bind (claimCheck_sound hs) fun _ _ hs1 => .ok hs1

theorem runAzero_sound {c h v ad} (hs : s.Sound) : (runAzero c h v ad s).Sound :=
  .bind (claimCheck_sound hs) fun _ _ hs1 => .ok hs1

theorem runTmvr_sound {c h v td r} (hs : s.Sound) : (runTmvr c h v td r s).Sound :=
  .ite (.exc hs) (.bind (claimCheck_sound hs) fun _ _ hs1 => .ite (.exc hs1)
      (.bind (requirePresent_sound hs1) fun _ _ hs2 => .ok hs2))

theorem runTmvc_sound {c h v ta d} (hs : s.Sound) : (runTmvc c h v ta d s).Sound := by
  refine .ite (.exc hs) (.bind (claimCheck_sound hs) fun _ _ hs1 => .ite (.exc hs1) ?_)
  dsimp only
  generalize hr : applyResults _ _ _ _ _ _ _ _ _ = r
  cases (hr ▸ applyResults_sound hs1 : r.Sound) with
  | ok hs3 =>
    split
    · exact stuckExc_sound hs1 (.wait hs1)
    · exact .ok hs3
  | wait hs3 => exact .wait hs3
  | exc hs3 => exact .exc hs3
  | contained hs3 => exact .contained hs3
  | stop => exact .stop

theorem product_sound {c v acc fa fb member rowA rows} (hs : s.Sound) :
    (product c v acc fa fb member rowA rows s).Sound := by
  refine .ite (.ok hs) ?_
  split
  · exact .exc hs
  · exact .ok hs

theorem productChecks_sound {c h v tiles ad fa fb} (hs : s.Sound) : (productChecks c h v tiles ad fa fb s).Sound :=
  .ite (.exc hs) (.bind (claimCheck_sound hs) fun _ _ hs1 => .ite (.exc hs1) (.ok hs1))

theorem runMma_sound {c h v ta tb ad fa fb} (hs : s.Sound) : (runMma c h v ta tb ad fa fb s).Sound :=
  .bind (productChecks_sound hs) fun _ _ hs1 => product_sound hs1

theorem runMmaC_sound {c h v ta tb ad fa fb} (hs : s.Sound) : (runMmaC c h v ta tb ad fa fb s).Sound := by
  unfold runMmaC
  extract_lets x crew
  split
  · exact .exc hs
  · extract_lets tiles i columns
    refine .bind (productChecks_sound hs) fun _ _ hs1 => ?_
    extract_lets others todo
    split
    · exact .exc hs1
    · refine .ite (.wait hs1) ?_
      split
      · exact .wait hs1
      · split
        · exact .exc hs1
        · extract_lets lc ready k
          exact .ite (.wait hs1) (.bind (product_sound hs1) fun _ _ hs2 => .ok (modGroup_sound hs2))

theorem runMman_sound {c h v ta tb ad pa pb} (hs : s.Sound) : (runMman c h v ta tb ad pa pb s).Sound :=
  .ite (.exc hs) (.bind (claimCheck_sound hs) fun _ _ hs1 => .ite (.exc hs1) (.ok hs1))

theorem runMdrain_sound {c h v td ad fmt} (hs : s.Sound) : (runMdrain c h v td ad fmt s).Sound :=
  .ite (.exc hs) (.bind (claimCheck_sound hs) fun _ _ hs1 => .ok hs1)

/-! ### Operations of `Machine/Front` -/

theorem noFerry_sound {i} (hs : s.Sound) : (noFerry i s).Sound := check_sound hs

theorem needsS_sound {i} (hs : s.Sound) : (needsS i s).Sound := check_sound hs

theorem waitVector_sound {reason} (hs : s.Sound) : (waitVector reason s).Sound := .ite (.ok hs) (.wait hs)

theorem awaitHeld_sound {reason p} (hs : s.Sound) : (awaitHeld reason p s).Sound := .ite (.wait hs) (.ok hs)

theorem outsideBatch_sound (hs : s.Sound) : (outsideBatch s).Sound := check_sound hs

theorem noWindow_sound (hs : s.Sound) : (noWindow s).Sound := check_sound hs

theorem settleHere_sound (hs : s.Sound) : (settleHere s).Sound := settleAll_sound hs

theorem releaseHere_sound {reason} (hs : s.Sound) : (releaseHere reason s).Sound :=
  .ite (.ok (drain_sound hs)) (.wait (drain_sound hs))

theorem awaitAcquire_sound (hs : s.Sound) : (awaitAcquire s).Sound := .ite (.wait hs) (.ok hs)

theorem dropHead_sound {c h} (hs : s.Sound) : (dropHead c h s).Sound := hs

theorem followVector_sound {reason p} (hs : s.Sound) : (followVector reason p s).Sound := .ite (.wait hs) (.ok hs)

theorem readAhead_sound {p n} (hs : s.Sound) : (readAhead p n s).Sound := .ite hs hs

theorem awaitVector_sound {det p n} (hs : s.Sound) : (awaitVector det p n s).Sound :=
  .ite (.ok hs) (.bind (.ite (followVector_sound hs) (.ok hs)) fun _ _ hs1 => .ite (.wait hs1)
      (.ite (.wait hs1) (.ite (.ok (readAhead_sound hs1))
      (.bind (awaitThese_sound hs1) fun _ _ hs2 => .ite (.wait hs2) (.ok (readAhead_sound hs2))))))

theorem awaitHere_sound {p n} (hs : s.Sound) : (awaitHere p n s).Sound :=
  .bind (awaitThese_sound hs) fun _ _ hs1 => awaitVector_sound hs1

theorem lsHere_sound {off n write} (hs : s.Sound) : (lsHere off n write s).Sound := lsPlaceOf_sound hs

theorem retireHere_sound {n} (hs : s.Sound) : (retireHere n s).Sound := hs

/-! ### Operations of `Machine/Recursion` -/

theorem pontoonWrite_sound {c h off n w} (hs : s.Sound) : (pontoonWrite c h off n w s).Sound := enqueue_sound hs

theorem modRec_sound {c h f} (hs : s.Sound) : (modRec c h f s).Sound := hs

theorem startBatch_sound {c h rout level cells active p} (hs : s.Sound) :
      (startBatch c h rout level cells active p s).Sound := hs

theorem stopRecursion_sound {c h p e} (hs : s.Sound) : (stopRecursion c h p e s).Sound := takeTrap_sound hs

theorem advance_sound {c h p n} (hs : s.Sound) : (advance c h p s n).Sound := by
  induction n generalizing p s with
  | zero => exact hs
  | succ n ih =>
    unfold advance
    dsimp only
    split
    · exact startBatch_sound hs
    · exact ih hs
    · exact .ite (ih (modRec_sound hs)) (.ite (ih hs) (.ite (stopRecursion_sound hs) (ih (modRec_sound hs))))
    · split
      · exact ih (modRec_sound hs)
      · exact startBatch_sound hs
    · exact hs
    · exact hs

theorem inRoutine_sound {c h v routs limit} (hs : s.Sound) : (inRoutine c h v routs limit s).Sound := by
  unfold inRoutine
  dsimp only
  split
  · exact .exc hs
  · refine .ite (.exc hs) ?_
    split
    · exact .ok hs
    · exact .ite (.exc hs) (.ok hs)

theorem wordPlaces_sound {c h v k l} (hs : s.Sound) : (wordPlaces c h v k l s).Sound :=
  mapEach_sound (fun _ _ hs1 => spanPlace_sound hs1) hs

theorem readWords_sound {c h v d l zeros} (hs : s.Sound) : (readWords c h v d l zeros s).Sound :=
  .bind (wordPlaces_sound hs) fun _ _ hs1 => .bind (readPlaced_sound hs1) fun _ _ hs2 => applyRow_sound hs2

theorem storeWords_sound {c h v r l} (hs : s.Sound) : (storeWords c h v r l s).Sound :=
  .bind (wordPlaces_sound hs) fun _ _ hs1 => joinStores_sound hs1

theorem runRfld_sound {c h v d} (hs : s.Sound) : (runRfld c h v d s).Sound :=
  .bind (inRoutine_sound hs) fun _ _ hs1 => readWords_sound hs1

theorem runRput_sound {c h v r i} (hs : s.Sound) : (runRput c h v r i s).Sound :=
  .bind (inRoutine_sound hs) fun _ _ hs1 => storeWords_sound hs1

theorem runRres_sound {c h v r} (hs : s.Sound) : (runRres c h v r s).Sound :=
  .bind (inRoutine_sound hs) fun _ _ hs1 => storeWords_sound hs1

theorem runRkid_sound {c h v d i} (hs : s.Sound) : (runRkid c h v d i s).Sound :=
  .bind (inRoutine_sound hs) fun _ _ hs1 => readWords_sound hs1

theorem allocate_sound {c h cell base n p} (hs : s.Sound) : (allocate c h cell base n p s).2.Sound :=
  modRec_sound (.ite hs (pontoonWrite_sound hs))

theorem runRspawn_sound {c h v r} (hs : s.Sound) : (runRspawn c h v r s).Sound := by
  refine .bind (inRoutine_sound hs) fun p _ hs => .ite (.exc hs) (.bind (requirePresent_sound hs) fun _ t ht => ?_)
  dsimp only
  split
  · exact .exc ht
  · split
    · split
      · exact .ok ht
      · exact .ok (foldl_snd_sound (fun _ _ hp => allocate_sound hp) ht)
    · exact .ite (.ok ht) (.ok (foldl_snd_sound (fun _ _ hp => by dsimp only; exact allocate_sound hp) ht))

theorem runRdone_sound {c h v} (hs : s.Sound) : (runRdone c h v s).Sound := by
  refine .bind (inRoutine_sound hs) fun _ _ hs1 => ?_
  dsimp only
  split
  · exact .ok (stopRecursion_sound hs1)
  · exact .ok (advance_sound (dropHead_sound (foldl_sound (fun _ _ hs2 => pontoonWrite_sound hs2) hs1)))

theorem defineObject_sound {off} (hs : s.Sound) : (defineObject off s).Sound := by
  refine .bind (outsideBatch_sound hs) fun _ _ hs1 => .ite (.exc hs1)
      (.ite (.exc hs1) (.bind (lsHere_sound hs1) fun _ _ hs2 => .bind (awaitHere_sound hs2) fun _ _ hs3 =>
      .bind (loadPlace_sound hs3) fun _ _ hs4 => ?_))
  split
  split
  · exact .exc hs4
  · exact .ite (.exc hs4) (.ite (.exc hs4) (.ok hs4))

theorem claimPontoon_sound (hs : s.Sound) : (claimPontoon s).Sound := by
  unfold claimPontoon
  split
  · exact .ok hs
  · exact .ite (.ok hs) (.wait hs)

theorem endRecursion_sound {p} (hs : s.Sound) : (endRecursion p s).Sound :=
  .bind (settleHere_sound hs) fun _ _ hs1 => .ok hs1

theorem resumeRecursion_sound {p} (hs : s.Sound) : (resumeRecursion p s).Sound :=
  .bind (claimPontoon_sound hs) fun _ _ hs1 => .ite (.ok (stopRecursion_sound hs1)) (.ok (advance_sound hs1))

theorem startRecursion_sound {o off} (hs : s.Sound) : (startRecursion o off s).Sound :=
  .bind (lsHere_sound hs) fun _ _ hs1 => .bind (awaitHere_sound hs1) fun _ _ hs2 => .bind (loadPlace_sound hs2)
      fun _ _ hs3 => .bind (claimPontoon_sound hs3) fun _ _ hs4 => .ok (advance_sound (pontoonWrite_sound hs4))

theorem runRecursion_sound {resume off} (hs : s.Sound) : (runRecursion resume off s).Sound := by
  refine .bind (outsideBatch_sound hs) fun _ _ hs1 => .bind (waitVector_sound hs1) fun _ _ hs2 => ?_
  dsimp only
  split
  · exact resumeRecursion_sound hs2
  · exact .ite (endRecursion_sound hs2) (.exc hs2)
  · refine .ite (.exc hs2) ?_
    split
    · exact .exc hs2
    · exact .ite (.exc hs2) (.ite (.exc hs2) (startRecursion_sound hs2))

/-! ### Operations of `Machine/Observe` -/

theorem addRecord_sound {c pc reason type w1 w2 w3} (hs : s.Sound) : (addRecord c pc reason type w1 w2 w3 s).Sound :=
  .ite hs (modCore_sound (performCells_sound hs))

theorem spillRecord_sound {c e} (hs : s.Sound) : (spillRecord c e s).Sound := addRecord_sound hs

theorem spillTable_sound {c} (hs : s.Sound) : (spillTable c s).Sound :=
  modCore_sound (foldl_sound (fun _ _ hs1 => spillRecord_sound hs1) hs)

theorem sampleVector_sound {c h v before} (hs : before.Sound) (hs1 : s.Sound) :
    (sampleVector c h v before s).Sound := by
  unfold sampleVector
  split
  · exact hs1
  · exact .ite hs1 (addRecord_sound (modCore_sound
        (freshWord_sound (freshWord_sound (freshWord_sound hs1)))))

theorem debugStop_sound {c h} (hs : s.Sound) : (debugStop c h s).Sound := modHartAt_sound (roundStop_sound hs)

theorem breakHere_sound {c h commit} (hs : s.Sound) : (breakHere c h commit s).Sound :=
  .ite (debugStop_sound hs) (takeTrap_sound hs)

/-! ### Operations of `Machine/VecRun` -/

theorem runSettle_sound {c h v a b n} (hs : s.Sound) : (runSettle c h v a b n s).Sound :=
  .bind (.ite (settleAll_sound hs) (settleEntries_sound hs)) fun _ _ hs1 => .ok hs1

theorem vexec_sound {c h v} (hs : s.Sound) : (vexec c h v s).Sound := by
  unfold vexec
  generalize v.instr = i
  cases i with
  | vadd | vaddX | vsub | vsubX | vrsub | vrsubX | vmul | vmulX | vmulh | vmulhX | vmulhn | vmulhnX | vand | vandX |
    vor | vorX | vxor | vxorX | vshl | vshlX | vshr | vshrX | vshra | vshraX | vmin | vminX | vmax | vmaxX | vminn |
    vminnX | vmaxn | vmaxnX => exact intLane_sound hs
  | vfadd | vfaddX | vfsub | vfsubX | vfmul | vfmulX | vfma | vfmaX | vfmin | vfminX | vfmax | vfmaxX | vfdiv | vfdivX
    | vfrcp | vfrsq | vfsqrt | vfexp | vflog | vfsin | vfcos => exact floatLane_sound hs
  | vmerge | vmergeX => exact merge_sound hs
  | vadc | vadcX | vsbc | vsbcX => exact carry_sound hs
  | vwmul | vwmulX => exact intWide_sound hs
  | vfcvt => exact runVfcvt_sound hs
  | vfwmul => exact runVfwmul_sound hs
  | vcmp | vcmpX | vfcmp | vfcmpX => exact compare_sound hs
  | mand | mor | mxor | mnot | mshl | mset | mclr => exact writeMask_sound hs
  | mpop | mfirst | mlast => exact maskToX_sound hs
  | vgath => exact gather_sound hs
  | vcomp => exact compress_sound hs
  | vxpnd => exact expand_sound hs
  | vred => exact reduce_sound hs
  | vredXd => exact reduceX_sound hs
  | vscan => exact scan_sound hs
  | vslideupZero | vslideupOne | vslideupKeep | vslidednZero | vslidednOne | vslidednKeep => exact slide_sound hs
  | vmvx => exact moveToX_sound hs
  | vmvs | vsplat => exact splat_sound hs
  | vld | vlds | vldx => exact vectorLoad_sound hs
  | vst | vsts | vstx => exact vectorStore_sound hs
  | awin => exact openWindow_sound hs
  | vamo => exact updateWindow_sound hs
  | amerge => exact closeWindow_sound hs
  | vrand => exact runVrand_sound hs
  | pres => exact runPres_sound hs
  | vrel => exact runVrel_sound hs
  | settle => exact runSettle_sound hs
  | vtest => exact runVtest_sound hs
  | vexit => exact runVexit_sound hs
  | rfld => exact runRfld_sound hs
  | rput => exact runRput_sound hs
  | rspawn => exact runRspawn_sound hs
  | rres => exact runRres_sound hs
  | rkid => exact runRkid_sound hs
  | rdone => exact runRdone_sound hs
  | tld => exact runTld_sound hs
  | tst => exact runTst_sound hs
  | tldp => exact runTldp_sound hs
  | tzero => exact runTzero_sound hs
  | tmvr => exact runTmvr_sound hs
  | tmvc => exact runTmvc_sound hs
  | mma => exact runMma_sound hs
  | mmaC => exact runMmaC_sound hs
  | mman => exact runMman_sound hs
  | mdrain => exact runMdrain_sound hs
  | azero => exact runAzero_sound hs
  | _ => exact .ok hs

theorem undone_sound {c h before after} (hs : before.Sound) (hs1 : after.Sound) : (undone c h before after).Sound :=
  hs

theorem viewOld_sound {c h v o} (hs : s.Sound) : (viewOld c h v o s).Sound := hs

theorem restoreNew_sound {c h v o before} (hs : before.Sound) (hs1 : s.Sound) : (restoreNew c h v o before s).Sound :=
  hs1

theorem vexecFrom_sound {c h v} (hs : s.Sound) : (vexecFrom c h v s).Sound := by
  unfold vexecFrom
  split
  · exact vexec_sound hs
  · rename_i o _
    have hr : (vexec c h v (viewOld c h v o s)).Sound := vexec_sound (viewOld_sound hs)
    generalize vexec c h v (viewOld c h v o s) = r at hr
    cases hr with
    | @ok a t ht => cases a with
      | done f => exact .ok (restoreNew_sound hs ht)
      | part w n =>
        have hp : (Res.ok (VOut.part w n) (restoreNew c h v o s t)).Sound := .ok (restoreNew_sound hs ht)
        dsimp only
        split
        · exact stuckExc_sound hs hp
        · exact hp
    | wait ht => exact .wait ht
    | exc ht => exact .exc (restoreNew_sound hs ht)
    | contained ht => exact .contained ht
    | stop => exact .stop

theorem ownFaults_sound {c h v limit} (hs : s.Sound) : (ownFaults c h v limit s).Sound := by
  unfold ownFaults
  split
  · exact .ok hs
  · exact .bind (forEach_sound (fun _ _ hs1 => popStrip_sound hs1) hs) fun _ _ hs1 => .bind (requireIndices_sound hs1)
        fun _ _ hs2 => .ok hs2

theorem accessFault_sound {c h v} (hs : s.Sound) : (accessFault c h v s).Sound := by
  unfold accessFault
  dsimp only
  generalize hr : ownFaults _ _ _ _ _ = r
  cases (hr ▸ ownFaults_sound hs : r.Sound) with
  | ok | exc | contained | stop =>
    dsimp only
    split
    · exact .exc hs
    · exact .ok hs
  | wait => exact .wait hs

theorem withStrips_sound {c h v} (hs : s.Sound) : (withStrips c h v s).Sound := by
  unfold withStrips
  split
  · exact .exc hs
  · exact .bind (.ite (.ok hs) (accessFault_sound hs)) fun _ _ hs1 => .bind
        (.ite (.ok hs1) (forEach_sound (fun _ _ hs2 => popStrip_sound hs2) hs1)) fun _ _ hs2 => .bind
        (mapEach_sound (fun _ _ hs3 => .bind (appendPlaces_sound hs3) fun _ _ hs4 => .ok hs4) hs2) fun _ _ hs3 =>
        .bind (vexecFrom_sound hs3) fun _ _ hs4 => .ok
        (.ite (foldl_sound (fun _ _ hs5 => appendStrip_sound hs5) hs4) hs4)

theorem takeRow_sound {c h v} (hs : s.Sound) : (takeRow c h v s).Sound := .ite (.ok hs) (stuckExc_sound hs (.wait hs))

theorem awaitCrew_sound {c h v} (hs : s.Sound) : (awaitCrew c h v s).Sound := by
  unfold awaitCrew
  split
  · exact .ite (.wait hs) (.ok hs)
  · exact .ok hs

theorem attempt_sound {c h v} (hs : s.Sound) : (attempt c h v s).Sound := by
  unfold attempt
  generalize hr : (awaitCrew c h v s).bind _ = r
  have hr' : r.Sound := hr ▸ .bind (awaitCrew_sound hs) fun _ _ hs => .bind (takeRow_sound hs) fun _ _ hs =>
    .ite (vexecFrom_sound hs) (withStrips_sound hs)
  clear hr
  cases hr' with
  | exc ht =>
    refine .ite (.exc (undone_sound ?_ ht)) (.ite (.exc (undone_sound hs ht)) (.exc ht))
    split
    · exact viewOld_sound hs
    · exact hs
  | wait => exact .wait hs
  | ok ht => exact .ok ht
  | contained ht => exact .contained ht
  | stop => exact .stop

theorem pinAccesses_sound {c v l} (hs : s.Sound) : (pinAccesses c v l s).2.Sound := pinPages_sound (pinPages_sound hs)

theorem setHead_sound {c h v} (hs : s.Sound) : (setHead c h v s).Sound := hs

theorem tagEntry_sound {c v} (hs : s.Sound) : (tagEntry c v s).2.Sound := hs

theorem trapVector_sound {c h e} (hs : s.Sound) : (trapVector c h e s).Sound := takeTrap_sound hs

theorem stepEntry_sound {c h limit v} (hs : s.Sound) : SoundOut (stepEntry c h limit v s) := by
  unfold stepEntry
  generalize hp : (if v.seq.isSome then _ else _) = p
  have ht : p.2.Sound := hp ▸ snd_ite_sound hs (setHead_sound (tagEntry_sound hs))
  obtain ⟨w, t⟩ := p
  dsimp only at ht ⊢
  generalize hr : attempt c h _ t = r
  have hr' : r.Sound := hr ▸ attempt_sound ht
  clear hr
  cases hr' with
  | @ok a u hu => cases a with
    | done f => exact .next (sweep_sound (sampleVector_sound ht (drain_sound hu)))
    | part => exact .next (sweep_sound hu)
  | wait hu => exact .next hu
  | exc hu => exact .next (trapVector_sound (setHead_sound hu))
  | contained hu => exact .next (contain_sound hu)
  | stop => exact .fault

theorem setBody_sound {c h pos v} (hs : s.Sound) : (setBody c h pos v s).Sound := hs

theorem nextInBody_sound {c h v} (hs : s.Sound) : (nextInBody c h v s).Sound := by
  unfold nextInBody
  dsimp only
  split
  · exact hs
  · exact .ite hs (.ite hs hs)

theorem stepLoop_sound {c h limit} (hs : s.Sound) : SoundOut (stepLoop c h limit s) := by
  unfold stepLoop
  dsimp only
  split
  · exact .next hs
  rename_i l _
  refine .ite (.next hs) ?_
  split
  · exact .next hs
  rename_i b _
  split
  · exact .next (nextInBody_sound hs)
  generalize hp : (if b.seq.isSome then _ else _) = p
  have ht : p.2.Sound := hp ▸ snd_ite_sound hs (setBody_sound (pinAccesses_sound (tagEntry_sound (c := c) (v := b) hs)))
  clear hp
  obtain ⟨w, t⟩ := p
  dsimp only at ht ⊢
  generalize hr : attempt c h _ t = r
  have hr' : r.Sound := hr ▸ attempt_sound ht
  clear hr
  cases hr' with
  | @ok a u hu => cases a with
    | done f => exact .next (sweep_sound (drain_sound (nextInBody_sound (sampleVector_sound ht hu))))
    | part => exact .next (sweep_sound hu)
  | wait hu => exact .next hu
  | exc hu => exact .next (trapVector_sound (setBody_sound hu))
  | contained hu => exact .next (contain_sound hu)
  | stop => exact .fault

theorem stepVectorTo_sound {c h limit} (hs : s.Sound) : SoundOut (stepVectorTo c h limit s) := by
  unfold stepVectorTo
  dsimp only
  generalize VecState.viq _ = r
  split
  · exact .next hs
  · refine .ite (.next (breakHere_sound hs)) ?_
    split
    · exact stepLoop_sound hs
    · exact stepEntry_sound hs

theorem stepVector_sound {c h} (hs : s.Sound) : SoundOut (stepVector c h s) := stepVectorTo_sound hs

theorem awaitRegs_sound {xs ks} (hs : s.Sound) : (awaitRegs xs ks s).Sound :=
  .ite (.wait hs) (.ite (.wait hs) (.ok hs))

theorem pinAtDispatch_sound {x v} (hs : s.Sound) : (pinAtDispatch x v s).2.Sound := pinAccesses_sound hs

theorem pinBody_sound {l} (hs : s.Sound) : (pinBody l s).2.Sound :=
  foldl_snd_sound (fun _ _ hs1 => pinAtDispatch_sound hs1) hs

theorem noteCrew_sound {i} (hs : s.Sound) : (noteCrew i s).Sound := by
  unfold noteCrew
  split
  · exact modGroup_sound hs
  · exact hs

theorem dispatchVector_sound {i} (hs : s.Sound) : (dispatchVector i s).Sound :=
  .bind (noFerry_sound hs) fun _ _ hs1 => .bind (awaitRegs_sound hs1) fun _ _ hs2 => .ite (.wait hs2)
      (.ite (.wait hs2) (.ok (noteCrew_sound (setHart_sound (pinAtDispatch_sound hs2)))))

theorem issueVector_sound {i} (hs : s.Sound) : SoundOut (issueVector i s) := by
  unfold issueVector
  generalize hr : dispatchVector _ _ = r
  cases (hr ▸ dispatchVector_sound hs : r.Sound) with
  | ok hs2 => exact .ite (.next hs2) (stepVector_sound hs2)
  | wait hs2 => exact finish_sound (.wait hs2)
  | exc hs2 => exact finish_sound (.exc hs2)
  | contained hs2 => exact finish_sound (.contained hs2)
  | stop => exact finish_sound .stop

/-! ### Operations of `Machine/Integer` -/

theorem scalarOp_sound {n d srcs f} (hs : s.Sound) : SoundOut (scalarOp n d srcs f s) :=
  finish_sound (.bind (awaitRegs_sound hs) fun _ _ hs1 => .ok hs1)

theorem scalarOp2_sound {d a b f} (hs : s.Sound) : SoundOut (scalarOp2 d a b f s) := scalarOp_sound hs

theorem scalarOp1_sound {d a f} (hs : s.Sound) : SoundOut (scalarOp1 d a f s) := scalarOp_sound hs

/-! ### Operations of `Machine/Float` -/

theorem fpRetire_sound {d w f bad consumes} (hs : s.Sound) : (fpRetire d w f bad consumes s).Sound :=
  .ite (.exc hs) (.ok hs)

theorem fpScalar_sound {fn ty d a b} (hs : s.Sound) : SoundOut (fpScalar fn ty d a b s) :=
  finish_sound (.bind (awaitRegs_sound hs) fun _ _ hs1 => fpRetire_sound hs1)

theorem fpConvert_sound {bank d a code} (hs : s.Sound) : SoundOut (fpConvert bank d a code s) :=
  finish_sound (.bind (awaitRegs_sound hs) fun _ _ hs1 => fpRetire_sound hs1)

theorem fpCompare_sound {ty k a b cc} (hs : s.Sound) : SoundOut (fpCompare ty k a b cc s) :=
  finish_sound (.bind (awaitRegs_sound hs) fun _ _ hs1 => .ite (.exc hs1) (.ok hs1))

/-! ### Operations of `Machine/Transfer` -/

theorem kOp_sound {k xs ks f} (hs : s.Sound) : SoundOut (kOp k xs ks f s) :=
  finish_sound (.bind (awaitRegs_sound hs) fun _ _ hs1 => .ok hs1)

theorem prepare_sound {n bt off} (hs : s.Sound) : SoundOut (prepare n bt off s) := .next hs

theorem prepared_sound {bt} (hs : s.Sound) : (prepared bt s).Sound := check_sound hs

theorem transfer_sound {n bt call} (hs : s.Sound) : (transfer n bt call s).Sound :=
  .ite (.ok hs) (.ite (.wait hs) (.wait hs))

theorem jump_sound {n bt} (hs : s.Sound) : SoundOut (jump n bt s) :=
  finish_sound (.bind (prepared_sound hs) fun _ _ hs1 => transfer_sound hs1)

theorem branch_sound {n bt k neg} (hs : s.Sound) : SoundOut (branch n bt k neg s) :=
  finish_sound (.bind (prepared_sound hs) fun _ _ hs1 => .bind (awaitRegs_sound hs1) fun _ _ hs2 => .ite
      (transfer_sound hs2) (.ok hs2))

/-! ### Operations of `Machine/Memory` -/

theorem aligned_sound {addr n} (hs : s.Sound) : (aligned addr n s).Sound := check_sound hs

theorem gvHere_sound {k addr} (hs : s.Sound) : (gvHere k addr s).Sound := translate_sound hs

theorem countHere_sound {e} (hs : s.Sound) : (countHere e s).Sound := countHeat_sound hs

theorem constLine_sound {l} (hs : s.Sound) : (constLine l s).Sound := by
  unfold constLine
  split
  · exact .ok hs
  · exact .bind (loadPlace_sound hs) fun _ _ hs1 => .ite (.ok hs1) (.ok (modCore_sound (cacheLine_sound hs1)))

theorem loadGv_sound {const d z addr} (hs : s.Sound) : (loadGv const d z addr s).Sound :=
  .bind (aligned_sound hs) fun _ _ hs1 => .bind (gvHere_sound hs1) fun _ _ hs2 => .bind (awaitHere_sound hs2)
      fun _ _ hs3 => .bind (.ite (.bind (constLine_sound hs3) fun _ _ hs4 => .ok hs4) (loadPlace_sound hs3))
      fun _ _ hs4 => .ok (writeX_sound (countHere_sound hs4))

theorem loadLs_sound {len d z addr} (hs : s.Sound) : (loadLs len d z addr s).Sound :=
  .bind (aligned_sound hs) fun _ _ hs1 => .bind (lsHere_sound hs1) fun _ _ hs2 => .bind (awaitHere_sound hs2)
      fun _ _ hs3 => .bind (loadPlace_sound hs3) fun _ _ hs4 => .ok hs4

theorem storeRoom_sound (hs : s.Sound) : (storeRoom s).Sound := by
  unfold storeRoom
  extract_lets q i
  refine .ite (.ok hs) ?_
  generalize rootsOf _ _ _ = r
  split
  · exact .wait hs
  · exact raiseDeferred_sound hs

theorem queueStore_sound {len p n w gv} (hs : s.Sound) : (queueStore len p n w gv s).Sound :=
  .bind (storeRoom_sound hs) fun _ _ hs1 => .ok (retireHere_sound (enqueueFront_sound hs1))

theorem storeGv_sound {w z addr} (hs : s.Sound) : (storeGv w z addr s).Sound :=
  .bind (aligned_sound hs) fun _ _ hs1 => .bind (gvHere_sound hs1) fun _ _ hs2 => .bind (queueStore_sound hs2)
      fun _ _ hs3 => .ok (countHere_sound hs3)

theorem storeLs_sound {len w z addr} (hs : s.Sound) : (storeLs len w z addr s).Sound :=
  .bind (aligned_sound hs) fun _ _ hs1 => .bind (lsHere_sound hs1) fun _ _ hs2 => queueStore_sound hs2

theorem atomic_sound {op d a b o} (hs : s.Sound) : SoundOut (atomic op d a b o s) :=
  finish_sound (.bind (awaitRegs_sound hs) fun _ _ hs1 => .bind (aligned_sound hs1) fun _ _ hs2 => .bind
      (gvHere_sound hs2) fun _ _ hs3 => .bind (.ite (awaitHeld_sound hs3) (.ok hs3)) fun _ _ hs4 => .ite
      (.bind (loadPlace_sound (drain_sound hs4)) fun _ _ hs5 => .ok
      (retireHere_sound (countHere_sound (commitAtomic_sound hs5))))
      (.ok (retireHere_sound (countHere_sound (enqueueFront_sound (drain_sound hs4))))))

/-! ### Operations of `Machine/Control` -/

theorem endInvalidate_sound {q} (hs : s.Sound) : (endInvalidate q s).Sound := .ite (.wait hs) (.ok hs)

theorem tlbInvalidate_sound {kind asid va} (hs : s.Sound) : (tlbInvalidate kind asid va s).Sound := by
  unfold tlbInvalidate
  split
  · exact endInvalidate_sound hs
  · exact .bind (waitVector_sound hs) fun _ _ hs1 => .bind (settleHere_sound hs1) fun _ _ hs2 => endInvalidate_sound hs2

theorem writeCtl_sound {c rw w1c} (hs : s.Sound) : (writeCtl c rw w1c s).Sound := by
  unfold writeCtl
  split
  · exact .ite (.exc hs) (.ok hs)
  · exact .ite (.exc hs) (.ok hs)
  · exact .ite (.ok hs) (.bind (waitVector_sound hs) fun _ _ hs1 => .bind (releaseHere_sound hs1)
        fun _ _ hs2 => .bind (awaitHeld_sound hs2) fun _ _ hs3 => .ok hs3)
  · exact .ok (.ite hs hs)
  · exact .ok hs
  · exact .ok hs
  · exact .ok (.ite hs hs)
  · exact .ok (setBank_sound hs)
  · exact .ok (setBank_sound hs)
  · exact .ok hs

theorem ctlWait_sound {c sync} (hs : s.Sound) : (ctlWait c sync s).Sound :=
  .ite (.ite (.wait hs) (.ok hs)) (.ite (.ite (.wait hs) (.ok hs)) (.ite (.ite (.wait hs) (.ok hs)) (.ok hs)))

theorem ctlReady_sound {i c sync} (hs : s.Sound) : (ctlReady i c sync s).Sound :=
  .bind (.ite (needsS_sound hs) (.ok hs)) fun _ _ hs1 => ctlWait_sound hs1

theorem readControl_sound {i d c sync} (hs : s.Sound) : SoundOut (readControl i d c sync s) :=
  finish_sound (.bind (ctlReady_sound hs) fun _ _ hs1 => .bind (awaitRegs_sound hs1) fun _ _ hs2 => .ok hs2)

theorem writeControl_sound {i xs c f} (hs : s.Sound) : SoundOut (writeControl i xs c f s) :=
  finish_sound (.bind (ctlReady_sound hs) fun _ _ hs1 => .bind (awaitRegs_sound hs1) fun _ _ hs2 => .ite
      (tlbInvalidate_sound hs2) (.bind (writeCtl_sound hs2) fun _ _ hs3 => .ok hs3))

/-! ### Operations of `Machine/Engines` -/

theorem postToken_sound {c h coll t} (hs : s.Sound) : (postToken c h coll t s).Sound := hs

theorem acceptCopy_sound {w} (hs : s.Sound) : (acceptCopy w s).Sound := .ite hs (.ite hs hs)

theorem acceptColl_sound {w} (hs : s.Sound) : (acceptColl w s).Sound := .ite hs hs

theorem execEnq_sound {a u} (hs : s.Sound) : SoundOut (execEnq a u s) :=
  finish_sound (.bind (noFerry_sound hs) fun _ _ hs1 => .bind (awaitRegs_sound hs1) fun _ _ hs2 => .ite (.wait hs2)
      (.bind (.ite (.bind (followVector_sound hs2) fun _ _ hs3 => .bind (awaitHeld_sound hs3) fun _ _ hs4 =>
      releaseHere_sound hs4) (.ok hs2)) fun _ _ hs3 => .ok
      (retireHere_sound (.ite (.ite (acceptColl_sound (.ite hs3 hs3)) (acceptCopy_sound (.ite hs3 hs3)))
      (.ite hs3 hs3)))))

theorem execDeq_sound {d u} (hs : s.Sound) : SoundOut (execDeq d u s) := by
  refine finish_sound (.bind (noFerry_sound hs) fun _ _ hs1 => .bind (awaitRegs_sound hs1) fun _ _ hs2 => .bind
      (awaitAcquire_sound hs2) fun _ _ hs3 => .ite (.wait hs3) ?_)
  generalize tokensOf _ _ = r
  split
  · exact .ok hs3
  · exact .ite (.wait hs3) (.ite (.wait hs3) (.exc hs3))

theorem execDeqt_sound {d u} (hs : s.Sound) : SoundOut (execDeqt d u s) := by
  refine finish_sound (.bind (noFerry_sound hs) fun _ _ hs1 => .bind (awaitRegs_sound hs1) fun _ _ hs2 => .bind
      (awaitAcquire_sound hs2) fun _ _ hs3 => ?_)
  generalize tokensOf _ _ = r
  split <;> exact .ok hs3

theorem streamGate_sound {i slot} (hs : s.Sound) : (streamGate i slot s).Sound :=
  .bind (noFerry_sound hs) fun _ _ hs1 => .ite (.wait hs1) (.ok hs1)

theorem execSdef_sound {a n} (hs : s.Sound) : SoundOut (execSdef a n s) := by
  refine finish_sound (.bind (streamGate_sound hs) fun _ _ hs1 => .bind (awaitRegs_sound hs1) fun _ _ hs2 =>
      .ite (.exc hs2) (.bind (aligned_sound hs2) fun _ _ hs3 => .bind (lsHere_sound hs3) fun _ _ hs4 => .bind
      (awaitHere_sound hs4) fun _ _ hs5 => .bind (loadPlace_sound hs5) fun _ _ hs6 => ?_))
  split
  split
  · exact .exc hs6
  · exact .ite (.exc hs6) (.ok hs6)

theorem execSbind_sound {v n} (hs : s.Sound) : SoundOut (execSbind v n s) := by
  refine finish_sound (.bind (streamGate_sound hs) fun _ _ hs1 => ?_)
  dsimp only
  split
  · exact .ite (.exc hs1) (.ok hs1)
  · exact .exc hs1

theorem execChdef_sound {a n} (hs : s.Sound) : SoundOut (execChdef a n s) :=
  finish_sound (.bind (noFerry_sound hs) fun _ _ hs1 => .bind (awaitRegs_sound hs1) fun _ _ hs2 => .ite (.exc hs2)
      (.ite (.exc hs2) (.ite (.exc hs2) (.ite (.exc hs2) (.ite (.exc hs2) (.ite (.exc hs2) (.ok hs2)))))))

theorem useChannel_sound {n} (hs : s.Sound) : (useChannel n s).Sound := by
  unfold useChannel
  split
  · exact .exc hs
  · exact .ok hs

theorem followChannel_sound {store n} (hs : s.Sound) : (followChannel store n s).Sound := .ite (.wait hs) (.ok hs)

theorem execChput_sound {a n} (hs : s.Sound) : SoundOut (execChput a n s) := by
  refine finish_sound (.bind (noFerry_sound hs) fun _ _ hs1 => .bind (awaitRegs_sound hs1) fun _ _ hs2 => .bind
      (useChannel_sound hs2) fun _ _ hs3 => .bind (awaitHeld_sound hs3) fun _ _ hs4 => ?_)
  dsimp only
  split
  · exact .bind (lsHere_sound hs4) fun _ _ hs5 => .ok (retireHere_sound (enqueueFront_sound hs5))
  · exact .bind (followChannel_sound hs4) fun _ _ hs5 => .ite (.wait hs5)
        (.bind (lsHere_sound hs5) fun _ _ hs6 => .ok (retireHere_sound (enqueueFront_sound hs6)))

theorem takeHead_sound {ch n} (hs : s.Sound) : (takeHead ch n s).Sound :=
  .bind (lsHere_sound hs) fun _ _ hs1 => .ite (.wait hs1) (.ok hs1)

theorem headWord_sound {ch} (hs : s.Sound) : (headWord ch s).Sound :=
  .bind (lsHere_sound hs) fun _ _ hs1 => .bind (awaitThese_sound hs1) fun _ _ hs2 => .bind (awaitVector_sound hs2)
      fun _ _ hs3 => loadPlace_sound hs3

theorem chget_sound {op d n} (hs : s.Sound) : (chget op d n s).Sound := by
  refine .bind (awaitRegs_sound hs) fun _ _ hs1 => .bind (useChannel_sound hs1) fun _ _ hs2 => .ite ?_
      (.bind (followChannel_sound hs2) fun _ _ hs3 => .ite (.wait hs3)
      (.ite (.bind (headWord_sound hs3) fun _ _ hs4 => .bind (takeHead_sound hs4) fun _ _ hs5 => .ok hs5)
      (.bind (.bind (awaitAcquire_sound hs3) fun _ _ hs4 => .ite (takeHead_sound hs4) (.ok hs4))
      fun _ _ hs4 => .ok hs4)))
  split
  · exact .ok hs2
  · exact .bind (followChannel_sound hs2) fun _ _ hs3 => .ite (.wait hs3) (.ok hs3)

theorem execChgetGet_sound {d a n} (hs : s.Sound) : SoundOut (execChgetGet d a n s) :=
  finish_sound (.bind (noFerry_sound hs) fun _ _ hs1 => .bind (awaitRegs_sound hs1) fun _ _ hs2 => chget_sound hs2)

theorem execRdef_sound {a} (hs : s.Sound) : SoundOut (execRdef a s) :=
  finish_sound (.bind (noFerry_sound hs) fun _ _ hs1 => .bind (awaitRegs_sound hs1) fun _ _ hs2 => .bind
      (defineObject_sound hs2) fun _ _ hs3 => .ok hs3)

theorem execRrun_sound {a} (hs : s.Sound) : SoundOut (execRrun a s) :=
  finish_sound (.bind (noFerry_sound hs) fun _ _ hs1 => .bind (awaitRegs_sound hs1) fun _ _ hs2 =>
      runRecursion_sound hs2)

/-! ### Operations of `Machine/Grants` -/

theorem execVsetl_sound {d a t2 sc ty} (hs : s.Sound) : SoundOut (execVsetl d a t2 sc ty s) :=
  finish_sound (.bind (noFerry_sound hs) fun _ _ hs1 => .bind (awaitRegs_sound hs1) fun _ _ hs2 => .ite (.exc hs2)
      (.ok hs2))

theorem grantGate_sound (hs : s.Sound) : (grantGate s).Sound :=
  .bind (waitVector_sound hs) fun _ _ hs1 => .bind (outsideBatch_sound hs1) fun _ _ hs2 => noWindow_sound hs2

theorem execVgrant_sound {d a} (hs : s.Sound) : SoundOut (execVgrant d a s) :=
  finish_sound (.bind (noFerry_sound hs) fun _ _ hs1 => .bind (awaitRegs_sound hs1) fun _ _ hs2 => .bind
      (grantGate_sound hs2) fun _ _ hs3 => .bind (settleHere_sound hs3) fun _ _ hs4 => .ok hs4)

theorem execVfork_sound {d bt} (hs : s.Sound) : SoundOut (execVfork d bt s) := by
  refine finish_sound (.bind (noFerry_sound hs) fun _ _ hs1 => .bind (awaitRegs_sound hs1) fun _ _ hs2 => .bind
      (grantGate_sound hs2) fun _ _ hs3 => .bind (prepared_sound hs3) fun _ _ hs4 => .bind (settleHere_sound hs4)
      fun _ _ hs5 => ?_)
  dsimp only
  split <;> exact .ok hs5

theorem parkLanes_sound {c h} (hs : s.Sound) : (parkLanes c h s).Sound := by
  unfold parkLanes
  dsimp only
  split
  · exact hs
  · exact .ite hs hs

theorem endChild_sound (hs : s.Sound) : (endChild s).Sound :=
  .bind (check_sound hs) fun _ _ hs1 => .bind (waitVector_sound hs1) fun _ _ hs2 => .bind (settleHere_sound hs2)
      fun _ _ hs3 => .bind (releaseHere_sound hs3) fun _ _ hs4 => .ok (endHart_sound (parkLanes_sound hs4))

theorem collectChild_sound {a} (hs : s.Sound) : (collectChild a s).Sound := by
  refine .bind (check_sound hs) fun _ _ hs1 => .bind (waitVector_sound hs1) fun _ _ hs2 => .bind
      (settleHere_sound hs2) fun _ _ hs3 => ?_
  dsimp only
  split
  · exact .wait hs3
  · exact .ok hs3

theorem execVjoin_sound {a} (hs : s.Sound) : SoundOut (execVjoin a s) :=
  finish_sound (.bind (noFerry_sound hs) fun _ _ hs1 => .bind (awaitRegs_sound hs1) fun _ _ hs2 => .bind
      (outsideBatch_sound hs2) fun _ _ hs3 => .bind (noWindow_sound hs3) fun _ _ hs4 => .ite (endChild_sound hs4)
      (collectChild_sound hs4))

theorem fetchBody_sound {cx va n} (hs : s.Sound) : (fetchBody cx va s n).Sound := by
  induction n generalizing va s with
  | zero => exact .ok hs
  | succ n ih => exact .bind (fetchInstr_sound hs) fun _ _ hs1 => .bind (ih hs1) fun _ _ hs2 => .ok hs2

theorem captureBody_sound {l done} (hs : s.Sound) : (captureBody s l done).Sound := by
  induction l generalizing s done with
  | nil => exact .ok hs
  | cons e rest ih =>
    unfold captureBody
    extract_lets h
    split
    · exact .ite (.exc hs) (ih hs)
    · exact ih hs

theorem captureLoop_sound {a n} (hs : s.Sound) : (captureLoop a n s).Sound := by
  refine .bind (noFerry_sound hs) fun _ _ hs1 => .bind (awaitRegs_sound hs1) fun _ _ hs2 => .ite (.wait hs2)
    (.ite (.wait hs2) (.bind (outsideBatch_sound hs2) fun _ _ hs3 => .bind (fetchBody_sound hs3) fun _ _ hs4 => ?_))
  split
  · exact .exc hs4
  · refine .bind (awaitRegs_sound hs4) fun _ _ hs5 => ?_
    dsimp only
    split
    · exact .exc hs5
    · exact .bind (captureBody_sound hs5) fun _ _ hs6 => .ok (modHart_sound (snd_ite_sound hs6 (pinBody_sound hs6)))

theorem execLoop_sound {a n} (hs : s.Sound) : SoundOut (execLoop a n s) := by
  unfold execLoop
  generalize hr : captureLoop _ _ _ = r
  cases (hr ▸ captureLoop_sound hs : r.Sound) with
  | ok hs2 => exact .ite (.next hs2) (stepVector_sound hs2)
  | wait hs2 => exact finish_sound (.wait hs2)
  | exc hs2 => exact finish_sound (.exc hs2)
  | contained hs2 => exact finish_sound (.contained hs2)
  | stop => exact finish_sound .stop

theorem execTsetl_sound {crew fmtA d a b} (hs : s.Sound) : SoundOut (execTsetl crew fmtA d a b s) :=
  finish_sound (.bind (noFerry_sound hs) fun _ _ hs1 => .bind (awaitRegs_sound hs1) fun _ _ hs2 => .ite (.exc hs2)
      (.ite (.exc hs2) (.ok hs2)))

theorem execTclaim_sound {a b} (hs : s.Sound) : SoundOut (execTclaim a b s) := by
  refine finish_sound (.bind (noFerry_sound hs) fun _ _ hs1 => .bind (awaitRegs_sound hs1) fun _ _ hs2 => ?_)
  dsimp only
  split
  · exact .ite (.exc hs2) (.ok (modHart_sound (modCore_sound (modGroup_sound hs2))))
  · exact .exc hs2

theorem execTfree_sound (hs : s.Sound) : SoundOut (execTfree s) :=
  finish_sound (.bind (noFerry_sound hs) fun _ _ hs1 => .ite (.wait hs1)
      (.ok (retireHere_sound (releaseClaim_sound hs1))))

theorem execLnget_sound {d} (hs : s.Sound) : SoundOut (execLnget d s) := by
  refine finish_sound (.bind (check_sound hs) fun _ _ hs1 => ?_)
  dsimp only
  split
  · exact .ok hs1
  · split
    · exact .wait hs1
    · exact .ok hs1

theorem drainAll_sound {c} (hs : s.Sound) : (drainAll c s).Sound :=
  sweep_sound (foldl_sound (fun _ _ hs1 => drain_sound hs1) hs)

theorem fillEntry_sound {c n val f} (hs : s.Sound) : (fillEntry c n val f s).Sound := by
  unfold fillEntry
  split
  · exact hs
  · exact .ite (poisonEntry_sound hs) (.ite (poisonEntry_sound hs)
        (drainAll_sound (completeEntry_sound hs)))

theorem execFill_sound {xs a} (hs : s.Sound) : SoundOut (execFill xs a s) :=
  finish_sound (.bind (check_sound hs) fun _ _ hs1 => .ite
      (.ok (.ite (sweep_sound (poisonEntry_sound hs1)) (fillEntry_sound hs1))) (.ok hs1))

theorem execFtload_sound {xs a} (hs : s.Sound) : SoundOut (execFtload xs a s) :=
  finish_sound (.bind (needsS_sound hs) fun _ _ hs1 => .bind (awaitRegs_sound hs1) fun _ _ hs2 => .ok hs2)

/-! ### Operations of `Machine/Wharf` -/

theorem acceptRecord_sound {r} (hs : s.Sound) : (acceptRecord r s).Sound := hs

theorem admitGroup_sound {launch r c number gang idx} (hs : s.Sound) :
      (admitGroup launch r c number gang idx s).Sound := by
  unfold admitGroup
  dsimp only
  exact clearPlaces_wf _ _ (foldl_sound (fun _ _ hs => hs) (freshWord_sound hs))

theorem admitUnit_sound {launch r unit} (hs : s.Sound) : SoundOpt id (admitUnit launch r unit s) := by
  unfold admitUnit
  dsimp only
  split
  · split
    · exact .none
    · exact .some (foldl_sound (fun _ _ hs1 => admitGroup_sound hs1) hs)
  · split
    · exact .none
    · exact .some (admitGroup_sound hs)

theorem admitAll_sound {launch r} (hs : s.Sound) : SoundOpt id (admitAll launch r s) :=
  foldl_opt_sound (fun _ _ ho => .bind ho fun _ hs => admitUnit_sound hs) (.some hs)

theorem admitNext_sound {i l} (hs : s.Sound) : SoundOpt Prod.fst (admitNext i l s) :=
  .ite (.map (admitAll_sound hs) fun _ hs => hs) (.map (admitUnit_sound hs) fun _ hs => hs)

theorem readTable_sound {addr n} (hs : s.Sound) : (readTable addr n s).Sound :=
  mapEach_sound (fun _ _ hs1 => .bind (gvHere_sound hs1) fun _ _ hs2 => .bind (awaitHere_sound hs2) fun _ _ hs3 =>
      .bind (loadPlace_sound hs3) fun _ _ hs4 => .ok hs4) hs

theorem checkedRecord_sound {addr} (hs : s.Sound) : (checkedRecord addr s).Sound := by
  refine .bind (aligned_sound hs) fun _ _ hs1 => .bind (gvHere_sound hs1) fun _ _ hs2 => .bind (awaitHere_sound hs2)
      fun _ _ hs3 => .bind (loadPlace_sound hs3) fun _ _ hs4 => ?_
  split
  split
  · exact .exc hs4
  · refine .bind (readTable_sound hs4) fun _ _ hs5 => .bind (readTable_sound hs5) fun _ _ hs6 => ?_
    split
    · exact .exc hs6
    · exact .ite (.ok hs6) (.exc hs6)

theorem execLaunch_sound {a} (hs : s.Sound) : SoundOut (execLaunch a s) :=
  finish_sound (.bind (noFerry_sound hs) fun _ _ hs1 => .bind (awaitRegs_sound hs1) fun _ _ hs2 => .bind
      (outsideBatch_sound hs2) fun _ _ hs3 => .bind (checkedRecord_sound hs3) fun _ _ hs4 => .ite (.wait hs4)
      (.bind (followVector_sound hs4) fun _ _ hs5 => .bind (awaitHeld_sound hs5) fun _ _ hs6 => .bind
      (releaseHere_sound hs6) fun _ _ hs7 => .ok (retireHere_sound (acceptRecord_sound (countPages_sound hs7)))))

theorem execWqry_sound {n} (hs : s.Sound) : SoundOut (execWqry n s) := by
  refine finish_sound (.bind (noFerry_sound hs) fun _ _ hs1 => ?_)
  split
  · split
    · exact .ite (.exc hs1) (.ite (.wait hs1) (.ok hs1))
    · exact .exc hs1
  · exact .exc hs1

theorem fenceStores_sound {reason} (hs : s.Sound) : (fenceStores reason s).Sound := by
  unfold fenceStores
  dsimp only
  generalize rootsOf _ _ _ = r
  split
  · exact .ite (.ok (drain_sound hs)) (.wait (drain_sound hs))
  · exact raiseDeferred_sound (drain_sound hs)

theorem fenceWaits_sound {kind reason} (hs : s.Sound) : (fenceWaits kind reason s).Sound :=
  .bind (waitVector_sound hs) fun _ _ hs1 => .bind (.ite (.ite (.wait hs1) (.ok hs1)) (fenceStores_sound hs1))
      fun _ _ hs2 => awaitHeld_sound hs2

theorem fullFence_sound {reason} (hs : s.Sound) : (fullFence reason s).Sound :=
  .bind (fenceWaits_sound hs) fun _ _ hs1 => .ok hs1

theorem execGbar_sound {scope} (hs : s.Sound) : SoundOut (execGbar scope s) := by
  refine finish_sound (.bind (noFerry_sound hs) fun _ _ hs1 => ?_)
  dsimp only
  split
  · exact .ite (.exc hs1) (.bind (fullFence_sound hs1) fun _ _ hs2 => .ite
        (.ok (retireHere_sound (.ite hs2 hs2))) (.wait (.ite hs2 hs2)))
  · exact .ok hs1

theorem leave_sound (hs : s.Sound) : (leave s).Sound := endHart_sound hs

theorem leaveQuietly_sound (hs : s.Sound) : (leaveQuietly s).Sound :=
  .ite (.wait hs) (.bind (releaseHere_sound (.ite hs hs)) fun _ _ hs1 => .ok (leave_sound hs1))

theorem execExit_sound (hs : s.Sound) : SoundOut (execExit s) :=
  finish_sound (.bind (noFerry_sound hs) fun _ _ hs1 => .bind (outsideBatch_sound hs1) fun _ _ hs2 => .bind
      (waitVector_sound hs2) fun _ _ hs3 => .bind (.ite (.ok hs3) (settleHere_sound hs3)) fun _ _ hs4 =>
      leaveQuietly_sound hs4)

/-! ### Operations of `Machine/System` -/

theorem execTrap_sound {n} (hs : s.Sound) : SoundOut (execTrap n s) := by
  unfold execTrap
  generalize hr : noFerry _ _ = r
  cases (hr ▸ noFerry_sound hs : r.Sound) with
  | ok hs2 => exact .next (trapAfter_sound hs2)
  | wait hs2 => exact finish_sound (.wait hs2)
  | exc hs2 => exact finish_sound (.exc hs2)
  | contained hs2 => exact finish_sound (.contained hs2)
  | stop => exact finish_sound .stop

theorem execBkpt_sound (hs : s.Sound) : SoundOut (execBkpt s) := by
  unfold execBkpt
  generalize hr : noFerry _ _ = r
  cases (hr ▸ noFerry_sound hs : r.Sound) with
  | ok hs2 => exact .ite (.next (debugStop_sound hs2)) (.next (trapAfter_sound hs2))
  | wait hs2 => exact finish_sound (.wait hs2)
  | exc hs2 => exact finish_sound (.exc hs2)
  | contained hs2 => exact finish_sound (.contained hs2)
  | stop => exact finish_sound .stop

theorem execEret_sound (hs : s.Sound) : SoundOut (execEret s) :=
  finish_sound (.bind (noFerry_sound hs) fun _ _ hs1 => .bind (needsS_sound hs1) fun _ _ hs2 => .bind
      (waitVector_sound hs2) fun _ _ hs3 => .ite (leaveQuietly_sound hs3) (.ok hs3))

theorem execHalt_sound (hs : s.Sound) : SoundOut (execHalt s) :=
  finish_sound (.bind (noFerry_sound hs) fun _ _ hs1 => .bind (needsS_sound hs1) fun _ _ hs2 => .bind
      (waitVector_sound hs2) fun _ _ hs3 => .bind (settleHere_sound hs3) fun _ _ hs4 => .ok hs4)

theorem waitRead_sound {va value} (hs : s.Sound) : (waitRead va value s).Sound :=
  .bind (aligned_sound hs) fun _ _ hs1 => .bind (gvHere_sound hs1) fun _ _ hs2 => .bind (awaitHere_sound hs2)
      fun _ _ hs3 => .bind (loadPlace_sound hs3) fun _ _ hs4 => .ite
      (.ok (modHart_sound (retireHere_sound (countHere_sound hs4)))) (.wait hs4)

theorem execFence_sound {kind scope} (hs : s.Sound) : SoundOut (execFence kind scope s) :=
  .ite (.next (retireHere_sound (.ite hs hs))) (finish_sound
      (.bind (fenceWaits_sound (.ite hs hs)) fun _ _ hs1 => .ok (retireHere_sound (.ite hs1 hs1))))

theorem execIsync_sound (hs : s.Sound) : SoundOut (execIsync s) :=
  finish_sound (.bind (waitVector_sound hs) fun _ _ hs1 => .bind (settleHere_sound hs1) fun _ _ hs2 => .bind
      (releaseHere_sound hs2) fun _ _ hs3 => .bind (awaitHeld_sound hs3) fun _ _ hs4 => .ite (.wait hs4) (.ok hs4))

/-! ### Operations of `Machine/Copy` -/

theorem copySource_sound {c q i} (hs : s.Sound) : (copySource c q i s).Sound :=
  .ite (.ok hs) (.bind (placeFor_sound hs) fun _ _ hs1 => .bind (loadPlace_sound hs1) fun _ _ hs2 => .ok hs2)

theorem copyBytes_sound {c q space dst done l} (hs : s.Sound) : (copyBytes c q space dst done s l).Sound := by
  induction l generalizing done s with
  | nil => exact .ok hs
  | cons i rest ih =>
    unfold copyBytes
    generalize hr : copySource c q i s = r
    have hr' : r.Sound := hr ▸ copySource_sound hs
    clear hr
    cases hr' with
    | @ok _ t ht =>
      dsimp only
      generalize hr : placeFor _ _ _ _ _ _ _ _ _ t = r
      have hr' : r.Sound := hr ▸ placeFor_sound ht
      clear hr
      cases hr' with
      | ok hu => exact ih hu
      | wait hu | exc hu | contained hu => exact .ok hu
      | stop => exact .stop
    | wait ht | exc ht | contained ht => exact .ok ht
    | stop => exact .stop

theorem settleBytes_sound {l} (hs : s.Sound) : (settleBytes l s).2.Sound :=
  foldl_snd_sound (fun _ _ hp => snd_ite_sound (freshWord_sound hp) hp) hs

theorem markCopy_sound {c q st} (hs : s.Sound) : (markCopy c q st s).Sound := hs

theorem runCopy_sound {c q} (hs : s.Sound) : (runCopy c q s).Sound := by
  unfold runCopy
  extract_lets slot t
  clear_value slot
  have ht : t.Sound := by
    dsimp only [t]
    split
    · exact hs
    · exact reserveSlot_sound hs
  refine .bind (copyBytes_sound ht) fun r u hu => ?_
  have hv := performCells_sound (cells := (settleBytes r.bytes u).1) (settleBytes_sound (l := r.bytes) hu)
  dsimp only
  generalize performCells _ _ = v at hv ⊢
  have hx (w : State) (hw : w.Sound) :
      (markCopy c q (.done (BitVec.ofNat 8 ((r.fail.map (·.1)).getD 0)))
        (if r.fail.isNone then countPages c q.tenant.toNat r.pages w else w)).Sound :=
    markCopy_sound (.ite (countPages_sound hw) hw)
  have hy (w : State) (hw : w.Sound) : ((match r.fail with
      | some (st, a) => postToken c q.hart.toNat false (tokenWord st q.tag a) w
      | none => if q.token then postToken c q.hart.toNat false (tokenWord 0 q.tag 0) w else w)).Sound := by
    split
    · exact postToken_sound hw
    · exact .ite (postToken_sound hw) hw
  refine .ok ?_
  cases slot with
  | none => exact .ite (hx v hv) (hy _ (hx v hv))
  | some e => exact .ite (hx _ (fillSlot_sound hv)) (hy _ (hx _ (fillSlot_sound hv)))

theorem executeCopy_sound {fill c pos} (hs : s.Sound) : SoundOut (executeCopy fill c pos s) := by
  unfold executeCopy
  split
  · exact .next hs
  · refine .ite (.next hs) (.ite (.next hs) ?_)
    generalize hr : runCopy _ _ _ = r
    cases (hr ▸ runCopy_sound hs : r.Sound) with
    | ok hs2 | wait hs2 | exc hs2 | contained hs2 => exact .next hs2
    | stop => exact .fault

/-! ### Operations of `Machine/Collective` -/

theorem readSource_sound {q done l} (hs : s.Sound) : (readSource q done s l).Sound := by
  induction l generalizing done s with
  | nil => exact .ok hs
  | cons i rest ih =>
    unfold readSource
    dsimp only
    generalize hr : (translate _ _ _ _ s).bind _ = r
    have hr' : r.Sound := hr ▸ .bind (translate_sound hs) fun _ _ hs => .bind (loadPlace_sound hs) fun _ _ hs => .ok hs
    clear hr
    cases hr' with
    | ok ht => exact ih ht
    | wait ht | exc ht | contained ht => exact .ok ht
    | stop => exact .stop

theorem padSource_sound {n l} (hs : s.Sound) : (padSource n l s).2.Sound :=
  foldl_snd_sound (fun _ _ hs1 => freshWord_sound hs1) hs

theorem placeDestination_sound {q limit cells pages l} (hs : s.Sound) :
    (placeDestination q limit cells pages s l).Sound := by
  induction l generalizing cells pages s with
  | nil => exact .ok hs
  | cons e rest ih =>
    unfold placeDestination
    refine .ite (.ok hs) ?_
    generalize hr : translate _ _ _ _ s = r
    have hr' : r.Sound := hr ▸ translate_sound hs
    clear hr
    cases hr' with
    | ok ht => exact ih ht
    | wait ht | exc ht | contained ht => exact .ok ht
    | stop => exact .stop

theorem writeDestination_sound {q limit pages l} (hs : s.Sound) : (writeDestination q limit pages s l).Sound :=
  .bind (placeDestination_sound hs) fun _ _ hs1 => .ok (performCells_sound hs1)

theorem dropCommands_sound {l} (hs : s.Sound) : (dropCommands l s).Sound := foldl_sound (fun _ _ hs1 => hs1) hs

theorem answer_sound {q post status addr} (hs : s.Sound) : (answer q post status addr s).Sound := .ite hs hs

theorem readParts_sound {pod count size root l} (hs : s.Sound) : (readParts pod count size root l s).Sound :=
  mapEach_sound (fun _ _ hs1 => .bind (readSource_sound hs1) fun _ _ hs2 => .ok
      (snd_ite_sound (padSource_sound hs2) hs2)) hs

theorem deliver_sound {out writes p} (hs : s.Sound) : (deliver out writes p s).Sound := by
  unfold deliver
  split
  · exact .ok hs
  · refine .bind (writeDestination_sound hs) fun _ _ hs => .ok ?_
    dsimp only
    split
    · exact answer_sound hs
    · exact answer_sound (countPages_sound hs)

theorem runCollective_sound {op tag remote} (hs : s.Sound) : (runCollective op tag remote s).Sound := by
  unfold runCollective
  split
  · exact .ok hs
  · split
    · exact .ok hs
    · exact .ite (.ok hs) (.ite (.ok
          (foldl_sound (fun _ _ hs1 => answer_sound hs1) (dropCommands_sound hs)))
          (.ite (.ok hs) (.bind (readParts_sound hs) fun _ _ hs1 => forEach_sound
          (fun _ _ hs2 => deliver_sound hs2) (dropCommands_sound hs1))))

theorem engineOut_sound {r} (hr : Res.Sound r) : SoundOut (engineOut r) := by
  cases hr with
  | ok hs | wait hs | exc hs | contained hs => exact .next hs
  | stop => exact .fault

/-! ### Operations of `Machine/Agents` -/

theorem focus_sound {c h} (hs : s.Sound) : (State.focus c h s).Sound := hs

theorem prefetchPart_sound {cx va n} (hs : s.Sound) : (prefetchPart cx va n s).2.Sound := by
  unfold prefetchPart
  generalize hr : translate _ _ _ _ _ = r
  cases (hr ▸ translate_sound hs : r.Sound) with
  | ok hs2 => exact snd_ite_sound hs2 (fetchBlock_sound hs2)
  | wait hs2 | exc hs2 | contained hs2 => exact hs2
  | stop => exact hs

theorem prefetchBytes_sound {cx va} (hs : s.Sound) : (prefetchBytes cx va s).2.2.Sound := by
  unfold prefetchBytes
  dsimp only
  generalize hr : prefetchPart _ va.toNat _ s = r
  have ht : r.2.Sound := hr ▸ prefetchPart_sound hs
  clear hr
  split
  · exact ht
  split
  · exact ht
  generalize hq : prefetchPart _ _ _ _ = q
  have hu : q.2.Sound := hq ▸ prefetchPart_sound ht
  clear hq
  split
  · exact hu
  · exact hu

theorem execStoreElementCommit_sound (hs : s.Sound) : SoundOut (execStoreElementCommit s) := by
  unfold execStoreElementCommit
  dsimp only
  split
  · exact .next hs
  · split
    · exact .next (contain_sound hs)
    · rename_i p _ _ _ _
      have ht : (commitAll s.input.core.toNat s.input.hart.toNat [p] s).2.Sound := commitAll_sound hs
      generalize commitAll _ _ _ _ = q at ht ⊢
      exact .next (sweep_sound ht)

theorem execReplayComplete_sound (hs : s.Sound) : SoundOut (execReplayComplete s) := by
  unfold execReplayComplete
  dsimp only
  split
  · exact .next hs
  · refine .ite (.next hs) ?_
    split
    · split
      · exact .next (resolveWritten_sound (settlePoison_sound hs))
      · exact .next (drainAll_sound (completeEntry_sound hs))
    · split
      · exact .next (drainAll_sound (completeEntry_sound hs))
      · exact .next hs

theorem firmwarePass_sound {c f} (hs : s.Sound) : (firmwarePass c f s).Sound := by
  refine .ite hs ?_
  split
  · exact hs
  · exact .ite (fillEntry_sound (modHartAt_sound (.ite hs hs)))
        (modHartAt_sound (setEntry_sound (.ite hs hs)))

theorem rereadWait_sound (hs : s.Sound) : SoundOut (rereadWait s) := by
  unfold rereadWait
  split
  · exact .next hs
  · exact finish_sound (waitRead_sound hs)

theorem execWaitWakeup_sound (hs : s.Sound) : SoundOut (execWaitWakeup s) := by
  unfold execWaitWakeup
  dsimp only
  split
  · exact .next hs
  · exact .ite (rereadWait_sound hs) (.next hs)

theorem execWaitTimeout_sound (hs : s.Sound) : SoundOut (execWaitTimeout s) := by
  unfold execWaitTimeout
  dsimp only
  split
  · exact .next hs
  · exact .ite (rereadWait_sound hs) (.next hs)

theorem fillChannel_sound {c n whole w0 w1} (hs : s.Sound) : SoundOpt id (fillChannel c n whole w0 w1 s) := by
  unfold fillChannel
  split
  · exact .none
  · split
    · exact .none
    · split
      · exact .none
      · exact .some (fillSlot_sound (performCells_sound hs))

theorem sendHeat_sound {d} (hs : s.Sound) : SoundOpt id (sendHeat d s) := by
  unfold sendHeat
  extract_lets x
  split
  · exact .none
  · split
    · exact .none
    · exact SoundOpt.map (fillChannel_sound hs) fun _ hs1 => hs1

theorem sendAllHeat_sound {d} (hs : s.Sound) : (sendAllHeat d s).Sound :=
  foldl_sound (fun _ _ hs1 => SoundOpt.getD (sendHeat_sound hs1) hs1) hs

theorem execHeatThreshold_sound (hs : s.Sound) : SoundOut (execHeatThreshold s) :=
  .ite (.next hs) (.ite (.next hs) (.next (.ite (SoundOpt.getD (sendHeat_sound (modDie_sound (sendAllHeat_sound hs)))
      (modDie_sound (sendAllHeat_sound hs))) (modDie_sound (sendAllHeat_sound hs)))))

/-! ### Operations of `Machine/Admission` -/

theorem wharfPlace_sound {t sup k va} (hs : s.Sound) : (wharfPlace t sup k va s).Sound :=
  .ite (.exc hs) (.bind (walk_sound hs) fun _ _ hs1 => .bind (reachable_sound hs1) fun _ _ hs2 => .ok hs2)

theorem wharfRead_sound {t sup va} (hs : s.Sound) : (wharfRead t sup va s).Sound :=
  .bind (wharfPlace_sound hs) fun _ _ hs1 => loadPlace_sound hs1

theorem wharfReport_sound {c source t addr} (hs : s.Sound) : (wharfReport c source t addr s).Sound := logBank_sound hs

theorem windowTable_sound {t sup addr n} (hs : s.Sound) : (windowTable t sup addr n s).Sound := by
  refine foldl_res_sound (fun r i hr => .bind hr fun l t ht => ?_) (.ok hs)
  split
  · exact .ok ht
  · generalize hr : wharfRead _ _ _ t = r
    have hr' : r.Sound := hr ▸ wharfRead_sound ht
    clear hr
    cases hr' with
    | ok hu | wait hu | exc hu | contained hu => exact .ok hu
    | stop => exact .stop

theorem windowRecord_sound {tenant w} (hs : s.Sound) : (windowRecord tenant w s).Sound := by
  unfold windowRecord
  split
  refine .ite (.ok hs) (.bind (windowTable_sound hs) fun _ _ hs1 => ?_)
  split
  · exact .ok hs1
  · refine .bind (windowTable_sound hs1) fun _ _ hs2 => ?_
    split <;> exact .ok hs2

theorem windowStore_sound {tenant off bytes} (hs : s.Sound) : (windowStore tenant off bytes s).Sound :=
  .ite (.ok hs) (.ite (.ok hs) (windowRecord_sound hs))

theorem execLaunchWindowStore_sound (hs : s.Sound) : SoundOut (execLaunchWindowStore s) := by
  unfold execLaunchWindowStore
  dsimp only
  generalize hr : windowStore _ _ _ _ = r
  have hr' : r.Sound := hr ▸ windowStore_sound hs
  clear hr
  cases hr' with
  | @ok a t ht => cases a with
    | inl => exact .next ht
    | inr => exact .next ht
  | wait ht | exc ht | contained ht => exact .next ht
  | stop => exact .fault

theorem execHypervisorLaunchStore_sound (hs : s.Sound) : SoundOut (execHypervisorLaunchStore s) := by
  unfold execHypervisorLaunchStore
  dsimp only
  generalize hr : windowStore _ _ _ _ = r
  have hr' : r.Sound := hr ▸ windowStore_sound hs
  clear hr
  cases hr' with
  | @ok a t ht => cases a with
    | inl => exact .next ht
    | inr => exact .next ht
  | wait ht | exc ht | contained ht => exact .next ht
  | stop => exact .fault

theorem execWaitCounterRead_sound (hs : s.Sound) : SoundOut (execWaitCounterRead s) := by
  unfold execWaitCounterRead
  dsimp only
  split
  · exact .next hs
  · refine .ite (.next hs) ?_
    generalize hr : wharfRead _ _ _ _ = r
    cases (hr ▸ wharfRead_sound hs : r.Sound) with
    | ok hs2 => exact .next (.ite hs2 hs2)
    | wait hs2 | exc hs2 | contained hs2 => exact .next (wharfReport_sound hs2)
    | stop => exact .fault

theorem charge_sound {t n} (hs : s.Sound) : (charge t n s).Sound := hs

theorem advanceHead_sound {t id units l} (hs : s.Sound) : (advanceHead t id units l s).Sound := .ite hs hs

theorem admitTenant_sound {t} (hs : s.Sound) : (admitTenant t s).Sound := by
  unfold admitTenant
  split
  · exact hs
  · generalize hr : admitNext _ _ s = r
    have hr' : SoundOpt Prod.fst r := hr ▸ admitNext_sound hs
    clear hr
    cases hr' with
    | none => exact hs
    | @some a ht => exact modWharf_sound (charge_sound (advanceHead_sound ht))

theorem markVictims_sound {l} (hs : s.Sound) : (markVictims l s).Sound :=
  foldl_sound (fun _ _ hs1 => modGroup_sound hs1) hs

theorem execWharfAdmit_sound (hs : s.Sound) : SoundOut (execWharfAdmit s) := by
  refine .ite (.next hs) ?_
  generalize admissible _ = r
  split
  · generalize List.filter _ _ = r
    split
    · exact .next hs
    · split
      · exact .next hs
      · exact .next (markVictims_sound hs)
  · refine .ite (.next hs) ?_
    split
    · exact .next hs
    · exact .next (admitTenant_sound hs)

theorem chargeUse_sound {g cycles} (hs : s.Sound) : (chargeUse g cycles s).Sound := by
  unfold chargeUse
  split
  · exact hs
  · exact .ite hs (modGroup_sound hs)

theorem execUsageCharge_sound (hs : s.Sound) : SoundOut (execUsageCharge s) := by
  unfold execUsageCharge
  split
  · exact .next hs
  · exact .ite (.next hs) (.next (chargeUse_sound hs))

theorem bumpDone_sound {c r} (hs : s.Sound) : (bumpDone c r s).Sound := by
  unfold bumpDone
  refine .ite (.ok hs) ?_
  dsimp only
  generalize hr : (wharfPlace _ _ _ _ s).bind _ = q
  have hr' : q.Sound := hr ▸ .bind (wharfPlace_sound hs) fun _ _ hs => .bind (loadPlace_sound hs) fun _ _ hs => .ok hs
  clear hr
  cases hr' with
  | ok ht => exact .ok (performNat_sound ht)
  | wait ht | exc ht | contained ht => exact .ok (modHost_sound (wharfReport_sound ht))
  | stop => exact .stop

theorem releaseGroup_sound {g x} (hs : s.Sound) : (releaseGroup g x s).Sound :=
  modCore_sound (foldl_sound (fun _ _ hs1 => hs1) hs)

theorem retireGroup_sound {g x} (hs : s.Sound) : (retireGroup g x s).Sound := .ite (modGroup_sound hs) hs

theorem countEnded_sound {g launch} (hs : s.Sound) : (countEnded g launch s).Sound := by
  unfold countEnded
  split <;> exact hs

theorem execGroupEnd_sound (hs : s.Sound) : SoundOut (execGroupEnd s) := by
  unfold execGroupEnd
  extract_lets g
  split
  · exact .next hs
  · refine .ite (.next hs) ?_
    extract_lets s1
    split
    · exact .next (retireGroup_sound (releaseGroup_sound (chargeUse_sound hs)))
    · generalize hr : bumpDone _ _ _ = r
      cases (hr ▸ bumpDone_sound (chargeUse_sound hs) : r.Sound) with
      | ok hs2 => exact .next (countEnded_sound (retireGroup_sound (releaseGroup_sound (spillTable_sound hs2))))
      | wait hs2 | exc hs2 | contained hs2 => exact .next hs2
      | stop => exact .fault

theorem deliverAnswer_sound {g n w} (hs : s.Sound) : SoundOpt id (deliverAnswer g n w s) := by
  unfold deliverAnswer
  split
  · exact .none
  · split
    · exact .some hs
    · split
      · exact fillChannel_sound hs
      · exact .some hs

theorem serveRequest_sound {l} (hs : s.Sound) : SoundOpt Prod.snd (serveRequest l s) := by
  unfold serveRequest
  split
  · rename_i i t hf
    obtain ⟨⟨q, i⟩, -, hq⟩ := List.exists_of_findSome?_eq_some hf
    dsimp only at hq
    split at hq
    · generalize hr : deliverAnswer _ _ _ s = r at hq
      have hr' : SoundOpt id r := hr ▸ deliverAnswer_sound hs
      cases hr' with
      | none => cases hq
      | some ht => cases hq; exact .some ht
    · cases hq
  · split
    · exact .none
    · exact .ite (.some hs) (.map (deliverAnswer_sound hs) fun _ ht => ht)

theorem execWqryAnswer_sound (hs : s.Sound) : SoundOut (execWqryAnswer s) := by
  unfold execWqryAnswer
  split
  · exact .next hs
  · generalize hr : serveRequest _ _ = r
    cases (hr ▸ serveRequest_sound hs : SoundOpt Prod.snd r) with
    | some hs2 => exact .next hs2
    | none => exact .next hs

/-! ### Operations of `Machine/Preemption` -/

theorem performBytes_sound {p l} (hs : s.Sound) : (performBytes p l s).Sound := writePlaces_wf p l hs

theorem saveGroup_sound {gn} (hs : s.Sound) : SoundOpt id (saveGroup gn s) := by
  unfold saveGroup
  split
  · exact .some hs
  · dsimp only
    split
    · exact .none
    · exact .some (modWharf_sound (modCore_sound (releaseGroup_sound
          (foldl_sound (fun _ _ hs1 => hs1) (performBytes_sound
          (foldl_sound (fun _ _ hs1 => roundStop_sound hs1) hs))))))

theorem execPreempt_sound (hs : s.Sound) : SoundOut (execPreempt s) := by
  unfold execPreempt
  refine .ite (.next hs) ?_
  generalize hr : List.foldl _ (some s) _ = r
  have hr' : SoundOpt id r := hr ▸ foldl_opt_sound (fun _ _ ho => .bind ho fun _ hs => saveGroup_sound hs) (.some hs)
  clear hr
  cases hr' with
  | none => exact .fault
  | some ht => exact .next ht

theorem reportRestored_sound {c h} (hs : s.Sound) : (reportRestored c h s).Sound := by
  refine .ite hs ?_
  generalize hr : raiseDeferred _ _ _ _ _ = r
  cases (hr ▸ raiseDeferred_sound hs : r.Sound) with
  | ok | wait | contained | stop => exact hs
  | exc hs2 => exact takeTrap_sound hs2

theorem placeGroup_sound {l gn c v fp} (hs : s.Sound) : (placeGroup l gn c v fp s).Sound := by
  unfold placeGroup
  dsimp only
  exact foldl_sound (fun _ _ hs => reportRestored_sound hs)
    (writePlaces_wf _ _ (clearPlaces_wf _ _ (foldl_sound (fun _ _ hs => hs) hs)))

theorem execRestore_sound (hs : s.Sound) : SoundOut (execRestore s) := by
  refine .ite (.next hs) ?_
  split
  · exact .next hs
  · exact .next (foldl_sound (fun _ _ hs1 => placeGroup_sound hs1) hs)

/-! ### Operations of `Machine/Hardware` -/

theorem poisonLine_sound {p} (hs : s.Sound) : (poisonLine p s).Sound := .ite hs hs

theorem dropCorrected_sound {r} (hs : s.Sound) : (dropCorrected r s).Sound := by
  unfold dropCorrected
  split <;> exact hs

theorem logReport_sound {cls r} (hs : s.Sound) : (logReport cls r s).Sound := logBank_sound hs

theorem execContainedError_sound (hs : s.Sound) : SoundOut (execContainedError s) := by
  unfold execContainedError
  have ht : (match poisonedPlace s.input.report with
    | some p => poisonLine p s
    | none => s).Sound := by
    split
    · exact poisonLine_sound hs
    · exact hs
  dsimp only
  split
  · exact .next (abortGroup_sound (logReport_sound ht))
  · exact .ite (.next (logReport_sound ht)) (.next (stopPackage_sound (logReport_sound ht)))

theorem scrubCore_sound {c} (hs : s.Sound) : (scrubCore c s).Sound := clearPlaces_wf _ _ hs

theorem execSelfTestComplete_sound (hs : s.Sound) : SoundOut (execSelfTestComplete s) := by
  unfold execSelfTestComplete
  dsimp only
  split
  · exact .next hs
  · exact .ite (.next hs) (.next (modCore_sound
        (scrubCore_sound (foldl_sound (fun _ _ hs1 => setBank_sound hs1) hs))))

theorem scrubNear_sound {d} (hs : s.Sound) : (scrubNear d s).Sound := clearPlaces_wf _ _ hs

theorem execFunctionReady_sound (hs : s.Sound) : SoundOut (execFunctionReady s) :=
  .ite (.next hs) (.next (modHost_sound (.ite (foldl_sound (fun _ _ hs1 => hs1) (.ite (scrubNear_sound hs) hs))
      (.ite (scrubNear_sound hs) hs))))

/-! ### Operations of `Machine/Host` -/

theorem writeWindow_sound {r w} (hs : s.Sound) : (writeWindow r w s).Sound := by
  unfold writeWindow
  split
  · exact hs
  · exact hs
  · exact hs
  · exact hs
  · exact hs
  · exact hs
  · exact hs
  · exact hs
  · exact hs
  · exact hs
  · exact setBank_sound hs
  · exact setBank_sound hs
  · exact hs
  · exact hs
  · exact .ite hs hs
  · exact hs
  · exact hs
  · exact hs
  · exact hs
  · exact hs
  · exact hs
  · exact hs
  · exact hs
  · exact hs

theorem execRegisterWindowWrite_sound (hs : s.Sound) : SoundOut (execRegisterWindowWrite s) := by
  unfold execRegisterWindowWrite
  dsimp only
  split
  · exact .next (.ite hs (writeWindow_sound hs))
  · exact .next (.ite (writeWindow_sound hs) hs)

theorem giveAnswer_sound {a} (hs : s.Sound) : (giveAnswer a s).Sound := hs

theorem execPeerAccessToNearMemory_sound (hs : s.Sound) : SoundOut (execPeerAccessToNearMemory s) := by
  unfold execPeerAccessToNearMemory
  dsimp only
  split
  · exact .ite .fault (.next hs)
  · exact .ite .fault (.next (performCells_sound hs))
  · exact .ite .fault (.ite (.next hs) (.next (giveAnswer_sound (performNat_sound hs))))

theorem attest_sound {a} (hs : s.Sound) : SoundOut (attest a s) := .next hs

theorem execCounterBankClaim_sound (hs : s.Sound) : SoundOut (execCounterBankClaim s) := by
  unfold execCounterBankClaim
  dsimp only
  split <;> exact .ite (.next hs) (.next hs)

theorem execCounterBankRelease_sound (hs : s.Sound) : SoundOut (execCounterBankRelease s) := by
  unfold execCounterBankRelease
  dsimp only
  split <;> exact .ite (.next hs) (.next hs)

theorem countEvents_sound {c} (hs : s.Sound) : (countEvents c s).Sound :=
  foldl_sound (fun s b hs => foldl_snd_sound (p := ([], s)) (fun _ _ hp => snd_ite_sound hp hp) hs) hs

theorem countReason_sound {c h} (hs : s.Sound) : (countReason c h s).Sound := by
  refine modCore_sound ?_
  split
  · exact hs
  · exact snd_ite_sound hs (spillRecord_sound hs)

theorem execPcReasonCycleCount_sound (hs : s.Sound) : SoundOut (execPcReasonCycleCount s) :=
  .next (modCore_sound (countEvents_sound (foldl_sound (fun _ _ hs1 => .ite (countReason_sound hs1) hs1) hs)))

/-! ### Operations of `Machine/Dispatch` -/

theorem exec_sound {i} (hs : s.Sound) : SoundOut (exec i s) := by
  unfold exec
  cases i with
  | add | sub | and | or | xor | shl | shr | shra | min | max | minn | maxn | slt | sltn | mul | mulh | mulhn
    | div | divn | rem | remn => exact scalarOp2_sound hs
  | addC | mvC | addiC | lih => exact scalarOp_sound hs
  | clz | popc | mv | addi | andi | ori | xori | shli | shri | shrai => exact scalarOp1_sound hs
  | faddFp64 | fsubFp64 | fmulFp64 | fdivFp64 | fmaFp64 | fminFp64 | fmaxFp64 | fsqrtFp64 | faddFp32 | fsubFp32
    | fmulFp32 | fdivFp32 | fmaFp32 | fminFp32 | fmaxFp32 | fsqrtFp32 => exact fpScalar_sound hs
  | fcvtFp64 | fcvtFp32 => exact fpConvert_sound hs
  | cmp | kand | kor | kxor | knot | kfromx => exact kOp_sound hs
  | fcmpFp64 | fcmpFp32 => exact fpCompare_sound hs
  | ktox | mvb => exact finish_sound (.bind (awaitRegs_sound hs) fun _ _ hs1 => .ok hs1)
  | prep | prepC => exact prepare_sound hs
  | prepr => exact finish_sound (.bind (awaitRegs_sound hs) fun _ _ hs1 => .ite (.exc hs1) (.ok hs1))
  | jmp | jmpC => exact jump_sound hs
  | br | brC | brn | brnC => exact branch_sound hs
  | call => exact finish_sound (.bind (prepared_sound hs) fun _ _ hs1 => transfer_sound hs1)
  | invb | nop | nopC | rstatStopClear | notechWrite | hint | peerLinkDown | selfTestRequest | pctlTripClear
    | dbgctlRun => exact .next hs
  | trap => exact execTrap_sound hs
  | eret => exact execEret_sound hs
  | halt => exact execHalt_sound hs
  | wait => exact finish_sound (.bind (awaitRegs_sound hs) fun _ _ hs1 => .ite (.wait hs1) (waitRead_sound hs1))
  | isync => exact execIsync_sound hs
  | fence => exact execFence_sound hs
  | bkpt => exact execBkpt_sound hs
  | ld => exact finish_sound (.bind (awaitRegs_sound hs) fun _ _ hs1 => loadGv_sound hs1)
  | st => exact finish_sound (.bind (awaitRegs_sound hs) fun _ _ hs1 => storeGv_sound hs1)
  | ldl | ldlC => exact finish_sound (.bind (awaitRegs_sound hs) fun _ _ hs1 => loadLs_sound hs1)
  | stl | stlC => exact finish_sound (.bind (awaitRegs_sound hs) fun _ _ hs1 => storeLs_sound hs1)
  | amoAdd | amoAnd | amoOr | amoXor | amoMin | amoMax | amoMinn | amoMaxn | amoSwap | amoCas => exact atomic_sound hs
  | crd | crdSync => exact readControl_sound hs
  | cwr | cset | cclr => exact writeControl_sound hs
  | tlbinvVa | tlbinvAsid | tlbinvAllNonglobal | tlbinvAll => exact finish_sound (tlbInvalidate_sound hs)
  | mcStatusClear => exact .next (retireHere_sound (setBank_sound hs))
  | enq => exact execEnq_sound hs
  | deq => exact execDeq_sound hs
  | deqt => exact execDeqt_sound hs
  | launch => exact execLaunch_sound hs
  | wqry => exact execWqry_sound hs
  | gbar => exact execGbar_sound hs
  | exit => exact execExit_sound hs
  | sdef => exact execSdef_sound hs
  | sbind => exact execSbind_sound hs
  | sunb => exact finish_sound (.bind (streamGate_sound hs) fun _ _ hs1 => .ok hs1)
  | chdef => exact execChdef_sound hs
  | chput => exact execChput_sound hs
  | chgetGet => exact execChgetGet_sound hs
  | chgetPeek | chgetTake | chgetTail => exact finish_sound (.bind (noFerry_sound hs) fun _ _ hs1 => chget_sound hs1)
  | rdef => exact execRdef_sound hs
  | rrun => exact execRrun_sound hs
  | rfld | rput | rspawn | rres | rkid | rdone | pres | vrel | settle | vtest | vadd | vsub | vrsub | vmul
    | vmulh | vmulhn | vand | vor | vxor | vshl | vshr | vshra | vmin | vmax | vminn | vmaxn | vmerge | vadc
    | vsbc | vwmul | vaddX | vsubX | vrsubX | vmulX | vmulhX | vmulhnX | vandX | vorX | vxorX | vshlX | vshrX
    | vshraX | vminX | vmaxX | vminnX | vmaxnX | vmergeX | vadcX | vsbcX | vwmulX | vfadd | vfsub | vfmul
    | vfma | vfmin | vfmax | vfdiv | vfrcp | vfrsq | vfsqrt | vfexp | vflog | vfsin | vfcos | vfcvt | vfwmul
    | vfaddX | vfsubX | vfmulX | vfmaX | vfminX | vfmaxX | vfdivX | vcmp | vfcmp | vcmpX | vfcmpX | mand | mor
    | mxor | mnot | mshl | mpop | mfirst | mlast | mset | mclr | vgath | vcomp | vxpnd | vred | vredXd | vscan
    | vslideupZero | vslideupOne | vslideupKeep | vslidednZero | vslidednOne | vslidednKeep | vmvx | vmvs
    | vsplat | vld | vlds | vldx | vst | vsts | vstx | awin | vamo | amerge | vrand | tld | tst | tldp | tzero
    | tmvr | tmvc | mma | mmaC | mman | mdrain | azero => exact issueVector_sound hs
  | lnget => exact execLnget_sound hs
  | fill => exact execFill_sound hs
  | ftload => exact execFtload_sound hs
  | vsetl => exact execVsetl_sound hs
  | vgrant => exact execVgrant_sound hs
  | vfork => exact execVfork_sound hs
  | vjoin => exact execVjoin_sound hs
  | loop => exact execLoop_sound hs
  | vexit => exact finish_sound (.bind (noFerry_sound hs) fun _ _ hs1 => .exc hs1)
  | illegalEncoding => exact finish_sound (.exc hs)
  | tsetl => exact execTsetl_sound hs
  | tclaim => exact execTclaim_sound hs
  | tfree => exact execTfree_sound hs
  | targetPrefetchDone => exact .ite (.next hs) (.next (modHartAt_sound (prefetchBytes_sound hs)))
  | storeElementCommit => exact execStoreElementCommit_sound hs
  | replayComplete => exact execReplayComplete_sound hs
  | copy | copyFill => exact executeCopy_sound hs
  | reduce | allReduce | allGather | broadcast => exact engineOut_sound (runCollective_sound hs)
  | heatThreshold => exact execHeatThreshold_sound hs
  | heatNotificationSend => exact .next (SoundOpt.getD (sendHeat_sound hs) hs)
  | waitWakeup => exact execWaitWakeup_sound hs
  | waitTimeout => exact execWaitTimeout_sound hs
  | launchWindowStore => exact execLaunchWindowStore_sound hs
  | hypervisorLaunchStore => exact execHypervisorLaunchStore_sound hs
  | wharfAdmit => exact execWharfAdmit_sound hs
  | waitCounterRead => exact execWaitCounterRead_sound hs
  | usageCharge => exact execUsageCharge_sound hs
  | groupEnd => exact execGroupEnd_sound hs
  | wqryAnswer => exact execWqryAnswer_sound hs
  | hostPreempt => exact .next (markVictims_sound hs)
  | preempt => exact execPreempt_sound hs
  | restore => exact execRestore_sound hs
  | correctedError => exact .next (dropCorrected_sound (correctError_sound hs))
  | ceThreshold => exact .next (.ite hs hs)
  | containedError => exact execContainedError_sound hs
  | fatalError => exact .next (stopPackage_sound (logReport_sound hs))
  | ucieLinkDown => exact .next (stopPackage_sound (logBank_sound hs))
  | selfTestComplete => exact execSelfTestComplete_sound hs
  | pctlRequest | serdesStateSet => exact .ite (.next hs) (.next hs)
  | powerStateChange => exact .ite (.next hs) (.next (modCore_sound (.ite (scrubCore_sound hs) hs)))
  | thermalTrip => exact .next (modHost_sound (foldl_sound (fun _ _ hs1 => hs1) hs))
  | deviceReset => exact .next (filter_wfFrom _ _ _ hs)
  | functionReady => exact execFunctionReady_sound hs
  | registerWindowWrite => exact execRegisterWindowWrite_sound hs
  | hostNmRead => exact .ite .fault (.next hs)
  | hostNmWrite => exact .ite .fault (.next (performCells_sound hs))
  | getVersion | getCapabilities | negotiateAlgorithms | getDigests | getCertificate | challenge
    | getMeasurements | spdmUnsupportedRequest => exact attest_sound hs
  | dbgctlStop => exact .ite (.next (debugStop_sound hs)) (.next hs)
  | counterBankClaim => exact execCounterBankClaim_sound hs
  | counterBankRelease => exact execCounterBankRelease_sound hs
  | counterOverflow => exact .ite (.next hs) (.ite (.next hs) (.next (modCore_sound (addRecord_sound hs))))
  | pcReasonCycleCount => exact execPcReasonCycleCount_sound hs
  | peerAccessToNearMemory => exact execPeerAccessToNearMemory_sound hs

/-! ### Operations of `Machine/Turns` -/

theorem resolve_sound {i} (hs : s.Sound) : (resolve i s).2.Sound := by
  unfold resolve
  split
  · refine snd_ite_sound hs ?_
    split <;> exact hs
  · exact snd_ite_sound hs (snd_ite_sound hs (snd_ite_sound hs (snd_ite_sound hs (snd_ite_sound hs hs))))
  · exact hs

theorem runFetched_sound {n w} (hs : s.Sound) : SoundOut (runFetched n w s) := by
  unfold runFetched
  split
  · exact exec_sound hs
  · exact exec_sound (resolve_sound hs)

theorem issue_sound (hs : s.Sound) : SoundOut (issue s) := by
  unfold issue
  generalize hr : fetchInstr _ _ _ = r
  cases (hr ▸ fetchInstr_sound hs : r.Sound) with
  | ok hs2 => exact runFetched_sound hs2
  | wait hs2 => exact .next hs2
  | exc hs2 => exact .next (trapFront_sound hs2)
  | contained hs2 => exact .next (contain_sound hs2)
  | stop => exact .fault

theorem holdPontoon_sound {c h} (hs : s.Sound) : (holdPontoon c h s).Sound := .ite hs hs

theorem noteTurn_sound {c h} (hs : s.Sound) : (noteTurn c h s).Sound := hs

theorem frontTurn_sound {c h} (hs : s.Sound) : SoundOut (frontTurn c h s) :=
  .ite (.next hs) (.ite (.next (stall_sound (focus_sound (noteTurn_sound (holdPontoon_sound hs)))))
      (.ite (.next (breakHere_sound (noteTurn_sound (holdPontoon_sound hs))))
      (.ite (.next (breakHere_sound (noteTurn_sound (holdPontoon_sound hs))))
      (issue_sound (focus_sound (noteTurn_sound (holdPontoon_sound hs)))))))

theorem vectorTurn_sound {c h group} (hs : s.Sound) : SoundOut (vectorTurn c h group s) :=
  .ite (stepVectorTo_sound (holdPontoon_sound hs)) (.next hs)

theorem runTurn_sound {t} (hs : s.Sound) : SoundOut (runTurn t s) := by
  unfold runTurn
  split
  · exact frontTurn_sound hs
  · exact vectorTurn_sound hs
  · exact vectorTurn_sound hs
  · exact .next (firmwarePass_sound hs)
  · exact .ite (exec_sound hs) (.next hs)

theorem nextTurn_sound (hs : s.Sound) : SoundOpt Prod.snd (nextTurn s) := by
  unfold nextTurn
  split
  · exact .some hs
  · dsimp only
    generalize (turns s)[s.rr % (turns s).length]? = o
    cases o with
    | none => exact .none
    | some t => exact .some hs

theorem advanceTurn_sound (hs : s.Sound) : SoundOut (advanceTurn s) := by
  refine .ite ?_ ?_
  · generalize State.agenda _ = r
    split
    · exact .fault
    · exact .ite (runTurn_sound hs) (.next hs)
  · generalize hr : nextTurn _ = r
    cases (hr ▸ nextTurn_sound hs : SoundOpt Prod.snd r) with
    | some hs2 => exact runTurn_sound hs2
    | none => exact .next hs

/-! ### Operations of `Machine/Step` -/

theorem step_sound (hs : s.Sound) : SoundOut (step s) := advanceTurn_sound hs

end

/-- Settles O8: no outcome of a step carries a state whose memory has lost its form. -/
theorem memoryStaysCanonical : Obligations.MemoryStaysCanonical := by
  unfold Obligations.MemoryStaysCanonical
  intro s t hs ht
  have h := step_sound hs
  rw [ht] at h
  cases h
  assumption

end Sys2Proof.Machine

namespace Sys2Proof.Machine

/-! ### The fetch (`Machine/Ops`) -/

theorem getD_readPlaces {m : Memory} {n : Nat} (p i : Nat) (h : i < n) (b : Byte) :
    (readPlaces m p n).getD i b = readPlace m (p + i) := by
  induction n generalizing p i with
  | zero => omega
  | succ n ih =>
    cases i with
    | zero => rfl
    | succ i =>
      rw [readPlaces, List.getD_cons_succ, ih (p + 1) i (by omega)]
      congr 1
      omega

theorem readNat_two (m : Memory) (p : Nat) :
    readNat m p 2 = (readPlace m p).toNat + 256 * (readPlace m (p + 1)).toNat := by
  simp [readNat]

theorem fetchBlock_mem (c p : Nat) (s : State) : (fetchBlock c p s).2.mem = s.mem := by
  unfold fetchBlock cacheLine
  split
  · rfl
  · dsimp only
    split
    · rfl
    · split <;> rfl

/-- A line that no cache holds is read from memory. -/
theorem fetchBlock_missing {c p : Nat} {s : State} (h : lookup (s.core c).icache (lineOf p) = none) :
    (fetchBlock c p s).1 = readPlaces s.mem (lineOf p) 64 := by
  unfold fetchBlock
  rw [h]

section
variable {s : State} {cx : Ctx} {va : BitVec 48} {w : Nat} {e : TlbEntry}

theorem fetchHalf_buffered (hw : s.hart.lead.half va = some w) (he : s.hart.lead.page va = some e)
    (h : leafRefuses e.pte .fetch cx.sup = none) : fetchHalf cx va s = .ok w s := by
  unfold fetchHalf
  rw [hw, he]
  simp only [h]

theorem fetchHalf_refused {code : Nat} (hw : s.hart.lead.half va = some w) (he : s.hart.lead.page va = some e)
    (h : leafRefuses e.pte .fetch cx.sup = some code) :
    fetchHalf cx va s = .exc (pageExc code .fetch va.toNat 0 e.level e.pte) 0 s := by
  unfold fetchHalf
  rw [hw, he]
  simp only [h]

theorem fetchHalf_memory {t : State} {p : Nat} (hl : s.hart.lead.half va = none)
    (ht : translate cx .fetch (word va.toNat) 0 s = .ok (p, e) t) (hp : p % 2 = 0)
    (hi : lookup (t.core cx.core).icache (lineOf p) = none) (hq : poisoned (lineOf p) 64 t = false) :
    fetchHalf cx va s = .ok (readNat t.mem p 2) (fetchBlock cx.core p t).2 := by
  unfold fetchHalf
  rw [hl, ht]
  have h0 : lineOf p + p % 64 = p := by unfold lineOf; omega
  simp only [bind_ok, hq, Bool.and_false, Bool.false_eq_true, if_false, fetchBlock_missing hi]
  rw [getD_readPlaces _ _ (by omega), getD_readPlaces _ _ (by omega), ← Nat.add_assoc, h0, readNat_two]

theorem readNat_two_lt (m : Memory) (p : Nat) : readNat m p 2 < 65536 := by
  rw [readNat_two]
  have h0 := (readPlace m p).isLt
  have h1 := (readPlace m (p + 1)).isLt
  omega

/-- The halfwords after the first follow it in turn, the lowest first. -/
theorem fetchInstr_ok {h : Nat} {u : State} (hf : fetchHalf cx va s = .ok h u) :
    fetchInstr cx va s =
      (fetchRest cx (va + 2) u (lengthOf h / 2 - 1)).bind fun r v => .ok (lengthOf h, h + 65536 * r) v := by
  unfold fetchInstr
  rw [hf, bind_ok]

theorem fetchRest_ok {h n : Nat} {u : State} (hf : fetchHalf cx va s = .ok h u) :
    fetchRest cx va s (n + 1) = (fetchRest cx (va + 2) u n).bind fun r v => .ok (h + 65536 * r) v := by
  rw [fetchRest, hf, bind_ok]

theorem lengthOf_none {h : Nat} (hh : h % 4 = 0) : lengthOf h = 0 := by simp [lengthOf, hh]

theorem lengthOf_four {h : Nat} (hh : h % 4 = 1) : lengthOf h = 4 := by simp [lengthOf, hh]

theorem lengthOf_two {h : Nat} (hh : h % 4 = 2) : lengthOf h = 2 := by simp [lengthOf, hh]

theorem lengthOf_eight {h : Nat} (hh : h % 4 = 3) : lengthOf h = 8 := by simp [lengthOf, hh]

section
variable {h0 : Nat} {u0 : State} (hf : fetchHalf cx va s = .ok h0 u0)
include hf

theorem fetchInstr_none (h : h0 % 4 = 0) : fetchInstr cx va s = .ok (0, h0) u0 := by
  rw [fetchInstr_ok hf, lengthOf_none h]
  rfl

theorem fetchInstr_two (h : h0 % 4 = 2) : fetchInstr cx va s = .ok (2, h0) u0 := by
  rw [fetchInstr_ok hf, lengthOf_two h]
  rfl

theorem fetchInstr_four {h1 : Nat} {u1 : State} (hf1 : fetchHalf cx (va + 2) u0 = .ok h1 u1) (h : h0 % 4 = 1) :
    fetchInstr cx va s = .ok (4, h0 + 65536 * h1) u1 := by
  rw [fetchInstr_ok hf, lengthOf_four h, fetchRest_ok hf1]
  rfl

theorem fetchInstr_eight {h1 h2 h3 : Nat} {u1 u2 u3 : State} (hf1 : fetchHalf cx (va + 2) u0 = .ok h1 u1)
    (hf2 : fetchHalf cx (va + 4) u1 = .ok h2 u2) (hf3 : fetchHalf cx (va + 6) u2 = .ok h3 u3) (h : h0 % 4 = 3) :
    fetchInstr cx va s = .ok (8, h0 + 65536 * (h1 + 65536 * (h2 + 65536 * h3))) u3 := by
  have a2 : va + 2 + 2 = va + 4 := by bv_omega
  have a3 : va + 4 + 2 = va + 6 := by bv_omega
  rw [fetchInstr_ok hf, lengthOf_eight h, fetchRest_ok hf1, a2, fetchRest_ok hf2, a3, fetchRest_ok hf3]
  rfl

end
end

/-- Settles O5: a fetched halfword is that of the buffer or of memory, and an instruction is its halfwords in turn. -/
theorem fetchReadsTheBytesAtPc : Obligations.FetchReadsTheBytesAtPc := by
  unfold Obligations.FetchReadsTheBytesAtPc
  intro s cx va
  refine ⟨fun w e hw he => ⟨fetchHalf_buffered hw he, fun _ => fetchHalf_refused hw he⟩,
    fun t p e hl ht hp hi hq => ⟨_, fetchHalf_memory hl ht hp hi hq, fetchBlock_mem _ _ _, readNat_two_lt _ _⟩,
    fun h0 u0 hf => ⟨fetchInstr_none hf, fetchInstr_two hf,
      fun h1 u1 hf1 => ⟨fetchInstr_four hf hf1, fun h2 h3 u2 u3 hf2 hf3 => fetchInstr_eight hf hf1 hf2 hf3⟩⟩⟩

end Sys2Proof.Machine

namespace Sys2Proof.Machine

/-! ### The state after device reset -/

/-- No hart is listed after reset, so that each is as reset leaves it. -/
theorem hartAt_reset (c h : Nat) : State.reset.hartAt c h = Hart.reset := rfl

theorem getX_reset (r : Nat) : Hart.reset.getX r = 0 := by
  unfold Hart.getX
  split <;> rfl

theorem getV_reset (r : Nat) : Hart.reset.getV r = 0 := rfl

theorem getB_reset (b : Nat) : Hart.reset.getB b = TReg.reset := rfl

/-- Settles O6: an absent hart, die or bank reads as its reset value. -/
theorem resetValues : Obligations.ResetValues := by
  unfold Obligations.ResetValues
  refine ⟨rfl, rfl, rfl, rfl, rfl, rfl, rfl, rfl, fun c h _ _ => ?_⟩
  simp only [hartAt_reset]
  exact ⟨rfl, getX_reset, rfl, fun b => by rw [getB_reset]; rfl, rfl, rfl, rfl, getV_reset, rfl, rfl, rfl,
    rfl, rfl, rfl, rfl,
    rfl, rfl⟩

end Sys2Proof.Machine

namespace Sys2Proof.Machine

/-! ## Self-test, power, device reset and function ready

### Places that are cleared -/

theorem lookup_filter_key (m : AMap α) (f : Nat → Bool) (k : Nat) :
    lookup (m.filter fun e => f e.1) k = if f k then lookup m k else none := by
  induction m with
  | nil => simp [lookup]
  | cons e rest ih =>
    obtain ⟨j, u⟩ := e
    by_cases hj : j = k
    · subst hj
      by_cases hf : f j
      · simp [hf, lookup]
      · simp [hf, ih]
    · by_cases hf : f j <;> simp [hf, lookup, hj, ih]

theorem readPlace_filter (m : Memory) (f : Nat → Bool) (q : Nat) :
    readPlace (m.filter fun e => f e.1) q = if f q then readPlace m q else 0 := by
  unfold readPlace lookupD
  rw [lookup_filter_key]
  split <;> rfl

theorem readPlace_clearPlaces_in (m : Memory) {p n q : Nat} (h : p ≤ q) (h' : q < p + n) :
    readPlace (clearPlaces m p n) q = 0 := by
  have hf : (decide (q < p) || decide (p + n ≤ q)) = false := by simp; omega
  rw [clearPlaces, readPlace_filter m (fun k => decide (k < p) || decide (p + n ≤ k)), hf]
  rfl

theorem readPlace_clearPlaces_out (m : Memory) {p n q : Nat} (h : q < p ∨ p + n ≤ q) :
    readPlace (clearPlaces m p n) q = readPlace m q := by
  have hf : (decide (q < p) || decide (p + n ≤ q)) = true := by simpa using h
  rw [clearPlaces, readPlace_filter m (fun k => decide (k < p) || decide (p + n ≤ k)), hf]
  rfl

/-! ### Updates in turn -/

theorem mem_indices {n i : Nat} : i ∈ indices n ↔ i < n := List.mem_range

theorem nodup_indices (n : Nat) : (indices n).Nodup := List.nodup_range

/-- What no update of a list changes. -/
theorem foldl_same {g : State → β} {f : State → α → State} (h : ∀ s a, g (f s a) = g s) (l : List α) (s : State) :
    g (l.foldl f s) = g s := by
  induction l generalizing s with
  | nil => rfl
  | cons a l ih => rw [List.foldl_cons, ih, h]

theorem foldl_modCore_mem (f : Core → Core) (l : List Nat) (s : State) :
    (l.foldl (fun s c => s.modCore c f) s).mem = s.mem :=
  foldl_same (g := State.mem) (f := fun s c => s.modCore c f) (fun _ _ => rfl) l s

theorem foldl_modCore_host (f : Core → Core) (l : List Nat) (s : State) :
    (l.foldl (fun s c => s.modCore c f) s).host = s.host :=
  foldl_same (g := State.host) (f := fun s c => s.modCore c f) (fun _ _ => rfl) l s

theorem foldl_modCore_core_not_mem {f : Core → Core} {l : List Nat} {d : Nat} (h : d ∉ l) (s : State) :
    (l.foldl (fun s c => s.modCore c f) s).core d = s.core d := by
  induction l generalizing s with
  | nil => rfl
  | cons c l ih =>
    rw [List.mem_cons, not_or] at h
    rw [List.foldl_cons, ih h.2, core_modCore_ne _ _ h.1]

theorem foldl_modCore_core_mem {f : Core → Core} {l : List Nat} (hl : l.Nodup) {d : Nat} (h : d ∈ l) (s : State) :
    (l.foldl (fun s c => s.modCore c f) s).core d = f (s.core d) := by
  induction l generalizing s with
  | nil => cases h
  | cons c l ih =>
    rw [List.nodup_cons] at hl
    rw [List.foldl_cons]
    by_cases hd : d = c
    · subst hd
      rw [foldl_modCore_core_not_mem hl.1, core_modCore_same]
    · rw [ih hl.2 ((List.mem_cons.1 h).resolve_left hd), core_modCore_ne _ _ hd]

/-! ### Banks -/

@[simp] theorem bank_setBank_same (s : State) (c b : Nat) (x : Bank) : (s.setBank c b x).bank c b = x := by
  unfold State.setBank State.bank
  split
  · simp
  · simp [State.modDie, State.die]

theorem bank_setBank_ne (s : State) (c : Nat) {b a : Nat} (x : Bank) (h : a ≠ b) :
    (s.setBank c b x).bank c a = s.bank c a := by
  unfold State.setBank State.bank
  split
  · split
    · simp [lookupD_insert_ne _ _ _ h]
    · rfl
  · split
    · rfl
    · simp [State.modDie, State.die, lookupD_insert_ne _ _ _ h]

theorem bank_modCore {f : Core → Core} (hf : ∀ k, (f k).banks = k.banks) (s : State) (d c b : Nat) :
    (s.modCore d f).bank c b = s.bank c b := by
  unfold State.bank
  split
  · by_cases hc : c = d
    · subst hc
      rw [core_modCore_same, hf]
    · rw [core_modCore_ne _ _ hc]
  · rfl

/-- A record of each bank of a list changes each of them once. -/
theorem foldl_setBank_bank_mem {f : Nat → Bank → Bank} {c : Nat} {l : List Nat} (hl : l.Nodup) {b : Nat} (s : State) :
    (l.foldl (fun s b => s.setBank c b (f b (s.bank c b))) s).bank c b =
      if b ∈ l then f b (s.bank c b) else s.bank c b := by
  induction l generalizing s with
  | nil => rfl
  | cons a l ih =>
    rw [List.nodup_cons] at hl
    rw [List.foldl_cons, ih hl.2]
    by_cases hb : b = a
    · subst hb
      simp [hl.1]
    · simp [hb, bank_setBank_ne _ _ _ hb]

theorem setBank_power (s : State) (c b d : Nat) (x : Bank) :
    ((s.setBank c b x).core d).power = (s.core d).power := by
  unfold State.setBank
  split
  · by_cases hd : d = c
    · subst hd
      simp
    · rw [core_modCore_ne _ _ hd]
  · rfl

@[simp] theorem setBank_mem (s : State) (c b : Nat) (x : Bank) : (s.setBank c b x).mem = s.mem := by
  unfold State.setBank
  split <;> rfl

/-! ### A core that is cleared -/

/-- The first `n` bytes of the LS of a core are zero, and every other place is as it was. -/
def LsCleared (c n : Nat) (s t : State) : Prop :=
  (∀ o, o < n → readPlace t.mem (lsPlace c o) = 0) ∧
    ∀ q, (∀ o, o < n → lsPlace c o ≠ q) → readPlace t.mem q = readPlace s.mem q

theorem scrubCore_mem_in (s : State) (c : Nat) {o : Nat} (h : o < 0x400000) :
    readPlace (scrubCore c s).mem (lsPlace c o) = 0 :=
  readPlace_clearPlaces_in _ (by unfold lsPlace; omega) (by unfold lsPlace Config.lsSize; omega)

theorem scrubCore_mem_out (s : State) (c : Nat) {q : Nat} (h : ∀ o, o < 0x400000 → lsPlace c o ≠ q) :
    readPlace (scrubCore c s).mem q = readPlace s.mem q := by
  refine readPlace_clearPlaces_out _ ?_
  by_contra hq
  unfold lsPlace Config.lsSize at hq
  exact h (q - lsPlace c 0) (by unfold lsPlace; omega) (by unfold lsPlace; omega)

theorem LsCleared.of_mem {c n : Nat} {s u t v : State} (h : LsCleared c n s t) (hs : s.mem = u.mem)
    (ht : v.mem = t.mem) :
    LsCleared c n u v := by
  unfold LsCleared
  rw [ht, ← hs]
  exact h

theorem scrubCore_cleared (c : Nat) (s : State) : LsCleared c 0x400000 s (scrubCore c s) :=
  ⟨fun _ => scrubCore_mem_in s c, fun _ => scrubCore_mem_out s c⟩

@[simp] theorem scrubCore_tiles (s : State) (c : Nat) : ((scrubCore c s).core c).tiles = ⟨[], [], [], []⟩ := by
  simp [scrubCore]

@[simp] theorem scrubCore_power (s : State) (c : Nat) : ((scrubCore c s).core c).power = (s.core c).power := by
  simp only [scrubCore, core_modCore_same]
  rfl

@[simp] theorem scrubCore_bank (s : State) (c d b : Nat) : (scrubCore c s).bank d b = s.bank d b := by
  rw [scrubCore, bank_modCore]
  · rfl
  · exact fun _ => rfl

/-- The power state of a core changed. -/
def State.modPower (s : State) (c : Nat) (f : PowerState → PowerState) : State :=
  s.modCore c fun k => { k with power := f k.power }

@[simp] theorem modPower_mem (s : State) (c : Nat) (f : PowerState → PowerState) : (s.modPower c f).mem = s.mem := rfl

@[simp] theorem modPower_power (s : State) (c : Nat) (f : PowerState → PowerState) :
    ((s.modPower c f).core c).power = f (s.core c).power := by simp [State.modPower]

@[simp] theorem modPower_tiles (s : State) (c : Nat) (f : PowerState → PowerState) :
    ((s.modPower c f).core c).tiles = (s.core c).tiles := by simp [State.modPower]

@[simp] theorem modPower_bank (s : State) (c d b : Nat) (f : PowerState → PowerState) :
    (s.modPower c f).bank d b = s.bank d b := by
  rw [State.modPower, bank_modCore]
  exact fun _ => rfl

/-! ### Self-test -/

section
variable {s : State} {n : BitVec 16}

theorem execSelfTestComplete_waits (ht : (s.core s.input.core.toNat).power.test = some n)
    (hg : groupsOn s.input.core.toNat s ≠ []) : execSelfTestComplete s = .next s := by
  simp [execSelfTestComplete, ht, hg]

/-- The record of a self-test in a bank. -/
def testRecord (sig n : Nat) (k : Bank) : Bank :=
  { k with
    status := statusRecord k.status (if decide (sig ≠ 0) then 2 else 0) 0xF0 0 false false
    addr := 0
    misc := word (bit (decide (sig ≠ 0)) * 2 ^ 63 + n * 2 ^ 32 + sig) }

/-- What a self-test leaves in banks 0 to 3. -/
def withTestRecords (c sig n : Nat) (s : State) : State :=
  (indices 4).foldl (fun s b => s.setBank c b (testRecord sig n (s.bank c b))) s

theorem withTestRecords_mem (c sig n : Nat) (s : State) : (withTestRecords c sig n s).mem = s.mem :=
  foldl_same (g := State.mem) (fun _ _ => setBank_mem _ _ _ _) _ _

theorem withTestRecords_power (c sig n : Nat) (s : State) :
    ((withTestRecords c sig n s).core c).power = (s.core c).power :=
  foldl_same (g := fun s => (s.core c).power) (fun _ _ => setBank_power _ _ _ _ _) _ _

theorem withTestRecords_bank (c sig n : Nat) (s : State) {b : Nat} (h : b < 4) :
    (withTestRecords c sig n s).bank c b = testRecord sig n (s.bank c b) := by
  rw [withTestRecords, foldl_setBank_bank_mem (f := fun _ => testRecord sig n) (nodup_indices 4),
    if_pos (mem_indices.2 h)]

/-- What a self-test does to the power state. -/
def PowerState.tested (bad : Bool) (p : PowerState) : PowerState :=
  { p with test := none, outOfService := p.outOfService || bad }

theorem execSelfTestComplete_ends (ht : (s.core s.input.core.toNat).power.test = some n)
    (hg : groupsOn s.input.core.toNat s = []) :
    execSelfTestComplete s = .next ((scrubCore s.input.core.toNat
      (withTestRecords s.input.core.toNat s.input.signature.toNat n.toNat s)).modPower s.input.core.toNat
        (.tested (decide (s.input.signature.toNat ≠ 0)))) := by
  simp only [execSelfTestComplete, ht, hg]
  rfl

end

theorem decide_toNat_ne_zero (w : BitVec n) : decide (w.toNat ≠ 0) = decide (w ≠ 0) := by
  simp [← BitVec.toNat_inj]

theorem testRecord_status (w : BitVec 32) (n : Nat) (k : Bank) :
    (testRecord w.toNat n k).status = BitVec.ofNat 64 (2 ^ 63 + (if w ≠ 0 then 2 * 2 ^ 60 else 0) + 2 ^ 58 +
      wbits k.status 32 16 * 2 ^ 32 + 0xF0 * 2 ^ 16) := by
  by_cases h : w = 0#32
  · simp [testRecord, statusRecord, bit, word, h]
  · have h' : w.toNat ≠ 0 := fun e => h (BitVec.eq_of_toNat_eq e)
    simp [testRecord, statusRecord, bit, word, h, h']

theorem testRecord_misc (w : BitVec 32) (n : Nat) (k : Bank) :
    (testRecord w.toNat n k).misc = BitVec.ofNat 64 ((if w ≠ 0 then 2 ^ 63 else 0) + n * 2 ^ 32 + w.toNat) := by
  by_cases h : w = 0#32
  · simp [testRecord, bit, word, h]
  · have h' : w.toNat ≠ 0 := fun e => h (BitVec.eq_of_toNat_eq e)
    simp [testRecord, bit, word, h, h']

/-! ### Power -/

theorem execPowerStateChange_stays {s : State} (h : powerMoves s.input.core.toNat s = false) :
    execPowerStateChange s = .next s := by
  simp [execPowerStateChange, h]

theorem execPowerStateChange_moves {s : State} (h : powerMoves s.input.core.toNat s = true) :
    execPowerStateChange s = .next ((if (s.core s.input.core.toNat).power.req == 4 then scrubCore s.input.core.toNat s
      else s).modCore s.input.core.toNat fun k => { k with power := { k.power with cur := k.power.req } }) := by
  simp [execPowerStateChange, h]

/-- The cores of a die. -/
theorem mem_dieCores {d k : Nat} : k ∈ (indices 24).map (d * 24 + ·) ↔ k / 24 = d := by
  rw [List.mem_map]
  constructor
  · rintro ⟨i, hi, rfl⟩
    have := mem_indices.1 hi
    omega
  · rintro rfl
    exact ⟨k % 24, mem_indices.2 (by omega), by omega⟩

theorem nodup_dieCores (d : Nat) : ((indices 24).map (d * 24 + ·)).Nodup :=
  (nodup_indices 24).map fun _ _ h => Nat.add_left_cancel h

/-- What a trip does to a core. -/
def Core.tripped (k : Core) : Core := { k with power := { k.power with trip := true, cur := 3 } }

/-- The package with the cores of a die tripped. -/
def tripDie (d : Nat) (s : State) : State :=
  ((indices 24).map (d * 24 + ·)).foldl (fun s c => s.modCore c Core.tripped) s

theorem execThermalTrip_eq (s : State) : execThermalTrip s =
    .next ((tripDie s.input.die.toNat s).modHost fun o => { o with irqs := o.irqs ++ [.thermal s.input.die] }) := by
  unfold tripDie execThermalTrip Config.coresPerDie
  rw [List.foldl_map]
  rfl

theorem tripDie_mem (d : Nat) (s : State) : (tripDie d s).mem = s.mem := foldl_modCore_mem _ _ s

theorem tripDie_host (d : Nat) (s : State) : (tripDie d s).host = s.host := foldl_modCore_host _ _ s

theorem tripDie_core_in (s : State) {d k : Nat} (h : k / 24 = d) : (tripDie d s).core k = (s.core k).tripped :=
  foldl_modCore_core_mem (nodup_dieCores d) (mem_dieCores.2 h) s

theorem tripDie_core_out (s : State) {d k : Nat} (h : k / 24 ≠ d) : (tripDie d s).core k = s.core k :=
  foldl_modCore_core_not_mem (fun hk => h (mem_dieCores.1 hk)) s

/-! ### Device reset and function ready -/

theorem execDeviceReset_mem (s : State) (q : Nat) : readPlace (s.mem.filter fun b => outside b.1) q =
    if 1 ≤ q / 2 ^ 56 ∧ q / 2 ^ 56 ≤ 3 then readPlace s.mem q else 0 := by
  rw [readPlace_filter s.mem outside]
  unfold outside memoryOf
  simp only [Bool.and_eq_true, decide_eq_true_eq]

theorem scrubNear_in (s : State) {d a : Nat} (h : d * 0x60000000 ≤ a) (h' : a < (d + 1) * 0x60000000) :
    readPlace (scrubNear d s).mem (paPlace 0 a) = 0 := by
  have hp : paPlace 0 a = a := by unfold paPlace; omega
  have hd : paPlace 0 (d * Config.nmDie) = d * 0x60000000 := by unfold paPlace Config.nmDie; omega
  have hn : Config.nmDie = 0x60000000 := rfl
  exact readPlace_clearPlaces_in _ (by rw [hp, hd]; exact h) (by rw [hp, hd, hn]; omega)

theorem scrubNear_out (s : State) {d q : Nat}
    (h : ∀ a, d * 0x60000000 ≤ a → a < (d + 1) * 0x60000000 → paPlace 0 a ≠ q) :
    readPlace (scrubNear d s).mem q = readPlace s.mem q := by
  refine readPlace_clearPlaces_out _ ?_
  by_contra hq
  unfold paPlace Config.nmDie at hq
  exact h q (by omega) (by omega) (by unfold paPlace; omega)

theorem lookup_table {f : Nat → α} {l : List Nat} {n : Nat} (h : n ∈ l) :
    lookup (l.map fun n => (n, f n)) n = some (f n) := by
  induction l with
  | nil => cases h
  | cons m l ih =>
    by_cases hm : m = n
    · subst hm
      simp [lookup]
    · simp [lookup, hm, ih ((List.mem_cons.1 h).resolve_left fun e => hm e.symm)]

theorem lookup_defaultFills {n : Nat} (h : n < 32) : lookup defaultFills n = some (Config.defaultHandler n) :=
  lookup_table (mem_indices.2 h)

/-- A core with the default handlers in its fill table. -/
def Core.withFills (k : Core) : Core := { k with land := { k.land with fillTable := defaultFills } }

/-- What a function does as it becomes ready, before its bit is 1. -/
def bringUp (b : Nat) (s : State) : State :=
  let s := if 4 ≤ b ∧ b ≤ 7 then scrubNear (b - 4) s else s
  if b = 56 then (indices 96).foldl (fun s c => s.modCore c Core.withFills) s else s

theorem execFunctionReady_eq {s : State} (hb : s.input.bit.toNat < 58)
    (hr : s.host.ready.getLsbD s.input.bit.toNat = false) : execFunctionReady s =
      .next ((bringUp s.input.bit.toNat s).modHost fun o =>
        { o with ready := o.ready ||| (1 <<< s.input.bit.toNat : BitVec 64) }) := by
  unfold execFunctionReady
  rw [if_neg (by simp [hr]; omega)]
  rfl

theorem bringUp_host (b : Nat) (s : State) : (bringUp b s).host = s.host := by
  unfold bringUp
  dsimp only
  have h : (if 4 ≤ b ∧ b ≤ 7 then scrubNear (b - 4) s else s).host = s.host := by split <;> rfl
  split
  · rw [foldl_modCore_host, h]
  · exact h

theorem bringUp_mem (b : Nat) (s : State) :
    (bringUp b s).mem = (if 4 ≤ b ∧ b ≤ 7 then scrubNear (b - 4) s else s).mem := by
  unfold bringUp
  dsimp only
  split
  · exact foldl_modCore_mem _ _ _
  · rfl

theorem bringUp_fills (s : State) {k : Nat} (hk : k < 96) :
    ((bringUp 56 s).core k).land.fillTable = defaultFills := by
  rw [bringUp, if_pos rfl, if_neg (by decide), foldl_modCore_core_mem (nodup_indices 96) (mem_indices.2 hk)]
  rfl

theorem powerMoves_iff {c : Nat} {s : State} : powerMoves c s = true ↔
    (s.core c).power.trip = false ∧ (s.core c).power.req ≠ (s.core c).power.cur ∧
      ((s.core c).power.req = 4 → groupsOn c s = [] ∧ (s.core c).power.test = none) := by
  simp only [powerMoves, Bool.and_eq_true, Bool.not_eq_true', bne_iff_ne, Bool.or_eq_true, List.isEmpty_iff,
    Option.isNone_iff_eq_none, and_assoc, ne_eq, ← imp_iff_not_or]

theorem selfTest_leaves {s : State} {n : BitVec 16} (ht : (s.core s.input.core.toNat).power.test = some n)
    (hg : groupsOn s.input.core.toNat s = []) : ∃ t, exec .selfTestComplete s = .next t ∧
      LsCleared s.input.core.toNat 0x400000 s t ∧ (t.core s.input.core.toNat).tiles = ⟨[], [], [], []⟩ ∧
      (t.core s.input.core.toNat).power = { (s.core s.input.core.toNat).power with
        test := none
        outOfService := (s.core s.input.core.toNat).power.outOfService || decide (s.input.signature ≠ 0) } ∧
      ∀ b, b < 4 → (t.bank s.input.core.toNat b).status = BitVec.ofNat 64 (2 ^ 63 +
          (if s.input.signature ≠ 0 then 2 * 2 ^ 60 else 0) + 2 ^ 58 +
          wbits (s.bank s.input.core.toNat b).status 32 16 * 2 ^ 32 + 0xF0 * 2 ^ 16) ∧
        (t.bank s.input.core.toNat b).misc = BitVec.ofNat 64 ((if s.input.signature ≠ 0 then 2 ^ 63 else 0) +
          n.toNat * 2 ^ 32 + s.input.signature.toNat) := by
  refine ⟨_, execSelfTestComplete_ends ht hg, (scrubCore_cleared _ _).of_mem (withTestRecords_mem _ _ _ s)
    (modPower_mem _ _ _), ?_, ?_,
    fun b hb => ?_⟩
  · rw [modPower_tiles, scrubCore_tiles]
  · rw [modPower_power, scrubCore_power, withTestRecords_power]
    rw [decide_toNat_ne_zero, PowerState.tested]
  · rw [modPower_bank, scrubCore_bank, withTestRecords_bank _ _ _ _ hb]
    exact ⟨testRecord_status _ _ _, testRecord_misc _ _ _⟩

section
variable {s : State} (ht : (s.core s.input.core.toNat).power.trip = false)
  (hp : (s.core s.input.core.toNat).power.req ≠ (s.core s.input.core.toNat).power.cur)
include ht hp

theorem power_moves (h : (s.core s.input.core.toNat).power.req ≠ 4) :
    exec .powerStateChange s = .next (s.modCore s.input.core.toNat fun k =>
      { k with power := { k.power with cur := (s.core s.input.core.toNat).power.req } }) := by
  refine (execPowerStateChange_moves (powerMoves_iff.2 ⟨ht, hp, fun e => absurd e h⟩)).trans ?_
  rw [if_neg (by simpa using h)]
  rfl

theorem power_off (h : (s.core s.input.core.toNat).power.req = 4) (hg : groupsOn s.input.core.toNat s = [])
    (hn : (s.core s.input.core.toNat).power.test = none) : ∃ t, exec .powerStateChange s = .next t ∧
      LsCleared s.input.core.toNat 0x400000 s t ∧ (t.core s.input.core.toNat).tiles = ⟨[], [], [], []⟩ ∧
      (t.core s.input.core.toNat).power = { (s.core s.input.core.toNat).power with cur := 4 } := by
  refine ⟨_, execPowerStateChange_moves (powerMoves_iff.2 ⟨ht, hp, fun _ => ⟨hg, hn⟩⟩), ?_⟩
  rw [if_pos (by simpa using h)]
  refine ⟨(scrubCore_cleared _ s).of_mem rfl rfl, ?_, ?_⟩
  · rw [core_modCore_same]
    exact scrubCore_tiles s _
  · rw [core_modCore_same, scrubCore_power, h]

end

theorem power_kept {s : State} (h : (s.core s.input.core.toNat).power.req = 4)
    (hg : groupsOn s.input.core.toNat s ≠ [] ∨ (s.core s.input.core.toNat).power.test.isSome = true) :
    exec .powerStateChange s = .next s := by
  refine execPowerStateChange_stays (Bool.eq_false_iff.2 fun hm => ?_)
  obtain ⟨-, -, hoff⟩ := powerMoves_iff.1 hm
  obtain ⟨hg', hn⟩ := hoff h
  simp [hg', hn] at hg

theorem power_tripped {s : State} (h : (s.core s.input.core.toNat).power.trip = true) :
    exec .powerStateChange s = .next s := by
  refine execPowerStateChange_stays (Bool.eq_false_iff.2 fun hm => ?_)
  obtain ⟨hf, -⟩ := powerMoves_iff.1 hm
  exact Bool.false_ne_true (hf.symm.trans h)

theorem thermalTrip_moves (s : State) : ∃ t, exec .thermalTrip s = .next t ∧ t.mem = s.mem ∧
    t.host = { s.host with irqs := s.host.irqs ++ [.thermal s.input.die] } ∧
    (∀ k, k / 24 = s.input.die.toNat → (t.core k).power = { (s.core k).power with trip := true, cur := 3 }) ∧
    ∀ k, k / 24 ≠ s.input.die.toNat → t.core k = s.core k := by
  refine ⟨_, execThermalTrip_eq s, ?_, ?_, fun k hk => ?_, fun k hk => ?_⟩
  · rw [modHost_mem, tripDie_mem]
  · rw [State.modHost, tripDie_host]
  · rw [modHost_core, tripDie_core_in s hk]
    rfl
  · rw [modHost_core, tripDie_core_out s hk]

/-! ### SerDes -/

theorem serdesExists_iff (n : Nat) : serdesExists n = true ↔ n < 6 ∨ 8 ≤ n ∧ n < 12 := by
  simp only [serdesExists, Bool.or_eq_true, decide_eq_true_eq]
  rfl

theorem serdes_set {s : State} (h : s.input.st ≠ 3)
    (he : s.input.link.toNat < 6 ∨ 8 ≤ s.input.link.toNat ∧ s.input.link.toNat < 12) : exec .serdesStateSet s =
      .next (s.modDie s.input.die.toNat fun d => { d with serdes := insert d.serdes s.input.link.toNat s.input.st }) :=
  if_neg (by simpa [(serdesExists_iff _).2 he] using h)

theorem serdes_ignored {s : State}
    (h : s.input.st = 3 ∨ ¬(s.input.link.toNat < 6 ∨ 8 ≤ s.input.link.toNat ∧ s.input.link.toNat < 12)) :
    exec .serdesStateSet s = .next s := by
  rw [← serdesExists_iff] at h
  exact if_pos (by simpa using h)

theorem deviceReset_keeps (s : State) : ∃ t, exec .deviceReset s = .next t ∧ t.cores = [] ∧ t.dies = [] ∧
    t.wharf = State.reset.wharf ∧ t.host = State.reset.host ∧
    (s.Sound → ∀ q, readPlace t.mem q = if 1 ≤ q / 2 ^ 56 ∧ q / 2 ^ 56 ≤ 3 then readPlace s.mem q else 0) :=
  ⟨_, rfl, rfl, rfl, rfl, rfl, fun _ => execDeviceReset_mem s⟩

theorem functionReady_brings {s : State} (hb : s.input.bit.toNat < 58)
    (hr : s.host.ready.getLsbD s.input.bit.toNat = false) : ∃ t, exec .functionReady s = .next t ∧
      t.host = { s.host with ready := s.host.ready ||| (1 <<< s.input.bit.toNat : BitVec 64) } ∧
      (∀ d, d < 4 → s.input.bit.toNat = 4 + d →
        (∀ a, d * 0x60000000 ≤ a → a < (d + 1) * 0x60000000 → readPlace t.mem (paPlace 0 a) = 0) ∧
        ∀ q, (∀ a, d * 0x60000000 ≤ a → a < (d + 1) * 0x60000000 → paPlace 0 a ≠ q) →
          readPlace t.mem q = readPlace s.mem q) ∧
      (s.input.bit.toNat < 4 ∨ 8 ≤ s.input.bit.toNat → t.mem = s.mem) ∧
      (s.input.bit = 56 → ∀ k n, k < 96 → n < 32 →
        lookup (t.core k).land.fillTable n = some (Config.defaultHandler n)) := by
  refine ⟨_, execFunctionReady_eq hb hr, ?_, fun d hd he => ?_, fun h => ?_, fun h k n hk hn => ?_⟩
  · rw [State.modHost, bringUp_host]
  · have hd' : s.input.bit.toNat - 4 = d := by omega
    rw [modHost_mem, bringUp_mem, if_pos (by omega), hd']
    exact ⟨fun _ => scrubNear_in s, fun _ => scrubNear_out s⟩
  · rw [modHost_mem, bringUp_mem, if_neg (by omega)]
  · have h56 : s.input.bit.toNat = 56 := by rw [h]; rfl
    rw [modHost_core, h56]
    exact (congrArg (lookup · n) (bringUp_fills s hk)).trans (lookup_defaultFills hn)

/-- Settles O57: each row by what it does to the core, the die, the memory or the host that it names. -/
theorem serviceResults : Obligations.ServiceResults := by
  unfold Obligations.ServiceResults
  intro s
  exact ⟨rfl, fun _ => execSelfTestComplete_waits, fun _ => selfTest_leaves, fun h => if_neg (Nat.not_le.2 h),
    fun h => if_pos h,
    fun ht hp => ⟨power_moves ht hp, power_off ht hp, power_kept⟩, power_tripped, rfl, thermalTrip_moves s,
    ⟨serdes_set, serdes_ignored⟩, deviceReset_keeps s, functionReady_brings⟩

end Sys2Proof.Machine

namespace Sys2Proof.Machine

/-! ## Fields of words

A field taken out of a word and put back at its place is the word under the mask of the field. -/

theorem testBit_wbits (w : Word) (lo n j : Nat) :
    (wbits w lo n).testBit j = (decide (j < n) && w.getLsbD (lo + j)) := by
  rw [wbits, bits, Nat.testBit_mod_two_pow, Nat.testBit_div_two_pow, BitVec.testBit_toNat]
  congr 2
  omega

theorem wbits_lt (w : Word) (lo n : Nat) : wbits w lo n < 2 ^ n := Nat.mod_lt _ (Nat.two_pow_pos n)

theorem getLsbD_word (n j : Nat) : (word n).getLsbD j = (decide (j < 64) && n.testBit j) := BitVec.getLsbD_ofNat ..

/-- Bit `j` of a number whose low `k` bits are those of a smaller one. -/
theorem testBit_mul_add {a b k : Nat} (h : b < 2 ^ k) (j : Nat) :
    (a * 2 ^ k + b).testBit j = if j < k then b.testBit j else a.testBit (j - k) := by
  rw [Nat.mul_comm]
  exact Nat.testBit_two_pow_mul_add a h j

theorem testBit_mul (a k j : Nat) : (a * 2 ^ k).testBit j = (decide (k ≤ j) && a.testBit (j - k)) := by
  rw [Nat.mul_comm]
  exact Nat.testBit_two_pow_mul ..

theorem and_bits (w : Word) (lo n : Nat) (m : Word)
    (hm : ∀ j < 64, m.getLsbD j = decide (lo ≤ j ∧ j < lo + n)) : word (wbits w lo n * 2 ^ lo) = w &&& m := by
  refine BitVec.eq_of_getLsbD_eq fun j hj => ?_
  rw [getLsbD_word, testBit_mul, testBit_wbits, BitVec.getLsbD_and, hm j hj]
  by_cases h : lo ≤ j
  · rw [Nat.add_sub_cancel' h]
    by_cases h' : j < lo + n
    · simp [h, h', hj, show j - lo < n by omega]
    · simp [h', show ¬ j - lo < n by omega]
  · simp [h]

theorem and_low_bits (w : Word) (n : Nat) (m : Word) (hm : ∀ j < 64, m.getLsbD j = decide (0 ≤ j ∧ j < 0 + n)) :
    word (wbits w 0 n) = w &&& m := by
  rw [← and_bits w 0 n m hm, Nat.pow_zero, Nat.mul_one]

/-- A number in two parts is the word of the upper part, or that of the lower part. -/
theorem word_add {x y k : Nat} (h : y < 2 ^ k) : word (x * 2 ^ k + y) = word (x * 2 ^ k) ||| word y := by
  rw [Nat.mul_comm, Nat.two_pow_add_eq_or_of_lt h]
  exact BitVec.ofNat_or ..

theorem testBit_setBits (w : Nat) {lo n x : Nat} (hx : x < 2 ^ n) (j : Nat) : (setBits w lo n x).testBit j =
    if j < lo then w.testBit j else if j < lo + n then x.testBit (j - lo) else w.testBit j := by
  have hlow : x * 2 ^ lo + w % 2 ^ lo < 2 ^ (lo + n) := by
    have h1 : w % 2 ^ lo < 2 ^ lo := Nat.mod_lt _ (Nat.two_pow_pos lo)
    have h2 : (x + 1) * 2 ^ lo ≤ 2 ^ n * 2 ^ lo := Nat.mul_le_mul_right _ hx
    rw [Nat.add_mul, Nat.one_mul, ← Nat.pow_add, Nat.add_comm n lo] at h2
    omega
  rw [setBits, Nat.mod_eq_of_lt hx, Nat.add_assoc, testBit_mul_add hlow,
    testBit_mul_add (Nat.mod_lt _ (Nat.two_pow_pos lo)),
    Nat.testBit_mod_two_pow, Nat.testBit_div_two_pow]
  by_cases h : j < lo
  · simp [h, show j < lo + n by omega]
  · by_cases h' : j < lo + n
    · simp [h, h']
    · simp [h, h', Nat.sub_add_cancel (Nat.le_of_not_lt h')]

/-- A field of one word put in the place of that of another. -/
theorem word_setBits (w v : Word) (lo n : Nat) (m : Word) (hm : ∀ j < 64, m.getLsbD j = decide (lo ≤ j ∧ j < lo + n)) :
    word (setBits w.toNat lo n (wbits v lo n)) = (w &&& ~~~m) ||| (v &&& m) := by
  refine BitVec.eq_of_getLsbD_eq fun j hj => ?_
  rw [getLsbD_word, testBit_setBits _ (wbits_lt v lo n), testBit_wbits, BitVec.testBit_toNat, BitVec.getLsbD_or,
    BitVec.getLsbD_and, BitVec.getLsbD_and, BitVec.getLsbD_not, hm j hj]
  by_cases h : j < lo
  · simp [h, hj, show ¬ lo ≤ j by omega]
  · rw [Nat.add_sub_cancel' (Nat.le_of_not_lt h)]
    by_cases h' : j < lo + n
    · simp [h, h', hj, show lo ≤ j by omega, show j - lo < n by omega]
    · simp [h, h', hj]

end Sys2Proof.Machine

namespace Sys2Proof.Machine

/-! ## The register window

### What a write carries -/

theorem natToBytes_eq (n w : Nat) : natToBytes n w = (List.range n).map fun j => BitVec.ofNat 8 (w / 256 ^ j) := by
  induction n generalizing w with
  | zero => rfl
  | succ n ih =>
    rw [natToBytes, ih, List.range_succ_eq_map, List.map_cons, List.map_map, Nat.pow_zero, Nat.div_one]
    congr 1
    refine List.map_congr_left fun j _ => ?_
    rw [Function.comp_apply, Nat.div_div_eq_div_mul, Nat.pow_succ, Nat.mul_comm]

theorem bytesToNat_natToBytes (n w : Nat) : bytesToNat (natToBytes n w) = w % 256 ^ n := by
  induction n generalizing w with
  | zero => rw [Nat.pow_zero, Nat.mod_one]; rfl
  | succ n ih =>
    rw [natToBytes, bytesToNat, ih, BitVec.toNat_ofNat, Nat.pow_succ 256, Nat.mul_comm (256 ^ n) 256, Nat.mod_mul]

/-- A state with a write of eight bytes at its input. -/
def windowPut (s : State) (u : WindowUser) (r : WindowReg) (w : Word) : State :=
  { s with input := { s.input with
      user := u, reg := r
      bytes := (List.range 8).map fun j => BitVec.ofNat 8 (w.toNat / 256 ^ j) } }

theorem windowValue_put (s : State) (u : WindowUser) (r : WindowReg) (w : Word) :
    windowValue (windowPut s u r w).input = w := by
  show word (bytesToNat (((List.range 8).map fun j => BitVec.ofNat 8 (w.toNat / 256 ^ j)).take 8)) = w
  rw [← natToBytes_eq, List.take_of_length_le (by rw [natToBytes_eq]; simp), bytesToNat_natToBytes,
    Nat.mod_eq_of_lt (show w.toNat < 256 ^ 8 from w.isLt)]
  exact (BitVec.ofNat_toNat 64 w).trans (BitVec.setWidth_eq w)

theorem write_physical {s : State} {r : WindowReg} {w : Word} (hr : clearedByGuest r = false) :
    exec .registerWindowWrite (windowPut s .physical r w) = .next (writeWindow r w (windowPut s .physical r w)) := by
  show Host.Outcome.next (if clearedByGuest r then _ else writeWindow r (windowValue _) _) = _
  rw [hr, windowValue_put]
  rfl

theorem write_uncleared {s : State} {r : WindowReg} {w : Word} (hr : clearedByGuest r = true) :
    exec .registerWindowWrite (windowPut s .physical r w) = .next (windowPut s .physical r w) := by
  show Host.Outcome.next (if clearedByGuest r then _ else writeWindow r (windowValue _) _) = _
  rw [hr]
  rfl

theorem write_owned {s : State} {v : BitVec 6} {r : WindowReg} {w : Word} (hr : windowOwns v r s = true) :
    exec .registerWindowWrite (windowPut s (.virtual v) r w) =
      .next (writeWindow r w (windowPut s (.virtual v) r w)) := by
  show Host.Outcome.next (if windowOwns v r _ then writeWindow r (windowValue _) _ else _) = _
  rw [windowValue_put]
  exact congrArg _ (if_pos hr)

theorem write_foreign {s : State} {v : BitVec 6} {r : WindowReg} {w : Word} (hr : windowOwns v r s = false) :
    exec .registerWindowWrite (windowPut s (.virtual v) r w) = .next (windowPut s (.virtual v) r w) :=
  congrArg _ (if_neg (Bool.eq_false_iff.1 hr))

theorem write_completes (s : State) (u : WindowUser) (r : WindowReg) (w : Word) :
    ∃ z, exec .registerWindowWrite (windowPut s u r w) = .next z := by
  cases u with
  | physical => exact ⟨_, rfl⟩
  | virtual v => exact ⟨_, rfl⟩

/-- A write of the physical function changes the state by `f`. -/
def WritesAs (s : State) (w : Word) (r : WindowReg) (f : State → State) : Prop :=
  exec .registerWindowWrite (windowPut s .physical r w) = .next (f (windowPut s .physical r w))

theorem writesAs {s : State} {w : Word} {r : WindowReg} {f : State → State} (hr : clearedByGuest r = false)
    (hf : ∀ p : State, writeWindow r w p = f p) : WritesAs s w r f := by
  rw [WritesAs, write_physical hr, hf]

/-! ### Registers of a tenant -/

/-- The registers of a tenant, with what a write of `w` does to it. -/
def tenantWrites (t : BitVec 6) (w : Word) : List (WindowReg × (Tenant → Tenant)) :=
  [(.wgt t, fun x => { x with wgt := w.setWidth 8 }), (.deficit t, fun x => { x with deficit := w }),
   (.lim t, fun x => { x with lim := w.getLsbD 0 }), (.saveBase t, fun x => { x with saveBase := w }),
   (.tbase t, fun x => { x with tbase := w &&& 0x0000FFFFFFFFFFC0 }),
   (.ptbase t, fun x => { x with ptbase := w &&& 0x000FFFFFFFFFF003 }),
   (.asid t, fun x => { x with asid := w.setWidth 16 })]

theorem tbase_field (w : Word) : word (wbits w 6 42 * 64) = w &&& 0x0000FFFFFFFFFFC0 :=
  and_bits w 6 42 _ (by decide)

theorem ptbase_field (w : Word) : word (wbits w 12 40 * 4096 + wbits w 0 2) = w &&& 0x000FFFFFFFFFF003 := by
  have h : wbits w 0 2 < 2 ^ 12 := (wbits_lt w 0 2).trans (by decide)
  have hm : (0x000FFFFFFFFFF000 : Word) ||| 3 = 0x000FFFFFFFFFF003 := by decide
  rw [show 4096 = 2 ^ 12 from rfl, word_add h, and_bits w 12 40 0x000FFFFFFFFFF000 (by decide),
    and_low_bits w 2 3 (by decide), ← BitVec.and_or_distrib_left, hm]

theorem tenantWrites_law (t v : BitVec 6) (w : Word) : ∀ e ∈ tenantWrites t w,
    clearedByGuest e.1 = false ∧ (∀ s, windowOwns v e.1 s = (t == v)) ∧
      ∀ s, writeWindow e.1 w s = s.modTenant t.toNat e.2 := by
  simp only [tenantWrites, List.forall_mem_cons, List.not_mem_nil, false_implies, implies_true, and_true]
  refine ⟨⟨rfl, fun _ => rfl, fun s => ?_⟩, ⟨rfl, fun _ => rfl, fun s => ?_⟩, ⟨rfl, fun _ => rfl, fun s => ?_⟩,
    ⟨rfl, fun _ => rfl, fun s => ?_⟩, ⟨rfl, fun _ => rfl, fun s => ?_⟩, ⟨rfl, fun _ => rfl, fun s => ?_⟩,
    ⟨rfl, fun _ => rfl, fun s => ?_⟩⟩
  · rw [writeWindow, BitVec.ofNat_toNat]
  · rfl
  · rfl
  · rfl
  · rw [writeWindow, tbase_field]
  · rw [writeWindow, ptbase_field]
  · rw [writeWindow, BitVec.ofNat_toNat]

/-! ### Registers of a core -/

theorem bankCtl_field (w : Word) : word (wbits w 16 16 * 2 ^ 16 + wbits w 0 1) = w &&& 0xFFFF0001 := by
  have h : wbits w 0 1 < 2 ^ 16 := (wbits_lt w 0 1).trans (by decide)
  have hm : (0xFFFF0000 : Word) ||| 1 = 0xFFFF0001 := by decide
  rw [word_add h, and_bits w 16 16 0xFFFF0000 (by decide), and_low_bits w 1 1 (by decide),
    ← BitVec.and_or_distrib_left, hm]

theorem clearStatus_eq (w : Word) : clearStatus w = w &&& 0x0000FFFF00FF0000 := by
  have h : wbits w 16 8 * 2 ^ 16 < 2 ^ 32 := by
    have := wbits_lt w 16 8
    omega
  have hm : (0x0000FFFF00000000 : Word) ||| 0x00FF0000 = 0x0000FFFF00FF0000 := by decide
  rw [clearStatus, word_add h, and_bits w 32 16 0x0000FFFF00000000 (by decide), and_bits w 16 8 0x00FF0000 (by decide),
    ← BitVec.and_or_distrib_left, hm]

theorem writeStatus_eq (k : Bank) (w : Word) : k.writeStatus w (w.getLsbD 63) = { k with
    status := ((k.status &&& (if w.getLsbD 63 then 0x0000FFFF00FF0000 else 0xFFFFFFFFFFFFFFFF)) &&&
      ~~~0x0000FFFF00000000) |||
      (w &&& 0x0000FFFF00000000) } := by
  unfold Bank.writeStatus
  rw [word_setBits k.status w 32 16 0x0000FFFF00000000 (by decide)]
  dsimp only
  rw [clearStatus_eq]
  congr 1
  cases w.getLsbD 63
  · have hm : k.status &&& 0xFFFFFFFFFFFFFFFF = k.status := BitVec.and_allOnes
    simp only [Bool.false_eq_true, if_false]
    rw [hm]
  · have hm : (0x0000FFFF00000000 : Word) &&& 0x0000FFFF00FF0000 = 0x0000FFFF00000000 := by decide
    simp only [if_true]
    rw [BitVec.and_or_distrib_right, BitVec.and_assoc w, hm, BitVec.and_assoc, BitVec.and_assoc,
      BitVec.and_comm (~~~_)]

theorem high_field (w : Word) : BitVec.ofNat 4 (wbits w 52 4) = (w >>> 52).setWidth 4 := by
  refine BitVec.eq_of_toNat_eq ?_
  rw [BitVec.toNat_ofNat, BitVec.toNat_setWidth, BitVec.toNat_ushiftRight, Nat.shiftRight_eq_div_pow, wbits, bits,
    Nat.mod_mod]

/-! ### A stopped hart -/

/-- A write to a stopped hart changes it by `f`, and one to another hart leaves it as it is. -/
def StopsAs (s : State) (w : Word) (c h : Nat) (r : WindowReg) (f : Hart → Hart) : Prop :=
  ((s.hartAt c h).run.stopped = true → WritesAs s w r fun s => s.modHartAt c h f) ∧
    ((s.hartAt c h).run.stopped = false → WritesAs s w r fun s => s.modHartAt c h fun x => x)

theorem stopsAs {s : State} {w : Word} {c h : Nat} {r : WindowReg} {f g : Hart → Hart} (hr : clearedByGuest r = false)
    (hw : ∀ p, writeWindow r w p = writeStopped c h g p) (hg : g (s.hartAt c h) = f (s.hartAt c h)) :
    StopsAs s w c h r f := by
  have hp : (windowPut s .physical r w).hartAt c h = s.hartAt c h := rfl
  refine ⟨fun hs => ?_, fun hs => ?_⟩
  · rw [WritesAs, write_physical hr, hw, writeStopped, State.modHartAt, State.modHartAt, hp, hs, if_pos rfl, hg]
  · rw [WritesAs, write_physical hr, hw, writeStopped, State.modHartAt, State.modHartAt, hp, hs]
    rfl

/-- A hart whose entries become those of a list. -/
def Hart.queue (l : List VEntry) (x : Hart) : Hart :=
  { x with vec := { x.vec with held := l.take x.vec.held.length, viq := l.drop x.vec.held.length } }

theorem frontPc_field (w : Word) : BitVec.ofNat 48 (w.toNat / 2 * 2) = w.setWidth 48 &&& 0xFFFFFFFFFFFE := by
  have hm : ∀ j < 48, (0xFFFFFFFFFFFE : BitVec 48).getLsbD j = decide (1 ≤ j) := by decide
  refine BitVec.eq_of_getLsbD_eq fun j hj => ?_
  rw [BitVec.getLsbD_ofNat, BitVec.getLsbD_and, hm j hj, BitVec.getLsbD_setWidth,
    show w.toNat / 2 * 2 = w.toNat / 2 ^ 1 * 2 ^ 1 from rfl, testBit_mul, Nat.testBit_div_two_pow, BitVec.testBit_toNat]
  by_cases h : 1 ≤ j
  · rw [Nat.sub_add_cancel h]
    simp [h, hj]
  · simp [h]

/-- A change of one place of a list reaches no entry that is numbered above it. -/
theorem map_zipIdx_above {f : VEntry → VEntry} {l : List VEntry} {h k : Nat} (hk : 0 < h + k) :
    (l.zipIdx k).map (fun e => if h + e.2 = 0 then f e.1 else e.1) = l := by
  induction l generalizing k with
  | nil => rfl
  | cons a l ih =>
    rw [List.zipIdx_cons, List.map_cons, ih (by omega), if_neg (by omega)]

theorem modEntry_zero {x : Hart} {e : VEntry} {rest : List VEntry} (h : x.vec.held ++ x.vec.viq = e :: rest)
    (f : VEntry → VEntry) : x.modEntry 0 f = x.queue (f e :: rest) := by
  unfold Hart.modEntry Hart.queue
  cases hx : x.vec.held with
  | nil =>
    rw [hx, List.nil_append] at h
    dsimp only
    rw [h, List.zipIdx_cons, List.map_cons, map_zipIdx_above (by simp)]
    rfl
  | cons a held =>
    rw [hx, List.cons_append, List.cons.injEq] at h
    obtain ⟨rfl, rfl⟩ := h
    have hheld : (held.zipIdx 1).map (fun e => if e.2 = 0 then f e.1 else e.1) = held := by
      simpa using map_zipIdx_above (f := f) (l := held) (h := 0) (k := 1) (by simp)
    dsimp only
    rw [map_zipIdx_above (by simp), List.zipIdx_cons, List.map_cons, Nat.zero_add, hheld]
    simp

theorem setVstart_eq {x : Hart} {e : VEntry} {rest : List VEntry} (h : x.vec.held ++ x.vec.viq = e :: rest)
    (hl : ∀ i j, e.instr ≠ .loop i j) (n : Nat) : x.setVstart n = x.queue ({ e with start := n } :: rest) := by
  rw [← modEntry_zero h fun e => { e with start := n }]
  unfold Hart.setVstart Hart.entries
  rw [h]
  split
  · rename_i i j _ he _
    exact absurd (Option.some.inj he) (hl i j)
  · rfl

/-- The entry of a head that stands at an address is the first that does. -/
theorem setVcp_here {x : Hart} {e : VEntry} {rest : List VEntry} (h : x.vec.held ++ x.vec.viq = e :: rest)
    {pc : BitVec 48}
    (he : e.pc = pc) : x.setVcp pc = x := by
  have hk : (e :: rest).findIdx (fun e => e.pc == pc) = 0 := by simp [List.findIdx_cons, he]
  unfold Hart.setVcp Hart.entries
  dsimp only
  rw [h, hk, if_neg (by simp)]
  simp [indices]

theorem setVcp_next {x : Hart} {e e2 : VEntry} {later : List VEntry} (hh : x.vec.held = [])
    (hv : x.vec.viq = e :: e2 :: later)
    (hq : x.ms.stq = []) (hl : ∀ i j, e.instr ≠ .loop i j) {pc : BitVec 48} (he : e.pc ≠ pc) (he2 : e2.pc = pc) :
    x.setVcp pc = { x with vec := { x.vec with viq := e2 :: later } } := by
  have hk : (e :: e2 :: later).findIdx (fun e => e.pc == pc) = 1 := by
    simp [List.findIdx_cons, he2, beq_eq_false_iff_ne.2 he]
  have hd : (indices 1).foldl (fun y _ => y.dropOldest) x = { x with vec := { x.vec with viq := e2 :: later } } := by
    show x.dropOldest = _
    unfold Hart.dropOldest
    rw [hh, hv]
    exact if_pos (by rw [hq]; rfl)
  have hx : x.vec.held ++ x.vec.viq = e :: e2 :: later := by rw [hh, hv, List.nil_append]
  unfold Hart.setVcp Hart.entries
  dsimp only
  rw [hx, hk, if_neg (by simp), hd]
  split
  · rename_i i j hi
    exact absurd (Option.some.inj hi) (hl i j)
  · rfl

theorem setVcp_nowhere {x : Hart} {pc : BitVec 48} (h : ∀ e ∈ x.vec.held ++ x.vec.viq, e.pc ≠ pc) (hx : x.pc ≠ pc) :
    x.setVcp pc = x := by
  have hk : (x.vec.held ++ x.vec.viq).findIdx (fun e => e.pc == pc) = (x.vec.held ++ x.vec.viq).length :=
    List.findIdx_eq_length.2 fun e he => by simpa using h e he
  unfold Hart.setVcp Hart.entries
  dsimp only
  exact if_pos ⟨hk, hx.symm⟩

theorem writeEntry_operand (e : VEntry) (w : Word) {i : Nat} (h : i < 2) :
    writeEntry (BitVec.ofNat 3 i) w e = { e with xs := e.xs.set i w } := by
  have hi : i = 0 ∨ i = 1 := by omega
  rcases hi with rfl | rfl <;> rfl

theorem writeEntry_instr {e : VEntry} {w : Word} {j : Instr} (h : decodeTableWord 64 w.toNat = some j) :
    writeEntry 2 w e = { e with instr := j } := by
  show ({ e with instr := (decodeTableWord 64 w.toNat).getD e.instr } : VEntry) = _
  rw [h]
  rfl

theorem writeEntry_noInstr {e : VEntry} {w : Word} (h : decodeTableWord 64 w.toNat = none) : writeEntry 2 w e = e := by
  show ({ e with instr := (decodeTableWord 64 w.toNat).getD e.instr } : VEntry) = _
  rw [h]
  rfl

theorem wbits_zero (w : Word) (n : Nat) : wbits w 0 n = w.toNat % 2 ^ n := by
  rw [wbits, bits, Nat.pow_zero, Nat.div_one]

theorem wbits_top (w : Word) {lo n : Nat} (h : lo + n = 64) : wbits w lo n = w.toNat / 2 ^ lo := by
  refine Nat.mod_eq_of_lt (Nat.div_lt_of_lt_mul ?_)
  rw [← Nat.pow_add, h]
  exact w.isLt

theorem writeEntry_six (e : VEntry) (w : Word) : writeEntry 6 w e = { e with
    ptbase := BitVec.ofNat 64 (w.toNat % 2 ^ 40 * 4096 + w.toNat / 2 ^ 40 % 4)
    fpctl := BitVec.ofNat 64 (w.toNat / 2 ^ 42 % 2 ^ 9), vl := w.toNat / 2 ^ 51 } := by
  show ({ e with ptbase := word (wbits w 0 40 * 4096 + wbits w 40 2), fpctl := word (wbits w 42 9),
                 vl := wbits w 51 13 } :
    VEntry) = _
  rw [wbits_zero, wbits_top w (by rfl : 51 + 13 = 64)]
  rfl

theorem writeEntry_seven (e : VEntry) (w : Word) : writeEntry 7 w e = { e with
    vtype := BitVec.ofNat 64 (w.toNat % 2 ^ 12), mspace := w.toNat / 2 ^ 12 % 4, sup := w.getLsbD 14
    asid := BitVec.ofNat 64 (w.toNat / 2 ^ 16 % 2 ^ 16) } := by
  show ({ e with vtype := word (wbits w 0 12), mspace := wbits w 12 2, sup := w.getLsbD 14,
                 asid := word (wbits w 16 16) } :
    VEntry) = _
  rw [wbits_zero]
  rfl

/-! ### Counter banks -/

theorem windowOwns_event {v : BitVec 6} {c : CoreNo} {n : BitVec 2} {m : BitVec 3} {s : State} :
    windowOwns v (.counterEvent c n m) s = true ↔
      (s.counterBank c.toNat n.toNat).guest = some v ∧ (s.counterBank c.toNat n.toNat).hyper = false := by
  simp [windowOwns]

theorem windowOwns_status {v : BitVec 6} {c : CoreNo} {n : BitVec 2} {s : State} :
    windowOwns v (.counterStatus c n) s = true ↔ (s.counterBank c.toNat n.toNat).guest = some v := by
  simp [windowOwns]

theorem readOwns_event {v : BitVec 6} {c : CoreNo} {n : BitVec 2} {m : BitVec 3} {s : State} :
    readOwns v (.reg (.counterEvent c n m)) s = true ↔ (s.counterBank c.toNat n.toNat).guest = some v := by
  simp [readOwns]

theorem readOwns_counter {v : BitVec 6} {c : CoreNo} {n : BitVec 2} {m : BitVec 3} {s : State} :
    readOwns v (.counter c n m) s = true ↔ (s.counterBank c.toNat n.toNat).guest = some v := by
  simp [readOwns]

theorem readWindow_foreign {v : BitVec 6} {r : WindowRead} {s : State} (h : readOwns v r s = false) :
    readWindow (.virtual v) r s = 0 :=
  if_neg (Bool.eq_false_iff.1 h)

theorem seenBy_virtual (k : CounterBank) (v : BitVec 6) :
    k.seenBy (.virtual v) = if k.hyper then k.frozen else k.counters := by
  simp [CounterBank.seenBy]

theorem word_flag (n : Nat) (b : Bool) : word (n + bit b * 2 ^ 63) = BitVec.ofNat 64 (n + if b then 2 ^ 63 else 0) := by
  cases b <;> rfl

theorem session_eq (k : CounterBank) (w : Word) :
    (let guest := if w.getLsbD 63 then some (BitVec.ofNat 6 w.toNat) else none
     { k with guest := guest, preempted := w.getLsbD 62 || (k.preempted && guest.isSome && guest == k.guest) }) =
      ({ k with
        guest := if w.getLsbD 63 then some (w.setWidth 6) else none
        preempted := w.getLsbD 62 ||
          (w.getLsbD 63 && k.preempted && k.guest == some (w.setWidth 6)) } : CounterBank) := by
  rw [BitVec.ofNat_toNat]
  cases w.getLsbD 63
  · simp
  · simp [Bool.beq_comm]

/-! ### What a virtual function may not reach -/

/-- The registers that only the physical function holds. -/
def physicalRegs (c : CoreNo) (h : HartNo) (n : BitVec 2) (b : BitVec 4) (m : BitVec 3) : List WindowReg :=
  [.podid, .claim c h, .breakpoint c n, .bankStatus c b, .bankCtl c b, .ringBase c, .ringSize c, .sample c,
    .service c, .frontPc c h, .vcp c h, .vstart c h, .viq c h 0 m, .counterValue c n m, .counterSession c n]

theorem physicalRegs_law (v : BitVec 6) (c : CoreNo) (h : HartNo) (n : BitVec 2) (b : BitVec 4) (m : BitVec 3)
    (s : State) :
    ∀ r ∈ physicalRegs c h n b m, windowOwns v r s = false ∧ readOwns v (.reg r) s = false := by
  simp [physicalRegs, windowOwns, readOwns]

/-- The registers of a tenant, with the bits that each keeps. -/
def tenantMasks (t : BitVec 6) : List (WindowReg × Word) :=
  [(.wgt t, 0xFF), (.deficit t, 0xFFFFFFFFFFFFFFFF), (.lim t, 1), (.saveBase t, 0xFFFFFFFFFFFFFFFF),
    (.tbase t, 0x0000FFFFFFFFFFC0), (.ptbase t, 0x000FFFFFFFFFF003), (.asid t, 0xFFFF)]

theorem word_low (w : Word) (n : Nat) (m : Word) (hm : ∀ j < 64, m.getLsbD j = decide (0 ≤ j ∧ j < 0 + n)) :
    word (BitVec.ofNat n w.toNat).toNat = w &&& m := by
  rw [BitVec.toNat_ofNat, ← wbits_zero, and_low_bits w n m hm]

theorem word_bit (w : Word) : word (bit (w.getLsbD 0)) = w &&& 1 := by
  rw [← and_low_bits w 1 1 (by decide), wbits_zero, ← BitVec.testBit_toNat, Nat.testBit_zero]
  rcases Nat.mod_two_eq_zero_or_one w.toNat with h | h <;> simp [h, bit]

theorem tenantMasks_law (t v : BitVec 6) (w : Word) : ∀ e ∈ tenantMasks t,
    clearedByGuest e.1 = false ∧ (∀ s, readReg .physical e.1 (writeWindow e.1 w s) = w &&& e.2) ∧
      ∀ s, readWindow (.virtual v) (.reg e.1) s = if t == v then readReg .physical e.1 s else 0 := by
  simp only [tenantMasks, List.forall_mem_cons, List.not_mem_nil, false_implies, implies_true, and_true]
  refine ⟨⟨rfl, fun s => ?_, fun _ => rfl⟩, ⟨rfl, fun s => ?_, fun _ => rfl⟩, ⟨rfl, fun s => ?_, fun _ => rfl⟩,
    ⟨rfl, fun s => ?_, fun _ => rfl⟩, ⟨rfl, fun s => ?_, fun _ => rfl⟩, ⟨rfl, fun s => ?_, fun _ => rfl⟩,
    ⟨rfl, fun s => ?_, fun _ => rfl⟩⟩ <;> rw [writeWindow, readReg, tenant_modTenant_same]
  · exact word_low w 8 _ (by decide)
  · exact BitVec.and_allOnes.symm
  · exact word_bit w
  · exact BitVec.and_allOnes.symm
  · exact tbase_field w
  · exact ptbase_field w
  · exact word_low w 16 _ (by decide)

/-- Settles O58: each register by what a write of it changes, who may write it, and what a read of it gives. -/
theorem registerWindowResults : Obligations.RegisterWindowResults := by
  unfold Obligations.RegisterWindowResults
  intro s w t v c h n b m put writes tenantRegs
  have hput : ∀ u r, put u r = windowPut s u r w := fun _ _ => rfl
  have hphysical {r : WindowReg} {f : State → State} (h : WritesAs s w r f) : writes r f := h
  clear_value writes
  have hwrites {r : WindowReg} {f : State → State} (hf : ∀ p, writeWindow r w p = f p)
      (hr : clearedByGuest r = false := by rfl) : writes r f :=
    hphysical (writesAs hr hf)
  refine ⟨fun u r => write_completes s u r w, fun u r => natToBytes_eq 8 _, fun e he => ?tenant, ?podid, ?claim,
    ?breakpoint,
    ?bankCtl, ?bankStatus, fun h4 h20 => ?sample, ?ringBase, ?ringSize, ?service, ?stops, ?counters,
    fun r hr => ?physical,
    fun e he => ?masks⟩
  case tenant =>
    obtain ⟨hr, ho, hw⟩ := tenantWrites_law t v w e he
    refine ⟨hwrites hw hr, fun hv => ?_, fun hv => write_foreign ?_⟩
    · rw [hput, write_owned (by rw [ho, hv, beq_self_eq_true]), hw]
    · rw [ho, beq_eq_false_iff_ne]
      exact hv.symm
  case podid => exact hwrites fun p => by rw [writeWindow, BitVec.ofNat_toNat]
  case breakpoint => exact hwrites fun p => by rw [writeWindow, BitVec.ofNat_toNat, high_field]
  case bankCtl => exact hwrites fun p => by rw [writeWindow, bankCtl_field]
  case bankStatus => exact hwrites fun p => by rw [writeWindow, writeStatus_eq]
  case sample => exact hwrites fun p => if_pos ⟨h4, h20⟩
  case claim | ringBase | ringSize | service => exact hwrites fun p => rfl
  case stops =>
    intro stops x queue pc
    have hstops {r : WindowReg} {f g : Hart → Hart} (hw : ∀ p, writeWindow r w p = writeStopped c.toNat h.toNat g p)
        (hg : g x = f x)
        (hr : clearedByGuest r = false := by rfl) : stops r f :=
      ⟨fun hs => hphysical ((stopsAs hr hw hg).1 hs), fun hs => hphysical ((stopsAs (f := f) hr hw hg).2 hs)⟩
    clear_value stops
    have hpc : BitVec.ofNat 48 w.toNat = pc := BitVec.ofNat_toNat 48 w
    have hvcp {f : Hart → Hart} (hf : x.setVcp pc = f x) : stops (.vcp c h) f :=
      hstops (fun _ => rfl) (by rw [hpc]; exact hf)
    refine ⟨hstops (fun _ => rfl) ?_, fun e rest he => ?_, fun he hx => hvcp (setVcp_nowhere he hx)⟩
    · rw [frontPc_field]
      rfl
    · have hviq {k : BitVec 3} {e' : VEntry} (hk : writeEntry k w e = e') : stops (.viq c h 0 k) (queue (e' :: rest)) :=
        hstops (fun _ => rfl) ((modEntry_zero he _).trans (by rw [hk]; rfl))
      refine ⟨fun hl => hstops (fun _ => rfl)
          ((setVstart_eq he hl _).trans (by rw [wbits_zero, ← BitVec.toNat_setWidth]; rfl)),
        fun i hi => hviq (writeEntry_operand e w hi),
        fun j hj => hviq (writeEntry_instr hj), fun hj => hviq (writeEntry_noInstr hj), hviq rfl, hviq rfl, hviq rfl,
        hviq (writeEntry_six e w), hviq (writeEntry_seven e w), fun hp => hvcp (setVcp_here he hp),
        fun e2 later hh hr hq hl hp hp2 => hvcp ?_⟩
      rw [hh, List.nil_append, hr] at he
      rw [setVcp_next hh he hq hl hp hp2, hr]
  case counters =>
    intro k x bank counter lacks selected event
    have hp (u : WindowUser) (r : WindowReg) : (windowPut s u r w).counterBank c.toNat n.toNat = k := rfl
    have hevent (u : WindowUser) :
        writeWindow event w (windowPut s u event w) = counter selected (windowPut s u event w) := by
      rw [writeWindow, hp, BitVec.ofNat_toNat]
      rfl
    have hforeign {r : WindowReg} (hr : ¬ windowOwns v r s = true) :
        exec .registerWindowWrite (put (.virtual v) r) = .next (put (.virtual v) r) :=
      write_foreign (Bool.eq_false_iff.2 hr)
    refine ⟨?_, fun hg hh => ?_, fun hg => hforeign ?_, fun ha => ?_, ?_, fun hg => ?_, write_uncleared rfl,
      fun hg => ⟨hforeign ?_, readWindow_foreign ?_, readWindow_foreign ?_⟩, fun hg => ⟨?_, ?_⟩⟩
    · exact hphysical ((write_physical rfl).trans (congrArg _ (hevent .physical)))
    · exact (write_owned (windowOwns_event.2 ⟨hg, hh⟩)).trans (congrArg _ (hevent _))
    · rw [windowOwns_event]
      rintro ⟨hg', hh⟩
      rcases hg with hg | hg
      · exact hg hg'
      · exact Bool.false_ne_true (hh.symm.trans hg)
    · refine hphysical ((write_physical rfl).trans (congrArg _ ?_))
      have hx : lookupD k.counters m.toNat Counter.reset = x := rfl
      rw [writeWindow, hp, BitVec.ofNat_toNat, CounterBank.mod, hx]
      simp only [ha]
      rfl
    · refine hphysical ((write_physical rfl).trans (congrArg _ ?_))
      rw [writeWindow, hp]
      exact congrArg (fun k => bank k (windowPut s .physical _ w)) (session_eq k w)
    · exact write_owned (windowOwns_status.2 hg)
    · exact fun ho => hg (windowOwns_status.1 ho)
    · exact Bool.eq_false_iff.2 fun ho => hg (readOwns_event.1 ho)
    · exact Bool.eq_false_iff.2 fun ho => hg (readOwns_counter.1 ho)
    · refine (if_pos (readOwns_event.2 hg)).trans ?_
      rw [readReg, ← seenBy_virtual k v, ← word_flag]
      rfl
    · refine (if_pos (readOwns_counter.2 hg)).trans ?_
      rw [readCounter, ← seenBy_virtual k v, ← word_flag]
      rfl
  case physical =>
    obtain ⟨ho, hr'⟩ := physicalRegs_law v c h n b m s r hr
    exact ⟨write_foreign ho, readWindow_foreign hr'⟩
  case masks =>
    obtain ⟨hr, hw, hv⟩ := tenantMasks_law t v w e he
    refine ⟨⟨_, write_physical hr, hw _⟩, (hv s).trans ?_⟩
    by_cases hvt : v = t
    · subst hvt
      simp only [beq_self_eq_true, if_true]
      rfl
    · rw [if_neg hvt, if_neg (by simpa using fun e : t = v => hvt e.symm)]

end Sys2Proof.Machine

namespace Sys2Proof.Machine

/-! ## CWR, CSET and CCLR -/

section
variable {s : State}

theorem ctlWait_ready (h : ControlReady s) (c : Nat) (sync : Bool) : ctlWait c sync s = .ok () s := by
  unfold ctlWait
  simp only [drains, writesV, h.held, h.viq, h.loop, List.append_nil, List.any_nil, Bool.and_false, Option.isSome_none,
    Bool.false_eq_true, if_false, ite_self]

theorem ctlReady_ready (h : ControlReady s) (i : Instr) (c : Nat) (sync : Bool) : ctlReady i c sync s = .ok () s := by
  have hp : (if ctlPriv c then needsS i s else .ok () s) = .ok () s := by
    split
    · exact needsS_sup i h.sup
    · rfl
  rw [ctlReady, hp, bind_ok, ctlWait_ready h]

/-- Once the waits are over, a write of a control register, other than TLBINV, is that of its fields. -/
theorem writeControl_ready {i : Instr} {x : XReg} {c : BitVec 12} {f : Word → Word → Word × Word}
    (h : ctlReady i c.toNat true s = .ok () s) (hx : Settled [x.toNat] [] s) (hc : c ≠ 0x102) :
    writeControl i x c f s = finish ((writeCtl c.toNat (f (readCtl c.toNat s) (s.hart.getX x.toNat)).1
      (f (readCtl c.toNat s) (s.hart.getX x.toNat)).2 s).bind fun _ s => .ok () (retireHere 4 s)) := by
  unfold writeControl
  rw [h, bind_ok, awaitRegs_settled hx, bind_ok]
  simp only [if_neg hc]

/-- CWR, CSET and CCLR of an index, each with the value that its RW fields take. -/
def writeForms (x : XReg) (c : BitVec 12) (w old : Word) : List (Instr × Word) :=
  [(.cwr x c, w), (.cset x c, old ||| w), (.cclr x c, old &&& ~~~w)]

theorem forall_writeForms {x : XReg} {c : BitVec 12} {w old : Word} {p : Instr × Word → Prop} :
    (∀ row ∈ writeForms x c w old, p row) ↔
      p (.cwr x c, w) ∧ p (.cset x c, old ||| w) ∧ p (.cclr x c, old &&& ~~~w) := by
  simp only [writeForms, List.forall_mem_cons, List.not_mem_nil, false_implies, implies_true, and_true]

theorem exec_writeForms {x : XReg} {c : BitVec 12} {old : Word} (h : ∀ i, ctlReady i c.toNat true s = .ok () s)
    (hx : Settled [x.toNat] [] s) (hc : c ≠ 0x102) (ho : readCtl c.toNat s = old) :
    ∀ row ∈ writeForms x c (s.hart.getX x.toNat) old, ∃ w1c,
      exec row.1 s = finish ((writeCtl c.toNat row.2 w1c s).bind fun _ s => .ok () (retireHere 4 s)) := by
  refine forall_writeForms.2 ⟨⟨s.hart.getX x.toNat, ?_⟩, ⟨s.hart.getX x.toNat, ?_⟩, ⟨0, ?_⟩⟩
  · rw [exec_cwr, execCwr, writeControl_ready (h _) hx hc]
  · rw [exec_cset, execCset, writeControl_ready (h _) hx hc, ho]
  · rw [exec_cclr, execCclr, writeControl_ready (h _) hx hc, ho]

theorem exec_writeForms_ready {x : XReg} {c : BitVec 12} {old : Word} (h : ControlReady s) (hx : Settled [x.toNat] [] s)
    (hc : c ≠ 0x102) (ho : readCtl c.toNat s = old) :
    ∀ row ∈ writeForms x c (s.hart.getX x.toNat) old, ∃ w1c,
      exec row.1 s = finish ((writeCtl c.toNat row.2 w1c s).bind fun _ s => .ok () (retireHere 4 s)) :=
  exec_writeForms (fun i => ctlReady_ready h i _ true) hx hc ho

/-- A write that changes the hart alone. -/
theorem finish_writeCtl {c : Nat} {rw w1c : Word} {f : Hart → Hart} (h : writeCtl c rw w1c s = .ok () (s.modHart f)) :
    finish ((writeCtl c rw w1c s).bind fun _ s => .ok () (retireHere 4 s)) =
      .next (s.modHart fun x => (f x).retire 4) := by
  rw [h, bind_ok, finish_ok, retireHere_modHart]

/-- An index whose write is neither refused nor has an effect beyond the hart. -/
theorem writeCtl_hart {c : Nat} (rw w1c : Word)
    (hc : c ∉ [0x001, 0x008, 0x00C, 0x019, 0x060, 0x061, 0x103, 0x105, 0x108]) :
    writeCtl c rw w1c s = .ok () (s.modHart fun h => h.writeCtl c rw) := by
  simp only [List.mem_cons, List.not_mem_nil, or_false, not_or] at hc
  unfold writeCtl
  split <;> try omega
  rfl

/-- An index that a write leaves as it is. -/
theorem writeCtl_readOnly {c : Nat} (h : Hart) (w : Word)
    (hc : c ∉ [0x000, 0x001, 0x002, 0x008, 0x009, 0x00A, 0x00B, 0x00C, 0x010, 0x011, 0x012, 0x013, 0x020, 0x022,
      0x028, 0x029, 0x02A, 0x050, 0x051, 0x052, 0x053, 0x100, 0x101, 0x104]) :
    h.writeCtl c w = h := by
  simp only [List.mem_cons, List.not_mem_nil, or_false, not_or] at hc
  unfold Hart.writeCtl
  split <;> try omega
  rfl

/-- An index whose write changes the hart alone, in all three forms. -/
theorem exec_writeForms_hart {x : XReg} {c : BitVec 12} {old : Word} {f : Hart → Word → Hart} (h : ControlReady s)
    (hx : Settled [x.toNat] [] s) (hc : c ≠ 0x102) (ho : readCtl c.toNat s = old)
    (hw : ∀ rw w1c, writeCtl c.toNat rw w1c s = .ok () (s.modHart fun h => f h rw)) :
    ∀ row ∈ writeForms x c (s.hart.getX x.toNat) old,
      exec row.1 s = .next (s.modHart fun h => (f h row.2).retire 4) := by
  intro row hr
  obtain ⟨w1c, e⟩ := exec_writeForms_ready h hx hc ho row hr
  rw [e, finish_writeCtl (hw row.2 w1c)]

end

/-! ## The registers that keep every value of their fields -/

theorem lbody_field (w : Word) : word (wbits w 1 47 * 2) = w &&& BitVec.ofNat 64 (2 ^ 48 - 1) &&& ~~~1 := by
  have e := and_bits w 1 47 (0x0000FFFFFFFFFFFE : Word) (by decide)
  rw [Nat.pow_one] at e
  rw [e, BitVec.and_assoc]
  rfl

theorem tbase_mask (w : Word) : word (wbits w 6 42 * 64) = w &&& BitVec.ofNat 64 (2 ^ 48 - 1) &&& ~~~0x3F := by
  rw [tbase_field, BitVec.and_assoc]
  rfl

theorem ptbase_mask (w : Word) :
    word (wbits w 12 40 * 4096 + wbits w 0 2) = w &&& BitVec.ofNat 64 (2 ^ 52 - 1) &&& ~~~0xFFC := by
  rw [ptbase_field, BitVec.and_assoc]
  rfl

theorem controlWrites_plain : ∀ row ∈ controlWrites, row.1 ≠ 0x102 ∧
    row.1.toNat ∉ [0x001, 0x008, 0x00C, 0x019, 0x060, 0x061, 0x103, 0x105, 0x108] := by
  decide

theorem controlWrites_reads {s : State} (h : s.hart.lp.loop = none) :
    ∀ row ∈ controlWrites, readCtl row.1.toNat s = row.2.1 s.hart := by
  have hl : s.hart.lp.lenWord = s.hart.lp.llen.zeroExtend 64 := by
    rw [LoopState.lenWord, h]
    exact BitVec.ofNat_toNat ..
  simp only [controlWrites, List.forall_mem_cons, List.not_mem_nil, false_implies, implies_true, and_true]
  exact ⟨rfl, rfl, rfl, rfl, rfl, rfl, hl, rfl, rfl, rfl, rfl, rfl, rfl, rfl, rfl, rfl, rfl, rfl⟩

theorem controlWrites_writes (h : Hart) (w : Word) :
    ∀ row ∈ controlWrites, h.writeCtl row.1.toNat w = row.2.2 h w := by
  have hlbody := congrArg (fun v => { h with lp := { h.lp with lbody := v } }) (lbody_field w)
  have htpc := congrArg (fun v => { h with tr := { h.tr with tpc := v } }) (lbody_field w)
  have htbase := congrArg (fun v => { h with tr := { h.tr with tbase := v } }) (tbase_mask w)
  have hptbase := congrArg (fun v => { h with ms := { h.ms with ptbase := v } }) (ptbase_mask w)
  simp only [controlWrites, List.forall_mem_cons, List.not_mem_nil, false_implies, implies_true, and_true]
  exact ⟨rfl, rfl, rfl, rfl, rfl, hlbody, rfl, rfl, htpc, htbase, rfl, rfl, rfl, rfl, rfl, rfl, hptbase, rfl⟩

/-- The indices that the obligation lists as read-only. -/
def readOnlyIndices : List (BitVec 12) :=
  [0x003, 0x004, 0x005, 0x018, 0x021, 0x023, 0x024, 0x025, 0x026, 0x027, 0x02B, 0x030, 0x031, 0x032, 0x033, 0x034,
    0x035, 0x036, 0x037, 0x038, 0x039, 0x03A, 0x03B, 0x040, 0x041, 0x054, 0x106, 0x107]

/-- An index whose write changes nothing. -/
def KeptByWrites (c : BitVec 12) : Prop := c ≠ 0x102 ∧
  c.toNat ∉ [0x001, 0x008, 0x00C, 0x019, 0x060, 0x061, 0x103, 0x105, 0x108] ∧
  c.toNat ∉ [0x000, 0x001, 0x002, 0x008, 0x009, 0x00A, 0x00B, 0x00C, 0x010, 0x011, 0x012, 0x013, 0x020, 0x022, 0x028,
    0x029, 0x02A, 0x050, 0x051, 0x052, 0x053, 0x100, 0x101, 0x104]

theorem keptByWrites_vhw (r : VReg) : KeptByWrites (0x0C0 + r.zeroExtend 12) := by
  unfold KeptByWrites
  revert r
  decide

theorem keptByWrites_readOnly : ∀ c ∈ readOnlyIndices, KeptByWrites c := by
  simp [readOnlyIndices, KeptByWrites]

theorem exec_writeForms_readOnly {s : State} {x : XReg} {c : BitVec 12} (h : ControlReady s)
    (hx : Settled [x.toNat] [] s) (hc : KeptByWrites c) :
    ∀ row ∈ writeForms x c (s.hart.getX x.toNat) (readCtl c.toNat s),
      exec row.1 s = .next (s.modHart fun h => h.retire 4) := by
  obtain ⟨hi, hp, hr⟩ := hc
  have hw : ∀ rw w1c, writeCtl c.toNat rw w1c s = .ok () (s.modHart fun h => h) := fun rw w1c => by
    rw [writeCtl_hart rw w1c hp]
    congr 2
    exact funext fun h => writeCtl_readOnly h rw hr
  exact exec_writeForms_hart (f := fun h _ => h) h hx hi (Eq.refl _) hw

/-! ## TCAUSE -/

theorem wbits_congr {v w : Word} {lo n : Nat} (h : ∀ j < n, v.getLsbD (lo + j) = w.getLsbD (lo + j)) :
    wbits v lo n = wbits w lo n := by
  refine Nat.eq_of_testBit_eq fun j => ?_
  rw [testBit_wbits, testBit_wbits]
  by_cases hj : j < n
  · rw [h j hj]
  · simp only [hj, decide_false, Bool.false_and]

/-- TCAUSE with PP and LOCK written. -/
def causeWith (old w : Word) : Word :=
  word (setBits (setBits old.toNat 60 2 (if wbits w 60 2 = 0 then 0 else 1)) 59 1 (bit (w.getLsbD 59)))

theorem getLsbD_causeWith (old w : Word) {j : Nat} (hj : j < 64) : (causeWith old w).getLsbD j =
    if j < 59 then old.getLsbD j else if j < 60 then w.getLsbD 59
      else if j < 62 then (if wbits w 60 2 = 0 then 0 else 1 : Nat).testBit (j - 60) else old.getLsbD j := by
  have hp : (if wbits w 60 2 = 0 then 0 else 1 : Nat) < 2 ^ 2 := by split <;> decide
  have hb : bit (w.getLsbD 59) < 2 ^ 1 := by cases w.getLsbD 59 <;> decide
  have h0 : (bit (w.getLsbD 59)).testBit 0 = w.getLsbD 59 := by cases w.getLsbD 59 <;> rfl
  rw [causeWith, getLsbD_word, testBit_setBits _ hb, testBit_setBits _ hp, BitVec.testBit_toNat]
  by_cases h59 : j < 59
  · simp [hj, h59, show j < 60 by omega]
  · by_cases h60 : j < 60
    · obtain rfl : j = 59 := by omega
      rw [decide_eq_true hj, Bool.true_and, if_neg (by decide), if_pos (by decide), Nat.sub_self, h0,
        if_neg (by decide), if_pos (by decide)]
    · simp [hj, h59, h60]

theorem causeWith_lock (old w : Word) : (causeWith old w).getLsbD 59 = w.getLsbD 59 := by
  rw [getLsbD_causeWith old w (by decide)]
  rfl

theorem causeWith_unlocked {old w : Word} (h : w.getLsbD 59 = false) :
    causeWith old w &&& ~~~(1 <<< 59 : Word) = causeWith old w := by
  refine BitVec.eq_of_getLsbD_eq fun j hj => ?_
  rw [BitVec.getLsbD_and]
  by_cases h59 : j = 59
  · have hc : (causeWith old w).getLsbD 59 = false := (causeWith_lock old w).trans h
    rw [h59, hc, Bool.false_and]
  · have hm : ∀ j < 64, j ≠ 59 → (~~~(1 <<< 59 : Word)).getLsbD j = true := by decide
    rw [hm j hj h59, Bool.and_true]

theorem causeWith_low (old w : Word) {n : Nat} (hn : n ≤ 59) : wbits (causeWith old w) 0 n = wbits old 0 n :=
  wbits_congr fun j hj => by rw [getLsbD_causeWith old w (by omega), if_pos (by omega)]

theorem causeWith_high (old w : Word) : wbits (causeWith old w) 62 2 = wbits old 62 2 :=
  wbits_congr fun j hj => by
    rw [getLsbD_causeWith old w (by omega), if_neg (by omega), if_neg (by omega), if_neg (by omega)]

theorem causeWith_pp (old w : Word) : wbits (causeWith old w) 60 2 = if wbits w 60 2 = 0 then 0 else 1 := by
  have hp : (if wbits w 60 2 = 0 then 0 else 1 : Nat) < 2 ^ 2 := by split <;> decide
  refine Nat.eq_of_testBit_eq fun j => ?_
  rw [testBit_wbits]
  by_cases hj : j < 2
  · rw [getLsbD_causeWith old w (by omega), if_neg (by omega), if_neg (by omega), if_pos (by omega)]
    simp [hj]
  · simp only [hj, decide_false, Bool.false_and]
    exact (Nat.testBit_lt_two_pow (hp.trans_le (Nat.pow_le_pow_right (by decide) (by omega)))).symm

/-- Clearing LOCK releases the held entries, with a TCAUSE of the same CAUSE. -/
theorem unlock_eq_released (h : Hart) {c : Word} (hc : c &&& ~~~(1 <<< 59 : Word) = c)
    (h8 : wbits c 0 8 = wbits h.tr.tcause 0 8) :
    Hart.unlock { h with tr := { h.tr with tcause := c } } = h.released c := by
  have hr : Hart.reissued { h with tr := { h.tr with tcause := c } } = h.reissued := by
    unfold Hart.reissued
    simp only [h8]
  unfold Hart.unlock
  rw [hr, hc]
  rfl

theorem writeCause_eq (h : Hart) (w : Word) : h.writeCause w =
    if w.getLsbD 59 then { h with tr := { h.tr with tcause := causeWith h.tr.tcause w } }
    else h.released (causeWith h.tr.tcause w) := by
  unfold Hart.writeCause
  by_cases hl : w.getLsbD 59 = true
  · rw [if_pos hl, if_pos hl]
    rfl
  · have hc := causeWith_unlocked (old := h.tr.tcause) (Bool.eq_false_iff.2 hl)
    have h8 : wbits (causeWith h.tr.tcause w) 0 8 = wbits h.tr.tcause 0 8 := causeWith_low _ _ (by decide)
    rw [if_neg hl, if_neg hl, ← unlock_eq_released h hc h8]
    rfl

/-- TCAUSE needs no more than S: it is neither of the loop, of AMAXn nor a VHWn. -/
theorem ctlReady_tcause {s : State} (h : s.hart.tr.sup = true) (i : Instr) :
    ctlReady i (0x022 : BitVec 12).toNat true s = .ok () s := by
  rw [ctlReady, if_pos (by decide), needsS_sup i h, bind_ok]
  rfl

theorem exec_writeForms_tcause {s : State} {x : XReg} (h : s.hart.tr.sup = true) (hx : Settled [x.toNat] [] s) :
    ∀ row ∈ writeForms x 0x022 (s.hart.getX x.toNat) s.hart.tr.tcause,
      exec row.1 s = .next (s.modHart fun h => (h.writeCause row.2).retire 4) := by
  intro row hr
  obtain ⟨w1c, e⟩ := exec_writeForms (ctlReady_tcause h) hx (by decide) rfl row hr
  have hw : writeCtl (0x022 : BitVec 12).toNat row.2 w1c s = .ok () (s.modHart fun h => h.writeCause row.2) := rfl
  rw [e, finish_writeCtl hw]

/-! ## Registers with limits -/

section
variable {s : State} {x : XReg}

/-- The trap of a refused write. -/
def RefusesWrite (s : State) (i : Instr) (value index : Word) : Prop := CanTrap s →
  ∃ t, exec i s = .next t ∧ TakesTrap false { code := 0x11, info0 := value, info1 := index } s.hart.pc s t

theorem refusesWrite {i : Instr} {c : Nat} {rw w1c value : Word} (hi : exec i s =
      finish ((writeCtl c rw w1c s).bind fun _ s => .ok () (retireHere 4 s)))
    (hw : writeCtl c rw w1c s = raise (formatExc value c) s) : RefusesWrite s i value (word c) := by
  intro h
  rw [hi, hw, raise_bind]
  exact raise_taken h _

theorem writeCtl_vtype {rw : Word} (w1c : Word) (h : wbits rw 0 4 ≠ 15) (h' : wbits rw 8 4 ≠ 15) :
    writeCtl 0x001 rw w1c s = .ok () (s.modHart fun h => { h with vec := { h.vec with vtype := rw &&& 0xF1F } }) := by
  unfold writeCtl
  exact if_neg (not_or_intro h h')

theorem writeCtl_vtype_format {rw : Word} (w1c : Word) (h : wbits rw 0 4 = 15 ∨ wbits rw 8 4 = 15) :
    writeCtl 0x001 rw w1c s = raise (formatExc (rw &&& 0xF1F) 0x001) s := by
  unfold writeCtl
  exact if_pos h

theorem writeCtl_fpctl {rw : Word} (w1c : Word) (h : wbits rw 0 3 < 6) :
    writeCtl 0x008 rw w1c s = .ok () (s.modHart fun h => { h with fp := { h.fp with ctl := rw.setWidth 9 } }) := by
  unfold writeCtl
  exact if_neg (by omega)

theorem writeCtl_fpctl_format {rw : Word} (w1c : Word) (h : 6 ≤ wbits rw 0 3) :
    writeCtl 0x008 rw w1c s = raise (formatExc (rw &&& 0x1FF) 0x008) s := by
  unfold writeCtl
  exact if_pos h

theorem modHart_congr {f g : Hart → Hart} (h : f s.hart = g s.hart) : s.modHart f = s.modHart g := by
  rw [State.modHart, h]
  rfl

/-- A hart with nothing in flight changes as if its stores had not been looked at. -/
theorem drain_modHart (h : Idle s) (f : Hart → Hart) : (drain s.here s.me s).modHart f = s.modHart f := by
  have hq : (s.hartAt s.here s.me).ms.stq = [] := h.stq
  unfold drain
  simp only [hq, commitAll]
  split
  · rfl
  · have hl : ((s.modHart fun x => x.setStq []).core s.here).land.entries = [] := by
      rw [(OnlyHart.modHart s fun x => x.setStq []).landing]
      exact h.landing
    rw [modHartAt_self, sweep_empty hl, modHart_modHart]
    refine modHart_congr ?_
    rw [hart_setStq_self _ h.stq]

theorem awaitHeld_empty {n : Nat} {p : VEntry → Bool} (h : s.hart.vec.held = []) : awaitHeld n p s = .ok () s := by
  simp only [awaitHeld, Hart.heldEarlier, h, List.drop_nil, ite_self, List.any_nil, Bool.false_eq_true, if_false]

/-- DET and CTHR written. -/
def Hart.withTurns (rw : Word) (h : Hart) : Hart :=
  { h with lp := { h.lp with cthr := BitVec.ofNat 13 (Nat.min (wbits rw 16 13) 4096), det := rw.getLsbD 0 } }

theorem writeCtl_det {rw : Word} (w1c : Word) (hd : rw.getLsbD 0 = s.hart.lp.det ∨ Idle s) :
    writeCtl 0x00C rw w1c s = .ok () (s.modHart (Hart.withTurns rw)) := by
  have hw : writeCtl 0x00C rw w1c s = if rw.getLsbD 0 = s.hart.lp.det then .ok () (s.modHart (Hart.withTurns rw)) else
      (waitVector 7 s).bind fun _ s => (releaseHere 7 s).bind fun _ s =>
        (awaitHeld 7 VEntry.memory s).bind fun _ s => .ok () (s.modHart (Hart.withTurns rw)) := rfl
  by_cases he : rw.getLsbD 0 = s.hart.lp.det
  · rw [hw, if_pos he]
  · have hi : Idle s := hd.resolve_left he
    have hh : (drain s.here s.me s).hart = s.hart := (drain_idle hi).hart
    have hr : releaseHere 7 s = .ok () (drain s.here s.me s) := by
      simp only [releaseHere, hh, hi.stq, List.isEmpty_nil, if_true]
    have ha : awaitHeld 7 VEntry.memory (drain s.here s.me s) = .ok () (drain s.here s.me s) :=
      awaitHeld_empty (hh ▸ hi.held)
    rw [hw, if_neg he, waitVector_empty 7 hi.viq, bind_ok, hr, bind_ok, ha, bind_ok, drain_modHart hi]

theorem turns_word (n : BitVec 13) (b : Bool) :
    word (n.toNat * 2 ^ 16 + bit b) = n.zeroExtend 64 <<< 16 ||| if b then 1 else 0 := by
  have hb : bit b < 2 ^ 16 := by cases b <;> decide
  have hn : word (n.toNat * 2 ^ 16) = n.zeroExtend 64 <<< 16 := by
    refine BitVec.eq_of_toNat_eq ?_
    rw [BitVec.toNat_shiftLeft, BitVec.toNat_setWidth, Nat.mod_eq_of_lt (n.isLt.trans (by decide)), Nat.shiftLeft_eq]
    exact BitVec.toNat_ofNat ..
  have hd : word (bit b) = if b then 1 else 0 := by cases b <;> rfl
  rw [word_add hb, hn, hd]

theorem writeCtl_bankCtl (rw w1c : Word) : writeCtl 0x108 rw w1c s = .ok () (s.setBank s.here s.hart.run.mcsel.toNat
    { s.bank s.here s.hart.run.mcsel.toNat with ctl := rw &&& 0xFFFF0001 }) := by
  rw [← bankCtl_field]
  rfl

theorem writeCtl_mspace (rw w1c : Word) : writeCtl 0x002 rw w1c s = .ok () (s.modHart fun h =>
    if wbits rw 0 2 = 3 then h else { h with vec := { h.vec with mspace := rw.setWidth 2 } }) := rfl

theorem writeCtl_mcsel (rw w1c : Word) : writeCtl 0x104 rw w1c s = .ok () (s.modHart fun h =>
    if 4 ≤ wbits rw 0 4 ∧ wbits rw 0 4 ≤ 7 then h
    else { h with run := { h.run with mcsel := rw.setWidth 4 } }) := rfl

end

/-- Settles O25: CWR, CSET and CCLR come to one write of an index (`exec_writeForms`), and what that write does is
read off index by index: the table, the read-only indices, the registers with limits, and TCAUSE. -/
theorem controlWriteResults : Obligations.ControlWriteResults := by
  unfold Obligations.ControlWriteResults
  refine ⟨fun s x h hx => ⟨?keeps, ?vhw, ?readOnly⟩,
    fun s x => ⟨fun h hx => ⟨?vtype, ?fpctl, ?mspace, ?mcsel, ?det, ?bank⟩, ?cause⟩⟩
  case keeps =>
    intro row hr
    obtain ⟨hi, hp⟩ := controlWrites_plain row hr
    have hw : ∀ rw w1c, writeCtl row.1.toNat rw w1c s = .ok () (s.modHart fun h => row.2.2 h rw) := fun rw w1c => by
      rw [writeCtl_hart rw w1c hp]
      exact congrArg (Res.ok ()) (modHart_congr (controlWrites_writes _ rw row hr))
    exact forall_writeForms.1 (exec_writeForms_hart h hx hi (controlWrites_reads h.loop row hr) hw)
  case vhw =>
    intro r
    exact forall_writeForms.1 (exec_writeForms_readOnly h hx (keptByWrites_vhw r))
  case readOnly =>
    intro c hc
    exact forall_writeForms.1 (exec_writeForms_readOnly h hx (keptByWrites_readOnly c hc))
  case vtype =>
    intro row hr
    obtain ⟨w1c, e⟩ := exec_writeForms_ready h hx (by decide) rfl row hr
    refine ⟨fun h4 h8 => ?_, fun h15 => ?_⟩
    · rw [e]
      exact finish_writeCtl (writeCtl_vtype w1c h4 h8)
    · exact refusesWrite e (writeCtl_vtype_format w1c h15)
  case fpctl =>
    intro row hr
    obtain ⟨w1c, e⟩ := exec_writeForms_ready h hx (by decide) rfl row hr
    refine ⟨fun h6 => ?_, fun h6 => ?_⟩
    · rw [e]
      exact finish_writeCtl (writeCtl_fpctl w1c h6)
    · exact refusesWrite e (writeCtl_fpctl_format w1c h6)
  case mspace =>
    intro row hr
    obtain ⟨w1c, e⟩ := exec_writeForms_ready h hx (by decide) rfl row hr
    rw [e]
    exact finish_writeCtl (writeCtl_mspace row.2 w1c)
  case mcsel =>
    intro row hr
    obtain ⟨w1c, e⟩ := exec_writeForms_ready h hx (by decide) rfl row hr
    rw [e]
    exact finish_writeCtl (writeCtl_mcsel row.2 w1c)
  case det =>
    intro row hr hd
    have ho : readCtl (0x00C : BitVec 12).toNat s = _ := turns_word s.hart.lp.cthr s.hart.lp.det
    obtain ⟨w1c, e⟩ := exec_writeForms_ready h hx (by decide) ho row hr
    rw [e]
    exact finish_writeCtl (writeCtl_det w1c hd)
  case bank =>
    intro row hr
    obtain ⟨w1c, e⟩ := exec_writeForms_ready h hx (by decide) rfl row hr
    have hw : writeCtl (0x108 : BitVec 12).toNat row.2 w1c s = _ := writeCtl_bankCtl row.2 w1c
    rw [e, hw, bind_ok, finish_ok]
    rfl
  case cause =>
    intro hf hsup hx row hr
    refine ⟨causeWith s.hart.tr.tcause row.2, ?_, causeWith_pp _ _, causeWith_lock _ _, causeWith_high _ _,
      causeWith_low _ _ (by decide)⟩
    rw [exec_writeForms_tcause hsup hx row hr]
    exact congrArg Host.Outcome.next (modHart_congr (congrArg (Hart.retire · 4) (writeCause_eq _ _)))

end Sys2Proof.Machine

namespace Sys2Proof.Machine

/-! ## Loaded numbers -/

theorem sizeBytes_bounds (z : BitVec 3) : 0 < sizeBytes z ∧ sizeBytes z < 64 := by
  revert z
  decide

theorem sizeBytes_dvd (z : BitVec 3) : sizeBytes z ∣ 64 := by
  revert z
  decide

/-- The signed value of the low `n` bits is that of the bit vector. -/
theorem signedOf_eq (n w : Nat) (hn : 0 < n) : signedOf n w = (BitVec.ofNat n w).toInt := by
  have h2 : 2 ^ n = 2 * 2 ^ (n - 1) := by rw [← Nat.pow_succ', Nat.succ_eq_add_one, Nat.sub_add_cancel hn]
  rw [signedOf, BitVec.toInt_eq_toNat_cond, BitVec.toNat_ofNat]
  by_cases h : w % 2 ^ n < 2 ^ (n - 1)
  · rw [if_pos h, if_pos (by omega)]
  · rw [if_neg h, if_neg (by omega)]

theorem extendLoad_eq (z : BitVec 3) (w : Nat) : extendLoad z w = loaded z w := by
  have hs : ∀ n, 0 < n → BitVec.ofInt 64 (signedOf n w) = (BitVec.ofNat n w).signExtend 64 := fun n hn => by
    rw [signedOf_eq n w hn]
    rfl
  by_cases h : z.toNat ≤ 2
  · have small : ∀ z : BitVec 3, z.toNat ≤ 2 → z = 0 ∨ z = 1 ∨ z = 2 := by decide
    obtain rfl | rfl | rfl := small z h
    · exact hs 8 (by decide)
    · exact hs 16 (by decide)
    · exact hs 32 (by decide)
  · rw [extendLoad, if_neg h, loaded, if_neg (by omega), if_neg (by omega), if_neg (by omega)]
    rfl

theorem numberOf_readPlaces (m : Memory) (p n : Nat) : numberOf (readPlaces m p n) = readNat m p n := by
  induction n generalizing p with
  | zero => rfl
  | succ n ih => exact congrArg ((readPlace m p).toNat + 256 * ·) (ih (p + 1))

theorem drop_readPlaces (m : Memory) (p k n : Nat) : (readPlaces m p (k + n)).drop k = readPlaces m (p + k) n := by
  induction k generalizing p with
  | zero => rw [Nat.zero_add, List.drop_zero, Nat.add_zero]
  | succ k ih =>
    rw [Nat.succ_add]
    exact (ih (p + 1)).trans (congrArg (readPlaces m · n) (by omega))

theorem take_readPlaces (m : Memory) (p : Nat) {n k : Nat} (h : n ≤ k) :
    (readPlaces m p k).take n = readPlaces m p n := by
  induction n generalizing p k with
  | zero => rfl
  | succ n ih =>
    obtain ⟨k, rfl⟩ : ∃ j, k = j + 1 := ⟨k - 1, by omega⟩
    exact congrArg (readPlace m p :: ·) (ih (p + 1) (by omega))

/-- An aligned number of at most a line lies in the line of its place. -/
theorem number_in_line (m : Memory) {p n : Nat} (hd : n ∣ 64) (hp : p % n = 0) :
    numberOf (((readPlaces m (lineOf p) 64).drop (p % 64)).take n) = readNat m p n := by
  have hfit : p % 64 + n ≤ 64 := by
    obtain ⟨a, ha⟩ : n ∣ p % 64 := Nat.dvd_of_mod_eq_zero (by rw [Nat.mod_mod_of_dvd _ hd, hp])
    obtain ⟨b, hb⟩ := hd
    have hlt : n * a < n * b := by
      rw [← ha, ← hb]
      exact Nat.mod_lt _ (by decide)
    have := Nat.mul_le_mul_left n (Nat.lt_of_mul_lt_mul_left hlt)
    rw [Nat.mul_succ] at this
    omega
  have hl : lineOf p + p % 64 = p := by
    unfold lineOf
    omega
  have d := drop_readPlaces m (lineOf p) (p % 64) (64 - p % 64)
  rw [Nat.add_sub_cancel' (by omega), hl] at d
  rw [d, take_readPlaces m p (by omega), numberOf_readPlaces]

/-! ## Loads -/

section
variable {s u : State} {n : Nat}

theorem aligned_ok {addr : Word} (h : addr.toNat % n = 0) : aligned addr n s = .ok () s := by
  rw [aligned, h]
  rfl

theorem awaitHere_clear {p : Nat} (hv : s.hart.vec.viq = []) (hs : s.hart.ms.stq = []) :
    awaitHere p n s = .ok () s := by
  have ht : awaitThese s.here s.me s.hart.lp.det s.hart.ms.stq [(p, n)] s = .ok () s := by rw [hs]; rfl
  rw [awaitHere, ht, bind_ok, awaitVector, hv]
  rfl

theorem loadPlace_clean {c p : Nat} (h : poisoned p n s = false) : loadPlace c p n s = .ok (readNat s.mem p n) s := by
  rw [loadPlace, h]
  rfl

theorem poisoned_congr {p : Nat} (h : u.poison = s.poison) : poisoned p n u = poisoned p n s := by
  rw [poisoned, h]
  rfl

/-- A load from an arena offset that it reaches. -/
theorem loadLs_reaches {off : Word} {z : BitVec 3} (len d : Nat) (h : ReachesLs off (sizeBytes z) s) :
    loadLs len d z off s = .ok () (s.modHart fun h =>
      (h.setX d (loaded z (readNat s.mem (lsPlace s.here (s.arenaBase + off.toNat)) (sizeBytes z)))).retire len) := by
  have hp : lsHere off (sizeBytes z) false s = .ok (lsPlace s.here (s.arenaBase + off.toNat)) s := if_pos h.inside
  simp only [loadLs, aligned_ok h.aligned, bind_ok, hp, awaitHere_clear h.viq h.stq, loadPlace_clean h.clean,
    extendLoad_eq]
  rfl

section
variable {va : Word} {p : Nat} {e : TlbEntry} {k : Access}

theorem Reaches.hart (h : Reaches k va n p e s u) : u.hart = s.hart := (translate_walked h.translated).hart h.waiting

theorem Reaches.poisoned (h : Reaches k va n p e s u) (q m : Nat) : Machine.poisoned q m u = Machine.poisoned q m s :=
  poisoned_congr (translate_walked h.translated).poison

theorem Reaches.here (h : Reaches k va n p e s u) : u.here = s.here := by
  rw [State.here, (translate_walked h.translated).here]
  rfl

theorem Reaches.awaitHere (h : Reaches k va n p e s u) : Machine.awaitHere p n u = .ok () u :=
  awaitHere_clear (by rw [h.hart]; exact h.viq) (by rw [h.hart]; exact h.stq)

/-- The bytes of a load that reaches its place, with the state that reading them leaves. -/
theorem loadGv_reaches {z : BitVec 3} {const : Bool} (d : Nat) (h : Reaches .read va (sizeBytes z) p e s u)
    {t : State} {w : Nat} (hv : (if const then (constLine (lineOf p) u).bind fun b s =>
        .ok (numberOf ((b.drop (p % 64)).take (sizeBytes z))) s
      else loadPlace u.here p (sizeBytes z) u) = .ok w t) :
    loadGv const d z va s = .ok () ((countHere e t).modHart fun h => (h.setX d (loaded z w)).retire 4) := by
  simp only [loadGv, aligned_ok h.aligned, bind_ok, gvHere, h.translated, h.awaitHere, hv, extendLoad_eq]
  rfl

/-- A line that the constant cache does not hold is read, and held while there is room. -/
theorem constLine_fills {l : Nat} (hc : lookup (u.core u.here).ccache l = none) (hp : poisoned l 64 u = false)
    (hm : memoryOf l ≠ 2) (hr : (u.core u.here).ccache.length < 256) :
    constLine l u = .ok (readPlaces u.mem l 64)
      (u.modCore u.here fun k => { k with ccache := insert k.ccache l (readPlaces u.mem l 64) }) := by
  have hf : cacheLine Config.ccacheLines l (readPlaces u.mem l 64) (u.core u.here).ccache u =
      (insert (u.core u.here).ccache l (readPlaces u.mem l 64), u) := if_pos hr
  simp only [constLine, hc, loadPlace_clean hp, bind_ok, if_neg hm, hf]
  rfl

/-- LD of x63 takes the bytes of the line that the constant cache gives. -/
theorem loadGv_const {z : BitVec 3} (d : Nat) (h : Reaches .read va (sizeBytes z) p e s u) (hp : p % sizeBytes z = 0)
    {t : State} (hv : constLine (lineOf p) u = .ok (readPlaces u.mem (lineOf p) 64) t) :
    loadGv true d z va s =
      .ok () ((countHere e t).modHart fun h => (h.setX d (loaded z (readNat u.mem p (sizeBytes z)))).retire 4) :=
  loadGv_reaches (const := true) d h (by rw [if_pos rfl, hv, bind_ok, number_in_line u.mem (sizeBytes_dvd z) hp])

theorem countHere_ccache (hw : u.hart.run.wait = none) (c : Nat) (l : Core → AMap (List Byte)) :
    countHere e (u.modCore c fun k => { k with ccache := l k }) =
      countHeat u.here u.hart.tenantNo e (u.modCore c fun k => { k with ccache := l k }) := by
  rw [countHere, (modCore_ccache_walked u c l).hart hw]
  rfl

theorem exec_ld_const {d : XReg} {z : BitVec 3} {imm : BitVec 9} (h : Settled [d.toNat, (63 : XReg).toNat] [] s) :
    exec (.ld d 63 z imm) s = finish (loadGv true d.toNat z (scalarAddr (s.hart.getX (63 : XReg).toNat) z imm) s) := by
  rw [exec_ld, execLd, awaitRegs_settled h, bind_ok]
  rfl

theorem constLine_hm {l : Nat} (hc : lookup (u.core u.here).ccache l = none) (hp : poisoned l 64 u = false)
    (hm : memoryOf l = 2) : constLine l u = .ok (readPlaces u.mem l 64) u := by
  simp only [constLine, hc, loadPlace_clean hp, bind_ok, if_pos hm]

end

/-! ## Stores -/

theorem storeRoom_empty (h : s.hart.ms.stq = []) : storeRoom s = .ok () s := by
  simp only [storeRoom, h]
  rfl

/-- The entry that a front store queues. -/
def frontStore (p n : Nat) (w : Word) (gv : Option (Word × TlbEntry)) (s : State) : Pending :=
  { cells := cellsOf p n w.toNat, scalar := true
    pin := gv.map fun a => s.pin a.2
    addr := gv.map fun a => ⟨a.1, s.hart.ms.ptbase, s.hart.ms.asid, s.hart.tr.sup⟩ }

theorem queueStore_idle (h : Idle s) (len p : Nat) (w : Word) (gv : Option (Word × TlbEntry)) :
    queueStore len p n w gv s =
      .ok () (retireHere len (enqueueFront s.here s.me 0 (frontStore p n w gv s) s)) := by
  rw [queueStore, storeRoom_empty h.stq, bind_ok, storeFollows_empty p n h.viq]
  rfl

/-- A store of a hart with nothing in flight, whose stores commit at once. -/
theorem queueStore_stores (h : Idle s) (hl : s.hart.vec.lag = false) (hw : s.hart.run.wait = none) (hm : s.Sound)
    (hn : n < 64) (h0 : 0 < n) (len p : Nat) (w : Word) (gv : Option (Word × TlbEntry)) :
    ∃ t, queueStore len p n w gv s = .ok () t ∧ Stores p n w (s.hart.retire len) s t := by
  obtain ⟨v, m⟩ := enqueueFront_walked h hl hw (Q := frontStore p n w gv s) (p := p) (n := n) (w := w.toNat)
    rfl rfl rfl rfl rfl rfl hn h0
  obtain ⟨hb, he⟩ := performNat_reads hm p n w.toNat
  refine ⟨_, queueStore_idle h len p w gv, ?_⟩
  generalize enqueueFront s.here s.me 0 (frontStore p n w gv s) s = t at v m
  have hr : (t.modHart fun x => x.retire len).mem = (performNat p n w.toNat s).mem := m
  refine ⟨(hart_modHart t _).trans (congrArg (Hart.retire · len) (v.hart hw)), fun i hi => ?_, fun q hq => ?_,
    fun c k hk hc => ?_, v.poison, v.wharf, v.host⟩
  · exact (congrArg (readPlace · (p + i)) hr).trans (hb i hi)
  · exact (congrArg (readPlace · q) hr).trans (he q hq)
  · have hk' : c ≠ t.here ∨ k ≠ t.me := by rwa [State.here, State.me, v.here, v.me]
    exact (hartAt_modHart_ne t _ hk').trans (v.harts c k hc)

theorem pushed_fields (b : Bool) (s : State) (d : Nat) (f : Die → Die) (q : Turn) :
    ∃ dies agenda, (if b then (s.modDie d f).push q else s.modDie d f) =
      { s with dies := dies, agenda := agenda } := by
  cases b
  · exact ⟨_, s.agenda, rfl⟩
  · exact ⟨_, _, rfl⟩

/-- Counting a page changes its die and what the die tells, and nothing else. -/
theorem countHeat_fields (c t : Nat) (e : TlbEntry) (s : State) :
    ∃ dies agenda, countHeat c t e s = { s with dies := dies, agenda := agenda } := by
  unfold countHeat
  split
  · exact ⟨s.dies, s.agenda, rfl⟩
  · exact pushed_fields _ s _ _ _

theorem Stores.counted {p : Nat} {w : Word} {x : Hart} {t : State} (h : Stores p n w x u t) (e : TlbEntry) :
    Stores p n w x u (countHere e t) := by
  obtain ⟨dies, agenda, hc⟩ := countHeat_fields t.here t.hart.tenantNo e t
  rw [countHere, hc]
  exact ⟨h.hart, h.bytes, h.elsewhere, h.others, h.poison, h.wharf, h.host⟩

theorem Idle.of_walked (h : Idle s) (v : Walked s u) (hw : s.hart.run.wait = none) : Idle u where
  user := (congrArg (fun m => isFerry m.toNat) v.me).trans h.user
  viq := (v.hart hw).symm ▸ h.viq
  held := (v.hart hw).symm ▸ h.held
  stq := (v.hart hw).symm ▸ h.stq
  landing := by
    have hh : u.here = s.here := by rw [State.here, v.here]; rfl
    rw [hh, v.land]
    exact h.landing

/-- A store to an address that reaches its place. -/
theorem storeGv_reaches {va w : Word} {z : BitVec 3} {p : Nat} {e : TlbEntry} (h : Idle s) (hl : s.hart.vec.lag = false)
    (hm : s.Sound) (hr : Reaches .write va (sizeBytes z) p e s u) :
    ∃ t, storeGv w z va s = .ok () t ∧ Stores p (sizeBytes z) w (s.hart.retire 4) u t := by
  have v := translate_walked hr.translated
  have hu : u.hart = s.hart := hr.hart
  obtain ⟨t, hq, ht⟩ := queueStore_stores (h.of_walked v hr.waiting) (by rw [hu]; exact hl)
    (by rw [hu]; exact hr.waiting) (v.sound hm) (sizeBytes_bounds z).2 (sizeBytes_bounds z).1 4 p w (some (va, e))
  rw [hu] at ht
  refine ⟨countHere e t, ?_, ht.counted e⟩
  simp only [storeGv, aligned_ok hr.aligned, bind_ok, gvHere, hr.translated, hq]

/-- A store to an arena offset inside the arena enters the queue. -/
theorem storeLs_inside {off : Word} {z : BitVec 3} (len : Nat) (w : Word) (ha : off.toNat % sizeBytes z = 0)
    (hi : off.toNat + sizeBytes z ≤ s.arenaSize) : storeLs len w z off s =
      queueStore len (lsPlace s.here (s.arenaBase + off.toNat)) (sizeBytes z) w none s := by
  have hp : lsHere off (sizeBytes z) true s = .ok (lsPlace s.here (s.arenaBase + off.toNat)) s := if_pos hi
  rw [storeLs, aligned_ok ha, bind_ok, hp, bind_ok]

/-- A store where commits take turns of their own: it is all that the queue holds. -/
theorem queueStore_lag (h : Idle s) (hl : s.hart.vec.lag = true) (len p : Nat) (w : Word) :
    queueStore len p n w none s = .ok () (s.modHart fun x =>
      (x.setStq [{ cells := cellsOf p n w.toNat, scalar := true }]).retire len) := by
  have hq : (s.hartAt s.here s.me).ms.stq = [] := h.stq
  have he : enqueueFront s.here s.me 0 (frontStore p n w none s) s =
      s.modHart fun x => x.setStq [{ cells := cellsOf p n w.toNat, scalar := true }] := by
    have hm : (s.modHartAt s.here s.me fun x => x.setStq (x.ms.stq ++
          [{ frontStore p n w none s with after := Nat.max 0 (lastAfter x.ms.stq) }])) =
        s.modHart fun x => x.setStq [{ cells := cellsOf p n w.toNat, scalar := true }] := by
      rw [modHartAt_self]
      refine modHart_congr ?_
      rw [h.stq]
      rfl
    have hlag : (((s.modHart fun x => x.setStq [{ cells := cellsOf p n w.toNat, scalar := true }]).hartAt
        s.here s.me)).vec.lag = true := by
      rw [(OnlyHart.modHart s _).hartAt]
      exact hl
    rw [enqueueFront, hm, drain]
    exact if_pos hlag
  rw [queueStore_idle h, he, retireHere_modHart]

end

/-- Settles O19: a load is its translation, a clear way to its bytes, and their number (`loadGv_reaches`,
`loadLs_reaches`); a store with nothing in flight performs at once (`queueStore_stores`), and is all that the queue
holds where commits take turns (`queueStore_lag`). -/
theorem loadStoreResults : Obligations.LoadStoreResults := by
  unfold Obligations.LoadStoreResults
  refine ⟨fun s u d a z imm p e d4 imm5 =>
      ⟨fun hx hr => ⟨fun ha => ?ld, fun ha hp hc hq => ⟨fun hm hl => ?fills, fun hm => ?hm⟩⟩,
        fun hx hr => ?ldl, fun hx hr => ?ldlC⟩,
    fun s u x a z imm p e x4 imm5 hs => ⟨fun hi hl hr => ?st, fun hi hl hw ha hb => ?stl, fun hi hl hw hb => ?stlC,
      fun hi hl ha hb => ?queued⟩⟩
  case ld =>
    have hv := loadPlace_clean (c := u.here) ((hr.poisoned _ _).trans hr.clean)
    rw [exec_ld, execLd, awaitRegs_settled hx, bind_ok, show (a == 63) = false from beq_false_of_ne ha]
    exact congrArg finish (loadGv_reaches (const := false) d.toNat hr hv)
  case fills =>
    have hc' : lookup (u.core u.here).ccache (lineOf p) = none := by rw [hr.here]; exact hc
    have hl' : (u.core u.here).ccache.length < 256 := by rw [hr.here]; exact hl
    have hv := constLine_fills hc' ((hr.poisoned _ _).trans hq) hm hl'
    rw [ha, exec_ld_const (ha ▸ hx), loadGv_const d.toNat (ha ▸ hr) hp hv, finish_ok,
      countHere_ccache (by rw [hr.hart]; exact hr.waiting)]
    rfl
  case hm =>
    have hc' : lookup (u.core u.here).ccache (lineOf p) = none := by rw [hr.here]; exact hc
    have hv := constLine_hm hc' ((hr.poisoned _ _).trans hq) hm
    rw [ha, exec_ld_const (ha ▸ hx), loadGv_const d.toNat (ha ▸ hr) hp hv, finish_ok]
    rfl
  case ldl =>
    rw [exec_ldl, execLdl, awaitRegs_settled hx, bind_ok]
    exact congrArg finish (loadLs_reaches 4 d.toNat hr)
  case ldlC =>
    rw [exec_ldlC, execLdlC, awaitRegs_settled hx, bind_ok]
    exact congrArg finish (loadLs_reaches (z := 3) 2 d4.toNat hr)
  case st =>
    obtain ⟨t, ht, hs⟩ := storeGv_reaches (w := s.hart.getX x.toNat) hi hl hs hr
    refine ⟨t, ?_, hs⟩
    rw [exec_st, execSt, awaitRegs_settled (hi.settled _ _), bind_ok]
    exact congrArg finish ht
  case stl =>
    obtain ⟨t, ht, hs⟩ := queueStore_stores hi hl hw hs (sizeBytes_bounds z).2 (sizeBytes_bounds z).1 4
      (lsPlace s.here (s.arenaBase + (scalarAddr (s.hart.getX a.toNat) z imm).toNat)) (s.hart.getX x.toNat) none
    refine ⟨t, ?_, hs⟩
    rw [exec_stl, execStl, awaitRegs_settled (hi.settled _ _), bind_ok]
    exact congrArg finish ((storeLs_inside 4 _ ha hb).trans ht)
  case stlC =>
    have hoff : (BitVec.ofNat 64 (8 * imm5.toNat)).toNat % 8 = 0 := by
      rw [BitVec.toNat_ofNat]
      omega
    obtain ⟨t, ht, hs⟩ := queueStore_stores hi hl hw hs (by decide : 8 < 64) (by decide) 2
      (lsPlace s.here (s.arenaBase + (BitVec.ofNat 64 (8 * imm5.toNat)).toNat)) (s.hart.getX x4.toNat) none
    refine ⟨t, ?_, hs⟩
    rw [exec_stlC, execStlC, awaitRegs_settled (hi.settled _ _), bind_ok]
    exact congrArg finish ((storeLs_inside (z := 3) 2 _ hoff hb).trans ht)
  case queued =>
    rw [exec_stl, execStl, awaitRegs_settled (hi.settled _ _), bind_ok]
    have hf := (storeLs_inside 4 (s.hart.getX x.toNat) ha hb).trans (queueStore_lag hi hl 4 _ _)
    exact (congrArg finish hf).trans (congrArg Host.Outcome.next (modHart_congr rfl))

end Sys2Proof.Machine

namespace Sys2Proof

/-! ## The decoder and the encoder (R36 to R48)

A word that `put` has filled is a chain of fields laid end to end, the lowest first (`below`). The bits that a row of the
decoder looks at then lie in one field, or in the fields above it, and no carry has to be followed. -/

/-! ### Fields of a word -/

/-- A field of `n` bits with the rest of a word above it. -/
def below {n : Nat} (x : BitVec n) (hi : Nat) : Nat := x.toNat + 2 ^ n * hi

@[simp] theorem put_literal {n : Nat} (k : Nat) (x : BitVec n) (w : Nat) :
    put (k + 1) x ofNat(w) = below (BitVec.ofNat (k + 1) (OfNat.ofNat w)) (put 0 x (OfNat.ofNat w / 2 ^ (k + 1))) := by
  simp only [put, below, BitVec.toNat_ofNat]
  have := Nat.div_add_mod (OfNat.ofNat w) (2 ^ (k + 1))
  rw [Nat.mul_add]
  grind

@[simp] theorem put_zero_literal {n : Nat} (x : BitVec n) (w : Nat) (h : (OfNat.ofNat w : Nat) % 2 ^ n = 0) :
    put 0 x ofNat(w) = below x (OfNat.ofNat w / 2 ^ n) := by
  unfold put below
  have := Nat.div_add_mod (OfNat.ofNat w) (2 ^ n)
  grind

@[simp] theorem put_below {n m k : Nat} (x : BitVec n) (y : BitVec m) (hi : Nat) (h : m ≤ k) :
    put k x (below y hi) = below y (put (k - m) x hi) := by
  obtain ⟨j, rfl⟩ := Nat.exists_eq_add_of_le h
  simp only [put, below, Nat.add_sub_cancel_left]
  ring

section
variable {n : Nat} (x : BitVec n) (hi : Nat)

theorem below_div {lo : Nat} (h : n ≤ lo) : below x hi / 2 ^ lo = hi / 2 ^ (lo - n) := by
  obtain ⟨j, rfl⟩ := Nat.exists_eq_add_of_le h
  rw [below, Nat.pow_add, ← Nat.div_div_eq_div_mul, Nat.add_mul_div_left _ _ (Nat.two_pow_pos n), Nat.div_eq_of_lt x.isLt,
    Nat.zero_add, Nat.add_sub_cancel_left]

@[simp] theorem bitsAt_above {lo m : Nat} (h : n ≤ lo) : bitsAt lo m (below x hi) = bitsAt (lo - n) m hi := by
  rw [bitsAt, below_div x hi h, bitsAt]

@[simp] theorem bitField_above {lo m : Nat} (h : n ≤ lo) : bitField lo m (below x hi) = bitField (lo - n) m hi := by
  rw [bitField, below_div x hi h, bitField]

@[simp] theorem bitsAt_within {lo m : Nat} (h : lo + m ≤ n) : bitsAt lo m (below x hi) = bitsAt lo m x.toNat := by
  obtain ⟨j, rfl⟩ := Nat.exists_eq_add_of_le h
  have e : 2 ^ (lo + m + j) * hi = 2 ^ lo * (2 ^ m * (2 ^ j * hi)) := by ring
  rw [bitsAt, below, e, Nat.add_mul_div_left _ _ (Nat.two_pow_pos lo), Nat.add_mul_mod_self_left, bitsAt]

@[simp] theorem bitField_same : bitField 0 n (below x hi) = x := by
  apply BitVec.eq_of_toNat_eq
  rw [bitField, below, BitVec.toNat_ofNat, Nat.pow_zero, Nat.div_one, Nat.add_mul_mod_self_left, Nat.mod_eq_of_lt x.isLt]

theorem bitsAt_split (lo m j v w : Nat) :
    bitsAt lo (m + j) w = v ↔ bitsAt lo m w = v % 2 ^ m ∧ bitsAt (lo + m) j w = v / 2 ^ m := by
  have e : bitsAt lo (m + j) w = bitsAt lo m w + 2 ^ m * bitsAt (lo + m) j w := by
    unfold bitsAt
    rw [Nat.pow_add, Nat.mod_mul, Nat.div_div_eq_div_mul, ← Nat.pow_add]
  have hl : bitsAt lo m w < 2 ^ m := Nat.mod_lt _ (Nat.two_pow_pos m)
  rw [e]
  constructor
  · rintro rfl
    rw [Nat.add_mul_mod_self_left, Nat.mod_eq_of_lt hl, Nat.add_mul_div_left _ _ (Nat.two_pow_pos m), Nat.div_eq_of_lt hl,
      Nat.zero_add]
    exact ⟨rfl, rfl⟩
  · rintro ⟨h1, h2⟩
    rw [h1, h2, Nat.mod_add_div]

@[simp] theorem bitsAt_across {lo m v : Nat} (h : lo < n) (h' : n < lo + m) :
    bitsAt lo m (below x hi) = v ↔
      bitsAt lo (n - lo) x.toNat = v % 2 ^ (n - lo) ∧ bitsAt 0 (lo + m - n) hi = v / 2 ^ (n - lo) := by
  obtain ⟨j, rfl⟩ : ∃ j, m = n - lo + j := ⟨lo + m - n, by omega⟩
  rw [bitsAt_split, bitsAt_within _ _ (by omega), bitsAt_above _ _ (by omega)]
  have e1 : lo + (n - lo) - n = 0 := by omega
  have e2 : lo + (n - lo + j) - n = j := by omega
  rw [e1, e2]

@[simp] theorem bitsAt_literal (lo m w : Nat) : bitsAt lo m ofNat(w) = OfNat.ofNat w / 2 ^ lo % 2 ^ m := rfl

@[simp] theorem below_mod_four (h : 2 ≤ n) : below x hi % 4 = x.toNat % 4 := by
  obtain ⟨j, rfl⟩ := Nat.exists_eq_add_of_le h
  have e : 2 ^ (2 + j) * hi = 4 * (2 ^ j * hi) := by ring
  rw [below, e, Nat.add_mul_mod_self_left]

@[simp] theorem below_lt {m : Nat} (h : m % 2 ^ n = 0) : below x hi < m ↔ hi < m / 2 ^ n := by
  obtain ⟨j, rfl⟩ := Nat.dvd_of_mod_eq_zero h
  have hx := x.isLt
  rw [Nat.mul_div_cancel_left _ (Nat.two_pow_pos n), below]
  constructor
  · intro hl
    exact Nat.lt_of_mul_lt_mul_left (Nat.lt_of_le_of_lt (Nat.le_add_left _ _) hl)
  · intro hl
    calc x.toNat + 2 ^ n * hi < 2 ^ n + 2 ^ n * hi := by omega
      _ = 2 ^ n * (hi + 1) := by ring
      _ ≤ 2 ^ n * j := Nat.mul_le_mul_left _ hl

@[simp] theorem below_div_mul {m : Nat} (h : m % 2 ^ n = 0) : below x hi / m = hi / (m / 2 ^ n) := by
  obtain ⟨j, rfl⟩ := Nat.dvd_of_mod_eq_zero h
  rw [Nat.mul_div_cancel_left _ (Nat.two_pow_pos n), ← Nat.div_div_eq_div_mul, below_div x hi (Nat.le_refl n)]
  simp

end

theorem below_bitField (lo m j w : Nat) : below (bitField lo m w) (bitsAt (lo + m) j w) = bitsAt lo (m + j) w := by
  unfold below bitField bitsAt
  rw [BitVec.toNat_ofNat, Nat.pow_add 2 m j, Nat.mod_mul, Nat.div_div_eq_div_mul, ← Nat.pow_add]

/-! ### The decoder on a word -/

theorem natToBytes_length (n w : Nat) : (natToBytes n w).length = n := by
  induction n generalizing w with
  | zero => rfl
  | succ n ih => simp [natToBytes, ih]

theorem bytesToNat_take_natToBytes {k n : Nat} (w : Nat) (h : k ≤ n) :
    bytesToNat ((natToBytes n w).take k) = w % 2 ^ (8 * k) := by
  induction k generalizing n w with
  | zero => simp [bytesToNat, Nat.mod_one]
  | succ k ih =>
    obtain ⟨n, rfl⟩ : ∃ m, n = m + 1 := ⟨n - 1, by omega⟩
    rw [natToBytes, List.take_succ_cons, bytesToNat, ih (w / 256) (by omega), BitVec.toNat_ofNat, Nat.mul_succ,
      Nat.add_comm (8 * k), Nat.pow_add, Nat.mod_mul]

/-- The two low bits of a word give its length. -/
theorem lengthOf_mod (w : Nat) : lengthOf (w % 65536) = lengthOf w := by
  unfold lengthOf
  rw [Nat.mod_mod_of_dvd w (by decide : 4 ∣ 65536)]

theorem lengthOf_le (w : Nat) : lengthOf w ≤ 8 := by
  unfold lengthOf
  split <;> decide

/-- The decoder on a word reads as many of its bytes as its two low bits say (R36). -/
theorem decodeTableWord_eq (n w : Nat) :
    decodeTableWord n w =
      (decodeWord (lengthOf (w % 2 ^ n)) (w % 2 ^ n % 2 ^ (8 * lengthOf (w % 2 ^ n)))).toOption := by
  generalize hv : w % 2 ^ n = v
  have hlen : lengthOf (bytesToNat ((natToBytes 8 v).take 2)) = lengthOf v := by
    rw [bytesToNat_take_natToBytes v (by decide)]
    exact lengthOf_mod v
  unfold decodeTableWord decode
  simp only [hv, natToBytes_length, hlen, bytesToNat_take_natToBytes v (lengthOf_le v), Nat.not_lt.2 (lengthOf_le v),
    show ¬ (8 < 2) by decide, if_false]
  cases decodeWord (lengthOf v) (v % 2 ^ (8 * lengthOf v)) <;> rfl

/-- What the decoder reads a word of `len` bytes as, before the code fields are looked at. -/
def rowOf (len w : Nat) : Option Instr :=
  if len = 2 then decode16 w else if len = 4 then decode32 w else decode64 w

/-- The decoder gives the instruction of a row whose code fields are admitted, and for a tile pair whose body word is well
placed (R36, R47). -/
theorem decodeWord_ok {len w : Nat} {i : Instr} :
    decodeWord len w = .ok i ↔
      len ≠ 0 ∧ (len = 8 → bitsAt 32 2 w = 1 ∧ bitsAt 58 6 w = 0) ∧ rowOf len w = some i ∧ i.wellFormed = true := by
  unfold decodeWord
  by_cases h0 : len = 0
  · simp [h0]
  by_cases h8 : len = 8 ∧ ¬(bitsAt 32 2 w = 1 ∧ bitsAt 58 6 w = 0)
  · obtain ⟨rfl, hb⟩ := h8
    simp [hb]
  have h8' : len = 8 → bitsAt 32 2 w = 1 ∧ bitsAt 58 6 w = 0 := fun h => by_contra fun hb => h8 ⟨h, hb⟩
  rw [if_neg h0, if_neg h8]
  show (match rowOf len w with | none => _ | some i => _) = _ ↔ _
  cases rowOf len w with
  | none => simp
  | some j =>
    by_cases hj : j.wellFormed = true
    · simp only [hj, if_true, Except.ok.injEq, Option.some.injEq]
      exact ⟨fun h => ⟨h0, h8', h, h ▸ hj⟩, fun ⟨_, _, h, _⟩ => h⟩
    · simp only [hj, Option.some.injEq]
      exact ⟨fun h => (nomatch h), fun ⟨_, _, h, hw⟩ => absurd (h ▸ hw) hj⟩

/-! ### What the decoder gives -/

/-- What a decoder gives, if anything, has a property. -/
def Yields (P : Instr → Prop) (o : Option Instr) : Prop := ∀ i, o = some i → P i

@[simp] theorem yields_none (P : Instr → Prop) : Yields P none := nofun

@[simp] theorem yields_some {P : Instr → Prop} {i : Instr} : Yields P (some i) ↔ P i := by simp [Yields]

@[simp] theorem yields_ite {P : Instr → Prop} {c : Prop} [Decidable c] {a b : Option Instr} :
    Yields P (if c then a else b) ↔ (c → Yields P a) ∧ (¬c → Yields P b) := by
  split <;> simp [*]

/-- An instruction with an encoding of `len` bytes. -/
def HasLength (len : Nat) (i : Instr) : Prop := i.encoded = true ∧ i.length = len

/-- An instruction with an encoding of `len` bytes whose bits from `lo` on are `op`. -/
def HasOpcode (len lo op : Nat) (i : Instr) : Prop := HasLength len i ∧ i.encode / 2 ^ lo = op

theorem decode32_hasMajor (w : Nat) : Yields (HasOpcode 4 26 (bitsAt 26 6 w)) (decode32 w) := by
  unfold decode32
  split <;> simp [*, HasOpcode, HasLength, Instr.encoded, Instr.length, Instr.encode, decodeMajor01, decodeMajor02,
      decodeMajor03, decodeMajor04, decodeMajor05, decodeMajor06, decodeMajor07, decodeMajor08, decodeMajor09,
      decodeMajor0A, decodeMajor0B, decodeMajor0C, decodeMajor0D, decodeMajor0E, decodeMajor0F, decodeMajor10,
      decodeMajor11, decodeMajor12, decodeMajor13, decodeMajor14, decodeMajor15, decodeMajor16, decodeMajor17,
      decodeMajor18, decodeMajor19, decodeMajor1A, decodeMajor20, decodeMajor21, decodeMajor22, decodeMajor23,
      decodeMajor24, decodeMajor25, decodeMajor26, decodeMajor27, decodeMajor28, decodeMajor29, decodeMajor2A,
      decodeMajor2B, decodeMajor2C, decodeMajor2D, decodeMajor2E, decodeMajor3F]

theorem decode16_hasOp5 (w : Nat) : Yields (HasOpcode 2 11 (bitsAt 11 5 w)) (decode16 w) := by
  have hz : bitsAt 2 14 w = 0 → bitsAt 11 5 w = 0 := fun h => ((bitsAt_split 2 9 5 0 w).1 h).2
  have hi : bitsAt 12 4 w = 1 → below (bitField 11 1 w) 1 = bitsAt 11 5 w := fun h =>
    (congrArg _ h.symm).trans (below_bitField 11 1 4 w)
  have hp : bitsAt 15 1 w = 1 → below (bitField 11 4 w) 1 = bitsAt 11 5 w := fun h =>
    (congrArg _ h.symm).trans (below_bitField 11 4 1 w)
  simp +contextual [decode16, HasOpcode, HasLength, Instr.encoded, Instr.length, Instr.encode, hz, hi, hp]

theorem decode64_hasLength (w : Nat) : Yields (HasLength 8) (decode64 w) := by
  unfold decode64
  split <;> simp [decodeTile30, decodeTile31, decodeTile32, decodeTile33, HasLength, Instr.encoded, Instr.length]

/-- Each length has its rows, which give instructions of that length (R36). -/
theorem rowOf_hasLength {len : Nat} (hl : len = 2 ∨ len = 4 ∨ len = 8) (w : Nat) :
    Yields (HasLength len) (rowOf len w) := by
  rcases hl with rfl | rfl | rfl
  · exact fun i h => (decode16_hasOp5 w i h).1
  · exact fun i h => (decode32_hasMajor w i h).1
  · exact fun i h => decode64_hasLength w i h

theorem lengthOf_cases (w : Nat) : lengthOf w = 0 ∨ lengthOf w = 2 ∨ lengthOf w = 4 ∨ lengthOf w = 8 := by
  unfold lengthOf
  split <;> simp

/-- What it means that the decoder gives an instruction (R36, R47). -/
theorem decodeTableWord_some {n w : Nat} {i : Instr} :
    decodeTableWord n w = some i ↔
      decodeWord (lengthOf (w % 2 ^ n)) (w % 2 ^ n % 2 ^ (8 * lengthOf (w % 2 ^ n))) = .ok i := by
  rw [decodeTableWord_eq]
  cases decodeWord (lengthOf (w % 2 ^ n)) (w % 2 ^ n % 2 ^ (8 * lengthOf (w % 2 ^ n))) <;> simp [Except.toOption]

theorem decodeTableWord_wellFormed {n w : Nat} {i : Instr} (h : decodeTableWord n w = some i) :
    HasLength (lengthOf (w % 2 ^ n)) i ∧ i.wellFormed = true := by
  obtain ⟨h0, -, hr, hw⟩ := decodeWord_ok.1 (decodeTableWord_some.1 h)
  exact ⟨rowOf_hasLength ((lengthOf_cases _).resolve_left h0) _ i hr, hw⟩

/-- A word with as many bits as its two low bits ask for is read by the rows of its length. -/
theorem decodeTableWord_row {len w : Nat} {i : Instr} (hl : lengthOf (w % 2 ^ (8 * len)) = len)
    (h : decodeTableWord (8 * len) w = some i) : rowOf len (w % 2 ^ (8 * len)) = some i := by
  obtain ⟨-, -, hr, -⟩ := decodeWord_ok.1 (decodeTableWord_some.1 h)
  rwa [hl, Nat.mod_mod] at hr

theorem decodeTableWord_zero {n w : Nat} (h : w % 4 = 0) : decodeTableWord n w = none := by
  have hl : lengthOf (w % 2 ^ n) = 0 := by
    rcases n with _ | _ | n
    · rw [Nat.pow_zero, Nat.mod_one]
      rfl
    · rw [show w % 2 ^ (0 + 1) = 0 by omega]
      rfl
    · exact Machine.lengthOf_none ((Nat.mod_mod_of_dvd w (pow_dvd_pow 2 (by omega : 2 ≤ n + 1 + 1))).trans h)
  rw [decodeTableWord_eq, hl]
  rfl

theorem encode_major {w : Nat} {i : Instr} (hw : w % 4 = 1) (h : decodeTableWord 32 w = some i) :
    i.encode / 2 ^ 26 = w % 2 ^ 32 / 2 ^ 26 := by
  have hl : lengthOf (w % 2 ^ (8 * 4)) = 4 := Machine.lengthOf_four (by omega)
  have hm := (decode32_hasMajor _ i (decodeTableWord_row hl h)).2
  rw [hm, bitsAt]
  omega

theorem encode_op5 {w : Nat} {i : Instr} (hw : w % 4 = 2) (h : decodeTableWord 16 w = some i) :
    i.encode / 2 ^ 11 = w % 2 ^ 16 / 2 ^ 11 := by
  have hl : lengthOf (w % 2 ^ (8 * 2)) = 2 := Machine.lengthOf_two (by omega)
  have hm := (decode16_hasOp5 _ i (decodeTableWord_row hl h)).2
  rw [hm, bitsAt]
  omega

/-- A pair whose body word is not well placed holds no instruction. -/
theorem decodeTableWord_badBody {w : Nat} (hw : w % 4 = 3) (h : w / 2 ^ 32 % 4 ≠ 1 ∨ w / 2 ^ 58 % 64 ≠ 0) :
    decodeTableWord 64 w = none := by
  have hl : lengthOf (w % 2 ^ 64) = 8 := Machine.lengthOf_eight (by omega)
  refine Option.eq_none_iff_forall_ne_some.2 fun i hi => ?_
  obtain ⟨-, hb, -, -⟩ := decodeWord_ok.1 (decodeTableWord_some.1 hi)
  obtain ⟨h1, h2⟩ := hb hl
  rw [hl, bitsAt] at h1 h2
  omega

/-- Settles O3: what the decoder gives is of the length that the two low bits of the word say, and its rows give only
instructions of that length and of the word's opcode (`decode32_hasMajor`, `decode16_hasOp5`). -/
theorem decodedIsWellFormed : Obligations.DecodedIsWellFormed := by
  unfold Obligations.DecodedIsWellFormed
  refine ⟨fun n w i h => ?_, fun h => rfl,
    fun n w => ⟨decodeTableWord_zero, fun i => encode_major, fun i => encode_op5, decodeTableWord_badBody⟩,
    fun s u0 cx va h0 hf => ⟨Machine.fetchInstr_none hf, Machine.fetchInstr_two hf, fun h1 u1 hf1 =>
      ⟨Machine.fetchInstr_four hf hf1, fun h2 h3 u2 u3 => Machine.fetchInstr_eight hf hf1⟩⟩⟩
  obtain ⟨⟨he, hl⟩, hw⟩ := decodeTableWord_wellFormed h
  exact ⟨he, hw, hl.trans (lengthOf_mod _).symm⟩

/-! ### Every word is read back (R40 to R45) -/

/-- A word of `len` bytes, whose first halfword says so, holds an instruction, refused where a code field of it is not
admitted (R36, R47). -/
def Holds (len w : Nat) (i : Instr) : Prop :=
  lengthOf w = len ∧ w < 2 ^ (8 * len) ∧ decodeWord len w = if i.wellFormed then .ok i else .error .refusedField

/-- Majors 0x01 to 0x08 (R45). -/
theorem holds_integer {i : Instr} (d a b : XReg := 0) (imm : BitVec 12 := 0) (n : BitVec 6 := 0) (imm' : BitVec 18 := 0)
    (hi : i ∈ [Instr.add d a b, .sub d a b, .and d a b, .or d a b, .xor d a b, .shl d a b, .shr d a b, .shra d a b,
      .min d a b, .max d a b, .minn d a b, .maxn d a b, .slt d a b, .sltn d a b, .clz d a, .popc d a,
      .mv d a, .addi d a imm, .andi d a imm, .ori d a imm, .xori d a imm, .shli d a n, .shri d a n,
      .shrai d a n, .lih d imm', .mul d a b, .mulh d a b, .mulhn d a b, .div d a b, .divn d a b, .rem d a b,
      .remn d a b])
    : Holds i.length i.encode i := by
  revert i
  simp only [List.forall_mem_cons, List.not_mem_nil, false_imp_iff, implies_true, and_true]
  simp [Holds, decodeWord, lengthOf, Instr.length, Instr.encode, decode32, decodeMajor01, decodeMajor02, decodeMajor03,
    decodeMajor04, decodeMajor05, decodeMajor06, decodeMajor07, decodeMajor08]

/-- Major 0x09. -/
theorem holds_scalarFloat {i : Instr} (d a b : XReg := 0) (c : BitVec 5 := 0)
    (hi : i ∈ [Instr.faddFp64 d a b, .fsubFp64 d a b, .fmulFp64 d a b, .fdivFp64 d a b, .fmaFp64 d a b,
      .fminFp64 d a b, .fmaxFp64 d a b, .fsqrtFp64 d a, .fcvtFp64 d a c, .faddFp32 d a b, .fsubFp32 d a b,
      .fmulFp32 d a b, .fdivFp32 d a b, .fmaFp32 d a b, .fminFp32 d a b, .fmaxFp32 d a b, .fsqrtFp32 d a,
      .fcvtFp32 d a c])
    : Holds i.length i.encode i := by
  revert i
  simp only [List.forall_mem_cons, List.not_mem_nil, false_imp_iff, implies_true, and_true]
  simp [Holds, decodeWord, lengthOf, Instr.length, Instr.encode, decode32, decodeMajor09]

/-- Majors 0x0A to 0x0C. -/
theorem holds_condition {i : Instr} (k a' b' : KReg := 0) (a b d : XReg := 0) (c : BitVec 3 := 0)
    (hi : i ∈ [Instr.cmp k a b c, .fcmpFp64 k a b c, .fcmpFp32 k a b c, .kand k a' b', .kor k a' b', .kxor k a' b',
      .knot k a', .kfromx k a, .ktox d k])
    : Holds i.length i.encode i := by
  revert i
  simp only [List.forall_mem_cons, List.not_mem_nil, false_imp_iff, implies_true, and_true]
  simp [Holds, decodeWord, lengthOf, Instr.length, Instr.encode, decode32, decodeMajor0A, decodeMajor0B, decodeMajor0C]

/-- Majors 0x0D and 0x0E. -/
theorem holds_transfer {i : Instr} (bt : BReg := 0) (o : BitVec 21 := 0) (a d : XReg := 0) (k : KReg := 0)
    (hi : i ∈ [Instr.prep bt o, .prepr bt a, .mvb bt d, .jmp bt, .br bt k, .brn bt k, .call bt, .invb bt])
    : Holds i.length i.encode i := by
  revert i
  simp only [List.forall_mem_cons, List.not_mem_nil, false_imp_iff, implies_true, and_true]
  simp [Holds, decodeWord, lengthOf, Instr.length, Instr.encode, decode32, decodeMajor0D, decodeMajor0E]

/-- Major 0x0F, and the hints of major 0x3F (R48). -/
theorem holds_system {i : Instr} (n : BitVec 6 := 0) (a b : XReg := 0) (kind : BitVec 2 := 0) (scope : BitVec 3 := 0)
    (hi : i ∈ [Instr.nop, .trap n, .eret, .halt, .wait a b, .isync, .fence kind scope, .bkpt, .hint])
    : Holds i.length i.encode i := by
  revert i
  simp only [List.forall_mem_cons, List.not_mem_nil, false_imp_iff, implies_true, and_true]
  simp [Holds, decodeWord, lengthOf, Instr.length, Instr.encode, decode32, decodeMajor0F, decodeMajor3F]

/-- Majors 0x10 to 0x15. -/
theorem holds_memory {i : Instr} (d a xs b : XReg := 0) (z : BitVec 3 := 0) (imm : BitVec 9 := 0) (o : BitVec 2 := 0)
    (c : BitVec 12 := 0)
    (hi : i ∈ [Instr.ld d a z imm, .st xs a z imm, .ldl d a z imm, .stl xs a z imm, .amoAdd d a b o, .amoAnd d a b o,
      .amoOr d a b o, .amoXor d a b o, .amoMin d a b o, .amoMax d a b o, .amoMinn d a b o, .amoMaxn d a b o,
      .amoSwap d a b o, .amoCas d a b o, .crd d c, .crdSync d c, .cwr xs c, .cset xs c, .cclr xs c])
    : Holds i.length i.encode i := by
  revert i
  simp only [List.forall_mem_cons, List.not_mem_nil, false_imp_iff, implies_true, and_true]
  simp [Holds, decodeWord, lengthOf, Instr.length, Instr.encode, decode32, decodeMajor10, decodeMajor11, decodeMajor12,
    decodeMajor13, decodeMajor14, decodeMajor15]

/-- Majors 0x16 to 0x18. -/
theorem holds_engine {i : Instr} (a d : XReg := 0) (u n scope : BitVec 4 := 0) (n' : BitVec 3 := 0) (v : VReg := 0)
    (hi : i ∈ [Instr.enq a u, .deq d u, .deqt d u, .launch a, .wqry n, .gbar scope, .exit, .sdef a n', .sbind v n',
      .sunb n', .chdef a n, .chput a n, .chgetGet d a n])
    : Holds i.length i.encode i := by
  revert i
  simp only [List.forall_mem_cons, List.not_mem_nil, false_imp_iff, implies_true, and_true]
  simp [Holds, decodeWord, lengthOf, Instr.length, Instr.encode, decode32, decodeMajor16, decodeMajor17, decodeMajor18]

/-- Majors 0x19 and 0x1A. -/
theorem holds_recursion {i : Instr} (a d xs : XReg := 0) (v : VReg := 0) (c : BitVec 3 := 0) (m : MReg := 0)
    (hi : i ∈ [Instr.rdef a, .rrun a, .rfld v a, .rput v a c, .rspawn v, .rres v a, .rkid v a c, .rdone, .lnget d,
      .fill xs a, .ftload xs a, .pres m v])
    : Holds i.length i.encode i := by
  revert i
  simp only [List.forall_mem_cons, List.not_mem_nil, false_imp_iff, implies_true, and_true]
  simp [Holds, decodeWord, lengthOf, Instr.length, Instr.encode, decode32, decodeMajor19, decodeMajor1A]

/-- Majors 0x20 and 0x21. -/
theorem holds_lanes {i : Instr} (d a : XReg := 0) (t2 ty n c' : BitVec 4 := 0) (sc c : BitVec 1 := 0) (bt : BReg := 0)
    (m : MReg := 0) (v w : VReg := 0) (k : KReg := 0)
    (hi : i ∈ [Instr.vsetl d a t2 sc ty, .vgrant d a, .vfork d bt, .vjoin a, .loop a n, .vexit m c, .vrel v,
      .settle v w n, .vtest k m c'])
    : Holds i.length i.encode i := by
  revert i
  simp only [List.forall_mem_cons, List.not_mem_nil, false_imp_iff, implies_true, and_true]
  simp [Holds, decodeWord, lengthOf, Instr.length, Instr.encode, decode32, decodeMajor20, decodeMajor21]

/-- Major 0x22. -/
theorem holds_vectorInteger {i : Instr} (d a b : VReg) (m : MReg)
    (hi : i ∈ [Instr.vadd d a b m, .vsub d a b m, .vrsub d a b m, .vmul d a b m, .vmulh d a b m, .vmulhn d a b m,
      .vand d a b m, .vor d a b m, .vxor d a b m, .vshl d a b m, .vshr d a b m, .vshra d a b m,
      .vmin d a b m, .vmax d a b m, .vminn d a b m, .vmaxn d a b m, .vmerge d a b m, .vadc d a b m,
      .vsbc d a b m, .vwmul d a b m])
    : Holds i.length i.encode i := by
  revert i
  simp only [List.forall_mem_cons, List.not_mem_nil, false_imp_iff, implies_true, and_true]
  simp [Holds, decodeWord, lengthOf, Instr.length, Instr.encode, decode32, decodeMajor22]

/-- Major 0x23. -/
theorem holds_vectorIntegerX {i : Instr} (d a : VReg) (b : XReg) (m : MReg)
    (hi : i ∈ [Instr.vaddX d a b m, .vsubX d a b m, .vrsubX d a b m, .vmulX d a b m, .vmulhX d a b m,
      .vmulhnX d a b m, .vandX d a b m, .vorX d a b m, .vxorX d a b m, .vshlX d a b m, .vshrX d a b m,
      .vshraX d a b m, .vminX d a b m, .vmaxX d a b m, .vminnX d a b m, .vmaxnX d a b m, .vmergeX d a b m,
      .vadcX d a b m, .vsbcX d a b m, .vwmulX d a b m])
    : Holds i.length i.encode i := by
  revert i
  simp only [List.forall_mem_cons, List.not_mem_nil, false_imp_iff, implies_true, and_true]
  simp [Holds, decodeWord, lengthOf, Instr.length, Instr.encode, decode32, decodeMajor23]

/-- Major 0x24 and 0x25. -/
theorem holds_vectorFloat {i : Instr} (d a b : VReg := 0) (m : MReg := 0) (g : BitVec 5 := 0) (b' : XReg := 0)
    (hi : i ∈ [Instr.vfadd d a b m, .vfsub d a b m, .vfmul d a b m, .vfma d a b m, .vfmin d a b m, .vfmax d a b m,
      .vfdiv d a b m, .vfrcp d a m, .vfrsq d a m, .vfsqrt d a m, .vfexp d a m, .vflog d a m, .vfsin d a m,
      .vfcos d a m, .vfcvt d a g m, .vfwmul d a b m, .vfaddX d a b' m, .vfsubX d a b' m, .vfmulX d a b' m,
      .vfmaX d a b' m, .vfminX d a b' m, .vfmaxX d a b' m, .vfdivX d a b' m])
    : Holds i.length i.encode i := by
  revert i
  simp only [List.forall_mem_cons, List.not_mem_nil, false_imp_iff, implies_true, and_true]
  simp [Holds, decodeWord, lengthOf, Instr.length, Instr.encode, decode32, decodeMajor24, decodeMajor25]

/-- Majors 0x26 to 0x28. -/
theorem holds_vectorCompare {i : Instr} (d m a' b'' : MReg := 0) (a b : VReg := 0) (c : BitVec 3 := 0) (b' : XReg :=
    0) (n d' : BitVec 5 := 0)
    (hi : i ∈ [Instr.vcmp d a b m c, .vfcmp d a b m c, .vcmpX d a b' m c, .vfcmpX d a b' m c, .mand d a' b'',
      .mor d a' b'', .mxor d a' b'', .mnot d a', .mshl d a' n, .mpop d' a', .mfirst d' a', .mlast d' a',
      .mset d, .mclr d])
    : Holds i.length i.encode i := by
  revert i
  simp only [List.forall_mem_cons, List.not_mem_nil, false_imp_iff, implies_true, and_true]
  simp [Holds, decodeWord, lengthOf, Instr.length, Instr.encode, decode32, decodeMajor26, decodeMajor27, decodeMajor28]

/-- Majors 0x29 and 0x2A. -/
theorem holds_permute {i : Instr} (d a b : VReg := 0) (m : MReg := 0) (k : BitVec 3 := 0) (d' : BitVec 5 := 0) (b' :
    XReg := 0)
    (hi : i ∈ [Instr.vgath d a b m, .vcomp d a m, .vxpnd d a m, .vred d a k m, .vredXd d' a k m, .vscan d a k m,
      .vslideupZero d a b' m, .vslideupOne d a b' m, .vslideupKeep d a b' m, .vslidednZero d a b' m,
      .vslidednOne d a b' m, .vslidednKeep d a b' m, .vmvx d' a b', .vmvs d b' m, .vsplat d b' m])
    : Holds i.length i.encode i := by
  revert i
  simp only [List.forall_mem_cons, List.not_mem_nil, false_imp_iff, implies_true, and_true]
  simp [Holds, decodeWord, lengthOf, Instr.length, Instr.encode, decode32, decodeMajor29, decodeMajor2A]

/-- Majors 0x2B to 0x2E. -/
theorem holds_vectorMemory {i : Instr} (v b' w d' : VReg := 0) (a b d : XReg := 0) (m : MReg := 0) (o : BitVec 2 := 0)
    (o' : BitVec 4 := 0)
    (hi : i ∈ [Instr.vld v a m o, .vlds v a b m o, .vldx v a b' m o, .vst v a m o, .vsts v a b m o, .vstx v a b' m o,
      .awin d a o', .vamo v w, .amerge, .vrand d' m])
    : Holds i.length i.encode i := by
  revert i
  simp only [List.forall_mem_cons, List.not_mem_nil, false_imp_iff, implies_true, and_true]
  simp [Holds, decodeWord, lengthOf, Instr.length, Instr.encode, decode32, decodeMajor2B, decodeMajor2C, decodeMajor2D,
    decodeMajor2E]

/-- The compressed halfwords (R42). -/
theorem holds_compressed {i : Instr} (d b a h xs : BitVec 4 := 0) (j : BitVec 1 := 0) (imm : BitVec 5 := 0) (bt : BReg
    := 0) (o : BitVec 6 := 0) (k : KReg := 0)
    (hi : i ∈ [Instr.addC d b, .mvC d a, .addiC j d imm, .prepC h bt o, .jmpC bt, .brC bt k, .brnC bt k, .nopC,
      .ldlC d imm, .stlC xs imm])
    : Holds i.length i.encode i := by
  revert i
  simp only [List.forall_mem_cons, List.not_mem_nil, false_imp_iff, implies_true, and_true]
  simp [Holds, decodeWord, lengthOf, Instr.length, Instr.encode, decode16]

/-- The tile pairs (R43, R44). -/
theorem holds_tile {i : Instr} (crew sync : BitVec 1 := 0) (fmtA fmtB : BitVec 4 := 0) (d a b : XReg := 0) (td ta tb
    pA pB : BitVec 3 := 0) (v : VReg := 0) (ad : BitVec 2 := 0)
    (hi : i ∈ [Instr.tsetl crew fmtA d a b, .tclaim a b, .tfree, .tld td a b, .tst ta a b, .tldp td a b, .tzero td,
      .tmvr td v a, .tmvc ta v a, .mma ta tb ad fmtA fmtB, .mmaC ta tb ad fmtA fmtB, .mman ta tb ad pA pB,
      .mdrain td ad fmtA sync, .azero ad])
    : Holds i.length i.encode i := by
  revert i
  simp only [List.forall_mem_cons, List.not_mem_nil, false_imp_iff, implies_true, and_true]
  simp [Holds, decodeWord, lengthOf, Instr.length, Instr.encode, decode64, decodeTile30, decodeTile31, decodeTile32,
    decodeTile33]

theorem holds_encode {i : Instr} (h : i.encoded = true) : Holds i.length i.encode i := by
  cases i with
  | add d a b | sub d a b | and d a b | or d a b | xor d a b | shl d a b | shr d a b | shra d a b | min d a b
  | max d a b | minn d a b | maxn d a b | slt d a b | sltn d a b | mul d a b | mulh d a b | mulhn d a b
  | div d a b | divn d a b | rem d a b | remn d a b =>
    exact holds_integer (d := d) (a := a) (b := b) (hi := by simp)
  | clz d a | popc d a | mv d a =>
    exact holds_integer (d := d) (a := a) (hi := by simp)
  | addi d a imm | andi d a imm | ori d a imm | xori d a imm =>
    exact holds_integer (d := d) (a := a) (imm := imm) (hi := by simp)
  | shli d a n | shri d a n | shrai d a n =>
    exact holds_integer (d := d) (a := a) (n := n) (hi := by simp)
  | lih d imm' =>
    exact holds_integer (d := d) (imm' := imm') (hi := by simp)
  | faddFp64 d a b | fsubFp64 d a b | fmulFp64 d a b | fdivFp64 d a b | fmaFp64 d a b | fminFp64 d a b
  | fmaxFp64 d a b | faddFp32 d a b | fsubFp32 d a b | fmulFp32 d a b | fdivFp32 d a b | fmaFp32 d a b
  | fminFp32 d a b | fmaxFp32 d a b =>
    exact holds_scalarFloat (d := d) (a := a) (b := b) (hi := by simp)
  | fsqrtFp64 d a | fsqrtFp32 d a =>
    exact holds_scalarFloat (d := d) (a := a) (hi := by simp)
  | fcvtFp64 d a c | fcvtFp32 d a c =>
    exact holds_scalarFloat (d := d) (a := a) (c := c) (hi := by simp)
  | cmp k a b c | fcmpFp64 k a b c | fcmpFp32 k a b c =>
    exact holds_condition (k := k) (a := a) (b := b) (c := c) (hi := by simp)
  | kand k a' b' | kor k a' b' | kxor k a' b' =>
    exact holds_condition (k := k) (a' := a') (b' := b') (hi := by simp)
  | knot k a' =>
    exact holds_condition (k := k) (a' := a') (hi := by simp)
  | kfromx k a =>
    exact holds_condition (k := k) (a := a) (hi := by simp)
  | ktox d k =>
    exact holds_condition (d := d) (k := k) (hi := by simp)
  | prep bt o =>
    exact holds_transfer (bt := bt) (o := o) (hi := by simp)
  | prepr bt a =>
    exact holds_transfer (bt := bt) (a := a) (hi := by simp)
  | mvb bt d =>
    exact holds_transfer (bt := bt) (d := d) (hi := by simp)
  | jmp bt | call bt | invb bt =>
    exact holds_transfer (bt := bt) (hi := by simp)
  | br bt k | brn bt k =>
    exact holds_transfer (bt := bt) (k := k) (hi := by simp)
  | nop | eret | halt | isync | bkpt | hint =>
    exact holds_system (hi := by simp)
  | trap n =>
    exact holds_system (n := n) (hi := by simp)
  | wait a b =>
    exact holds_system (a := a) (b := b) (hi := by simp)
  | fence kind scope =>
    exact holds_system (kind := kind) (scope := scope) (hi := by simp)
  | ld d a z imm | ldl d a z imm =>
    exact holds_memory (d := d) (a := a) (z := z) (imm := imm) (hi := by simp)
  | st xs a z imm | stl xs a z imm =>
    exact holds_memory (xs := xs) (a := a) (z := z) (imm := imm) (hi := by simp)
  | amoAdd d a b o | amoAnd d a b o | amoOr d a b o | amoXor d a b o | amoMin d a b o | amoMax d a b o
  | amoMinn d a b o | amoMaxn d a b o | amoSwap d a b o | amoCas d a b o =>
    exact holds_memory (d := d) (a := a) (b := b) (o := o) (hi := by simp)
  | crd d c | crdSync d c =>
    exact holds_memory (d := d) (c := c) (hi := by simp)
  | cwr xs c | cset xs c | cclr xs c =>
    exact holds_memory (xs := xs) (c := c) (hi := by simp)
  | enq a u =>
    exact holds_engine (a := a) (u := u) (hi := by simp)
  | deq d u | deqt d u =>
    exact holds_engine (d := d) (u := u) (hi := by simp)
  | launch a =>
    exact holds_engine (a := a) (hi := by simp)
  | wqry n =>
    exact holds_engine (n := n) (hi := by simp)
  | gbar scope =>
    exact holds_engine (scope := scope) (hi := by simp)
  | exit =>
    exact holds_engine (hi := by simp)
  | sdef a n' =>
    exact holds_engine (a := a) (n' := n') (hi := by simp)
  | sbind v n' =>
    exact holds_engine (v := v) (n' := n') (hi := by simp)
  | sunb n' =>
    exact holds_engine (n' := n') (hi := by simp)
  | chdef a n | chput a n =>
    exact holds_engine (a := a) (n := n) (hi := by simp)
  | chgetGet d a n =>
    exact holds_engine (d := d) (a := a) (n := n) (hi := by simp)
  | rdef a | rrun a =>
    exact holds_recursion (a := a) (hi := by simp)
  | rfld v a | rres v a =>
    exact holds_recursion (v := v) (a := a) (hi := by simp)
  | rput v a c | rkid v a c =>
    exact holds_recursion (v := v) (a := a) (c := c) (hi := by simp)
  | rspawn v =>
    exact holds_recursion (v := v) (hi := by simp)
  | rdone =>
    exact holds_recursion (hi := by simp)
  | lnget d =>
    exact holds_recursion (d := d) (hi := by simp)
  | fill xs a | ftload xs a =>
    exact holds_recursion (xs := xs) (a := a) (hi := by simp)
  | pres m v =>
    exact holds_recursion (m := m) (v := v) (hi := by simp)
  | vsetl d a t2 sc ty =>
    exact holds_lanes (d := d) (a := a) (t2 := t2) (sc := sc) (ty := ty) (hi := by simp)
  | vgrant d a =>
    exact holds_lanes (d := d) (a := a) (hi := by simp)
  | vfork d bt =>
    exact holds_lanes (d := d) (bt := bt) (hi := by simp)
  | vjoin a =>
    exact holds_lanes (a := a) (hi := by simp)
  | loop a n =>
    exact holds_lanes (a := a) (n := n) (hi := by simp)
  | vexit m c =>
    exact holds_lanes (m := m) (c := c) (hi := by simp)
  | vrel v =>
    exact holds_lanes (v := v) (hi := by simp)
  | settle v w n =>
    exact holds_lanes (v := v) (w := w) (n := n) (hi := by simp)
  | vtest k m c' =>
    exact holds_lanes (k := k) (m := m) (c' := c') (hi := by simp)
  | vadd d a b m | vsub d a b m | vrsub d a b m | vmul d a b m | vmulh d a b m | vmulhn d a b m
  | vand d a b m | vor d a b m | vxor d a b m | vshl d a b m | vshr d a b m | vshra d a b m | vmin d a b m
  | vmax d a b m | vminn d a b m | vmaxn d a b m | vmerge d a b m | vadc d a b m | vsbc d a b m
  | vwmul d a b m =>
    exact holds_vectorInteger (d := d) (a := a) (b := b) (m := m) (hi := by simp)
  | vaddX d a b m | vsubX d a b m | vrsubX d a b m | vmulX d a b m | vmulhX d a b m | vmulhnX d a b m
  | vandX d a b m | vorX d a b m | vxorX d a b m | vshlX d a b m | vshrX d a b m | vshraX d a b m
  | vminX d a b m | vmaxX d a b m | vminnX d a b m | vmaxnX d a b m | vmergeX d a b m | vadcX d a b m
  | vsbcX d a b m | vwmulX d a b m =>
    exact holds_vectorIntegerX (d := d) (a := a) (b := b) (m := m) (hi := by simp)
  | vfadd d a b m | vfsub d a b m | vfmul d a b m | vfma d a b m | vfmin d a b m | vfmax d a b m
  | vfdiv d a b m | vfwmul d a b m =>
    exact holds_vectorFloat (d := d) (a := a) (b := b) (m := m) (hi := by simp)
  | vfrcp d a m | vfrsq d a m | vfsqrt d a m | vfexp d a m | vflog d a m | vfsin d a m | vfcos d a m =>
    exact holds_vectorFloat (d := d) (a := a) (m := m) (hi := by simp)
  | vfcvt d a g m =>
    exact holds_vectorFloat (d := d) (a := a) (g := g) (m := m) (hi := by simp)
  | vfaddX d a b' m | vfsubX d a b' m | vfmulX d a b' m | vfmaX d a b' m | vfminX d a b' m | vfmaxX d a b' m
  | vfdivX d a b' m =>
    exact holds_vectorFloat (d := d) (a := a) (b' := b') (m := m) (hi := by simp)
  | vcmp d a b m c | vfcmp d a b m c =>
    exact holds_vectorCompare (d := d) (a := a) (b := b) (m := m) (c := c) (hi := by simp)
  | vcmpX d a b' m c | vfcmpX d a b' m c =>
    exact holds_vectorCompare (d := d) (a := a) (b' := b') (m := m) (c := c) (hi := by simp)
  | mand d a' b'' | mor d a' b'' | mxor d a' b'' =>
    exact holds_vectorCompare (d := d) (a' := a') (b'' := b'') (hi := by simp)
  | mnot d a' =>
    exact holds_vectorCompare (d := d) (a' := a') (hi := by simp)
  | mshl d a' n =>
    exact holds_vectorCompare (d := d) (a' := a') (n := n) (hi := by simp)
  | mpop d' a' | mfirst d' a' | mlast d' a' =>
    exact holds_vectorCompare (d' := d') (a' := a') (hi := by simp)
  | mset d | mclr d =>
    exact holds_vectorCompare (d := d) (hi := by simp)
  | vgath d a b m =>
    exact holds_permute (d := d) (a := a) (b := b) (m := m) (hi := by simp)
  | vcomp d a m | vxpnd d a m =>
    exact holds_permute (d := d) (a := a) (m := m) (hi := by simp)
  | vred d a k m | vscan d a k m =>
    exact holds_permute (d := d) (a := a) (k := k) (m := m) (hi := by simp)
  | vredXd d' a k m =>
    exact holds_permute (d' := d') (a := a) (k := k) (m := m) (hi := by simp)
  | vslideupZero d a b' m | vslideupOne d a b' m | vslideupKeep d a b' m | vslidednZero d a b' m
  | vslidednOne d a b' m | vslidednKeep d a b' m =>
    exact holds_permute (d := d) (a := a) (b' := b') (m := m) (hi := by simp)
  | vmvx d' a b' =>
    exact holds_permute (d' := d') (a := a) (b' := b') (hi := by simp)
  | vmvs d b' m | vsplat d b' m =>
    exact holds_permute (d := d) (b' := b') (m := m) (hi := by simp)
  | vld v a m o | vst v a m o =>
    exact holds_vectorMemory (v := v) (a := a) (m := m) (o := o) (hi := by simp)
  | vlds v a b m o | vsts v a b m o =>
    exact holds_vectorMemory (v := v) (a := a) (b := b) (m := m) (o := o) (hi := by simp)
  | vldx v a b' m o | vstx v a b' m o =>
    exact holds_vectorMemory (v := v) (a := a) (b' := b') (m := m) (o := o) (hi := by simp)
  | awin d a o' =>
    exact holds_vectorMemory (d := d) (a := a) (o' := o') (hi := by simp)
  | vamo v w =>
    exact holds_vectorMemory (v := v) (w := w) (hi := by simp)
  | amerge =>
    exact holds_vectorMemory (hi := by simp)
  | vrand d' m =>
    exact holds_vectorMemory (d' := d') (m := m) (hi := by simp)
  | addC d b =>
    exact holds_compressed (d := d) (b := b) (hi := by simp)
  | mvC d a =>
    exact holds_compressed (d := d) (a := a) (hi := by simp)
  | addiC j d imm =>
    exact holds_compressed (j := j) (d := d) (imm := imm) (hi := by simp)
  | prepC hi bt o =>
    exact holds_compressed (h := hi) (bt := bt) (o := o) (hi := by simp)
  | jmpC bt =>
    exact holds_compressed (bt := bt) (hi := by simp)
  | brC bt k | brnC bt k =>
    exact holds_compressed (bt := bt) (k := k) (hi := by simp)
  | nopC =>
    exact holds_compressed (hi := by simp)
  | ldlC d imm =>
    exact holds_compressed (d := d) (imm := imm) (hi := by simp)
  | stlC xs imm =>
    exact holds_compressed (xs := xs) (imm := imm) (hi := by simp)
  | tsetl crew fmtA d a b =>
    exact holds_tile (crew := crew) (fmtA := fmtA) (d := d) (a := a) (b := b) (hi := by simp)
  | tclaim a b =>
    exact holds_tile (a := a) (b := b) (hi := by simp)
  | tfree =>
    exact holds_tile (hi := by simp)
  | tld td a b | tldp td a b =>
    exact holds_tile (td := td) (a := a) (b := b) (hi := by simp)
  | tst ta a b =>
    exact holds_tile (ta := ta) (a := a) (b := b) (hi := by simp)
  | tzero td =>
    exact holds_tile (td := td) (hi := by simp)
  | tmvr td v a =>
    exact holds_tile (td := td) (v := v) (a := a) (hi := by simp)
  | tmvc ta v a =>
    exact holds_tile (ta := ta) (v := v) (a := a) (hi := by simp)
  | mma ta tb ad fmtA fmtB | mmaC ta tb ad fmtA fmtB =>
    exact holds_tile (ta := ta) (tb := tb) (ad := ad) (fmtA := fmtA) (fmtB := fmtB) (hi := by simp)
  | mman ta tb ad pA pB =>
    exact holds_tile (ta := ta) (tb := tb) (ad := ad) (pA := pA) (pB := pB) (hi := by simp)
  | mdrain td ad fmtA sync =>
    exact holds_tile (td := td) (ad := ad) (fmtA := fmtA) (sync := sync) (hi := by simp)
  | azero ad =>
    exact holds_tile (ad := ad) (hi := by simp)
  | _ => exact nomatch h

theorem decodeTableWord_holds {w : Nat} {i : Instr} (h : Holds i.length w i) (hw : i.wellFormed = true) :
    decodeTableWord (8 * i.length) w = some i := by
  obtain ⟨hlen, hlt, hd⟩ := h
  rw [if_pos hw] at hd
  rw [decodeTableWord_some, Nat.mod_eq_of_lt hlt, hlen, Nat.mod_eq_of_lt hlt, hd]

/-- Settles O2, by the fields of each word (`holds_encode`): they lie end to end, so that each row before the right one
fails on bits that no field covers. -/
theorem encodeThenDecode : Obligations.EncodeThenDecode := by
  unfold Obligations.EncodeThenDecode
  exact fun i he hw => decodeTableWord_holds (holds_encode he) hw

/-- Settles O1: each word is the encoding of its instruction, which is read back from it. -/
theorem specWordsDecode : Obligations.SpecWordsDecode := by
  unfold Obligations.SpecWordsDecode
  have back := encodeThenDecode
  exact ⟨back (.add 16 17 18) rfl rfl, back (.addC 3 5) rfl rfl, back (.addi 20 21 0xFFD) rfl rfl,
    back (.shri 42 42 51) rfl rfl, back (.mul 29 29 26) rfl rfl, back (.ld 9 2 2 3) rfl rfl,
    back (.amoCas 5 6 7 3) rfl rfl, back (.brn 3 2) rfl rfl, back (.brC 2 1) rfl rfl, back .bkpt rfl rfl,
    back (.rput 4 0 1) rfl rfl, back (.vand 4 1 2 2) rfl rfl, back (.vaddX 3 2 19 0) rfl rfl, back .tfree rfl rfl,
    decodeTableWord_zero rfl⟩

end Sys2Proof

namespace Sys2Proof.Machine

/-! ## A turn of a hart's front (R36 to R38, R116, R246, R247) -/

/-- An update of a core that leaves its harts as they are changes no hart. -/
theorem hartAt_modCore (s : State) (c d i : Nat) {f : Core → Core} (hf : ∀ k, (f k).harts = k.harts) :
    (s.modCore c f).hartAt d i = s.hartAt d i := by
  by_cases h : d = c
  · subst h
    simp only [State.hartAt, core_modCore_same, Core.hart, hf]
  · simp only [State.hartAt, core_modCore_ne _ _ h]

/-- To hold the Pontoon is to be its owner, and nothing else (R116). -/
theorem holdPontoon_hartAt (c h d i : Nat) (s : State) : (holdPontoon c h s).hartAt d i = s.hartAt d i := by
  unfold holdPontoon
  dsimp only
  split
  · exact hartAt_modCore s c d i fun _ => rfl
  · rfl

theorem holdPontoon_dbg (c h : Nat) (s : State) : ((holdPontoon c h s).core c).dbg = (s.core c).dbg := by
  unfold holdPontoon
  dsimp only
  split
  · rw [core_modCore_same]
  · rfl

/-- A hart that does not lack the Pontoon does not lack it once it has taken it. -/
theorem holdPontoon_lacks {c h : Nat} {s : State} (hh : h < 8) (hl : lacksPontoon c h s = false) :
    lacksPontoon c h (holdPontoon c h s) = false := by
  have hx := holdPontoon_hartAt c h c h s
  unfold holdPontoon at hx ⊢
  dsimp only at hx ⊢
  split
  next ht =>
    rw [if_pos ht] at hx
    simp [lacksPontoon, hx, core_modCore_same, Nat.mod_eq_of_lt hh]
  next => exact hl

/-- The note of a turn is in the hart alone. -/
theorem noteTurn_core (c h : Nat) (s : State) :
    ((noteTurn c h s).core c).dbg = (s.core c).dbg ∧ ((noteTurn c h s).core c).pontoonOwner = (s.core c).pontoonOwner := by
  simp [noteTurn, State.modHartAt, State.setHartAt, Core.setHart]

theorem noteTurn_hartAt (c h : Nat) (s : State) :
    (noteTurn c h s).hartAt c h =
      { s.hartAt c h with run := { (s.hartAt c h).run with turned := true } } :=
  hartAt_modHartAt_same s c h _

theorem noteTurn_lacks (c h : Nat) (s : State) : lacksPontoon c h (noteTurn c h s) = lacksPontoon c h s := by
  simp [lacksPontoon, noteTurn_hartAt, noteTurn_core]

theorem noteTurn_breakpoint (c h : Nat) (commit : Bool) (pc : BitVec 48) (s : State) :
    breakpointAt c h commit pc (noteTurn c h (holdPontoon c h s)) = breakpointAt c h commit pc s := by
  simp [breakpointAt, noteTurn_core, holdPontoon_dbg]

theorem noteTurn_commit (c h : Nat) (s : State) :
    commitAtFront c h (noteTurn c h (holdPontoon c h s)) = commitAtFront c h s := by
  simp only [commitAtFront, noteTurn_breakpoint, noteTurn_hartAt, holdPontoon_hartAt]
  rfl

/-- A front that may issue, with no breakpoint in its way, issues (R246). -/
theorem frontTurn_issues {c h : Nat} {s : State} (hh : h < 8) (hm : frontMoves c h s = true)
    (hb : breakpointAt c h false (s.hartAt c h).pc s = false) (hc : commitAtFront c h s = false)
    (hl : lacksPontoon c h s = false) :
    frontTurn c h s = issue (State.focus c h (noteTurn c h (holdPontoon c h s))) := by
  have hl' : lacksPontoon c h (noteTurn c h (holdPontoon c h s)) = false := by
    rw [noteTurn_lacks, holdPontoon_lacks hh hl]
  have hp : ((noteTurn c h (holdPontoon c h s)).hartAt c h).pc = (s.hartAt c h).pc := by
    rw [noteTurn_hartAt, holdPontoon_hartAt]
  unfold frontTurn
  simp only [hm, hl', hp, noteTurn_breakpoint, noteTurn_commit, hb, hc, Bool.not_true, Bool.false_eq_true, if_false]

/-- The step of a turn that the agenda gives to a hart. -/
theorem step_hart {s : State} {c : CoreNo} {h : HartNo} {rest : List Turn} (hf : s.host.fatal = false)
    (ha : s.agenda = .hart c h :: rest) : step s = frontTurn c.toNat h.toNat { s with agenda := rest } := by
  simp [step, advanceTurn, nextTurn, hf, ha, runTurn]

/-- The front reads at the PC of the hart that has the turn. -/
theorem focus_hart (c : CoreNo) (h : HartNo) (s : State) : (State.focus c.toNat h.toNat s).hart = s.hartAt c.toNat h.toNat := by
  simp [State.focus, State.hart, State.here, State.me, State.hartAt, State.core]

theorem issue_fetched {s t : State} {n w : Nat} (hf : fetchInstr s.ctx s.hart.pc s = .ok (n, w) t) :
    issue s = runFetched n w t := by
  unfold issue
  rw [hf]

theorem runFetched_some {n w : Nat} {i : Instr} (s : State) (hn : n ≠ 0) (hd : decodeTableWord (8 * n) w = some i) :
    runFetched n w s = exec (resolve i s).1 (resolve i s).2 := by
  simp [runFetched, readInstr, hn, hd]

theorem runFetched_none {n w : Nat} (s : State) (hd : n = 0 ∨ decodeTableWord (8 * n) w = none) :
    runFetched n w s = exec .illegalEncoding
      { s with input := { s.input with enc := word w, encLen := BitVec.ofNat 4 (if n = 0 then 2 else n) } } := by
  have hr : readInstr n w = none := by
    unfold readInstr
    split
    · rfl
    · exact hd.resolve_left ‹_›
  simp [runFetched, hr]

/-- Settles O4: the step is the hart's turn (`step_hart`), the turn issues (`frontTurn_issues`), and what it fetches
runs. -/
theorem stepRunsTheDecodedInstruction : Obligations.StepRunsTheDecodedInstruction := by
  unfold Obligations.StepRunsTheDecodedInstruction
  intro s t c h rest n w hf ha hm hb hc hl u hfetch
  have hpc : u.hart.pc = (s.hartAt c.toNat h.toNat).pc := by
    rw [focus_hart, noteTurn_hartAt, holdPontoon_hartAt]
    rfl
  have hs : step s = runFetched n w t := by
    rw [step_hart hf ha, frontTurn_issues h.isLt hm hb hc hl]
    exact issue_fetched (hpc ▸ hfetch)
  exact ⟨fun i hn hd => hs.trans (runFetched_some t hn hd), fun hd => hs.trans (runFetched_none t hd)⟩

end Sys2Proof.Machine

namespace Sys2Proof.Machine

/-! ## The frame of the scalar integer instructions (R41, R257, R263) -/

/-- What a step comes to is what a scalar operation with destination `d` comes to. -/
def IsScalarOp (d : Nat) (s : State) (r : Out) : Prop := ∃ n srcs f, r = scalarOp n d srcs f s

theorem isScalarOp (n d : Nat) (srcs : List Nat) (f : Hart → Word) (s : State) : IsScalarOp d s (scalarOp n d srcs f s) :=
  ⟨n, srcs, f, rfl⟩

/-- A scalar integer instruction only writes its destination with a function of the hart. -/
theorem exec_scalarDest {i : Instr} {d : Nat} (hd : scalarDest i = some d) (s : State) : IsScalarOp d s (exec i s) := by
  cases i with
  | add d a b | sub d a b | and d a b | or d a b | xor d a b | shl d a b | shr d a b | shra d a b | min d a b
  | max d a b | minn d a b | maxn d a b | slt d a b | sltn d a b | mul d a b | mulh d a b | mulhn d a b
  | div d a b | divn d a b | rem d a b | remn d a b | clz d a | popc d a | mv d a | addi d a imm | andi d a imm
  | ori d a imm | xori d a imm | shli d a n | shri d a n | shrai d a n | lih d imm | addC d b | mvC d a
  | addiC j d imm =>
    obtain rfl := Option.some.inj hd
    simp only [scalarOp2, scalarOp1, isScalarOp, exec_add, exec_sub, exec_and, exec_or, exec_xor, exec_shl, exec_shr,
      exec_shra, exec_min, exec_max, exec_minn, exec_maxn, exec_slt, exec_sltn, exec_mul, exec_mulh, exec_mulhn,
      exec_div, exec_divn, exec_rem, exec_remn, exec_clz, exec_popc, exec_mv, exec_addi, exec_andi, exec_ori,
      exec_xori, exec_shli, exec_shri, exec_shrai, exec_lih, exec_addC, exec_mvC, exec_addiC, execAdd, execSub,
      execAnd, execOr, execXor, execShl, execShr, execShra, execMin, execMax, execMinn, execMaxn, execSlt, execSltn,
      execMul, execMulh, execMulhn, execDiv, execDivn, execRem, execRemn, execClz, execPopc, execMv, execAddi,
      execAndi, execOri, execXori, execShli, execShri, execShrai, execLih, execAddC, execMvC, execAddiC]
  | _ => exact absurd hd.symm (Option.some_ne_none d)

theorem setX_x_eq (h : Hart) (d : Nat) (w : Word) : h.setX d w = { h with x := (h.setX d w).x } := by
  unfold Hart.setX
  split <;> rfl

/-- Settles O12: a scalar instruction retires with its result, or waits (`scalarOp_cases`), and either changes the hart
that executes alone. -/
theorem scalarIntegerFrame : Obligations.ScalarIntegerFrame := by
  unfold Obligations.ScalarIntegerFrame
  intro i d s t hd ht
  obtain ⟨n, srcs, f, he⟩ := exec_scalarDest hd s
  rw [he] at ht
  rcases scalarOp_cases n d srcs f s with h | h <;> rw [h] at ht <;> obtain rfl := Host.Outcome.next.inj ht
  case inl =>
    refine ⟨fun r hr => by rw [hart_modHart, getX_retire, getX_setX_ne _ _ hr], rfl, fun _ => rfl,
      (s.hart.setX d (f s.hart)).x, s.hart.pc + BitVec.ofNat 48 n, _, 0, false, .inr rfl, OnlyHart.modHart_eq ?_⟩
    rw [setX_x_eq]
    rfl
  case inr =>
    exact ⟨fun r _ => by rw [stall, hart_modHart]; rfl, rfl, fun _ => rfl, s.hart.x, s.hart.pc, _, _, s.hart.run.atBar,
      .inl rfl, OnlyHart.modHart_eq rfl⟩

end Sys2Proof.Machine

namespace Sys2Proof.Machine

/-! ## TRAP, BKPT, ILLEGAL and PRIV (R38, R39, R220, R225, R246) -/

section
variable {s : State}

theorem word_toNat {n : Nat} (x : BitVec n) : word x.toNat = x.zeroExtend 64 := BitVec.ofNat_toNat ..

/-- A trap that its own instruction raises counts it, and resumes behind it (R220). -/
theorem trapAfter_taken (h : CanTrap s) (n : Nat) (e : Exc) :
    TakesTrap false e (s.hart.pc + BitVec.ofNat 48 n) (s.modHart Hart.count)
      (trapAfter n e (s.modHart Hart.count)) := by
  have hp : (s.modHart Hart.count).hart.pc = s.hart.pc := by rw [hart_modHart, count_pc]
  have ht := takeTrap_taken (h.modHart Hart.count rfl) false e (s.hart.pc + BitVec.ofNat 48 n)
  rw [trapAfter, hp]
  exact ht

theorem exec_trap_user (h : isFerry s.me = false) (n : BitVec 6) :
    exec (.trap n) s = .next (trapAfter 4 (trapiExc n) (s.modHart Hart.count)) := by
  rw [exec_trap, execTrap, noFerry_user _ h]

theorem exec_bkpt_unclaimed (h : isFerry s.me = false) (hc : s.hart.run.claimed = false) :
    exec .bkpt s = .next (trapAfter 4 (bkptExc 0) (s.modHart Hart.count)) := by
  rw [exec_bkpt, execBkpt, noFerry_user _ h]
  simp only [hc, Bool.false_eq_true, if_false]

/-- A debug stop is a stop at an element-group boundary, and then of the front (R226, R245). -/
theorem debugStop_here (s : State) :
    debugStop s.here s.me s = (s.atStop false).modHart fun h =>
      { h with run := { h.run with stopped := true, wait := none, inval := none, deq := false, why := 14 } } := by
  have hk := roundStop_keeps s.here s.me s
  unfold debugStop State.atStop
  simp only [Bool.false_eq_true, if_false, State.modHart, State.setHart, State.modHartAt, State.hart, hk.here, hk.me]

theorem exec_bkpt_claimed (h : isFerry s.me = false) (hc : s.hart.run.claimed = true) :
    exec .bkpt s = .next (((s.modHart fun h =>
      { h.retire 4 with tr := { h.tr with tpc := (h.pc + 4).zeroExtend 64 } }).atStop false).modHart fun h =>
      { h with run := { h.run with stopped := true, wait := none, inval := none, deq := false, why := 14 } }) := by
  have hs : (retireHere 4 s).modHart (fun h => { h with tr := { h.tr with tpc := h.pc.zeroExtend 64 } }) =
      s.modHart fun h => { h.retire 4 with tr := { h.tr with tpc := (h.pc + 4).zeroExtend 64 } } :=
    modHart_modHart ..
  rw [exec_bkpt, execBkpt, noFerry_user _ h]
  simp only [hc, if_true, hs]
  exact congrArg Host.Outcome.next (debugStop_here _)

theorem exec_illegalEncoding_raises (s : State) :
    exec .illegalEncoding s = finish (raise
      { code := 0x01, info0 := s.input.enc, info1 := s.input.encLen.zeroExtend 64 } s) := by
  rw [exec_illegalEncoding, execIllegalEncoding, illegalExc, word_toNat]

/-! ### PRIV -/

/-- An instruction raises PRIV with its encoding and length, before anything else. -/
def RaisesPriv (s : State) (i : Instr) : Prop :=
  ∃ t, exec i s = .next t ∧ TakesTrap false { code := 0x02, info0 := word i.encode, info1 := 4 } s.hart.pc s t

theorem raisesPriv {i : Instr} (h : CanTrap s) (hl : i.length = 4) (he : exec i s = finish (raise (privExc i) s)) :
    RaisesPriv s i := by
  rw [privExc, encodingExc, hl] at he
  obtain ⟨t, ht, hs⟩ := raise_taken h { code := 0x02, info0 := word i.encode, info1 := word 4 }
  exact ⟨t, he.trans ht, hs⟩

theorem exec_lnget_user (h : isFerry s.me = false) (d : XReg) :
    exec (.lnget d) s = finish (raise (privExc (.lnget d)) s) := by
  rw [exec_lnget, execLnget, h, check_false]
  rfl

theorem exec_fill_user (h : isFerry s.me = false) (x a : XReg) :
    exec (.fill x a) s = finish (raise (privExc (.fill x a)) s) := by
  rw [exec_fill, execFill, h, check_false]
  rfl

section
variable (hu : isFerry s.me = false) (hs : s.hart.tr.sup = false)
include hu hs

theorem exec_eret_atU : exec .eret s = finish (raise (privExc .eret) s) := by
  rw [exec_eret, execEret, noFerry_user _ hu, bind_ok, needsS_user _ hs hu]
  rfl

theorem exec_halt_atU : exec .halt s = finish (raise (privExc .halt) s) := by
  rw [exec_halt, execHalt, noFerry_user _ hu, bind_ok, needsS_user _ hs hu]
  rfl

theorem exec_ftload_atU (x a : XReg) : exec (.ftload x a) s = finish (raise (privExc (.ftload x a)) s) := by
  rw [exec_ftload, execFtload, needsS_user _ hs hu]
  rfl

theorem ctlReady_atU (i : Instr) {c : Nat} (hc : ctlPriv c = true) (sync : Bool) :
    ctlReady i c sync s = raise (privExc i) s := by
  rw [ctlReady, if_pos hc, needsS_user _ hs hu]
  rfl

theorem readControl_atU (i : Instr) (d : XReg) {c : BitVec 12} (hc : ctlPriv c.toNat = true) (sync : Bool) :
    readControl i d c sync s = finish (raise (privExc i) s) := by
  rw [readControl, ctlReady_atU hu hs i hc]
  rfl

theorem writeControl_atU (i : Instr) (x : XReg) {c : BitVec 12} (hc : ctlPriv c.toNat = true)
    (f : Word → Word → Word × Word) : writeControl i x c f s = finish (raise (privExc i) s) := by
  rw [writeControl, ctlReady_atU hu hs i hc]
  rfl

end

/-- The indices of R259 that only S may use. -/
theorem ctlPriv_of_index {c : BitVec 12}
    (h : 0x020 ≤ c.toNat ∧ c.toNat ≤ 0x02A ∨ c = 0x060 ∨ c = 0x061 ∨ 0x100 ≤ c.toNat) : ctlPriv c.toNat = true := by
  unfold ctlPriv
  rcases h with ⟨hl, hh⟩ | rfl | rfl | h
  · simp [hl, hh]
  · rfl
  · rfl
  · simp [h]

end

/-- Settles O17: each instruction comes to one exception (`exec_trap_user`, `raisesPriv`), which the hart takes
(`trapAfter_taken`, `raise_taken`); a claimed hart stops at BKPT (`exec_bkpt_claimed`). -/
theorem softwareAndPrivilegeTraps : Obligations.SoftwareAndPrivilegeTraps := by
  unfold Obligations.SoftwareAndPrivilegeTraps
  refine ⟨fun s n h => ⟨⟨_, exec_trap_user h.user n, ?trap⟩,
    fun hc => ⟨_, exec_bkpt_unclaimed h.user hc, trapAfter_taken h 4 (bkptExc 0)⟩,
    exec_bkpt_claimed h.user, exec_illegalEncoding_raises s ▸ raise_taken h _⟩,
    fun s x a d c h => ⟨?ferry, fun hs => ?atU⟩⟩
  case trap =>
    rw [trapiExc, word_toNat]
    exact trapAfter_taken h 4 _
  case ferry =>
    simp only [List.forall_mem_cons, List.not_mem_nil, false_implies, implies_true, and_true]
    exact ⟨raisesPriv h rfl (exec_lnget_user h.user d), raisesPriv h rfl (exec_fill_user h.user x a)⟩
  case atU =>
    refine List.forall_mem_append.2 ⟨?_, ?_⟩
    · simp only [List.forall_mem_cons, List.not_mem_nil, false_implies, implies_true, and_true]
      exact ⟨raisesPriv h rfl (exec_eret_atU h.user hs), raisesPriv h rfl (exec_halt_atU h.user hs),
        raisesPriv h rfl (exec_ftload_atU h.user hs x a)⟩
    · split
      next hc =>
        have hp := ctlPriv_of_index hc
        simp only [List.forall_mem_cons, List.not_mem_nil, false_implies, implies_true, and_true]
        exact ⟨raisesPriv h rfl (exec_crd.trans (readControl_atU h.user hs _ d hp _)),
          raisesPriv h rfl (exec_crdSync.trans (readControl_atU h.user hs _ d hp _)),
          raisesPriv h rfl (exec_cwr.trans (writeControl_atU h.user hs _ x hp _)),
          raisesPriv h rfl (exec_cset.trans (writeControl_atU h.user hs _ x hp _)),
          raisesPriv h rfl (exec_cclr.trans (writeControl_atU h.user hs _ x hp _))⟩
      next => exact fun i hi => absurd hi List.not_mem_nil

end Sys2Proof.Machine

namespace Sys2Proof.Machine

/-! ## CRD and what the control registers read (R59, R62, R187, R203, R258 to R260) -/

/-! ### Words built of fields -/

/-- A sum whose first part holds no bit of the second is the word of both. -/
theorem word_or (k : Nat) {a b : Nat} (ha : 2 ^ k ∣ a) (hb : b < 2 ^ k) : word (a + b) = word a ||| word b := by
  obtain ⟨c, rfl⟩ := ha
  rw [Nat.mul_comm, word_add hb]

theorem word_shift {n : Nat} (x : BitVec n) (hn : n ≤ 64) (k : Nat) :
    word (x.toNat * 2 ^ k) = x.zeroExtend 64 <<< k := by
  have hx : x.toNat < 2 ^ 64 := x.isLt.trans_le (Nat.pow_le_pow_right (by decide) hn)
  refine BitVec.eq_of_toNat_eq ?_
  rw [BitVec.toNat_shiftLeft, BitVec.toNat_setWidth, Nat.mod_eq_of_lt hx, Nat.shiftLeft_eq]
  exact BitVec.toNat_ofNat ..

/-- One bit at its place. -/
def flagWord (b : Bool) (i : Nat) : Word := if b then BitVec.ofNat 64 (2 ^ i) else 0

theorem word_bit_mul_pow (b : Bool) (i : Nat) : word (bit b * 2 ^ i) = flagWord b i := by
  cases b
  · exact congrArg word (Nat.zero_mul _)
  · exact congrArg word (Nat.one_mul _)

theorem bit_le_one (b : Bool) : bit b ≤ 1 := by cases b <;> decide

theorem recState_stat (r : RecState) :
    r.stat = r.phase.zeroExtend 64 <<< 62 ||| r.rout.zeroExtend 64 <<< 60 ||| flagWord r.act 59 ||| flagWord r.stop 58 |||
      r.batch.zeroExtend 64 <<< 48 ||| r.level.zeroExtend 64 <<< 40 ||| r.cells.zeroExtend 64 := by
  have hr := r.rout.isLt
  have ha := bit_le_one r.act
  have hs := bit_le_one r.stop
  have hb := r.batch.isLt
  have hl := r.level.isLt
  have hc := r.cells.isLt
  unfold RecState.stat
  rw [word_or 40 (by omega) (by omega), word_or 48 (by omega) (by omega), word_or 58 (by omega) (by omega),
    word_or 59 (by omega) (by omega), word_or 60 (by omega) (by omega), word_or 62 (by omega) (by omega),
    word_shift r.phase (by decide), word_shift r.rout (by decide), word_shift r.batch (by decide),
    word_shift r.level (by decide), word_bit_mul_pow, word_bit_mul_pow, word_toNat]

theorem objWord (r : RecState) :
    word (bit r.objV * 2 ^ 63 + r.objOff.toNat) = flagWord r.objV 63 ||| r.objOff.zeroExtend 64 := by
  have ho := r.objOff.isLt
  rw [word_or 63 (by omega) (by omega), word_bit_mul_pow, word_toNat]

theorem notechWord (q : HeatState) :
    word (bit q.en * 2 ^ 63 + q.drops.toNat * 2 ^ 32 + q.core.toNat * 2 ^ 16 + q.ch.toNat) =
      flagWord q.en 63 ||| q.drops.zeroExtend 64 <<< 32 ||| q.core.zeroExtend 64 <<< 16 ||| q.ch.zeroExtend 64 := by
  have hd := q.drops.isLt
  have hk := q.core.isLt
  have hc := q.ch.isLt
  rw [word_or 16 (by omega) (by omega), word_or 32 (by omega) (by omega), word_or 63 (by omega) (by omega),
    word_shift q.drops (by decide), word_shift q.core (by decide), word_bit_mul_pow, word_toNat]

theorem accWord (t : Tenant) :
    word (t.acc.toNat * 2 ^ 32 + bit t.lim * 2 + bit t.fenceDown) =
      t.acc.zeroExtend 64 <<< 32 ||| flagWord t.lim 1 ||| flagWord t.fenceDown 0 := by
  have hl := bit_le_one t.lim
  have hf := bit_le_one t.fenceDown
  have hd : word (bit t.fenceDown) = flagWord t.fenceDown 0 := by rw [← word_bit_mul_pow, Nat.pow_zero, Nat.mul_one]
  have hm : word (bit t.lim * 2) = flagWord t.lim 1 := word_bit_mul_pow t.lim 1
  rw [word_or 1 (by omega) (by omega), word_or 32 (by omega) (by omega), word_shift t.acc (by decide), hm, hd]

/-! ### The rows of R259 -/

section
variable {s : State}

/-- With nothing to wait for, CRD puts what its index reads in x[d]. -/
theorem readControl_ready (h : ControlReady s) {d : XReg} (hd : Settled [d.toNat] [] s) (i : Instr) (c : BitVec 12)
    (sync : Bool) : readControl i d c sync s =
      .next (s.modHart fun h => (h.setX d.toNat (readCtl c.toNat s)).retire 4) := by
  rw [readControl, ctlReady_ready h, bind_ok, awaitRegs_settled hd, bind_ok, finish_ok, writeX]

theorem exec_crd_ready (h : ControlReady s) {d : XReg} (hd : Settled [d.toNat] [] s) (c : BitVec 12) :
    exec (.crd d c) s = .next (s.modHart fun h => (h.setX d.toNat (readCtl c.toNat s)).retire 4) :=
  exec_crd.trans (readControl_ready h hd _ c false)

theorem exec_crdSync_ready (h : ControlReady s) {d : XReg} (hd : Settled [d.toNat] [] s) (c : BitVec 12) :
    exec (.crdSync d c) s = .next (s.modHart fun h => (h.setX d.toNat (readCtl c.toNat s)).retire 4) :=
  exec_crdSync.trans (readControl_ready h hd _ c true)

/-- Every row of the table is what the model reads there. -/
theorem controlReads_reads (h : ControlReady s) : ∀ row ∈ controlReads s, readCtl row.1.toNat s = row.2 := by
  have htvst : readCtl 0x003 s = 0 := by
    show (if s.hart.vec.held.isEmpty then 0 else s.hart.tr.tvst) = 0
    rw [h.held, List.isEmpty_nil, if_pos rfl]
  have hgrant : readCtl 0x004 s = BitVec.ofNat 64 s.hart.vec.grant := by
    show word (if s.hart.run.running then s.hart.vec.grant else 0) = _
    rw [h.running, if_pos rfl, word]
  have hlanes : readCtl 0x005 s = BitVec.ofNat 64 (32 * s.hart.vec.grant) := by
    show word (if s.hart.run.running then 32 * s.hart.vec.grant else 0) = _
    rw [h.running, if_pos rfl, word]
  have hlen : readCtl 0x012 s = s.hart.lp.llen.zeroExtend 64 := by
    show s.hart.lp.lenWord = _
    rw [LoopState.lenWord, h.loop]
    exact word_toNat _
  have hsup : readCtl 0x02B s = flagWord s.hart.tr.sup 0 := by
    show word (bit s.hart.tr.sup) = _
    rw [← word_bit_mul_pow, Nat.pow_zero, Nat.mul_one]
  have hid : readCtl 0x030 s = BitVec.ofNat 64 (16 * s.hart.id.rank.toNat + s.me) := by
    show s.hart.hartId s.me = _
    rw [Hart.hartId, h.user, if_neg Bool.false_ne_true, Nat.mul_comm, word]
  have hacc : readCtl 0x103 s = _ := accWord s.myTenant
  rw [State.myTenant, Hart.tenantNo, wbits_zero] at hacc
  have hdet : readCtl 0x00C s = s.hart.lp.cthr.zeroExtend 64 <<< 16 ||| flagWord s.hart.lp.det 0 :=
    turns_word s.hart.lp.cthr s.hart.lp.det
  simp only [controlReads, List.forall_mem_append, List.forall_mem_cons, List.not_mem_nil, false_implies, implies_true,
    and_true]
  exact ⟨⟨⟨⟨rfl, rfl, rfl, htvst, hgrant, hlanes, rfl, rfl, rfl, rfl, hdet, rfl, rfl, hlen, rfl⟩,
    objWord s.hart.rc, recState_stat s.hart.rc, rfl, rfl, rfl, rfl, rfl, rfl, rfl, rfl, rfl, rfl, rfl⟩,
    hsup, hid, rfl, rfl, rfl, rfl, rfl, rfl, rfl, rfl, rfl, rfl, rfl, rfl, rfl, rfl, rfl, rfl, rfl, rfl⟩,
    notechWord _, rfl, rfl, rfl, hacc, rfl, rfl, rfl, rfl, rfl⟩

/-! ### VHWn and TGRANT -/

theorem index_vhw (r : VReg) : (0x0C0 + r.zeroExtend 12 : BitVec 12).toNat = 0x0C0 + r.toNat := by
  revert r
  decide

/-- The indices of VHWn read the mark of their register. -/
theorem readCtl_vhw {n : Nat} (hn : n < 32) (s : State) : readCtl (0x0C0 + n) s = word (s.hart.vhw n) := by
  unfold readCtl
  split <;> try omega
  next => rw [if_pos (by omega), Nat.add_sub_cancel_left]

end

theorem wbits_word {n : Nat} (hn : n < 2 ^ 64) (lo k : Nat) : wbits (word n) lo k = n / 2 ^ lo % 2 ^ k := by
  rw [wbits, bits, word, BitVec.toNat_ofNat, Nat.mod_eq_of_lt hn]

theorem getLsbD_word_bit {n i : Nat} {b : Bool} (hi : i < 64) (h : n / 2 ^ i % 2 = bit b) :
    (word n).getLsbD i = b := by
  rw [getLsbD_word, Nat.testBit_eq_decide_div_mod_eq, h]
  cases b <;> simp [bit, hi]

/-- How many tiles and accumulators a hart has claimed. -/
def claimed (h : Hart) : Nat × Nat :=
  let claim := h.tile.claim.getD ([], [])
  (claim.1.length, claim.2.length)

/-- How many accumulators and tiles of its reservation a group has left. -/
def unclaimed (g : Option Group) : Nat × Nat :=
  ((g.map fun g => g.freeAccs.length).getD 0, (g.map fun g => g.freeTiles.length).getD 0)

/-- TGRANT is the sum of its fields, each at its place. -/
theorem tgrant_eq (h : Hart) (g : Option Group) :
    h.tgrant g = word (h.tile.k.toNat * 2 ^ 48 + h.tile.n.toNat * 2 ^ 38 + h.tile.m.toNat * 2 ^ 30 +
      bit h.tile.crew * 2 ^ 29 + ((unclaimed g).1 * 2 ^ 20 + (unclaimed g).2 * 2 ^ 16) +
      ((claimed h).2 * 2 ^ 8 + (claimed h).1)) := by
  unfold Hart.tgrant claimed
  cases h.tile.claim <;> cases g <;> rfl

/-- The fields of TGRANT (R187). -/
theorem tgrant_fields (h : Hart) (g : Option Group) (ht : (claimed h).1 ≤ 8) (ha : (claimed h).2 ≤ 4)
    (hga : (unclaimed g).1 ≤ 4) (hgt : (unclaimed g).2 ≤ 8) :
    let w := h.tgrant g
    wbits w 57 7 = 0 ∧ wbits w 48 9 = h.tile.k.toNat ∧ wbits w 38 10 = h.tile.n.toNat ∧ wbits w 30 8 = h.tile.m.toNat ∧
      w.getLsbD 29 = h.tile.crew ∧ wbits w 23 6 = 0 ∧ wbits w 20 3 = (unclaimed g).1 ∧ wbits w 16 4 = (unclaimed g).2 ∧
      wbits w 11 5 = 0 ∧ wbits w 8 3 = (claimed h).2 ∧ wbits w 4 4 = 0 ∧ wbits w 0 4 = (claimed h).1 := by
  have hk := h.tile.k.isLt
  have hn := h.tile.n.isLt
  have hm := h.tile.m.isLt
  have hc := bit_le_one h.tile.crew
  intro w
  have hw : w = h.tgrant g := rfl
  rw [hw, tgrant_eq]
  generalize h.tile.k.toNat = k at *
  generalize h.tile.n.toNat = n at *
  generalize h.tile.m.toNat = m at *
  generalize (claimed h).1 = t at *
  generalize (claimed h).2 = a at *
  generalize (unclaimed g).1 = ga at *
  generalize (unclaimed g).2 = gt at *
  have hlt : k * 2 ^ 48 + n * 2 ^ 38 + m * 2 ^ 30 + bit h.tile.crew * 2 ^ 29 + (ga * 2 ^ 20 + gt * 2 ^ 16) +
      (a * 2 ^ 8 + t) < 2 ^ 64 := by omega
  simp only [wbits_word hlt]
  refine ⟨?_, ?_, ?_, ?_, getLsbD_word_bit (by decide) ?_, ?_, ?_, ?_, ?_, ?_, ?_, ?_⟩ <;> omega

end Sys2Proof.Machine

namespace Sys2Proof
section
open Machine

/-- Settles O24: with nothing to wait for, CRD puts in x[d] what its index reads (`exec_crd_ready`); the table's rows are
what the model reads there (`controlReads_reads`), and TGRANT is taken apart by its fields (`tgrant_fields`). -/
theorem controlReads : Obligations.ControlReads := by
  unfold Obligations.ControlReads
  intro s d r h hd
  have crd := exec_crd_ready h hd
  have sync := exec_crdSync_ready h hd
  refine ⟨fun c => ⟨_, crd c⟩, fun row hr => ?rows, fun ht ha hga hgt =>
    ⟨_, crd 0x054, tgrant_fields s.hart s.myGroup ht ha hga hgt⟩, ?vhw, sync 0x050, sync 0x051, sync 0x052, sync 0x053⟩
  case rows => rw [crd, controlReads_reads h row hr]
  case vhw =>
    rw [crd, index_vhw, readCtl_vhw r.isLt]
    rfl

end
end Sys2Proof

namespace Sys2Proof.Machine

/-! ## NOP, hints, FENCE, ISYNC, HALT and WAIT (R48, R99, R177, R178, R267, R269, R305) -/

/-! ### FENCE -/

section
variable {s : State}

/-- The waits of a fence of a hart with nothing in flight. -/
theorem fenceWaits_idle (kind n : Nat) (h : Idle s) : ∃ u, fenceWaits kind n s = .ok () u ∧ OnlyHart s.hart s u := by
  have hq : s.hart.ms.stq.any (fun p => p.amo.isSome) = false := by rw [h.stq, List.any_nil]
  by_cases hk : kind = 0
  · refine ⟨s, ?_, .refl s⟩
    rw [fenceWaits, waitVector_empty n h.viq, bind_ok, if_pos hk, hq, if_neg Bool.false_ne_true, bind_ok,
      awaitHeld_empty h.held]
  · obtain ⟨u, hu, ho⟩ := fenceStores_idle n h
    refine ⟨u, ?_, ho⟩
    rw [fenceWaits, waitVector_empty n h.viq, bind_ok, if_neg hk, hu, bind_ok, awaitHeld_empty (ho.hart ▸ h.held)]

/-- Whether a fence of the hart goes down to the package (R178). -/
def fencesDown (scope : BitVec 3) (s : State) : Bool := scope == 5 && s.hart.id.group.isSome && s.myTenant.lim

/-- A fence at a scope beyond HART waits, and drops the constant cache but for a release. -/
theorem execFence_beyondHart {scope : BitVec 3} (kind : BitVec 2) (hs : scope ≠ 0) {t : State}
    (ht : (if fencesDown scope s then s.modTenant s.hart.tenantNo fun t => { t with fenceDown := true } else s) = t) :
    execFence kind scope s = finish ((fenceWaits kind.toNat 7 t).bind fun _ s =>
      .ok () (retireHere 4 (if kind = 1 then s else dropConst s))) := by
  subst ht
  exact if_neg hs

theorem hart_dropConst (s : State) : (dropConst s).hart = s.hart := by
  show ((s.modCore s.here fun k => { k with ccache := [] }).core s.here).hart s.me = s.hart
  rw [core_modCore_same]
  rfl

theorem execFence_idle {scope : BitVec 3} (kind : BitVec 2) (h : Idle s) (hs : scope ≠ 0)
    (hd : scope ≠ 5 ∨ s.hart.id.group = none ∨ s.myTenant.lim = false) :
    ∃ u, OnlyHart s.hart s u ∧
      execFence kind scope s = .next ((if kind = 1 then u else dropConst u).modHart fun h => h.retire 4) := by
  have hk : fencesDown scope s = false := by
    unfold fencesDown
    rcases hd with h5 | hg | hl
    · rw [beq_false_of_ne h5, Bool.false_and, Bool.false_and]
    · rw [hg, Option.isSome_none, Bool.and_false, Bool.false_and]
    · rw [hl, Bool.and_false]
  obtain ⟨u, hu, ho⟩ := fenceWaits_idle kind.toNat 7 h
  refine ⟨u, ho, ?_⟩
  rw [execFence_beyondHart kind hs (by rw [hk, if_neg Bool.false_ne_true]), hu, bind_ok, finish_ok, retireHere]

theorem Idle.modTenant (h : Idle s) (t : Nat) (f : Tenant → Tenant) : Idle (s.modTenant t f) :=
  ⟨h.user, h.viq, h.held, h.stq, h.landing⟩

/-- A fence at SYSTEM of a tenant limited to the package. -/
theorem execFence_down (kind : BitVec 2) (h : Idle s) (hg : s.hart.id.group ≠ none) (hl : s.myTenant.lim = true) :
    ∃ t, execFence kind 5 s = .next t ∧ (t.tenant s.hart.tenantNo).fenceDown = true ∧ t.hart = s.hart.retire 4 ∧
      t.mem = s.mem ∧ t.poison = s.poison := by
  have hk : fencesDown 5 s = true := by
    rw [fencesDown, hl, Option.isSome_iff_ne_none.2 hg]
    rfl
  obtain ⟨u, hu, ho⟩ := fenceWaits_idle kind.toNat 7 (h.modTenant s.hart.tenantNo fun t => { t with fenceDown := true })
  have ht : (u.tenant s.hart.tenantNo).fenceDown = true := by
    rw [State.tenant, ho.wharf]
    exact congrArg Tenant.fenceDown (tenant_modTenant_same s _ _)
  refine ⟨_, (execFence_beyondHart kind (by decide) (if_pos hk)).trans (by rw [hu, bind_ok, finish_ok, retireHere]), ?_⟩
  split
  · exact ⟨ht, (hart_modHart _ _).trans (congrArg (Hart.retire · 4) ho.hart), ho.mem, ho.poison⟩
  · refine ⟨ht, (hart_modHart _ _).trans (congrArg (Hart.retire · 4) ?_), ho.mem, ho.poison⟩
    exact (hart_dropConst u).trans ho.hart

/-! ### ISYNC and HALT -/

/-- The commands of the hart in the copy engine of its core. -/
theorem incomplete_onlyHart {h : Hart} {u : State} (o : OnlyHart h s u) : incomplete false u = incomplete false s := by
  have hh : u.here = s.here := by rw [State.here, o.here]; rfl
  have hc : (u.core s.here).copyFifo = (s.core s.here).copyFifo := by
    have e := congrArg Core.copyFifo (o.cores s.here)
    exact e
  show ((u.core u.here).copyFifo.any fun q => q.hart == u.curHart) = _
  rw [hh, hc, o.me]
  rfl

theorem execIsync_idle (h : Idle s) (hc : incomplete false s = false) :
    ∃ u, OnlyHart s.hart s u ∧ execIsync s = .next ((u.modCore u.here fun k =>
      { k with icache := [], ccache := []
               harts := mapValues (fun _ h => { h.staleBuffers fun _ => true with lead := Lead.none }) k.harts }).modHart
      fun h => h.retire 4) := by
  obtain ⟨t, ht, o⟩ := settleHere_idle h
  have hi := h.of_onlyHart o
  obtain ⟨u, hu, o'⟩ := releaseHere_idle 7 hi
  have ho := o.trans (o.hart ▸ o')
  refine ⟨u, ho, ?_⟩
  rw [execIsync, waitVector_empty 7 h.viq, bind_ok, ht, bind_ok, hu, bind_ok, awaitHeld_empty (ho.hart ▸ h.held), bind_ok,
    incomplete_onlyHart ho, hc, if_neg Bool.false_ne_true, finish_ok, retireHere]

theorem execHalt_idle (h : Idle s) (hs : s.hart.tr.sup = true) :
    ∃ u, OnlyHart s.hart s u ∧ execHalt s = .next
      ((u.modHart fun h =>
        { h.retire 4 with run := { (h.retire 4).run with stopped := true, halted := true, why := 14 } }).modHost
        fun o => { o with irqs := o.irqs ++ [.halt s.curCore s.curHart] }) := by
  obtain ⟨u, hu, ho⟩ := settleHere_idle h
  refine ⟨u, ho, ?_⟩
  rw [execHalt, noFerry_user _ h.user, bind_ok, needsS_sup _ hs, bind_ok, waitVector_empty 5 h.viq, bind_ok, hu, bind_ok,
    finish_ok, ← ho.here, ← ho.me]
  rfl

/-! ### WAIT -/

variable {u : State} {a b : XReg} {p : Nat} {e : TlbEntry}

/-- The read of a WAIT that reaches its word. -/
theorem execWait_reaches (hx : Settled [a.toNat, b.toNat] [] s) (hr : Reaches .read (s.hart.getX a.toNat) 8 p e s u) :
    execWait a b s = finish (
      if BitVec.ofNat 64 (readNat u.mem p 8) ≠ s.hart.getX b.toNat then
        .ok () ((retireHere 4 (countHere e u)).modHart fun h => { h with run := { h.run with wait := none } })
      else .wait 9 (u.modHart fun h => { h with run := { h.run with
        wait := some ⟨s.hart.getX a.toNat, s.hart.getX b.toNat, p, (u.core u.here).cycles, false⟩ } })) := by
  have hv := loadPlace_clean (c := u.here) ((hr.poisoned p 8).trans hr.clean)
  rw [execWait, awaitRegs_settled hx, bind_ok, hr.waiting, Option.isSome_none, if_neg Bool.false_ne_true, waitRead,
    aligned_ok hr.aligned, bind_ok, gvHere, hr.translated, bind_ok, hr.awaitHere, bind_ok, hv, bind_ok, word]

theorem Hart.noWait_retire {h : Hart} (hw : h.run.wait = none) (n : Nat) :
    { h.retire n with run := { (h.retire n).run with wait := none } } = h.retire n := by
  rw [← hw]
  rfl

theorem hart_countHere (e : TlbEntry) (u : State) : (countHere e u).hart = u.hart := by
  obtain ⟨dies, agenda, hc⟩ := countHeat_fields u.here u.hart.tenantNo e u
  rw [countHere, hc]
  rfl

theorem execWait_differs (hx : Settled [a.toNat, b.toNat] [] s) (hr : Reaches .read (s.hart.getX a.toNat) 8 p e s u)
    (hd : BitVec.ofNat 64 (readNat u.mem p 8) ≠ s.hart.getX b.toNat) :
    execWait a b s = .next ((countHeat u.here u.hart.tenantNo e u).modHart fun h => h.retire 4) := by
  have hw : (countHere e u).hart.run.wait = none := by rw [hart_countHere, hr.hart, hr.waiting]
  rw [execWait_reaches hx hr, if_pos hd, finish_ok, retireHere, modHart_modHart]
  refine congrArg Host.Outcome.next (modHart_congr ?_)
  exact Hart.noWait_retire hw 4

theorem execWait_same (hx : Settled [a.toNat, b.toNat] [] s) (hr : Reaches .read (s.hart.getX a.toNat) 8 p e s u)
    (hd : BitVec.ofNat 64 (readNat u.mem p 8) = s.hart.getX b.toNat) :
    ∃ t, execWait a b s = .next t ∧ t.mem = u.mem ∧ t.poison = u.poison ∧ t.wharf = s.wharf ∧
      t.hart = { s.hart with run := { s.hart.run with
        why := 9, wait := some ⟨s.hart.getX a.toNat, s.hart.getX b.toNat, p, (s.core s.here).cycles, false⟩ } } := by
  have v := translate_walked hr.translated
  have hc : (u.core u.here).cycles = (s.core s.here).cycles := by
    rw [hr.here]
    have e := congrArg Core.cycles (v.cores s.here)
    exact e
  refine ⟨_, (execWait_reaches hx hr).trans ((congrArg finish (if_neg (not_not.2 hd))).trans (finish_wait _ _)), rfl, rfl,
    v.wharf, ?_⟩
  rw [stall, hart_modHart, hart_modHart, hr.hart, hc]
  rfl

end

/-- Settles O22: with nothing in flight the waits of FENCE, ISYNC and HALT change nothing (`fenceWaits_idle`,
`settleHere_idle`, `releaseHere_idle`), and WAIT reads its word once (`execWait_reaches`). -/
theorem systemFenceWaitResults : Obligations.SystemFenceWaitResults := by
  unfold Obligations.SystemFenceWaitResults
  refine ⟨fun s kind scope => ⟨rfl, rfl, rfl, ?hart, fun h hs hd => ?fence, fun h hc => ?isync, fun h hs => ?halt⟩,
    fun s kind h hg hl => ?down, fun s u a b p e hx hr => ⟨fun hd => ?differs, fun hd => ?same⟩⟩
  case hart =>
    rw [exec_fence]
    rfl
  case fence =>
    rw [exec_fence]
    exact execFence_idle kind h hs hd
  case isync =>
    rw [exec_isync]
    exact execIsync_idle h hc
  case halt =>
    rw [exec_halt]
    exact execHalt_idle h hs
  case down =>
    rw [exec_fence]
    exact execFence_down kind h hg hl
  case differs =>
    rw [exec_wait]
    exact execWait_differs hx hr hd
  case same =>
    rw [exec_wait]
    exact execWait_same hx hr hd

end Sys2Proof.Machine

namespace Sys2Proof.Machine

/-! ## Mask compares, mask logic, counts and VTEST (R97, R251 to R253, R271, R281) -/

/-! ### Bits of a mask -/

theorem bit_lt_two (b : Bool) : bit b < 2 ^ 1 := by cases b <;> decide

theorem testBit_bit_zero (b : Bool) : (bit b).testBit 0 = b := by cases b <;> rfl

theorem maskBit_putMaskBit (y : MaskBits) (e : Nat) (b : Bool) {j : Nat} (hj : j < 4096) :
    maskBit (putMaskBit y e b) j = if j = e then b else maskBit y j := by
  rw [maskBit, putMaskBit, BitVec.getLsbD_ofNat, decide_eq_true hj, Bool.true_and, testBit_setBits _ (bit_lt_two b),
    BitVec.testBit_toNat]
  rcases Nat.lt_trichotomy j e with h | rfl | h
  · rw [if_pos h, if_neg (Nat.ne_of_lt h), maskBit]
  · rw [if_neg (Nat.lt_irrefl j), if_pos (Nat.lt_succ_self j), if_pos rfl, Nat.sub_self, testBit_bit_zero]
  · rw [if_neg (Nat.not_lt_of_gt h), if_neg (Nat.not_lt_of_ge h), if_neg (Nat.ne_of_gt h), maskBit]

/-- A mask with the bits of some elements written. -/
def putAll (value : Nat → Bool) (es : List Nat) (y : MaskBits) : MaskBits :=
  es.foldl (fun y e => putMaskBit y e (value e)) y

theorem maskBit_putAll (value : Nat → Bool) (es : List Nat) (y : MaskBits) {j : Nat} (hj : j < 4096) :
    maskBit (putAll value es y) j = if j ∈ es then value j else maskBit y j := by
  induction es generalizing y with
  | nil => rfl
  | cons e es ih =>
    rw [putAll, List.foldl_cons, ← putAll, ih, maskBit_putMaskBit y e _ hj]
    by_cases hm : j ∈ es
    · rw [if_pos hm, if_pos (List.mem_cons_of_mem _ hm)]
    · by_cases he : j = e
      · rw [if_neg hm, if_pos he, if_pos (he ▸ List.mem_cons_self), he]
      · rw [if_neg hm, if_neg he, if_neg (by rw [List.mem_cons, not_or]; exact ⟨he, hm⟩)]

/-! ### The first and the last of rising numbers -/

theorem active_rising (x : Hart) (m : MReg) : (x.active m).Pairwise (· < ·) :=
  List.pairwise_lt_range.filter _

theorem head?_of_least {l : List Nat} (hl : l.Pairwise (· < ·)) {e : Nat} (he : e ∈ l) (hmin : ∀ f ∈ l, e ≤ f) :
    l.head? = some e := by
  cases l with
  | nil => exact absurd he List.not_mem_nil
  | cons a l =>
    rcases List.mem_cons.1 he with rfl | he
    · rfl
    · have h1 := List.rel_of_pairwise_cons hl he
      have h2 := hmin a List.mem_cons_self
      omega

theorem getLast?_of_greatest {l : List Nat} (hl : l.Pairwise (· < ·)) {e : Nat} (he : e ∈ l) (hmax : ∀ f ∈ l, f ≤ e) :
    l.getLast? = some e := by
  induction l with
  | nil => exact absurd he List.not_mem_nil
  | cons a l ih =>
    obtain ⟨ha, hl⟩ := List.pairwise_cons.1 hl
    rcases List.mem_cons.1 he with rfl | he
    · cases l with
      | nil => rfl
      | cons b l =>
        have h1 := ha b List.mem_cons_self
        have h2 := hmax b (List.mem_cons_of_mem _ List.mem_cons_self)
        omega
    · rw [List.getLast?_cons, ih hl he fun f hf => hmax f (List.mem_cons_of_mem _ hf), Option.getD_some]

/-! ### An instruction that reads and writes registers at once -/

/-- The instructions on masks: those of R281, R271, R252, R253 and R97. -/
def maskRow : Instr → Bool
  | .vcmp _ _ _ _ _ | .vcmpX _ _ _ _ _ | .vfcmp _ _ _ _ _ | .vfcmpX _ _ _ _ _ | .mand _ _ _ | .mor _ _ _ | .mxor _ _ _
  | .mnot _ _ | .mshl _ _ _ | .mset _ | .mclr _ | .mpop _ _ | .mfirst _ _ | .mlast _ _ | .vtest _ _ _ => true
  | _ => false

/-- The front dispatches an instruction of 4 bytes, which is no LOOP, no MMA.c, no access to memory, and consumes no value
of RIC. -/
structure Plain (i : Instr) : Prop where
  notLoop : ∀ a n, i ≠ .loop a n
  crew : ∀ t, noteCrew i t = t
  access : ownAccess i = none
  length : i.length = 4
  exec : ∀ s, exec i s = issueVector i s
  ric : ∀ h vtype fpctl, consumesRic h i vtype fpctl = false

theorem plain_of_maskRow {i : Instr} (h : maskRow i = true) : Plain i := by
  unfold maskRow at h
  split at h
  case h_16 => exact absurd h Bool.false_ne_true
  all_goals exact ⟨nofun, fun _ => rfl, rfl, rfl, fun _ => rfl, fun _ _ _ => rfl⟩

section
variable {s : State} {i : Instr}

theorem Plain.registerOnly (h : Plain i) (s : State) : RegisterOnly s i where
  notLoop := h.notLoop
  crew := h.crew
  spans := by
    have ho : ownAccess (captureFor s i).instr = none := (captureFor_fresh s i).instr.symm ▸ h.access
    unfold dispatchSpans
    rw [ho]
    rfl
  stride := by
    have ho : ownAccess (entryOf s i).instr = none := (captureFor_fresh s i).instr.symm ▸ h.access
    unfold strideClass
    split
    case h_7 => rfl
    all_goals
      rename_i he
      rw [he] at ho
      exact absurd ho nofun

/-- An instruction that changes the registers of its hart by `g`, with flags `f`. -/
theorem Plain.completes (hp : Plain i) (h : VectorReady s) {g : Hart → Hart} (hg : Commutes g)
    (hq : (g s.hart).ms = s.hart.ms) {f : Nat} (he : vexec s.here s.me (entryOf s i) (dispatchedState s i) =
      .ok (.done f) ((dispatchedState s i).modHartAt s.here s.me g)) : Completes i (g s.hart) 4 f false s := by
  have ht : OnlyHart (g (behind s i [entryOf s i])) (dispatchedState s i) ((dispatchedState s i).modHartAt s.here s.me g) := by
    have := OnlyHart.modHart (dispatchedState s i) g
    rw [← modHartAt_self, show (dispatchedState s i).hart = behind s i [entryOf s i] from hart_dispatched s i] at this
    exact this
  have hd := issueVector_done h (hp.registerOnly s) hg (hq ▸ h.stq) he ht
  rw [hp.length, show consumesHere s i = false from hp.ric _ _ _, ← hp.exec] at hd
  exact hd

/-! ### What reaches a mask -/

/-- Every write of a mask: the bits of the elements below VL that `on` selects take `value`, and the others stay. -/
def SetsMask (i : Instr) (d : MReg) (on value : Nat → Bool) (f : Nat) (s : State) : Prop :=
  ∃ y : MaskBits,
    (∀ e, e < 4096 → maskBit y e = if e < s.hart.vec.vl ∧ on e = true then value e else maskBit (s.hart.getM d.toNat) e) ∧
    Completes i (s.hart.setM d.toNat y) 4 f false s

theorem commutes_setM (n : Nat) (y : MaskBits) : Commutes fun x => x.setM n y := by
  intro h pc fp run viq
  unfold Hart.setM
  split <;> rfl

/-- An instruction that writes the bits of the elements `es` of a mask. -/
theorem Plain.setsMask (hp : Plain i) (h : VectorReady s) {d : MReg} {on value : Nat → Bool} {f : Nat} {es : List Nat}
    (hes : ∀ e, e ∈ es ↔ e < s.hart.vec.vl ∧ on e = true)
    (he : vexec s.here s.me (entryOf s i) (dispatchedState s i) = .ok (.done f)
      ((dispatchedState s i).modHartAt s.here s.me fun x => x.setM d.toNat (putAll value es (s.hart.getM d.toNat)))) :
    SetsMask i d on value f s := by
  refine ⟨putAll value es (s.hart.getM d.toNat), fun e hlt => ?_, hp.completes h (commutes_setM _ _) (setM_ms _ _ _) he⟩
  rw [maskBit_putAll value es _ hlt]
  exact if_congr (hes e) rfl rfl

/-! ### Mask logic -/

/-- Mask logic writes every element below VL. -/
theorem setsMask_of_writeMask (hp : Plain i) (h : VectorReady s) {d : MReg} {value : Hart → Nat → Bool}
    (hvl : (entryOf s i).vl = s.hart.vec.vl)
    (hv : ∀ x pc fp run viq, value (Hart.front x pc fp run viq) = value x)
    (he : vexec s.here s.me (entryOf s i) (dispatchedState s i) =
      writeMask s.here s.me (entryOf s i) d value (dispatchedState s i)) :
    SetsMask i d (fun _ => true) (value s.hart) 0 s := by
  refine hp.setsMask h (es := indices (entryOf s i).vl) (fun e => ?_) (he.trans ?_)
  · rw [indices, List.mem_range, hvl]
    exact (and_iff_left rfl).symm
  · have hb : value (behind s i [entryOf s i]) = value s.hart := hv _ _ _ _ _
    have hf : (entryOf s i).flags = 0 := (captureFor_fresh s i).flags
    simp only [writeMask, hart_dispatched, hb, hf]
    rfl

/-! ### Compares -/

/-- What a compare gives for an element: its relation on the bits or on the values of its operands, with the flags. -/
def compareOf (float : Bool) (cc : BitVec 3) (ty p q : Nat) : Bool × Nat :=
  if float then fpRelation cc.toNat (valueOf ty p) (valueOf ty q) else (intRelation cc.toNat (typeBits ty) p q, 0)

/-- The bits of the second operand of a compare: an element of a register, or the low bits of an x register. -/
def operandOf (x : Hart) (ty : Nat) (b : Src) (e : Nat) : Nat :=
  match b with
  | .reg r => elemOf (x.getV r) (typeBits ty) e
  | .scalar w => w.toNat % 2 ^ typeBits ty
  | .none => 0

theorem srcElem_fst (c h : Nat) (x : Hart) (t : State) (ty o e : Nat) (b : Src) :
    (srcElem c h x t ty o e b).1 = operandOf x ty b e := by
  cases b <;> rfl

theorem requirePresent_empty {c : Nat} {t : State} (he : (t.core c).land.entries = []) (h : Nat) (l : List (Nat × Nat))
    (n : Nat) : requirePresent c h l n t = .ok () t := by
  rw [requirePresent, if_pos]
  exact List.all_eq_true.2 fun p _ => presentElem_empty he h p.1 n p.2

/-- The types that a compare accepts. -/
def comparable (float : Bool) (ty : Nat) : Prop := if float then floatTypes.contains ty = true else ty < 8

/-- A compare where no element is a hole. -/
theorem compare_noHoles {c h : Nat} {t : State} (he : (t.core c).land.entries = []) {v : VEntry} (hs : v.start = 0)
    (hl : v.limit = none) (hf : v.flags = 0) (hsc : v.scaled = false) {float : Bool} (hty : comparable float v.ty)
    (d : MReg) (a : VReg) (b : Src) (m : MReg) (cc : BitVec 3) :
    let x := t.hartAt c h
    let es := activeElems x m.toNat v.vl
    let r := fun e => compareOf float cc v.ty (elemOf (x.getV a.toNat) (typeBits v.ty) e) (operandOf x v.ty b e)
    compare c h v float d a b m cc t = .ok (.done (es.foldl (fun f e => f ||| (r e).2) 0))
      (t.modHartAt c h fun y => y.setM d.toNat (putAll (fun e => (r e).1) es (y.getM d.toNat))) := by
  intro x es r
  have hrefused : (v.scaled || (if float then !floatTypes.contains v.ty else decide (8 ≤ v.ty))) = false := by
    cases float
    · simpa [comparable, hsc] using hty
    · simpa [comparable, hsc] using hty
  have hrem : v.remaining x m.toNat = es := by simp [VEntry.remaining, hs, es]
  have hstop : v.stopIn es = none := by rw [VEntry.stopIn, hl]
  have hall : es.filter (fun e => !beyond none e) = es := List.filter_eq_self.2 fun _ _ => rfl
  have hres : ∀ e, (if float then (e, fpRelation cc.toNat (valueOf v.ty (elemOf (x.getV a.toNat) (typeBits v.ty) e))
        (valueOf v.ty (operandOf x v.ty b e)))
      else (e, intRelation cc.toNat (typeBits v.ty) (elemOf (x.getV a.toNat) (typeBits v.ty) e) (operandOf x v.ty b e), 0)) =
      (e, r e) := fun e => by cases float <;> rfl
  unfold compare
  simp only [hrefused, Bool.false_eq_true, if_false, show t.hartAt c h = x from rfl, hrem, hstop, hall,
    requirePresent_empty he, bind_ok, srcElem_fst, hres, List.foldl_map, hf]
  rfl

/-- A compare of a hart with nothing in flight writes the active elements below VL. -/
theorem setsMask_of_compare (hp : Plain i) (h : VectorReady s) (hvl : (entryOf s i).vl = s.hart.vec.vl)
    (hvt : (entryOf s i).vtype = s.hart.vec.vtype) (hsc : s.hart.vec.vtype.getLsbD 4 = false) {float : Bool}
    (hty : comparable float s.hart.ty) {d m : MReg} {a : VReg} {b : Src} {cc : BitVec 3}
    (he : vexec s.here s.me (entryOf s i) (dispatchedState s i) =
      compare s.here s.me (entryOf s i) float d a b m cc (dispatchedState s i)) :
    let r := fun e => compareOf float cc s.hart.ty (elemOf (s.hart.getV a.toNat) (typeBits s.hart.ty) e)
      (operandOf s.hart s.hart.ty b e)
    SetsMask i d (maskBit (s.hart.getM m.toNat)) (fun e => (r e).1)
      ((s.hart.active m).foldl (fun f e => f ||| (r e).2) 0) s := by
  intro r
  have hf := captureFor_fresh s i
  have hty' : (entryOf s i).ty = s.hart.ty := by rw [VEntry.ty, hvt, Hart.ty]
  have hc := compare_noHoles (c := s.here) (h := s.me) (entries_dispatched h i) (v := entryOf s i) hf.start hf.limit hf.flags
    ((congrArg (fun w => w.getLsbD 4) hvt).trans hsc) (hty'.symm ▸ hty) d a b m cc
  have hop : ∀ e, operandOf (behind s i [entryOf s i]) s.hart.ty b e = operandOf s.hart s.hart.ty b e := fun e => by
    cases b <;> rfl
  simp only [hart_dispatched, active_behind, getV_behind, hty', hvl, hop] at hc
  refine hp.setsMask h (es := s.hart.active m) (fun e => ?_) (he.trans (hc.trans ?_))
  · rw [Hart.active, activeElems, positions, List.mem_filter, List.mem_range]
  · have hm : (dispatchedState s i).modHartAt s.here s.me (fun y =>
          y.setM d.toNat (putAll (fun e => (r e).1) (s.hart.active m) (y.getM d.toNat))) =
        (dispatchedState s i).modHartAt s.here s.me (fun y =>
          y.setM d.toNat (putAll (fun e => (r e).1) (s.hart.active m) (s.hart.getM d.toNat))) := by
      rw [State.modHartAt, State.modHartAt, hart_dispatched]
      rfl
    exact congrArg (Res.ok _) hm

/-! ### Counts and VTEST -/

theorem commutes_setX (n : Nat) (w : Word) : Commutes fun x => x.setX n w := by
  intro h pc fp run viq
  unfold Hart.setX
  split <;> rfl

/-- MPOP, MFIRST and MLAST give x[d] their function of the set elements. -/
theorem completes_of_maskToX (hp : Plain i) (h : VectorReady s) (hvl : (entryOf s i).vl = s.hart.vec.vl) {d : BitVec 5}
    {p : MReg} {f : List Nat → Word} (he : vexec s.here s.me (entryOf s i) (dispatchedState s i) =
      maskToX s.here s.me (entryOf s i) d p f (dispatchedState s i)) :
    Completes i (s.hart.setX d.toNat (f (s.hart.active p))) 4 0 false s := by
  have hf : (entryOf s i).flags = 0 := (captureFor_fresh s i).flags
  refine hp.completes h (commutes_setX _ _) (setX_ms _ _ _) (he.trans ?_)
  simp only [maskToX, setElems, hart_dispatched, active_behind, hvl, hf]
  rfl

/-- What VTEST finds in the set elements of `vl`: 0 any, 1 none, 2 all. -/
def testOf (cond : BitVec 4) (on : List Nat) (vl : Nat) : Bool :=
  match cond.toNat with
  | 0 => decide (0 < on.length)
  | 1 => on.length == 0
  | _ => on.length == vl

theorem completes_of_runVtest (hp : Plain i) (h : VectorReady s) (hvl : (entryOf s i).vl = s.hart.vec.vl) {k : KReg}
    {p : MReg} {cond : BitVec 4} (he : vexec s.here s.me (entryOf s i) (dispatchedState s i) =
      runVtest s.here s.me (entryOf s i) k p cond (dispatchedState s i)) :
    Completes i (s.hart.setK k.toNat (testOf cond (s.hart.active p) s.hart.vec.vl)) 4 0 false s := by
  have hf : (entryOf s i).flags = 0 := (captureFor_fresh s i).flags
  refine hp.completes h (g := fun x => x.setK k.toNat (testOf cond (s.hart.active p) s.hart.vec.vl))
    (fun _ _ _ _ _ => rfl) rfl (he.trans ?_)
  simp only [runVtest, setElems, hart_dispatched, active_behind, hvl, hf]
  rfl

end

theorem testOf_any (on : List Nat) (vl : Nat) : testOf 0 on vl = on.any fun _ => true := by
  cases on with
  | nil => rfl
  | cons _ on => exact decide_eq_true (Nat.succ_pos on.length)

theorem testOf_none (on : List Nat) (vl : Nat) : testOf 1 on vl = on.isEmpty := by
  cases on <;> rfl

theorem testOf_all (vl : Nat) (on : Nat → Bool) : testOf 2 ((List.range vl).filter on) vl = (List.range vl).all on := by
  have h := List.length_filter_eq_length_iff (p := on) (l := List.range vl)
  rw [List.length_range] at h
  exact Bool.eq_iff_iff.2 (beq_iff_eq.trans (h.trans List.all_eq_true.symm))

/-! ### The relations of R281 on bits below a width -/

/-- The relations of VCMP on the bits of two elements: 2 and 3 of their signed readings, 4 and 5 of the natural ones. -/
def bitRelation (cc n p q : Nat) : Bool :=
  match cc with
  | 0 => decide (p = q)
  | 1 => decide (p ≠ q)
  | 2 => decide ((BitVec.ofNat n p).toInt < (BitVec.ofNat n q).toInt)
  | 3 => decide ((BitVec.ofNat n q).toInt ≤ (BitVec.ofNat n p).toInt)
  | 4 => decide (p < q)
  | _ => decide (q ≤ p)

theorem intRelation_eq (cc : Nat) {n p q : Nat} (hn : 0 < n) (hp : p < 2 ^ n) (hq : q < 2 ^ n) :
    intRelation cc n p q = bitRelation cc n p q := by
  have hp' := Nat.mod_eq_of_lt hp
  have hq' := Nat.mod_eq_of_lt hq
  match cc with
  | 0 => rw [intRelation, hp', hq', beq_eq_decide, bitRelation]
  | 1 => rw [intRelation, hp', hq', bne, beq_eq_decide, bitRelation, decide_not]
  | 2 => rw [intRelation, signedOf_eq n p hn, signedOf_eq n q hn, bitRelation]
  | 3 => rw [intRelation, signedOf_eq n p hn, signedOf_eq n q hn, bitRelation]
  | 4 => rw [intRelation, hp', hq', bitRelation]
  | k + 5 => exact congrArg₂ (fun a b => decide (a ≤ b)) hq' hp'

theorem typeBits_pos (ty : Nat) : 0 < typeBits ty := by
  unfold typeBits
  split <;> decide

theorem operandOf_lt (x : Hart) (ty : Nat) (b : Src) (e : Nat) : operandOf x ty b e < 2 ^ typeBits ty := by
  cases b with
  | none => exact Nat.two_pow_pos _
  | reg => exact Nat.mod_lt _ (Nat.two_pow_pos _)
  | scalar => exact Nat.mod_lt _ (Nat.two_pow_pos _)

theorem foldl_noFlags (es : List Nat) : es.foldl (fun f _ => f ||| 0) 0 = 0 := by
  induction es with
  | nil => rfl
  | cons _ _ ih => exact ih

/-- VCMP writes the relation of the bits, and sets no flag. -/
theorem setsMask_of_vcmp {s : State} {i : Instr} (hp : Plain i) (h : VectorReady s)
    (hvl : (entryOf s i).vl = s.hart.vec.vl) (hvt : (entryOf s i).vtype = s.hart.vec.vtype)
    (hsc : s.hart.vec.vtype.getLsbD 4 = false) (hty : s.hart.ty < 8) {d m : MReg} {a : VReg} {b : Src} {cc : BitVec 3}
    (he : vexec s.here s.me (entryOf s i) (dispatchedState s i) =
      compare s.here s.me (entryOf s i) false d a b m cc (dispatchedState s i)) :
    SetsMask i d (maskBit (s.hart.getM m.toNat)) (fun e => bitRelation cc.toNat (typeBits s.hart.ty)
      (elemOf (s.hart.getV a.toNat) (typeBits s.hart.ty) e) (operandOf s.hart s.hart.ty b e)) 0 s := by
  have hc := setsMask_of_compare hp h hvl hvt hsc (float := false) hty he
  have hr : ∀ e, intRelation cc.toNat (typeBits s.hart.ty) (elemOf (s.hart.getV a.toNat) (typeBits s.hart.ty) e)
        (operandOf s.hart s.hart.ty b e) = bitRelation cc.toNat (typeBits s.hart.ty)
        (elemOf (s.hart.getV a.toNat) (typeBits s.hart.ty) e) (operandOf s.hart s.hart.ty b e) := fun e =>
    intRelation_eq _ (typeBits_pos _) (Nat.mod_lt _ (Nat.two_pow_pos _)) (operandOf_lt _ _ b e)
  simp only [compareOf, Bool.false_eq_true, if_false, foldl_noFlags, hr] at hc
  exact hc

/-- An instruction that takes VL again from VLMAX as it enters the VIQ keeps a VL that fits. -/
theorem vl_fits {h : Hart} (hf : h.VlFits) : Nat.min h.vec.vl (vlMax h.vec.grant h.ty) = h.vec.vl := Nat.min_eq_left hf

section
variable {s : State} (h : VectorReady s)
include h

theorem mpop_completes (d : BitVec 5) (p : MReg) :
    Completes (.mpop d p) (s.hart.setX d.toNat (word (s.hart.active p).length)) 4 0 false s :=
  completes_of_maskToX (plain_of_maskRow rfl) h rfl (f := fun l => word l.length) rfl

theorem mfirst_completes (d : BitVec 5) (p : MReg) :
    Completes (.mfirst d p) (s.hart.setX d.toNat (indexOrOnes (s.hart.active p).head?)) 4 0 false s :=
  completes_of_maskToX (plain_of_maskRow rfl) h rfl (f := fun l => indexOrOnes l.head?) rfl

theorem mlast_completes (d : BitVec 5) (p : MReg) :
    Completes (.mlast d p) (s.hart.setX d.toNat (indexOrOnes (s.hart.active p).getLast?)) 4 0 false s :=
  completes_of_maskToX (plain_of_maskRow rfl) h rfl (f := fun l => indexOrOnes l.getLast?) rfl

theorem vtest_completes (k : KReg) (p : MReg) (cond : BitVec 4) :
    Completes (.vtest k p cond) (s.hart.setK k.toNat (testOf cond (s.hart.active p) s.hart.vec.vl)) 4 0 false s :=
  completes_of_runVtest (plain_of_maskRow rfl) h rfl rfl

end

/-- Settles O40: each instruction runs at once and changes one register of its hart (`Plain.completes`): compares and mask
logic a mask (`Plain.setsMask`), counts an x register, and VTEST a k register. -/
theorem maskResults : Obligations.MaskResults := by
  unfold Obligations.MaskResults
  intro s d p q m a b x cc sh dx k h _
  refine ⟨fun hfit hsc => ⟨fun hty _ => ⟨?vcmp, ?vcmpX⟩, fun hty => ⟨?vfcmp, ?vfcmpX⟩⟩,
    ?mand, ?mor, ?mxor, ?mnot, ?mshl, ?mset, ?mclr, ?mpop, fun e he hmin => ?mfirst, fun e he hmax => ?mlast,
    fun hn => ⟨?mfirstNone, ?mlastNone⟩, ?any, ?none, ?all⟩
  case mpop => exact mpop_completes h dx p
  case mfirst =>
    have hf := mfirst_completes h dx p
    rw [head?_of_least (active_rising s.hart p) he hmin] at hf
    exact hf
  case mlast =>
    have hl := mlast_completes h dx p
    rw [getLast?_of_greatest (active_rising s.hart p) he hmax] at hl
    exact hl
  case mfirstNone =>
    have hf := mfirst_completes h dx p
    rw [show s.hart.active p = [] from hn] at hf
    exact hf
  case mlastNone =>
    have hl := mlast_completes h dx p
    rw [show s.hart.active p = [] from hn] at hl
    exact hl
  case any =>
    have ht := vtest_completes h k p 0
    rw [testOf_any] at ht
    exact ht
  case none =>
    have ht := vtest_completes h k p 1
    rw [testOf_none] at ht
    exact ht
  case all =>
    have ht := vtest_completes h k p 2
    rw [Hart.active, activeElems, positions, testOf_all] at ht
    exact ht
  case mand =>
    exact setsMask_of_writeMask (value := fun x e => maskBit (x.getM p.toNat) e && maskBit (x.getM q.toNat) e)
      (plain_of_maskRow rfl) h rfl (fun _ _ _ _ _ => rfl) rfl
  case mor =>
    exact setsMask_of_writeMask (value := fun x e => maskBit (x.getM p.toNat) e || maskBit (x.getM q.toNat) e)
      (plain_of_maskRow rfl) h rfl (fun _ _ _ _ _ => rfl) rfl
  case mxor =>
    exact setsMask_of_writeMask (value := fun x e => maskBit (x.getM p.toNat) e != maskBit (x.getM q.toNat) e)
      (plain_of_maskRow rfl) h rfl (fun _ _ _ _ _ => rfl) rfl
  case mnot =>
    exact setsMask_of_writeMask (value := fun x e => !maskBit (x.getM p.toNat) e)
      (plain_of_maskRow rfl) h rfl (fun _ _ _ _ _ => rfl) rfl
  case mshl =>
    exact setsMask_of_writeMask (value := fun x e => decide (sh.toNat ≤ e) && maskBit (x.getM p.toNat) (e - sh.toNat))
      (plain_of_maskRow rfl) h rfl (fun _ _ _ _ _ => rfl) rfl
  case mset =>
    exact setsMask_of_writeMask (value := fun _ _ => true)
      (plain_of_maskRow rfl) h rfl (fun _ _ _ _ _ => rfl) rfl
  case mclr =>
    exact setsMask_of_writeMask (value := fun _ _ => false)
      (plain_of_maskRow rfl) h rfl (fun _ _ _ _ _ => rfl) rfl
  case vcmp =>
    exact setsMask_of_vcmp (i := .vcmp d a b m cc) (b := .reg b.toNat) (plain_of_maskRow rfl) h (vl_fits hfit) rfl hsc hty rfl
  case vcmpX =>
    exact setsMask_of_vcmp (i := .vcmpX d a x m cc) (b := .scalar (s.hart.getX x.toNat)) (plain_of_maskRow rfl) h
      (vl_fits hfit) rfl hsc hty rfl
  case vfcmp =>
    exact setsMask_of_compare (i := .vfcmp d a b m cc) (b := .reg b.toNat) (float := true) (plain_of_maskRow rfl) h
      (vl_fits hfit) rfl hsc (List.elem_eq_true_of_mem hty) rfl
  case vfcmpX =>
    exact setsMask_of_compare (i := .vfcmpX d a x m cc) (b := .scalar (s.hart.getX x.toNat)) (float := true)
      (plain_of_maskRow rfl) h (vl_fits hfit) rfl hsc (List.elem_eq_true_of_mem hty) rfl

end Sys2Proof.Machine

namespace Sys2Proof.Machine

/-! ## VSETL and VGRANT (R57, R58, R61, R221, R289) -/

section
variable {s : State}

/-! ### VSETL -/

theorem vsetlWord_eq (t2 ty : BitVec 4) (sc : BitVec 1) :
    vsetlWord t2 sc ty = t2.zeroExtend 64 <<< 8 ||| sc.zeroExtend 64 <<< 4 ||| ty.zeroExtend 64 := by
  have hs := sc.isLt
  have ht := ty.isLt
  rw [vsetlWord, word_or 4 (by omega) (by omega), word_or 8 (by omega) (by omega), word_shift t2 (by decide),
    word_shift sc (by decide), word_toNat]

/-- The type of a strip is what VSETL names. -/
theorem wbits_vsetlWord (t2 ty : BitVec 4) (sc : BitVec 1) : wbits (vsetlWord t2 sc ty) 0 4 = ty.toNat := by
  have hs := sc.isLt
  have h2 := t2.isLt
  have ht := ty.isLt
  rw [vsetlWord, wbits_word (by omega)]
  omega

theorem execVsetl_sets {d a : XReg} (t2 ty : BitVec 4) (sc : BitVec 1) (hu : isFerry s.me = false)
    (hx : Settled [d.toNat, a.toNat] [] s) (h2 : t2 ≠ 15) (ht : ty ≠ 15) :
    let vl := Nat.min (s.hart.getX a.toNat).toNat (256 * s.hart.vec.grant / typeBits ty.toNat)
    execVsetl d a t2 sc ty s = .next (s.modHart fun h =>
      ({ h with vec := { h.vec with vtype := vsetlWord t2 sc ty, vl := vl } }.setX d.toNat (word vl)).retire 4) := by
  intro vl
  rw [execVsetl, noFerry_user _ hu, bind_ok, awaitRegs_settled hx, bind_ok]
  simp only [if_neg (not_or_intro ht h2), Hart.setVl, wbits_vsetlWord, finish_ok]
  exact congrArg Host.Outcome.next (modHart_congr rfl)

theorem execVsetl_format {d a : XReg} {t2 ty : BitVec 4} (sc : BitVec 1) (hu : isFerry s.me = false)
    (hx : Settled [d.toNat, a.toNat] [] s) (h : t2 = 15 ∨ ty = 15) :
    execVsetl d a t2 sc ty s = finish (raise (formatExc (vsetlWord t2 sc ty) 0x001) s) := by
  rw [execVsetl, noFerry_user _ hu, bind_ok, awaitRegs_settled hx, bind_ok]
  simp only [if_pos h.symm]

/-! ### VGRANT -/

theorem grantGate_idle (h : Idle s) (ha : s.hart.rc.act = false) (hw : s.hart.ms.window = none) :
    grantGate s = .ok () s := by
  rw [grantGate, waitVector_empty 5 h.viq, bind_ok, outsideBatch_idle ha, bind_ok, noWindow_none hw]

/-- A hart that has captured nothing has no entry to change. -/
theorem mapEntries_empty {x : Hart} (hq : x.vec.viq = []) (hh : x.vec.held = []) (hl : x.lp.loop = none)
    (f : VEntry → VEntry) : x.mapEntries f = x := by
  unfold Hart.mapEntries
  have eq : x.vec.viq.map f = x.vec.viq := by rw [hq]; rfl
  have eh : x.vec.held.map f = x.vec.held := by rw [hh]; rfl
  have el : (x.lp.loop.map fun l => { l with body := l.body.map f }) = x.lp.loop := by rw [hl]; rfl
  rw [eq, eh, el]

theorem dropEntries_hartAt (c n d i : Nat) (s : State) : (dropEntries c n s).hartAt d i = s.hartAt d i :=
  hartAt_modCore s c d i (f := fun k =>
    { k with land := { k.land with entries := k.land.entries.filter fun e => decide (e.2.hart.toNat ≠ n) } }) fun _ => rfl

theorem clearVectors_hartAt {c n : Nat} {x : Hart} (hx : s.hartAt c n = x) (hq : x.vec.viq = [])
    (hh : x.vec.held = []) (hl : x.lp.loop = none) :
    (clearVectors c n s).hartAt c n = { x with vec := { x.vec with v := [], side := [], written := [] } } := by
  rw [clearVectors, hartAt_modHartAt_same, dropEntries_hartAt, hx]
  refine mapEntries_empty ?_ ?_ ?_ _
  exacts [hq, hh, hl]

theorem pool_modHartAt (c h d : Nat) (f : Hart → Hart) (s : State) :
    ((s.modHartAt c h f).core d).pool = (s.core d).pool := by
  unfold State.modHartAt State.setHartAt
  by_cases hd : d = c
  · rw [hd, core_setCore_same]
    rfl
  · rw [core_setCore_ne _ _ hd]

theorem clearVectors_pool (c n : Nat) (s : State) : ((clearVectors c n s).core c).pool = (s.core c).pool := by
  rw [clearVectors, pool_modHartAt, dropEntries, core_modCore_same]

theorem OnlyHart.at_here {h : Hart} {s t : State} (o : OnlyHart h s t) : t.here = s.here ∧ t.me = s.me :=
  ⟨congrArg BitVec.toNat o.here, congrArg BitVec.toNat o.me⟩

theorem OnlyHart.pool {h : Hart} {s t : State} (o : OnlyHart h s t) (c : Nat) : (t.core c).pool = (s.core c).pool :=
  have e := congrArg Core.pool (o.cores c)
  e

/-- The grant that a request of `w` lanes gives (R61). -/
def grantFor (h : Hart) (w : Word) (pool : Nat) : Nat :=
  let want := Nat.min (Nat.max w.toNat 1) 64
  if want < h.vec.grant then want else h.vec.grant + Nat.min (want - h.vec.grant) pool

theorem execVgrant_idle (d a : XReg) (h : Idle s) (ha : s.hart.rc.act = false) (hw : s.hart.ms.window = none)
    (hl : s.hart.lp.loop = none) :
    let pool := (s.core s.here).pool
    let g := grantFor s.hart (s.hart.getX a.toNat) pool
    ∃ t, execVgrant d a s = .next t ∧ t.mem = s.mem ∧ (t.core s.here).pool = pool + s.hart.vec.grant - g ∧
      t.hart = ({ s.hart with
          vec := { s.hart.vec with v := [], side := [], written := [], grant := g, vl := 0 } }.setX d.toNat (word g)).retire 4 := by
  intro pool g
  obtain ⟨u, hu, o⟩ := settleHere_idle h
  obtain ⟨hc, hm⟩ := o.at_here
  have hp : (u.core u.here).pool = pool := by rw [hc, o.pool]
  let v := u.modCore u.here fun k => { k with pool := pool + s.hart.vec.grant - g }
  have hv : v.hartAt v.here v.me = s.hart := by
    rw [← o.hart]
    exact hartAt_modCore u _ _ _ (f := fun k => { k with pool := pool + s.hart.vec.grant - g }) fun _ => rfl
  have hx : (clearVectors v.here v.me v).hart =
      { s.hart with vec := { s.hart.vec with v := [], side := [], written := [] } } :=
    clearVectors_hartAt hv h.viq h.held hl
  refine ⟨(clearVectors v.here v.me v).modHart fun h =>
    ({ h with vec := { h.vec with grant := g, vl := 0 } }.setX d.toNat (word g)).retire 4, ?_, o.mem, ?_, ?_⟩
  · rw [execVgrant, noFerry_user _ h.user, bind_ok, awaitRegs_settled (h.settled _ _), bind_ok,
      grantGate_idle h ha hw, bind_ok, hu, bind_ok]
    simp only [o.hart, hp, finish_ok]
    rfl
  · rw [← hc, ← modHartAt_self, pool_modHartAt]
    exact (clearVectors_pool _ _ v).trans (congrArg Core.pool (core_modCore_same u _ _))
  · rw [hart_modHart, hx]

end

/-- Settles O30: VSETL comes to a strip (`execVsetl_sets`) or to FORMAT (`execVsetl_format`); the settle of VGRANT changes
nothing, its lanes come from the pool or go back, and the registers are cleared (`execVgrant_idle`). -/
theorem stripAndGrantResults : Obligations.StripAndGrantResults := by
  unfold Obligations.StripAndGrantResults
  refine ⟨fun s d a t2 ty sc hu hx => ⟨fun h2 ht => ?sets, fun h hc => ?format⟩, fun s d a h ha hw hl => ?grant⟩
  case sets =>
    have e := execVsetl_sets t2 ty sc hu hx h2 ht
    rw [vsetlWord_eq] at e
    exact e
  case format =>
    rw [exec_vsetl, execVsetl_format sc hu hx h, vsetlWord_eq]
    exact raise_taken hc _
  case grant => exact execVgrant_idle d a h ha hw hl
end Sys2Proof.Machine

namespace Sys2Proof.Machine

/-! ## The integer lane instructions (R50, R60, R74, R123, R279) -/

/-! ### Integer functions on the bits of a width -/

theorem signedOf_cases (n w : Nat) : signedOf n w = (w % 2 ^ n : Nat) ∨ signedOf n w = (w % 2 ^ n : Nat) - (2 ^ n : Nat) := by
  unfold signedOf
  dsimp only
  split
  · exact .inl rfl
  · exact .inr rfl

/-- A signed reading has the bits that it was read from. -/
theorem signedOf_emod (n w : Nat) : signedOf n w % (2 ^ n : Nat) = (w % 2 ^ n : Nat) := by
  rcases signedOf_cases n w with h | h <;> rw [h]
  · rw [← Int.natCast_emod, Nat.mod_mod]
  · rw [Int.sub_emod, Int.emod_self, Int.sub_zero, Int.emod_emod, ← Int.natCast_emod, Nat.mod_mod]

theorem wrap_natCast (n p : Nat) : wrap n (p : Int) = p % 2 ^ n := rfl

theorem wrap_signed_sub {n p q : Nat} (hp : p < 2 ^ n) (hq : q < 2 ^ n) :
    wrap n (signedOf n p - signedOf n q) = (p + 2 ^ n - q) % 2 ^ n := by
  have e : (signedOf n p - signedOf n q) % (2 ^ n : Nat) = ((p + 2 ^ n - q : Nat) : Int) % (2 ^ n : Nat) := by
    rw [Int.sub_emod, signedOf_emod, signedOf_emod, Nat.mod_eq_of_lt hp, Nat.mod_eq_of_lt hq, Nat.cast_sub (by omega),
      Nat.cast_add, show ((p : Int) + (2 ^ n : Nat) - q) = (p - q) + (2 ^ n : Nat) by omega, Int.add_emod_right]
  rw [wrap, e]
  rfl

theorem wrap_signed_mul {n p q : Nat} (hp : p < 2 ^ n) (hq : q < 2 ^ n) :
    wrap n (signedOf n p * signedOf n q) = p * q % 2 ^ n := by
  have e : (signedOf n p * signedOf n q) % (2 ^ n : Nat) = ((p * q : Nat) : Int) % (2 ^ n : Nat) := by
    rw [Int.mul_emod, signedOf_emod, signedOf_emod, Nat.mod_eq_of_lt hp, Nat.mod_eq_of_lt hq, Nat.cast_mul]
  rw [wrap, e]
  rfl

/-- The integer type whose bits the lanes take an element of a type as (R279). -/
def intType (ty : Nat) : Nat :=
  match ty with
  | 9 => 8 | 11 => 9 | 12 => 9 | 13 => 10 | 14 => 11
  | t => t

theorem intBits_intType {ty : Nat} (h : ty ≠ 10) (hl : ty < 15) : intBits (intType ty) = typeBits ty := by
  have all : ∀ ty < 15, ty ≠ 10 → intBits (intType ty) = typeBits ty := by decide
  exact all ty hl h

/-- A lane function that takes `n` bits of each operand to `f` of them, with no flag. -/
def TakesBits (fn : LaneFn) (n : Nat) (f : Nat → Nat → Nat) : Prop :=
  ∀ ty p q mode rb d, intBits (intType ty) = n → p < 2 ^ n → q < 2 ^ n →
    laneCompute fn ty ty ty none mode rb p q d = (f p q, 0)

theorem takesBits {fn : LaneFn} {n : Nat} {f : Nat → Nat → Nat}
    (hl : ∀ ty p q mode rb d, laneCompute fn ty ty ty none mode rb p q d = (intCompute fn (intType ty) p q, 0))
    (hf : ∀ ty p q, intBits ty = n → p % 2 ^ n = p → q % 2 ^ n = q → intCompute fn ty p q = f p q) : TakesBits fn n f := by
  intro ty p q mode rb d hn hp hq
  rw [hl, hf _ p q hn (Nat.mod_eq_of_lt hp) (Nat.mod_eq_of_lt hq)]

/-- The integer lane functions, each on `n` bits. -/
def bitsFns (n : Nat) : List (LaneFn × (Nat → Nat → Nat)) :=
  [(.add, fun p q => (p + q) % 2 ^ n), (.sub, fun p q => (p + 2 ^ n - q) % 2 ^ n),
   (.rsub, fun p q => (q + 2 ^ n - p) % 2 ^ n), (.mul, fun p q => p * q % 2 ^ n),
   (.mulh, fun p q => wrap n (signedOf n p * signedOf n q / (2 ^ n : Nat))), (.mulhn, fun p q => p * q / 2 ^ n),
   (.and, fun p q => p &&& q), (.or, fun p q => p ||| q), (.xor, fun p q => p ^^^ q),
   (.shl, fun p q => p * 2 ^ (q % n) % 2 ^ n), (.shr, fun p q => p / 2 ^ (q % n)),
   (.shra, fun p q => wrap n (signedOf n p / (2 ^ (q % n) : Nat))),
   (.min, fun p q => if signedOf n p ≤ signedOf n q then p else q),
   (.max, fun p q => if signedOf n p ≤ signedOf n q then q else p), (.minn, fun p q => Nat.min p q),
   (.maxn, fun p q => Nat.max p q)]

theorem bitsFns_takesBits (n : Nat) : ∀ r ∈ bitsFns n, TakesBits r.1 n r.2 := by
  have lt : ∀ {p : Nat}, p % 2 ^ n = p → p < 2 ^ n := fun h => h ▸ Nat.mod_lt _ (Nat.two_pow_pos n)
  simp only [bitsFns, List.forall_mem_cons, List.not_mem_nil, false_implies, implies_true, and_true]
  refine ⟨?add, ?sub, ?rsub, ?mul, ?mulh, ?mulhn, ?and, ?or, ?xor, ?shl, ?shr, ?shra, ?min, ?max, ?minn, ?maxn⟩
  all_goals
    refine takesBits (fun _ _ _ _ _ _ => rfl) fun ty p q hn hp hq => ?_
    simp only [intCompute, hn, hp, hq]
  case add | shl => exact wrap_natCast n _
  case sub => exact wrap_signed_sub (lt hp) (lt hq)
  case rsub => exact wrap_signed_sub (lt hq) (lt hp)
  case mul => exact wrap_signed_mul (lt hp) (lt hq)
  case minn | maxn => rfl

/-! ### The lanes -/

/-- Where no element is a hole an operand is its bits. -/
theorem srcElem_empty {c : Nat} {t : State} (he : (t.core c).land.entries = []) (h : Nat) (x : Hart) (ty o e : Nat)
    (b : Src) : srcElem c h x t ty o e b = (operandOf x ty b e, []) := by
  cases b with
  | reg r => exact congrArg (Prod.mk _) (linksTo_empty he h r (typeBits ty) e o)
  | scalar w => rfl
  | none => rfl

theorem operandOf_reg (x : Hart) (ty r e : Nat) : operandOf x ty (.reg r) e = elemOf (x.getV r) (typeBits ty) e := rfl

theorem operandOf_none (x : Hart) (ty e : Nat) : operandOf x ty .none e = 0 := rfl

/-- The types that the integer group accepts: every type but fp4 for the kind "bits" (R279). -/
def intAccepts (anyBits : Bool) (ty : Nat) : Prop := if anyBits then ty ≠ 10 ∧ ty < 15 else ty < 8

theorem intAccepts_bits {anyBits : Bool} {ty : Nat} (h : intAccepts anyBits ty) :
    intBits (intType ty) = typeBits ty := by
  cases anyBits
  · have h8 : ty < 8 := h
    exact intBits_intType (by omega) (by omega)
  · exact intBits_intType h.1 h.2

theorem intLane_accepts {v : VEntry} {anyBits : Bool} (hs : v.scaled = false) (h : intAccepts anyBits v.ty) (c n : Nat)
    (fn : LaneFn) (d a : VReg) (b : Src) (m : MReg) (t : State) : intLane c n v fn anyBits d a b m t =
      elementwise c n v ⟨fn, v.ty, v.ty, v.ty, 63, .reg a.toNat, b, .none, d.toNat⟩ m.toNat t := by
  have hr : (v.scaled || (if anyBits then v.ty == 10 else decide (8 ≤ v.ty))) = false := by
    cases anyBits
    · simpa [intAccepts, hs] using h
    · simpa [intAccepts, hs] using h.1
  unfold intLane
  simp only [hr, Bool.false_eq_true, if_false]

section
variable {s : State} {i : Instr}

/-- An integer lane instruction of a hart with nothing in flight. -/
structure IsIntLane (s : State) (i : Instr) (fn : LaneFn) (anyBits : Bool) (d a : VReg) (b : Src) (m : MReg) : Prop where
  plain : Plain i
  vl : (entryOf s i).vl = Nat.min s.hart.vec.vl (vlMax s.hart.vec.grant s.hart.ty)
  vtype : (entryOf s i).vtype = s.hart.vec.vtype
  runs : ∀ t, vexec s.here s.me (entryOf s i) t = intLane s.here s.me (entryOf s i) fn anyBits d a b m t

variable {fn : LaneFn} {anyBits : Bool} {d a : VReg} {b : Src} {m : MReg}

theorem IsIntLane.ty (hi : IsIntLane s i fn anyBits d a b m) : (entryOf s i).ty = s.hart.ty := by
  rw [VEntry.ty, hi.vtype, Hart.ty]

/-- Every active element takes the function of its operands. -/
theorem IsIntLane.completes (hi : IsIntLane s i fn anyBits d a b m) (h : VectorReady s) (hvl : s.hart.VlFits)
    (hsc : s.hart.vec.vtype.getLsbD 4 = false) (hty : intAccepts anyBits s.hart.ty) {f : Nat → Nat → Nat}
    (hf : TakesBits fn (typeBits s.hart.ty) f) :
    Completes i (s.hart.setElems d.toNat (typeBits s.hart.ty) ((s.hart.active m).map fun e =>
      (e, f (elemOf (s.hart.getV a.toNat) (typeBits s.hart.ty) e) (operandOf s.hart s.hart.ty b e)))) 4 0 false s := by
  have hsc' : (entryOf s i).scaled = false := (congrArg (fun w => w.getLsbD 4) hi.vtype).trans hsc
  have hx := hi.runs (dispatchedState s i)
  rw [intLane_accepts hsc' (hi.ty.symm ▸ hty), hi.ty] at hx
  have hop : ∀ e, operandOf (behind s i [entryOf s i]) s.hart.ty b e = operandOf s.hart s.hart.ty b e := fun e => by
    cases b <;> rfl
  have hl : (captureFor s i).vl = s.hart.vec.vl := hi.vl.trans (Nat.min_eq_left hvl)
  have hw : ∀ e ∈ activeElems s.hart m.toNat (captureFor s i).vl,
      laneElem s.here s.me (entryOf s i) ⟨fn, s.hart.ty, s.hart.ty, s.hart.ty, 63, .reg a.toNat, b, .none, d.toNat⟩ none
        (dispatchedState s i) e =
      ⟨e, .val (f (elemOf (s.hart.getV a.toNat) (typeBits s.hart.ty) e) (operandOf s.hart s.hart.ty b e)), 0⟩ := by
    intro e _
    have hc := hf s.hart.ty (elemOf (s.hart.getV a.toNat) (typeBits s.hart.ty) e) (operandOf s.hart s.hart.ty b e)
      (entryOf s i).mode ((entryOf s i).random e) 0 (intAccepts_bits hty) (Nat.mod_lt _ (Nat.two_pow_pos _))
      (operandOf_lt _ _ _ _)
    simp only [laneElem, srcElem_empty (entries_dispatched h i), hart_dispatched, hop, operandOf_reg, operandOf_none, getV_behind, hc,
      List.append_nil, List.isEmpty_nil, Bool.not_true, Bool.false_eq_true, if_false, bne_self_eq_false, Bool.and_false]
  have hd := lane_done (w := fun e =>
    (f (elemOf (s.hart.getV a.toNat) (typeBits s.hart.ty) e) (operandOf s.hart s.hart.ty b e), 0))
    h (hi.plain.registerOnly s) rfl hx hw
  rw [hl, foldl_noFlags, hi.plain.length, show consumesHere s i = false from hi.plain.ric _ _ _, ← hi.plain.exec] at hd
  exact hd

/-! ### An exception of the vector side -/

/-- The hart at the exception that its only vector instruction raises at element 0. -/
def stoppedHart (s : State) (i : Instr) : Hart := behind s i [(entryOf s i).stopAt 0]

/-- A vector instruction that raises an exception at element 0 before it has changed anything is taken at its own
address, and the front resumes behind it (R220, R226). -/
theorem issueVector_raises (h : VectorReady s) (hi : RegisterOnly s i) {e : Exc}
    (he : vexec s.here s.me (entryOf s i) (dispatchedState s i) = .exc e 0 (dispatchedState s i)) (hc : CanTrap s) :
    ∃ u t, issueVector i s = .next t ∧ u.hart = stoppedHart s i ∧ u.mem = s.mem ∧
      TakesTrap true e (s.hart.pc + BitVec.ofNat 48 i.length) u t := by
  let u := setHead s.here s.me ((entryOf s i).stopAt 0) (undone s.here s.me (dispatchedState s i) (dispatchedState s i))
  have hu : u.hart = stoppedHart s i := by
    have e : u.hartAt s.here s.me = stoppedHart s i := by
      unfold u setHead undone
      rw [hartAt_modHartAt_same, hartAt_modHartAt_same, hart_dispatched]
      rfl
    exact e
  have ht : trapVector s.here s.me e u = takeTrap u.here u.me true (stoppedHart s i).pc e u := by
    rw [← hu]
    rfl
  have hcu : CanTrap u := ⟨hc.user, by rw [hu]; exact hc.handler, by rw [hu]; exact hc.unlocked⟩
  refine ⟨u, trapVector s.here s.me e u, ?_, hu, rfl, ?_⟩
  · rw [issueVector_ready h hi, attempt_ready h i, he]
    rfl
  · rw [ht]
    exact takeTrap_taken hcu true e _

/-- What a hart shows after an exception `e` of its only vector instruction, `i`, at element 0. -/
structure TakesVectorTrap (e : Exc) (i : Instr) (s t : State) : Prop where
  vectorSide : t.hart.tr.tcause.getLsbD 62 = true
  code : wbits t.hart.tr.tcause 0 8 = e.code
  info0 : t.hart.tr.tinfo0 = e.info0
  tvcp : t.hart.tr.tvcp = s.hart.pc.zeroExtend 64
  tvst : t.hart.tr.tvst = 0
  tpc : t.hart.tr.tpc = (s.hart.pc + BitVec.ofNat 48 i.length).zeroExtend 64
  handler : t.hart.pc = BitVec.ofNat 48 s.hart.tr.tbase.toNat
  registers : t.hart.vec.v = s.hart.vec.v
  masks : t.hart.vec.m = s.hart.vec.m
  mem : t.mem = s.mem

/-- TCAUSE of an exception of the vector side. -/
theorem vectorCause {code : Nat} (sup : Bool) (h : code < 256) :
    let w := BitVec.ofNat 64 (2 ^ 62 + (if sup then 2 ^ 60 else 0) + 2 ^ 59 + code)
    w.getLsbD 62 = true ∧ wbits w 0 8 = code := by
  intro w
  have hw : w.toNat = 2 ^ 62 + (if sup then 2 ^ 60 else 0) + 2 ^ 59 + code := by
    refine (BitVec.toNat_ofNat ..).trans (Nat.mod_eq_of_lt ?_)
    cases sup <;> simp <;> omega
  constructor
  · rw [← BitVec.testBit_toNat, hw, Nat.testBit, Nat.shiftRight_eq_div_pow]
    cases sup <;> simp <;> omega
  · rw [wbits_zero, hw]
    cases sup <;> simp <;> omega

theorem captureFor_pc (s : State) (i : Instr) : (captureFor s i).pc = s.hart.pc := by
  unfold captureFor
  split <;> dsimp only <;> split <;> rfl

theorem stoppedHart_vcp (h : VectorReady s) (i : Instr) :
    ({ stoppedHart s i with pc := s.hart.pc + BitVec.ofNat 48 i.length } : Hart).vcp = (s.hart.pc, 0) := by
  show Hart.position _ (s.hart.vec.held ++ [(entryOf s i).stopAt 0]) = _
  rw [h.held, List.nil_append]
  unfold Hart.position
  dsimp only
  split
  case h_1 l _ hl =>
    have hn : s.hart.lp.loop = some l := hl
    rw [h.loop] at hn
    cases hn
  case h_2 => rw [show ((entryOf s i).stopAt 0).pc = s.hart.pc from captureFor_pc s i]; rfl

theorem issueVector_traps (h : VectorReady s) (hi : RegisterOnly s i) {e : Exc} (hcode : e.code < 256)
    (he : vexec s.here s.me (entryOf s i) (dispatchedState s i) = .exc e 0 (dispatchedState s i)) (hc : CanTrap s) :
    ∃ t, issueVector i s = .next t ∧ TakesVectorTrap e i s t := by
  obtain ⟨u, t, ht, hu, hm, k⟩ := issueVector_raises h hi he hc
  have hs : (u.atStop true).hart = stoppedHart s i := hu
  have hvec := congrArg Hart.vec k.others.hart
  obtain ⟨h62, h8⟩ := vectorCause s.hart.tr.sup hcode
  have hcause := k.cause
  have hvcp := stoppedHart_vcp h i
  rw [hs] at hvec
  refine ⟨t, ht, ⟨?_, ?_, k.info0, ?_, ?_, ?_, ?_, ?_, ?_, ?_⟩⟩
  · rw [hcause, hu]; exact h62
  · rw [hcause, hu]; exact h8
  · rw [k.tvcp, hs, hvcp, word_toNat]
  · rw [k.tvst, hs, hvcp]; rfl
  · rw [k.tpc, word_toNat]
  · rw [k.handler.2, hu]; rfl
  · rw [hvec]; rfl
  · rw [hvec]; rfl
  · exact k.others.mem.trans hm

theorem intLane_refuses {v : VEntry} {anyBits : Bool} (h : v.scaled = true ∨ if anyBits then v.ty = 10 else 8 ≤ v.ty)
    (c n : Nat) (fn : LaneFn) (d a : VReg) (b : Src) (m : MReg) (t : State) :
    intLane c n v fn anyBits d a b m t = .exc v.format 0 t := by
  have hr : (v.scaled || (if anyBits then v.ty == 10 else decide (8 ≤ v.ty))) = true := by
    cases anyBits <;> simpa using h
  unfold intLane
  simp only [hr, if_true]
  rfl

/-- On a type that it refuses an integer lane instruction raises FORMAT, with VTYPE. -/
theorem IsIntLane.traps {fn : LaneFn} {anyBits : Bool} {d a : VReg} {b : Src} {m : MReg}
    (hi : IsIntLane s i fn anyBits d a b m) (h : VectorReady s)
    (hr : s.hart.vec.vtype.getLsbD 4 = true ∨ if anyBits then s.hart.ty = 10 else 8 ≤ s.hart.ty) (hc : CanTrap s) :
    ∃ t, exec i s = .next t ∧ TakesVectorTrap { code := 0x11, info0 := s.hart.vec.vtype } i s t := by
  have hsc : (entryOf s i).scaled = s.hart.vec.vtype.getLsbD 4 := congrArg (fun w => w.getLsbD 4) hi.vtype
  have he := hi.runs (dispatchedState s i)
  rw [intLane_refuses (by rw [hsc, hi.ty]; exact hr), VEntry.format, hi.vtype] at he
  rw [hi.plain.exec]
  exact issueVector_traps h (hi.plain.registerOnly s) (show 0x11 < 256 by decide) he hc

end

/-! ### The rows of R279 -/

/-- Both forms of an integer lane row, with the function of its bits. -/
def IsIntRow (s : State) (d a b : VReg) (x : XReg) (m : MReg) (row : Instr × Instr × Bool × (Nat → Nat → Nat → Nat)) :
    Prop :=
  ∃ fn, IsIntLane s row.1 fn row.2.2.1 d a (.reg b.toNat) m ∧
    IsIntLane s row.2.1 fn row.2.2.1 d a (.scalar (s.hart.getX x.toNat)) m ∧ ∀ n, TakesBits fn n (row.2.2.2 n)

/-- The instructions of R279. -/
def intRow : Instr → Bool
  | .vadd _ _ _ _ | .vaddX _ _ _ _ | .vsub _ _ _ _ | .vsubX _ _ _ _ | .vrsub _ _ _ _ | .vrsubX _ _ _ _ | .vmul _ _ _ _
  | .vmulX _ _ _ _ | .vmulh _ _ _ _ | .vmulhX _ _ _ _ | .vmulhn _ _ _ _ | .vmulhnX _ _ _ _ | .vand _ _ _ _ | .vandX _ _ _ _
  | .vor _ _ _ _ | .vorX _ _ _ _ | .vxor _ _ _ _ | .vxorX _ _ _ _ | .vshl _ _ _ _ | .vshlX _ _ _ _ | .vshr _ _ _ _
  | .vshrX _ _ _ _ | .vshra _ _ _ _ | .vshraX _ _ _ _ | .vmin _ _ _ _ | .vminX _ _ _ _ | .vmax _ _ _ _ | .vmaxX _ _ _ _
  | .vminn _ _ _ _ | .vminnX _ _ _ _ | .vmaxn _ _ _ _ | .vmaxnX _ _ _ _ => true
  | _ => false

theorem plain_of_intRow {i : Instr} (h : intRow i = true) : Plain i := by
  unfold intRow at h
  split at h
  case h_33 => exact absurd h Bool.false_ne_true
  all_goals exact ⟨nofun, fun _ => rfl, rfl, rfl, fun _ => rfl, fun _ _ _ => rfl⟩

theorem isIntLane {s : State} {i : Instr} {fn : LaneFn} {anyBits : Bool} {d a : VReg} {b : Src} {m : MReg}
    (hr : intRow i = true) (hvl : (entryOf s i).vl = Nat.min s.hart.vec.vl (vlMax s.hart.vec.grant s.hart.ty))
    (hvt : (entryOf s i).vtype = s.hart.vec.vtype)
    (hx : ∀ t, vexec s.here s.me (entryOf s i) t = intLane s.here s.me (entryOf s i) fn anyBits d a b m t) :
    IsIntLane s i fn anyBits d a b m :=
  ⟨plain_of_intRow hr, hvl, hvt, hx⟩

theorem intLaneRows_rows (s : State) (d a b : VReg) (x : XReg) (m : MReg) :
    ∀ row ∈ intLaneRows d a b x m, IsIntRow s d a b x m row := by
  have takes : ∀ {n : Nat} {fn : LaneFn} {f : Nat → Nat → Nat}, (fn, f) ∈ bitsFns n → TakesBits fn n f :=
    fun {n} _ _ hm => bitsFns_takesBits n _ hm
  simp only [intLaneRows, List.forall_mem_cons, List.not_mem_nil, false_implies, implies_true, and_true]
  refine ⟨⟨.add, ?_⟩, ⟨.sub, ?_⟩, ⟨.rsub, ?_⟩, ⟨.mul, ?_⟩, ⟨.mulh, ?_⟩, ⟨.mulhn, ?_⟩, ⟨.and, ?_⟩, ⟨.or, ?_⟩, ⟨.xor, ?_⟩,
    ⟨.shl, ?_⟩, ⟨.shr, ?_⟩, ⟨.shra, ?_⟩, ⟨.min, ?_⟩, ⟨.max, ?_⟩, ⟨.minn, ?_⟩, ⟨.maxn, ?_⟩⟩
  all_goals exact ⟨isIntLane rfl rfl rfl fun _ => rfl, isIntLane rfl rfl rfl fun _ => rfl,
    fun n => takes (by simp only [bitsFns, List.mem_cons, true_or, or_true])⟩

/-- FORMAT of an integer lane instruction, as it is seen. -/
theorem IsIntLane.format {s : State} {i : Instr} {fn : LaneFn} {anyBits : Bool} {d a : VReg} {b : Src} {m : MReg}
    (hi : IsIntLane s i fn anyBits d a b m) (h : VectorReady s)
    (hr : s.hart.vec.vtype.getLsbD 4 = true ∨ if anyBits then s.hart.ty = 10 else 8 ≤ s.hart.ty) (hc : CanTrap s) :
    ∃ t, exec i s = .next t ∧ t.hart.tr.tcause.getLsbD 62 = true ∧ wbits t.hart.tr.tcause 0 8 = 0x11 ∧
      t.hart.tr.tinfo0 = s.hart.vec.vtype ∧ t.hart.tr.tvcp = s.hart.pc.zeroExtend 64 ∧ t.hart.tr.tvst = 0 ∧
      t.hart.tr.tpc = (s.hart.pc + 4).zeroExtend 64 ∧ t.hart.pc = BitVec.ofNat 48 s.hart.tr.tbase.toNat ∧
      t.hart.vec.v = s.hart.vec.v ∧ t.mem = s.mem := by
  obtain ⟨t, ht, k⟩ := hi.traps h hr hc
  have htpc := k.tpc
  rw [hi.plain.length] at htpc
  exact ⟨t, ht, k.vectorSide, k.code, k.info0, k.tvcp, k.tvst, htpc, k.handler, k.registers, k.mem⟩

/-- Settles O37: each row comes to one lane function (`intLaneRows_rows`), which takes the bits of its operands
(`bitsFns_takesBits`) in every active element (`IsIntLane.completes`), or to FORMAT (`IsIntLane.format`). -/
theorem integerLaneResults : Obligations.IntegerLaneResults := by
  unfold Obligations.IntegerLaneResults
  intro s d a b x m h hvl row hr
  obtain ⟨fn, hv, hx, hf⟩ := intLaneRows_rows s d a b x m row hr
  refine ⟨fun ⟨hsc, hty⟩ => ⟨hv.completes h hvl hsc hty (hf _), hx.completes h hvl hsc hty (hf _)⟩, fun hbad hc => ?_⟩
  simp only [List.forall_mem_cons, List.not_mem_nil, false_implies, implies_true, and_true]
  exact ⟨hv.format h hbad hc, hx.format h hbad hc⟩

end Sys2Proof.Machine

namespace Sys2Proof.Machine

/-! ## Atomic operations (R53, R80, R159, R256, R276) -/

/-! ### What a translation leaves of a hart that waits -/

/-- From `s` to `t` of any hart at most its WAIT has been woken, and no TLBINV has been seen. -/
structure Woken (s t : State) : Prop where
  harts : ∀ c n, ∃ w, t.hartAt c n = { s.hartAt c n with run := { (s.hartAt c n).run with wait := w } }
  inval : t.inval = s.inval

theorem Woken.refl (s : State) : Woken s s := ⟨fun c n => ⟨(s.hartAt c n).run.wait, rfl⟩, rfl⟩

theorem Woken.trans {s t u : State} (a : Woken s t) (b : Woken t u) : Woken s u where
  harts := fun c n => by
    obtain ⟨v, hv⟩ := a.harts c n
    obtain ⟨w, hw⟩ := b.harts c n
    exact ⟨w, by rw [hw, hv]⟩
  inval := b.inval.trans a.inval

theorem Woken.ite {c : Prop} [Decidable c] {s t u : State} (ht : Woken s t) (hu : Woken s u) :
    Woken s (if c then t else u) := by
  split
  · exact ht
  · exact hu

theorem woken_eq (places : List Nat) (h : Hart) : ∃ w, h.woken places = { h with run := { h.run with wait := w } } := by
  unfold Hart.woken
  split
  · exact ⟨h.run.wait, rfl⟩
  · split
    · exact ⟨_, rfl⟩
    · exact ⟨h.run.wait, rfl⟩

theorem wake_woken (places : List Nat) (s : State) : Woken s (wake places s) := by
  refine ⟨fun c n => ?_, rfl⟩
  have e : (wake places s).hartAt c n = (s.hartAt c n).woken places := by
    unfold State.hartAt
    rw [wake_core]
    exact lookupD_mapValues (fun _ => Hart.woken places) _ _ _ rfl
  rw [e]
  exact woken_eq places _

theorem performNat_woken (p n w : Nat) (s : State) : Woken s (performNat p n w s) :=
  ⟨(wake_woken _ _).harts, rfl⟩

theorem heldInTlbs_woken (e : TlbEntry) (c : Nat) (s : State) : Woken s (heldInTlbs e c s) := by
  refine ⟨fun d n => ⟨(s.hartAt d n).run.wait, ?_⟩, rfl⟩
  rw [heldInTlbs, modDie_hartAt, hartAt_modCore]
  intro k
  rfl

/-- What comes to a result has woken harts at most. -/
def WakesOnly (s : State) (r : Res α) : Prop := ∀ a t, r = .ok a t → Woken s t

theorem WakesOnly.bind {s : State} {r : Res α} {f : α → State → Res β} (h : WakesOnly s r)
    (hf : ∀ a t, WakesOnly t (f a t)) : WakesOnly s (r.bind f) := fun b u e => by
  cases r with
  | ok a t => exact (h a t rfl).trans (hf a t b u e)
  | wait | exc | contained | stop => exact nomatch e

theorem WakesOnly.exc (s : State) (e : Exc) (k : Nat) : WakesOnly s (.exc e k s : Res α) := fun _ _ h => nomatch h

theorem WakesOnly.ok {s t : State} (a : α) (h : Woken s t) : WakesOnly s (.ok a t) := fun _ _ e => by
  cases e
  exact h

theorem reachable_wakesOnly (core p : Nat) (s : State) : WakesOnly s (reachable core p s) := fun a t e => by
  rcases reachable_cases core p s with h | ⟨c, h⟩ | h <;> rw [h] at e <;> cases e
  exact .refl s

theorem walk_wakesOnly (cx : Ctx) (k : Access) (va elem : Nat) (levels : List Nat) (node mt : Nat) (s : State) :
    WakesOnly s (walk cx k va elem node mt s levels) := by
  induction levels generalizing node mt s with
  | nil => exact .exc s _ 0
  | cons lvl rest ih =>
    unfold walk
    refine (reachable_wakesOnly _ _ s).bind fun _ t => ?_
    dsimp only
    split
    · exact .exc t _ 0
    · split
      · split
        · exact .exc t _ 0
        · exact ih _ _ t
      · split
        · exact .exc t _ 0
        · split
          · exact .exc t _ 0
          · exact .ok _ (.ite (.refl t) (performNat_woken _ _ _ t))

theorem leafOf_wakesOnly (cx : Ctx) (k : Access) (va : Word) (elem : Nat) (s : State) :
    WakesOnly s (leafOf cx k va elem s) := by
  have hw := (walk_wakesOnly cx k va.toNat elem [0, 1, 2, 3] (wbits cx.ptbase 12 40) (wbits cx.ptbase 0 2) s).bind
    (f := fun e s => .ok e (heldInTlbs e cx.core s)) fun e t => .ok e (heldInTlbs_woken e cx.core t)
  unfold leafOf
  dsimp only
  generalize (walk cx k va.toNat elem (wbits cx.ptbase 12 40) (wbits cx.ptbase 0 2) s [0, 1, 2, 3]).bind
    (fun e s => .ok e (heldInTlbs e cx.core s)) = r at hw ⊢
  have hu : ∀ e : TlbEntry, WakesOnly s (match leafRefuses e.pte k cx.sup with
      | some code => Res.exc (pageExc code k va.toNat elem e.level e.pte) 0 s
      | none => if k.writes && !e.pte.getLsbD 6 then r else .ok e s) := by
    intro e
    split
    · exact .exc s _ 0
    · split
      · exact hw
      · exact .ok _ (.refl s)
  split
  · exact .exc s _ 0
  · split
    · exact hu _
    · split
      · exact hu _
      · exact hw

/-- A translation changes at most the WAIT of a hart. -/
theorem translate_woken {cx : Ctx} {k : Access} {va : Word} {elem : Nat} {s t : State} {r : Nat × TlbEntry}
    (h : translate cx k va elem s = .ok r t) : Woken s t :=
  (leafOf_wakesOnly cx k va elem s).bind (fun _ u => (reachable_wakesOnly _ _ u).bind fun _ v => .ok _ (.refl v)) r t h

theorem Woken.hart {s t : State} (h : Woken s t) (hc : t.curCore = s.curCore) (hm : t.curHart = s.curHart) :
    ∃ w, t.hart = { s.hart with run := { s.hart.run with wait := w } } := by
  unfold State.hart State.here State.me
  rw [hc, hm]
  exact h.harts _ _

/-! ### The rows of R159 -/

/-- The operation of an atomic row. -/
def atomicIndex : Instr → Nat
  | .amoAdd _ _ _ _ => 0 | .amoAnd _ _ _ _ => 1 | .amoOr _ _ _ _ => 2 | .amoXor _ _ _ _ => 3 | .amoMin _ _ _ _ => 4
  | .amoMax _ _ _ _ => 5 | .amoMinn _ _ _ _ => 6 | .amoMaxn _ _ _ _ => 7 | .amoSwap _ _ _ _ => 8 | _ => 9

theorem atomicIndex_of_get {d a b : XReg} {o : BitVec 2} {j : Nat} {row : Instr × (Word → Word → Word → Word)}
    (h : (atomicRows d a b o)[j]? = some row) : atomicIndex row.1 = j := by
  have hj : j < 10 := (List.getElem?_eq_some_iff.1 h).1
  have all : ∀ j < 10, ((atomicRows d a b o)[j]?.map fun r => atomicIndex r.1) = some j := by
    intro j hj
    interval_cases j <;> rfl
  have e := all j hj
  rw [h] at e
  exact Option.some.inj e

theorem atomicRows_atomic (d a b : XReg) (o : BitVec 2) : ∀ row ∈ atomicRows d a b o,
    (∀ s, exec row.1 s = atomic (atomicIndex row.1) d a b o s) ∧ amoNew (atomicIndex row.1) = row.2 := by
  have slt : ∀ {α} (v y : Word) (p q : α), (if v.slt y then p else q) = if v.toInt < y.toInt then p else q :=
    fun v y p q => if_congr (by rw [BitVec.slt, decide_eq_true_iff]) rfl rfl
  have ult : ∀ {α} (v y : Word) (p q : α), (if v.ult y then p else q) = if v.toNat < y.toNat then p else q :=
    fun v y p q => if_congr (by rw [BitVec.ult, decide_eq_true_iff]) rfl rfl
  simp only [atomicRows, List.forall_mem_cons, List.not_mem_nil, false_implies, implies_true, and_true]
  exact ⟨⟨fun _ => rfl, rfl⟩, ⟨fun _ => rfl, rfl⟩, ⟨fun _ => rfl, rfl⟩, ⟨fun _ => rfl, rfl⟩,
    ⟨fun _ => rfl, funext fun v => funext fun y => funext fun _ => slt v y v y⟩,
    ⟨fun _ => rfl, funext fun v => funext fun y => funext fun _ => slt v y y v⟩,
    ⟨fun _ => rfl, funext fun v => funext fun y => funext fun _ => ult v y v y⟩,
    ⟨fun _ => rfl, funext fun v => funext fun y => funext fun _ => ult v y y v⟩,
    ⟨fun _ => rfl, rfl⟩, ⟨fun _ => rfl, rfl⟩⟩

/-! ### One that commits at once -/

section
variable {s u : State} {p : Nat} {e : TlbEntry} {d a b : XReg} {o : BitVec 2}

/-- The atomic operation that the front issues. -/
def frontAtomic (op : Nat) (d b : XReg) (o : BitVec 2) (h : Hart) : Atomic :=
  ⟨op, d.toNat, h.getX b.toNat, h.getX d.toNat, o.getLsbD 0, h.pc⟩

/-- Its entry among the stores of the hart. -/
def atomicEntry (q : Atomic) (p : Nat) (addr : Word) (pin : Pin) (h : Hart) : Pending :=
  { cells := cellsOf p 8 0, amo := some q, pin := some pin, addr := some ⟨addr, h.ms.ptbase, h.ms.asid, h.tr.sup⟩ }

/-- An atomic operation that reaches its bytes commits, or joins the stores of the hart. -/
theorem atomic_reaches (hx : Settled [d.toNat, a.toNat, b.toNat] [] s) (ha : (s.hart.getX a.toNat).toNat % 8 = 0)
    (ht : translate s.ctx .amo (s.hart.getX a.toNat) 0 s = .ok (p, e) u)
    (hh : o.getLsbD 1 = false ∨ u.hart.vec.held = []) (hv : (drain u.here u.me u).hart.vec.viq = []) (op : Nat) :
    let q := frontAtomic op d b o s.hart
    let v := drain u.here u.me u
    let P := atomicEntry q p (s.hart.getX a.toNat) (v.pin e) s.hart
    atomic op d a b o s = finish (if v.hart.ms.stq = [] then
        (loadPlace v.here p 8 v).bind fun _ w => .ok () (retireHere 4 (countHere e (commitAtomic w.here w.me P q w)))
      else .ok () (retireHere 4 (countHere e (enqueueFront v.here v.me 0 P v)))) := by
  intro q v P
  have hr : (if o.getLsbD 1 then awaitHeld 7 VEntry.memory u else .ok () u) = .ok () u := by
    rcases hh with h | h
    · rw [h, if_neg Bool.false_ne_true]
    · rw [awaitHeld_empty h, ite_self]
  have hf : (if o.getLsbD 1 then releaseFollows v else storeFollows p 8 v) = 0 := by
    rw [releaseFollows_empty hv, storeFollows_empty p 8 hv, ite_self]
  rw [atomic, awaitRegs_settled hx, bind_ok]
  simp only [aligned_ok ha, bind_ok, gvHere, ht, hr, show drain u.here u.me u = v from rfl, hf, beq_self_eq_true, Bool.and_true,
    List.isEmpty_iff]
  rfl

/-- An update of the hart after a store that has performed. -/
theorem Walked.stores {t : State} {n : Nat} {w : Word} (v : Walked u t) (m : t.mem = (performNat p n w.toNat u).mem)
    (hs : u.Sound) (hw : u.hart.run.wait = none) (g : Hart → Hart) : Stores p n w (g u.hart) u (t.modHart g) := by
  obtain ⟨hb, he⟩ := performNat_reads hs p n w.toNat
  refine ⟨(hart_modHart t g).trans (congrArg g (v.hart hw)), fun i hi => ?_, fun q hq => ?_, fun c k hk hc => ?_, v.poison,
    v.wharf, v.host⟩
  · exact (congrArg (readPlace · (p + i)) m).trans (hb i hi)
  · exact (congrArg (readPlace · q) m).trans (he q hq)
  · have hk' : c ≠ t.here ∨ k ≠ t.me := by rwa [State.here, State.me, v.here, v.me]
    exact (hartAt_modHart_ne t g hk').trans (v.harts c k hc)

theorem retire_countHere (e : TlbEntry) (g : Hart → Hart) (t : State) {n : Nat} {w : Word} {x : Hart}
    (h : Stores p n w x u (t.modHart fun y => (g y).retire 4)) :
    Stores p n w x u (retireHere 4 (countHere e (t.modHart g))) := by
  obtain ⟨dies, agenda, hc⟩ := countHeat_fields (t.modHart g).here (t.modHart g).hart.tenantNo e (t.modHart g)
  have hr : retireHere 4 (countHere e (t.modHart g)) =
      { t.modHart (fun y => (g y).retire 4) with dies := dies, agenda := agenda } := by
    rw [countHere, hc, ← modHart_modHart t g (Hart.retire · 4)]
    rfl
  rw [hr]
  exact ⟨h.hart, h.bytes, h.elsewhere, h.others, h.poison, h.wharf, h.host⟩

/-- An atomic operation on `p` that commits: its bytes take the new value, and then x[d] the old one. -/
theorem commitAtomic_walked {P : Pending} (hc : P.cells = cellsOf p 8 0) (q : Atomic) (v : State) :
    let old := word (readNat v.mem p 8)
    ∃ w, Walked v w ∧ w.mem = (performNat p 8 (amoNew q.op old q.b q.c).toNat v).mem ∧
      commitAtomic v.here v.me P q v = w.modHart fun x => x.setX q.d old := by
  intro old
  let C : Pending := { cells := cellsOf p 8 (amoNew q.op old q.b q.c).toNat }
  obtain ⟨k, m⟩ := commit_walked v.here (P := C) rfl rfl rfl v (by decide) (by decide)
  have hp : (P.cells.head?.map (·.place)).getD 0 = p := by
    rw [hc]
    rfl
  have he : ∀ w, Walked v w → (w.modHartAt v.here v.me fun x => x.setX q.d old) = w.modHart fun x => x.setX q.d old :=
    fun w hw => by rw [State.here, State.me, ← hw.here, ← hw.me]; rfl
  by_cases ha : q.acquires = true
  · have kk := k.trans (modCore_ccache_walked _ v.here fun _ => [])
    refine ⟨_, kk, m, ?_⟩
    rw [commitAtomic, hp, ← he _ kk]
    simp only [ha, if_true]
    rfl
  · refine ⟨_, k, m, ?_⟩
    rw [commitAtomic, hp, ← he _ k]
    simp only [ha, Bool.false_eq_true, if_false]
    rfl

/-- A store after a step that has changed the hart alone. -/
theorem Stores.after_onlyHart {v t : State} {h x : Hart} {n : Nat} {w : Word} (k : Stores p n w x v t)
    (o : OnlyHart h u v) : Stores p n w x u t := by
  obtain ⟨hc, hm⟩ := o.at_here
  refine ⟨k.hart, k.bytes, fun q hq => (k.elsewhere q hq).trans (by rw [o.mem]), fun c i hn hw => ?_,
    k.poison.trans o.poison, k.wharf.trans o.wharf, k.host.trans o.host⟩
  have e := o.others c i hn
  rw [k.others c i (by rwa [hc, hm]) (by rwa [e]), e]

/-- An atomic operation of a hart with nothing in flight performs at once. -/
theorem atomic_idle (hs : s.Sound) (h : Idle s) (hr : Reaches .amo (s.hart.getX a.toNat) 8 p e s u) (op : Nat) :
    let old := BitVec.ofNat 64 (readNat u.mem p 8)
    ∃ t, atomic op d a b o s = .next t ∧
      Stores p 8 (amoNew op old (s.hart.getX b.toNat) (s.hart.getX d.toNat)) ((s.hart.setX d.toNat old).retire 4) u t := by
  intro old
  have k := translate_walked hr.translated
  have hu : u.hart = s.hart := hr.hart
  have hi : Idle u := h.of_walked k hr.waiting
  have od := drain_idle hi
  have hv : (drain u.here u.me u).hart = s.hart := od.hart.trans hu
  have e1 := atomic_reaches (d := d) (b := b) (o := o) (h.settled _ _) hr.aligned hr.translated (.inr hi.held)
    (by rw [hv]; exact h.viq) op
  dsimp only at e1
  generalize drain u.here u.me u = v at od hv e1
  have hsv : v.Sound := by rw [State.Sound, od.mem]; exact k.sound hs
  have hc : poisoned p 8 v = false := by rw [poisoned_congr od.poison, hr.poisoned, hr.clean]
  obtain ⟨w, kw, m, e2⟩ := commitAtomic_walked
    (P := atomicEntry (frontAtomic op d b o s.hart) p (s.hart.getX a.toNat) (v.pin e) s.hart) rfl
    (frontAtomic op d b o s.hart) v
  rw [if_pos (by rw [hv]; exact h.stq), loadPlace_clean hc, bind_ok, e2, od.mem] at e1
  have ho : v.hart.run.wait = none := by rw [hv, hr.waiting]
  rw [od.mem] at m
  have st := kw.stores m hsv ho fun y => (y.setX d.toNat old).retire 4
  rw [hv] at st
  exact ⟨_, e1, (retire_countHere e _ w st).after_onlyHart od⟩

/-! ### One that joins the stores of the hart -/

/-- Where commits take turns of their own a front store or atomic is the last that the queue holds. -/
theorem enqueueFront_lag (hl : u.hart.vec.lag = true) (P : Pending) : enqueueFront u.here u.me 0 P u =
    u.modHart fun x => x.setStq (x.ms.stq ++ [{ P with after := Nat.max 0 (lastAfter u.hart.ms.stq) }]) := by
  have hm : (u.modHartAt u.here u.me fun x => x.setStq (x.ms.stq ++
      [{ P with after := Nat.max 0 (lastAfter x.ms.stq) }])) =
        u.modHart fun x => x.setStq (x.ms.stq ++ [{ P with after := Nat.max 0 (lastAfter u.hart.ms.stq) }]) := rfl
  rw [enqueueFront, hm, drain]
  refine if_pos ?_
  rw [(OnlyHart.modHart u _).hartAt]
  exact hl

theorem atomic_joins (hv : s.hart.vec.viq = []) (hl : s.hart.vec.lag = true) (hq : s.hart.ms.stq ≠ [])
    (hh : o.getLsbD 1 = false ∨ s.hart.vec.held = []) (hx : Settled [d.toNat, a.toNat, b.toNat] [] s)
    (ha : (s.hart.getX a.toNat).toNat % 8 = 0) (ht : translate s.ctx .amo (s.hart.getX a.toNat) 0 s = .ok (p, e) u)
    (op : Nat) :
    let q : Pending := { atomicEntry (frontAtomic op d b o s.hart) p (s.hart.getX a.toNat) (u.pin e) s.hart with
      after := Nat.max 0 (lastAfter u.hart.ms.stq) }
    atomic op d a b o s = .next ((countHeat u.here u.hart.tenantNo e
      (u.modHart fun h => h.setStq (h.ms.stq ++ [q]))).modHart fun h => h.retire 4) := by
  intro q
  have k := translate_walked ht
  obtain ⟨w, hw⟩ := (translate_woken ht).hart k.here k.me
  have hlu : u.hart.vec.lag = true := by rw [hw]; exact hl
  have hd : drain u.here u.me u = u := if_pos hlu
  have e1 := atomic_reaches (d := d) (b := b) (o := o) hx ha ht (by rw [hw]; exact hh) (by rw [hd, hw]; exact hv) op
  dsimp only at e1
  rw [hd, if_neg (by rw [hw]; exact hq), enqueueFront_lag hlu, finish_ok] at e1
  rw [e1, countHere, hart_modHart]
  rfl

end

/-- Settles O20: each row is one operation on its bytes (`atomicRows_atomic`); with nothing in flight it commits, and the
bytes take its new value before x[d] takes the old one (`atomic_idle`); behind stores it joins them (`atomic_joins`). -/
theorem atomicResults : Obligations.AtomicResults := by
  unfold Obligations.AtomicResults
  refine fun s u d a b o p e => ⟨fun hs h hr row hrow => ?idle, fun hv hl hq hh hx ha ht row hrow => ?joins⟩
  case idle =>
    obtain ⟨hexec, hnew⟩ := atomicRows_atomic d a b o row hrow
    have k := atomic_idle (d := d) (b := b) (o := o) hs h hr (atomicIndex row.1)
    rw [hnew] at k
    rw [hexec]
    exact k
  case joins =>
    obtain ⟨hexec, -⟩ := atomicRows_atomic d a b o row hrow
    have k := atomic_joins (o := o) hv hl hq hh hx ha ht (atomicIndex row.1)
    refine ⟨_, (hexec s).trans k, fun j hj => ?_, rfl, rfl, fun hd => ?_⟩
    · rw [← atomicIndex_of_get hj]
      rfl
    · have hd' : (d.toNat != 0) = true := bne_iff_ne.2 fun h0 => hd (BitVec.eq_of_toNat_eq h0)
      simp [Hart.pendingX, Hart.atomicDue, Hart.setStq, hd', atomicEntry, frontAtomic]

end Sys2Proof.Machine

namespace Sys2Proof.Machine

/-! ## The dispatch of a vector or tile instruction (R53, R75, R130, R167, R191, R247) -/

section
variable {s : State} {i : Instr}

theorem exec_viqRow (h : viqRow i = true) (s : State) : exec i s = issueVector i s := by
  cases i with
  | vadd | vaddX | vsub | vsubX | vrsub | vrsubX | vmul | vmulX | vmulh | vmulhX | vmulhn | vmulhnX | vand | vandX
  | vor | vorX | vxor | vxorX | vshl | vshlX | vshr | vshrX | vshra | vshraX | vmin | vminX | vmax | vmaxX | vminn
  | vminnX | vmaxn | vmaxnX | vfadd | vfaddX | vfsub | vfsubX | vfmul | vfmulX | vfma | vfmaX | vfmin | vfminX
  | vfmax | vfmaxX | vfdiv | vfdivX | vfrcp | vfrsq | vfsqrt | vfexp | vflog | vfsin | vfcos | vmerge | vmergeX
  | vadc | vadcX | vsbc | vsbcX | vwmul | vwmulX | vfcvt | vfwmul | vcmp | vcmpX | vfcmp | vfcmpX | mand | mor
  | mxor | mnot | mshl | mset | mclr | mpop | mfirst | mlast | vgath | vcomp | vxpnd | vred | vredXd | vscan
  | vslideupZero | vslideupOne | vslideupKeep | vslidednZero | vslidednOne | vslidednKeep | vmvx | vmvs | vsplat
  | vld | vlds | vldx | vst | vsts | vstx | awin | vamo | amerge | vrand | pres | vrel | settle | vtest | rfld
  | rput | rspawn | rres | rkid | rdone | tld | tst | tldp | tzero | tmvr | tmvc | mma | mmaC | mman | mdrain
  | azero => rfl
  | _ => exact absurd h Bool.false_ne_true

/-- What the front captures for an instruction whose VL fits. -/
structure Captured (s : State) (i : Instr) (v : VEntry) : Prop extends Fresh i v where
  pc : v.pc = s.hart.pc
  xs : v.xs = (usesOf i).xs.map s.hart.getX
  vl : v.vl = s.hart.vec.vl
  vtype : v.vtype = s.hart.vec.vtype
  mspace : v.mspace = s.hart.vec.mspace.toNat
  fpctl : v.fpctl = s.hart.fp.ctl.zeroExtend 64
  seed : v.seed = s.hart.fp.seed
  ric : v.ric = s.hart.fp.ric
  ptbase : v.ptbase = s.hart.ms.ptbase
  asid : v.asid = s.hart.ms.asid.zeroExtend 64
  sup : v.sup = s.hart.tr.sup

theorem capture_captured (s : State) (i : Instr) : Captured s i (capture s i ((usesOf i).xs.map s.hart.getX)) :=
  { instr := rfl, seq := rfl, start := rfl, flags := rfl, old := rfl, pins := rfl, limit := rfl, pc := rfl, xs := rfl,
    vl := rfl, vtype := rfl, mspace := rfl, fpctl := word_toNat _, seed := rfl, ric := rfl, ptbase := rfl,
    asid := word_toNat _, sup := rfl }

theorem regrant_fits {v : VEntry} (h : Captured s i v) (hf : s.hart.VlFits) : s.hart.regrant v = v := by
  have hvl : Nat.min v.vl (vlMax s.hart.vec.grant (wbits v.vtype 0 4)) = v.vl := by
    rw [h.vl, h.vtype]
    exact vl_fits hf
  rw [Hart.regrant, hvl]

theorem captureFor_captured (hf : s.hart.VlFits) (i : Instr) : Captured s i (captureFor s i) := by
  have h := capture_captured s i
  have hr := regrant_fits h hf
  unfold captureFor
  simp only [hr, ite_self]
  split <;> exact h

/-! ### The pages that a dispatch pins -/

theorem foldl_snd_walked {f : α × State → β → α × State} (hf : ∀ p b, Walked p.2 (f p b).2) (l : List β)
    (p : α × State) : Walked p.2 (l.foldl f p).2 := by
  induction l generalizing p with
  | nil => exact .refl _
  | cons b l ih => exact (hf p b).trans (ih (f p b))

/-- Pinning pages only translates them. -/
theorem pinPages_walked (cx : Ctx) (k : Access) (l : List Word) (s : State) : Walked s (pinPages cx k l s).2 := by
  unfold pinPages
  refine foldl_snd_walked (fun p va => ?_) l ([], s)
  split
  · exact .refl _
  · split
    · exact translate_walked ‹_›
    · exact .refl _

theorem pinAtDispatch_walked (x : Hart) (v : VEntry) (s : State) : Walked s (pinAtDispatch x v s).2 :=
  (pinPages_walked _ _ _ _).trans (pinPages_walked _ _ _ _)

/-- What the front captures where no stream is bound. -/
def bareEntry (s : State) (i : Instr) : VEntry := { captureFor s i with binds := [], strips := [] }

theorem bareEntry_captured (hf : s.hart.VlFits) (i : Instr) : Captured s i (bareEntry s i) := by
  have c := captureFor_captured hf i
  exact { c with }

/-- The entry that the front dispatches where no stream is bound, with the pages that it pins. -/
def pinnedEntry (s : State) (i : Instr) : VEntry × State := pinAtDispatch s.hart (bareEntry s i) s

/-- The hart behind the dispatch of an instruction, whose entry `e` is the youngest of its VIQ. -/
def Hart.queued (h : Hart) (i : Instr) (e : VEntry) : Hart :=
  { h with
    pc := h.pc + BitVec.ofNat 48 i.length
    fp := { h.fp with ric := if consumesRic h i e.vtype e.fpctl then h.fp.ric + 1 else h.fp.ric }
    vec := { h.vec with viq := h.vec.viq ++ [e] }
    run := { h.run with why := 0, atBar := false } }

/-- The state in which the front has put an instruction into the VIQ. -/
def queuedState (s : State) (i : Instr) : State := (pinnedEntry s i).2.setHart (s.hart.queued i (pinnedEntry s i).1)

theorem hart_queuedState (s : State) (i : Instr) : (queuedState s i).hart = s.hart.queued i (pinnedEntry s i).1 :=
  hart_setHart _ _

/-- Noting an MMA.c is a matter of the Wharf. -/
theorem noteCrew_fields (i : Instr) (t : State) : ∃ w, noteCrew i t = { t with wharf := w } := by
  unfold noteCrew
  split
  · unfold State.modGroup
    split
    · exact ⟨t.wharf, rfl⟩
    · exact ⟨_, rfl⟩
  · exact ⟨t.wharf, rfl⟩

theorem noteCrew_hart (i : Instr) (t : State) : (noteCrew i t).hart = t.hart := by
  obtain ⟨w, hw⟩ := noteCrew_fields i t
  rw [hw]
  rfl

theorem noteCrew_other (h : crewRow i = false) (t : State) : noteCrew i t = t := by
  unfold noteCrew
  split
  · exact absurd h (by simp [crewRow])
  · rfl

theorem group?_modGroup_same {t : State} {gn : Nat} {g : Group} (h : t.group? gn = some g) (f : Group → Group) :
    (t.modGroup gn f).group? gn = some (f g) := by
  unfold State.modGroup
  rw [h]
  exact lookup_insert_same ..

theorem noteCrew_group {t : State} {gn : Nat} {g : Group} (h : crewRow i = true) (hg : t.hart.id.group = some gn)
    (hx : t.group? gn = some g) :
    (noteCrew i t).group? gn = some { g with crewQueue := g.crewQueue ++ [t.curHart] } := by
  unfold crewRow at h
  split at h
  · unfold noteCrew
    rw [hg]
    exact group?_modGroup_same hx _
  · exact absurd h Bool.false_ne_true

theorem dispatchVector_owed (hu : isFerry s.me = false) (hx : ¬ Settled (usesOf i).xs [] s) :
    dispatchVector i s = .wait (owedReason (usesOf i).xs [] s) s := by
  rw [dispatchVector, noFerry_user i hu, bind_ok]
  simp only [awaitRegs_owed hx, bind_wait]

section
variable (hu : isFerry s.me = false) (hx : Settled (usesOf i).xs [] s)
include hu hx

theorem dispatchVector_full (hr : s.hart.viqRoom = false) : dispatchVector i s = .wait 2 s := by
  rw [dispatchVector, noFerry_user i hu, bind_ok]
  simp only [awaitRegs_settled hx, bind_ok, hr, Bool.not_false, if_true]

theorem dispatchVector_queues (hr : s.hart.viqRoom = true) (hs : s.hart.ms.streams = []) (hd : s.hart.reserved < 16) :
    dispatchVector i s = .ok () (noteCrew i (queuedState s i)) := by
  have hq : decide (Config.returnQueue ≤ s.hart.reserved) = false := decide_eq_false (by simpa [Config.returnQueue] using hd)
  rw [dispatchVector, noFerry_user i hu, bind_ok]
  simp only [awaitRegs_settled hx, bind_ok, hr, Bool.not_true, Bool.false_eq_true, if_false, hq, Bool.and_false,
    bindsOf_nil hs, claimsFor_nil]
  rfl

/-- On a hart whose vector side takes turns of its own the front goes on behind the dispatch. -/
theorem issueVector_queues (hr : s.hart.viqRoom = true) (hs : s.hart.ms.streams = []) (hd : s.hart.reserved < 16)
    (hl : s.hart.vec.lag = true) : issueVector i s = .next (noteCrew i (queuedState s i)) := by
  have hh : (noteCrew i (queuedState s i)).hart.vec.lag = true := by
    rw [noteCrew_hart, hart_queuedState]
    exact hl
  rw [issueVector, dispatchVector_queues hu hx hr hs hd]
  simp only [hh, Bool.true_or, if_true]

end

/-! ### Which pages those are -/

theorem ownAccess_indexed (h : pagesRow i = false) {f : VAddr} {m : MReg} {k : Access} (ho : ownAccess i = some (f, m, k)) :
    ∃ b, f = .indexed b := by
  unfold ownAccess at ho
  split at ho
  case h_3 | h_6 =>
    cases ho
    exact ⟨_, rfl⟩
  case h_7 => cases ho
  all_goals exact absurd h (by simp [pagesRow])

/-- An instruction outside GV, or of a row whose pages the front does not translate, has no page to pin. -/
theorem dispatchSpans_none {v : VEntry} (x : Hart) (hs : v.strips = []) (h : v.mspace ≠ 2 ∨ pagesRow v.instr = false) :
    dispatchSpans x v = [] := by
  unfold dispatchSpans pagedStrips
  rw [hs, List.flatMap_nil, List.append_nil]
  split
  · rfl
  · rfl
  next f m k hi ho =>
    have h2 : v.mspace ≠ 2 := h.resolve_right fun hp => by
      obtain ⟨b, rfl⟩ := ownAccess_indexed hp ho
      exact hi b rfl
    simp [h2]

theorem pinnedEntry_none (hf : s.hart.VlFits) (h : s.hart.vec.mspace ≠ 2 ∨ pagesRow i = false) :
    (pinnedEntry s i).1.pins = [] ∧ (pinnedEntry s i).2 = s := by
  have c := bareEntry_captured hf i
  have hm : (bareEntry s i).mspace ≠ 2 ∨ pagesRow (bareEntry s i).instr = false := by
    rw [c.mspace, c.instr]
    exact h.imp_left fun hn he => hn (BitVec.eq_of_toNat_eq he)
  rw [pinnedEntry, pinAtDispatch_none c.pins (dispatchSpans_none s.hart rfl hm)]
  exact ⟨c.pins, rfl⟩

theorem pinPages_single {cx : Ctx} {k : Access} {va : Word} {s u : State} {r : Nat × TlbEntry}
    (h : translate cx k va 0 s = .ok r u) : (pinPages cx k [va] s).1 = [u.pin r.2] := by
  simp only [pinPages, List.foldl_cons, List.foldl_nil, List.any_nil, Bool.false_eq_true, if_false, h, List.nil_append]

theorem pinAccesses_write (c : Nat) (v : VEntry) (va : Word) (s : State) :
    (pinAccesses c v [(.write, va)] s).1 = (pinPages (v.ctx c) .write [va] s).1 := rfl

/-- The address of the only element of a unit access of one element. -/
theorem unitAccess_one {x : Hart} {v : VEntry} (hs : v.scaled = false) (hv : v.vl = 1) :
    (accessSpans x v .unit 0).map Span.addr = [v.x 0] := by
  have ha : activeElems x 0 1 = [0] := by
    simp [activeElems, positions, maskBit, Hart.getM]
  simp [accessSpans, hs, elementSpans, hv, ha, word]

theorem dispatchSpans_vst {v : VEntry} {r : VReg} {a : XReg} {o : BitVec 2} (x : Hart) (hi : v.instr = .vst r a 0 o)
    (hs : v.strips = []) (hm : v.mspace = 2) (hsc : v.scaled = false) (hv : v.vl = 1) :
    dispatchSpans x v = [(.write, v.x 0)] := by
  have hu := unitAccess_one (x := x) hsc hv
  have hk : maskKnown x (0 : MReg).toNat = true := rfl
  unfold dispatchSpans pagedStrips
  rw [hi, hs, List.flatMap_nil, List.append_nil]
  simp only [ownAccess, hm, hk, ne_eq, not_true_eq_false, decide_false, Bool.not_true, Bool.or_self, Bool.false_eq_true, if_false]
  exact (List.map_map (f := Span.addr) (g := Prod.mk Access.write)).symm.trans (congrArg _ hu)

/-- A store of one element in GV pins the page of its address. -/
theorem pinnedEntry_vst {r : VReg} {a : XReg} {o : BitVec 2} (hf : s.hart.VlFits) (hm : s.hart.vec.mspace = 2)
    (hv : s.hart.vec.vl = 1) (hsc : s.hart.vec.vtype.getLsbD 4 = false) {p : Nat} {leaf : TlbEntry} {u : State}
    (ht : translate s.ctx .write (s.hart.getX a.toNat) 0 s = .ok (p, leaf) u) :
    (pinnedEntry s (.vst r a 0 o)).1.pins = [⟨leaf, s.inval⟩] := by
  have c := bareEntry_captured hf (.vst r a 0 o)
  have hx : (bareEntry s (.vst r a 0 o)).x 0 = s.hart.getX a.toNat := congrArg (fun l => List.getD l 0 0) c.xs
  have hspans := dispatchSpans_vst s.hart c.instr rfl (c.mspace.trans (congrArg BitVec.toNat hm))
    ((congrArg (fun w => w.getLsbD 4) c.vtype).trans hsc) (c.vl.trans hv)
  have hcx : (bareEntry s (.vst r a 0 o)).ctx s.here = s.ctx := by
    have ha : BitVec.ofNat 16 (s.hart.ms.asid.zeroExtend 64).toNat = s.hart.ms.asid := by
      rw [BitVec.toNat_setWidth, Nat.mod_eq_of_lt (s.hart.ms.asid.isLt.trans (by decide)), BitVec.ofNat_toNat,
        BitVec.setWidth_eq]
    rw [VEntry.ctx, State.ctx, c.asid, ha, c.ptbase, c.sup]
  rw [pinnedEntry, pinAtDispatch, hspans, hx]
  refine (pinAccesses_write _ _ _ _).trans ?_
  rw [hcx, pinPages_single ht, State.pin, (translate_woken ht).inval]

end

/-- Settles O36: the front waits for an operand that is owed (`dispatchVector_owed`) and for room (`dispatchVector_full`), and
else queues what it captures (`issueVector_queues`, `captureFor_captured`), with the pages of its addresses
(`pinnedEntry_none`, `pinnedEntry_vst`); only an MMA.c is noted (`noteCrew_group`). -/
theorem vectorDispatch : Obligations.VectorDispatch := by
  unfold Obligations.VectorDispatch
  intro s i hi hu h
  refine ⟨fun hx hr hl hs hd hf => ?queues, fun hx hr => ?full, fun hx => ?owed⟩
  case full =>
    rw [exec_viqRow hi, issueVector, dispatchVector_full hu hx hr]
    rfl
  case owed =>
    rw [exec_viqRow hi, issueVector, dispatchVector_owed hu hx]
    rfl
  case queues =>
    have c := bareEntry_captured hf i
    have k := pinAtDispatch_walked s.hart (bareEntry s i) s
    refine ⟨noteCrew i (queuedState s i), (pinnedEntry s i).1, _,
      (exec_viqRow hi s).trans (issueVector_queues hu hx hr hs hd hl),
      (noteCrew_hart i _).trans (hart_queuedState s i), c.instr, c.pc, c.xs, c.vl, c.vtype, c.mspace, c.fpctl, c.seed,
      c.ric, c.ptbase, c.asid, c.sup, c.start, c.flags, rfl, ?ric, fun hn => ?none, fun r a o p leaf u hv hm h1 hsc ht => ?vst,
      fun hc => ?wharf, fun gn g hc hg hx => ?crew⟩
    case ric =>
      split
      · exact .inr rfl
      · exact .inl rfl
    case none =>
      obtain ⟨hp, hs⟩ := pinnedEntry_none hf hn
      obtain ⟨w, hw⟩ := noteCrew_fields i (queuedState s i)
      rw [hw, queuedState, hs]
      exact ⟨hp, rfl, rfl, rfl, rfl, rfl, fun c n hn => hartAt_setHartAt_ne s _ hn⟩
    case vst =>
      rw [hv]
      exact pinnedEntry_vst hf hm h1 hsc ht
    case wharf =>
      rw [noteCrew_other hc]
      exact k.wharf
    case crew =>
      have hq : (queuedState s i).curHart = s.curHart := k.me
      rw [← hq]
      refine noteCrew_group hc ?_ ?_
      · rw [hart_queuedState]
        exact hg
      · exact (congrArg (fun w : Wharf => lookup w.groups gn) k.wharf).trans hx
end Sys2Proof.Machine

namespace Sys2Proof.Machine

/-! ## Reductions and scans (R134, R135, R297, R299) -/

/-! ### The tree and the steps of the scan, on functions of the position -/

/-- The operation of a reduction at each position. -/
def combineAt (kind wt : Nat) (v : VEntry) (i : Nat) (p q : Option Nat) : Option Nat × Nat :=
  combine kind wt v.mode (v.random i) p q

theorem foldl_or_init {α : Type} (g : α → Nat) (l : List α) (f : Nat) :
    l.foldl (fun f r => f ||| g r) f = f ||| l.foldl (fun f r => f ||| g r) 0 := by
  induction l generalizing f with
  | nil => exact (Nat.or_zero f).symm
  | cons a l ih => rw [List.foldl_cons, List.foldl_cons, ih (f ||| g a), ih (0 ||| g a), Nat.zero_or, Nat.or_assoc]

theorem halves_zip (s : Nat → Option Nat) (d : Nat) :
    ((((List.range (2 * d)).map s).take d).zip (((List.range (2 * d)).map s).drop d)).zipIdx =
      (List.range d).map fun i => ((s i, s (i + d)), i) := by
  refine List.ext_getElem (by simp; omega) fun i h1 h2 => ?_
  simp [Nat.add_comm]

/-- One halving takes position i to s[i] ⊕ s[i + d]. -/
theorem treeStep_map (kind wt : Nat) (v : VEntry) (s : Nat → Option Nat) (d : Nat) :
    treeStep kind wt v d ((List.range (2 * d)).map s) =
      ((List.range d).map fun i => (combineAt kind wt v i (s i) (s (i + d))).1,
        (List.range d).foldl (fun f i => f ||| (combineAt kind wt v i (s i) (s (i + d))).2) 0) := by
  unfold treeStep
  rw [halves_zip]
  simp only [List.map_map, List.foldl_map]
  rfl

theorem treeReduce_map (kind wt : Nat) (v : VEntry) (p : Nat) (s : Nat → Option Nat) (f : Nat) :
    treeReduce kind wt v ((List.range (2 ^ p)).map s) f p = tree (combineAt kind wt v) p s f := by
  induction p generalizing s f with
  | zero => rfl
  | succ n ih =>
    rw [treeReduce, Nat.pow_succ', treeStep_map, tree, foldl_or_init _ _ f]
    exact ih _ _

theorem earlier_zip (s : Nat → Option Nat) (vl d : Nat) :
    ((List.replicate d none ++ (List.range vl).map s).zip ((List.range vl).map s)).zipIdx =
      (List.range vl).map fun i => ((if i < d then none else s (i - d), s i), i) := by
  refine List.ext_getElem (by simp) fun i h1 h2 => ?_
  by_cases hd : i < d <;> simp [List.getElem_append, hd]

theorem scanSteps_map (kind wt : Nat) (v : VEntry) (fuel : Nat) (s : Nat → Option Nat) (f d : Nat) :
    scanSteps kind wt v ((List.range v.vl).map s) f d fuel =
      ((List.range v.vl).map (scanTree (combineAt kind wt v) v.vl fuel d s f).1,
        (scanTree (combineAt kind wt v) v.vl fuel d s f).2) := by
  induction fuel generalizing s f d with
  | zero => rfl
  | succ n ih =>
    unfold scanSteps scanTree
    split
    · rfl
    · dsimp only
      rw [earlier_zip]
      simp only [List.map_map, List.foldl_map, Function.comp_def]
      rw [← ih]
      congr 1
      · refine List.map_congr_left fun i _ => ?_
        split <;> rfl
      · congr 1
        funext f i
        split
        · exact Nat.or_zero f
        · rfl

/-! ### The elements that enter -/

/-- Element e of a register in the working type of its type, and the flags of its widening. -/
def widenedElem (x : Hart) (ty a e : Nat) : Nat × Nat :=
  if workType ty = ty then (elemOf (x.getV a) (typeBits ty) e, 0)
  else convertTo 13 .rne 0 (valueOf ty (elemOf (x.getV a) (typeBits ty) e))

/-- The position e of the tree before its first step: ⊥ where no element is active. -/
def treeStart (x : Hart) (ty vl a m e : Nat) : Option Nat :=
  if e < vl ∧ maskBit (x.getM m) e = true then some (widenedElem x ty a e).1 else none

/-- The flags of the widening. -/
def startFlags (x : Hart) (ty vl a m : Nat) : Nat := (activeElems x m vl).foldl (fun f e => f ||| (widenedElem x ty a e).2) 0

theorem treeInputs_map (x : Hart) (v : VEntry) (a m : Nat) : treeInputs x v a m = (List.range v.vl).map fun e =>
    (treeStart x v.ty v.vl a m e, if maskBit (x.getM m) e = true then (widenedElem x v.ty a e).2 else 0) := by
  refine List.map_congr_left fun e he => ?_
  have hlt : e < v.vl := List.mem_range.1 he
  by_cases hm : maskBit (x.getM m) e = true
  · simp only [treeStart, widenedElem, hm, hlt, and_self, if_true, Bool.not_true, Bool.false_eq_true, if_false]
    split <;> rfl
  · simp [treeStart, hm]

theorem treeInputs_values (x : Hart) (v : VEntry) (a m : Nat) :
    (treeInputs x v a m).map (·.1) = (List.range v.vl).map (treeStart x v.ty v.vl a m) := by
  rw [treeInputs_map, List.map_map]
  rfl

theorem treeInputs_flags (x : Hart) (v : VEntry) (a m : Nat) :
    (treeInputs x v a m).foldl (fun f i => f ||| i.2) 0 = startFlags x v.ty v.vl a m := by
  rw [treeInputs_map, List.foldl_map, startFlags, activeElems, positions, List.foldl_filter]
  congr 1
  funext f e
  split
  · rfl
  · exact Nat.or_zero f

theorem treeStart_pad (x : Hart) (ty vl a m : Nat) {k : Nat} (h : vl ≤ k) :
    (List.range vl).map (treeStart x ty vl a m) ++ List.replicate (k - vl) none =
      (List.range k).map (treeStart x ty vl a m) := by
  refine List.ext_getElem (by simp; omega) fun i h1 h2 => ?_
  by_cases hi : i < vl <;> simp [List.getElem_append, hi, treeStart]

theorem le_two_pow_log2Up (n : Nat) : n ≤ 2 ^ log2Up n := by
  unfold log2Up
  split
  · simpa using ‹n ≤ 1›
  · have := Nat.lt_log2_self (n := n - 1)
    omega

theorem log2Up_eq {n p : Nat} (hle : n ≤ 2 ^ p) (hlt : p = 0 ∨ 2 ^ (p - 1) < n) : log2Up n = p := by
  unfold log2Up
  rcases p with _ | p
  · simp at hle
    simp [hle]
  · have hlt : 2 ^ p < n := by simpa using hlt
    have hpos := Nat.two_pow_pos p
    rw [if_neg (by omega), (Nat.log2_eq_iff (k := p) (by omega)).2 ⟨by omega, by omega⟩]

/-! ### What VRED and VSCAN compute -/

/-- A reduction accepts a type without scales, other than fp4, for its kind. -/
def ReduceAccepts (ty kind : Nat) : Prop := ty ≠ 10 ∧ ty ≤ 14 ∧ (3 ≤ kind → ty < 8)

theorem reduceRefused_accepts {v : VEntry} {kind : Nat} (hs : v.scaled = false) (h : ReduceAccepts v.ty kind) :
    reduceRefused v kind = false := by
  obtain ⟨h4, h14, h8⟩ := h
  simp [reduceRefused, VEntry.unscaled, hs, h4]
  exact ⟨h14, h8⟩

/-- The tree of VRED over the elements of a hart, with its flags. -/
def treeOf (x : Hart) (v : VEntry) (kind a m : Nat) : Option Nat × Nat :=
  tree (combineAt kind (workType v.ty) v) (log2Up v.vl) (treeStart x v.ty v.vl a m) (startFlags x v.ty v.vl a m)

/-- The positions of VSCAN after its steps, with their flags. -/
def scanOf (x : Hart) (v : VEntry) (kind a m : Nat) : (Nat → Option Nat) × Nat :=
  scanTree (combineAt kind (workType v.ty) v) v.vl 13 1 (treeStart x v.ty v.vl a m) (startFlags x v.ty v.vl a m)

/-- Element e of the result of VSCAN, from the positions after the last step, and the flags of its rounding. -/
def scanElem (v : VEntry) (w : Nat → Option Nat) (e : Nat) : Nat × Nat :=
  if workType v.ty = v.ty then ((w e).getD 0, 0)
  else convertTo v.ty v.mode (v.random e) (valueOf (workType v.ty) ((w e).getD 0))

section
variable {c h : Nat} {t : State} (he : (t.core c).land.entries = []) {v : VEntry} (hs : v.scaled = false)
include he hs

/-- The result of the tree over the elements of `v`, with its flags. -/
theorem reduction_tree {kind : Nat} (ha : ReduceAccepts v.ty kind) (a : VReg) (m : MReg) :
    reduction c h v a kind m t =
      .ok ((treeOf (t.hartAt c h) v kind a.toNat m.toNat).1.getD (identityOf kind (workType v.ty)),
        (treeOf (t.hartAt c h) v kind a.toNat m.toNat).2) t := by
  unfold reduction
  rw [if_neg (by rw [reduceRefused_accepts hs ha]; decide)]
  dsimp only
  rw [requirePresent_empty he, bind_ok, treeInputs_values, treeInputs_flags, treeStart_pad _ _ _ _ _ (le_two_pow_log2Up _),
    treeReduce_map]
  rfl

end

section
variable {t : State} (he : (t.core t.here).land.entries = []) {v : VEntry} (hl : v.limit = none)
  (hx : NoOldRow t.hart)
include he hl hx

/-- Results of some elements, of none where VL is 0, reach the destination. -/
theorem applyResults_elements (d : VReg) (n sty : Nat) (w : Nat → Nat × Nat) {es : List Nat} (hes : v.vl = 0 → es = []) :
    ∃ u, applyResults t.here t.me v d n (vals (results w es)) sty [] t =
        .ok (.done (es.foldl (fun f e => f ||| (w e).2) v.flags)) u ∧
      OnlyHart (t.hart.setElems d.toNat n (es.map fun e => (e, (w e).1))) t u := by
  by_cases hv : v.vl = 0
  · rw [hes hv]
    exact ⟨t, if_pos hv, OnlyHart.refl t⟩
  · have e := applyResults_vals he hx v hl hv d n sty (results w es)
    rw [modHartAt_self, results, List.foldl_map, writesOf, List.map_map] at e
    exact ⟨_, e, OnlyHart.modHart t fun x => x.setElems d.toNat n (es.map fun e => (e, (w e).1))⟩

variable (hs : v.scaled = false) (hf : v.flags = 0)
include hs hf

/-- VRED writes element 0, where VL has one, with the result of the tree. -/
theorem reduce_tree {kind : BitVec 3} (ha : ReduceAccepts v.ty kind.toNat) (hst : v.start = 0) (d a : VReg) (m : MReg) :
    let r := treeOf t.hart v kind.toNat a.toNat m.toNat
    ∃ u, reduce t.here t.me v d a kind m t = .ok (.done r.2) u ∧
      OnlyHart (t.hart.setElems d.toNat (typeBits (workType v.ty))
        (if v.vl = 0 then [] else [(0, r.1.getD (identityOf kind.toNat (workType v.ty)))])) t u := by
  intro r
  unfold reduce
  rw [reduction_tree he hs ha, bind_ok]
  dsimp only
  by_cases hv : v.vl = 0
  · have hc : (v.remaining t.hart 0).contains 0 = false := by simp [VEntry.remaining, activeElems, positions, hv]
    rw [show t.hartAt t.here t.me = t.hart from rfl, hc, hf, Nat.zero_or, if_pos hv]
    exact applyResults_elements (v := { v with flags := r.2 }) he hl hx d _ _ (fun _ => (0, 0)) (es := []) fun _ => rfl
  · have hc : (v.remaining t.hart 0).contains 0 = true := by
      have : 0 < v.vl := by omega
      simp [VEntry.remaining, activeElems, positions, hst, this, maskBit, Hart.getM]
    rw [show t.hartAt t.here t.me = t.hart from rfl, hc, if_neg hv]
    have e := applyResults_elements he hl hx d (typeBits (workType v.ty)) (workType v.ty)
      (fun _ => (r.1.getD (identityOf kind.toNat (workType v.ty)), r.2)) (es := [0]) fun h0 => absurd h0 hv
    rw [hf, List.foldl_cons, List.foldl_nil, Nat.zero_or] at e
    exact e

omit hl hx in
/-- VRED with an x destination gives it the result of the tree. -/
theorem reduceX_tree {kind : BitVec 3} (ha : ReduceAccepts v.ty kind.toNat) (d : BitVec 5) (a : VReg) (m : MReg) :
    let r := treeOf t.hart v kind.toNat a.toNat m.toNat
    ∃ u, reduceX t.here t.me v d a kind m t = .ok (.done r.2) u ∧
      OnlyHart (t.hart.setX d.toNat (word (r.1.getD (identityOf kind.toNat (workType v.ty))))) t u := by
  intro r
  unfold reduceX
  rw [reduction_tree he hs ha, bind_ok, hf, Nat.zero_or]
  exact ⟨_, rfl, OnlyHart.modHart t fun x => x.setX d.toNat (word (r.1.getD (identityOf kind.toNat (workType v.ty))))⟩

/-- VSCAN writes the active elements. -/
theorem scan_tree {kind : BitVec 3} (ha : ReduceAccepts v.ty kind.toNat) (hst : v.start = 0) (d a : VReg) (m : MReg) :
    let r := scanOf t.hart v kind.toNat a.toNat m.toNat
    let es := activeElems t.hart m.toNat v.vl
    ∃ u, scan t.here t.me v d a kind m t = .ok (.done (es.foldl (fun f e => f ||| (scanElem v r.1 e).2) r.2)) u ∧
      OnlyHart (t.hart.setElems d.toNat (typeBits v.ty) (es.map fun e => (e, (scanElem v r.1 e).1))) t u := by
  intro r es
  have e := applyResults_elements (v := { v with flags := r.2 }) he hl hx d (typeBits v.ty) v.ty (scanElem v r.1) (es := es)
    fun (h0 : v.vl = 0) => by simp only [es, activeElems, positions, h0]; rfl
  unfold scan
  rw [if_neg (by rw [reduceRefused_accepts hs ha]; decide)]
  dsimp only
  rw [requirePresent_empty he, bind_ok, treeInputs_values, treeInputs_flags, scanSteps_map, hf, Nat.zero_or]
  have hz : ((List.range v.vl).map r.1).zipIdx = (List.range v.vl).map fun e => (r.1 e, e) :=
    List.ext_getElem (by simp) fun i h1 h2 => by simp
  have hv : ((((List.range v.vl).map r.1).zipIdx.filter fun e => maskBit (t.hart.getM m.toNat) e.2 && decide (v.start ≤ e.2)).map
      fun (x : Option Nat × Nat) => if workType v.ty = v.ty then Elem.value x.2 (x.1.getD 0)
        else ⟨x.2, .val (convertTo v.ty v.mode (v.random x.2) (valueOf (workType v.ty) (x.1.getD 0))).1,
          (convertTo v.ty v.mode (v.random x.2) (valueOf (workType v.ty) (x.1.getD 0))).2⟩) = vals (results (scanElem v r.1) es) := by
    rw [hz, vals, results, List.filter_map, List.map_map, List.map_map]
    simp only [hst, Nat.zero_le, decide_true, Bool.and_true, Function.comp_def, scanElem]
    refine List.map_congr_left fun e _ => ?_
    split <;> rfl
  exact hv ▸ e

end

end Sys2Proof.Machine

namespace Sys2Proof.Machine

/-! ### The tree of an operation that may be regrouped -/

/-- An operation on the elements that are present. -/
def optJoin (g : Nat → Nat → Nat) : Option Nat → Option Nat → Option Nat
  | p, none => p
  | none, q => q
  | some p, some q => some (g p q)

/-- The positions from `a` on, `m` of them, joined in order. -/
def segment (j : Option Nat → Option Nat → Option Nat) (s : Nat → Option Nat) (a : Nat) : Nat → Option Nat
  | 0 => none
  | m + 1 => j (segment j s a m) (s (a + m))

section
variable {g : Nat → Nat → Nat} (hg : ∀ p q r, g (g p q) r = g p (g q r))

theorem optJoin_none (p : Option Nat) : optJoin g p none = p := by cases p <;> rfl
theorem none_optJoin (p : Option Nat) : optJoin g none p = p := by cases p <;> rfl

include hg

theorem optJoin_assoc (p q r : Option Nat) : optJoin g (optJoin g p q) r = optJoin g p (optJoin g q r) := by
  cases p with
  | none => rw [none_optJoin, none_optJoin]
  | some p =>
    cases q with
    | none => rw [optJoin_none, none_optJoin]
    | some q =>
      cases r with
      | none => rfl
      | some r => exact congrArg some (hg p q r)

theorem segment_add (s : Nat → Option Nat) (a m k : Nat) :
    segment (optJoin g) s a (m + k) = optJoin g (segment (optJoin g) s a m) (segment (optJoin g) s (a + m) k) := by
  induction k with
  | zero => exact (optJoin_none _).symm
  | succ k ih => rw [← Nat.add_assoc, segment, ih, optJoin_assoc hg, ← Nat.add_assoc]; rfl

/-- The positions that a scan has joined at position e after the steps of distances below `d`. -/
def window (g : Nat → Nat → Nat) (s : Nat → Option Nat) (d e : Nat) : Option Nat :=
  if e < d then segment (optJoin g) s 0 (e + 1) else segment (optJoin g) s (e + 1 - d) d

omit hg in
theorem window_one (s : Nat → Option Nat) : window g s 1 = s := by
  funext e
  unfold window
  split
  · have : e = 0 := by omega
    subst this
    exact none_optJoin _
  · exact none_optJoin _

/-- A step doubles the window. -/
theorem window_double (s : Nat → Option Nat) (d : Nat) :
    window g s (2 * d) = fun e => if e < d then window g s d e else optJoin g (window g s d (e - d)) (window g s d e) := by
  funext e
  unfold window
  by_cases h1 : e < d
  · rw [if_pos h1, if_pos h1, if_pos (by omega)]
  · rw [if_neg h1, if_neg h1]
    by_cases h2 : e < 2 * d
    · rw [if_pos h2, if_pos (by omega)]
      have e1 := segment_add hg s 0 (e - d + 1) d
      rw [show e - d + 1 + d = e + 1 by omega, show 0 + (e - d + 1) = e + 1 - d by omega] at e1
      exact e1
    · rw [if_neg h2, if_neg (by omega)]
      have e1 := segment_add hg s (e + 1 - 2 * d) d d
      rw [show d + d = 2 * d by omega, show e + 1 - 2 * d + d = e + 1 - d by omega] at e1
      rw [show e - d + 1 - d = e + 1 - 2 * d by omega]
      exact e1

/-- A scan joins every position with all before it. -/
theorem scanTree_segment {vl : Nat} (fuel : Nat) (s : Nat → Option Nat) (d f : Nat) (hfuel : vl ≤ d * 2 ^ fuel) (e : Nat)
    (he : e < vl) : (scanTree (fun _ p q => (optJoin g p q, 0)) vl fuel d (window g s d) f).1 e =
      segment (optJoin g) s 0 (e + 1) := by
  induction fuel generalizing d f with
  | zero => exact if_pos (by omega)
  | succ n ih =>
    unfold scanTree
    split
    · exact if_pos (by omega)
    · dsimp only
      rw [← window_double hg]
      exact ih (2 * d) _ (by rw [Nat.pow_succ] at hfuel; exact hfuel.trans_eq (by ring))

omit hg in
theorem scanTree_noFlags (vl fuel : Nat) (s : Nat → Option Nat) (d f : Nat) :
    (scanTree (fun _ p q => (optJoin g p q, 0)) vl fuel d s f).2 = f := by
  induction fuel generalizing s d f with
  | zero => rfl
  | succ n ih =>
    unfold scanTree
    split
    · rfl
    · simp only [ih, Nat.or_zero, ite_self]
      exact List.foldl_fixed _

variable (hc : ∀ p q, g p q = g q p)
include hc

omit hg in
theorem optJoin_comm (p q : Option Nat) : optJoin g p q = optJoin g q p := by
  cases p with
  | none => rw [none_optJoin, optJoin_none]
  | some p =>
    cases q with
    | none => rfl
    | some q => exact congrArg some (hc p q)

theorem segment_pairs (s t : Nat → Option Nat) (m : Nat) :
    segment (optJoin g) (fun i => optJoin g (s i) (t i)) 0 m =
      optJoin g (segment (optJoin g) s 0 m) (segment (optJoin g) t 0 m) := by
  have comm := optJoin_comm hc
  have assoc := optJoin_assoc hg
  induction m with
  | zero => rfl
  | succ m ih =>
    rw [segment, ih, segment, segment]
    calc optJoin g (optJoin g (segment _ s 0 m) (segment _ t 0 m)) (optJoin g (s (0 + m)) (t (0 + m)))
      _ = optJoin g (segment _ s 0 m) (optJoin g (optJoin g (segment _ t 0 m) (s (0 + m))) (t (0 + m))) := by
        rw [assoc, assoc]
      _ = optJoin g (segment _ s 0 m) (optJoin g (optJoin g (s (0 + m)) (segment _ t 0 m)) (t (0 + m))) := by
        rw [comm (segment _ t 0 m)]
      _ = _ := by rw [assoc, assoc]

omit hg hc in
theorem segment_shift (j : Option Nat → Option Nat → Option Nat) (s : Nat → Option Nat) (a m : Nat) :
    segment j (fun i => s (i + a)) 0 m = segment j s a m := by
  induction m with
  | zero => rfl
  | succ m ih => rw [segment, ih, segment, Nat.zero_add, Nat.add_comm m a]

/-- The tree joins all its positions. -/
theorem tree_segment (p : Nat) (s : Nat → Option Nat) (f : Nat) :
    tree (fun _ p q => (optJoin g p q, 0)) p s f = (segment (optJoin g) s 0 (2 ^ p), f) := by
  induction p generalizing s f with
  | zero => exact congrArg (·, f) (none_optJoin _).symm
  | succ n ih =>
    rw [tree, ih, segment_pairs hg hc s (fun i => s (i + 2 ^ n)), segment_shift]
    have e := segment_add hg s 0 (2 ^ n) (2 ^ n)
    rw [Nat.zero_add] at e
    have hf : (List.range (2 ^ n)).foldl (fun f _ => f ||| 0) f = f := by
      simp only [Nat.or_zero]
      exact List.foldl_fixed _
    rw [← e, ← Nat.two_mul, ← Nat.pow_succ', hf]

end
/-! ### The integer operations -/

/-- An operation whose operands may be regrouped and swapped. -/
structure Regroups (g : Nat → Nat → Nat) : Prop where
  assoc : ∀ p q r, g (g p q) r = g p (g q r)
  comm : ∀ p q, g p q = g q p

/-- The operand with the lesser key; operands with one key have the same bits. -/
theorem least_regroups {K : Type} [LinearOrder K] {k : Nat → K} {r : Nat → Nat} (hk : ∀ p, k (r p) = k p)
    (hr : ∀ p, r (r p) = r p) (hi : ∀ p q, k p = k q → r p = r q) : Regroups fun p q => if k p ≤ k q then r p else r q where
  assoc p q x := by
    by_cases h1 : k p ≤ k q <;> by_cases h2 : k q ≤ k x
    · simp only [h1, h2, h1.trans h2, hk, hr, if_true]
    · simp only [h1, h2, hk, hr, if_true, if_false]
    · simp only [h1, h2, hk, hr, if_true, if_false]
    · have h3 : ¬ k p ≤ k x := fun h => h1 (h.trans (not_le.1 h2).le)
      simp only [h1, h2, h3, hk, hr, if_false]
  comm p q := by
    by_cases h1 : k p ≤ k q <;> by_cases h2 : k q ≤ k p
    · rw [if_pos h1, if_pos h2, hi p q (le_antisymm h1 h2)]
    · rw [if_pos h1, if_neg h2]
    · rw [if_neg h1, if_pos h2]
    · exact absurd (le_of_not_ge h1) h2

theorem Regroups.flip {g : Nat → Nat → Nat} (h : Regroups g) : Regroups fun p q => g q p where
  assoc p q r := (h.assoc r q p).symm
  comm p q := h.comm q p

/-- A bitwise operation on the low bits of its operands. -/
theorem mod_regroups {f : Nat → Nat → Nat} (h : Regroups f) (n : Nat) (hm : ∀ p q, f p q % 2 ^ n = f (p % 2 ^ n) (q % 2 ^ n)) :
    Regroups fun p q => f (p % 2 ^ n) (q % 2 ^ n) where
  assoc p q r := by simp only [hm, Nat.mod_mod, h.assoc]
  comm p q := h.comm _ _

/-- The lane function of a kind of reduction. -/
def reduceFn (kind : Nat) (signed : Bool) : LaneFn :=
  match kind with
  | 0 => .add
  | 1 => if signed then .min else .minn
  | 2 => if signed then .max else .maxn
  | 3 => .and
  | 4 => .or
  | _ => .xor

theorem combine_int {wt : Nat} (h : isFloat wt = false) (kind : Nat) (mode : RMode) (rb : Nat) (p q : Option Nat) :
    combine kind wt mode rb p q = (optJoin (intCompute (reduceFn kind (signedType wt)) wt) p q, 0) := by
  cases p <;> cases q <;> try rfl
  unfold combine
  rw [h]
  rfl

theorem signedOf_mod (n p : Nat) : signedOf n (p % 2 ^ n) = signedOf n p := by
  unfold signedOf
  rw [Nat.mod_mod]

theorem signedOf_inj {n p q : Nat} (h : signedOf n p = signedOf n q) : p % 2 ^ n = q % 2 ^ n := by
  have e := congrArg (· % ((2 ^ n : Nat) : Int)) h
  simp only [signedOf_emod] at e
  exact_mod_cast e

/-- The low bits of an operand with the least, or the greatest, key. -/
theorem bounds_regroup {K : Type} [LinearOrder K] {n : Nat} {k : Nat → K} (hk : ∀ p, k (p % 2 ^ n) = k p)
    (hi : ∀ p q, k p = k q → p % 2 ^ n = q % 2 ^ n) :
    Regroups (fun p q => if k p ≤ k q then p % 2 ^ n else q % 2 ^ n) ∧
      Regroups (fun p q => if k p ≤ k q then q % 2 ^ n else p % 2 ^ n) :=
  have hr : ∀ p, p % 2 ^ n % 2 ^ n = p % 2 ^ n := fun p => Nat.mod_mod p _
  ⟨least_regroups hk hr hi,
    (least_regroups (k := fun p => OrderDual.toDual (k p)) (fun p => congrArg OrderDual.toDual (hk p)) hr
      fun p q h => hi p q (OrderDual.toDual.injective h)).flip⟩

theorem addMod_regroups (n : Nat) : Regroups fun p q => (p % 2 ^ n + q % 2 ^ n) % 2 ^ n where
  assoc p q r := by simp only [Nat.mod_add_mod, Nat.add_mod_mod, Nat.add_assoc]
  comm p q := by rw [Nat.add_comm]

theorem reduceFn_regroups (kind ty : Nat) (signed : Bool) : Regroups (intCompute (reduceFn kind signed) ty) := by
  obtain ⟨hmin, hmax⟩ := bounds_regroup (signedOf_mod (intBits ty)) fun _ _ => signedOf_inj
  obtain ⟨hminn, hmaxn⟩ := bounds_regroup (n := intBits ty) (k := fun p => p % 2 ^ intBits ty) (fun p => Nat.mod_mod p _)
    fun _ _ h => h
  match kind with
  | 0 => exact addMod_regroups _
  | 1 =>
    cases signed
    · exact hminn
    · exact hmin
  | 2 =>
    cases signed
    · exact hmaxn
    · exact hmax
  | 3 => exact mod_regroups ⟨Nat.and_assoc, Nat.and_comm⟩ _ fun _ _ => Nat.and_mod_two_pow
  | 4 => exact mod_regroups ⟨Nat.or_assoc, Nat.or_comm⟩ _ fun _ _ => Nat.or_mod_two_pow
  | _ + 5 => exact mod_regroups ⟨Nat.xor_assoc, Nat.xor_comm⟩ _ fun _ _ => Nat.xor_mod_two_pow

/-- On bits of its width the lane function is the operation of R134. -/
theorem intCompute_reduceFn {ty n kind p q : Nat} {signed : Bool} (hn : intBits ty = n) (hp : p < 2 ^ n) (hq : q < 2 ^ n) :
    intCompute (reduceFn kind signed) ty p q = reduceOp signed n kind p q := by
  subst hn
  match kind with
  | 0 => simp only [reduceFn, intCompute, reduceOp, Nat.mod_eq_of_lt hp, Nat.mod_eq_of_lt hq, wrap_natCast]
  | 1 | 2 => cases signed <;> simp only [reduceFn, intCompute, reduceOp, Nat.mod_eq_of_lt hp, Nat.mod_eq_of_lt hq] <;> rfl
  | 3 | 4 | _ + 5 => simp only [reduceFn, intCompute, reduceOp, Nat.mod_eq_of_lt hp, Nat.mod_eq_of_lt hq]

theorem reduceOp_lt {signed : Bool} {n kind p q : Nat} (hp : p < 2 ^ n) (hq : q < 2 ^ n) : reduceOp signed n kind p q < 2 ^ n := by
  match kind with
  | 0 => exact Nat.mod_lt _ (Nat.two_pow_pos n)
  | 1 =>
    cases signed
    · exact (Nat.min_le_left p q).trans_lt hp
    · show (if _ then p else q) < _
      split <;> assumption
  | 2 =>
    cases signed
    · exact Nat.max_lt.2 ⟨hp, hq⟩
    · show (if _ then q else p) < _
      split <;> assumption
  | 3 => exact Nat.and_lt_two_pow p hq
  | 4 => exact Nat.or_lt_two_pow hp hq
  | _ + 5 => exact Nat.xor_lt_two_pow hp hq

/-- The unit of a kind leaves the bits of its width alone. -/
theorem reduceOp_unit {signed : Bool} {n kind p : Nat} (hn : 0 < n) (hp : p < 2 ^ n) :
    reduceOp signed n kind (reduceUnit signed n kind) p = p := by
  obtain ⟨k, rfl⟩ : ∃ k, n = k + 1 := ⟨n - 1, by omega⟩
  have h2 := Nat.pow_succ' (n := k) (m := 2)
  match kind with
  | 0 => exact (congrArg (· % 2 ^ (k + 1)) (Nat.zero_add p)).trans (Nat.mod_eq_of_lt hp)
  | 1 =>
    cases signed
    · exact Nat.min_eq_right (Nat.le_sub_one_of_lt hp)
    · simp only [reduceOp, reduceUnit, signedOf, if_true, Nat.mod_eq_of_lt hp, Nat.add_sub_cancel]
      rw [Nat.mod_eq_of_lt (by omega)]
      split_ifs <;> omega
  | 2 =>
    cases signed
    · exact Nat.max_eq_right (Nat.zero_le p)
    · simp only [reduceOp, reduceUnit, signedOf, if_true, Nat.mod_eq_of_lt hp, Nat.add_sub_cancel]
      rw [Nat.mod_eq_of_lt (by omega)]
      split_ifs <;> omega
  | 3 => exact (Nat.and_comm _ _).trans ((Nat.and_two_pow_sub_one_eq_mod p _).trans (Nat.mod_eq_of_lt hp))
  | 4 => exact Nat.zero_or p
  | _ + 5 => exact Nat.zero_xor p

/-! ### Positions in order -/

/-- The positions that are present, taken in order. -/
def foldPresent (op : Nat → Nat → Nat) (u : Nat) (s : Nat → Option Nat) (l : List Nat) : Nat :=
  l.foldl (fun p e => ((s e).map (op p)).getD p) u

/-- A segment of positions of `N` values is those present taken in order, where two operations agree on these values. -/
theorem segment_fold {g op : Nat → Nat → Nat} {u N : Nat} (hop : ∀ p q, p < N → q < N → g p q = op p q)
    (hcl : ∀ p q, p < N → q < N → op p q < N) (hu : ∀ p, p < N → op u p = p) {s : Nat → Option Nat}
    (hs : ∀ e, ∀ w ∈ s e, w < N) (m : Nat) :
    (segment (optJoin g) s 0 m).getD u = foldPresent op u s (List.range m) ∧ ∀ w ∈ segment (optJoin g) s 0 m, w < N := by
  induction m with
  | zero => exact ⟨rfl, nofun⟩
  | succ m ih =>
    obtain ⟨hv, hb⟩ := ih
    have hr : foldPresent op u s (List.range (m + 1)) =
        ((s m).map (op (foldPresent op u s (List.range m)))).getD (foldPresent op u s (List.range m)) := by
      rw [foldPresent, List.range_succ, List.foldl_append]
      rfl
    rw [segment, Nat.zero_add, hr, ← hv]
    have hm := hs m
    rcases hseg : segment (optJoin g) s 0 m with _ | p
    · rw [none_optJoin]
      refine ⟨?_, hm⟩
      rcases hw : s m with _ | w
      · simp
      · simp [hu w (hm w hw)]
    · have hp : p < N := hb p hseg
      rcases hw : s m with _ | w
      · simpa [hw, optJoin] using hp
      · have hwb : w < N := hm w hw
        simp [optJoin, hop p w hp hwb, hcl p w hp hwb]

/-- Only active elements are present. -/
theorem foldPresent_active (op : Nat → Nat → Nat) (u : Nat) (on : Nat → Bool) (value : Nat → Nat) (l : List Nat) :
    foldPresent op u (fun e => if on e = true then some (value e) else none) l =
      (l.filter on).foldl (fun p e => op p (value e)) u := by
  rw [foldPresent, List.foldl_filter]
  congr 1
  funext p e
  split <;> rfl

end Sys2Proof.Machine

namespace Sys2Proof.Machine

/-! ### VRED and VSCAN of a hart with nothing in flight -/

/-- The reductions and scans. -/
def reduceRow : Instr → Bool
  | .vred _ _ _ _ | .vredXd _ _ _ _ | .vscan _ _ _ _ => true
  | _ => false

/-- The VL, types and controls that an instruction captures where VL fits its type are those of the hart. -/
structure TakesElements (s : State) (v : VEntry) : Prop where
  vl : v.vl = s.hart.vec.vl
  vtype : v.vtype = s.hart.vec.vtype
  fpctl : v.fpctl = word s.hart.fp.ctl.toNat
  seed : v.seed = s.hart.fp.seed
  ric : v.ric = s.hart.fp.ric

section
variable {s : State} {i : Instr}

theorem entryOf_takesElements (hi : reduceRow i = true) (hvl : s.hart.VlFits) : TakesElements s (entryOf s i) := by
  unfold reduceRow at hi
  split at hi
  case h_4 => exact absurd hi Bool.false_ne_true
  all_goals exact ⟨vl_fits hvl, rfl, rfl, rfl, rfl⟩

theorem TakesElements.ty {v : VEntry} (h : TakesElements s v) : v.ty = s.hart.ty := by rw [VEntry.ty, h.vtype, Hart.ty]

theorem TakesElements.mode {v : VEntry} (h : TakesElements s v) : v.mode = rmodeOf (bits s.hart.fp.ctl.toNat 0 3) := by
  have hlt : s.hart.fp.ctl.toNat < 2 ^ 64 := s.hart.fp.ctl.isLt.trans_le (Nat.pow_le_pow_right (by decide) (by decide))
  rw [VEntry.mode, h.fpctl, wbits, word, BitVec.toNat_ofNat, Nat.mod_eq_of_lt hlt]

theorem TakesElements.random {v : VEntry} (h : TakesElements s v) (e : Nat) :
    v.random e = randomBits s.hart.fp.seed s.hart.fp.ric e := by rw [VEntry.random, h.seed, h.ric]

theorem registerOnly_of_reduceRow (hi : reduceRow i = true) (s : State) : RegisterOnly s i := by
  unfold reduceRow at hi
  split at hi
  case h_4 => exact absurd hi Bool.false_ne_true
  all_goals exact ⟨nofun, fun _ => rfl, rfl, rfl⟩

theorem exec_reduceRow (hi : reduceRow i = true) (s : State) : exec i s = issueVector i s := by
  unfold reduceRow at hi
  split at hi
  case h_4 => exact absurd hi Bool.false_ne_true
  all_goals rfl

theorem length_reduceRow (hi : reduceRow i = true) : i.length = 4 := by
  unfold reduceRow at hi
  split at hi
  case h_4 => exact absurd hi Bool.false_ne_true
  all_goals rfl

theorem dispatched_hart (s : State) (i : Instr) : (dispatchedState s i).hart = behind s i [entryOf s i] := hart_dispatched s i

theorem noOldRow_dispatched (h : VectorReady s) (i : Instr) : NoOldRow (dispatchedState s i).hart := by
  rw [dispatched_hart]
  intro v hv
  simp only [Hart.allEntries, behind, Hart.front, h.held, h.loop, List.nil_append, List.append_nil, List.mem_singleton] at hv
  rw [hv]
  exact (captureFor_fresh s i).old

/-- A reduction that changes the registers of its hart by `g`, with flags `f`. -/
theorem completes_of_reduceRow (hi : reduceRow i = true) (h : VectorReady s) {g : Hart → Hart} (hg : Commutes g)
    (hq : (g s.hart).ms = s.hart.ms) {f : Nat}
    (he : ∃ u, vexec s.here s.me (entryOf s i) (dispatchedState s i) = .ok (.done f) u ∧
      OnlyHart (g (dispatchedState s i).hart) (dispatchedState s i) u) :
    Completes i (g s.hart) 4 f (consumesHere s i) s := by
  obtain ⟨u, hv, hu⟩ := he
  rw [dispatched_hart] at hu
  have hd := issueVector_done h (registerOnly_of_reduceRow hi s) hg (hq ▸ h.stq) hv hu
  rw [length_reduceRow hi, ← exec_reduceRow hi] at hd
  exact hd

end

section
variable {s : State} (h : VectorReady s) (hvl : s.hart.VlFits) (hs : s.hart.vec.vtype.getLsbD 4 = false) {k : BitVec 3}
  (ha : ReduceAccepts s.hart.ty k.toNat) (d a : VReg) (m : MReg)

/-- The operation of a reduction at each position, with the controls of the hart. -/
def opHere (s : State) (kind i : Nat) (p q : Option Nat) : Option Nat × Nat :=
  combine kind (workType s.hart.ty) (rmodeOf (bits s.hart.fp.ctl.toNat 0 3)) (randomBits s.hart.fp.seed s.hart.fp.ric i) p q

/-- The elements of the hart that enter. -/
def startHere (s : State) (a : VReg) (m : MReg) : Nat → Option Nat :=
  treeStart s.hart s.hart.ty s.hart.vec.vl a.toNat m.toNat

/-- The flags of their widening. -/
def flagsHere (s : State) (a : VReg) (m : MReg) : Nat := startFlags s.hart s.hart.ty s.hart.vec.vl a.toNat m.toNat

/-- The tree of VRED. -/
def treeHere (s : State) (kind : Nat) (a : VReg) (m : MReg) : Option Nat × Nat :=
  tree (opHere s kind) (log2Up s.hart.vec.vl) (startHere s a m) (flagsHere s a m)

/-- The positions of VSCAN after its steps. -/
def scanHere (s : State) (kind : Nat) (a : VReg) (m : MReg) : (Nat → Option Nat) × Nat :=
  scanTree (opHere s kind) s.hart.vec.vl 13 1 (startHere s a m) (flagsHere s a m)

/-- Element e of the result of VSCAN with the flags of its rounding. -/
def roundedHere (s : State) (w : Nat → Option Nat) (e : Nat) : Nat × Nat :=
  if workType s.hart.ty = s.hart.ty then ((w e).getD 0, 0)
  else convertTo s.hart.ty (rmodeOf (bits s.hart.fp.ctl.toNat 0 3)) (randomBits s.hart.fp.seed s.hart.fp.ric e)
    (valueOf (workType s.hart.ty) ((w e).getD 0))

theorem TakesElements.combineAt {v : VEntry} (h : TakesElements s v) (kind : Nat) :
    combineAt kind (workType v.ty) v = opHere s kind := by
  funext i p q
  rw [Machine.combineAt, opHere, h.ty, h.mode, h.random]

theorem TakesElements.scanElem {v : VEntry} (h : TakesElements s v) : scanElem v = roundedHere s := by
  funext w e
  rw [Machine.scanElem, roundedHere, h.ty, h.mode, h.random]

theorem TakesElements.treeOf {v : VEntry} (h : TakesElements s v) (i : Instr) (viq : List VEntry) (kind : Nat) :
    treeOf (behind s i viq) v kind a.toNat m.toNat = treeHere s kind a m := by
  rw [Machine.treeOf, h.combineAt, h.ty, h.vl]
  rfl

theorem TakesElements.scanOf {v : VEntry} (h : TakesElements s v) (i : Instr) (viq : List VEntry) (kind : Nat) :
    scanOf (behind s i viq) v kind a.toNat m.toNat = scanHere s kind a m := by
  rw [Machine.scanOf, h.combineAt, h.ty, h.vl]
  rfl

include h hvl hs ha

theorem vred_completes : Completes (.vred d a k m) (s.hart.setElems d.toNat (typeBits (workType s.hart.ty))
    (if s.hart.vec.vl = 0 then [] else [(0, (treeHere s k.toNat a m).1.getD (identityOf k.toNat (workType s.hart.ty)))]))
    4 (treeHere s k.toNat a m).2 (consumesHere s (.vred d a k m)) s := by
  let i := Instr.vred d a k m
  have ht : TakesElements s (entryOf s i) := entryOf_takesElements rfl hvl
  have hf := captureFor_fresh s i
  have he := reduce_tree (v := entryOf s i) (entries_dispatched h i) hf.limit (noOldRow_dispatched h i)
    ((congrArg (fun w => w.getLsbD 4) ht.vtype).trans hs) hf.flags (ht.ty.symm ▸ ha) hf.start d a m
  rw [dispatched_hart, ht.treeOf, ht.ty, ht.vl] at he
  exact completes_of_reduceRow (i := i) (g := fun x => x.setElems d.toNat _ _) rfl h
    (fun x pc fp run viq => setElems_front _ _ _ _ _ _ _ _) (setElems_ms _ _ _ _) (dispatched_hart s i ▸ he)

theorem vredXd_completes (dx : BitVec 5) : Completes (.vredXd dx a k m)
    (s.hart.setX dx.toNat (word ((treeHere s k.toNat a m).1.getD (identityOf k.toNat (workType s.hart.ty)))))
    4 (treeHere s k.toNat a m).2 (consumesHere s (.vredXd dx a k m)) s := by
  let i := Instr.vredXd dx a k m
  have ht : TakesElements s (entryOf s i) := entryOf_takesElements rfl hvl
  have hf := captureFor_fresh s i
  have he := reduceX_tree (v := entryOf s i) (entries_dispatched h i)
    ((congrArg (fun w => w.getLsbD 4) ht.vtype).trans hs) hf.flags (ht.ty.symm ▸ ha) dx a m
  rw [dispatched_hart, ht.treeOf, ht.ty] at he
  exact completes_of_reduceRow (i := i) (g := fun x => x.setX dx.toNat _) rfl h (commutes_setX _ _) (setX_ms _ _ _)
    (dispatched_hart s i ▸ he)

theorem vscan_completes : Completes (.vscan d a k m) (s.hart.setElems d.toNat (typeBits s.hart.ty)
      ((s.hart.active m).map fun e => (e, (roundedHere s (scanHere s k.toNat a m).1 e).1)))
    4 ((s.hart.active m).foldl (fun f e => f ||| (roundedHere s (scanHere s k.toNat a m).1 e).2) (scanHere s k.toNat a m).2)
    (consumesHere s (.vscan d a k m)) s := by
  let i := Instr.vscan d a k m
  have ht : TakesElements s (entryOf s i) := entryOf_takesElements rfl hvl
  have hf := captureFor_fresh s i
  have he := scan_tree (v := entryOf s i) (entries_dispatched h i) hf.limit (noOldRow_dispatched h i)
    ((congrArg (fun w => w.getLsbD 4) ht.vtype).trans hs) hf.flags (ht.ty.symm ▸ ha) hf.start d a m
  rw [dispatched_hart, ht.scanOf, ht.scanElem, ht.ty, ht.vl] at he
  exact completes_of_reduceRow (i := i) (g := fun x => x.setElems d.toNat _ _) rfl h
    (fun x pc fp run viq => setElems_front _ _ _ _ _ _ _ _) (setElems_ms _ _ _ _) (dispatched_hart s i ▸ he)

end
end Sys2Proof.Machine

namespace Sys2Proof.Machine

/-! ### Integer types -/

theorem workType_int {ty : Nat} (h : ty < 8) : workType ty = ty := by
  have hf : isFloat ty = false := by simp [isFloat]; omega
  simp [workType, hf]

theorem range_filter_lt (k n : Nat) : (List.range k).filter (fun e => decide (e < n)) = List.range (Nat.min k n) := by
  induction k with
  | zero => rw [show Nat.min 0 n = 0 from Nat.zero_min n]; rfl
  | succ k ih =>
    rw [List.range_succ, List.filter_append, ih]
    by_cases h : k < n
    · rw [show Nat.min k n = k from Nat.min_eq_left h.le, show Nat.min (k + 1) n = k + 1 from Nat.min_eq_left h,
        List.range_succ]
      simp [h]
    · rw [show Nat.min k n = n from Nat.min_eq_right (by omega), show Nat.min (k + 1) n = n from Nat.min_eq_right (by omega)]
      simp [h]

/-- The active elements below `k`, from the positions below it. -/
theorem active_below (x : Hart) (m : MReg) (k : Nat) :
    (List.range k).filter (fun e => decide (e < x.vec.vl) && maskBit (x.getM m.toNat) e) =
      (x.active m).filter fun e => decide (e < k) := by
  have swap : ∀ n l, (List.range l).filter (fun e => decide (e < n) && maskBit (x.getM m.toNat) e) =
      (List.range (Nat.min l n)).filter fun e => maskBit (x.getM m.toNat) e := fun n l => by
    rw [← range_filter_lt, List.filter_filter]
    exact List.filter_congr fun e _ => Bool.and_comm _ _
  rw [Hart.active, activeElems, positions, List.filter_filter, swap, swap, show Nat.min k _ = _ from Nat.min_comm _ _]

theorem identityOf_int {ty kind : Nat} (h : ty < 8) (hk : kind < 6) :
    identityOf kind ty = reduceUnit (ty < 4) (typeBits ty) kind := by
  have all : ∀ ty < 8, ∀ kind < 6, identityOf kind ty = reduceUnit (ty < 4) (typeBits ty) kind := by decide
  exact all ty h kind hk

section
variable {s : State} (hty : s.hart.ty < 8)

/-- The lane function of a kind of reduction on the type of the hart. -/
def intOp (s : State) (kind : Nat) : Nat → Nat → Nat :=
  intCompute (reduceFn kind (signedType s.hart.ty)) s.hart.ty

/-- The active elements of `l` taken in order (R134). -/
def foldHere (s : State) (kind : Nat) (a : VReg) (l : List Nat) : Nat :=
  l.foldl (fun p e => reduceOp (s.hart.ty < 4) (typeBits s.hart.ty) kind p (elemOf (s.hart.getV a.toNat) (typeBits s.hart.ty) e))
    (reduceUnit (s.hart.ty < 4) (typeBits s.hart.ty) kind)

include hty

theorem opHere_int (kind : Nat) : opHere s kind = fun _ p q => (optJoin (intOp s kind) p q, 0) := by
  have hf : isFloat s.hart.ty = false := by simp [isFloat]; omega
  funext i p q
  rw [opHere, workType_int hty, combine_int hf]
  rfl

theorem startHere_int (a : VReg) (m : MReg) : startHere s a m = fun e =>
    if (decide (e < s.hart.vec.vl) && maskBit (s.hart.getM m.toNat) e) = true then
      some (elemOf (s.hart.getV a.toNat) (typeBits s.hart.ty) e) else none := by
  funext e
  simp only [startHere, treeStart, widenedElem, workType_int hty, if_true, Bool.and_eq_true, decide_eq_true_eq]

theorem flagsHere_int (a : VReg) (m : MReg) : flagsHere s a m = 0 := by
  rw [flagsHere, startFlags]
  simp only [widenedElem, workType_int hty, if_true, foldl_noFlags]

/-- The first positions joined are the active elements among them taken in order. -/
theorem segment_int {kind : Nat} (a : VReg) (m : MReg) (k : Nat) :
    (segment (optJoin (intOp s kind)) (startHere s a m) 0 k).getD (reduceUnit (s.hart.ty < 4) (typeBits s.hart.ty) kind) =
      foldHere s kind a ((s.hart.active m).filter fun e => decide (e < k)) := by
  have hn : intBits s.hart.ty = typeBits s.hart.ty := by
    have all : ∀ ty < 8, intBits ty = typeBits ty := by decide
    exact all _ hty
  have hs : ∀ e, ∀ w ∈ startHere s a m e, w < 2 ^ typeBits s.hart.ty := by
    intro e w hw
    rw [startHere_int hty] at hw
    obtain ⟨-, hv⟩ := Option.ite_none_right_eq_some.1 hw
    rw [← Option.some.inj hv]
    exact Nat.mod_lt _ (Nat.two_pow_pos _)
  obtain ⟨hf, -⟩ := segment_fold (op := reduceOp (s.hart.ty < 4) (typeBits s.hart.ty) kind)
    (fun p q hp hq => intCompute_reduceFn hn hp hq) (fun p q hp hq => reduceOp_lt hp hq)
    (fun p hp => reduceOp_unit (typeBits_pos _) hp) hs k
  refine hf.trans ?_
  rw [startHere_int hty, foldPresent_active, active_below]
  rfl

/-- The tree of an integer type is the active elements taken in order. -/
theorem treeHere_int {kind : Nat} (hk : kind < 6) (a : VReg) (m : MReg) :
    (treeHere s kind a m).1.getD (identityOf kind (workType s.hart.ty)) = foldHere s kind a (s.hart.active m) ∧
      (treeHere s kind a m).2 = 0 := by
  have hg := reduceFn_regroups kind s.hart.ty (signedType s.hart.ty)
  have ht : treeHere s kind a m = (segment (optJoin (intOp s kind)) (startHere s a m) 0 (2 ^ log2Up s.hart.vec.vl), 0) := by
    rw [treeHere, opHere_int hty, flagsHere_int hty]
    exact tree_segment hg.assoc hg.comm _ _ _
  have hall : (s.hart.active m).filter (fun e => decide (e < 2 ^ log2Up s.hart.vec.vl)) = s.hart.active m :=
    List.filter_eq_self.2 fun e he => by
      have hlt : e < s.hart.vec.vl := List.mem_range.1 (List.mem_of_mem_filter he)
      exact decide_eq_true (hlt.trans_le (le_two_pow_log2Up _))
  rw [ht, workType_int hty, identityOf_int hty hk, segment_int hty, hall]
  exact ⟨rfl, rfl⟩

/-- Position e of a scan of an integer type is the active elements up to e taken in order. -/
theorem scanHere_int (kind : Nat) (a : VReg) (m : MReg) (hvl : s.hart.vec.vl ≤ 4096) :
    (scanHere s kind a m).2 = 0 ∧ ∀ e ∈ s.hart.active m, roundedHere s (scanHere s kind a m).1 e =
      (foldHere s kind a ((s.hart.active m).filter fun j => decide (j ≤ e)), 0) := by
  have hg := reduceFn_regroups kind s.hart.ty (signedType s.hart.ty)
  have hsc : scanHere s kind a m = scanTree (fun _ p q => (optJoin (intOp s kind) p q, 0)) s.hart.vec.vl 13 1
      (window (intOp s kind) (startHere s a m) 1) 0 := by
    rw [scanHere, opHere_int hty, flagsHere_int hty, window_one]
  refine ⟨hsc ▸ scanTree_noFlags _ _ _ _ _, fun e he => ?_⟩
  obtain ⟨hr, hm⟩ := List.mem_filter.1 he
  have hlt : e < s.hart.vec.vl := List.mem_range.1 hr
  have hseg : (scanHere s kind a m).1 e = segment (optJoin (intOp s kind)) (startHere s a m) 0 (e + 1) :=
    hsc ▸ scanTree_segment hg.assoc 13 _ 1 0 (by omega) e hlt
  have hlast : startHere s a m e = some (elemOf (s.hart.getV a.toNat) (typeBits s.hart.ty) e) := by
    rw [startHere_int hty]
    simp [hlt, hm]
  have hsome : ∀ u, (segment (optJoin (intOp s kind)) (startHere s a m) 0 (e + 1)).getD 0 =
      (segment (optJoin (intOp s kind)) (startHere s a m) 0 (e + 1)).getD u := fun u => by
    rw [segment, Nat.zero_add, hlast]
    cases segment (optJoin (intOp s kind)) (startHere s a m) 0 e <;> rfl
  rw [roundedHere, if_pos (workType_int hty), hseg, hsome, segment_int hty]
  simp only [Nat.lt_succ_iff]

end

/-! ### Floating types of up to 32 bits, and fp64 -/

/-- The floating types that a reduction accepts. -/
def reduceFloats : List Nat := [8, 9, 11, 12, 13, 14]

/-- The working type of a floating type. -/
def wideOf (ty : Nat) : Nat := if ty = 14 then 14 else 13

theorem workType_float {ty : Nat} (h : ty ∈ reduceFloats) : workType ty = wideOf ty := by
  have all : ∀ ty ∈ reduceFloats, workType ty = wideOf ty := by decide
  exact all ty h

theorem isFloat_wideOf (ty : Nat) : isFloat (wideOf ty) = true := by
  unfold wideOf
  split <;> rfl

/-- The operation of a reduction of floating values. -/
def floatOp (s : State) (kind i : Nat) (p q : Option Nat) : Option Nat × Nat :=
  match p, q with
  | none, q => (q, 0)
  | p, none => (p, 0)
  | some p, some q =>
    let r := fpCompute (if kind = 0 then .fadd else if kind = 1 then .fmin else .fmax) (wideOf s.hart.ty) (wideOf s.hart.ty)
      (wideOf s.hart.ty) (rmodeOf (bits s.hart.fp.ctl.toNat 0 3)) (randomBits s.hart.fp.seed s.hart.fp.ric i) p q 0
    (some r.1, r.2)

theorem opHere_float {s : State} (hty : s.hart.ty ∈ reduceFloats) (kind : Nat) : opHere s kind = floatOp s kind := by
  have hfn : (match kind with | 0 => LaneFn.fadd | 1 => .fmin | _ => .fmax) =
      if kind = 0 then .fadd else if kind = 1 then .fmin else .fmax :=
    match kind with
    | 0 | 1 | _ + 2 => rfl
  funext i p q
  rw [opHere, workType_float hty]
  cases p with
  | none => cases q <;> rfl
  | some p =>
    cases q with
    | none => rfl
    | some q =>
      unfold combine
      rw [isFloat_wideOf, floatOp, ← hfn]
      rfl

end Sys2Proof.Machine

namespace Sys2Proof.Machine

/-- Whether a reduction of the hart consumes a RIC value (R130). -/
def sumsStochastic (s : State) (k : BitVec 3) : Bool :=
  wbits (word s.hart.fp.ctl.toNat) 0 3 == 5 && isFloat s.hart.ty && k == 0

theorem consumesHere_vred (s : State) (d a : VReg) (k : BitVec 3) (m : MReg) :
    consumesHere s (.vred d a k m) = sumsStochastic s k := rfl
theorem consumesHere_vredXd (s : State) (d : BitVec 5) (a : VReg) (k : BitVec 3) (m : MReg) :
    consumesHere s (.vredXd d a k m) = sumsStochastic s k := rfl
theorem consumesHere_vscan (s : State) (d a : VReg) (k : BitVec 3) (m : MReg) :
    consumesHere s (.vscan d a k m) = sumsStochastic s k := rfl

theorem sumsStochastic_int {s : State} (h : s.hart.ty < 8) (k : BitVec 3) : sumsStochastic s k = false := by
  have hf : isFloat s.hart.ty = false := by simp [isFloat]; omega
  rw [sumsStochastic, hf, Bool.and_false, Bool.false_and]

theorem wbits_ctl (s : State) : wbits (word s.hart.fp.ctl.toNat) 0 3 = bits s.hart.fp.ctl.toNat 0 3 := by
  have hlt : s.hart.fp.ctl.toNat < 2 ^ 64 := s.hart.fp.ctl.isLt.trans_le (Nat.pow_le_pow_right (by decide) (by decide))
  rw [wbits, word, BitVec.toNat_ofNat, Nat.mod_eq_of_lt hlt]

theorem sumsStochastic_float {s : State} (h : s.hart.ty ∈ reduceFloats) (k : BitVec 3) :
    sumsStochastic s k = (bits s.hart.fp.ctl.toNat 0 3 == 5 && k == 0) := by
  have all : ∀ ty ∈ reduceFloats, isFloat ty = true := by decide
  rw [sumsStochastic, all _ h, Bool.and_true, wbits_ctl]

theorem floats_accept {ty : Nat} (kind : Nat) (h : ty ∈ reduceFloats) (hk : kind < 3) : ReduceAccepts ty kind := by
  have all : ∀ ty ∈ reduceFloats, ty ≠ 10 ∧ ty ≤ 14 := by decide
  obtain ⟨h10, h14⟩ := all _ h
  exact ⟨h10, h14, fun h3 => absurd hk (by omega)⟩

theorem identityOf_float {ty : Nat} (h : ty ∈ reduceFloats) (kind : Nat) : kind < 3 → identityOf kind (workType ty) =
    match kind with
    | 1 => (fmtOf (wideOf ty)).top + 1
    | 2 => (fmtOf (wideOf ty)).signBit + (fmtOf (wideOf ty)).top + 1
    | _ => 0 := by
  intro hk
  rw [workType_float h]
  unfold identityOf
  rw [isFloat_wideOf]
  match kind with
  | 0 | 1 | 2 => rfl

theorem setElems_first (x : Hart) (d n w vl : Nat) :
    x.setElems d n (if vl = 0 then [] else [(0, w)]) = if vl = 0 then x else x.setElems d n [(0, w)] := by
  split <;> rfl

section
variable {s : State} (h : VectorReady s) (hvl : s.hart.VlFits) (hle : s.hart.vec.vl ≤ 4096)
  (hs : s.hart.vec.vtype.getLsbD 4 = false) (d a : VReg) (m : MReg) (k : BitVec 3) (dx : BitVec 5)
include h hvl hs

/-- On an integer type a reduction is the active elements taken in order. -/
theorem reduce_int (hty : s.hart.ty < 8) (hk : k.toNat < 6) :
    Completes (.vred d a k m) (if s.hart.vec.vl = 0 then s.hart else
      s.hart.setElems d.toNat (typeBits s.hart.ty) [(0, foldHere s k.toNat a (s.hart.active m))]) 4 0 false s ∧
    Completes (.vredXd dx a k m) (s.hart.setX dx.toNat (word (foldHere s k.toNat a (s.hart.active m)))) 4 0 false s := by
  have ha : ReduceAccepts s.hart.ty k.toNat := ⟨by omega, by omega, fun _ => hty⟩
  obtain ⟨hv, hf⟩ := treeHere_int hty hk a m
  have h1 := vred_completes h hvl hs ha d a m
  have h2 := vredXd_completes h hvl hs ha a m dx
  rw [hv, hf, consumesHere_vred, sumsStochastic_int hty, setElems_first, workType_int hty] at h1
  rw [hv, hf, consumesHere_vredXd, sumsStochastic_int hty] at h2
  exact ⟨h1, h2⟩

include hle in
/-- On an integer type position e of a scan is the active elements up to e taken in order. -/
theorem scan_int (hty : s.hart.ty < 8) : Completes (.vscan d a k m) (s.hart.setElems d.toNat (typeBits s.hart.ty)
    ((s.hart.active m).map fun e => (e, foldHere s k.toNat a ((s.hart.active m).filter fun j => decide (j ≤ e))))) 4 0 false s := by
  have ha : ReduceAccepts s.hart.ty k.toNat := ⟨by omega, by omega, fun _ => hty⟩
  obtain ⟨hf, hr⟩ := scanHere_int hty k.toNat a m hle
  have hv := vscan_completes h hvl hs ha d a m
  have hvals : ((s.hart.active m).map fun e => (e, (roundedHere s (scanHere s k.toNat a m).1 e).1)) =
      (s.hart.active m).map fun e => (e, foldHere s k.toNat a ((s.hart.active m).filter fun j => decide (j ≤ e))) :=
    List.map_congr_left fun e he => by rw [hr e he]
  have hflags : (s.hart.active m).foldl (fun f e => f ||| (roundedHere s (scanHere s k.toNat a m).1 e).2) 0 =
      (s.hart.active m).foldl (fun f _ => f ||| 0) 0 :=
    List.foldl_ext _ _ _ fun f e he => by rw [hr e he]
  rw [hf, consumesHere_vscan, sumsStochastic_int hty, hvals, hflags, foldl_noFlags] at hv
  exact hv

end

/-- Settles O42. VRED and VSCAN are a tree and a scan of functions of the position (`vred_completes`, `vredXd_completes`,
`vscan_completes`). On an integer type the operation may be regrouped and swapped (`reduceFn_regroups`), so that both are the
active elements in order (`treeHere_int`, `scanHere_int`); on a floating type they are those of R134 as they stand
(`opHere_float`). -/
theorem reductionResults : Obligations.ReductionResults := by
  unfold Obligations.ReductionResults
  intro s d a m k dx h hvl hle hs
  refine ⟨fun hty hk => ?_, fun hty hk => ?_⟩
  · obtain ⟨hv, hx⟩ := reduce_int h hvl hs d a m k dx hty hk
    exact ⟨hv, hx, scan_int h hvl hle hs d a m k hty⟩
  · intro mode wide fn op widened start flags sr unit
    have ha : ReduceAccepts s.hart.ty k.toNat := floats_accept k.toNat hty hk
    have hwide : workType s.hart.ty = wide := workType_float hty
    have hop : op = opHere s k.toNat := (opHere_float hty k.toNat).symm
    have hel : ∀ e, widened e = widenedElem s.hart s.hart.ty a.toNat e := fun e => by
      simp only [widened, widenedElem, hwide, eq_comm]
    have hstart : start = startHere s a m := by
      funext e
      simp only [start, startHere, treeStart, hel]
    have hflags : flags = flagsHere s a m := by
      simp only [flags, flagsHere, startFlags, hel]
      rfl
    have hsr : sumsStochastic s k = sr := sumsStochastic_float hty k
    have hunit : identityOf k.toNat (workType s.hart.ty) = unit := identityOf_float hty k.toNat hk
    refine ⟨fun p hp hlt => ?_, ?_⟩
    · intro r
      have hr : r = treeHere s k.toNat a m := by
        simp only [r, hop, hstart, hflags, treeHere, log2Up_eq hp hlt]
      have hv := vred_completes h hvl hs ha d a m
      have hx := vredXd_completes h hvl hs ha a m dx
      rw [consumesHere_vred, hsr, setElems_first, hunit, hwide, ← hr] at hv
      rw [consumesHere_vredXd, hsr, hunit, ← hr] at hx
      exact ⟨hv, hx⟩
    · intro r back
      have hr : r = scanHere s k.toNat a m := by
        simp only [r, hop, hstart, hflags, scanHere]
      have hback : back = roundedHere s r.1 := by
        funext e
        simp only [back, roundedHere, hwide, eq_comm (a := wide)]
        split
        · rfl
        · rw [show wide = 13 from if_neg fun h14 => ‹¬ s.hart.ty = wide› (by rw [h14]; exact (if_pos h14).symm)]
      have hv := vscan_completes h hvl hs ha d a m
      rw [consumesHere_vscan, hsr, ← hr, ← hback] at hv
      exact hv

end Sys2Proof.Machine

namespace Sys2Proof.Machine

/-! ## VFORK and VJOIN (R63, R64, R203, R286, R290) -/

theorem find?_indices {p : Nat → Bool} {n k : Nat} (hk : k < n) (hp : p k = true) (hlt : ∀ m, m < k → p m = false) :
    (indices n).find? p = some k := by
  rw [indices, List.find?_range_eq_some]
  exact ⟨hp, List.mem_range.2 hk, fun m hm => by rw [hlt m hm]; rfl⟩

section
variable {s : State}

/-! ### Which hart and rank a fork takes -/

theorem freeHart_full {c : Nat} {g : Group} (h : ∀ n ∈ g.harts, (s.hartAt c n.toNat).run.running = true) :
    freeHart c g s = none := by
  refine List.find?_eq_none.2 fun n hn hf => ?_
  have hlt : n < 4 := List.mem_range.1 hn
  simp only [Bool.and_eq_true, Bool.not_eq_true', List.contains_iff_mem] at hf
  obtain ⟨hm, hr⟩ := hf
  have e := h _ hm
  rw [BitVec.toNat_ofNat, Nat.mod_eq_of_lt (by omega), hr] at e
  exact absurd e Bool.false_ne_true

theorem freeHart_least {c n : Nat} {g : Group} (hn : n < 4) (hm : BitVec.ofNat 3 n ∈ g.harts)
    (hf : (s.hartAt c n).run.running = false)
    (hlt : ∀ m, m < n → BitVec.ofNat 3 m ∈ g.harts → (s.hartAt c m).run.running = true) : freeHart c g s = some n := by
  refine find?_indices hn (by simp [hm, hf]) fun m hmn => ?_
  by_cases hg : BitVec.ofNat 3 m ∈ g.harts
  · simp [hlt m hmn hg]
  · simp [hg]

theorem freeRank_least {c r : Nat} {g : Group} (hr : r < 4)
    (hf : ∀ h ∈ g.harts, (s.hartAt c h.toNat).run.running = true → (s.hartAt c h.toNat).id.rank.toNat ≠ r)
    (hlt : ∀ q, q < r → ∃ h ∈ g.harts, (s.hartAt c h.toNat).run.running = true ∧ (s.hartAt c h.toNat).id.rank.toNat = q) :
    freeRank c g s = r := by
  rw [freeRank, find?_indices hr, Option.getD_some]
  · simpa using hf
  · intro q hq
    obtain ⟨h, hm, hrun, hrank⟩ := hlt q hq
    simpa using ⟨h, hm, hrun, hrank⟩

theorem OnlyHart.myGroup {u : State} (o : OnlyHart s.hart s u) : u.myGroup = s.myGroup := by
  unfold State.myGroup State.group?
  rw [o.hart, o.wharf]

theorem OnlyHart.hartAt_self {u : State} (o : OnlyHart s.hart s u) (c n : Nat) : u.hartAt c n = s.hartAt c n := by
  by_cases h : c ≠ s.here ∨ n ≠ s.me
  · exact o.others c n h
  · obtain ⟨hc, hn⟩ := not_or.1 h
    rw [not_not.1 hc, not_not.1 hn]
    exact o.hartAt

/-! ### VFORK -/

theorem prepared_valid {bt : BReg} (h : (s.hart.getB bt.toNat).v = true) : prepared bt s = .ok () s := by
  rw [prepared, h, check_true]

/-- The hart on which a fork starts its child, with the group: none without two lanes or a free hart. -/
def forkPlace (s : State) : Option (Group × Nat) :=
  if s.hart.vec.grant < 2 then none
  else match s.myGroup with
    | none => none
    | some g => (freeHart s.here g s).map fun n => (g, n)

/-- The child that a fork starts on hart `n`. -/
def forkedChild (d : XReg) (bt : BReg) (r n : Nat) (s : State) : Hart :=
  let child := childOf s.hart s.curHart bt.toNat d.toNat (s.hart.vec.grant / 2) r n
  { child with run := { child.run with claimed := (s.hartAt s.here n).run.claimed } }

/-- The parent after a fork. -/
def forkedParent (d : XReg) (r n : Nat) (h : Hart) (lanes : Nat) : Hart :=
  let h := h.keepLanes (h.vec.grant - lanes)
  ({ h with id := { h.id with kids := h.id.kids ++ [r * 16 + n] } }.setX d.toNat (word (r * 16 + n))).retire 4

/-- The state with the child of a fork, and no hole of either hart. -/
def withChild (d : XReg) (bt : BReg) (r n : Nat) (s : State) : State :=
  (dropEntries s.here s.me (dropEntries s.here n s)).setHartAt s.here n (forkedChild d bt r n s)

/-- The state after a fork with rank `r` on hart `n`. -/
def forked (d : XReg) (bt : BReg) (r n : Nat) (s : State) : State :=
  (withChild d bt r n s).modHart fun h => forkedParent d r n h (s.hart.vec.grant / 2)

/-- What a fork does behind its checks and its settle. -/
def forkFrom (d : XReg) (bt : BReg) (s : State) : State :=
  match forkPlace s with
  | none => writeX 4 d.toNat (BitVec.allOnes 64) s
  | some (g, n) => forked d bt (freeRank s.here g s) n s

theorem forkPlace_settled {u : State} (o : OnlyHart s.hart s u) : forkPlace u = forkPlace s := by
  have hf : ∀ g, freeHart u.here g u = freeHart s.here g s := fun g => by
    unfold freeHart
    simp only [o.hartAt_self, o.at_here.1]
  unfold forkPlace
  rw [o.hart, o.myGroup]
  simp only [hf]

theorem execVfork_settles (d : XReg) {bt : BReg} (h : Idle s) (ha : s.hart.rc.act = false) (hw : s.hart.ms.window = none)
    (hb : (s.hart.getB bt.toNat).v = true) :
    ∃ u, OnlyHart s.hart s u ∧ execVfork d bt s = .next (forkFrom d bt u) := by
  obtain ⟨u, hu, o⟩ := settleHere_idle h
  refine ⟨u, o, ?_⟩
  rw [execVfork, noFerry_user _ h.user, bind_ok, awaitRegs_settled (h.settled _ _), bind_ok, grantGate_idle h ha hw, bind_ok,
    prepared_valid hb, bind_ok, hu, bind_ok]
  have e : (match forkPlace u with
      | none => Res.ok () (writeX 4 d.toNat (BitVec.allOnes 64) u)
      | some (g, n) => .ok () (forked d bt (freeRank u.here g u) n u)) = .ok () (forkFrom d bt u) := by
    unfold forkFrom
    split <;> rfl
  exact congrArg finish e

theorem ofNat_zero_mod (w k : Nat) : BitVec.ofNat w ((0 : BitVec w).toNat % k) = 0 := by simp

/-- The lanes of the parent keep the bytes of their lanes. -/
theorem getV_keepLanes (h : Hart) (n i : Nat) : ((h.keepLanes n).getV i).toNat = (h.getV i).toNat % 2 ^ (256 * n) := by
  unfold Hart.keepLanes Hart.getV
  rw [lookupD_mapValues _ _ _ _ (ofNat_zero_mod _ _), BitVec.toNat_ofNat]
  exact Nat.mod_eq_of_lt ((Nat.mod_le _ _).trans_lt (lookupD h.vec.v i 0).isLt)

/-- What a child has from its parent and from admission (R63, R286). -/
structure StartsChild (h : Hart) (me : HartNo) (bt : BReg) (d : XReg) (lanes r : Nat) (c : Hart) : Prop where
  running : c.run.running = true
  pc : c.pc = (h.getB bt.toNat).addr.zeroExtend 48 <<< 1
  xd : c.getX d.toNat = 0
  x : ∀ i, i ≠ d.toNat → c.getX i = h.getX i
  k : c.k = h.k
  grant : c.vec.grant = lanes
  vl : c.vec.vl = 0
  vtype : c.vec.vtype = h.vec.vtype
  mspace : c.vec.mspace = h.vec.mspace
  v : ∀ i, c.getV i = 0
  fpctl : c.fp.ctl = h.fp.ctl
  fflags : c.fp.flags = 0
  sup : c.tr.sup = h.tr.sup
  tbase : c.tr.tbase = h.tr.tbase
  rank : c.id.rank = BitVec.ofNat 2 r
  parent : c.id.parent = some me
  group : c.id.group = h.id.group
  cycle : c.run.cycle = 0
  ptbase : c.ms.ptbase = h.ms.ptbase
  asid : c.ms.asid = h.ms.asid
  claim : c.tile.claim = none

theorem target_eq (t : TReg) : t.target = t.addr.zeroExtend 48 <<< 1 := by
  refine BitVec.eq_of_toNat_eq ?_
  have := t.addr.isLt
  rw [TReg.target, BitVec.toNat_ofNat, BitVec.toNat_shiftLeft, Nat.shiftLeft_eq, BitVec.toNat_setWidth]
  omega

theorem getX_setX_zero (h : Hart) (r : Nat) : (h.setX r 0).getX r = 0 := by
  by_cases hr : r = 0
  · rw [hr]; rfl
  · exact getX_setX_same h 0 hr

theorem childOf_starts (h : Hart) (me : HartNo) (bt : BReg) (d : XReg) (lanes r n : Nat) :
    StartsChild h me bt d lanes r (childOf h me bt.toNat d.toNat lanes r n) := by
  constructor
  case xd => exact getX_setX_zero _ _
  case x => exact fun i hi => getX_setX_ne _ _ hi
  case pc => exact (congrArg Hart.pc (setX_x_eq _ _ _)).trans (target_eq _)
  case v => exact fun i => congrArg (fun c => Hart.getV c i) (setX_x_eq _ _ _)
  all_goals
    unfold childOf Hart.setX
    split <;> rfl

/-- What the parent of a fork becomes. -/
structure KeepsFork (d : XReg) (r n lanes : Nat) (h p : Hart) : Prop where
  xd : p.getX d.toNat = if d = 0 then 0 else BitVec.ofNat 64 (16 * r + n)
  x : ∀ i, i ≠ d.toNat → p.getX i = h.getX i
  pc : p.pc = h.pc + 4
  grant : p.vec.grant = h.vec.grant - lanes
  kids : p.id.kids = h.id.kids ++ [16 * r + n]
  v : ∀ i, (p.getV i).toNat = (h.getV i).toNat % 2 ^ (256 * (h.vec.grant - lanes))

theorem forkedParent_keeps (d : XReg) (r n lanes : Nat) (h : Hart) : KeepsFork d r n lanes h (forkedParent d r n h lanes) := by
  have hid : r * 16 + n = 16 * r + n := by rw [Nat.mul_comm]
  unfold forkedParent
  rw [hid]
  constructor
  case xd =>
    rw [getX_retire]
    split
    · next h0 => rw [h0]; rfl
    · next h0 => exact getX_setX_same _ _ fun h => h0 (BitVec.eq_of_toNat_eq h)
  case x => exact fun i hi => getX_setX_ne _ _ hi
  case v => exact fun i => (congrArg (fun c => (Hart.getV c i).toNat) (setX_x_eq _ _ _)).trans (getV_keepLanes h _ i)
  all_goals
    unfold Hart.setX
    split <;> rfl

theorem forked_mem (d : XReg) (bt : BReg) (r n : Nat) : (forked d bt r n s).mem = s.mem := rfl

theorem forked_child (d : XReg) (bt : BReg) (r : Nat) {n : Nat} (hn : n ≠ s.me) :
    (forked d bt r n s).hartAt s.here n = forkedChild d bt r n s :=
  (hartAt_modHart_ne (withChild d bt r n s) _ (.inr hn)).trans (hartAt_setHartAt_same _ _ _ _)

theorem forked_parent (d : XReg) (bt : BReg) (r : Nat) {n : Nat} (hn : n ≠ s.me) :
    (forked d bt r n s).hart = forkedParent d r n s.hart (s.hart.vec.grant / 2) := by
  have e : (withChild d bt r n s).hart = s.hart := by
    refine (hartAt_setHartAt_ne _ _ (.inr hn.symm)).trans ?_
    rw [dropEntries_hartAt, dropEntries_hartAt]
    rfl
  rw [forked, hart_modHart, e]

/-! ### The end of a hart -/

theorem modGroup_core (g : Nat) (f : Group → Group) (c : Nat) : (s.modGroup g f).core c = s.core c := by
  unfold State.modGroup
  split <;> rfl

theorem modGroup_mem (g : Nat) (f : Group → Group) : (s.modGroup g f).mem = s.mem := by
  unfold State.modGroup
  split <;> rfl

theorem modGroup_current (g : Nat) (f : Group → Group) :
    (s.modGroup g f).curCore = s.curCore ∧ (s.modGroup g f).curHart = s.curHart := by
  unfold State.modGroup
  split <;> exact ⟨rfl, rfl⟩

/-- A hart without its tile claim. -/
def Hart.unclaimed (x : Hart) : Hart := { x with tile := { x.tile with claim := none } }

/-- The claim of a hart returns to its group, which is no part of a core. -/
theorem releaseClaim_eq (c h : Nat) (s : State) : ∃ t : State, releaseClaim c h s = t.modHartAt c h Hart.unclaimed ∧
    (∀ d, t.core d = s.core d) ∧ t.mem = s.mem ∧ t.curCore = s.curCore ∧ t.curHart = s.curHart := by
  unfold releaseClaim
  dsimp only
  split
  · exact ⟨_, rfl, modGroup_core _ _, modGroup_mem _ _, modGroup_current _ _⟩
  · exact ⟨s, rfl, fun _ => rfl, rfl, rfl, rfl⟩

/-- The end of a hart: it stops, its lanes and those parked for it return to the pool, and no other hart changes. -/
structure EndsHart (c h : Nat) (s t : State) : Prop where
  stopped : (t.hartAt c h).run.running = false
  others : ∀ i, i ≠ h → t.hartAt c i = s.hartAt c i
  pool : (t.core c).pool = (s.core c).pool + ((s.hartAt c h).vec.grant + ((s.hartAt c h).id.parked.map (·.2)).sum)
  mem : t.mem = s.mem
  curCore : t.curCore = s.curCore
  curHart : t.curHart = s.curHart

theorem endHart_ends (c h : Nat) (s : State) : EndsHart c h s (endHart c h s) := by
  obtain ⟨u, hu, hcore, hmem, hcc, hch⟩ := releaseClaim_eq c h s
  have hat : ∀ i, u.hartAt c i = s.hartAt c i := fun i => congrArg (fun k => Core.hart k i) (hcore c)
  unfold endHart
  rw [hu]
  refine ⟨?_, fun i hi => ?_, ?_, hmem, hcc, hch⟩
  · rw [hartAt_modCore, hartAt_modHartAt_same]
    exact fun _ => rfl
  · rw [hartAt_modCore, hartAt_modHartAt_ne _ _ (.inr hi), hartAt_modHartAt_ne _ _ (.inr hi), hat]
    exact fun _ => rfl
  · simp only [core_modCore_same, pool_modHartAt, hartAt_modHartAt_same, hat, hcore]
    rfl

/-! ### VJOIN of a child -/

/-- A parent for which the lanes of a child are parked. -/
def Hart.parks (x : Hart) (e : Nat × Nat) : Hart := { x with id := { x.id with parked := x.id.parked ++ [e] } }

/-- A hart without lanes. -/
def Hart.laneless (x : Hart) : Hart := { x with vec := { x.vec with grant := 0 } }

/-- The lanes of the child `h` of core `c` are parked for its parent, which runs on hart `p` of the core. -/
structure HasParent (c h p : Nat) (s : State) : Prop where
  parent : ∃ q : HartNo, (s.hartAt c h).id.parent = some q ∧ q.toNat = p
  other : p ≠ h
  running : (s.hartAt c p).run.running = true
  group : (s.hartAt c p).id.group = (s.hartAt c h).id.group
  child : (s.hartAt c h).id.known ∈ (s.hartAt c p).id.kids

theorem parkLanes_parks {c h p : Nat} (hp : HasParent c h p s) : parkLanes c h s =
    (s.modHartAt c p fun x => x.parks ((s.hartAt c h).id.known, (s.hartAt c h).vec.grant)).modHartAt c h Hart.laneless := by
  obtain ⟨⟨q, hq, rfl⟩, -, hr, hg, hk⟩ := hp
  unfold parkLanes
  simp only [hq, hr, hg, beq_self_eq_true, Bool.and_self, List.contains_iff_mem.2 hk, if_true]
  rfl

/-- A child with no lanes parked for it ends: its own are parked for its parent, and none reaches the pool. -/
theorem endHart_parks {c h p : Nat} (hp : HasParent c h p s) (hnone : (s.hartAt c h).id.parked = []) :
    let t := endHart c h (parkLanes c h s)
    (t.hartAt c h).run.running = false ∧ t.mem = s.mem ∧ (t.core c).pool = (s.core c).pool ∧
      t.curCore = s.curCore ∧ t.curHart = s.curHart ∧
      t.hartAt c p = (s.hartAt c p).parks ((s.hartAt c h).id.known, (s.hartAt c h).vec.grant) := by
  intro t
  have e := endHart_ends c h (parkLanes c h s)
  have hl := parkLanes_parks hp
  have hself : (parkLanes c h s).hartAt c h = (s.hartAt c h).laneless := by
    rw [hl, hartAt_modHartAt_same, hartAt_modHartAt_ne _ _ (.inr hp.other.symm)]
  refine ⟨e.stopped, e.mem.trans (hl ▸ rfl), ?_, e.curCore.trans (hl ▸ rfl), e.curHart.trans (hl ▸ rfl), ?_⟩
  · have hz : (s.hartAt c h).laneless.id.parked = [] := hnone
    rw [e.pool, hself, hz, hl, pool_modHartAt, pool_modHartAt]
    rfl
  · rw [e.others _ hp.other, hl, hartAt_modHartAt_ne _ _ (.inr hp.other), hartAt_modHartAt_same]

theorem execVjoin_idle (a : XReg) (h : Idle s) (ha : s.hart.rc.act = false) (hw : s.hart.ms.window = none) :
    execVjoin a s = finish (if a = 0 then endChild s else collectChild a s) := by
  rw [execVjoin, noFerry_user _ h.user, bind_ok, awaitRegs_settled (h.settled _ _), bind_ok, outsideBatch_idle ha, bind_ok,
    noWindow_none hw, bind_ok]

/-- The end of a child, behind its checks, its settle and its release. -/
theorem endChild_idle (h : Idle s) (hp : s.hart.id.parent.isSome = true) (hk : s.hart.id.kids = []) :
    ∃ w, OnlyHart s.hart.count s w ∧ endChild s = .ok () (endHart w.here w.me (parkLanes w.here w.me w)) := by
  obtain ⟨u, hu, o⟩ := settleHere_idle h
  obtain ⟨v, hv, o'⟩ := releaseHere_idle 7 (h.of_onlyHart o)
  rw [o.hart] at o'
  refine ⟨v.modHart Hart.count, (o.trans o').then Hart.count, ?_⟩
  unfold endChild
  dsimp only
  rw [hp, hk, List.isEmpty_nil, Bool.and_self, check_true, bind_ok, waitVector_empty 9 h.viq, bind_ok, hu, bind_ok, hv, bind_ok]

theorem hart_of_current {t : State} (hc : t.curCore = s.curCore) (hm : t.curHart = s.curHart) :
    t.hart = t.hartAt s.here s.me := by
  unfold State.hart State.here State.me
  rw [hc, hm]

theorem execVjoin_ends {p : HartNo} (h : Idle s) (ha : s.hart.rc.act = false) (hw : s.hart.ms.window = none)
    (hp : s.hart.id.parent = some p) (hk : s.hart.id.kids = []) (hpark : s.hart.id.parked = []) (hne : p.toNat ≠ s.me)
    (hr : (s.hartAt s.here p.toNat).run.running = true)
    (hg : (s.hartAt s.here p.toNat).id.group = s.hart.id.group)
    (hm : s.hart.id.known ∈ (s.hartAt s.here p.toNat).id.kids) :
    ∃ t, execVjoin 0 s = .next t ∧ t.hart.run.running = false ∧ t.mem = s.mem ∧
      (t.core s.here).pool = (s.core s.here).pool ∧ (t.hartAt s.here p.toNat).id.parked =
        (s.hartAt s.here p.toNat).id.parked ++ [(s.hart.id.known, s.hart.vec.grant)] := by
  obtain ⟨w, ow, hx⟩ := endChild_idle h (by rw [hp]; rfl) hk
  obtain ⟨hc, hme⟩ := ow.at_here
  rw [hc, hme] at hx
  have hmine : w.hartAt s.here s.me = s.hart.count := ow.hartAt
  have hpar : w.hartAt s.here p.toNat = s.hartAt s.here p.toNat := ow.others _ _ (.inr hne)
  have hparent : HasParent s.here s.me p.toNat w :=
    ⟨⟨p, by rw [hmine]; exact hp, rfl⟩, hne, hpar ▸ hr, by rw [hpar, hmine]; exact hg, by rw [hpar, hmine]; exact hm⟩
  obtain ⟨hstop, hmem, hpool, hcc, hch, hat⟩ := endHart_parks hparent (by rw [hmine]; exact hpark)
  refine ⟨_, by rw [execVjoin_idle 0 h ha hw, if_pos rfl, hx, finish_ok], ?_, hmem.trans ow.mem, hpool.trans (ow.pool _), ?_⟩
  · rw [hart_of_current (hcc.trans ow.here) (hch.trans ow.me)]
    exact hstop
  · rw [hat, hpar, hmine]
    rfl

/-! ### VJOIN of a parent -/

/-- A parent that has collected a child. -/
def Hart.collects (h : Hart) (k lanes : Nat) : Hart :=
  { h with
    vec := { h.vec with grant := h.vec.grant + lanes }
    id := { h.id with kids := h.id.kids.erase k, parked := h.id.parked.erase (k, lanes) } }.retire 4

theorem collectChild_idle {a : XReg} (h : Idle s) (hv : (s.hart.getX a.toNat).toNat ∈ s.hart.id.kids) :
    ∃ u, OnlyHart s.hart s u ∧ collectChild a s =
      match s.hart.id.parked.find? fun e => e.1 == (s.hart.getX a.toNat).toNat with
      | none => .wait 9 u
      | some (k, lanes) => .ok () (dropConst (u.modHart fun h => h.collects k lanes)) := by
  obtain ⟨u, hu, o⟩ := settleHere_idle h
  have hk : (s.hart.id.kids.any fun k => word k == s.hart.getX a.toNat) = true :=
    List.any_eq_true.2 ⟨_, hv, by simp [word]⟩
  refine ⟨u, o, ?_⟩
  unfold collectChild
  dsimp only
  rw [hk, check_true, bind_ok, waitVector_empty 9 h.viq, bind_ok, hu, bind_ok, o.hart]
  rfl

theorem collectChild_refused {a : XReg} (h : ∀ k ∈ s.hart.id.kids, BitVec.ofNat 64 k ≠ s.hart.getX a.toNat) :
    collectChild a s = raise (barrierExc (s.hart.getX a.toNat)) s := by
  have hk : (s.hart.id.kids.any fun k => word k == s.hart.getX a.toNat) = false :=
    List.any_eq_false.2 fun k hm => by simpa [word] using h k hm
  unfold collectChild
  dsimp only
  rw [hk, check_false]
  rfl

theorem execVjoin_collects {a : XReg} (h : Idle s) (ha : s.hart.rc.act = false) (hw : s.hart.ms.window = none) (h0 : a ≠ 0)
    (hv : (s.hart.getX a.toNat).toNat ∈ s.hart.id.kids) {k lanes : Nat}
    (hp : s.hart.id.parked.find? (fun e => e.1 == (s.hart.getX a.toNat).toNat) = some (k, lanes)) :
    k = (s.hart.getX a.toNat).toNat ∧ ∃ t, execVjoin a s = .next t ∧ t.mem = s.mem ∧ (t.core s.here).ccache = [] ∧
      t.hart = s.hart.collects k lanes := by
  obtain ⟨u, o, hx⟩ := collectChild_idle h hv
  rw [hp] at hx
  have ho := o.then fun h => h.collects k lanes
  have hk := List.find?_some hp
  refine ⟨beq_iff_eq.1 hk, dropConst (u.modHart fun h => h.collects k lanes), ?_, ho.mem, ?_, ?_⟩
  · rw [execVjoin_idle a h ha hw, if_neg h0, hx, finish_ok]
  · rw [← ho.at_here.1, dropConst, core_modCore_same]
  · rw [hart_dropConst, ho.hart]

theorem execVjoin_waits {a : XReg} (h : Idle s) (ha : s.hart.rc.act = false) (hw : s.hart.ms.window = none) (h0 : a ≠ 0)
    (hv : (s.hart.getX a.toNat).toNat ∈ s.hart.id.kids)
    (hp : ∀ e ∈ s.hart.id.parked, e.1 ≠ (s.hart.getX a.toNat).toNat) :
    ∃ u, OnlyHart s.hart s u ∧ execVjoin a s = .next (stall 9 u) := by
  obtain ⟨u, o, hx⟩ := collectChild_idle h hv
  have hnone : s.hart.id.parked.find? (fun e => e.1 == (s.hart.getX a.toNat).toNat) = none :=
    List.find?_eq_none.2 fun e he => by simpa using hp e he
  rw [hnone] at hx
  exact ⟨u, o, by rw [execVjoin_idle a h ha hw, if_neg h0, hx, finish_wait]⟩

end

section
variable {s : State} {d : XReg} {bt : BReg} (h : Idle s) (ha : s.hart.rc.act = false) (hw : s.hart.ms.window = none)
  (hb : (s.hart.getB bt.toNat).v = true)
include h ha hw hb

theorem execVfork_refused (hp : forkPlace s = none) : ∃ u, OnlyHart s.hart s u ∧
    execVfork d bt s = .next (u.modHart fun x => (x.setX d.toNat (BitVec.allOnes 64)).retire 4) := by
  obtain ⟨u, o, hx⟩ := execVfork_settles d h ha hw hb
  rw [forkFrom, forkPlace_settled o, hp] at hx
  exact ⟨u, o, hx⟩

/-- A fork starts its child on the place that it finds, with the lowest free rank. -/
theorem execVfork_forks {g : Group} {n r : Nat} (hn : n ≠ s.me) (hp : forkPlace s = some (g, n)) (hr : freeRank s.here g s = r) :
    ∃ t c, execVfork d bt s = .next t ∧ t.mem = s.mem ∧
      t.hartAt s.here n = { c with run := { c.run with claimed := (s.hartAt s.here n).run.claimed } } ∧
      StartsChild s.hart s.curHart bt d (s.hart.vec.grant / 2) r c ∧ KeepsFork d r n (s.hart.vec.grant / 2) s.hart t.hart := by
  obtain ⟨u, o, hx⟩ := execVfork_settles d h ha hw hb
  obtain ⟨hc, hm⟩ := o.at_here
  have hrank : freeRank u.here g u = r := by
    rw [← hr]
    unfold freeRank
    simp only [o.hartAt_self, hc]
  rw [forkFrom, forkPlace_settled o, hp] at hx
  simp only [hrank] at hx
  have hn' : n ≠ u.me := hm ▸ hn
  have hchild := forked_child (s := u) d bt r hn'
  have hparent := forked_parent (s := u) d bt r hn'
  rw [forkedChild, o.hart, o.me, hc, o.hartAt_self] at hchild
  rw [o.hart] at hparent
  exact ⟨_, _, hx, (forked_mem d bt r n).trans o.mem, hchild, childOf_starts _ _ _ _ _ _ _, hparent ▸ forkedParent_keeps ..⟩

end

/-- Settles O31. A fork starts its child on the lowest free hart with the lowest free rank (`freeHart_least`,
`freeRank_least`, `execVfork_forks`); the lanes of an ending child stay out of the pool (`endHart_parks`), and its parent
collects them once they are parked (`execVjoin_collects`, `execVjoin_waits`). -/
theorem forkJoinResults : Obligations.ForkJoinResults := by
  unfold Obligations.ForkJoinResults
  refine ⟨fun s d bt h ha hw hb => ⟨fun hno => ?refused, ?forks⟩, fun s a h ha hw => ⟨?ends, ?collects, ?waits, ?barrier⟩⟩
  case refused =>
    refine execVfork_refused h ha hw hb ?_
    unfold forkPlace
    split
    · rfl
    · next h2 =>
      rcases hno with hlt | hg | ⟨g, hg, hall⟩
      · exact absurd hlt h2
      · rw [hg]
      · rw [hg]
        dsimp only
        rw [freeHart_full hall]
        rfl
  case forks =>
    intro g n r h2 hg hn4 hn hr4 hm hf hlow hrank hranks
    have hp : forkPlace s = some (g, n) := by
      rw [forkPlace, if_neg (by omega), hg]
      dsimp only
      rw [freeHart_least hn4 hm hf hlow]
      rfl
    obtain ⟨t, c, hx, hmem, hc, k, p⟩ := execVfork_forks (d := d) h ha hw hb hn hp (freeRank_least hr4 hrank hranks)
    refine ⟨t, hx, hmem, ?_⟩
    rw [hc]
    exact ⟨k.running, k.pc, k.xd, k.x, k.k, k.grant, k.vl, k.vtype, k.mspace, k.v, k.fpctl, k.fflags, k.sup, k.tbase, k.rank,
      k.parent, k.group, k.cycle, rfl, k.ptbase, k.asid, k.claim, p.xd, p.x, p.pc, p.grant, p.kids, p.v⟩
  case ends =>
    intro p h0 hp hk hpark hne hr hg hm
    subst h0
    exact execVjoin_ends h ha hw hp hk hpark hne hr hg hm
  case collects =>
    intro k lanes h0 hv hp
    obtain ⟨hk, t, hx, hmem, hcc, ht⟩ := execVjoin_collects h ha hw h0 hv hp
    exact ⟨t, hx, hmem, hcc, hk ▸ ht⟩
  case waits => exact fun h0 hv hp => execVjoin_waits h ha hw h0 hv hp
  case barrier =>
    intro h0 hno hc
    rw [exec_vjoin, execVjoin_idle a h ha hw, if_neg h0, collectChild_refused hno]
    exact raise_taken hc _

end Sys2Proof.Machine

namespace Sys2Proof.Machine

/-! ## The turn of a VEXIT with an AMO behind its loop (R67, R80, R256) -/

/-- An entry with the captures of a hart after reset. -/
def resetEntry (i : Instr) : VEntry :=
  { instr := i, pc := 0, xs := [0, 0], vl := 0, vtype := 0, mspace := 0, fpctl := 0, seed := 0, ric := 0, tgrant := 0,
    ptbase := 0, asid := 0, sup := true, det := false, start := 0, seq := none, binds := [], strips := [], popped := false,
    flags := 0, old := none, pins := [], ahead := [], limit := none }

/-- A loop whose body stores and then may end it, at the VEXIT. -/
def exitLoop : Loop := ⟨[resetEntry (.vst 1 1 0 0), resetEntry (.vexit 1 0)], 1, false⟩

/-- An AMO of the front, which adds 1 to the eight bytes at a place of the arena and gives x1 the old value. It goes behind
the store of the loop, and so waits for the loop's entry of the VIQ (R80). -/
def waitingAmo : Pending :=
  { cells := cellsOf (lsPlace 0 0) 8 1, after := 1, amo := some { op := 0, d := 1, b := 1, c := 0, acquires := false, pc := 8 } }

/-- A hart on the last trip of the loop, with the AMO behind it. -/
def hartBeforeAmo : Hart :=
  { Hart.reset with
    vec := { Hart.reset.vec with viq := [resetEntry (.loop 1 1)] }
    lp := { Hart.reset.lp with lcnt := 1, loop := some exitLoop }
    run := { Hart.reset.run with running := true }
    ms := { Hart.reset.ms with stq := [waitingAmo] } }

/-- The state of that hart, where the place of the AMO holds 7. -/
def stateBeforeAmo : State :=
  { State.reset with
    cores := [(0, { Core.reset with harts := [(0, hartBeforeAmo)] })]
    mem := [(lsPlace 0 0, 7)] }

/-- The value of x1 of hart h0 of core 0 in the next state. -/
def x1After (o : Out) : Word :=
  match o with
  | .next t => (t.hartAt 0 0).getX 1
  | _ => 0

/-- The turn of the VEXIT ends the loop, and the AMO commits in it (R80). -/
theorem exitTurn_commitsAmo : x1After (stepVector 0 0 stateBeforeAmo) = 7 := by decide +kernel

/-- Refutes O32: where the turn of a VEXIT ends its loop, an AMO that waits for the loop commits in the same turn, and its x[d]
takes the old value (`exitTurn_commitsAmo`), so that the x registers are not those before the turn. -/
theorem not_loopResults : ¬ Obligations.LoopResults := by
  unfold Obligations.LoopResults
  intro h
  obtain ⟨-, turns⟩ := h
  obtain ⟨-, body⟩ := turns stateBeforeAmo 0 0 1 1 (resetEntry (.loop 1 1)) [] exitLoop rfl rfl rfl rfl
  obtain ⟨-, other⟩ := body (resetEntry (.vexit 1 0)) (by decide) rfl
  obtain ⟨exits, -⟩ := other rfl rfl rfl rfl rfl
  obtain ⟨t, ht, -, -, hx⟩ := exits 1 0 rfl
  have hafter := exitTurn_commitsAmo
  rw [ht] at hafter
  have hbefore : (t.hartAt 0 0).getX 1 = 0 := by
    rw [Hart.getX, hx]
    rfl
  exact absurd (hbefore.symm.trans hafter) (by decide)

end Sys2Proof.Machine

namespace Sys2Proof.Machine

/-! ## Permutes, slides, moves, VREL and PRES (R77, R120, R121, R129, R282, R288, R295, R296, R298, R301, R304) -/

/-! ### A vector instruction that touches registers only -/

/-- The front dispatches an instruction of 4 bytes, which is no LOOP, no MMA.c and no access to memory. -/
structure AtOnce (i : Instr) : Prop where
  registerOnly : ∀ s, RegisterOnly s i
  length : i.length = 4
  exec : ∀ s, exec i s = issueVector i s

section
variable {s : State} {i : Instr}

/-- An instruction that changes the registers of its hart by `g`, with flags `f`. -/
theorem AtOnce.completes (hi : AtOnce i) (h : VectorReady s) {g : Hart → Hart} (hg : Commutes g)
    (hq : (g s.hart).ms = s.hart.ms) {f : Nat}
    (he : ∃ u, vexec s.here s.me (entryOf s i) (dispatchedState s i) = .ok (.done f) u ∧
      OnlyHart (g (behind s i [entryOf s i])) (dispatchedState s i) u) :
    Completes i (g s.hart) 4 f (consumesHere s i) s := by
  obtain ⟨u, hv, hu⟩ := he
  have hd := issueVector_done h (hi.registerOnly s) hg (hq ▸ h.stq) hv hu
  rw [hi.length, ← hi.exec] at hd
  exact hd

end

theorem atOnce_of_plain {i : Instr} (h : Plain i) : AtOnce i := ⟨h.registerOnly, h.length, h.exec⟩

/-! ### Results that are all values, with the scales of their blocks -/

theorem writeScales_withScales (c h r ty : Nat) (l : List (Nat × Nat)) (s : State) :
    writeScales c h r ty l s = if l = [] then s else s.modHartAt c h fun x => x.withScales r ty l := by
  cases l with
  | nil => rfl
  | cons b l =>
    rw [writeScales, if_neg (by simp), if_neg (by simp)]
    refine congrArg (s.modHartAt c h) (funext fun x => ?_)
    rw [Hart.withScales, if_neg (by simp)]
    rfl

theorem withScales_nil (x : Hart) (r ty : Nat) : x.withScales r ty [] = x := if_pos rfl

theorem withScales_entries (x : Hart) (r ty : Nat) (l : List (Nat × Nat)) : (x.withScales r ty l).allEntries = x.allEntries := by
  unfold Hart.withScales
  split <;> rfl

theorem withScales_ms (x : Hart) (r ty : Nat) (l : List (Nat × Nat)) : (x.withScales r ty l).ms = x.ms := by
  unfold Hart.withScales
  split <;> rfl

/-- A register with the scales of some blocks and the values of some elements. -/
def writeBlocks (r n ty : Nat) (scales l : List (Nat × Nat)) (x : Hart) : Hart := (x.withScales r ty scales).setElems r n l

theorem commutes_writeBlocks (r n ty : Nat) (scales l : List (Nat × Nat)) : Commutes (writeBlocks r n ty scales l) := by
  intro h pc fp run viq
  have e : (h.front pc fp run viq).withScales r ty scales = (h.withScales r ty scales).front pc fp run viq := by
    unfold Hart.withScales
    split <;> rfl
  rw [writeBlocks, e, setElems_front]
  rfl

theorem writeBlocks_ms (r n ty : Nat) (scales l : List (Nat × Nat)) (x : Hart) : (writeBlocks r n ty scales l x).ms = x.ms :=
  (setElems_ms _ _ _ _).trans (withScales_ms _ _ _ _)

theorem writeBlocks_entries (r n ty : Nat) (scales l : List (Nat × Nat)) (x : Hart) :
    (writeBlocks r n ty scales l x).allEntries = x.allEntries :=
  (setElems_entries _ _ _ _).trans (withScales_entries _ _ _ _)

/-- Elements that all take values, with their flags, and the scales of some blocks reach the destination. -/
theorem applyRow_blocks {s : State} {c h : Nat} (he : (s.core c).land.entries = []) (hx : NoOldRow (s.hartAt c h))
    (v : VEntry) (hl : v.limit = none) (r : VReg) (n sty : Nat) (l : List (Nat × Nat × Nat)) (scales : List (Nat × Nat)) :
    applyRow c h v r n (vals l) sty scales s = .ok (.done (l.foldl (fun f e => f ||| e.2.2) v.flags))
      (s.modHartAt c h (writeBlocks r.toNat n sty scales (writesOf l))) := by
  have hc : cutAt none (entriesLeft (s.core c) h) (vals l) = (vals l, []) := by
    refine cutAt_noHoles _ _ fun x hx => ?_
    obtain ⟨y, -, rfl⟩ := List.mem_map.mp hx
    rfl
  have hb : ∀ l : List Elem, l.filter (fun e => !beyond none e.elem) = l := fun l => by simp [beyond]
  have hs : ∀ l : List (Nat × Nat), l.filter (fun b => !beyond none (16 * b.1)) = l := fun l => by simp [beyond]
  have hw : ∀ f : Hart → Hart, (writeScales c h r.toNat sty scales s).modHartAt c h f =
      s.modHartAt c h fun x => f (x.withScales r.toNat sty scales) := by
    intro f
    rw [writeScales_withScales]
    split
    next hn => simp only [hn, withScales_nil]
    next => rw [modHartAt_modHartAt]
  unfold applyRow
  simp only [holesOf_empty he, List.filter_nil, List.filterMap_nil, List.isEmpty_nil, if_true, hl, hc, List.head?_nil,
    Option.map_none, hb, hs, List.map_nil, Bool.not_true, Bool.and_false, Bool.false_and, Bool.false_eq_true, if_false]
  rw [foldl_vals _ (fun _ _ _ _ => rfl), filterMap_vals _ (fun _ _ _ => rfl), repair_empty he]
  simp only [leaveRow, List.isEmpty_nil, if_true, settlePoison_empty he, hw]
  rw [followRow_none]
  · refine congrArg₂ (fun f t => Res.ok (VOut.done f) t) ?_ rfl
    simp [vals, List.foldl_map]
  · rw [hartAt_modHartAt_same]
    intro w hw
    exact hx w (writeBlocks_entries _ _ _ _ _ _ ▸ hw)

/-! ### Permutes of a hart with nothing in flight -/

/-- The permutes, slides and moves. -/
def permuteRow : Instr → Bool
  | .vgath _ _ _ _ | .vcomp _ _ _ | .vxpnd _ _ _ | .vslideupZero _ _ _ _ | .vslideupOne _ _ _ _ | .vslideupKeep _ _ _ _
  | .vslidednZero _ _ _ _ | .vslidednOne _ _ _ _ | .vslidednKeep _ _ _ _ | .vmvx _ _ _ | .vmvs _ _ _ | .vsplat _ _ _
  | .vrand _ _ => true
  | _ => false

theorem atOnce_of_permuteRow {i : Instr} (h : permuteRow i = true) : AtOnce i := by
  unfold permuteRow at h
  split at h
  case h_14 => exact absurd h Bool.false_ne_true
  all_goals exact ⟨fun _ => ⟨nofun, fun _ => rfl, rfl, rfl⟩, rfl, fun _ => rfl⟩

section
variable {s : State} {i : Instr}

theorem takesElements_of_permuteRow (hi : permuteRow i = true) (hvl : s.hart.VlFits) : TakesElements s (entryOf s i) := by
  unfold permuteRow at hi
  split at hi
  case h_14 => exact absurd hi Bool.false_ne_true
  all_goals exact ⟨vl_fits hvl, rfl, rfl, rfl, rfl⟩

theorem TakesElements.scaled {v : VEntry} (h : TakesElements s v) : v.scaled = s.hart.vec.vtype.getLsbD 4 :=
  congrArg (fun w => w.getLsbD 4) h.vtype

/-- Values, none of which raises a flag. -/
theorem vals_writes (l : List (Nat × Nat)) : (l.map fun p => Elem.value p.1 p.2) = vals (l.map fun p => (p.1, p.2, 0)) := by
  rw [vals, List.map_map]
  rfl

/-- An instruction whose elements all take values that raise no flag; there are none where VL is 0. -/
theorem completes_of_writes (hi : permuteRow i = true) (h : VectorReady s) {d : VReg} {n sty : Nat}
    {l scales : List (Nat × Nat)} (h0 : (entryOf s i).vl = 0 → l = [] ∧ scales = [])
    (hx : vexec s.here s.me (entryOf s i) (dispatchedState s i) = applyResults s.here s.me (entryOf s i) d n
      (l.map fun p => Elem.value p.1 p.2) sty scales (dispatchedState s i)) :
    Completes i ((s.hart.withScales d.toNat sty scales).setElems d.toNat n l) 4 0 (consumesHere s i) s := by
  have hf := captureFor_fresh s i
  refine (atOnce_of_permuteRow hi).completes h (commutes_writeBlocks d.toNat n sty scales l) (writeBlocks_ms ..) ?_
  rw [hx, vals_writes]
  by_cases hv : (entryOf s i).vl = 0
  · obtain ⟨rfl, rfl⟩ := h0 hv
    have hfl : (entryOf s i).flags = 0 := hf.flags
    refine ⟨dispatchedState s i, ?_, ?_⟩
    · rw [applyResults, if_pos hv, hfl]
    · have e := OnlyHart.refl (dispatchedState s i)
      rw [dispatched_hart] at e
      exact e
  · refine ⟨(dispatchedState s i).modHart (writeBlocks d.toNat n sty scales l), ?_, ?_⟩
    · rw [applyResults, if_neg hv,
        applyRow_blocks (c := s.here) (h := s.me) (entries_dispatched h i) (noOldRow_dispatched h i) (entryOf s i) hf.limit,
        show (entryOf s i).flags = 0 from hf.flags]
      simp only [List.foldl_map, Nat.or_zero, List.foldl_fixed, writesOf, List.map_map]
      exact congrArg (fun l => Res.ok (VOut.done 0) ((dispatchedState s i).modHart (writeBlocks d.toNat n sty scales l)))
        (List.map_id' l)
    · have e := OnlyHart.modHart (dispatchedState s i) (writeBlocks d.toNat n sty scales l)
      rw [dispatched_hart] at e
      exact e

theorem completes_of_values (hi : permuteRow i = true) (h : VectorReady s) {d : VReg} {n sty : Nat} {l : List (Nat × Nat)}
    (h0 : (entryOf s i).vl = 0 → l = [])
    (hx : vexec s.here s.me (entryOf s i) (dispatchedState s i) = applyResults s.here s.me (entryOf s i) d n
      (l.map fun p => Elem.value p.1 p.2) sty [] (dispatchedState s i)) :
    Completes i (s.hart.setElems d.toNat n l) 4 0 (consumesHere s i) s := by
  have e := completes_of_writes hi h (fun hv => ⟨h0 hv, rfl⟩) hx
  rw [withScales_nil] at e
  exact e

/-! ### What the entry of a permute reads -/

theorem active_nil {x : Hart} {m : MReg} (h : x.vec.vl = 0) : x.active m = [] := by
  simp [Hart.active, activeElems, positions, h]

/-- The first active element, where it is element 0. -/
theorem active_first (x : Hart) (m : MReg) : (x.active m).filter (fun e => e == 0) =
    if 0 < x.vec.vl ∧ maskBit (x.getM m.toNat) 0 = true then [0] else [] := by
  have hp : (fun e => e == 0 && maskBit (x.getM m.toNat) e) = fun e => maskBit (x.getM m.toNat) 0 && e == 0 := by
    funext e
    by_cases he : e = 0
    · rw [he, Bool.and_comm]
    · rw [beq_eq_false_iff_ne.2 he, Bool.false_and, Bool.and_false]
  rw [Hart.active, activeElems, positions, List.filter_filter, hp]
  cases hb : maskBit (x.getM m.toNat) 0
  · simp
  · cases x.vec.vl with
    | zero => rfl
    | succ n => simp [List.range_succ_eq_map, List.filter_map, Function.comp_def]

theorem copyElem_empty {c : Nat} {t : State} (he : (t.core c).land.entries = []) (h : Nat) (v : VEntry) (ty dst e src se : Nat) :
    copyElem c h v t ty dst e src se = .value e (elemOf ((t.hartAt c h).getV src) (typeBits ty) se) := by
  rw [copyElem, linksTo_empty he]

theorem TakesElements.active {v : VEntry} (ht : TakesElements s v) (j : Instr) (viq : List VEntry) (m : MReg) :
    activeElems (behind s j viq) m.toNat v.vl = s.hart.active m := by
  rw [active_behind, ht.vl]
  rfl

theorem TakesElements.remaining {v : VEntry} (ht : TakesElements s v) (h0 : v.start = 0) (j : Instr) (viq : List VEntry)
    (m : MReg) : v.remaining (behind s j viq) m.toNat = s.hart.active m := by
  rw [VEntry.remaining, ht.active, h0]
  exact List.filter_eq_self.2 fun e _ => decide_eq_true e.zero_le

theorem TakesElements.unscaled {v : VEntry} (ht : TakesElements s v) (hs : s.hart.vec.vtype.getLsbD 4 = false)
    (hty : s.hart.ty ≠ 10) : v.unscaled = true := by
  rw [VEntry.unscaled, ht.scaled, hs, ht.ty]
  exact bne_iff_ne.2 hty

theorem entry_start (s : State) (i : Instr) : (entryOf s i).start = 0 := (captureFor_fresh s i).start

end

section
variable {s : State} (h : VectorReady s) (hvl : s.hart.VlFits) (hs : s.hart.vec.vtype.getLsbD 4 = false) (hty : s.hart.ty ≠ 10)
  (d a b : VReg) (x : XReg) (m : MReg)
include h hvl hs hty

theorem vgath_completes : Completes (.vgath d a b m) (s.hart.setElems d.toNat (typeBits s.hart.ty) ((s.hart.active m).map fun e =>
    (e, if elemOf (s.hart.getV b.toNat) (typeBits s.hart.ty) e < s.hart.vec.vl then
      elemOf (s.hart.getV a.toNat) (typeBits s.hart.ty) (elemOf (s.hart.getV b.toNat) (typeBits s.hart.ty) e) else 0)))
    4 0 false s := by
  let i := Instr.vgath d a b m
  have ht : TakesElements s (entryOf s i) := takesElements_of_permuteRow rfl hvl
  refine completes_of_values (i := i) (sty := s.hart.ty) rfl h (fun hv => ?_) ?_
  · rw [active_nil (ht.vl ▸ hv), List.map_nil]
  · show gather s.here s.me (entryOf s i) d a b m (dispatchedState s i) = _
    unfold gather
    rw [ht.unscaled hs hty]
    simp only [hart_dispatched, ht.remaining (entry_start s i), linksTo_empty (entries_dispatched h i),
      copyElem_empty (entries_dispatched h i), getV_behind, ht.ty, ht.vl, List.map_map, Bool.not_true, Bool.false_eq_true, if_false]
    congr 1
    refine List.map_congr_left fun e _ => ?_
    by_cases hlt : elemOf (s.hart.getV b.toNat) (typeBits s.hart.ty) e < s.hart.vec.vl
    · rw [if_neg (by omega), Function.comp_apply, if_pos hlt]
    · rw [if_pos (by omega), Function.comp_apply, if_neg hlt]

theorem vcomp_completes : Completes (.vcomp d a m) (s.hart.setElems d.toNat (typeBits s.hart.ty)
    ((s.hart.active m).zipIdx.map fun e => (e.2, elemOf (s.hart.getV a.toNat) (typeBits s.hart.ty) e.1))) 4 0 false s := by
  let i := Instr.vcomp d a m
  have ht : TakesElements s (entryOf s i) := takesElements_of_permuteRow rfl hvl
  refine completes_of_values (i := i) (sty := s.hart.ty) rfl h (fun hv => ?_) ?_
  · rw [active_nil (ht.vl ▸ hv)]
    rfl
  · show compress s.here s.me (entryOf s i) d a m (dispatchedState s i) = _
    unfold compress applyCopies
    rw [ht.unscaled hs hty]
    simp only [hart_dispatched, ht.active, entry_start, Nat.zero_le, decide_true, List.filter_true,
      copyElem_empty (entries_dispatched h i), getV_behind, ht.ty, List.map_map, Bool.not_true, Bool.false_eq_true, if_false]
    rfl

theorem vxpnd_completes : Completes (.vxpnd d a m) (s.hart.setElems d.toNat (typeBits s.hart.ty)
    ((s.hart.active m).zipIdx.map fun e => (e.1, elemOf (s.hart.getV a.toNat) (typeBits s.hart.ty) e.2))) 4 0 false s := by
  let i := Instr.vxpnd d a m
  have ht : TakesElements s (entryOf s i) := takesElements_of_permuteRow rfl hvl
  refine completes_of_values (i := i) (sty := s.hart.ty) rfl h (fun hv => ?_) ?_
  · rw [active_nil (ht.vl ▸ hv)]
    rfl
  · show expand s.here s.me (entryOf s i) d a m (dispatchedState s i) = _
    unfold expand applyCopies
    rw [ht.unscaled hs hty]
    simp only [hart_dispatched, ht.active, entry_start, Nat.zero_le, decide_true, List.filter_true,
      copyElem_empty (entries_dispatched h i), getV_behind, ht.ty, List.map_map, Bool.not_true, Bool.false_eq_true, if_false]
    rfl

/-- Elements that take the low bits of a word, each its own. -/
theorem completes_of_words {i : Instr} (hi : permuteRow i = true) {d : VReg} {w : Nat → Nat} {es : List Nat}
    (h0 : s.hart.vec.vl = 0 → es = [])
    (hx : (entryOf s i).unscaled = true → vexec s.here s.me (entryOf s i) (dispatchedState s i) =
      applyResults s.here s.me (entryOf s i) d (typeBits (entryOf s i).ty)
        (es.map fun e => Elem.value e (w e % 2 ^ typeBits (entryOf s i).ty)) (entryOf s i).ty [] (dispatchedState s i)) :
    Completes i (s.hart.setElems d.toNat (typeBits s.hart.ty) (es.map fun e => (e, w e % 2 ^ typeBits s.hart.ty))) 4 0
      (consumesHere s i) s := by
  have ht : TakesElements s (entryOf s i) := takesElements_of_permuteRow hi hvl
  refine completes_of_values (sty := s.hart.ty) hi h (fun hv => ?_) ?_
  · rw [h0 (ht.vl ▸ hv), List.map_nil]
  · rw [hx (ht.unscaled hs hty), ht.ty, List.map_map]
    rfl

theorem vsplat_completes : Completes (.vsplat d x m) (s.hart.setElems d.toNat (typeBits s.hart.ty)
    ((s.hart.active m).map fun e => (e, (s.hart.getX x.toNat).toNat % 2 ^ typeBits s.hart.ty))) 4 0 false s := by
  let i := Instr.vsplat d x m
  have ht : TakesElements s (entryOf s i) := takesElements_of_permuteRow rfl hvl
  refine completes_of_words (i := i) h hvl hs hty rfl active_nil fun hu => ?_
  show splat s.here s.me (entryOf s i) true d m (dispatchedState s i) = _
  unfold splat
  simp only [hu, hart_dispatched, ht.remaining (entry_start s i), Bool.true_or, List.filter_true, Bool.not_true,
    Bool.false_eq_true, if_false]
  rfl

theorem vmvs_completes : Completes (.vmvs d x m) (s.hart.setElems d.toNat (typeBits s.hart.ty)
    (if 0 < s.hart.vec.vl ∧ maskBit (s.hart.getM m.toNat) 0 = true then
      [(0, (s.hart.getX x.toNat).toNat % 2 ^ typeBits s.hart.ty)] else [])) 4 0 false s := by
  let i := Instr.vmvs d x m
  have ht : TakesElements s (entryOf s i) := takesElements_of_permuteRow rfl hvl
  have e := completes_of_words (i := i) (d := d) (w := fun _ => (s.hart.getX x.toNat).toNat)
    (es := (s.hart.active m).filter fun e => e == 0) h hvl hs hty rfl (fun hv => by rw [active_nil hv]; rfl) fun hu => by
      show splat s.here s.me (entryOf s i) false d m (dispatchedState s i) = _
      unfold splat
      simp only [hu, hart_dispatched, ht.remaining (entry_start s i), Bool.false_or, Bool.not_true, Bool.false_eq_true, if_false]
      rfl
  rw [active_first] at e
  split at e
  next hc => rw [if_pos hc]; exact e
  next hc => rw [if_neg hc]; exact e

theorem vrand_completes : Completes (.vrand d m) (s.hart.setElems d.toNat (typeBits s.hart.ty)
    ((s.hart.active m).map fun e => (e, (randomZ s.hart.fp.seed s.hart.fp.ric e).toNat % 2 ^ typeBits s.hart.ty))) 4 0 true s := by
  let i := Instr.vrand d m
  have ht : TakesElements s (entryOf s i) := takesElements_of_permuteRow rfl hvl
  refine completes_of_words (i := i) h hvl hs hty rfl active_nil fun hu => ?_
  show runVrand s.here s.me (entryOf s i) d m (dispatchedState s i) = _
  unfold runVrand
  simp only [hu, hart_dispatched, ht.remaining (entry_start s i), Bool.not_true, Bool.false_eq_true, if_false]
  rfl

theorem vmvx_completes (dx : BitVec 5) : Completes (.vmvx dx a x) (s.hart.setX dx.toNat
    (if (s.hart.getX x.toNat).toNat < s.hart.vec.vl then
      (let w := elemOf (s.hart.getV a.toNat) (typeBits s.hart.ty) (s.hart.getX x.toNat).toNat
       if s.hart.ty < 3 then BitVec.ofInt 64 (signedOf (typeBits s.hart.ty) w) else word w) else 0)) 4 0 false s := by
  let i := Instr.vmvx dx a x
  have ht : TakesElements s (entryOf s i) := takesElements_of_permuteRow rfl hvl
  refine (atOnce_of_permuteRow (i := i) rfl).completes h (commutes_setX _ _) (setX_ms _ _ _) ?_
  have hu := OnlyHart.modHart (dispatchedState s i) fun y => y.setX dx.toNat
    (if (s.hart.getX x.toNat).toNat < s.hart.vec.vl then
      (let w := elemOf (s.hart.getV a.toNat) (typeBits s.hart.ty) (s.hart.getX x.toNat).toNat
       if s.hart.ty < 3 then BitVec.ofInt 64 (signedOf (typeBits s.hart.ty) w) else word w) else 0)
  rw [dispatched_hart] at hu
  refine ⟨_, ?_, hu⟩
  show moveToX s.here s.me (entryOf s i) dx a (dispatchedState s i) = _
  have hn : (entryOf s i).x 0 = s.hart.getX x.toNat := rfl
  unfold moveToX
  simp only [ht.unscaled hs hty, ht.vl, ht.ty, hn, requirePresent_empty (entries_dispatched h i), bind_ok, hart_dispatched,
    getV_behind, Bool.not_true, Bool.false_eq_true, if_false, show (entryOf s i).flags = 0 from (captureFor_fresh s i).flags]
  by_cases hlt : (s.hart.getX x.toNat).toNat < s.hart.vec.vl
  · rw [if_neg (by omega), if_pos hlt]
    by_cases h3 : s.hart.ty < 3
    · rw [if_pos (show s.hart.ty ≤ 2 by omega), if_pos h3]
      rfl
    · rw [if_neg (show ¬ s.hart.ty ≤ 2 by omega), if_neg h3]
      rfl
  · rw [if_pos (by omega), if_neg hlt]
    rfl

end

/-! ### Slides (R301) -/

/-- The element that a slide by `k` of `lim` elements moves to element e. -/
def slideSource (up : Bool) (k lim e : Nat) : Option Nat :=
  if up then (if k ≤ e then some (e - k) else none) else if e + k < lim then some (e + k) else none

/-- What a slide puts where no element moves to: a value, or nothing. -/
def fillWith (fill : Fill) (one : Nat) : Option Nat :=
  match fill with
  | .zero => some 0
  | .one => some one
  | .keep => none

/-- What a slide writes: of the elements or blocks `es`, those that one moves to, and the others with what it fills with. -/
def slidTo (source : Nat → Option Nat) (value : Nat → Nat) (fill : Option Nat) (es : List Nat) : List (Nat × Nat) :=
  es.filterMap fun e => match source e, fill with
    | some j, _ => some (e, value j)
    | none, some v => some (e, v)
    | none, none => none

/-- A row of R301 in the turn in which it executes. -/
structure IsSlide (s : State) (i : Instr) (up : Bool) (fill : Fill) (d a : VReg) (x : XReg) (m : MReg) : Prop where
  permute : permuteRow i = true
  ric : consumesHere s i = false
  amount : (entryOf s i).x 0 = s.hart.getX x.toNat
  runs : vexec s.here s.me (entryOf s i) (dispatchedState s i) =
    slide s.here s.me (entryOf s i) up fill d a m (dispatchedState s i)

theorem slides_slide (s : State) (d a : VReg) (x : XReg) (m : MReg) :
    IsSlide s (.vslideupZero d a x m) true .zero d a x m ∧ IsSlide s (.vslideupOne d a x m) true .one d a x m ∧
    IsSlide s (.vslideupKeep d a x m) true .keep d a x m ∧ IsSlide s (.vslidednZero d a x m) false .zero d a x m ∧
    IsSlide s (.vslidednOne d a x m) false .one d a x m ∧ IsSlide s (.vslidednKeep d a x m) false .keep d a x m := by
  refine ⟨?_, ?_, ?_, ?_, ?_, ?_⟩
  all_goals exact ⟨rfl, rfl, rfl, rfl⟩

/-- The scales that a slide moves. -/
def slidScales (s : State) (up : Bool) (fill : Fill) (a : VReg) (k : Nat) (m : MReg) : List (Nat × Nat) :=
  slidTo (slideSource up (k / 16) (s.hart.vec.vl / 16)) (fun j => sideByte (s.hart.getSide a.toNat) (scaleIndex s.hart.ty j))
    (if fill = .keep then none else some 0x7F) ((List.range (s.hart.vec.vl / 16)).filter fun b => maskBit (s.hart.getM m.toNat) (16 * b))

/-- The elements that a slide moves. -/
def slidElems (s : State) (up : Bool) (fill : Fill) (a : VReg) (k : Nat) (m : MReg) : List (Nat × Nat) :=
  slidTo (slideSource up k s.hart.vec.vl) (elemOf (s.hart.getV a.toNat) (typeBits s.hart.ty))
    (fillWith fill (oneOf s.hart.ty)) (s.hart.active m)

theorem slide_completes {s : State} {i : Instr} {up : Bool} {fill : Fill} {d a : VReg} {x : XReg} {m : MReg}
    (hi : IsSlide s i up fill d a x m) (h : VectorReady s) (hvl : s.hart.VlFits)
    (hr : scaleRefused s.hart (entryOf s i) [s.hart.ty] m.toNat = false)
    (h16 : s.hart.vec.vtype.getLsbD 4 = true → (s.hart.getX x.toNat).toNat % 16 = 0) :
    Completes i ((s.hart.withScales d.toNat s.hart.ty
        (if s.hart.vec.vtype.getLsbD 4 then slidScales s up fill a (s.hart.getX x.toNat).toNat m else [])).setElems d.toNat
      (typeBits s.hart.ty) (slidElems s up fill a (s.hart.getX x.toNat).toNat m)) 4 0 false s := by
  have ht : TakesElements s (entryOf s i) := takesElements_of_permuteRow hi.permute hvl
  rw [← hi.ric]
  refine completes_of_writes hi.permute h (fun hv => ?_) ?_
  · rw [ht.vl] at hv
    rw [slidElems, active_nil hv, slidScales, hv]
    exact ⟨rfl, ite_self _⟩
  · rw [hi.runs]
    unfold slide
    have hr' : scaleRefused (behind s i [entryOf s i]) (entryOf s i) [s.hart.ty] m.toNat = false := hr
    have hb : (s.hart.vec.vtype.getLsbD 4 && (s.hart.getX x.toNat).toNat % 16 != 0) = false := by
      cases hs : s.hart.vec.vtype.getLsbD 4
      · rfl
      · rw [h16 hs]; rfl
    simp only [hart_dispatched, ht.ty, hi.amount, hr', hb, Bool.or_false, Bool.false_eq_true, if_false, ht.remaining (entry_start s i),
      copyElem_empty (entries_dispatched h i), getV_behind, ht.vl, ht.scaled]
    congr 1
    · rw [slidElems, slidTo, List.map_filterMap]
      refine List.filterMap_congr fun e _ => ?_
      rcases hj : slideSource up (s.hart.getX x.toNat).toNat s.hart.vec.vl e with _ | j
      all_goals
        rw [slideSource] at hj
        simp only [hj]
      · cases fill <;> rfl
      · rfl
    · cases s.hart.vec.vtype.getLsbD 4
      · rfl
      · rw [if_pos rfl, if_pos rfl, slidScales, slidTo]
        refine List.filterMap_congr fun b _ => ?_
        rcases hj : slideSource up ((s.hart.getX x.toNat).toNat / 16) (s.hart.vec.vl / 16) b with _ | j
        all_goals
          rw [slideSource] at hj
          simp only [hj]
        · cases fill <;> rfl
        · rfl

/-! ### VREL and PRES (R77, R298) -/

/-- VREL and PRES. -/
def presenceRow : Instr → Bool
  | .vrel _ | .pres _ _ => true
  | _ => false

theorem plain_of_presenceRow {i : Instr} (h : presenceRow i = true) : Plain i := by
  unfold presenceRow at h
  split at h
  case h_3 => exact absurd h Bool.false_ne_true
  all_goals exact ⟨nofun, fun _ => rfl, rfl, rfl, fun _ => rfl, fun _ _ _ => rfl⟩

/-- A change of the captured entries that changes none of a hart's leaves the hart. -/
theorem mapEntries_of_fixed {x : Hart} {f : VEntry → VEntry} (h : ∀ v ∈ x.allEntries, f v = v) : x.mapEntries f = x := by
  have hl : ∀ l : List VEntry, l ⊆ x.allEntries → l.map f = l := fun l hm =>
    (List.map_congr_left fun v hv => h v (hm hv)).trans (List.map_id l)
  have hheld : x.vec.held.map f = x.vec.held := hl _ fun v hv => by simp [Hart.allEntries, hv]
  have hviq : x.vec.viq.map f = x.vec.viq := hl _ fun v hv => by simp [Hart.allEntries, hv]
  have hloop : (x.lp.loop.map fun l => { l with body := l.body.map f }) = x.lp.loop := by
    cases hlp : x.lp.loop with
    | none => rfl
    | some l =>
      have hb : l.body.map f = l.body := hl _ fun v hv => by simp [Hart.allEntries, hlp, hv]
      exact congrArg (fun b => some { l with body := b }) hb
  rw [Hart.mapEntries, hheld, hviq, hloop]

/-- A register that reads zero, with no byte written. -/
def zeroed (r : Nat) (x : Hart) : Hart :=
  { (x.setV r 0).setSide r 0 with
    vec := { ((x.setV r 0).setSide r 0).vec with written := insert x.vec.written r 0 } }

/-- A state whose cores read the same differs in nothing else that a core shows. -/
theorem onlyHart_of_cores {t : State} (l : AMap Core) (h : ∀ c, lookupD l c Core.reset = t.core c) :
    OnlyHart t.hart t { t with cores := l } :=
  have hk : ∀ c, ({ t with cores := l } : State).core c = t.core c := h
  have hh : ∀ c n, ({ t with cores := l } : State).hartAt c n = t.hartAt c n := fun c n => congrArg (Core.hart · n) (hk c)
  ⟨hh _ _, rfl, rfl, fun c n _ => hh c n, fun c => by rw [hk], rfl, rfl, rfl, rfl, rfl, rfl⟩

/-- A Landing with nothing in it stays so under any change of its entries. -/
theorem mapEntries_onlyHart {t : State} (he : (t.core t.here).land.entries = []) (f : Nat → LEntry → LEntry) :
    OnlyHart t.hart t (t.modCore t.here fun k => k.setEntries (mapValues f k.entries)) := by
  have hk : (t.core t.here).setEntries (mapValues f (t.core t.here).entries) = t.core t.here := by
    rw [Core.setEntries, Core.entries, he, show mapValues f [] = [] from rfl, ← he]
  refine onlyHart_of_cores _ fun c => ?_
  by_cases hc : c = t.here
  · rw [hc, lookupD_insert_same]
    exact hk
  · exact lookupD_insert_ne _ _ _ hc

section
variable {s : State} (h : VectorReady s)
include h

theorem vrel_completes (d : VReg) : Completes (.vrel d) (zeroed d.toNat s.hart) 4 0 false s := by
  let i := Instr.vrel d
  let t := dispatchedState s i
  let forget : VEntry → VEntry := fun v => if v.old.any (fun (o : OldRow) => o.reg == d) then { v with old := none } else v
  refine (atOnce_of_plain (plain_of_presenceRow (i := i) rfl)).completes h (g := zeroed d.toNat) (fun _ _ _ _ _ => rfl) rfl ?_
  have hu := (mapEntries_onlyHart (t := t) (entries_dispatched h i) fun _ e =>
    if e.hart.toNat == s.me && e.reg == d then { e with live := 0 } else e).then fun x => (zeroed d.toNat x).mapEntries forget
  have hz : (zeroed d.toNat t.hart).mapEntries forget = zeroed d.toNat (behind s i [entryOf s i]) := by
    rw [dispatched_hart]
    refine mapEntries_of_fixed fun v hv => ?_
    have hold : v.old = none := noOldRow_dispatched h i v (dispatched_hart s i ▸ hv)
    simp only [forget, hold, Option.any_none, Bool.false_eq_true, if_false]
  rw [hz] at hu
  refine ⟨_, ?_, hu⟩
  show runVrel s.here s.me (entryOf s i) d t = _
  unfold runVrel
  simp only [show (entryOf s i).binds = [] from rfl, modHartAt_modHartAt, show (entryOf s i).flags = 0 from (captureFor_fresh s i).flags]
  rfl

/-- PRES finds every element present. -/
theorem pres_completes (m : MReg) (a : VReg)
    (hr : scaleRefused s.hart (entryOf s (.pres m a)) [s.hart.ty] 0 = false) :
    SetsMask (.pres m a) m (fun _ => true) (fun _ => true) 0 s := by
  let i := Instr.pres m a
  refine setsMask_of_writeMask (value := fun _ _ => true) (plain_of_presenceRow (i := i) rfl) h rfl (fun _ _ _ _ _ => rfl) ?_
  show runPres s.here s.me (entryOf s i) m a (dispatchedState s i) = _
  have hr' : scaleRefused (behind s i [entryOf s i]) (entryOf s i) [(entryOf s i).ty] 0 = false := hr
  unfold runPres
  simp only [hart_dispatched, hr', presentElem_empty (entries_dispatched h i), requirePresent_empty (entries_dispatched h i),
    bind_ok, ite_self, Bool.false_eq_true, if_false]

theorem pres_traps (m : MReg) (a : VReg) (hr : scaleRefused s.hart (entryOf s (.pres m a)) [s.hart.ty] 0 = true)
    (hc : CanTrap s) : ∃ t, exec (.pres m a) s = .next t ∧
      TakesVectorTrap { code := 0x11, info0 := s.hart.vec.vtype } (.pres m a) s t := by
  let i := Instr.pres m a
  have hr' : scaleRefused (behind s i [entryOf s i]) (entryOf s i) [(entryOf s i).ty] 0 = true := hr
  refine issueVector_traps h ((plain_of_presenceRow (i := i) rfl).registerOnly s) (show 0x11 < 256 by decide) ?_ hc
  show runPres s.here s.me (entryOf s i) m a (dispatchedState s i) = _
  unfold runPres
  simp only [hart_dispatched, hr', if_true]
  rfl

end

/-- What R121 asks of PRES. -/
def PresFits (x : Hart) : Prop :=
  if x.vec.vtype.getLsbD 4 = true then x.ty ∈ [8, 9, 10] ∧ x.vec.vl % 16 = 0 else x.ty ≠ 10

theorem scaleRefused_unscaled {s : State} {v : VEntry} (ht : v.scaled = false) {ty : Nat} (hty : ty ≠ 10) (m : Nat) :
    scaleRefused s.hart v [ty] m = false := by
  rw [scaleRefused, ht, if_neg Bool.false_ne_true]
  simpa using Ne.symm hty

theorem blocksUniform_iff (x : Hart) (mk vl : Nat) : blocksUniform x mk vl = true ↔ vl % 16 = 0 ∧
    ∀ b, b < vl / 16 → ∀ i, i < 16 → maskBit (x.getM mk) (16 * b + i) = maskBit (x.getM mk) (16 * b) := by
  simp [blocksUniform, indices]

theorem scaleRefused_blocks {s : State} {v : VEntry} (hvl : v.vl = s.hart.vec.vl) {m : MReg} (hb : s.hart.Blocks m)
    (hsc : v.scaled = s.hart.vec.vtype.getLsbD 4)
    (hty : s.hart.ty ∈ [8, 9, 10]) : scaleRefused s.hart v [s.hart.ty] m.toNat = false := by
  obtain ⟨hs, h16, hu⟩ := hb
  have hany : [s.hart.ty].any (fun t => [8, 9, 10].contains t) = true := by simpa [or_iff_not_imp_left] using hty
  rw [scaleRefused, hsc, hs, if_pos rfl, hvl, (blocksUniform_iff _ _ _).2 ⟨h16, hu⟩, hany]
  rfl

theorem scaleRefused_presFits {s : State} {v : VEntry} (hv : v.vl = s.hart.vec.vl)
    (hsc : v.scaled = s.hart.vec.vtype.getLsbD 4) (hvl : s.hart.vec.vl ≤ 4096) :
    scaleRefused s.hart v [s.hart.ty] 0 = false ↔ PresFits s.hart := by
  have hm : ∀ e, e < 4096 → maskBit (s.hart.getM 0) e = true := fun e he => by
    rw [Hart.getM, if_pos rfl, maskBit, BitVec.getLsbD_allOnes, decide_eq_true he]
  have hu : blocksUniform s.hart 0 v.vl = true ↔ s.hart.vec.vl % 16 = 0 := by
    rw [blocksUniform_iff, hv]
    refine and_iff_left_of_imp fun h16 b hb i hi => ?_
    rw [hm _ (by omega), hm _ (by omega)]
  rw [scaleRefused, PresFits, hsc]
  cases s.hart.vec.vtype.getLsbD 4
  · simp [eq_comm]
  · simp [hu, or_iff_not_imp_left, and_comm]

/-- The bits of the value 1 of a type (R301). -/
def oneBits (ty : Nat) : Nat :=
  match ty with
  | 8 => 0x38 | 9 => 0x3C | 10 => 2 | 11 => 0x3C00 | 12 => 0x3F80 | 13 => 0x3F800000 | 14 => 0x3FF0000000000000
  | _ => 1

theorem oneOf_eq {ty : Nat} (h : ty < 16) : oneOf ty = oneBits ty := by
  have all : ∀ ty < 16, oneOf ty = oneBits ty := by decide
  exact all ty h

section
variable {s : State} {i : Instr} {up : Bool} {fill : Fill} {d a : VReg} {x : XReg} {m : MReg}

/-- A slide of a hart with S = 0. -/
theorem slide_unscaled (hi : IsSlide s i up fill d a x m) (h : VectorReady s) (hvl : s.hart.VlFits)
    (hs : s.hart.vec.vtype.getLsbD 4 = false) (hty : s.hart.ty ≠ 10) {v : Option Nat}
    (hv : fillWith fill (oneOf s.hart.ty) = v) :
    Completes i (s.hart.setElems d.toNat (typeBits s.hart.ty) (slidTo (slideSource up (s.hart.getX x.toNat).toNat s.hart.vec.vl)
      (elemOf (s.hart.getV a.toNat) (typeBits s.hart.ty)) v (s.hart.active m))) 4 0 false s := by
  have ht := takesElements_of_permuteRow hi.permute hvl
  have e := slide_completes hi h hvl (scaleRefused_unscaled (ht.scaled.trans hs) hty _) fun h1 => absurd (hs.symm.trans h1) nofun
  rw [hs, if_neg Bool.false_ne_true, withScales_nil, slidElems, hv] at e
  exact e

/-- A slide of whole blocks with their scales. -/
theorem slide_blocks (hi : IsSlide s i up fill d a x m) (h : VectorReady s) (hvl : s.hart.VlFits) (hb : s.hart.Blocks m)
    (hty : s.hart.ty ∈ [8, 9, 10]) (h16 : (s.hart.getX x.toNat).toNat % 16 = 0) {v w : Option Nat}
    (hv : fillWith fill (oneOf s.hart.ty) = v) (hw : (if fill = .keep then none else some 0x7F) = w) :
    Completes i ((s.hart.withScales d.toNat s.hart.ty
        (slidTo (slideSource up ((s.hart.getX x.toNat).toNat / 16) (s.hart.vec.vl / 16))
          (fun j => sideByte (s.hart.getSide a.toNat) (scaleIndex s.hart.ty j)) w
          ((List.range (s.hart.vec.vl / 16)).filter fun b => maskBit (s.hart.getM m.toNat) (16 * b)))).setElems d.toNat
      (typeBits s.hart.ty) (slidTo (slideSource up (s.hart.getX x.toNat).toNat s.hart.vec.vl)
        (elemOf (s.hart.getV a.toNat) (typeBits s.hart.ty)) v (s.hart.active m))) 4 0 false s := by
  have ht := takesElements_of_permuteRow hi.permute hvl
  have e := slide_completes hi h hvl (scaleRefused_blocks ht.vl hb ht.scaled hty) fun _ => h16
  rw [hb.1, if_pos rfl, slidElems, slidScales, hv, hw] at e
  exact e

end

/-- Settles O41: the results of a permute, slide or move are values, of no flag, that reach the destination with the scales of
their blocks (`completes_of_writes`, `slide_completes`); VREL changes one register (`vrel_completes`), and PRES is a write of
a mask (`pres_completes`) or FORMAT (`pres_traps`), as R121 has it (`scaleRefused_presFits`). -/
theorem permuteResults : Obligations.PermuteResults := by
  unfold Obligations.PermuteResults
  refine ⟨fun seed ric key => ?_, fun s d a b x m dx h hvl h4096 => ?_⟩
  · rw [randomBits, wbits_zero]
    rfl
  obtain ⟨upZero, upOne, upKeep, dnZero, dnOne, dnKeep⟩ := slides_slide s d a x m
  have one : oneOf s.hart.ty = oneBits s.hart.ty := oneOf_eq (Nat.mod_lt _ (by decide))
  have fits : scaleRefused s.hart (entryOf s (.pres m a)) [s.hart.ty] 0 = false ↔ PresFits s.hart :=
    scaleRefused_presFits rfl rfl h4096
  refine ⟨fun hs hty h15 => ⟨vgath_completes h hvl hs hty d a b m, vcomp_completes h hvl hs hty d a m,
    vxpnd_completes h hvl hs hty d a m, ?slides, ?vmvx, vmvs_completes h hvl hs hty d x m, vsplat_completes h hvl hs hty d x m,
    vrand_completes h hvl hs hty d m⟩, ?blocks, vrel_completes h d, ?pres, ?traps⟩
  case pres =>
    intro hf
    obtain ⟨y, hy, hc⟩ := pres_completes h m a (fits.2 hf)
    refine ⟨y, fun e he => (hy e he).trans ?_, hc⟩
    by_cases hlt : e < s.hart.vec.vl
    · rw [if_pos ⟨hlt, rfl⟩, decide_eq_true hlt, Bool.true_or]
    · rw [if_neg fun hc => hlt hc.1, decide_eq_false hlt, Bool.false_or]
  case traps =>
    intro hf hc
    obtain ⟨t, ht, k⟩ := pres_traps h m a (Bool.eq_true_of_not_eq_false fun e => hf (fits.1 e)) hc
    exact ⟨t, ht, k.vectorSide, k.code, k.info0, k.masks⟩
  case vmvx => exact vmvx_completes h hvl hs hty a x dx
  case slides =>
    have hv := fun {i up fill} (hi : IsSlide s i up fill d a x m) v => slide_unscaled (v := v) hi h hvl hs hty
    simp only [List.forall_mem_cons, List.not_mem_nil, false_implies, implies_true, and_true]
    exact ⟨hv upZero _ rfl, hv upOne _ (congrArg some one), hv upKeep _ rfl, hv dnZero _ rfl, hv dnOne _ (congrArg some one),
      hv dnKeep _ rfl⟩
  case blocks =>
    intro hb hty h16
    have hv := fun {i up fill} (hi : IsSlide s i up fill d a x m) v w => slide_blocks (v := v) (w := w) hi h hvl hb hty h16
    simp only [List.forall_mem_cons, List.not_mem_nil, false_implies, implies_true, and_true]
    exact ⟨hv upZero _ _ rfl rfl, hv upOne _ _ (congrArg some one) rfl, hv upKeep _ _ rfl rfl, hv dnZero _ _ rfl rfl,
      hv dnOne _ _ (congrArg some one) rfl, hv dnKeep _ _ rfl rfl⟩

end Sys2Proof.Machine

namespace Sys2Proof.Machine

/-! ## A FILL that poisons its entry (R86, R90)

A Landing that lists a number twice: once for the entry that a ferry holds, and once for a poisoned entry whose element the
hart has written over. When the first becomes poisoned, the second is to be resolved with the value written; it is resolved
by its number, which is that of the first, and so the entry that FILL has poisoned frees. -/

/-- An entry of h0 for element 0 of v1, of the class of VFADD. -/
def numberedEntry (st : LState) (late : Option Word) : LEntry :=
  { hart := 0, seq := 0, pc := 0, cls := 0, ty := 13, tgt := 0, index := 0, row := 0, reg := 1, live := 0xFFFFFFFF, opa := 0, opb := 0
    opc := 0, rm := 0, en := 0, nft := false, srb := 0, links := [], handler := 0, state := st, cause := 5, detail := 0, fn := .fadd
    ty2 := 13, dty := 13, width := 32, scale := none, gather := none, liter := 0, written := late }

/-- Number 3 names two entries. -/
def twiceNumbered : AMap LEntry := [(3, numberedEntry (.inFerry false) none), (3, numberedEntry .poisoned (some 7))]

/-- A ferry that holds entry 3, whose x1 asks FILL to poison it. -/
def poisoningFerry : Hart :=
  { Hart.reset with x := [(1, 0x8003)], hole := { Hart.reset.hole with ferry := some 3 } }

/-- The state of that ferry, f0 of core 0. -/
def stateBeforeFill : State :=
  { State.reset with
    curHart := 4
    cores := [(0, { Core.reset with
      harts := [(4, poisoningFerry)], land := { Core.reset.land with entries := twiceNumbered } })] }

/-- Entry 3 of core 0 in the next state. -/
def entry3After (o : Out) : Option LEntry :=
  match o with
  | .next t => lookup (t.core 0).land.entries 3
  | _ => none

theorem fill_freesPoisoned : entry3After (exec (.fill 0 1) stateBeforeFill) = none := by decide +kernel

/-- Refutes O34: a FILL that poisons the entry that its ferry holds leaves no entry of that number where another of the same number
is poisoned and written over (`fill_freesPoisoned`), so that none is poisoned with the cause of the FILL. -/
theorem not_ferryResults : ¬ Obligations.FerryResults := by
  unfold Obligations.FerryResults
  intro h
  obtain ⟨-, -, held⟩ := h
  obtain ⟨-, -, holds⟩ := held stateBeforeFill 0 1 0 3 (numberedEntry (.inFerry false) none) rfl rfl (by decide)
  obtain ⟨-, fills, -⟩ := holds rfl rfl
  obtain ⟨poisons, -⟩ := fills rfl (by decide) rfl
  obtain ⟨t, ht, -, -, -, -, l, hl, -⟩ := poisons rfl
  have hafter := fill_freesPoisoned
  rw [ht] at hafter
  exact absurd (hl.symm.trans hafter) nofun

end Sys2Proof.Machine

namespace Sys2Proof.Machine

/-! ## Agents that go on by themselves, and page heat (R80, R83, R93, R94, R168, R170 to R172, R305) -/

/-! ### Prefetches -/

/-- Every hart has the x registers and the PC that it had. -/
def KeepsFront (s t : State) : Prop :=
  ∀ c h, (t.hartAt c h).x = (s.hartAt c h).x ∧ (t.hartAt c h).pc = (s.hartAt c h).pc

theorem KeepsFront.refl (s : State) : KeepsFront s s := fun _ _ => ⟨rfl, rfl⟩

theorem KeepsFront.trans {s t u : State} (a : KeepsFront s t) (b : KeepsFront t u) : KeepsFront s u := fun c h =>
  ⟨(b c h).1.trans (a c h).1, (b c h).2.trans (a c h).2⟩

theorem Woken.keepsFront {s t : State} (k : Woken s t) : KeepsFront s t := fun c h => by
  obtain ⟨w, e⟩ := k.harts c h
  rw [e]
  exact ⟨rfl, rfl⟩

/-- What comes to a contained error has woken harts at most. -/
def ContainsWoken (s : State) (r : Res α) : Prop := ∀ d t, r = .contained d t → Woken s t

theorem ContainsWoken.bind {s : State} {r : Res α} {f : α → State → Res β} (h : ContainsWoken s r) (hw : WakesOnly s r)
    (hf : ∀ a t, ContainsWoken t (f a t)) : ContainsWoken s (r.bind f) := fun d u e => by
  cases r with
  | ok a t => exact (hw a t rfl).trans (hf a t d u e)
  | contained b t =>
    cases e
    exact h d u rfl
  | wait | exc | stop => exact nomatch e

theorem ContainsWoken.exc (s : State) (e : Exc) (k : Nat) : ContainsWoken s (.exc e k s : Res α) := fun _ _ h => nomatch h

theorem ContainsWoken.ok (s t : State) (a : α) : ContainsWoken s (.ok a t) := fun _ _ h => nomatch h

theorem reachable_containsWoken (core p : Nat) (s : State) : ContainsWoken s (reachable core p s) := fun d t e => by
  rcases reachable_cases core p s with h | ⟨c, h⟩ | h <;> rw [h] at e <;> cases e
  exact .refl s

theorem walk_containsWoken (cx : Ctx) (k : Access) (va elem : Nat) (levels : List Nat) (node mt : Nat) (s : State) :
    ContainsWoken s (walk cx k va elem node mt s levels) := by
  induction levels generalizing node mt s with
  | nil => exact .exc s _ 0
  | cons lvl rest ih =>
    unfold walk
    refine (reachable_containsWoken _ _ s).bind (reachable_wakesOnly _ _ s) fun _ t => ?_
    dsimp only
    split
    · exact .exc t _ 0
    · split
      · split
        · exact .exc t _ 0
        · exact ih _ _ t
      · split
        · exact .exc t _ 0
        · split
          · exact .exc t _ 0
          · exact .ok t _ _

theorem leafOf_containsWoken (cx : Ctx) (k : Access) (va : Word) (elem : Nat) (s : State) :
    ContainsWoken s (leafOf cx k va elem s) := by
  have hw := (walk_containsWoken cx k va.toNat elem [0, 1, 2, 3] (wbits cx.ptbase 12 40) (wbits cx.ptbase 0 2) s).bind
    (walk_wakesOnly _ _ _ _ _ _ _ s) (f := fun e s => .ok e (heldInTlbs e cx.core s)) fun e t => .ok t _ e
  unfold leafOf
  dsimp only
  generalize (walk cx k va.toNat elem (wbits cx.ptbase 12 40) (wbits cx.ptbase 0 2) s [0, 1, 2, 3]).bind
    (fun e s => .ok e (heldInTlbs e cx.core s)) = r at hw ⊢
  have hu : ∀ e : TlbEntry, ContainsWoken s (match leafRefuses e.pte k cx.sup with
      | some code => Res.exc (pageExc code k va.toNat elem e.level e.pte) 0 s
      | none => if k.writes && !e.pte.getLsbD 6 then r else .ok e s) := by
    intro e
    split
    · exact .exc s _ 0
    · split
      · exact hw
      · exact .ok s s e
  split
  · exact .exc s _ 0
  · split
    · exact hu _
    · split
      · exact hu _
      · exact hw

theorem translate_containsWoken (cx : Ctx) (k : Access) (va : Word) (elem : Nat) (s : State) :
    ContainsWoken s (translate cx k va elem s) :=
  (leafOf_containsWoken cx k va elem s).bind (leafOf_wakesOnly cx k va elem s) fun _ t =>
    (reachable_containsWoken _ _ t).bind (reachable_wakesOnly _ _ t) fun _ u => .ok u u _

theorem cacheLine_cores (cap l : Nat) (b : List Byte) (m : AMap (List Byte)) (s : State) :
    (cacheLine cap l b m s).2.cores = s.cores ∧ (cacheLine cap l b m s).2.mem = s.mem := by
  unfold cacheLine
  split <;> exact ⟨rfl, rfl⟩

theorem lookup_cacheLine (cap l : Nat) (b : List Byte) (m : AMap (List Byte)) (s : State) :
    lookup (cacheLine cap l b m s).1 l = some b := by
  unfold cacheLine
  split <;> exact lookup_insert_same _ _ _

/-- The harts of a core with their prefetch buffers brought up to date. -/
theorem refreshHarts_keepsFront (c l : Nat) (b : List Byte) (m : AMap (List Byte)) (s : State) : KeepsFront s (s.modCore c fun k =>
    { k with icache := m, harts := mapValues (fun _ x => x.refresh l b) k.harts }) := fun d h => by
  by_cases hd : d = c
  · subst hd
    have e : ∀ k : Core, lookupD (mapValues (fun _ x => x.refresh l b) k.harts) h Hart.reset = (k.hart h).refresh l b :=
      fun k => lookupD_mapValues (fun _ x => Hart.refresh l b x) _ _ _ rfl
    have g : (s.modCore d fun k => { k with icache := m, harts := mapValues (fun _ x => x.refresh l b) k.harts }).hartAt d h =
        (s.hartAt d h).refresh l b := by
      rw [State.hartAt, core_modCore_same]
      exact e _
    rw [g]
    exact ⟨rfl, rfl⟩
  · rw [State.hartAt, core_modCore_ne s _ hd]
    exact ⟨rfl, rfl⟩

theorem fetchBlock_keepsFront (c p : Nat) (s : State) : KeepsFront s (fetchBlock c p s).2 := by
  unfold fetchBlock
  split
  · exact .refl s
  · dsimp only
    split
    · exact refreshHarts_keepsFront c _ _ _ s
    · intro d h
      have k := refreshHarts_keepsFront c (lineOf p) (readPlaces s.mem (lineOf p) 64)
        (cacheLine Config.icacheBlocks (lineOf p) (readPlaces s.mem (lineOf p) 64) (s.core c).icache s).1
        (cacheLine Config.icacheBlocks (lineOf p) (readPlaces s.mem (lineOf p) 64) (s.core c).icache s).2 d h
      rw [k.1, k.2, State.hartAt, State.core, (cacheLine_cores _ _ _ _ s).1]
      exact ⟨rfl, rfl⟩

/-- A block that the cache does not hold comes from memory; it enters the cache unless it lies in HM. -/
theorem fetchBlock_miss {c p : Nat} {s : State} (h : lookup (s.core c).icache (lineOf p) = none) :
    (fetchBlock c p s).1 = readPlaces s.mem (lineOf p) 64 ∧
      (memoryOf p ≠ 2 → lookup ((fetchBlock c p s).2.core c).icache (lineOf p) = some (readPlaces s.mem (lineOf p) 64)) := by
  unfold fetchBlock
  rw [h]
  refine ⟨rfl, fun hm => ?_⟩
  dsimp only
  rw [if_neg hm, core_modCore_same]
  exact lookup_cacheLine _ _ _ _ s

theorem prefetchPart_keepsFront (cx : Ctx) (va n : Nat) (s : State) : KeepsFront s (prefetchPart cx va n s).2 := by
  unfold prefetchPart
  rcases translate_cases cx .fetch (word va) 0 s with ⟨⟨p, e⟩, t, h, -⟩ | ⟨x, h⟩ | ⟨d, t, h, -⟩ | h <;> rw [h] <;> dsimp only
  · have k := (translate_woken h).keepsFront
    split
    · exact k
    · exact k.trans (fetchBlock_keepsFront _ p t)
  · exact .refl s
  · exact (translate_containsWoken cx .fetch (word va) 0 s d t h).keepsFront
  · exact .refl s

/-- A part of a block whose line can be read. -/
theorem prefetchPart_miss {cx : Ctx} {va n p : Nat} {e : TlbEntry} {s u : State}
    (h : translate cx .fetch (word va) 0 s = .ok (p, e) u) (hp : poisoned (lineOf p) 64 u = false)
    (hc : lookup (u.core cx.core).icache (lineOf p) = none) :
    prefetchPart cx va n s =
      (some ((indices n).map fun i => (p + i, (readPlaces u.mem (lineOf p) 64).getD (p % 64 + i) 0), e), (fetchBlock cx.core p u).2) := by
  unfold prefetchPart
  rw [h]
  simp only [hp, Bool.and_false, Bool.false_eq_true, if_false, (fetchBlock_miss hc).1]

/-- The bytes and pages of a prefetch begin with those of the first part. -/
theorem prefetchBytes_first {cx : Ctx} {va : BitVec 48} {s t : State} {l : List CodeByte} {e : TlbEntry}
    (h : prefetchPart cx va.toNat (64 - va.toNat % 64) s = (some (l, e), t)) :
    ∃ l' es, (prefetchBytes cx va s).1 = l ++ l' ∧ (prefetchBytes cx va s).2.1 = e :: es ∧
      (va.toNat % 64 = 0 → prefetchBytes cx va s = (l, [e], t)) := by
  unfold prefetchBytes
  dsimp only
  rw [h]
  dsimp only
  split
  · exact ⟨[], [], (List.append_nil l).symm, rfl, fun _ => rfl⟩
  · rename_i hn
    have no : ¬ va.toNat % 64 = 0 := fun hz => hn (by rw [hz])
    generalize prefetchPart cx _ _ t = q
    obtain ⟨_ | ⟨l', e'⟩, u⟩ := q
    · exact ⟨[], [], (List.append_nil l).symm, rfl, fun hz => absurd hz no⟩
    · exact ⟨l', [e'], rfl, rfl, fun hz => absurd hz no⟩

theorem prefetchBytes_keepsFront (cx : Ctx) (va : BitVec 48) (s : State) : KeepsFront s (prefetchBytes cx va s).2.2 := by
  unfold prefetchBytes
  dsimp only
  have k := prefetchPart_keepsFront cx va.toNat (64 - va.toNat % 64) s
  generalize prefetchPart cx va.toNat (64 - va.toNat % 64) s = q at k ⊢
  obtain ⟨_ | ⟨l, e⟩, t⟩ := q
  · exact k
  · dsimp only
    split
    · exact k
    · have k' := k.trans (prefetchPart_keepsFront cx (va.toNat + (64 - va.toNat % 64)) (64 - (64 - va.toNat % 64)) t)
      generalize prefetchPart cx _ _ t = q at k' ⊢
      obtain ⟨_ | ⟨l', e'⟩, u⟩ := q <;> exact k'

/-- The bytes of a part of a block from a place on. -/
theorem block_getElem? (m : Memory) {p i n : Nat} (h : i < n) (hn : p % 64 + n ≤ 64) :
    ((indices n).map fun i => (p + i, (readPlaces m (lineOf p) 64).getD (p % 64 + i) 0))[i]? =
      some (p + i, readPlace m (p + i)) := by
  have e : lineOf p + (p % 64 + i) = p + i := by unfold lineOf; omega
  rw [List.getElem?_map, indices, List.getElem?_range h, Option.map_some, getD_readPlaces _ _ (by omega), e]

/-- What the first claim of R94 says of a target register whose prefetch is done. -/
theorem targetPrefetch_done (s : State) :
    let c := s.input.core.toNat
    let h := s.input.hart.toNat
    let x := s.hartAt c h
    let b := s.input.bt.toNat
    let va : BitVec 48 := (x.getB b).addr.zeroExtend 48 <<< 1
    (x.getB b).pf = 1 →
      ∃ t, exec .targetPrefetchDone s = .next t ∧ (t.hartAt c h).x = x.x ∧ (t.hartAt c h).pc = x.pc ∧
        let y := (t.hartAt c h).getB b
        y.addr = (x.getB b).addr ∧ y.v = (x.getB b).v ∧ y.pf = 2 ∧
        ∀ p e u, translate ⟨c, x.ms.ptbase, x.ms.asid, x.tr.sup⟩ .fetch (va.zeroExtend 64) 0 s = .ok (p, e) u →
          p % 64 = va.toNat % 64 → poisoned (p / 64 * 64) 64 u = false → lookup (u.core c).icache (p / 64 * 64) = none →
          e ∈ y.pages ∧
          (∀ i, i < 64 - va.toNat % 64 → y.buf[i]? = some (p + i, readPlace u.mem (p + i))) ∧
          (va.toNat % 64 = 0 → y.buf.length = 64 ∧ y.pages = [e] ∧
            (memoryOf p ≠ 2 → lookup (t.core c).icache p = some (readPlaces u.mem p 64))) := by
  intro c h x b va hpf
  have hva : (x.getB b).target = va := by
    simp only [TReg.target, va]
    apply BitVec.eq_of_toNat_eq
    simp only [BitVec.toNat_ofNat, BitVec.toNat_shiftLeft, BitVec.truncate_eq_setWidth, BitVec.toNat_setWidth, Nat.shiftLeft_eq]
    have := (x.getB b).addr.isLt
    omega
  let cx : Ctx := ⟨c, x.ms.ptbase, x.ms.asid, x.tr.sup⟩
  have k := prefetchBytes_keepsFront cx va s c h
  refine ⟨(prefetchBytes cx va s).2.2.modHartAt c h fun y =>
    y.setB b { x.getB b with pf := 2, buf := (prefetchBytes cx va s).1, pages := (prefetchBytes cx va s).2.1 }, ?_, ?_, ?_, ?_⟩
  · rw [exec_targetPrefetchDone, execTargetPrefetchDone]
    exact (if_neg fun e => e hpf).trans (by rw [← hva])
  · rw [hartAt_modHartAt_same, setB_x, k.1]
  · rw [hartAt_modHartAt_same, setB_pc, k.2]
  · rw [hartAt_modHartAt_same, getB_setB_same]
    refine ⟨rfl, rfl, rfl, fun p e u ht hp hc hi => ?_⟩
    have hw : word va.toNat = va.zeroExtend 64 := by
      simp [word]
    rw [← hw] at ht
    have hfirst := prefetchPart_miss (n := 64 - va.toNat % 64) ht hc hi
    obtain ⟨l', es, e1, e2, e3⟩ := prefetchBytes_first hfirst
    refine ⟨?_, fun i hi' => ?_, fun hz => ?_⟩
    · rw [e2]
      exact List.mem_cons_self
    · rw [e1, List.getElem?_append_left (by simpa [indices] using hi')]
      exact block_getElem? u.mem hi' (by omega)
    · rw [e3 hz]
      refine ⟨by simp [indices, hz], rfl, fun hm => ?_⟩
      have hl : lineOf p = p := by unfold lineOf; omega
      rw [State.modHartAt, State.setHartAt, core_setCore_same]
      have := (fetchBlock_miss hi).2 hm
      rw [hl] at this
      exact this

end Sys2Proof.Machine

namespace Sys2Proof.Machine

/-! ### What a sweep of the Landing leaves -/

theorem lookup_filter_none {α : Type} (f : Nat × α → Bool) (m : AMap α) {n : Nat} (h : lookup m n = none) :
    lookup (m.filter f) n = none := by
  induction m with
  | nil => rfl
  | cons e rest ih =>
    obtain ⟨j, v⟩ := e
    unfold lookup at h
    split at h
    · exact nomatch h
    · rename_i hj
      rw [List.filter_cons]
      split
      · unfold lookup
        rw [if_neg hj]
        exact ih h
      · exact ih h

/-- From `s` to `t` the Landing may have lost entries and changed others, and no more than the Landing's marks of harts
changed besides. -/
structure Tidied (s t : State) : Prop where
  mem : t.mem = s.mem
  harts : ∀ c h, ∃ o, t.hartAt c h = { s.hartAt c h with hole := o }
  channels : ∀ c, (t.core c).channels = (s.core c).channels
  entries : ∀ c n, lookup (s.core c).land.entries n = none → lookup (t.core c).land.entries n = none

theorem Tidied.refl (s : State) : Tidied s s := ⟨rfl, fun c h => ⟨(s.hartAt c h).hole, rfl⟩, fun _ => rfl, fun _ _ h => h⟩

theorem Tidied.trans {s t u : State} (a : Tidied s t) (b : Tidied t u) : Tidied s u where
  mem := b.mem.trans a.mem
  harts := fun c h => by
    obtain ⟨o, e⟩ := a.harts c h
    obtain ⟨o', e'⟩ := b.harts c h
    exact ⟨o', by rw [e', e]⟩
  channels := fun c => (b.channels c).trans (a.channels c)
  entries := fun c n h => b.entries c n (a.entries c n h)

theorem Tidied.hart {s t : State} (k : Tidied s t) (c h : Nat) : t.hartAt c h = { s.hartAt c h with hole := (t.hartAt c h).hole } := by
  obtain ⟨o, e⟩ := k.harts c h
  rw [e]

/-- Of a core only Landing entries, and what its harts remember of the Landing. -/
structure CoreTidied (k l : Core) : Prop where
  harts : ∀ h, ∃ o, l.hart h = { k.hart h with hole := o }
  channels : l.channels = k.channels
  entries : ∀ n, lookup k.land.entries n = none → lookup l.land.entries n = none

theorem CoreTidied.refl (k : Core) : CoreTidied k k := ⟨fun h => ⟨(k.hart h).hole, rfl⟩, rfl, fun _ h => h⟩

theorem CoreTidied.trans {k l m : Core} (a : CoreTidied k l) (b : CoreTidied l m) : CoreTidied k m where
  harts := fun h => by
    obtain ⟨o, e⟩ := a.harts h
    obtain ⟨o', e'⟩ := b.harts h
    exact ⟨o', by rw [e', e]⟩
  channels := b.channels.trans a.channels
  entries := fun n h => b.entries n (a.entries n h)

theorem CoreTidied.foldl (f : Core → Nat → Core) (hf : ∀ k n, CoreTidied k (f k n)) (l : List Nat) (k : Core) :
    CoreTidied k (l.foldl f k) := by
  induction l generalizing k with
  | nil => exact .refl k
  | cons n rest ih => exact (hf k n).trans (ih _)

/-- What a hart remembers of the Landing's reports is forgotten at most. -/
theorem forget_tidied (k : Core) : CoreTidied k k.forget where
  harts := fun h => by
    unfold Core.forget Core.hart
    dsimp only
    rw [lookupD_mapValues _ _ _ _ rfl]
    split
    · split
      · exact ⟨_, rfl⟩
      · exact ⟨_, rfl⟩
    · exact ⟨_, rfl⟩
  channels := rfl
  entries := fun _ h => h

theorem setEntries_tidied (k : Core) {l : AMap LEntry} (h : ∀ n, lookup k.land.entries n = none → lookup l n = none) :
    CoreTidied k (k.setEntries l) := ⟨fun h => ⟨(k.hart h).hole, rfl⟩, rfl, h⟩

theorem Tidied.modCore (s : State) (c : Nat) (f : Core → Core) (h : CoreTidied (s.core c) (f (s.core c))) :
    Tidied s (s.modCore c f) where
  mem := rfl
  harts := fun d i => by
    by_cases hd : d = c
    · subst hd
      rw [State.hartAt, core_modCore_same]
      exact h.harts i
    · rw [State.hartAt, core_modCore_ne s f hd]
      exact (Tidied.refl s).harts d i
  channels := fun d => by
    by_cases hd : d = c
    · subst hd
      rw [core_modCore_same]
      exact h.channels
    · rw [core_modCore_ne s f hd]
  entries := fun d n hn => by
    by_cases hd : d = c
    · subst hd
      rw [core_modCore_same]
      exact h.entries n hn
    · rw [core_modCore_ne s f hd]
      exact hn

theorem sweep_tidied (c : Nat) (s : State) : Tidied s (sweep c s) := by
  unfold sweep
  dsimp only
  split
  · exact .refl s
  · exact .modCore s c _ ((CoreTidied.foldl _ (fun k _ => setEntries_tidied k fun n h => lookup_filter_none _ _ h) _ _).trans
      (forget_tidied _))

theorem settlePoison_tidied (c : Nat) (s : State) : Tidied s (settlePoison c s) := by
  unfold settlePoison
  dsimp only
  split
  · exact .refl s
  · refine .modCore s c _ (CoreTidied.foldl _ (fun k _ => setEntries_tidied k fun n h => ?_) _ _)
    rw [Core.entries, lookup_mapValues, h]
    rfl

/-! ### The oldest uncommitted store -/

/-- A number is known from its bytes. -/
theorem readNat_of_bytes {m : Memory} {p n : Nat} (w : Nat) (h : ∀ i, i < n → readPlace m (p + i) = BitVec.ofNat 8 (w / 256 ^ i)) :
    readNat m p n = w % 256 ^ n := by
  induction n generalizing p w with
  | zero => simp [readNat, Nat.mod_one]
  | succ n ih =>
    have hz := h 0 (Nat.succ_pos n)
    rw [Nat.pow_zero, Nat.div_one, Nat.add_zero] at hz
    have hs : ∀ i, i < n → readPlace m (p + 1 + i) = BitVec.ofNat 8 (w / 256 / 256 ^ i) := fun i hi => by
      rw [Nat.div_div_eq_div_mul, ← Nat.pow_succ', Nat.add_right_comm, Nat.add_assoc]
      exact h (i + 1) (by omega)
    rw [readNat, ih _ hs, hz, BitVec.toNat_ofNat, Nat.pow_succ 256, Nat.mul_comm (256 ^ n) 256, Nat.mod_mul]

/-- Cells at places of their own leave each place as its cell says. -/
theorem readPlace_performCells {s : State} (hs : s.Sound) {cells : List StoreCell}
    (hp : cells.Pairwise fun i j => i.place ≠ j.place) {i : StoreCell} (hi : i ∈ cells) :
    readPlace (performCells cells s).mem i.place = (readPlace s.mem i.place &&& ~~~i.mask) ||| (i.data &&& i.mask) := by
  show readPlace (cells.foldl (fun m c =>
    writePlace m c.place ((readPlace m c.place &&& ~~~c.mask) ||| (c.data &&& c.mask))) s.mem) i.place = _
  have hm : s.mem.wf = true := hs
  generalize s.mem = m at hm ⊢
  induction cells generalizing m with
  | nil => exact nomatch hi
  | cons c cs ih =>
    obtain ⟨hc, hcs⟩ := List.pairwise_cons.1 hp
    rw [List.foldl_cons]
    rcases List.mem_cons.1 hi with rfl | hi
    · have e := fun n => readPlace_performCells_ne cs { s with mem := n } (q := i.place) fun d hd => (hc d hd).symm
      exact (e _).trans (readPlace_writePlace_same _ _ hm)
    · rw [ih hcs hi _ (writePlace_wf _ _ hm), readPlace_writePlace_ne _ _ (hc i hi).symm]

/-- A store with no slot to fill commits: its bytes are written, and no hart but those that wait changes. -/
theorem commit_cells {p : Pending} (hf : p.fill = none) (c : Nat) (s : State) :
    (commit c p s).mem = (performCells p.cells s).mem ∧
      ∀ d h, (s.hartAt d h).run.wait = none → (commit c p s).hartAt d h = s.hartAt d h := by
  unfold commit
  rw [hf]
  dsimp only
  cases hc : p.cells with
  | nil => exact ⟨rfl, fun _ _ _ => rfl⟩
  | cons i cells =>
    simp only [List.isEmpty_cons, Bool.false_eq_true, if_false]
    have hclean : ∀ l (t : State), (cleanLines l t).mem = t.mem ∧ (cleanLines l t).cores = t.cores := fun l t => by
      unfold cleanLines
      split <;> exact ⟨rfl, rfl⟩
    refine ⟨(updateConst_mem _ _ _).trans (hclean _ _).1, fun d h hw => ?_⟩
    have e : (cleanLines p.cleans (performCells (i :: cells) s)).hartAt d h = s.hartAt d h := by
      rw [State.hartAt, State.core, (hclean _ _).2]
      exact wake_hartAt _ _ d h hw
    rw [(updateConst_walked _ _ _).harts d h (by rw [e]; exact hw), e]

/-- A head of the uncommitted stores that waits for nothing commits. -/
theorem commitAll_head {p : Pending} (hh : p.holes = []) (ha : p.after = 0) {c h : Nat} {s : State} {q : Pending} {t : State}
    (hq : retranslate c p s = (q, t)) (hg : q.again = false) (hr : q.refused t = false) :
    commitAll c h [p] s = ([], match q.amo with
      | none => commit c q t
      | some a => commitAtomic c h q a t) := by
  simp only [commitAll, hh, ha, hq, hg, hr, List.isEmpty_nil, BEq.rfl, Bool.and_self, if_true, Bool.or_self,
    Bool.false_eq_true, if_false] <;> rfl

theorem retranslate_again {p : Pending} (h : p.again = false) (c : Nat) (s : State) : retranslate c p s = (p, s) := by
  cases p
  cases h
  rfl

theorem refused_plain {p : Pending} (h : p.amo = none) (s : State) : p.refused s = false := by
  rw [Pending.refused, h]
  rfl

section
variable {s : State} {p : Pending} {rest : List Pending}

/-- The step of the oldest store when it commits, and waits for nothing. -/
theorem storeCommit_head (hx : (s.hartAt s.input.core.toNat s.input.hart.toNat).ms.stq = p :: rest)
    (ha : p.amo = none ∨ p.refused s = false) {l : List Pending} {t : State}
    (hc : commitAll s.input.core.toNat s.input.hart.toNat [p] s = (l, t)) :
    exec .storeElementCommit s =
      .next (sweep s.input.core.toNat (t.modHartAt s.input.core.toNat s.input.hart.toNat fun x => x.setStq (l ++ rest))) := by
  have hn : p.amo.filter (fun _ => p.holes.isEmpty && p.after == 0 && !p.again && p.refused s) = none := by
    rcases ha with h | h
    · rw [h]
      rfl
    · simp [h]
  rw [exec_storeElementCommit, execStoreElementCommit]
  dsimp only
  rw [hx]
  dsimp only
  rw [hn, hc]

/-- What the step leaves once that store has committed to `t`. -/
theorem storeCommit_leaves (hx : (s.hartAt s.input.core.toNat s.input.hart.toNat).ms.stq = p :: rest)
    (ha : p.amo = none ∨ p.refused s = false) {t : State}
    (hc : commitAll s.input.core.toNat s.input.hart.toNat [p] s = ([], t)) :
    ∃ u, exec .storeElementCommit s = .next u ∧ u.mem = t.mem ∧
      u.hartAt s.input.core.toNat s.input.hart.toNat =
        { (t.hartAt s.input.core.toNat s.input.hart.toNat).setStq rest with
          hole := (u.hartAt s.input.core.toNat s.input.hart.toNat).hole } ∧
      ∀ d, (u.core d).channels = (t.core d).channels := by
  have k := sweep_tidied s.input.core.toNat
    (t.modHartAt s.input.core.toNat s.input.hart.toNat fun x => x.setStq ([] ++ rest))
  refine ⟨_, storeCommit_head hx ha hc, k.mem, ?_, fun d => (k.channels d).trans ?_⟩
  · have e := k.hart s.input.core.toNat s.input.hart.toNat
    rwa [hartAt_modHartAt_same] at e
  · by_cases hd : d = s.input.core.toNat
    · rw [hd, State.modHartAt, State.setHartAt, core_setCore_same]
      rfl
    · rw [State.modHartAt, State.setHartAt, core_setCore_ne _ _ hd]

/-- A store of cells at places of their own. -/
theorem storeCommit_plain (hx : (s.hartAt s.input.core.toNat s.input.hart.toNat).ms.stq = p :: rest) (hh : p.holes = [])
    (hf : p.after = 0) (hg : p.again = false) (ha : p.amo = none) (hfill : p.fill = none)
    (hw : (s.hartAt s.input.core.toNat s.input.hart.toNat).run.wait = none) (hs : s.Sound)
    (hp : p.cells.Pairwise (fun i j => i.place ≠ j.place)) :
    ∃ t, exec .storeElementCommit s = .next t ∧
      t.hartAt s.input.core.toNat s.input.hart.toNat =
        { (s.hartAt s.input.core.toNat s.input.hart.toNat).setStq rest with
          hole := (t.hartAt s.input.core.toNat s.input.hart.toNat).hole } ∧
      (∀ i ∈ p.cells, readPlace t.mem i.place = (readPlace s.mem i.place &&& ~~~i.mask) ||| (i.data &&& i.mask)) ∧
      ∀ q, (∀ i ∈ p.cells, i.place ≠ q) → readPlace t.mem q = readPlace s.mem q := by
  have hc := commitAll_head hh hf (h := s.input.hart.toNat) (retranslate_again hg s.input.core.toNat s) hg (refused_plain ha s)
  rw [ha] at hc
  obtain ⟨hm, hk⟩ := commit_cells hfill s.input.core.toNat s
  obtain ⟨u, hu, um, ux, -⟩ := storeCommit_leaves hx (.inl ha) hc
  refine ⟨u, hu, ?_, fun i hi => ?_, fun q hq => ?_⟩
  · rw [hk _ _ hw] at ux
    exact ux
  · rw [um]
    exact (congrArg (readPlace · i.place) hm).trans (readPlace_performCells hs hp hi)
  · rw [um]
    exact (congrArg (readPlace · q) hm).trans (readPlace_performCells_ne _ _ hq)

/-- A store of one byte that was restored, where its address now translates to. -/
theorem storeCommit_restored (hx : (s.hartAt s.input.core.toNat s.input.hart.toNat).ms.stq = p :: rest) (hh : p.holes = [])
    (hf : p.after = 0) (ha : p.amo = none) (hfill : p.fill = none) {a : StoreAddr} {i : StoreCell} {q : Nat} {e : TlbEntry}
    {u : State} (hg : p.again = true) (hadr : p.addr = some a) (hi : p.cells = [i]) (hs : u.Sound)
    (ht : translate ⟨s.input.core.toNat, a.ptbase, a.asid, a.sup⟩ .write a.va 0 s = .ok (q, e) u) :
    ∃ t, exec .storeElementCommit s = .next t ∧ (t.hartAt s.input.core.toNat s.input.hart.toNat).ms.stq = rest ∧
      readPlace t.mem q = (readPlace u.mem q &&& ~~~i.mask) ||| (i.data &&& i.mask) ∧
      ∀ r, r ≠ q → readPlace t.mem r = readPlace u.mem r := by
  have hr : retranslate s.input.core.toNat p s =
      ({ p with again := false, pin := some (u.pin e), cells := [{ i with place := q }] }, u) := by
    unfold retranslate
    simp only [hg, hadr, if_true, ha, Option.isSome_none, Bool.false_eq_true, if_false, ht, hi, List.map_cons, List.map_nil,
      List.head?_cons, Option.map_some, Option.getD_some, Nat.sub_self, Nat.add_zero]
  have hc := commitAll_head hh hf (h := s.input.hart.toNat) hr rfl (refused_plain (by exact ha) u)
  dsimp only at hc
  rw [ha] at hc
  obtain ⟨hm, -⟩ := commit_cells (p := { p with again := false, pin := some (u.pin e), cells := [{ i with place := q }] })
    hfill s.input.core.toNat u
  obtain ⟨t, htt, tm, tx, -⟩ := storeCommit_leaves hx (.inl ha) hc
  refine ⟨t, htt, ?_, ?_, fun r hne => ?_⟩
  · rw [tx]
    rfl
  · rw [tm]
    exact (congrArg (readPlace · q) hm).trans
      (readPlace_performCells (i := { i with place := q }) hs (List.pairwise_singleton _ _) (List.mem_singleton_self _))
  · rw [tm]
    exact (congrArg (readPlace · r) hm).trans (readPlace_performCells_ne _ _ fun c hcm => by
      rw [List.mem_singleton.1 hcm]
      exact hne.symm)

/-- The fill of a slot. -/
theorem storeCommit_fill (hx : (s.hartAt s.input.core.toNat s.input.hart.toNat).ms.stq = p :: rest) (hh : p.holes = [])
    (hf : p.after = 0) (hg : p.again = false) (ha : p.amo = none) (hi : p.cells = []) {n slot : Nat} {ch : Channel}
    (hfill : p.fill = some (n, slot)) (hch : lookup (s.core s.input.core.toNat).channels n = some ch) :
    ∃ t, exec .storeElementCommit s = .next t ∧ (t.hartAt s.input.core.toNat s.input.hart.toNat).ms.stq = rest ∧
      t.mem = s.mem ∧ lookup (t.core s.input.core.toNat).channels n = some { ch with
        filled := ch.filled + 1, marks := slot :: ch.marks, resv := ch.resv.filter fun r => r.1 != slot } := by
  have hc := commitAll_head hh hf (h := s.input.hart.toNat) (retranslate_again hg s.input.core.toNat s) hg (refused_plain ha s)
  have hm : commit s.input.core.toNat p s = fillSlot s.input.core.toNat n slot s := by
    unfold commit
    rw [hfill, hi]
    rfl
  rw [ha] at hc
  dsimp only at hc
  rw [hm] at hc
  obtain ⟨t, htt, tm, tx, tc⟩ := storeCommit_leaves hx (.inl ha) hc
  refine ⟨t, htt, ?_, tm, ?_⟩
  · rw [tx]
    rfl
  · rw [tc, fillSlot, core_modCore_same, hch]
    exact lookup_insert_same _ _ _

/-- A head that waits for an entry or for an instruction of the VIQ stays. -/
theorem storeCommit_waits (hx : (s.hartAt s.input.core.toNat s.input.hart.toNat).ms.stq = p :: rest)
    (hb : p.holes ≠ [] ∨ 0 < p.after) : ∃ t, exec .storeElementCommit s = .next t ∧ t.mem = s.mem ∧
      (t.hartAt s.input.core.toNat s.input.hart.toNat).ms.stq = p :: rest := by
  have hn : (p.holes.isEmpty && p.after == 0) = false := by
    rcases hb with h | h
    · simp [h]
    · simp [Nat.ne_of_gt h]
  have hc : commitAll s.input.core.toNat s.input.hart.toNat [p] s = ([p], s) := by
    simp only [commitAll, hn, Bool.false_eq_true, if_false]
  have he : exec .storeElementCommit s = .next (sweep s.input.core.toNat
      (s.modHartAt s.input.core.toNat s.input.hart.toNat fun x => x.setStq (p :: rest))) := by
    have hz : p.amo.filter (fun _ => p.holes.isEmpty && p.after == 0 && !p.again && p.refused s) = none := by
      simp [hn]
    rw [exec_storeElementCommit, execStoreElementCommit]
    dsimp only
    rw [hx]
    dsimp only
    rw [hz, hc]
    rfl
  have k := sweep_tidied s.input.core.toNat
    (s.modHartAt s.input.core.toNat s.input.hart.toNat fun x => x.setStq (p :: rest))
  refine ⟨_, he, k.mem, ?_⟩
  rw [k.hart, hartAt_modHartAt_same]
  rfl

/-- An atomic operation commits: its eight bytes take its value, and x[d] the old one. -/
theorem commitAtomic_fields {a : Atomic} {i : StoreCell} {cells : List StoreCell} (hi : p.cells = i :: cells) {c h : Nat}
    (hw : (s.hartAt c h).run.wait = none) {old : Word} (ho : word (readNat s.mem i.place 8) = old) :
    (commitAtomic c h p a s).mem = (performNat i.place 8 (amoNew a.op old a.b a.c).toNat s).mem ∧
      (commitAtomic c h p a s).hartAt c h = (s.hartAt c h).setX a.d old := by
  have hplace : (p.cells.head?.map (·.place)).getD 0 = i.place := by
    rw [hi]
    rfl
  have hcommit := fun w => commit_cells (p := { cells := cellsOf i.place 8 w }) rfl c s
  rw [commitAtomic, hplace, ho]
  by_cases hq : a.acquires = true
  · simp only [hq, if_true]
    refine ⟨(hcommit _).1, ?_⟩
    rw [hartAt_modHartAt_same, hartAt_modCore _ _ _ _ (f := fun k => { k with ccache := [] }) fun _ => rfl, (hcommit _).2 _ _ hw]
  · simp only [hq, Bool.false_eq_true, if_false]
    refine ⟨(hcommit _).1, ?_⟩
    rw [hartAt_modHartAt_same, (hcommit _).2 _ _ hw]

theorem word_lt_bytes (w : Word) : w.toNat < 256 ^ 8 := w.isLt

/-- An atomic operation on the eight bytes at the place of its first cell. -/
theorem storeCommit_atomic (hx : (s.hartAt s.input.core.toNat s.input.hart.toNat).ms.stq = p :: rest) (hh : p.holes = [])
    (hf : p.after = 0) {a : Atomic} {i : StoreCell} {cells : List StoreCell} (hg : p.again = false) (ha : p.amo = some a)
    (hi : p.cells = i :: cells) (hp : ∀ j ∈ p.cells, poisoned j.place 1 s = false)
    (hw : (s.hartAt s.input.core.toNat s.input.hart.toNat).run.wait = none) (hs : s.Sound) :
    let old := BitVec.ofNat 64 (readNat s.mem i.place 8)
    ∃ t, exec .storeElementCommit s = .next t ∧
      t.hartAt s.input.core.toNat s.input.hart.toNat =
        { ((s.hartAt s.input.core.toNat s.input.hart.toNat).setX a.d old).setStq rest with
          hole := (t.hartAt s.input.core.toNat s.input.hart.toNat).hole } ∧
      readNat t.mem i.place 8 = (amoNew a.op old a.b a.c).toNat ∧
      ∀ q, q < i.place ∨ i.place + 8 ≤ q → readPlace t.mem q = readPlace s.mem q := by
  intro old
  have hr : p.refused s = false := by
    rw [Pending.refused, Bool.and_eq_false_iff]
    exact .inr (List.any_eq_false.2 fun j hj => by rw [hp j hj]; exact Bool.false_ne_true)
  have hc := commitAll_head hh hf (h := s.input.hart.toNat) (retranslate_again hg s.input.core.toNat s) hg hr
  rw [ha] at hc
  obtain ⟨u, hu, um, ux, -⟩ := storeCommit_leaves hx (.inr hr) hc
  have hA := commitAtomic_fields (a := a) hi hw (old := old) rfl
  obtain ⟨hb, he⟩ := performNat_reads hs i.place 8 (amoNew a.op old a.b a.c).toNat
  refine ⟨u, hu, ?_, ?_, fun q hq => ?_⟩
  · rw [hA.2] at ux
    exact ux
  · rw [um, hA.1]
    exact (readNat_of_bytes _ hb).trans (Nat.mod_eq_of_lt (word_lt_bytes _))
  · rw [um, hA.1]
    exact he q hq

end

end Sys2Proof.Machine

namespace Sys2Proof.Machine

/-! ### Elements of an image -/

theorem testBit_elemOf (v : VImage) (n e i : Nat) : (elemOf v n e).testBit i = (decide (i < n) && v.toNat.testBit (n * e + i)) := by
  rw [elemOf, Nat.testBit_mod_two_pow, Nat.testBit_div_two_pow, Nat.add_comm]

theorem setBits_mod (w lo n x : Nat) : setBits w lo n (x % 2 ^ n) = setBits w lo n x := by
  rw [setBits, setBits, Nat.mod_mod]

theorem testBit_putElem (v : VImage) (n e w i : Nat) : (putElem v n e w).toNat.testBit i =
    (decide (i < 16384) && if i < n * e then v.toNat.testBit i else
      if i < n * e + n then (w % 2 ^ n).testBit (i - n * e) else v.toNat.testBit i) := by
  rw [putElem, BitVec.testBit_toNat, BitVec.getLsbD_ofNat, ← setBits_mod,
    testBit_setBits _ (Nat.mod_lt _ (Nat.two_pow_pos n))]

/-- An element that lies in the register is read back. -/
theorem elemOf_putElem_same (v : VImage) {n e : Nat} (w : Nat) (h : n * (e + 1) ≤ 16384) :
    elemOf (putElem v n e w) n e = w % 2 ^ n := by
  refine Nat.eq_of_testBit_eq fun i => ?_
  rw [testBit_elemOf, testBit_putElem]
  by_cases hi : i < n
  · have h1 : n * e + i < 16384 := by
      rw [Nat.mul_add, Nat.mul_one] at h
      omega
    have h2 : ¬ n * e + i < n * e := by omega
    have h3 : n * e + i < n * e + n := by omega
    simp [hi, h1, h2, h3]
  · simp [hi, Nat.testBit_mod_two_pow]

/-- Another element stays. -/
theorem elemOf_putElem_ne (v : VImage) {n e j : Nat} (w : Nat) (h : j ≠ e) : elemOf (putElem v n e w) n j = elemOf v n j := by
  refine Nat.eq_of_testBit_eq fun i => ?_
  rw [testBit_elemOf, testBit_elemOf, testBit_putElem]
  by_cases hi : i < n
  · have out : n * j + i < n * e ∨ ¬ n * j + i < n * e + n := by
      rcases Nat.lt_or_gt_of_ne h with hj | hj
      · have := Nat.mul_le_mul_left n (Nat.succ_le_of_lt hj)
        rw [Nat.succ_eq_add_one, Nat.mul_add, Nat.mul_one] at this
        omega
      · have := Nat.mul_le_mul_left n (Nat.succ_le_of_lt hj)
        rw [Nat.succ_eq_add_one, Nat.mul_add, Nat.mul_one] at this
        omega
    have same : (decide (n * j + i < 16384) && v.toNat.testBit (n * j + i)) = v.toNat.testBit (n * j + i) := by
      by_cases hb : n * j + i < 16384
      · simp [hb]
      · rw [BitVec.testBit_toNat, BitVec.getLsbD_of_ge _ _ (by omega), Bool.and_false]
    rcases out with o | o
    · rw [if_pos o, same]
    · rw [if_neg (by omega), if_neg o, same]
  · simp [hi]

/-- An entry that owes all of its element fills it with its value. -/
theorem fillElem_all (v : VImage) {e : LEntry} (hl : e.live.toNat = 2 ^ e.width - 1) (hw : e.width ≤ 64) (val : Nat) :
    fillElem v e e.live val = putElem v e.width e.index.toNat val := by
  have hm : (2 ^ 64 - 1 - e.live.toNat) % 2 ^ e.width = 0 := by
    have hd : 2 ^ 64 - 1 - e.live.toNat = 2 ^ 64 - 2 ^ e.width := by
      rw [hl]
      have := Nat.two_pow_pos e.width
      omega
    rw [hd]
    exact Nat.mod_eq_zero_of_dvd (Nat.dvd_sub (Nat.pow_dvd_pow 2 hw) (Nat.dvd_refl _))
  have hv : ((elemOf v e.width e.index.toNat &&& (2 ^ 64 - 1 - e.live.toNat)) ||| (val &&& e.live.toNat)) % 2 ^ e.width =
      val % 2 ^ e.width := by
    rw [Nat.or_mod_two_pow, Nat.and_mod_two_pow, hm, Nat.and_zero, Nat.zero_or, hl, Nat.and_two_pow_sub_one_eq_mod, Nat.mod_mod]
  rw [fillElem, putElem, putElem, ← setBits_mod, hv, setBits_mod]

/-! ### A waiting entry that the replay pipe computes -/

theorem lookup_erase_distinct {α : Type} {m : AMap α} (h : m.Pairwise fun a b => a.1 ≠ b.1) (n : Nat) :
    lookup (erase m n) n = none := by
  induction m with
  | nil => rfl
  | cons e rest ih =>
    obtain ⟨j, v⟩ := e
    obtain ⟨hj, hr⟩ := List.pairwise_cons.1 h
    unfold erase
    split
    · rename_i he
      have hn : ∀ (m : AMap α), (∀ a ∈ m, j ≠ a.1) → lookup m n = none := by
        intro m
        induction m with
        | nil => exact fun _ => rfl
        | cons a as ih' =>
          intro hm
          unfold lookup
          rw [if_neg (by rw [← he]; exact (hm a List.mem_cons_self).symm)]
          exact ih' fun b hb => hm b (List.mem_cons_of_mem _ hb)
      exact hn rest hj
    · rename_i he
      unfold lookup
      rw [if_neg he]
      exact ih hr

/-- The x and k registers, the PC, the vector registers and FFLAGS of two harts are the same. -/
structure SameValues (h g : Hart) : Prop where
  x : g.x = h.x
  k : g.k = h.k
  pc : g.pc = h.pc
  v : g.vec.v = h.vec.v
  flags : g.fp.flags = h.fp.flags

theorem SameValues.trans {x y z : Hart} (a : SameValues x y) (b : SameValues y z) : SameValues x z :=
  ⟨b.x.trans a.x, b.k.trans a.k, b.pc.trans a.pc, b.v.trans a.v, b.flags.trans a.flags⟩

theorem SameValues.hole (x : Hart) (o) : SameValues x { x with hole := o } := ⟨rfl, rfl, rfl, rfl, rfl⟩

theorem Tidied.sameValues {s t : State} (k : Tidied s t) (c h : Nat) : SameValues (s.hartAt c h) (t.hartAt c h) := by
  rw [k.hart c h]
  exact .hole _ _

theorem Tidied.stq {s t : State} (k : Tidied s t) (c h : Nat) : (t.hartAt c h).ms.stq = (s.hartAt c h).ms.stq := by
  rw [k.hart c h]

/-- Commits of a hart without stores only tidy the Landing. -/
theorem drain_tidied {s : State} {c h : Nat} (hq : (s.hartAt c h).ms.stq = []) : Tidied s (drain c h s) := by
  unfold drain
  dsimp only
  split
  · exact .refl s
  · rw [hq, commitAll]
    refine Tidied.trans ?_ (sweep_tidied c _)
    refine .modCore s c (fun _ => (s.core c).setHart h _) ⟨fun i => ?_, rfl, fun _ hn => hn⟩
    by_cases hi : i = h
    · subst hi
      rw [hart_setHart_core]
      exact ⟨_, hart_setStq_self _ hq⟩
    · rw [hart_setHart_core_ne _ _ hi]
      exact (CoreTidied.refl _).harts i

theorem drainAll_tidied {s : State} {c : Nat} (hq : ∀ h, (s.hartAt c h).ms.stq = []) : Tidied s (drainAll c s) := by
  have fold : ∀ (l : List Nat) (t : State), Tidied s t → Tidied s (l.foldl (fun s h => drain c h s) t) := by
    intro l
    induction l with
    | nil => exact fun _ k => k
    | cons h rest ih => exact fun t k => ih _ (k.trans (drain_tidied (by rw [k.stq, hq])))
  exact (fold _ s (.refl s)).trans (sweep_tidied c _)

section
variable {s : State} {c n : Nat} {e : LEntry}

/-- The hart of a filled entry with its value. -/
def Hart.withFilled (x : Hart) (n : Nat) (e : LEntry) (val : Nat) : Hart :=
  let x := x.mapEntries fun v => { v with old := v.old.map fun o => o.take n e val }
  if e.live = 0 then x else x.setV e.reg.toNat (fillElem (x.getV e.reg.toNat) e e.live val)

/-- A store with the value of a filled entry. -/
def Pending.withFilled (n val : Nat) (p : Pending) : Pending :=
  { p with cells := (p.holes.filter fun q => q.entry == n).foldl (fun cs q => patchCells cs q val) p.cells
           holes := p.holes.filter fun q => q.entry != n }

/-- A dependant with the value of a filled entry. -/
def LEntry.withFilled (n val : Nat) (d : LEntry) : LEntry :=
  (d.links.filter fun l => l.entry == n).foldl (fun d l => d.take l val)
    { d with links := d.links.filter (fun l => l.entry != n), gather := d.gather.map fun r => r.take n val }

/-- A core without a filled entry, whose dependants have its value. -/
def Core.withFilled (k : Core) (n val : Nat) : Core :=
  { k.setEntries (mapValues (fun _ d => d.withFilled n val) (erase k.entries n)) with
    harts := mapValues (fun _ x => x.setStq (x.ms.stq.map (Pending.withFilled n val))) k.harts }

theorem completeEntry_eq (he : lookup (s.core c).land.entries n = some e) (val : Nat) : completeEntry c n val s =
    settlePoison c (((s.modHartAt c e.hart.toNat fun x => x.withFilled n e val).modCore c fun k => (k.withFilled n val).forget)) := by
  have h : s.entry? c n = some e := he
  unfold completeEntry
  rw [h]
  rfl

theorem hart_withFilled (k : Core) (n val h : Nat) : (k.withFilled n val).hart h =
    (k.hart h).setStq ((k.hart h).ms.stq.map (Pending.withFilled n val)) :=
  lookupD_mapValues (fun _ (x : Hart) => x.setStq (x.ms.stq.map (Pending.withFilled n val))) k.harts h Hart.reset rfl

/-- An entry of the Landing that owes all of its element becomes filled. -/
theorem completeEntry_filled (he : lookup (s.core c).land.entries n = some e)
    (hd : (s.core c).land.entries.Pairwise fun i j => i.1 ≠ j.1) (hq : ∀ h, (s.hartAt c h).ms.stq = [])
    (hl : e.live.toNat = 2 ^ e.width - 1) (h0 : 0 < e.width) (hw : e.width ≤ 64) (val : Nat) :
    let t := completeEntry c n val s
    let y := s.hartAt c e.hart.toNat
    lookup (t.core c).land.entries n = none ∧ t.mem = s.mem ∧ (∀ h, (t.hartAt c h).ms.stq = []) ∧
      SameValues (y.setV e.reg.toNat (putElem (y.getV e.reg.toNat) e.width e.index.toNat val)) (t.hartAt c e.hart.toNat) := by
  intro t y
  let u := s.modHartAt c e.hart.toNat fun x => x.withFilled n e val
  let v := u.modCore c fun k => k.withFilled n val
  have hv : u.modCore c (fun k => (k.withFilled n val).forget) = v.modCore c Core.forget := (modCore_modCore u c _ _).symm
  have k : Tidied v t := by
    rw [show t = _ from completeEntry_eq he val, hv]
    exact (Tidied.modCore v c _ (forget_tidied _)).trans (settlePoison_tidied c _)
  have hu : ∀ h, (u.hartAt c h).ms.stq = [] := fun h => by
    by_cases hh : h = e.hart.toNat
    · subst hh
      rw [hartAt_modHartAt_same]
      unfold Hart.withFilled
      split <;> exact hq _
    · rw [hartAt_modHartAt_ne _ _ (.inr hh)]
      exact hq h
  have hvh : ∀ h, v.hartAt c h = (u.hartAt c h).setStq ((u.hartAt c h).ms.stq.map (Pending.withFilled n val)) := fun h => by
    rw [State.hartAt, core_modCore_same]
    exact hart_withFilled _ _ _ _
  refine ⟨k.entries c n ?_, k.mem, fun h => ?_, ?_⟩
  · rw [core_modCore_same]
    have hue : (u.core c).land.entries = (s.core c).land.entries := entries_modHartAt s c _ _
    refine (lookup_mapValues (fun _ d => d.withFilled n val) (erase (u.core c).land.entries n) n).trans ?_
    rw [hue, lookup_erase_distinct hd]
    rfl
  · rw [k.stq, hvh, hu]
    rfl
  · refine SameValues.trans ?_ (k.sameValues c _)
    have hne : ¬ e.live = 0 := fun hz => by
      rw [hz] at hl
      have := Nat.one_lt_two_pow (Nat.ne_of_gt h0)
      have hz' : (0 : Word).toNat = 0 := rfl
      omega
    rw [hvh, hartAt_modHartAt_same, Hart.withFilled, if_neg hne, fillElem_all _ hl hw]
    exact ⟨rfl, rfl, rfl, rfl, rfl⟩

/-- What the replay pipe does with a waiting entry that it computes. -/
theorem replay_fills (hx : s.input.core.toNat = c) (hn : s.input.entry.toNat = n) (he : lookup (s.core c).land.entries n = some e)
    (hst : e.state = .waiting) (hli : e.links = []) (hga : e.gather = none) {r : Nat × Nat} (hr : replayValue e = some r)
    (hd : (s.core c).land.entries.Pairwise fun i j => i.1 ≠ j.1) (hq : ∀ h, (s.hartAt c h).ms.stq = [])
    (hl : e.live.toNat = 2 ^ e.width - 1) (h0 : 0 < e.width) (hw : e.width ≤ 64)
    (hi : e.width * (e.index.toNat + 1) ≤ 16384) :
    let y := s.hartAt c e.hart.toNat
    ∃ t, exec .replayComplete s = .next t ∧ lookup (t.core c).land.entries n = none ∧ t.mem = s.mem ∧
      let z := t.hartAt c e.hart.toNat
      z.fp.flags = y.fp.flags ||| BitVec.ofNat 5 r.2 ∧
      elemOf (z.getV e.reg.toNat) e.width e.index.toNat = r.1 % 2 ^ e.width ∧
      (∀ j, j ≠ e.index.toNat → elemOf (z.getV e.reg.toNat) e.width j = elemOf (y.getV e.reg.toNat) e.width j) ∧
      (∀ v, v ≠ e.reg.toNat → z.getV v = y.getV v) ∧ z.x = y.x ∧ z.k = y.k ∧ z.pc = y.pc := by
  intro y
  let u := orFlags c e.hart.toNat r.2 s
  have hue : (u.core c).land.entries = (s.core c).land.entries := entries_modHartAt s c _ _
  have huq : ∀ h, (u.hartAt c h).ms.stq = [] := fun h => by
    by_cases hh : h = e.hart.toNat
    · subst hh
      rw [show u.hartAt c _ = _ from hartAt_modHartAt_same s c _ _]
      exact hq _
    · rw [show u.hartAt c h = _ from hartAt_modHartAt_ne s _ (.inr hh)]
      exact hq h
  obtain ⟨ke, km, kq, kv⟩ := completeEntry_filled (s := u) (by rw [hue]; exact he) (by rw [hue]; exact hd) huq hl h0 hw r.1
  have k := drainAll_tidied kq
  have ks := kv.trans (k.sameValues c e.hart.toNat)
  rw [show u.hartAt c e.hart.toNat = _ from hartAt_modHartAt_same s c _ _] at ks
  have hv : ∀ v, ((drainAll c (completeEntry c n r.1 u)).hartAt c e.hart.toNat).getV v =
      (y.setV e.reg.toNat (putElem (y.getV e.reg.toNat) e.width e.index.toNat r.1)).getV v := fun v =>
    congrArg (lookupD · v 0) ks.v
  refine ⟨drainAll c (completeEntry c n r.1 u), ?_, k.entries c n ke, k.mem.trans km, ks.flags, ?_, fun j hj => ?_, fun v hne => ?_,
    ks.x, ks.k, ks.pc⟩
  · have h : s.entry? c n = some e := he
    rw [exec_replayComplete, execReplayComplete, hx, hn, h]
    dsimp only
    rw [hst, hli, hga, hr]
    rfl
  · rw [hv, getV_setV_same, elemOf_putElem_same _ _ hi]
  · rw [hv, getV_setV_same, elemOf_putElem_ne _ _ hj]
  · rw [hv, getV_setV_ne _ _ hne]

/-- An entry that is hard becomes ready for a ferry. -/
theorem replay_hard (hx : s.input.core.toNat = c) (hn : s.input.entry.toNat = n) (he : lookup (s.core c).land.entries n = some e)
    (hst : e.state = .waiting) (hli : e.links = []) (hga : e.gather = none) (hr : replayValue e = none) :
    exec .replayComplete s = .next (s.modCore c fun q =>
      { q with land := { q.land with entries := insert q.land.entries n { e with state := .ready } } }) := by
  have h : s.entry? c n = some e := he
  rw [exec_replayComplete, execReplayComplete, hx, hn]
  dsimp only
  rw [h]
  dsimp only
  rw [hst, hli, hga, hr]
  rfl

end

end Sys2Proof.Machine

namespace Sys2Proof.Machine

/-! ### A hart that waits -/

theorem readNat_lt (m : Memory) (p n : Nat) : readNat m p n < 256 ^ n := by
  induction n generalizing p with
  | zero => exact Nat.one_pos
  | succ n ih =>
    have h1 := (readPlace m p).isLt
    have h2 := ih (p + 1)
    rw [readNat, Nat.pow_succ]
    omega

theorem toNat_word_readNat (m : Memory) (p : Nat) : (word (readNat m p 8)).toNat = readNat m p 8 := by
  have := readNat_lt m p 8
  rw [word, BitVec.toNat_ofNat]
  omega

theorem word_readNat_eq_iff (m : Memory) (p : Nat) (v : Word) : word (readNat m p 8) = v ↔ readNat m p 8 = v.toNat :=
  ⟨fun h => (toNat_word_readNat m p).symm.trans (congrArg BitVec.toNat h),
    fun h => BitVec.eq_of_toNat_eq ((toNat_word_readNat m p).trans h)⟩

theorem countHere_plain {e : TlbEntry} (h : e.pte.getLsbD 8 = false) (t : State) : countHere e t = t := by
  rw [countHere, countHeat, h]
  rfl

/-- The read of a WAIT, of a hart with nothing in flight. -/
theorem waitRead_reads {t : State} {va value : Word} {p : Nat} {e : TlbEntry} (hq : t.hart.ms.stq = [])
    (hv : t.hart.vec.viq = []) (ht : translate t.ctx .read va 0 t = .ok (p, e) t) (ha : va.toNat % 8 = 0)
    (he : e.pte.getLsbD 8 = false) (hp : poisoned p 8 t = false) :
    waitRead va value t = if word (readNat t.mem p 8) ≠ value then
      .ok () (t.modHart fun y => { y.retire 4 with run := { (y.retire 4).run with wait := none } })
    else .wait 9 (t.modHart fun y => { y with run := { y.run with wait := some ⟨va, value, p, (t.core t.here).cycles, false⟩ } }) := by
  rw [waitRead, aligned_ok ha, bind_ok, gvHere, ht, bind_ok, awaitHere_clear hv hq, bind_ok, loadPlace_clean hp, bind_ok, countHere_plain he]
  simp only [retireHere, modHart_modHart]

section
variable {s : State} {w : Waiting}

/-- The turn of a hart that waits, when the line was stored to or the time has passed. -/
theorem wait_rereads {i : Instr}
    (hw : (s.hartAt s.input.core.toNat s.input.hart.toNat).run.wait = some w)
    (hi : i = .waitWakeup ∧ w.hit = true ∧ memoryOf w.place ≠ 2 ∧ memoryOf w.place ≠ 3 ∨
      i = .waitTimeout ∧ w.since + 4096 ≤ (s.core s.input.core.toNat).cycles) :
    exec i s = finish (waitRead w.va w.value (s.focus s.input.core.toNat s.input.hart.toNat)) := by
  have hw' : (s.focus s.input.core.toNat s.input.hart.toNat).hart.run.wait = some w := by
    rw [focus_hart]
    exact hw
  have hr : rereadWait (s.focus s.input.core.toNat s.input.hart.toNat) =
      finish (waitRead w.va w.value (s.focus s.input.core.toNat s.input.hart.toNat)) := by
    rw [rereadWait, hw']
  rcases hi with ⟨rfl, hh, h2, h3⟩ | ⟨rfl, hs⟩
  · rw [exec_waitWakeup, execWaitWakeup]
    rw [hw']
    exact (if_pos (by simp [hh, h2, h3])).trans hr
  · have hc : ((s.focus s.input.core.toNat s.input.hart.toNat).core (s.focus s.input.core.toNat s.input.hart.toNat).here).cycles =
        (s.core s.input.core.toNat).cycles := by
      have : (s.focus s.input.core.toNat s.input.hart.toNat).here = s.input.core.toNat := by simp [State.here, State.focus]
      rw [this]
      rfl
    rw [exec_waitTimeout, execWaitTimeout]
    rw [hw']
    exact (if_pos (by rw [hc]; exact hs)).trans hr

/-- A line of HM or PM wakes no one. -/
theorem waitWakeup_far (hw : (s.hartAt s.input.core.toNat s.input.hart.toNat).run.wait = some w)
    (hm : memoryOf w.place = 2 ∨ memoryOf w.place = 3) : exec .waitWakeup s = .next s := by
  have hw' : (s.focus s.input.core.toNat s.input.hart.toNat).hart.run.wait = some w := by
    rw [focus_hart]
    exact hw
  rw [exec_waitWakeup, execWaitWakeup]
  rw [hw']
  refine if_neg ?_
  rcases hm with h | h <;> simp [h]

end

end Sys2Proof.Machine

namespace Sys2Proof.Machine

/-! ### Page heat -/

/-- The count of a page in the table of a die. -/
def heatCount (c tenant : Nat) (e : TlbEntry) (t : State) : Nat :=
  (((lookupD (t.die (c / 24)).heat.sets (e.base / 4096 % 1024) []).find? fun q =>
    q.tenant == BitVec.ofNat 6 tenant && q.page == e.base && q.size == sizeIndex e.bits).map (·.count)).getD 0

/-- The set of a page with its count first. -/
def heatSet (c tenant : Nat) (e : TlbEntry) (n : Nat) (s : State) : List HeatEntry :=
  (⟨BitVec.ofNat 6 tenant, e.base, sizeIndex e.bits, n⟩ ::
    (lookupD (s.die (c / 24)).heat.sets (e.base / 4096 % 1024) []).filter fun q =>
      !(q.tenant == BitVec.ofNat 6 tenant && q.page == e.base && q.size == sizeIndex e.bits)).take 8

def withHeatSet (c tenant : Nat) (e : TlbEntry) (n : Nat) (s : State) : State :=
  s.modDie (c / 24) fun x => { x with heat := { x.heat with
    sets := insert x.heat.sets (e.base / 4096 % 1024) (heatSet c tenant e n s) } }

theorem heatCount_withHeatSet (c tenant : Nat) (e : TlbEntry) (n : Nat) (s : State) :
    heatCount c tenant e (withHeatSet c tenant e n s) = n := by
  rw [heatCount, withHeatSet, die_modDie_same, lookupD_insert_same, heatSet, List.take_succ_cons, List.find?_cons_of_pos (by simp)]
  rfl

theorem countHeat_counts {e : TlbEntry} (he : e.pte.getLsbD 8 = true) (c tenant : Nat) (s : State) :
    countHeat c tenant e s =
      if (s.die (c / 24)).heat.threshold.toNat ≤ heatCount c tenant e s + 1 then
        (withHeatSet c tenant e 0 s).push (.event .heatThreshold {
          die := BitVec.ofNat 2 (c / 24), tenant := BitVec.ofNat 6 tenant, page := BitVec.ofNat 48 e.base
          size := BitVec.ofNat 3 (sizeIndex e.bits), value := BitVec.ofNat 64 (heatCount c tenant e s + 1) })
      else withHeatSet c tenant e (heatCount c tenant e s + 1) s := by
  have hb : bits e.base 12 10 = e.base / 4096 % 1024 := rfl
  have hd : dieOf c = c / 24 := rfl
  unfold countHeat heatCount withHeatSet heatSet
  rw [he, hb, hd]
  dsimp only
  cases (lookupD (s.die (c / 24)).heat.sets (e.base / 4096 % 1024) []).find? fun q =>
      q.tenant == BitVec.ofNat 6 tenant && q.page == e.base && q.size == sizeIndex e.bits with
  | none => by_cases h : (s.die (c / 24)).heat.threshold.toNat ≤ 0 + 1 <;> simp [h, word]
  | some q => by_cases h : (s.die (c / 24)).heat.threshold.toNat ≤ q.count + 1 <;> simp [h, word]

end Sys2Proof.Machine

namespace Sys2Proof.Machine

/-! ### Notifications of page heat -/

/-- Where no channel is defined that NOTECH names, no notification is sent. -/
theorem sendHeat_none {d : Nat} {t : State}
    (h : lookup (t.core (24 * d + (t.die d).heat.core.toNat)).channels (t.die d).heat.ch.toNat = none ∨
      24 ≤ (t.die d).heat.core.toNat) : sendHeat d t = none := by
  unfold sendHeat
  dsimp only
  split
  · rfl
  · split
    · rfl
    · rename_i hn
      have hc := h.resolve_right hn
      rw [Nat.mul_comm] at hc
      unfold fillChannel
      rw [show Config.coresPerDie = 24 from rfl, hc]
      rfl

theorem sendAllHeat_none {d : Nat} {t : State} (h : sendHeat d t = none) : sendAllHeat d t = t := by
  have fold : ∀ l : List Nat, l.foldl (fun s _ => (sendHeat d s).getD s) t = t := by
    intro l
    induction l with
    | nil => rfl
    | cons n rest ih => rw [List.foldl_cons, h, Option.getD_none, ih]
  exact fold _

section
variable (s : State)

/-- The counts of a set with those of a page that have reached HEATTH reset. -/
def clearedHeat : List HeatEntry :=
  let y := (s.die s.input.die.toNat).heat
  (lookupD y.sets (s.input.page.toNat / 4096 % 1024) []).map fun e =>
    if e.tenant = s.input.tenant ∧ e.page = s.input.page.toNat ∧ e.size = s.input.size.toNat ∧ y.threshold.toNat ≤ e.count then
      { e with count := 0 }
    else e

/-- The state with that set. -/
def withClearedHeat : State :=
  s.modDie s.input.die.toNat fun x => { x with heat := { x.heat with
      sets := insert x.heat.sets (s.input.page.toNat / 4096 % 1024) (clearedHeat s) } }

/-- The notification of the input. -/
def heatNote : Heat :=
  ⟨BitVec.ofNat 64 (s.input.page.toNat / 16 * 16 + s.input.size.toNat),
    BitVec.ofNat 64 (s.input.tenant.toNat + s.input.value.toNat % 65536 * 65536)⟩

theorem heat_withCleared : ((withClearedHeat s).die s.input.die.toNat).heat =
    { (s.die s.input.die.toNat).heat with
      sets := insert (s.die s.input.die.toNat).heat.sets (s.input.page.toNat / 4096 % 1024) (clearedHeat s) } := by
  rw [withClearedHeat, die_modDie_same]

/-- The table of a die with a notification that waits, or that is dropped. -/
def HeatState.noted (note : Heat) (x : HeatState) : HeatState :=
  if x.waiting.length < 16 then { x with waiting := x.waiting ++ [note] }
  else { x with drops := BitVec.ofNat 16 (Nat.min (x.drops.toNat + 1) 0xFFFF) }

variable {s}

/-- A count that has reached HEATTH. -/
theorem heatThreshold_reached (hn : (s.die s.input.die.toNat).heat.threshold.toNat ≤ s.input.value.toNat) :
    exec .heatThreshold s =
      let t := withClearedHeat s
      let d := s.input.die.toNat
      if !(t.die d).heat.en then .next t
      else
        let u := sendAllHeat d t
        let x := (u.die d).heat.noted (heatNote s)
        let v := u.modDie d fun y => { y with heat := x }
        .next (if x.waiting.length = 1 then (sendHeat d v).getD v else v) := by
  have hl : ∀ e : HeatEntry, (e.tenant == s.input.tenant && e.page == s.input.page.toNat && e.size == s.input.size.toNat &&
      decide ((s.die s.input.die.toNat).heat.threshold.toNat ≤ e.count)) =
        decide (e.tenant = s.input.tenant ∧ e.page = s.input.page.toNat ∧ e.size = s.input.size.toNat ∧
          (s.die s.input.die.toNat).heat.threshold.toNat ≤ e.count) := fun e => by
    rw [Bool.eq_iff_iff]
    simp [and_assoc]
  rw [exec_heatThreshold, execHeatThreshold]
  dsimp only
  rw [if_neg (Nat.not_lt.2 hn)]
  have ht : (s.modDie s.input.die.toNat fun x => { x with heat := { x.heat with
      sets := insert x.heat.sets (bits s.input.page.toNat 12 10) ((lookupD x.heat.sets (bits s.input.page.toNat 12 10) []).map fun e =>
        if e.tenant == s.input.tenant && e.page == s.input.page.toNat && e.size == s.input.size.toNat &&
          decide (x.heat.threshold.toNat ≤ e.count) then { e with count := 0 } else e) } }) = withClearedHeat s := by
    unfold withClearedHeat clearedHeat State.modDie
    simp only [hl, decide_eq_true_eq]
    rfl
  rw [ht]
  rfl

theorem heatThreshold_silent (hn : (s.die s.input.die.toNat).heat.threshold.toNat ≤ s.input.value.toNat)
    (he : (s.die s.input.die.toNat).heat.en = false) : exec .heatThreshold s = .next (withClearedHeat s) := by
  rw [heatThreshold_reached hn]
  refine if_pos ?_
  rw [heat_withCleared, he]
  rfl

/-- With EN = 1 and no channel that takes it, the notification waits or is dropped. -/
theorem heatThreshold_noted (hn : (s.die s.input.die.toNat).heat.threshold.toNat ≤ s.input.value.toNat)
    (he : (s.die s.input.die.toNat).heat.en = true)
    (hc : lookup (s.core (24 * s.input.die.toNat + (s.die s.input.die.toNat).heat.core.toNat)).channels
        (s.die s.input.die.toNat).heat.ch.toNat = none ∨ 24 ≤ (s.die s.input.die.toNat).heat.core.toNat) :
    exec .heatThreshold s = .next ((withClearedHeat s).modDie s.input.die.toNat fun y =>
      { y with heat := ((withClearedHeat s).die s.input.die.toNat).heat.noted (heatNote s) }) := by
  have hs : sendAllHeat s.input.die.toNat (withClearedHeat s) = withClearedHeat s :=
    sendAllHeat_none (sendHeat_none (by rw [heat_withCleared]; exact hc))
  rw [heatThreshold_reached hn]
  dsimp only
  rw [if_neg (by rw [heat_withCleared, he]; exact Bool.false_ne_true), hs]
  split
  · have hv : sendHeat s.input.die.toNat ((withClearedHeat s).modDie s.input.die.toNat fun y =>
        { y with heat := ((withClearedHeat s).die s.input.die.toNat).heat.noted (heatNote s) }) = none := by
      refine sendHeat_none ?_
      rw [die_modDie_same, heat_withCleared]
      unfold HeatState.noted
      split <;> exact hc
    rw [hv]
    rfl
  · rfl

end

end Sys2Proof.Machine

namespace Sys2Proof.Machine

/-! ### A slot that takes a notification -/

theorem cellsOf_distinct (p n w : Nat) : (cellsOf p n w).Pairwise fun i j => i.place ≠ j.place := by
  unfold cellsOf indices
  rw [List.pairwise_map]
  exact List.nodup_range.imp fun {i j} (h : i ≠ j) => fun e => h (Nat.add_left_cancel e)

theorem slotCells_distinct (p n w0 w1 : Nat) : (slotCells p n w0 w1).Pairwise fun i j => i.place ≠ j.place := by
  unfold slotCells
  refine List.pairwise_append.2 ⟨List.pairwise_append.2 ⟨cellsOf_distinct _ _ _, cellsOf_distinct _ _ _, fun i hi j hj => ?_⟩,
    cellsOf_distinct _ _ _, fun i hi j hj => ?_⟩
  · have hi := cellsOf_place hi
    have hj := cellsOf_place hj
    omega
  · have hj := cellsOf_place hj
    rcases List.mem_append.1 hi with hi | hi <;> have hi := cellsOf_place hi <;> omega

/-- A cell that writes a whole byte. -/
theorem readPlace_performCells_byte {s : State} (hs : s.Sound) {cells : List StoreCell}
    (hp : cells.Pairwise fun i j => i.place ≠ j.place) {p : Nat} {b : Byte} (hi : (⟨p, b, 0xFF⟩ : StoreCell) ∈ cells) :
    readPlace (performCells cells s).mem p = b := by
  rw [readPlace_performCells hs hp hi, show (0xFF : Byte) = BitVec.allOnes 8 from rfl, BitVec.not_allOnes, BitVec.and_zero,
    BitVec.zero_or, BitVec.and_allOnes]

theorem mem_cellsOf {p n w i : Nat} (h : i < n) : (⟨p + i, BitVec.ofNat 8 (w / 256 ^ i), 0xFF⟩ : StoreCell) ∈ cellsOf p n w :=
  List.mem_map.2 ⟨i, List.mem_range.2 h, rfl⟩

/-- A slot holds two words and then zeros. -/
theorem slotCells_reads {s : State} (hs : s.Sound) {p n : Nat} (hn : 16 ≤ n) (w0 w1 : Word) :
    let m := (performCells (slotCells p n w0.toNat w1.toNat) s).mem
    readNat m p 8 = w0.toNat ∧ readNat m (p + 8) 8 = w1.toNat ∧ (∀ j, 16 ≤ j → j < n → readPlace m (p + j) = 0) ∧
      ∀ j, j < p ∨ p + n ≤ j → readPlace m j = readPlace s.mem j := by
  intro m
  have hd := slotCells_distinct p n w0.toNat w1.toNat
  have word8 : ∀ (q : Nat) (w : Word), (∀ i, i < 8 → readPlace m (q + i) = BitVec.ofNat 8 (w.toNat / 256 ^ i)) →
      readNat m q 8 = w.toNat := fun q w h => (readNat_of_bytes _ h).trans (Nat.mod_eq_of_lt (word_lt_bytes w))
  refine ⟨word8 p w0 fun i hi => ?_, word8 (p + 8) w1 fun i hi => ?_, fun j hj hjn => ?_, fun j hj => ?_⟩
  · exact readPlace_performCells_byte hs hd (List.mem_append_left _ (List.mem_append_left _ (mem_cellsOf hi)))
  · exact readPlace_performCells_byte hs hd (List.mem_append_left _ (List.mem_append_right _ (mem_cellsOf hi)))
  · have hc := mem_cellsOf (p := p + 16) (w := 0) (show j - 16 < n - 16 by omega)
    rw [show p + 16 + (j - 16) = p + j by omega, Nat.zero_div] at hc
    exact readPlace_performCells_byte hs hd (List.mem_append_right _ hc)
  · refine readPlace_performCells_ne _ _ fun c hc => ?_
    have hm : p ≤ c.place ∧ c.place < p + n := by
      rcases List.mem_append.1 hc with hc | hc
      · rcases List.mem_append.1 hc with hc | hc <;> have hc := cellsOf_place hc <;> omega
      · have hc := cellsOf_place hc
        omega
    omega

/-- A notification is sent: its slot of the channel is written and filled. -/
theorem sendHeat_sent {s : State} {d : Nat} {q : Heat} {rest : List Heat} {ch : Channel} {g : Group}
    (hq : (s.die d).heat.waiting = q :: rest) (hc : (s.die d).heat.core.toNat < 24)
    (hch : lookup (s.core (24 * d + (s.die d).heat.core.toNat)).channels (s.die d).heat.ch.toNat = some ch)
    (hg : lookup s.wharf.groups ch.group = some g) (hf : 0 < ch.free) (hs : s.Sound) :
    let y := (s.die d).heat
    let target := 24 * d + y.core.toNat
    let p := lsPlace target (g.lsBase + ch.base + ch.tail * 2 ^ (ch.sz + 6))
    ∃ t, sendHeat d s = some t ∧ (t.die d).heat = { y with waiting := rest } ∧
      lookup (t.core target).channels y.ch.toNat = some { ch with
        filled := ch.filled + 1, free := ch.free - 1, tail := (ch.tail + 1) % ch.nslot, marks := ch.tail :: ch.marks
        resv := ch.resv.filter fun r => r.1 != ch.tail } ∧
      readNat t.mem p 8 = q.word0.toNat ∧ readNat t.mem (p + 8) 8 = q.word1.toNat ∧
      (∀ j, 16 ≤ j → j < 64 → readPlace t.mem (p + j) = 0) ∧
      ∀ j, j < p ∨ p + 64 ≤ j → readPlace t.mem j = readPlace s.mem j := by
  intro y target p
  let n := y.ch.toNat
  let u := reserveSlot target n none s
  let v := performCells (slotCells p 64 q.word0.toNat q.word1.toNat) u
  have hfill : fillChannel (d * Config.coresPerDie + y.core.toNat) n false q.word0.toNat q.word1.toNat s =
      some (fillSlot target n ch.tail v) := by
    have hg' : s.group? ch.group = some g := hg
    have ht : d * Config.coresPerDie + y.core.toNat = target := congrArg (· + y.core.toNat) (Nat.mul_comm d 24)
    unfold fillChannel
    rw [ht, show lookup (s.core target).channels n = some ch from hch]
    dsimp only
    rw [hg']
    dsimp only
    rw [if_neg (Nat.ne_of_gt hf), slotBase, ← Nat.add_assoc]
    rfl
  have hu : lookup (u.core target).channels n =
      some { ch with free := ch.free - 1, tail := (ch.tail + 1) % ch.nslot } := by
    have hch' : lookup (s.core target).channels n = some ch := hch
    show lookup ((reserveSlot target n none s).core target).channels n = _
    unfold reserveSlot
    rw [core_modCore_same, hch']
    exact lookup_insert_same _ _ _
  have hv : lookup (v.core target).channels n = some { ch with free := ch.free - 1, tail := (ch.tail + 1) % ch.nslot } := by
    have e : (v.core target).channels = (u.core target).channels := by
      show ((wake _ _).core target).channels = _
      rw [wake_core]
      rfl
    rw [e, hu]
  obtain ⟨h0, h1, hz, ho⟩ := slotCells_reads (s := u) (p := p) (n := 64) hs (by decide) q.word0 q.word1
  refine ⟨(fillSlot target n ch.tail v).modDie d fun x => { x with heat := { x.heat with waiting := rest } }, ?_, ?_, ?_, h0, h1, hz, ho⟩
  · unfold sendHeat
    dsimp only
    rw [hq]
    dsimp only
    rw [if_neg (Nat.not_le.2 hc), hfill]
    rfl
  · rw [die_modDie_same]
    rfl
  · rw [modDie_core, fillSlot, core_modCore_same, hv]
    exact lookup_insert_same _ _ _

/-- The count of dropped notifications stays at its limit. -/
theorem drops_counted (w : BitVec 16) :
    BitVec.ofNat 16 (Nat.min (w.toNat + 1) 0xFFFF) = if w = 0xFFFF then w else w + 1 := by
  have hw := w.isLt
  split
  · rename_i h
    rw [h]
    rfl
  · rename_i h
    have hne : w.toNat ≠ 0xFFFF := fun e => h (BitVec.eq_of_toNat_eq e)
    rw [show Nat.min (w.toNat + 1) 0xFFFF = w.toNat + 1 from Nat.min_eq_left (by omega)]
    apply BitVec.eq_of_toNat_eq
    simp

/-- Settles O49: each agent by the lemma that says what its turn does: a prefetch (`targetPrefetch_done`), the oldest store
(`storeCommit_plain`, `storeCommit_restored`, `storeCommit_atomic`, `storeCommit_fill`, `storeCommit_waits`), the replay pipe
(`replay_fills`, `replay_hard`), a WAIT (`wait_rereads`, `waitRead_reads`), and page heat (`countHeat_counts`,
`heatThreshold_noted`, `sendHeat_sent`). -/
theorem agentAndHeatResults : Obligations.AgentAndHeatResults := by
  unfold Obligations.AgentAndHeatResults
  refine ⟨fun s => ⟨?prefetch, ?commit, ?waits, ?replay, ?reread, ?far⟩, fun s => ⟨?count, ?threshold, ?send⟩⟩
  case prefetch => exact targetPrefetch_done s
  case commit =>
    refine fun p rest hx hh hf => ⟨fun hg ha hfill hw hs hp => ?_, fun a i q e u hg ha hfill hadr hi hs ht => ?_,
      fun a i cells hg ha hi hp hw hs row hrow => ?_, fun n slot ch hg ha hi hfill hch => ?_⟩
    · exact storeCommit_plain hx hh hf hg ha hfill hw hs hp
    · exact storeCommit_restored hx hh hf ha hfill hg hadr hi hs ht
    · have hnew : amoNew a.op = row.2 := by
        rw [← atomicIndex_of_get hrow]
        exact (atomicRows_atomic 0 0 0 0 row (List.mem_of_getElem? hrow)).2
      rw [← hnew]
      exact storeCommit_atomic hx hh hf hg ha hi hp hw hs
    · exact storeCommit_fill hx hh hf hg ha hi hfill hch
  case waits => exact fun p rest hx hb => storeCommit_waits hx hb
  case replay =>
    refine fun e he hst hli hga => ⟨fun ht hd hq hl h0 hw hi => ?_, fun ht hc hsc hez => ?_⟩
    · refine replay_fills rfl rfl he hst hli hga (if_neg ?_) hd hq hl h0 hw hi
      rcases ht with h | h <;> simp [h]
    · refine replay_hard rfl rfl he hst hli hga ?_
      unfold replayValue
      have hc' : (e.cls != 63) = true := bne_iff_ne.2 hc
      simp only [ht, hc', hsc, hez, Bool.and_self, if_true, Bool.false_eq_true, if_false]
  case reread =>
    intro w p e i hw hq hv t ht ha he hp hi
    have hx : t.hart = s.hartAt s.input.core.toNat s.input.hart.toNat := focus_hart _ _ s
    have hc : t.here = s.input.core.toNat := by simp [t, State.here, State.focus]
    have hr := waitRead_reads (value := w.value) (by rw [hx]; exact hq) (by rw [hx]; exact hv) ht ha he hp
    rw [wait_rereads hw hi, hr]
    refine ⟨fun hne => ?_, fun heq => ?_⟩
    · have hne' : word (readNat t.mem p 8) ≠ w.value := fun h => hne ((word_readNat_eq_iff _ _ _).1 h)
      rw [if_pos hne']
      rfl
    · have heq' : word (readNat t.mem p 8) = w.value := (word_readNat_eq_iff _ _ _).2 heq
      rw [if_neg (not_not.2 heq'), finish_wait, stall, modHart_modHart, hc]
      rfl
  case far => exact fun w hw hm => waitWakeup_far hw hm
  case count =>
    intro c tenant e he
    have hcount := countHeat_counts he c tenant s
    refine ⟨?_, ?_, fun hlt => ?_, fun hle => ?_⟩
    · rw [hcount]
      split <;> rfl
    · rw [hcount]
      split <;> rfl
    · have hlt' : ¬ (s.die (c / 24)).heat.threshold.toNat ≤ heatCount c tenant e s + 1 := Nat.not_le.2 hlt
      rw [hcount, if_neg hlt']
      exact ⟨heatCount_withHeatSet c tenant e _ s, rfl⟩
    · have hle' : (s.die (c / 24)).heat.threshold.toNat ≤ heatCount c tenant e s + 1 := hle
      rw [hcount, if_pos hle']
      exact ⟨heatCount_withHeatSet c tenant e 0 s, rfl⟩
  case threshold =>
    refine fun hn => ⟨fun he => ?_, fun he hc hl => ?_, fun he hc hl => ?_⟩
    · exact ⟨_, heatThreshold_silent hn he, heat_withCleared s, rfl, rfl⟩
    · refine ⟨_, heatThreshold_noted hn he hc, rfl, rfl, ?_⟩
      rw [die_modDie_same, heat_withCleared]
      exact if_pos hl
    · refine ⟨_, heatThreshold_noted hn he hc, rfl, rfl, ?_⟩
      rw [die_modDie_same, heat_withCleared]
      refine (if_neg (Nat.not_lt.2 hl)).trans ?_
      rw [drops_counted]
      rfl
  case send =>
    intro q rest ch g hq hc hch hg hf hs
    obtain ⟨t, ht, k⟩ := sendHeat_sent hq hc hch hg hf hs
    refine ⟨t, ?_, k⟩
    rw [exec_heatNotificationSend, execHeatNotificationSend, ht]
    rfl

end Sys2Proof.Machine

namespace Sys2Proof.Machine

/-! ## Vector loads and stores (R79, R80, R120, R140, R144, R230, R248, R291 to R293, R302) -/

/-! ### A vector instruction with the pages that it holds -/

/-- The vector memory instructions. -/
inductive MemoryRow : Instr → Prop
  | vld (r : VReg) (a : XReg) (m : MReg) (o : BitVec 2) : MemoryRow (.vld r a m o)
  | vlds (r : VReg) (a b : XReg) (m : MReg) (o : BitVec 2) : MemoryRow (.vlds r a b m o)
  | vldx (r : VReg) (a : XReg) (b : VReg) (m : MReg) (o : BitVec 2) : MemoryRow (.vldx r a b m o)
  | vst (r : VReg) (a : XReg) (m : MReg) (o : BitVec 2) : MemoryRow (.vst r a m o)
  | vsts (r : VReg) (a b : XReg) (m : MReg) (o : BitVec 2) : MemoryRow (.vsts r a b m o)
  | vstx (r : VReg) (a : XReg) (b : VReg) (m : MReg) (o : BitVec 2) : MemoryRow (.vstx r a b m o)

/-- The state right before the only vector instruction of a hart executes, as entry `w`. -/
def dispatchedWith (s : State) (i : Instr) (w : VEntry) : State :=
  (s.modCore s.here fun k => { k with land := { k.land with seq := k.land.seq + 1 } }).modHart fun _ => behind s i [w]

/-- The entry of an instruction with the pages that it pinned at dispatch. -/
def heldEntry (s : State) (i : Instr) : VEntry := { (pinnedEntry s i).1 with seq := some (s.core s.here).land.seq }

section
variable {s : State} {i : Instr}

theorem memoryRow_viqRow (h : MemoryRow i) : viqRow i = true := by
  cases h <;> rfl

theorem memoryRow_crew (h : MemoryRow i) (t : State) : noteCrew i t = t := by
  cases h <;> rfl

theorem memoryRow_length (h : MemoryRow i) : i.length = 4 := by
  cases h <;> rfl

theorem memoryRow_ric (h : MemoryRow i) (x : Hart) (t f : Word) : consumesRic x i t f = false := by
  cases h <;> rfl

theorem memoryRow_notLoop (h : MemoryRow i) (a n) : i ≠ .loop a n := by
  cases h <;> nofun

/-- A memory instruction is counted towards the samples of its core. -/
theorem memoryRow_stride (h : MemoryRow i) {v : VEntry} (hv : v.instr = i) : ∃ k, strideClass v = some k := by
  unfold strideClass
  rw [hv]
  cases h <;> exact ⟨_, rfl⟩

theorem hart_dispatchedWith (s : State) (i : Instr) (w : VEntry) :
    (dispatchedWith s i w).hartAt s.here s.me = behind s i [w] := hart_modHart _ _

theorem entries_dispatchedWith (h : VectorReady s) (i : Instr) (w : VEntry) :
    ((dispatchedWith s i w).core s.here).land.entries = [] := by
  unfold dispatchedWith State.modHart State.setHart State.setHartAt
  simp only [modCore_here, core_setCore_same, Core.setHart, core_modCore_same]
  exact h.landing

theorem others_dispatchedWith (s : State) (i : Instr) (w : VEntry) (c n : Nat) (hn : c ≠ s.here ∨ n ≠ s.me) :
    (dispatchedWith s i w).hartAt c n = s.hartAt c n := by
  unfold dispatchedWith
  rw [hartAt_modHart_ne _ _ (by simpa using hn)]
  exact hartAt_modCore _ _ _ _ fun _ => rfl

theorem core_dispatchedWith (s : State) (i : Instr) (w : VEntry) (c : Nat) : { (dispatchedWith s i w).core c with harts := [] } =
    { s.core c with
      harts := []
      land := { (s.core c).land with seq := if c = s.here then (s.core c).land.seq + 1 else (s.core c).land.seq } } := by
  unfold dispatchedWith State.modHart State.setHart State.setHartAt
  by_cases hc : c = s.here
  · subst hc
    simp [core_setCore_same, Core.setHart]
  · simp only [modCore_here]
    rw [core_setCore_ne _ _ hc, core_modCore_ne _ _ hc]
    simp [hc]

/-- The entry that the front dispatches is fresh. -/
theorem pinnedEntry_fresh (s : State) (i : Instr) : (pinnedEntry s i).1.instr = i ∧ (pinnedEntry s i).1.seq = none ∧
    (pinnedEntry s i).1.start = 0 ∧ (pinnedEntry s i).1.flags = 0 ∧ (pinnedEntry s i).1.old = none ∧
    (pinnedEntry s i).1.limit = none ∧ (pinnedEntry s i).1.strips = [] := by
  obtain ⟨pins, hp⟩ : ∃ l, (pinnedEntry s i).1 = { bareEntry s i with pins := l } := ⟨_, rfl⟩
  have f := captureFor_fresh s i
  rw [hp]
  exact ⟨f.instr, f.seq, f.start, f.flags, f.old, f.limit, rfl⟩

/-- A memory instruction of a hart with nothing in flight, whose pages are in the TLB, executes at once. -/
theorem issueVector_memory (h : VectorReady s) (hi : MemoryRow i) (hp : (pinnedEntry s i).2 = s) :
    issueVector i s = match attempt s.here s.me (heldEntry s i) (dispatchedWith s i (heldEntry s i)) with
      | .ok (.done f) t => .next (sweep s.here (sampleVector s.here s.me (heldEntry s i) (dispatchedWith s i (heldEntry s i))
          (drain s.here s.me ((orFlags s.here s.me f (dropHead s.here s.me t)).modHartAt s.here s.me Hart.count))))
      | .ok (.part w _) t => .next (sweep s.here (setHead s.here s.me { w with limit := none } t))
      | .wait _ t => .next t
      | .exc e k t => .next (trapVector s.here s.me e (setHead s.here s.me ((heldEntry s i).stopAt k) t))
      | .contained e t => .next (contain e s.here s.me (heldEntry s i).pc t)
      | .stop f => .fault f := by
  obtain ⟨hinstr, hseq, -, -, -, hlimit, hstrips⟩ := pinnedEntry_fresh s i
  have hroom : s.hart.viqRoom = true := by
    unfold Hart.viqRoom
    rw [h.viq]
    split <;> decide
  have hres : s.hart.reserved < 16 := by simp [Hart.reserved, h.viq, h.held]
  let y := s.hart.queued i (pinnedEntry s i).1
  have hq : queuedState s i = s.setHart y := by rw [queuedState, hp]
  have hy : y = behind s i [(pinnedEntry s i).1] := by
    simp only [y, Hart.queued, behind, Hart.front, h.viq, List.nil_append, consumesHere, memoryRow_ric hi]
  have e0 : (s.setHart y).hartAt s.here s.me = y := hart_setHart s y
  have hviq : y.vec.viq = [(pinnedEntry s i).1] := by rw [hy]; rfl
  have hbp : ((s.setHart y).core s.here).dbg.breakpoints = [] := by
    unfold State.setHart State.setHartAt
    rw [core_setCore_same]
    exact h.breakpoints
  have hs0 : ((s.setHart y).core s.here).land.seq = (s.core s.here).land.seq := by
    unfold State.setHart State.setHartAt
    rw [core_setCore_same]
    rfl
  unfold issueVector
  rw [dispatchVector_queues h.user (h.toIdle.settled _ _) hroom h.streams hres, memoryRow_crew hi, hq]
  simp only [hart_setHart]
  rw [show y.vec.lag = false from h.lag, hviq]
  simp only [List.length_singleton, Nat.lt_irrefl, decide_false, Bool.or_false, Bool.false_eq_true, if_false,
    setHart_here, setHart_me]
  rw [stepVector_entry (v := (pinnedEntry s i).1) (rest := []) (by rw [e0, hviq]) hbp
    (fun a n he => memoryRow_notLoop hi a n (hinstr.symm.trans he))]
  have hst : setHead s.here s.me (heldEntry s i)
      ((s.setHart y).modCore s.here fun k => { k with land := { k.land with seq := k.land.seq + 1 } }) =
      dispatchedWith s i (heldEntry s i) := by
    rw [dispatchedWith, ← tag_dispatched s i y (heldEntry s i)]
    unfold setHead State.modHartAt
    congr 1
    have : ((s.setHart y).modCore s.here fun k => { k with land := { k.land with seq := k.land.seq + 1 } }).hartAt s.here s.me
        = y := by
      unfold State.hartAt
      rw [core_modCore_same]
      exact e0
    rw [this, hy]
    rfl
  exact stepEntry_fresh hseq (by rw [hs0]; rfl) hst hstrips hlimit

/-- The attempt at it is its execution. -/
theorem attempt_memory (h : VectorReady s) (i : Instr) {o : VOut} {t : State}
    (hx : vexec s.here s.me (heldEntry s i) (dispatchedWith s i (heldEntry s i)) = .ok o t) :
    attempt s.here s.me (heldEntry s i) (dispatchedWith s i (heldEntry s i)) = .ok o t := by
  obtain ⟨-, -, -, -, hold, -, hstrips⟩ := pinnedEntry_fresh s i
  have hrow : takeRow s.here s.me (heldEntry s i) (dispatchedWith s i (heldEntry s i)) =
      .ok () (dispatchedWith s i (heldEntry s i)) := by
    unfold takeRow
    rw [if_pos]
    have e : oldRows ((dispatchedWith s i (heldEntry s i)).core s.here) s.me = 0 := by
      simp [oldRows, Core.entries, entries_dispatchedWith h i]
    simp [e, Config.spareRows]
  have hheld : ((dispatchedWith s i (heldEntry s i)).hartAt s.here s.me).vec.held = [] := by
    rw [hart_dispatchedWith]
    exact h.held
  have e : vexecFrom s.here s.me (heldEntry s i) (dispatchedWith s i (heldEntry s i)) = .ok o t := by
    unfold vexecFrom
    rw [show (heldEntry s i).old = none from hold]
    exact hx
  unfold attempt
  rw [awaitCrew_open hheld, bind_ok, hrow]
  simp only [bind_ok, show (heldEntry s i).strips.isEmpty = true by rw [show (heldEntry s i).strips = [] from hstrips]; rfl,
    if_true, e]

end

end Sys2Proof.Machine

namespace Sys2Proof.Machine

/-! ### The completion of a memory instruction -/

section
variable {s : State} {i : Instr}

/-- The hart behind the completion of the only instruction of its VIQ, which raises no flag. -/
def completed (x : Hart) : Hart :=
  let x := match x.vec.viq with
    | [] => x
    | _ :: rest => { x with vec := { x.vec with viq := rest } }.oneDone
  Hart.count { x with fp := { x.fp with flags := x.fp.flags ||| BitVec.ofNat 5 0 } }

theorem completed_behind (h : VectorReady s) (hi : MemoryRow i) {g : Hart → Hart} (hg : Commutes g)
    (hq : (g s.hart).ms.stq = []) (w : VEntry) : completed (g (behind s i [w])) = (g s.hart).afterVector 4 0 false := by
  have hs0 : g s.hart = (g s.hart).front s.hart.pc s.hart.fp s.hart.run [] := by
    have e := hg s.hart s.hart.pc s.hart.fp s.hart.run s.hart.vec.viq
    rw [h.viq] at e
    refine Eq.trans ?_ e
    congr 1
    rw [← h.viq]
    rfl
  have hc : consumesHere s i = false := memoryRow_ric hi _ _ _
  unfold behind
  rw [hg, hc, memoryRow_length hi]
  generalize g s.hart = y at hs0 hq
  simp only [completed, Hart.front, Hart.oneDone, hq, List.all_nil, if_true]
  rw [hs0]
  rfl

/-- A memory instruction that executes to `t`, without flags, completes and counts towards the next sample. -/
theorem memory_completes (h : VectorReady s) (hn : NoSample s) (hi : MemoryRow i) (hp : (pinnedEntry s i).2 = s)
    {g : Hart → Hart} (hg : Commutes g) (hq : (g s.hart).ms.stq = []) {t : State}
    (hx : vexec s.here s.me (heldEntry s i) (dispatchedWith s i (heldEntry s i)) = .ok (.done 0) t)
    (hh : t.curCore = s.curCore) (hm : t.curHart = s.curHart) (hl : (t.core s.here).land.entries = [])
    (hd : (t.core s.here).dbg = (s.core s.here).dbg) (ht : t.hart = g (behind s i [heldEntry s i])) :
    ∃ u, issueVector i s = .next (u.modCore s.here fun k => { k with dbg := { k.dbg with sampled := k.dbg.sampled + 1 } }) ∧
      OnlyHart ((g s.hart).afterVector 4 0 false) t u := by
  have hh' : t.here = s.here := congrArg BitVec.toNat hh
  have hm' : t.me = s.me := congrArg BitVec.toNat hm
  have hF : (orFlags s.here s.me 0 (dropHead s.here s.me t)).modHartAt s.here s.me Hart.count = t.modHart completed := by
    unfold orFlags dropHead
    simp only [modHartAt_modHartAt]
    rw [← hh', ← hm']
    rfl
  have o1 := OnlyHart.modHart t completed
  rw [ht, completed_behind h hi hg hq] at o1
  have hland : ((t.modHart completed).core (t.modHart completed).here).land.entries = [] := by
    rw [OnlyHart.landing o1, modHart_here, hh', hl]
  have o2 := drain_nothing (s := t.modHart completed) (by rw [o1.hart]; exact hq) hland
  rw [o1.hart, modHart_here, modHart_me, hh', hm'] at o2
  have o := o1.trans o2
  have hland' : ((drain s.here s.me (t.modHart completed)).core s.here).land.entries = [] := by
    rw [OnlyHart.landing o, hl]
  have hdbg : ((drain s.here s.me (t.modHart completed)).core s.here).dbg = (s.core s.here).dbg :=
    (congrArg Core.dbg (o.cores s.here)).trans hd
  refine ⟨drain s.here s.me (t.modHart completed), ?_, o⟩
  obtain ⟨k, hk⟩ := memoryRow_stride hi (v := heldEntry s i) (pinnedEntry_fresh s i).1
  rw [issueVector_memory h hi hp, attempt_memory h i hx]
  dsimp only
  rw [hF, sampleVector, hk]
  dsimp only
  rw [hdbg, if_pos (show (s.core s.here).dbg.sampled + 1 < 2 ^ (s.core s.here).dbg.sampleExp from hn)]
  refine congrArg Host.Outcome.next (sweep_empty ?_)
  rw [core_modCore_same]
  exact hland'

end

end Sys2Proof.Machine

namespace Sys2Proof.Machine

/-! ### The places of an access -/

/-- What a translation of the hart that executes in `s` reads is the same in `t`. -/
structure SamePlaces (s t : State) : Prop where
  tlb : (t.core s.here).tlb = (s.core s.here).tlb
  dies : t.dies = s.dies
  host : t.host = s.host
  wharf : t.wharf = s.wharf
  poison : t.poison = s.poison
  mem : t.mem = s.mem
  group : (t.hartAt s.here s.me).id = s.hart.id

theorem SamePlaces.refl (s : State) : SamePlaces s s := ⟨rfl, rfl, rfl, rfl, rfl, rfl, rfl⟩

theorem samePlaces_dispatchedWith (s : State) (i : Instr) (w : VEntry) : SamePlaces s (dispatchedWith s i w) where
  tlb := by
    have e := congrArg Core.tlb (core_dispatchedWith s i w s.here)
    exact e
  dies := rfl
  host := rfl
  wharf := rfl
  poison := rfl
  mem := rfl
  group := by
    rw [hart_dispatchedWith]
    rfl

/-- A check that stops at nothing has passed both of its tests. -/
theorem ok_of_ite_stop {P : Prop} [Decidable P] {f : Fault} {b : Res Unit} {s : State}
    (h : (if P then .stop f else b) = Res.ok () s) : ¬ P ∧ b = .ok () s := by
  split at h
  · exact nomatch h
  · exact ⟨‹_›, h⟩

theorem not_of_ite_contained {P : Prop} [Decidable P] {e : Contained} {b : Res Unit} {s u : State}
    (h : (if P then .contained e u else b) = Res.ok () s) : ¬ P := by
  intro hp
  rw [if_pos hp] at h
  exact nomatch h

/-- Whether a place can be reached depends on the links alone. -/
theorem reachable_same {c p : Nat} {s t : State} (hd : t.dies = s.dies) (hh : t.host = s.host)
    (h : reachable c p s = .ok () s) : reachable c p t = .ok () t := by
  have hl : ∀ d q, linkOff d q t = linkOff d q s := fun d q => by
    unfold linkOff State.die
    rw [hd]
  unfold reachable at h ⊢
  dsimp only at h ⊢
  rw [hh]
  simp only [hl]
  generalize memoryOf p = m at h ⊢
  split at h
  · rw [if_neg (ok_of_ite_stop h).1]
  · obtain ⟨h1, h2⟩ := ok_of_ite_stop h
    rw [if_neg h1, if_neg (not_of_ite_contained h2)]
  · obtain ⟨h1, h2⟩ := ok_of_ite_stop h
    rw [if_neg h1, if_neg (not_of_ite_contained h2)]
  · rfl

/-- A leaf that translates an address for the ASID of the hart. -/
structure Maps (s : State) (addr : Word) (leaf : TlbEntry) : Prop where
  mem : leaf ∈ (s.core s.here).tlb
  asid : leaf.asid = s.hart.ms.asid ∨ leaf.pte.getLsbD 13 = true
  base : addr.toNat / 2 ^ leaf.bits * 2 ^ leaf.bits = leaf.base

theorem tlbFind_some {l : List TlbEntry} {asid : BitVec 16} {va : Nat} {e : TlbEntry} (h : tlbFind l asid va = some e) :
    e ∈ l ∧ (e.asid = asid ∨ e.pte.getLsbD 13 = true) ∧ va / 2 ^ e.bits * 2 ^ e.bits = e.base := by
  have hp := List.find?_some h
  simp only [Bool.and_eq_true, Bool.or_eq_true, beq_iff_eq] at hp
  exact ⟨List.mem_of_find?_eq_some h, hp.1, hp.2⟩

/-- An address below 2^48 has no high bits. -/
theorem wbits_high {a : Word} (h : a.toNat < 2 ^ 48) : wbits a 48 16 = 0 := by
  rw [wbits, bits, Nat.div_eq_of_lt h, Nat.zero_mod]

section
variable {s t : State} {space : Nat} {k : Access} {addr : Word} {n p : Nat}

/-- A leaf of the TLB for an address of GV reaches its place, and its page is not counted. -/
theorem PlaceAt.leaf (h : PlaceAt space k addr n p s) (hsp : 2 ≤ space) {leaf : TlbEntry} (hl : Maps s addr leaf) :
    leafRefuses leaf.pte k s.hart.tr.sup = none ∧ (k.writes = true → leaf.pte.getLsbD 6 = true) ∧
    leaf.pte.getLsbD 8 = false ∧ p = paPlace (wbits leaf.pte 9 2) (physical leaf addr.toNat) :=
  (h.gv hsp).2.2.2 leaf hl.mem hl.asid hl.base

theorem PlaceAt.translate_reaches (h : PlaceAt space k addr n p s) (hsp : 2 ≤ space) (ht : SamePlaces s t) (elem : Nat) :
    ∃ leaf, Maps s addr leaf ∧ translate s.ctx k addr elem t = .ok (p, leaf) t := by
  obtain ⟨ha, hfind, hreach, -⟩ := h.gv hsp
  obtain ⟨e, he⟩ := Option.isSome_iff_exists.1 hfind
  obtain ⟨hmem, hasid, hbase⟩ := tlbFind_some he
  have hm : Maps s addr e := ⟨hmem, hasid, hbase⟩
  obtain ⟨hr, hd, -, hp⟩ := h.leaf hsp hm
  have hleaf : leafOf s.ctx k addr elem t = .ok e t := by
    unfold leafOf
    rw [if_neg (not_not.2 (wbits_high ha))]
    simp only [State.ctx, ht.tlb, he, hr]
    cases hw : k.writes
    · rfl
    · rw [hd hw]
      rfl
  refine ⟨e, hm, ?_⟩
  rw [translate, hleaf, bind_ok]
  simp only [← hp, State.ctx, reachable_same ht.dies ht.host hreach, bind_ok]

/-- The pages that an entry holds are of the TLB, for the ASID of the hart. -/
def HeldPages (s : State) (pins : List Pin) : Prop :=
  ∀ q ∈ pins, q.leaf ∈ (s.core s.here).tlb ∧ (q.leaf.asid = s.hart.ms.asid ∨ q.leaf.pte.getLsbD 13 = true)

/-- A translation that an entry holds reaches the same place. -/
theorem PlaceAt.translateHeld_reaches (h : PlaceAt space k addr n p s) (hsp : 2 ≤ space) (ht : SamePlaces s t)
    {pins : List Pin} (hp : HeldPages s pins) (elem : Nat) :
    ∃ leaf, Maps s addr leaf ∧ translateHeld pins s.ctx k addr elem t = .ok (p, leaf) t := by
  unfold translateHeld
  rw [if_pos (wbits_high (h.gv hsp).1)]
  split
  next q hq =>
    have hs := List.find?_some hq
    simp only [Pin.serves, Bool.and_eq_true, beq_iff_eq] at hs
    obtain ⟨hmem, hasid⟩ := hp q (List.mem_of_find?_eq_some hq)
    have hm : Maps s addr q.leaf := ⟨hmem, hasid, hs.1.1⟩
    refine ⟨q.leaf, hm, ?_⟩
    simp only [← (h.leaf hsp hm).2.2.2, State.ctx, reachable_same ht.dies ht.host (h.gv hsp).2.2.1, bind_ok]
  next => exact h.translate_reaches hsp ht elem

/-- The arena of a hart of the group that the hart executing in `s` has. -/
theorem SamePlaces.group? (ht : SamePlaces s t) : (match (t.hartAt s.here s.me).id.group with
    | none => none
    | some g => t.group? g) = s.myGroup := by
  rw [ht.group, State.myGroup]
  cases s.hart.id.group with
  | none => rfl
  | some g => exact congrArg (fun w : Wharf => lookup w.groups g) ht.wharf

/-- The arena of a group, base and size; none without a group (R141). -/
def arenaOf (g : Option Group) : Nat × Nat := ((g.map (·.lsBase)).getD 0, (g.map (·.size)).getD 0)

theorem arenaOf_mine (hu : isFerry s.me = false) : arenaOf s.myGroup = (s.arenaBase, s.arenaSize) := by
  rw [arenaOf, State.arenaBase, State.arenaSize, hu]
  cases s.myGroup <;> rfl

theorem placeFor_arena (ht : SamePlaces s t) (pins : List Pin) (cx : Ctx) (elem : Nat) :
    placeFor s.here s.me pins cx 0 k addr n elem t =
      (lsPlaceOf s.here (arenaOf s.myGroup).1 (arenaOf s.myGroup).2 addr n elem k.writes t).bind fun p t => .ok (p, none) t := by
  rw [← ht.group?, placeFor]
  cases (t.hartAt s.here s.me).id.group with
  | none => rfl
  | some g =>
    dsimp only
    cases t.group? g <;> rfl

theorem placeFor_crew (ht : SamePlaces s t) (pins : List Pin) (cx : Ctx) (elem : Nat) :
    placeFor s.here s.me pins cx 1 k addr n elem t =
      (clsPlaceOf s.myGroup addr n elem k.writes t).bind fun p t => .ok (p, none) t := by
  rw [← ht.group?]
  rfl

theorem placeFor_global (pins : List Pin) (cx : Ctx) (j elem : Nat) (c h : Nat) :
    placeFor c h pins cx (j + 2) k addr n elem t =
      (translateHeld pins cx k addr elem t).bind fun pe t => .ok (pe.1, some pe.2) t := rfl

/-- The place of an access, through the pages that an entry holds. -/
theorem PlaceAt.placeFor_reaches (h : PlaceAt space k addr n p s) (hu : isFerry s.me = false) (ht : SamePlaces s t)
    {pins : List Pin} (hp : HeldPages s pins) (elem : Nat) :
    ∃ o, placeFor s.here s.me pins s.ctx space k addr n elem t = .ok (p, o) t ∧ ∀ e ∈ o, e.pte.getLsbD 8 = false := by
  match space with
  | 0 =>
    obtain ⟨hb, hpl⟩ := h.ls rfl
    refine ⟨none, ?_, nofun⟩
    rw [placeFor_arena ht, arenaOf_mine hu, lsPlaceOf, if_pos hb, bind_ok, hpl]
  | 1 =>
    obtain ⟨g, i, y, hm, hy, hb, ha, hpl⟩ := h.cls rfl
    have hy' : t.gangMember g (addr.toNat / Config.lsSize) = some (i, y) := by
      rw [← hy, State.gangMember, State.gangMember]
      simp only [State.groupsOf, ht.wharf]
    refine ⟨none, ?_, nofun⟩
    rw [placeFor_crew ht, hm]
    simp only [clsPlaceOf, hy', ha]
    rw [if_pos ⟨hb, rfl⟩, bind_ok, hpl]
  | j + 2 =>
    obtain ⟨leaf, hl, he⟩ := h.translateHeld_reaches (Nat.le_add_left 2 j) ht hp elem
    refine ⟨some leaf, ?_, fun e he => ?_⟩
    · rw [placeFor_global, he, bind_ok]
    · cases he
      exact (h.leaf (Nat.le_add_left 2 j) hl).2.2.1

end

end Sys2Proof.Machine

namespace Sys2Proof.Machine

/-! ### The entry of a memory instruction, and the pages that its dispatch pins -/

section
variable {s t : State} {i : Instr}

theorem captureFor_fits (hf : s.hart.VlFits) (i : Instr) : captureFor s i = capture s i ((usesOf i).xs.map s.hart.getX) := by
  have hr := regrant_fits (capture_captured s i) hf
  unfold captureFor
  simp only [hr, ite_self]
  split <;> rfl

/-- What the front captures for a memory instruction of a hart whose VL fits, with the pages that it pinned. -/
def memoryEntry (s : State) (i : Instr) : VEntry :=
  { capture s i ((usesOf i).xs.map s.hart.getX) with pins := (pinnedEntry s i).1.pins, seq := some (s.core s.here).land.seq }

theorem heldEntry_eq (hf : s.hart.VlFits) (i : Instr) : heldEntry s i = memoryEntry s i := by
  show { bareEntry s i with pins := (pinnedEntry s i).1.pins, seq := some (s.core s.here).land.seq } = _
  rw [bareEntry, captureFor_fits hf]
  rfl

theorem asid_word (a : BitVec 16) : BitVec.ofNat 16 (word a.toNat).toNat = a := by
  rw [word_toNat, BitVec.toNat_setWidth, Nat.mod_eq_of_lt (a.isLt.trans (by decide)), BitVec.ofNat_toNat, BitVec.setWidth_eq]

theorem memoryEntry_ctx (s : State) (i : Instr) : (memoryEntry s i).ctx s.here = s.ctx :=
  congrArg (fun a => Ctx.mk s.here s.hart.ms.ptbase a s.hart.tr.sup) (asid_word s.hart.ms.asid)

/-- One address of `pinPages`. -/
def pinPage (cx : Ctx) (k : Access) (ps : List Pin × State) (va : Word) : List Pin × State :=
  if ps.1.any fun p => p.serves k cx.sup va.toNat then ps
  else
    match translate cx k va 0 ps.2 with
    | .ok (_, e) s => (ps.1 ++ [s.pin e], s)
    | _ => ps

theorem pinPages_eq (cx : Ctx) (k : Access) (l : List Word) (s : State) : pinPages cx k l s = l.foldl (pinPage cx k) ([], s) := rfl

/-- Addresses whose pages the TLB holds change nothing as they are pinned. -/
theorem pinPages_held {k : Access} {l : List Word} (hl : ∀ va ∈ l, ∃ n p, PlaceAt 2 k va n p s) :
    (pinPages s.ctx k l s).2 = s ∧ HeldPages s (pinPages s.ctx k l s).1 := by
  rw [pinPages_eq]
  have h0 : HeldPages s [] := nofun
  generalize ([] : List Pin) = acc at h0
  induction l generalizing acc with
  | nil => exact ⟨rfl, h0⟩
  | cons va l ih =>
    rw [List.foldl_cons]
    have hl' := fun x hx => hl x (List.mem_cons_of_mem va hx)
    obtain ⟨n, p, hp⟩ := hl va (List.mem_cons_self ..)
    obtain ⟨leaf, hm, ht⟩ := hp.translate_reaches (Nat.le_refl 2) (.refl s) 0
    unfold pinPage
    split
    · exact ih hl' acc h0
    · simp only [ht]
      refine ih hl' _ fun q hq => ?_
      rcases List.mem_append.1 hq with hq | hq
      · exact h0 q hq
      · rw [List.mem_singleton.1 hq]
        exact ⟨hm.mem, hm.asid⟩

/-- The places of the ranges of an access. -/
def Places (s : State) (i : Instr) (form : VAddr) (m : MReg) (k : Access) (l : List (Span × Nat)) : Prop :=
  l.map (·.1) = accessSpans s.hart (memoryEntry s i) form m.toNat ∧
    ∀ q ∈ l, SpanAt s.hart.vec.mspace.toNat k q.1.addr q.1.bytes q.2 s

/-- An address that the front translates is one of the ranges of the instruction, in GV. -/
theorem mem_dispatchSpans {x : Hart} {v : VEntry} (hs : v.strips = []) {q : Access × Word} (hq : q ∈ dispatchSpans x v) :
    ∃ form m k, ownAccess v.instr = some (form, m, k) ∧ v.mspace = 2 ∧ ∃ sp ∈ accessSpans x v form m.toNat, q = (k, sp.addr) := by
  unfold dispatchSpans pagedStrips at hq
  rw [hs, List.flatMap_nil, List.append_nil] at hq
  split at hq
  · exact nomatch hq
  · exact nomatch hq
  next form m k _ he =>
    split at hq
    · exact nomatch hq
    next hc =>
      obtain ⟨sp, hsp, rfl⟩ := List.mem_map.1 hq
      refine ⟨form, m, k, he, ?_, sp, hsp, rfl⟩
      by_contra hn
      exact hc (by rw [Bool.or_eq_true]; exact .inl (decide_eq_true hn))

theorem dispatchSpans_memory (hf : s.hart.VlFits) {form : VAddr} {m : MReg} {k : Access} (ho : ownAccess i = some (form, m, k))
    {l : List (Span × Nat)} (hl : Places s i form m k l) {q : Access × Word} (hq : q ∈ dispatchSpans s.hart (bareEntry s i)) :
    q.1 = k ∧ ∃ n p, PlaceAt 2 k q.2 n p s := by
  have hb : bareEntry s i = { capture s i ((usesOf i).xs.map s.hart.getX) with binds := [], strips := [] } := by
    rw [bareEntry, captureFor_fits hf]
  rw [hb] at hq
  obtain ⟨f, m', k', he, h2, sp, hsp, rfl⟩ := mem_dispatchSpans rfl hq
  cases ho.symm.trans he
  have h2 : s.hart.vec.mspace.toNat = 2 := h2
  have hsp : sp ∈ accessSpans s.hart (memoryEntry s i) form m.toNat := hsp
  rw [← hl.1] at hsp
  obtain ⟨q', hq', rfl⟩ := List.mem_map.1 hsp
  exact ⟨rfl, _, _, h2 ▸ (hl.2 q' hq').toPlaceAt⟩

/-- The dispatch of a memory instruction all whose ranges have a place changes nothing, and pins pages of the TLB. -/
theorem pinnedEntry_held (hf : s.hart.VlFits) {form : VAddr} {m : MReg} {k : Access} (ho : ownAccess i = some (form, m, k))
    {l : List (Span × Nat)} (hl : Places s i form m k l) :
    (pinnedEntry s i).2 = s ∧ HeldPages s (pinnedEntry s i).1.pins := by
  have hc : (bareEntry s i).ctx s.here = s.ctx := by
    rw [bareEntry, captureFor_fits hf]
    exact memoryEntry_ctx s i
  have hq : ∀ k', ∀ va ∈ ((dispatchSpans s.hart (bareEntry s i)).filter fun p => p.1 == k').map (·.2),
      ∃ n p, PlaceAt 2 k' va n p s := fun k' va hva => by
    obtain ⟨q, hq, rfl⟩ := List.mem_map.1 hva
    obtain ⟨hm, hk⟩ := List.mem_filter.1 hq
    obtain ⟨e, he⟩ := dispatchSpans_memory hf ho hl hm
    rw [← eq_of_beq hk, e]
    exact he
  obtain ⟨r2, r1⟩ := pinPages_held (hq .read)
  obtain ⟨w2, w1⟩ := pinPages_held (hq .write)
  unfold pinnedEntry pinAtDispatch pinAccesses
  dsimp only
  rw [hc, r2, w2]
  refine ⟨rfl, fun q h => ?_⟩
  rcases List.mem_append.1 h with h | h
  · exact r1 q h
  · exact w1 q h

/-! ### The places of its ranges, and what it reads there -/

/-- The ranges of an access all have their place, and no page of theirs is counted. -/
theorem mapEach_spanPlace (hu : isFerry s.me = false) (ht : SamePlaces s t) {v : VEntry} (hc : v.ctx s.here = s.ctx)
    (hp : HeldPages s v.holds) {space : Nat} {k : Access} {l : List (Span × Nat)}
    (hl : ∀ q ∈ l, SpanAt space k q.1.addr q.1.bytes q.2 s) :
    ∃ ps, mapEach (l.map (·.1)) (spanPlace s.here s.me v space k) t = .ok ps t ∧ ps.map (fun p => (p.1, p.2.1)) = l ∧
      ∀ p ∈ ps, ∀ e ∈ p.2.2, e.pte.getLsbD 8 = false := by
  induction l with
  | nil => exact ⟨[], rfl, rfl, nofun⟩
  | cons q l ih =>
    obtain ⟨ps, he, hm, hh⟩ := ih fun x hx => hl x (List.mem_cons_of_mem q hx)
    have hq := hl q (List.mem_cons_self ..)
    obtain ⟨o, ho, hoh⟩ := hq.placeFor_reaches hu ht hp q.1.elem
    refine ⟨(q.1, q.2, o) :: ps, ?_, by rw [List.map_cons, hm], fun p hpm => ?_⟩
    · have hs : spanPlace s.here s.me v space k q.1 t = .ok (q.1, q.2, o) t := by
        rw [spanPlace, if_neg (not_not.2 hq.aligned), placeIn, hc, ho]
        rfl
      rw [List.map_cons, mapEach, hs, bind_ok, he, bind_ok]
    · rcases List.mem_cons.1 hpm with rfl | hpm
      · exact hoh
      · exact hh p hpm

theorem awaitStores_none {c h : Nat} (hq : (t.hartAt c h).ms.stq = []) (det : Bool) (r : List (Nat × Nat)) :
    awaitStores c h det r t = .ok () t := by
  unfold awaitStores awaitThese Hart.olderStores
  simp [hq]

/-- What the ranges of an access hold. -/
theorem readPlaced_clean {c h : Nat} (hq : (t.hartAt c h).ms.stq = []) {v : VEntry} (ha : v.ahead = [])
    (ht : SamePlaces s t) {space : Nat} {ps : List Placed}
    (hl : ∀ p ∈ ps, SpanAt space .read p.1.addr p.1.bytes p.2.1 s) :
    readPlaced c h v ps t = .ok (ps.map fun p => (p.1, readNat s.mem p.2.1 p.1.bytes)) t := by
  rw [readPlaced, awaitStores_none hq, bind_ok]
  induction ps with
  | nil => rfl
  | cons p ps ih =>
    have hp : v.readAt c p.2.1 p.1.bytes t = .ok (readNat s.mem p.2.1 p.1.bytes) t := by
      have hcl : poisoned p.2.1 p.1.bytes t = false := by
        rw [poisoned, ht.poison]
        exact (hl p (List.mem_cons_self ..)).clean.resolve_left nofun
      rw [VEntry.readAt, ha, List.isEmpty_nil, if_pos rfl, loadPlace, hcl, if_neg Bool.false_ne_true, ht.mem]
    rw [mapEach, hp, bind_ok, bind_ok, ih fun x hx => hl x (List.mem_cons_of_mem p hx), bind_ok, List.map_cons]

theorem countHeat_off {c n : Nat} {e : TlbEntry} (h : e.pte.getLsbD 8 = false) : countHeat c n e t = t := by
  rw [countHeat, h]
  rfl

/-- The pages of an access, each once, are pages of it. -/
theorem distinctPages_all {P : TlbEntry → Prop} {l acc : List TlbEntry} (ha : ∀ e ∈ acc, P e) (hl : ∀ e ∈ l, P e) :
    ∀ e ∈ l.foldl (fun l e => if l.any (fun o => o.base == e.base) then l else l ++ [e]) acc, P e := by
  induction l generalizing acc with
  | nil => exact ha
  | cons e l ih =>
    rw [List.foldl_cons]
    refine ih ?_ fun x hx => hl x (List.mem_cons_of_mem e hx)
    split
    · exact ha
    · intro x hx
      rcases List.mem_append.1 hx with hx | hx
      · exact ha x hx
      · rw [List.mem_singleton.1 hx]
        exact hl e (List.mem_cons_self ..)

/-- Pages whose heat is not counted. -/
theorem countPlaced_off {c h : Nat} {ps : List Placed} (hp : ∀ p ∈ ps, ∀ e ∈ p.2.2, e.pte.getLsbD 8 = false) (t : State) :
    countPlaced c h ps t = t := by
  have hall : ∀ e ∈ ps.filterMap (fun p => p.2.2), e.pte.getLsbD 8 = false := fun e he => by
    obtain ⟨p, hm, hpe⟩ := List.mem_filterMap.1 he
    exact hp p hm e hpe
  have hfold : ∀ (l : List TlbEntry), (∀ e ∈ l, e.pte.getLsbD 8 = false) → ∀ n, l.foldl (fun s e => countHeat c n e s) t = t :=
    fun l => by
      induction l with
      | nil => exact fun _ _ => rfl
      | cons e l ih =>
        intro h n
        rw [List.foldl_cons, countHeat_off (h e (List.mem_cons_self ..))]
        exact ih (fun x hx => h x (List.mem_cons_of_mem e hx)) n
  unfold countPlaced countPages
  exact hfold _ (distinctPages_all (fun _ h => absurd h List.not_mem_nil) hall) _

end

end Sys2Proof.Machine

namespace Sys2Proof.Machine

/-! ### Vector loads -/

section
variable {s : State} {i : Instr}

/-- The state in which the only memory instruction of a hart executes. -/
def memoryState (s : State) (i : Instr) : State := dispatchedWith s i (memoryEntry s i)

/-- The addressing form that R291 numbers. -/
def formOf (vb : VReg) : Nat → VAddr
  | 0 => .unit
  | 1 => .strided
  | _ => .indexed vb

theorem samePlaces_memoryState (s : State) (i : Instr) : SamePlaces s (memoryState s i) := samePlaces_dispatchedWith s i _

theorem memoryState_hart (s : State) (i : Instr) : (memoryState s i).hartAt s.here s.me = behind s i [memoryEntry s i] :=
  hart_dispatchedWith s i _

theorem memoryState_entries (h : VectorReady s) (i : Instr) : ((memoryState s i).core s.here).land.entries = [] :=
  entries_dispatchedWith h i _

theorem memoryState_noOldRow (h : VectorReady s) (i : Instr) : NoOldRow ((memoryState s i).hartAt s.here s.me) := by
  rw [memoryState_hart]
  intro v hv
  simp only [Hart.allEntries, behind, Hart.front, h.held, h.loop, List.nil_append, List.append_nil, List.mem_singleton] at hv
  rw [hv]
  rfl

/-- An entry of a memory instruction whose ranges have places, and the pages that it holds. -/
theorem memoryEntry_places (hf : s.hart.VlFits) {form : VAddr} {m : MReg} {k : Access} (ho : ownAccess i = some (form, m, k))
    {l : List (Span × Nat)} (hl : Places s i form m k l) (hu : isFerry s.me = false) :
    ∃ ps, mapEach (accessSpans s.hart (memoryEntry s i) form m.toNat)
        (spanPlace s.here s.me (memoryEntry s i) (memoryEntry s i).mspace k) (memoryState s i) = .ok ps (memoryState s i) ∧
      ps.map (fun p => (p.1, p.2.1)) = l ∧ ∀ p ∈ ps, ∀ e ∈ p.2.2, e.pte.getLsbD 8 = false := by
  have hp : HeldPages s (memoryEntry s i).holds := fun q hq => by
    rw [VEntry.holds, show (memoryEntry s i).kept = [] from rfl, List.append_nil] at hq
    exact (pinnedEntry_held hf ho hl).2 q hq
  rw [← hl.1]
  exact mapEach_spanPlace hu (samePlaces_memoryState s i) (memoryEntry_ctx s i) hp hl.2

/-- A load reads its ranges, and goes on with what they hold. -/
theorem readSpans_done (h : VectorReady s) (hf : s.hart.VlFits) {form : VAddr} {m : MReg}
    (ho : ownAccess i = some (form, m, .read)) {l : List (Span × Nat)} (hl : Places s i form m .read l)
    {f : List (Span × Nat) → State → Res VOut} {n : Nat} {u : State}
    (hr : f (l.map fun q => (q.1, readNat s.mem q.2 q.1.bytes)) (memoryState s i) = .ok (.done n) u) :
    readSpans s.here s.me (memoryEntry s i) (accessSpans s.hart (memoryEntry s i) form m.toNat) f (memoryState s i) =
      .ok (.done n) u := by
  obtain ⟨ps, he, rfl, hh⟩ := memoryEntry_places hf ho hl h.user
  have hq : ((memoryState s i).hartAt s.here s.me).ms.stq = [] := by
    rw [memoryState_hart]
    exact h.stq
  have hread := readPlaced_clean (v := memoryEntry s i) hq rfl (samePlaces_memoryState s i)
    (space := s.hart.vec.mspace.toNat) (ps := ps) fun p hp => hl.2 (p.1, p.2.1) (List.mem_map.2 ⟨p, hp, rfl⟩)
  rw [List.map_map] at hr
  rw [readSpans, he, bind_ok, hread, bind_ok]
  refine (congrArg (Res.bind · _) hr).trans ?_
  rw [bind_ok, countPlaced_off hh, ite_self]
  rfl

/-- Elements that take the values loaded, with the scales of their blocks; there are none where VL is 0. -/
theorem applyResults_loads (h : VectorReady s) (i : Instr) {d : VReg} {n sty : Nat} {l scales : List (Nat × Nat)}
    (h0 : s.hart.vec.vl = 0 → l = [] ∧ scales = []) :
    ∃ u, applyResults s.here s.me (memoryEntry s i) d n ((memoryEntry s i).upwards (l.map fun p => Elem.value p.1 p.2)) sty scales
        (memoryState s i) = .ok (.done 0) u ∧
      OnlyHart (writeBlocks d.toNat n sty scales l (behind s i [memoryEntry s i])) (memoryState s i) u := by
  have hup : (memoryEntry s i).upwards (l.map fun p => Elem.value p.1 p.2) = vals (l.map fun p => (p.1, p.2, 0)) := by
    rw [← vals_writes, VEntry.upwards]
    exact List.filter_eq_self.2 fun e _ => decide_eq_true (Nat.zero_le _)
  rw [hup]
  by_cases hv : (memoryEntry s i).vl = 0
  · obtain ⟨rfl, rfl⟩ := h0 hv
    refine ⟨memoryState s i, by rw [applyResults, if_pos hv]; rfl, ?_⟩
    have e := OnlyHart.refl (memoryState s i)
    rw [show (memoryState s i).hart = _ from memoryState_hart s i] at e
    exact e
  · refine ⟨(memoryState s i).modHart (writeBlocks d.toNat n sty scales l), ?_, ?_⟩
    · rw [applyResults, if_neg hv, applyRow_blocks (memoryState_entries h i) (memoryState_noOldRow h i) (memoryEntry s i) rfl]
      simp only [List.foldl_map, Nat.or_zero, List.foldl_fixed, writesOf, List.map_map]
      exact congrArg (fun l => Res.ok (VOut.done 0) ((memoryState s i).modHart (writeBlocks d.toNat n sty scales l)))
        (List.map_id' l)
    · have e := OnlyHart.modHart (memoryState s i) (writeBlocks d.toNat n sty scales l)
      rw [show (memoryState s i).hart = _ from memoryState_hart s i] at e
      exact e

/-- An access row: its instruction with the form that its number names. -/
structure IsAccess (s : State) (a b : XReg) (vb : VReg) (m : MReg) (k : Access) (row : Instr × Nat) : Prop where
  memory : MemoryRow row.1
  own : ownAccess row.1 = some (formOf vb row.2, m, k)
  addrs : elementSpans s.hart (memoryEntry s row.1) (formOf vb row.2) m.toNat = (s.hart.active m).map fun e =>
    ⟨e, vectorAddrs s.hart a b vb (typeBits s.hart.ty / 8) row.2 e, typeBits s.hart.ty / 8⟩

theorem loads_access (s : State) (r vb : VReg) (a b : XReg) (m : MReg) (o : BitVec 2) :
    ∀ row ∈ [(Instr.vld r a m o, 0), (.vlds r a b m o, 1), (.vldx r a vb m o, 2)],
      IsAccess s a b vb m .read row ∧ ∀ t, vexec s.here s.me (memoryEntry s row.1) t =
        vectorLoad s.here s.me (memoryEntry s row.1) (formOf vb row.2) r m t := by
  intro row hrow
  simp only [List.mem_cons, List.not_mem_nil, or_false] at hrow
  rcases hrow with rfl | rfl | rfl
  · exact ⟨⟨.vld r a m o, rfl, rfl⟩, fun _ => rfl⟩
  · exact ⟨⟨.vlds r a b m o, rfl, rfl⟩, fun _ => rfl⟩
  · exact ⟨⟨.vldx r a vb m o, rfl, rfl⟩, fun _ => rfl⟩

/-- A vector load whose ranges hold values that change the registers by `g`, with the core's next sample. -/
theorem load_completes (h : VectorReady s) (hf : s.hart.VlFits) (hn : NoSample s) {a b : XReg} {vb : VReg} {m : MReg}
    {row : Instr × Nat} (hi : IsAccess s a b vb m .read row) {l : List (Span × Nat)}
    (hl : Places s row.1 (formOf vb row.2) m .read l) {d n sty : Nat} {scales vs : List (Nat × Nat)}
    (hx : ∃ u, vexec s.here s.me (memoryEntry s row.1) (memoryState s row.1) = .ok (.done 0) u ∧
      OnlyHart (writeBlocks d n sty scales vs (behind s row.1 [memoryEntry s row.1])) (memoryState s row.1) u) :
    ∃ t, exec row.1 s = .next (t.modCore s.here fun k => { k with dbg := { k.dbg with sampled := k.dbg.sampled + 1 } }) ∧
      OnlyVector ((writeBlocks d n sty scales vs s.hart).afterVector 4 0 false) s t := by
  obtain ⟨u, hu, o⟩ := hx
  have he := heldEntry_eq hf row.1
  rw [exec_viqRow (memoryRow_viqRow hi.memory)]
  have hq : (writeBlocks d n sty scales vs s.hart).ms.stq = [] := by
    rw [writeBlocks_ms]
    exact h.stq
  have hland := congrArg (fun k : Core => k.land.entries) (o.cores s.here)
  have hdbg := congrArg Core.dbg (o.cores s.here)
  have hsame := congrArg Core.dbg (core_dispatchedWith s row.1 (memoryEntry s row.1) s.here)
  obtain ⟨t, ht, ot⟩ := memory_completes h hn hi.memory (pinnedEntry_held hf hi.own hl).1
    (commutes_writeBlocks d n sty scales vs) hq (t := u) (by rw [he]; exact hu) o.here o.me
    (hland.trans (memoryState_entries h row.1)) (hdbg.trans hsame)
    (by rw [he]; exact o.hart)
  refine ⟨t, ht, ?_⟩
  have oo := o.trans ot
  exact {
    hart := oo.hart, here := oo.here, me := oo.me, mem := oo.mem, poison := oo.poison, dies := oo.dies, wharf := oo.wharf
    host := oo.host, agenda := oo.agenda
    others := fun c k hk => (oo.others c k hk).trans (others_dispatchedWith s row.1 _ c k hk)
    cores := fun c => (oo.cores c).trans (core_dispatchedWith s row.1 _ c) }

end

end Sys2Proof.Machine

namespace Sys2Proof.Machine

/-! ### What a vector load gives its register -/

section
variable {s : State} {row : Instr × Nat} {a b : XReg} {vb : VReg} {m : MReg} {k : Access}

theorem memoryEntry_scaled (s : State) (i : Instr) : (memoryEntry s i).scaled = s.hart.vec.vtype.getLsbD 4 := rfl

theorem requireIndices_empty {c : Nat} {t : State} (he : (t.core c).land.entries = []) (h : Nat) (v : VEntry) (form : VAddr) (m : Nat) :
    requireIndices c h v form m t = .ok () t := by
  cases form with
  | unit => rfl
  | strided => rfl
  | indexed b => exact requirePresent_empty he h _ _

theorem accessSpans_unscaled (hs : s.hart.vec.vtype.getLsbD 4 = false) (i : Instr) (form : VAddr) (m : Nat) :
    accessSpans s.hart (memoryEntry s i) form m = elementSpans s.hart (memoryEntry s i) form m := by
  rw [accessSpans, memoryEntry_scaled, hs, if_neg Bool.false_ne_true]

theorem memoryRefused_unscaled (hs : s.hart.vec.vtype.getLsbD 4 = false) (hty : s.hart.ty ≠ 10) (i : Instr) (form : VAddr) (m : Nat)
    (viq : List VEntry) : memoryRefused (behind s i viq) (memoryEntry s i) form m = false := by
  have hr : scaleRefused (behind s i viq) (memoryEntry s i) [(memoryEntry s i).ty] m = false :=
    scaleRefused_unscaled ((memoryEntry_scaled s i).trans hs) hty m
  cases form with
  | unit => exact hr
  | strided => exact hr
  | indexed b => exact Bool.or_eq_false_iff.2 ⟨hs, hr⟩

/-- The ranges and places of the active elements. -/
def elementPlaces (s : State) (a b : XReg) (vb : VReg) (m : MReg) (form : Nat) (p : Nat → Nat) : List (Span × Nat) :=
  (s.hart.active m).map fun e =>
    (⟨e, vectorAddrs s.hart a b vb (typeBits s.hart.ty / 8) form e, typeBits s.hart.ty / 8⟩, p e)

theorem elementPlaces_places (hi : IsAccess s a b vb m k row) (hs : s.hart.vec.vtype.getLsbD 4 = false) {p : Nat → Nat}
    (hp : ∀ e ∈ s.hart.active m, SpanAt s.hart.vec.mspace.toNat k (vectorAddrs s.hart a b vb (typeBits s.hart.ty / 8) row.2 e)
      (typeBits s.hart.ty / 8) (p e) s) :
    Places s row.1 (formOf vb row.2) m k (elementPlaces s a b vb m row.2 p) := by
  refine ⟨?_, fun q hq => ?_⟩
  · rw [accessSpans_unscaled hs, hi.addrs, elementPlaces, List.map_map]
    rfl
  · obtain ⟨e, he, rfl⟩ := List.mem_map.1 hq
    exact hp e he

/-- Each active element takes the bytes at its address. -/
theorem load_elements (h : VectorReady s) (hf : s.hart.VlFits) (hs : s.hart.vec.vtype.getLsbD 4 = false) (hty : s.hart.ty ≠ 10)
    {r : VReg} (hi : IsAccess s a b vb m .read row) (hx : ∀ t, vexec s.here s.me (memoryEntry s row.1) t =
      vectorLoad s.here s.me (memoryEntry s row.1) (formOf vb row.2) r m t) {p : Nat → Nat}
    (hl : Places s row.1 (formOf vb row.2) m .read (elementPlaces s a b vb m row.2 p)) :
    ∃ u, vexec s.here s.me (memoryEntry s row.1) (memoryState s row.1) = .ok (.done 0) u ∧
      OnlyHart (writeBlocks r.toNat (typeBits s.hart.ty) s.hart.ty [] ((s.hart.active m).map fun e =>
        (e, readNat s.mem (p e) (typeBits s.hart.ty / 8))) (behind s row.1 [memoryEntry s row.1])) (memoryState s row.1) u := by
  obtain ⟨u, hu, o⟩ := applyResults_loads (d := r) (n := typeBits s.hart.ty) (sty := s.hart.ty) (scales := [])
    (l := (s.hart.active m).map fun e => (e, readNat s.mem (p e) (typeBits s.hart.ty / 8))) h row.1
    fun hv => ⟨by rw [active_nil hv, List.map_nil], rfl⟩
  refine ⟨u, ?_, o⟩
  rw [hx, vectorLoad]
  simp only [memoryState_hart, memoryRefused_unscaled hs hty, Bool.false_eq_true, if_false,
    requireIndices_empty (memoryState_entries h row.1), bind_ok, memoryEntry_scaled, hs, Bool.not_false, if_true]
  have e := readSpans_done h hf hi.own hl (f := fun ws s' => applyResults s.here s.me (memoryEntry s row.1) r
    (typeBits (memoryEntry s row.1).ty) ((memoryEntry s row.1).upwards (ws.map fun w => .value w.1.elem w.2))
    (memoryEntry s row.1).ty [] s') (n := 0) (u := u) (by
      rw [← hu, elementPlaces, List.map_map, List.map_map, List.map_map]
      rfl)
  rw [accessSpans_unscaled hs] at e
  exact e

/-! ### The blocks of a scaled access -/

/-- The blocks that a mask makes active (R121). -/
def activeBlocks (s : State) (m : MReg) : List Nat :=
  (List.range (s.hart.vec.vl / 16)).filter fun k => maskBit (s.hart.getM m.toNat) (16 * k)

/-- The ranges and places of a block, with its scale byte last. -/
def blockChunk (s : State) (a b : XReg) (form : Nat) (p : Nat → Nat → Nat) (q : Nat → Nat) (k : Nat) : List (Span × Nat) :=
  let db := blockBytes s.hart.ty
  ((List.range db).map fun i =>
    (⟨16 * k + (if s.hart.ty = 10 then 2 * i else i), (blockAddrs s.hart a b db form k).1 + word i, 1⟩, p k i)) ++
    [(⟨16 * k, (blockAddrs s.hart a b db form k).2, 1⟩, q k)]

/-- The ranges and places of the active blocks. -/
def blockPlaces (s : State) (a b : XReg) (m : MReg) (form : Nat) (p : Nat → Nat → Nat) (q : Nat → Nat) : List (Span × Nat) :=
  (activeBlocks s m).flatMap (blockChunk s a b form p q)

/-- The blocks of an access row are those of its addressing form. -/
def IsBlockAccess (s : State) (a b : XReg) (m : MReg) (row : Instr × Nat) : Prop :=
  blockSpans s.hart (memoryEntry s row.1) (formOf 0 row.2) m.toNat =
    (activeBlocks s m).map fun k => (k, blockAddrs s.hart a b (blockBytes s.hart.ty) row.2 k)

theorem blockPlaces_places (hb : IsBlockAccess s a b m row) (hm : s.hart.Blocks m)
    {p : Nat → Nat → Nat} {q : Nat → Nat} (hp : ∀ j ∈ activeBlocks s m,
      (∀ i, i < blockBytes s.hart.ty → SpanAt s.hart.vec.mspace.toNat k
        ((blockAddrs s.hart a b (blockBytes s.hart.ty) row.2 j).1 + BitVec.ofNat 64 i) 1 (p j i) s) ∧
      SpanAt s.hart.vec.mspace.toNat k (blockAddrs s.hart a b (blockBytes s.hart.ty) row.2 j).2 1 (q j) s) :
    Places s row.1 (formOf 0 row.2) m k (blockPlaces s a b m row.2 p q) := by
  refine ⟨?_, fun x hx => ?_⟩
  · rw [accessSpans, memoryEntry_scaled, hm.1, if_pos rfl, hb, blockPlaces, List.map_flatMap, List.flatMap_map]
    refine List.flatMap_congr fun j _ => ?_
    rw [blockChunk, List.map_append, List.map_map]
    rfl
  · obtain ⟨j, hj, hx⟩ := List.mem_flatMap.1 hx
    obtain ⟨hd, hsc⟩ := hp j hj
    rcases List.mem_append.1 hx with hx | hx
    · obtain ⟨i, hir, rfl⟩ := List.mem_map.1 hx
      exact hd i (List.mem_range.1 hir)
    · rw [List.mem_singleton.1 hx]
      exact hsc

/-- A list of chunks of `n` elements is cut into them. -/
theorem zipIdx_chunks {α β : Type} {n : Nat} {f : α → List β} (l : List α) (hf : ∀ x ∈ l, (f x).length = n) :
    l.zipIdx.map (fun p => (p.1, ((l.flatMap f).drop (p.2 * n)).take n)) = l.map fun x => (x, f x) := by
  have go : ∀ (l : List α) (j : Nat) (pre : List β), pre.length = j * n → (∀ x ∈ l, (f x).length = n) →
      (l.zipIdx j).map (fun p => (p.1, ((pre ++ l.flatMap f).drop (p.2 * n)).take n)) = l.map fun x => (x, f x) := by
    intro l
    induction l with
    | nil => exact fun _ _ _ _ => rfl
    | cons x l ih =>
      intro j pre hpre hl
      have hx := hl x (List.mem_cons_self ..)
      rw [List.zipIdx_cons, List.map_cons, List.map_cons, List.flatMap_cons, ← hpre, List.drop_left, ← hx, List.take_left,
        ← List.append_assoc, hx, ih (j + 1) (pre ++ f x) (by rw [List.length_append, hpre, hx, Nat.succ_mul])
          fun y hy => hl y (List.mem_cons_of_mem x hy)]
  exact go l 0 [] (by simp) hf

end

end Sys2Proof.Machine

namespace Sys2Proof.Machine

section
variable {s : State} {row : Instr × Nat} {a b : XReg} {m : MReg}

theorem memoryRefused_blocks (hm : s.hart.Blocks m) (hty : s.hart.ty ∈ [8, 9, 10]) (hr : row.2 = 0 ∨ row.2 = 1)
    (viq : List VEntry) : memoryRefused (behind s row.1 viq) (memoryEntry s row.1) (formOf 0 row.2) m.toNat = false := by
  have e : scaleRefused (behind s row.1 viq) (memoryEntry s row.1) [(memoryEntry s row.1).ty] m.toNat = false :=
    scaleRefused_blocks (v := memoryEntry s row.1) rfl hm rfl hty
  rcases hr with h | h
  · rw [h]
    exact e
  · rw [h]
    exact e

theorem blockChunk_length (form : Nat) (p : Nat → Nat → Nat) (q : Nat → Nat) (k : Nat) :
    (blockChunk s a b form p q k).length = blockBytes s.hart.ty + 1 := by
  simp [blockChunk]

theorem zipIdx_map_range {α : Type} (f : Nat → α) (n : Nat) : ((List.range n).map f).zipIdx = (List.range n).map fun i => (f i, i) := by
  apply List.ext_getElem
  · simp
  · intro i h1 h2
    simp

/-- The bytes that a load reads from a block, and its scale byte. -/
def blockBytesRead (s : State) (a b : XReg) (form : Nat) (p : Nat → Nat → Nat) (q : Nat → Nat) (k : Nat) : List (Span × Nat) :=
  (blockChunk s a b form p q k).map fun x => (x.1, readNat s.mem x.2 x.1.bytes)

/-- The elements of a block of bytes (R120). -/
def loadedElems (ty k : Nat) (byte : Nat → Nat) : List (Nat × Nat) :=
  (List.range 16).map fun i => (16 * k + i, if ty = 10 then byte (i / 2) / 16 ^ (i % 2) % 16 else byte i)

theorem readNat_one (mem : Memory) (p : Nat) : readNat mem p 1 = (readPlace mem p).toNat := rfl

theorem blockBytesRead_data (form : Nat) (p : Nat → Nat → Nat) (q : Nat → Nat) (k : Nat) :
    ((blockBytesRead s a b form p q k).take (blockBytes s.hart.ty)).zipIdx.map (fun x => (x.1.2, x.2)) =
      (List.range (blockBytes s.hart.ty)).map fun i => ((readPlace s.mem (p k i)).toNat, i) := by
  have e : (blockBytesRead s a b form p q k).take (blockBytes s.hart.ty) = (List.range (blockBytes s.hart.ty)).map fun i =>
      ((⟨16 * k + (if s.hart.ty = 10 then 2 * i else i), (blockAddrs s.hart a b (blockBytes s.hart.ty) form k).1 + word i, 1⟩ : Span),
        (readPlace s.mem (p k i)).toNat) := by
    rw [blockBytesRead, blockChunk, List.map_append, List.map_map, List.take_left' (by simp)]
    rfl
  rw [e, zipIdx_map_range, List.map_map]
  rfl

theorem blockBytesRead_scale (form : Nat) (p : Nat → Nat → Nat) (q : Nat → Nat) (k : Nat) :
    (((blockBytesRead s a b form p q k).getLast?.map (·.2)).getD 0) = (readPlace s.mem (q k)).toNat := by
  simp [blockBytesRead, blockChunk, readNat_one]

/-- The elements that a load makes of the bytes of a block. -/
def elemsOf (ty k : Nat) (l : List (Nat × Nat)) : List Elem :=
  l.flatMap fun x => if ty = 10 then [.value (16 * k + 2 * x.2) (x.1 % 16), .value (16 * k + 2 * x.2 + 1) (x.1 / 16)]
    else [.value (16 * k + x.2) x.1]

theorem elemsOf_block (ty k : Nat) (byte : Nat → Nat) (hb : ∀ i, byte i < 256) :
    elemsOf ty k ((List.range (blockBytes ty)).map fun i => (byte i, i)) = (loadedElems ty k byte).map fun p => Elem.value p.1 p.2 := by
  have hd : ∀ i, byte i / 16 % 16 = byte i / 16 := fun i => Nat.mod_eq_of_lt (by have := hb i; omega)
  by_cases hty : ty = 10
  · subst hty
    simp [elemsOf, loadedElems, blockBytes, List.range_succ, hd]
  · simp only [elemsOf, loadedElems, blockBytes, if_neg hty, List.flatMap_map, List.map_map]
    exact List.flatMap_pure_eq_map _ _

/-- The bytes that a load reads, cut into those of its blocks. -/
theorem loadGroups_blocks (hb : IsBlockAccess s a b m row) (p : Nat → Nat → Nat) (q : Nat → Nat) :
    (blockSpans (behind s row.1 [memoryEntry s row.1]) (memoryEntry s row.1) (formOf 0 row.2) m.toNat).zipIdx.map (fun x =>
      (x.1.1, (((blockPlaces s a b m row.2 p q).map fun x => (x.1, readNat s.mem x.2 x.1.bytes)).drop
        (x.2 * (blockBytes s.hart.ty + 1))).take (blockBytes s.hart.ty + 1))) =
      (activeBlocks s m).map fun k => (k, blockBytesRead s a b row.2 p q k) := by
  have e : blockSpans (behind s row.1 [memoryEntry s row.1]) (memoryEntry s row.1) (formOf 0 row.2) m.toNat = _ := hb
  rw [e, List.zipIdx_map, List.map_map, blockPlaces, List.map_flatMap]
  exact zipIdx_chunks (activeBlocks s m) (f := blockBytesRead s a b row.2 p q) fun k _ => by
    rw [blockBytesRead, List.length_map, blockChunk_length]

/-- Each active block takes its 16 elements and its scale. -/
theorem load_blocks (h : VectorReady s) (hf : s.hart.VlFits) (hm : s.hart.Blocks m) (hty : s.hart.ty ∈ [8, 9, 10]) {r : VReg}
    (hi : IsAccess s a b 0 m .read row) (hb : IsBlockAccess s a b m row) (hr : row.2 = 0 ∨ row.2 = 1)
    (hx : ∀ t, vexec s.here s.me (memoryEntry s row.1) t =
      vectorLoad s.here s.me (memoryEntry s row.1) (formOf 0 row.2) r m t) {p : Nat → Nat → Nat} {q : Nat → Nat}
    (hl : Places s row.1 (formOf 0 row.2) m .read (blockPlaces s a b m row.2 p q)) :
    ∃ u, vexec s.here s.me (memoryEntry s row.1) (memoryState s row.1) = .ok (.done 0) u ∧
      OnlyHart (writeBlocks r.toNat (typeBits s.hart.ty) s.hart.ty ((activeBlocks s m).map fun k => (k, (readPlace s.mem (q k)).toNat))
        ((activeBlocks s m).flatMap fun k => loadedElems s.hart.ty k fun i => (readPlace s.mem (p k i)).toNat)
        (behind s row.1 [memoryEntry s row.1])) (memoryState s row.1) u := by
  obtain ⟨u, hu, o⟩ := applyResults_loads (d := r) (n := typeBits s.hart.ty) (sty := s.hart.ty)
    (scales := (activeBlocks s m).map fun k => (k, (readPlace s.mem (q k)).toNat))
    (l := (activeBlocks s m).flatMap fun k => loadedElems s.hart.ty k fun i => (readPlace s.mem (p k i)).toNat) h row.1
    fun hv => by
      have e : activeBlocks s m = [] := by simp [activeBlocks, hv]
      rw [e]
      exact ⟨rfl, rfl⟩
  refine ⟨u, ?_, o⟩
  rw [hx, vectorLoad]
  simp only [memoryState_hart, memoryRefused_blocks hm hty hr, Bool.false_eq_true, if_false,
    requireIndices_empty (memoryState_entries h row.1), bind_ok, memoryEntry_scaled, hm.1, Bool.not_true]
  have hspans : accessSpans s.hart (memoryEntry s row.1) (formOf 0 row.2) m.toNat = (blockSpans (behind s row.1
      [memoryEntry s row.1]) (memoryEntry s row.1) (formOf 0 row.2) m.toNat).flatMap (blockRanges (memoryEntry s row.1).ty) := by
    rw [accessSpans, memoryEntry_scaled, hm.1, if_pos rfl]
    rfl
  rw [← hspans]
  refine readSpans_done h hf hi.own hl ?_
  have hgroups := loadGroups_blocks hb p q
  rw [← hu]
  simp only [show (memoryEntry s row.1).ty = s.hart.ty from rfl, hgroups, List.flatMap_map, List.map_map]
  have helems : ∀ k, ((blockBytesRead s a b row.2 p q k).take (blockBytes s.hart.ty)).zipIdx.flatMap (fun x =>
      if s.hart.ty = 10 then [Elem.value (16 * k + 2 * x.2) (x.1.2 % 16), .value (16 * k + 2 * x.2 + 1) (x.1.2 / 16)]
      else [.value (16 * k + x.2) x.1.2]) =
      (loadedElems s.hart.ty k fun i => (readPlace s.mem (p k i)).toNat).map fun x => Elem.value x.1 x.2 := fun k => by
    rw [← elemsOf_block _ _ _ fun i => (readPlace s.mem (p k i)).isLt, ← blockBytesRead_data, elemsOf, List.flatMap_map]
  rw [List.map_flatMap]
  simp only [helems]
  exact congrArg (fun l => applyResults _ _ _ _ _ _ _ l _) (List.map_congr_left fun k _ => by
    rw [Function.comp_apply, blockBytesRead_scale])

end

end Sys2Proof.Machine

namespace Sys2Proof.Machine

section
variable {s : State}

/-- The scales and the elements of a register are written apart. -/
theorem setElems_withScales (x : Hart) (r n ty : Nat) (scales l : List (Nat × Nat)) :
    (x.setElems r n l).withScales r ty scales = writeBlocks r n ty scales l x := by
  have hside : ∀ (l : List (Nat × Nat)) (x : Hart) (y : VSide), (x.setSide r y).setElems r n l = (x.setElems r n l).setSide r y :=
    fun l => by
      induction l with
      | nil => exact fun _ _ => rfl
      | cons e l ih => exact fun x y => ih (x.setElem r n e.1 e.2) y
  have hget : ∀ (l : List (Nat × Nat)) (x : Hart), (x.setElems r n l).getSide r = x.getSide r := fun l => by
    induction l with
    | nil => exact fun _ => rfl
    | cons e l ih => exact fun x => ih (x.setElem r n e.1 e.2)
  unfold writeBlocks Hart.withScales
  split
  · rfl
  · rw [hside, hget]

theorem blockRows_access (s : State) (r : VReg) (a b : XReg) (m : MReg) (o : BitVec 2) :
    (∀ row ∈ [(Instr.vld r a m o, 0), (.vlds r a b m o, 1)],
      row ∈ [(Instr.vld r a m o, 0), (.vlds r a b m o, 1), (.vldx r a 0 m o, 2)] ∧ (row.2 = 0 ∨ row.2 = 1) ∧ IsBlockAccess s a b m row) ∧
    (∀ row ∈ [(Instr.vst r a m o, 0), (.vsts r a b m o, 1)],
      row ∈ [(Instr.vst r a m o, 0), (.vsts r a b m o, 1), (.vstx r a 0 m o, 2)] ∧ (row.2 = 0 ∨ row.2 = 1) ∧ IsBlockAccess s a b m row) := by
  refine ⟨fun row hrow => ?_, fun row hrow => ?_⟩
  all_goals
    simp only [List.mem_cons, List.not_mem_nil, or_false] at hrow
    rcases hrow with rfl | rfl
  · exact ⟨by simp, .inl rfl, rfl⟩
  · exact ⟨by simp, .inr rfl, rfl⟩
  · exact ⟨by simp, .inl rfl, rfl⟩
  · exact ⟨by simp, .inr rfl, rfl⟩

/-- Vector loads with S = 0, of every form and space. -/
theorem vectorLoad_elements (h : VectorReady s) (hf : s.hart.VlFits) (hn : NoSample s) (hs : s.hart.vec.vtype.getLsbD 4 = false)
    (hty : s.hart.ty ≠ 10) (r vb : VReg) (a b : XReg) (m : MReg) (o : BitVec 2) :
    ∀ row ∈ [(Instr.vld r a m o, 0), (.vlds r a b m o, 1), (.vldx r a vb m o, 2)], ∀ p : Nat → Nat,
      (∀ e ∈ s.hart.active m, SpanAt s.hart.vec.mspace.toNat .read (vectorAddrs s.hart a b vb (typeBits s.hart.ty / 8) row.2 e)
        (typeBits s.hart.ty / 8) (p e) s) →
      ∃ t, exec row.1 s = .next (t.modCore s.here fun k => { k with dbg := { k.dbg with sampled := k.dbg.sampled + 1 } }) ∧
        OnlyVector ((s.hart.setElems r.toNat (typeBits s.hart.ty) ((s.hart.active m).map fun e =>
          (e, readNat s.mem (p e) (typeBits s.hart.ty / 8)))).afterVector 4 0 false) s t := by
  intro row hrow p hp
  obtain ⟨hi, hx⟩ := loads_access s r vb a b m o row hrow
  have hl := elementPlaces_places hi hs hp
  have e := load_completes h hf hn hi hl (load_elements h hf hs hty hi hx hl)
  rw [writeBlocks, withScales_nil] at e
  exact e

/-- Vector loads with S = 1, of every space. -/
theorem vectorLoad_blocks (h : VectorReady s) (hf : s.hart.VlFits) (hn : NoSample s) (r : VReg) (a b : XReg) (m : MReg) (o : BitVec 2)
    (hm : s.hart.Blocks m) (hty : s.hart.ty ∈ [8, 9, 10]) :
    ∀ row ∈ [(Instr.vld r a m o, 0), (.vlds r a b m o, 1)], ∀ (p : Nat → Nat → Nat) (q : Nat → Nat),
      (∀ k ∈ activeBlocks s m,
        (∀ i, i < blockBytes s.hart.ty → SpanAt s.hart.vec.mspace.toNat .read
          ((blockAddrs s.hart a b (blockBytes s.hart.ty) row.2 k).1 + BitVec.ofNat 64 i) 1 (p k i) s) ∧
        SpanAt s.hart.vec.mspace.toNat .read (blockAddrs s.hart a b (blockBytes s.hart.ty) row.2 k).2 1 (q k) s) →
      ∃ t, exec row.1 s = .next (t.modCore s.here fun k => { k with dbg := { k.dbg with sampled := k.dbg.sampled + 1 } }) ∧
        OnlyVector (((s.hart.setElems r.toNat (typeBits s.hart.ty) ((activeBlocks s m).flatMap fun k =>
          loadedElems s.hart.ty k fun i => (readPlace s.mem (p k i)).toNat)).withScales r.toNat s.hart.ty
            ((activeBlocks s m).map fun k => (k, (readPlace s.mem (q k)).toNat))).afterVector 4 0 false) s t := by
  intro row hrow p q hp
  obtain ⟨hmem, hr, hb⟩ := (blockRows_access s r a b m o).1 row hrow
  obtain ⟨hi, hx⟩ := loads_access s r 0 a b m o row hmem
  have hl := blockPlaces_places hb hm hp
  rw [setElems_withScales]
  exact load_completes h hf hn hi hl (load_blocks h hf hm hty hi hb hr hx hl)

end

end Sys2Proof.Machine

namespace Sys2Proof.Machine

/-! ### Stores that commit at once -/

/-- Memory with the byte of a store cell written. -/
def writeCell (m : Memory) (c : StoreCell) : Memory :=
  writePlace m c.place ((readPlace m c.place &&& ~~~c.mask) ||| (c.data &&& c.mask))

/-- A store element that commits as soon as it is the oldest. -/
structure Immediate (p : Pending) : Prop where
  holes : p.holes = []
  after : p.after = 0
  again : p.again = false
  amo : p.amo = none
  fill : p.fill = none
  cells : p.cells ≠ []
  short : p.cells.length < 64

/-- From `s` to `t` some store elements have committed. -/
structure Stored (qs : List Pending) (s t : State) : Prop where
  harts : ∀ c n, (s.hartAt c n).run.wait = none → t.hartAt c n = s.hartAt c n
  cores : ∀ c, { t.core c with harts := [], tlb := [], ccache := [] } = { s.core c with harts := [], tlb := [], ccache := [] }
  here : t.curCore = s.curCore
  me : t.curHart = s.curHart
  wharf : t.wharf = s.wharf
  host : t.host = s.host
  dies : t.dies = s.dies
  mem : t.mem = (qs.flatMap (·.cells)).foldl writeCell s.mem
  poison : t.poison = s.poison.filter fun l => !(qs.flatMap (·.cleans)).contains l

theorem Stored.refl (s : State) : Stored [] s s :=
  ⟨fun _ _ _ => rfl, fun _ => rfl, rfl, rfl, rfl, rfl, rfl, rfl, (List.filter_eq_self.2 fun _ _ => rfl).symm⟩

theorem Stored.trans {ps qs : List Pending} {s t u : State} (a : Stored ps s t) (b : Stored qs t u) : Stored (ps ++ qs) s u where
  harts := fun c n h => by
    have e := a.harts c n h
    rw [b.harts c n (by rw [e]; exact h), e]
  cores := fun c => (b.cores c).trans (a.cores c)
  here := b.here.trans a.here
  me := b.me.trans a.me
  wharf := b.wharf.trans a.wharf
  host := b.host.trans a.host
  dies := b.dies.trans a.dies
  mem := by rw [b.mem, a.mem, List.flatMap_append, List.foldl_append]
  poison := by
    rw [b.poison, a.poison, List.filter_filter, List.flatMap_append]
    refine List.filter_congr fun l _ => ?_
    simp [Bool.and_comm]

theorem cleanLines_poison (l : List Nat) (s : State) :
    cleanLines l s = { s with poison := s.poison.filter fun p => !l.contains p } := by
  unfold cleanLines
  split
  next h =>
    rw [List.isEmpty_iff.1 h]
    exact congrArg (fun l => { s with poison := l }) (List.filter_eq_self.2 fun _ _ => rfl).symm
  next => rfl

theorem updateConst_dies (c : Nat) (cells : List StoreCell) (s : State) : (updateConst c cells s).dies = s.dies := by
  unfold updateConst
  split <;> rfl

/-- A store element that waits for nothing commits. -/
theorem commit_stored {p : Pending} (hp : Immediate p) (c : Nat) (s : State) : Stored [p] s (commit c p s) := by
  have hc : p.cells.isEmpty = false := by simpa using hp.cells
  have e : commit c p s = updateConst c p.cells (cleanLines p.cleans (performCells p.cells s)) := by
    unfold commit
    rw [hp.fill, hc]
    rfl
  have w := performCells_walked p.cells s hp.short
  have v := updateConst_walked c p.cells (cleanLines p.cleans (performCells p.cells s))
  rw [e]
  rw [cleanLines_poison] at v ⊢
  exact {
    harts := fun d n h => by
      have k := w.harts d n h
      exact (v.harts d n (show ((performCells p.cells s).hartAt d n).run.wait = none by rw [k]; exact h)).trans k
    cores := fun d => (v.cores d).trans (w.cores d)
    here := v.here.trans w.here
    me := v.me.trans w.me
    wharf := v.wharf.trans w.wharf
    host := v.host.trans w.host
    dies := updateConst_dies _ _ _
    mem := by
      rw [updateConst_mem, List.flatMap_singleton]
      rfl
    poison := by
      rw [v.poison, List.flatMap_singleton]
      exact congrArg (List.filter _) w.poison }

/-- Store elements that wait for nothing commit in order. -/
theorem commitAll_stored {qs : List Pending} (hq : ∀ q ∈ qs, Immediate q) (c h : Nat) (s : State) :
    ∃ t, commitAll c h qs s = ([], t) ∧ Stored qs s t := by
  induction qs generalizing s with
  | nil => exact ⟨s, rfl, .refl s⟩
  | cons q qs ih =>
    have hp := hq q (List.mem_cons_self ..)
    obtain ⟨t, ht, hs⟩ := ih (fun x hx => hq x (List.mem_cons_of_mem q hx)) (commit c q s)
    refine ⟨t, ?_, (commit_stored hp c s).trans hs⟩
    rw [commitAll]
    simp only [hp.holes, hp.after, retranslate_again hp.again, hp.again, refused_plain hp.amo, hp.amo, ht, List.isEmpty_nil,
      BEq.rfl, Bool.and_self, if_true, Bool.or_self, Bool.false_eq_true, if_false]

/-- Store elements of a hart with no other join its uncommitted stores, and commit at once. -/
theorem enqueue_stored {s : State} {qs : List Pending} (hq : ∀ q ∈ qs, Immediate q) (hstq : s.hart.ms.stq = [])
    (hlag : s.hart.vec.lag = false) (hw : s.hart.run.wait = none) (he : (s.core s.here).land.entries = []) :
    Stored qs s (enqueue s.here s.me qs s) := by
  have hold : s.hart.olderStores = [] := by rw [Hart.olderStores, hstq]; rfl
  have o1 := OnlyHart.modHart s fun x => x.setStq qs
  have e1 : s.modHartAt s.here s.me (fun x => x.setStq (x.olderStores ++ qs ++ x.ms.stq.dropWhile Pending.older)) =
      s.modHart fun x => x.setStq qs := by
    refine congrArg s.setHart (?_ : s.hart.setStq (s.hart.olderStores ++ qs ++ s.hart.ms.stq.dropWhile Pending.older) = _)
    rw [hold, hstq, List.dropWhile_nil, List.append_nil, List.nil_append]
  rw [enqueue, e1]
  generalize (s.modHart fun x => x.setStq qs) = s1 at o1
  obtain ⟨t, ht, k⟩ := commitAll_stored hq s.here s.me s1
  have h1 : s1.hartAt s.here s.me = s.hart.setStq qs := by
    rw [← o1.hart, State.hart, show s1.here = s.here from congrArg BitVec.toNat o1.here,
      show s1.me = s.me from congrArg BitVec.toNat o1.me]
  have hh : t.here = s.here := congrArg BitVec.toNat (k.here.trans o1.here)
  have hm : t.me = s.me := congrArg BitVec.toNat (k.me.trans o1.me)
  have ht1 : t.hart = s.hart.setStq qs := by
    rw [State.hart, hh, hm, k.harts s.here s.me (by rw [h1]; exact hw), h1]
  have o2 := OnlyHart.modHart t fun x => x.setStq []
  rw [ht1, show (s.hart.setStq qs).setStq [] = s.hart from hart_setStq_self s.hart hstq] at o2
  have hland : ((t.modHart fun x => x.setStq []).core s.here).land.entries = [] := by
    have a := congrArg (fun k : Core => k.land.entries) (o2.cores s.here)
    have b := congrArg (fun k : Core => k.land.entries) (k.cores s.here)
    have c := congrArg (fun k : Core => k.land.entries) (o1.cores s.here)
    exact a.trans (b.trans (c.trans he))
  have hr : drain s.here s.me s1 = t.modHart fun x => x.setStq [] := by
    rw [drain]
    simp only [h1, show (s.hart.setStq qs).vec.lag = false from hlag, show (s.hart.setStq qs).ms.stq = qs from rfl, ht,
      Bool.false_eq_true, if_false]
    rw [← sweep_empty hland, ← hh, ← hm]
    rfl
  rw [hr]
  exact {
    harts := fun c n hn => by
      by_cases hc : c = s.here ∧ n = s.me
      · obtain ⟨rfl, rfl⟩ := hc
        rw [← hh, ← hm]
        exact (hart_modHart t _).trans (by rw [ht1, hh, hm]; exact hart_setStq_self s.hart hstq)
      · have hc' := not_and_or.1 hc
        have e := o1.others c n hc'
        rw [o2.others c n (by rw [hh, hm]; exact hc'), k.harts c n (by rw [e]; exact hn), e]
    cores := fun c => by
      have a := congrArg (fun k : Core => { k with tlb := [], ccache := [] }) (o2.cores c)
      have b := congrArg (fun k : Core => { k with tlb := [], ccache := [] }) (o1.cores c)
      exact a.trans ((k.cores c).trans b)
    here := o2.here.trans (k.here.trans o1.here)
    me := o2.me.trans (k.me.trans o1.me)
    wharf := o2.wharf.trans (k.wharf.trans o1.wharf)
    host := o2.host.trans (k.host.trans o1.host)
    dies := o2.dies.trans (k.dies.trans o1.dies)
    mem := by rw [o2.mem, k.mem, o1.mem]
    poison := by rw [o2.poison, k.poison, o1.poison] }

end Sys2Proof.Machine

namespace Sys2Proof.Machine

/-! ### A store that covers lines whole -/

/-- The stores that `markWhole` marks, from the last to the first, and the lines that none of them writes. -/
def markFrom (ps : List Pending) (lines : List Nat) : List Pending × List Nat :=
  ps.foldr (fun p (acc : List Pending × List Nat) =>
    let mine := acc.2.filter fun l => p.cells.any fun c => lineOf c.place == l
    ({ p with cleans := mine } :: acc.1, acc.2.filter fun l => !mine.contains l)) ([], lines)

/-- A store element that clears the poison of some lines. -/
def Marked (p q : Pending) : Prop := ∃ c, q = { p with cleans := c }

theorem marked_cells {ps qs : List Pending} (h : List.Forall₂ Marked ps qs) : qs.flatMap (·.cells) = ps.flatMap (·.cells) := by
  induction h with
  | nil => rfl
  | cons h t ih =>
    obtain ⟨c, rfl⟩ := h
    rw [List.flatMap_cons, List.flatMap_cons, ih]

theorem marked_immediate {ps qs : List Pending} (h : List.Forall₂ Marked ps qs) (hp : ∀ p ∈ ps, Immediate p) :
    ∀ q ∈ qs, Immediate q := by
  induction h with
  | nil => exact nofun
  | cons h t ih =>
    obtain ⟨c, rfl⟩ := h
    intro q hq
    rcases List.mem_cons.1 hq with rfl | hq
    · exact { hp _ (List.mem_cons_self ..) with }
    · exact ih (fun x hx => hp x (List.mem_cons_of_mem _ hx)) q hq

theorem markFrom_spec (ps : List Pending) (lines : List Nat) :
    List.Forall₂ Marked ps (markFrom ps lines).1 ∧
    (∀ l, l ∈ lines ↔ l ∈ (markFrom ps lines).2 ∨ l ∈ (markFrom ps lines).1.flatMap (·.cleans)) ∧
    ∀ l ∈ (markFrom ps lines).2, ∀ p ∈ ps, ∀ c ∈ p.cells, lineOf c.place ≠ l := by
  induction ps with
  | nil => exact ⟨.nil, fun l => by simp [markFrom], nofun⟩
  | cons p ps ih =>
    obtain ⟨h1, h2, h3⟩ := ih
    have e : markFrom (p :: ps) lines =
      (let mine := (markFrom ps lines).2.filter fun l => p.cells.any fun c => lineOf c.place == l
       ({ p with cleans := mine } :: (markFrom ps lines).1, (markFrom ps lines).2.filter fun l => !mine.contains l)) := rfl
    rw [e]
    generalize markFrom ps lines = r at h1 h2 h3
    refine ⟨.cons ⟨_, rfl⟩ h1, fun l => ?_, fun l hl x hx c hc hlc => ?_⟩
    · rw [h2 l, List.flatMap_cons, List.mem_append, List.mem_filter, List.mem_filter]
      by_cases hm : p.cells.any (fun c => lineOf c.place == l) = true
      · simp [hm]
      · simp [hm]
    · obtain ⟨hr, hn⟩ := List.mem_filter.1 hl
      rcases List.mem_cons.1 hx with rfl | hx
      · have : l ∈ r.2.filter fun l => x.cells.any fun c => lineOf c.place == l :=
          List.mem_filter.2 ⟨hr, List.any_eq_true.2 ⟨c, hc, beq_iff_eq.2 hlc⟩⟩
        simp [this] at hn
      · exact h3 l hr x hx c hc hlc

/-- A line that places cover whole (R230). -/
theorem mem_wholeLines {places : List Nat} {l : Nat} : l ∈ wholeLines places ↔ l % 64 = 0 ∧ ∀ i, i < 64 → l + i ∈ places := by
  have count : ∀ q : List Nat, (∀ i, i < 64 → l + i ∈ q) → 64 ≤ q.length := fun q hq => by
    have hsub : (List.range 64).map (l + ·) ⊆ q := fun x hx => by
      obtain ⟨i, hi, rfl⟩ := List.mem_map.1 hx
      exact hq i (List.mem_range.1 hi)
    have hn : ((List.range 64).map (l + ·)).Nodup := List.nodup_range.map (add_right_injective l)
    simpa using (hn.subperm hsub).length_le
  unfold wholeLines
  constructor
  · intro h
    split at h
    · exact absurd h List.not_mem_nil
    · simp only [List.mem_filter, Bool.and_eq_true, List.all_eq_true, List.contains_iff_mem, beq_iff_eq, indices, List.mem_range] at h
      exact ⟨h.1.2, fun i hi => (h.2.2 i hi).1⟩
  · rintro ⟨h0, h⟩
    rw [if_neg (Nat.not_lt.2 (count places h))]
    have own : ∀ i, i < 64 → l + i ∈ places.filter fun p => lineOf p == l := fun i hi =>
      List.mem_filter.2 ⟨h i hi, beq_iff_eq.2 (by rw [lineOf]; omega)⟩
    refine List.mem_filter.2 ⟨List.mem_filter.2 ⟨h 0 (by decide), beq_iff_eq.2 h0⟩, ?_⟩
    rw [Bool.and_eq_true, decide_eq_true_eq, List.all_eq_true]
    exact ⟨count _ own, fun i hi => List.contains_iff_mem.2 (own i (List.mem_range.1 hi))⟩

/-- A fresh store element: it waits for nothing and clears no poison by itself. -/
structure Joining (p : Pending) : Prop extends Immediate p where
  cleans : p.cleans = []

/-- The elements of one store clear the poison of the lines that they cover whole. -/
theorem markWhole_spec {ps : List Pending} (hp : ∀ p ∈ ps, Joining p) :
    (markWhole ps).length = ps.length ∧ (∀ q ∈ markWhole ps, Immediate q) ∧
    (markWhole ps).flatMap (·.cells) = ps.flatMap (·.cells) ∧
    ∀ l, l ∈ (markWhole ps).flatMap (·.cleans) ↔ l % 64 = 0 ∧ ∀ i, i < 64 → l + i ∈ ps.flatMap fun p => p.cells.map (·.place) := by
  simp only [← mem_wholeLines]
  unfold markWhole
  dsimp only
  split
  next h =>
    rw [List.isEmpty_iff.1 h]
    refine ⟨rfl, fun q hq => (hp q hq).toImmediate, rfl, fun l => ?_⟩
    refine iff_of_false (fun hl => ?_) List.not_mem_nil
    obtain ⟨q, hq, hl⟩ := List.mem_flatMap.1 hl
    rw [(hp q hq).cleans] at hl
    exact absurd hl List.not_mem_nil
  next =>
    obtain ⟨h1, h2, h3⟩ := markFrom_spec ps (wholeLines (ps.flatMap fun p => p.cells.map (·.place)))
    change (markFrom ps _).1.length = _ ∧ (∀ q ∈ (markFrom ps _).1, _) ∧ (markFrom ps _).1.flatMap _ = _ ∧ ∀ l, l ∈ (markFrom ps _).1.flatMap _ ↔ _
    generalize markFrom ps (wholeLines (ps.flatMap fun p => p.cells.map (·.place))) = r at h1 h2 h3
    refine ⟨h1.length_eq.symm, marked_immediate h1 fun p h => (hp p h).toImmediate, marked_cells h1, fun l => ?_⟩
    refine ⟨fun hl => (h2 l).2 (.inr hl), fun hl => ((h2 l).1 hl).resolve_left fun hr => ?_⟩
    obtain ⟨h0, hall⟩ := mem_wholeLines.1 hl
    obtain ⟨p, hpm, hc⟩ := List.mem_flatMap.1 (hall 0 (by decide))
    obtain ⟨c, hcm, hcp⟩ := List.mem_map.1 hc
    exact h3 l hr p hpm c hcm (by rw [hcp, lineOf]; omega)

end Sys2Proof.Machine

namespace Sys2Proof.Machine

/-! ### What a vector store leaves -/

section
variable {s : State}

/-- What the elements of a store leave behind: their bytes, no poison on the lines that they cover whole, and nothing else. -/
structure StoresTo (l : List Pending) (s t : State) : Prop where
  mem : t.mem = (l.flatMap (·.cells)).foldl writeCell s.mem
  poison : t.poison = s.poison.filter fun q => !(q % 64 == 0 && (List.range 64).all fun i =>
    (l.flatMap fun p => p.cells.map (·.place)).contains (q + i))
  wharf : t.wharf = s.wharf
  host : t.host = s.host
  dies : t.dies = s.dies
  others : ∀ c k, c ≠ s.here ∨ k ≠ s.me → (s.hartAt c k).run.wait = none → t.hartAt c k = s.hartAt c k

/-- The elements of a store, none of which the instruction leaves for later, join the uncommitted stores. -/
theorem joinStores_memory {i : Instr} {l : List (Nat × Pending)} {ps : List Placed} (hl : ∀ e ∈ l, Joining e.2)
    (hp : ∀ p ∈ ps, ∀ e ∈ p.2.2, e.pte.getLsbD 8 = false) (t : State) :
    joinStores s.here s.me (memoryEntry s i) l ps t =
      .ok (.done 0) (enqueue s.here s.me (markWhole (l.map (·.2))) t) := by
  have hlen := (markWhole_spec (ps := l.map (·.2)) fun p hp => by
    obtain ⟨e, he, rfl⟩ := List.mem_map.1 hp
    exact hl e he).1
  have hnow : (((l.map (·.1)).zip (markWhole (l.map (·.2)))).filter fun e =>
      decide ((memoryEntry s i).start ≤ e.1) && !beyond none e.1).map (·.2) = markWhole (l.map (·.2)) := by
    rw [List.filter_eq_self.2 fun e _ => by simp [beyond, memoryEntry, capture]]
    exact List.map_snd_zip (by rw [hlen, List.length_map, List.length_map])
  unfold joinStores
  rw [show (memoryEntry s i).stopIn (l.map (·.1)) = none from rfl]
  dsimp only
  rw [hnow, countPlaced_off hp]
  rfl

theorem stores_access (s : State) (r vb : VReg) (a b : XReg) (m : MReg) (o : BitVec 2) :
    ∀ row ∈ [(Instr.vst r a m o, 0), (.vsts r a b m o, 1), (.vstx r a vb m o, 2)],
      IsAccess s a b vb m .write row ∧ ∀ t, vexec s.here s.me (memoryEntry s row.1) t =
        vectorStore s.here s.me (memoryEntry s row.1) (formOf vb row.2) r m t := by
  intro row hrow
  simp only [List.mem_cons, List.not_mem_nil, or_false] at hrow
  rcases hrow with rfl | rfl | rfl
  · exact ⟨⟨.vst r a m o, rfl, rfl⟩, fun _ => rfl⟩
  · exact ⟨⟨.vsts r a b m o, rfl, rfl⟩, fun _ => rfl⟩
  · exact ⟨⟨.vstx r a vb m o, rfl, rfl⟩, fun _ => rfl⟩

/-- A vector store whose elements commit at once. -/
theorem store_completes (h : VectorReady s) (hf : s.hart.VlFits) (hn : NoSample s) (hw : s.hart.run.wait = none)
    {a b : XReg} {vb : VReg} {m : MReg} {row : Instr × Nat} (hi : IsAccess s a b vb m .write row) {l : List (Span × Nat)}
    (hl : Places s row.1 (formOf vb row.2) m .write l) {qs : List Pending} (hq : ∀ q ∈ qs, Joining q)
    (hx : vexec s.here s.me (memoryEntry s row.1) (memoryState s row.1) =
      .ok (.done 0) (enqueue s.here s.me (markWhole qs) (memoryState s row.1))) :
    ∃ t, exec row.1 s = .next t ∧ t.hart = s.hart.afterVector 4 0 false ∧ StoresTo qs s t := by
  obtain ⟨-, himm, hcells, hcleans⟩ := markWhole_spec hq
  have hhart := memoryState_hart s row.1
  have hstored : Stored (markWhole qs) (memoryState s row.1) (enqueue s.here s.me (markWhole qs) (memoryState s row.1)) :=
    enqueue_stored (s := memoryState s row.1) himm ((congrArg (fun x : Hart => x.ms.stq) hhart).trans h.stq)
      ((congrArg (fun x : Hart => x.vec.lag) hhart).trans h.lag) ((congrArg (fun x : Hart => x.run.wait) hhart).trans hw)
      (memoryState_entries h row.1)
  generalize enqueue s.here s.me (markWhole qs) (memoryState s row.1) = t at hx hstored
  have he := heldEntry_eq hf row.1
  have hthart : t.hart = behind s row.1 [memoryEntry s row.1] := by
    rw [State.hart, show t.here = s.here from congrArg BitVec.toNat hstored.here,
      show t.me = s.me from congrArg BitVec.toNat hstored.me]
    rw [hstored.harts s.here s.me (by rw [hhart]; exact hw), hhart]
  have hland := congrArg (fun k : Core => k.land.entries) (hstored.cores s.here)
  have hdbg := congrArg Core.dbg (hstored.cores s.here)
  have hsame := congrArg Core.dbg (core_dispatchedWith s row.1 (memoryEntry s row.1) s.here)
  obtain ⟨u, hu, o⟩ := memory_completes h hn hi.memory (pinnedEntry_held hf hi.own hl).1 (g := id) (fun _ _ _ _ _ => rfl) h.stq
    (t := t) (by rw [he]; exact hx) hstored.here hstored.me
    (hland.trans (memoryState_entries h row.1)) (hdbg.trans hsame) (by rw [he]; exact hthart)
  have huh : u.here = s.here := congrArg BitVec.toNat (o.here.trans hstored.here)
  have hum : u.me = s.me := congrArg BitVec.toNat (o.me.trans hstored.me)
  have hmod : ∀ c k, (u.modCore s.here fun k => { k with dbg := { k.dbg with sampled := k.dbg.sampled + 1 } }).hartAt c k =
      u.hartAt c k := fun c k => hartAt_modCore u s.here c k fun _ => rfl
  refine ⟨_, (exec_viqRow (memoryRow_viqRow hi.memory) s).trans hu, ?_, ?_⟩
  · rw [← id_eq s.hart, ← o.hart, State.hart, State.hart, hmod]
    rfl
  · exact {
      mem := by
        rw [← hcells]
        exact o.mem.trans hstored.mem
      poison := by
        refine (o.poison.trans hstored.poison).trans (List.filter_congr fun q _ => ?_)
        rw [Bool.not_inj_iff, Bool.eq_iff_iff, List.contains_iff_mem, hcleans]
        simp
      wharf := o.wharf.trans hstored.wharf
      host := o.host.trans hstored.host
      dies := o.dies.trans hstored.dies
      others := fun c k hk hwk => by
        have e := others_dispatchedWith s row.1 (memoryEntry s row.1) c k hk
        rw [hmod, o.others c k (by rw [show t.here = s.here from congrArg BitVec.toNat hstored.here,
          show t.me = s.me from congrArg BitVec.toNat hstored.me]; exact hk), hstored.harts c k (by rw [memoryState, e]; exact hwk)]
        exact e }

/-! ### The elements of a store -/

theorem patchesTo_empty {c : Nat} {t : State} (he : (t.core c).land.entries = []) (h r n e : Nat) : patchesTo c h r n e t = [] := by
  rw [patchesTo, holesOf_empty he]
  rfl

theorem keep_joining {q : Pending} (hq : Joining q) (v : VEntry) (p : Placed) (t : State) : Joining (q.keep v p t) := by
  unfold Pending.keep
  split
  · exact hq
  · exact { hq with }

theorem keep_cells (q : Pending) (v : VEntry) (p : Placed) (t : State) : (q.keep v p t).cells = q.cells := by
  unfold Pending.keep
  split <;> rfl

theorem joining_of_cells {cells : List StoreCell} (h0 : cells ≠ []) (hn : cells.length < 64) : Joining { cells := cells } :=
  ⟨⟨rfl, rfl, rfl, rfl, rfl, h0, hn⟩, rfl⟩

theorem joining_of_holes {q : Pending} (h : q.holes = []) (hq : Joining { q with holes := [] }) : Joining q := by
  cases q
  cases h
  exact hq

theorem cellsOf_length (p n w : Nat) : (cellsOf p n w).length = n := by
  simp [cellsOf, indices]

theorem joining_cellsOf {p n w : Nat} (h0 : 0 < n) (hn : n < 64) : Joining { cells := cellsOf p n w } :=
  joining_of_cells (fun h => absurd (congrArg List.length h) (by rw [cellsOf_length]; exact Nat.ne_of_gt h0))
    (by rw [cellsOf_length]; exact hn)

theorem storeElem_joining {c : Nat} {t : State} (he : (t.core c).land.entries = []) (h : Nat) (v : VEntry) (r n : Nat) (p : Placed)
    (h0 : 0 < ceilDiv n 8) (hn : ceilDiv n 8 < 64) : Joining (storeElem c h v r n p t) := by
  unfold storeElem
  exact keep_joining (joining_of_holes (patchesTo_empty he _ _ _ _) (joining_cellsOf h0 hn)) _ _ _

theorem storeElem_cells (c h : Nat) (v : VEntry) (r n : Nat) (p : Placed) (t : State) : (storeElem c h v r n p t).cells =
    cellsOf p.2.1 (ceilDiv n 8) (elemOf ((t.hartAt c h).getV r) n p.1.elem) := by
  unfold storeElem
  exact keep_cells _ _ _ _

theorem foldl_cellsOf (m : Memory) (p n w : Nat) : (cellsOf p n w).foldl writeCell m = writeNat m p n w := by
  have go : ∀ n p w m, ((List.range n).map fun i => (⟨p + i, BitVec.ofNat 8 (w / 256 ^ i), 0xFF⟩ : StoreCell)).foldl writeCell m =
      writeNat m p n w := by
    intro n
    induction n with
    | zero => exact fun _ _ _ => rfl
    | succ n ih =>
      intro p w m
      have hb : ∀ x y : Byte, x &&& ~~~0xFF ||| y &&& 0xFF = y := fun x y => by
        rw [show (0xFF : Byte) = BitVec.allOnes 8 from rfl, BitVec.not_allOnes, BitVec.and_zero, BitVec.zero_or, BitVec.and_allOnes]
      rw [List.range_succ_eq_map, List.map_cons, List.foldl_cons, List.map_map, writeNat, ← ih (p + 1) (w / 256)]
      refine congrArg₂ (fun m l => List.foldl writeCell m l) ?_ (List.map_congr_left fun i _ => ?_)
      · rw [writeCell, hb]
        simp
      · simp only [Function.comp_apply, Nat.succ_eq_add_one, StoreCell.mk.injEq, and_true]
        exact ⟨by omega, by rw [Nat.pow_succ', Nat.div_div_eq_div_mul]⟩
  exact go n p w m

end

end Sys2Proof.Machine

namespace Sys2Proof.Machine

section
variable {s : State}

/-- An element that is no fp4 nibble takes whole bytes, at most eight. -/
theorem ceilDiv_typeBits {ty : Nat} (h : ty ≠ 10) : ceilDiv (typeBits ty) 8 = typeBits ty / 8 ∧ 0 < typeBits ty / 8 ∧
    typeBits ty / 8 < 64 := by
  unfold typeBits
  split
  case h_11 => exact absurd rfl h
  all_goals decide

/-- The elements of a store of whole bytes. -/
def elementStores (s : State) (i : Instr) (r : VReg) (ps : List Placed) : List Pending :=
  ps.map fun p => storeElem s.here s.me (memoryEntry s i) r.toNat (typeBits s.hart.ty) p (memoryState s i)

theorem memoryState_getV (s : State) (i : Instr) (r : Nat) : ((memoryState s i).hartAt s.here s.me).getV r = s.hart.getV r := by
  rw [memoryState_hart]
  rfl

/-- The number of the element of a range of a store of whole bytes. -/
theorem elementStores_cells {i : Instr} {r : VReg} {ps : List Placed} (hty : s.hart.ty ≠ 10) {a b : XReg} {vb : VReg} {m : MReg}
    {form : Nat} {p : Nat → Nat} (hps : ps.map (fun p => (p.1, p.2.1)) = elementPlaces s a b vb m form p) :
    (elementStores s i r ps).map (·.cells) = (s.hart.active m).map fun e =>
      cellsOf (p e) (typeBits s.hart.ty / 8) (elemOf (s.hart.getV r.toNat) (typeBits s.hart.ty) e) := by
  have e : (elementStores s i r ps).map (·.cells) = (ps.map fun p => (p.1, p.2.1)).map fun q =>
      cellsOf q.2 (typeBits s.hart.ty / 8) (elemOf (s.hart.getV r.toNat) (typeBits s.hart.ty) q.1.elem) := by
    rw [elementStores, List.map_map, List.map_map]
    refine List.map_congr_left fun p _ => ?_
    rw [Function.comp_apply, storeElem_cells, memoryState_getV, (ceilDiv_typeBits hty).1]
    rfl
  rw [e, hps, elementPlaces, List.map_map]
  rfl

/-- Vector stores with S = 0, of every form and space. -/
theorem vectorStore_elements (h : VectorReady s) (hf : s.hart.VlFits) (hn : NoSample s) (hw : s.hart.run.wait = none)
    (hs : s.hart.vec.vtype.getLsbD 4 = false) (hty : s.hart.ty ≠ 10) (r vb : VReg) (a b : XReg) (m : MReg) (o : BitVec 2) :
    ∀ row ∈ [(Instr.vst r a m o, 0), (.vsts r a b m o, 1), (.vstx r a vb m o, 2)], ∀ p : Nat → Nat,
      (∀ e ∈ s.hart.active m, SpanAt s.hart.vec.mspace.toNat .write (vectorAddrs s.hart a b vb (typeBits s.hart.ty / 8) row.2 e)
        (typeBits s.hart.ty / 8) (p e) s) →
      ∃ qs t, exec row.1 s = .next t ∧ t.hart = s.hart.afterVector 4 0 false ∧ StoresTo qs s t ∧
        qs.map (·.cells) = (s.hart.active m).map fun e =>
          cellsOf (p e) (typeBits s.hart.ty / 8) (elemOf (s.hart.getV r.toNat) (typeBits s.hart.ty) e) := by
  intro row hrow p hp
  obtain ⟨hi, hx⟩ := stores_access s r vb a b m o row hrow
  have hl := elementPlaces_places hi hs hp
  obtain ⟨ps, he, hps, hh⟩ := memoryEntry_places hf hi.own hl h.user
  obtain ⟨hc, hpos, hlt⟩ := ceilDiv_typeBits hty
  have hq : ∀ q ∈ elementStores s row.1 r ps, Joining q := fun q hq => by
    obtain ⟨x, -, rfl⟩ := List.mem_map.1 hq
    exact storeElem_joining (memoryState_entries h row.1) _ _ _ _ _ (hc ▸ hpos) (hc ▸ hlt)
  obtain ⟨t, ht⟩ := store_completes h hf hn hw hi hl hq (by
    rw [accessSpans_unscaled hs] at he
    rw [hx, vectorStore]
    simp only [memoryState_hart, memoryRefused_unscaled hs hty, Bool.false_eq_true, if_false,
      requireIndices_empty (memoryState_entries h row.1), bind_ok, memoryEntry_scaled, hs, Bool.not_false, if_true]
    refine (congrArg (Res.bind · _) he).trans ?_
    rw [bind_ok, joinStores_memory (fun e he => ?_) hh, List.map_map]
    · rfl
    · obtain ⟨x, -, rfl⟩ := List.mem_map.1 he
      exact storeElem_joining (memoryState_entries h row.1) _ _ _ _ _ (hc ▸ hpos) (hc ▸ hlt))
  exact ⟨_, t, ht.1, ht.2.1, ht.2.2, elementStores_cells hty hps⟩

/-! ### The elements of a scaled store -/

/-- The store elements of a block, with its scale byte last. -/
def blockStores (s : State) (i : Instr) (r : VReg) (k : Nat) (ps : List Placed) : List (Nat × Pending) :=
  storeBlock s.here s.me (memoryEntry s i) r.toNat k ps (memoryState s i)

/-- The cells of byte `i` of block `k` at place `p`: of an fp4 block one for each half of it. -/
def storedByte (s : State) (r : VReg) (k i p : Nat) : List StoreCell :=
  let vr : Nat → Nat := elemOf (s.hart.getV r.toNat) (typeBits s.hart.ty)
  if s.hart.ty = 10 then
    [⟨p, BitVec.ofNat 8 (vr (16 * k + 2 * i)), 0x0F⟩, ⟨p, BitVec.ofNat 8 (vr (16 * k + 2 * i + 1) * 16), 0xF0⟩]
  else cellsOf p 1 (vr (16 * k + i))

/-- The cells of a block whose bytes have the places `l`, its scale byte last. -/
def blockCells (s : State) (r : VReg) (k : Nat) (l : List Nat) : List StoreCell :=
  ((l.take (blockBytes s.hart.ty)).zipIdx.flatMap fun x => storedByte s r k x.2 x.1) ++
    (l.drop (blockBytes s.hart.ty)).flatMap fun p => cellsOf p 1 (sideByte (s.hart.getSide r.toNat) (scaleIndex s.hart.ty k))

theorem storeNibble_joining {c : Nat} {t : State} (he : (t.core c).land.entries = []) (h : Nat) (v : VEntry) (r e : Nat) (p : Placed) :
    Joining (storeNibble c h v r e p t) := by
  unfold storeNibble
  refine keep_joining (joining_of_holes ?_ (joining_of_cells (List.cons_ne_nil _ _) (Nat.one_lt_ofNat (n := 64)))) _ _ _
  rw [patchesTo_empty he]
  rfl

theorem storeNibble_cells (c h : Nat) (v : VEntry) (r e : Nat) (p : Placed) (t : State) : (storeNibble c h v r e p t).cells =
    [⟨p.2.1, BitVec.ofNat 8 (elemOf ((t.hartAt c h).getV r) 4 e * 2 ^ (4 * (e % 2))), BitVec.ofNat 8 (15 * 2 ^ (4 * (e % 2)))⟩] := by
  unfold storeNibble
  exact keep_cells _ _ _ _

theorem blockStores_joining (h : VectorReady s) {i : Instr} {r : VReg} {k : Nat} {ps : List Placed} :
    ∀ e ∈ blockStores s i r k ps, Joining e.2 := by
  have hent := memoryState_entries h i
  intro e he
  unfold blockStores storeBlock at he
  rcases List.mem_append.1 he with he | he
  · obtain ⟨⟨p, j⟩, -, he⟩ := List.mem_flatMap.1 he
    dsimp only at he
    by_cases h10 : (memoryEntry s i).ty = 10
    · rw [if_pos h10] at he
      rcases List.mem_cons.1 he with rfl | he
      · exact storeNibble_joining hent _ _ _ _ _
      · rw [List.mem_singleton.1 he]
        exact storeNibble_joining hent _ _ _ _ _
    · rw [if_neg h10] at he
      rw [List.mem_singleton.1 he]
      exact storeElem_joining hent _ _ _ _ _ (by decide) (by decide)
  · obtain ⟨x, -, rfl⟩ := List.mem_map.1 he
    exact keep_joining (joining_cellsOf (by decide) (by decide)) _ _ _

theorem blockStores_cells {i : Instr} {r : VReg} {k : Nat} {ps : List Placed} (hty : s.hart.ty ∈ [8, 9, 10]) :
    (blockStores s i r k ps).flatMap (fun e => e.2.cells) = blockCells s r k (ps.map fun p => p.2.1) := by
  have hside : ((memoryState s i).hartAt s.here s.me).getSide r.toNat = s.hart.getSide r.toNat := by
    rw [memoryState_hart]
    rfl
  unfold blockStores storeBlock blockCells
  simp only [show (memoryEntry s i).ty = s.hart.ty from rfl]
  rw [List.flatMap_append, List.flatMap_assoc, List.flatMap_map, ← List.map_take, ← List.map_drop, List.zipIdx_map,
    List.flatMap_map, List.flatMap_map]
  refine congrArg₂ (· ++ ·) (List.flatMap_congr fun x _ => ?_) (List.flatMap_congr fun x _ => ?_)
  · unfold storedByte
    by_cases h10 : s.hart.ty = 10
    · have h0 : (16 * k + 2 * x.2) % 2 = 0 := by omega
      have h1 : (16 * k + 2 * x.2 + 1) % 2 = 1 := by omega
      rw [if_pos h10, if_pos h10, List.flatMap_cons, List.flatMap_cons, storeNibble_cells, storeNibble_cells, memoryState_getV, h0, h1,
        h10]
      simp [typeBits]
    · have h8 : typeBits s.hart.ty = 8 := by
        simp only [List.mem_cons, List.not_mem_nil, or_false, h10] at hty
        rcases hty with e | e <;> rw [e] <;> rfl
      rw [if_neg h10, if_neg h10, List.flatMap_singleton, storeElem_cells, memoryState_getV, h8]
      rfl
  · rw [keep_cells, hside]

end

end Sys2Proof.Machine

namespace Sys2Proof.Machine

/-! ### The bytes that a store writes -/

/-- Two memories of the same bytes. -/
structure SameBytes (m n : Memory) : Prop where
  left : m.wf = true
  right : n.wf = true
  bytes : ∀ x, readPlace m x = readPlace n x

theorem SameBytes.writePlace {m n : Memory} (h : SameBytes m n) (p : Nat) (b : Byte) : SameBytes (writePlace m p b) (writePlace n p b) where
  left := writePlace_wf _ _ h.left
  right := writePlace_wf _ _ h.right
  bytes := fun x => by
    by_cases hx : x = p
    · rw [hx, readPlace_writePlace_same _ _ h.left, readPlace_writePlace_same _ _ h.right]
    · rw [readPlace_writePlace_ne _ _ hx, readPlace_writePlace_ne _ _ hx, h.bytes]

/-- The two halves of a byte, whatever it was. -/
theorem byte_of_nibbles (old : Byte) {u w : Nat} (hu : u < 16) (hw : w < 16) :
    ((old &&& ~~~0x0F ||| BitVec.ofNat 8 u &&& 0x0F) &&& ~~~0xF0) ||| (BitVec.ofNat 8 (w * 16) &&& 0xF0) =
      BitVec.ofNat 8 (u + 16 * w) := by
  have hold : ∀ old : Byte, old &&& ~~~0x0F &&& ~~~0xF0 = 0 := by decide
  have hall : ∀ u, u < 16 → ∀ w, w < 16 → (0 ||| (BitVec.ofNat 8 u &&& 0x0F &&& ~~~0xF0)) ||| (BitVec.ofNat 8 (w * 16) &&& 0xF0) =
      BitVec.ofNat 8 (u + 16 * w) := by decide
  have hdist : ∀ x y z : Byte, (x ||| y) &&& z = (x &&& z) ||| (y &&& z) := fun x y z => by
    ext i
    simp [Bool.and_or_distrib_right]
  rw [hdist, hold]
  exact hall u hu w hw

theorem SameBytes.nibbles {m n : Memory} (h : SameBytes m n) (p : Nat) {u w : Nat} (hu : u < 16) (hw : w < 16) :
    SameBytes (writeCell (writeCell m ⟨p, BitVec.ofNat 8 u, 0x0F⟩) ⟨p, BitVec.ofNat 8 (w * 16), 0xF0⟩)
      (Machine.writePlace n p (BitVec.ofNat 8 (u + 16 * w))) where
  left := writePlace_wf _ _ (writePlace_wf _ _ h.left)
  right := writePlace_wf _ _ h.right
  bytes := fun x => by
    have hm := writePlace_wf p (readPlace m p &&& ~~~0x0F ||| BitVec.ofNat 8 u &&& 0x0F) h.left
    unfold writeCell
    dsimp only
    by_cases hx : x = p
    · rw [hx, readPlace_writePlace_same _ _ hm, readPlace_writePlace_same _ _ h.right, readPlace_writePlace_same _ _ h.left]
      exact byte_of_nibbles _ hu hw
    · rw [readPlace_writePlace_ne _ _ hx, readPlace_writePlace_ne _ _ hx, readPlace_writePlace_ne _ _ hx, h.bytes]

/-- Stores that write the same bytes part by part. -/
theorem SameBytes.flatMap {α : Type} {f : α → List StoreCell} {g : α → List (Nat × Nat)}
    (hfg : ∀ x m n, SameBytes m n → SameBytes ((f x).foldl writeCell m) (written n 1 (g x))) (l : List α) {m n : Memory}
    (h : SameBytes m n) : SameBytes ((l.flatMap f).foldl writeCell m) (written n 1 (l.flatMap g)) := by
  induction l generalizing m n with
  | nil => exact h
  | cons x l ih =>
    rw [List.flatMap_cons, List.flatMap_cons, List.foldl_append, written, List.foldl_append]
    exact ih (hfg x m n h)

section
variable {s : State}

/-- The number in byte `i` of block `k` of a register (R120). -/
def blockByte (s : State) (r : VReg) (k i : Nat) : Nat :=
  let vr : Nat → Nat := elemOf (s.hart.getV r.toNat) (typeBits s.hart.ty)
  if s.hart.ty = 10 then vr (16 * k + 2 * i) + 16 * vr (16 * k + 2 * i + 1) else vr (16 * k + i)

theorem storedByte_writes (r : VReg) (k i p : Nat) {m n : Memory} (h : SameBytes m n) :
    SameBytes ((storedByte s r k i p).foldl writeCell m) (written n 1 [(p, blockByte s r k i)]) := by
  unfold storedByte blockByte
  dsimp only
  by_cases h10 : s.hart.ty = 10
  · have hlt : ∀ e, elemOf (s.hart.getV r.toNat) (typeBits s.hart.ty) e < 16 := fun e => by
      rw [h10]
      exact Nat.mod_lt _ (by decide)
    rw [if_pos h10, if_pos h10]
    exact h.nibbles p (hlt _) (hlt _)
  · rw [if_neg h10, if_neg h10, foldl_cellsOf]
    exact h.writePlace p _

theorem blockCells_eq (r : VReg) (k : Nat) (p : Nat → Nat) (q : Nat) :
    blockCells s r k ((List.range (blockBytes s.hart.ty)).map p ++ [q]) =
      ((List.range (blockBytes s.hart.ty)).flatMap fun i => storedByte s r k i (p i)) ++
        cellsOf q 1 (sideByte (s.hart.getSide r.toNat) (scaleIndex s.hart.ty k)) := by
  have hlen : ((List.range (blockBytes s.hart.ty)).map p).length = blockBytes s.hart.ty := by simp
  rw [blockCells, List.take_left' hlen, List.drop_left' hlen, zipIdx_map_range, List.flatMap_map, List.flatMap_singleton]

/-- The bytes of a block, its scale byte last, as a store writes them. -/
theorem blockCells_writes (r : VReg) (k : Nat) (p : Nat → Nat) (q : Nat) {m n : Memory} (h : SameBytes m n) :
    SameBytes ((blockCells s r k ((List.range (blockBytes s.hart.ty)).map p ++ [q])).foldl writeCell m)
      (written n 1 (((List.range (blockBytes s.hart.ty)).map fun i => (p i, blockByte s r k i)) ++
        [(q, sideByte (s.hart.getSide r.toNat) (scaleIndex s.hart.ty k))])) := by
  rw [blockCells_eq, List.foldl_append, written, List.foldl_append, foldl_cellsOf, List.map_eq_flatMap]
  exact (SameBytes.flatMap (fun i m n hmn => storedByte_writes r k i (p i) hmn) _ h).writePlace q _

theorem storedByte_places (r : VReg) (k i p : Nat) {x : Nat} : x ∈ (storedByte s r k i p).map (·.place) ↔ x = p := by
  unfold storedByte
  dsimp only
  split <;> simp [cellsOf, indices]

theorem blockCells_places (r : VReg) (k : Nat) (p : Nat → Nat) (q : Nat) {x : Nat} :
    x ∈ (blockCells s r k ((List.range (blockBytes s.hart.ty)).map p ++ [q])).map (·.place) ↔
      x ∈ (List.range (blockBytes s.hart.ty)).map p ++ [q] := by
  rw [blockCells_eq, List.map_append, List.mem_append, List.mem_append, List.map_flatMap]
  refine or_congr ?_ (by simp [cellsOf, indices])
  rw [List.mem_flatMap, List.mem_map]
  exact ⟨fun ⟨i, hi, hx⟩ => ⟨i, hi, ((storedByte_places r k i _).1 hx).symm⟩,
    fun ⟨i, hi, hx⟩ => ⟨i, hi, (storedByte_places r k i _).2 hx.symm⟩⟩

/-- The bytes of a store, of which the lines that they cover whole are no longer poisoned. -/
theorem StoresTo.poison_of_bytes {t : State} {qs : List Pending} (h : StoresTo qs s t) {bytes : List Nat}
    (hb : ∀ x, x ∈ (qs.flatMap (·.cells)).map (·.place) ↔ x ∈ bytes) :
    t.poison = s.poison.filter fun l => !(l % 64 == 0 && (List.range 64).all fun i => bytes.contains (l + i)) := by
  rw [h.poison]
  refine List.filter_congr fun l _ => ?_
  have e : ∀ x, (qs.flatMap fun p => p.cells.map (·.place)).contains x = bytes.contains x := fun x => by
    rw [Bool.eq_iff_iff, List.contains_iff_mem, List.contains_iff_mem, ← hb, List.map_flatMap]
  simp only [e]

/-- The cells of the active blocks of a scaled store. -/
theorem blockStores_all {i : Instr} {a b : XReg} {m : MReg} {row : Instr × Nat} (hb : IsBlockAccess s a b m row)
    (hty : s.hart.ty ∈ [8, 9, 10]) {r : VReg} {p : Nat → Nat → Nat} {q : Nat → Nat} {ps : List Placed}
    (hps : ps.map (fun p => (p.1, p.2.1)) = blockPlaces s a b m row.2 p q) :
    ((blockSpans s.hart (memoryEntry s row.1) (formOf 0 row.2) m.toNat).zipIdx.flatMap fun x => blockStores s i r x.1.1
      ((ps.drop (x.2 * (blockBytes s.hart.ty + 1))).take (blockBytes s.hart.ty + 1))).flatMap (fun e => e.2.cells) =
      (activeBlocks s m).flatMap fun k => blockCells s r k ((List.range (blockBytes s.hart.ty)).map (p k) ++ [q k]) := by
  have hpl : ps.map (fun p => p.2.1) = (activeBlocks s m).flatMap fun k =>
      (List.range (blockBytes s.hart.ty)).map (p k) ++ [q k] := by
    have e := congrArg (List.map Prod.snd) hps
    rw [List.map_map, blockPlaces, List.map_flatMap] at e
    refine e.trans (List.flatMap_congr fun k _ => ?_)
    rw [blockChunk, List.map_append, List.map_map]
    rfl
  have hchunks := zipIdx_chunks (n := blockBytes s.hart.ty + 1) (activeBlocks s m)
    (f := fun k => (List.range (blockBytes s.hart.ty)).map (p k) ++ [q k]) fun k _ => by simp
  have e : blockSpans s.hart (memoryEntry s row.1) (formOf 0 row.2) m.toNat = _ := hb
  rw [e, List.zipIdx_map, List.flatMap_map, List.flatMap_assoc]
  simp only [blockStores_cells hty, List.map_take, List.map_drop, hpl]
  have hg := congrArg (List.flatMap fun y : Nat × List Nat => blockCells s r y.1 y.2) hchunks
  rw [List.flatMap_map, List.flatMap_map] at hg
  exact hg

/-- Vector stores with S = 1, of every space. -/
theorem vectorStore_blocks (h : VectorReady s) (hf : s.hart.VlFits) (hn : NoSample s) (hw : s.hart.run.wait = none)
    (r : VReg) (a b : XReg) (m : MReg) (o : BitVec 2) (hm : s.hart.Blocks m) (hty : s.hart.ty ∈ [8, 9, 10]) :
    ∀ row ∈ [(Instr.vst r a m o, 0), (.vsts r a b m o, 1)], ∀ (p : Nat → Nat → Nat) (q : Nat → Nat),
      (∀ k ∈ activeBlocks s m,
        (∀ i, i < blockBytes s.hart.ty → SpanAt s.hart.vec.mspace.toNat .write
          ((blockAddrs s.hart a b (blockBytes s.hart.ty) row.2 k).1 + BitVec.ofNat 64 i) 1 (p k i) s) ∧
        SpanAt s.hart.vec.mspace.toNat .write (blockAddrs s.hart a b (blockBytes s.hart.ty) row.2 k).2 1 (q k) s) →
      ∃ qs t, exec row.1 s = .next t ∧ t.hart = s.hart.afterVector 4 0 false ∧ StoresTo qs s t ∧
        qs.flatMap (·.cells) = (activeBlocks s m).flatMap fun k =>
          blockCells s r k ((List.range (blockBytes s.hart.ty)).map (p k) ++ [q k]) := by
  intro row hrow p q hp
  obtain ⟨hmem, hr, hb⟩ := (blockRows_access s r a b m o).2 row hrow
  obtain ⟨hi, hx⟩ := stores_access s r 0 a b m o row hmem
  have hl := blockPlaces_places hb hm hp
  obtain ⟨ps, he, hps, hh⟩ := memoryEntry_places hf hi.own hl h.user
  let qs := (blockSpans s.hart (memoryEntry s row.1) (formOf 0 row.2) m.toNat).zipIdx.flatMap fun x => blockStores s row.1 r x.1.1
      ((ps.drop (x.2 * (blockBytes s.hart.ty + 1))).take (blockBytes s.hart.ty + 1))
  have hq : ∀ e ∈ qs, Joining e.2 := fun e he => by
    obtain ⟨x, -, he⟩ := List.mem_flatMap.1 he
    exact blockStores_joining h e he
  obtain ⟨t, ht⟩ := store_completes (qs := qs.map (·.2)) h hf hn hw hi hl (fun x hx => by
      obtain ⟨e, he, rfl⟩ := List.mem_map.1 hx
      exact hq e he) (by
    rw [accessSpans, memoryEntry_scaled, hm.1, if_pos rfl] at he
    rw [hx, vectorStore]
    simp only [memoryState_hart, memoryRefused_blocks hm hty hr, Bool.false_eq_true, if_false,
      requireIndices_empty (memoryState_entries h row.1), bind_ok, memoryEntry_scaled, hm.1, Bool.not_true]
    refine (congrArg (Res.bind · _) he).trans ?_
    rw [bind_ok]
    exact joinStores_memory hq hh _)
  refine ⟨_, t, ht.1, ht.2.1, ht.2.2, ?_⟩
  rw [List.flatMap_map]
  exact blockStores_all hb hty hps

end

end Sys2Proof.Machine

namespace Sys2Proof.Machine

section
variable {s : State}

/-- The memory of a store of whole bytes. -/
theorem elementStores_mem {qs : List Pending} {n : Nat} {p w : Nat → Nat} {l : List Nat}
    (h : qs.map (·.cells) = l.map fun e => cellsOf (p e) n (w e)) (m : Memory) :
    (qs.flatMap (·.cells)).foldl writeCell m = written m n (l.map fun e => (p e, w e)) := by
  rw [List.flatMap_def, h, ← List.flatMap_def, List.foldl_flatMap, written, List.foldl_map]
  simp only [foldl_cellsOf]

theorem elementStores_places {qs : List Pending} {n : Nat} {p w : Nat → Nat} {l : List Nat}
    (h : qs.map (·.cells) = l.map fun e => cellsOf (p e) n (w e)) :
    (qs.flatMap (·.cells)).map (·.place) = l.flatMap fun e => (List.range n).map fun i => p e + i := by
  rw [List.flatMap_def, h, ← List.flatMap_def, List.map_flatMap]
  refine List.flatMap_congr fun e _ => ?_
  rw [cellsOf, List.map_map]
  rfl

theorem sameBytes_refl (hs : s.Sound) : SameBytes s.mem s.mem := ⟨hs, hs, fun _ => rfl⟩

/-- The memory of a scaled store. -/
theorem blockStores_mem (hs : s.Sound) {qs : List Pending} {l : List Nat} {r : VReg} {p : Nat → Nat → Nat} {q : Nat → Nat}
    (h : qs.flatMap (·.cells) = l.flatMap fun k => blockCells s r k ((List.range (blockBytes s.hart.ty)).map (p k) ++ [q k])) (x : Nat) :
    readPlace ((qs.flatMap (·.cells)).foldl writeCell s.mem) x = readPlace (written s.mem 1 (l.flatMap fun k =>
      ((List.range (blockBytes s.hart.ty)).map fun i => (p k i, blockByte s r k i)) ++
        [(q k, sideByte (s.hart.getSide r.toNat) (scaleIndex s.hart.ty k))])) x := by
  rw [h]
  exact (SameBytes.flatMap (fun k m n hmn => blockCells_writes r k (p k) (q k) hmn) l (sameBytes_refl hs)).bytes x

theorem blockStores_places {qs : List Pending} {l : List Nat} {r : VReg} {p : Nat → Nat → Nat} {q : Nat → Nat}
    (h : qs.flatMap (·.cells) = l.flatMap fun k => blockCells s r k ((List.range (blockBytes s.hart.ty)).map (p k) ++ [q k])) (x : Nat) :
    x ∈ (qs.flatMap (·.cells)).map (·.place) ↔ x ∈ l.flatMap fun k => (List.range (blockBytes s.hart.ty)).map (p k) ++ [q k] := by
  rw [h, List.map_flatMap, List.mem_flatMap, List.mem_flatMap]
  exact exists_congr fun k => and_congr_right fun _ => blockCells_places r k (p k) (q k)

end

/-- Settles O43: a load reads the places of its ranges with nothing before it, and gives their bytes to the active elements;
the elements of a store all commit as they join the queue. -/
theorem vectorLoadStoreResults : Obligations.VectorLoadStoreResults := by
  unfold Obligations.VectorLoadStoreResults
  refine ⟨fun s r vb a b m o h hf hn => ⟨fun hs hty row hrow p hp => ?_, fun hm hty row hrow p q hp => ?_⟩,
    fun s r vb a b m o h hf hsound hn hw => ⟨fun hs hty row hrow p hp => ?_, fun hm hty row hrow p q hp => ?_⟩⟩
  · exact vectorLoad_elements h hf hn hs hty r vb a b m o row hrow p hp
  · exact vectorLoad_blocks h hf hn r a b m o hm hty row hrow p q hp
  · obtain ⟨qs, t, ht, hh, k, hc⟩ := vectorStore_elements h hf hn hw hs hty r vb a b m o row hrow p hp
    refine ⟨t, ht, hh, fun x => ?_, k.poison_of_bytes fun x => ?_, k.wharf, k.host, k.dies, k.others⟩
    · rw [k.mem, elementStores_mem hc]
    · rw [elementStores_places hc]
  · obtain ⟨qs, t, ht, hh, k, hc⟩ := vectorStore_blocks h hf hn hw r a b m o hm hty row hrow p q hp
    refine ⟨t, ht, hh, fun x => ?_, k.poison_of_bytes fun x => ?_, k.wharf, k.host, k.dies, k.others⟩
    · rw [k.mem]
      exact blockStores_mem hsound hc x
    · exact blockStores_places hc x

end Sys2Proof.Machine

namespace Sys2Proof.Machine

/-! ## Pre-emption and restore (R91, R101, R209, R211, R215 to R217) -/

/-! ### What a record of the save area gives a hart -/

/-- The registers that a record holds before its control block, and what no record changes. -/
structure SameRegs (y z : Hart) : Prop where
  x : z.x = y.x
  k : z.k = y.k
  b : z.b = y.b
  v : z.vec.v = y.vec.v
  grant : z.vec.grant = y.vec.grant
  written : z.vec.written = y.vec.written
  running : z.run.running = y.run.running

theorem SameRegs.refl (x : Hart) : SameRegs x x := ⟨rfl, rfl, rfl, rfl, rfl, rfl, rfl⟩

theorem SameRegs.trans {x y z : Hart} (a : SameRegs x y) (b : SameRegs y z) : SameRegs x z :=
  ⟨b.x.trans a.x, b.k.trans a.k, b.b.trans a.b, b.v.trans a.v, b.grant.trans a.grant, b.written.trans a.written,
    b.running.trans a.running⟩

theorem SameRegs.foldl {α : Type} {f : Hart → α → Hart} {l : List α} (hf : ∀ x, ∀ a ∈ l, SameRegs x (f x a)) (x : Hart) :
    SameRegs x (l.foldl f x) := by
  induction l generalizing x with
  | nil => exact .refl x
  | cons a l ih => exact (hf x a (List.mem_cons_self ..)).trans (ih (fun y b hb => hf y b (List.mem_cons_of_mem a hb)) _)

/-- Of the control registers that the obligation names, a write of number `i` changes at most that one. -/
structure ControlBut (i : Nat) (x y : Hart) : Prop where
  regs : SameRegs x y
  pc : y.pc = x.pc
  vl : i ≠ 0x000 → y.vec.vl = x.vec.vl
  vtype : i ≠ 0x001 → y.vec.vtype = x.vec.vtype
  tpc : i ≠ 0x020 → y.tr.tpc = x.tr.tpc
  tcause : i ≠ 0x022 → y.tr.tcause = x.tr.tcause
  sup : i ≠ 0x02B → y.tr.sup = x.tr.sup
  ptbase : i ≠ 0x100 → y.ms.ptbase = x.ms.ptbase

theorem ControlBut.refl (i : Nat) (x : Hart) : ControlBut i x x :=
  ⟨.refl x, rfl, fun _ => rfl, fun _ => rfl, fun _ => rfl, fun _ => rfl, fun _ => rfl, fun _ => rfl⟩

theorem writeCtl_controlBut (x : Hart) (i : Nat) (w : Word) (hi : i ≠ 0x022) : ControlBut i x (x.writeCtl i w) := by
  unfold Hart.writeCtl
  split
  case h_14 => exact absurd rfl hi
  case h_3 | h_24 =>
    split
    · exact .refl _ x
    · exact ⟨⟨rfl, rfl, rfl, rfl, rfl, rfl, rfl⟩, rfl, fun _ => rfl, fun _ => rfl, fun _ => rfl, fun _ => rfl, fun _ => rfl, fun _ => rfl⟩
  case h_25 => exact .refl _ x
  all_goals exact ⟨⟨rfl, rfl, rfl, rfl, rfl, rfl, rfl⟩, rfl, by simp, by simp, by simp, by simp, by simp, by simp⟩

theorem setSaved_controlBut (x : Hart) (i : Nat) (w : Word) : ControlBut i x (x.setSaved i w) := by
  unfold Hart.setSaved
  split
  case h_19 => exact writeCtl_controlBut x _ w (by assumption)
  all_goals exact ⟨⟨rfl, rfl, rfl, rfl, rfl, rfl, rfl⟩, rfl, by simp, by simp, by simp, by simp, by simp, by simp⟩

end Sys2Proof.Machine

namespace Sys2Proof.Machine

/-- The registers of R217 that the obligation names, and the trap registers, are the same. -/
structure SameHart (y z : Hart) : Prop extends SameRegs y z where
  pc : z.pc = y.pc
  vl : z.vec.vl = y.vec.vl
  vtype : z.vec.vtype = y.vec.vtype
  tr : z.tr = y.tr
  ptbase : z.ms.ptbase = y.ms.ptbase

theorem SameHart.refl (y : Hart) : SameHart y y := ⟨.refl y, rfl, rfl, rfl, rfl, rfl⟩

theorem SameHart.trans {x y z : Hart} (a : SameHart x y) (b : SameHart y z) : SameHart x z :=
  ⟨a.toSameRegs.trans b.toSameRegs, b.pc.trans a.pc, b.vl.trans a.vl, b.vtype.trans a.vtype, b.tr.trans a.tr, b.ptbase.trans a.ptbase⟩

theorem SameHart.of_id (y : Hart) (i : IdState) : SameHart y { y with id := i } := ⟨⟨rfl, rfl, rfl, rfl, rfl, rfl, rfl⟩, rfl, rfl, rfl, rfl, rfl⟩

/-- What has no registers of R217 in it but the front PC. -/
theorem SameRegs.of_parts (y : Hart) (pc : BitVec 48) (i : IdState) (m : MemState) (r : RecState) (l : LoopState) (e f : List VEntry) :
    SameRegs y { y with pc := pc, id := i, ms := m, rc := r, lp := l, vec := { y.vec with held := e, viq := f } } :=
  ⟨rfl, rfl, rfl, rfl, rfl, rfl, rfl⟩

theorem setVstart_same (y : Hart) (n : Nat) : SameHart y (y.setVstart n) := by
  unfold Hart.setVstart
  split <;> exact ⟨⟨rfl, rfl, rfl, rfl, rfl, rfl, rfl⟩, rfl, rfl, rfl, rfl, rfl⟩

section
variable (y : Hart) (mem : Memory) (p : Nat)

/-- The hart behind the control registers of a record. -/
def controlled : Hart := savedCtl.zipIdx.foldl (fun x e => x.setSaved e.1 (areaWord mem p (3 + e.2)))
  { y with pc := BitVec.ofNat 48 (areaWord mem p 0).toNat, id := { y.id with rank := BitVec.ofNat 2 (wbits (areaWord mem p 2) 32 2) } }

theorem reloadControl_eq : y.reloadControl mem p = (controlled y mem p).setVstart (wbits (areaWord mem p 2) 0 13) := rfl

theorem foldl_setSaved_kept {β : Type} (f : Hart → β) {i : Nat} (hf : ∀ j w x, j ≠ i → f (Hart.setSaved x j w) = f x)
    {l : List (Nat × Nat)} (hl : ∀ e ∈ l, e.1 ≠ i) (x : Hart) :
    f (l.foldl (fun x e => x.setSaved e.1 (areaWord mem p (3 + e.2))) x) = f x := by
  induction l generalizing x with
  | nil => rfl
  | cons e l ih => exact (ih (fun x hx => hl x (List.mem_cons_of_mem e hx)) _).trans (hf _ _ _ (hl e (List.mem_cons_self ..)))

/-- A field that one control register gives has its value in the record. -/
theorem controlled_field {β : Type} (f : Hart → β) (g : Word → β) {i k : Nat}
    (hf : ∀ j w x, j ≠ i → f (Hart.setSaved x j w) = f x) (hg : ∀ x w, f (Hart.setSaved x i w) = g w)
    (hk : savedCtl.zipIdx.drop k = (i, k) :: savedCtl.zipIdx.drop (k + 1)) (hl : ∀ e ∈ savedCtl.zipIdx.drop (k + 1), e.1 ≠ i) :
    f (controlled y mem p) = g (areaWord mem p (3 + k)) := by
  rw [controlled, ← List.take_append_drop k savedCtl.zipIdx, List.foldl_append, hk, List.foldl_cons,
    foldl_setSaved_kept mem p f hf hl, hg]

theorem controlled_regs : SameRegs y (controlled y mem p) :=
  (SameRegs.of_parts y _ _ y.ms y.rc y.lp y.vec.held y.vec.viq).trans
    (SameRegs.foldl (fun x (e : Nat × Nat) _ => (setSaved_controlBut x e.1 (areaWord mem p (3 + e.2))).regs) _)

theorem controlled_pc : (controlled y mem p).pc = BitVec.ofNat 48 (areaWord mem p 0).toNat :=
  foldl_setSaved_kept mem p (·.pc) (i := 0x400) (fun j w x _ => (setSaved_controlBut x j w).pc) (by decide) _

theorem controlled_vtype : (controlled y mem p).vec.vtype = areaWord mem p 3 :=
  controlled_field (i := 0x001) (k := 0) y mem p (·.vec.vtype) id (fun j w x h => (setSaved_controlBut x j w).vtype h) (fun _ _ => rfl) rfl (by decide)

theorem controlled_vl : (controlled y mem p).vec.vl = (areaWord mem p 4).toNat :=
  controlled_field (i := 0x000) (k := 1) y mem p (·.vec.vl) BitVec.toNat (fun j w x h => (setSaved_controlBut x j w).vl h) (fun _ _ => rfl) rfl (by decide)

theorem controlled_tpc : (controlled y mem p).tr.tpc = areaWord mem p 14 :=
  controlled_field (i := 0x020) (k := 11) y mem p (·.tr.tpc) id (fun j w x h => (setSaved_controlBut x j w).tpc h) (fun _ _ => rfl) rfl (by decide)

theorem controlled_tcause : (controlled y mem p).tr.tcause = areaWord mem p 16 :=
  controlled_field (i := 0x022) (k := 13) y mem p (·.tr.tcause) id (fun j w x h => (setSaved_controlBut x j w).tcause h) (fun _ _ => rfl) rfl (by decide)

theorem controlled_sup : (controlled y mem p).tr.sup = (areaWord mem p 25).getLsbD 0 :=
  controlled_field (i := 0x02B) (k := 22) y mem p (·.tr.sup) (·.getLsbD 0) (fun j w x h => (setSaved_controlBut x j w).sup h) (fun _ _ => rfl) rfl (by decide)

theorem controlled_ptbase : (controlled y mem p).ms.ptbase = areaWord mem p 29 :=
  controlled_field (i := 0x100) (k := 26) y mem p (·.ms.ptbase) id (fun j w x h => (setSaved_controlBut x j w).ptbase h) (fun _ _ => rfl) rfl (by decide)

theorem areaWord_toNat (i : Nat) : (areaWord mem p i).toNat = readNat mem (p + 8 * i) 8 := toNat_word_readNat mem (p + 8 * i)

/-! ### What the parts of a record leave -/

theorem reloadRest_regs (locate : Nat → Nat → Option Nat) (n : Nat) : SameRegs y (y.reloadRest mem locate p n) :=
  SameRegs.of_parts y y.pc y.id _ _ y.lp y.vec.held y.vec.viq

theorem reloadLoop_regs : SameRegs y (y.reloadLoop mem p) := by
  unfold Hart.reloadLoop
  have h := SameRegs.foldl (l := indices 4) (f := fun x i => Hart.writeCtl x (0x010 + i) (areaWord mem p i))
    (fun x i hi => (writeCtl_controlBut x (0x010 + i) _ (by have := List.mem_range.1 hi; omega)).regs) y
  exact h.trans (SameRegs.of_parts _ _ _ _ _ _ _ _)

theorem reloadQueues_regs (locate : Nat → Nat → Option Nat) : SameRegs y (y.reloadQueues mem locate p) := by
  unfold Hart.reloadQueues
  refine SameRegs.trans ?_ (SameRegs.foldl (fun x e _ => ?_) _)
  · exact SameRegs.of_parts y y.pc y.id _ y.rc y.lp _ _
  · exact SameRegs.of_parts x x.pc x.id _ x.rc _ _ _

theorem reloadHeader_same : SameHart y (y.reloadHeader mem p) := .of_id y _

end

end Sys2Proof.Machine

namespace Sys2Proof.Machine

theorem lookup_map_pair {α : Type} (f : Nat → α) {l : List Nat} {r : Nat} (h : r ∈ l) : lookup (l.map fun i => (i, f i)) r = some (f r) := by
  induction l with
  | nil => exact absurd h List.not_mem_nil
  | cons i l ih =>
    rw [List.map_cons, lookup]
    split
    next e => rw [e]
    next e => exact ih ((List.mem_cons.1 h).resolve_left fun he => e he.symm)

/-- Bits of a byte that come one from each of eight numbers. -/
theorem getLsbD_sum (a : Nat → Nat) {k : Nat} (hk : k < 8) :
    (BitVec.ofNat 8 ((indices 8).foldl (fun w i => w + a i % 2 * 2 ^ i) 0)).getLsbD k = true ↔ a k % 2 = 1 := by
  have hs : (indices 8).foldl (fun w i => w + a i % 2 * 2 ^ i) 0 = a 0 % 2 + a 1 % 2 * 2 + a 2 % 2 * 4 + a 3 % 2 * 8 +
      a 4 % 2 * 16 + a 5 % 2 * 32 + a 6 % 2 * 64 + a 7 % 2 * 128 := by
    simp [indices, List.range_succ]
  rw [hs, BitVec.getLsbD_ofNat, decide_eq_true hk, Bool.true_and, Nat.testBit_eq_decide_div_mod_eq, decide_eq_true_eq]
  interval_cases k <;> omega

section
variable (y : Hart) (mem : Memory) (locate : Nat → Nat → Option Nat) (p n : Nat)

/-- What a record, which begins at a place, gives the registers of a hart (R217). -/
structure FromRecord (y : Hart) (mem : Memory) (p : Nat) (z : Hart) : Prop where
  pc : z.pc = BitVec.ofNat 48 (readNat mem (p + 640) 8)
  vtype : z.vec.vtype.toNat = readNat mem (p + 664) 8
  vl : z.vec.vl = readNat mem (p + 672) 8
  tpc : z.tr.tpc.toNat = readNat mem (p + 752) 8
  tcause : z.tr.tcause.toNat = readNat mem (p + 768) 8
  sup : z.tr.sup = true ↔ readNat mem (p + 840) 8 % 2 = 1
  ptbase : z.ms.ptbase.toNat = readNat mem (p + 872) 8
  x : ∀ r, 0 < r → r < 64 → (z.getX r).toNat = readNat mem (p + 8 * r) 8
  k : ∀ k, k < 8 → (z.k.getLsbD k = true ↔ readNat mem (p + 512 + k) 1 % 2 = 1)
  b : ∀ b, b < 8 → z.getB b = TReg.restored (readNat mem (p + 576 + 8 * b) 8)
  v : ∀ r n rest, y.vec.written = (r, n) :: rest → z.getV r = BitVec.ofNat 16384 (readNat mem (p + 7872) n)
  grant : z.vec.grant = y.vec.grant
  written : z.vec.written = y.vec.written
  running : z.run.running = y.run.running

/-- The registers are as the record has them once they have been read. -/
theorem reload_regs : SameRegs ((y.reloadRest mem locate p n).reloadRegisters mem p) (y.reload mem locate p n) := by
  unfold Hart.reload
  rw [reloadControl_eq]
  exact (reloadQueues_regs _ mem p locate).trans ((reloadLoop_regs _ mem (p + 6016)).trans
    ((controlled_regs _ mem (p + 640)).trans (setVstart_same _ _).toSameRegs))

theorem reloadRegisters_x : (y.reloadRegisters mem p).x = (indices 64).map fun r => (r, word (readNat mem (p + 8 * r) 8)) := rfl

theorem reloadRegisters_k : (y.reloadRegisters mem p).k =
    BitVec.ofNat 8 ((indices 8).foldl (fun w i => w + readNat mem (p + 512 + i) 1 % 2 * 2 ^ i) 0) := rfl

theorem reloadRegisters_b : (y.reloadRegisters mem p).b = (indices 8).map fun i => (i, TReg.restored (readNat mem (p + 576 + 8 * i) 8)) := rfl

theorem reloadRegisters_v : (y.reloadRegisters mem p).vec.v = (readVectors mem (p + 7872) y.vec.written).1 := rfl

theorem reload_fromRecord : FromRecord y mem p (y.reload mem locate p n) := by
  have h := reload_regs y mem locate p n
  have hc : ∃ w, SameHart (controlled w mem (p + 640)) (y.reload mem locate p n) := by
    unfold Hart.reload
    exact ⟨_, setVstart_same _ _⟩
  obtain ⟨w, c⟩ := hc
  exact {
    pc := by rw [c.pc, controlled_pc, areaWord_toNat]
    vtype := by rw [c.vtype, controlled_vtype, areaWord_toNat]
    vl := by rw [c.vl, controlled_vl, areaWord_toNat]
    tpc := by rw [c.tr, controlled_tpc, areaWord_toNat]
    tcause := by rw [c.tr, controlled_tcause, areaWord_toNat]
    sup := by
      rw [c.tr, controlled_sup]
      show (areaWord mem (p + 640) 25).toNat.testBit 0 = true ↔ _
      rw [areaWord_toNat, Nat.testBit_zero, decide_eq_true_eq]
    ptbase := by rw [c.ptbase, controlled_ptbase, areaWord_toNat]
    x := fun r h0 hr => by
      rw [Hart.getX, if_neg (by omega), h.x, reloadRegisters_x, lookupD, lookup_map_pair (l := indices 64) _ (List.mem_range.2 hr)]
      exact toNat_word_readNat mem _
    k := fun k hk => by
      rw [h.k, reloadRegisters_k]
      exact getLsbD_sum (fun i => readNat mem (p + 512 + i) 1) hk
    b := fun b hb => by
      rw [Hart.getB, h.b, reloadRegisters_b, lookupD, lookup_map_pair (l := indices 8) _ (List.mem_range.2 hb)]
      rfl
    v := fun r n rest hw => by
      rw [Hart.getV, h.v, reloadRegisters_v, (reloadRest_regs y mem p locate _).written, hw]
      simp [readVectors, lookupD, lookup]
    grant := h.grant
    written := h.written
    running := h.running }

end

end Sys2Proof.Machine

namespace Sys2Proof.Machine

/-! ### What a restore does to a hart beside its record -/

/-- The parts of a hart that the obligation names are the same, its vector unit and loop with them. -/
structure Beside (y z : Hart) : Prop where
  pc : z.pc = y.pc
  x : z.x = y.x
  k : z.k = y.k
  b : z.b = y.b
  vec : z.vec = y.vec
  fp : z.fp = y.fp
  lp : z.lp = y.lp
  rc : z.rc = y.rc
  tr : z.tr = y.tr
  running : z.run.running = y.run.running
  ptbase : z.ms.ptbase = y.ms.ptbase
  asid : z.ms.asid = y.ms.asid

theorem Beside.refl (y : Hart) : Beside y y := ⟨rfl, rfl, rfl, rfl, rfl, rfl, rfl, rfl, rfl, rfl, rfl, rfl⟩

theorem Beside.trans {x y z : Hart} (a : Beside x y) (b : Beside y z) : Beside x z :=
  ⟨b.pc.trans a.pc, b.x.trans a.x, b.k.trans a.k, b.b.trans a.b, b.vec.trans a.vec, b.fp.trans a.fp, b.lp.trans a.lp,
    b.rc.trans a.rc, b.tr.trans a.tr, b.running.trans a.running, b.ptbase.trans a.ptbase, b.asid.trans a.asid⟩

theorem Beside.of_parts (y : Hart) (i : IdState) (t : TileRegs) (m : MemState) (o : HoleState) (hp : m.ptbase = y.ms.ptbase)
    (ha : m.asid = y.ms.asid) : Beside y { y with id := i, tile := t, ms := m, hole := o } :=
  ⟨rfl, rfl, rfl, rfl, rfl, rfl, rfl, rfl, rfl, rfl, hp, ha⟩

theorem Beside.sameHart {y z : Hart} (h : Beside y z) : SameHart y z :=
  ⟨⟨h.x, h.k, h.b, by rw [h.vec], by rw [h.vec], by rw [h.vec], h.running⟩, h.pc, by rw [h.vec], by rw [h.vec], h.tr, h.ptbase⟩

theorem Beside.foldl {α : Type} {f : Hart → α → Hart} {l : List α} (hf : ∀ x, ∀ a ∈ l, Beside x (f x a)) (x : Hart) :
    Beside x (l.foldl f x) := by
  induction l generalizing x with
  | nil => exact .refl x
  | cons a l ih => exact (hf x a (List.mem_cons_self ..)).trans (ih (fun y b hb => hf y b (List.mem_cons_of_mem a hb)) _)

theorem reloadTokens_beside (y : Hart) (mem : Memory) (p : Nat) : Beside y (y.reloadTokens mem p) :=
  .of_parts y y.id y.tile _ y.hole rfl rfl

theorem reloadClaim_beside (y : Hart) (mem : Memory) (p : Nat) : Beside y (y.reloadClaim mem p) := by
  refine (Beside.of_parts y y.id _ y.ms y.hole rfl rfl).trans (Beside.foldl (fun x i hi => ?_) _)
  have h4 : i ∈ [0, 1, 2, 3] := hi
  simp only [List.mem_cons, List.not_mem_nil, or_false] at h4
  rcases h4 with rfl | rfl | rfl | rfl
  all_goals exact .of_parts x x.id _ x.ms x.hole rfl rfl

/-- The part of a save area that a list gives a hart. -/
def atPart (l : List (HartNo × Nat)) (h : HartNo) (p : Nat) (f : Hart → Nat → Hart) (x : Hart) : Hart :=
  match l.find? fun r => r.1 == h with
  | some r => f x (p + r.2)
  | none => x

theorem atPart_beside (l : List (HartNo × Nat)) (h : HartNo) (p : Nat) {f : Hart → Nat → Hart} (hf : ∀ x q, Beside x (f x q)) (x : Hart) :
    Beside x (atPart l h p f x) := by
  unfold atPart
  split
  · exact hf x _
  · exact .refl x

theorem saveMap_reload_eq (m : SaveMap) (mem : Memory) (locate : Nat → Nat → Option Nat) (p : Nat) (h : HartNo) (n : Nat) (x : Hart) :
    m.reload mem locate p h n x = atPart m.tokens h p (fun x q => x.reloadTokens mem q)
      (atPart m.windows h p (fun x q => { x with ms := { x.ms with window := x.ms.window.map (Window.reload mem q) } })
        (atPart m.claims h p (fun x q => x.reloadClaim mem q)
          (atPart m.records h p (fun x q => (x.reload mem locate q n).reloadHeader mem p) x))) := rfl

theorem saveMap_reload_beside (m : SaveMap) (mem : Memory) (locate : Nat → Nat → Option Nat) (p : Nat) (h : HartNo) (n : Nat) (x : Hart) :
    Beside (atPart m.records h p (fun x q => (x.reload mem locate q n).reloadHeader mem p) x) (m.reload mem locate p h n x) := by
  rw [saveMap_reload_eq]
  refine (atPart_beside m.claims h p (fun x q => reloadClaim_beside x mem q) _).trans (Beside.trans ?_
    (atPart_beside m.tokens h p (fun x q => reloadTokens_beside x mem q) _))
  refine atPart_beside m.windows h p (fun x q => ?_) _
  exact .of_parts x x.id x.tile _ x.hole rfl rfl

section
variable (ft fa fe fp : Nat → Nat) (fh : HartNo → HartNo)

theorem move_same (y : Hart) : SameHart y (y.move ft fa fe fp fh) :=
  ⟨⟨rfl, rfl, rfl, rfl, rfl, rfl, rfl⟩, rfl, rfl, rfl, rfl, rfl⟩

/-- A hart whose entries name no place and no entry keeps them as it moves. -/
theorem move_beside (y : Hart) (h : ∀ q ∈ y.allEntries, q.old = none ∧ q.ahead = []) : Beside y (y.move ft fa fe fp fh) := by
  have e : y.mapEntries (fun v => v.move fp fe) = y := mapEntries_of_fixed fun v hv => by
    obtain ⟨ho, ha⟩ := h v hv
    rw [VEntry.move, ho, ha]
    cases v
    cases ho
    cases ha
    rfl
  unfold Hart.move
  rw [e]
  exact .of_parts y _ _ _ _ rfl rfl

/-- A hart that comes back from a save area, before it has its vector side's pace and the order of its commands. -/
def broughtBack (v : Saved) (l : List (Nat × Saved)) (mem : Memory) (h : HartNo) (x : Hart) : Hart :=
  (v.map.reload mem (v.placeOf l) (paPlace 0 v.base) h (v.entriesOf h).length x).move ft fa fe fp fh

theorem FromRecord.same {y z w : Hart} {mem : Memory} {p : Nat} (a : FromRecord y mem p z) (b : SameHart z w) : FromRecord y mem p w where
  pc := by rw [b.pc, a.pc]
  vtype := by rw [b.vtype, a.vtype]
  vl := by rw [b.vl, a.vl]
  tpc := by rw [b.tr, a.tpc]
  tcause := by rw [b.tr, a.tcause]
  sup := by rw [b.tr, a.sup]
  ptbase := by rw [b.ptbase, a.ptbase]
  x := fun r h0 hr => by
    rw [← a.x r h0 hr, Hart.getX, Hart.getX, b.x]
  k := fun k hk => by rw [b.k, a.k k hk]
  b := fun i hi => by rw [← a.b i hi, Hart.getB, Hart.getB, b.b]
  v := fun r n rest hw => by rw [← a.v r n rest hw, Hart.getV, Hart.getV, b.v]
  grant := by rw [b.grant, a.grant]
  written := by rw [b.written, a.written]
  running := by rw [b.running, a.running]

theorem broughtBack_record (v : Saved) (l : List (Nat × Saved)) (mem : Memory) {h : HartNo} {off : Nat}
    (hr : v.map.records.find? (fun r => r.1 == h) = some (h, off)) (x : Hart) :
    FromRecord x mem (paPlace 0 v.base + off) (broughtBack ft fa fe fp fh v l mem h x) := by
  have hb := saveMap_reload_beside v.map mem (v.placeOf l) (paPlace 0 v.base) h (v.entriesOf h).length x
  unfold atPart at hb
  rw [hr] at hb
  exact (((reload_fromRecord x mem _ _ _).same (reloadHeader_same _ mem _)).same hb.sameHart).same (move_same ft fa fe fp fh _)

theorem broughtBack_bare (v : Saved) (l : List (Nat × Saved)) (mem : Memory) {h : HartNo}
    (hr : v.map.records.find? (fun r => r.1 == h) = none) {x : Hart} (hx : ∀ q ∈ x.allEntries, q.old = none ∧ q.ahead = []) :
    Beside x (broughtBack ft fa fe fp fh v l mem h x) := by
  have hb := saveMap_reload_beside v.map mem (v.placeOf l) (paPlace 0 v.base) h (v.entriesOf h).length x
  unfold atPart at hb
  rw [hr] at hb
  refine hb.trans (move_beside ft fa fe fp fh _ fun q hq => hx q ?_)
  rw [Hart.allEntries, hb.vec, hb.lp] at hq
  exact hq

end

end Sys2Proof.Machine

namespace Sys2Proof.Machine

/-! ### A saved group goes to a core -/

/-- Harts of a core that change one after another, each by a function that no other of them matters to. -/
theorem foldl_modHartAt_spec {α : Type} {c : Nat} {num : α → Nat} {f : State → α → Hart → Hart}
    (hf : ∀ s e n g, f (s.modHartAt c n g) e = f s e) {l : List α} (hd : l.Pairwise fun a b => num a ≠ num b) (s : State) :
    (∀ e ∈ l, (l.foldl (fun s e => s.modHartAt c (num e) (f s e)) s).hartAt c (num e) = f s e (s.hartAt c (num e))) ∧
    (∀ n, (∀ e ∈ l, num e ≠ n) → (l.foldl (fun s e => s.modHartAt c (num e) (f s e)) s).hartAt c n = s.hartAt c n) ∧
    { (l.foldl (fun s e => s.modHartAt c (num e) (f s e)) s).core c with harts := [] } = { s.core c with harts := [] } ∧
    (l.foldl (fun s e => s.modHartAt c (num e) (f s e)) s).mem = s.mem ∧
    (l.foldl (fun s e => s.modHartAt c (num e) (f s e)) s).wharf = s.wharf := by
  induction l generalizing s with
  | nil => exact ⟨nofun, fun _ _ => rfl, rfl, rfl, rfl⟩
  | cons e l ih =>
    obtain ⟨he, hd⟩ := List.pairwise_cons.1 hd
    obtain ⟨h1, h2, h3, h4, h5⟩ := ih hd (s.modHartAt c (num e) (f s e))
    rw [List.foldl_cons]
    refine ⟨fun x hx => ?_, fun n hn => ?_, ?_, h4, h5⟩
    · rcases List.mem_cons.1 hx with rfl | hx
      · rw [h2 (num x) (fun y hy => (he y hy).symm), hartAt_modHartAt_same]
      · rw [h1 x hx, hf, hartAt_modHartAt_ne _ _ (.inr (he x hx).symm)]
    · rw [h2 n (fun y hy => hn y (List.mem_cons_of_mem e hy)),
        hartAt_modHartAt_ne _ _ (.inr (hn e (List.mem_cons_self ..)).symm)]
    · rw [h3]
      unfold State.modHartAt State.setHartAt
      rw [core_setCore_same]
      rfl

theorem zip_map_self {α β : Type} (f : α → β) (l : List α) : l.zip (l.map f) = l.map fun a => (a, f a) := by
  induction l with
  | nil => rfl
  | cons a l ih => rw [List.map_cons, List.zip_cons_cons, ih, List.map_cons]

/-- A restored hart takes its core's pace, and the order of its command words. -/
def settledHart (y : Hart) (lag : Bool) (n : Nat) : Hart :=
  { y with vec := { y.vec with lag := lag }, ms := { y.ms with copyOrder := n } }

theorem settledHart_same (y : Hart) (lag : Bool) (n : Nat) : SameHart y (settledHart y lag n) :=
  ⟨⟨rfl, rfl, rfl, rfl, rfl, rfl, rfl⟩, rfl, rfl, rfl, rfl, rfl⟩

/-- The harts of a saved group on a core. -/
def placedHarts (ft fa fe fp : Nat → Nat) (fh : HartNo → HartNo) (l : List (Nat × Saved)) (c : Nat) (v : Saved) (harts : List HartNo)
    (s : State) : State :=
  (v.harts.zip harts).foldl (fun s e => s.modHartAt c e.2.toNat fun x =>
    settledHart (broughtBack ft fa fe fp fh v l s.mem e.1.1 e.1.2) x.vec.lag
      (if (broughtBack ft fa fe fp fh v l s.mem e.1.1 e.1.2).ms.copyWords.isEmpty then 0 else (s.core c).copyCount)) s

/-- A state with the arena of a saved group on a core. -/
def placedArena (v : Saved) (lo : Nat) (s : State) : State :=
  { s with
    mem := writePlaces (clearPlaces s.mem lo v.group.size) lo (readPlaces s.mem (paPlace 0 v.base + v.map.arena) v.group.size)
    poison := (s.poison.filter fun p => decide (p < lo) || decide (lo + v.group.size ≤ p)) ++ v.poison.map (lo + ·) }

/-- What a core takes over from a saved group, beside its harts. -/
structure TakesOver (v : Saved) (s : State) (f : Core → Core) : Prop where
  harts : ∀ k, (f k).harts = k.harts
  pool : ∀ k, (f k).pool = k.pool - v.lanes
  icache : ∀ k, (f k).icache = []
  landing : v.reloadLanding s.mem = [] → ∀ k, (f k).land.entries = k.land.entries

/-- The group that a saved group becomes on a core. -/
structure TakesPlace (v : Saved) (c base : Nat) (harts : List HartNo) (y : Group) : Prop where
  core : y.core = BitVec.ofNat 7 c
  harts : y.harts = harts
  launch : y.launch = v.group.launch
  number : y.number = v.group.number
  size : y.size = v.group.size
  lsBase : y.lsBase = base

/-- The stages in which a saved group goes to a core. -/
theorem placeGroup_stages (l : List (Nat × Saved)) (gn c : Nat) (v : Saved) (fp : Nat → Nat) (s : State) :
    ∃ ft fa fe fh w f y, placeGroup l gn c v fp s = (newHarts v c s).foldl (fun s h => reportRestored c h.toNat s)
        ((placedArena v (lsPlace c ((freeArena c v.group.size s).getD 0))
          (placedHarts ft fa fe fp fh l c v (newHarts v c s) (s.modWharf w))).modCore c f) ∧
      (∀ x, (w x).saved = erase x.saved gn ∧ (w x).groups = insert x.groups gn y) ∧ TakesOver v s f ∧
      TakesPlace v c ((freeArena c v.group.size s).getD 0) (newHarts v c s) y := by
  refine ⟨_, _, _, _, _, _, _, rfl, fun x => ⟨rfl, rfl⟩, ?_, ⟨rfl, rfl, rfl, rfl, rfl, rfl⟩⟩
  exact ⟨fun _ => rfl, fun _ => rfl, fun _ => rfl, fun h k => by
    dsimp only
    rw [h]
    rfl⟩

end Sys2Proof.Machine

namespace Sys2Proof.Machine

/-! ### Bytes in memory from a place upwards -/

theorem readPlace_writePlaces_out {m : Memory} {p q : Nat} (l : List Byte) (h : q < p ∨ p + l.length ≤ q) :
    readPlace (writePlaces m p l) q = readPlace m q := by
  induction l generalizing m p with
  | nil => rfl
  | cons b l ih =>
    rw [List.length_cons] at h
    rw [writePlaces, ih (by omega), readPlace_writePlace_ne _ _ (by omega)]

theorem readPlace_writePlaces_in {m : Memory} (hm : m.wf = true) {p i : Nat} {l : List Byte} (h : i < l.length) :
    readPlace (writePlaces m p l) (p + i) = l[i] := by
  induction l generalizing m p i with
  | nil => exact absurd h (Nat.not_lt_zero i)
  | cons b l ih =>
    rw [writePlaces]
    cases i with
    | zero => exact (readPlace_writePlaces_out l (.inl (Nat.lt_succ_self p))).trans (readPlace_writePlace_same _ _ hm)
    | succ i =>
      rw [List.length_cons] at h
      have e := ih (m := writePlace m p b) (p := p + 1) (writePlace_wf _ _ hm) (Nat.lt_of_succ_lt_succ h)
      rw [Nat.add_right_comm, Nat.add_assoc] at e
      exact e

theorem readPlaces_length (m : Memory) (p n : Nat) : (readPlaces m p n).length = n := by
  induction n generalizing p with
  | zero => rfl
  | succ n ih => rw [readPlaces, List.length_cons, ih]

theorem readPlaces_getElem (m : Memory) {p n i : Nat} (h : i < (readPlaces m p n).length) : (readPlaces m p n)[i] = readPlace m (p + i) := by
  rw [← List.getD_eq_getElem _ 0 h, getD_readPlaces _ _ (by rw [readPlaces_length] at h; exact h)]

/-! ### A group that comes back -/

theorem reloadLanding_nil {v : Saved} (h : v.landing = []) (mem : Memory) : v.reloadLanding mem = [] := by
  have e : ∀ k : HartNo, v.entriesOf k = [] := fun k => by rw [Saved.entriesOf, h]; rfl
  unfold Saved.reloadLanding
  simp only [e, h, List.zipIdx_nil, List.foldl_nil, List.foldl_fixed]

/-- A core that holds no Landing entry has nothing to report. -/
theorem reportRestored_empty {s : State} {c : Nat} (he : (s.core c).land.entries = []) (h : Nat) : reportRestored c h s = s := by
  have e : entriesOf c h s = [] := by rw [entriesOf, Core.entries, he]; rfl
  unfold reportRestored
  rw [e]
  dsimp only
  split <;> rfl

section
variable {s : State} {c g : Nat} {v : Saved}

theorem newHarts_same (hf : ∀ e ∈ v.harts, e.1 ∈ freeHarts c s) : newHarts v c s = v.harts.map (·.1) := by
  have : (v.harts.all fun h => (freeHarts c s).contains h.1) = true :=
    List.all_eq_true.2 fun e he => List.contains_iff_mem.2 (hf e he)
  rw [newHarts, this]
  rfl

/-- What a saved group is once it has gone to a core. -/
structure ComeBack (l : List (Nat × Saved)) (g c : Nat) (v : Saved) (fp : Nat → Nat) (s t : State) (y : Group) : Prop where
  saved : t.wharf.saved = erase s.wharf.saved g
  group : lookup t.wharf.groups g = some y
  place : TakesPlace v c ((freeArena c v.group.size s).getD 0) (v.harts.map (·.1)) y
  pool : (t.core c).pool = (s.core c).pool - v.lanes
  icache : (t.core c).icache = []
  harts : ∃ ft fa fe fh, ∀ e ∈ v.harts, ∃ lag n, t.hartAt c e.1.toNat = settledHart (broughtBack ft fa fe fp fh v l s.mem e.1 e.2) lag n
  mem : t.mem = (placedArena v (lsPlace c y.lsBase) s).mem

theorem placeGroup_comeBack (hf : ∀ e ∈ v.harts, e.1 ∈ freeHarts c s) (hl : v.landing = [])
    (hd : v.harts.Pairwise fun a b => a.1 ≠ b.1) (he : (s.core c).land.entries = []) (l : List (Nat × Saved)) (fp : Nat → Nat) :
    ∃ y, ComeBack l g c v fp s (placeGroup l g c v fp s) y := by
  obtain ⟨ft, fa, fe, fh, w, f, y, e, hw, hto, hy⟩ := placeGroup_stages l g c v fp s
  rw [newHarts_same hf] at e hy
  rw [e]
  let s1 := s.modWharf w
  let s2 := placedHarts ft fa fe fp fh l c v (v.harts.map (·.1)) s1
  let s4 := (placedArena v (lsPlace c ((freeArena c v.group.size s).getD 0)) s2).modCore c f
  have hzip : s2 = v.harts.foldl (fun s e => s.modHartAt c e.1.toNat fun x =>
      settledHart (broughtBack ft fa fe fp fh v l s.mem e.1 e.2) x.vec.lag
        (if (broughtBack ft fa fe fp fh v l s.mem e.1 e.2).ms.copyWords.isEmpty then 0 else (s.core c).copyCount)) s1 := by
    show placedHarts ft fa fe fp fh l c v (v.harts.map (·.1)) s1 = _
    rw [placedHarts, zip_map_self, List.foldl_map]
  obtain ⟨h1, -, h3, h4, h5⟩ := foldl_modHartAt_spec (c := c) (num := fun e : HartNo × Hart => e.1.toNat)
    (f := fun s e x => settledHart (broughtBack ft fa fe fp fh v l s.mem e.1 e.2) x.vec.lag
      (if (broughtBack ft fa fe fp fh v l s.mem e.1 e.2).ms.copyWords.isEmpty then 0 else (s.core c).copyCount))
    (fun s e n g => by
      have : ((s.modHartAt c n g).core c).copyCount = (s.core c).copyCount := by
        unfold State.modHartAt State.setHartAt
        rw [core_setCore_same]
        rfl
      funext x
      rw [this]
      rfl) (hd.imp fun h e => h (BitVec.eq_of_toNat_eq e)) s1
  rw [← hzip] at h1 h3 h4 h5
  have hcore : s4.core c = f (s2.core c) := core_modCore_same _ _ _
  have hent : (s4.core c).land.entries = [] := by
    rw [hcore, hto.landing (reloadLanding_nil hl _)]
    exact (congrArg (fun k : Core => k.land.entries) h3).trans he
  have hreport : (v.harts.map (·.1)).foldl (fun s h => reportRestored c h.toNat s) s4 = s4 := by
    generalize v.harts.map (·.1) = hs
    induction hs with
    | nil => rfl
    | cons h hs ih => rw [List.foldl_cons, reportRestored_empty hent, ih]
  have hhart : ∀ n, s4.hartAt c n = s2.hartAt c n := fun n => by
    rw [State.hartAt, hcore, Core.hart, hto.harts]
    rfl
  refine ⟨y, ?_⟩
  rw [show ((placedArena v (lsPlace c ((freeArena c v.group.size s).getD 0))
    (placedHarts ft fa fe fp fh l c v (v.harts.map (·.1)) (s.modWharf w))).modCore c f) = s4 from rfl, hreport]
  have hwharf : s4.wharf = w s.wharf := h5
  exact {
    saved := by rw [hwharf, (hw _).1]
    group := by rw [hwharf, (hw _).2, lookup_insert_same]
    place := hy
    pool := by
      have hp := congrArg Core.pool h3
      rw [hcore, hto.pool]
      exact congrArg (· - v.lanes) hp
    icache := by rw [hcore, hto.icache]
    harts := ⟨ft, fa, fe, fh, fun e he => ⟨_, _, (hhart _).trans (h1 e he)⟩⟩
    mem := by
      rw [hy.lsBase]
      show writePlaces (clearPlaces s2.mem _ _) _ (readPlaces s2.mem _ _) = _
      rw [h4]
      rfl }

end

end Sys2Proof.Machine

namespace Sys2Proof.Machine

section
variable {s : State} {c g : Nat} {v : Saved}

theorem outranked_none (hl : ∀ l, lookup s.wharf.launches v.group.launch = some l →
    l.record.gang = false ∧ (s.tenant l.record.tenant.toNat).queues = []) : outranked v s = false := by
  unfold outranked
  split
  · rfl
  next q hq =>
    have hh : tenantHead q.record.tenant.toNat s = none := by
      unfold tenantHead
      rw [(hl q hq).2]
      rfl
    rw [hh]

theorem comesWith_single (hs : s.wharf.saved = [(g, v)]) : comesWith g s = [(g, v)] := by
  unfold comesWith
  rw [hs]
  simp [lookup]

/-- The core that a saved group of no gang comes back to: the first of its die that it fits on. -/
theorem restoreCores_single (hg : v.group.gang = none) (hc : c < 96) (hd : c / 24 = v.group.core.toNat / 24) (hf : v.fits c s = true)
    (hn : ∀ k, k < c → k / 24 = c / 24 → v.fits k s = false) : restoreCores [(g, v)] s = some [c] := by
  unfold restoreCores
  simp only [List.foldl_cons, List.foldl_nil, Option.bind_some, hg]
  have hfind : (indices Config.cores).find? (fun k => dieOf k == dieOf v.group.core.toNat && v.fits k s && true) = some c := by
    have hkeep : ∀ k, dieOf k = k / 24 := fun _ => rfl
    rw [indices, List.find?_range_eq_some]
    refine ⟨?_, List.mem_range.2 hc, fun k hk => ?_⟩
    · rw [hkeep, hkeep, hd, hf]
      simp
    · rw [hkeep, hkeep, ← hd]
      by_cases he : k / 24 = c / 24
      · rw [hn k hk he]
        simp
      · simp [he]
  rw [hfind]
  rfl

theorem execRestore_single (hi : s.input.group = g) (hs : s.wharf.saved = [(g, v)]) (hg : v.group.gang = none)
    (hl : ∀ l, lookup s.wharf.launches v.group.launch = some l → l.record.gang = false ∧ (s.tenant l.record.tenant.toNat).queues = [])
    (hc : c < 96) (hd : c / 24 = v.group.core.toNat / 24) (hf : v.fits c s = true)
    (hn : ∀ k, k < c → k / 24 = c / 24 → v.fits k s = false) :
    ∃ fp, exec .restore s = .next (placeGroup [(g, v)] g c v fp s) := by
  have h0 : ([(g, v)].isEmpty || [(g, v)].any fun e => outranked e.2 s) = false := by
    rw [List.any_cons, outranked_none hl]
    rfl
  rw [exec_restore, execRestore, hi, comesWith_single hs]
  dsimp only
  rw [h0, restoreCores_single hg hc hd hf hn]
  exact ⟨_, rfl⟩

end

end Sys2Proof.Machine

namespace Sys2Proof.Machine

section
variable {s t : State} {c g : Nat} {v : Saved} {l : List (Nat × Saved)} {fp : Nat → Nat} {y : Group}

theorem placedArena_reads (hs : s.Sound) (v : Saved) (lo : Nat) {k : Nat} (hk : k < v.group.size) :
    readPlace (placedArena v lo s).mem (lo + k) = readPlace s.mem (paPlace 0 v.base + v.map.arena + k) := by
  have hlen : k < (readPlaces s.mem (paPlace 0 v.base + v.map.arena) v.group.size).length := by
    rw [readPlaces_length]
    exact hk
  exact (readPlace_writePlaces_in (clearPlaces_wf _ _ hs) hlen).trans (readPlaces_getElem _ hlen)

theorem lsPlace_add (c b k : Nat) : lsPlace c (b + k) = lsPlace c b + k := (Nat.add_assoc _ b k).symm

/-- A hart that comes back with its record. -/
theorem ComeBack.record (h : ComeBack l g c v fp s t y) {e : HartNo × Hart} (he : e ∈ v.harts) {off : Nat}
    (hr : v.map.records.find? (fun r => r.1 == e.1) = some (e.1, off)) :
    FromRecord e.2 s.mem (paPlace 0 v.base + off) (t.hartAt c e.1.toNat) := by
  obtain ⟨ft, fa, fe, fh, hh⟩ := h.harts
  obtain ⟨lag, n, hz⟩ := hh e he
  rw [hz]
  exact (broughtBack_record ft fa fe fp fh v l s.mem hr e.2).same (settledHart_same _ lag n)

/-- A hart that comes back without a record is as it was saved. -/
theorem ComeBack.bare (h : ComeBack l g c v fp s t y) {e : HartNo × Hart} (he : e ∈ v.harts)
    (hr : v.map.records.find? (fun r => r.1 == e.1) = none) (hx : ∀ q ∈ e.2.allEntries, q.old = none ∧ q.ahead = []) :
    ∃ z lag n, Beside e.2 z ∧ t.hartAt c e.1.toNat = settledHart z lag n := by
  obtain ⟨ft, fa, fe, fh, hh⟩ := h.harts
  obtain ⟨lag, n, hz⟩ := hh e he
  exact ⟨_, lag, n, broughtBack_bare ft fa fe fp fh v l s.mem hr hx, hz⟩

/-- What no record changes of a hart that comes back. -/
theorem ComeBack.kept (h : ComeBack l g c v fp s t y) {e : HartNo × Hart} (he : e ∈ v.harts)
    (hx : ∀ q ∈ e.2.allEntries, q.old = none ∧ q.ahead = []) :
    (t.hartAt c e.1.toNat).run.running = e.2.run.running ∧ (t.hartAt c e.1.toNat).vec.grant = e.2.vec.grant ∧
    (t.hartAt c e.1.toNat).vec.written = e.2.vec.written := by
  cases hr : v.map.records.find? (fun r => r.1 == e.1) with
  | none =>
    obtain ⟨z, lag, n, b, hz⟩ := h.bare he hr hx
    have k := b.sameHart.trans (settledHart_same z lag n)
    rw [hz]
    exact ⟨k.running, k.grant, k.written⟩
  | some r =>
    obtain ⟨i, off⟩ := r
    have hi := List.find?_some hr
    rw [beq_iff_eq] at hi
    obtain rfl : i = e.1 := hi
    have k := h.record he hr
    exact ⟨k.running, k.grant, k.written⟩

/-- A target register that comes back (R93, R101). -/
theorem restored_fields (w : Nat) : (TReg.restored w).addr = BitVec.ofNat 47 (w / 2 % 2 ^ 47) ∧ ((TReg.restored w).v = true ↔ w % 2 = 1) ∧
    (TReg.restored w).pf = if w % 2 = 1 then 1 else 0 := ⟨rfl, beq_iff_eq, rfl⟩

end

end Sys2Proof.Machine

namespace Sys2Proof.Machine

/-! ### The bytes of a save area (R217) -/

/-- Bytes stand in a list from a position on. -/
def StandsAt (l : List Byte) (o : Nat) (w : List Byte) : Prop := ∃ pre suf, l = pre ++ (w ++ suf) ∧ pre.length = o

theorem StandsAt.refl (l : List Byte) : StandsAt l 0 l := ⟨[], [], by simp, rfl⟩

theorem StandsAt.left {l : List Byte} {o : Nat} {w : List Byte} (h : StandsAt l o w) (r : List Byte) : StandsAt (l ++ r) o w := by
  obtain ⟨pre, suf, rfl, ho⟩ := h
  exact ⟨pre, suf ++ r, by simp, ho⟩

theorem StandsAt.right {r : List Byte} {o : Nat} {w : List Byte} (h : StandsAt r o w) {l : List Byte} {n : Nat} (hn : l.length = n) :
    StandsAt (l ++ r) (n + o) w := by
  obtain ⟨pre, suf, rfl, ho⟩ := h
  exact ⟨l ++ pre, suf, by simp, by rw [List.length_append, hn, ho]⟩

theorem StandsAt.trans {l w u : List Byte} {o i : Nat} (h : StandsAt l o w) (k : StandsAt w i u) : StandsAt l (o + i) u := by
  obtain ⟨pre, suf, rfl, ho⟩ := h
  obtain ⟨pre', suf', rfl, hi⟩ := k
  exact ⟨pre ++ pre', suf' ++ suf, by simp, by rw [List.length_append, ho, hi]⟩

theorem StandsAt.take {l w : List Byte} {o n : Nat} (h : StandsAt l o w) (hn : o + w.length ≤ n) : StandsAt (l.take n) o w := by
  obtain ⟨pre, suf, rfl, ho⟩ := h
  refine ⟨pre, suf.take (n - pre.length - w.length), ?_, ho⟩
  rw [List.take_append, List.take_append, List.take_of_length_le (by omega), List.take_of_length_le (by omega)]

theorem StandsAt.flatMap {α : Type} {f : α → List Byte} {n : Nat} {l : List α} (hf : ∀ x ∈ l, (f x).length = n) {i : Nat} (hi : i < l.length) :
    StandsAt (l.flatMap f) (n * i) (f l[i]) := by
  induction l generalizing i with
  | nil => exact absurd hi (Nat.not_lt_zero i)
  | cons x l ih =>
    rw [List.flatMap_cons]
    cases i with
    | zero => exact (StandsAt.refl _).left _
    | succ i =>
      have h := (ih (fun y hy => hf y (List.mem_cons_of_mem x hy)) (Nat.lt_of_succ_lt_succ hi)).right (hf x (List.mem_cons_self ..))
      rw [Nat.mul_succ, Nat.add_comm]
      exact h

/-- A byte that has been written, where it stands. -/
theorem StandsAt.readPlace {l w : List Byte} {o : Nat} (h : StandsAt l o w) {m : Memory} (hm : m.wf = true) (p : Nat) {i : Nat}
    (hi : i < w.length) : Machine.readPlace (writePlaces m p l) (p + o + i) = w[i] := by
  obtain ⟨pre, suf, rfl, rfl⟩ := h
  rw [Nat.add_assoc, readPlace_writePlaces_in hm (by simp; omega), List.getElem_append_right (Nat.le_add_right _ _)]
  rw [List.getElem_append_left (by omega)]
  congr 1
  omega

/-- A number that has been written, where its bytes stand. -/
theorem StandsAt.readNat {l : List Byte} {o n w : Nat} (h : StandsAt l o (natToBytes n w)) {m : Memory} (hm : m.wf = true) (p : Nat) :
    Machine.readNat (writePlaces m p l) (p + o) n = w % 256 ^ n := by
  refine readNat_of_bytes w fun i hi => ?_
  have hi' : i < (natToBytes n w).length := by
    rw [natToBytes_length]
    exact hi
  rw [h.readPlace hm p hi']
  simp [natToBytes_eq]

/-! Their lengths -/

theorem openBytes_length (k n : Nat) : (openBytes k n).length = n := by
  simp [openBytes, indices]

theorem block_length (k n : Nat) (l : List Byte) : (block k n l).length = n := by
  rw [block, List.length_append, List.length_take, openBytes_length]
  omega

theorem aligned64_length (k : Nat) (l : List Byte) : (aligned64 k l).length = sectionSize l.length := block_length _ _ _

theorem flatMap_length {α : Type} {f : α → List Byte} {n : Nat} {l : List α} (hf : ∀ x ∈ l, (f x).length = n) :
    (l.flatMap f).length = n * l.length := by
  induction l with
  | nil => rfl
  | cons x l ih =>
    rw [List.flatMap_cons, List.length_append, hf x (List.mem_cons_self ..), ih fun y hy => hf y (List.mem_cons_of_mem x hy),
      List.length_cons, Nat.mul_succ, Nat.add_comm]

theorem wordBytes_length (l : List Word) : (wordBytes l).length = 8 * l.length :=
  flatMap_length fun _ _ => natToBytes_length _ _

/-- Word `i` of some words. -/
theorem standsAt_word {l : List Word} {i : Nat} (hi : i < l.length) : StandsAt (wordBytes l) (8 * i) (natToBytes 8 l[i].toNat) :=
  StandsAt.flatMap (f := fun w : Word => natToBytes 8 w.toNat) (fun _ _ => natToBytes_length _ _) hi

theorem standsAt_block {k n : Nat} {l w : List Byte} {o : Nat} (h : StandsAt l o w) (hn : o + w.length ≤ n) : StandsAt (block k n l) o w :=
  (h.take hn).left _

theorem le_sectionSize (n : Nat) : n ≤ sectionSize n := by
  unfold sectionSize ceilDiv
  omega

theorem standsAt_aligned (k : Nat) (l : List Byte) : StandsAt (aligned64 k l) 0 l :=
  standsAt_block (.refl l) (by rw [Nat.zero_add]; exact le_sectionSize _)

/-- Parts of given lengths one after another. -/
theorem laidOut_parts {f : HartNo × Nat → List Byte} (l : List (HartNo × Nat)) (p : Nat) (hf : ∀ e ∈ l, ∀ o, (f (e.1, o)).length = e.2) :
    ((laidOut p l).flatMap f).length = sizes l ∧ ∀ e ∈ laidOut p l, p ≤ e.2 ∧ StandsAt ((laidOut p l).flatMap f) (e.2 - p) (f e) := by
  induction l generalizing p with
  | nil => exact ⟨rfl, nofun⟩
  | cons a l ih =>
    obtain ⟨h, n⟩ := a
    obtain ⟨ihl, ihs⟩ := ih (p + n) fun e he => hf e (List.mem_cons_of_mem _ he)
    have hn : (f (h, p)).length = n := hf (h, n) (List.mem_cons_self ..) p
    rw [laidOut, List.flatMap_cons]
    refine ⟨?_, fun e he => ?_⟩
    · rw [List.length_append, ihl, hn]
      simp [sizes]
    · rcases List.mem_cons.1 he with rfl | he
      · rw [Nat.sub_self]
        exact ⟨Nat.le_refl p, (StandsAt.refl _).left _⟩
      · obtain ⟨hle, hst⟩ := ihs e he
        refine ⟨by omega, ?_⟩
        rw [show e.2 - p = n + (e.2 - (p + n)) by omega]
        exact hst.right hn

theorem laidOut_map_fst (l : List (HartNo × Nat)) (p : Nat) : (laidOut p l).map (·.1) = l.map (·.1) := by
  induction l generalizing p with
  | nil => rfl
  | cons a l ih => rw [laidOut, List.map_cons, List.map_cons, ih]

end Sys2Proof.Machine

namespace Sys2Proof.Machine

/-! ### The record of a hart in a save area -/

theorem scalarBytes_length (k : Nat) (x : Hart) : (x.scalarBytes k).length = 640 := by
  simp [Hart.scalarBytes, wordBytes_length, aligned64_length, indices, sectionSize, ceilDiv]

theorem controlBytes_length (c h : Nat) (s : State) : (controlBytes c h s).length = 256 := by
  rw [controlBytes, wordBytes_length]
  rfl

theorem streamBytes_length (k : Nat) (x : Hart) : (x.streamBytes k).length = 1024 := by
  rw [Hart.streamBytes, flatMap_length (n := 128) fun i _ => ?_]
  · rfl
  · split <;> exact block_length _ _ _

theorem commandBytes_length (k : Nat) (x : Hart) : (x.commandBytes k).length = 64 := by
  simp [Hart.commandBytes, block_length, natToBytes_length]

theorem vectorBytes_length (x : Hart) : x.vectorBytes.length = x.vectorSize := by
  unfold Hart.vectorBytes Hart.vectorSize
  induction x.vec.written with
  | nil => rfl
  | cons e l ih =>
    rw [List.flatMap_cons, List.length_append, List.length_append, natToBytes_length, natToBytes_length, ih, List.map_cons, List.sum_cons]

theorem maskBytes_length (x : Hart) : x.maskBytes.length = 3584 := flatMap_length fun _ _ => natToBytes_length _ _

theorem records_length (l : List Pending) (g : Group) (s : State) :
    (l.flatMap fun q => q.records g s).length = (l.map fun q => q.runs.length).sum := by
  induction l with
  | nil => rfl
  | cons q l ih => rw [List.flatMap_cons, List.length_append, ih, Pending.records, List.length_map, List.map_cons, List.sum_cons]

theorem deferredBytes_length (c h : Nat) (g : Group) (s : State) (k : Nat) : (deferredBytes c h g s k).length = 64 * deferredCount c h s := by
  rw [deferredBytes, List.length_append, flatMap_length (n := 64) fun n _ => ?_, flatMap_length (n := 64) fun r _ => block_length _ _ _]
  · rw [List.length_zipIdx, records_length, ← Nat.mul_add]
    rfl
  · split <;> exact natToBytes_length _ _

theorem pontoonBytes_length (k : Nat) (x : Hart) : (x.pontoonBytes k).length = if x.rc.phase = 0 then 0 else 512 := by
  rw [Hart.pontoonBytes]
  split
  · rfl
  · exact block_length _ _ _

theorem hartRecord_length (c h : Nat) (g : Group) (s : State) (k : Nat) : (hartRecord c h g s k).length = hartRecordSize c h s := by
  rw [hartRecord, hartRecordSize, restSize]
  simp only [List.length_append, scalarBytes_length, controlBytes_length, streamBytes_length, commandBytes_length, aligned64_length,
    vectorBytes_length, maskBytes_length, deferredBytes_length, pontoonBytes_length, viqBytes, Hart.loopBytes, Hart.returnBytes,
    Hart.storeBytes, block_length]
  simp only [Config.viqSize, Config.handlerViqSize]
  omega

/-- A record begins with the scalar registers, then the control block. -/
theorem hartRecord_begins (c h : Nat) (g : Group) (s : State) (k : Nat) :
    StandsAt (hartRecord c h g s k) 0 ((s.hartAt c h).scalarBytes (k + 512)) ∧ StandsAt (hartRecord c h g s k) 640 (controlBytes c h s) := by
  unfold hartRecord
  refine ⟨?_, ?_⟩
  · iterate 12 refine StandsAt.left ?_ _
    exact .refl _
  · iterate 11 refine StandsAt.left ?_ _
    exact (StandsAt.refl _).right (scalarBytes_length _ _)

theorem indices_getElem {n i : Nat} (h : i < (indices n).length) : (indices n)[i] = i := by simp [indices]

/-- Word `i` of the words of a function. -/
theorem standsAt_mapped (f : Nat → Word) {n i : Nat} (h : i < n) : StandsAt (wordBytes ((indices n).map f)) (8 * i) (natToBytes 8 (f i).toNat) := by
  have e := standsAt_word (l := (indices n).map f) (i := i) (by simpa [indices] using h)
  rw [List.getElem_map, indices_getElem] at e
  exact e

section
variable (k : Nat) (x : Hart)

theorem scalarBytes_x {r : Nat} (h : r < 64) : StandsAt (x.scalarBytes k) (8 * r) (natToBytes 8 (x.getX r).toNat) :=
  ((standsAt_mapped x.getX h).left _).left _

theorem scalarBytes_k {i : Nat} (h : i < 8) : StandsAt (x.scalarBytes k) (512 + i) [BitVec.ofNat 8 (bit (x.getK i))] := by
  have hm : StandsAt ((indices 8).map fun i => BitVec.ofNat 8 (bit (x.getK i))) i [BitVec.ofNat 8 (bit (x.getK i))] := by
    have e := StandsAt.flatMap (f := fun i => [BitVec.ofNat 8 (bit (x.getK i))]) (n := 1) (l := indices 8) (fun _ _ => rfl) (i := i)
      (by simpa [indices] using h)
    rw [indices_getElem, Nat.one_mul, ← List.map_eq_flatMap] at e
    exact e
  have ha := (standsAt_aligned k _).trans hm
  rw [Nat.zero_add] at ha
  exact (ha.right (wordBytes_length _)).left _

theorem scalarBytes_b {i : Nat} (h : i < 8) : StandsAt (x.scalarBytes k) (576 + 8 * i) (natToBytes 8 (x.getB i).image.toNat) :=
  (standsAt_mapped (fun i => (x.getB i).image) h).right (by simp [wordBytes_length, aligned64_length, indices, sectionSize, ceilDiv])

end

/-- The words of a control block. -/
def controlWords (c h : Nat) (s : State) : List Word :=
  [(s.hartAt c h).pc.zeroExtend 64, (s.hartAt c h).vcp.1.zeroExtend 64, word ((s.hartAt c h).vcp.2 + (s.hartAt c h).id.rank.toNat * 2 ^ 32)] ++
    savedCtl.map fun i => readCtl i (s.focus c h)

theorem controlBytes_eq (c h : Nat) (s : State) : controlBytes c h s = wordBytes (controlWords c h s) := rfl

theorem controlBytes_word {c h : Nat} {s : State} {i : Nat} {w : Word} (hw : (controlWords c h s)[i]? = some w) :
    StandsAt (controlBytes c h s) (8 * i) (natToBytes 8 w.toNat) := by
  obtain ⟨hi, rfl⟩ := List.getElem?_eq_some_iff.1 hw
  exact standsAt_word hi

end Sys2Proof.Machine

namespace Sys2Proof.Machine

/-! ### The sections of a save area -/

section
variable (gn : Nat) (g : Group) (s : State) (k : Nat)

theorem tileBytes_length (q : Core) (t : Nat) : (tileBytes q t).length = 18432 := by
  rw [tileBytes, List.length_append, flatMap_length fun _ _ => natToBytes_length _ _, flatMap_length fun _ _ => natToBytes_length _ _,
    indices, List.length_range]

theorem accBytes_length (q : Core) (a : Nat) : (accBytes q a k).length = 65600 := by
  rw [accBytes, List.length_append, flatMap_length fun _ _ => natToBytes_length _ _, block_length]
  rw [indices, List.length_range]

theorem windowBytes_length (w : Window) : (w.bytes k).length = 64 * w.count * w.size := by
  rw [Window.bytes, flatMap_length (n := w.size * w.count) fun l _ => ?_]
  · rw [indices, List.length_range, Nat.mul_comm w.size, Nat.mul_comm, Nat.mul_assoc]
  · rw [flatMap_length (n := w.size) fun i _ => ?_]
    · rw [indices, List.length_range]
    · split
      · exact openBytes_length _ _
      · exact natToBytes_length _ _

theorem channelImage_length (n : Nat) (x : Channel) : (x.image n).length = 8 := rfl

theorem headerBytes_length : (headerBytes gn g s k).length = 256 := block_length _ _ _

/-- A list laid out has its parts in their places, whatever precedes them. -/
theorem laidOut_length {f : HartNo × Nat → List Byte} {l : List (HartNo × Nat)} (p : Nat) (hf : ∀ e ∈ l, ∀ o, (f (e.1, o)).length = e.2) :
    ((laidOut p l).flatMap f).length = sizes l := (laidOut_parts l p hf).1

/-- The harts with a record, each with its size. -/
def recordSizes : List (HartNo × Nat) := (runningHarts g s).map fun h => (h, hartRecordSize g.core.toNat h.toNat s)

theorem recordSizes_length {e : HartNo × Nat} (he : e ∈ recordSizes g s) (o : Nat) :
    (hartRecord g.core.toNat e.1.toNat g s (k + o)).length = e.2 := by
  obtain ⟨h, -, rfl⟩ := List.mem_map.1 he
  exact hartRecord_length _ _ _ _ _

theorem saveMap_records : (saveMap gn g s).1.records = laidOut 256 (recordSizes g s) := rfl

/-- Bytes of the sections before the arena. -/
def arenaOffset : Nat :=
  256 + sizes (recordSizes g s) + 18432 * (claimedTiles g s).length + sizes (claimHolders g s) + 65600 * (claimedAccs g s).length +
    sizes (openWindows g s) + 64 * (channelsOf gn g s).length

theorem saveMap_arena : (saveMap gn g s).1.arena = arenaOffset gn g s := rfl

theorem saveMap_size : (saveMap gn g s).2 = arenaOffset gn g s + sectionSize g.size +
    sectionSize (64 + sizes (tokenSizes g s) + 8 * (heldAnswers gn g s).length) := rfl

theorem saveMap_claims : ∃ p, (saveMap gn g s).1.claims = laidOut p (claimHolders g s) := ⟨_, rfl⟩

theorem saveMap_windows : ∃ p, (saveMap gn g s).1.windows = laidOut p (openWindows g s) := ⟨_, rfl⟩

theorem tokenBytes_length :
    (tokenBytes gn g s k).length = sectionSize (64 + sizes (tokenSizes g s) + 8 * (heldAnswers gn g s).length) := by
  have ht (l : List HartNo) : (l.flatMap fun h => wordBytes (s.hartAt g.core.toNat h.toNat).tokens).length =
      sizes (l.map fun h => (h, 8 * (s.hartAt g.core.toNat h.toNat).tokens.length)) := by
    induction l with
    | nil => rfl
    | cons h l ih => simp only [List.flatMap_cons, List.length_append, wordBytes_length, ih, sizes, List.map_cons, List.sum_cons]
  rw [tokenBytes, aligned64_length]
  simp only [List.length_append, block_length, wordBytes_length, ht]
  rfl

theorem claims_length (p : Nat) (o : Option Group) :
    ((laidOut p (claimHolders g s)).flatMap fun r => (s.hartAt g.core.toNat r.1.toNat).claimBytes (k + r.2) o).length =
      sizes (claimHolders g s) :=
  laidOut_length p fun e he _ => by
    obtain ⟨h, -, rfl⟩ := List.mem_map.1 he
    exact block_length _ _ _

theorem windows_length (p : Nat) :
    ((laidOut p (openWindows g s)).flatMap fun r =>
      (((s.hartAt g.core.toNat r.1.toNat).ms.window.map fun w => aligned64 (k + r.2) (w.bytes (k + r.2))).getD [])).length =
      sizes (openWindows g s) :=
  laidOut_length p fun e he o => by
    obtain ⟨h, -, hw⟩ := List.mem_filterMap.1 he
    obtain ⟨w, hx, rfl⟩ := Option.map_eq_some_iff.1 hw
    dsimp only
    rw [hx]
    show (aligned64 _ _).length = _
    rw [aligned64_length, windowBytes_length]

theorem accs_length (l : List Nat) (p : Nat) (q : Core) :
    (l.zipIdx.flatMap fun a => accBytes q a.1 (p + 65600 * a.2)).length = 65600 * l.length := by
  rw [flatMap_length fun _ _ => accBytes_length _ _ _, List.length_zipIdx]

/-- The bytes of the sections before the arena. -/
def beforeArena : List Byte :=
  let c := g.core.toNat
  let q := s.core c
  let m := (saveMap gn g s).1
  headerBytes gn g s k ++
    m.records.flatMap (fun r => hartRecord c r.1.toNat g s (k + r.2)) ++
    (claimedTiles g s).flatMap (tileBytes q) ++
    m.claims.flatMap (fun r => (s.hartAt c r.1.toNat).claimBytes (k + r.2) (some g)) ++
    (claimedAccs g s).zipIdx.flatMap (fun a => accBytes q a.1 (k + m.accs + 65600 * a.2)) ++
    m.windows.flatMap (fun r => (((s.hartAt c r.1.toNat).ms.window.map fun w => aligned64 (k + r.2) (w.bytes (k + r.2))).getD [])) ++
    (channelsOf gn g s).flatMap (fun e => wordBytes (e.2.image e.1))

theorem areaBytes_eq : areaBytes gn g s k = beforeArena gn g s k ++
    aligned64 (k + (saveMap gn g s).1.arena) (readPlaces s.mem (lsPlace g.core.toNat g.lsBase) g.size) ++
    tokenBytes gn g s (k + (saveMap gn g s).1.arena + sectionSize g.size) := rfl

theorem records_stand :
    ((saveMap gn g s).1.records.flatMap fun r => hartRecord g.core.toNat r.1.toNat g s (k + r.2)).length = sizes (recordSizes g s) ∧
    ∀ e ∈ (saveMap gn g s).1.records, 256 ≤ e.2 ∧
      StandsAt ((saveMap gn g s).1.records.flatMap fun r => hartRecord g.core.toNat r.1.toNat g s (k + r.2)) (e.2 - 256)
        (hartRecord g.core.toNat e.1.toNat g s (k + e.2)) :=
  laidOut_parts (f := fun r => hartRecord g.core.toNat r.1.toNat g s (k + r.2)) (recordSizes g s) 256
    fun _ he o => recordSizes_length g s k he o

theorem beforeArena_length : (beforeArena gn g s k).length = arenaOffset gn g s := by
  have ht := flatMap_length (l := claimedTiles g s) fun t _ => tileBytes_length (s.core g.core.toNat) t
  have hch := flatMap_length (l := channelsOf gn g s) (f := fun e => wordBytes (e.2.image e.1)) (n := 64)
    fun e _ => wordBytes_length _
  obtain ⟨p, hp⟩ := saveMap_claims gn g s
  obtain ⟨w, hw⟩ := saveMap_windows gn g s
  rw [beforeArena, arenaOffset]
  simp only [List.length_append, headerBytes_length, (records_stand gn g s k).1, ht, hch, hp, hw, claims_length, windows_length, accs_length]

/-- The area has the size that the map gives. -/
theorem areaBytes_length : (areaBytes gn g s k).length = (saveMap gn g s).2 := by
  rw [areaBytes_eq, List.length_append, List.length_append, beforeArena_length, aligned64_length, readPlaces_length, tokenBytes_length,
    saveMap_size]

theorem areaBytes_header : StandsAt (areaBytes gn g s k) 0 (headerBytes gn g s k) := by
  rw [areaBytes_eq, beforeArena]
  iterate 8 refine StandsAt.left ?_ _
  exact .refl _

theorem areaBytes_record {e : HartNo × Nat} (he : e ∈ (saveMap gn g s).1.records) :
    StandsAt (areaBytes gn g s k) e.2 (hartRecord g.core.toNat e.1.toNat g s (k + e.2)) := by
  obtain ⟨hle, hst⟩ := (records_stand gn g s k).2 e he
  have h := hst.right (headerBytes_length gn g s k)
  rw [Nat.add_sub_cancel' hle] at h
  rw [areaBytes_eq, beforeArena]
  iterate 7 refine StandsAt.left ?_ _
  exact h

theorem areaBytes_arena : StandsAt (areaBytes gn g s k) (saveMap gn g s).1.arena (readPlaces s.mem (lsPlace g.core.toNat g.lsBase) g.size) := by
  rw [areaBytes_eq, saveMap_arena]
  exact ((standsAt_aligned _ _).right (beforeArena_length gn g s k)).left _

end

end Sys2Proof.Machine

namespace Sys2Proof.Machine

/-! ### The header of a save area, and what is read back from an area -/

section
variable (gn : Nat) (g : Group) (s : State) (k : Nat)

/-- The hart whose LAUNCHID, IDX and ARGS the header takes. -/
def headHart : Hart := match (runningHarts g s).head? with
  | some h => s.hartAt g.core.toNat h.toNat
  | none => Hart.reset

/-- The words of a header after the record. -/
def headerWords : List Word :=
  let m := (saveMap gn g s).1
  let windows := m.accs + 65600 * (claimedAccs g s).length
  let offsets := (m.records.map (·.2)) ++ List.replicate (4 - m.records.length) 0 ++
    [m.tiles, m.accs, windows, m.channels, m.arena, m.arena + sectionSize g.size]
  [(headHart g s).id.launchId] ++ (indices 6).map (fun i => (headHart g s).id.idx.getD i 0) ++ [(headHart g s).id.args, word g.size] ++
    (m.records.length :: offsets).map word

theorem launchImage_length (r : LaunchRec) : r.image.length = 64 := by
  simp [LaunchRec.image, natToBytes_length]

theorem headerBytes_split : ∃ r : List Byte, r.length = 64 ∧ headerBytes gn g s k = block k 256 (r ++ wordBytes (headerWords gn g s)) := by
  refine ⟨match lookup s.wharf.launches g.launch with
    | some l => l.record.image
    | none => openBytes k 64, ?_, rfl⟩
  split
  · exact launchImage_length _
  · exact openBytes_length _ _

theorem headerBytes_word {i : Nat} {w : Word} (hi : i < 24) (hw : (headerWords gn g s)[i]? = some w) :
    StandsAt (headerBytes gn g s k) (64 + 8 * i) (natToBytes 8 w.toNat) := by
  obtain ⟨r, hr, e⟩ := headerBytes_split gn g s k
  obtain ⟨hl, rfl⟩ := List.getElem?_eq_some_iff.1 hw
  rw [e]
  exact standsAt_block ((standsAt_word hl).right hr) (by rw [natToBytes_length]; omega)

theorem headerWords_idx {i : Nat} (hi : i < 6) : (headerWords gn g s)[1 + i]? = some ((headHart g s).id.idx.getD i 0) := by
  match i, hi with
  | 0, _ => rfl
  | 1, _ => rfl
  | 2, _ => rfl
  | 3, _ => rfl
  | 4, _ => rfl
  | 5, _ => rfl

variable {m : Memory} (hm : m.wf = true) (p : Nat)
include hm

/-- A word of the header, read back. -/
theorem read_headerWord {i : Nat} {w : Word} (hi : i < 24) (hw : (headerWords gn g s)[i]? = some w) :
    readNat (writePlaces m p (areaBytes gn g s k)) (p + (64 + 8 * i)) 8 = w.toNat := by
  have h := (areaBytes_header gn g s k).trans (headerBytes_word gn g s k hi hw)
  rw [Nat.zero_add] at h
  rw [h.readNat hm]
  exact Nat.mod_eq_of_lt w.isLt

end

theorem image_toNat (b : TReg) : b.image.toNat = b.pf.toNat * 2 ^ 48 + b.addr.toNat * 2 + if b.v then 1 else 0 := by
  have hp := b.pf.isLt
  have ha := b.addr.isLt
  have hb : (if b.v then 1 else 0) < 2 := by split <;> decide
  rw [TReg.image, word, BitVec.toNat_ofNat, bit, Nat.mod_eq_of_lt (by omega)]

/-- What the record of a hart holds of its registers, at their offsets. -/
structure RecordOf (z : Hart) (mem : Memory) (p : Nat) : Prop where
  x : ∀ r, r < 64 → readNat mem (p + 8 * r) 8 = (z.getX r).toNat
  k : ∀ k, k < 8 → readNat mem (p + 512 + k) 1 = if z.k.getLsbD k then 1 else 0
  b : ∀ b, b < 8 → readNat mem (p + 576 + 8 * b) 8 = (z.getB b).image.toNat
  pc : readNat mem (p + 640) 8 = z.pc.toNat
  vtype : readNat mem (p + 664) 8 = z.vec.vtype.toNat
  vl : readNat mem (p + 672) 8 = z.vec.vl % 2 ^ 64
  tpc : readNat mem (p + 752) 8 = z.tr.tpc.toNat
  tcause : readNat mem (p + 768) 8 = z.tr.tcause.toNat
  sup : readNat mem (p + 840) 8 = if z.tr.sup then 1 else 0
  ptbase : readNat mem (p + 872) 8 = z.ms.ptbase.toNat

section
variable {gn : Nat} {g : Group} {s : State} (k : Nat) {m : Memory} (hm : m.wf = true) (p : Nat) {e : HartNo × Nat}
  (he : e ∈ (saveMap gn g s).1.records)
include hm he

/-- Bytes of the scalar registers in a record, read back. -/
theorem read_scalar {i n w : Nat} (h : StandsAt ((s.hartAt g.core.toNat e.1.toNat).scalarBytes (k + e.2 + 512)) i (natToBytes n w)) :
    readNat (writePlaces m p (areaBytes gn g s k)) (p + e.2 + i) n = w % 256 ^ n := by
  have hr := (areaBytes_record gn g s k he).trans ((hartRecord_begins g.core.toNat e.1.toNat g s (k + e.2)).1.trans h)
  rw [Nat.zero_add] at hr
  rw [Nat.add_assoc, hr.readNat hm]

/-- A word of the control block in a record, read back. -/
theorem read_control {i : Nat} {w : Word} (h : (controlWords g.core.toNat e.1.toNat s)[i]? = some w) :
    readNat (writePlaces m p (areaBytes gn g s k)) (p + e.2 + (640 + 8 * i)) 8 = w.toNat := by
  have hr := (areaBytes_record gn g s k he).trans
    ((hartRecord_begins g.core.toNat e.1.toNat g s (k + e.2)).2.trans (controlBytes_word h))
  rw [Nat.add_assoc, hr.readNat hm]
  exact Nat.mod_eq_of_lt w.isLt

/-- A control register in a record, read back. -/
theorem read_savedCtl {i j : Nat} (h : savedCtl[i]? = some j) :
    readNat (writePlaces m p (areaBytes gn g s k)) (p + e.2 + (640 + 8 * (3 + i))) 8 =
      (readCtl j (s.focus g.core.toNat e.1.toNat)).toNat := by
  refine read_control k hm p he ?_
  rw [controlWords, List.getElem?_append_right (by simp), List.getElem?_map]
  rw [show 3 + i - ([_, _, _] : List Word).length = i from Nat.add_sub_cancel_left 3 i, h]
  rfl

theorem recordOf_area : RecordOf (s.hartAt g.core.toNat e.1.toNat) (writePlaces m p (areaBytes gn g s k)) (p + e.2) := by
  have hf := focus_hart g.core e.1 s
  refine ⟨fun r hr => ?_, fun i hi => ?_, fun i hi => ?_, ?_, ?_, ?_, ?_, ?_, ?_, ?_⟩
  · exact (read_scalar k hm p he (scalarBytes_x _ _ hr)).trans (Nat.mod_eq_of_lt (BitVec.isLt _))
  · rw [Nat.add_assoc _ 512]
    refine (read_scalar k hm p he (n := 1) (scalarBytes_k _ _ hi)).trans ?_
    rw [Hart.getK, bit]
    split <;> rfl
  · rw [Nat.add_assoc _ 576]
    exact (read_scalar k hm p he (scalarBytes_b _ _ hi)).trans (Nat.mod_eq_of_lt (BitVec.isLt _))
  · rw [read_control k hm p he (i := 0) rfl]
    exact BitVec.toNat_setWidth_of_le (by decide)
  · rw [read_savedCtl k hm p he (i := 0) (j := 1) rfl, ← hf]
    rfl
  · rw [read_savedCtl k hm p he (i := 1) (j := 0) rfl, ← hf]
    exact BitVec.toNat_ofNat _ _
  · rw [read_savedCtl k hm p he (i := 11) (j := 0x20) rfl, ← hf]
    rfl
  · rw [read_savedCtl k hm p he (i := 13) (j := 0x22) rfl, ← hf]
    rfl
  · rw [read_savedCtl k hm p he (i := 22) (j := 0x2B) rfl, ← hf]
    show (word (bit _)).toNat = _
    rw [word, BitVec.toNat_ofNat, bit]
    split <;> rfl
  · rw [read_savedCtl k hm p he (i := 26) (j := 0x100) rfl, ← hf]
    rfl

end

end Sys2Proof.Machine

namespace Sys2Proof.Machine

/-! ### A victim and its save (R216, R217) -/

theorem filter_key {α : Type} {l : List (Nat × α)} {k : Nat} {x : α} (hp : l.Pairwise fun a b => a.1 ≠ b.1) (h : lookup l k = some x) :
    l.filter (fun e => e.1 == k) = [(k, x)] := by
  induction l with
  | nil => exact absurd h nofun
  | cons e l ih =>
    obtain ⟨j, y⟩ := e
    obtain ⟨hj, hp⟩ := List.pairwise_cons.1 hp
    rw [lookup] at h
    split at h
    case isTrue hk =>
      subst hk
      obtain rfl : y = x := Option.some.inj h
      rw [List.filter_cons_of_pos (by simp), List.filter_eq_nil_iff.2 fun e he => ?_]
      simpa using (hj e he).symm
    case isFalse hk => rw [List.filter_cons_of_neg (by simpa using hk), ih hp h]

theorem lookup_filter_ne {α : Type} (l : List (Nat × α)) (k : Nat) : lookup (l.filter fun e => e.1 != k) k = none := by
  induction l with
  | nil => rfl
  | cons e l ih =>
    obtain ⟨j, y⟩ := e
    by_cases hk : j = k
    · rw [List.filter_cons_of_neg (by simpa using hk), ih]
    · rw [List.filter_cons_of_pos (by simpa using hk), lookup, if_neg hk, ih]

section
variable {s : State} {g : Nat} {x : Group}

/-- A group of no gang, of a launch that is none, goes by itself. -/
theorem together_single (hg : lookup s.wharf.groups g = some x) (hn : x.gang = none) (ha : x.aborted = false) (hd : x.gone = false)
    (hl : ∀ l, lookup s.wharf.launches x.launch = some l → l.record.gang = false)
    (hp : s.wharf.groups.Pairwise fun a b => a.1 ≠ b.1) : together g s = [g] := by
  have hpeers : (s.groupsOf x.launch).filter (fun e => e.1 == g) = [(g, x)] := by
    rw [State.groupsOf, List.filter_filter]
    simp only [Bool.and_comm (_ == g)]
    rw [← List.filter_filter, filter_key hp hg]
    simp
  have hone : (((s.groupsOf x.launch).filter fun e => false || e.1 == g || (false && (e.2.gang.map (·.1)) == none)).filter
      fun e => !e.2.aborted && !e.2.gone).map (·.1) = [g] := by
    simp only [Bool.false_or, Bool.false_and, Bool.or_false]
    rw [hpeers]
    simp [ha, hd]
  unfold together
  rw [State.group?, hg]
  dsimp only
  rw [hn]
  cases h : lookup s.wharf.launches x.launch with
  | none => exact hone
  | some l =>
    dsimp only
    rw [hl l h]
    exact hone

theorem execHostPreempt_single (hi : s.input.group = g) (hg : lookup s.wharf.groups g = some x) (ht : together g s = [g]) :
    exec .hostPreempt s = .next (s.modWharf fun w => { w with groups := insert w.groups g { x with victim := true } }) := by
  rw [exec_hostPreempt, execHostPreempt, hi, ht, markVictims, List.foldl_cons, List.foldl_nil, State.modGroup, State.group?, hg]

theorem execPreempt_single {t : State} (hi : s.input.group = g) (hg : lookup s.wharf.groups g = some x) (ht : together g s = [g])
    (hv : x.victim = true) (hq : groupQuiet x s = true) (hs : saveGroup g s = some t) : exec .preempt s = .next t := by
  rw [exec_preempt, execPreempt, hi, ht]
  simp [State.group?, hg, hv, hq, hs]

/-- A core with nothing in flight lets its groups go. -/
theorem groupQuiet_of_nothing (he : (s.core x.core.toNat).land.entries = []) (hf : (s.core x.core.toNat).copyFifo = [])
    (hc : (s.die (dieOf x.core.toNat)).coll = []) (hq : ∀ h ∈ x.harts, (s.hartAt x.core.toNat h.toNat).ms.stq = []) :
    groupQuiet x s = true := by
  refine List.all_eq_true.2 fun h hh => ?_
  rw [hartQuiet, hf, hc, hq h hh, entriesOf, Core.entries, he]
  simp

/-- A vector side at a boundary has no round to leave. -/
theorem roundStop_still {c h : Nat} (hv : ∀ v rest, (s.hartAt c h).vec.viq = v :: rest → (∀ a b, v.instr ≠ .loop a b) ∧ v.start % 8 = 0) :
    roundStop c h s = s := by
  unfold roundStop
  dsimp only
  cases e : (s.hartAt c h).vec.viq with
  | nil => rfl
  | cons v rest =>
    obtain ⟨hl, h0⟩ := hv v rest e
    dsimp only
    split
    next a b _ hi _ => exact absurd hi (hl a b)
    next => exact if_pos h0

theorem foldl_roundStop_still {c : Nat} {l : List HartNo} (hv : ∀ h ∈ l, ∀ v rest, (s.hartAt c h.toNat).vec.viq = v :: rest →
    (∀ a b, v.instr ≠ .loop a b) ∧ v.start % 8 = 0) : l.foldl (fun s h => roundStop c h.toNat s) s = s := by
  induction l with
  | nil => rfl
  | cons h l ih =>
    rw [List.foldl_cons, roundStop_still (hv h (List.mem_cons_self ..)), ih fun h' hh => hv h' (List.mem_cons_of_mem h hh)]

end

/-! Its core afterwards -/

/-- A hart loses its Landing entries and changes. -/
def dropAndMod (c : Nat) (f : Hart → Hart) (s : State) (h : HartNo) : State := (dropEntries c h.toNat s).modHartAt c h.toNat f

section
variable {c : Nat} {f : Hart → Hart}

theorem dropAndMod_frame (s : State) (h : HartNo) :
    (dropAndMod c f s h).mem = s.mem ∧ (dropAndMod c f s h).wharf = s.wharf ∧ ((dropAndMod c f s h).core c).pool = (s.core c).pool := by
  refine ⟨rfl, rfl, ?_⟩
  unfold dropAndMod State.modHartAt State.setHartAt dropEntries
  rw [core_setCore_same, core_modCore_same]
  rfl

theorem foldl_dropAndMod_frame (l : List HartNo) (s : State) :
    (l.foldl (dropAndMod c f) s).mem = s.mem ∧ (l.foldl (dropAndMod c f) s).wharf = s.wharf ∧
    ((l.foldl (dropAndMod c f) s).core c).pool = (s.core c).pool := by
  induction l generalizing s with
  | nil => exact ⟨rfl, rfl, rfl⟩
  | cons h l ih =>
    obtain ⟨h1, h2, h3⟩ := ih (dropAndMod c f s h)
    obtain ⟨k1, k2, k3⟩ := dropAndMod_frame (c := c) (f := f) s h
    exact ⟨h1.trans k1, h2.trans k2, h3.trans k3⟩

theorem dropAndMod_hartAt (s : State) (h : HartNo) (n : Nat) :
    (dropAndMod c f s h).hartAt c n = if n = h.toNat then f (s.hartAt c n) else s.hartAt c n := by
  unfold dropAndMod
  split
  case isTrue e =>
    subst e
    rw [hartAt_modHartAt_same, dropEntries_hartAt]
  case isFalse e => rw [hartAt_modHartAt_ne _ _ (.inr e), dropEntries_hartAt]

/-- What the change keeps stays. -/
theorem foldl_dropAndMod_keep {Q : Hart → Prop} (hf : ∀ y, Q y → Q (f y)) (l : List HartNo) {s : State} {n : Nat} (hs : Q (s.hartAt c n)) :
    Q ((l.foldl (dropAndMod c f) s).hartAt c n) := by
  induction l generalizing s with
  | nil => exact hs
  | cons h l ih =>
    refine ih ?_
    rw [dropAndMod_hartAt]
    split
    · exact hf _ hs
    · exact hs

/-- What the change gives holds of each hart of the list. -/
theorem foldl_dropAndMod_all {Q : Hart → Prop} (hf : ∀ y, Q (f y)) {l : List HartNo} {s : State} {h : HartNo} (hh : h ∈ l) :
    Q ((l.foldl (dropAndMod c f) s).hartAt c h.toNat) := by
  induction l generalizing s with
  | nil => exact absurd hh nofun
  | cons a l ih =>
    rcases List.mem_cons.1 hh with rfl | hh
    · refine foldl_dropAndMod_keep (fun y _ => hf y) l ?_
      rw [dropAndMod_hartAt, if_pos rfl]
      exact hf _
    · exact ih hh

end

end Sys2Proof.Machine

namespace Sys2Proof.Machine

/-- A group as it is saved: no victim any more, with the cycles that it was resident (R208, R216). -/
def Group.putAway (x : Group) (s : State) : Group := { x with victim := false, carried := groupCycles x s }

/-- A hart that is free, with its core's pace. -/
def Hart.vacated (x : Hart) : Hart := { Hart.reset with vec := { Hart.reset.vec with lag := x.vec.lag } }

/-- A hart that no group has and that does not run. -/
structure Hart.Idle (x : Hart) : Prop where
  running : x.run.running = false
  group : x.id.group = none

theorem vacated_idle (x : Hart) : x.vacated.Idle := ⟨rfl, rfl⟩

/-- A hart without its group. -/
def Hart.apart (x : Hart) : Hart := { x with id := { x.id with group := none } }

theorem Hart.Idle.apart {x : Hart} (h : x.Idle) : x.apart.Idle := ⟨h.running, rfl⟩

/-- The lanes that the harts of a group give back. -/
def lanesOf (x : Group) (s : State) : Nat :=
  (x.harts.map fun h =>
    (s.hartAt x.core.toNat h.toNat).vec.grant + ((s.hartAt x.core.toNat h.toNat).id.parked.map (·.2)).sum).sum

theorem lanesOf_woken (x : Group) {s t : State} (h : Woken s t) : lanesOf x t = lanesOf x s := by
  unfold lanesOf
  congr 1
  refine List.map_congr_left fun n _ => ?_
  obtain ⟨w, e⟩ := h.harts x.core.toNat n.toNat
  rw [e]

/-- What a save leaves: the area's bytes, and a core without the group. -/
structure PutAway (g : Nat) (x : Group) (v : Saved) (area : List Byte) (s t : State) : Prop where
  mem : t.mem = writePlaces s.mem (paPlace 0 v.base) area
  group : lookup t.wharf.groups g = none
  saved : lookup t.wharf.saved g = some v
  harts : ∀ h ∈ x.harts, (t.hartAt x.core.toNat h.toNat).Idle
  pool : (t.core x.core.toNat).pool = (s.core x.core.toNat).pool + lanesOf x s

/-- The harts of a group become free, and their Landing entries go. -/
def vacate (x : Group) (s : State) : State := x.harts.foldl (dropAndMod x.core.toNat Hart.vacated) s

/-- The group lets go of its harts. -/
def letGo (x : Group) (s : State) : State :=
  x.harts.foldl (dropAndMod x.core.toNat Hart.apart) s

theorem releaseGroup_letGo (g : Nat) (x : Group) (s u : State) : ∃ a, releaseGroup g (x.putAway s) u = (letGo x u).modCore x.core.toNat a ∧
    ∀ k, (a k).harts = k.harts ∧ (a k).pool = k.pool :=
  ⟨fun k => { k with channels := k.channels.filter fun e => e.2.group != g }, rfl, fun _ => ⟨rfl, rfl⟩⟩

/-- A save up to the end of its group's stay, which `s1` follows. -/
theorem saveGroup_stages {g : Nat} {x : Group} {s : State} {v : Saved} (hg : lookup s.wharf.groups g = some x)
    (hr : x.harts.foldl (fun s h => roundStop x.core.toNat h.toNat s) s = s)
    (hv : savedGroup g (x.putAway s) (saveBase (groupTenant x s) s) s = v) (hfit : v.base + v.size ≤ Config.nmSize) :
    ∃ s1 b f, saveGroup g s = some (((releaseGroup g (x.putAway s) (vacate x s1)).modCore x.core.toNat b).modWharf f) ∧
      s1 = performBytes (paPlace 0 v.base) (areaBytes g (x.putAway s) s s.free) { s with free := s.free + v.size } ∧
      (∀ k, (b k).harts = k.harts ∧ (b k).pool = k.pool + lanesOf x s1) ∧
      ∀ w, (f w).groups = w.groups.filter (fun e => e.1 != g) ∧ (f w).saved = insert w.saved g v := by
  unfold saveGroup
  rw [State.group?, hg]
  dsimp only
  rw [hr]
  have hv' : savedGroup g { x with victim := false, carried := groupCycles x s }
      (saveBase (groupTenant { x with victim := false, carried := groupCycles x s } s) s) s = v := hv
  rw [hv', if_neg (Nat.not_lt.2 hfit)]
  exact ⟨_, _, _, rfl, rfl, fun _ => ⟨rfl, rfl⟩, fun _ => ⟨rfl, rfl⟩⟩

theorem performBytes_woken (p : Nat) (l : List Byte) (s : State) : Woken s (performBytes p l s) := ⟨(wake_woken _ _).harts, rfl⟩

theorem performBytes_pool (p : Nat) (l : List Byte) (s : State) (c : Nat) : ((performBytes p l s).core c).pool = (s.core c).pool := by
  rw [performBytes, wake_core]
  rfl

/-- What a group leaves behind that lets go of its core. -/
theorem letGo_vacate (x : Group) (s : State) :
    (letGo x (vacate x s)).mem = s.mem ∧ (letGo x (vacate x s)).wharf = s.wharf ∧
    ((letGo x (vacate x s)).core x.core.toNat).pool = (s.core x.core.toNat).pool ∧
    ∀ h ∈ x.harts, ((letGo x (vacate x s)).hartAt x.core.toNat h.toNat).Idle := by
  obtain ⟨hm1, hw1, hp1⟩ := foldl_dropAndMod_frame (c := x.core.toNat) (f := Hart.vacated) x.harts s
  obtain ⟨hm2, hw2, hp2⟩ := foldl_dropAndMod_frame (c := x.core.toNat) (f := Hart.apart) x.harts
    (vacate x s)
  refine ⟨hm2.trans hm1, hw2.trans hw1, hp2.trans hp1, fun h hh => ?_⟩
  have hv : ((vacate x s).hartAt x.core.toNat h.toNat).Idle := foldl_dropAndMod_all vacated_idle hh
  exact foldl_dropAndMod_keep (fun _ hy => hy.apart) x.harts hv

theorem saveGroup_putAway {g : Nat} {x : Group} {s : State} {v : Saved} (hg : lookup s.wharf.groups g = some x)
    (hr : x.harts.foldl (fun s h => roundStop x.core.toNat h.toNat s) s = s)
    (hv : savedGroup g (x.putAway s) (saveBase (groupTenant x s) s) s = v) (hfit : v.base + v.size ≤ Config.nmSize) :
    ∃ t, saveGroup g s = some t ∧ PutAway g x v (areaBytes g (x.putAway s) s s.free) s t := by
  obtain ⟨s1, b, f, e, h1, hb, hf⟩ := saveGroup_stages hg hr hv hfit
  have hw : Woken s s1 := by
    rw [h1]
    exact ⟨(performBytes_woken _ _ _).harts, rfl⟩
  have hwharf : s1.wharf = s.wharf := by rw [h1]; rfl
  have hmem : s1.mem = writePlaces s.mem (paPlace 0 v.base) (areaBytes g (x.putAway s) s s.free) := by rw [h1]; rfl
  have hpool : (s1.core x.core.toNat).pool = (s.core x.core.toNat).pool := by
    rw [h1, performBytes_pool]
    rfl
  clear h1
  obtain ⟨a, ea, ha⟩ := releaseGroup_letGo g x s (vacate x s1)
  obtain ⟨hm, hwf, hp, hh⟩ := letGo_vacate x s1
  rw [ea] at e
  generalize letGo x (vacate x s1) = u at *
  have hhart : ∀ n, (((u.modCore x.core.toNat a).modCore x.core.toNat b).modWharf f).hartAt x.core.toNat n = u.hartAt x.core.toNat n :=
    fun n => (hartAt_modCore _ _ _ _ fun k => (hb k).1).trans (hartAt_modCore _ _ _ _ fun k => (ha k).1)
  refine ⟨_, e, hm.trans hmem, ?_, ?_, fun h hmem => ?_, ?_⟩
  · show lookup (f u.wharf).groups g = none
    rw [(hf _).1, lookup_filter_ne]
  · show lookup (f u.wharf).saved g = some v
    rw [(hf _).2, lookup_insert_same]
  · rw [hhart]
    exact hh h hmem
  · show (((u.modCore x.core.toNat a).modCore x.core.toNat b).core x.core.toNat).pool = _
    rw [core_modCore_same, core_modCore_same, (hb _).2, (ha _).2, hp, hpool, lanesOf_woken x hw]

end Sys2Proof.Machine

namespace Sys2Proof.Machine

section
variable {s : State} {g : Nat} {x : Group} {v : Saved} (hv : savedGroup g (x.putAway s) (saveBase (groupTenant x s) s) s = v)
include hv

theorem savedGroup_group : v.group = { x with victim := false, carried := x.carried + ((s.core x.core.toNat).cycles - x.admitted) } := by
  rw [← hv]
  rfl

theorem savedGroup_harts : v.harts = x.harts.map fun h => (h, (s.hartAt x.core.toNat h.toNat).suspend.bare) := by
  rw [← hv]
  rfl

theorem savedGroup_landing (he : (s.core x.core.toNat).land.entries = []) : v.landing = [] := by
  rw [← hv]
  show List.filter _ (s.core x.core.toNat).land.entries = []
  rw [he]
  rfl

theorem savedGroup_base {l : Launch} (hl : lookup s.wharf.launches x.launch = some l) (hs : s.wharf.saved = []) :
    v.base = (s.tenant l.record.tenant.toNat).saveBase.toNat := by
  rw [← hv]
  show saveBase (groupTenant x s) s = _
  rw [saveBase, hs, groupTenant, hl]
  rfl

theorem savedGroup_map : v.map = (saveMap g (x.putAway s) s).1 ∧ v.size = (saveMap g (x.putAway s) s).2 := by
  rw [← hv]
  exact ⟨rfl, rfl⟩

theorem savedGroup_running : v.map.records.map (·.1) = x.harts.filter fun h => (s.hartAt x.core.toNat h.toNat).run.running := by
  rw [(savedGroup_map hv).1, saveMap_records, laidOut_map_fst, recordSizes, List.map_map]
  exact List.map_id _

theorem savedGroup_first {e : HartNo × Nat} {rest : List (HartNo × Nat)} (h : v.map.records = e :: rest) : e.2 = 256 := by
  rw [(savedGroup_map hv).1, saveMap_records] at h
  cases hr : recordSizes (x.putAway s) s with
  | nil =>
    rw [hr] at h
    exact absurd h nofun
  | cons a l =>
    rw [hr] at h
    obtain ⟨rfl, -⟩ := List.cons.inj h
    rfl

end

theorem harts_length_le {l : List HartNo} (h : l.Pairwise (· ≠ ·)) : l.length ≤ 8 := by
  have hd : (l.map BitVec.toFin).Nodup := List.Nodup.map (fun a b e => BitVec.eq_of_toFin_eq e) h
  have := hd.length_le_card
  rwa [List.length_map, Fintype.card_fin] at this

/-- What a save area holds once it has been written. -/
structure AreaHolds (g : Nat) (x : Group) (v : Saved) (s t : State) : Prop where
  out : ∀ q, q < paPlace 0 v.base ∨ paPlace 0 v.base + v.size ≤ q → readPlace t.mem q = readPlace s.mem q
  head : ∀ {o i w}, o = 64 + 8 * i → i < 24 → (headerWords g (x.putAway s) s)[i]? = some w →
    readNat t.mem (paPlace 0 v.base + o) 8 = w.toNat
  records : ∀ e ∈ v.map.records, RecordOf (s.hartAt x.core.toNat e.1.toNat) t.mem (paPlace 0 v.base + e.2)
  arena : ∀ k, k < x.size → readPlace t.mem (paPlace 0 v.base + v.map.arena + k) = readPlace s.mem (lsPlace x.core.toNat (x.lsBase + k))

theorem PutAway.areaHolds {s t : State} {g : Nat} {x : Group} {v : Saved}
    (h : PutAway g x v (areaBytes g (x.putAway s) s s.free) s t)
    (hv : savedGroup g (x.putAway s) (saveBase (groupTenant x s) s) s = v) (hs : s.Sound) : AreaHolds g x v s t := by
  obtain ⟨hmap, hsize⟩ := savedGroup_map hv
  refine ⟨fun q hq => ?_, fun ho hi hw => ?_, fun e he => ?_, fun k hk => ?_⟩
  · rw [h.mem, readPlace_writePlaces_out]
    rwa [areaBytes_length, ← hsize]
  · rw [h.mem, ho]
    exact read_headerWord g (x.putAway s) s s.free hs (paPlace 0 v.base) hi hw
  · rw [hmap] at he
    rw [h.mem]
    exact recordOf_area s.free hs (paPlace 0 v.base) he
  · have hlen : k < (readPlaces s.mem (lsPlace x.core.toNat x.lsBase) x.size).length := by
      rw [readPlaces_length]
      exact hk
    rw [h.mem, hmap, lsPlace_add]
    exact ((areaBytes_arena g (x.putAway s) s s.free).readPlace hs (paPlace 0 v.base) hlen).trans (readPlaces_getElem _ hlen)

section
variable {s : State} {x : Group} {g : Nat}

theorem headHart_running {h : HartNo} {rest : List HartNo}
    (hr : (x.harts.filter fun h => (s.hartAt x.core.toNat h.toNat).run.running) = h :: rest) :
    headHart (x.putAway s) s = s.hartAt x.core.toNat h.toNat := by
  have e : runningHarts (x.putAway s) s = h :: rest := hr
  rw [headHart, e]
  rfl

variable {v : Saved} {t : State} (a : AreaHolds g x v s t)
include a

/-- LAUNCHID, IDX and ARGS of the first running hart in the header. -/
theorem AreaHolds.ids {h : HartNo} {rest : List HartNo}
    (hr : (x.harts.filter fun h => (s.hartAt x.core.toNat h.toNat).run.running) = h :: rest) :
    readNat t.mem (paPlace 0 v.base + 64) 8 = (s.hartAt x.core.toNat h.toNat).id.launchId.toNat ∧
    (∀ i, i < 6 → readNat t.mem (paPlace 0 v.base + 72 + 8 * i) 8 = ((s.hartAt x.core.toNat h.toNat).id.idx.getD i 0).toNat) ∧
    readNat t.mem (paPlace 0 v.base + 120) 8 = (s.hartAt x.core.toNat h.toNat).id.args.toNat := by
  rw [← headHart_running hr]
  refine ⟨a.head (i := 0) rfl (by decide) rfl, fun i hi => ?_, a.head (i := 7) rfl (by decide) rfl⟩
  rw [Nat.add_assoc]
  exact a.head (i := 1 + i) (by omega) (by omega) (headerWords_idx g (x.putAway s) s hi)

/-- The arena size and the number of records in the header. -/
theorem AreaHolds.counts (hd : x.harts.Pairwise (· ≠ ·)) : readNat t.mem (paPlace 0 v.base + 128) 8 = x.size % 2 ^ 64 ∧
    readNat t.mem (paPlace 0 v.base + 136) 8 = (x.harts.filter fun h => (s.hartAt x.core.toNat h.toNat).run.running).length := by
  have hs : (headerWords g (x.putAway s) s)[8]? = some (word x.size) := rfl
  have hw : (headerWords g (x.putAway s) s)[9]? = some (word (saveMap g (x.putAway s) s).1.records.length) := rfl
  have hl : (saveMap g (x.putAway s) s).1.records.length =
      (x.harts.filter fun h => (s.hartAt x.core.toNat h.toNat).run.running).length := by
    have := congrArg List.length (laidOut_map_fst (recordSizes (x.putAway s) s) 256)
    rw [List.length_map, List.length_map, recordSizes, List.length_map] at this
    exact this
  have hle := (List.length_filter_le (fun h : HartNo => (s.hartAt x.core.toNat h.toNat).run.running) x.harts).trans (harts_length_le hd)
  rw [hl] at hw
  refine ⟨?_, ?_⟩
  · rw [← BitVec.toNat_ofNat x.size 64]
    exact a.head rfl (by decide) hs
  · have hlt : (x.harts.filter fun h => (s.hartAt x.core.toNat h.toNat).run.running).length < 2 ^ 64 := by omega
    rw [← Nat.mod_eq_of_lt hlt, ← BitVec.toNat_ofNat]
    exact a.head rfl (by decide) hw

end

end Sys2Proof.Machine

namespace Sys2Proof.Machine

/-- Settles O55: the bytes of the save area stand where the map of it says, and a restore reads them from there. -/
theorem preemptionResults : Obligations.PreemptionResults := by
  intro s
  refine ⟨fun x hg hn ha hgone hl hp => ?_, fun v c hs hg hl hland _ _ hd hh hc hdie hfit hn he hsound => ?_⟩
  · have ht := together_single hg hn ha hgone hl hp
    refine ⟨execHostPreempt_single rfl hg ht, fun hvic hland hfifo hcoll hd hstq hviq hfit => ?_⟩
    have hquiet := groupQuiet_of_nothing hland hfifo hcoll hstq
    obtain ⟨v, hv⟩ : ∃ v, savedGroup s.input.group (x.putAway s) (saveBase (groupTenant x s) s) s = v := ⟨_, rfl⟩
    have hroom : v.base + v.size ≤ Config.nmSize := by
      rw [← hv]
      exact hfit
    obtain ⟨t, hsave, h⟩ := saveGroup_putAway hg (foldl_roundStop_still hviq) hv hroom
    refine ⟨t, v, execPreempt_single rfl hg ht hvic hquiet hsave, h.group, h.saved, savedGroup_group hv, savedGroup_harts hv,
      savedGroup_landing hv hland, fun l hl hs => savedGroup_base hv hl hs, savedGroup_running hv, fun e rest he => savedGroup_first hv he,
      fun hsound => ?_, fun n hmem => ⟨(h.harts n hmem).running, (h.harts n hmem).group⟩, h.pool⟩
    have a := h.areaHolds hv hsound
    obtain ⟨hsize, hcount⟩ := a.counts hd
    refine ⟨a.out, fun n rest hr => a.ids hr, hsize, hcount, fun e he => ?_, a.arena⟩
    have r := a.records e he
    exact ⟨r.x, r.k, fun b hb => (r.b b hb).trans (image_toNat _), r.pc, r.vtype, r.vl, r.tpc, r.tcause, r.sup, r.ptbase⟩
  · obtain ⟨fp, hexec⟩ := execRestore_single rfl hs hg hl hc hdie hfit hn
    obtain ⟨y, hb⟩ := placeGroup_comeBack (g := s.input.group) (fun e h => (hh e h).1) hland hd he [(s.input.group, v)] fp
    generalize placeGroup [(s.input.group, v)] s.input.group c v fp s = t at hexec hb
    refine ⟨t, y, hexec, ?_, hb.group, hb.place.core, hb.place.harts, hb.place.launch, hb.place.number, hb.place.size, hb.pool, hb.icache,
      fun e hmem => ?_, fun k hk => ?_⟩
    · rw [hb.saved, hs]
      simp [erase]
    · obtain ⟨-, -, hx⟩ := hh e hmem
      obtain ⟨hrun, hgrant, hwritten⟩ := hb.kept hmem hx
      refine ⟨hrun, hgrant, hwritten, fun hr => ?_, fun off hr => ?_⟩
      · obtain ⟨z, lag, n, b, hz⟩ := hb.bare hmem hr hx
        rw [hz]
        exact ⟨b.pc, b.fp, b.lp, b.rc, b.tr, congrArg (fun w : VecState => { w with lag := lag }) b.vec, b.ptbase, b.asid⟩
      · have k := hb.record hmem hr
        refine ⟨k.pc, k.vtype, k.vl, k.tpc, k.tcause, k.sup, k.ptbase, k.x, k.k, fun i hi => ?_, k.v⟩
        rw [k.b i hi]
        exact restored_fields _
    · rw [hb.mem, lsPlace_add]
      exact placedArena_reads hsound v _ hk

end Sys2Proof.Machine

namespace Sys2Proof.Machine

/-! ### The magnitudes of a format (R117) -/

/-- What the layouts of R117 have in common: a fraction, a largest finite with a fraction that is not 0, and an exponent range on both
sides of 0 that is wider than the fraction. -/
structure Fmt.Fits (f : Fmt) : Prop where
  fb_pos : 1 ≤ f.fb
  fb_le : f.fb ≤ 52
  top_exp : 1 ≤ f.top / 2 ^ f.fb
  top_frac : f.top % 2 ^ f.fb ≠ 0
  emin_le : f.emin ≤ -(f.fb : Int)
  top_range : ((f.top / 2 ^ f.fb : Nat) : Int) ≤ 2 * f.bias + 1
  bias_ge : 7 ≤ f.bias

theorem fits_of_layout {row : Nat × Nat × Nat × Int × Bool × Nat × Nat} (h : row ∈ floatLayouts) : (fmtOf row.1).Fits := by
  simp only [floatLayouts, List.mem_cons, List.not_mem_nil, or_false] at h
  obtain rfl | rfl | rfl | rfl | rfl | rfl := h <;> constructor <;> decide

/-- The exponent of the last place of the least magnitudes. -/
def Fmt.unit (f : Fmt) : Int := f.emin - f.fb

theorem mag_subnormal (f : Fmt) {t : Nat} (h : t < 2 ^ f.fb) : f.mag t = t * 2 ^ f.unit := by
  have h0 : t / 2 ^ f.fb = 0 := Nat.div_eq_of_lt h
  unfold Fmt.mag
  dsimp only
  rw [if_pos h0, Nat.mod_eq_of_lt h, Fmt.unit, Fmt.emin, zpow_sub₀ two_ne_zero _ (f.fb : Int), zpow_natCast]
  ring

theorem mag_normal (f : Fmt) (k : Nat) {t : Nat} (h1 : 2 ^ f.fb ≤ t) (h2 : t < 2 ^ (f.fb + 1)) :
    f.mag (k * 2 ^ f.fb + t) = t * 2 ^ (f.unit + k) := by
  have hp : 0 < 2 ^ f.fb := Nat.two_pow_pos _
  have hw : k * 2 ^ f.fb + t = (t - 2 ^ f.fb) + 2 ^ f.fb * (k + 1) := by
    rw [Nat.mul_add, Nat.mul_one, Nat.mul_comm]
    omega
  have hlt : t - 2 ^ f.fb < 2 ^ f.fb := by
    rw [Nat.pow_succ] at h2
    omega
  have hd : (k * 2 ^ f.fb + t) / 2 ^ f.fb = k + 1 := by
    rw [hw, Nat.add_mul_div_left _ _ hp, Nat.div_eq_of_lt hlt, Nat.zero_add]
  have hm : (k * 2 ^ f.fb + t) % 2 ^ f.fb = t - 2 ^ f.fb := by
    rw [hw, Nat.add_mul_mod_self_left, Nat.mod_eq_of_lt hlt]
  unfold Fmt.mag
  dsimp only
  rw [hd, hm, if_neg (Nat.succ_ne_zero k), Nat.cast_sub h1, Fmt.unit, Fmt.emin]
  have e : (1 - f.bias - (f.fb : Int) + k) = ((k + 1 : Nat) : Int) - f.bias - f.fb := by
    push_cast
    ring
  rw [e, zpow_sub₀ two_ne_zero _ (f.fb : Int), zpow_natCast]
  have hq : (2 : ℚ) ^ f.fb ≠ 0 := pow_ne_zero _ two_ne_zero
  field_simp
  push_cast
  ring

/-- A magnitude by its binade and its place in it; the first place of the next binade is also one past the last. -/
theorem mag_at (f : Fmt) {k t : Nat} (hk : k = 0 ∨ 2 ^ f.fb ≤ t) (ht : t ≤ 2 ^ (f.fb + 1)) : f.mag (k * 2 ^ f.fb + t) = t * 2 ^ (f.unit + k) := by
  rcases Nat.lt_or_ge t (2 ^ f.fb) with h | h
  · obtain rfl : k = 0 := hk.resolve_right (Nat.not_le.2 h)
    rw [Nat.zero_mul, Nat.zero_add, mag_subnormal f h, Nat.cast_zero, add_zero]
  · rcases Nat.lt_or_eq_of_le ht with h' | rfl
    · exact mag_normal f k h h'
    · have e : k * 2 ^ f.fb + 2 ^ (f.fb + 1) = (k + 1) * 2 ^ f.fb + 2 ^ f.fb := by ring
      rw [e, mag_normal f (k + 1) (Nat.le_refl _) (Nat.pow_lt_pow_right (by decide) (Nat.lt_succ_self _))]
      push_cast
      rw [pow_succ, ← add_assoc, zpow_add_one₀ two_ne_zero]
      ring

/-- Every encoding has a binade and a place in it. -/
theorem encoding_split (f : Fmt) (w : Nat) : ∃ k t : Nat, w = k * 2 ^ f.fb + t ∧ (k = 0 ∨ 2 ^ f.fb ≤ t) ∧ t < 2 ^ (f.fb + 1) := by
  have hp : 0 < 2 ^ f.fb := Nat.two_pow_pos _
  have hm := Nat.mod_lt w hp
  have hd := Nat.div_add_mod w (2 ^ f.fb)
  have h2 : 2 ^ (f.fb + 1) = 2 ^ f.fb * 2 := Nat.pow_succ ..
  rcases Nat.eq_zero_or_pos (w / 2 ^ f.fb) with h | h
  · rw [h, Nat.mul_zero, Nat.zero_add] at hd
    exact ⟨0, w, by omega, .inl rfl, by omega⟩
  · obtain ⟨k, hk⟩ := Nat.exists_eq_succ_of_ne_zero (Nat.pos_iff_ne_zero.1 h)
    rw [hk, Nat.mul_succ, Nat.mul_comm] at hd
    exact ⟨k, 2 ^ f.fb + w % 2 ^ f.fb, by omega, .inr (Nat.le_add_right _ _), by omega⟩

theorem zpow_two_pos (e : Int) : (0 : ℚ) < 2 ^ e := zpow_pos two_pos e

theorem mag_lt_succ (f : Fmt) (w : Nat) : f.mag w < f.mag (w + 1) := by
  obtain ⟨k, t, rfl, hk, ht⟩ := encoding_split f w
  rw [mag_at f hk (Nat.le_of_lt ht), Nat.add_assoc, mag_at f (hk.imp_right Nat.le_succ_of_le) ht]
  exact mul_lt_mul_of_pos_right (by exact_mod_cast Nat.lt_succ_self t) (zpow_two_pos _)

theorem mag_strictMono (f : Fmt) : StrictMono f.mag := strictMono_nat_of_lt_succ (mag_lt_succ f)

theorem mag_zero (f : Fmt) : f.mag 0 = 0 := by
  rw [mag_subnormal f (Nat.two_pow_pos _), Nat.cast_zero, zero_mul]

/-- The encoding below a number is the only one. -/
theorem encoding_unique {f : Fmt} {w v : Nat} {x : ℚ} (h1 : f.mag w ≤ x) (h2 : x < f.mag (w + 1)) (h3 : f.mag v ≤ x) (h4 : x < f.mag (v + 1)) :
    w = v := by
  have a := (mag_strictMono f).lt_iff_lt.1 (h1.trans_lt h4)
  have b := (mag_strictMono f).lt_iff_lt.1 (h3.trans_lt h2)
  omega

theorem mag_least (f : Fmt) : f.mag (2 ^ f.fb) = 2 ^ f.emin := by
  have h := mag_at f (k := 0) (t := 2 ^ f.fb) (.inl rfl) (Nat.pow_le_pow_right (by decide) (Nat.le_succ _))
  rw [Nat.zero_mul, Nat.zero_add] at h
  rw [h, Nat.cast_zero, add_zero, Fmt.unit]
  push_cast
  rw [← zpow_natCast, ← zpow_add₀ two_ne_zero]
  congr 1
  ring

end Sys2Proof.Machine

namespace Sys2Proof.Machine

/-! ### Rounding at a place (R127, R128) -/

/-- The magnitude of m × 2^e. -/
def scaled (m : Nat) (e : Int) : ℚ := m * 2 ^ e

theorem scaled_pos {m : Nat} (h : 0 < m) (e : Int) : 0 < scaled m e := mul_pos (by exact_mod_cast h) (zpow_two_pos e)

theorem scaled_le_scaled {t u : Nat} (q : Int) : scaled t q ≤ scaled u q ↔ t ≤ u := by
  rw [scaled, scaled, mul_le_mul_iff_left₀ (zpow_two_pos q), Nat.cast_le]

theorem scaled_lt_scaled {t u : Nat} (q : Int) : scaled t q < scaled u q ↔ t < u := by
  rw [scaled, scaled, mul_lt_mul_iff_left₀ (zpow_two_pos q), Nat.cast_lt]

theorem scaled_inj {t u : Nat} (q : Int) : scaled t q = scaled u q ↔ t = u := by
  rw [scaled, scaled, mul_left_inj' (zpow_two_pos q).ne', Nat.cast_inj]

theorem scaled_shift (m d : Nat) (e : Int) : scaled m (e + d) = scaled (m * 2 ^ d) e := by
  rw [scaled, scaled, zpow_add₀ two_ne_zero, zpow_natCast]
  push_cast
  ring

/-- Whether t places of d and a remainder r are rounded to t + 1 places. -/
def remainderUp (mode : RMode) (rb : Nat) (neg : Bool) (d t r : Nat) : Bool :=
  match mode with
  | .rne => decide (d < 2 * r) || (2 * r == d && t % 2 == 1)
  | .rtz => false
  | .rdn => neg && r != 0
  | .rup => !neg && r != 0
  | .rmm => decide (d ≤ 2 * r)
  | .sr => decide (rb < r * 65536 / d)

theorem roundAt_remainder {e q : Int} (h : e < q) (mode : RMode) (rb : Nat) (neg : Bool) (m : Nat) :
    roundAt mode rb neg m e q =
      (if remainderUp mode rb neg (2 ^ (q - e).toNat) (m / 2 ^ (q - e).toNat) (m % 2 ^ (q - e).toNat) = true
        then m / 2 ^ (q - e).toNat + 1 else m / 2 ^ (q - e).toNat, m % 2 ^ (q - e).toNat != 0) := by
  unfold roundAt
  rw [if_neg (not_le.2 h)]
  rfl

theorem remainderUp_zero {d : Nat} (hd : 0 < d) (mode : RMode) (rb : Nat) (neg : Bool) (t : Nat) : remainderUp mode rb neg d t 0 = false := by
  cases mode with
  | rne => simp [remainderUp, hd.ne]
  | rtz => rfl
  | rdn => simp [remainderUp]
  | rup => simp [remainderUp]
  | rmm => simpa [remainderUp] using hd.ne'
  | sr => simp [remainderUp]

/-- A magnitude with fraction r / d at a place goes up where the remainder says so. -/
theorem goesUp_remainder {d t r : Nat} (hd : 0 < d) (hr : 0 < r) (mode : RMode) (rb : Nat) (neg : Bool) {u y : ℚ}
    (hu : 0 < u) (hy : y * d = (t * d + r) * u) :
    goesUp mode rb neg (t % 2 == 1) (t * u) u y = remainderUp mode rb neg d t r := by
  have hdq : (0 : ℚ) < d := by exact_mod_cast hd
  have hx : y = (t * d + r) * u / d := by rw [eq_div_iff hdq.ne', hy]
  have hr0 : (r != 0) = true := by simpa using hr.ne'
  have hmid : (t * u + u / 2 < y ↔ d < 2 * r) ∧ (t * u + u / 2 = y ↔ 2 * r = d) := by
    have e : y - (t * u + u / 2) = (2 * r - d) * (u / (2 * d)) := by
      rw [hx]
      field_simp
      ring
    have hp : 0 < u / (2 * (d : ℚ)) := by positivity
    refine ⟨?_, ?_⟩
    · rw [← sub_pos, e, mul_pos_iff_of_pos_right hp, sub_pos]
      exact_mod_cast Iff.rfl
    · rw [eq_comm, ← sub_eq_zero, e, mul_eq_zero, or_iff_left hp.ne', sub_eq_zero]
      exact_mod_cast Iff.rfl
  have hrand : (t * u + u * (rb + 1) / 2 ^ 16 ≤ y ↔ rb < r * 65536 / d) := by
    have e : y - (t * u + u * (rb + 1) / 2 ^ 16) = (r * 65536 - (rb + 1) * d) * (u / (d * 2 ^ 16)) := by
      rw [hx]
      field_simp
      ring
    have hp : 0 < u / ((d : ℚ) * 2 ^ 16) := by positivity
    rw [← sub_nonneg, e, mul_nonneg_iff_of_pos_right hp, sub_nonneg, Nat.lt_iff_add_one_le, Nat.le_div_iff_mul_le hd]
    exact_mod_cast Iff.rfl
  cases mode with
  | rne =>
    simp only [goesUp, goesUpBy, remainderUp, hmid.1, hmid.2]
    rfl
  | rtz => rfl
  | rdn => rw [remainderUp, hr0, Bool.and_true]; rfl
  | rup => rw [remainderUp, hr0, Bool.and_true]; rfl
  | rmm =>
    simp only [goesUp, goesUpBy, remainderUp, hmid.1, hmid.2]
    rw [← Bool.decide_or]
    exact decide_eq_decide.2 (by omega)
  | sr =>
    simp only [goesUp, goesUpBy, remainderUp]
    rw [← Bool.decide_or, decide_eq_decide, ← hrand, le_iff_lt_or_eq]

/-- A magnitude at a place of unit 2^q: the multiple below it, to which or past which it is rounded. -/
theorem roundAt_place (mode : RMode) (rb : Nat) (neg : Bool) (m : Nat) (e q : Int) :
    ∃ t : Nat, scaled t q ≤ scaled m e ∧ scaled m e < scaled (t + 1) q ∧
      (scaled t q = scaled m e → roundAt mode rb neg m e q = (t, false)) ∧
      (scaled t q < scaled m e → roundAt mode rb neg m e q =
        (if goesUp mode rb neg (t % 2 == 1) (scaled t q) (2 ^ q) (scaled m e) = true then t + 1 else t, true)) := by
  rcases le_or_gt q e with h | h
  · have he : scaled m e = scaled (m * 2 ^ (e - q).toNat) q := by
      rw [← scaled_shift]
      congr 1
      omega
    refine ⟨m * 2 ^ (e - q).toNat, he.ge, ?_, fun _ => if_pos h, fun hlt => absurd (he ▸ hlt) (lt_irrefl _)⟩
    rw [he]
    exact (scaled_lt_scaled q).2 (Nat.lt_succ_self _)
  · obtain ⟨d, hd⟩ : ∃ d, 2 ^ (q - e).toNat = d := ⟨_, rfl⟩
    have hdp : 0 < d := hd ▸ Nat.two_pow_pos _
    have hsh : ∀ t : Nat, scaled t q = scaled (t * d) e := fun t => by
      rw [← hd, ← scaled_shift]
      congr 1
      omega
    have hm := Nat.div_add_mod m d
    have hmod := Nat.mod_lt m hdp
    have hle : scaled (m / d) q ≤ scaled m e := by
      rw [hsh, scaled_le_scaled, Nat.mul_comm]
      omega
    have hlt : scaled m e < scaled (m / d + 1) q := by
      rw [hsh, scaled_lt_scaled, Nat.add_mul, Nat.mul_comm]
      omega
    have hround := roundAt_remainder h mode rb neg m
    rw [hd] at hround
    refine ⟨m / d, hle, hlt, fun heq => ?_, fun hlt' => ?_⟩
    · have h0 : m % d = 0 := by
        rw [hsh] at heq
        have := le_antisymm ((scaled_le_scaled e).1 heq.le) ((scaled_le_scaled e).1 heq.ge)
        rw [Nat.mul_comm] at this
        omega
      rw [hround, h0, remainderUp_zero hdp]
      rfl
    · have h0 : 0 < m % d := by
        rw [hsh, scaled_lt_scaled, Nat.mul_comm] at hlt'
        omega
      have hy : scaled m e * d = ((m / d : Nat) * d + (m % d : Nat)) * 2 ^ q := by
        have h2 : (2 : ℚ) ^ q = d * 2 ^ e := by
          have := hsh 1
          rw [scaled, scaled, Nat.cast_one, one_mul, Nat.one_mul] at this
          exact this
        rw [h2, scaled]
        have hmq : (m : ℚ) = (m / d : Nat) * d + (m % d : Nat) := by
          rw [mul_comm]
          exact_mod_cast hm.symm
        rw [← hmq]
        ring
      rw [hround, scaled, goesUp_remainder hdp h0 mode rb neg (zpow_two_pos q) hy]
      rw [show (m % d != 0) = true by simpa using h0.ne']

end Sys2Proof.Machine

namespace Sys2Proof.Machine

/-! ### A number rounded to a format (R126 to R128, R131) -/

/-- The floor of log2 of a magnitude. -/
theorem expOf_spec {m : Nat} (h : 0 < m) (e : Int) : (2 : ℚ) ^ expOf m e ≤ scaled m e ∧ scaled m e < 2 ^ (expOf m e + 1) := by
  have h1 : 2 ^ Nat.log2 m ≤ m := Nat.log2_self_le h.ne'
  have h2 : m < 2 ^ (Nat.log2 m + 1) := Nat.lt_log2_self
  have hl : (2 : ℚ) ^ expOf m e = scaled (2 ^ Nat.log2 m) e := by
    rw [expOf, zpow_add₀ two_ne_zero, zpow_natCast, scaled]
    push_cast
    rfl
  have hu : (2 : ℚ) ^ (expOf m e + 1) = scaled (2 ^ (Nat.log2 m + 1)) e := by
    rw [expOf, add_right_comm, zpow_add₀ two_ne_zero, scaled]
    push_cast
    rw [← zpow_natCast]
    push_cast
    rfl
  exact ⟨hl.le.trans ((scaled_le_scaled e).2 h1), ((scaled_lt_scaled e).2 h2).trans_eq hu.symm⟩

theorem expOf_lt_iff {m : Nat} (h : 0 < m) (e n : Int) : expOf m e < n ↔ scaled m e < 2 ^ n := by
  obtain ⟨h1, h2⟩ := expOf_spec h e
  refine ⟨fun hn => h2.trans_le (zpow_le_zpow_right₀ (by norm_num) hn), fun hn => ?_⟩
  exact (zpow_lt_zpow_iff_right₀ (by norm_num : (1 : ℚ) < 2)).1 (h1.trans_lt hn)

section
variable {f : Fmt} {mode : RMode} {rb : Nat} {neg : Bool} {m : Nat} {e : Int}

/-- The place at which a number is rounded: its binade over the least one, and the multiple of its last place below it. -/
structure InBinade (f : Fmt) (m : Nat) (e : Int) (k t : Nat) : Prop where
  place : max (expOf m e - f.fb) (f.emin - f.fb) = f.unit + k
  normal : k = 0 ∨ 2 ^ f.fb ≤ t
  bound : t < 2 ^ (f.fb + 1)
  low : scaled t (f.unit + k) ≤ scaled m e
  high : scaled m e < scaled (t + 1) (f.unit + k)

theorem InBinade.mag_low {k t : Nat} (h : InBinade f m e k t) : f.mag (k * 2 ^ f.fb + t) = scaled t (f.unit + k) :=
  mag_at f h.normal (Nat.le_of_lt h.bound)

theorem InBinade.mag_high {k t : Nat} (h : InBinade f m e k t) : f.mag (k * 2 ^ f.fb + t + 1) = scaled (t + 1) (f.unit + k) := by
  rw [Nat.add_assoc]
  exact mag_at f (h.normal.imp_right Nat.le_succ_of_le) h.bound

theorem inBinade_of_place (hm : 0 < m) {t : Nat} {k : Nat} (hk : max (expOf m e - f.fb) (f.emin - f.fb) = f.unit + k)
    (h1 : scaled t (f.unit + k) ≤ scaled m e) (h2 : scaled m e < scaled (t + 1) (f.unit + k)) : InBinade f m e k t := by
  obtain ⟨hl, hh⟩ := expOf_spec hm e
  refine ⟨hk, ?_, ?_, h1, h2⟩
  · rcases Nat.eq_zero_or_pos k with h0 | h0
    · exact .inl h0
    · right
      have hq : expOf m e = f.fb + (f.unit + k) := by
        have := hk
        simp only [Fmt.unit] at *
        omega
      have hlow : scaled (2 ^ f.fb) (f.unit + k) < scaled (t + 1) (f.unit + k) := by
        refine lt_of_le_of_lt ?_ h2
        refine le_trans (le_of_eq ?_) hl
        rw [hq, zpow_add₀ two_ne_zero, zpow_natCast, scaled]
        push_cast
        rfl
      exact Nat.le_of_lt_succ ((scaled_lt_scaled _).1 hlow)
  · have hq : expOf m e + 1 ≤ ((f.fb + 1 : Nat) : Int) + (f.unit + k) := by
      have := hk
      simp only [Fmt.unit] at *
      omega
    have hhigh : scaled t (f.unit + k) < scaled (2 ^ (f.fb + 1)) (f.unit + k) := by
      refine h1.trans_lt (hh.trans_le ?_)
      refine (zpow_le_zpow_right₀ (by norm_num) hq).trans (le_of_eq ?_)
      rw [zpow_add₀ two_ne_zero, zpow_natCast, scaled]
      push_cast
      rfl
    exact (scaled_lt_scaled _).1 hhigh

theorem exists_place (f : Fmt) (m : Nat) (e : Int) : ∃ k : Nat, max (expOf m e - f.fb) (f.emin - f.fb) = f.unit + k :=
  ⟨(max (expOf m e - f.fb) (f.emin - f.fb) - f.unit).toNat, by
    rw [Int.toNat_of_nonneg (by rw [Fmt.unit]; omega)]
    omega⟩

/-- Whether `roundNum` takes a magnitude for tiny (R131). -/
def tinyNum (f : Fmt) (mode : RMode) (rb : Nat) (neg : Bool) (m : Nat) (e : Int) : Bool :=
  if f.emin ≤ expOf m e then false
  else decide ((roundAt mode rb neg m e (expOf m e - f.fb)).1 < 2 ^ (f.fb + 1)) || decide (expOf m e < f.emin - 1)

theorem roundNum_at {k sig : Nat} {inexact : Bool} (hk : max (expOf m e - f.fb) (f.emin - f.fb) = f.unit + k)
    (hr : roundAt mode rb neg m e (f.unit + k) = (sig, inexact)) :
    roundNum f mode rb neg m e = if f.top < k * 2 ^ f.fb + sig then (f.sign neg + overflowMag f mode neg, OF + NX)
      else (f.sign neg + (k * 2 ^ f.fb + sig), if inexact then NX + (if tinyNum f mode rb neg m e then UF else 0) else 0) := by
  unfold roundNum
  dsimp only
  rw [hk, hr]
  have : (f.unit + k - (f.emin - f.fb)).toNat = k := by
    rw [Fmt.unit]
    omega
  dsimp only
  rw [this]
  rfl

end

end Sys2Proof.Machine

namespace Sys2Proof.Machine

section
variable {f : Fmt} {mode : RMode} {rb : Nat} {neg : Bool} {m : Nat} {e : Int}

theorem tinyAfter_normal (h : f.emin ≤ expOf m e) (hm : 0 < m) : tinyAfter f mode rb neg (scaled m e) = false := by
  have : ¬ scaled m e < 2 ^ (1 - f.bias) := fun hlt => absurd ((expOf_lt_iff hm e (1 - f.bias)).2 hlt) (not_lt.2 h)
  simp [tinyAfter, this]

/-- The number that lies one place of the next lower binade below the least normal number. -/
theorem least_sub_unit (f : Fmt) : (2 : ℚ) ^ (1 - f.bias) - 2 ^ (-f.bias - f.fb) = scaled (2 ^ (f.fb + 1) - 1) (f.unit - 1) ∧
    (2 : ℚ) ^ (-f.bias - f.fb) = 2 ^ (f.unit - 1) := by
  have hu : -f.bias - (f.fb : Int) = f.unit - 1 := by
    rw [Fmt.unit, Fmt.emin]
    ring
  have hl : (2 : ℚ) ^ (1 - f.bias) = 2 ^ (f.fb + 1) * 2 ^ (f.unit - 1) := by
    rw [← zpow_natCast, ← zpow_add₀ two_ne_zero, Fmt.unit, Fmt.emin]
    congr 1
    push_cast
    ring
  refine ⟨?_, by rw [hu]⟩
  rw [hl, hu, scaled, Nat.cast_sub Nat.one_le_two_pow]
  push_cast
  ring

theorem tinyNum_eq (hm : 0 < m) : tinyNum f mode rb neg m e = tinyAfter f mode rb neg (scaled m e) := by
  unfold tinyNum
  split
  case isTrue h => rw [tinyAfter_normal h hm]
  case isFalse h =>
    have hlt : scaled m e < 2 ^ (1 - f.bias) := (expOf_lt_iff hm e _).1 (not_le.1 h)
    obtain ⟨hls, hu⟩ := least_sub_unit f
    unfold tinyAfter
    dsimp only
    rw [hls, hu, decide_eq_true hlt, Bool.true_and]
    rcases lt_or_ge (expOf m e) (f.emin - 1) with hs | hs
    · have hx : ¬ scaled (2 ^ (f.fb + 1) - 1) (f.unit - 1) < scaled m e := by
        have h1 : scaled m e < 2 ^ (f.emin - 1) := (expOf_lt_iff hm e _).1 hs
        have h2 : (2 : ℚ) ^ (f.emin - 1) = scaled (2 ^ f.fb) (f.unit - 1) := by
          rw [scaled, Fmt.unit]
          push_cast
          rw [← zpow_natCast, ← zpow_add₀ two_ne_zero]
          congr 1
          ring
        have h3 : 2 ^ f.fb ≤ 2 ^ (f.fb + 1) - 1 := by
          have := Nat.two_pow_pos f.fb
          rw [Nat.pow_succ]
          omega
        rw [not_lt]
        exact (h1.trans_eq h2).le.trans ((scaled_le_scaled _).2 h3)
      simp [hs, hx]
    · have hq : expOf m e - f.fb = f.unit - 1 := by
        rw [Fmt.unit]
        omega
      obtain ⟨t, hlow, hhigh, hexact, hround⟩ := roundAt_place mode rb neg m e (f.unit - 1)
      have hnot : ¬ expOf m e < f.emin - 1 := not_lt.2 hs
      have htop : scaled m e < scaled (2 ^ (f.fb + 1)) (f.unit - 1) := by
        refine hlt.trans_eq ?_
        rw [scaled, Fmt.unit, Fmt.emin]
        push_cast
        rw [← zpow_natCast, ← zpow_add₀ two_ne_zero]
        congr 1
        push_cast
        ring
      have ht : t < 2 ^ (f.fb + 1) := (scaled_lt_scaled _).1 (hlow.trans_lt htop)
      rw [hq, decide_eq_false hnot, Bool.or_false]
      have hodd : ((2 ^ (f.fb + 1) - 1) % 2 == 1) = true := by
        have := Nat.two_pow_pos f.fb
        rw [beq_iff_eq]
        rw [Nat.pow_succ]
        omega
      rcases Nat.lt_or_ge t (2 ^ (f.fb + 1) - 1) with hlast | hlast
      · have hx : ¬ scaled (2 ^ (f.fb + 1) - 1) (f.unit - 1) < scaled m e := by
          rw [not_lt]
          exact hhigh.le.trans ((scaled_le_scaled _).2 (by omega))
        rw [decide_eq_false hx, Bool.false_and, Bool.not_false, decide_eq_true_eq]
        rcases hlow.lt_or_eq with hl | hl
        · rw [hround hl]
          dsimp only
          split <;> omega
        · rw [hexact hl]
          exact ht
      · obtain rfl : t = 2 ^ (f.fb + 1) - 1 := by omega
        rcases hlow.lt_or_eq with hl | hl
        · rw [hround hl, decide_eq_true hl, Bool.true_and, hodd]
          dsimp only
          cases goesUp mode rb neg true (scaled (2 ^ (f.fb + 1) - 1) (f.unit - 1)) (2 ^ (f.unit - 1)) (scaled m e) with
          | false => simp
          | true =>
            have : 1 ≤ 2 ^ (f.fb + 1) := Nat.one_le_two_pow
            simp [Nat.sub_add_cancel this]
        · rw [hexact hl, decide_eq_false (not_lt.2 hl.ge), Bool.false_and]
          exact decide_eq_true ht

end

end Sys2Proof.Machine

namespace Sys2Proof.Machine

section
variable {f : Fmt} {mode : RMode} {rb : Nat} {neg : Bool} {m : Nat} {e : Int}

/-- How a magnitude is rounded in its binade: to the encoding below it, or past it; the flags but OF follow. -/
theorem roundNum_binade (hf : f.Fits) (hm : 0 < m) (mode : RMode) (rb : Nat) (neg : Bool) (e : Int) : ∃ k t : Nat, InBinade f m e k t ∧
    (scaled t (f.unit + k) = scaled m e → roundNum f mode rb neg m e =
      if f.top < k * 2 ^ f.fb + t then (f.sign neg + overflowMag f mode neg, OF + NX) else (f.sign neg + (k * 2 ^ f.fb + t), 0)) ∧
    (scaled t (f.unit + k) < scaled m e → ∀ up,
      up = goesUp mode rb neg ((k * 2 ^ f.fb + t) % 2 == 1) (scaled t (f.unit + k)) (2 ^ (f.unit + k)) (scaled m e) →
      roundNum f mode rb neg m e =
        if f.top < (if up = true then k * 2 ^ f.fb + t + 1 else k * 2 ^ f.fb + t) then (f.sign neg + overflowMag f mode neg, OF + NX)
        else (f.sign neg + (if up = true then k * 2 ^ f.fb + t + 1 else k * 2 ^ f.fb + t),
          if tinyAfter f mode rb neg (scaled m e) then UF + NX else NX)) := by
  obtain ⟨k, hk⟩ := exists_place f m e
  obtain ⟨t, hlow, hhigh, hexact, hround⟩ := roundAt_place mode rb neg m e (f.unit + k)
  refine ⟨k, t, inBinade_of_place hm hk hlow hhigh, fun h => ?_, fun h up hup => ?_⟩
  · rw [roundNum_at hk (hexact h)]
    rfl
  · have heven : (k * 2 ^ f.fb + t) % 2 = t % 2 := by
      obtain ⟨n, hn⟩ := Nat.exists_eq_succ_of_ne_zero (Nat.pos_iff_ne_zero.1 hf.fb_pos)
      rw [hn, Nat.pow_succ, ← Nat.mul_assoc, Nat.add_comm, Nat.add_mul_mod_self_right]
    rw [heven] at hup
    rw [roundNum_at hk (hround h), tinyNum_eq hm, ← hup]
    cases up <;> cases tinyAfter f mode rb neg (scaled m e) <;> rfl

/-- The largest finite is not the first of its binade. -/
theorem mag_top_gap (hf : f.Fits) : f.mag (f.top + 1) - f.mag f.top = f.mag f.top - f.mag (f.top - 1) ∧ 1 ≤ f.top := by
  have hp : 0 < 2 ^ f.fb := Nat.two_pow_pos _
  have hd := Nat.div_add_mod f.top (2 ^ f.fb)
  have hm := Nat.mod_lt f.top hp
  have h2 : 2 ^ (f.fb + 1) = 2 ^ f.fb * 2 := Nat.pow_succ ..
  have h0 : 0 < f.top % 2 ^ f.fb := Nat.pos_of_ne_zero hf.top_frac
  obtain ⟨k, hk⟩ := Nat.exists_eq_succ_of_ne_zero (Nat.pos_iff_ne_zero.1 hf.top_exp)
  rw [hk, Nat.mul_succ, Nat.mul_comm] at hd
  obtain ⟨r, hr⟩ : ∃ r, 2 ^ f.fb + f.top % 2 ^ f.fb = r + 1 := ⟨2 ^ f.fb + f.top % 2 ^ f.fb - 1, by omega⟩
  have htop : f.top = k * 2 ^ f.fb + (r + 1) := by omega
  have hlow : f.top - 1 = k * 2 ^ f.fb + r := by omega
  refine ⟨?_, by omega⟩
  rw [hlow, htop, Nat.add_assoc, mag_at f (.inr (by omega)) (by omega), mag_at f (.inr (by omega)) (by omega),
    mag_at f (.inr (by omega)) (by omega)]
  push_cast
  ring

theorem least_le_top (hf : f.Fits) : (2 : ℚ) ^ f.emin ≤ f.mag f.top := by
  rw [← mag_least]
  refine (mag_strictMono f).monotone ?_
  exact (Nat.le_mul_of_pos_left _ hf.top_exp).trans (Nat.div_mul_le_self _ _)

theorem overflowMag_eq (f : Fmt) (mode : RMode) (neg : Bool) : overflowMag f mode neg =
    if !f.infs || mode == .rtz || (mode == .rdn && !neg) || (mode == .rup && neg) then f.top else f.top + 1 := by
  unfold overflowMag
  cases f.infs <;> cases mode <;> cases neg <;> rfl

/-- A number is rounded once. -/
theorem roundNum_roundsTo (hf : f.Fits) (hm : 0 < m) : RoundsTo f mode rb neg (scaled m e) (roundNum f mode rb neg m e) := by
  obtain ⟨k, t, hb, hexact, hround⟩ := roundNum_binade hf hm mode rb neg e
  obtain ⟨w, hw⟩ : ∃ w, k * 2 ^ f.fb + t = w := ⟨_, rfl⟩
  have hlow : f.mag w = scaled t (f.unit + k) := hw ▸ hb.mag_low
  have hhigh : f.mag (w + 1) = scaled (t + 1) (f.unit + k) := hw ▸ hb.mag_high
  have hgap : f.mag (w + 1) - f.mag w = 2 ^ (f.unit + k) := by
    rw [hlow, hhigh, scaled, scaled]
    push_cast
    ring
  have h1 : f.mag w ≤ scaled m e := hlow.le.trans hb.low
  have h2 : scaled m e < f.mag (w + 1) := hb.high.trans_eq hhigh.symm
  rw [hw] at hexact hround
  rw [← hlow] at hexact hround
  rw [← hgap] at hround
  refine ⟨fun v hv he => ?_, fun v hv hl hh => ?_, fun htop => ?_⟩
  · obtain rfl := encoding_unique h1 h2 he.le (he ▸ mag_lt_succ f v)
    rw [hexact he, if_neg (Nat.not_lt.2 hv)]
  · obtain rfl := encoding_unique h1 h2 hl.le hh
    rw [hround hl _ rfl, if_neg]
    rw [Nat.not_lt]
    split
    · exact hv
    · exact Nat.le_of_lt hv
  · obtain ⟨hu, hone⟩ := mag_top_gap hf
    have hnext : f.mag f.top + (f.mag f.top - f.mag (f.top - 1)) = f.mag (f.top + 1) := by
      rw [← hu]
      ring
    have htw : f.top ≤ w := Nat.le_of_lt_succ ((mag_strictMono f).lt_iff_lt.1 (htop.trans h2))
    dsimp only
    rw [hnext, ← overflowMag_eq]
    rcases Nat.lt_or_eq_of_le htw with hgt | rfl
    · have hbig : ¬ scaled m e < f.mag (f.top + 1) := not_lt.2 (((mag_strictMono f).monotone hgt).trans h1)
      rw [if_neg fun h => hbig h.1]
      rcases h1.lt_or_eq with hl | hl
      · rw [hround hl _ rfl, if_pos]
        split <;> omega
      · rw [hexact hl, if_pos hgt]
    · have hnt : tinyAfter f mode rb neg (scaled m e) = false := by
        refine tinyAfter_normal ?_ hm
        rw [← not_lt, expOf_lt_iff hm, not_lt]
        exact (least_le_top hf).trans h1
      rw [hround htop _ rfl, hnt, ← hu]
      cases hup : goesUp mode rb neg (f.top % 2 == 1) (f.mag f.top) (f.mag (f.top + 1) - f.mag f.top) (scaled m e) with
      | false => simp [h2]
      | true => simp

end

end Sys2Proof.Machine

namespace Sys2Proof.Machine

/-! ### Rounding depends on a few points only

A quotient or a root is rounded from a number that stands for it: one that lies on the same side of every number of few digits. -/

/-- A number of at most 80 binary digits. -/
def Short (z : ℚ) : Prop := ∃ (i : Nat) (g : Int), i < 2 ^ 80 ∧ z = scaled i g

/-- What a rounding asks of a magnitude, which short numbers lie below it and which is it, answered by another number. -/
def StandsFor (y : ℚ) (below is : ℚ → Bool) : Prop := ∀ z, Short z → below z = decide (z < y) ∧ is z = decide (z = y)

theorem StandsFor.goesUp {y : ℚ} {below is : ℚ → Bool} (h : StandsFor y below is) {rb : Nat} (hrb : rb < 2 ^ 16) (mode : RMode)
    (neg odd : Bool) {t : Nat} (ht : t < 2 ^ 60) (q : Int) :
    goesUpBy mode rb neg odd (scaled t q) (2 ^ q) below is = Machine.goesUp mode rb neg odd (scaled t q) (2 ^ q) y := by
  have hmid : Short (scaled t q + 2 ^ q / 2) := by
    refine ⟨2 * t + 1, q - 1, by omega, ?_⟩
    rw [scaled, scaled, zpow_sub_one₀ two_ne_zero]
    push_cast
    ring
  have hrand : Short (scaled t q + 2 ^ q * (rb + 1) / 2 ^ 16) := by
    refine ⟨t * 2 ^ 16 + (rb + 1), q - 16, by omega, ?_⟩
    rw [scaled, scaled, zpow_sub₀ two_ne_zero]
    push_cast
    field_simp
    norm_num
    ring
  obtain ⟨hm1, hm2⟩ := h _ hmid
  obtain ⟨hr1, hr2⟩ := h _ hrand
  unfold Machine.goesUp goesUpBy
  dsimp only
  rw [hm1, hm2, hr1, hr2]

/-- Whether a magnitude that is given by its order to others is tiny. -/
def tinyBy (f : Fmt) (mode : RMode) (rb : Nat) (neg : Bool) (below is : ℚ → Bool) : Bool :=
  let least : ℚ := 2 ^ (1 - f.bias)
  let u : ℚ := 2 ^ (-f.bias - f.fb)
  !(below least || is least) && !(below (least - u) && goesUpBy mode rb neg true (least - u) u below is)

/-- `RoundsTo` of a magnitude that is given by its order to others. -/
def RoundsBy (f : Fmt) (mode : RMode) (rb : Nat) (neg : Bool) (below is : ℚ → Bool) (r : Nat × Nat) : Prop :=
  (∀ w, w ≤ f.top → is (f.mag w) = true → r = (f.sign neg + w, 0)) ∧
  (∀ w, w < f.top → below (f.mag w) = true → below (f.mag (w + 1)) = false → is (f.mag (w + 1)) = false →
    r = (f.sign neg + (if goesUpBy mode rb neg (w % 2 == 1) (f.mag w) (f.mag (w + 1) - f.mag w) below is then w + 1 else w),
      if tinyBy f mode rb neg below is then UF + NX else NX)) ∧
  (below (f.mag f.top) = true →
    let u := f.mag f.top - f.mag (f.top - 1)
    let huge := if !f.infs || mode == .rtz || (mode == .rdn && !neg) || (mode == .rup && neg) then f.top else f.top + 1
    r = if (below (f.mag f.top + u) || is (f.mag f.top + u)) = false ∧
        goesUpBy mode rb neg (f.top % 2 == 1) (f.mag f.top) u below is = false then (f.sign neg + f.top, NX)
      else (f.sign neg + huge, OF + NX))

theorem not_lt_or_eq (z x : ℚ) : (!(decide (z < x) || decide (z = x))) = decide (x < z) := by
  rw [← Bool.decide_or, ← decide_not, decide_eq_decide, ← le_iff_lt_or_eq, not_le]

theorem lt_or_eq_false (z x : ℚ) : ((decide (z < x) || decide (z = x)) = false) ↔ x < z := by
  rw [← Bool.not_eq_true', not_lt_or_eq, decide_eq_true_eq]

section
variable {f : Fmt} {mode : RMode} {rb : Nat} {neg : Bool} {r : Nat × Nat}

theorem roundsTo_iff_roundsBy (x : ℚ) :
    RoundsTo f mode rb neg x r ↔ RoundsBy f mode rb neg (fun z => decide (z < x)) (fun z => decide (z = x)) r := by
  have ht : tinyAfter f mode rb neg x = tinyBy f mode rb neg (fun z => decide (z < x)) fun z => decide (z = x) := by
    unfold tinyAfter tinyBy
    dsimp only
    rw [not_lt_or_eq]
    rfl
  unfold RoundsTo RoundsBy
  dsimp only
  simp only [decide_eq_true_eq, lt_or_eq_false, ht]
  refine and_congr Iff.rfl (and_congr ?_ Iff.rfl)
  refine forall_congr' fun w => forall_congr' fun _ => forall_congr' fun _ => ?_
  rw [← lt_or_eq_false, Bool.or_eq_false_iff]
  exact ⟨fun h a b => h ⟨a, b⟩, fun h a => h a.1 a.2⟩

theorem Short.mag (hf : f.Fits) (w : Nat) : Short (f.mag w) := by
  obtain ⟨k, t, rfl, hk, ht⟩ := encoding_split f w
  refine ⟨t, f.unit + k, ht.trans_le (Nat.pow_le_pow_right (by decide) ?_), mag_at f hk (Nat.le_of_lt ht)⟩
  have := hf.fb_le
  omega

theorem StandsFor.goesUp_mag {y : ℚ} {below is : ℚ → Bool} (h : StandsFor y below is) (hf : f.Fits) (hrb : rb < 2 ^ 16) (odd : Bool) (w : Nat) :
    goesUpBy mode rb neg odd (f.mag w) (f.mag (w + 1) - f.mag w) below is =
      Machine.goesUp mode rb neg odd (f.mag w) (f.mag (w + 1) - f.mag w) y := by
  obtain ⟨k, t, rfl, hk, ht⟩ := encoding_split f w
  have hw := mag_at f hk (Nat.le_of_lt ht)
  have hw' := mag_at f (hk.imp_right Nat.le_succ_of_le) ht
  have hgap : f.mag (k * 2 ^ f.fb + t + 1) - f.mag (k * 2 ^ f.fb + t) = 2 ^ (f.unit + k) := by
    rw [Nat.add_assoc, hw', hw]
    push_cast
    ring
  rw [hgap, hw]
  refine h.goesUp hrb mode neg odd (ht.trans_le (Nat.pow_le_pow_right (by decide) ?_)) _
  have := hf.fb_le
  omega

theorem StandsFor.tiny {y : ℚ} {below is : ℚ → Bool} (h : StandsFor y below is) (hf : f.Fits) (hrb : rb < 2 ^ 16) :
    tinyBy f mode rb neg below is = tinyAfter f mode rb neg y := by
  obtain ⟨hls, hu⟩ := least_sub_unit f
  have h52 : 2 ^ (f.fb + 1) ≤ 2 ^ 53 := Nat.pow_le_pow_right (by decide) (Nat.succ_le_succ hf.fb_le)
  have hleast : Short (2 ^ (1 - f.bias)) := by
    have := Short.mag hf (2 ^ f.fb)
    rwa [mag_least] at this
  have hlow : Short (scaled (2 ^ (f.fb + 1) - 1) (f.unit - 1)) := ⟨_, _, by omega, rfl⟩
  obtain ⟨h1, h2⟩ := h _ hleast
  obtain ⟨h3, -⟩ := h _ hlow
  unfold tinyBy tinyAfter
  dsimp only
  rw [hls, hu, h1, h2, h3, h.goesUp hrb mode neg true (by omega), not_lt_or_eq]

/-- A number is rounded as the one that stands for it. -/
theorem RoundsTo.standsFor {y : ℚ} {below is : ℚ → Bool} (hr : RoundsTo f mode rb neg y r) (h : StandsFor y below is) (hf : f.Fits)
    (hrb : rb < 2 ^ 16) : RoundsBy f mode rb neg below is r := by
  obtain ⟨h1, h2, h3⟩ := hr
  have hm := fun w => h _ (Short.mag hf w)
  obtain ⟨hgap, -⟩ := mag_top_gap hf
  have hnext : f.mag f.top + (f.mag (f.top + 1) - f.mag f.top) = f.mag (f.top + 1) := by ring
  refine ⟨fun w hw hi => ?_, fun w hw hb hb' hi' => ?_, fun hb => ?_⟩
  · rw [(hm w).2, decide_eq_true_eq] at hi
    exact h1 w hw hi
  · rw [(hm w).1, decide_eq_true_eq] at hb
    rw [(hm (w + 1)).1] at hb'
    rw [(hm (w + 1)).2] at hi'
    rw [h.goesUp_mag hf hrb, h.tiny hf hrb]
    exact h2 w hw hb ((lt_or_eq_false _ _).1 (by rw [hb', hi']; rfl))
  · rw [(hm f.top).1, decide_eq_true_eq] at hb
    have := h3 hb
    dsimp only at this ⊢
    rw [← hgap, hnext] at this ⊢
    rw [h.goesUp_mag hf hrb, (hm (f.top + 1)).1, (hm (f.top + 1)).2, this]
    simp only [lt_or_eq_false]

end

end Sys2Proof.Machine

namespace Sys2Proof.Machine

/-! ### Quotients and roots, rounded once (R131, R283) -/

/-- No short number lies between two numbers of many digits that follow each other. -/
theorem Short.gap {z : ℚ} (hz : Short z) {N : Nat} (hN : 2 ^ 80 ≤ N) {g : Int} (h : scaled N g < z) : scaled (N + 1) g ≤ z := by
  obtain ⟨i, j, hi, rfl⟩ := hz
  rcases le_or_gt g j with hg | hg
  · have e : scaled i j = scaled (i * 2 ^ (j - g).toNat) g := by
      rw [← scaled_shift]
      congr 1
      omega
    rw [e, scaled_lt_scaled] at h
    rw [e, scaled_le_scaled]
    exact h
  · exfalso
    have h1 : scaled i j ≤ scaled i g := mul_le_mul_of_nonneg_left (zpow_le_zpow_right₀ (by norm_num) hg.le) (Nat.cast_nonneg i)
    have h2 := (scaled_lt_scaled g).1 (h.trans_le h1)
    omega

/-- A number with one more digit that says whether anything follows stands for the whole. -/
theorem standsFor_sticky {N s : Nat} {g : Int} {below is : ℚ → Bool} (hN : 2 ^ 80 ≤ N)
    (hlow : ∀ z, 0 ≤ z → z < scaled N g → below z = true ∧ is z = false)
    (hhigh : ∀ z, scaled (N + 1) g ≤ z → below z = false ∧ is z = false)
    (hat : (s = 0 ∧ below (scaled N g) = false ∧ is (scaled N g) = true) ∨ (s = 1 ∧ below (scaled N g) = true ∧ is (scaled N g) = false)) :
    StandsFor (scaled (N * 2 + s) (g - 1)) below is := fun z hz => by
  have hd : ∀ n : Nat, scaled n g = scaled (n * 2) (g - 1) := fun n => by
    have := scaled_shift n 1 (g - 1)
    rwa [Nat.cast_one, sub_add_cancel, pow_one] at this
  have hs : s ≤ 1 := by rcases hat with ⟨h, -⟩ | ⟨h, -⟩ <;> omega
  have h0 : 0 ≤ z := by
    obtain ⟨i, j, -, rfl⟩ := hz
    exact mul_nonneg (Nat.cast_nonneg i) (zpow_two_pos j).le
  have hle : scaled N g ≤ scaled (N * 2 + s) (g - 1) := by
    rw [hd, scaled_le_scaled]
    omega
  have hlt : scaled (N * 2 + s) (g - 1) < scaled (N + 1) g := by
    rw [hd, scaled_lt_scaled]
    omega
  rcases lt_trichotomy z (scaled N g) with h | h | h
  · obtain ⟨hb, hi⟩ := hlow z h0 h
    have hy := h.trans_le hle
    rw [hb, hi, decide_eq_true hy, decide_eq_false hy.ne]
    exact ⟨rfl, rfl⟩
  · rw [h]
    rcases hat with ⟨rfl, hb, hi⟩ | ⟨rfl, hb, hi⟩
    · have hy : scaled N g = scaled (N * 2 + 0) (g - 1) := hd N
      rw [hb, hi, decide_eq_true hy, decide_eq_false hy.not_lt]
      exact ⟨rfl, rfl⟩
    · have hy : scaled N g < scaled (N * 2 + 1) (g - 1) := by
        rw [hd, scaled_lt_scaled]
        exact Nat.lt_succ_self _
      rw [hb, hi, decide_eq_true hy, decide_eq_false hy.ne]
      exact ⟨rfl, rfl⟩
  · have hn := hz.gap hN h
    obtain ⟨hb, hi⟩ := hhigh z hn
    have hy := hlt.trans_le hn
    rw [hb, hi, decide_eq_false hy.not_gt, decide_eq_false hy.ne']
    exact ⟨rfl, rfl⟩

section
variable {f : Fmt} {mode : RMode} {rb : Nat} {neg : Bool}

theorem quotient_large {m m' : Nat} (hm : 0 < m) (hm' : 0 < m') : 2 ^ 80 ≤ m * 2 ^ (160 + Nat.log2 m') / m' := by
  rw [Nat.le_div_iff_mul_le hm']
  have h := (Nat.lt_log2_self (n := m')).le
  calc 2 ^ 80 * m' ≤ 2 ^ 80 * 2 ^ (Nat.log2 m' + 1) := Nat.mul_le_mul_left _ h
    _ = 2 ^ (81 + Nat.log2 m') := by rw [← Nat.pow_add]; congr 1; omega
    _ ≤ 2 ^ (160 + Nat.log2 m') := Nat.pow_le_pow_right (by decide) (by omega)
    _ ≤ m * 2 ^ (160 + Nat.log2 m') := Nat.le_mul_of_pos_left _ hm

/-- A quotient is rounded once. -/
theorem quotient_roundsTo (hf : f.Fits) (hrb : rb < 2 ^ 16) {m m' : Nat} (hm : 0 < m) (hm' : 0 < m') (e e' : Int) :
    RoundsTo f mode rb neg (scaled m e / scaled m' e') (roundNum f mode rb neg (quotient m m').1 (e - e' + (quotient m m').2)) := by
  obtain ⟨K, hK⟩ : ∃ K, 160 + Nat.log2 m' = K := ⟨_, rfl⟩
  have hlarge := quotient_large hm hm'
  unfold quotient
  dsimp only
  rw [hK] at hlarge ⊢
  obtain ⟨N, hN⟩ : ∃ N, m * 2 ^ K / m' = N := ⟨_, rfl⟩
  have hdiv := Nat.div_add_mod (m * 2 ^ K) m'
  have hmod := Nat.mod_lt (m * 2 ^ K) hm'
  rw [hN] at hlarge hdiv ⊢
  rw [Nat.mul_comm m' N] at hdiv
  have hexp : e - e' + (-(K : Int) - 1) = e - e' - K - 1 := by ring
  rw [hexp]
  have hx : scaled m e / scaled m' e' * m' = scaled (m * 2 ^ K) (e - e' - K) := by
    have h0 : (m' : ℚ) ≠ 0 := by exact_mod_cast hm'.ne'
    have h1 := (zpow_two_pos e').ne'
    rw [scaled, scaled, scaled, zpow_sub₀ two_ne_zero, zpow_sub₀ two_ne_zero, zpow_natCast]
    push_cast
    field_simp
  have hmq : (0 : ℚ) < m' := by exact_mod_cast hm'
  have hcmp : ∀ n : Nat, scaled n (e - e' - K) * m' = scaled (n * m') (e - e' - K) := fun n => by
    rw [scaled, scaled]
    push_cast
    ring
  have hle : scaled N (e - e' - K) ≤ scaled m e / scaled m' e' := by
    rw [← mul_le_mul_iff_left₀ hmq, hx, hcmp, scaled_le_scaled]
    omega
  have hlt : scaled m e / scaled m' e' < scaled (N + 1) (e - e' - K) := by
    rw [← mul_lt_mul_iff_left₀ hmq, hx, hcmp, scaled_lt_scaled, Nat.add_mul]
    omega
  refine (roundsTo_iff_roundsBy _).2 ((roundNum_roundsTo hf (by omega)).standsFor (standsFor_sticky hlarge ?_ ?_ ?_) hf hrb)
  · exact fun z _ hz => ⟨decide_eq_true (hz.trans_le hle), decide_eq_false (hz.trans_le hle).ne⟩
  · exact fun z hz => ⟨decide_eq_false (hlt.trans_le hz).not_gt, decide_eq_false (hlt.trans_le hz).ne'⟩
  · have heq : scaled N (e - e' - K) = scaled m e / scaled m' e' ↔ m * 2 ^ K % m' = 0 := by
      rw [← mul_left_inj' hmq.ne', hx, hcmp, scaled_inj]
      omega
    split
    case isTrue h => exact .inl ⟨rfl, decide_eq_false (heq.2 h).not_lt, decide_eq_true (heq.2 h)⟩
    case isFalse h => exact .inr ⟨rfl, decide_eq_true (lt_of_le_of_ne hle (mt heq.1 h)), decide_eq_false (mt heq.1 h)⟩

end

end Sys2Proof.Machine

namespace Sys2Proof.Machine

section
variable {f : Fmt} {mode : RMode} {rb : Nat}

/-- A number that is rounded once and stands for a root in the normal range gives the root. -/
theorem RoundsTo.root {m : Nat} {e : Int} {ratio : ℚ → ℚ} {r : Nat × Nat} (hm : 0 < m)
    (hr : RoundsTo f mode rb false (scaled m e) r)
    (h : StandsFor (scaled m e) (fun z => decide (ratio z < 1)) fun z => decide (ratio z = 1)) (hf : f.Fits) (hrb : rb < 2 ^ 16)
    (hn : f.emin ≤ expOf m e) : RootRounds f mode rb ratio r := by
  obtain ⟨h1, h2, -⟩ := hr.standsFor h hf hrb
  rw [h.tiny hf hrb, tinyAfter_normal hn hm] at h2
  have h0 : f.sign false = 0 := rfl
  simp only [h0, Nat.zero_add, decide_eq_true_eq, decide_eq_false_iff_not] at h1 h2
  exact ⟨h1, fun w hw ha hb => h2 w hw ha (not_lt.2 hb.le) hb.ne'⟩

/-- The root `N` of `P / D`, with one more digit, at the place of the root of a number. -/
theorem root_standsFor {N P D : Nat} {g : Int} {ratio : ℚ → ℚ} (hD : 0 < D) (hP : 0 < P) (hN : 2 ^ 80 ≤ N)
    (hlow : N * N * D ≤ P) (hhigh : P < (N + 1) * (N + 1) * D)
    (hratio : ∀ z, ratio z = z ^ 2 * D / (P * 2 ^ (2 * g))) (s : Nat) (hs : s = if N * N * D = P then 0 else 1) :
    StandsFor (scaled (N * 2 + s) (g - 1)) (fun z => decide (ratio z < 1)) fun z => decide (ratio z = 1) := by
  have hPq : (0 : ℚ) < P * 2 ^ (2 * g) := mul_pos (by exact_mod_cast hP) (zpow_two_pos _)
  have hDq : (0 : ℚ) < D := by exact_mod_cast hD
  have hsq : ∀ n : Nat, scaled n g ^ 2 * D = ((n * n * D : Nat) : ℚ) * 2 ^ (2 * g) := fun n => by
    rw [scaled, mul_comm 2 g, zpow_mul, mul_pow]
    push_cast
    rw [zpow_ofNat]
    ring
  have h2 := zpow_two_pos (2 * g)
  have hlt : ∀ z, ratio z < 1 ↔ z ^ 2 * D < P * 2 ^ (2 * g) := fun z => by rw [hratio, div_lt_one hPq]
  have heq : ∀ z, ratio z = 1 ↔ z ^ 2 * D = P * 2 ^ (2 * g) := fun z => by rw [hratio, div_eq_one_iff_eq hPq.ne']
  have hlo : ((N * N * D : Nat) : ℚ) * 2 ^ (2 * g) ≤ P * 2 ^ (2 * g) := mul_le_mul_of_nonneg_right (by exact_mod_cast hlow) h2.le
  have hhi : (P : ℚ) * 2 ^ (2 * g) < (((N + 1) * (N + 1) * D : Nat) : ℚ) * 2 ^ (2 * g) :=
    mul_lt_mul_of_pos_right (by exact_mod_cast hhigh) h2
  refine standsFor_sticky hN (fun z h0 hz => ?_) (fun z hz => ?_) ?_
  · have hzz : z ^ 2 * D < P * 2 ^ (2 * g) :=
      (mul_lt_mul_of_pos_right (pow_lt_pow_left₀ hz h0 two_ne_zero) hDq).trans_le ((hsq N).le.trans hlo)
    exact ⟨decide_eq_true ((hlt z).2 hzz), decide_eq_false (mt (heq z).1 hzz.ne)⟩
  · have hzz : P * 2 ^ (2 * g) < z ^ 2 * D :=
      hhi.trans_le ((hsq (N + 1)).ge.trans (mul_le_mul_of_nonneg_right
        (pow_le_pow_left₀ (mul_nonneg (Nat.cast_nonneg _) (zpow_two_pos g).le) hz 2) hDq.le))
    exact ⟨decide_eq_false (mt (hlt z).1 hzz.not_gt), decide_eq_false (mt (heq z).1 hzz.ne')⟩
  · have hN2 : scaled N g ^ 2 * D = P * 2 ^ (2 * g) ↔ N * N * D = P := by
      rw [hsq, mul_left_inj' h2.ne', Nat.cast_inj]
    by_cases h : N * N * D = P
    · rw [if_pos h] at hs
      have hz := hN2.2 h
      exact .inl ⟨hs, decide_eq_false (mt (hlt _).1 hz.not_lt), decide_eq_true ((heq _).2 hz)⟩
    · rw [if_neg h] at hs
      have hz := mt hN2.1 h
      refine .inr ⟨hs, decide_eq_true ((hlt _).2 (lt_of_le_of_ne ((hsq N).le.trans hlo) hz)), decide_eq_false (mt (heq _).1 hz)⟩

theorem even_shift (e : Int) : ∃ d : Nat, (e % 2).toNat = d ∧ d < 2 ∧ e - d = 2 * ((e - d) / 2) := by
  refine ⟨(e % 2).toNat, rfl, ?_, ?_⟩ <;> omega

theorem expOf_ge {n : Int} {m : Nat} (hm : 0 < m) {e : Int} (h : (2 : ℚ) ^ n ≤ scaled m e) : n ≤ expOf m e := by
  rw [← not_lt, expOf_lt_iff hm]
  exact not_lt.2 h

theorem two_pow_cast (n : Nat) : ((2 ^ n : Nat) : ℚ) = 2 ^ (n : Int) := by
  rw [Nat.cast_pow, Nat.cast_ofNat, zpow_natCast]

theorem four_pow (n : Nat) : 4 ^ n = 2 ^ (2 * n) := by rw [Nat.pow_mul]

theorem scaled_two_pow (n : Nat) (g : Int) : scaled (2 ^ n) g = 2 ^ (n + g) := by
  rw [scaled, two_pow_cast, ← zpow_add₀ two_ne_zero]

/-- A root is rounded once, where its number is one of the format. -/
theorem rootOf_rounds (hf : f.Fits) (hrb : rb < 2 ^ 16) {m : Nat} (hm : 0 < m) {e : Int} (he : f.unit ≤ e) :
    RootRounds f mode rb (fun z => z ^ 2 / scaled m e) (roundNum f mode rb false (rootOf m e).1 (rootOf m e).2) := by
  obtain ⟨d, hd, hd2, heven⟩ := even_shift e
  obtain ⟨g, hg⟩ : ∃ g, (e - d) / 2 - 200 = g := ⟨_, rfl⟩
  have hPpos : 0 < m * 2 ^ d * 4 ^ 200 := Nat.mul_pos (Nat.mul_pos hm (Nat.two_pow_pos _)) (Nat.pow_pos (by decide))
  obtain ⟨P, hP⟩ : ∃ P, m * 2 ^ d * 4 ^ 200 = P := ⟨_, rfl⟩
  rw [hP] at hPpos
  have hbig : 4 ^ 200 ≤ P := hP ▸ Nat.le_mul_of_pos_left _ (Nat.mul_pos hm (Nat.two_pow_pos _))
  have hN : 2 ^ 200 ≤ Nat.sqrt P := Nat.le_sqrt.2 (by rw [← Nat.mul_pow]; exact hbig)
  have hval : scaled m e = P * 2 ^ (2 * g) := by
    rw [← hP, four_pow, Nat.cast_mul, Nat.cast_mul, two_pow_cast, two_pow_cast, scaled, ← hg, mul_assoc, mul_assoc,
      ← zpow_add₀ two_ne_zero, ← zpow_add₀ two_ne_zero]
    congr 2
    omega
  unfold rootOf
  dsimp only
  rw [hd, hP, hg]
  refine (roundNum_roundsTo hf (by omega)).root (by omega) (root_standsFor (D := 1) Nat.one_pos hPpos (by omega) ?_ ?_ (fun z => ?_) _ ?_)
    hf hrb ?_
  · rw [Nat.mul_one]
    exact Nat.sqrt_le P
  · rw [Nat.mul_one]
    exact Nat.lt_succ_sqrt P
  · rw [hval]
    push_cast
    ring
  · rw [Nat.mul_one]
  · refine expOf_ge (by omega) ?_
    have hle : scaled (Nat.sqrt P) g ≤ scaled (Nat.sqrt P * 2 + (if Nat.sqrt P * Nat.sqrt P = P then 0 else 1)) (g - 1) := by
      have := scaled_shift (Nat.sqrt P) 1 (g - 1)
      rw [Nat.cast_one, sub_add_cancel, pow_one] at this
      rw [this, scaled_le_scaled]
      omega
    refine le_trans ?_ hle
    refine le_trans ?_ ((scaled_le_scaled g).2 hN)
    rw [scaled_two_pow]
    refine zpow_le_zpow_right₀ (by norm_num) ?_
    have := hf.emin_le
    rw [Fmt.unit] at he
    omega

end

end Sys2Proof.Machine

namespace Sys2Proof.Machine

section
variable {f : Fmt} {mode : RMode} {rb : Nat}

theorem rsq_exact {P D : Nat} : (Nat.sqrt (P / D) * Nat.sqrt (P / D) = P / D ∧ P % D = 0) ↔
    Nat.sqrt (P / D) * Nat.sqrt (P / D) * D = P := by
  have hdiv := Nat.div_add_mod P D
  have hle := Nat.sqrt_le (P / D)
  rw [Nat.mul_comm D] at hdiv
  refine ⟨fun ⟨h1, h2⟩ => by rw [h1]; omega, fun h => ?_⟩
  rcases Nat.eq_zero_or_pos D with rfl | hD
  · rw [Nat.mul_zero] at h
    rw [← h]
    exact ⟨by simp, by simp⟩
  · have := Nat.mul_le_mul_right D hle
    have h2 : P % D = 0 := by omega
    refine ⟨Nat.eq_of_mul_eq_mul_right hD ?_, h2⟩
    omega

/-- A reciprocal root is rounded once, where its number lies in the range of the format. -/
theorem fpRsq_rounds (hf : f.Fits) (hrb : rb < 2 ^ 16) {m : Nat} (hm : 0 < m) {e : Int} (he : scaled m e < 2 ^ (f.bias + 2)) :
    ∃ n k, fpRsq (.num false m e) = (.num false n k, 0) ∧ RootRounds f mode rb (fun z => z ^ 2 * scaled m e) (roundNum f mode rb false n k) := by
  obtain ⟨d, hd, hd2, heven⟩ := even_shift e
  obtain ⟨L, hL⟩ : ∃ L, 200 + Nat.log2 m = L := ⟨_, rfl⟩
  obtain ⟨D, hD⟩ : ∃ D, m * 2 ^ d = D := ⟨_, rfl⟩
  obtain ⟨P, hP⟩ : ∃ P, 2 ^ (2 * L) * 4 ^ 64 = P := ⟨_, rfl⟩
  obtain ⟨g, hg⟩ : ∃ g : Int, -((e - d) / 2) - L - 64 = g := ⟨_, rfl⟩
  have hDpos : 0 < D := hD ▸ Nat.mul_pos hm (Nat.two_pow_pos _)
  have hPpos : 0 < P := hP ▸ Nat.mul_pos (Nat.two_pow_pos _) (Nat.pow_pos (by decide))
  have hquot : 2 ^ 160 ≤ P / D := by
    rw [Nat.le_div_iff_mul_le hDpos, ← hP, ← hD, four_pow, ← Nat.pow_add]
    have hm2 := (Nat.lt_log2_self (n := m)).le
    have hdd : 2 ^ d ≤ 2 ^ 1 := Nat.pow_le_pow_right (by decide) (by omega)
    calc 2 ^ 160 * (m * 2 ^ d) ≤ 2 ^ 160 * (2 ^ (Nat.log2 m + 1) * 2 ^ 1) := Nat.mul_le_mul_left _ (Nat.mul_le_mul hm2 hdd)
      _ = 2 ^ (160 + (Nat.log2 m + 1 + 1)) := by rw [← Nat.pow_add, ← Nat.pow_add]
      _ ≤ 2 ^ (2 * L + 2 * 64) := Nat.pow_le_pow_right (by decide) (by omega)
  obtain ⟨N, hN⟩ : ∃ N, Nat.sqrt (P / D) = N := ⟨_, rfl⟩
  have hN80 : 2 ^ 80 ≤ N := hN ▸ Nat.le_sqrt.2 (by rw [← Nat.pow_add]; exact hquot)
  obtain ⟨t, ht⟩ : ∃ t, (if N * N = P / D ∧ P % D = 0 then 0 else 1) = t := ⟨_, rfl⟩
  have hcomp : fpRsq (.num false m e) = (.num false (N * 2 + t) (g - 1), 0) := by
    have hk : 2 * L / 2 = L := by omega
    unfold fpRsq
    dsimp only
    rw [hL, hd, hD, hP, hN, hk, ht, hg]
  have hval : scaled m e * (P * 2 ^ (2 * g)) = D := by
    rw [← hP, ← hD, four_pow, Nat.cast_mul, Nat.cast_mul, two_pow_cast, two_pow_cast, two_pow_cast, scaled, ← hg, mul_assoc,
      ← zpow_add₀ two_ne_zero, ← zpow_add₀ two_ne_zero, ← zpow_add₀ two_ne_zero]
    congr 2
    push_cast
    omega
  have hPq : (0 : ℚ) < P * 2 ^ (2 * g) := mul_pos (by exact_mod_cast hPpos) (zpow_two_pos _)
  have hlow : N * N * D ≤ P :=
    (Nat.mul_le_mul_right D (hN ▸ Nat.sqrt_le (P / D))).trans (Nat.div_mul_le_self P D)
  have hhigh : P < (N + 1) * (N + 1) * D := by
    have h := Nat.lt_succ_sqrt (P / D)
    rw [hN] at h
    exact (Nat.div_lt_iff_lt_mul hDpos).1 h
  have hs : t = if N * N * D = P then 0 else 1 := by
    rw [← ht, ← hN]
    simp only [rsq_exact]
  refine ⟨N * 2 + t, g - 1, hcomp, (roundNum_roundsTo hf (by omega)).root (by omega)
    (root_standsFor hDpos hPpos hN80 hlow hhigh (fun z => ?_) t hs) hf hrb ?_⟩
  · rw [eq_div_iff hPq.ne', mul_assoc, hval]
  · refine expOf_ge (by omega) ?_
    have hle : scaled N g ≤ scaled (N * 2 + t) (g - 1) := by
      have := scaled_shift N 1 (g - 1)
      rw [Nat.cast_one, sub_add_cancel, pow_one] at this
      rw [this, scaled_le_scaled]
      omega
    refine le_trans ?_ hle
    by_contra hcon
    have hshort : Short (2 ^ f.emin) := ⟨1, f.emin, by decide, by rw [scaled, Nat.cast_one, one_mul]⟩
    have hnext := hshort.gap hN80 (not_le.1 hcon)
    have hsq : (((N + 1) * (N + 1) : Nat) : ℚ) * 2 ^ (2 * g) ≤ 2 ^ (2 * f.emin) := by
      have := pow_le_pow_left₀ (mul_nonneg (Nat.cast_nonneg _) (zpow_two_pos g).le) hnext 2
      rw [mul_pow] at this
      rw [mul_comm 2 g, mul_comm 2 f.emin, zpow_mul, zpow_mul]
      push_cast at this ⊢
      rw [zpow_ofNat, zpow_ofNat, ← pow_two]
      exact this
    have h1 : (P : ℚ) * 2 ^ (2 * g) < 2 ^ (2 * f.emin) * D := by
      have hc : (P : ℚ) < (((N + 1) * (N + 1) : Nat) : ℚ) * D := by exact_mod_cast hhigh
      have h2 := mul_lt_mul_of_pos_right hc (zpow_two_pos (2 * g))
      have h3 := mul_le_mul_of_nonneg_right hsq (Nat.cast_nonneg (α := ℚ) D)
      refine h2.trans_le (le_trans (le_of_eq ?_) h3)
      ring
    have h4 : (1 : ℚ) < 2 ^ (2 * f.emin) * scaled m e := by
      rw [← mul_lt_mul_iff_left₀ hPq, one_mul, mul_assoc, hval]
      exact h1
    have h5 : (2 : ℚ) ^ (2 * f.emin) * scaled m e < 2 ^ (2 * f.emin + (f.bias + 2)) := by
      rw [zpow_add₀ two_ne_zero]
      exact mul_lt_mul_of_pos_left he (zpow_two_pos _)
    have h6 : (2 : ℚ) ^ (2 * f.emin + (f.bias + 2)) ≤ 2 ^ (0 : Int) := by
      refine zpow_le_zpow_right₀ (by norm_num) ?_
      have := hf.bias_ge
      rw [Fmt.emin]
      omega
    rw [zpow_zero] at h6
    exact absurd (h4.trans (h5.trans_le h6)) (lt_irrefl _)

end

end Sys2Proof.Machine

namespace Sys2Proof.Machine

/-! ### The values of encodings, and what a value is converted to (R117, R118, R126) -/

/-- A number is not 0. -/
def FVal.Proper : FVal → Prop
  | .num _ m _ => 0 < m
  | _ => True

/-- What a layout says of its format. -/
structure Layout (ty eb fb : Nat) (infs : Bool) (top nan : Nat) : Prop where
  fmt : fmtOf ty = ⟨eb, fb, top, infs⟩
  nan : (fmtOf ty).nan = nan
  float : isFloat ty = true
  fits : (fmtOf ty).Fits
  room : (fmtOf ty).top + 1 < (fmtOf ty).signBit

theorem layout_of_mem {ty eb fb : Nat} {bias : Int} {infs : Bool} {top nan : Nat} (h : (ty, eb, fb, bias, infs, top, nan) ∈ floatLayouts) :
    Layout ty eb fb infs top nan := by
  have hf : (fmtOf ty).Fits := fits_of_layout h
  simp only [floatLayouts, List.mem_cons, List.not_mem_nil, or_false, Prod.mk.injEq] at h
  rcases h with ⟨rfl, rfl, rfl, rfl, rfl, rfl, rfl⟩ | ⟨rfl, rfl, rfl, rfl, rfl, rfl, rfl⟩ | ⟨rfl, rfl, rfl, rfl, rfl, rfl, rfl⟩ |
    ⟨rfl, rfl, rfl, rfl, rfl, rfl, rfl⟩ | ⟨rfl, rfl, rfl, rfl, rfl, rfl, rfl⟩ | ⟨rfl, rfl, rfl, rfl, rfl, rfl, rfl⟩ <;>
    exact ⟨rfl, by decide, rfl, hf, by decide⟩

theorem sign_eq (f : Fmt) (n : Bool) : f.sign n = if n then f.signBit else 0 := rfl

theorem signBit_pos (f : Fmt) : 0 < f.signBit := Nat.two_pow_pos _

/-- The sign and the magnitude of bits of a format. -/
theorem bits_split (f : Fmt) (a : Nat) : a % (2 * f.signBit) = f.sign (decide (f.signBit ≤ a % (2 * f.signBit))) + a % f.signBit := by
  have hp := signBit_pos f
  have hlt := Nat.mod_lt a (Nat.mul_pos Nat.two_pos hp)
  have hmod : a % (2 * f.signBit) % f.signBit = a % f.signBit := Nat.mod_mul_left_mod a 2 f.signBit
  rw [sign_eq]
  by_cases h : f.signBit ≤ a % (2 * f.signBit)
  · rw [decide_eq_true h, if_pos rfl, ← hmod, Nat.mod_eq_sub_mod h, Nat.mod_eq_of_lt (a := _ - _) (by omega)]
    omega
  · rw [decide_eq_false h, if_neg Bool.false_ne_true, ← hmod, Nat.mod_eq_of_lt (not_le.1 h), Nat.zero_add]

/-- What the bits of a format are. -/
inductive Decoded (f : Fmt) (a : Nat) : FVal → Prop
  | zero (n : Bool) : a % (2 * f.signBit) = f.sign n → Decoded f a (.zero n)
  | num (n : Bool) (m w : Nat) (e : Int) : 0 < m → f.unit ≤ e → w ≤ f.top → f.mag w = scaled m e → a % (2 * f.signBit) = f.sign n + w →
      Decoded f a (.num n m e)
  | inf (n : Bool) : f.infs = true → a % (2 * f.signBit) = f.sign n + (f.top + 1) → Decoded f a (.inf n)
  | nan (q : Bool) : Decoded f a (.nan q)

theorem decodeFp_decoded (f : Fmt) (a : Nat) : Decoded f a (decodeFp f a) := by
  have hs := bits_split f a
  have hp : 0 < 2 ^ f.fb := Nat.two_pow_pos _
  unfold decodeFp
  dsimp only
  generalize decide (f.signBit ≤ a % (2 * f.signBit)) = n at *
  generalize a % f.signBit = w at *
  by_cases htop : f.top < w
  · rw [if_pos htop]
    by_cases hi : f.infs = true
    · rw [if_pos hi]
      by_cases hw : w = f.top + 1
      · rw [if_pos hw]
        exact .inf n hi (hw ▸ hs)
      · rw [if_neg hw]
        exact .nan _
    · rw [if_neg hi]
      exact .nan _
  · rw [if_neg htop]
    have hd := Nat.div_add_mod w (2 ^ f.fb)
    have hm := Nat.mod_lt w hp
    have h2 : 2 ^ (f.fb + 1) = 2 ^ f.fb * 2 := Nat.pow_succ ..
    by_cases he : w / 2 ^ f.fb = 0
    · rw [if_pos he]
      rw [he, Nat.mul_zero, Nat.zero_add] at hd
      by_cases hr : w % 2 ^ f.fb = 0
      · rw [if_pos hr]
        exact .zero n (by omega)
      · rw [if_neg hr]
        refine .num n _ w _ (Nat.pos_of_ne_zero hr) (le_refl _) (not_lt.1 htop) ?_ hs
        rw [hd, mag_subnormal f (by omega)]
        rfl
    · rw [if_neg he]
      obtain ⟨k, hk⟩ := Nat.exists_eq_succ_of_ne_zero he
      rw [hk, Nat.mul_succ, Nat.mul_comm] at hd
      have hexp : ((w / 2 ^ f.fb : Nat) : Int) - 1 + f.emin - f.fb = f.unit + k := by
        rw [hk, Fmt.unit]
        push_cast
        ring
      rw [hexp]
      refine .num n _ w _ (by omega) (by omega) (not_lt.1 htop) ?_ hs
      have hw : w = k * 2 ^ f.fb + (w % 2 ^ f.fb + 2 ^ f.fb) := by omega
      conv_lhs => rw [hw]
      exact mag_at f (.inr (Nat.le_add_left _ _)) (by omega)

theorem Decoded.proper {f : Fmt} {a : Nat} {v : FVal} (h : Decoded f a v) : v.Proper := by
  cases h with
  | num n m w e hm => exact hm
  | zero | inf | nan => trivial

section
variable {ty eb fb : Nat} {infs : Bool} {top nan : Nat} (h : Layout ty eb fb infs top nan)
include h

theorem Layout.valueOf (a : Nat) : valueOf ty a = decodeFp (fmtOf ty) a := by rw [Machine.valueOf, if_pos h.float]

theorem Layout.decoded (a : Nat) : Decoded (fmtOf ty) a (Machine.valueOf ty a) := by
  rw [h.valueOf]
  exact decodeFp_decoded _ _

theorem Layout.convertTo (mode : RMode) (rb : Nat) (v : FVal) :
    convertTo ty mode rb v = ((encodeFp (fmtOf ty) mode rb v).1, (encodeFp (fmtOf ty) mode rb v).2 ||| nanFlags [v]) := by
  rw [Machine.convertTo, if_pos h.float]

theorem Layout.convertTo_quiet (mode : RMode) (rb : Nat) {v : FVal} (hv : v.isSnan = false) :
    Machine.convertTo ty mode rb v = encodeFp (fmtOf ty) mode rb v := by
  rw [h.convertTo, nanFlags, List.any_cons, hv, List.any_nil, Bool.or_false, if_neg Bool.false_ne_true, Nat.or_zero]

variable (mode : RMode) (rb : Nat)

theorem Layout.convertTo_zero (n : Bool) : Machine.convertTo ty mode rb (.zero n) = ((fmtOf ty).sign n, 0) :=
  h.convertTo_quiet mode rb rfl

theorem Layout.convertTo_num (n : Bool) (m : Nat) (e : Int) :
    Machine.convertTo ty mode rb (.num n m e) = roundNum (fmtOf ty) mode rb n m e :=
  h.convertTo_quiet mode rb rfl

theorem Layout.convertTo_inf (hi : infs = true) (n : Bool) : Machine.convertTo ty mode rb (.inf n) = ((fmtOf ty).sign n + top + 1, 0) := by
  have h1 : (fmtOf ty).infs = true := by rw [h.fmt, hi]
  have h2 : (fmtOf ty).top = top := by rw [h.fmt]
  rw [h.convertTo_quiet mode rb rfl, encodeFp, if_pos h1, h2]
  rfl

theorem Layout.convertTo_nan : Machine.convertTo ty mode rb (.nan false) = (nan, 0) := by
  rw [h.convertTo_quiet mode rb rfl, ← h.nan]
  rfl

/-- A value of the format is converted to its own bits. -/
theorem Layout.convertTo_valueOf (a : Nat) (hn : (Machine.valueOf ty a).isNan = false) :
    Machine.convertTo ty mode rb (Machine.valueOf ty a) = (a % (2 * (fmtOf ty).signBit), 0) := by
  have hd := h.decoded a
  cases hv : Machine.valueOf ty a with
  | zero n =>
    rw [hv] at hd
    cases hd with | zero _ e => rw [h.convertTo_zero, e]
  | num n m e =>
    rw [hv] at hd
    cases hd with | num _ _ w _ hm _ hw hmag e' =>
      rw [h.convertTo_num, (roundNum_roundsTo h.fits hm).1 w hw hmag, e']
  | inf n =>
    rw [hv] at hd
    cases hd with | inf _ hi e =>
      rw [h.convertTo_inf mode rb (by rw [← hi, h.fmt]), e, h.fmt, Nat.add_assoc]
  | nan q =>
    rw [hv] at hn
    exact absurd hn nofun

end

end Sys2Proof.Machine

namespace Sys2Proof.Machine

/-! ### Sums and products before they are rounded (R118, R283) -/

/-- The sign of an exact zero that is the sum of two numbers with signs (R118). -/
def sumSign (mode : RMode) (n k : Bool) : Bool := if n = k then n else mode == .rdn

/-- A finite value is a number, and where that is 0 a zero with a sign. -/
structure ExactOf (x : ℚ) (zn : Bool) (v : FVal) : Prop where
  finite : v.special = false
  proper : v.Proper
  rat : v.rat = x
  zero : x = 0 → v = .zero zn

theorem rat_num (n : Bool) (m : Nat) (e : Int) : (FVal.num n m e).rat = signedInt n m * 2 ^ e := by
  cases n <;> simp [FVal.rat, signedInt]

theorem rat_num_abs (n : Bool) (m : Nat) (e : Int) : |(FVal.num n m e).rat| = scaled m e := by
  rw [rat_num, abs_mul, abs_of_pos (zpow_two_pos e), scaled]
  cases n <;> simp [signedInt]

theorem rat_num_ne_zero {n : Bool} {m : Nat} (h : 0 < m) (e : Int) : (FVal.num n m e).rat ≠ 0 := by
  rw [← abs_pos, rat_num_abs]
  exact scaled_pos h e

theorem rat_num_neg {n : Bool} {m : Nat} (h : 0 < m) (e : Int) : decide ((FVal.num n m e).rat < 0) = n := by
  have hp := scaled_pos h e
  rw [scaled] at hp
  cases n
  · exact decide_eq_false (not_lt.2 (by simpa [FVal.rat] using hp.le))
  · exact decide_eq_true (by simpa [FVal.rat] using hp)

theorem exactOf_num {n : Bool} {m : Nat} (h : 0 < m) (e : Int) {x : ℚ} (hx : (FVal.num n m e).rat = x) (zn : Bool) :
    ExactOf x zn (.num n m e) :=
  ⟨rfl, h, hx, fun h0 => absurd (hx.trans h0) (rat_num_ne_zero h e)⟩

theorem exactOf_zero (zn : Bool) : ExactOf 0 zn (.zero zn) := ⟨rfl, trivial, rfl, fun _ => rfl⟩

theorem signedInt_ne_zero {n : Bool} {m : Nat} (h : 0 < m) : signedInt n m ≠ 0 := by
  cases n <;> simp [signedInt, h.ne']

/-- A sum of integers at a place. -/
theorem exactOf_ofInt (i : Int) (q : Int) (zn : Bool) : ExactOf (i * 2 ^ q) zn (ofInt i q zn) := by
  unfold ofInt
  split
  case isTrue h =>
    subst h
    rw [Int.cast_zero, zero_mul]
    exact exactOf_zero zn
  case isFalse h =>
    refine exactOf_num (Int.natAbs_pos.2 h) q ?_ zn
    rw [rat_num]
    congr 2
    unfold signedInt
    split
    case isTrue h' => rw [decide_eq_true_eq] at h'; omega
    case isFalse h' => rw [decide_eq_true_eq] at h'; omega

theorem signedInt_shift (n : Bool) (m : Nat) {e q : Int} (h : q ≤ e) :
    (signedInt n (m * 2 ^ (e - q).toNat) : ℚ) * 2 ^ q = signedInt n m * 2 ^ e := by
  have he : (2 : ℚ) ^ e = 2 ^ (e - q).toNat * 2 ^ q := by
    rw [← zpow_natCast, ← zpow_add₀ two_ne_zero]
    congr 1
    omega
  rw [he, ← mul_assoc]
  congr 1
  cases n <;> simp [signedInt]

theorem fpAdd_exact (mode : RMode) {a b : FVal} (ha : a.special = false) (hb : b.special = false) (pa : a.Proper) (pb : b.Proper) :
    ∃ v, fpAdd mode a b = (v, 0) ∧ ExactOf (a.rat + b.rat) (sumSign mode a.isNeg b.isNeg) v := by
  match a, b with
  | .nan _, _ | .inf _, _ => exact absurd ha nofun
  | .zero _, .nan _ | .zero _, .inf _ | .num _ _ _, .nan _ | .num _ _ _, .inf _ => exact absurd hb nofun
  | .zero n, .zero m =>
    refine ⟨_, rfl, ?_⟩
    have h0 : FVal.rat (.zero n) + FVal.rat (.zero m) = 0 := add_zero 0
    rw [h0]
    exact exactOf_zero _
  | .zero n, .num m p e => exact ⟨_, rfl, exactOf_num pb e (zero_add _).symm _⟩
  | .num n p e, .zero m => exact ⟨_, rfl, exactOf_num pa e (add_zero _).symm _⟩
  | .num n p e, .num n' p' e' =>
    refine ⟨_, rfl, ?_⟩
    have hx : (signedInt n (p * 2 ^ (e - min e e').toNat) + signedInt n' (p' * 2 ^ (e' - min e e').toNat) : Int) * (2 : ℚ) ^ min e e' =
        FVal.rat (.num n p e) + FVal.rat (.num n' p' e') := by
      rw [Int.cast_add, add_mul, signedInt_shift n p (min_le_left e e'), signedInt_shift n' p' (min_le_right e e'), rat_num, rat_num]
    have h := exactOf_ofInt (signedInt n (p * 2 ^ (e - min e e').toNat) + signedInt n' (p' * 2 ^ (e' - min e e').toNat)) (min e e')
      (mode == .rdn)
    rw [hx] at h
    refine ⟨h.finite, h.proper, h.rat, fun h0 => ?_⟩
    rw [h.zero h0]
    have hne : n ≠ n' := by
      rintro rfl
      have hp := scaled_pos pa e
      have hp' := scaled_pos pb e'
      unfold scaled at hp hp'
      cases n
      · have : FVal.rat (.num false p e) + FVal.rat (.num false p' e') = p * 2 ^ e + p' * 2 ^ e' := by simp [FVal.rat]
        linarith
      · have : FVal.rat (.num true p e) + FVal.rat (.num true p' e') = -(p * 2 ^ e) + -(p' * 2 ^ e') := by simp [FVal.rat]
        linarith
    exact congrArg FVal.zero (if_neg hne).symm

theorem rat_negate (v : FVal) : v.negate.rat = -v.rat := by
  cases v with
  | num n m e => cases n <;> simp [FVal.negate, FVal.rat]
  | zero | inf | nan => simp [FVal.negate, FVal.rat]

theorem fpMul_exact {a b : FVal} (ha : a.special = false) (hb : b.special = false) (pa : a.Proper) (pb : b.Proper) :
    ∃ v, fpMul a b = (v, 0) ∧ ExactOf (a.rat * b.rat) (a.isNeg != b.isNeg) v ∧ v.isNeg = (a.isNeg != b.isNeg) := by
  match a, b with
  | .nan _, _ | .inf _, _ => exact absurd ha nofun
  | .zero _, .nan _ | .zero _, .inf _ | .num _ _ _, .nan _ | .num _ _ _, .inf _ => exact absurd hb nofun
  | .zero n, .zero m | .zero n, .num m p e =>
    refine ⟨_, rfl, ?_, rfl⟩
    rw [show FVal.rat (.zero n) = 0 from rfl, zero_mul]
    exact exactOf_zero _
  | .num n p e, .zero m =>
    refine ⟨_, rfl, ?_, rfl⟩
    rw [show FVal.rat (.zero m) = 0 from rfl, mul_zero]
    exact exactOf_zero _
  | .num n p e, .num n' p' e' =>
    refine ⟨_, rfl, exactOf_num (Nat.mul_pos pa pb) _ ?_ _, rfl⟩
    rw [rat_num, rat_num, rat_num, zpow_add₀ two_ne_zero]
    cases n <;> cases n' <;> simp [signedInt] <;> ring

theorem fpFma_exact (mode : RMode) {a b c : FVal} (ha : a.special = false) (hb : b.special = false) (hc : c.special = false)
    (pa : a.Proper) (pb : b.Proper) (pc : c.Proper) :
    ∃ v, fpFma mode a b c = (v, 0) ∧ ExactOf (a.rat * b.rat + c.rat) (sumSign mode (a.isNeg != b.isNeg) c.isNeg) v := by
  obtain ⟨p, hp, ep, hs⟩ := fpMul_exact ha hb pa pb
  obtain ⟨v, hv, ev⟩ := fpAdd_exact mode ep.finite hc ep.proper pc
  rw [ep.rat, hs] at ev
  refine ⟨v, ?_, ev⟩
  have hn : p.isNan = false := by
    have := ep.finite
    cases p with
    | nan => exact absurd this nofun
    | zero | num | inf => rfl
  unfold fpFma
  rw [hp]
  dsimp only
  rw [hn, if_neg Bool.false_ne_true, hv]

section
variable {ty eb fb : Nat} {infs : Bool} {top nan : Nat} (h : Layout ty eb fb infs top nan) (mode : RMode) (rb : Nat)
include h

/-- An exact value is rounded once, and an exact zero keeps its sign. -/
theorem Layout.convertTo_exact {x : ℚ} {zn : Bool} {v : FVal} (e : ExactOf x zn v) :
    (x ≠ 0 → RoundsTo (fmtOf ty) mode rb (decide (x < 0)) |x| (Machine.convertTo ty mode rb v)) ∧
    (x = 0 → Machine.convertTo ty mode rb v = ((fmtOf ty).sign zn, 0)) := by
  refine ⟨fun hx => ?_, fun hx => by rw [e.zero hx, h.convertTo_zero]⟩
  obtain ⟨hf, hp, hr, -⟩ := e
  cases v with
  | zero n => exact absurd hr.symm hx
  | inf n => exact absurd hf nofun
  | nan n => exact absurd hf nofun
  | num n m q =>
    rw [← hr, rat_num_neg hp, rat_num_abs, h.convertTo_num]
    exact roundNum_roundsTo h.fits hp

end

end Sys2Proof.Machine

namespace Sys2Proof.Machine

/-! ### The order of encodings, and minima and maxima (R133) -/

/-- The place of an encoding in the order of R133, in which −0 lies below +0. -/
def Fmt.rank (f : Fmt) (w : Nat) : Int := if f.signBit ≤ w then -(w - f.signBit : Nat) - 1 else w

theorem rank_sign {f : Fmt} {w : Nat} (h : w < f.signBit) (n : Bool) : f.rank (f.sign n + w) = if n then -(w : Int) - 1 else w := by
  unfold Fmt.rank
  rw [sign_eq]
  cases n
  · rw [if_neg Bool.false_ne_true, if_neg Bool.false_ne_true, Nat.zero_add, if_neg (not_le.2 h)]
  · rw [if_pos rfl, if_pos rfl, if_pos (Nat.le_add_right _ _), Nat.add_sub_cancel_left]

theorem rank_zero {f : Fmt} (n : Bool) : f.rank (f.sign n) = if n then -1 else 0 := by
  have h := rank_sign (signBit_pos f) n
  rwa [Nat.add_zero] at h

theorem fpLess_num (n : Bool) (m : Nat) (e : Int) (n' : Bool) (m' : Nat) (e' : Int) :
    fpLess (.num n m e) (.num n' m' e') = decide (FVal.rat (.num n m e) < FVal.rat (.num n' m' e')) := by
  show decide (signedInt n (m * 2 ^ (e - min e e').toNat) < signedInt n' (m' * 2 ^ (e' - min e e').toNat)) = _
  rw [decide_eq_decide, rat_num, rat_num, ← signedInt_shift n m (min_le_left e e'), ← signedInt_shift n' m' (min_le_right e e'),
    mul_lt_mul_iff_left₀ (zpow_two_pos _), Int.cast_lt]

/-- A number of a format by its sign and encoding. -/
theorem rat_of_mag {f : Fmt} {m w : Nat} {e : Int} (h : f.mag w = scaled m e) (n : Bool) :
    FVal.rat (.num n m e) = if n then -f.mag w else f.mag w := by
  rw [h]
  cases n <;> simp [FVal.rat, scaled]

theorem mag_pos {f : Fmt} {m w : Nat} {e : Int} (hm : 0 < m) (h : f.mag w = scaled m e) : 0 < w := by
  rw [← (mag_strictMono f).lt_iff_lt, mag_zero, h]
  exact scaled_pos hm e

/-- One value lies below another where its encoding does. -/
theorem Decoded.less {f : Fmt} {a b : Nat} {v u : FVal} (ht : f.top + 1 < f.signBit) (ha : Decoded f a v) (hb : Decoded f b u)
    (hv : v.isNan = false) (hu : u.isNan = false) :
    fpLess v u = decide (f.rank (a % (2 * f.signBit)) < f.rank (b % (2 * f.signBit))) := by
  cases ha with
  | nan q => exact absurd hv nofun
  | zero n hn =>
    cases hb with
    | nan q => exact absurd hu nofun
    | zero n' hn' =>
      rw [hn, hn', rank_zero, rank_zero]
      cases n <;> cases n' <;> rfl
    | num n' m w e hm _ hw hmag he =>
      have := mag_pos hm hmag
      rw [hn, he, rank_zero, rank_sign (by omega), fpLess]
      cases n <;> cases n' <;> simp <;> omega
    | inf n' _ hn' =>
      rw [hn, hn', rank_zero, rank_sign ht, fpLess]
      · cases n <;> cases n' <;> simp <;> omega
      · exact nofun
  | num n m w e hm _ hw hmag he =>
    have hpos := mag_pos hm hmag
    rw [he, rank_sign (by omega)]
    cases hb with
    | nan q => exact absurd hu nofun
    | zero n' hn' =>
      rw [hn', rank_zero, fpLess]
      cases n <;> cases n' <;> simp <;> omega
    | num n' m' w' e' hm' _ hw' hmag' he' =>
      have hpos' := mag_pos hm' hmag'
      have h0 := (mag_strictMono f).lt_iff_lt.2 hpos
      have h0' := (mag_strictMono f).lt_iff_lt.2 hpos'
      rw [mag_zero] at h0 h0'
      rw [he', rank_sign (by omega), fpLess_num, rat_of_mag hmag, rat_of_mag hmag', decide_eq_decide]
      cases n <;> cases n'
      · simp [(mag_strictMono f).lt_iff_lt]
      · simp only [Bool.false_eq_true, if_false, if_true]
        constructor <;> intro h
        · linarith
        · omega
      · simp only [Bool.false_eq_true, if_false, if_true]
        constructor <;> intro h
        · omega
        · linarith
      · simp only [if_true, neg_lt_neg_iff, (mag_strictMono f).lt_iff_lt]
        omega
    | inf n' _ hn' =>
      rw [hn', rank_sign ht, fpLess]
      · cases n <;> cases n' <;> simp <;> omega
      · exact nofun
  | inf n _ hn =>
    rw [hn, rank_sign ht]
    cases hb with
    | nan q => exact absurd hu nofun
    | zero n' hn' =>
      rw [hn', rank_zero, fpLess]
      · cases n <;> cases n' <;> simp <;> omega
      · exact nofun
    | num n' m' w' e' hm' _ hw' hmag' he' =>
      rw [he', rank_sign (by omega), fpLess]
      · cases n <;> cases n' <;> simp <;> omega
      · exact nofun
    | inf n' _ hn' =>
      rw [hn', rank_sign ht, fpLess]
      cases n <;> cases n' <;> simp <;> omega

end Sys2Proof.Machine

namespace Sys2Proof.Machine

/-! ### The functions of the lanes (R131, R283) -/

section
variable {ty eb fb : Nat} {infs : Bool} {top nan : Nat} (h : Layout ty eb fb infs top nan) {fn : LaneFn} {mode : RMode} {rb a b c : Nat}
include h

omit h in
theorem compute_value {v : FVal} (e : fpExact fn mode (Machine.valueOf ty a) (Machine.valueOf ty b) (Machine.valueOf ty c) = (v, 0)) :
    fpCompute fn ty ty ty mode rb a b c = Machine.convertTo ty mode rb v := by
  unfold fpCompute
  rw [e]
  dsimp only
  rw [Nat.zero_or]

theorem Layout.compute_nan {g : Nat} (e : fpExact fn mode (Machine.valueOf ty a) (Machine.valueOf ty b) (Machine.valueOf ty c) =
    (.nan false, g)) : fpCompute fn ty ty ty mode rb a b c = (nan, g) := by
  unfold fpCompute
  rw [e]
  dsimp only
  rw [h.convertTo_nan, Nat.or_zero]

theorem Layout.compute_inf {n : Bool} {g : Nat} (hi : infs = true)
    (e : fpExact fn mode (Machine.valueOf ty a) (Machine.valueOf ty b) (Machine.valueOf ty c) = (.inf n, g)) :
    fpCompute fn ty ty ty mode rb a b c = ((fmtOf ty).sign n + top + 1, g) := by
  unfold fpCompute
  rw [e]
  dsimp only
  rw [h.convertTo_inf mode rb hi, Nat.or_zero]

/-- What is given for an exact value: it is rounded once, and an exact zero keeps its sign. -/
theorem Layout.compute_exact {x : ℚ} {zn : Bool} {v : FVal}
    (e : fpExact fn mode (Machine.valueOf ty a) (Machine.valueOf ty b) (Machine.valueOf ty c) = (v, 0)) (k : ExactOf x zn v) :
    (x ≠ 0 → RoundsTo (fmtOf ty) mode rb (decide (x < 0)) |x| (fpCompute fn ty ty ty mode rb a b c)) ∧
    (x = 0 → fpCompute fn ty ty ty mode rb a b c = ((fmtOf ty).sign zn, 0)) := by
  rw [compute_value e]
  exact h.convertTo_exact mode rb k

end

/-- A finite value is a zero or a number. -/
theorem finite_cases {v : FVal} (h : v.special = false) (hp : v.Proper) : (∃ n, v = .zero n ∧ v.rat = 0) ∨
    ∃ n m e, v = .num n m e ∧ 0 < m ∧ v.rat ≠ 0 := by
  cases v with
  | zero n => exact .inl ⟨n, rfl, rfl⟩
  | num n m e => exact .inr ⟨n, m, e, rfl, hp, rat_num_ne_zero hp e⟩
  | inf | nan => exact absurd h nofun

/-- An infinity is no number. -/
theorem endless_cases {v : FVal} (h : v.special = true) (hn : v.isNan = false) : ∃ n, v = .inf n := by
  cases v with
  | inf n => exact ⟨n, rfl⟩
  | nan q => exact absurd hn nofun
  | zero | num => exact absurd h nofun

/-- A NaN is one. -/
theorem isNan_cases {v : FVal} (h : v.isNan = true) : ∃ q, v = .nan q := by
  cases v with
  | nan q => exact ⟨q, rfl⟩
  | zero | num | inf => exact absurd h nofun

theorem rat_div_abs (n n' : Bool) (m m' : Nat) (e e' : Int) :
    |FVal.rat (.num n m e) / FVal.rat (.num n' m' e')| = scaled m e / scaled m' e' := by
  rw [abs_div, rat_num_abs, rat_num_abs]

theorem rat_pos {n : Bool} {m : Nat} {e : Int} (h : 0 < FVal.rat (.num n m e)) : n = false := by
  cases n with
  | false => rfl
  | true =>
    have h0 : (0 : ℚ) ≤ m * 2 ^ e := mul_nonneg (Nat.cast_nonneg _) (zpow_two_pos e).le
    have h1 : FVal.rat (.num true m e) = -(m * 2 ^ e) := by simp [FVal.rat]
    rw [h1] at h
    linarith

section
variable {ty eb fb : Nat} {infs : Bool} {top nan : Nat} (h : Layout ty eb fb infs top nan) (mode : RMode) {rb : Nat} (hrb : rb < 2 ^ 16)
  (a b c : Nat)
include h

/-- Quotients of finite values. -/
theorem Layout.quotients (hrb : rb < 2 ^ 16) (ha : (Machine.valueOf ty a).special = false) (hb : (Machine.valueOf ty b).special = false) :
    let va := Machine.valueOf ty a
    let vb := Machine.valueOf ty b
    let unlike := va.isNeg != vb.isNeg
    let r := fpCompute .fdiv ty ty ty mode rb a b c
    (vb.rat ≠ 0 → va.rat ≠ 0 → RoundsTo (fmtOf ty) mode rb unlike |va.rat / vb.rat| r) ∧
    (vb.rat ≠ 0 → va.rat = 0 → r = ((fmtOf ty).sign unlike, 0)) ∧
    (vb.rat = 0 → va.rat = 0 → r = (nan, NV)) ∧
    (infs = true → vb.rat = 0 → va.rat ≠ 0 → r = ((fmtOf ty).sign unlike + top + 1, DZ)) := by
  intro va vb unlike r
  rcases finite_cases ha (h.decoded a).proper with ⟨n, hva, ra⟩ | ⟨n, m, e, hva, hm, ra⟩ <;>
    rcases finite_cases hb (h.decoded b).proper with ⟨n', hvb, rb'⟩ | ⟨n', m', e', hvb, hm', rb'⟩
  · exact ⟨fun h0 => absurd rb' h0, fun h0 => absurd rb' h0, fun _ _ => h.compute_nan (by rw [hva, hvb]; rfl), fun _ _ h0 => absurd ra h0⟩
  · refine ⟨fun _ h0 => absurd ra h0, fun _ _ => ?_, fun h0 => absurd h0 rb', fun _ h0 => absurd h0 rb'⟩
    refine (compute_value (v := .zero (n != n')) (by rw [hva, hvb]; rfl)).trans ?_
    rw [h.convertTo_zero]
    show _ = ((fmtOf ty).sign (va.isNeg != vb.isNeg), 0)
    rw [show va = _ from hva, show vb = _ from hvb]
    rfl
  · refine ⟨fun h0 => absurd rb' h0, fun h0 => absurd rb' h0, fun _ h0 => absurd h0 ra, fun hi _ _ => ?_⟩
    have hu : unlike = (n != n') := by
      show (va.isNeg != vb.isNeg) = _
      rw [show va = _ from hva, show vb = _ from hvb]
      rfl
    rw [hu]
    exact h.compute_inf hi (by rw [hva, hvb]; rfl)
  · refine ⟨fun _ _ => ?_, fun _ h0 => absurd h0 ra, fun h0 => absurd h0 rb', fun _ h0 => absurd h0 rb'⟩
    have hr : r = roundNum (fmtOf ty) mode rb (n != n') (quotient m m').1 (e - e' + (quotient m m').2) := by
      refine (compute_value (v := .num (n != n') (quotient m m').1 (e - e' + (quotient m m').2)) (by rw [hva, hvb]; rfl)).trans ?_
      rw [h.convertTo_num]
    have hu : unlike = (n != n') := by
      show (va.isNeg != vb.isNeg) = _
      rw [show va = _ from hva, show vb = _ from hvb]
      rfl
    rw [hr, hu, show va = _ from hva, show vb = _ from hvb, rat_div_abs]
    exact quotient_roundsTo h.fits hrb hm hm' e e'

/-- Roots of finite values. -/
theorem Layout.roots (hrb : rb < 2 ^ 16) (ha : (Machine.valueOf ty a).special = false) :
    let va := Machine.valueOf ty a
    let r := fpCompute .fsqrt ty ty ty mode rb a b c
    (0 < va.rat → RootRounds (fmtOf ty) mode rb (fun z => z ^ 2 / va.rat) r) ∧
    (va.rat = 0 → r = ((fmtOf ty).sign va.isNeg, 0)) ∧
    (va.rat < 0 → r = (nan, NV)) := by
  intro va r
  have hd := h.decoded a
  rcases finite_cases ha hd.proper with ⟨n, hva, ra⟩ | ⟨n, m, e, hva, hm, ra⟩
  · refine ⟨fun h0 => absurd ra h0.ne', fun _ => ?_, fun h0 => absurd ra h0.ne⟩
    refine (compute_value (v := .zero n) (by rw [hva]; rfl)).trans ?_
    rw [h.convertTo_zero, show va = _ from hva]
    rfl
  · refine ⟨fun h0 => ?_, fun h0 => absurd h0 ra, fun h0 => ?_⟩
    · rw [show va = _ from hva] at h0 ⊢
      obtain rfl := rat_pos h0
      rw [hva] at hd
      cases hd with | num _ _ w _ _ hunit _ _ _ =>
        have hr : r = roundNum (fmtOf ty) mode rb false (rootOf m e).1 (rootOf m e).2 := by
          refine (compute_value (v := .num false (rootOf m e).1 (rootOf m e).2) (by rw [hva]; rfl)).trans ?_
          rw [h.convertTo_num]
        rw [hr, show FVal.rat (.num false m e) = scaled m e by simp [FVal.rat, scaled]]
        exact rootOf_rounds h.fits hrb hm hunit
    · have hn : n = true := by
        have := rat_num_neg (n := n) hm e
        rw [show va = _ from hva] at h0
        rw [decide_eq_true h0] at this
        exact this.symm
      subst hn
      exact h.compute_nan (by rw [hva]; rfl)

end

end Sys2Proof.Machine

namespace Sys2Proof.Machine

/-! ### Infinities and NaNs (R118, R131) -/

theorem nanFlags_pair (u v : FVal) : nanFlags [u, v] = if u.isSnan || v.isSnan then NV else 0 := by
  rw [nanFlags, List.any_cons, List.any_cons, List.any_nil, Bool.or_false]

theorem special_of_nan {v : FVal} (h : v.isNan = true) : v.special = true := by
  obtain ⟨q, rfl⟩ := isNan_cases h
  rfl

theorem isNan_of_finite {v : FVal} (h : v.special = false) : v.isNan = false := by
  rw [← Bool.not_eq_true]
  intro hn
  rw [special_of_nan hn] at h
  exact absurd h nofun

theorem snan_of_not_nan {v : FVal} (h : v.isNan = false) : v.isSnan = false := by
  cases v with
  | nan q => exact absurd h nofun
  | zero | num | inf => rfl

section
variable {u v : FVal} (h : u.isNan = true ∨ v.isNan = true)
include h

theorem fpAdd_nan (mode : RMode) : fpAdd mode u v = (.nan false, nanFlags [u, v]) := by
  match u, v with
  | .nan _, _ => rfl
  | .zero _, .nan _ | .num _ _ _, .nan _ | .inf _, .nan _ => rfl
  | .zero _, .zero _ | .zero _, .num _ _ _ | .zero _, .inf _ | .num _ _ _, .zero _ | .num _ _ _, .num _ _ _ | .num _ _ _, .inf _ |
    .inf _, .zero _ | .inf _, .num _ _ _ | .inf _, .inf _ => exact absurd h nofun

theorem fpMul_nan : fpMul u v = (.nan false, nanFlags [u, v]) := by
  match u, v with
  | .nan _, _ => rfl
  | .zero _, .nan _ | .num _ _ _, .nan _ | .inf _, .nan _ => rfl
  | .zero _, .zero _ | .zero _, .num _ _ _ | .zero _, .inf _ | .num _ _ _, .zero _ | .num _ _ _, .num _ _ _ | .num _ _ _, .inf _ |
    .inf _, .zero _ | .inf _, .num _ _ _ | .inf _, .inf _ => exact absurd h nofun

theorem fpDiv_nan : fpDiv u v = (.nan false, nanFlags [u, v]) := by
  match u, v with
  | .nan _, _ => rfl
  | .zero _, .nan _ | .num _ _ _, .nan _ | .inf _, .nan _ => rfl
  | .zero _, .zero _ | .zero _, .num _ _ _ | .zero _, .inf _ | .num _ _ _, .zero _ | .num _ _ _, .num _ _ _ | .num _ _ _, .inf _ |
    .inf _, .zero _ | .inf _, .num _ _ _ | .inf _, .inf _ => exact absurd h nofun

theorem fpMinMax_nan (max : Bool) : fpMinMax max u v = (.nan false, nanFlags [u, v]) := by
  rw [fpMinMax, if_pos (by rcases h with h | h <;> rw [h] <;> simp)]

end

theorem isSnan_negate (v : FVal) : v.negate.isSnan = v.isSnan := by cases v <;> rfl
theorem isNan_negate (v : FVal) : v.negate.isNan = v.isNan := by cases v <;> rfl
theorem special_negate (v : FVal) : v.negate.special = v.special := by cases v <;> rfl

theorem isNeg_negate {v : FVal} (h : v.special = false) : v.negate.isNeg = !v.isNeg := by
  cases v with
  | zero | num => rfl
  | inf | nan => exact absurd h nofun

theorem proper_negate {v : FVal} (h : v.Proper) : v.negate.Proper := by
  cases v with
  | num => exact h
  | zero | inf | nan => trivial

section
variable {ty eb fb : Nat} {infs : Bool} {top nan : Nat} (h : Layout ty eb fb infs top nan) (mode : RMode) (rb a b c : Nat)
include h

/-- An infinity is only in a format that has them. -/
theorem Layout.infs_of_inf {a : Nat} {n : Bool} (e : Machine.valueOf ty a = .inf n) : infs = true := by
  have hd := h.decoded a
  rw [e] at hd
  cases hd with | inf _ hi _ => rw [← hi, h.fmt]

/-- Operations of two operands of which one is a NaN. -/
theorem Layout.nanResults (hn : (Machine.valueOf ty a).isNan = true ∨ (Machine.valueOf ty b).isNan = true) :
    ∀ fn ∈ [LaneFn.fadd, .fsub, .fmul, .fdiv, .fmin, .fmax], fpCompute fn ty ty ty mode rb a b c =
      (nan, if (Machine.valueOf ty a).isSnan || (Machine.valueOf ty b).isSnan then NV else 0) := by
  have hneg : (Machine.valueOf ty a).isNan = true ∨ (Machine.valueOf ty b).negate.isNan = true := by
    rw [isNan_negate]
    exact hn
  have hsub := (fpAdd_nan hneg mode).trans (by rw [nanFlags_pair, isSnan_negate, ← nanFlags_pair])
  rw [← nanFlags_pair]
  simp only [List.forall_mem_cons]
  exact ⟨h.compute_nan (fpAdd_nan hn mode), h.compute_nan hsub, h.compute_nan (fpMul_nan hn), h.compute_nan (fpDiv_nan hn),
    h.compute_nan (fpMinMax_nan hn false), h.compute_nan (fpMinMax_nan hn true), List.forall_mem_nil _⟩

end

end Sys2Proof.Machine

namespace Sys2Proof.Machine

theorem fpFma_product {mode : RMode} {u v w : FVal} {g : Nat} (h : fpMul u v = (.nan false, g)) :
    fpFma mode u v w = (.nan false, g ||| nanFlags [w]) := by
  unfold fpFma
  rw [h]
  rfl

theorem fpFma_addend {mode : RMode} {u v w p : FVal} (h : fpMul u v = (p, 0)) (hp : p.isNan = false) (hw : w.isNan = true) :
    fpFma mode u v w = (.nan false, nanFlags [w]) := by
  unfold fpFma
  rw [h]
  dsimp only
  rw [hp, if_neg Bool.false_ne_true, fpAdd_nan (.inr hw), nanFlags_pair, snan_of_not_nan hp, Bool.false_or, nanFlags, List.any_cons,
    List.any_nil, Bool.or_false]

theorem nanFlags_one (w : FVal) : nanFlags [w] = if w.isSnan then NV else 0 := by
  rw [nanFlags, List.any_cons, List.any_nil, Bool.or_false]

/-- Where a product is 0 × ∞. -/
def ZeroTimesInf (u v : FVal) : Prop :=
  ((u.special = true ∧ u.isNan = false) ∧ v.rat = 0 ∧ v.special = false) ∨ ((v.special = true ∧ v.isNan = false) ∧ u.rat = 0 ∧ u.special = false)

/-- A product with no NaN operand: NV for 0 × ∞, else a value that is no NaN. -/
theorem fpMul_cases {u v : FVal} (hu : u.isNan = false) (hv : v.isNan = false) (pu : u.Proper) (pv : v.Proper) :
    (ZeroTimesInf u v ∧ fpMul u v = (.nan false, NV)) ∨ (¬ ZeroTimesInf u v ∧ ∃ p, fpMul u v = (p, 0) ∧ p.isNan = false) := by
  match u, v with
  | .nan _, _ => exact absurd hu nofun
  | .zero _, .nan _ | .num _ _ _, .nan _ | .inf _, .nan _ => exact absurd hv nofun
  | .inf _, .zero _ => exact .inl ⟨.inl ⟨⟨rfl, rfl⟩, rfl, rfl⟩, rfl⟩
  | .zero _, .inf _ => exact .inl ⟨.inr ⟨⟨rfl, rfl⟩, rfl, rfl⟩, rfl⟩
  | .inf _, .inf _ => exact .inr ⟨by rintro (⟨-, -, h⟩ | ⟨-, -, h⟩) <;> exact absurd h nofun, _, rfl, rfl⟩
  | .inf _, .num _ m e =>
    refine .inr ⟨?_, _, rfl, rfl⟩
    rintro (⟨-, h, -⟩ | ⟨-, -, h⟩)
    · exact absurd h (rat_num_ne_zero pv e)
    · exact absurd h nofun
  | .num _ m e, .inf _ =>
    refine .inr ⟨?_, _, rfl, rfl⟩
    rintro (⟨-, -, h⟩ | ⟨-, h, -⟩)
    · exact absurd h nofun
    · exact absurd h (rat_num_ne_zero pu e)
  | .zero _, .zero _ | .zero _, .num _ _ _ | .num _ _ _, .zero _ | .num _ _ _, .num _ _ _ =>
    exact .inr ⟨by rintro (⟨⟨h, -⟩, -⟩ | ⟨⟨h, -⟩, -⟩) <;> exact absurd h nofun, _, rfl, rfl⟩

/-- FMA with a NaN, also where its product is 0 × ∞. -/
theorem fpFma_nan {mode : RMode} {u v w : FVal} (pu : u.Proper) (pv : v.Proper) (h : u.isNan = true ∨ v.isNan = true ∨ w.isNan = true)
    {_ : Decidable (u.isSnan = true ∨ v.isSnan = true ∨ w.isSnan = true ∨ ZeroTimesInf u v)} :
    fpFma mode u v w = (.nan false, if u.isSnan = true ∨ v.isSnan = true ∨ w.isSnan = true ∨ ZeroTimesInf u v then NV else 0) := by
  by_cases hab : u.isNan = true ∨ v.isNan = true
  · have hz : ¬ ZeroTimesInf u v := by
      rintro (⟨⟨-, h1⟩, -, h2⟩ | ⟨⟨-, h1⟩, -, h2⟩) <;> rw [h1, isNan_of_finite h2] at hab <;> simp at hab
    rw [fpFma_product (fpMul_nan hab), nanFlags_pair, nanFlags_one]
    simp only [hz, or_false]
    cases u.isSnan <;> cases v.isSnan <;> cases w.isSnan <;> rfl
  · rw [not_or, Bool.not_eq_true, Bool.not_eq_true] at hab
    obtain ⟨hu, hv⟩ := hab
    have hw : w.isNan = true := by simpa [hu, hv] using h
    have hsu := snan_of_not_nan hu
    have hsv := snan_of_not_nan hv
    rcases fpMul_cases hu hv pu pv with ⟨hz, hm⟩ | ⟨hz, p, hm, hp⟩
    · have hnv : (NV ||| if w.isSnan then NV else 0) = NV := by cases w.isSnan <;> rfl
      rw [fpFma_product hm, nanFlags_one, hnv]
      exact congrArg (FVal.nan false, ·) (if_pos (.inr (.inr (.inr hz)))).symm
    · rw [fpFma_addend hm hp hw, nanFlags_one]
      refine congrArg (FVal.nan false, ·) (if_congr ?_ rfl rfl)
      simp [hsu, hsv, hz]

theorem rank_inj {f : Fmt} {w v : Nat} (h : f.rank w = f.rank v) : w = v := by
  unfold Fmt.rank at h
  split at h <;> split at h <;> omega

section
variable {ty eb fb : Nat} {infs : Bool} {top nan : Nat} (h : Layout ty eb fb infs top nan) (mode : RMode) (rb a b c : Nat)
include h

/-- Operations of an infinity and an infinity or a finite value. -/
theorem Layout.infResults {n : Bool} (ha : Machine.valueOf ty a = .inf n) :
    (∀ n', Machine.valueOf ty b = .inf n' →
      fpCompute .fadd ty ty ty mode rb a b c = (if n != n' then (nan, NV) else ((fmtOf ty).sign n + top + 1, 0)) ∧
      fpCompute .fsub ty ty ty mode rb a b c = (if n != n' then ((fmtOf ty).sign n + top + 1, 0) else (nan, NV)) ∧
      fpCompute .fmul ty ty ty mode rb a b c = ((fmtOf ty).sign (n != n') + top + 1, 0) ∧
      fpCompute .fdiv ty ty ty mode rb a b c = (nan, NV)) ∧
    ((Machine.valueOf ty b).special = false →
      fpCompute .fadd ty ty ty mode rb a b c = ((fmtOf ty).sign n + top + 1, 0) ∧
      fpCompute .fsub ty ty ty mode rb a b c = ((fmtOf ty).sign n + top + 1, 0) ∧
      fpCompute .fdiv ty ty ty mode rb a b c = ((fmtOf ty).sign (n != (Machine.valueOf ty b).isNeg) + top + 1, 0) ∧
      fpCompute .fmul ty ty ty mode rb a b c =
        if (Machine.valueOf ty b).rat = 0 then (nan, NV) else ((fmtOf ty).sign (n != (Machine.valueOf ty b).isNeg) + top + 1, 0)) := by
  have hi := h.infs_of_inf ha
  refine ⟨fun n' hb => ⟨?_, ?_, h.compute_inf hi (by rw [ha, hb]; rfl), h.compute_nan (by rw [ha, hb]; rfl)⟩, fun hb => ?_⟩
  · by_cases hn : n = n'
    · subst hn
      rw [bne_self_eq_false, if_neg Bool.false_ne_true]
      exact h.compute_inf hi (by rw [ha, hb]; exact if_pos rfl)
    · rw [if_pos (bne_iff_ne.2 hn)]
      exact h.compute_nan (by rw [ha, hb]; exact if_neg hn)
  · by_cases hn : n = n'
    · subst hn
      rw [bne_self_eq_false, if_neg Bool.false_ne_true]
      exact h.compute_nan (by rw [ha, hb]; exact if_neg (by cases n <;> exact nofun))
    · rw [if_pos (bne_iff_ne.2 hn)]
      have hn' : n = !n' := by cases n <;> cases n' <;> simp_all
      exact h.compute_inf hi (by rw [ha, hb]; exact if_pos hn')
  · rcases finite_cases hb (h.decoded b).proper with ⟨n', hv, hr⟩ | ⟨n', m, e, hv, hm, hr⟩
    · rw [if_pos hr]
      rw [hv]
      exact ⟨h.compute_inf hi (by rw [ha, hv]; rfl), h.compute_inf hi (by rw [ha, hv]; rfl), h.compute_inf hi (by rw [ha, hv]; rfl),
        h.compute_nan (by rw [ha, hv]; rfl)⟩
    · rw [if_neg hr]
      rw [hv]
      exact ⟨h.compute_inf hi (by rw [ha, hv]; rfl), h.compute_inf hi (by rw [ha, hv]; rfl), h.compute_inf hi (by rw [ha, hv]; rfl),
        h.compute_inf hi (by rw [ha, hv]; rfl)⟩

/-- Operations of a finite value and an infinity. -/
theorem Layout.finiteInfResults (ha : (Machine.valueOf ty a).special = false) {n : Bool} (hb : Machine.valueOf ty b = .inf n) :
    fpCompute .fadd ty ty ty mode rb a b c = ((fmtOf ty).sign n + top + 1, 0) ∧
    fpCompute .fsub ty ty ty mode rb a b c = ((fmtOf ty).sign (!n) + top + 1, 0) ∧
    fpCompute .fdiv ty ty ty mode rb a b c = ((fmtOf ty).sign ((Machine.valueOf ty a).isNeg != n), 0) ∧
    fpCompute .fmul ty ty ty mode rb a b c =
      if (Machine.valueOf ty a).rat = 0 then (nan, NV) else ((fmtOf ty).sign ((Machine.valueOf ty a).isNeg != n) + top + 1, 0) := by
  have hi := h.infs_of_inf hb
  rcases finite_cases ha (h.decoded a).proper with ⟨n', hv, hr⟩ | ⟨n', m, e, hv, hm, hr⟩
  · rw [if_pos hr]
    have hd := compute_value (fn := .fdiv) (mode := mode) (rb := rb) (a := a) (b := b) (c := c) (ty := ty) (v := .zero (n' != n))
      (by rw [hv, hb]; rfl)
    rw [h.convertTo_zero] at hd
    rw [hv]
    exact ⟨h.compute_inf hi (by rw [hb, hv]; rfl), h.compute_inf hi (by rw [hb, hv]; rfl), hd, h.compute_nan (by rw [hb, hv]; rfl)⟩
  · rw [if_neg hr]
    have hd := compute_value (fn := .fdiv) (mode := mode) (rb := rb) (a := a) (b := b) (c := c) (ty := ty) (v := .zero (n' != n))
      (by rw [hv, hb]; rfl)
    rw [h.convertTo_zero] at hd
    rw [hv]
    exact ⟨h.compute_inf hi (by rw [hb, hv]; rfl), h.compute_inf hi (by rw [hb, hv]; rfl), hd, h.compute_inf hi (by rw [hb, hv]; rfl)⟩

/-- Minima and maxima. -/
theorem Layout.minMaxResults (ha : (Machine.valueOf ty a).isNan = false) (hb : (Machine.valueOf ty b).isNan = false) :
    let low : Nat → Nat := fun w => w % (2 * (fmtOf ty).signBit)
    fpCompute .fmin ty ty ty mode rb a b c = (if (fmtOf ty).rank (low a) ≤ (fmtOf ty).rank (low b) then low a else low b, 0) ∧
    fpCompute .fmax ty ty ty mode rb a b c = (if (fmtOf ty).rank (low a) ≤ (fmtOf ty).rank (low b) then low b else low a, 0) := by
  intro low
  have hab := (h.decoded a).less h.room (h.decoded b) ha hb
  have hba := (h.decoded b).less h.room (h.decoded a) hb ha
  have hor : ¬ ((Machine.valueOf ty a).isNan || (Machine.valueOf ty b).isNan) = true := by rw [ha, hb]; exact Bool.false_ne_true
  have hca := h.convertTo_valueOf mode rb a ha
  have hcb := h.convertTo_valueOf mode rb b hb
  refine ⟨?_, ?_⟩
  · have e : fpExact .fmin mode (Machine.valueOf ty a) (Machine.valueOf ty b) (Machine.valueOf ty c) =
        (if (fmtOf ty).rank (low b) < (fmtOf ty).rank (low a) then Machine.valueOf ty b else Machine.valueOf ty a, 0) := by
      show fpMinMax false _ _ = _
      rw [fpMinMax, if_neg hor, if_neg Bool.false_ne_true, hba]
      simp only [decide_eq_true_eq]
      rfl
    rw [compute_value e]
    split
    · rw [if_neg (by omega), hcb]
    · rw [if_pos (by omega), hca]
  · have e : fpExact .fmax mode (Machine.valueOf ty a) (Machine.valueOf ty b) (Machine.valueOf ty c) =
        (if (fmtOf ty).rank (low a) < (fmtOf ty).rank (low b) then Machine.valueOf ty b else Machine.valueOf ty a, 0) := by
      show fpMinMax true _ _ = _
      rw [fpMinMax, if_neg hor, if_pos rfl, hab]
      simp only [decide_eq_true_eq]
      rfl
    rw [compute_value e]
    split
    · rw [if_pos (by omega), hcb]
    · rename_i hlt
      rw [hca]
      split
      · exact congrArg (·, 0) (rank_inj (le_antisymm ‹_› (not_lt.1 hlt)))
      · rfl

end

end Sys2Proof.Machine

namespace Sys2Proof.Machine

section
variable {ty eb fb : Nat} {infs : Bool} {top nan : Nat} (h : Layout ty eb fb infs top nan) (mode : RMode) (rb a b c : Nat)
include h

theorem Layout.low_eq (w : Nat) : w % 2 ^ (1 + eb + fb) = w % (2 * (fmtOf ty).signBit) := by
  rw [h.fmt, Fmt.signBit, Nat.add_assoc, Nat.pow_add 2 1, Nat.pow_one]

/-- Sums and products of finite values. -/
theorem Layout.sums (ha : (Machine.valueOf ty a).special = false) (hb : (Machine.valueOf ty b).special = false) :
    let va := Machine.valueOf ty a
    let vb := Machine.valueOf ty b
    let gives : LaneFn → ℚ → Bool → Prop := fun fn x zn =>
      (x ≠ 0 → RoundsTo (fmtOf ty) mode rb (decide (x < 0)) |x| (fpCompute fn ty ty ty mode rb a b c)) ∧
      (x = 0 → fpCompute fn ty ty ty mode rb a b c = ((fmtOf ty).sign zn, 0))
    gives .fadd (va.rat + vb.rat) (sumSign mode va.isNeg vb.isNeg) ∧ gives .fsub (va.rat - vb.rat) (sumSign mode va.isNeg !vb.isNeg) ∧
    gives .fmul (va.rat * vb.rat) (va.isNeg != vb.isNeg) ∧
    ((Machine.valueOf ty c).special = false →
      gives .fma (va.rat * vb.rat + (Machine.valueOf ty c).rat) (sumSign mode (va.isNeg != vb.isNeg) (Machine.valueOf ty c).isNeg)) := by
  intro va vb gives
  have pa := (h.decoded a).proper
  have pb := (h.decoded b).proper
  refine ⟨?_, ?_, ?_, fun hc => ?_⟩
  · obtain ⟨v, hv, e⟩ := fpAdd_exact mode ha hb pa pb
    exact h.compute_exact hv e
  · obtain ⟨v, hv, e⟩ := fpAdd_exact mode ha ((special_negate _).trans hb) pa (proper_negate pb)
    rw [rat_negate, ← sub_eq_add_neg, isNeg_negate hb] at e
    exact h.compute_exact hv e
  · obtain ⟨v, hv, e, -⟩ := fpMul_exact ha hb pa pb
    exact h.compute_exact hv e
  · obtain ⟨v, hv, e⟩ := fpFma_exact mode ha hb hc pa pb (h.decoded c).proper
    exact h.compute_exact hv e

theorem Layout.sqrtInf {n : Bool} (ha : Machine.valueOf ty a = .inf n) :
    fpCompute .fsqrt ty ty ty mode rb a b c = if n then (nan, NV) else ((fmtOf ty).sign false + top + 1, 0) := by
  cases n with
  | true => exact h.compute_nan (by rw [ha]; rfl)
  | false => exact h.compute_inf (h.infs_of_inf ha) (by rw [ha]; rfl)

theorem Layout.sqrtNan (ha : (Machine.valueOf ty a).isNan = true) :
    fpCompute .fsqrt ty ty ty mode rb a b c = (nan, if (Machine.valueOf ty a).isSnan then NV else 0) := by
  obtain ⟨q, hq⟩ := isNan_cases ha
  rw [← nanFlags_one, hq]
  exact h.compute_nan (by rw [hq]; rfl)

end

/-- The functions that `ArithmeticRounds` speaks of. -/
def arithmeticFns : List LaneFn := [.fadd, .fsub, .fmul, .fma, .fdiv, .fsqrt, .fmin, .fmax]

/-- An operation that computes as the functions do. -/
theorem arithmeticRounds {op : LaneFn → Nat → RMode → Nat → Nat → Nat → Nat → Nat × Nat}
    (hop : ∀ fn ∈ arithmeticFns, ∀ ty mode rb a b c, op fn ty mode rb a b c = fpCompute fn ty ty ty mode rb a b c) : ArithmeticRounds op := by
  intro row hrow mode rb a b c hrb
  obtain ⟨ty, eb, fb, bias, infs, top, nan⟩ := row
  have h := layout_of_mem hrow
  have hf : ∀ fn ∈ arithmeticFns, op fn ty mode rb a b c = fpCompute fn ty ty ty mode rb a b c := fun fn hfn => hop fn hfn ty mode rb a b c
  simp only [arithmeticFns, List.forall_mem_cons] at hf
  obtain ⟨hadd, hsub, hmul, hfma, hdiv, hsqrt, hmin, hmax, -⟩ := hf
  dsimp only
  simp only [hadd, hsub, hmul, hfma, hdiv, hsqrt, hmin, hmax]
  refine ⟨fun ha hb => ?_, fun ⟨hs, hn⟩ => ?_, fun hn fn hfn => ?_, h.sqrtNan mode rb a b c,
    fun hn => h.compute_nan (fpFma_nan (h.decoded a).proper (h.decoded b).proper hn), fun ⟨hs, hn⟩ ⟨hs', hn'⟩ => ?_,
    fun ⟨hs, hn⟩ hb => ?_, fun ha ⟨hs, hn⟩ => ?_, fun ha hb => ?_⟩
  · obtain ⟨s1, s2, s3, s4⟩ := h.sums mode rb a b c ha hb
    obtain ⟨q1, q2, q3, q4⟩ := h.quotients mode a b c hrb ha hb
    obtain ⟨r1, r2, r3⟩ := h.roots mode a b c hrb ha
    exact ⟨s1, s2, s3, s4, q1, q2, q3, q4, r1, r2, r3⟩
  · obtain ⟨n, ha⟩ := endless_cases hs hn
    rw [h.sqrtInf mode rb a b c ha, ha]
    rfl
  · rw [hop fn (by revert fn; decide), h.nanResults mode rb a b c hn fn hfn]
  · obtain ⟨n, ha⟩ := endless_cases hs hn
    obtain ⟨n', hb⟩ := endless_cases hs' hn'
    rw [ha, hb]
    exact (h.infResults mode rb a b c ha).1 n' hb
  · obtain ⟨n, ha⟩ := endless_cases hs hn
    have := (h.infResults mode rb a b c ha).2 hb
    rw [ha]
    exact this
  · obtain ⟨n, hb⟩ := endless_cases hs hn
    have := h.finiteInfResults mode rb a b c ha hb
    rw [hb]
    exact this
  · simp only [h.low_eq]
    exact h.minMaxResults mode rb a b c ha hb

end Sys2Proof.Machine

namespace Sys2Proof.Machine

/-- No number of a format lies above its exponent range. -/
theorem mag_lt_range {f : Fmt} (hf : f.Fits) {w : Nat} (hw : w ≤ f.top) : f.mag w < 2 ^ (f.bias + 2) := by
  have hb := hf.bias_ge
  obtain ⟨B, hB⟩ := Int.eq_ofNat_of_zero_le (a := f.bias) (by omega)
  have hr := hf.top_range
  rw [hB] at hr ⊢
  have hd := Nat.div_add_mod f.top (2 ^ f.fb)
  have hm := Nat.mod_lt f.top (Nat.two_pow_pos f.fb)
  have hlt : w < (2 * B + 1) * 2 ^ f.fb + 2 ^ f.fb := by
    have h1 : f.top / 2 ^ f.fb ≤ 2 * B + 1 := by exact_mod_cast hr
    have h2 := Nat.mul_le_mul_right (2 ^ f.fb) h1
    rw [Nat.mul_comm] at hd
    omega
  refine ((mag_strictMono f).lt_iff_lt.2 hlt).trans_le (le_of_eq ?_)
  rw [mag_at f (.inr (Nat.le_refl _)) (Nat.pow_le_pow_right (by decide) (Nat.le_succ _)), two_pow_cast, ← zpow_add₀ two_ne_zero, Fmt.unit,
    Fmt.emin, hB]
  congr 1
  push_cast
  ring

section
variable {ty eb fb : Nat} {infs : Bool} {top nan : Nat} (h : Layout ty eb fb infs top nan) (mode : RMode) {rb : Nat} (a b c : Nat)
include h

/-- Reciprocals. -/
theorem Layout.reciprocals (hrb : rb < 2 ^ 16) :
    let v := Machine.valueOf ty a
    let r := fpCompute .frcp ty ty ty mode rb a b c
    (v.rat ≠ 0 → RoundsTo (fmtOf ty) mode rb v.isNeg |1 / v.rat| r) ∧
    (∀ n, v = .zero n → infs = true → r = ((fmtOf ty).sign n + top + 1, DZ)) ∧
    (∀ n, v = .inf n → r = ((fmtOf ty).sign n, 0)) ∧
    (v.isNan = true → r = (nan, if v.isSnan then NV else 0)) := by
  intro v r
  have hp := (h.decoded a).proper
  refine ⟨fun h0 => ?_, fun n hv hi => ?_, fun n hv => ?_, fun hn => ?_⟩
  · cases hv : Machine.valueOf ty a with
    | zero | inf | nan => exact absurd (congrArg FVal.rat hv) h0
    | num n m e =>
      rw [hv] at hp
      have hr : r = roundNum (fmtOf ty) mode rb n (quotient 1 m).1 (0 - e + (quotient 1 m).2) := by
        refine (compute_value (v := .num (false != n) (quotient 1 m).1 (0 - e + (quotient 1 m).2)) (by rw [hv]; rfl)).trans ?_
        rw [h.convertTo_num, Bool.false_bne]
      rw [hr, show v = _ from hv, abs_div, rat_num_abs]
      have := quotient_roundsTo (f := fmtOf ty) (mode := mode) (neg := n) h.fits hrb Nat.one_pos hp 0 e
      rwa [scaled, Nat.cast_one, zpow_zero, one_mul, ← abs_one] at this
  · exact h.compute_inf hi (by rw [show Machine.valueOf ty a = _ from hv]; exact congrArg (fun b => (FVal.inf b, DZ)) (Bool.false_bne n))
  · refine (compute_value (v := .zero (false != n)) (by rw [show Machine.valueOf ty a = _ from hv]; rfl)).trans ?_
    rw [h.convertTo_zero, Bool.false_bne]
  · refine h.compute_nan ?_
    show fpDiv (.num false 1 0) v = _
    rw [fpDiv_nan (.inr hn), nanFlags_pair]
    rfl

/-- Reciprocal roots. -/
theorem Layout.reciprocalRoots (hrb : rb < 2 ^ 16) :
    let v := Machine.valueOf ty a
    let r := fpCompute .frsq ty ty ty mode rb a b c
    (0 < v.rat → RootRounds (fmtOf ty) mode rb (fun z => z ^ 2 * v.rat) r) ∧
    (∀ n, v = .zero n → infs = true → r = ((fmtOf ty).sign n + top + 1, DZ)) ∧
    (∀ n, v = .inf n → r = if n then (nan, NV) else (0, 0)) ∧
    (v.rat < 0 → r = (nan, NV)) ∧
    (v.isNan = true → r = (nan, if v.isSnan then NV else 0)) := by
  intro v r
  have hd := h.decoded a
  refine ⟨fun h0 => ?_, fun n hv hi => h.compute_inf hi (by rw [show Machine.valueOf ty a = _ from hv]; rfl), fun n hv => ?_,
    fun h0 => ?_, fun hn => ?_⟩
  · cases hv : Machine.valueOf ty a with
    | zero | inf | nan => exact absurd (congrArg FVal.rat hv) h0.ne'
    | num n m e =>
      rw [show v = _ from hv] at h0 ⊢
      obtain rfl := rat_pos h0
      rw [hv] at hd
      cases hd with | num _ _ w _ hm _ hw hmag _ =>
        obtain ⟨i, k, hi, hr⟩ := fpRsq_rounds (mode := mode) h.fits hrb hm (hmag ▸ mag_lt_range h.fits hw)
        have e1 : r = roundNum (fmtOf ty) mode rb false i k := by
          refine (compute_value (v := .num false i k) (by rw [hv]; exact hi)).trans ?_
          rw [h.convertTo_num]
        rw [e1, show FVal.rat (.num false m e) = scaled m e by simp [FVal.rat, scaled]]
        exact hr
  · cases n with
    | true => exact h.compute_nan (by rw [show Machine.valueOf ty a = _ from hv]; rfl)
    | false =>
      refine (compute_value (v := .zero false) (by rw [show Machine.valueOf ty a = _ from hv]; rfl)).trans ?_
      rw [h.convertTo_zero]
      rfl
  · cases hv : Machine.valueOf ty a with
    | zero | inf | nan => exact absurd (congrArg FVal.rat hv) h0.ne
    | num n m e =>
      rw [hv] at hd
      rw [show v = _ from hv] at h0
      have hn := rat_num_neg (n := n) hd.proper e
      rw [decide_eq_true h0] at hn
      subst hn
      exact h.compute_nan (by rw [hv]; rfl)
  · obtain ⟨q, hq⟩ := isNan_cases hn
    rw [← nanFlags_one, show v = _ from hq]
    exact h.compute_nan (by rw [show Machine.valueOf ty a = _ from hq]; rfl)

end

end Sys2Proof.Machine

namespace Sys2Proof.Machine

/-! ### The exponential, the logarithm, the sine and the cosine at their special operands (R283) -/

theorem layout_fp32 : Layout 13 8 23 true 0x7F7FFFFF 0x7FC00000 := layout_of_mem (bias := 127) (by decide)

section
variable (mode : RMode) (rb a b c : Nat)

theorem convertTo_fp32_one : convertTo 13 mode rb (.num false 1 0) = (0x3F800000, 0) := by
  rw [layout_fp32.convertTo_num]
  have hmag : (fmtOf 13).mag 0x3F800000 = scaled 1 0 := by
    have hm := mag_normal (fmtOf 13) 126 (t := 2 ^ 23) (by decide) (by decide)
    rw [two_pow_cast, ← zpow_add₀ two_ne_zero] at hm
    rw [scaled, Nat.cast_one, one_mul]
    exact hm
  exact (roundNum_roundsTo layout_fp32.fits Nat.one_pos).1 _ (by decide) hmag

/-- The logarithm of 1 is an exact zero. -/
theorem fpLog_one {m : Nat} {e : Int} (hm : 0 < m) (h : scaled m e = 1) : fpLog (.num false m e) = (.zero false, 0) := by
  obtain ⟨h1, h2⟩ := expOf_spec hm e
  rw [h] at h1 h2
  have hk : (Nat.log2 m : Int) + e = 0 := by
    have a1 : expOf m e ≤ 0 := (zpow_le_zpow_iff_right₀ (by norm_num : (1 : ℚ) < 2)).1 (h1.trans_eq (zpow_zero 2).symm)
    have a2 : 0 < expOf m e + 1 := (zpow_lt_zpow_iff_right₀ (by norm_num : (1 : ℚ) < 2)).1 ((zpow_zero 2).trans_lt h2)
    have : expOf m e = 0 := by omega
    exact this
  have hpow : m = 2 ^ Nat.log2 m := by
    have e1 : scaled (2 ^ Nat.log2 m) e = 1 := by rw [scaled_two_pow, hk, zpow_zero]
    exact (scaled_inj e).1 (h.trans e1.symm)
  unfold fpLog
  dsimp only
  rw [if_pos]
  refine ⟨hk, ?_⟩
  conv_lhs => rw [hpow, Nat.log2_two_pow]
  rw [← hpow]
  exact Nat.mul_div_cancel_left _ hm

end

/-- The functions that `SingleResults` speaks of. -/
def singleFns : List LaneFn := [.frcp, .frsq, .fexp, .flog, .fsin, .fcos]

/-- An operation that computes as the functions of one operand do. -/
theorem singleResults {op : LaneFn → Nat → RMode → Nat → Nat → Nat × Nat}
    (hop : ∀ fn ∈ singleFns, ∀ ty mode rb a, op fn ty mode rb a = fpCompute fn ty ty ty mode rb a 0 0) : SingleResults op := by
  refine ⟨fun row hrow mode rb a hrb => ?_, fun mode rb a hrb => ?_⟩
  · obtain ⟨ty, eb, fb, bias, infs, top, nan⟩ := row
    have h := layout_of_mem hrow
    dsimp only
    rw [hop .frcp (by decide), hop .frsq (by decide)]
    obtain ⟨p1, p2, p3, p4⟩ := h.reciprocals mode a 0 0 hrb
    obtain ⟨q1, q2, q3, q4, q5⟩ := h.reciprocalRoots mode a 0 0 hrb
    refine ⟨p1, q1, fun n hv hi => ⟨p2 n hv hi, q2 n hv hi⟩, fun n hv => ⟨p3 n hv, q3 n hv⟩, q4, fun hn fn hfn => ?_⟩
    rw [hop fn (by revert fn; decide)]
    revert fn
    simp only [List.forall_mem_cons]
    exact ⟨p4 hn, q5 hn, List.forall_mem_nil _⟩
  · have h := layout_fp32
    have hd := h.decoded a
    dsimp only
    rw [hop .fexp (by decide), hop .flog (by decide), hop .fsin (by decide), hop .fcos (by decide)]
    refine ⟨fun n hv => ⟨?_, ?_, ?_, ?_⟩, fun h1 => ?_, fun h0 => ?_, fun n hv => ⟨?_, ?_, ?_, ?_⟩, fun hn fn hfn => ?_⟩
    · exact (compute_value (v := .num false 1 0) (by rw [hv]; rfl)).trans (convertTo_fp32_one mode rb)
    · exact h.compute_inf (n := true) rfl (by rw [hv]; rfl)
    · refine (compute_value (v := .zero n) (by rw [hv]; rfl)).trans ?_
      rw [h.convertTo_zero]
      rfl
    · exact (compute_value (v := .num false 1 0) (by rw [hv]; rfl)).trans (convertTo_fp32_one mode rb)
    · cases hv : valueOf 13 a with
      | zero | inf | nan =>
        rw [hv] at h1
        exact absurd h1 zero_ne_one
      | num n m e =>
        rw [hv] at hd h1
        obtain rfl := rat_pos (h1 ▸ zero_lt_one)
        refine (compute_value (v := .zero false) (by
          rw [hv]
          exact fpLog_one hd.proper (by rw [← rat_num_abs false, h1, abs_one]))).trans ?_
        rw [h.convertTo_zero]
        rfl
    · cases hv : valueOf 13 a with
      | zero | inf | nan =>
        rw [hv] at h0
        exact absurd h0 (lt_irrefl _)
      | num n m e =>
        rw [hv] at hd h0
        have hn := rat_num_neg (n := n) hd.proper e
        rw [decide_eq_true h0] at hn
        subst hn
        exact h.compute_nan (by rw [hv]; rfl)
    · cases n with
      | true =>
        refine (compute_value (v := .zero false) (by rw [hv]; rfl)).trans ?_
        rw [h.convertTo_zero]
        rfl
      | false => exact h.compute_inf (n := false) rfl (by rw [hv]; rfl)
    · cases n with
      | true => exact h.compute_nan (by rw [hv]; rfl)
      | false => exact h.compute_inf (n := false) rfl (by rw [hv]; rfl)
    · exact h.compute_nan (by rw [hv]; rfl)
    · exact h.compute_nan (by rw [hv]; rfl)
    · obtain ⟨q, hq⟩ := isNan_cases hn
      rw [hop fn (by revert fn; decide), ← nanFlags_one, hq]
      refine h.compute_nan ?_
      rw [hq]
      revert fn
      simp only [List.forall_mem_cons]
      exact ⟨rfl, rfl, rfl, rfl, List.forall_mem_nil _⟩

end Sys2Proof.Machine

namespace Sys2Proof.Machine

/-! ## Floating lane instructions (R72, R74, R75, R283, R284) -/

/-! ### A row of the floating group -/

section
variable {s : State} {i : Instr}

/-- The operation of a row of the floating group on type `t`. -/
def laneOpOf (fn : LaneFn) (code t : Nat) (d a : VReg) (b : Src) : LaneOp :=
  ⟨fn, t, t, t, if t = 14 then code + 16 else code, .reg a.toNat, b, if fn = .fma then .reg d.toNat else .none, d.toNat⟩

/-- A floating lane instruction with function `fn` of number `code`; `rounds` says whether it consumes a RIC value under SR. -/
structure IsFloatLane (s : State) (i : Instr) (fn : LaneFn) (code : Nat) (rounds : Bool) (d a : VReg) (b : Src) (m : MReg) :
    Prop where
  atOnce : AtOnce i
  takes : TakesElements s (entryOf s i)
  runs : ∀ t, vexec s.here s.me (entryOf s i) t = floatLane s.here s.me (entryOf s i) fn code d a b m t
  ric : ∀ h vtype fpctl, consumesRic h i vtype fpctl = (rounds && wbits fpctl 0 3 == 5)
  computes : ∀ ty mode rb p q c, laneCompute fn ty ty ty none mode rb p q c = fpCompute fn ty ty ty mode rb p q c
  code : code ≤ 13

variable {fn : LaneFn} {code : Nat} {rounds : Bool} {d a : VReg} {b : Src} {m : MReg}

/-- The types on which a function of the floating group is legal (R283, R284). -/
def floatAccepts (code ty : Nat) : Prop := ty ∈ floatTypes ∧ (10 ≤ code → ty = 13)

/-- The run of a floating lane instruction on the registers of a hart. -/
def floatRun (x : Hart) (fn : LaneFn) (d a : VReg) (b : Src) : LaneRun :=
  ⟨fn, x.ty, x.ty, x.ty, operandOf x x.ty (.reg a.toNat), operandOf x x.ty b,
    operandOf x x.ty (if fn = .fma then .reg d.toNat else .none)⟩

theorem IsFloatLane.vexec_eq (hi : IsFloatLane s i fn code rounds d a b m) (hsc : s.hart.vec.vtype.getLsbD 4 = false)
    (hty : floatAccepts code s.hart.ty) (t : State) :
    vexec s.here s.me (entryOf s i) t =
      elementwise s.here s.me (entryOf s i) (laneOpOf fn code s.hart.ty d a b) m.toNat t := by
  obtain ⟨hin, hfp32⟩ := hty
  have hs : (entryOf s i).scaled = false := hi.takes.scaled.trans hsc
  have hc : floatTypes.contains s.hart.ty = true := List.contains_iff_mem.2 hin
  have h13 : (decide (10 ≤ code) && decide (code ≤ 13) && s.hart.ty != 13) = false := by
    by_cases hcode : 10 ≤ code
    · simp [hfp32 hcode]
    · simp [hcode]
  rw [hi.runs, floatLane]
  simp only [hi.takes.ty, hs, hc, h13, Bool.not_true, Bool.or_self, Bool.false_eq_true, if_false]
  rfl

theorem IsFloatLane.consumes (hi : IsFloatLane s i fn code rounds d a b m) :
    consumesHere s i = (bits s.hart.fp.ctl.toNat 0 3 == 5 && rounds) := by
  have hlt : s.hart.fp.ctl.toNat < 2 ^ 64 := s.hart.fp.ctl.isLt.trans_le (Nat.pow_le_pow_right (by decide) (by decide))
  have hf : (captureFor s i).fpctl = word s.hart.fp.ctl.toNat := hi.takes.fpctl
  rw [consumesHere, hi.ric, hf, wbits, word, BitVec.toNat_ofNat, Nat.mod_eq_of_lt hlt, Bool.and_comm]

theorem operandOf_behind (s : State) (i : Instr) (viq : List VEntry) (ty : Nat) (b : Src) (e : Nat) :
    operandOf (behind s i viq) ty b e = operandOf s.hart ty b e := by
  cases b <;> rfl

/-- Whether the lanes compute an element of a run. -/
def LaneRun.soft (r : LaneRun) (x : Hart) (e : Nat) : Bool :=
  easyElement r.fn r.sty r.sty2 r.dty (rmodeOf (bits x.fp.ctl.toNat 0 3)) (randomBits x.fp.seed x.fp.ric e) (r.p e) (r.q e) (r.c e)

theorem LaneRun.easy_iff (r : LaneRun) (x : Hart) (m : MReg) :
    r.Easy x m ↔ (r.sty = 13 ∨ r.sty = 14 → ∀ e ∈ x.active m, r.soft x e = true) := Iff.rfl

/-- The hole of an element that the lanes do not compute. -/
def hardHole (s : State) (i : Instr) (op : LaneOp) (r : LaneRun) (e : Nat) : LEntry :=
  newEntry s.here s.me (entryOf s i) (dispatchedState s i) op e (r.p e) (r.q e) (r.c e) [] none

theorem laneOpOf_cls_ne (hc : code ≤ 13) (t : Nat) : ((laneOpOf fn code t d a b).cls != 63) = true := by
  have h : (if t = 14 then code + 16 else code) ≠ 63 := by split <;> omega
  exact bne_iff_ne.2 h

/-- An element of a floating lane instruction of a hart without holes: the rounded value, or a hole where the type has hard
elements and this one is hard. -/
theorem IsFloatLane.laneElem_eq (hi : IsFloatLane s i fn code rounds d a b m)
    (he : ((dispatchedState s i).core s.here).land.entries = []) (e : Nat) :
    laneElem s.here s.me (entryOf s i) (laneOpOf fn code s.hart.ty d a b) none (dispatchedState s i) e =
      let r := floatRun s.hart fn d a b
      if hardType s.hart.ty && !r.soft s.hart e then
        ⟨e, .hole (hardHole s i (laneOpOf fn code s.hart.ty d a b) r e), 0⟩
      else ⟨e, .val (r.elem s.hart e).1, (r.elem s.hart e).2⟩ := by
  have hc := laneOpOf_cls_ne (fn := fn) (d := d) (a := a) (b := b) hi.code s.hart.ty
  have hv : laneCompute fn s.hart.ty s.hart.ty s.hart.ty none (rmodeOf (bits s.hart.fp.ctl.toNat 0 3))
      (randomBits s.hart.fp.seed s.hart.fp.ric e) (operandOf s.hart s.hart.ty (.reg a.toNat) e) (operandOf s.hart s.hart.ty b e)
      (operandOf s.hart s.hart.ty (if fn = .fma then .reg d.toNat else .none) e) = (floatRun s.hart fn d a b).elem s.hart e :=
    hi.computes _ _ _ _ _ _
  unfold laneElem laneOpOf at *
  simp only [srcElem_empty he, hart_dispatched, operandOf_behind, hi.takes.mode, hi.takes.random, List.append_nil,
    List.isEmpty_nil, Bool.not_true, Bool.false_eq_true, if_false, hc, Bool.and_true]
  rw [hv]
  change (if hardType s.hart.ty = true then if (floatRun s.hart fn d a b).soft s.hart e = true then _ else _ else _) = _
  cases hardType s.hart.ty <;> cases (floatRun s.hart fn d a b).soft s.hart e <;> rfl

/-- Every element that the lanes compute takes its value, with its flags. -/
theorem IsFloatLane.laneElem_soft (hi : IsFloatLane s i fn code rounds d a b m)
    (he : ((dispatchedState s i).core s.here).land.entries = []) {e : Nat}
    (hs : hardType s.hart.ty = true → (floatRun s.hart fn d a b).soft s.hart e = true) :
    laneElem s.here s.me (entryOf s i) (laneOpOf fn code s.hart.ty d a b) none (dispatchedState s i) e =
      ⟨e, .val ((floatRun s.hart fn d a b).elem s.hart e).1, ((floatRun s.hart fn d a b).elem s.hart e).2⟩ := by
  rw [hi.laneElem_eq he]
  dsimp only
  rw [if_neg]
  cases hh : hardType s.hart.ty
  · simp
  · simp [hs hh]

theorem hardType_iff (ty : Nat) : hardType ty = true ↔ ty = 13 ∨ ty = 14 := by simp [hardType]

/-- A floating lane instruction whose active elements the lanes all compute. -/
theorem IsFloatLane.completes (hi : IsFloatLane s i fn code rounds d a b m) (h : VectorReady s)
    (hsc : s.hart.vec.vtype.getLsbD 4 = false) (hty : floatAccepts code s.hart.ty)
    (hs : (floatRun s.hart fn d a b).Easy s.hart m) :
    Completes i ((floatRun s.hart fn d a b).hart s.hart d.toNat m) 4 ((floatRun s.hart fn d a b).flags s.hart m)
      (bits s.hart.fp.ctl.toNat 0 3 == 5 && rounds) s := by
  have hl : (captureFor s i).vl = s.hart.vec.vl := hi.takes.vl
  have hd := lane_done (op := laneOpOf fn code s.hart.ty d a b) (d := d) (mk := m.toNat)
    (w := fun e => (floatRun s.hart fn d a b).elem s.hart e) h (hi.atOnce.registerOnly s) rfl
    (hi.vexec_eq hsc hty (dispatchedState s i)) (by
      rw [hl]
      intro e he
      exact hi.laneElem_soft (entries_dispatched h i) fun hh => hs ((hardType_iff _).1 hh) e he)
  rw [hl, hi.consumes, hi.atOnce.length, ← hi.atOnce.exec] at hd
  exact hd

end

/-! ### The rows -/

theorem floatRun_eq (x : Hart) (fn : LaneFn) (d a : VReg) (b : Src) : floatRun x fn d a b =
    ⟨fn, x.ty, x.ty, x.ty, elemOf (x.getV a.toNat) (typeBits x.ty), operandOf x x.ty b,
      fun e => if fn = .fma then elemOf (x.getV d.toNat) (typeBits x.ty) e else 0⟩ := by
  unfold floatRun
  congr 1
  funext e
  split <;> rfl

/-- A row of two operands: its two forms are floating lane instructions of one function and number. -/
structure IsFloatPair (s : State) (d a b : VReg) (x : XReg) (m : MReg) (row : Instr × Instr × LaneFn) (code : Nat) : Prop where
  vector : IsFloatLane s row.1 row.2.2 code (row.2.2 != .fmin && row.2.2 != .fmax) d a (.reg b.toNat) m
  scalar : IsFloatLane s row.2.1 row.2.2 code (row.2.2 != .fmin && row.2.2 != .fmax) d a (.scalar (s.hart.getX x.toNat)) m
  low : code ≤ 6

theorem floatPairs_rows {s : State} (hvl : s.hart.VlFits) (d a b : VReg) (x : XReg) (m : MReg) :
    ∀ row ∈ (floatPairs d a b x m).zipIdx, IsFloatPair s d a b x m row.1 row.2 := by
  simp only [floatPairs, List.zipIdx_cons, List.zipIdx_nil, List.forall_mem_cons, List.not_mem_nil, false_implies, implies_true, and_true]
  refine ⟨?_, ?_, ?_, ?_, ?_, ?_, ?_⟩
  all_goals
    refine ⟨?_, ?_, by decide⟩ <;>
      exact ⟨⟨fun _ => ⟨nofun, fun _ => rfl, rfl, rfl⟩, rfl, fun _ => rfl⟩, ⟨vl_fits hvl, rfl, rfl, rfl, rfl⟩, fun _ => rfl,
        fun _ _ _ => rfl, fun _ _ _ _ _ _ => rfl, by decide⟩

theorem floatSingles_facts (d a : VReg) (m : MReg) : ∀ row ∈ (floatSingles d a m).zipIdx,
    row.1.2.1 ≠ .fma ∧ (10 ≤ row.2 + 7 → row.1.2.2 = true) := by
  simp [floatSingles]

theorem floatSingles_rows {s : State} (hvl : s.hart.VlFits) (d a : VReg) (m : MReg) :
    ∀ row ∈ (floatSingles d a m).zipIdx, IsFloatLane s row.1.1 row.1.2.1 (row.2 + 7) true d a .none m := by
  simp only [floatSingles, List.zipIdx_cons, List.zipIdx_nil, List.forall_mem_cons, List.not_mem_nil, false_implies, implies_true, and_true]
  refine ⟨?_, ?_, ?_, ?_, ?_, ?_, ?_⟩
  all_goals
    exact ⟨⟨fun _ => ⟨nofun, fun _ => rfl, rfl, rfl⟩, rfl, fun _ => rfl⟩, ⟨vl_fits hvl, rfl, rfl, rfl, rfl⟩, fun _ => rfl,
      fun _ _ _ => rfl, fun _ _ _ _ _ _ => rfl, by decide⟩

theorem exists_zipIdx_of_mem {l : List α} {x : α} (h : x ∈ l) : ∃ k, (x, k) ∈ l.zipIdx := by
  obtain ⟨k, hk, rfl⟩ := List.getElem_of_mem h
  exact ⟨k, by simp [List.mem_zipIdx_iff_getElem?, hk]⟩

end Sys2Proof.Machine

namespace Sys2Proof.Machine

/-! ### A vector instruction of a hart whose core has holes in flight -/

/-- Entries of the Landing whose destination rows are current, and none of which is poisoned. -/
def Standing (l : AMap LEntry) : Prop := ∀ x ∈ l, x.2.live ≠ 0 ∧ x.2.bad = false

/-- A vector instruction of the hart runs at once, with no instruction of the hart in flight; its core may have holes. -/
structure Still (s : State) : Prop where
  user : isFerry s.me = false
  viq : s.hart.vec.viq = []
  held : s.hart.vec.held = []
  stq : s.hart.ms.stq = []
  lag : s.hart.vec.lag = false
  streams : s.hart.ms.streams = []
  loop : s.hart.lp.loop = none
  breakpoints : (s.core s.here).dbg.breakpoints = []
  landing : Standing (s.core s.here).land.entries

theorem VectorReady.still {s : State} (h : VectorReady s) : Still s :=
  ⟨h.user, h.viq, h.held, h.stq, h.lag, h.streams, h.loop, h.breakpoints, by simp [Standing, h.landing]⟩

section
variable {s : State} {i : Instr}

theorem Still.settled (h : Still s) (xs ks : List Nat) : Settled xs ks s := by
  simp [Settled, Hart.pendingX, Hart.returnDue, Hart.atomicDue, Hart.pendingK, h.viq, h.held, h.stq]

theorem Still.dispatchVector_eq (h : Still s) (hi : RegisterOnly s i) :
    dispatchVector i s = .ok () (s.setHart (behind s i [{ captureFor s i with binds := [], strips := [] }])) := by
  have hroom : s.hart.viqRoom = true := by
    unfold Hart.viqRoom
    rw [h.viq]
    split <;> decide
  have hres : s.hart.reserved = 0 := by simp [Hart.reserved, h.viq, h.held]
  have hp := pinAtDispatch_none (x := s.hart) (s := s) (v := { captureFor s i with binds := [], strips := [] })
    (captureFor_fresh s i).pins hi.spans
  unfold dispatchVector
  simp only [noFerry_user i h.user, awaitRegs_settled (h.settled (usesOf i).xs []), bind_ok, hroom, hres,
    bindsOf_nil h.streams i, claimsFor_nil, hp, hi.crew]
  simp [Config.returnQueue, h.viq, behind, Hart.front, consumesHere]
  rfl

theorem land_dispatchedState (s : State) (i : Instr) :
    ((dispatchedState s i).core s.here).land = { (s.core s.here).land with seq := (s.core s.here).land.seq + 1 } := by
  unfold dispatchedState State.modHart State.setHart State.setHartAt
  simp only [modCore_here, core_setCore_same, Core.setHart, core_modCore_same]

/-- The head of the VIQ behind the dispatch and the tag of an instruction. -/
theorem setHead_tagged (s : State) (i : Instr) (v w : VEntry) :
    setHead s.here s.me w ((s.setHart (behind s i [v])).modCore s.here fun k =>
      { k with land := { k.land with seq := k.land.seq + 1 } }) =
      (s.modCore s.here fun k => { k with land := { k.land with seq := k.land.seq + 1 } }).modHart fun _ => behind s i [w] := by
  rw [← tag_dispatched s i (behind s i [v]) w]
  have e : ((s.setHart (behind s i [v])).modCore s.here fun k =>
      { k with land := { k.land with seq := k.land.seq + 1 } }).hartAt s.here s.me = behind s i [v] := by
    unfold State.hartAt
    rw [core_modCore_same]
    exact hart_setHart s _
  unfold setHead State.modHartAt
  rw [e]
  rfl

theorem Still.takeRow_ok (h : Still s) (i : Instr) :
    takeRow s.here s.me (entryOf s i) (dispatchedState s i) = .ok () (dispatchedState s i) := by
  have e : oldRows ((dispatchedState s i).core s.here) s.me = 0 := by
    have hl : ∀ x ∈ ((dispatchedState s i).core s.here).entries, (x.2.live == 0) = false := fun x hx => by
      rw [Core.entries, land_dispatchedState] at hx
      exact beq_eq_false_iff_ne.2 (h.landing x hx).1
    have hn : ∀ p q : Nat × LEntry → Bool,
        (((dispatchedState s i).core s.here).entries.filter p).filter (fun x => x.2.live == 0 && q x) = [] := fun p q =>
      List.filter_eq_nil_iff.2 fun x hx => by rw [hl x (List.mem_filter.1 hx).1]; exact Bool.false_ne_true
    simp only [oldRows, hn]
    rfl
  unfold takeRow
  rw [if_pos]
  simp [e, Config.spareRows]

/-- The attempt at a dispatched instruction that executes to its end is its execution. -/
theorem Still.attempt_done (h : Still s) {f : Nat} {u : State}
    (hx : vexec s.here s.me (entryOf s i) (dispatchedState s i) = .ok (.done f) u) :
    attempt s.here s.me (entryOf s i) (dispatchedState s i) = .ok (.done f) u := by
  have hf := captureFor_fresh s i
  have hheld : ((dispatchedState s i).hartAt s.here s.me).vec.held = [] := by
    rw [hart_dispatched]
    exact h.held
  have e : vexecFrom s.here s.me (entryOf s i) (dispatchedState s i) = .ok (.done f) u := by
    unfold vexecFrom
    rw [show (entryOf s i).old = none from hf.old]
    exact hx
  unfold attempt
  rw [awaitCrew_open hheld, bind_ok, h.takeRow_ok, bind_ok,
    if_pos (show (entryOf s i).strips.isEmpty = true from rfl), e]

/-- A vector instruction that executes to its end, with flags `f`: it leaves the VIQ, and counts. -/
theorem Still.issueVector_done (h : Still s) (hi : RegisterOnly s i) {f : Nat} {u : State}
    (hx : vexec s.here s.me (entryOf s i) (dispatchedState s i) = .ok (.done f) u) :
    issueVector i s = .next (sweep s.here (drain s.here s.me
      ((orFlags s.here s.me f (dropHead s.here s.me u)).modHartAt s.here s.me Hart.count))) := by
  have hf := captureFor_fresh s i
  let v : VEntry := { captureFor s i with binds := [], strips := [] }
  have e0 : (s.setHart (behind s i [v])).hartAt s.here s.me = behind s i [v] := hart_setHart s _
  have hbp : ((s.setHart (behind s i [v])).core s.here).dbg.breakpoints = [] := by
    unfold State.setHart State.setHartAt
    rw [core_setCore_same]
    exact h.breakpoints
  have hseq : ((s.setHart (behind s i [v])).core s.here).land.seq = (s.core s.here).land.seq := by
    unfold State.setHart State.setHartAt
    rw [core_setCore_same]
    rfl
  have hstep : stepEntry s.here s.me none v (s.setHart (behind s i [v])) = .next (sweep s.here (drain s.here s.me
      ((orFlags s.here s.me f (dropHead s.here s.me u)).modHartAt s.here s.me Hart.count))) := by
    rw [stepEntry_fresh (v := v) (w := entryOf s i) (t := dispatchedState s i) hf.seq
      (by rw [hseq]; rfl) (setHead_tagged s i v _) rfl hf.limit, h.attempt_done hx]
    unfold sampleVector
    rw [hi.stride]
  unfold issueVector
  rw [h.dispatchVector_eq hi]
  simp only [hart_setHart]
  rw [show (behind s i [v]).vec.lag = false from h.lag, show (behind s i [v]).vec.viq = [v] from rfl]
  simp only [List.length_singleton, Nat.lt_irrefl, decide_false, Bool.or_false, Bool.false_eq_true, if_false,
    setHart_here, setHart_me]
  rw [stepVector_entry (v := v) (rest := []) (by rw [e0]; rfl) hbp (fun a n he => hi.notLoop a n (hf.instr.symm.trans he)), hstep]

theorem Still.noOldRow (h : Still s) (i : Instr) : NoOldRow ((dispatchedState s i).hartAt s.here s.me) := by
  rw [hart_dispatched]
  intro v hv
  simp only [Hart.allEntries, behind, Hart.front, h.held, h.loop, List.nil_append, List.append_nil, List.mem_singleton] at hv
  rw [hv]
  exact (captureFor_fresh s i).old

end

end Sys2Proof.Machine

namespace Sys2Proof.Machine

/-! ### What a vector instruction with holes leaves (R54, R78, R81, R82) -/

/-- A hart but for what it notes beside its registers: how far they were written, and the hole that DEFERRED reported last. -/
def Hart.unnoted (x : Hart) : Hart :=
  { x with vec := { x.vec with written := [] }, hole := { x.hole with reported := none } }

theorem unnoted_forget (k : Core) (h : Nat) : (k.forget.hart h).unnoted = (k.hart h).unnoted := by
  unfold Core.forget Core.hart
  rw [lookupD_mapValues _ _ _ _ rfl]
  generalize lookupD k.harts h Hart.reset = x
  dsimp only
  split
  · split <;> rfl
  · rfl

/-- From `s` to `t` hart `h` of core `c` becomes `x`, but for what it notes beside its registers, and the entries of the core
become `l`; memory stays. -/
structure Leaves (c h : Nat) (l : AMap LEntry) (x : Hart) (s t : State) : Prop where
  entries : (t.core c).land.entries = l
  seq : (t.core c).land.seq = (s.core c).land.seq
  hart : (t.hartAt c h).unnoted = x.unnoted
  here : t.here = s.here
  me : t.me = s.me
  mem : t.mem = s.mem

theorem mapValues_fixed {α : Type} {f : Nat → α → α} {l : AMap α} (hf : ∀ e ∈ l, f e.1 e.2 = e.2) : mapValues f l = l := by
  refine (List.map_congr_left fun e he => ?_).trans (List.map_id l)
  rw [hf e he]
  rfl

theorem setElems_unnoted (w : List (Nat × Nat)) (x : Hart) (r n : Nat) :
    (x.setElems r n w).unnoted = (x.unnoted.setElems r n w).unnoted := by
  have h : ∀ x y : Hart, x.unnoted = y.unnoted → (x.setElems r n w).unnoted = (y.setElems r n w).unnoted := by
    unfold Hart.setElems
    induction w with
    | nil => exact fun x y e => e
    | cons p w ih =>
      intro x y e
      rw [List.foldl_cons, List.foldl_cons]
      refine ih _ _ ?_
      have hs : ∀ z : Hart, (z.setElem r n p.1 p.2).unnoted = (z.unnoted.setElem r n p.1 p.2).unnoted := fun _ => rfl
      rw [hs x, hs y, e]
  exact h x x.unnoted rfl

section
variable {c h : Nat} {l : AMap LEntry} {x : Hart} {s t : State}

theorem Leaves.refl (c h : Nat) (s : State) : Leaves c h (s.core c).land.entries (s.hartAt c h) s s :=
  ⟨rfl, rfl, rfl, rfl, rfl, rfl⟩

theorem Leaves.congr {l' : AMap LEntry} (a : Leaves c h l x s t) (e : l = l') : Leaves c h l' x s t := e ▸ a

theorem Leaves.modHartAt (a : Leaves c h l x s t) {f : Hart → Hart} (hf : ∀ y : Hart, (f y).unnoted = (f y.unnoted).unnoted) :
    Leaves c h l (f x) s (t.modHartAt c h f) where
  entries := (entries_modHartAt t c h f).trans a.entries
  seq := by
    unfold State.modHartAt State.setHartAt
    rw [core_setCore_same]
    exact a.seq
  hart := by rw [hartAt_modHartAt_same, hf, a.hart, ← hf]
  here := a.here
  me := a.me
  mem := a.mem

/-- Notes beside the registers of a hart change nothing else. -/
theorem Leaves.note (a : Leaves c h l x s t) {f : Hart → Hart} (hf : ∀ y : Hart, (f y).unnoted = y.unnoted) :
    Leaves c h l x s (t.modHartAt c h f) := by
  have b := a.modHartAt (f := f) fun y => by rw [hf, hf]; rfl
  exact ⟨b.entries, b.seq, b.hart.trans (hf x), b.here, b.me, b.mem⟩

theorem Leaves.setEntries (a : Leaves c h l x s t) (g : Core → AMap LEntry) :
    Leaves c h (g (t.core c)) x s (t.modCore c fun k => k.setEntries (g k)) where
  entries := by rw [core_modCore_same]; rfl
  seq := by rw [core_modCore_same]; exact a.seq
  hart := by rw [hartAt_setEntries]; exact a.hart
  here := a.here
  me := a.me
  mem := a.mem

theorem freeEntry_congr {k k' : Core} (e : k.land.entries = k'.land.entries) (h : Nat) : freeEntry k h = freeEntry k' h := by
  unfold freeEntry entryCount sharedUsed entryCount Core.entries
  rw [e]

theorem Leaves.takeEntry (a : Leaves c h l x s t) {n : Nat} (hn : freeEntry (t.core c) h = some n) (row : BitVec 6)
    (e : LEntry) : Leaves c h (insert l n { e with row := row }) x s (takeEntry c h row e t) := by
  have b := (a.setEntries fun k => insert k.entries n { e with row := row }).note
    (f := fun y => y.noteWritten e.reg.toNat (ceilDiv (e.first + e.width) 8)) fun _ => rfl
  unfold Machine.takeEntry
  rw [hn]
  rw [Core.entries, a.entries] at b
  exact b

/-- Under DET an entry notes what is written over its element; nothing is written over the element of a hole that stays. -/
theorem Leaves.repair (a : Leaves c h l x s t) (hl : Standing l) {r n : Nat} {w : List (Nat × Nat)}
    (hw : ∀ e ∈ l, e.2.hart.toNat = h → e.2.reg.toNat = r → ∀ p ∈ w, p.1 ≠ e.2.index.toNat) :
    Leaves c h l x s (repair c h r n w t) := by
  have hall : ((t.core c).entries.all fun e => !e.2.bad) = true := by
    rw [Core.entries, a.entries, List.all_eq_true]
    intro e he
    simp [(hl e he).2]
  unfold Machine.repair
  rw [if_pos hall]
  unfold noteOver
  split
  · exact a
  · refine (a.setEntries _).congr ?_
    rw [Core.entries, a.entries]
    refine mapValues_fixed fun e he => ?_
    split
    next hm =>
      simp only [Bool.and_eq_true, beq_iff_eq] at hm
      have hn : w.find? (fun p => p.1 == e.2.index.toNat) = none :=
        List.find?_eq_none.2 fun p hp => by
          simpa using hw e he hm.1.1.1.1 hm.1.1.1.2 p hp
      rw [hn]
    next => rfl

theorem Leaves.settlePoison (a : Leaves c h l x s t) (hl : Standing l) : Leaves c h l x s (settlePoison c t) := by
  have hall : ((t.core c).entries.all fun e => !e.2.bad) = true := by
    rw [Core.entries, a.entries, List.all_eq_true]
    intro e he
    simp [(hl e he).2]
  unfold Machine.settlePoison
  rw [if_pos hall]
  exact a

theorem Leaves.setElems (a : Leaves c h l x s t) (r n : Nat) (w : List (Nat × Nat)) :
    Leaves c h l (x.setElems r n w) s (t.modHartAt c h fun y => y.setElems r n w) :=
  a.modHartAt fun y => setElems_unnoted w y r n

theorem Leaves.noOldRow (a : Leaves c h l x s t) (hx : NoOldRow x) : NoOldRow (t.hartAt c h) := by
  intro v hv
  have e : (t.hartAt c h).unnoted.allEntries = x.unnoted.allEntries := congrArg Hart.allEntries a.hart
  have hx' : v ∈ x.unnoted.allEntries := e ▸ hv
  exact hx v hx'

theorem Leaves.followRow (a : Leaves c h l x s t) (hx : NoOldRow x) (r : VReg) (n : Nat) (es : List Nat) :
    Leaves c h l x s (followRow c h r n es t) := by
  rw [followRow_none (a.noOldRow hx)]
  exact a

/-- Entries whose rows are current all stay. -/
theorem Leaves.sweep (a : Leaves c h l x s t) (hl : Standing l) : Leaves c h l x s (sweep c t) := by
  unfold Machine.sweep
  dsimp only
  split
  · exact a
  · have once : ∀ k : Core, k.land.entries = l →
        (k.setEntries (k.entries.filter fun e => e.2.live != 0 || liveDependant k e.1 || keptByDet k e.2)) = k := by
      intro k hk
      have e : (k.entries.filter fun e => e.2.live != 0 || liveDependant k e.1 || keptByDet k e.2) = k.land.entries := by
        rw [Core.entries, List.filter_eq_self, hk]
        intro e he
        rw [bne_iff_ne.2 (hl e he).1]
        rfl
      rw [e]
      rfl
    have all : ∀ ks : List Nat, ks.foldl (fun (k : Core) _ =>
        k.setEntries (k.entries.filter fun e => e.2.live != 0 || liveDependant k e.1 || keptByDet k e.2)) (t.core c) =
          t.core c := by
      intro ks
      induction ks with
      | nil => rfl
      | cons _ ks ih => rw [List.foldl_cons, once _ a.entries]; exact ih
    refine ⟨?_, ?_, ?_, a.here, a.me, a.mem⟩
    · rw [core_modCore_same]
      rw [all]
      exact a.entries
    · rw [core_modCore_same]
      rw [all]
      exact a.seq
    · unfold State.hartAt
      rw [core_modCore_same]
      rw [all, unnoted_forget]
      exact a.hart

/-- A hart with no uncommitted store commits nothing. -/
theorem Leaves.drain (a : Leaves c h l x s t) (hl : Standing l) (hq : x.ms.stq = []) : Leaves c h l x s (drain c h t) := by
  have e : (t.hartAt c h).ms.stq = [] := (congrArg (fun y => y.ms.stq) a.hart).trans hq
  unfold Machine.drain
  dsimp only
  split
  · exact a
  · rw [e]
    have b := a.modHartAt (f := fun y => y.setStq []) fun _ => rfl
    rw [hart_setStq_self x hq] at b
    exact b.sweep hl

end

end Sys2Proof.Machine

namespace Sys2Proof.Machine

/-! ### Results of which some are holes -/

/-- The value of an element, if it has one, with its number. -/
def Elem.valued (e : Elem) : Option (Nat × Nat) :=
  match e.res with
  | .val w => some (e.elem, w)
  | .hole _ => none

/-- The entry of an element that is a hole. -/
def Elem.holed (e : Elem) : Option LEntry :=
  match e.res with
  | .val _ => none
  | .hole x => some x

theorem cutAt_room (n : Nat) (rs : List Elem) (h : (rs.filterMap Elem.holed).length ≤ n) : cutAt none n rs = (rs, []) := by
  induction rs generalizing n with
  | nil => rfl
  | cons a rs ih =>
    obtain ⟨e, res, f⟩ := a
    cases res with
    | val w =>
      simp [cutAt, beyond, ERes.isHole, ih n h]
    | hole x =>
      cases n with
      | zero => exact absurd h (by simp [Elem.holed])
      | succ n =>
        have h' : (rs.filterMap Elem.holed).length ≤ n := by simpa [Elem.holed] using h
        simp [cutAt, beyond, ERes.isHole, ih n h']

/-- A fold that acts on the entries of the holes only. -/
theorem foldl_holed (f : State → Elem → State) (g : State → LEntry → State) (hv : ∀ s e w k, f s ⟨e, .val w, k⟩ = s)
    (hh : ∀ s e x k, f s ⟨e, .hole x, k⟩ = g s x) (rs : List Elem) (s : State) :
    rs.foldl f s = (rs.filterMap Elem.holed).foldl g s := by
  induction rs generalizing s with
  | nil => rfl
  | cons a rs ih =>
    obtain ⟨e, res, k⟩ := a
    cases res with
    | val w => rw [List.foldl_cons, hv, ih]; rfl
    | hole x => rw [List.foldl_cons, hh, ih]; rfl

section
variable {c h : Nat} {l : AMap LEntry} {s : State}

/-- Results that all find their entries reach a register without holes: the values its elements, the holes the Landing. -/
theorem applyRow_room {v : VEntry} {r : VReg} {n sty : Nat} {rs : List Elem} (hd : holesOf c h r.toNat s = [])
    (hv : v.limit = none) (hroom : (rs.filterMap Elem.holed).length ≤ entriesLeft (s.core c) h)
    (hx : NoOldRow (s.hartAt c h))
    (ht : Leaves c h l (s.hartAt c h) s ((rs.filterMap Elem.holed).foldl
      (fun t x => takeEntry c h (newRow (s.core c) h v r) x t) s))
    (hl : Standing l)
    (hw : ∀ e ∈ l, e.2.hart.toNat = h → e.2.reg = r → ∀ p ∈ rs.filterMap Elem.valued, p.1 ≠ e.2.index.toNat) :
    ∃ t, applyRow c h v r n rs sty [] s = .ok (.done (rs.foldl (fun f e => f ||| e.flags) v.flags)) t ∧
      Leaves c h l ((s.hartAt c h).setElems r.toNat n (rs.filterMap Elem.valued)) s t := by
  have hb : rs.filter (fun e => !beyond none e.elem) = rs := by simp [beyond]
  unfold applyRow
  simp only [hd, List.filter_nil, List.filterMap_nil, List.isEmpty_nil, if_true, hv, cutAt_room _ _ hroom, List.head?_nil,
    Option.map_none, hb, List.map_nil, Bool.not_true, Bool.and_false, Bool.false_and, Bool.false_eq_true, if_false]
  rw [foldl_holed _ _ (fun _ _ _ _ => rfl) (fun _ _ _ _ => rfl)]
  refine ⟨_, rfl, ?_⟩
  have a := ht.repair hl (r := r.toNat) (n := n) (w := rs.filterMap Elem.valued)
    fun e he hh hr => hw e he hh (BitVec.eq_of_toNat_eq hr)
  exact ((a.settlePoison hl).setElems r.toNat n _).followRow (fun v hv' => hx v (setElems_entries _ _ _ _ ▸ hv')) r n _

end

end Sys2Proof.Machine

namespace Sys2Proof.Machine

/-! ### The completion of a vector instruction with holes -/

/-- A hart whose vector instruction, the only one of its VIQ, has completed with flags `f`. -/
def Hart.completed (f : Nat) (x : Hart) : Hart :=
  let x := match x.vec.viq with
    | [] => x
    | _ :: rest => { x with vec := { x.vec with viq := rest } }.oneDone
  Hart.count { x with fp := { x.fp with flags := x.fp.flags ||| BitVec.ofNat 5 f } }

section
variable {s : State} {i : Instr}

theorem setElems_self_front (x : Hart) (r n : Nat) (w : List (Nat × Nat)) :
    x.setElems r n w = (x.setElems r n w).front x.pc x.fp x.run x.vec.viq :=
  setElems_front w x r n x.pc x.fp x.run x.vec.viq

/-- The elements that the dispatched instruction writes, seen behind its completion. -/
theorem setElems_behind_completed (h : Still s) (r n f : Nat) (w : List (Nat × Nat)) :
    ((behind s i [entryOf s i]).setElems r n w).completed f =
      (s.hart.setElems r n w).afterVector i.length f (consumesHere s i) := by
  have e := setElems_self_front s.hart r n w
  rw [h.viq] at e
  have hq : (s.hart.setElems r n w).ms.stq = [] := by rw [setElems_ms]; exact h.stq
  unfold behind
  rw [setElems_front]
  generalize s.hart.setElems r n w = y at e hq
  simp only [Hart.completed, Hart.front, Hart.oneDone, hq, List.all_nil, if_true]
  rw [e]
  rfl

theorem oneDone_unnoted (x : Hart) : x.oneDone.unnoted = x.unnoted.oneDone := by
  unfold Hart.oneDone
  rw [show x.unnoted.ms = x.ms from rfl]
  split <;> rfl

theorem completed_unnoted (f : Nat) (x : Hart) : (x.completed f).unnoted = (x.unnoted.completed f).unnoted := by
  have finish : ∀ y z : Hart, y.unnoted = z.unnoted →
      (Hart.count { y with fp := { y.fp with flags := y.fp.flags ||| BitVec.ofNat 5 f } }).unnoted =
        (Hart.count { z with fp := { z.fp with flags := z.fp.flags ||| BitVec.ofNat 5 f } }).unnoted := fun y z e =>
    congrArg (fun u : Hart => Hart.count { u with fp := { u.fp with flags := u.fp.flags ||| BitVec.ofNat 5 f } }) e
  unfold Hart.completed
  refine finish _ _ ?_
  rw [show x.unnoted.vec.viq = x.vec.viq from rfl]
  split
  · rfl
  · have e : ∀ y z : Hart, y.unnoted = z.unnoted → y.oneDone.unnoted = z.oneDone.unnoted := fun y z e => by
      rw [oneDone_unnoted, oneDone_unnoted, e]
    exact e _ _ rfl

/-- A vector instruction that executes to its end with some entries taken. -/
theorem Still.leaves (h : Still s) (hi : AtOnce i) {f r n : Nat} {u : State} {l : AMap LEntry} {w : List (Nat × Nat)}
    (hx : vexec s.here s.me (entryOf s i) (dispatchedState s i) = .ok (.done f) u)
    (hu : Leaves s.here s.me l ((behind s i [entryOf s i]).setElems r n w) (dispatchedState s i) u) (hl : Standing l) :
    ∃ t, exec i s = .next t ∧ (t.core s.here).land.seq = (s.core s.here).land.seq + 1 ∧ t.mem = s.mem ∧
      (t.core s.here).land.entries = l ∧
      (t.hartAt s.here s.me).unnoted = ((s.hart.setElems r n w).afterVector 4 f (consumesHere s i)).unnoted ∧
      t.here = s.here ∧ t.me = s.me := by
  have e : (orFlags s.here s.me f (dropHead s.here s.me u)).modHartAt s.here s.me Hart.count =
      u.modHartAt s.here s.me (Hart.completed f) := by
    unfold orFlags dropHead
    simp only [modHartAt_modHartAt]
    rfl
  have a := hu.modHartAt (completed_unnoted f)
  rw [setElems_behind_completed h, hi.length] at a
  have hq : ((s.hart.setElems r n w).afterVector 4 f (consumesHere s i)).ms.stq = [] := by
    show (s.hart.setElems r n w).ms.stq = []
    rw [setElems_ms]
    exact h.stq
  have b := (a.drain hl hq).sweep hl
  refine ⟨_, (hi.exec s).trans ((h.issueVector_done (hi.registerOnly s) hx).trans (by rw [e])), ?_, b.mem, b.entries, b.hart,
    b.here, b.me⟩
  rw [b.seq, land_dispatchedState]

/-- An element-wise vector instruction of which every hole finds an entry. -/
theorem Still.elementwise_leaves (h : Still s) (hi : AtOnce i) {op : LaneOp} {d : VReg} (hop : op.dst = d.toNat) {mk : Nat}
    {rs : List Elem} {l : AMap LEntry}
    (hx : vexec s.here s.me (entryOf s i) (dispatchedState s i) = elementwise s.here s.me (entryOf s i) op mk (dispatchedState s i))
    (hrs : (activeElems s.hart mk (entryOf s i).vl).map
      (laneElem s.here s.me (entryOf s i) op none (dispatchedState s i)) = rs)
    (hv : (entryOf s i).vl ≠ 0)
    (hd : holesOf s.here s.me d.toNat (dispatchedState s i) = [])
    (hroom : (rs.filterMap Elem.holed).length ≤ entriesLeft ((dispatchedState s i).core s.here) s.me)
    (ht : Leaves s.here s.me l ((dispatchedState s i).hartAt s.here s.me) (dispatchedState s i) ((rs.filterMap Elem.holed).foldl
      (fun t x => takeEntry s.here s.me (newRow ((dispatchedState s i).core s.here) s.me (entryOf s i) d) x t)
      (dispatchedState s i)))
    (hl : Standing l)
    (hw : ∀ e ∈ l, e.2.hart.toNat = s.me → e.2.reg = d → ∀ p ∈ rs.filterMap Elem.valued, p.1 ≠ e.2.index.toNat) :
    ∃ t, exec i s = .next t ∧ (t.core s.here).land.seq = (s.core s.here).land.seq + 1 ∧ t.mem = s.mem ∧
      (t.core s.here).land.entries = l ∧
      (t.hartAt s.here s.me).unnoted =
        ((s.hart.setElems d.toNat (typeBits op.dty) (rs.filterMap Elem.valued)).afterVector 4
          (rs.foldl (fun f e => f ||| e.flags) 0) (consumesHere s i)).unnoted ∧
      t.here = s.here ∧ t.me = s.me := by
  have hf := captureFor_fresh s i
  have hstart : (entryOf s i).start = 0 := hf.start
  have hrem : (entryOf s i).remaining ((dispatchedState s i).hartAt s.here s.me) mk = activeElems s.hart mk (entryOf s i).vl := by
    rw [hart_dispatched]
    simp [VEntry.remaining, hstart, active_behind]
  have hreg : BitVec.ofNat 5 op.dst = d := by simp [hop]
  have hflags : (entryOf s i).flags = 0 := hf.flags
  obtain ⟨u, hu, a⟩ := applyRow_room (v := entryOf s i) (n := typeBits op.dty) (sty := op.dty) hd hf.limit hroom (h.noOldRow i) ht hl hw
  rw [hflags] at hu
  have hux : vexec s.here s.me (entryOf s i) (dispatchedState s i) = .ok (.done (rs.foldl (fun f e => f ||| e.flags) 0)) u := by
    rw [hx, elementwise]
    simp only [hrem, hrs, hreg]
    rw [applyResults, if_neg hv, hu]
  rw [hart_dispatched] at a
  exact h.leaves hi hux a hl

end

end Sys2Proof.Machine

namespace Sys2Proof.Machine

/-! ### Entries taken from an empty Landing (R82) -/

/-- Entries numbered from `n` on. -/
def numberedFrom (n : Nat) : List LEntry → AMap LEntry
  | [] => []
  | e :: l => (n, e) :: numberedFrom (n + 1) l

theorem length_numberedFrom (n : Nat) (l : List LEntry) : (numberedFrom n l).length = l.length := by
  induction l generalizing n with
  | nil => rfl
  | cons e l ih => simp [numberedFrom, ih]

theorem mem_numberedFrom {n : Nat} {l : List LEntry} {x : Nat × LEntry} (h : x ∈ numberedFrom n l) : x.2 ∈ l := by
  induction l generalizing n with
  | nil => exact absurd h List.not_mem_nil
  | cons e l ih =>
    rcases List.mem_cons.1 h with rfl | h
    · exact List.mem_cons_self
    · exact List.mem_cons_of_mem _ (ih h)

theorem lookup_numberedFrom (n k : Nat) (l : List LEntry) : lookup (numberedFrom n l) (n + k) = l[k]? := by
  induction l generalizing n k with
  | nil => rfl
  | cons e l ih =>
    cases k with
    | zero => simp [numberedFrom, lookup]
    | succ k => simpa [numberedFrom, lookup, Nat.add_assoc, Nat.add_comm 1 k] using ih (n + 1) k

theorem insert_numberedFrom (n : Nat) (l : List LEntry) (e : LEntry) :
    insert (numberedFrom n l) (n + l.length) e = numberedFrom n (l ++ [e]) := by
  induction l generalizing n with
  | nil => rfl
  | cons a l ih =>
    have := ih (n + 1)
    rw [Nat.add_assoc, Nat.add_comm 1] at this
    simp only [List.cons_append, numberedFrom, List.length_cons, insert, ← this]
    rw [if_neg (by omega), if_neg (by omega)]

section
variable {k : Core} {h : Nat} {l : List LEntry}

theorem entryCount_numbered (hk : k.land.entries = numberedFrom 0 l) (hh : ∀ e ∈ l, e.hart.toNat = h) (i : Nat) :
    entryCount k i = if i = h then l.length else 0 := by
  rw [entryCount, Core.entries, hk]
  split
  case isTrue hi =>
    rw [List.filter_eq_self.2, length_numberedFrom]
    intro x hx
    rw [hh _ (mem_numberedFrom hx), hi, beq_self_eq_true]
  case isFalse hi =>
    rw [List.filter_eq_nil_iff.2]
    · rfl
    · intro x hx
      rw [hh _ (mem_numberedFrom hx), beq_iff_eq]
      exact fun e => hi e.symm

theorem sharedUsed_numbered (hk : k.land.entries = numberedFrom 0 l) (hh : ∀ e ∈ l, e.hart.toNat = h) (h4 : h < 4) :
    sharedUsed k = l.length - Config.landingReserve := by
  have e : ∀ i, entryCount k i - Config.landingReserve = if i = h then l.length - Config.landingReserve else 0 := fun i => by
    rw [entryCount_numbered hk hh]
    split
    · rfl
    · exact Nat.zero_sub _
  rw [sharedUsed]
  simp only [e]
  obtain rfl | rfl | rfl | rfl : h = 0 ∨ h = 1 ∨ h = 2 ∨ h = 3 := by omega
  all_goals simp [indices, List.range_succ]

/-- The entries of a hart take the numbers in order, up to 112 of them. -/
theorem freeEntry_numbered (hk : k.land.entries = numberedFrom 0 l) (hh : ∀ e ∈ l, e.hart.toNat = h) (h4 : h < 4)
    (hn : l.length < 112) : freeEntry k h = some l.length := by
  have hroom : (decide (entryCount k h < Config.landingReserve) || decide (sharedUsed k < Config.landingShared)) = true := by
    rw [entryCount_numbered hk hh, if_pos rfl, sharedUsed_numbered hk hh h4]
    rw [Bool.or_eq_true, decide_eq_true_iff, decide_eq_true_iff]
    unfold Config.landingReserve Config.landingShared
    omega
  have hlook : ∀ n, lookup k.entries n = l[n]? := fun n => by
    rw [Core.entries, hk]
    have := lookup_numberedFrom 0 n l
    rwa [Nat.zero_add] at this
  rw [freeEntry, if_pos hroom, indices, List.find?_range_eq_some]
  refine ⟨by simp [hlook], List.mem_range.2 (by omega), fun j hj => by simp [hlook, hj]⟩

/-- How many entries a hart finds in an empty Landing. -/
theorem entriesLeft_empty (hk : k.land.entries = []) (h4 : h < 4) : entriesLeft k h = 112 := by
  have hc := entryCount_numbered (l := []) (h := h) hk (fun e he => absurd he List.not_mem_nil) h
  have hs := sharedUsed_numbered (l := []) (h := h) hk (fun e he => absurd he List.not_mem_nil) h4
  rw [entriesLeft, hc, hs]
  simp [Config.landingReserve, Config.landingShared]

end

/-- The holes of an instruction take the entries of an empty Landing in order. -/
theorem takes_numbered {c h : Nat} (h4 : h < 4) {s : State} (row : BitVec 6) {x : Hart} (new : List LEntry) (old : List LEntry) {t : State}
    (a : Leaves c h (numberedFrom 0 old) x s t) (hold : ∀ e ∈ old, e.hart.toNat = h)
    (hnew : ∀ e ∈ new, e.hart.toNat = h) (hn : old.length + new.length ≤ 112) :
    Leaves c h (numberedFrom 0 (old ++ new.map fun e => { e with row := row })) x s
      (new.foldl (fun t e => takeEntry c h row e t) t) := by
  induction new generalizing old t with
  | nil => simpa using a
  | cons e new ih =>
    rw [List.length_cons] at hn
    have b := a.takeEntry (freeEntry_numbered a.entries hold h4 (by omega)) row e
    have e1 := insert_numberedFrom 0 old { e with row := row }
    rw [Nat.zero_add] at e1
    have := ih (old ++ [{ e with row := row }]) (b.congr e1) ?_ (fun y hy => hnew y (List.mem_cons_of_mem _ hy)) ?_
    · simpa using this
    · intro y hy
      rcases List.mem_append.1 hy with hy | hy
      · exact hold y hy
      · rw [List.mem_singleton.1 hy]
        exact hnew e List.mem_cons_self
    · simp only [List.length_append, List.length_singleton]
      omega

end Sys2Proof.Machine

namespace Sys2Proof.Machine

/-! ### Elements of a register that is written, and its holes (R76) -/

section
variable {n : Nat}

theorem elemOf_setElems_ne (w : List (Nat × Nat)) (x : Hart) (r : Nat) {j : Nat} (h : ∀ p ∈ w, p.1 ≠ j) :
    elemOf ((x.setElems r n w).getV r) n j = elemOf (x.getV r) n j := by
  unfold Hart.setElems
  induction w generalizing x with
  | nil => rfl
  | cons p w ih =>
    have e : (x.setElem r n p.1 p.2).getV r = putElem (x.getV r) n p.1 p.2 := getV_setV_same x r _
    rw [List.foldl_cons, ih _ fun q hq => h q (List.mem_cons_of_mem _ hq), e,
      elemOf_putElem_ne _ _ (h p List.mem_cons_self).symm]

theorem elemOf_setElems_mem (w : List (Nat × Nat)) (x : Hart) (r : Nat) {j v : Nat} (hd : (w.map (·.1)).Nodup)
    (hm : (j, v) ∈ w) (hj : n * (j + 1) ≤ 16384) : elemOf ((x.setElems r n w).getV r) n j = v % 2 ^ n := by
  induction w generalizing x with
  | nil => exact absurd hm List.not_mem_nil
  | cons p w ih =>
    rw [List.map_cons, List.nodup_cons] at hd
    have e : (x.setElem r n p.1 p.2).getV r = putElem (x.getV r) n p.1 p.2 := getV_setV_same x r _
    have hs : x.setElems r n (p :: w) = (x.setElem r n p.1 p.2).setElems r n w := rfl
    rw [hs]
    rcases List.mem_cons.1 hm with rfl | hm
    · have hn : ∀ q ∈ w, q.1 ≠ j := fun q hq he => hd.1 (List.mem_map.2 ⟨q, hq, he⟩)
      rw [elemOf_setElems_ne w _ r hn, e, elemOf_putElem_same _ _ hj]
    · exact ih _ hd.2 hm

theorem getV_setElems_ne (w : List (Nat × Nat)) (x : Hart) {r v : Nat} (h : v ≠ r) : (x.setElems r n w).getV v = x.getV v := by
  unfold Hart.setElems
  induction w generalizing x with
  | nil => rfl
  | cons p w ih =>
    rw [List.foldl_cons, ih]
    exact getV_setV_ne x _ h

end

theorem mem_of_lookup {α : Type} {m : AMap α} {k : Nat} {v : α} (h : lookup m k = some v) : (k, v) ∈ m := by
  induction m with
  | nil => exact nomatch h
  | cons p m ih =>
    obtain ⟨j, u⟩ := p
    rw [lookup] at h
    split at h
    next e =>
      cases h
      exact e ▸ List.mem_cons_self
    next => exact List.mem_cons_of_mem _ (ih h)

/-- An entry that owes an element of a register makes it absent. -/
theorem presentElem_false {t : State} {c h r n e k : Nat} {q : LEntry} (hk : lookup (t.core c).land.entries k = some q)
    (hh : q.hart.toNat = h) (hr : q.reg.toNat = r) (hi : q.index.toNat = e) (hw : q.width = n) (h0 : 0 < n)
    (hl : q.live.getLsbD 0 = true) : presentElem c h r n e t = false := by
  have hlive : q.live ≠ 0 := fun e => by simp [e] at hl
  have hm : (k, q) ∈ holesOf c h r t := by
    rw [holesOf, List.mem_filter]
    exact ⟨mem_of_lookup hk, by rw [hh, hr, bne_iff_ne.2 hlive, beq_self_eq_true, beq_self_eq_true]; rfl⟩
  have hf : q.first = n * e := by rw [LEntry.first, hi, hw, Nat.mul_comm]
  have ht : q.touches (n * e) (n * e + n) = true := by
    rw [LEntry.touches, List.any_eq_true]
    refine ⟨0, List.mem_range.2 (Nat.succ_pos _), ?_⟩
    simp only [hf, Nat.add_zero, Nat.le_refl, decide_true, Bool.true_and, Bool.and_eq_true, decide_eq_true_eq]
    refine ⟨Nat.div_le_div_right (by omega), List.any_eq_true.2 ⟨0, List.mem_range.2 (hw ▸ h0), ?_⟩⟩
    simp [hl]
  rw [presentElem, List.any_eq_true.2 ⟨(k, q), hm, ht⟩]
  rfl

theorem nodup_active (x : Hart) (m : MReg) : (x.active m).Nodup :=
  List.Nodup.filter _ List.nodup_range

theorem lt_vl_of_active {x : Hart} {m : MReg} {e : Nat} (h : e ∈ x.active m) : e < x.vec.vl :=
  List.mem_range.1 (List.mem_filter.1 h).1

/-- An active element lies in its register, whose elements of a byte or more have numbers of less than 13 bits. -/
theorem active_in_register {x : Hart} {m : MReg} {e : Nat} (hvl : x.VlFits) (hg : x.vec.grant ≤ 64) (h : e ∈ x.active m) :
    typeBits x.ty * (e + 1) ≤ 16384 := by
  have he := lt_vl_of_active h
  have hle : e + 1 ≤ vlMax x.vec.grant x.ty := Nat.le_trans he hvl
  calc typeBits x.ty * (e + 1) ≤ typeBits x.ty * (256 * x.vec.grant / typeBits x.ty) := Nat.mul_le_mul_left _ hle
    _ ≤ 256 * x.vec.grant := Nat.mul_div_le _ _
    _ ≤ 16384 := by omega

/-- The number of an active element fits the index of an entry. -/
theorem active_lt {x : Hart} {m : MReg} {e : Nat} (hvl : x.VlFits) (hg : x.vec.grant ≤ 64) (h8 : 8 ≤ typeBits x.ty)
    (h : e ∈ x.active m) : e < 8192 := by
  have hb := active_in_register hvl hg h
  have hb8 := Nat.mul_le_mul_right (e + 1) h8
  omega

end Sys2Proof.Machine

namespace Sys2Proof.Machine

/-! ### A floating lane instruction with hard elements (R72, R76, R81, R82) -/

theorem user_lt {s : State} (h : isFerry s.me = false) : s.me < 4 := by
  simpa [isFerry] using h

section
variable {n : Nat}

theorem ones_getLsbD_zero (h0 : 0 < n) : (word (2 ^ n - 1)).getLsbD 0 = true := by
  rw [word, BitVec.getLsbD_ofNat, Nat.testBit_two_pow_sub_one]
  simp [h0]

theorem ones_ne_zero (h0 : 0 < n) : word (2 ^ n - 1) ≠ 0 := fun e => by
  have := ones_getLsbD_zero h0
  simp [e] at this

end

theorem typeBits_le (ty : Nat) : typeBits ty ≤ 64 := by
  unfold typeBits
  split <;> decide

section
variable {s : State} {i : Instr} {fn : LaneFn} {code : Nat} {rounds : Bool} {d a : VReg} {b : Src} {m : MReg}

/-- Elements of an instruction, each a value or, where it is not soft, a hole. -/
def mixed (soft : Nat → Bool) (hole : Nat → LEntry) (w : Nat → Nat × Nat) (e : Nat) : Elem :=
  if soft e then ⟨e, .val (w e).1, (w e).2⟩ else ⟨e, .hole (hole e), 0⟩

theorem holed_mixed (soft : Nat → Bool) (hole : Nat → LEntry) (w : Nat → Nat × Nat) (es : List Nat) :
    (es.map (mixed soft hole w)).filterMap Elem.holed = (es.filter fun e => !soft e).map hole := by
  induction es with
  | nil => rfl
  | cons e es ih => cases he : soft e <;> simp [mixed, he, Elem.holed, List.filterMap_cons, ih]

theorem valued_mixed (soft : Nat → Bool) (hole : Nat → LEntry) (w : Nat → Nat × Nat) (es : List Nat) :
    (es.map (mixed soft hole w)).filterMap Elem.valued = (es.filter soft).map fun e => (e, (w e).1) := by
  induction es with
  | nil => rfl
  | cons e es ih => cases he : soft e <;> simp [mixed, he, Elem.valued, List.filterMap_cons, ih]

theorem flags_mixed (soft : Nat → Bool) (hole : Nat → LEntry) (w : Nat → Nat × Nat) (es : List Nat) (f : Nat) :
    (es.map (mixed soft hole w)).foldl (fun f e => f ||| e.flags) f = (es.filter soft).foldl (fun f e => f ||| (w e).2) f := by
  induction es generalizing f with
  | nil => rfl
  | cons e es ih => cases he : soft e <;> simp [mixed, he, ih]

/-- The active elements of a floating lane instruction on fp32 or fp64. -/
theorem IsFloatLane.results (hi : IsFloatLane s i fn code rounds d a b m)
    (he : ((dispatchedState s i).core s.here).land.entries = []) (hhard : s.hart.ty = 13 ∨ s.hart.ty = 14) :
    (activeElems s.hart m.toNat (entryOf s i).vl).map
      (laneElem s.here s.me (entryOf s i) (laneOpOf fn code s.hart.ty d a b) none (dispatchedState s i)) =
      (s.hart.active m).map (mixed ((floatRun s.hart fn d a b).soft s.hart)
        (hardHole s i (laneOpOf fn code s.hart.ty d a b) (floatRun s.hart fn d a b)) ((floatRun s.hart fn d a b).elem s.hart)) := by
  rw [hi.takes.vl]
  refine List.map_congr_left fun e _ => ?_
  rw [hi.laneElem_eq he, (hardType_iff _).2 hhard]
  dsimp only
  rw [Bool.true_and]
  unfold mixed
  cases (floatRun s.hart fn d a b).soft s.hart e <;> rfl

/-- What an entry of an element of register `d` with elements of `n` bits is as it is taken. -/
structure Owes (h : Nat) (d : VReg) (n e : Nat) (x : LEntry) : Prop where
  hart : x.hart.toNat = h
  reg : x.reg = d
  index : x.index.toNat = e
  live : x.live = word (2 ^ n - 1)
  width : x.width = n
  good : x.bad = false

theorem Owes.inRow {h n e : Nat} {x : LEntry} (k : Owes h d n e x) (row : BitVec 6) : Owes h d n e { x with row := row } :=
  ⟨k.hart, k.reg, k.index, k.live, k.width, k.good⟩

theorem Owes.live_ne {h n e : Nat} {x : LEntry} (k : Owes h d n e x) (h0 : 0 < n) : x.live ≠ 0 :=
  k.live ▸ ones_ne_zero h0

/-- An entry that an element of a register has taken makes it absent. -/
theorem Owes.absent {c h n e k : Nat} {x : LEntry} {t : State} (o : Owes h d n e x) (h0 : 0 < n)
    (hk : lookup (t.core c).land.entries k = some x) : presentElem c h d.toNat n e t = false :=
  presentElem_false hk o.hart (congrArg BitVec.toNat o.reg) o.index o.width h0 (by rw [o.live]; exact ones_getLsbD_zero h0)

/-- An element-wise instruction of a hart on a core without holes, some of whose active elements become holes: they take the
entries in order. -/
theorem leaves_mixed (h : VectorReady s) (hi : AtOnce i) {op : LaneOp} (hop : op.dst = d.toNat) {es : List Nat}
    {soft : Nat → Bool} {hole : Nat → LEntry} {w : Nat → Nat × Nat}
    (hx : vexec s.here s.me (entryOf s i) (dispatchedState s i) = elementwise s.here s.me (entryOf s i) op m.toNat (dispatchedState s i))
    (hrs : (activeElems s.hart m.toNat (entryOf s i).vl).map
      (laneElem s.here s.me (entryOf s i) op none (dispatchedState s i)) = es.map (mixed soft hole w))
    (hv : (entryOf s i).vl ≠ 0) (hroom : (es.filter fun e => !soft e).length ≤ 112)
    (ho : ∀ e ∈ es, Owes s.me d (typeBits op.dty) e (hole e)) :
    ∃ t row, exec i s = .next t ∧ (t.core s.here).land.seq = (s.core s.here).land.seq + 1 ∧ t.mem = s.mem ∧
      (t.core s.here).land.entries = numberedFrom 0 ((es.filter fun e => !soft e).map fun e => { hole e with row := row }) ∧
      (t.hartAt s.here s.me).unnoted =
        ((s.hart.setElems d.toNat (typeBits op.dty) ((es.filter soft).map fun e => (e, (w e).1))).afterVector 4
          ((es.filter soft).foldl (fun f e => f ||| (w e).2) 0) (consumesHere s i)).unnoted ∧
      t.here = s.here ∧ t.me = s.me := by
  have h4 := user_lt h.user
  have hempty := entries_dispatched h i
  let row := newRow ((dispatchedState s i).core s.here) s.me (entryOf s i) d
  have hmem : ∀ x ∈ numberedFrom 0 ((es.filter fun e => !soft e).map fun e => { hole e with row := row }),
      ∃ e ∈ es.filter fun e => !soft e, Owes s.me d (typeBits op.dty) e x.2 := fun x hx => by
    obtain ⟨e, he, hxe⟩ := List.mem_map.1 (mem_numberedFrom hx)
    exact ⟨e, he, hxe ▸ (ho e (List.mem_filter.1 he).1).inRow row⟩
  have htake := takes_numbered h4 row ((es.filter fun e => !soft e).map hole) []
    ((Leaves.refl s.here s.me (dispatchedState s i)).congr hempty) (fun e he => absurd he List.not_mem_nil)
    (fun x hx => by
      obtain ⟨e, he, rfl⟩ := List.mem_map.1 hx
      exact (ho e (List.mem_filter.1 he).1).hart)
    (by simpa using hroom)
  rw [List.nil_append, List.map_map] at htake
  have hs : Standing (numberedFrom 0 ((es.filter fun e => !soft e).map fun e => { hole e with row := row })) := fun x hx => by
    obtain ⟨e, -, o⟩ := hmem x hx
    exact ⟨o.live_ne (typeBits_pos _), o.good⟩
  have hw : ∀ x ∈ numberedFrom 0 ((es.filter fun e => !soft e).map fun e => { hole e with row := row }), x.2.hart.toNat = s.me →
      x.2.reg = d → ∀ p ∈ (es.map (mixed soft hole w)).filterMap Elem.valued, p.1 ≠ x.2.index.toNat := by
    rw [valued_mixed]
    intro x hx _ _ p hp
    obtain ⟨e, he, o⟩ := hmem x hx
    obtain ⟨j, hj, rfl⟩ := List.mem_map.1 hp
    rw [o.index]
    rintro rfl
    have h1 := (List.mem_filter.1 he).2
    have h2 := (List.mem_filter.1 hj).2
    simp [h2] at h1
  obtain ⟨t, ht, hseq, hm, hent, hhart, hc⟩ := h.still.elementwise_leaves hi hop hx hrs hv (holesOf_empty hempty _ _)
    (by rw [holed_mixed, entriesLeft_empty hempty h4, List.length_map]; exact hroom)
    (by rw [holed_mixed]; exact htake) hs hw
  rw [valued_mixed, flags_mixed] at hhart
  exact ⟨t, row, ht, hseq, hm, hent, hhart, hc⟩

/-- A new entry of a user hart owes all of its element. -/
theorem newEntry_owes {h e : Nat} (h4 : h < 4) (he : e < 8192) {op : LaneOp} (hop : op.dst = d.toNat) (c : Nat) (v : VEntry) (t : State)
    (p q r : Nat) (links : List Link) (scale : Option (BitVec 8)) :
    Owes h d (typeBits op.dty) e (newEntry c h v t op e p q r links scale) where
  hart := by
    show (BitVec.ofNat 2 h).toNat = h
    rw [BitVec.toNat_ofNat, Nat.mod_eq_of_lt h4]
  reg := by
    show BitVec.ofNat 5 op.dst = d
    simp [hop]
  index := by
    show (BitVec.ofNat 13 e).toNat = e
    rw [BitVec.toNat_ofNat, Nat.mod_eq_of_lt he]
  live := rfl
  width := rfl
  good := by
    show ((if links.isEmpty then LState.ready else .waiting) == .inherited ||
      (if links.isEmpty then LState.ready else .waiting) == .poisoned) = false
    split <;> rfl

/-- The hole of an active element. -/
theorem hardHole_owes (h : VectorReady s) (hvl : s.hart.VlFits) (hg : s.hart.vec.grant ≤ 64)
    (hhard : s.hart.ty = 13 ∨ s.hart.ty = 14) {e : Nat} (he : e ∈ s.hart.active m) (r : LaneRun) :
    Owes s.me d (typeBits s.hart.ty) e (hardHole s i (laneOpOf fn code s.hart.ty d a b) r e) :=
  newEntry_owes (op := laneOpOf fn code s.hart.ty d a b) (user_lt h.user)
    (active_lt hvl hg (by rcases hhard with e | e <;> rw [e] <;> decide) he) rfl ..

/-- What shows of a hart whose vector instruction has written some elements. -/
theorem shown_afterVector {x y : Hart} {r n f : Nat} {w : List (Nat × Nat)} {c : Bool}
    (e : y.unnoted = ((x.setElems r n w).afterVector 4 f c).unnoted) :
    y.pc = x.pc + 4 ∧ y.x = x.x ∧ y.run.retired = x.run.retired + 1 ∧
      y.fp = { x.fp with flags := x.fp.flags ||| BitVec.ofNat 5 f, ric := if c then x.fp.ric + 1 else x.fp.ric } ∧
      ∀ v, y.getV v = (x.setElems r n w).getV v := by
  have hx : (x.setElems r n w).x = x.x := by
    unfold Hart.setElems
    induction w generalizing x with
    | nil => rfl
    | cons p w ih => exact ih (x := x.setElem r n p.1 p.2) e
  have hf := setElems_self_front x r n w
  refine ⟨(congrArg Hart.pc e).trans ?_, (congrArg Hart.x e).trans hx, (congrArg (fun z : Hart => z.run.retired) e).trans ?_,
    (congrArg Hart.fp e).trans ?_, fun v => ?_⟩
  · show (x.setElems r n w).pc + 4 = x.pc + 4
    rw [hf]
    rfl
  · show (x.setElems r n w).run.retired + 1 = x.run.retired + 1
    rw [hf]
    rfl
  · show { (x.setElems r n w).fp with
      flags := (x.setElems r n w).fp.flags ||| BitVec.ofNat 5 f
      ric := if c then (x.setElems r n w).fp.ric + 1 else (x.setElems r n w).fp.ric } = _
    rw [hf]
    rfl
  · have hv := congrArg (fun z : Hart => z.getV v) e
    exact hv

/-- The control that the hole of an element has captured (R75, R81, R87). -/
theorem IsFloatLane.hole_captured (hi : IsFloatLane s i fn code rounds d a b m) (r : LaneRun) (e : Nat) :
    let q := hardHole s i (laneOpOf fn code s.hart.ty d a b) r e
    let cls := code + if s.hart.ty = 14 then 16 else 0
    q.pc = s.hart.pc ∧ q.cls = BitVec.ofNat 6 cls ∧ q.rm = s.hart.fp.ctl.extractLsb' 0 3 ∧
      q.en = s.hart.fp.ctl.extractLsb' 3 5 ∧ q.nft = s.hart.fp.ctl.getLsbD 8 ∧
      q.srb = BitVec.ofNat 16 (randomBits s.hart.fp.seed s.hart.fp.ric e) ∧
      q.handler = lookupD (s.core s.here).land.fillTable cls 0 := by
  have hcls : (laneOpOf fn code s.hart.ty d a b).cls = code + if s.hart.ty = 14 then 16 else 0 := by
    show (if s.hart.ty = 14 then code + 16 else code) = _
    split <;> rfl
  have hctl : (entryOf s i).fpctl = s.hart.fp.ctl.setWidth 64 :=
    hi.takes.fpctl.trans (BitVec.ofNat_toNat ..)
  have hfield : ∀ lo n, BitVec.ofNat n (wbits (s.hart.fp.ctl.setWidth 64) lo n) = s.hart.fp.ctl.extractLsb' lo n := by
    intro lo n
    refine BitVec.eq_of_toNat_eq ?_
    rw [BitVec.toNat_ofNat, wbits, bits, BitVec.extractLsb'_toNat, Nat.mod_mod, Nat.shiftRight_eq_div_pow, BitVec.toNat_setWidth,
      Nat.mod_eq_of_lt (s.hart.fp.ctl.isLt.trans_le (Nat.pow_le_pow_right (by decide) (by decide)))]
  refine ⟨captureFor_pc s i, congrArg (BitVec.ofNat 6) hcls, ?_, ?_, ?_, ?_, ?_⟩
  · show BitVec.ofNat 3 (wbits (entryOf s i).fpctl 0 3) = _
    rw [hctl, hfield]
  · show BitVec.ofNat 5 (wbits (entryOf s i).fpctl 3 5) = _
    rw [hctl, hfield]
  · show (entryOf s i).fpctl.getLsbD 8 = _
    rw [hctl, BitVec.getLsbD_setWidth]
    rfl
  · show BitVec.ofNat 16 ((entryOf s i).random e) = _
    rw [hi.takes.random]
  · show lookupD ((dispatchedState s i).core s.here).land.fillTable _ 0 = _
    rw [land_dispatchedState, hcls]

theorem IsFloatLane.leavesHoles (hi : IsFloatLane s i fn code rounds d a b m) (h : VectorReady s) (hvl : s.hart.VlFits)
    (hsc : s.hart.vec.vtype.getLsbD 4 = false) (hty : floatAccepts code s.hart.ty) (hhard : s.hart.ty = 13 ∨ s.hart.ty = 14) :
    LeavesHoles i (floatRun s.hart fn d a b) s.hart d (code + if s.hart.ty = 14 then 16 else 0)
      (bits s.hart.fp.ctl.toNat 0 3 == 5 && rounds) m s := by
  unfold LeavesHoles
  intro n easy soft hard hroom hne hgrant
  have hl : (entryOf s i).vl = s.hart.vec.vl := hi.takes.vl
  have hv : (entryOf s i).vl ≠ 0 := fun e => by
    refine hne (List.filter_eq_nil_iff.2 fun j hj => ?_)
    have := lt_vl_of_active hj
    rw [← hl, e] at this
    exact absurd this (Nat.not_lt_zero _)
  obtain ⟨t, row, ht, hseq, hmem, hent, hhart, hhere, hme⟩ := leaves_mixed (d := d) h hi.atOnce rfl (hi.vexec_eq hsc hty _)
    (hi.results (entries_dispatched h i) hhard) hv hroom fun e he => hardHole_owes h hvl hgrant hhard he _
  have hth : t.hartAt s.here s.me = t.hart := by rw [← hhere, ← hme]; rfl
  rw [hth, hi.consumes] at hhart
  obtain ⟨hpc, hx, hret, hfp, hgetV⟩ := shown_afterVector hhart
  have hbound : ∀ e ∈ s.hart.active m, n * (e + 1) ≤ 16384 := fun e he => active_in_register hvl hgrant he
  have hkeys : ((soft.map fun e => (e, ((floatRun s.hart fn d a b).elem s.hart e).1)).map (·.1)).Nodup := by
    rw [List.map_map, show ((fun p : Nat × Nat => p.1) ∘ fun e => (e, ((floatRun s.hart fn d a b).elem s.hart e).1)) = id from rfl,
      List.map_id]
    exact (nodup_active _ _).filter _
  refine ⟨t, ht, hmem, hpc, hx, hret, by rw [hfp], by rw [hfp]; rfl, fun e he => ?_, fun e he _ => ?_, fun v hv => ?_, ?_, hseq,
    fun k e hk => ?_⟩
  · rw [hgetV]
    exact elemOf_setElems_mem _ _ _ hkeys (List.mem_map.2 ⟨e, he, rfl⟩) (hbound e (List.mem_filter.1 he).1)
  · rw [hgetV]
    refine elemOf_setElems_ne _ _ _ fun p hp heq => he ?_
    obtain ⟨j, hj, rfl⟩ := List.mem_map.1 hp
    exact heq ▸ (List.mem_filter.1 hj).1
  · rw [hgetV]
    exact getV_setElems_ne _ _ hv
  · rw [hent, length_numberedFrom, List.length_map]
    rfl
  · have he : e ∈ s.hart.active m := (List.mem_filter.1 (List.mem_of_getElem? hk)).1
    have o := (hardHole_owes (i := i) (fn := fn) (code := code) (d := d) (a := a) (b := b) h hvl hgrant hhard he
      (floatRun s.hart fn d a b)).inRow row
    have hlook := lookup_numberedFrom 0 k ((hard).map fun e =>
      { hardHole s i (laneOpOf fn code s.hart.ty d a b) (floatRun s.hart fn d a b) e with row := row })
    rw [Nat.zero_add, List.getElem?_map, hk, Option.map_some] at hlook
    have hlook' := (congrArg (fun l => lookup l k) hent).trans hlook
    obtain ⟨kpc, kcls, krm, ken, knft, ksrb, khandler⟩ := hi.hole_captured (floatRun s.hart fn d a b) e
    exact ⟨o.absent (typeBits_pos _) hlook', _, hlook', rfl, rfl, kpc, kcls, rfl, rfl, o.reg, rfl, rfl, rfl, rfl, krm, ken, knft,
      ksrb, rfl, khandler, rfl, rfl, rfl⟩

end

end Sys2Proof.Machine

namespace Sys2Proof.Machine

/-! ### An operation that reads a hole (R78, R81) -/

section
variable {c h r n e j k : Nat} {p : LEntry} {s : State}

/-- A hole that is exactly an element gives one link, over the whole of that element. -/
theorem linksTo_hole (hr : holesOf c h r s = [(k, p)]) (hi : p.index.toNat = j) (hw : p.width = n)
    (hl : p.live.toNat = 2 ^ n - 1) (h0 : 0 < n) (o : Nat) :
    linksTo c h r n e o s = if e = j then [⟨k, o, 0, 0, n⟩] else [] := by
  have hf : p.first = n * j := by rw [LEntry.first, hi, hw, Nat.mul_comm]
  rw [linksTo, hr]
  by_cases he : e = j
  · subst he
    have hrun : p.runs = [(0, n)] := by
      rw [LEntry.runs, if_pos (by rw [hw]; exact hl), hw]
    have howed : owedTo k (n * e) n p = [⟨k, 0, 0, n⟩] := by
      have hmax : Nat.max (n * e) (n * e) = n * e := Nat.max_self _
      have hmin : Nat.min (n * e + n) (n * e + n) = n * e + n := Nat.min_self _
      simp only [owedTo, hrun, hf, List.filterMap_cons, List.filterMap_nil, Nat.add_zero, hmax, hmin]
      have hlt : n * e < n * e + n := by omega
      simp only [hlt, if_true, Nat.sub_self, Nat.add_sub_cancel_left]
      rfl
    rw [if_pos rfl, List.filter_cons_of_pos (by simp [hf, hw, h0]), List.filter_nil]
    simp [howed, Nat.pos_iff_ne_zero.1 h0]
  · rw [if_neg he, List.filter_cons_of_neg, List.filter_nil]
    · rfl
    · rw [hf, hw, Bool.and_eq_true, decide_eq_true_iff, decide_eq_true_iff]
      rintro ⟨h1, h2⟩
      rcases Nat.lt_or_gt_of_ne he with hj | hj
      · have := Nat.mul_le_mul_left n (Nat.succ_le_of_lt hj)
        rw [Nat.succ_eq_add_one, Nat.mul_add, Nat.mul_one] at this
        omega
      · have := Nat.mul_le_mul_left n (Nat.succ_le_of_lt hj)
        rw [Nat.succ_eq_add_one, Nat.mul_add, Nat.mul_one] at this
        omega

theorem linksTo_noHoles (hr : holesOf c h r s = []) (o : Nat) : linksTo c h r n e o s = [] := by
  simp [linksTo, hr]

theorem holesOf_one (hs : (s.core c).land.entries = [(k, p)]) (hh : p.hart.toNat = h) (hl : p.live ≠ 0) (r : Nat) :
    holesOf c h r s = if p.reg.toNat = r then [(k, p)] else [] := by
  rw [holesOf, Core.entries, hs]
  split
  next hr => rw [List.filter_cons_of_pos (by rw [hh, hr, bne_iff_ne.2 hl]; simp), List.filter_nil]
  next hr => rw [List.filter_cons_of_neg (by simp [hr]), List.filter_nil]

/-- The least number beside that of the only entry. -/
def besideEntry (k : Nat) : Nat := if k = 0 then 1 else 0

theorem besideEntry_ne (k : Nat) : besideEntry k ≠ k := by
  unfold besideEntry
  split <;> omega

theorem lookup_one (p : LEntry) (o : Nat) : lookup [(k, p)] o = if k = o then some p else none := rfl

theorem entryCount_one {q : Core} (hs : q.land.entries = [(k, p)]) (h : Nat) : entryCount q h ≤ 1 := by
  rw [entryCount, Core.entries, hs]
  exact List.length_filter_le _ _

theorem freeEntry_one {q : Core} (hs : q.land.entries = [(k, p)]) (h : Nat) : freeEntry q h = some (besideEntry k) := by
  have hc := entryCount_one hs h
  have hlook : ∀ o, lookup q.entries o = if k = o then some p else none := fun o => by
    rw [Core.entries, hs, lookup_one]
  have hne := besideEntry_ne k
  rw [freeEntry, if_pos, indices, List.find?_range_eq_some]
  · refine ⟨by rw [hlook, if_neg hne.symm]; rfl, List.mem_range.2 ?_, fun i hi => ?_⟩
    · unfold besideEntry
      split <;> decide
    · have hk : k = i := by
        unfold besideEntry at hi
        split at hi <;> omega
      rw [hlook, if_pos hk]
      rfl
  · rw [Bool.or_eq_true, decide_eq_true_iff]
    exact .inl (Nat.lt_of_le_of_lt hc (by decide))

theorem entriesLeft_one {q : Core} (hs : q.land.entries = [(k, p)]) (h : Nat) : 1 ≤ entriesLeft q h := by
  have hc := entryCount_one hs h
  rw [entriesLeft]
  unfold Config.landingReserve
  omega

theorem lookup_insert_beside (q : LEntry) (o : Nat) : lookup (insert [(k, p)] (besideEntry k) q) o =
    if o = k then some p else if o = besideEntry k then some q else none := by
  have hne := besideEntry_ne k
  by_cases h1 : o = besideEntry k
  · subst h1
    rw [lookup_insert_same, if_neg hne, if_pos rfl]
  · rw [lookup_insert_ne _ _ h1, lookup_one, if_neg h1]
    simp only [eq_comm (a := o)]

theorem mem_insert_one {q : LEntry} {i : Nat} {x : Nat × LEntry} (h : x ∈ insert [(k, p)] i q) : x.2 = p ∨ x.2 = q := by
  unfold insert at h
  split at h
  · simp only [List.mem_cons, List.not_mem_nil, or_false] at h
    rcases h with rfl | rfl
    · exact .inr rfl
    · exact .inl rfl
  · split at h
    · exact .inr (congrArg Prod.snd (List.mem_singleton.1 h))
    · simp only [insert, List.mem_cons, List.not_mem_nil, or_false] at h
      rcases h with rfl | rfl
      · exact .inl rfl
      · exact .inr rfl

end

theorem filter_eq_singleton {l : List Nat} {j : Nat} (hd : l.Nodup) (hj : j ∈ l) : l.filter (fun e => !(e != j)) = [j] := by
  have e : (fun e : Nat => !(e != j)) = (· == j) := by
    funext x
    simp [bne]
  rw [e, List.filter_beq, List.count_eq_one_of_mem hd hj]
  rfl

section
variable {s : State} {i : Instr} {fn : LaneFn} {anyBits : Bool} {d a b : VReg} {m : MReg}

/-- The operation of an integer lane instruction of two registers on type `t`. -/
def intOpOf (fn : LaneFn) (t : Nat) (d a b : VReg) : LaneOp := ⟨fn, t, t, t, 63, .reg a.toNat, .reg b.toNat, .none, d.toNat⟩

/-- The entry of an integer element that reads a hole: it waits for entry `k`. -/
def linkedHole (s : State) (i : Instr) (fn : LaneFn) (d a b : VReg) (k e : Nat) : LEntry :=
  newEntry s.here s.me (entryOf s i) (dispatchedState s i) (intOpOf fn s.hart.ty d a b) e
    (elemOf (s.hart.getV a.toNat) (typeBits s.hart.ty) e) (elemOf (s.hart.getV b.toNat) (typeBits s.hart.ty) e) 0
    [⟨k, 0, 0, 0, typeBits s.hart.ty⟩] none

/-- The active elements of an integer instruction whose first operand has one hole: that element links to it, and the others take
their values. -/
theorem laneElem_linked (hty : intAccepts anyBits s.hart.ty) {f : Nat → Nat → Nat}
    (hf : TakesBits fn (typeBits s.hart.ty) f) {j k : Nat} {p : LEntry}
    (ha : holesOf s.here s.me a.toNat (dispatchedState s i) = [(k, p)])
    (hb : holesOf s.here s.me b.toNat (dispatchedState s i) = []) (hj : p.index.toNat = j) (hw : p.width = typeBits s.hart.ty)
    (hl : p.live.toNat = 2 ^ typeBits s.hart.ty - 1) (e : Nat) :
    laneElem s.here s.me (entryOf s i) (intOpOf fn s.hart.ty d a b) none (dispatchedState s i) e =
      mixed (fun e => e != j) (linkedHole s i fn d a b k)
        (fun e => (f (elemOf (s.hart.getV a.toNat) (typeBits s.hart.ty) e) (elemOf (s.hart.getV b.toNat) (typeBits s.hart.ty) e), 0))
        e := by
  have hc := hf s.hart.ty (elemOf (s.hart.getV a.toNat) (typeBits s.hart.ty) e) (elemOf (s.hart.getV b.toNat) (typeBits s.hart.ty) e)
    (entryOf s i).mode ((entryOf s i).random e) 0 (intAccepts_bits hty) (Nat.mod_lt _ (Nat.two_pow_pos _))
    (Nat.mod_lt _ (Nat.two_pow_pos _))
  have hA : ∀ o, linksTo s.here s.me a.toNat (typeBits s.hart.ty) e o (dispatchedState s i) = _ :=
    linksTo_hole ha hj hw hl (typeBits_pos _)
  have hB : ∀ o, linksTo s.here s.me b.toNat (typeBits s.hart.ty) e o (dispatchedState s i) = [] := linksTo_noHoles hb
  unfold laneElem mixed intOpOf
  simp only [srcElem, hA, hB, hart_dispatched, getV_behind, hc, List.append_nil, bne_self_eq_false, Bool.and_false]
  by_cases he : e = j
  · simp only [he, if_true, List.isEmpty_cons, Bool.not_false, bne_self_eq_false, Bool.false_eq_true, if_false]
    rfl
  · simp only [he, if_false, List.isEmpty_nil, Bool.not_true, Bool.false_eq_true, bne_iff_ne.2 he, if_true]

end

end Sys2Proof.Machine

namespace Sys2Proof.Machine

section
variable {s : State} {i : Instr} {fn : LaneFn} {anyBits : Bool} {d a b : VReg} {m : MReg} {j k : Nat} {p : LEntry}

/-- The one hole of the core, of element `j` of register `a` of the hart, as it stands. -/
structure OneHole (s : State) (a : VReg) (j k : Nat) (p : LEntry) : Prop where
  landing : (s.core s.here).land.entries = [(k, p)]
  hart : p.hart.toNat = s.me
  reg : p.reg = a
  index : p.index.toNat = j
  width : p.width = typeBits s.hart.ty
  live : p.live.toNat = 2 ^ typeBits s.hart.ty - 1
  ready : p.state = .ready

theorem OneHole.live_eq (o : OneHole s a j k p) : p.live = word (2 ^ typeBits s.hart.ty - 1) := by
  rw [word, ← o.live, BitVec.ofNat_toNat, BitVec.setWidth_eq]

theorem OneHole.live_ne (o : OneHole s a j k p) : p.live ≠ 0 := o.live_eq ▸ ones_ne_zero (typeBits_pos _)

theorem OneHole.good (o : OneHole s a j k p) : p.bad = false := by
  rw [LEntry.bad, o.ready]
  rfl

theorem OneHole.dispatched (o : OneHole s a j k p) (i : Instr) : ((dispatchedState s i).core s.here).land.entries = [(k, p)] := by
  rw [land_dispatchedState]
  exact o.landing

theorem OneHole.holes (o : OneHole s a j k p) (i : Instr) (r : VReg) :
    holesOf s.here s.me r.toNat (dispatchedState s i) = if a = r then [(k, p)] else [] := by
  rw [holesOf_one (o.dispatched i) o.hart o.live_ne, o.reg]
  simp only [BitVec.toNat_inj]

/-- The entry that an element which reads the hole takes. -/
theorem linkedHole_owes (h : Still s) (hvl : s.hart.VlFits) (hg : s.hart.vec.grant ≤ 64) (h8 : 8 ≤ typeBits s.hart.ty) {e : Nat}
    (he : e ∈ s.hart.active m) (k : Nat) : Owes s.me d (typeBits s.hart.ty) e (linkedHole s i fn d a b k e) :=
  newEntry_owes (op := intOpOf fn s.hart.ty d a b) (user_lt h.user) (active_lt hvl hg h8 he) rfl ..

/-- An integer lane instruction whose first operand has one hole: the element that reads it becomes a waiting entry of class 63,
linked to that entry, and every other active element takes its value. -/
theorem IsIntLane.leavesLink (hi : IsIntLane s i fn anyBits d a (.reg b.toNat) m) (h : Still s) (hvl : s.hart.VlFits)
    (hg : s.hart.vec.grant ≤ 64) (hsc : s.hart.vec.vtype.getLsbD 4 = false) (hty : intAccepts anyBits s.hart.ty)
    (h8 : 8 ≤ typeBits s.hart.ty) {f : Nat → Nat → Nat} (hf : TakesBits fn (typeBits s.hart.ty) f) (o : OneHole s a j k p) (hda : d ≠ a)
    (hba : b ≠ a) (hj : j ∈ s.hart.active m) :
    ∃ t row, exec i s = .next t ∧ t.mem = s.mem ∧
      (t.core s.here).land.entries = insert [(k, p)] (besideEntry k) { linkedHole s i fn d a b k j with row := row } ∧
      t.hart.unnoted = ((s.hart.setElems d.toNat (typeBits s.hart.ty) (((s.hart.active m).filter fun e => e != j).map fun e =>
        (e, f (elemOf (s.hart.getV a.toNat) (typeBits s.hart.ty) e) (elemOf (s.hart.getV b.toNat) (typeBits s.hart.ty) e)))).afterVector
          4 0 false).unnoted := by
  let n := typeBits s.hart.ty
  let w : Nat → Nat × Nat := fun e => (f (elemOf (s.hart.getV a.toNat) n e) (elemOf (s.hart.getV b.toNat) n e), 0)
  let row := newRow ((dispatchedState s i).core s.here) s.me (entryOf s i) d
  let q : LEntry := { linkedHole s i fn d a b k j with row := row }
  have hn := typeBits_pos s.hart.ty
  have hq : Owes s.me d n j q := (linkedHole_owes h hvl hg h8 hj k).inRow row
  have hl : (entryOf s i).vl = s.hart.vec.vl := hi.vl.trans (Nat.min_eq_left hvl)
  have hsc' : (entryOf s i).scaled = false := (congrArg (fun w => w.getLsbD 4) hi.vtype).trans hsc
  have hx := hi.runs (dispatchedState s i)
  rw [intLane_accepts hsc' (hi.ty.symm ▸ hty), hi.ty] at hx
  have hrs : (activeElems s.hart m.toNat (entryOf s i).vl).map
      (laneElem s.here s.me (entryOf s i) (intOpOf fn s.hart.ty d a b) none (dispatchedState s i)) =
      (s.hart.active m).map (mixed (fun e => e != j) (linkedHole s i fn d a b k) w) := by
    rw [hl]
    exact List.map_congr_left fun e _ => laneElem_linked hty hf ((o.holes i a).trans (if_pos rfl))
      ((o.holes i b).trans (if_neg hba.symm)) o.index o.width o.live e
  have hv : (entryOf s i).vl ≠ 0 := fun e => by
    have := lt_vl_of_active hj
    rw [← hl, e] at this
    exact absurd this (Nat.not_lt_zero _)
  have hholed : ((s.hart.active m).map (mixed (fun e => e != j) (linkedHole s i fn d a b k) w)).filterMap Elem.holed =
      [linkedHole s i fn d a b k j] := by
    rw [holed_mixed, filter_eq_singleton (nodup_active _ _) hj]
    rfl
  have htake : Leaves s.here s.me (insert [(k, p)] (besideEntry k) q) ((dispatchedState s i).hartAt s.here s.me) (dispatchedState s i)
      ([linkedHole s i fn d a b k j].foldl (fun t x => takeEntry s.here s.me row x t) (dispatchedState s i)) :=
    ((Leaves.refl s.here s.me (dispatchedState s i)).congr (o.dispatched i)).takeEntry (freeEntry_one (o.dispatched i) s.me) row _
  have hs : Standing (insert [(k, p)] (besideEntry k) q) := fun x hx => by
    rcases mem_insert_one hx with e | e <;> rw [e]
    · exact ⟨o.live_ne, o.good⟩
    · exact ⟨hq.live_ne hn, hq.good⟩
  have hw : ∀ x ∈ insert [(k, p)] (besideEntry k) q, x.2.hart.toNat = s.me → x.2.reg = d →
      ∀ y ∈ ((s.hart.active m).map (mixed (fun e => e != j) (linkedHole s i fn d a b k) w)).filterMap Elem.valued,
        y.1 ≠ x.2.index.toNat := by
    intro x hx _ hr y hy
    rw [valued_mixed] at hy
    obtain ⟨e, he, rfl⟩ := List.mem_map.1 hy
    rcases mem_insert_one hx with g | g <;> rw [g] at hr ⊢
    · exact absurd (hr.symm.trans o.reg) hda
    · rw [hq.index]
      exact bne_iff_ne.1 (List.mem_filter.1 he).2
  obtain ⟨t, ht, -, hm, hent, hhart, hhere, hme⟩ := h.elementwise_leaves (atOnce_of_plain hi.plain) (op := intOpOf fn s.hart.ty d a b)
    (d := d) rfl hx hrs hv ((o.holes i d).trans (if_neg hda.symm))
    (by rw [hholed]; exact entriesLeft_one (o.dispatched i) s.me) (by rw [hholed]; exact htake) hs hw
  rw [valued_mixed, flags_mixed, show consumesHere s i = false from hi.plain.ric _ _ _, foldl_noFlags] at hhart
  have hth : t.hartAt s.here s.me = t.hart := by rw [← hhere, ← hme]; rfl
  exact ⟨t, row, ht, hm, hent, hth ▸ hhart⟩

end

end Sys2Proof.Machine

namespace Sys2Proof.Machine

/-! ### The floating lane instructions (R72, R74, R75, R283, R284) -/

theorem laneCompute_arithmetic : ∀ fn ∈ arithmeticFns, ∀ ty mode rb a b c,
    laneCompute fn ty ty ty none mode rb a b c = fpCompute fn ty ty ty mode rb a b c := by
  simp only [arithmeticFns, List.forall_mem_cons, List.not_mem_nil, false_implies, implies_true, and_true]
  and_intros <;> intros <;> rfl

theorem laneCompute_single : ∀ fn ∈ singleFns, ∀ ty mode rb a,
    laneCompute fn ty ty ty none mode rb a 0 0 = fpCompute fn ty ty ty mode rb a 0 0 := by
  simp only [singleFns, List.forall_mem_cons, List.not_mem_nil, false_implies, implies_true, and_true]
  and_intros <;> intros <;> rfl

theorem floatRun_single (x : Hart) {fn : LaneFn} (hf : fn ≠ .fma) (d a : VReg) : floatRun x fn d a .none =
    ⟨fn, x.ty, x.ty, x.ty, elemOf (x.getV a.toNat) (typeBits x.ty), fun _ => 0, fun _ => 0⟩ := by
  rw [floatRun_eq]
  simp only [hf, if_false]
  rfl

section
variable {s : State}

theorem floatAccepts_pair {code ty : Nat} (hty : ty ∈ floatTypes) (hc : code ≤ 6) : floatAccepts code ty :=
  ⟨hty, fun h => absurd h (by omega)⟩

theorem mem_floatTypes_of_hard {ty : Nat} (h : ty = 13 ∨ ty = 14) : ty ∈ floatTypes := by
  rcases h with rfl | rfl <;> decide

/-- A row of one operand on a type that it accepts. -/
theorem floatAccepts_single {d a : VReg} {m : MReg} {row : (Instr × LaneFn × Bool) × Nat} {ty : Nat}
    (hr : row ∈ (floatSingles d a m).zipIdx) (hty : ty ∈ floatTypes) (h13 : row.1.2.2 = true → ty = 13) :
    floatAccepts (row.2 + 7) ty :=
  ⟨hty, fun h => h13 ((floatSingles_facts d a m row hr).2 h)⟩

end

/-- A sum whose first operand has one hole. -/
theorem vadd_linked {s : State} {d a b : VReg} {m : MReg} {j k : Nat} {p : LEntry} (h : Still s) (hvl : s.hart.VlFits)
    (hg : s.hart.vec.grant ≤ 64) (hsc : s.hart.vec.vtype.getLsbD 4 = false) (hty : s.hart.ty < 8) (o : OneHole s a j k p)
    (hda : d ≠ a) (hba : b ≠ a) (hj : j ∈ s.hart.active m) :
    let n := typeBits s.hart.ty
    ∃ t k' q, exec (.vadd d a b m) s = .next t ∧ k' ≠ k ∧ t.mem = s.mem ∧ t.hart.pc = s.hart.pc + 4 ∧ t.hart.fp = s.hart.fp ∧
      (∀ o, lookup (t.core s.here).land.entries o = if o = k then some p else if o = k' then some q else none) ∧
      q.hart = p.hart ∧ q.seq = (s.core s.here).land.seq ∧ q.pc = s.hart.pc ∧ q.cls = 63 ∧ q.index = p.index ∧ q.reg = d ∧
      q.live = p.live ∧ q.links = [⟨k, 0, 0, 0, n⟩] ∧ q.opb = BitVec.ofNat 64 (elemOf (s.hart.getV b.toNat) n j) ∧
      q.state = .waiting ∧ presentElem s.here s.me d.toNat n j t = false ∧
      (∀ e ∈ s.hart.active m, e ≠ j →
        elemOf (t.hart.getV d.toNat) n e = (elemOf (s.hart.getV a.toNat) n e + elemOf (s.hart.getV b.toNat) n e) % 2 ^ n) ∧
      ∀ e, e ∉ s.hart.active m → (e + 1) * n ≤ 16384 → elemOf (t.hart.getV d.toNat) n e = elemOf (s.hart.getV d.toNat) n e := by
  intro n
  have h8 : 8 ≤ typeBits s.hart.ty := by
    unfold typeBits
    split <;> omega
  have hi : IsIntLane s (.vadd d a b m) .add false d a (.reg b.toNat) m := isIntLane rfl rfl rfl fun _ => rfl
  obtain ⟨t, row, ht, hm, hent, hhart⟩ := hi.leavesLink h hvl hg hsc hty h8 (f := fun p q => (p + q) % 2 ^ n)
    (bitsFns_takesBits n _ List.mem_cons_self) o hda hba hj
  obtain ⟨hpc, -, -, hfp, hgetV⟩ := shown_afterVector hhart
  have hq := (linkedHole_owes (i := .vadd d a b m) (fn := .add) (d := d) (a := a) (b := b) h hvl hg h8 hj k).inRow row
  have hlook := fun o => (congrArg (fun l => lookup l o) hent).trans (lookup_insert_beside _ o)
  have hbeside := hlook (besideEntry k)
  rw [if_neg (besideEntry_ne k), if_pos rfl] at hbeside
  have hkeys : ((((s.hart.active m).filter fun e => e != j).map fun e => (e, (elemOf (s.hart.getV a.toNat) n e +
      elemOf (s.hart.getV b.toNat) n e) % 2 ^ n)).map (·.1)).Nodup := by
    rw [List.map_map]
    exact (List.map_id _).symm ▸ (nodup_active _ _).filter _
  refine ⟨t, besideEntry k, _, ht, besideEntry_ne k, hm, hpc, hfp.trans ?_, hlook, ?_, rfl, captureFor_pc s _, rfl, ?_, hq.reg,
    hq.live.trans o.live_eq.symm, rfl, rfl, rfl, hq.absent (typeBits_pos _) hbeside, fun e he hne => ?_, fun e he _ => ?_⟩
  · simp
  · exact BitVec.eq_of_toNat_eq (hq.hart.trans o.hart.symm)
  · exact BitVec.eq_of_toNat_eq (hq.index.trans o.index.symm)
  · rw [hgetV, elemOf_setElems_mem _ _ _ hkeys (List.mem_map.2 ⟨e, List.mem_filter.2 ⟨he, bne_iff_ne.2 hne⟩, rfl⟩)
      (active_in_register hvl hg he)]
    exact Nat.mod_mod _ _
  · rw [hgetV]
    refine elemOf_setElems_ne _ _ _ fun y hy heq => he ?_
    obtain ⟨i, hi, rfl⟩ := List.mem_map.1 hy
    exact heq ▸ (List.mem_filter.1 hi).1

/-- Settles O38. What the functions give is `arithmeticRounds` and `singleResults`; each row comes to one function
(`floatPairs_rows`, `floatSingles_rows`), whose elements all take values (`IsFloatLane.completes`) or leave holes
(`IsFloatLane.leavesHoles`); the operation that reads a hole is `IsIntLane.leavesLink`. -/
theorem floatLaneResults : Obligations.FloatLaneResults := by
  unfold Obligations.FloatLaneResults
  refine ⟨⟨arithmeticRounds laneCompute_arithmetic, singleResults laneCompute_single, ?_⟩, ?_, ?_⟩
  · intro s d a b x m h hvl hsc hty
    refine ⟨fun row hr => ?_, fun row hr h13 he => ?_⟩
    · obtain ⟨code, hz⟩ := exists_zipIdx_of_mem hr
      have k := floatPairs_rows hvl d a b x m _ hz
      have hv := k.vector.completes h hsc (floatAccepts_pair hty k.low)
      have hx := k.scalar.completes h hsc (floatAccepts_pair hty k.low)
      rw [floatRun_eq, ← Bool.and_assoc] at hv hx
      exact ⟨hv, hx⟩
    · obtain ⟨code, hz⟩ := exists_zipIdx_of_mem hr
      have hc := (floatSingles_rows hvl d a m _ hz).completes h hsc (floatAccepts_single hz hty h13)
      rw [floatRun_single _ (floatSingles_facts d a m _ hz).1, Bool.and_true] at hc
      exact hc he
  · intro s d a b x m h hvl hsc hty
    refine ⟨fun row hr => ?_, fun row hr h13 => ?_⟩
    · have k := floatPairs_rows hvl d a b x m row hr
      have hv := k.vector.leavesHoles h hvl hsc (floatAccepts_pair (mem_floatTypes_of_hard hty) k.low) hty
      have hx := k.scalar.leavesHoles h hvl hsc (floatAccepts_pair (mem_floatTypes_of_hard hty) k.low) hty
      rw [floatRun_eq, ← Bool.and_assoc] at hv hx
      exact ⟨hv, hx⟩
    · have hc := (floatSingles_rows hvl d a m row hr).leavesHoles h hvl hsc (floatAccepts_single hr (mem_floatTypes_of_hard hty) h13) hty
      rw [floatRun_single _ (floatSingles_facts d a m row hr).1, Bool.and_true] at hc
      exact hc
  · intro s d a b m k j p huser hviq hheld hstq hlag hstreams hloop hbreak hvl hg hsc hty hland _ hda hba hj h n hph hpr hpi hpw hpl hps
    have o : OneHole s a j k p := ⟨hland, hph, hpr, hpi, hpw, hpl, hps⟩
    have hst : Still s := ⟨huser, hviq, hheld, hstq, hlag, hstreams, hloop, hbreak, by
      rw [hland]
      intro y hy
      rw [List.mem_singleton.1 hy]
      exact ⟨o.live_ne, o.good⟩⟩
    exact vadd_linked hst hvl hg hsc hty o hda hba hj

end Sys2Proof.Machine
